-- ==== Sys2Proof/Word.lean ====
section
/-!
DEFINITION. The words of the module.
-/

namespace Sys2Proof

abbrev Byte := BitVec 8
abbrev W32 := BitVec 32
abbrev W64 := BitVec 64
/-- A native or device address: 48 bits (01_module R19, 02_gangs R25). -/
abbrev Addr := BitVec 48

end Sys2Proof
end

