-- ==== Sys2Proof/Machine/Bits.lean ====
section
/-!
DEFINITION. Bit fields, masks, byte order and the small arithmetic that the meanings share.
-/

namespace Sys2Proof

/-- The set bits of a 32-lane mask, lowest first. -/
def lanesOf (m : W32) : List Nat := (List.range 32).filter (fun l => m.getLsbD l)

/-- A saturating counter: it stops at `top` without wrapping (the "stops at" counters of the register tables). -/
def satAdd (top a n : Nat) : Nat := min top (a + n)

/-- Ceiling division, as the manual's `ceil(a / b)`. -/
def cdiv (a b : Nat) : Nat := (a + b - 1) / b

/-- Bits [hi:lo] of a number. -/
def bitsOf (x hi lo : Nat) : Nat := (x / 2 ^ lo) % 2 ^ (hi + 1 - lo)

/-- One bit of a number. -/
def bitOf (x i : Nat) : Bool := x / 2 ^ i % 2 == 1

def boolN (b : Bool) : Nat := if b then 1 else 0

/-- The bytes of a number, little-endian (every multi-byte field of the manual). -/
def leBytes : Nat → Nat → List Byte
  | 0, _ => []
  | n + 1, x => BitVec.ofNat 8 x :: leBytes n (x / 256)

/-- The number a little-endian byte list spells. -/
def ofLe : List Byte → Nat
  | [] => 0
  | b :: bs => b.toNat + 256 * ofLe bs

end Sys2Proof
end

