-- ==== Sys2Proof/Syntax.lean ====
section
/-!
DEFINITION. The commands of the module: one constructor per row of spec/opcode_table.json, in the table's order.

A command stands for one event of the module or of what surrounds it. A gang instruction carries its Sett fields
(03_sett R69 to R91) because the native encoding is private to the stepping (02_gangs R64, R556); a queue record
carries only the queue, because its fields stand in the words the queue fetched (09_queues R254, R260); a message or
reply in flight is named by its place in the module's list of messages in flight; a timed event carries the
global time in nanoseconds at which it happens.
-/

namespace Sys2Proof

/-- The gang that issues an instruction: its core, its slot, and the native address of the instruction that
follows (02_gangs R25, R33). -/
structure GangAt where
  core : Nat
  slot : Nat
  next : Addr
  deriving DecidableEq, Repr

/-- The fields of format V with the common header (03_sett R70, R75) and the extension word (R69, R76). -/
structure VForm where
  qp : Nat := 0
  qn : Bool := false
  ib : Bool := false
  ic : Bool := false
  d : Nat := 0
  a : Nat := 0
  b : Nat := 0
  c : Nat := 0
  bs : Bool := false
  cs : Bool := false
  ty : Nat := 0
  rnd : Nat := 0
  sat : Bool := false
  opx : Nat := 0
  ext : W64 := 0
  deriving DecidableEq, Repr

/-- The fields of format M (03_sett R83). -/
structure MForm where
  x : Nat := 0
  a : Nat := 0
  b : Nat := 0
  c : Nat := 0
  fa : Nat := 0
  fb : Nat := 0
  ms : Nat := 0
  ns : Nat := 0
  ks : Nat := 0
  cvp : Nat := 0
  deriving DecidableEq, Repr

/-- The fields of format T (03_sett R87). -/
structure TForm where
  src : Nat := 0
  ib : Bool := false
  tid : Nat := 0
  tmo : Nat := 0
  ext : W64 := 0
  deriving DecidableEq, Repr

/-- The fields of format F (03_sett R89). -/
structure FForm where
  d : Nat := 0
  a : Nat := 0
  b : Nat := 0
  ib : Bool := false
  sc : Nat := 0
  fk : Nat := 0
  tmo : Nat := 0
  ext : W64 := 0
  deriving DecidableEq, Repr

/-- The fields of format A (03_sett R91). -/
structure AForm where
  d : Nat := 0
  a : Nat := 0
  ib : Bool := false
  aln : Nat := 0
  pool : Nat := 0
  ext : W64 := 0
  deriving DecidableEq, Repr

/-- Why a port leaves UP (15_haul_twin R402). -/
inductive LeaveCause where
  | signalLoss
  | uncorrectable
  | retryRounds
  deriving DecidableEq, Repr

/-- What a frame carries, by its type (15_haul_twin R404). -/
inductive FrameBody where
  | claim (job id gen base length sigTid : Nat) (sigEn : Bool) (sigInc : Nat)
  | claimAck (id status : Nat)
  | write (offset idx id gen : Nat) (data : List Byte)
  | commitAck (id idx : Nat) (final : Bool)
  | signal (job tid count sigId gen : Nat)
  | signalAck (sigId : Nat)
  | claimEnd (id : Nat)
  | heartbeat (pair settled : Nat)
  | hello (serial : List Byte) (node slotId twinSlot flags settled heldA heldB : Nat)
  | mirrorWrite (offset : Nat) (buf live : Bool) (data : List Byte)
  | mirrorAck (offset : Nat) (buf live : Bool)
  | settle (epoch : Nat) (live buf raced : Bool) (units : Nat)
  | settleAck (epoch : Nat) (live ok : Bool)
  | restoreReq (epoch : Nat)
  deriving DecidableEq, Repr

/-- A sequenced frame as it arrives (15_haul_twin R403): its virtual lane, link sequence number, forwardings taken,
nodes, whether its CRC and form are right, and its body. -/
structure Frame where
  vl : Nat
  seq : Nat
  hops : Nat
  dst : Nat
  src : Nat
  good : Bool
  body : FrameBody
  deriving DecidableEq, Repr

/-- What a LINK frame and its trailer carry (15_haul_twin R403, R404). -/
structure LinkFrame where
  ackValid : Bool
  ackSeq : Nat
  nack : Bool
  nackSeq : Nat
  creditVl : Nat
  creditCount : Nat
  deriving DecidableEq, Repr

/-- What the sensors of a control period read (16_governor R451), in the units of the registers of R462 to R464: the
highest junction temperature of each die and of the hub, 0.125 °C; rail power and the mean load of the last 1 ms, 0.25 W;
volts and amperes in hundredths; thermistors in 1/16 °C, none when open or short; flow in mL/min; fans in rpm. -/
structure Samples where
  tj : List Nat
  hubTj : Nat
  rail : List Nat
  vIn : Nat
  iIn : Nat
  vBus : Nat
  meanLoad : Nat
  tIn : Option Int
  tOut : Option Int
  flow : Nat
  rpm : List Nat
  deriving DecidableEq, Repr

/-- One core that the start-up self-test found failing (19_debug_test R533, R534). -/
structure CoreFail where
  core : Nat
  unit : Nat
  place : Nat
  deriving DecidableEq, Repr

/-- The commands, one per row of spec/opcode_table.json. -/
inductive Instr where
  /-- REGISTER_WRITE (R7). -/
  | registerWrite (offset size value : Nat)
  /-- NOP_INSN (R74). -/
  | nopInsn (g : GangAt)
  /-- BR (R36). -/
  | br (g : GangAt) (p : Nat) (pn : Bool) (tgt join : Addr)
  /-- BRA (R77). -/
  | bra (g : GangAt) (tgt : Addr)
  /-- LOOP_INSN (R41). -/
  | loopInsn (g : GangAt) (sreg : Nat) (last after : Addr)
  /-- EXIT (R79). -/
  | exit (g : GangAt) (qp : Nat) (qn : Bool)
  /-- ADD_SCALAR (R92). -/
  | addScalar (g : GangAt) (f : VForm)
  /-- SUB_SCALAR (R92). -/
  | subScalar (g : GangAt) (f : VForm)
  /-- MUL_SCALAR (R92). -/
  | mulScalar (g : GangAt) (f : VForm)
  /-- MULHI_SCALAR (R92). -/
  | mulhiScalar (g : GangAt) (f : VForm)
  /-- AND_SCALAR (R92). -/
  | andScalar (g : GangAt) (f : VForm)
  /-- OR_SCALAR (R92). -/
  | orScalar (g : GangAt) (f : VForm)
  /-- XOR_SCALAR (R92). -/
  | xorScalar (g : GangAt) (f : VForm)
  /-- SHL_SCALAR (R92). -/
  | shlScalar (g : GangAt) (f : VForm)
  /-- SHR_SCALAR (R92). -/
  | shrScalar (g : GangAt) (f : VForm)
  /-- SAR_SCALAR (R92). -/
  | sarScalar (g : GangAt) (f : VForm)
  /-- MIN_SCALAR (R92). -/
  | minScalar (g : GangAt) (f : VForm)
  /-- MAX_SCALAR (R92). -/
  | maxScalar (g : GangAt) (f : VForm)
  /-- MOV_SCALAR (R92). -/
  | movScalar (g : GangAt) (f : VForm)
  /-- CADDR (R92). -/
  | caddr (g : GangAt) (f : VForm) (constBase : Addr)
  /-- ADD_VECTOR (R92). -/
  | addVector (g : GangAt) (f : VForm)
  /-- SUB_VECTOR (R92). -/
  | subVector (g : GangAt) (f : VForm)
  /-- MUL_VECTOR (R92). -/
  | mulVector (g : GangAt) (f : VForm)
  /-- MULHI_VECTOR (R92). -/
  | mulhiVector (g : GangAt) (f : VForm)
  /-- AND_VECTOR (R92). -/
  | andVector (g : GangAt) (f : VForm)
  /-- OR_VECTOR (R92). -/
  | orVector (g : GangAt) (f : VForm)
  /-- XOR_VECTOR (R92). -/
  | xorVector (g : GangAt) (f : VForm)
  /-- SHL_VECTOR (R92). -/
  | shlVector (g : GangAt) (f : VForm)
  /-- SHR_VECTOR (R92). -/
  | shrVector (g : GangAt) (f : VForm)
  /-- SAR_VECTOR (R92). -/
  | sarVector (g : GangAt) (f : VForm)
  /-- MIN_VECTOR (R92). -/
  | minVector (g : GangAt) (f : VForm)
  /-- MAX_VECTOR (R92). -/
  | maxVector (g : GangAt) (f : VForm)
  /-- MOV_VECTOR (R92). -/
  | movVector (g : GangAt) (f : VForm)
  /-- SEL (R92). -/
  | sel (g : GangAt) (f : VForm)
  /-- POPC (R92). -/
  | popc (g : GangAt) (f : VForm)
  /-- CLZ (R92). -/
  | clz (g : GangAt) (f : VForm)
  /-- FADD (R92). -/
  | fadd (g : GangAt) (f : VForm)
  /-- FSUB (R92). -/
  | fsub (g : GangAt) (f : VForm)
  /-- FMUL (R92). -/
  | fmul (g : GangAt) (f : VForm)
  /-- FFMA (R92). -/
  | ffma (g : GangAt) (f : VForm)
  /-- FMIN (R92). -/
  | fmin (g : GangAt) (f : VForm)
  /-- FMAX (R92). -/
  | fmax (g : GangAt) (f : VForm)
  /-- FABS (R92). -/
  | fabs (g : GangAt) (f : VForm)
  /-- FNEG (R92). -/
  | fneg (g : GangAt) (f : VForm)
  /-- FRCP (R93). -/
  | frcp (g : GangAt) (f : VForm)
  /-- FSQRT (R92). -/
  | fsqrt (g : GangAt) (f : VForm)
  /-- FRSQ (R93). -/
  | frsq (g : GangAt) (f : VForm)
  /-- FEX2 (R93). -/
  | fex2 (g : GangAt) (f : VForm)
  /-- FLG2 (R93). -/
  | flg2 (g : GangAt) (f : VForm)
  /-- FDIV (R92). -/
  | fdiv (g : GangAt) (f : VForm)
  /-- CVT (R95). -/
  | cvt (g : GangAt) (f : VForm)
  /-- PACK (R92). -/
  | pack (g : GangAt) (f : VForm)
  /-- BPERM (R92). -/
  | bperm (g : GangAt) (f : VForm)
  /-- SHFL (R94). -/
  | shfl (g : GangAt) (f : VForm)
  /-- RED (R94). -/
  | red (g : GangAt) (f : VForm)
  /-- SETP (R80). -/
  | setp (g : GangAt) (f : VForm)
  /-- PLOG (R80). -/
  | plog (g : GangAt) (f : VForm)
  /-- PBAL (R80). -/
  | pbal (g : GangAt) (f : VForm)
  /-- PSET (R80). -/
  | pset (g : GangAt) (f : VForm)
  /-- SCMP (R80). -/
  | scmp (g : GangAt) (f : VForm)
  /-- SLD (R44). -/
  | sld (g : GangAt) (f : VForm)
  /-- SST (R44). -/
  | sst (g : GangAt) (f : VForm)
  /-- LD (R52). -/
  | ld (g : GangAt) (f : VForm)
  /-- ST (R233). -/
  | st (g : GangAt) (f : VForm)
  /-- ATOM (R54). -/
  | atom (g : GangAt) (f : VForm)
  /-- ATOM_COMPLETE (R55). -/
  | atomComplete (k : Nat)
  /-- MMA (R121). -/
  | mma (g : GangAt) (f : MForm)
  /-- MMAZ (R121). -/
  | mmaz (g : GangAt) (f : MForm)
  /-- GANG_MDRAIN (R83). -/
  | gangMdrain (g : GangAt) (f : MForm)
  /-- MCLR (R83). -/
  | mclr (g : GangAt) (f : MForm)
  /-- GANG_MATRIX_ACCEPT (R120). -/
  | gangMatrixAccept (core now : Nat)
  /-- TSIG (R87). -/
  | tsig (g : GangAt) (f : TForm)
  /-- TWAIT (R87). -/
  | twait (g : GangAt) (f : TForm)
  /-- TREAD (R309). -/
  | tread (g : GangAt) (f : TForm)
  /-- FENCE_INSN (R89). -/
  | fenceInsn (g : GangAt) (f : FForm)
  /-- FSIG (R90). -/
  | fsig (g : GangAt) (f : FForm)
  /-- FWAIT (R90). -/
  | fwait (g : GangAt) (f : FForm)
  /-- FWAIT_POLL (R90). -/
  | fwaitPoll (core slot : Nat)
  /-- FENCE_OBJECT_REPLY (R90). -/
  | fenceObjectReply (k : Nat)
  /-- FAR_CACHE_RELEASE_DONE (R241). -/
  | farCacheReleaseDone (core : Nat)
  /-- ALLOC (R91). -/
  | alloc (g : GangAt) (f : AForm)
  /-- ALLOC_REPLY (R363). -/
  | allocReply (k : Nat)
  /-- FREE (R364). -/
  | free (g : GangAt) (f : AForm)
  /-- CODE_FETCH (R556). -/
  | codeFetch (core slot : Nat)
  /-- FAR_CACHE_FILL (R232). -/
  | farCacheFill (core k : Nat) (hostOk : Bool) (hostData : List Byte)
  /-- WRITEBACK_ACCEPT (R234). -/
  | writebackAccept (core k : Nat)
  /-- GANG_START (R29). -/
  | gangStart (core : Nat)
  /-- LAUNCH_RETIRE (R30). -/
  | launchRetire (core id : Nat)
  /-- LAUNCH_TIMEOUT (R32). -/
  | launchTimeout (core id now : Nat)
  /-- QDB (R253). -/
  | qdb (ctx qid tail : Nat)
  /-- RING_FETCH (R254). -/
  | ringFetch (core eng : Nat) (hostOk : Bool) (hostData : List Byte)
  /-- NOP (R262). -/
  | nopRec (core eng : Nat)
  /-- WAIT (R263). -/
  | waitRec (core eng : Nat)
  /-- SIGNAL (R264). -/
  | signalRec (core eng : Nat)
  /-- BARRIER (R266). -/
  | barrierRec (core eng : Nat)
  /-- REBASE (R267). -/
  | rebaseRec (core eng : Nat)
  /-- LOOP (R268). -/
  | loopRec (core eng : Nat)
  /-- LOOP_COUNT_READ (R268). -/
  | loopCountRead (core eng : Nat)
  /-- PHASE (R270). -/
  | phaseRec (core eng : Nat)
  /-- PHASE_MARK (R299). -/
  | phaseMark (die now : Nat)
  /-- POWER (R271). -/
  | powerRec (core eng : Nat)
  /-- BANK_OFF (R165). -/
  | bankOff (core bank : Nat)
  /-- BANK_ON (R167). -/
  | bankOn (core bank : Nat)
  /-- CLEAR_FLAGS (R271). -/
  | clearFlags (core eng : Nat)
  /-- FENCE (R272). -/
  | fenceRec (core eng : Nat)
  /-- LAUNCH (R273). -/
  | launchRec (core eng : Nat)
  /-- MATMUL (R116). -/
  | matmul (core eng : Nat)
  /-- CHUTE_STARVE (R110). -/
  | chuteStarve (core : Nat)
  /-- MATMUL_RETIRE (R117). -/
  | matmulRetire (core : Nat)
  /-- MDRAIN (R275). -/
  | mdrain (core eng : Nat)
  /-- MCLEAR (R275). -/
  | mclear (core eng : Nat)
  /-- GANG_WINDOW (R119). -/
  | gangWindow (core eng : Nat)
  /-- GANG_WINDOW_CLOSE (R119). -/
  | gangWindowClose (core now : Nat)
  /-- MOVE (R177). -/
  | move (core eng : Nat)
  /-- MOVE_REQUEST_COMPLETE (R182). -/
  | moveRequestComplete (core eng k : Nat)
  /-- FALLBACK_SLAB (R192). -/
  | fallbackSlab (core eng k : Nat)
  /-- CREDIT_RETURN (R197). -/
  | creditReturn (core eng : Nat)
  /-- LANDING_WRITE (R154). -/
  | landingWrite (core : Nat) (slot : Bool)
  /-- UNPLANNED_GRANT (R152). -/
  | unplannedGrant (core : Nat) (rdFree : Nat) (wrFree : Bool) (busy : W32)
  /-- ECC_REWRITE (R163). -/
  | eccRewrite (core : Nat) (wrFree : Bool)
  /-- REMOTE_SLAB_ACCESS (R169). -/
  | remoteSlabAccess (k : Nat)
  /-- HOST_PAGE_CHECK (R203). -/
  | hostPageCheck (core unit id page : Nat) (ok : Bool) (data : List Byte)
  /-- CONTEXT_SUSPEND (R365). -/
  | contextSuspend (ctx now : Nat)
  /-- TOKEN_ARRIVAL (R315). -/
  | tokenArrival (k : Nat)
  /-- TALLY_OPERATION (R306). -/
  | tallyOperation (k : Nat)
  /-- WATCH (R308). -/
  | watch (k : Nat)
  /-- WATCH_RETRY (R308). -/
  | watchRetry (k : Nat)
  /-- WAKE (R307). -/
  | wake (k : Nat)
  /-- SYNC_TIMEOUT (R320). -/
  | syncTimeout (core unit now : Nat)
  /-- BARRIER_ARRIVAL (R317). -/
  | barrierArrival (k : Nat)
  /-- BARRIER_RELEASE (R318). -/
  | barrierRelease (k : Nat)
  /-- QUEUE_COMMIT (R285). -/
  | queueCommit (core eng : Nat)
  /-- QUEUE_COMMIT_EFFECT (R285). -/
  | queueCommitEffect (core eng : Nat)
  /-- HALT (R279). -/
  | halt (core eng : Nat) (value : Bool)
  /-- STEP (R280). -/
  | stepOne (core eng : Nat)
  /-- BRK_EN (R282). -/
  | brkEn (core eng : Nat) (value : Bool)
  /-- CVT_COMMIT (R137). -/
  | cvtCommit (core mask : Nat)
  /-- PLACEMENT_ATTEMPT (R352). -/
  | placementAttempt (now : Nat)
  /-- SWITCH_OUT (R356). -/
  | switchOut (ctx : Nat)
  /-- WINDOW_APPLY (R350). -/
  | windowApply (ctx : Nat)
  /-- CONTEXT_KILL (R367). -/
  | contextKill (ctx : Nat)
  /-- KILL_DRAIN_DONE (R367). -/
  | killDrainDone (ctx : Nat)
  /-- REF_BATCH_RETIRE (R361). -/
  | refBatchRetire (ctx k : Nat)
  /-- SET_TABLES (R351). -/
  | setTables
  /-- CTX_START (R347). -/
  | ctxStart
  /-- CTX_HOLD (R351). -/
  | ctxHold
  /-- CTX_RESUME (R366). -/
  | ctxResume
  /-- CTX_KILL (R351). -/
  | ctxKill
  /-- CTX_DESTROY (R351). -/
  | ctxDestroy
  /-- SET_WINDOW (R350). -/
  | setWindow
  /-- CTX_ACK (R351). -/
  | ctxAck
  /-- OBJ_CREATE (R358). -/
  | objCreate
  /-- OBJ_HOST_ZERO (R359). -/
  | objHostZero
  /-- REF_BATCH (R361). -/
  | refBatch
  /-- BAR2_READ (R383). -/
  | bar2Read (offset size : Nat)
  /-- BAR2_WRITE (R383). -/
  | bar2Write (offset : Nat) (data : List Byte)
  /-- FUNCTION_RESET (R397). -/
  | functionReset
  /-- PERST_ASSERT (R502). -/
  | perstAssert
  /-- PERST_DEASSERT (R388). -/
  | perstDeassert (now : Nat)
  /-- EVQ_COMMIT (R387). -/
  | evqCommit
  /-- MAILBOX_SEND (R391). -/
  | mailboxSend (channel sender header : Nat)
  /-- RPOP (R393). -/
  | rpop (channel : Nat)
  /-- DB_CLR (R395). -/
  | dbClr (mask sets : W32)
  /-- PLACE (R395). -/
  | place (now : Nat)
  /-- DRIVER_DOWN (R395). -/
  | driverDown
  /-- SENSE (R395). -/
  | sense
  /-- LINKS (R395). -/
  | links
  /-- DB_STRAY (R395). -/
  | dbStray (core bit : Nat)
  /-- TRAINING_ATTEMPT (R402). -/
  | trainingAttempt (port : Nat) (ok : Bool) (peerNode peerPort : Nat) (peerSerial : List Byte)
  /-- TRAINING_RETRY (R402). -/
  | trainingRetry (port : Nat)
  /-- PORT_LEAVE_UP (R402). -/
  | portLeaveUp (port : Nat) (cause : LeaveCause)
  /-- CODEWORD_UNCORRECTABLE (R400). -/
  | codewordUncorrectable (port : Nat)
  /-- LINK (R404). -/
  | link (port : Nat) (h : LinkFrame)
  /-- RETRY_TIMEOUT (R407). -/
  | retryTimeout (port : Nat)
  /-- FORWARD_TIMEOUT (R406). -/
  | forwardTimeout (port k : Nat)
  /-- CLAIM (R410). -/
  | claim (port : Nat) (f : Frame)
  /-- CLAIM_ACK (R410). -/
  | claimAck (port : Nat) (f : Frame)
  /-- CLAIM_RETRY (R410). -/
  | claimRetry (id : Nat)
  /-- WRITE (R411). -/
  | writeFrame (port : Nat) (f : Frame)
  /-- COMMIT_ACK (R411). -/
  | commitAck (port : Nat) (f : Frame)
  /-- CLAIM_END (R412). -/
  | claimEnd (port : Nat) (f : Frame)
  /-- SIGNAL_FRAME (R413). -/
  | signalFrame (port : Nat) (f : Frame)
  /-- SIGNAL_ACK (R413). -/
  | signalAck (port : Nat) (f : Frame)
  /-- RESEND_TIMEOUT (R414). -/
  | resendTimeout (signals : Bool) (id : Nat)
  /-- HELLO (R415). -/
  | hello (port : Nat) (f : Frame)
  /-- HEARTBEAT (R416). -/
  | heartbeat (port : Nat) (f : Frame) (now : Nat)
  /-- HEARTBEAT_TIMER (R416). -/
  | heartbeatTimer (now : Nat)
  /-- PARTNER_LOST (R427). -/
  | partnerLost (now : Nat)
  /-- EPOCH_POLL (R420). -/
  | epochPoll
  /-- MIRROR_WRITE (R422). -/
  | mirrorWrite (port : Nat) (f : Frame)
  /-- MIRROR_ACK (R422). -/
  | mirrorAck (port : Nat) (f : Frame)
  /-- SETTLE (R423). -/
  | settle (port : Nat) (f : Frame)
  /-- SETTLE_ACK (R423). -/
  | settleAck (port : Nat) (f : Frame)
  /-- RESTORE_REQ (R430). -/
  | restoreReq (port : Nat) (f : Frame)
  /-- ROUTE_LOAD (R432). -/
  | routeLoad
  /-- JOB_SET (R432). -/
  | jobSet
  /-- JOB_CLEAR (R432). -/
  | jobClear
  /-- MIRROR_SET (R417). -/
  | mirrorSet
  /-- MIRROR_CLEAR (R432). -/
  | mirrorClear
  /-- SHADOW_SET (R432). -/
  | shadowSet
  /-- RESTORE (R430). -/
  | restore
  /-- RETRAIN (R432). -/
  | retrain
  /-- PORT_RETRAIN (R435). -/
  | portRetrain (port : Nat)
  /-- REMOVE_REQ (R508). -/
  | removeReq (now : Nat)
  /-- REMOVAL_SETTLE_TIMEOUT (R428). -/
  | removalSettleTimeout (now : Nat)
  /-- REMOVAL_DRAIN_TIMEOUT (R508). -/
  | removalDrainTimeout (now : Nat)
  /-- REMOVAL_SAFE (R508). -/
  | removalSafe (now : Nat)
  /-- REMOVE_CANCEL (R509). -/
  | removeCancel (now : Nat)
  /-- CONTROL_PERIOD (R457). -/
  | controlPeriod (now : Nat) (x : Samples)
  /-- FAN_FAULT (R453). -/
  | fanFault (fan now : Nat)
  /-- FLOW_FAULT (R453). -/
  | flowFault (now : Nat)
  /-- MODEL_MISMATCH (R460). -/
  | modelMismatch (now : Nat)
  /-- MODEL_MISMATCH_CLEAR (R460). -/
  | modelMismatchClear
  /-- FORECAST_PUBLISH (R461). -/
  | forecastPublish (now : Nat)
  /-- CEILING_COMMIT (R462). -/
  | ceilingCommit
  /-- TRIP_105 (R449). -/
  | tripHot (die eighths now : Nat)
  /-- TRIP_105_RELEASE (R449). -/
  | tripHotRelease (die eighths now : Nat)
  /-- BUS_TRIP (R449). -/
  | busTrip (cv now : Nat)
  /-- BUS_TRIP_RELEASE (R449). -/
  | busTripRelease (cv : Nat)
  /-- SHUTDOWN (R450). -/
  | shutdown (bus : Bool) (die reading : Nat)
  /-- BREACH (R441). -/
  | breach (cv : Nat)
  /-- INPUT_OVERVOLTAGE (R538). -/
  | inputOvervoltage (cv : Nat)
  /-- INPUT_RESTART (R538). -/
  | inputRestart (cv : Nat)
  /-- INPUT_LOSS (R538). -/
  | inputLoss (cv : Nat)
  /-- AUX_POWER_LOSS (R540). -/
  | auxPowerLoss
  /-- GET_STATUS (R465). -/
  | getStatus
  /-- GET_FORECAST (R465). -/
  | getForecast
  /-- COLD_RESET (R506). -/
  | coldReset (slotPins : Nat)
  /-- SITE_IMAGE_APPLY (R476). -/
  | siteImageApply (copyA copyB : List Byte) (readsB : Bool)
  /-- FALLBACK (R484). -/
  | fallback
  /-- GATEKEEPER_ONLY (R388). -/
  | gatekeeperOnly (now : Nat)
  /-- BUS_PRECHARGE_DONE (R505). -/
  | busPrechargeDone
  /-- DIE_RESET_RELEASE (R506). -/
  | dieResetRelease (die : Nat)
  /-- FAR_MEMORY_READY (R557). -/
  | farMemoryReady
  /-- WARM_RESET (R503). -/
  | warmReset (key : Nat) (warm : Bool)
  /-- TIME_BASE_CORRECTION (R500). -/
  | timeBaseCorrection
  /-- SCRUB (R223). -/
  | scrub (channel block : Nat)
  /-- REFRESH_RATE_POLL (R226). -/
  | refreshRatePoll (controller : Nat) (hot : Bool)
  /-- WCK_RETUNE (R229). -/
  | wckRetune (channel : Nat) (running : Bool)
  /-- FW_BEGIN (R485). -/
  | fwBegin
  /-- FW_DATA (R485). -/
  | fwData
  /-- FW_END (R485). -/
  | fwEnd
  /-- FW_COMMIT (R486). -/
  | fwCommit
  /-- OWNER_PROGRAM (R481). -/
  | ownerProgram
  /-- OWNER_REVOKE (R481). -/
  | ownerRevoke
  /-- ATTEST (R488). -/
  | attest
  /-- GET_CERT (R487). -/
  | getCert
  /-- GET_MARK (R489). -/
  | getMark
  /-- GET_TRUST (R489). -/
  | getTrust
  /-- MB_SEND (R491). -/
  | mbSend (pecOk : Bool) (channel : Nat) (words : List W32)
  /-- MB_RECV (R491). -/
  | mbRecv (pecOk : Bool) (channel : Nat)
  /-- BUF_SEEK (R491). -/
  | bufSeek (pecOk : Bool) (offset : Nat)
  /-- BUF_READ (R491). -/
  | bufRead (pecOk : Bool)
  /-- BUF_WRITE (R491). -/
  | bufWrite (pecOk : Bool) (data : List Byte)
  /-- STATUS (R491). -/
  | status (pecOk : Bool)
  /-- SELF_TEST_COMPLETE (R533). -/
  | selfTestComplete (cores : List CoreFail) (bridges : List Nat)
  /-- CLEAR (R514). -/
  | clear (core : Nat)
  /-- TRACE_DRAIN (R520). -/
  | traceDrain (core : Nat)
  /-- TRACE_CHUNK_DONE (R520). -/
  | traceChunkDone (core : Nat)
  /-- TRACE_COMMIT (R522). -/
  | traceCommit (core : Nat)
  /-- CTX_HALT (R524). -/
  | ctxHalt (ctx : Nat) (value : Bool)
  /-- SOUNDING_COMMIT (R528). -/
  | soundingCommit (port : Nat)
  /-- INJECT (R529). -/
  | inject (port : Nat)
  /-- START (R531). -/
  | start (bridge : Nat)
  /-- BRIDGE_SOUNDING_END (R531). -/
  | bridgeSoundingEnd (bridge : Nat)
  /-- COMPLETION_TIMEOUT (R379). -/
  | completionTimeout (core unit id page : Nat)
  /-- LOCK (R529). -/
  | lock (bridge : Bool) (port lane : Nat)
  /-- LOST (R529). -/
  | lost (port lane : Nat)
  /-- COUNTER_RECORD_WRITE (R517). -/
  | counterRecordWrite (core : Nat)
  /-- INPUT_APPLIED (R505). -/
  | inputApplied (cv : Nat)
  /-- LINK_TRAINED (R388). -/
  | linkTrained (speed width : Nat) (flit : Bool)
  /-- REMOTE_SLD_REPLY (R48). -/
  | remoteSldReply (k : Nat)
  /-- TREAD_REPLY (R309). -/
  | treadReply (k : Nat)
  /-- EPOCH_RECORD (R519). -/
  | epochRecord (core : Nat)
  deriving DecidableEq, Repr

end Sys2Proof
end

