-- ==== Sys2Proof/Machine/Loader.lean ====
section
/-!
DEFINITION. Which instructions the Kurum loader accepts (03_sett R69 to R98), and which operands name a unit that
the module has. The gang engine executes what the loader produced; a gang instruction whose fields the loader would
reject is an undefined native encoding (02_gangs R64), so its meaning raises ILLEGAL_INSN.
-/

namespace Sys2Proof

/-- The loader's error codes (R98). -/
inductive LoadErr where
  | magic | version | length | sections | entry
  | opcode | reserved | type | round | operand | specialDest | specialUse | align | imm | pred
  | target | join | nestDiv | nestLoop | loopRegion | fallOff | loopNest
  | matrixDivergent | matrixShape | regRange | accRange | accWindow
  | tally | nativeSize
  deriving DecidableEq, Repr

/-- The numbers of R98. -/
def LoadErr.code : LoadErr → Nat
  | .magic => 0x0101
  | .version => 0x0102
  | .length => 0x0103
  | .sections => 0x0104
  | .entry => 0x0105
  | .opcode => 0x0201
  | .reserved => 0x0202
  | .type => 0x0203
  | .round => 0x0204
  | .operand => 0x0205
  | .specialDest => 0x0206
  | .specialUse => 0x0207
  | .align => 0x0208
  | .imm => 0x0209
  | .pred => 0x020A
  | .target => 0x0301
  | .join => 0x0302
  | .nestDiv => 0x0303
  | .nestLoop => 0x0304
  | .loopRegion => 0x0305
  | .fallOff => 0x0306
  | .loopNest => 0x0307
  | .matrixDivergent => 0x0401
  | .matrixShape => 0x0402
  | .regRange => 0x0403
  | .accRange => 0x0404
  | .accWindow => 0x0405
  | .tally => 0x0501
  | .nativeSize => 0x0601

/-- The kind of a register operand (R71). -/
inductive OpKind where
  | absent
  | vector
  | scalar
  | predicate
  deriving DecidableEq, Repr

/-- What one opcode of format V accepts: its slot, its operands' kinds, its types, the bits of OPX it uses, whether
RND may be 1, and whether it uses SAT (R70 to R76, R80, R92). -/
structure VSpec where
  vslot : Bool
  d : OpKind
  a : OpKind
  b : OpKind
  c : OpKind
  types : List Nat
  opxMask : Nat
  opxTop : Nat
  rnd1 : Bool
  sat : Bool
  deriving DecidableEq, Repr

/-- Bits of a type code (R73). -/
def tyWidth (t : Nat) : Nat :=
  if t = 2 ∨ t = 3 then 64
  else if t = 7 ∨ t = 8 ∨ t = 9 ∨ t = 10 then 8
  else if t = 5 ∨ t = 6 ∨ t = 11 ∨ t = 12 then 16
  else 32

/-- The signed integer types (R73). -/
def tySigned (t : Nat) : Bool := t == 1 || t == 3 || t == 10 || t == 12

/-- The floating-point types (R73). -/
def tyFloat (t : Nat) : Bool := 4 ≤ t && t ≤ 8

def tyInts : List Nat := [0, 1, 2, 3, 9, 10, 11, 12]
def tyWide : List Nat := [0, 1, 2, 3]
def tyAny : List Nat := [0, 1, 2, 3, 4]

/-- Integer ALU of the scalar slot (0x10 to 0x1B). -/
def specS (types : List Nat) : VSpec := ⟨false, .scalar, .scalar, .scalar, .absent, types, 0, 0, false, true⟩
/-- Integer ALU of the vector slot (0x20 to 0x2B). -/
def specV (types : List Nat) : VSpec := ⟨true, .vector, .vector, .vector, .absent, types, 0, 0, false, true⟩
def specMovS : VSpec := ⟨false, .scalar, .absent, .scalar, .absent, tyAny, 0, 0, false, false⟩
def specMovV : VSpec := ⟨true, .vector, .absent, .vector, .absent, tyAny, 0, 0, false, false⟩
def specCaddr : VSpec := ⟨false, .scalar, .absent, .scalar, .absent, [2], 0, 0, false, false⟩
def specSel : VSpec := ⟨true, .vector, .vector, .vector, .absent, tyAny, 15, 15, false, false⟩
def specUn : VSpec := ⟨true, .vector, .vector, .absent, .absent, [0], 0, 0, false, true⟩
def specF2 (rnd1 : Bool) : VSpec := ⟨true, .vector, .vector, .vector, .absent, [4], 0, 0, rnd1, false⟩
def specF3 : VSpec := ⟨true, .vector, .vector, .vector, .vector, [4], 0, 0, true, false⟩
def specF1 (rnd1 : Bool) : VSpec := ⟨true, .vector, .vector, .absent, .absent, [4], 0, 0, rnd1, false⟩
def specCvt : VSpec := ⟨true, .vector, .vector, .absent, .absent, [0, 1, 2, 3, 4, 5, 6, 7, 8, 9, 10, 11, 12], 15, 12, true, true⟩
def specPack : VSpec := ⟨true, .vector, .vector, .vector, .absent, [5, 6, 11], 0, 0, false, false⟩
def specBperm : VSpec := ⟨true, .vector, .vector, .vector, .vector, [0], 0, 0, false, false⟩
def specShfl : VSpec := ⟨true, .vector, .vector, .vector, .absent, [0, 1, 4], 3, 3, false, false⟩
def specRed : VSpec := ⟨true, .scalar, .vector, .absent, .absent, [0, 1, 4], 7, 4, false, true⟩
def specSetp : VSpec := ⟨true, .predicate, .vector, .vector, .absent, 4 :: tyInts, 7, 5, false, false⟩
def specPlog : VSpec := ⟨false, .predicate, .predicate, .predicate, .absent, [0], 7, 5, false, false⟩
def specPbal : VSpec := ⟨false, .scalar, .predicate, .absent, .absent, [0], 0, 0, false, false⟩
def specPset : VSpec := ⟨false, .predicate, .absent, .scalar, .absent, [0], 0, 0, false, false⟩
def specScmp : VSpec := ⟨false, .predicate, .scalar, .scalar, .absent, 4 :: tyInts, 7, 5, false, false⟩

/-- The rule set of one register field: kind, code, whether it is a destination, whether %lane may stand in it
(R71, R72). -/
def regErr (k : OpKind) (dest lane : Bool) (code : Nat) : Option LoadErr :=
  match k with
  | .absent => if code = 0 then none else some .reserved
  | .vector => if code < 128 then none else some .operand
  | .predicate => if code < 8 then none else some .operand
  | .scalar =>
    if code ≥ 75 then some .operand
    else if dest && decide (code ≥ 64) then some .specialDest
    else if code = 64 && !lane then some .specialUse
    else none

/-- A register that must be the even one of a pair for a 64-bit type (R73). -/
def pairErr (k : OpKind) (w code : Nat) : Option LoadErr :=
  if k = .vector ∧ w = 64 ∧ code % 2 = 1 then some .align else none

/-- The kind of source B or C once its scalar bit is taken into account (R71, R75). -/
def effKind (k : OpKind) (sbit : Bool) : OpKind := if sbit && k == .vector then .scalar else k

/-- The checks of a source that can be immediate (R75, R76). -/
def srcErr (sp : VSpec) (k : OpKind) (imm sbit : Bool) (code : Nat) : Option LoadErr :=
  if imm then
    (if k = .absent ∨ k = .predicate then some .imm
     else if code ≠ 0 ∨ sbit then some .reserved
     else none)
  else if sbit && !(sp.vslot && k == .vector) then some .reserved
  else regErr (effKind k sbit) false sp.vslot code

/-- The qualifying predicate (R70): none on a scalar-slot instruction; QN needs a predicate. -/
def predErr (allowed : Bool) (qp : Nat) (qn : Bool) : Option LoadErr :=
  if qp ≥ 8 then some .operand
  else if !allowed && (decide (qp ≠ 0) || qn) then some .pred
  else if qp = 0 ∧ qn then some .pred
  else none

/-- The checks of a V-format instruction that is not a memory instruction. -/
def vErr (sp : VSpec) (f : VForm) : Option LoadErr :=
  let w := tyWidth f.ty
  predErr sp.vslot f.qp f.qn
  <|> (if sp.types.contains f.ty then none else some .type)
  <|> (if f.rnd = 0 ∨ (f.rnd = 1 ∧ sp.rnd1) then none
       else if f.rnd = 2 ∧ sp = specCvt ∧ 5 ≤ f.ty ∧ f.ty ≤ 8 ∧ f.opx % 16 = 4 then none
       else some .round)
  <|> (if f.sat && !sp.sat then some .reserved else none)
  <|> (if f.opx < 2 ^ 11 ∧ Nat.land f.opx sp.opxMask = f.opx ∧ f.opx ≤ sp.opxTop then none
       else some (if sp = specCvt ∧ f.opx < 16 then .type else .reserved))
  <|> regErr sp.d true false f.d
  <|> regErr sp.a false false f.a
  <|> srcErr sp sp.b f.ib f.bs f.b
  <|> srcErr sp sp.c f.ic f.cs f.c
  <|> pairErr sp.d w f.d
  <|> pairErr sp.a (if sp = specCvt then tyWidth f.opx else w) f.a
  <|> (if f.ib then none else pairErr (effKind sp.b f.bs) w f.b)
  <|> (if f.ic then none else pairErr (effKind sp.c f.cs) w f.c)

/-! ### Memory instructions (R76, R81, R82) -/

def opxSz (f : VForm) : Nat := bitsOf f.opx 2 0
def opxAf (f : VForm) : Nat := bitsOf f.opx 4 3
def opxSx (f : VForm) : Bool := bitOf f.opx 5
def opxNa (f : VForm) : Bool := bitOf f.opx 6
def opxAop (f : VForm) : Nat := bitsOf f.opx 9 7

/-- Whether a lane register group of `bytes` starting at `r` is aligned and inside the file (R82). -/
def groupErr (bytes r : Nat) : Option LoadErr :=
  if r ≥ 128 then some .operand
  else if bytes = 8 ∧ r % 2 ≠ 0 then some .align
  else if bytes = 16 ∧ r % 4 ≠ 0 then some .align
  else none

/-- The address operands by form (R81). -/
def addrErr (f : VForm) : Option LoadErr :=
  let af := opxAf f
  if af = 0 then
    (if f.a ≥ 128 then some .operand else if f.a % 2 = 1 then some .align else none)
  else if af = 3 then some .reserved
  else regErr .scalar false false f.a

/-- The lane offset of form 1; C unused otherwise (R75, R81). -/
def offErr (f : VForm) : Option LoadErr :=
  if f.ic then some .imm
  else if f.cs then some .reserved
  else if opxAf f = 1 then (if f.c < 128 then none else some .operand)
  else if f.c = 0 then none else some .reserved

def plainErr (f : VForm) (ty0 : Bool) : Option LoadErr :=
  predErr true f.qp f.qn
  <|> (if ty0 && decide (f.ty ≠ 0) then some .type else none)
  <|> (if f.rnd ≠ 0 then some .round else none)
  <|> (if f.sat ∨ f.opx ≥ 2 ^ 10 then some .reserved else none)
  <|> (if opxSz f > 4 then some .reserved else none)
  <|> addrErr f

def ldErr (f : VForm) : Option LoadErr :=
  plainErr f true
  <|> (if f.ib then some .imm else none)
  <|> (if f.bs ∨ f.b ≠ 0 ∨ opxAop f ≠ 0 ∨ (opxSx f ∧ opxSz f > 1) then some .reserved else none)
  <|> offErr f
  <|> groupErr (2 ^ opxSz f) f.d

def stErr (f : VForm) : Option LoadErr :=
  plainErr f true
  <|> (if f.d ≠ 0 ∨ opxAop f ≠ 0 ∨ opxSx f then some .reserved else none)
  <|> offErr f
  <|> (if f.ib then
         (if opxSz f = 4 then some .imm else if f.b ≠ 0 ∨ f.bs then some .reserved else none)
       else if f.bs then
         (if opxSz f = 4 then some .operand else regErr .scalar false true f.b)
       else groupErr (2 ^ opxSz f) f.b)

def atomErr (f : VForm) : Option LoadErr :=
  plainErr f false
  <|> (if opxAf f = 1 then some .operand else none)
  <|> (if tyWide.contains f.ty ∧ 8 * 2 ^ opxSz f = tyWidth f.ty then none else some .type)
  <|> (if opxAop f = 7 ∨ opxSx f then some .reserved else none)
  <|> groupErr (2 ^ opxSz f) f.d
  <|> srcErr (specV tyWide) .vector f.ib f.bs f.b
  <|> srcErr (specV tyWide) (if opxAop f = 6 then .vector else .absent) f.ic f.cs f.c
  <|> (if f.ib then none else pairErr (effKind .vector f.bs) (tyWidth f.ty) f.b)
  <|> (if f.ic then none else pairErr (effKind .vector f.cs) (tyWidth f.ty) f.c)

/-- SLD and SST (R70, R75, R82). -/
def slabInsnErr (f : VForm) : Option LoadErr :=
  predErr false f.qp f.qn
  <|> (if f.ib ∨ f.ic then some .imm else none)
  <|> (if f.ty ≠ 0 ∨ f.rnd ≠ 0 ∨ f.sat ∨ f.opx ≠ 0 ∨ f.b ≠ 0 ∨ f.c ≠ 0 ∨ f.bs ∨ f.cs then some .reserved else none)
  <|> (if f.d ≥ 128 then some .operand else if f.d % 4 ≠ 0 then some .align else none)
  <|> regErr .scalar false false f.a

/-! ### Matrix instructions (R83 to R86) -/

/-- Element bits of a format code (R84). -/
def fmtBits (c : Nat) : Nat :=
  if c ≤ 1 then 16 else if c ≤ 5 then 8 else if c ≤ 7 then 6 else if c = 8 then 4 else if c ≤ 10 then 8
  else if c = 11 then 32 else 0

/-- Four times the rate class, so that FP32's quarter is a number (R84). -/
def fmtRate (c : Nat) : Nat :=
  if c ≤ 1 then 4 else if c ≤ 5 then 8 else if c ≤ 8 then 16 else if c ≤ 10 then 8 else if c = 11 then 1 else 0

/-- The block-scaled formats (R84, R129). -/
def fmtMx (c : Nat) : Bool := 4 ≤ c && c ≤ 9

/-- The pairing rule of R84. -/
def pairOk (fa fb : Nat) : Bool :=
  decide (fa < 12) && decide (fb < 12) && fmtRate fa == fmtRate fb && fmtMx fa == fmtMx fb
    && ((fa == 10) == (fb == 10)) && ((fa == 9) == (fb == 9))

def mfM (f : MForm) : Nat := 16 * (f.ms + 1)
def mfN (f : MForm) : Nat := 16 * 2 ^ f.ns
def mfK (f : MForm) : Nat := 32 * 2 ^ f.ks

/-- Registers of a group of `n` bytes (R85). -/
def regsOf (n : Nat) : Nat := cdiv n 128

/-- The accumulator code's tile: bank, first entry, first column (R86). -/
def accBank (x : Nat) : Nat := bitsOf x 6 6
def accRow (x : Nat) : Nat := 16 * bitsOf x 5 3
def accCol (x : Nat) : Nat := 16 * bitsOf x 2 1

def accErr (x m n : Nat) : Option LoadErr :=
  if x ≥ 128 ∨ x % 2 = 1 then some .reserved
  else if accRow x + m ≤ 128 ∧ accCol x + n ≤ 64 then none else some .accRange

def rangeErr (base bytes : Nat) : Option LoadErr :=
  if base + regsOf bytes ≤ 128 then none else some .regRange

def shapeErr (f : MForm) : Option LoadErr :=
  if f.ms > 1 ∨ f.ks > 3 then some .operand else if f.ns > 2 then some .matrixShape else none

/-- mma and mmaz (R83 to R86). -/
def mmaErr (f : MForm) : Option LoadErr :=
  shapeErr f
  <|> (if pairOk f.fa f.fb then none else some .matrixShape)
  <|> (if f.cvp ≠ 0 ∨ (!fmtMx f.fa ∧ f.c ≠ 0) then some .reserved else none)
  <|> rangeErr f.a (mfM f * mfK f * fmtBits f.fa / 8)
  <|> rangeErr f.b (mfK f * mfN f * fmtBits f.fb / 8)
  <|> (if fmtMx f.fa then
         (if f.c + regsOf (mfM f * mfK f / 32) + regsOf (mfN f * mfK f / 32) ≤ 128 then none else some .regRange)
       else none)
  <|> accErr f.x (mfM f) (mfN f)

/-- mdrain (R83, R85). -/
def mdrainErr (f : MForm) : Option LoadErr :=
  shapeErr f
  <|> (if f.fa < 12 then none else some .matrixShape)
  <|> (if fmtMx f.fa ∧ f.ns = 0 then some .matrixShape else none)
  <|> (if f.b ≠ 0 ∨ f.fb ≠ 0 ∨ f.ks ≠ 0 ∨ f.cvp > 15 ∨ (!fmtMx f.fa ∧ f.c ≠ 0) then some .reserved else none)
  <|> rangeErr f.x (mfM f * mfN f * fmtBits f.fa / 8)
  <|> (if fmtMx f.fa then
         rangeErr f.c (mfM f * mfN f / 32)
         <|> (let r := regsOf (mfM f * mfN f * fmtBits f.fa / 8)
              let q := regsOf (mfM f * mfN f / 32)
              if f.c < f.x + r ∧ f.x < f.c + q then some .regRange else none)
       else none)
  <|> accErr f.a (mfM f) (mfN f)

/-- mclr (R83). -/
def mclrErr (f : MForm) : Option LoadErr :=
  shapeErr f
  <|> (if f.a ≠ 0 ∨ f.b ≠ 0 ∨ f.c ≠ 0 ∨ f.fa ≠ 0 ∨ f.fb ≠ 0 ∨ f.ks ≠ 0 ∨ f.cvp ≠ 0 then some .reserved else none)
  <|> accErr f.x (mfM f) (mfN f)

/-! ### Tally, fence and allocator instructions (R87 to R91) -/

def tErr (read : Bool) (f : TForm) : Option LoadErr :=
  if f.tid ≥ 4096 ∨ f.tmo ≥ 2 ^ 24 then some .reserved
  else if f.ib then (if read then some .imm else if f.src ≠ 0 then some .reserved else none)
  else regErr .scalar read false f.src

def fenceErr (f : FForm) : Option LoadErr :=
  if f.d ≠ 0 ∨ f.a ≠ 0 ∨ f.b ≠ 0 ∨ f.ib ∨ f.tmo ≠ 0 ∨ f.sc > 2 ∨ f.fk > 2 then some .reserved else none

def fobjErr (wait : Bool) (f : FForm) : Option LoadErr :=
  (if f.sc > 2 ∨ f.fk ≠ 0 ∨ f.tmo ≥ 2 ^ 24 ∨ (!wait ∧ (f.d ≠ 0 ∨ f.tmo ≠ 0)) then some .reserved else none)
  <|> regErr .predicate true false f.d
  <|> regErr .scalar false false f.a
  <|> (if f.ib then (if f.b ≠ 0 then some .reserved else none) else regErr .scalar false false f.b)

def allocErr (f : AForm) : Option LoadErr :=
  (if f.aln ≥ 32 ∨ f.pool > 1 then some .reserved else none)
  <|> regErr .scalar true false f.d
  <|> (if f.ib then (if f.a ≠ 0 then some .reserved else none) else regErr .scalar false false f.a)

def freeErr (f : AForm) : Option LoadErr :=
  (if f.d ≠ 0 ∨ f.ib ∨ f.aln ≠ 0 ∨ f.pool ≠ 0 then some .reserved else none)
  <|> regErr .scalar false false f.a

/-! ### Branches (R77) -/

def brErr (p : Nat) : Option LoadErr := if p < 8 then none else some .operand
def loopErr (sreg : Nat) : Option LoadErr := if sreg < 64 then none else some .operand
def exitErr (qp : Nat) (qn : Bool) : Option LoadErr := predErr true qp qn

/-- The loader's verdict on a gang instruction: the first error, or none. Commands that are no gang instruction have
no encoding for the loader to reject. -/
def Instr.loadErr : Instr → Option LoadErr
  | .br _ p _ _ _ => brErr p
  | .loopInsn _ sreg _ _ => loopErr sreg
  | .exit _ qp qn => exitErr qp qn
  | .addScalar _ f | .subScalar _ f | .mulScalar _ f | .mulhiScalar _ f => vErr (specS tyWide) f
  | .andScalar _ f | .orScalar _ f | .xorScalar _ f | .shlScalar _ f | .shrScalar _ f | .sarScalar _ f
  | .minScalar _ f | .maxScalar _ f => vErr (specS tyInts) f
  | .movScalar _ f => vErr specMovS f
  | .caddr _ f _ => vErr specCaddr f
  | .addVector _ f | .subVector _ f => vErr (specV tyWide) f
  | .mulVector _ f | .mulhiVector _ f => vErr (specV [0, 1]) f
  | .andVector _ f | .orVector _ f | .xorVector _ f | .shlVector _ f | .shrVector _ f | .sarVector _ f
  | .minVector _ f | .maxVector _ f => vErr (specV tyInts) f
  | .movVector _ f => vErr specMovV f
  | .sel _ f => vErr specSel f
  | .popc _ f | .clz _ f => vErr specUn f
  | .fadd _ f | .fsub _ f | .fmul _ f | .fdiv _ f => vErr (specF2 true) f
  | .fmin _ f | .fmax _ f => vErr (specF2 false) f
  | .ffma _ f => vErr specF3 f
  | .fabs _ f | .fneg _ f | .frcp _ f | .frsq _ f | .fex2 _ f | .flg2 _ f => vErr (specF1 false) f
  | .fsqrt _ f => vErr (specF1 true) f
  | .cvt _ f => vErr specCvt f
  | .pack _ f => vErr specPack f
  | .bperm _ f => vErr specBperm f
  | .shfl _ f => vErr specShfl f
  | .red _ f => vErr specRed f
  | .setp _ f => vErr specSetp f
  | .plog _ f => vErr specPlog f
  | .pbal _ f => vErr specPbal f
  | .pset _ f => vErr specPset f
  | .scmp _ f => vErr specScmp f
  | .sld _ f | .sst _ f => slabInsnErr f
  | .ld _ f => ldErr f
  | .st _ f => stErr f
  | .atom _ f => atomErr f
  | .mma _ f | .mmaz _ f => mmaErr f
  | .gangMdrain _ f => mdrainErr f
  | .mclr _ f => mclrErr f
  | .tsig _ f | .twait _ f => tErr false f
  | .tread _ f => tErr true f
  | .fenceInsn _ f => fenceErr f
  | .fsig _ f => fobjErr false f
  | .fwait _ f => fobjErr true f
  | .alloc _ f => allocErr f
  | .free _ f => freeErr f
  | _ => none

end Sys2Proof
end

