-- ==== Sys2Proof/WellFormed.lean ====
section
/-!
DEFINITION. Well-formed instructions: those that the loader of a context accepts (03_sett; Machine/Loader.lean holds the
checks). A command that is no gang instruction has no ill-formed term: its operands name a unit or carry data, and a unit
that does not exist is the fault `noSuchUnit` of its meaning.
-/

namespace Sys2Proof

/-- An instruction that the loader accepts. -/
def Instr.wf (i : Instr) : Bool := i.loadErr.isNone

end Sys2Proof
end

