-- ==== Sys2Proof/Config.lean ====
section
/-!
DEFINITION. What the part fixes (constants of stepping A1) and the FREE VALUES: opaque constants with no body,
so that nothing can be proved of a value the manual leaves open.
-/

namespace Sys2Proof.Config

/-- Enabled cores (01_module R13). -/
def cores : Nat := 1280
/-- Gang slots of a core (02_gangs R25). -/
def slots : Nat := 16
/-- Context ids 0 to 1,023 (13_contexts R345). -/
def contexts : Nat := 1024
/-- Slabs of a core (06_slab R147). -/
def slabs : Nat := 26624
/-- Idle draw in W (10_cutplan R298). -/
def baseW : Nat := 460
/-- A die's base share in W (16_governor R448). -/
def dieBaseW : Nat := 90

/-! ### Free values (each named in a log entry) -/

/-- Free value: which of the two neighbours `frcp` and `frsq` deliver where the result is inexact
(03_sett R92: within 1 ulp; assumption 20). -/
opaque freeRoundUp : Nat → W32 → Bool
/-- Free value: the place inside the bracket that R92 allows for an inexact `fex2` or `flg2` (assumption 20). -/
opaque freeApprox : Nat → W32 → Nat
/-- Free value: a signature made with the identity key (17_site_trust R488; assumption 21). -/
opaque freeSignature : List Byte → List Byte
/-- Free value: a certificate's DER bytes (17_site_trust R487; assumption 21). -/
opaque freeCert : Nat → List Byte
/-- Free value: bytes of the stepping-specific part of the gang save area (13_contexts R365; assumption 22). -/
opaque freeSaved : Nat → Byte
/-- Free value: the bytes of the SHA-512 digest of a byte string (17_site_trust; the manual names the function and does
not define it; assumption 23). -/
opaque sha512Byte : List Byte → Nat → Byte
/-- A SHA-512 digest: 64 bytes (17_site_trust R488, R493, R494). -/
def sha512 (bs : List Byte) : List Byte := (List.range 64).map (sha512Byte bs)
/-- Free value: whether an RSASSA-PSS signature verifies: modulus, message, signature (17_site_trust; assumption 23). -/
opaque sigOk : List Byte → List Byte → List Byte → Bool
/-- Free value: which cores' and which bits of a result the module delivers where only the bounds of
05_numbers R146 are promised (R145; assumption 24). -/
opaque freeBounded : Nat → W32 → W32
/-- Free value: the bits of the private entries of a control core's instruction trace (19_debug_test R523; assumption 25). -/
opaque freeTrace : Nat → W64

/-- Free value: bytes the manual does not give: the part of a mirror copy that no controller delivered (08_far R224;
assumption 35), and the fields NRANGE and SIZES of a shadow header, which no frame carries (15_haul_twin R418;
assumption 34). -/
opaque freeByte : Nat → Byte

/-- Free value: which of the places that fit the Foreman gives an object (13_contexts R358; assumption 36), a block
(R363; assumption 30), or a context's hub slots and barrier units (11_tallies R304, R316; assumption 55). -/
opaque freePlace : Nat → Nat
/-- Free value: whether the Governor rounds a value that is no whole number of its register's unit up or down
(16_governor R462 to R464; assumption 37): numerator and denominator. -/
opaque freeRound : Int → Nat → Bool
/-- Factory value: the bytes that the factory left in firmware flash slot 0 (A) or 1 (B) (17_site_trust R482; assumption
33). -/
opaque factoryFlash : Nat → Nat → Byte
/-- Factory value: the bytes of the key hashes of the two Utgil firmware signing keys in the boot ROM (17_site_trust R482). -/
opaque romKeyByte : Nat → Nat → Byte
/-- The key hash of a firmware signing key: 64 bytes. -/
def romKey (k : Nat) : List Byte := (List.range 64).map (romKeyByte k)
/-- Free value: errors, wires and lock that a die bridge's sounding finds (19_debug_test R531; assumption 38). -/
opaque freeSound : Nat → Nat

/-- Free value: what a counter source of cycles or packets that the manual does not fix adds (19_debug_test R513, R518;
assumption 39). -/
opaque freeCount : Nat → Nat

/-- Free value: which of the lanes of one ST that name the same location its bytes come from (02_gangs R52; assumption 27). -/
opaque freeLane : Nat → Nat

/-- Free value: the id that a hub gives a new claim, among those not in use (15_haul_twin R410; assumption 50). -/
opaque freeClaim : Nat → Nat

/-- Free value: where the dies' copies of the time base stand within the 5 ns of R500 (18_clocks_reset; assumption 40). -/
opaque freeSkew : Nat → Nat

/-- Free value: the value field of a THERMAL record that concerns neither a temperature nor a power (16_governor R466;
assumption 42). -/
opaque freeRecord : Nat → Nat

/-- Free value: whether the mesh direction that the source calls north leads to the lower physical rows, and east to the higher
columns (07_moves R189, 10_cutplan R291; assumption 125). -/
opaque northLow : Bool
opaque eastHigh : Bool

/-! ### Factory data of a module (17_site_trust R493, R494; assumption 33) -/

/-- Factory value: bytes of the mason's mark block that differ between modules (serial, assembly date, dies). -/
opaque factoryMark : Nat → Byte
/-- Factory value: the dressing map's byte of column `c` of die `d`, at index 16 × d + c. -/
opaque factoryColumn : Nat → Byte
/-- Factory value: the dressing map's byte of logical core `n`. -/
opaque factoryCore : Nat → Byte

/-- The disabled physical row, 0 to 20, of a column (R14, R494). -/
def dressColumn (i : Nat) : Nat := (factoryColumn i).toNat % 21
/-- The array repair byte of a core: SPARE_USED in bit 7, REPAIR_ROW in bits 4 to 0 (R494). -/
def dressCore (n : Nat) : Byte := factoryCore n &&& 0x9F

/-- The first 256 bytes of the mason's mark block (R493): the fixed bytes as the rule gives them, the others the
module's own. -/
def markByte (i : Nat) : Byte :=
  if i < 0x0F then factoryMark i
  else if i = 0x10 then 0x41
  else if i = 0x11 then 0x31
  else if i < 0x20 then 0
  else if i < 0xF0 then
    (if i % 16 < 9 then factoryMark i
     else if i % 16 = 9 then (if i < 0x60 then 0 else if i < 0xE0 then 1 else 2)
     else 0)
  else 0

/-- The module serial, 12 ASCII bytes (R493). -/
def serial : List Byte := (List.range 12).map markByte

end Sys2Proof.Config
end

