-- ==== Sys2Proof/Machine/Flags.lean ====
section
/-!
DEFINITION. Numbers and flags: the element formats of 05_numbers R128, exact arithmetic, the one rounding operation
of R132, R139 and R141 to R143, and the four sticky flags.
-/

namespace Sys2Proof.Machine

/-- The four sticky flags (02_gangs R62, 05_numbers R143). -/
structure FFlags where
  ovf : Bool := false
  unf : Bool := false
  inx : Bool := false
  inv : Bool := false
  deriving DecidableEq, Repr

/-- Flags only ever accumulate. -/
def FFlags.or (a b : FFlags) : FFlags :=
  { ovf := a.ovf || b.ovf, unf := a.unf || b.unf, inx := a.inx || b.inx, inv := a.inv || b.inv }

/-- The four bits as registers show them: OVF lowest (R63, R124, R213). -/
def FFlags.bits (f : FFlags) : Nat := boolN f.ovf + 2 * boolN f.unf + 4 * boolN f.inx + 8 * boolN f.inv

def flagInv : FFlags := { inv := true }

/-- How a format spells NaN (R128). -/
inductive NanKind where
  | none
  | ieee
  | allOnes
  deriving DecidableEq, Repr

/-- An element format of R128: exponent and mantissa widths, bias, whether it has infinities, its NaNs, the code of
its canonical quiet NaN (R130) and the code of its largest finite magnitude. -/
structure FFmt where
  ebits : Nat
  mbits : Nat
  bias : Nat
  inf : Bool
  nan : NanKind
  qnan : Nat
  maxCode : Nat
  deriving DecidableEq, Repr

def fFP32 : FFmt := ⟨8, 23, 127, true, .ieee, 0x7FC00000, 0x7F7FFFFF⟩
def fFP16 : FFmt := ⟨5, 10, 15, true, .ieee, 0x7E00, 0x7BFF⟩
def fBF16 : FFmt := ⟨8, 7, 127, true, .ieee, 0x7FC0, 0x7F7F⟩
def fE4M3 : FFmt := ⟨4, 3, 7, false, .allOnes, 0x7F, 0x7E⟩
def fE5M2 : FFmt := ⟨5, 2, 15, true, .ieee, 0x7E, 0x7B⟩
def fE3M2 : FFmt := ⟨3, 2, 3, false, .none, 0, 0x1F⟩
def fE2M3 : FFmt := ⟨2, 3, 1, false, .none, 0, 0x1F⟩
def fE2M1 : FFmt := ⟨2, 1, 1, false, .none, 0, 0x7⟩

/-- Bits of a code of the format. -/
def FFmt.width (f : FFmt) : Nat := 1 + f.ebits + f.mbits

/-- The exponent of the format's unit in the last place for subnormals. -/
def FFmt.qmin (f : FFmt) : Int := 1 - (f.bias : Int) - f.mbits

/-- A number exactly: a NaN (signalling or not), an infinity, or (−1)^neg × m × 2^e. -/
inductive Num where
  | nan (sig : Bool)
  | inf (neg : Bool)
  | fin (neg : Bool) (m : Nat) (e : Int)
  deriving DecidableEq, Repr

def Num.zero : Num := .fin false 0 0

/-- What a code of the format means (R128, R130). -/
def numOf (f : FFmt) (code : Nat) : Num :=
  let c := code % 2 ^ f.width
  let neg := bitOf c (f.ebits + f.mbits)
  let mag := c % 2 ^ (f.ebits + f.mbits)
  let e := mag / 2 ^ f.mbits
  let m := mag % 2 ^ f.mbits
  let fin : Num :=
    if e = 0 then .fin neg m f.qmin
    else .fin neg (2 ^ f.mbits + m) (f.qmin + ((e : Int) - 1))
  match f.nan with
  | .none => fin
  | .allOnes => if mag = 2 ^ (f.ebits + f.mbits) - 1 then .nan false else fin
  | .ieee =>
    if e = 2 ^ f.ebits - 1 then
      if m = 0 then .inf neg else .nan (f.mbits ≥ 7 && !bitOf m (f.mbits - 1))
    else fin

/-- A code that is nonzero and below the smallest normal magnitude. -/
def isSubnormal (f : FFmt) (code : Nat) : Bool :=
  let mag := code % 2 ^ (f.ebits + f.mbits)
  decide (mag ≠ 0) && decide (mag < 2 ^ f.mbits)

/-- The sign bit of a code of the format. -/
def signCode (f : FFmt) (neg : Bool) : Nat := if neg then 2 ^ (f.ebits + f.mbits) else 0

/-- How a rounding decides (R73, R139, R141): to nearest with ties to even, toward zero, stochastic with a 16-bit
draw, or in a direction that the manual leaves free (within 1 ulp). -/
inductive Rnd where
  | nearest
  | zero
  | draw (r : Nat)
  | away (up : Bool)
  deriving DecidableEq, Repr

/-- Rounds m × 2^e to a multiple of 2^q: the multiple and whether anything was discarded. -/
def roundAt (rnd : Rnd) (m : Nat) (e q : Int) : Nat × Bool :=
  if q ≤ e then (m * 2 ^ (e - q).toNat, false)
  else
    let sh := (q - e).toNat
    let n := m / 2 ^ sh
    let rem := m % 2 ^ sh
    let up : Bool := match rnd with
      | .nearest => decide (2 * rem > 2 ^ sh) || (decide (2 * rem = 2 ^ sh) && bitOf n 0)
      | .zero => false
      | .draw r => decide (rem * 2 ^ 16 / 2 ^ sh + r ≥ 2 ^ 16)
      | .away b => b && decide (rem ≠ 0)
    (if up then n + 1 else n, decide (rem ≠ 0))

/-- The number of significant bits of m. -/
def bitLen (m : Nat) : Nat := if m = 0 then 0 else Nat.log2 m + 1

/-- A rounded magnitude: its code in a format of unbounded range above, whether it is inexact, and whether it is tiny
(R143: judged after rounding to the target's precision with the exponent range unbounded). -/
structure Rounded where
  mag : Nat
  inexact : Bool
  tiny : Bool
  deriving DecidableEq, Repr

def roundMag (f : FFmt) (rnd : Rnd) (m : Nat) (e : Int) : Rounded :=
  if m = 0 then { mag := 0, inexact := false, tiny := false }
  else
  let q0 : Int := e + bitLen m - (f.mbits + 1)
  let q := max q0 f.qmin
  let r := roundAt rnd m e q
  let r0 := roundAt rnd m e q0
  -- 2^(1-bias) = 2^mbits units of 2^qmin
  let tiny := if q0 ≥ f.qmin then false else decide (r0.1 < 2 ^ (f.mbits + (f.qmin - q0).toNat))
  { mag := (q - f.qmin).toNat * 2 ^ f.mbits + r.1, inexact := r.2, tiny := tiny }

/-- What an overflow delivers in a format (R139). -/
def ovfCode (f : FFmt) (sat : Bool) : Nat :=
  if sat then f.maxCode
  else if f.inf then (2 ^ f.ebits - 1) * 2 ^ f.mbits
  else if f.nan = .none then f.maxCode
  else f.qnan

/-- The sign is kept by every overflow result but the canonical NaN (R130, R139). -/
def ovfSigned (f : FFmt) (sat neg : Bool) : Nat :=
  if !sat && !f.inf && !(f.nan == .none) then f.qnan else signCode f neg + ovfCode f sat

/-- Rounds an exact number to a format, with its flags (R132, R139, R143). A rounding toward zero never overflows to
an infinity or a NaN; DEDUCED: an infinite input is no rounding, and to E4M3 with SAT 0 it delivers the NaN in every
rounding mode (assumption 119). -/
def roundNum (f : FFmt) (rnd : Rnd) (sat : Bool) (x : Num) : Nat × FFlags :=
  match x with
  | .nan sig => (f.qnan, { inv := sig })
  | .inf neg =>
    if f.inf then (signCode f neg + ovfCode f false, {})
    else (ovfSigned f sat neg, { ovf := true, inx := true })
  | .fin neg m e =>
    let r := roundMag f rnd m e
    if r.mag > f.maxCode then
      (ovfSigned f (sat || rnd == .zero) neg, { ovf := true, inx := true })
    else (signCode f neg + r.mag, { unf := r.tiny && r.inexact, inx := r.inexact })

/-! ### Exact arithmetic -/

/-- The exact sum of two finite numbers; an exact zero of numbers of opposite sign is +0. -/
def addFin (n1 : Bool) (m1 : Nat) (e1 : Int) (n2 : Bool) (m2 : Nat) (e2 : Int) : Num :=
  let e := min e1 e2
  let a := m1 * 2 ^ (e1 - e).toNat
  let b := m2 * 2 ^ (e2 - e).toNat
  if n1 = n2 then .fin n1 (a + b) e
  else if a = b then .fin false 0 e
  else if b < a then .fin n1 (a - b) e
  else .fin n2 (b - a) e

/-- The exact sum with the INV cases of R93 and R132; a NaN operand gives a quiet NaN, and INV if it signals. -/
def addNum (x y : Num) : Num × FFlags :=
  match x, y with
  | .nan s, .nan t => (.nan false, { inv := s || t })
  | .nan s, _ => (.nan false, { inv := s })
  | _, .nan t => (.nan false, { inv := t })
  | .inf a, .inf b => if a = b then (.inf a, {}) else (.nan false, flagInv)
  | .inf a, .fin _ _ _ => (.inf a, {})
  | .fin _ _ _, .inf b => (.inf b, {})
  | .fin n1 m1 e1, .fin n2 m2 e2 => (addFin n1 m1 e1 n2 m2 e2, {})

/-- The exact product (R93, R131). -/
def mulNum (x y : Num) : Num × FFlags :=
  match x, y with
  | .nan s, .nan t => (.nan false, { inv := s || t })
  | .nan s, _ => (.nan false, { inv := s })
  | _, .nan t => (.nan false, { inv := t })
  | .inf a, .inf b => (.inf (a != b), {})
  | .inf a, .fin b m _ => if m = 0 then (.nan false, flagInv) else (.inf (a != b), {})
  | .fin a m _, .inf b => if m = 0 then (.nan false, flagInv) else (.inf (a != b), {})
  | .fin a m1 e1, .fin b m2 e2 => (.fin (a != b) (m1 * m2) (e1 + e2), {})

def negNum : Num → Num
  | .nan s => .nan s
  | .inf a => .inf (!a)
  | .fin a m e => .fin (!a) m e

/-- Scales by 2^k. -/
def scaleNum (k : Int) : Num → Num
  | .fin a m e => .fin a m (e + k)
  | x => x

/-- The quotient, with a sticky lowest bit: enough bits for one rounding to FP32. -/
def divNum (x y : Num) : Num × FFlags :=
  match x, y with
  | .nan s, .nan t => (.nan false, { inv := s || t })
  | .nan s, _ => (.nan false, { inv := s })
  | _, .nan t => (.nan false, { inv := t })
  | .inf _, .inf _ => (.nan false, flagInv)
  | .inf a, .fin b _ _ => (.inf (a != b), {})
  | .fin a _ _, .inf b => (.fin (a != b) 0 0, {})
  | .fin a m1 e1, .fin b m2 e2 =>
    if m2 = 0 then (if m1 = 0 then (.nan false, flagInv) else (.inf (a != b), {}))
    else
      let n := m1 * 2 ^ 64
      let q := n / m2
      (.fin (a != b) (2 * q + (if n % m2 = 0 then 0 else 1)) (e1 - e2 - 65), {})

/-- The integer square root of a number below 2^256. -/
def isqrt (n : Nat) : Nat :=
  (List.range 128).reverse.foldl (fun r i => if (r + 2 ^ i) * (r + 2 ^ i) ≤ n then r + 2 ^ i else r) 0

/-- The square root, with a sticky lowest bit. -/
def sqrtNum (x : Num) : Num × FFlags :=
  match x with
  | .nan s => (.nan false, { inv := s })
  | .inf a => if a then (.nan false, flagInv) else (.inf false, {})
  | .fin a m e =>
    if m = 0 then (.fin a 0 0, {})
    else if a then (.nan false, flagInv)
    else
      let odd := e % 2 ≠ 0
      let m' := (if odd then 2 * m else m) * 2 ^ 64
      let e' := (if odd then e - 1 else e) - 64
      let r := isqrt m'
      (.fin false (2 * r + (if r * r = m' then 0 else 1)) (e' / 2 - 1), {})

/-- The reciprocal square root of a positive finite number, with a sticky lowest bit; it is exact only for even
powers of two (R93), which the caller has set apart. -/
def rsqrtFin (m : Nat) (e : Int) : Num :=
  let odd := e % 2 ≠ 0
  let m' := if odd then 2 * m else m
  let e' := if odd then e - 1 else e
  .fin false (2 * isqrt (2 ^ 128 / m') + 1) (- (e' / 2) - 65)

/-- Whether m × 2^e is a power of two, and its exponent. -/
def pow2Exp (m : Nat) (e : Int) : Option Int :=
  if m ≠ 0 ∧ 2 ^ Nat.log2 m = m then some (e + Nat.log2 m) else none

/-- Comparison of two exact numbers that are not NaN: −1, 0 or 1. -/
def cmpNum (x y : Num) : Int :=
  match addNum x (negNum y) with
  | (.nan _, _) => 0
  | (.inf a, _) => if a then -1 else 1
  | (.fin a m _, _) => if m = 0 then 0 else if a then -1 else 1

/-! ### FP32 operations of the vector instructions (03_sett R92, R93) -/

def rndOf (code : Nat) : Rnd := if code = 1 then .zero else .nearest

def finish32 (rnd : Rnd) (r : Num × FFlags) : Nat × FFlags :=
  let o := roundNum fFP32 rnd false r.1
  (o.1, r.2.or o.2)

/-- FP32 sum, rounded once. -/
def f32Add (rnd : Rnd) (a b : Nat) : Nat × FFlags := finish32 rnd (addNum (numOf fFP32 a) (numOf fFP32 b))
def f32Sub (rnd : Rnd) (a b : Nat) : Nat × FFlags :=
  finish32 rnd (addNum (numOf fFP32 a) (negNum (numOf fFP32 b)))
def f32Mul (rnd : Rnd) (a b : Nat) : Nat × FFlags := finish32 rnd (mulNum (numOf fFP32 a) (numOf fFP32 b))
def f32Div (rnd : Rnd) (a b : Nat) : Nat × FFlags := finish32 rnd (divNum (numOf fFP32 a) (numOf fFP32 b))
def f32Sqrt (rnd : Rnd) (a : Nat) : Nat × FFlags := finish32 rnd (sqrtNum (numOf fFP32 a))

/-- A × B + C with one rounding. DESIGN CHOICE: 0 × ∞ raises INV whatever C is, a quiet NaN included (assumption 116). -/
def f32Fma (rnd : Rnd) (a b c : Nat) : Nat × FFlags :=
  let p := mulNum (numOf fFP32 a) (numOf fFP32 b)
  let s := addNum p.1 (numOf fFP32 c)
  let r := finish32 rnd s
  (r.1, p.2.or r.2)

/-- Whether a code is the sign-ordered smaller: −0 < +0 (R92). -/
def f32Less (a b : Nat) : Bool :=
  let na := bitOf a 31
  let nb := bitOf b 31
  if na && !nb then true
  else if !na && nb then false
  else if na then decide (b % 2 ^ 31 < a % 2 ^ 31)
  else decide (a % 2 ^ 31 < b % 2 ^ 31)

/-- FMIN and FMAX: one NaN operand returns the other operand; INV on a signalling NaN (R92). -/
def f32MinMax (mx : Bool) (a b : Nat) : Nat × FFlags :=
  match numOf fFP32 a, numOf fFP32 b with
  | .nan s, .nan t => (fFP32.qnan, { inv := s || t })
  | .nan s, _ => (b, { inv := s })
  | _, .nan t => (a, { inv := t })
  | _, _ => (if f32Less a b = mx then b else a, {})

/-- FABS and FNEG: the sign bit cleared or flipped; a NaN becomes the canonical quiet NaN; no flag (R92). -/
def f32Abs (a : Nat) : Nat :=
  match numOf fFP32 a with
  | .nan _ => fFP32.qnan
  | _ => a % 2 ^ 31

def f32Neg (a : Nat) : Nat :=
  match numOf fFP32 a with
  | .nan _ => fFP32.qnan
  | _ => (a + 2 ^ 31) % 2 ^ 32

/-- An inexact result within 1 ulp: which of the two neighbours is a free value (assumption 20); past the largest
finite value it is the infinity. -/
def f32Within1 (salt code : Nat) (x : Num) : Nat × FFlags :=
  match x with
  | .fin neg m e =>
    let r := roundMag fFP32 .nearest m e
    if r.mag > fFP32.maxCode then (signCode fFP32 neg + ovfCode fFP32 false, { ovf := true, inx := true })
    else roundNum fFP32 (.away (Config.freeRoundUp salt (BitVec.ofNat 32 code))) false x
  | _ => roundNum fFP32 .nearest false x

/-- FRCP (R92, R93): exact for powers of two whose reciprocal is representable. -/
def f32Rcp (a : Nat) : Nat × FFlags :=
  match numOf fFP32 a with
  | .nan s => (fFP32.qnan, { inv := s })
  | .inf n => (signCode fFP32 n, {})
  | .fin n m e =>
    if m = 0 then (signCode fFP32 n + ovfCode fFP32 false, {})
    else match pow2Exp m e with
      | some k =>
        let x : Num := .fin n 1 (-k)
        let r := roundNum fFP32 .nearest false x
        if r.2.inx then f32Within1 0 a x else r
      | none => f32Within1 0 a (divNum (.fin false 1 0) (.fin n m e)).1

/-- FRSQ (R92, R93). -/
def f32Rsq (a : Nat) : Nat × FFlags :=
  match numOf fFP32 a with
  | .nan s => (fFP32.qnan, { inv := s })
  | .inf n => if n then (fFP32.qnan, flagInv) else (0, {})
  | .fin n m e =>
    if m = 0 then (signCode fFP32 n + ovfCode fFP32 false, {})
    else if n then (fFP32.qnan, flagInv)
    else match pow2Exp m e with
      | some k => if k % 2 = 0 then roundNum fFP32 .nearest false (.fin false 1 (-(k / 2)))
                  else f32Within1 1 a (rsqrtFin m e)
      | none => f32Within1 1 a (rsqrtFin m e)

/-- A magnitude within 2 ulp of one whose truncation is `lo`: one of four codes, of three below the smallest subnormal;
which of them is a free value (assumption 20). -/
def within2 (salt code lo : Nat) : Nat :=
  if lo = 0 then Config.freeApprox salt (BitVec.ofNat 32 code) % 3
  else lo - 1 + Config.freeApprox salt (BitVec.ofNat 32 code) % 4

/-- 2^(fr / 2^64) × 2^96, from below, for fr below 2^64: square roots of 2 by their binary places. -/
def exp2Frac (fr : Nat) : Nat :=
  ((List.range 64).foldl
    (fun (st : Nat × Nat) i =>
      let root := isqrt (st.2 * 2 ^ 96)
      (if bitOf fr (63 - i) then st.1 * root / 2 ^ 96 else st.1, root))
    (2 ^ 96, 2 * 2 ^ 96)).1

/-- FEX2 (R92, R93): exact for an integer operand whose power of two is representable; else within 2 ulp. -/
def f32Ex2 (a : Nat) : Nat × FFlags :=
  match numOf fFP32 a with
  | .nan s => (fFP32.qnan, { inv := s })
  | .inf n => (if n then 0 else ovfCode fFP32 false, {})
  | .fin n m e =>
    if m = 0 then (0x3F800000, {})
    else
      -- the operand in units of 2^-64, toward minus infinity, and whether it is an integer
      let big := e ≥ 8
      let mag := (roundAt .zero m e (-64)).1
      let cut := (roundAt .zero m e (-64)).2
      let isInt := decide ((roundAt .zero m e 0).2 = false)
      let k : Int := if n then (if mag % 2 ^ 64 = 0 ∧ ¬ cut then -((mag / 2 ^ 64 : Nat) : Int) else -((mag / 2 ^ 64 : Nat) : Int) - 1)
                     else ((mag / 2 ^ 64 : Nat) : Int)
      let fr : Nat := if n then (2 ^ 64 - (if cut then mag + 1 else mag) % 2 ^ 64) % 2 ^ 64 else mag % 2 ^ 64
      if big ∨ k ≥ 128 ∨ k < -200 then
        if n then (Config.freeApprox 2 (BitVec.ofNat 32 a) % 3, { unf := true, inx := true })
        else (ovfCode fFP32 false, { ovf := true, inx := true })
      else if isInt ∧ k ≥ -149 then roundNum fFP32 .nearest false (.fin false 1 k)
      else
        let y := exp2Frac fr
        let r := roundMag fFP32 .zero y (k - 96)
        let code := within2 2 a r.mag
        if code > fFP32.maxCode then (ovfCode fFP32 false, { ovf := true, inx := true })
        else (code, { unf := decide (k < -126), inx := true })

/-- The binary logarithm of y / 2^96, for y from 2^96 up to 2^97, in units of 2^-80, by repeated squaring. -/
def log2Frac (y : Nat) : Nat :=
  ((List.range 80).foldl
    (fun (st : Nat × Nat) _ =>
      let q := st.2 * st.2 / 2 ^ 96
      if q ≥ 2 ^ 97 then (2 * st.1 + 1, q / 2) else (2 * st.1, q))
    (0, y)).1

/-- FLG2 (R92, R93): exact for powers of two; else within 2 ulp. -/
def f32Lg2 (a : Nat) : Nat × FFlags :=
  match numOf fFP32 a with
  | .nan s => (fFP32.qnan, { inv := s })
  | .inf n => if n then (fFP32.qnan, flagInv) else (ovfCode fFP32 false, {})
  | .fin n m e =>
    if m = 0 then (signCode fFP32 true + ovfCode fFP32 false, {})
    else if n then (fFP32.qnan, flagInv)
    else match pow2Exp m e with
      | some k => roundNum fFP32 .nearest false (.fin (decide (k < 0)) k.natAbs 0)
      | none =>
        let l := Nat.log2 m
        let k : Int := e + l
        let fr := log2Frac (m * 2 ^ 96 / 2 ^ l)
        let v : Int := k * 2 ^ 80 + fr
        let r := roundMag fFP32 .zero v.natAbs (-80)
        (signCode fFP32 (decide (v < 0)) + within2 3 a r.mag, { inx := true })

/-! ### Integers -/

/-- The signed value of the low `w` bits. -/
def toSigned (w x : Nat) : Int :=
  let y := x % 2 ^ w
  if bitOf y (w - 1) then (y : Int) - 2 ^ w else y

/-- The low `w` bits of an integer. -/
def wrapInt (w : Nat) (x : Int) : Nat := (x % 2 ^ w).toNat

/-- The smallest and the largest value of an integer type. -/
def intMin (w : Nat) (signed : Bool) : Int := if signed then -(2 ^ (w - 1)) else 0
def intMax (w : Nat) (signed : Bool) : Int := if signed then 2 ^ (w - 1) - 1 else 2 ^ w - 1

def clampInt (lo hi x : Int) : Int := if x < lo then lo else if hi < x then hi else x

/-- An integer result: it wraps modulo the type width, unless SAT is 1, in which case it clamps (R92). -/
def fitInt (w : Nat) (signed sat : Bool) (x : Int) : Nat :=
  wrapInt w (if sat then clampInt (intMin w signed) (intMax w signed) x else x)

/-- The integer value of an operand of the type. -/
def intVal (w : Nat) (signed : Bool) (x : Nat) : Int := if signed then toSigned w x else ((x % 2 ^ w : Nat) : Int)

/-- Rounds to an integer type: clamps; INV alone for a NaN, an infinity or an out-of-range value; INX when the
rounding changed an in-range value (R95, R139, R143). -/
def numToInt (rnd : Rnd) (w : Nat) (signed : Bool) (x : Num) : Nat × FFlags :=
  match x with
  | .nan _ => (0, flagInv)
  | .inf n => (wrapInt w (if n then intMin w signed else intMax w signed), flagInv)
  | .fin n m e =>
    let r := roundAt rnd m e 0
    let v : Int := if n then -(r.1 : Int) else r.1
    if v < intMin w signed then (wrapInt w (intMin w signed), flagInv)
    else if v > intMax w signed then (wrapInt w (intMax w signed), flagInv)
    else (wrapInt w v, { inx := r.2 })

/-- An integer as an exact number. -/
def intNum (x : Int) : Num := .fin (decide (x < 0)) x.natAbs 0

/-! ### The stochastic generator (R141) -/

/-- The 16-bit draw of R141: seed, column or lane index, draw index. -/
def drawOf (seed c n : Nat) : Nat :=
  let m := 2 ^ 32
  let h := (seed + 0x9E3779B9 * (c + 1)) % m
  let h := Nat.xor h (0x85EBCA6B * n % m)
  let h := Nat.xor h (h / 2 ^ 16) * 0x7FEB352D % m
  let h := Nat.xor h (h / 2 ^ 15) * 0x846CA68B % m
  let h := Nat.xor h (h / 2 ^ 16)
  h / 2 ^ 16

end Sys2Proof.Machine
end

