-- ==== Sys2Proof/Machine/Map.lean ====
section
/-!
DEFINITION. Sparse tables and byte memories: the two containers every part of the state is built from.
-/

namespace Sys2Proof.Machine

/-- A table by number, in rising order of the number; what is absent has the default of the reader. -/
abbrev Tbl (α : Type) := List (Nat × α)

/-- The entry of number `k`, if the table lists one. -/
def tblFind {α : Type} (k : Nat) : Tbl α → Option α
  | [] => none
  | (j, v) :: t => if j = k then some v else tblFind k t

/-- The entry of number `k`, or the default `d`. -/
def tblGet {α : Type} (d : α) (t : Tbl α) (k : Nat) : α := (tblFind k t).getD d

/-- Sets entry `k`, keeping the rising order. -/
def tblSet {α : Type} (k : Nat) (v : α) : Tbl α → Tbl α
  | [] => [(k, v)]
  | (j, w) :: t =>
    if k < j then (k, v) :: (j, w) :: t
    else if k = j then (k, v) :: t
    else (j, w) :: tblSet k v t

/-- Drops entry `k`. -/
def tblDrop {α : Type} (k : Nat) : Tbl α → Tbl α
  | [] => []
  | (j, w) :: t => if j = k then t else (j, w) :: tblDrop k t

/-- A byte memory in canonical form: addresses strictly rising, no entry equal to what an unlisted address reads
as, which is 0 (assumption 3). -/
abbrev Mem := List Host.Cell

/-- Reads one byte. -/
def memRead : Mem → Nat → Byte
  | [], _ => 0
  | (k, v) :: t, a => if k = a then v else memRead t a

/-- Writes one byte, keeping the canonical form. -/
def memWrite : Mem → Nat → Byte → Mem
  | [], a, b => if b = 0 then [] else [(a, b)]
  | (k, v) :: t, a, b =>
    if a < k then (if b = 0 then (k, v) :: t else (a, b) :: (k, v) :: t)
    else if a = k then (if b = 0 then t else (a, b) :: t)
    else (k, v) :: memWrite t a b

/-- All addresses of the memory lie above `a`. -/
def memAbove (a : Nat) : Mem → Bool
  | [] => true
  | (k, _) :: _ => decide (a < k)

/-- The canonical form holds. -/
def Memory.wf : Mem → Bool
  | [] => true
  | (k, v) :: t => decide (v ≠ 0) && memAbove k t && Memory.wf t

/-- Reads `n` bytes from `a` up. -/
def memReadN (m : Mem) (a : Nat) : Nat → List Byte
  | 0 => []
  | n + 1 => memRead m a :: memReadN m (a + 1) n

/-- Writes the bytes at `a` and up. -/
def memWriteN (m : Mem) (a : Nat) : List Byte → Mem
  | [] => m
  | b :: bs => memWriteN (memWrite m a b) (a + 1) bs

/-- The little-endian number of `n` bytes at `a`. -/
def memLe (m : Mem) (a n : Nat) : Nat := ofLe (memReadN m a n)

/-- The part of the memory at addresses from `lo` up to, and without, `hi` reads 0 afterwards. -/
def memClear (m : Mem) (lo hi : Nat) : Mem := m.filter (fun c => !(decide (lo ≤ c.1) && decide (c.1 < hi)))

end Sys2Proof.Machine
end

