-- ==== Sys2Proof/Machine/GangState.lean ====
section
/-!
DEFINITION. The state of one gang slot and of a launch (02_gangs R25 to R32, R56 to R60).
-/

namespace Sys2Proof.Machine

/-- A reconvergence stack entry (R36, R37): a join entry's own address is its join point; a pending entry's is its
target. -/
structure RecEntry where
  pending : Bool
  pc : Addr
  mask : W32
  join : Addr
  deriving DecidableEq, Repr

/-- A loop stack entry (R41 to R43): first and last instruction of the body, what follows it, the captured count and
the iteration index. -/
structure LoopEntry where
  first : Addr
  last : Addr
  after : Addr
  count : Nat
  iter : Nat
  deriving DecidableEq, Repr

/-- What a gang that issues nothing further waits for (R59, R87 to R91, R56). -/
inductive GangWait where
  | none
  /-- a gang matrix instruction waits for the array (R59, R120) -/
  | window
  /-- TWAIT: tally id, value, the time the wait began in ns, timeout in µs, the wait's number (R87, R88) -/
  | tally (tid value start tmo serial : Nat)
  /-- a fence that waits for write-backs or acknowledgements (R89, R335): scope, whether it also acquires -/
  | fence (scope : Nat) (acquire : Bool)
  /-- FSIG: waits for its release, then for the controller (R90): the device address, the value, whether it was sent -/
  | fsig (addr value scope : Nat) (sent : Bool)
  /-- FWAIT: predicate, device address, value, scope, start, timeout, whether a read is under way (R90) -/
  | fwait (d addr value scope start tmo : Nat) (reading : Bool)
  /-- ALLOC: waits for the Foreman's reply into scalar register d (R91, R363) -/
  | alloc (d : Nat)
  /-- a host-window access whose data or page checks have not all returned (08_far R239, assumption 26) -/
  | host
  /-- the instruction was rejected by the host's IOMMU and is executed again after the resume (R56) -/
  | rejected
  deriving DecidableEq, Repr

/-- A memory instruction whose data has not all arrived (R52, R60): its number within the gang, its destination
registers and how many lines, replies or lanes are outstanding. -/
structure GangLoad where
  id : Nat
  regs : List Nat
  left : Nat
  deriving DecidableEq, Repr

/-- Which instruction of which gang a request in flight comes from (R65): gang slot, the gang's number
(16 × launch + %launch), native program counter and active mask. -/
structure InsnAt where
  slot : Nat
  uid : Nat
  npc : Nat
  mask : Nat
  deriving DecidableEq, Repr

/-- The part of a load or store that lies in one line: where it comes from, load number, the instruction's fields, and per
lane its offset in the line (and the bytes, for a store). -/
structure LinePart where
  slot : Nat
  uid : Nat
  /-- the instruction, for a fault that its data meets (R65) -/
  insn : InsnAt
  load : Nat
  form : VForm
  store : Bool
  line : Nat
  /-- the number of the free values that settle lanes of a store that name one location (assumption 27) -/
  draw : Nat := 0
  lanes : List (Nat × Nat × List Byte)
  /-- a load's bytes that the cache held valid when the load issued, by offset (08_far R231, 12_model R330) -/
  fwd : List (Nat × Byte) := []
  deriving DecidableEq, Repr

/-- One gang slot (R25). -/
structure Gang where
  live : Bool := false
  /-- the LAUNCH it belongs to, by the launch's number in the core -/
  launch : Nat := 0
  /-- %launch (R26) -/
  index : Nat := 0
  /-- vector registers: entry 32 × register + lane -/
  v : Tbl W32 := []
  s : Tbl W64 := []
  p : Tbl W32 := []
  mask : W32 := 0
  exited : W32 := 0
  pc : Addr := 0
  rstack : List RecEntry := []
  lstack : List LoopEntry := []
  wait : GangWait := .none
  /-- where the gang goes on when its wait ends -/
  resume : Addr := 0
  /-- memory instructions in flight; their destination registers are reserved in the scoreboard (R33, R52) -/
  loads : List GangLoad := []
  /-- scalar registers reserved until a reply writes them (R33) -/
  busyS : List Nat := []
  /-- stores of the gang not yet accepted (R30) -/
  stores : Nat := 0
  /-- vector registers that a queued gang matrix instruction still reads (R60) -/
  heldV : List Nat := []
  /-- vector registers that a queued gang mdrain will write (R60) -/
  dueV : List Nat := []
  /-- stochastic cvt instructions executed since the gang started (05_numbers R142) -/
  draws : Nat := 0
  /-- lines of the current LD or ST that have not been issued (R52, R232) -/
  todo : List LinePart := []
  /-- number of the next memory instruction -/
  nextId : Nat := 0
  deriving DecidableEq, Repr

/-- What a gang instruction reads besides its gang: its place and the clocks (R26), and the seed of stochastic
conversions (05_numbers R142). -/
structure GangEnv where
  core : Nat
  slot : Nat
  cycle : Nat
  time : Nat
  seed : Nat
  deriving DecidableEq, Repr

/-! ### Register files -/

/-- Vector register `r` in lane `l`. -/
def Gang.getV (g : Gang) (r l : Nat) : W32 := tblGet 0 g.v (32 * r + l)
def Gang.setV (g : Gang) (r l : Nat) (x : W32) : Gang := { g with v := tblSet (32 * r + l) x g.v }
/-- Scalar register `r`. -/
def Gang.getS (g : Gang) (r : Nat) : W64 := tblGet 0 g.s r
def Gang.setS (g : Gang) (r : Nat) (x : W64) : Gang := { g with s := tblSet r x g.s }
/-- Predicate register `r`: p0 reads as all ones (R25). -/
def Gang.getP (g : Gang) (r : Nat) : W32 := if r = 0 then 0xFFFFFFFF else tblGet 0 g.p r
/-- Writes to p0 are ignored (R25). -/
def Gang.setP (g : Gang) (r : Nat) (x : W32) : Gang := if r = 0 then g else { g with p := tblSet r x g.p }

/-- %iterN: the iteration index of the entry N places below the top of the loop stack, 0 when there is none (R72). -/
def Gang.iter (g : Gang) (n : Nat) : Nat := match g.lstack[n]? with | some e => e.iter | none => 0

/-- A scalar operand code: s0 to s63 and the special values (R26, R71, R72). %lane is a lane's own number. -/
def Gang.scalarOp (env : GangEnv) (g : Gang) (lane code : Nat) : Nat :=
  if code < 64 then (g.getS code).toNat
  else if code = 64 then lane
  else if code = 65 then env.slot
  else if code = 66 then env.core
  else if code = 67 then g.index
  else if code = 68 then g.mask.toNat
  else if code < 73 then g.iter (code - 69)
  else if code = 73 then env.cycle % 2 ^ 64
  else if code = 74 then env.time % 2 ^ 64
  else 0

/-- The value of a vector register or pair at width `w` in a lane (R25, R73, R92). -/
def Gang.vecOp (g : Gang) (r l w : Nat) : Nat :=
  if w = 64 then (g.getV r l).toNat + 2 ^ 32 * (g.getV (r + 1) l).toNat
  else (g.getV r l).toNat % 2 ^ w

/-- Writes a lane's result of width `w`: the low bits of the destination, every higher bit 0 (R92); a pair for a
64-bit result (R73). -/
def Gang.putV (g : Gang) (r l w x : Nat) : Gang :=
  if w = 64 then (g.setV r l (BitVec.ofNat 32 x)).setV (r + 1) l (BitVec.ofNat 32 (x / 2 ^ 32))
  else g.setV r l (BitVec.ofNat 32 (x % 2 ^ w))

/-- Writes a lane result in every lane of the mask. -/
def Gang.putLanes (g : Gang) (r w : Nat) (lanes : W32) (val : Nat → Nat) : Gang :=
  (lanesOf lanes).foldl (fun h l => h.putV r l w (val l)) g

/-- The state that R27 sets at the start of a gang. -/
def Gang.start (launch index : Nat) (entry : Addr) (args : List W64) : Gang :=
  { live := true, launch := launch, index := index, mask := 0xFFFFFFFF, pc := entry
    s := (List.range 8).map (fun i => (i, args.getD i 0)) }

/-- The lanes that execute: the active mask, and the qualifying predicate, complemented by QN (R39, R70). -/
def Gang.execLanes (g : Gang) (qp : Nat) (qn : Bool) : W32 :=
  if qn then g.mask &&& ~~~(g.getP qp) else g.mask &&& g.getP qp

/-! ### Sequencing (R36, R37, R41, R42) -/

/-- The pops of R37: while the program counter is at the join point of the top entry, or no lane is active. -/
def reconverge (exited : W32) : List RecEntry → W32 → Addr → List RecEntry × W32 × Addr
  | [], m, pc => ([], m, pc)
  | e :: t, m, pc =>
    if pc = e.join ∨ m = 0 then reconverge exited t (e.mask &&& ~~~exited) e.pc
    else (e :: t, m, pc)

/-- The gang arrives at an address (R37). DESIGN CHOICE: an entry of the loop stack stays there when control leaves its body
other than by its END, through a branch or an EXIT of the lanes inside (assumption 113). -/
def Gang.goto (g : Gang) (pc : Addr) : Gang :=
  let r := reconverge g.exited g.rstack g.mask pc
  { g with rstack := r.1, mask := r.2.1, pc := r.2.2 }

/-- The back edge of the hardware loops that end at the instruction at `at_` (R41, R42): the next iteration of the
innermost one that has one left, else the address that follows. -/
def loopBack (at_ next : Addr) : List LoopEntry → List LoopEntry × Addr
  | [] => ([], next)
  | e :: t =>
    if e.last = at_ then
      (if e.iter + 1 < e.count then ({ e with iter := e.iter + 1 } :: t, e.first) else loopBack at_ next t)
    else (e :: t, next)

/-- The gang goes on to the instruction that follows. -/
def Gang.advance (g : Gang) (next : Addr) : Gang :=
  let r := loopBack g.pc next g.lstack
  { g with lstack := r.1 }.goto r.2

/-- BR (R36), with T = active mask & (PN ? ~P : P) (R77); none: the push does not fit the 32-entry stack (R38). DESIGN
CHOICE: a branch at the END of a hardware loop goes to its target where it is taken, and no back edge follows
(assumption 113). -/
def Gang.branch (g : Gang) (p : Nat) (pn : Bool) (tgt join next : Addr) : Option Gang :=
  let t := g.execLanes p pn
  if t = g.mask then some (g.goto tgt)
  else if t = 0 then some (g.advance next)
  else
    let parked := match g.rstack with
      | e :: _ => !e.pending && e.join == join
      | [] => false
    let st := if parked then g.rstack else ⟨false, join, g.mask, join⟩ :: g.rstack
    let st := ⟨true, tgt, t, join⟩ :: st
    if st.length > 32 then none
    else some ({ g with rstack := st, mask := g.mask &&& ~~~t }.advance next)

/-- LOOP (R41, R43): a count of 0 skips the body and goes on as after its END, where enclosing loops with the same END
take their back edge; none: the loop stack is full. -/
def Gang.loop (g : Gang) (sreg : Nat) (last after next : Addr) : Option Gang :=
  let n := (g.getS sreg).toNat % 2 ^ 32
  if n = 0 then (let r := loopBack last after g.lstack; some ({ g with lstack := r.1 }.goto r.2))
  else if g.lstack.length ≥ 4 then none
  else some ({ g with lstack := ⟨next, last, after, n, 0⟩ :: g.lstack }.goto next)

/-- EXIT (R40, R79): the executing lanes leave; the others go on. -/
def Gang.exitLanes (g : Gang) (qp : Nat) (qn : Bool) (next : Addr) : Gang :=
  let gone := g.execLanes qp qn
  let h := { g with exited := g.exited ||| gone, mask := g.mask &&& ~~~gone }
  if h.mask = 0 then h.goto h.pc else h.advance next

/-- The gang's number in its core. -/
def Gang.uid (g : Gang) : Nat := 16 * g.launch + g.index

/-- A wait ends: the gang goes on. -/
def Gang.wake (g : Gang) : Gang := { g with wait := .none }.advance g.resume

/-- A gang with no active lane after an EXIT has left (R40). -/
def Gang.gone (g : Gang) : Bool := g.mask == 0

end Sys2Proof.Machine
end

