-- ==== Sys2Proof/Machine/Operands.lean ====
section
/-!
DEFINITION. Every operand form and every computation of the Sett instructions on one gang (03_sett R71 to R95).
-/

namespace Sys2Proof.Machine

/-! ### Operands (R75, R76) -/

/-- Operand B at width `w` in lane `l`: immediate, scalar or vector. -/
def opB (env : GangEnv) (g : Gang) (f : VForm) (signed : Bool) (w l : Nat) : Nat :=
  if f.ib then
    (if f.ic then wrapInt w (intVal 32 signed f.ext.toNat) else f.ext.toNat % 2 ^ w)
  else if f.bs then g.scalarOp env l f.b % 2 ^ w
  else g.vecOp f.b l w

/-- Operand C at width `w` in lane `l`. -/
def opC (env : GangEnv) (g : Gang) (f : VForm) (signed : Bool) (w l : Nat) : Nat :=
  if f.ic then
    (if f.ib then wrapInt w (intVal 32 signed (f.ext.toNat / 2 ^ 32)) else f.ext.toNat % 2 ^ w)
  else if f.cs then g.scalarOp env l f.c % 2 ^ w
  else g.vecOp f.c l w

/-- Operand A of the scalar slot at width `w`. -/
def sopA (env : GangEnv) (g : Gang) (f : VForm) (w : Nat) : Nat := g.scalarOp env 0 f.a % 2 ^ w

/-- Operand B of the scalar slot at width `w`: immediate or scalar. -/
def sopB (env : GangEnv) (g : Gang) (f : VForm) (w : Nat) : Nat :=
  if f.ib then f.ext.toNat % 2 ^ w else g.scalarOp env 0 f.b % 2 ^ w

/-! ### Integer operations (R92) -/

/-- The integer operations of both slots. -/
inductive IOp where
  | add | sub | mul | mulhi | and | or | xor | shl | shr | sar | min | max | mov
  deriving DecidableEq, Repr

/-- An integer operation at width `w`: it wraps, or clamps under SAT; shifts are by B mod width (R92). -/
def ialu (op : IOp) (w : Nat) (signed sat : Bool) (a b : Nat) : Nat :=
  let x := intVal w signed a
  let y := intVal w signed b
  match op with
  | .add => fitInt w signed sat (x + y)
  | .sub => fitInt w signed sat (x - y)
  | .mul => fitInt w signed sat (x * y)
  | .mulhi => wrapInt w (x * y / 2 ^ w)
  | .and => Nat.land (a % 2 ^ w) (b % 2 ^ w)
  | .or => Nat.lor (a % 2 ^ w) (b % 2 ^ w)
  | .xor => Nat.xor (a % 2 ^ w) (b % 2 ^ w)
  | .shl => fitInt w signed sat (x * 2 ^ (b % w))
  | .shr => a % 2 ^ w / 2 ^ (b % w)
  | .sar => wrapInt w (toSigned w a / 2 ^ (b % w))
  | .min => wrapInt w (if x ≤ y then x else y)
  | .max => wrapInt w (if x ≤ y then y else x)
  | .mov => b % 2 ^ w

/-- A vector-slot integer instruction. -/
def vecInt (op : IOp) (env : GangEnv) (g : Gang) (f : VForm) : Gang × FFlags :=
  let w := tyWidth f.ty
  let sg := tySigned f.ty
  (g.putLanes f.d w (g.execLanes f.qp f.qn)
    (fun l => ialu op w sg f.sat (g.vecOp f.a l w) (opB env g f sg w l)), {})

/-- A scalar-slot integer instruction: a narrow type leaves the higher bits 0 (R92). -/
def scaInt (op : IOp) (env : GangEnv) (g : Gang) (f : VForm) : Gang × FFlags :=
  let w := tyWidth f.ty
  (g.setS f.d (BitVec.ofNat 64 (ialu op w (tySigned f.ty) f.sat (sopA env g f w) (sopB env g f w))), {})

/-- CADDR: the device address of CONST plus B (R92); the loader knows where it placed CONST. -/
def scaCaddr (constBase : Addr) (env : GangEnv) (g : Gang) (f : VForm) : Gang × FFlags :=
  (g.setS f.d (BitVec.ofNat 64 (constBase.toNat + sopB env g f 64)), {})

/-- SEL (R92): A where the predicate bit, complemented if OPX[3], is 1; otherwise B. -/
def vecSel (env : GangEnv) (g : Gang) (f : VForm) : Gang × FFlags :=
  let w := tyWidth f.ty
  let p := g.getP (f.opx % 8)
  (g.putLanes f.d w (g.execLanes f.qp f.qn)
    (fun l => if (p.getLsbD l).xor (bitOf f.opx 3) then g.vecOp f.a l w else opB env g f (tySigned f.ty) w l), {})

/-- POPC and CLZ (R92). -/
def popCount (x : Nat) : Nat := ((List.range 32).filter (fun i => bitOf x i)).length
def leadZeros (x : Nat) : Nat := 32 - bitLen (x % 2 ^ 32)

def vecUn (op : Nat → Nat) (g : Gang) (f : VForm) : Gang × FFlags :=
  (g.putLanes f.d 32 (g.execLanes f.qp f.qn) (fun l => op (g.vecOp f.a l 32)), {})

/-- PACK (R92): A[15:0] + B[15:0] × 2^16. -/
def vecPack (env : GangEnv) (g : Gang) (f : VForm) : Gang × FFlags :=
  (g.putLanes f.d 32 (g.execLanes f.qp f.qn)
    (fun l => g.vecOp f.a l 16 + 2 ^ 16 * opB env g f false 16 l), {})

/-- BPERM (R92): byte j of D is byte C[4j+2:4j] of the eight bytes B:A. -/
def permBytes (a b c : Nat) : Nat :=
  (List.range 4).foldl (fun acc j =>
    acc + 2 ^ (8 * j) * ((a + 2 ^ 32 * b) / 2 ^ (8 * bitsOf c (4 * j + 2) (4 * j)) % 256)) 0

def vecBperm (env : GangEnv) (g : Gang) (f : VForm) : Gang × FFlags :=
  (g.putLanes f.d 32 (g.execLanes f.qp f.qn)
    (fun l => permBytes (g.vecOp f.a l 32) (opB env g f false 32 l) (opC env g f false 32 l)), {})

/-- The source lane of SHFL (R92, R94). DESIGN CHOICE: B of forms 2 and 3 is taken unsigned (assumption 115). -/
def shflLane (form l b : Nat) : Nat :=
  if form = 0 then b % 32
  else if form = 1 then Nat.xor l (b % 32)
  else if form = 2 then (if b ≤ l then l - b else l)
  else (if l + b < 32 then l + b else l)

/-- SHFL reads its source in all 32 lanes and writes only executing lanes (R94). -/
def vecShfl (env : GangEnv) (g : Gang) (f : VForm) : Gang × FFlags :=
  (g.putLanes f.d 32 (g.execLanes f.qp f.qn)
    (fun l => g.vecOp f.a (shflLane f.opx l (opB env g f false 32 l)) 32), {})

/-! ### Floating point (R92, R93) -/

/-- A floating-point operation in every executing lane; the flags of all of them accumulate (R39, R62). -/
def vecF (op : Nat → Nat × FFlags) (g : Gang) (f : VForm) : Gang × FFlags :=
  let lanes := g.execLanes f.qp f.qn
  (g.putLanes f.d 32 lanes (fun l => (op l).1),
   (lanesOf lanes).foldl (fun fl l => fl.or (op l).2) {})

def vecF1 (op : Nat → Nat × FFlags) (g : Gang) (f : VForm) : Gang × FFlags :=
  vecF (fun l => op (g.vecOp f.a l 32)) g f

def vecF2 (op : Nat → Nat → Nat × FFlags) (env : GangEnv) (g : Gang) (f : VForm) : Gang × FFlags :=
  vecF (fun l => op (g.vecOp f.a l 32) (opB env g f false 32 l)) g f

def vecF3 (op : Nat → Nat → Nat → Nat × FFlags) (env : GangEnv) (g : Gang) (f : VForm) : Gang × FFlags :=
  vecF (fun l => op (g.vecOp f.a l 32) (opB env g f false 32 l) (opC env g f false 32 l)) g f

/-! ### CVT (R95, 05_numbers R139, R141, R142) -/

/-- The format of a floating-point type code (R73). -/
def tyFmt (t : Nat) : FFmt :=
  if t = 4 then fFP32 else if t = 5 then fFP16 else if t = 6 then fBF16 else if t = 7 then fE4M3 else fE5M2

/-- One conversion: destination type, source type, rounding, SAT. A value outside the range of an integer type sets INV
alone, from whatever source type (R139, R143). -/
def cvtOne (dst src : Nat) (rnd : Rnd) (sat : Bool) (x : Nat) : Nat × FFlags :=
  let dw := tyWidth dst
  if tyFloat src then
    let v := numOf (tyFmt src) x
    if tyFloat dst then roundNum (tyFmt dst) rnd sat v else numToInt rnd dw (tySigned dst) v
  else
    let n := intVal (tyWidth src) (tySigned src) x
    if tyFloat dst then roundNum (tyFmt dst) rnd sat (intNum n)
    else (fitInt dw (tySigned dst) sat n, { inv := decide (n < intMin dw (tySigned dst) ∨ intMax dw (tySigned dst) < n) })

/-- The rounding of one lane of a cvt: stochastic conversions draw with seed GE_SR_SEED, index 32 × slot + lane and
the gang's count (R142). -/
def cvtRnd (env : GangEnv) (g : Gang) (f : VForm) (l : Nat) : Rnd :=
  if f.rnd = 2 then .draw (drawOf env.seed (32 * env.slot + l) g.draws) else rndOf f.rnd

def vecCvt (env : GangEnv) (g : Gang) (f : VForm) : Gang × FFlags :=
  let lanes := g.execLanes f.qp f.qn
  let src := f.opx % 16
  let op := fun l => cvtOne f.ty src (cvtRnd env g f l) f.sat (g.vecOp f.a l (tyWidth src))
  let h := g.putLanes f.d (tyWidth f.ty) lanes (fun l => (op l).1)
  (if f.rnd = 2 ∧ lanes ≠ 0 then { h with draws := (g.draws + 1) % 2 ^ 32 } else h,
   (lanesOf lanes).foldl (fun fl l => fl.or (op l).2) {})

/-! ### RED (R92, R94) -/

/-- One node of the reduction tree. DESIGN CHOICE: an F32 min or max is that of FMIN and FMAX, INV on a signalling NaN
included (assumption 117). -/
def redNode (op ty : Nat) (sat : Bool) (x y : Nat) : Nat × FFlags :=
  if op = 3 then (Nat.land x y, {})
  else if op = 4 then (Nat.lor x y, {})
  else if ty = 4 then
    (if op = 0 then f32Add .nearest x y else f32MinMax (op == 2) x y)
  else (ialu (if op = 0 then .add else if op = 1 then .min else .max) 32 (ty == 1) sat x y, {})

/-- One level of the fixed binary tree over lane numbers; lanes that do not execute are left out. DESIGN CHOICE: a value
that meets no other passes as it is, a NaN too (assumption 117). -/
def redLevel (op ty : Nat) (sat : Bool) : List (Option Nat) → List (Option Nat) × FFlags
  | a :: b :: t =>
    let r := redLevel op ty sat t
    (match a, b with
      | some x, some y => let q := redNode op ty sat x y; (some q.1 :: r.1, q.2.or r.2)
      | some x, none => (some x :: r.1, r.2)
      | none, y => (y :: r.1, r.2))
  | [a] => ([a], {})
  | [] => ([], {})

def redTree (op ty : Nat) (sat : Bool) : Nat → List (Option Nat) → Option Nat × FFlags
  | 0, xs => (xs.headD none, {})
  | n + 1, xs =>
    let r := redLevel op ty sat xs
    let q := redTree op ty sat n r.1
    (q.1, r.2.or q.2)

/-- RED: the five levels of the tree over 32 lanes; an empty mask leaves sd unchanged (R94). DESIGN CHOICE: over one
executing lane no node combines anything, so the lane's bits pass unchanged and no flag rises (assumption 117). -/
def vecRed (g : Gang) (f : VForm) : Gang × FFlags :=
  let lanes := g.execLanes f.qp f.qn
  let xs := (List.range 32).map (fun l => if lanes.getLsbD l then some (g.vecOp f.a l 32) else none)
  let r := redTree (f.opx % 8) f.ty f.sat 5 xs
  match r.1 with
  | some x => (g.setS f.d (BitVec.ofNat 64 x), r.2)
  | none => (g, {})

/-! ### Predicates (R80) -/

/-- A comparison: none when an F32 operand is a NaN. -/
def cmpVal (ty a b : Nat) : Option Int :=
  if ty = 4 then
    match numOf fFP32 a, numOf fFP32 b with
    | .nan _, _ => none
    | _, .nan _ => none
    | .inf x, .inf y => some (if x = y then 0 else if x then -1 else 1)
    | x, y => some (cmpNum x y)
  else
    let w := tyWidth ty
    let x := intVal w (tySigned ty) a
    let y := intVal w (tySigned ty) b
    some (if x < y then -1 else if x = y then 0 else 1)

/-- The condition codes: 0 eq, 1 ne, 2 lt, 3 le, 4 gt, 5 ge; with a NaN only ne holds. -/
def condHolds (cc : Nat) (c : Option Int) : Bool :=
  match c with
  | none => cc == 1
  | some v =>
    if cc = 0 then v == 0 else if cc = 1 then v != 0 else if cc = 2 then decide (v < 0)
    else if cc = 3 then decide (v ≤ 0) else if cc = 4 then decide (0 < v) else decide (0 ≤ v)

/-- The 32-bit word whose bit l is `b l`. -/
def maskOf (b : Nat → Bool) : W32 := BitVec.ofNat 32 ((List.range 32).foldl (fun acc l => acc + 2 ^ l * boolN (b l)) 0)

/-- SETP: the bits of lanes that do not execute are unchanged. DESIGN CHOICE: no comparison raises a flag, a signalling NaN
of an F32 one included (assumption 114). -/
def predSetp (env : GangEnv) (g : Gang) (f : VForm) : Gang × FFlags :=
  let lanes := g.execLanes f.qp f.qn
  let w := tyWidth f.ty
  let old := g.getP f.d
  (g.setP f.d (maskOf (fun l =>
    if lanes.getLsbD l then
      condHolds (f.opx % 8) (cmpVal f.ty (g.vecOp f.a l w) (opB env g f (tySigned f.ty) w l))
    else old.getLsbD l)), {})

/-- PLOG over all 32 bits, whatever the mask. -/
def predPlog (g : Gang) (f : VForm) : Gang × FFlags :=
  let a := g.getP f.a
  let b := g.getP f.b
  let op := f.opx % 8
  (g.setP f.d (if op = 0 then a &&& b else if op = 1 then a ||| b else if op = 2 then a ^^^ b
    else if op = 3 then a &&& ~~~b else if op = 4 then ~~~a else a), {})

/-- PBAL: pa & %mask, zero-extended. -/
def predPbal (g : Gang) (f : VForm) : Gang × FFlags :=
  (g.setS f.d (BitVec.ofNat 64 (g.getP f.a &&& g.mask).toNat), {})

/-- PSET: B[31:0]. -/
def predPset (env : GangEnv) (g : Gang) (f : VForm) : Gang × FFlags :=
  (g.setP f.d (BitVec.ofNat 32 (sopB env g f 32)), {})

/-- SCMP: all 32 bits of pd; no flag (assumption 114, as SETP). -/
def predScmp (env : GangEnv) (g : Gang) (f : VForm) : Gang × FFlags :=
  let w := tyWidth f.ty
  (g.setP f.d (if condHolds (f.opx % 8) (cmpVal f.ty (sopA env g f w) (sopB env g f w)) then 0xFFFFFFFF else 0), {})

/-! ### Addresses and data of memory instructions (R44, R45, R81, R82) -/

/-- A lane's address (R81): the pair vA, sA plus the unsigned 32-bit offset in vC, or sA. -/
def laneAddr (env : GangEnv) (g : Gang) (f : VForm) (l : Nat) : Nat :=
  if opxAf f = 0 then g.vecOp f.a l 64
  else if opxAf f = 1 then (g.scalarOp env l f.a + g.vecOp f.c l 32) % 2 ^ 64
  else g.scalarOp env l f.a

/-- The device address of the slab that SLD and SST name: s[47:9] × 512 (R44). -/
def slabAddr (env : GangEnv) (g : Gang) (f : VForm) : Nat := bitsOf (g.scalarOp env 0 f.a) 47 9 * 512

/-- The bytes a lane stores (R82): a register group, a scalar or an immediate. -/
def storeBytes (env : GangEnv) (g : Gang) (f : VForm) (l : Nat) : List Byte :=
  let n := 2 ^ opxSz f
  if f.ib then leBytes n f.ext.toNat
  else if f.bs then leBytes n (g.scalarOp env l f.b)
  else (List.range (cdiv n 4)).foldr (fun i acc => leBytes (min n 4) (g.getV (f.b + i) l).toNat ++ acc) []

/-- Writes what an LD read in one lane (R81, R82): narrow data in the low bits, sign- or zero-extended. -/
def loadLane (g : Gang) (f : VForm) (l : Nat) (bs : List Byte) : Gang :=
  let n := 2 ^ opxSz f
  let x := ofLe bs
  if n ≤ 4 then
    g.setV f.d l (BitVec.ofNat 32 (if opxSx f ∧ n < 4 then wrapInt 32 (toSigned (8 * n) x) else x))
  else (List.range (n / 4)).foldl (fun h i => h.setV (f.d + i) l (BitVec.ofNat 32 (x / 2 ^ (32 * i)))) g

/-- The registers an LD, SLD or ATOM writes. -/
def destRegs (d bytes : Nat) : List Nat := (List.range (cdiv bytes 4)).map (fun i => d + i)

/-- A slab as SLD spreads it and SST gathers it: byte b is in lane b / 16, register vd + (b mod 16) / 4, byte b mod 4
(R45). -/
def loadSlab (g : Gang) (d : Nat) (bs : List Byte) : Gang :=
  (List.range 128).foldl
    (fun h i => h.setV (d + i % 4) (i / 4) (BitVec.ofNat 32 (ofLe ((bs.drop (4 * i)).take 4)))) g

def gatherSlab (g : Gang) (d : Nat) : List Byte :=
  (List.range 128).foldr (fun i acc => leBytes 4 (g.getV (d + i % 4) (i / 4)).toNat ++ acc) []

/-! ### Atomic operations (02_gangs R54, R55) -/

/-- The new value of a location: AOP 0 add, 1 min, 2 max, 3 and, 4 or, 5 xchg, 6 cas (R81, R82). -/
def atomNew (aop w : Nat) (signed : Bool) (old b c : Nat) : Nat :=
  if aop = 0 then ialu .add w signed false old b
  else if aop = 1 then ialu .min w signed false old b
  else if aop = 2 then ialu .max w signed false old b
  else if aop = 3 then ialu .and w signed false old b
  else if aop = 4 then ialu .or w signed false old b
  else if aop = 5 then b % 2 ^ w
  else if old = b % 2 ^ w then c % 2 ^ w else old

/-- Registers that a format-V instruction reads or writes in the vector file (R33, R60). -/
def pairRegs (r w : Nat) : List Nat := if w = 64 then [r, r + 1] else [r]

end Sys2Proof.Machine
end

