-- ==== Sys2Proof/Machine/CoreState.lean ====
section
/-!
DEFINITION. The state of one core: its queues, far cache, slab memory, move engines, matrix engine, tally block and
counters (02_gangs, 04_matrix, 05_numbers, 06_slab, 07_moves, 08_far, 09_queues, 11_tallies, 19_debug_test).
-/

namespace Sys2Proof.Machine

/-! ### Tallies (11_tallies R304 to R308) -/

/-- The home of a tally: a slot of a core's block or of the hub (R304, R305). -/
structure Home where
  hub : Bool
  core : Nat
  slot : Nat
  deriving DecidableEq, Repr

/-- A tally slot: its value and its sticky SAT bit (R304). -/
structure TallySlot where
  value : Nat := 0
  sat : Bool := false
  deriving DecidableEq, Repr

/-- Who waits or sends: a core and a unit of it: 0 to 15 a gang slot, 16 to 19 the queue of GE, ME, MV0, MV1
(R265, R307). -/
structure Waiter where
  core : Nat
  unit : Nat
  deriving DecidableEq, Repr

/-- A watch held at a home (R307, R308): the waiter, which of its waits, the threshold. -/
structure Watch where
  ctx : Nat
  who : Waiter
  idx : Nat
  serial : Nat
  home : Home
  threshold : Nat
  deriving DecidableEq, Repr

/-- One wait on a tally: begun once its watch is accepted at the home or, at its own core, at once (R308). -/
structure TWait where
  vid : Nat
  home : Home
  threshold : Nat
  begun : Bool := false
  done : Bool := false
  seen : Nat := 0
  deriving DecidableEq, Repr

/-! ### Queues (09_queues) -/

/-- The staged fields of a queue (R284). -/
structure QCtl where
  base : Nat := 0
  log2 : Nat := 12
  fenced : Bool := false
  enable : Bool := false
  deriving DecidableEq, Repr

/-- Who committed the staged fields (R285). -/
inductive QCommit where
  | none
  | software
  | foreman (head tail : Nat)
  deriving DecidableEq, Repr

/-- An active loop: first body slot, the slot after the body, iterations left (R268, R269). -/
structure QLoop where
  first : Nat
  stop : Nat
  left : Nat
  count : Nat
  deriving DecidableEq, Repr

/-- A record that has issued and not retired (R256): its number in the queue, its ring slot and its words, head and
extension, at effective values (R278). -/
structure Flight where
  id : Nat
  slot : Nat
  opc : Nat
  words : List W64
  /-- the time the record issued, in ns (R32, R258) -/
  start : Nat
  /-- a SIGNAL or FENCE whose release is not finished yet (R264, R272) -/
  releasing : Bool := false
  deriving DecidableEq, Repr

/-- What holds the queue at a record that has issued and waits (R263, R266, R268, R272). -/
inductive QBlock where
  | none
  | wait (w : TWait)
  /-- tallies, the physical barrier unit, whether it has arrived -/
  | barrier (ws : List TWait) (unit : Option Nat) (arrived : Bool)
  /-- 0: release under way; 1: fence-object operation under way; whether a read of the object is in flight -/
  | fence (stage : Nat) (reading : Bool)
  /-- a LOOP reads its count from memory or from a tally elsewhere -/
  | loopRead (tally : Bool)
  deriving DecidableEq, Repr

/-- One command queue (R249 to R286). -/
structure Queue where
  staged : QCtl := {}
  inForce : QCtl := {}
  commit : QCommit := .none
  defTmo : Nat := 0
  crecBase : Nat := 0
  head : Nat := 0
  fetch : Nat := 0
  tail : Nat := 0
  /-- the next slot to decode -/
  next : Nat := 0
  /-- slots on chip: ring slot and its four words, oldest first (R254) -/
  onchip : List (Nat × List W64) := []
  loops : List QLoop := []
  flight : List Flight := []
  /-- number of the next record to issue -/
  serial : Nat := 0
  block : QBlock := .none
  blockId : Nat := 0
  blockStart : Nat := 0
  /-- when the next record's wait for consumed tokens began, and the class it lacked (R258) -/
  tokSince : Option Nat := none
  tokCls : Nat := 0
  /-- when a LOOP's wait for its body, or the wait of a BARRIER, FENCE, SIGNAL or CLEAR_FLAGS for earlier records began
  (R258, R262, R266) -/
  ordSince : Option Nat := none
  /-- DEF_TMO as it stood when that wait began (R284) -/
  tmoNow : Nat := 0
  /-- records whose end counter record waits for room (19_debug_test R517) -/
  toRetire : List Nat := []
  halt : Bool := false
  halted : Bool := false
  brkEn : Bool := false
  stepArm : Bool := false
  fstall : Nat := 0
  /-- Q_CUR: the words of the most recently issued record and its first extension record (R286) -/
  cur : List W64 := []
  deriving DecidableEq, Repr

/-! ### The far cache (08_far R230 to R248) -/

/-- A line: its number A / 128, its context, its bytes, which are valid, which are dirty, whether a fill is pending. -/
structure FcLine where
  line : Nat
  ctx : Nat
  data : Mem := []
  valid : BitVec 128 := 0
  dirty : BitVec 128 := 0
  pending : Bool := false
  deriving DecidableEq, Repr

/-- A miss entry (R232, R237, R238, R240): it is sent to memory once no write-back of its victim is outstanding. -/
structure FcMiss where
  line : Nat
  ctx : Nat
  parts : List LinePart
  prefetch : Bool := false
  noAlloc : Bool := false
  stale : Bool := false
  /-- the write-back that must be accepted first (R234) -/
  after : Option Nat := none
  /-- its number among the requests of this core (12_model R330) -/
  seq : Nat := 0
  deriving DecidableEq, Repr

/-- A write-back or write-around in flight (R234 to R237): the line and its bytes. -/
structure FcWb where
  id : Nat
  line : Nat
  ctx : Nat
  /-- a write-around of a gang's store: its slot and the gang's number -/
  slot : Option InsnAt
  bytes : List (Nat × Byte)
  deriving DecidableEq, Repr

/-- A posted host-window store with its page checks outstanding (R239). -/
structure HostStore where
  id : Nat
  slot : Nat
  uid : Nat
  /-- the number of the ST within the gang -/
  load : Nat
  ctx : Nat
  /-- pages whose check has not returned, by PCI Express address / 4096 -/
  pages : List Nat
  deriving DecidableEq, Repr

/-- A release under way (R240, R241): who waits, lines still to scan (by their numbers), write-backs and host stores
waited for. -/
structure FcRelease where
  unit : Nat
  ctx : Nat
  todo : List Nat
  wait : List Nat
  hosts : List Nat := []
  deriving DecidableEq, Repr

/-- FC_CTRL (R247). -/
structure FcCtrl where
  pfEn : Bool := true
  pfStride : Nat := 16
  pfDist : Nat := 2
  streamEn : Bool := true
  streamRun : Nat := 4
  deriving DecidableEq, Repr

/-- The streaming detector of a slot (R236): the line of the previous full-line store miss, and the run. -/
structure StreamDet where
  last : Option Nat := none
  run : Nat := 0
  deriving DecidableEq, Repr

/-- The stride detector of a slot (R238). -/
structure StrideDet where
  x0 : Option Nat := none
  d : Int := 0
  deriving DecidableEq, Repr

structure FarCache where
  /-- entry 8 × set + way -/
  lines : Tbl FcLine := []
  /-- the pseudo-least-recently-used tree of each set, 7 bits (R234) -/
  plru : Tbl Nat := []
  misses : List FcMiss := []
  wbs : List FcWb := []
  hostStores : List HostStore := []
  nextId : Nat := 0
  ctrl : FcCtrl := {}
  ctrlNow : FcCtrl := {}
  streams : Tbl StreamDet := []
  strides : Tbl StrideDet := []
  releases : List FcRelease := []
  ceCount : Nat := 0
  /-- sectors with an error: 8 × (8 × set + way) + sector, and whether it is uncorrectable (R243) -/
  bad : Tbl Bool := []
  deriving DecidableEq, Repr

/-! ### Slab memory (06_slab) -/

inductive BankState where
  | on
  | draining
  | off
  | waking
  deriving DecidableEq, Repr

/-- An unplanned access in the port's queue (R152): what a remote or local SLD or SST asks. -/
structure Unpl where
  write : Bool
  slab : Nat
  data : List Byte
  ctx : Nat
  who : Waiter
  uid : Nat
  insn : InsnAt
  load : Nat
  dreg : Nat
  /-- ACLK cycle of the die when it joined (R176) -/
  since : Nat
  deriving DecidableEq, Repr

/-- Whose landing data it is: a request of a move record of this module, by core, queue (2 or 3), record and request; a slab
that a transposed record's band writes; or a WRITE of a claim from another module, by node, claim and index. -/
inductive LandFrom where
  | move (core eng rec_ req : Nat)
  | band (core eng rec_ band : Nat)
  | remote (node claim idx : Nat)
  deriving DecidableEq, Repr

/-- Landing data of one slab: the slab, the first byte, the runs of bytes by offset from it, the context, and what it
belongs to (R154, R156). -/
structure Landing where
  slab : Nat
  off : Nat
  parts : List (Nat × List Byte)
  ctx : Nat
  origin : LandFrom
  deriving DecidableEq, Repr

/-- A POWER record that waits for a bank (R167): queue, record, bank, target state. -/
structure PowerWait where
  eng : Nat
  rec_ : Nat
  bank : Nat
  on : Bool
  deriving DecidableEq, Repr

/-- The most recent error record of SLAB_ECC_ADDR (R175). -/
structure EccAddr where
  slab : Nat := 0
  codeword : Nat := 0
  ue : Bool := false
  valid : Bool := false
  deriving DecidableEq, Repr

/-- What planned reads of one ACLK cycle took of the port: read slots (0 for A, 1 for B; the matrix engine's reads name
none) and banks (R149, R155). -/
structure PortUse where
  cycle : Nat := 0
  slots : List Nat := []
  banks : List Nat := []
  deriving DecidableEq, Repr

structure Slab where
  mem : Mem := []
  /-- the port in the last cycle in which a planned read took it -/
  port : PortUse := {}
  /-- codewords in error: 8 × slab + codeword, and whether the error is uncorrectable (R164) -/
  bad : Tbl Bool := []
  banks : Tbl BankState := []
  powerWaits : List PowerWait := []
  unplanned : List Unpl := []
  landing : List Landing := []
  /-- codewords that wait for their rewrite, oldest first (R163) -/
  rewrites : List Nat := []
  ceCount : Nat := 0
  ueCount : Nat := 0
  eccAddr : EccAddr := {}
  waitCycles : Nat := 0
  conflict : Nat := 0
  deriving DecidableEq, Repr

/-! ### Move engines (07_moves) -/

/-- A request in flight (R179): its number in the record, source and destination address and byte count; for a
transposed move its band (R186). -/
structure MvReq where
  id : Nat
  src : Nat
  dst : Nat
  len : Nat
  band : Nat := 0
  /-- the source has been read: a band waits for its other reads, a landing slab for its slot, a remote request for
  its acknowledgement, a write to the host for its page check -/
  data : Option (List Byte) := none
  /-- sent on the request network after missing its planned slot (R192) -/
  fallback : Bool := false
  deriving DecidableEq, Repr

/-- A record in flight in a move engine. -/
structure MvRec where
  id : Nat
  src : Nat
  dst : Nat
  node : Nat
  len : Nat
  tw : Nat := 0
  group : Nat := 1
  rows : Nat := 0
  cols : Nat := 0
  stride : Nat := 0
  sigEn : Bool := false
  sigTid : Nat := 0
  sigInc : Nat := 0
  /-- the destination of the request that completed last (R210) -/
  last : Nat := 0
  /-- bytes issued so far (plain moves) or source reads issued so far (transposed moves) -/
  pos : Nat := 0
  nextReq : Nat := 0
  reqs : List MvReq := []
  /-- host pages of the record still to be checked, ascending (R203, R205) -/
  pages : List Nat := []
  /-- claim id of a remote record, and whether the claim was accepted (15_haul_twin R410) -/
  claim : Option Nat := none
  claimOk : Bool := false
  /-- the host rejected a page, or a request faulted: the record issues no further request and does not retire (R205) -/
  rejected : Bool := false
  /-- slabs of transposed bands that are being written (R186, R192): band, slab, and 0 written, 1 in the landing buffer, 2 sent
  again as a packet -/
  outs : List (Nat × Nat × Nat) := []
  deriving DecidableEq, Repr

structure MoveEngine where
  recs : List MvRec := []
  /-- entries of paced flows whose credit is not back, oldest first: the flow, and the bridge directions on its way (R194,
  R197) -/
  sent : List (Nat × List Nat) := []
  /-- a paced flow waits for a credit (R197) -/
  creditWait : Bool := false
  fallback : Nat := 0
  empty : Nat := 0
  flags : FFlags := {}
  deriving DecidableEq, Repr

/-! ### The matrix engine (04_matrix, 05_numbers) -/

/-- A converter profile (05_numbers R136). -/
structure Profile where
  scale : Nat := 0x3F800000
  bias : Nat := 0
  clipLo : Nat := 0xFF800000
  clipHi : Nat := 0x7F800000
  ctrl : Nat := 0
  seed : Nat := 0
  biasSlab : Nat := 0
  deriving DecidableEq, Repr

/-- A gang matrix instruction that waits for the array or runs in it (R59, R120). -/
structure GangMat where
  slot : Nat
  /-- 0 mma, 1 mmaz, 2 mdrain, 3 mclr -/
  op : Nat
  form : MForm
  deriving DecidableEq, Repr

/-- The gang window (R119, R120), in ACLK cycles of the die. -/
structure GangWin where
  open_ : Bool := false
  /-- the cycle at which it closes -/
  close : Nat := 0
  grant : W64 := 0
  /-- the GANG_WINDOW record that opened it -/
  rec_ : Nat := 0
  /-- the first cycle after the input of every accepted instruction, and after its last write (R120) -/
  inputEnd : Nat := 0
  finish : Nat := 0
  /-- until which cycle an accepted instruction writes or drains each bank (R124) -/
  busy : Tbl Nat := []
  deriving DecidableEq, Repr

/-- What the array does in one cycle (R109, R113, R116, R117): reads a slab of an operand panel (0 for B, 1 for B scales, 2 for A, 3
for A scales) of a pass of a unit, has the last accumulator write of a unit behind it, starts a unit's drain, or writes the
`k`-th slab of a drained unit. -/
inductive MeAct where
  | read (panel pass unit slab : Nat)
  | compute (unit : Nat)
  | drain (unit : Nat)
  | write (unit k slab : Nat)
  deriving DecidableEq, Repr

/-- An event of a record in progress, by ACLK cycle of the die and number of the record. -/
structure MeEvent where
  at_ : Nat
  rec_ : Nat
  act : MeAct
  deriving DecidableEq, Repr

/-- A MATMUL, MDRAIN or MCLEAR in progress (R117, R118): its record and effective words, the last input cycle and the cycle in
which it retires. -/
structure MatRun where
  rec_ : Nat
  words : List W64 := []
  lastIn : Nat
  due : Nat
  /-- the bank that it writes, drains or clears -/
  bank : Nat := 0
  /-- its stationary loads: first cycle, first cycle of the segments, first cycle after them (R104, R117) -/
  loads : List (Nat × Nat × Nat) := []
  /-- its drains: first cycle, start entry, entries (R113, R117) -/
  drains : List (Nat × Nat × Nat) := []
  /-- slabs read, by unit, pass and panel, and slabs drained, by unit and place -/
  got : List ((Nat × Nat × Nat) × List Byte) := []
  outs : List ((Nat × Nat) × List Byte) := []
  /-- it has met a fault, and does nothing any more -/
  dead : Bool := false
  deriving DecidableEq, Repr

structure MatrixEngine where
  /-- accumulators: entry ((bank × 128) + row) × 64 + column (R111) -/
  acc : Tbl W32 := []
  /-- blocks that hold INT32: bank × 32 + (row / 16) × 4 + column / 16 (R111) -/
  intBlocks : List Nat := []
  /-- records in progress, oldest first -/
  run : List MatRun := []
  /-- what they have still to do, in the order of its cycles -/
  events : List MeEvent := []
  win : GangWin := {}
  /-- gang matrix instructions that wait for the array, in the order of their issue (R59) -/
  gangQueue : List GangMat := []
  flags : FFlags := {}
  bubbles : Nat := 0
  degraded : Bool := false
  badCol : Nat := 0
  /-- a column with a cell that no longer matches its parity bit, until the array uses it (R127; assumption 83) -/
  parity : Option Nat := none
  profiles : Tbl Profile := []
  staged : Tbl Profile := []
  /-- entries drained with each profile since its last commit (05_numbers R142) -/
  draws : Tbl Nat := []
  deriving DecidableEq, Repr

/-! ### The gang engine (02_gangs) -/

/-- A launch with gangs left to start or to finish (R28 to R32). -/
structure Launch where
  id : Nat
  entry : Addr
  args : List W64
  count : Nat
  started : Nat
  live : Nat
  start : Nat
  tmo : Nat
  /-- memory requests of gangs that have exited, not yet completed (R30) -/
  out : Nat := 0
  deriving DecidableEq, Repr

structure GangEngine where
  slots : Tbl Gang := []
  launches : List Launch := []
  /-- a gang of the core met a fault: no gang issues (R65) -/
  stopped : Bool := false
  /-- the host rejected a page of a gang's access: its PCI Express address (R56) -/
  rejected : Option Nat := none
  rrVector : Nat := 0
  rrScalar : Nat := 0
  flags : FFlags := {}
  /-- addresses whose native code is in the instruction buffer (R556) -/
  ibuf : List Nat := []
  /-- GE_SR_SEED as written, and as latched at the last LAUNCH (05_numbers R142) -/
  seed : Nat := 0
  seedNow : Nat := 0
  deriving DecidableEq, Repr

/-! ### The tally block and tokens (11_tallies) -/

/-- A routing entry of a token class (R313). -/
structure TokRoute where
  outCore : Nat := 0
  outValid : Bool := false
  inEng : Nat := 0
  inValid : Bool := false
  deriving DecidableEq, Repr

structure TallyBlock where
  slots : Tbl TallySlot := []
  watches : List Watch := []
  retry : Nat := 0
  tokens : Tbl Nat := []
  routes : Tbl TokRoute := []
  deriving DecidableEq, Repr

/-! ### Counters, counter records and trace (19_debug_test) -/

/-- A counter record's 64 bytes, as eight words (R515). -/
abbrev CRec := List W64

/-- A counter-record write that waits (R516): where, and the words. -/
structure CRecWrite where
  eng : Nat
  slot : Nat
  end_ : Bool
  ctx : Nat
  addr : Nat
  words : List W64
  deriving DecidableEq, Repr

/-- Trace settings (R522). -/
structure TraceCtl where
  base : Nat := 0
  log2 : Nat := 4
  en : Bool := false
  eng : Nat := 15
  lvl : Nat := 0
  deriving DecidableEq, Repr

structure CoreDebug where
  counters : Tbl Nat := []
  sel : Tbl Nat := []
  selNow : Tbl Nat := []
  /-- FREEZE and CLEAR as written, and FREEZE in effect (R514) -/
  freezeReg : Bool := false
  clearPend : Bool := false
  freeze : Bool := false
  selGen : Nat := 0
  /-- latched start and end counter records per engine: 2 × engine + (0 start, 1 end) -/
  last : Tbl CRec := []
  writes : List CRecWrite := []
  lost : Nat := 0
  /-- corrected, uncorrectable and far cache errors that the counters have seen -/
  seenCe : Nat := 0
  seenUe : Nat := 0
  seenFc : Nat := 0
  traceStaged : TraceCtl := {}
  trace : TraceCtl := {}
  /-- trace entries not yet drained, oldest first -/
  buf : List W64 := []
  /-- a drain in flight: the entries of the half being written -/
  drain : List W64 := []
  traceHead : Nat := 0
  traceTail : Nat := 0
  traceLost : Nat := 0
  badBase : Bool := false
  /-- a commit of the trace settings waits for a drain (R522) -/
  traceCommit : Bool := false
  deriving DecidableEq, Repr

/-! ### The core -/

structure Core where
  /-- the context that holds the core, and the last one whose records ran on it (06_slab R170) -/
  ctx : Option Nat := none
  lastCtx : Option Nat := none
  ge : GangEngine := {}
  me : MatrixEngine := {}
  mv0 : MoveEngine := {}
  mv1 : MoveEngine := {}
  slab : Slab := {}
  fc : FarCache := {}
  queues : Tbl Queue := []
  tally : TallyBlock := {}
  dbg : CoreDebug := {}
  /-- port reservation table and outgoing flows as loaded from the plan (10_cutplan R292, R293) -/
  portTable : Tbl Nat := []
  flows : Tbl Nat := []
  /-- self-test result: failed, unit, where (19_debug_test R535) -/
  stFail : Bool := false
  stUnit : Nat := 0
  stWhere : Nat := 0
  deriving DecidableEq, Repr

end Sys2Proof.Machine
end

