-- ==== Sys2Proof/Machine/HubState.lean ====
section
/-!
DEFINITION. The state outside the cores: far memory and its controllers, messages in flight, hub tallies and barrier
units, contexts, objects and the Foreman (08_far, 11_tallies, 13_contexts).
-/

namespace Sys2Proof.Machine

/-! ### Far memory (08_far R215 to R229, R245, R246) -/

/-- One channel's controller registers. -/
structure Channel where
  trained : Bool := false
  refreshX2 : Bool := false
  retune : Bool := false
  ceCount : Nat := 0
  ueCount : Nat := 0
  block : Nat := 0
  ue : Bool := false
  scrub : Bool := false
  valid : Bool := false
  /-- the check cache (R222): check blocks by channel offset / 64, most recently used first, and whether dirty; kept up only while
  some block is in error, since nothing else shows it -/
  cache : List (Nat × Bool) := []
  deriving DecidableEq, Repr

structure FarMem where
  mem : Mem := []
  /-- blocks in error: channel × 2^27 + channel offset / 64, and whether the error is uncorrectable (R223, R224) -/
  bad : Tbl Bool := []
  chans : Tbl Channel := []
  /-- LOCAL_UNITS of the site image, fixed until the next power-up (R218, R244) -/
  localUnits : Nat := 4
  defaultLocal : Bool := false
  deriving DecidableEq, Repr

/-! ### Faults of contexts (00_scope R9, 02_gangs R65, 13_contexts R369, R370) -/

inductive Cause where
  | windowFault
  | illegalInsn
  | uncorrEcc
  | tallySat
  | syncTimeout
  | slabBankOff
  | malformedCmd
  | killRequest
  deriving DecidableEq, Repr

/-- The cause codes of R370. -/
def Cause.code : Cause → Nat
  | .windowFault => 1
  | .illegalInsn => 2
  | .uncorrEcc => 3
  | .tallySat => 4
  | .syncTimeout => 5
  | .slabBankOff => 6
  | .malformedCmd => 7
  | .killRequest => 8

/-- What the post-mortem record of a fault holds (R369). -/
structure FaultRec where
  cause : Cause
  core : Nat := 0xFFFF
  engine : Nat := 5
  gang : Nat := 0xFF
  npc : Nat := 0
  addr : Nat := 0
  mask : Nat := 0
  qid : Nat := 0xFFFF
  slot : Nat := 0xFFFF
  tally : Nat := 0
  home : Nat := 0
  time : Nat := 0
  value : Nat := 0
  record : List W64 := []
  deriving DecidableEq, Repr

/-! ### Messages in flight (07_moves R200, 11_tallies R306 to R318) -/

/-- What a tally operation does (R264, R267, R87). -/
inductive TallyAct where
  | add (n : Nat)
  /-- the second tally's id and home, DELTA, and the record of the queue (R267, R311) -/
  | rebase (vid2 : Nat) (home2 : Home) (delta rec_ : Nat)
  deriving DecidableEq, Repr

/-- A tally operation on its way to its home (R306): its source, the record or gang it comes from, and the record of a
queue that retires when it is applied (R262). -/
structure TallyMsg where
  ctx : Nat
  vid : Nat
  home : Home
  src : Waiter
  act : TallyAct
  qid : Nat := 0xFFFF
  slot : Nat := 0xFFFF
  gang : Nat := 0xFF
  npc : Nat := 0
  retires : Option Nat := none
  deriving DecidableEq, Repr

structure Wake where
  who : Waiter
  idx : Nat
  serial : Nat
  ctx : Nat
  deriving DecidableEq, Repr

/-- A read of a tally by tread or by a LOOP (R309, R268): the waiter and, for a gang, the destination. -/
structure ReadMsg where
  who : Waiter
  ctx : Nat
  home : Home
  vid : Nat
  uid : Nat
  dreg : Nat
  deriving DecidableEq, Repr

/-- A token on its way to another core (R315). -/
structure TokMsg where
  ctx : Nat
  core : Nat
  cls : Nat
  qid : Nat
  slot : Nat
  deriving DecidableEq, Repr

/-- A barrier arrival, or a release of generation `gen`, by physical unit and QID (R317, R318). -/
structure BarMsg where
  ctx : Nat
  unit : Nat
  qid : Nat
  gen : Nat
  deriving DecidableEq, Repr

/-- One location's operations of an ATOM: lanes with their operands, ascending (02_gangs R54, R55). -/
structure AtomMsg where
  ctx : Nat
  core : Nat
  slot : Nat
  uid : Nat
  insn : InsnAt
  load : Nat
  form : VForm
  addr : Nat
  lanes : List (Nat × Nat × Nat)
  /-- its number among the requests of its core (12_model R330) -/
  seq : Nat := 0
  deriving DecidableEq, Repr

/-- A fence-object operation at the controller (03_sett R90, 09_queues R272): the maximum of a value, or a read. -/
structure FobjMsg where
  ctx : Nat
  who : Waiter
  addr : Nat
  max : Option Nat
  deriving DecidableEq, Repr

/-- A service call to the allocator (R91, R363). -/
structure AllocMsg where
  ctx : Nat
  core : Nat
  slot : Nat
  uid : Nat
  dreg : Nat
  size : Nat
  aln : Nat
  pool : Nat
  deriving DecidableEq, Repr

/-- A remote SLD or SST on its way to the owning core (06_slab R169), or an SLD's data on its way back. -/
structure RemoteSlab where
  home : Nat
  req : Unpl
  deriving DecidableEq, Repr

/-- The data of a remote SLD coming back. -/
structure SlabReply where
  who : Waiter
  ctx : Nat
  uid : Nat
  load : Nat
  dreg : Nat
  data : List Byte
  deriving DecidableEq, Repr

/-- Everything in flight between cores, hub and controllers. -/
structure Net where
  tally : List TallyMsg := []
  watches : List Watch := []
  refused : List Watch := []
  wakes : List Wake := []
  reads : List ReadMsg := []
  tokens : List TokMsg := []
  arrivals : List BarMsg := []
  releases : List BarMsg := []
  atoms : List AtomMsg := []
  fobj : List FobjMsg := []
  services : List AllocMsg := []
  slabs : List RemoteSlab := []
  slabReplies : List SlabReply := []
  deriving DecidableEq, Repr

/-! ### Hub tallies and barrier units (11_tallies R304, R316, R324, R325) -/

structure HubSlot where
  value : Nat := 0
  sat : Bool := false
  vid : Nat := 0
  ctx : Nat := 0
  valid : Bool := false
  deriving DecidableEq, Repr

/-- A barrier unit: its participants (QIDs), the two oldest open generations' bitmaps as lists of participants, the
arrivals held, and the releases of g not delivered yet (R316, R317). -/
structure BarUnit where
  ctx : Nat := 0
  vunit : Nat := 0
  valid : Bool := false
  parts : List Nat := []
  gen : Nat := 0
  arr0 : List Nat := []
  arr1 : List Nat := []
  held : List Nat := []
  /-- generation g has filled: participants whose release is still on its way -/
  owed : List Nat := []
  filled : Bool := false
  deriving DecidableEq, Repr

structure Hub where
  tallies : Tbl HubSlot := []
  watches : List Watch := []
  full : Nat := 0
  tdrop : Tbl Nat := []
  units : Tbl BarUnit := []
  deriving DecidableEq, Repr

/-! ### Contexts (13_contexts) -/

inductive CtxState where
  | free
  | ready
  | placed
  | suspended
  | killing
  | dead
  deriving DecidableEq, Repr

/-- The STATE codes of R374. -/
def CtxState.code : CtxState → Nat
  | .free => 0
  | .ready => 1
  | .placed => 2
  | .suspended => 3
  | .killing => 4
  | .dead => 5

/-- A window entry in force (R348): unit numbers of 64 KiB, object, rights. -/
structure Window where
  base : Nat := 0
  bound : Nat := 0
  obj : Nat := 0
  r : Bool := false
  w : Bool := false
  x : Bool := false
  valid : Bool := false
  deriving DecidableEq, Repr

/-- A mailbox request still to be answered: channel, sending port, header (14_host R390). -/
structure ReqRef where
  channel : Nat
  sender : Nat
  header : Nat
  deriving DecidableEq, Repr

/-- A window change that waits for quiescence (R350), and the request to answer. -/
structure PendWin where
  idx : Nat
  win : Window
  req : ReqRef
  deriving DecidableEq, Repr

/-- An outstanding reference batch (R361): queue, slots that HEAD must still pass, object ids. -/
structure Batch where
  qid : Nat
  until_ : Nat
  ids : List Nat
  deriving DecidableEq, Repr

/-- A live block of the allocator (R363). -/
structure Block where
  heap : Nat
  addr : Nat
  size : Nat
  deriving DecidableEq, Repr

/-- A phase of a power plan (10_cutplan R300): the draw of each die above BASE_W in 0.25 W, times in µs, energy in mJ. -/
structure PhaseRow where
  dieW : List Nat
  durUs : Nat
  leadUs : Nat
  excMj : Nat
  recoverUs : Nat
  deriving DecidableEq, Repr

/-- A barrier unit of a plan: its name and the QIDs of its participants in order (11_tallies R316). -/
structure PlanUnit where
  unit : Nat
  parts : List Nat
  deriving DecidableEq, Repr

/-- A plan image as the Foreman reads it (10_cutplan R288, R289). -/
structure Plan where
  id : Nat := 0
  /-- logical cores of the bench, ascending, and the dies it lies on -/
  bench : List Nat := []
  dieMask : Nat := 0
  cls : Nat := 0
  ceilW : Nat := 0
  excW : Nat := 0
  /-- the lead engine of each die of the bench, as a QID -/
  lead : Tbl Nat := []
  qdt : Nat := 0
  /-- router fields that are not 0: key ((die × 16 + column) × 21 + row) × 4,096 + index, with the entry (R290, R291) -/
  routers : Tbl Nat := []
  /-- port tables: 4,096 entries per bench core, in order (R292) -/
  ports : List (List Nat) := []
  /-- flow tables: 32 entries per bench core (R293) -/
  flows : List (List Nat) := []
  /-- converter profiles: 16 of 8 words per bench core (R289) -/
  converters : List (List Nat) := []
  /-- presets: GE_SR_SEED and FC_CTRL per bench core -/
  presets : List (Nat × Nat) := []
  /-- the tally map's entries (11_tallies R305) -/
  tallies : List Nat := []
  /-- token entries: 64 per bench core (11_tallies R313) -/
  tokens : List (List Nat) := []
  barriers : List PlanUnit := []
  phases : List PhaseRow := []
  /-- 16 bridge and 96 channel peaks (R296) -/
  budget : List Nat := []
  deriving DecidableEq, Repr

/-- A phase mark as the Governor holds it (10_cutplan R299; 16_governor R458): when its phase begins, in half
nanoseconds, and the phase. -/
structure PMark where
  start : Nat
  phase : Nat
  deriving DecidableEq, Repr

structure Ctx where
  state : CtxState := .free
  preserve : Bool := false
  localSet : Bool := false
  local_ : Bool := false
  hold : Bool := false
  yielding : Bool := false
  placeCode : Nat := 0
  events : Nat := 0
  cause : Nat := 0
  suspendAddr : Nat := 0
  seq : Nat := 0
  switches : Nat := 0
  placedNs : Nat := 0
  placedAt : Nat := 0
  /-- when the context was placed, from which TIMESLICE_US counts (R354) -/
  sliceAt : Nat := 0
  badFree : Nat := 0
  hostHi : Nat := 0
  priority : Nat := 0
  heapI : Option Nat := none
  heapL : Option Nat := none
  timeslice : Nat := 0
  plan : Nat := 0
  save : Nat := 0
  gsave : Nat := 0
  pm : Nat := 0
  windows : Tbl Window := []
  pendWins : List PendWin := []
  /-- the plan image in force: tally map, barrier units, bench, dies, queue descriptor table (10_cutplan R288, R289) -/
  tmap : Tbl Home := []
  units : Tbl Nat := []
  bench : List Nat := []
  dieMask : Nat := 0
  qdt : Nat := 0
  /-- the plan image last loaded, and whether no other plan has used its routers since (10_cutplan R302) -/
  loaded : Option Plan := none
  routersKept : Bool := false
  /-- lead marks of each die, in order of their starts (16_governor R458) -/
  marks : Tbl (List PMark) := []
  /-- the lead engine of each die, as a QID (10_cutplan R288, R299) -/
  lead : Tbl Nat := []
  /-- the host rejected a page: its PCI Express address; the Foreman is to suspend the context (R365) -/
  suspendReq : Option Nat := none
  fault : Option FaultRec := none
  later : Nat := 0
  /-- step 1 of the kill is done -/
  killing : Bool := false
  batches : List Batch := []
  blocks : List Block := []
  bells : Tbl Nat := []
  /-- slots that each queue's HEAD has passed since CTX_START (R361) -/
  passed : Tbl Nat := []
  dbDrop : Nat := 0
  order : Nat := 0
  /-- time for which a queue of the context was halted, and since when one is (09_queues R281) -/
  haltNs : Nat := 0
  haltSince : Option Nat := none
  /-- the kill belongs to a function reset: it ends in FREE (14_host R397) -/
  toFree : Bool := false
  deriving DecidableEq, Repr

/-- An object that the Foreman has placed (R357, R358). -/
structure ObjRange where
  id : Nat
  base : Nat
  size : Nat
  deriving DecidableEq, Repr

structure Foreman where
  tables : Bool := false
  ctxTable : Nat := 0
  objTable : Nat := 0
  entries : Nat := 0
  nextOrder : Nat := 0
  objects : List ObjRange := []
  /-- a function reset makes the Foreman forget its tables once its kills have ended (14_host R397) -/
  forget : Bool := false
  deriving DecidableEq, Repr

end Sys2Proof.Machine
end

