-- ==== Sys2Proof/Machine/HostState.lean ====
section
/-!
DEFINITION. The state of the host attachment: link, errors, interrupt vectors, event queue, mailboxes and doorbells
(14_host).
-/

namespace Sys2Proof.Machine

/-- A message, request or reply (R389, R390): its 16 words and the sender and count of its stamp. -/
structure MailMsg where
  words : List W32
  sender : Nat
  seq : Nat
  deriving DecidableEq, Repr

/-- A mailbox channel (R392, R393). Sending ports are numbered as the stamps: 0 HOST, 1 SMBUS, 2 to 5 control cores. -/
structure MailChan where
  /-- ARG words 1 to 15 -/
  args : Tbl W32 := []
  inbound : List MailMsg := []
  /-- the reply queue of each sending port -/
  replies : Tbl (List MailMsg) := []
  /-- messages so far by sender (R389) -/
  seqs : Tbl Nat := []
  fullDrop : Nat := 0
  refused : Nat := 0
  deriving DecidableEq, Repr

/-- HOST_ERR (R384). -/
structure HostErr where
  bar0Size : Bool := false
  bar2Range : Bool := false
  bar2Early : Bool := false
  bar2Ue : Bool := false
  deriving DecidableEq, Repr

/-- The fields of the event queue that are staged (R387). -/
structure EvqCtl where
  base : Nat := 0
  log2 : Nat := 4
  enable : Bool := false
  deriving DecidableEq, Repr

structure EventQueue where
  staged : EvqCtl := {}
  inForce : EvqCtl := {}
  head : Nat := 0
  tail : Nat := 0
  drop : Nat := 0
  /-- records written since the last commit; the PHASE bit follows from it (R386) -/
  written : Nat := 0
  deriving DecidableEq, Repr

/-- FW_STATE (R384). -/
inductive FwState where
  | starting
  | ready
  | gatekeeperOnly
  deriving DecidableEq, Repr

def FwState.code : FwState → Nat
  | .starting => 0
  | .ready => 1
  | .gatekeeperOnly => 2

/-- How a host read completes (R380, R383). -/
inductive Completion where
  | data (bytes : List Byte)
  | unsupported
  | aborter
  deriving DecidableEq, Repr

structure HostPort where
  /-- PERST# asserted (18_clocks_reset R505) -/
  perst : Bool := true
  /-- when PERST# was deasserted, in ns -/
  perstSince : Nat := 0
  speed : Nat := 0
  width : Nat := 0
  flit : Bool := false
  fw : FwState := .starting
  err : HostErr := {}
  origin : Nat := 0
  /-- MSI-X table: 4 words a vector; a vector is masked until its control word clears bit 0 (R385; assumption 31) -/
  msix : Tbl W32 := []
  pba : List Nat := []
  evq : EventQueue := {}
  dbPend : W32 := 0
  dbMask : Tbl W32 := [(1, 3), (2, 8), (3, 4)]
  dbStray : Nat := 0
  chans : Tbl MailChan := []
  /-- control cores whose firmware runs: 0 Gatekeeper, 1 Foreman, 2 Banksman, 3 Governor -/
  running : List Nat := []
  /-- READY of the query table: far memory is in service (R383, R388) -/
  ready : Bool := false
  /-- the completion of the last read through a BAR -/
  completion : Option Completion := none
  deriving DecidableEq, Repr

end Sys2Proof.Machine
end

