-- ==== Sys2Proof/Machine/LinkState.lean ====
section
/-!
DEFINITION. The state of the haul and twin ports, of remote moves and signals, and of the twin protocol
(15_haul_twin).
-/

namespace Sys2Proof.Machine

/-! ### Ports (R399 to R407, R435; sounding 19_debug_test R528 to R530) -/

inductive PortState where
  | disabled
  | training
  | up
  | down
  | sounding
  deriving DecidableEq, Repr

/-- The STATE codes of R435. -/
def PortState.code : PortState → Nat
  | .disabled => 0
  | .training => 1
  | .up => 2
  | .down => 3
  | .sounding => 4

/-- A lane of a sounding (19_debug_test R529, R530): when its checker locked, and for how long it was locked before, in ns. -/
structure SoundLane where
  since : Option Nat := none
  hasLost : Bool := false
  errors : Nat := 0
  lockedNs : Nat := 0
  deriving DecidableEq, Repr

/-- The staged set of a port's sounding (R530). -/
structure SoundCtl where
  pattern : Nat := 5
  loop : Nat := 0
  lanes : Nat := 0xFF
  en : Bool := false
  deriving DecidableEq, Repr

structure Sounding where
  staged : SoundCtl := {}
  inForce : SoundCtl := {}
  lanes : Tbl SoundLane := []
  deriving DecidableEq, Repr

structure Port where
  /-- the site image enables the port (R402) -/
  enable : Bool := false
  /-- RATE as written, and of the last training -/
  rate : Bool := false
  rateActive : Bool := false
  state : PortState := .disabled
  peerNode : Nat := 0
  peerPort : Nat := 0
  peerSerial : List Byte := []
  fecCorr : Nat := 0
  fecUncorr : Nat := 0
  retry : Nat := 0
  crcErr : Nat := 0
  fwdDrop : Nat := 0
  /-- failed training attempts in a row (R402) -/
  fails : Nat := 0
  /-- the next SEQ to send, and the last one accepted (R407) -/
  txNext : Nat := 0
  rxLast : Nat := 4095
  /-- the retry buffer: frames sent and not acknowledged, oldest first (R407) -/
  unacked : List Frame := []
  /-- frames that wait for credits or for room in the retry buffer -/
  waiting : List Frame := []
  /-- credits in use per lane, in 16-byte units (R405) -/
  spent : Tbl Nat := []
  /-- frames held in the receive buffer with their time of arrival in ns: writes without a landing credit, frames to be
  forwarded (R406, R411) -/
  rx : List (Nat × Frame) := []
  /-- retry rounds since the last progress (R402, R407) -/
  rounds : Nat := 0
  /-- the last LINK frame or trailer sent -/
  lastLink : LinkFrame := { ackValid := false, ackSeq := 0, nack := false, nackSeq := 0, creditVl := 0, creditCount := 0 }
  sounding : Sounding := {}
  deriving DecidableEq, Repr

/-! ### Jobs, claims and signals (R408 to R414) -/

structure Job where
  job : Nat := 0
  ctx : Nat := 0
  valid : Bool := false
  /-- permitted nodes, by byte of the bitmap -/
  permit : Mem := []
  deriving DecidableEq, Repr

/-- A WRITE of a claim at its source: index, offset, bytes (R411). -/
structure SrcWrite where
  idx : Nat
  offset : Nat
  data : List Byte
  deriving DecidableEq, Repr

/-- A claim at its source (R410, R414): the record it belongs to and what has not been acknowledged. -/
structure SrcClaim where
  id : Nat
  core : Nat
  eng : Nat
  rec_ : Nat
  ctx : Nat
  node : Nat
  job : Nat
  gen : Nat := 0
  base : Nat
  len : Nat
  sigEn : Bool
  sigTid : Nat
  sigInc : Nat
  /-- CLAIM answered OK -/
  answered : Bool := false
  /-- answered WAIT: the time of the answer, in ns -/
  waitSince : Option Nat := none
  writes : List SrcWrite := []
  /-- the time of the last progress, in ns (R414) -/
  progress : Nat
  deriving DecidableEq, Repr

/-- A claim at its destination (R410 to R412). -/
structure DstClaim where
  src : Nat
  id : Nat
  gen : Nat
  ctx : Nat
  base : Nat
  len : Nat
  sigEn : Bool
  sigTid : Nat
  sigInc : Nat
  next : Nat := 0
  committed : Nat := 0
  /-- indices accepted and not yet committed -/
  open_ : List Nat := []
  final : Bool := false
  /-- the context was killed (R412) -/
  dead : Bool := false
  deriving DecidableEq, Repr

/-- An increment on its way to another module (R413). -/
structure SrcSignal where
  sigId : Nat
  core : Nat
  eng : Nat
  rec_ : Nat
  ctx : Nat
  job : Nat
  tid : Nat
  count : Nat
  deriving DecidableEq, Repr

/-- The signal stream to one node (R413, R414). -/
structure SigStream where
  next : Nat := 1
  gen : Nat := 0
  waiting : List SrcSignal := []
  progress : Nat := 0
  deriving DecidableEq, Repr

/-- The signal stream from one node. -/
structure SigIn where
  last : Nat := 0
  gen : Nat := 0
  deriving DecidableEq, Repr

/-! ### The twin (R415 to R431) -/

inductive Pair where
  | disabled
  | searching
  | mismatch
  | paired
  | linkLost
  | partnerLost
  | departed
  deriving DecidableEq, Repr

/-- The PAIR codes of R415. -/
def Pair.code : Pair → Nat
  | .disabled => 0
  | .searching => 1
  | .mismatch => 2
  | .paired => 3
  | .linkLost => 4
  | .partnerLost => 5
  | .departed => 6

/-- The mirror set (R417, R420). -/
structure MirrorSet where
  ctx : Nat
  tid : Nat
  fence : Nat
  mark : Nat
  ranges : List (Nat × Nat)
  deriving DecidableEq, Repr

/-- A running copy of the own mirror set into the twin (R421 to R424): units still to send, chunk offsets sent and not
acknowledged. -/
structure MirrorCopy where
  epoch : Nat
  buf : Bool
  units : Nat
  todo : List Nat
  sent : List Nat := []
  raced : Bool := false
  settleSent : Bool := false
  /-- every unit of the mirror space (R421) -/
  whole : Bool
  /-- closes that the settle covers (R423, R425) -/
  covers : Nat
  deriving DecidableEq, Repr

/-- A shadow buffer (R418): where it lies, and its header's EPOCH and STATE; the offsets accepted since COPYING. -/
structure ShadowBuf where
  addr : Nat := 0
  epoch : Nat := 0
  /-- 0 EMPTY, 1 COPYING, 2 SETTLED, 3 RACED -/
  state : Nat := 0
  /-- units of the partner's mirror space, as far as its copies have shown -/
  units : Nat := 0
  got : List Nat := []
  deriving DecidableEq, Repr

structure ShadowSet where
  size : Nat := 0
  a : ShadowBuf := {}
  b : ShadowBuf := {}
  /-- the active buffer is B -/
  active : Bool := false
  deriving DecidableEq, Repr

/-- A push of a held buffer back into the partner (R430): epoch, units left, offsets sent and not acknowledged. -/
structure MirrorPush where
  epoch : Nat
  buf : Bool
  units : Nat
  todo : List Nat
  sent : List Nat := []
  settleSent : Bool := false
  deriving DecidableEq, Repr

/-- What the last HELLO said of the partner (R404). -/
structure Partner where
  heard : Bool := false
  serial : List Byte := []
  mset : Bool := false
  sset : Bool := false
  settled : Nat := 0
  heldA : Nat := 0
  heldB : Nat := 0
  deriving DecidableEq, Repr

/-- A RESTORE under way (R430): epoch, NEXT_MARK, the request to answer, and the offsets accepted. -/
structure Restore where
  epoch : Nat
  mark : Nat
  req : ReqRef
  got : List Nat := []
  deriving DecidableEq, Repr

structure Twin where
  enable : Bool := false
  slot : Nat := 0
  pair : Pair := .disabled
  mset : Option MirrorSet := none
  sset : Option ShadowSet := none
  frozen : Bool := false
  closed : Nat := 0
  settled : Nat := 0
  /-- units written in the open epoch, in the epoch that closed last, and in the one before it (R419, R421) -/
  dirty : List Nat := []
  prev : List Nat := []
  prev2 : List Nat := []
  copy : Option MirrorCopy := none
  /-- a close that waits for the running copy, or for a partner (R425) -/
  owed : Bool := false
  /-- closes not yet counted in the settle tally -/
  uncounted : Nat := 0
  /-- what this module knows of the partner's buffers: the epochs it settled into A and B as SETTLED -/
  heldA : Option Nat := none
  heldB : Option Nat := none
  lastBuf : Bool := true
  /-- the next copy is full: after a restore, a race or a refused settle -/
  full : Bool := false
  races : Nat := 0
  rebuild : Bool := false
  /-- time of the last HEARTBEAT heard, and of the last ones sent on the twin port and over haul, in ns -/
  heard : Nat := 0
  beat : Nat := 0
  haulBeat : Nat := 0
  partner : Partner := {}
  push : Option MirrorPush := none
  restore : Option Restore := none
  /-- removal under way: no new copy starts (R428); HELLO with the departing flag has been sent -/
  departing : Bool := false
  departSent : Bool := false
  deriving DecidableEq, Repr

/-- All links of the module. -/
structure Links where
  ports : Tbl Port := []
  node : Nat := 0
  routes : Tbl Nat := []
  jobs : Tbl Job := []
  src : List SrcClaim := []
  dst : List DstClaim := []
  sigOut : Tbl SigStream := []
  sigIn : Tbl SigIn := []
  resends : Nat := 0
  twin : Twin := {}
  deriving DecidableEq, Repr

end Sys2Proof.Machine
end

