-- ==== Sys2Proof/Machine/ModuleState.lean ====
section
/-!
DEFINITION. The state of the module around its engines: site values, firmware trust, the Governor, power, resets and
removal, self-test and the hub's debug units (16_governor, 17_site_trust, 18_clocks_reset, 19_debug_test).
-/

namespace Sys2Proof.Machine

/-! ### Site values (16_governor R439, R454 to R456; 17_site_trust R474 to R479) -/

/-- Lane settings of a port (R479). -/
structure LaneCfg where
  txPol : Nat := 0
  rxPol : Nat := 0
  txOrder : Nat := 0xFAC688
  rxOrder : Nat := 0xFAC688
  deriving DecidableEq, Repr

/-- The actuator map (R454). -/
structure Actuators where
  fanMask : Nat := 0x3F
  tachPpr : Nat := 1
  fanMin : Nat := 20
  demandMin : Nat := 20
  pumpEn : Bool := true
  valveEn : Bool := true
  fanFaultRpm : Nat := 10
  flowPpl : Nat := 1000
  flowMin : Nat := 500
  deriving DecidableEq, Repr

/-- The plant model of a die (R455). -/
structure DiePlant where
  rmin : Nat
  rmax : Nat
  tau : Nat
  deriving DecidableEq, Repr

/-- The plant model (R455). -/
structure Plant where
  dies : List DiePlant
  kcmin : Nat
  kcmax : Nat
  tauC : Nat
  tauA : Nat
  deriving DecidableEq, Repr

/-- The plant defaults of a class (R455): 0 AIR, 1 COLDPLATE, 2 IMMERSION. -/
def Plant.default (cls : Nat) : Plant :=
  if cls = 1 then { dies := List.replicate 4 ⟨80, 250, 150⟩, kcmin := 8, kcmax := 30, tauC := 8000, tauA := 1000 }
  else if cls = 2 then { dies := List.replicate 4 ⟨100, 100, 250⟩, kcmin := 0, kcmax := 0, tauC := 60000, tauA := 1000 }
  else { dies := List.replicate 4 ⟨110, 400, 400⟩, kcmin := 15, kcmax := 40, tauC := 5000, tauA := 2000 }

/-- SITE_STATUS and the effective values that no other part of the state holds (R477, R478): the node id, the twin and
the port enables are in `Links`, LOCAL_UNITS and DEFAULT_LOCAL in `FarMem`, WAIT_US in `State`. -/
structure Site where
  source : Nat := 2
  locked : Bool := false
  copy0 : Bool := false
  copy1 : Bool := false
  fail0 : Nat := 0
  fail1 : Nat := 0
  keySlot : Nat := 0
  unknown : Nat := 0
  clamped : Nat := 0
  seq : Nat := 0
  cls : Nat := 0
  sustW : Nat := 1100
  excW : Nat := 0
  excMs : Nat := 0
  ramp : Nat := 20
  tjTarget : Nat := 85
  acts : Actuators := {}
  plant : Plant := Plant.default 0
  lanes : Tbl LaneCfg := []
  pcieWidth : Nat := 16
  pcieGen : Nat := 6
  smbusAddr : Nat := 0x5A
  /-- the SLOT_ID pins as sampled at the cold reset (20_electrical R547) -/
  slotPins : Nat := 0
  /-- the applied image (R488) -/
  image : List Byte := []
  deriving DecidableEq, Repr

/-! ### Owner keys and firmware (17_site_trust R480 to R495) -/

inductive OwnerState where
  | empty
  | active
  | revoked
  deriving DecidableEq, Repr

structure OwnerSlot where
  state : OwnerState := .empty
  hash : List Byte := []
  deriving DecidableEq, Repr

/-- A firmware flash slot: the bytes written over what the factory left there, and what the boot ROM or FW_END found
(R482, R495). -/
structure FwSlot where
  bytes : Tbl Byte := []
  valid : Bool := false
  version : Nat := 0
  rollback : Nat := 0
  length : Nat := 0
  deriving DecidableEq, Repr

structure Trust where
  owners : Tbl OwnerSlot := []
  rollback : Nat := 0
  a : FwSlot := {}
  b : FwSlot := {}
  /-- running: 0 A, 1 B, 3 the ROM (R495) -/
  running : Nat := 3
  fallback : Bool := false
  version : Nat := 0
  /-- the one restart of R484 has been made at this boot -/
  restarted : Bool := false
  /-- the slot of an open update (R485) -/
  update : Option Nat := none
  /-- trust buffers (R490) -/
  hostBuf : Mem := []
  smbusBuf : Mem := []
  seek : Nat := 0
  /-- the bytes of the last SMBus read (R491) -/
  smbusOut : List Byte := []
  deriving DecidableEq, Repr

/-! ### The Governor (16_governor R438 to R466) -/

/-- The Governor's registers and model of a die (R463, R455, R458). -/
structure GovDie where
  pMeas : Nat := 0
  pPlan : Nat := 0
  tjMeas : Nat := 0
  tjPred : Rat := 0
  govLevel : Nat := 0
  stretchMin : Nat := 0
  /-- STRETCH_MIN in force since the last control period -/
  minNow : Nat := 0
  scale : Rat := 1
  /-- measured and planned draw above 90 W in the last 100 periods, newest first, in 0.25 W -/
  window : List (Nat × Nat) := []
  trip : Bool := false
  deriving DecidableEq, Repr

structure GovFan where
  rpm : Nat := 0
  duty : Nat := 0
  fault : Bool := false
  /-- since when the fan has read below its threshold at a duty of at least 30 %, in ns (R453) -/
  low : Option Nat := none
  /-- since when a faulty fan's reading has recovered, in ns (R453) -/
  good : Option Nat := none
  deriving DecidableEq, Repr

structure Forecast where
  seq : Nat := 0
  t0 : Nat := 0
  pNow : Nat := 0
  entries : List Nat := []
  deriving DecidableEq, Repr

/-- GOV_TRIP (R464). -/
structure GovTrip where
  t105 : Bool := false
  bus42 : Bool := false
  shutdown : Bool := false
  shutBus : Bool := false
  shutDie : Nat := 0
  t105Count : Nat := 0
  deriving DecidableEq, Repr

structure Governor where
  running : Bool := false
  excursion : Bool := false
  inputLimit : Bool := false
  mismatch : Bool := false
  tripHub : Bool := false
  tripBus : Bool := false
  /-- GOV_CEIL as staged, as committed for the next period, and in force (R440, R462) -/
  stagedSust : Nat := 1100
  stagedExc : Nat := 0
  commit : Option (Nat × Nat) := none
  sustW : Nat := 1100
  excW : Nat := 0
  pIn : Nat := 0
  vBus : Nat := 0
  vIn : Nat := 0
  iIn : Nat := 0
  eBuf : Nat := 0
  excLeft : Nat := 0
  /-- an excursion was cut, and the bus has not been back at 50.0 V since (R443) -/
  cut : Bool := false
  breach : Nat := 0
  dies : Tbl GovDie := []
  hubTj : Nat := 0
  effort : Rat := 1
  uff : Rat := 1
  /-- the integral term and its limits (R459, R460) -/
  trim : Rat := 0
  wide : Bool := false
  uLag : Rat := 1
  pInF : Rat := 0
  /-- the model has taken its first measured values (R455) -/
  started : Bool := false
  /-- consecutive periods with an error above 8 K, and with every error below 4 K (R460) -/
  badRun : Nat := 0
  goodRun : Nat := 0
  pump : Nat := 0
  valve : Nat := 0
  tIn : Int := 0
  tOut : Int := 0
  flow : Nat := 0
  flowFault : Bool := false
  /-- since when the flow has been below FLOW_MIN at a demand of at least 30 %, in ns (R453) -/
  flowLow : Option Nat := none
  thermFault : Bool := false
  fans : Tbl GovFan := []
  forecast : Forecast := {}
  /-- doorbell SENSE: the period after it samples everything and publishes (R451, R461) -/
  sense : Bool := false
  trips : GovTrip := {}
  /-- when the last control period, the last reading of the slow sensors and the last periodic forecast were, in ns
  (R451, R457, R461) -/
  periodAt : Option Nat := none
  slowAt : Option Nat := none
  pubAt : Option Nat := none
  /-- per reason of R466 the time of its last record, in ns -/
  said : Tbl Nat := []
  deriving DecidableEq, Repr

/-! ### Power (16_governor R441, R450; 18_clocks_reset R505; 20_electrical R538 to R540) -/

structure Power where
  /-- standby power is good -/
  standby : Bool := false
  /-- the 54 V input, in 10 mV, as last reported -/
  inputCv : Nat := 0
  /-- the input stage is on -/
  stage : Bool := false
  /-- the bus has reached 50.0 V and the main rails are up -/
  rails : Bool := false
  /-- a shutdown is latched (R450) -/
  latched : Bool := false
  deriving DecidableEq, Repr

/-! ### Resets and removal (18_clocks_reset R501 to R510) -/

inductive ResetKind where
  | cold
  | warm
  | perst
  | function
  deriving DecidableEq, Repr

/-- The LAST codes of R504. -/
def ResetKind.code : ResetKind → Nat
  | .cold => 0
  | .warm => 1
  | .perst => 2
  | .function => 3

inductive RemoveState where
  | none
  | settling
  | draining
  | safe
  deriving DecidableEq, Repr

/-- The REMOVE_STATE codes of R504. -/
def RemoveState.code : RemoveState → Nat
  | .none => 0
  | .settling => 1
  | .draining => 2
  | .safe => 3

structure Resets where
  last : ResetKind := .cold
  warmCount : Nat := 0
  priorShutdown : Bool := false
  remove : RemoveState := .none
  removeReq : Bool := false
  cancelled : Bool := false
  /-- when DRAINING began, in ns -/
  drainSince : Nat := 0
  deriving DecidableEq, Repr

/-! ### Debug units of the hub (19_debug_test R518, R523, R526, R530 to R535) -/

/-- A die bridge's sounding (R531). -/
structure BridgeSound where
  pattern : Nat := 2
  loop : Bool := false
  durMs : Nat := 10
  patternNow : Nat := 2
  loopNow : Bool := false
  durNow : Nat := 10
  busy : Bool := false
  refused : Bool := false
  lock : Bool := false
  err : Nat := 0
  firstWire : Nat := 0
  valid : Bool := false
  bits : Nat := 0
  deriving DecidableEq, Repr

/-- TL_SEL (R526). -/
structure TlSel where
  core : Nat := 0
  unit : Nat := 0
  hub : Bool := false
  hubUnit : Nat := 0
  deriving DecidableEq, Repr

/-- A control core's instruction trace pointer (R523); its entries are free values. -/
structure CtlTrace where
  next : Nat := 0
  frozen : Bool := false
  wrapped : Bool := false
  deriving DecidableEq, Repr

structure HubDebug where
  /-- selections and counters of the hub units: 4 × unit + i (R518) -/
  sel : Tbl Nat := []
  counters : Tbl Nat := []
  tl : TlSel := {}
  traces : Tbl CtlTrace := []
  bridges : Tbl BridgeSound := []
  /-- the start-up self-test (R535) -/
  stDone : Bool := false
  stPass : Bool := false
  stFailed : Nat := 0
  bridgeFail : Nat := 0
  /-- cores marked degraded (04_matrix R127, R533) -/
  degraded : List Nat := []
  /-- event records held until the event queue is first enabled: kind and DATA (R534; 17_site_trust R492) -/
  held : List (Nat × Nat) := []
  deriving DecidableEq, Repr

end Sys2Proof.Machine
end

