-- ==== Sys2Proof/Machine/State.lean ====
section
/-!
DEFINITION. The state of the whole module, what stops the model, and the state after reset.
-/

namespace Sys2Proof.Machine

/-- Why a command stops the model. -/
inductive Fault where
  /-- A command names a unit that the module does not have: a core from 1,280 up, a gang slot from 16 up, a queue from
  4 up, a channel, port, die, bank or bridge past its number. Raised by every meaning whose operands name a unit.
  Safe: no such event exists. -/
  | noSuchUnit
  deriving DecidableEq, Repr

/-- Why a command has no meaning. -/
inductive Refusal where
  /-- The meaning of the command has not been written. Raised only by the arms of Machine/Dispatch.lean. Safe. -/
  | notModelled (mnemonic : String)
  deriving DecidableEq, Repr

/-- A compute die's clock: ACLK cycles since its reset was released, whether it is released, and the sixteenths of a half
nanosecond of the current cycle that have passed (18_clocks_reset R506, 16_governor R446). -/
structure Die where
  released : Bool := false
  /-- the stretch level in force, 0 to 15, and the level from the next cycle boundary on (16_governor R446) -/
  level : Nat := 0
  target : Nat := 0
  cycles : Nat := 0
  phase : Nat := 0
  /-- how far the die's copy of the time base is from the hub's count, in half nanoseconds (18_clocks_reset R500) -/
  skew : Int := 0
  /-- a phase mark on the die's mark line: context, MARK and the time it entered, in ns (10_cutplan R299) -/
  line : Option (Nat × Nat × Nat) := none
  deriving DecidableEq, Repr

/-- A tailings ring (19_debug_test R525): entries ever written, and the last 64, newest first, of four words each. -/
structure Ring where
  count : Nat := 0
  entries : List (List W64) := []
  deriving DecidableEq, Repr

/-- The whole module. -/
structure State where
  /-- the commands that wait, first in first out -/
  pending : List Instr := []
  /-- the global time base in half nanoseconds (18_clocks_reset R500) -/
  half : Nat := 0
  /-- when the hub last corrected the dies' copies (18_clocks_reset R500), in half nanoseconds -/
  corrected : Nat := 0
  dies : Tbl Die := []
  cores : Tbl Core := []
  far : FarMem := {}
  /-- host memory as the module itself has written it (14_host R386, 07_moves R202), by PCI Express address -/
  host : Mem := []
  net : Net := {}
  hub : Hub := {}
  ctxs : Tbl Ctx := []
  fman : Foreman := {}
  links : Links := {}
  pci : HostPort := {}
  site : Site := {}
  trust : Trust := {}
  gov : Governor := {}
  power : Power := {}
  resets : Resets := {}
  dbg : HubDebug := {}
  /-- WAIT_US, the site default of every wait timeout (17_site_trust R478) -/
  waitUs : Nat := 2000000
  /-- tailings rings: 5 × core + unit, and 6,400 + hub unit (19_debug_test R525) -/
  rings : Tbl Ring := []
  /-- the model's own: how many free values have been drawn -/
  draws : Nat := 0
  deriving DecidableEq, Repr

/-- The module right after reset: on standby power, before the boot sequence (18_clocks_reset R505, R506). -/
def State.reset : State := {}

end Sys2Proof.Machine
end

