-- ==== Sys2Proof/Machine/Ops.lean ====
section
/-!
DEFINITION. The named operations over the state that the meanings share: units, clocks, address checks, memory with
its error correction, faults of contexts, tailings rings and counters.
-/

namespace Sys2Proof.Machine

abbrev Out := Host.Outcome State Fault Refusal

/-! ### Units -/

def State.core (s : State) (n : Nat) : Core := tblGet {} s.cores n
def State.setCore (s : State) (n : Nat) (k : Core) : State := { s with cores := tblSet n k s.cores }
def State.modCore (s : State) (n : Nat) (f : Core → Core) : State := s.setCore n (f (s.core n))
def Core.queue (k : Core) (e : Nat) : Queue := tblGet {} k.queues e
def Core.setQueue (k : Core) (e : Nat) (q : Queue) : Core := { k with queues := tblSet e q k.queues }
def State.queue (s : State) (n e : Nat) : Queue := (s.core n).queue e
def State.setQueue (s : State) (n e : Nat) (q : Queue) : State := s.setCore n ((s.core n).setQueue e q)
def State.modQueue (s : State) (n e : Nat) (f : Queue → Queue) : State := s.setQueue n e (f (s.queue n e))
def Core.gang (k : Core) (sl : Nat) : Gang := tblGet {} k.ge.slots sl
def Core.setGang (k : Core) (sl : Nat) (g : Gang) : Core := { k with ge := { k.ge with slots := tblSet sl g k.ge.slots } }
def State.gang (s : State) (n sl : Nat) : Gang := (s.core n).gang sl
def State.setGang (s : State) (n sl : Nat) (g : Gang) : State := s.setCore n ((s.core n).setGang sl g)
def State.modGang (s : State) (n sl : Nat) (f : Gang → Gang) : State := s.setGang n sl (f (s.gang n sl))
/-- Move engine 0 or 1 of a core; queues 2 and 3 (R249). -/
def Core.mv (k : Core) (e : Nat) : MoveEngine := if e = 3 then k.mv1 else k.mv0
def Core.setMv (k : Core) (e : Nat) (m : MoveEngine) : Core := if e = 3 then { k with mv1 := m } else { k with mv0 := m }
def State.ctx (s : State) (c : Nat) : Ctx := tblGet {} s.ctxs c
def State.setCtx (s : State) (c : Nat) (x : Ctx) : State := { s with ctxs := tblSet c x s.ctxs }
def State.modCtx (s : State) (c : Nat) (f : Ctx → Ctx) : State := s.setCtx c (f (s.ctx c))
def State.chan (s : State) (ch : Nat) : Channel := tblGet {} s.far.chans ch
def State.setChan (s : State) (ch : Nat) (x : Channel) : State := { s with far := { s.far with chans := tblSet ch x s.far.chans } }

/-- The compute die of a logical core (01_module R13). -/
def dieOf (core : Nat) : Nat := core / 320

/-- A command that names a unit the module does not have stops; any other command goes on. -/
def onUnits (ok : Bool) (s : State) : Out := if ok then .next s else .fault .noSuchUnit

/-- Where a tally's home is (11_tallies R304, R306): the hub, or a core's tally block. -/
def Home.place (h : Home) : Nat := if h.hub then 0 else h.core + 1

/-! ### Clocks (18_clocks_reset R500, R506; 00_scope R3) -/

/-- The global time in whole nanoseconds. -/
def State.now (s : State) : Nat := s.half / 2

/-- A die's clock over `h` half nanoseconds: at stretch level L a cycle lasts (16 + L) / 16 ns, and a new level counts
from the next cycle on (16_governor R446). -/
def Die.advance (h : Nat) (d : Die) : Die :=
  if d.released then
    let p := d.phase + 16 * h
    let c := 2 * (16 + d.level)
    if p < c then { d with phase := p }
    else
      let n := 2 * (16 + d.target)
      { d with cycles := d.cycles + 1 + (p - c) / n, phase := (p - c) % n, level := d.target }
  else d

/-- Of the cycles that end in `h` half nanoseconds, those at a stretch level above 0. -/
def Die.stretched (h : Nat) (d : Die) : Nat :=
  let n := (d.advance h).cycles - d.cycles
  if n = 0 then 0 else boolN (d.level != 0) + (if d.target = 0 then 0 else n - 1)

/-! ### Record headers and what is on chip (09_queues R254, R260, R261) -/

/-- Bits [hi:lo] of a word of a record. -/
def wbits (ws : List W64) (i hi lo : Nat) : Nat := bitsOf (ws.getD i 0).toNat hi lo

def recOpc (ws : List W64) : Nat := wbits ws 0 7 0
def recExt (ws : List W64) : Nat := wbits ws 0 9 8
def recBrk (ws : List W64) : Bool := bitOf (ws.getD 0 0).toNat 10
/-- The valid token classes among two header fields. -/
def recTok (ws : List W64) (lo : Nat) : List Nat :=
  let v := wbits ws 0 (lo + 6) lo
  if bitOf v 6 then [v % 64] else []
/-- Classes consumed, in order TC0, TC1 (R257). -/
def recConsumes (ws : List W64) : List Nat := recTok ws 12 ++ recTok ws 19
/-- Classes produced. -/
def recProduces (ws : List W64) : List Nat := recTok ws 26 ++ recTok ws 33
/-- The completion tally, if CT_EN is 1. -/
def recTally (ws : List W64) : Option Nat := if bitOf (ws.getD 0 0).toNat 40 then some (wbits ws 0 52 41) else none

def Queue.size (q : Queue) : Nat := 2 ^ q.inForce.log2

/-- The words of a slot on chip. -/
def Queue.slotWords (q : Queue) (slot : Nat) : Option (List W64) := (q.onchip.find? (fun o => o.1 == slot)).map Prod.snd

/-- The words of the next record with its extension records, if all are on chip (R254, R261). -/
def Queue.nextWords (q : Queue) : Option (List W64) :=
  match q.slotWords q.next with
  | none => none
  | some w =>
    let n := min (recExt w) 2
    let ex := (List.range n).map (fun i => q.slotWords ((q.next + 1 + i) % q.size))
    if ex.all Option.isSome then some (w ++ ex.flatMap (fun o => o.getD [])) else none

/-! ### Event counters (19_debug_test R512, R513, R518) -/

/-- Counts `n` events of a source on a core: every counter that selects it, unless frozen; 48 bits that wrap. -/
def Core.count (k : Core) (code n : Nat) : Core :=
  let cs := (List.range 8).foldl (fun t i =>
    if tblGet 0 k.dbg.selNow i = code ∧ code ≠ 0 then tblSet i ((tblGet 0 t i + n) % 2 ^ 48) t else t) k.dbg.counters
  if k.dbg.freeze then k else { k with dbg := { k.dbg with counters := cs } }

def State.count (s : State) (core code n : Nat) : State := s.modCore core (fun k => k.count code n)

/-- A wait of a queue or gang on a tally is open (R513, TALLY_WAIT). -/
def Core.tallyWaits (k : Core) : Bool :=
  k.queues.any (fun q => match q.2.block with | .wait _ => true | .barrier ws _ _ => ws.any (fun w => !w.done) | .loopRead t => t | _ => false)
  || k.ge.slots.any (fun g => g.2.live && (match g.2.wait with | .tally .. => true | _ => false))

/-- The lowest-numbered free gang slot (R29). -/
def Core.freeSlot (k : Core) : Option Nat := (List.range 16).find? (fun i => !(k.gang i).live)

/-- GE_STATUS.LAUNCH_WAIT: a LAUNCH has gangs to start and no slot is free (02_gangs R29, R63). -/
def Core.launchWait (k : Core) : Bool := k.ge.launches.any (fun l => decide (l.started < l.count)) && k.freeSlot.isNone

/-- Tokens the core holds of the classes a record consumes: a class named twice needs two (11_tallies R314). -/
def Core.tokensOk (k : Core) (cls : List Nat) : Bool :=
  cls.all (fun x => decide ((cls.filter (fun y => y == x)).length ≤ tblGet 0 k.tally.tokens x))

/-- The next record is not on chip (09_queues R286): a doorbell has announced it, and the fetch unit has not read it. -/
def Queue.fetchWait (q : Queue) : Bool :=
  q.inForce.enable && q.nextWords.isNone && !(q.next == q.tail && (q.slotWords q.next).isNone)

/-- Nothing but its next record keeps a queue from issuing: no record blocks it, no halt, no unretired predecessor in mode
FENCED, no gang of a LAUNCH left to start (R256, R279; 02_gangs R29). -/
def Core.open_ (k : Core) (e : Nat) : Bool :=
  let q := k.queue e
  q.inForce.enable && q.block == .none && !(q.halt && !q.stepArm) && !(q.inForce.fenced && q.flight != [])
  && !(e == 0 && k.ge.launches.any (fun l => decide (l.started < l.count))) && !(e == 1 && k.me.win.open_)

/-- An engine could issue its next record and does not have it on chip (R255). -/
def Core.fetchStall (k : Core) (e : Nat) : Bool := k.open_ e && (k.queue e).fetchWait

/-- The next record of a queue waits for consumed tokens (R286). -/
def Core.tokenWait (k : Core) (e : Nat) : Bool :=
  k.open_ e && (match (k.queue e).nextWords with
    | some ws => recOpc ws != 5 && !k.tokensOk (recConsumes ws)
    | none => false)

/-- What each source that counts cycles adds for `c` cycles, `st` of them stretched, over `ns` nanoseconds (R513). -/
def Core.cycleSources (k : Core) (c st ns : Nat) : List (Nat × Nat) :=
  let when := fun (b : Bool) => if b then c else 0
  let live := (k.ge.slots.filter (fun g => g.2.live)).length
  [(0x01, c), (0x02, st), (0x03, ns), (0x06, when (live != 0)), (0x07, c * live)
   , (0x0A, when (k.ge.slots.any (fun g => g.2.live && g.2.wait == .window)))
   , (0x0B, when k.launchWait)
   , (0x0F, when k.me.win.open_), (0x13, when (k.me.run == [] && !k.me.win.open_))
   , (0x1A, when (k.mv0.creditWait || k.mv1.creditWait)), (0x21, when (decide (k.slab.landing.length ≥ 16)))
   , (0x2A, when (decide (k.fc.misses.length ≥ 64))), (0x2B, when (k.fc.releases != [])), (0x2D, when k.tallyWaits)
   , (0x2E, when ((List.range 4).any k.tokenWait))
   , (0x2F, when (k.queues.any (fun q => match q.2.block with | .barrier _ _ a => a | _ => false)))
   , (0x31, c * ((List.range 4).filter k.fetchStall).length)
   , (0x3B, when (k.queues.any (fun q => q.2.toRetire != [])))]

/-- Sources whose counts depend on cycles that the model does not have: bank conflicts and the networks (assumption 39). -/
def openSources : List Nat := [0x20, 0x34, 0x35, 0x36, 0x37, 0x38]

/-- Error sources count what the error registers have counted since they were last looked at (R513). -/
def Core.countErrors (k : Core) : Core :=
  let d := k.dbg
  let ce := k.slab.ceCount
  let ue := k.slab.ueCount
  let fc := k.fc.ceCount
  ((({ k with dbg := { d with seenCe := ce, seenUe := ue, seenFc := fc } } : Core).count 0x22 (ce - d.seenCe)).count 0x3C (ue - d.seenUe)).count 0x3D (fc - d.seenFc)

/-- Requests of an engine have data from an edge port still to come, whose slot groups may go empty (07_moves R193). -/
def MoveEngine.inbound (m : MoveEngine) : Bool :=
  m.recs.any (fun r => r.reqs.any (fun q => q.data.isNone && (decide (q.src < 0x100000000000) || decide (0x800000000000 ≤ q.src))))

/-- Slot groups of inbound flows that have gone empty: their number is open (assumption 39). -/
def Core.emptied (k : Core) (free : Nat) : Core :=
  if !k.mv0.inbound && !k.mv1.inbound then k else
  let n := fun (m : MoveEngine) (i : Nat) => if m.inbound then Config.freeCount (64 * free + i) else 0
  let a := n k.mv0 1
  let b := n k.mv1 2
  ({ k with mv0 := { k.mv0 with empty := satAdd 0xFFFFFFFF k.mv0.empty a }, mv1 := { k.mv1 with empty := satAdd 0xFFFFFFFF k.mv1.empty b } } : Core).count 0x19 (a + b)

/-- What the passing of cycles counts on a core: its counters, FSTALL of every queue whose next record is not on chip
(09_queues R255), and what is open: SLAB_CONFLICT as far as the matrix engine's reads go, empty inbound slot groups. -/
def Core.tick (k : Core) (c st ns free : Nat) : Core :=
  let k := k.emptied free
  let k := (k.cycleSources c st ns).foldl (fun k x => k.count x.1 x.2) k.countErrors
  let k := openSources.foldl (fun k x => k.count x (Config.freeCount (64 * free + x))) k
  { k with queues := k.queues.map (fun q => (q.1, if k.fetchStall q.1 then { q.2 with fstall := satAdd 0xFFFFFFFF q.2.fstall c } else q.2))
           slab := if k.ctx.isSome then { k.slab with conflict := satAdd 0xFFFFFFFF k.slab.conflict (Config.freeCount (64 * free)) } else k.slab }

/-- Counts on a hub unit (R518): every counter that selects the code; 48 bits that wrap. -/
def HubDebug.count (d : HubDebug) (unit code n : Nat) : HubDebug :=
  { d with counters := (List.range 4).foldl (fun t i =>
      if tblGet 0 d.sel (4 * unit + i) = code ∧ code ≠ 0 then tblSet (4 * unit + i) ((tblGet 0 t (4 * unit + i) + n) % 2 ^ 48) t else t) d.counters }

def State.hubCount (s : State) (unit code n : Nat) : State := { s with dbg := s.dbg.count unit code n }

/-- Posts bytes into host memory (14_host R379); the PCI Express controller counts the request and its payload (R518). -/
def State.hostWrite (s : State) (a : Nat) (bs : List Byte) : State :=
  { s with host := memWriteN s.host a bs, dbg := (s.dbg.count 3 2 1).count 3 5 (cdiv bs.length 64) }

/-- Posts bytes at addresses of their own as one request. -/
def State.hostBytes (s : State) (bs : List (Nat × Byte)) : State :=
  { s with host := bs.foldl (fun m b => memWrite m b.1 b.2) s.host, dbg := (s.dbg.count 3 2 1).count 3 5 (cdiv bs.length 64) }

/-- Hub counts that depend on cycles or packets that the model does not have (assumption 39): unit and code. -/
def openHub : List (Nat × Nat) := [(0, 3), (2, 2), (2, 3), (2, 5), (3, 3), (6, 3)]

/-- What the passing of time counts in the hub: HCLK cycles (1.6 GHz) in every unit, and what is open. -/
def HubDebug.tick (d : HubDebug) (half h free : Nat) : HubDebug :=
  let d := (List.range 8).foldl (fun d u => d.count u 1 ((half + h) * 4 / 5 - half * 4 / 5)) d
  ((List.range openHub.length).zip openHub).foldl (fun d x => d.count x.2.1 x.2.2 (Config.freeCount (64 * free + 1 + x.1))) d

/-- The clocks move by `h` half nanoseconds, and counters with them. -/
def State.clock (s : State) (h : Nat) : State :=
  let ns := (s.half + h) / 2 - s.half / 2
  { s with
    half := s.half + h
    dies := s.dies.map (fun (k, d) => (k, d.advance h))
    cores := s.cores.map (fun (n, k) =>
      let d := tblGet ({} : Die) s.dies (dieOf n)
      (n, if d.released then k.tick ((d.advance h).cycles - d.cycles) (d.stretched h) ns (2048 * s.draws + n) else k))
    dbg := s.dbg.tick s.half h (2048 * s.draws + 2047)
    draws := s.draws + 1 }

/-- %cycle of a core's die (02_gangs R26). -/
def State.cycleOf (s : State) (core : Nat) : Nat := (tblGet ({} : Die) s.dies (dieOf core)).cycles

/-- The time base as a core's die has it: %time (18_clocks_reset R500). -/
def State.dieTime (s : State) (core : Nat) : Nat := ((s.half : Int) + (tblGet ({} : Die) s.dies (dieOf core)).skew).toNat / 2

/-- The next free value's number, and the state that has drawn it. -/
def State.draw (s : State) : Nat × State := (s.draws, { s with draws := s.draws + 1 })

/-! ### Tailings rings (19_debug_test R525) -/

def wordOf (n : Nat) : W64 := BitVec.ofNat 64 n

/-- Writes an entry: the common word and three more. -/
def State.tail (s : State) (ring kind ctx : Nat) (gang : Option Nat) (w1 w2 w3 : Nat) : State :=
  let r := tblGet ({} : Ring) s.rings ring
  let w0 := s.now % 2 ^ 40 + 2 ^ 40 * kind + 2 ^ 48 * (ctx % 1024)
    + (match gang with | some g => 2 ^ 58 * (g % 16) + 2 ^ 62 | none => 0)
  let e := [wordOf w0, wordOf w1, wordOf w2, wordOf w3]
  { s with rings := tblSet ring { count := r.count + 1, entries := (e :: r.entries).take 64 } s.rings }

/-- The ring of an engine (0 to 3) or the slab port (4) of a core. -/
def ringOf (core unit : Nat) : Nat := 5 * core + unit
/-- The ring of a hub unit. -/
def hubRing (u : Nat) : Nat := 6400 + u

/-! ### Addresses and windows (01_module R19, R20; 13_contexts R348, R349; 06_slab R161) -/

inductive AddrClass where
  | far
  | check
  | slab (core off : Nat)
  | host
  | none
  deriving DecidableEq, Repr

def farTop : Nat := 0xBA00000000
def checkTop : Nat := 0xC000000000
def slabBase : Nat := 0x100000000000
def hostBase : Nat := 0x800000000000

/-- The device physical address map (R19, R20): unassigned ranges, the register space and the unpopulated part of a
core's stride are in no class. -/
def addrClass (a : Nat) : AddrClass :=
  if a < farTop then .far
  else if a < checkTop then .check
  else if slabBase ≤ a ∧ a < slabBase + 1280 * 2 ^ 24 then
    (if (a - slabBase) % 2 ^ 24 < 0xD00000 then .slab ((a - slabBase) / 2 ^ 24) ((a - slabBase) % 2 ^ 24) else .none)
  else if hostBase ≤ a ∧ a < 2 ^ 48 then .host
  else .none

inductive Right where
  | r
  | w
  | x
  deriving DecidableEq, Repr

/-- Whether a window grants a right on the 64 KiB unit `u` (R348): a window with W and X both set has X cleared. -/
def Window.grants (w : Window) (right : Right) (u : Nat) : Bool :=
  w.valid && decide (w.base ≤ u) && decide (u < w.bound) &&
    (match right with | .r => w.r | .w => w.w | .x => w.x && !w.w)

/-- Whether any window of the context grants the right on the unit (R349). -/
def Ctx.grants (x : Ctx) (right : Right) (u : Nat) : Bool := x.windows.any (fun p => p.2.grants right u)

/-- Whether every byte of a range is granted (R349): windows are whole units of 64 KiB. -/
def Ctx.granted (x : Ctx) (right : Right) (a n : Nat) : Bool :=
  n = 0 || (List.range ((a + n - 1) / 65536 - a / 65536 + 1)).all (fun i => x.grants right (a / 65536 + i))

/-- A range in far memory that the context may access. -/
def Ctx.farOk (x : Ctx) (right : Right) (a n : Nat) : Bool := decide (a + n ≤ farTop) && x.granted right a n

/-! ### Far memory (08_far R218 to R224) -/

/-- The channel of a far memory address and its offset there (R218, R219). -/
def farPlace (l a : Nat) : Nat × Nat :=
  let i := (31 - l) * 24 * 2 ^ 30
  let sz := l * 6 * 2 ^ 30
  if a < i then (a / 4096 % 96, a / 4096 / 96 * 4096 + a % 4096)
  else
    let d := (a - i) / sz
    let q := (a - i - d * sz) / 4096
    (24 * d + q % 24, (31 - l) * 256 * 2 ^ 20 + q / 24 * 4096 + a % 4096)

/-- The number of a block: its channel and its place in the channel (R221, R246). -/
def farBlock (l a : Nat) : Nat := let p := farPlace l a; p.1 * 2 ^ 27 + p.2 / 64

/-- Records an error of a block in its channel's registers (R223, R224, R246): a corrected error never overwrites a
record with UE set while VALID is 1. -/
def State.noteFar (s : State) (blk : Nat) (ue scrub : Bool) : State :=
  let ch := blk / 2 ^ 27
  let c := s.chan ch
  let c := if ue then { c with ueCount := satAdd 0xFFFF c.ueCount 1 } else { c with ceCount := satAdd 0xFFFFFFFF c.ceCount 1 }
  let c := if !ue && c.valid && c.ue then c
    else { c with block := blk % 2 ^ 27, ue := ue, scrub := scrub, valid := true }
  s.setChan ch c

/-- A block is read at its channel: a correctable error is corrected, counted and rewritten; an uncorrectable one is counted and
answers false. -/
def State.meetBlock (s : State) (blk : Nat) (scrub : Bool) : State × Bool :=
  match tblFind blk s.far.bad with
  | none => (s, true)
  | some false => ({ s.noteFar blk false scrub with far := { (s.noteFar blk false scrub).far with bad := tblDrop blk s.far.bad } }, true)
  | some true => (s.noteFar blk true scrub, false)

/-- The first block of a channel's check region, and the check block of a data block (R221). -/
def checkFirst : Nat := 0x1F0000000 / 64
def checkOf (blk : Nat) : Nat := checkFirst + blk % 2 ^ 27 / 32

/-- A read of this block delivers no data: its bytes or its check word, unless cached, are uncorrectable (R224). -/
def State.blockBad (s : State) (blk : Nat) : Bool :=
  tblFind blk s.far.bad == some true
    || (tblFind (blk / 2 ^ 27 * 2 ^ 27 + checkOf blk) s.far.bad == some true && !(s.chan (blk / 2 ^ 27)).cache.any (fun x => x.1 == checkOf blk))

/-- A check block enters a channel's check cache as the most recently used; the least recently used leaves, and is written back
whole when dirty (R222). -/
def State.cacheCheck (s : State) (ch cb : Nat) (dirty : Bool) : State :=
  let c := s.chan ch
  let was := c.cache.any (fun x => x.1 == cb && x.2)
  let list := (cb, was || dirty) :: c.cache.filter (fun x => x.1 != cb)
  let s := s.setChan ch { c with cache := list.take 64 }
  match list.drop 64 with
  | (old, true) :: _ => { s with far := { s.far with bad := tblDrop (2 ^ 27 * ch + old) s.far.bad } }
  | _ => s

/-- The check word of a data block is at hand: from the check cache, or with its check block from the channel (R222). -/
def State.checkWord (s : State) (blk : Nat) : State × Bool :=
  let ch := blk / 2 ^ 27
  if (s.chan ch).cache.any (fun x => x.1 == checkOf blk) then (s.cacheCheck ch (checkOf blk) false, true)
  else
    let r := s.meetBlock (2 ^ 27 * ch + checkOf blk) false
    (if r.2 then r.1.cacheCheck ch (checkOf blk) false else r.1, r.2)

/-- The controller meets a block at a read, with its check word (R221 to R224): false where either is uncorrectable. Where no block
is in error nothing happens. -/
def State.touchBlock (s : State) (blk : Nat) : State × Bool :=
  if s.far.bad = [] then (s, true)
  else
    let k := s.checkWord blk
    let d := k.1.meetBlock blk false
    (d.1, k.2 && d.2)

/-- A write of all 64 bytes of a block gives it a new check word, in the check cache (R222, R224). -/
def State.freshBlock (s : State) (blk : Nat) : State :=
  if s.far.bad = [] then s
  else
    let s := { s with far := { s.far with bad := tblDrop blk s.far.bad } }
    if tblFind (blk / 2 ^ 27 * 2 ^ 27 + checkOf blk) s.far.bad = some true then s else s.cacheCheck (blk / 2 ^ 27) (checkOf blk) true

/-- The blocks that a range touches, by address. -/
def blocksOf (a n : Nat) : List Nat := if n = 0 then [] else (List.range ((a + n - 1) / 64 - a / 64 + 1)).map (fun i => (a / 64 + i) * 64)

/-- A read at the controllers (R223, R224): no data when any block is uncorrectable. -/
def State.farRead (s : State) (a n : Nat) : State × Option (List Byte) :=
  let r := (blocksOf a n).foldl (fun (p : State × Bool) b =>
    let q := p.1.touchBlock (farBlock s.far.localUnits b)
    (q.1, p.2 && q.2)) (s, true)
  (r.1, if r.2 then some (memReadN s.far.mem a n) else none)

/-- The units of the mirror space that a written range of far memory touches (15_haul_twin R417, R419). -/
def mirrorUnits (a n : Nat) : List (Nat × Nat) → Nat → List Nat
  | [], _ => []
  | (b, sz) :: t, k =>
    ((List.range (sz / 65536)).filter (fun i => decide (b + 65536 * i < a + n) && decide (a < b + 65536 * i + 65536))).map (fun i => k + i)
      ++ mirrorUnits a n t (k + sz / 65536)

/-- An accepted write marks its units in the open epoch's dirty bitmap, and during a copy it is a race (R419, R424). -/
def State.markDirty (s : State) (a n : Nat) : State :=
  let w := s.links.twin
  match w.mset with
  | none => s
  | some m =>
    let us := mirrorUnits a n m.ranges 0
    if us = [] then s
    else { s with links := { s.links with twin := { w with
      dirty := us.foldl (fun d u => if d.contains u then d else d ++ [u]) w.dirty
      copy := w.copy.map (fun c => { c with raced := true }) } } }

/-- Writes one block's part of a range: a partial write of an uncorrectable block writes nothing (R222, R224); a whole
block gets a fresh check word. -/
def State.farWriteBlock (s : State) (b a : Nat) (bs : List Byte) : State × Bool :=
  let lo := max a b
  let hi := min (a + bs.length) (b + 64)
  let blk := farBlock s.far.localUnits b
  let part := (bs.drop (lo - a)).take (hi - lo)
  let t := if hi - lo = 64 then (s.freshBlock blk, true) else s.touchBlock blk
  if t.2 then (({ t.1 with far := { t.1.far with mem := memWriteN t.1.far.mem lo part } } : State).markDirty lo (hi - lo), true) else (t.1, false)

/-- A write at the controllers; false when a partly written block was uncorrectable. -/
def State.farWrite (s : State) (a : Nat) (bs : List Byte) : State × Bool :=
  (blocksOf a bs.length).foldl (fun (p : State × Bool) b =>
    let q := p.1.farWriteBlock b a bs
    (q.1, p.2 && q.2)) (s, true)

/-- A write of single bytes of one line, as a write-back does (R235). -/
def State.farWriteBytes (s : State) (base : Nat) (bs : List (Nat × Byte)) : State × Bool :=
  [0, 64].foldl (fun (p : State × Bool) h =>
    let mine := bs.filter (fun x => decide (h ≤ x.1) && decide (x.1 < h + 64))
    if mine.isEmpty then p
    else
      let blk := farBlock p.1.far.localUnits (base + h)
      let t := if mine.length = 64 then (p.1.freshBlock blk, true) else p.1.touchBlock blk
      if t.2 then (({ t.1 with far := { t.1.far with mem := mine.foldl (fun m x => memWrite m (base + x.1) x.2) t.1.far.mem } } : State).markDirty (base + h) 64, p.2)
      else (t.1, false)) (s, true)

/-! ### Faults of contexts (00_scope R9, 02_gangs R65, 13_contexts R368) -/

/-- A fault of context `c`: the first one reported is kept, taking the lower logical core on a tie, and the others are
counted (R368); a fault of a core stops its gang engine (R65) and is entered in the engine's tailings ring (R525). -/
def State.raise (s : State) (c : Nat) (f : FaultRec) : State :=
  let x := s.ctx c
  let f := { f with time := s.now }
  let x' := match x.fault with
    | none => { x with fault := some f }
    | some g => if g.time = f.time ∧ f.core < g.core ∧ !x.killing then { x with fault := some f, later := x.later + 1 }
        else { x with later := x.later + 1 }
  if x.state = .free ∨ x.state = .dead then s
  else
    let s := s.setCtx c x'
    if f.core < 1280 then
      let s := s.modCore f.core (fun k => { k with ge := { k.ge with stopped := true } })
      if f.engine < 4 then
        s.tail (ringOf f.core f.engine) 5 c (if f.gang < 16 then some f.gang else none)
          (f.cause.code + 2 ^ 8 * (f.slot % 2 ^ 12) + 2 ^ 32 * f.mask) f.npc f.addr
      else s
    else s

/-- An engine of a core may work: a context holds the core, runs, and no fault of the context was met on this core
(R65, R367). -/
def State.live (s : State) (core : Nat) : Option Nat :=
  match (s.core core).ctx with
  | none => none
  | some c =>
    let x := s.ctx c
    if x.state == .placed && !x.killing && (match x.fault with | some f => f.core != core | none => true) then some c else none

/-- The time that the timeouts of a context count: the global time base, less the time for which a queue of the context
was halted (09_queues R281). -/
def State.ctxNow (s : State) (c : Nat) : Nat :=
  let x := s.ctx c
  (match x.haltSince with | some t => t | none => s.now) - x.haltNs

/-- A queue of the context was halted or let go: counting stops or goes on (R281). -/
def State.rehalt (s : State) (c : Nat) : State :=
  let any := (s.ctx c).bench.any (fun n => (List.range 4).any (fun e => (s.queue n e).halted))
  s.modCtx c (fun x =>
    match x.haltSince with
    | none => if any then { x with haltSince := some s.now } else x
    | some t => if any then x else { x with haltSince := none, haltNs := x.haltNs + (s.now - t) })

/-! ### Slab memory at its port (06_slab R156, R162 to R166) -/

def Slab.bank (b : Slab) (slab : Nat) : BankState := tblGet .on b.banks (slab % 32)

/-- Records an error of a codeword (R163, R164, R174, R175). -/
def Slab.note (b : Slab) (cw : Nat) (ue : Bool) : Slab :=
  let b := if ue then { b with ueCount := satAdd 0xFFFF b.ueCount 1 } else { b with ceCount := satAdd 0xFFFFFFFF b.ceCount 1 }
  if !ue && b.eccAddr.valid && b.eccAddr.ue then b
  else { b with eccAddr := { slab := cw / 8, codeword := cw % 8, ue := ue, valid := true } }

/-- A codeword met by a read: a corrected error is counted at every read, and queues one rewrite unless one already
waits or four wait (R163). -/
def Slab.touch (b : Slab) (cw : Nat) : Slab × Bool :=
  match tblFind cw b.bad with
  | none => (b, true)
  | some true => (b.note cw true, false)
  | some false =>
    let b := b.note cw false
    (if b.rewrites.contains cw ∨ b.rewrites.length ≥ 4 then b else { b with rewrites := b.rewrites ++ [cw] }, true)

/-- Reads a whole slab: no data when a codeword is uncorrectable (R162, R164). -/
def Slab.read (b : Slab) (slab : Nat) : Slab × Option (List Byte) :=
  let r := (List.range 8).foldl (fun (p : Slab × Bool) i =>
    let q := p.1.touch (8 * slab + i)
    (q.1, p.2 && q.2)) (b, true)
  (r.1, if r.2 then some (memReadN b.mem (512 * slab) 512) else none)

/-- Writes bytes of one slab: a codeword that is covered only in part is read and merged; an uncorrectable one there
means that nothing of the slab is written; a written codeword has fresh check bits and its rewrite is skipped (R156,
R163, R164). -/
def Slab.write (b : Slab) (slab off : Nat) (bs : List Byte) : Slab × Bool :=
  let cws := (List.range 8).filter (fun i => decide (64 * i < off + bs.length) && decide (off < 64 * i + 64))
  let part := cws.filter (fun i => !(decide (off ≤ 64 * i) && decide (64 * i + 64 ≤ off + bs.length)))
  let r := part.foldl (fun (p : Slab × Bool) i =>
    let q := p.1.touch (8 * slab + i)
    (q.1, p.2 && q.2)) (b, true)
  if r.2 then
    ({ r.1 with
        mem := memWriteN r.1.mem (512 * slab + off) bs
        bad := cws.foldl (fun t i => tblDrop (8 * slab + i) t) r.1.bad
        rewrites := r.1.rewrites.filter (fun w => !(cws.any (fun i => 8 * slab + i == w))) }, true)
  else (r.1, false)

/-- The bytes of codeword `i` of a slab that runs of bytes cover. -/
def coverOf (ps : List (Nat × List Byte)) (i : Nat) : Nat :=
  (ps.map (fun p => min (p.1 + p.2.length) (64 * i + 64) - max p.1 (64 * i))).foldl (· + ·) 0

/-- Writes runs of bytes of one slab as one masked write, which is all or nothing (R156, R164). A read that the write needs
queues its corrected codeword for rewrite whether or not the write happens (R163). -/
def Slab.writeMask (b : Slab) (slab : Nat) (ps : List (Nat × List Byte)) : Slab × Bool :=
  let cws := (List.range 8).filter (fun i => decide (coverOf ps i ≠ 0))
  let r := (cws.filter (fun i => decide (coverOf ps i < 64))).foldl (fun (p : Slab × Bool) i =>
    let q := p.1.touch (8 * slab + i)
    (q.1, p.2 && q.2)) (b, true)
  if r.2 then
    ({ r.1 with
        mem := ps.foldl (fun m p => memWriteN m (512 * slab + p.1) p.2) r.1.mem
        bad := cws.foldl (fun t i => tblDrop (8 * slab + i) t) r.1.bad
        rewrites := r.1.rewrites.filter (fun w => !(cws.any (fun i => 8 * slab + i == w))) }, true)
  else (r.1, false)

/-- Writes addressed to a bank that the port has accepted and not yet written (R165). -/
def Slab.inflightWrites (b : Slab) (bank : Nat) : Nat :=
  (b.unplanned.filter (fun u => u.write && u.slab % 32 == bank)).length
  + (b.landing.filter (fun l => l.slab % 32 == bank)).length
  + (b.rewrites.filter (fun w => w / 8 % 32 == bank)).length

def State.modSlab (s : State) (core : Nat) (f : Slab → Slab) : State := s.modCore core (fun k => { k with slab := f k.slab })

/-! ### Messages by place in their list -/

/-- Drops the k-th element. -/
def dropAt {α : Type} (k : Nat) (xs : List α) : List α := xs.take k ++ xs.drop (k + 1)

/-- The k-th element, if none before it satisfies `same` with it: messages of one source to one home keep their order
(11_tallies R306). -/
def firstOf {α : Type} (same : α → α → Bool) (k : Nat) (xs : List α) : Option α :=
  match xs[k]? with
  | none => none
  | some m => if (xs.take k).any (fun o => same o m) then none else some m

end Sys2Proof.Machine
end

