-- ==== Sys2Proof/Machine/GangOps.lean ====
section
/-!
DEFINITION. The issue of one gang instruction (02_gangs R33, R39, R64, R65): when it issues, which registers it needs,
what a fault of it records, and how the gang goes on.
-/

namespace Sys2Proof.Machine

/-- The registers an instruction reads and writes, for the scoreboard (R33, R60). -/
structure RegUse where
  vr : List Nat := []
  vw : List Nat := []
  sr : List Nat := []
  sw : List Nat := []
  deriving DecidableEq, Repr

/-- The registers of one operand of kind `k`. -/
def regsOfKind (k : OpKind) (w code : Nat) : List Nat × List Nat :=
  match k with
  | .vector => (pairRegs code w, [])
  | .scalar => ([], if code < 64 then [code] else [])
  | _ => ([], [])

/-- The registers of a format-V instruction that is no memory instruction. -/
def vUse (sp : VSpec) (f : VForm) : RegUse :=
  let w := tyWidth f.ty
  let d := regsOfKind sp.d w f.d
  let a := regsOfKind sp.a (if sp = specCvt then tyWidth f.opx else w) f.a
  let b := if f.ib then ([], []) else regsOfKind (effKind sp.b f.bs) w f.b
  let c := if f.ic then ([], []) else regsOfKind (effKind sp.c f.cs) w f.c
  { vr := a.1 ++ b.1 ++ c.1, vw := d.1, sr := a.2 ++ b.2 ++ c.2, sw := d.2 }

/-- The registers of the address of LD, ST and ATOM (R81). -/
def addrUse (f : VForm) : RegUse :=
  if opxAf f = 0 then { vr := [f.a, f.a + 1] }
  else if opxAf f = 1 then { vr := [f.c], sr := if f.a < 64 then [f.a] else [] }
  else { sr := if f.a < 64 then [f.a] else [] }

def RegUse.and (a b : RegUse) : RegUse := ⟨a.vr ++ b.vr, a.vw ++ b.vw, a.sr ++ b.sr, a.sw ++ b.sw⟩

/-- Registers reserved by loads, replies and queued matrix instructions. -/
def Gang.busyV (g : Gang) : List Nat := g.loads.flatMap (fun l => l.regs) ++ g.dueV

/-- The scoreboard has cleared every source and destination register (R33); a register that a queued matrix
instruction still reads is not written (R60). -/
def Gang.clear (g : Gang) (u : RegUse) : Bool :=
  (u.vr ++ u.vw).all (fun r => !g.busyV.contains r) && u.vw.all (fun r => !g.heldV.contains r)
  && (u.sr ++ u.sw).all (fun r => !g.busyS.contains r)

/-- The context whose gang can issue at this place: the gang is resident, waits for nothing, its next instruction is in
the instruction buffer, no fault and no rejection stopped the engine, and the registers are clear (R33, R56, R59, R65,
R556). A memory instruction with lines left to issue goes on with them, and nothing else of the gang issues (R52). -/
def State.gangReady (s : State) (g : GangAt) (u : RegUse) (mem : Bool := false) : Option Nat :=
  let k := s.core g.core
  let x := k.gang g.slot
  if x.live && x.wait == .none && !k.ge.stopped && k.ge.rejected.isNone && k.ge.ibuf.contains x.pc.toNat
    && (if x.todo.isEmpty then x.clear u else mem) then s.live g.core
  else none

/-- What a gang instruction reads of its surroundings (R26). -/
def State.gangEnv (s : State) (core slot : Nat) : GangEnv :=
  { core := core, slot := slot, cycle := s.cycleOf core, time := s.dieTime core, seed := (s.core core).ge.seedNow }

/-- The LAUNCH that a gang belongs to, as the post-mortem record names it (13_contexts R369). -/
def State.launchFlight (s : State) (core uid : Nat) : Option Flight :=
  (s.queue core 0).flight.find? (fun f => f.id == uid / 16)

/-- The instruction that a gang is at. -/
def Gang.insnAt (x : Gang) (slot : Nat) : InsnAt := { slot := slot, uid := x.uid, npc := x.pc.toNat, mask := x.mask.toNat }

/-- A fault of a gang instruction (R65): cause, slot, native program counter, active mask, first faulting address. -/
def State.insnFault (s : State) (core : Nat) (i : InsnAt) (cause : Cause) (addr : Nat) : State :=
  match (s.core core).ctx with
  | none => s
  | some c =>
    let fl := s.launchFlight core i.uid
    s.raise c { cause := cause, core := core, engine := 0, gang := i.slot, npc := i.npc, addr := addr, mask := i.mask
                qid := 4 * core, slot := (fl.map Flight.slot).getD 0xFFFF, record := (fl.map Flight.words).getD [] }

/-- A fault of the instruction that a gang is at. -/
def State.gangFault (s : State) (core slot : Nat) (cause : Cause) (addr : Nat) : State :=
  s.insnFault core ((s.gang core slot).insnAt slot) cause addr

/-- An engine's fault that no record or gang instruction has, such as a write-back's (08_far R224). -/
def State.coreFault (s : State) (core : Nat) (cause : Cause) (addr : Nat) : State :=
  match (s.core core).ctx with
  | none => s
  | some c => s.raise c { cause := cause, core := core, engine := 0, addr := addr }

/-- The slot's round robin pointer moves to the slot after the gang that issued (R33), and the issue is counted. -/
def State.issued (s : State) (core slot : Nat) (vec : Bool) : State :=
  s.modCore core (fun k =>
    let k := { k with ge := if vec then { k.ge with rrVector := (slot + 1) % 16 } else { k.ge with rrScalar := (slot + 1) % 16 } }
    k.count (if vec then 4 else 5) 1)

/-- A gang instruction issues, or has no effect because its gang is not ready or it stalls (`none`); fields that the
loader would reject are an undefined native encoding (R64). -/
def onGangTry (s : State) (g : GangAt) (i : Instr) (vec : Bool) (u : RegUse) (body : Nat → Gang → GangEnv → State → Option State)
    (mem : Bool := false) : Out :=
  if g.core < 1280 ∧ g.slot < 16 then
    match s.gangReady g u mem with
    | none => .next s
    | some c =>
      match i.loadErr with
      | some _ => .next (s.gangFault g.core g.slot .illegalInsn 0)
      | none => .next ((body c (s.gang g.core g.slot) (s.gangEnv g.core g.slot) (s.issued g.core g.slot vec)).getD s)
  else .fault .noSuchUnit

/-- A gang instruction that never stalls. -/
def onGang (s : State) (g : GangAt) (i : Instr) (vec : Bool) (u : RegUse) (body : Nat → Gang → GangEnv → State → State)
    (mem : Bool := false) : Out :=
  onGangTry s g i vec u (fun c x env t => some (body c x env t)) mem

/-- Acts on the gang of a given number: on the resident gang in its slot, or, when that gang has exited, on the count of
its launch's requests that have not completed (R30, R40). -/
def State.withGang (s : State) (core slot uid : Nat) (f : Gang → Gang) : State :=
  let x := s.gang core slot
  if x.live ∧ x.uid = uid then s.setGang core slot (f x)
  else s.modCore core (fun k => { k with ge := { k.ge with launches := k.ge.launches.map (fun l =>
    if l.id = uid / 16 then { l with out := l.out - 1 } else l) } })

/-- One part of a memory instruction has completed: the load's count goes down, and its registers are ready when none is
left (R52); a gang that waited on a host-window access goes on. -/
def Gang.part (x : Gang) (load : Nat) : Gang :=
  let ls := (x.loads.map (fun l => if l.id = load then { l with left := l.left - 1 } else l)).filter (fun l => l.left != 0)
  let y := { x with loads := ls }
  if y.wait = .host ∧ !(ls.any (fun l => l.id == load)) then y.wake else y

/-- Stores the result of an instruction that ends at once: the gang goes on, its flags accumulate (R62). -/
def State.gangDone (s : State) (g : GangAt) (r : Gang × FFlags) : State :=
  s.modCore g.core (fun k =>
    let k := k.setGang g.slot (r.1.advance g.next)
    { k with ge := { k.ge with flags := k.ge.flags.or r.2 } })

/-- An arithmetic, logic, conversion or predicate instruction (03_sett R80, R92). -/
def gangAlu (s : State) (g : GangAt) (i : Instr) (sp : VSpec) (f : VForm) (op : GangEnv → Gang → Gang × FFlags) : Out :=
  onGang s g i sp.vslot (vUse sp f) (fun _ x env t => t.gangDone g (op env x))

end Sys2Proof.Machine
end

