-- ==== Sys2Proof/Machine/MatOps.lean ====
section
/-!
DEFINITION. The arithmetic of the matrix array and of the output converter (04_matrix R100 to R106, R116, R117;
05_numbers R128 to R146).
-/

namespace Sys2Proof.Machine

/-! ### Formats and operands (R84, R100 to R103, R128, R131) -/

/-- The element format of a code that is neither INT8 nor MXINT8 (R84). -/
def fmtOf (c : Nat) : FFmt :=
  if c = 0 then fBF16 else if c = 1 then fFP16 else if c = 2 ∨ c = 4 then fE4M3 else if c = 3 ∨ c = 5 then fE5M2
  else if c = 6 then fE3M2 else if c = 7 then fE2M3 else if c = 8 then fE2M1 else fFP32

/-- Elements of a cell, e (R100). -/
def cellE (c : Nat) : Nat := if c ≤ 1 ∨ c = 11 then 1 else if 6 ≤ c ∧ c ≤ 8 then 4 else 2
/-- K of a pass (R100). -/
def kPass (c : Nat) : Nat := 32 * cellE c
/-- Input cycles of a segment, s (R100). -/
def segCycles (c : Nat) : Nat := if c = 11 then 4 else 1
/-- Bytes of a segment and of a stationary row (R100). -/
def segBytes (c : Nat) : Nat := kPass c * fmtBits c / 8
def rowBytes (c : Nat) : Nat := 64 * cellE c * fmtBits c / 8
/-- Slabs of a B panel, and of an A panel with `n` segments (R103). -/
def bSlabs (c : Nat) : Nat := if rowBytes c = 128 then 8 else 16
def aSlabs (c n : Nat) : Nat := cdiv n (512 / segBytes c)
/-- Slabs of an A scale panel (R103). -/
def asSlabs (c n : Nat) : Nat := cdiv (n * (kPass c / 32)) 512

/-- Element `i` of a stream of w-bit elements (R102). -/
def elemAt (bs : List Byte) (w i : Nat) : Nat := ofLe ((bs.drop (w * i / 8)).take 5) / 2 ^ (w * i % 8) % 2 ^ w

/-- A BF16 or FP32 operand with its subnormals flushed (R131). -/
def flushSub (f : FFmt) (code : Nat) : Num :=
  if isSubnormal f code then .fin (bitOf code (f.ebits + f.mbits)) 0 0 else numOf f code

/-- The value of an operand element (R128, R129, R131). -/
def opNum (c code : Nat) : Num :=
  if c = 10 then intNum (toSigned 8 code)
  else if c = 9 then scaleNum (-6) (intNum (toSigned 8 code))
  else if c = 0 ∨ c = 11 then flushSub (fmtOf c) code
  else numOf (fmtOf c) code

/-- The parts of a finite FP32 operand (R134): the high part by truncation, the low part rounded to BF16; both flushed. -/
def splitPart (hi : Bool) (code : Nat) : Num :=
  let h := flushSub fBF16 (code / 65536)
  if isSubnormal fFP32 code then .fin (bitOf code 31) 0 0
  else if hi then h
  else flushSub fBF16 (roundNum fBF16 .nearest false (addNum (numOf fFP32 code) (negNum h)).1).1

def isFinite : Num → Bool
  | .fin _ _ _ => true
  | _ => false

/-- Sub-product `t` of two FP32 operands (R134). -/
def subProduct (t a b : Nat) : Num × FFlags :=
  if isFinite (numOf fFP32 a) && isFinite (numOf fFP32 b) then
    mulNum (splitPart (decide (t ≥ 2)) a) (splitPart (t % 2 == 1) b)
  else if t < 3 then (Num.zero, {})
  else mulNum (opNum 11 a) (opNum 11 b)

/-- The product of two operand elements (R131). -/
def product (fa fb t a b : Nat) : Num × FFlags :=
  if fa = 11 then subProduct t a b else mulNum (opNum fa a) (opNum fb b)

/-! ### Groups, partial sums, accumulators (R132, R133) -/

/-- The exact sum of products. -/
def sumProducts (ps : List (Num × FFlags)) : Num × FFlags :=
  ps.foldl (fun a p => let r := addNum a.1 p.1; (r.1, (a.2.or p.2).or r.2)) (Num.zero, {})

/-- The factor of a group of block-scaled operands (R129, R133): none when a scale is NaN. -/
def groupScale (fa xa xb : Nat) : Option Int :=
  if !fmtMx fa then some 0 else if xa = 255 ∨ xb = 255 then none else some ((xa : Int) + xb - 254)

/-- The group sum with its scale. -/
def groupSum (fa fb t : Nat) (sc : Option Int) (ks : List (Nat × Nat)) : Num × FFlags :=
  if ks = [] then (Num.zero, {})
  else match sc with
    | none => (.nan false, {})
    | some k => let r := sumProducts (ks.map (fun p => product fa fb t p.1 p.2)); (scaleNum k r.1, r.2)

/-- One grouped step of a partial sum: one rounding (R132). -/
def groupStep (p : Nat × FFlags) (g : Num × FFlags) : Nat × FFlags :=
  let r := addNum (numOf fFP32 p.1) g.1
  let o := roundNum fFP32 .nearest false r.1
  (o.1, ((p.2.or g.2).or r.2).or o.2)

/-- The elements of group `i` of a pass with `left` elements of K (R101, R106, R132): codes of A and B. -/
def groupElems (fa i left : Nat) (a b : Nat → Nat) : List (Nat × Nat) :=
  let n := 2 * cellE fa
  ((List.range n).filter (fun x => decide (n * i + x < left))).map (fun x => (a (n * i + x), b (n * i + x)))

/-- The partial sum of one column and segment in a pass (R132, R133): `a` and `b` give the codes by k in the pass, `xa` and
`xb` the scales by block. -/
def partialSum (fa fb t left : Nat) (a b xa xb : Nat → Nat) : Nat × FFlags :=
  (List.range 16).foldl (fun p i =>
    let blk := 2 * cellE fa * i / 32
    groupStep p (groupSum fa fb t (groupScale fa (xa blk) (xb blk)) (groupElems fa i left a b))) (0, {})

/-- The exact partial sum of INT8 operands (R133). -/
def partialInt (left : Nat) (a b : Nat → Nat) : Int :=
  ((List.range (min left 64)).map (fun k => toSigned 8 (a k) * toSigned 8 (b k))).foldl (· + ·) 0

/-- A saturating 32-bit add (R133). -/
def satAdd32 (old : Nat) (p : Int) : Nat × FFlags :=
  let v := toSigned 32 old + p
  (wrapInt 32 (clampInt (-(2 ^ 31)) (2 ^ 31 - 1) v), { ovf := decide (v < -(2 ^ 31) ∨ v > 2 ^ 31 - 1) })

/-- What a pass leaves in an entry (R106, R132 to R134): overwritten or added to. -/
def passEntry (fa fb left : Nat) (anew : Bool) (a b xa xb : Nat → Nat) (old : Nat) : Nat × FFlags :=
  if fa = 10 then
    (if anew then (wrapInt 32 (partialInt left a b), {}) else satAdd32 old (partialInt left a b))
  else if fa = 11 then
    (List.range 4).foldl (fun (acc : Nat × FFlags) t =>
      let p := partialSum fa fb t left a b xa xb
      let r := if anew && t == 0 then (p.1, {}) else f32Add .nearest acc.1 p.1
      (r.1, (acc.2.or p.2).or r.2)) (old, {})
  else
    let p := partialSum fa fb 0 left a b xa xb
    if anew then p else let r := f32Add .nearest old p.1; (r.1, p.2.or r.2)

/-- A logical tile and its operands by pass: codes of A by pass, row and k, of B by pass, column and k; scales by pass,
row or column and block. -/
structure Tile where
  fa : Nat
  fb : Nat
  k : Nat
  bank : Nat
  e0 : Nat
  c0 : Nat
  m : Nat
  n : Nat
  acc : Bool
  deriving DecidableEq, Repr

def Tile.passes (t : Tile) : Nat := cdiv t.k (kPass t.fa)
/-- Elements of K in pass `p`. -/
def Tile.left (t : Tile) (p : Nat) : Nat := min (kPass t.fa) (t.k - p * kPass t.fa)

/-- The place of an accumulator. -/
def accIdx (bank entry col : Nat) : Nat := (bank * 128 + entry) * 64 + col
def MatrixEngine.accAt (m : MatrixEngine) (bank entry col : Nat) : Nat := (tblGet 0 m.acc (accIdx bank entry col)).toNat
def MatrixEngine.setAcc (m : MatrixEngine) (bank entry col x : Nat) : MatrixEngine :=
  { m with acc := tblSet (accIdx bank entry col) (BitVec.ofNat 32 x) m.acc }

/-- The block of an entry and column (R111). -/
def blockOf (bank entry col : Nat) : Nat := bank * 32 + entry / 16 * 4 + col / 16
def MatrixEngine.isInt (m : MatrixEngine) (bank entry col : Nat) : Bool := m.intBlocks.contains (blockOf bank entry col)

/-- The blocks of a tile take a type (R111). -/
def MatrixEngine.setType (me : MatrixEngine) (int : Bool) (bank e0 c0 m n : Nat) : MatrixEngine :=
  let bs := (List.range (cdiv m 16)).flatMap (fun i => (List.range (cdiv n 16)).map (fun j => blockOf bank (e0 + 16 * i) (c0 + 16 * j)))
  let rest := me.intBlocks.filter (fun b => !bs.contains b)
  { me with intBlocks := if int then rest ++ bs else rest }

/-- A tile set to +0 (R83, R111, R275). -/
def MatrixEngine.clearTile (me : MatrixEngine) (bank e0 c0 m n : Nat) : MatrixEngine :=
  ((List.range m).foldl (fun me i => (List.range n).foldl (fun me j => me.setAcc bank (e0 + i) (c0 + j) 0) me) me).setType false bank e0 c0 m n

/-- One pass over a tile (R104 to R106). -/
def MatrixEngine.pass (me : MatrixEngine) (t : Tile) (p : Nat) (a b xa xb : Nat → Nat → Nat) : MatrixEngine :=
  let anew := !t.acc && p == 0
  let r := (List.range t.m).foldl (fun me i => (List.range t.n).foldl (fun (me : MatrixEngine) j =>
    let v := passEntry t.fa t.fb (t.left p) anew (a i) (b j) (xa i) (xb j) (me.accAt t.bank (t.e0 + i) (t.c0 + j))
    { me.setAcc t.bank (t.e0 + i) (t.c0 + j) v.1 with flags := me.flags.or v.2 }) me) me
  r.setType (t.fa == 10) t.bank t.e0 t.c0 t.m t.n

/-! ### The bounds of R146 -/

/-- The exact rational value of a finite number. -/
def numRat : Num → Option Rat
  | .fin neg m e =>
    let v : Rat := if e < 0 then (m : Rat) / ((2 ^ (-e).toNat : Nat) : Rat) else (m : Rat) * ((2 ^ e.toNat : Nat) : Rat)
    some (if neg then -v else v)
  | _ => none

/-- The rational value of an operand element with its scale. -/
def opRat (c code x : Nat) : Option Rat :=
  if fmtMx c && x == 255 then none
  else numRat (scaleNum (if fmtMx c then (x : Int) - 127 else 0) (if c = 10 then intNum (toSigned 8 code) else if c = 9 then opNum 9 code else numOf (fmtOf c) code))

def ratAbs (x : Rat) : Rat := if x < 0 then -x else x

/-- Whether a delivered entry is within the bound of R146: `ps` the operand pairs, `prior` what the entry held, `np` the
number of passes. -/
def withinBound (fa np : Nat) (ps : List (Option Rat × Option Rat)) (prior v : Num) : Bool :=
  let sums := ps.foldl (fun (acc : Option (Rat × Rat × Rat)) p =>
    match acc, p.1, p.2 with
    | some (c, sm, am), some x, some y => some (c + x * y, sm + ratAbs (x * y), am + (ratAbs x + ratAbs y))
    | _, _, _ => none) (some (0, 0, 0))
  match sums, numRat prior, numRat v with
  | some (c, sm, am), some q, some z =>
    let l : Rat := ((if fa = 11 then 68 * np else 17 * np : Nat) : Rat)
    let gamma := l / (((2 ^ 24 : Nat) : Rat) - l)
    let phi := if fa = 0 ∨ fa = 11 then am / ((2 ^ 126 : Nat) : Rat) else 0
    let psi := if fa = 11 then sm / ((2 ^ 14 : Nat) : Rat) + sm / ((2 ^ 30 : Nat) : Rat) else 0
    decide (ratAbs (z - (c + q)) ≤ gamma * (sm + ratAbs q) + phi + psi)
  | _, _, _ => false

/-- Where only the bounds are promised (R145), an entry is a free value inside its bound (assumption 24). DESIGN CHOICE: an
entry whose operands or result are not finite has no bound and keeps the result of the normal order (assumption 120). -/
def MatrixEngine.loosen (me : MatrixEngine) (t : Tile) (salt : Nat) (before : MatrixEngine) (a b xa xb : Nat → Nat → Nat → Nat) : MatrixEngine :=
  if t.fa = 10 then me
  else (List.range t.m).foldl (fun me i => (List.range t.n).foldl (fun (me : MatrixEngine) j =>
    let v := (Config.freeBounded (salt * 2 ^ 16 + 64 * i + j) (BitVec.ofNat 32 (me.accAt t.bank (t.e0 + i) (t.c0 + j)))).toNat
    let ps := (List.range t.passes).flatMap (fun p => (List.range (t.left p)).map (fun k =>
      (opRat t.fa (a p i k) (xa p i (k / 32)), opRat t.fb (b p j k) (xb p j (k / 32)))))
    let prior := if t.acc then numOf fFP32 (before.accAt t.bank (t.e0 + i) (t.c0 + j)) else Num.zero
    if withinBound t.fa t.passes ps prior (numOf fFP32 v) then me.setAcc t.bank (t.e0 + i) (t.c0 + j) v else me) me) me

/-- All passes of a tile (R116, R121). -/
def MatrixEngine.run_ (me : MatrixEngine) (t : Tile) (loose : Option Nat) (a b xa xb : Nat → Nat → Nat → Nat) : MatrixEngine :=
  let r := (List.range t.passes).foldl (fun me p => me.pass t p (a p) (b p) (xa p) (xb p)) me
  match loose with
  | none => r
  | some salt => r.loosen t salt me a b xa xb

/-! ### The output converter (R135 to R142) -/

/-- The control fields of a profile (R136). -/
def Profile.round (p : Profile) : Nat := bitsOf p.ctrl 1 0
def Profile.biasMode (p : Profile) : Nat := bitsOf p.ctrl 3 2
def Profile.clipEn (p : Profile) : Bool := bitOf p.ctrl 4
def Profile.ftz (p : Profile) : Bool := bitOf p.ctrl 5
def Profile.sat (p : Profile) : Bool := bitOf p.ctrl 6
def Profile.ceil (p : Profile) : Bool := bitOf p.ctrl 7

/-- Stages t to t + 5 for one column (R135): conversion, scale and bias, clip, flush. DESIGN CHOICE: the clip stage orders −0 below
+0, as `f32Less` does (assumption 118). -/
def cvtFront (p : Profile) (int : Bool) (x : Nat) (bias : Option Nat) : Nat × FFlags :=
  let c := if int then roundNum fFP32 .nearest false (intNum (toSigned 32 x)) else (x, {})
  let y := match bias with
    | none => f32Mul .nearest c.1 p.scale
    | some b => f32Fma .nearest c.1 p.scale b
  let isNan := match numOf fFP32 y.1 with | .nan _ => true | _ => false
  let lo := if f32Less y.1 p.clipLo then p.clipLo else y.1
  let z := if p.clipEn && !isNan then (if f32Less p.clipHi lo then p.clipHi else lo) else y.1
  let fl := c.2.or y.2
  if p.ftz && isSubnormal fFP32 z then (z / 2 ^ 31 * 2 ^ 31, fl.or { unf := true, inx := true }) else (z, fl)

/-- Narrows one value to a floating-point format (R139); with FTZ a tiny result becomes zero. -/
def narrow (f : FFmt) (rnd : Rnd) (sat ftz : Bool) (x : Num) : Nat × FFlags :=
  match x with
  | .fin neg m e => if ftz && (roundMag f rnd m e).tiny then (signCode f neg, { unf := true, inx := true }) else roundNum f rnd sat x
  | _ => roundNum f rnd sat x

/-- Narrows to an MXINT8 element (R128, R139). -/
def narrowMxInt (rnd : Rnd) (x : Num) : Nat × FFlags :=
  match x with
  | .fin neg m e =>
    let r := roundAt rnd m (e + 6) 0
    let q := min r.1 127
    (wrapInt 8 (if neg then -(q : Int) else q), { ovf := decide (r.1 > 127), inx := r.2 || decide (r.1 > 127) })
  | _ => (0, {})

/-- The exponent of the largest power of two not above the largest finite element value (R138). -/
def mxEmax (fo : Nat) : Int := if fo = 4 then 8 else if fo = 5 then 15 else if fo = 6 then 4 else if fo = 7 then 2 else if fo = 8 then 2 else 0

/-- The largest finite element value of an MX format. -/
def mxMax (fo : Nat) : Num := if fo = 9 then .fin false 127 (-6) else numOf (fmtOf fo) (fmtOf fo).maxCode

/-- The shared exponent of a block (R138): none when a value is a NaN or an infinity. -/
def sharedExp (fo : Nat) (ceil : Bool) (ys : List Nat) : Option Int :=
  if ys.any (fun y => !isFinite (numOf fFP32 y)) then none
  else
    let amax := (ys.map (fun y => y % 2 ^ 31)).foldl max 0
    match numOf fFP32 amax with
    | .fin _ m e =>
      if m = 0 then some (-127)
      else
        let x0 : Int := e + Nat.log2 m - mxEmax fo
        let x := if ceil ∧ cmpNum (scaleNum (-x0) (.fin false m e)) (mxMax fo) > 0 then x0 + 1 else x0
        some (max x (-127))
    | _ => none

/-- The rounding of stage t + 8 for a column (R136, R141, R142). -/
def Profile.rnd (p : Profile) (col n : Nat) : Rnd :=
  if p.round = 1 then .zero else if p.round = 2 then .draw (drawOf p.seed col n) else .nearest

/-- One drained entry (R135): the codes of its columns, the scale bytes of its blocks, the flags. `xs` holds each column's
accumulator and whether it is INT32, `bias` the bias of each column. -/
def cvtEntry (p : Profile) (fo c0 n : Nat) (xs : List (Nat × Bool)) (bias : Nat → Option Nat) : List Nat × List Nat × FFlags :=
  let fronts := xs.mapIdx (fun j x => if fo = 11 ∧ x.2 then (x.1, ({} : FFlags)) else cvtFront p x.2 x.1 (bias j))
  let fl := fronts.foldl (fun (f : FFlags) r => f.or r.2) {}
  let ys := fronts.map Prod.fst
  if fo = 11 then (ys, [], fl)
  else if fmtMx fo then
    let blocks := (List.range (cdiv ys.length 32)).map (fun b => sharedExp fo p.ceil ((ys.drop (32 * b)).take 32))
    let outs := ys.mapIdx (fun j y =>
      match blocks.getD (j / 32) none with
      | none => (0, ({} : FFlags))
      | some x =>
        let v := scaleNum (-x) (numOf fFP32 y)
        if fo = 9 then narrowMxInt (p.rnd (c0 + j) n) v else narrow (fmtOf fo) (p.rnd (c0 + j) n) true p.ftz v)
    (outs.map Prod.fst, blocks.map (fun x => match x with | none => 255 | some x => (x + 127).toNat), outs.foldl (fun (f : FFlags) r => f.or r.2) fl)
  else
    let outs := ys.mapIdx (fun j y =>
      if fo = 10 then numToInt (p.rnd (c0 + j) n) 8 true (numOf fFP32 y)
      else narrow (fmtOf fo) (p.rnd (c0 + j) n) p.sat p.ftz (numOf fFP32 y))
    (outs.map Prod.fst, [], outs.foldl (fun (f : FFlags) r => f.or r.2) fl)

/-- What a drain delivers: the codes of each entry and its scales (R113). -/
abbrev Drained := List (List Nat × List Nat)

/-- Drains a rectangle through a profile (R113, R135, R142): the entries are counted as draws, the flags accumulate. -/
def MatrixEngine.drain (me : MatrixEngine) (prof fo bank e0 c0 m n : Nat) (bias : Nat → Option Nat) : MatrixEngine × Drained :=
  let p := tblGet ({} : Profile) me.profiles prof
  (List.range m).foldl (fun (r : MatrixEngine × Drained) i =>
    let k := tblGet 0 r.1.draws prof
    let xs := (List.range n).map (fun j => (r.1.accAt bank (e0 + i) (c0 + j), r.1.isInt bank (e0 + i) (c0 + j)))
    let o := cvtEntry p fo c0 k xs bias
    ({ r.1 with draws := tblSet prof ((k + 1) % 2 ^ 32) r.1.draws, flags := r.1.flags.or o.2.2 }, r.2 ++ [(o.1, o.2.1)])) (me, [])

/-- Codes packed as an element stream of `bytes` bytes (R102). -/
def packCodes (w bytes : Nat) (cs : List Nat) : List Byte :=
  leBytes bytes (cs.foldr (fun c acc => c % 2 ^ w + 2 ^ w * acc) 0)

/-- Rows of an output slab (R140). -/
def slabRows (fo : Nat) : Nat := 512 / (8 * fmtBits fo)
/-- Slabs of an output unit with `h` entries (R116, R140). -/
def unitStride (fo h : Nat) : Nat := cdiv h (slabRows fo) + boolN (fmtMx fo)

def padTo (n : Nat) (bs : List Byte) : List Byte := bs ++ List.replicate (n - bs.length) 0

/-- The slabs of a drained unit, by slab of the unit (R140); `h` is the chunk height. -/
def unitSlabs (fo h : Nat) (d : Drained) : List (Nat × List Byte) :=
  let q := slabRows fo
  let rows := (List.range (cdiv d.length q)).map (fun i =>
    (i, padTo 512 (((d.drop (q * i)).take q).flatMap (fun r => packCodes (fmtBits fo) (8 * fmtBits fo) r.1))))
  if fmtMx fo then
    rows ++ [(cdiv h q, padTo 512 (d.flatMap (fun r => padTo 2 (r.2.map (BitVec.ofNat 8)))))]
  else rows

/-! ### The fold (R114 to R117) -/

/-- A unit of the fold: chunk, column group, its rows and columns. -/
structure MatUnit where
  c : Nat
  g : Nat
  m : Nat
  w : Nat
  deriving DecidableEq, Repr

/-- The units in order (R116). -/
def foldUnits (m n h : Nat) : List MatUnit :=
  (List.range (cdiv m h)).flatMap (fun c => (List.range (cdiv n 64)).map (fun g => ⟨c, g, min h (m - c * h), min 64 (n - 64 * g)⟩))

/-- The cycles of a fold that starts in cycle 0 (R117): of the unit before, its last input cycle, its drain's first cycle and its
height; `units` holds the first load, last input and first drain cycle of every unit. -/
structure FoldTime where
  e : Nat := 0
  d : Nat := 0
  m : Nat := 0
  units : List (Nat × Nat × Nat) := []
  /-- the cycle in which the drains before this unit have written their last slab -/
  wrote : Nat := 0
  deriving DecidableEq, Repr

def FoldTime.unit (t : FoldTime) (p s mx : Nat) (u : MatUnit) : FoldTime :=
  let first := t.units == []
  let l := if first then 0 else max (t.e + 1) (t.d - 67)
  let e := l + p * (32 + u.m * s) - 1
  let d := max (e + 37) (t.d + t.m)
  { e := e, d := d, m := u.m, units := t.units ++ [(l, e, d)], wrote := if first then 0 else t.d + t.m + 10 + mx }

/-- The cycles of a MATMUL's fold; the converter is busy with earlier records' drains before cycle `conv` (R113). -/
def foldTime (fa fo k conv : Nat) (us : List MatUnit) : FoldTime :=
  us.foldl (fun t u => t.unit (cdiv k (kPass fa)) (segCycles fa) (boolN (fmtMx fo)) u) ({ d := conv } : FoldTime)

/-- The cycle in which a MATMUL retires (R117). -/
def FoldTime.retire (t : FoldTime) (fo : Nat) (nodrain : Bool) : Nat :=
  if nodrain then max (t.e + 37) t.wrote else t.d + t.m + 10 + boolN (fmtMx fo)

/-- Last input cycle and retirement of a MATMUL that finds the converter free (R117). -/
def foldTimes (fa fo k : Nat) (nodrain : Bool) (us : List MatUnit) : Nat × Nat :=
  let t := foldTime fa fo k 0 us
  (t.e, t.retire fo nodrain)

end Sys2Proof.Machine
end

