-- ==== Sys2Proof/Machine/FarOps.lean ====
section
/-!
DEFINITION. The far cache's lines, victims, misses, write-backs, detectors and releases (08_far R230 to R243).
-/

namespace Sys2Proof.Machine

def fcSet (line : Nat) : Nat := line % 128

/-- The place of a context's line in the cache (R230). -/
def FarCache.place (fc : FarCache) (c line : Nat) : Option Nat :=
  ((List.range 8).map (fun w => 8 * fcSet line + w)).find? (fun p =>
    match tblFind p fc.lines with
    | some l => l.line == line && l.ctx == c
    | none => false)

def FarCache.at (fc : FarCache) (p : Nat) : FcLine := tblGet { line := 0, ctx := 0 } fc.lines p
def FarCache.put (fc : FarCache) (p : Nat) (l : FcLine) : FarCache := { fc with lines := tblSet p l fc.lines }

/-- The mask of `n` bytes from offset `off`. -/
def byteMask (off n : Nat) : BitVec 128 := BitVec.ofNat 128 ((2 ^ n - 1) * 2 ^ off)

/-! ### The pseudo-least-recently-used tree (R234): seven bits, node 0 the root, a bit that is 1 names the upper half -/

/-- The nodes on the path to a way, with the half the way lies in. -/
def plruPath (way : Nat) : List (Nat × Bool) :=
  [(0, bitOf way 2), (1 + way / 4, bitOf way 1), (3 + way / 2, bitOf way 0)]

/-- Sets a node of a tree. -/
def plruSet (t node : Nat) (b : Bool) : Nat :=
  if bitOf t node = b then t else if b then t + 2 ^ node else t - 2 ^ node

/-- A use of a way points every node on its path away from it; `away = false` points them at it. -/
def plruUse (t way : Nat) (away : Bool) : Nat :=
  (plruPath way).foldl (fun t p => plruSet t p.1 (p.2 != away)) t

/-- The victim among the ways that may be chosen. -/
def plruVictim (t : Nat) (ok : Nat → Bool) : Option Nat :=
  let half := fun (node : Nat) (lo hi : Option Nat) =>
    if bitOf t node then (match hi with | some w => some w | none => lo) else (match lo with | some w => some w | none => hi)
  let leaf := fun w => if ok w then some w else none
  let pair := fun i => half (3 + i) (leaf (2 * i)) (leaf (2 * i + 1))
  half 0 (half 1 (pair 0) (pair 1)) (half 2 (pair 2) (pair 3))

def FarCache.touch (fc : FarCache) (p : Nat) (away : Bool) : FarCache :=
  { fc with plru := tblSet (p / 8) (plruUse (tblGet 0 fc.plru (p / 8)) (p % 8) away) fc.plru }

/-! ### Errors (R243) -/

/-- Reads the sectors of a line that a mask touches: a corrected error is counted at every read; false when one is
uncorrectable. -/
def FarCache.sectors (fc : FarCache) (p : Nat) (m : BitVec 128) : FarCache × Bool :=
  (List.range 8).foldl (fun (r : FarCache × Bool) i =>
    if m &&& byteMask (16 * i) 16 = 0 then r
    else match tblFind (8 * p + i) r.1.bad with
      | none => r
      | some true => (r.1, false)
      | some false => ({ r.1 with ceCount := satAdd 0xFFFF r.1.ceCount 1 }, r.2)) (fc, true)

/-! ### Write-backs and allocation (R233 to R235) -/

def FarCache.wbBytes (l : FcLine) : List (Nat × Byte) :=
  ((List.range 128).filter (fun i => l.dirty.getLsbD i)).map (fun i => (i, memRead l.data i))

/-- Sends the dirty bytes of a line; the line stays, valid and clean (R235). The number of the write-back, or none when
16 are in flight (R234). -/
def FarCache.writeBack (fc : FarCache) (p : Nat) : Option (FarCache × Nat) :=
  if fc.wbs.length ≥ 16 then none
  else
    let l := fc.at p
    let wb : FcWb := { id := fc.nextId, line := l.line, ctx := l.ctx, slot := none, bytes := FarCache.wbBytes l }
    some ({ (fc.put p { l with dirty := 0 }) with wbs := fc.wbs ++ [wb], nextId := fc.nextId + 1 }, fc.nextId)

/-- Drops a line from the cache, with its error marks. -/
def FarCache.drop (fc : FarCache) (p : Nat) : FarCache :=
  { fc with lines := tblDrop p fc.lines, bad := fc.bad.filter (fun b => b.1 / 8 != p) }

/-- What an allocation answers: the instruction waits (R234), a dirty line met an uncorrectable error (R243), or the
place and the write-back that must be accepted first. -/
inductive Alloc where
  | wait
  | bad
  | at (fc : FarCache) (p : Nat) (after : Option Nat)
  deriving DecidableEq, Repr

/-- Allocates a line: a free way, else the victim of the tree among the ways with no fill pending; a dirty victim is
written back first (R234). The new line has no error marks. -/
def FarCache.alloc (fc : FarCache) (c line : Nat) (pending lru : Bool) : Alloc :=
  let s := fcSet line
  let free := (List.range 8).find? (fun w => (tblFind (8 * s + w) fc.lines).isNone)
  let way := match free with
    | some w => some w
    | none => plruVictim (tblGet 0 fc.plru s) (fun w => !(fc.at (8 * s + w)).pending)
  match way with
  | none => .wait
  | some w =>
    let p := 8 * s + w
    let fresh : FcLine := { line := line, ctx := c, pending := pending }
    if free.isSome ∨ (fc.at p).dirty = 0 then .at (((fc.drop p).put p fresh).touch p (!lru)) p none
    else
      let q := fc.sectors p (fc.at p).dirty
      if !q.2 then .bad
      else match q.1.writeBack p with
        | none => .wait
        | some (fc', id) => .at (((fc'.drop p).put p fresh).touch p (!lru)) p (some id)

/-- Merges bytes into a line; bytes that are dirty are kept when `fill` (R231). -/
def FcLine.merge (l : FcLine) (bs : List (Nat × Byte)) (fill : Bool) : FcLine :=
  bs.foldl (fun l x =>
    if fill && l.dirty.getLsbD x.1 then l
    else { l with data := memWrite l.data x.1 x.2, valid := l.valid ||| byteMask x.1 1
                  dirty := if fill then l.dirty else l.dirty ||| byteMask x.1 1 }) l

/-! ### Detectors (R236, R238) -/

/-- A store miss of a gang moves its streaming detector. -/
def FarCache.stream (fc : FarCache) (slot line : Nat) (full : Bool) : FarCache :=
  let d := tblGet ({} : StreamDet) fc.streams slot
  let d' : StreamDet := if full then { last := some line, run := if d.last = some (line - 1) ∧ line ≠ 0 then d.run + 1 else 1 }
    else { d with run := 0 }
  { fc with streams := tblSet slot d' fc.streams }

/-- The lines that a demand miss prefetches, and the detector's new state (R238). -/
def FarCache.stride (fc : FarCache) (slot line : Nat) : FarCache × List Nat :=
  let d := tblGet ({} : StrideDet) fc.strides slot
  let step : Int := match d.x0 with | some x => (line : Int) - x | none => 0
  let go := fc.ctrlNow.pfEn && d.x0.isSome && step == d.d && step != 0 && decide (step.natAbs ≤ fc.ctrlNow.pfStride)
  let ls := if go then ((List.range fc.ctrlNow.pfDist).map (fun (i : Nat) => (line : Int) + step * ((i : Int) + 1))).filter (fun x => decide (0 ≤ x)) else []
  ({ fc with strides := tblSet slot { x0 := some line, d := step } fc.strides }, ls.map Int.toNat)

/-- Starts one prefetch, within the limits of R238. -/
def State.prefetch (s : State) (core c line : Nat) : State :=
  let k := s.core core
  let fc := k.fc
  if (fc.place c line).isNone ∧ !(fc.misses.any (fun m => m.line == line && m.ctx == c)) ∧ fc.misses.length ≤ 56
     ∧ (fc.misses.filter (fun m => m.prefetch)).length < 16 ∧ (s.ctx c).farOk .r (128 * line) 128 then
    match fc.alloc c line true true with
    | .at fc' _ after =>
      s.setCore core ({ k with fc := { fc' with misses := fc'.misses ++ [({ line := line, ctx := c, parts := [], prefetch := true, after := after, seq := fc'.nextId } : FcMiss)], nextId := fc'.nextId + 1 } }.count 0x29 1)
    | _ => s
  else s

/-! ### Loads and stores by line -/

/-- What issuing one line's part answers. -/
inductive PartOut where
  | done (s : State)
  | stall
  | fault (s : State)

/-- Puts a load part's bytes into the registers of the gang. -/
def Gang.deliver (x : Gang) (p : LinePart) (data : Nat → Byte) : Gang :=
  (p.lanes.foldl (fun y l => loadLane y p.form l.1 ((List.range (2 ^ opxSz p.form)).map (fun i => data (l.2.1 + i)))) x).part p.load

/-- The bytes that a load part reads. -/
def LinePart.mask (p : LinePart) : BitVec 128 :=
  p.lanes.foldl (fun m l => m ||| byteMask l.2.1 (2 ^ opxSz p.form)) 0

/-- Whether a lane's bytes stand: of lanes that name the same location one does, and which is free (assumption 27). -/
def LinePart.stands (p : LinePart) (l : Nat × Nat × List Byte) : Bool :=
  match p.lanes.filter (fun m => m.2.1 == l.2.1) with
  | [] => true
  | [_] => true
  | cs => (cs.getD (Config.freeLane (128 * p.draw + l.2.1) % cs.length) l).1 == l.1

/-- The bytes a store part writes, by offset (R52). -/
def LinePart.bytes (p : LinePart) : List (Nat × Byte) :=
  (p.lanes.filter p.stands).flatMap (fun l => (List.range l.2.2.length).map (fun i => (l.2.1 + i, l.2.2.getD i 0)))

/-- The address of the part's lowest-numbered lane (02_gangs R64). -/
def LinePart.firstAddr (p : LinePart) : Nat := 128 * p.line + (p.lanes.head?.map (fun l => l.2.1)).getD 0

/-- The address of the part's lowest-numbered lane that has a byte in error (02_gangs R64, R65). -/
def LinePart.badAddr (p : LinePart) (bad : Nat → Bool) : Nat :=
  match p.lanes.find? (fun l => (List.range (2 ^ opxSz p.form)).any (fun i => bad (l.2.1 + i))) with
  | some l => 128 * p.line + l.2.1
  | none => p.firstAddr

/-- A load part as it waits for its line: with the bytes that the cache holds valid now (R231; 12_model R330). -/
def FarCache.forward (fc : FarCache) (c : Nat) (p : LinePart) : LinePart :=
  match fc.place c p.line with
  | some i => { p with fwd := ((List.range 128).filter (fun o => (fc.at i).valid.getLsbD o)).map (fun o => (o, memRead (fc.at i).data o)) }
  | none => p

/-- A byte of a waiting load part when its line's data arrives. -/
def LinePart.byte (p : LinePart) (data : List Byte) (o : Nat) : Byte := (tblFind o p.fwd).getD (data.getD o 0)

/-- A load may not join a miss entry: the entry is stale (R240), or a store of the core has gone around the cache to the
line since the entry was taken (12_model R330). -/
def FarCache.noJoin (fc : FarCache) (m : FcMiss) : Bool :=
  m.stale || fc.wbs.any (fun w => w.line == m.line && w.slot.isSome && decide (m.seq ≤ w.id))

/-- Issues one line of an LD (R232, R237, R238, R240). Every demand miss moves the gang's stride detector. -/
def State.ldPart (s : State) (core c : Nat) (p : LinePart) : PartOut :=
  let k := s.core core
  let fc := k.fc
  let pl := fc.place c p.line
  let hit := match pl with | some i => (p.mask &&& ~~~(fc.at i).valid) == 0 | none => false
  if hit then
    match pl with
    | none => .stall
    | some i =>
      let q := fc.sectors i p.mask
      if q.2 then
        let k := ({ k with fc := q.1.touch i true }.count 0x24 1)
        .done (s.setCore core (k.setGang p.slot ((k.gang p.slot).deliver p (fun o => memRead (fc.at i).data o))))
      else .fault ((s.setCore core { k with fc := q.1 }).insnFault core p.insn .uncorrEcc
        (p.badAddr (fun o => tblFind (8 * i + o / 16) fc.bad == some true)))
  else if fc.misses.any (fun m => m.line == p.line && m.ctx == c && fc.noJoin m) then .stall
  else
    let r := fc.stride p.slot p.line
    let q := fc.forward c p
    let missed := fun (fc' : FarCache) =>
      PartOut.done (r.2.foldl (fun t l => t.prefetch core c l) (s.setCore core ({ k with fc := fc' }.count 0x25 1)))
    let start := fun (fc' : FarCache) (noAlloc : Bool) (after : Option Nat) =>
      missed { fc' with misses := fc'.misses ++ [({ line := p.line, ctx := c, parts := [q], noAlloc := noAlloc, after := after, seq := fc'.nextId } : FcMiss)]
                        nextId := fc'.nextId + 1 }
    if fc.misses.any (fun m => m.line == p.line && m.ctx == c) then
      missed { r.1 with misses := fc.misses.map (fun m => if m.line = p.line ∧ m.ctx = c then { m with parts := m.parts ++ [q], prefetch := false } else m) }
    else if fc.misses.length ≥ 64 then .stall
    else if opxNa p.form then start r.1 true none
    else match pl with
    | some i => start (r.1.put i { r.1.at i with pending := true }) false none
    | none =>
      match r.1.alloc c p.line true false with
      | .wait => .stall
      | .bad => .fault (s.gangFault core p.slot .uncorrEcc (128 * p.line))
      | .at fc' _ after => start fc' false after

/-- The PCI Express address of a host-window address of a context (01_module R21). -/
def Ctx.hostAddr (x : Ctx) (a : Nat) : Nat := a % 2 ^ 47 + 2 ^ 47 * x.hostHi

/-- A host store with one more line: one page check for each 4 KiB page (R239). -/
def HostStore.add (h : HostStore) (page : Nat) : HostStore :=
  { h with pages := if h.pages.contains page then h.pages else h.pages ++ [page] }

/-- One line of an ST to the host window (R239): a resident line is updated without becoming dirty, and the bytes are
posted to the host; the checks of the ST's pages complete it. -/
def State.stHost (s : State) (core c : Nat) (p : LinePart) : PartOut :=
  let k := s.core core
  let x := k.gang p.slot
  let fc := match k.fc.place c p.line with
    | some i => k.fc.put i ((k.fc.at i).merge p.bytes true)
    | none => k.fc
  let base := (s.ctx c).hostAddr (128 * p.line)
  let s := s.hostBytes (p.bytes.map (fun b => (base + b.1, b.2)))
  let mine := fun (h : HostStore) => h.slot == p.slot && h.uid == x.uid && h.load == p.load
  if fc.hostStores.any mine then
    .done (s.setCore core { k with fc := { fc with hostStores := fc.hostStores.map (fun h => if mine h then h.add (base / 4096) else h) } })
  else
    let st : HostStore := { id := fc.nextId, slot := p.slot, uid := x.uid, load := p.load, ctx := c, pages := [base / 4096] }
    .done (s.setCore core ({ k with fc := { fc with hostStores := fc.hostStores ++ [st], nextId := fc.nextId + 1 } }.setGang p.slot
      { x with stores := x.stores + 1 }))

/-- One line of an ST to far memory (R233, R236, R237). -/
def State.stFar (s : State) (core c : Nat) (p : LinePart) : PartOut :=
  let k := s.core core
  let fc := k.fc
  match fc.place c p.line with
  | some i => .done (s.setCore core ({ k with fc := (fc.put i ((fc.at i).merge p.bytes false)).touch i true }.count 0x26 1))
  | none =>
    let full := (p.bytes.foldl (fun m b => m ||| byteMask b.1 1) (0 : BitVec 128)) == BitVec.allOnes 128
    let fc1 := fc.stream p.slot p.line full
    let run := (tblGet ({} : StreamDet) fc1.streams p.slot).run
    let streaming := fc.ctrlNow.streamEn && decide (run ≥ fc.ctrlNow.streamRun) && full
    if opxNa p.form ∨ streaming then
      (if fc.wbs.length ≥ 16 then .stall
       else
         let x := k.gang p.slot
         let wb : FcWb := { id := fc1.nextId, line := p.line, ctx := c, slot := some p.insn, bytes := p.bytes }
         let k := { k with fc := { fc1 with wbs := fc1.wbs ++ [wb], nextId := fc1.nextId + 1 } }
         .done (s.setCore core ((k.setGang p.slot { x with stores := x.stores + 1 }).count 0x28 1)))
    else
      match fc1.alloc c p.line false false with
      | .wait => .stall
      | .bad => .fault (s.gangFault core p.slot .uncorrEcc (128 * p.line))
      | .at fc' i _ =>
        .done (s.setCore core ({ k with fc := fc'.put i ((fc'.at i).merge p.bytes false) }.count 0x26 1))

/-- Issues one line of an LD or ST. -/
def State.linePart (s : State) (core c : Nat) (p : LinePart) : PartOut :=
  if p.store then (if 128 * p.line ≥ hostBase then s.stHost core c p else s.stFar core c p)
  else s.ldPart core c p

/-- Issues the lines that are left, in order, until one stalls (R52): the state, and whether none is left. -/
def State.pumpParts (core c slot : Nat) : List LinePart → State → State × Bool
  | [], s => (s.modGang core slot (fun x => { x with todo := [] }), true)
  | p :: rest, s =>
    match s.linePart core c p with
    | .done t => State.pumpParts core c slot rest t
    | .stall => (s.modGang core slot (fun x => { x with todo := p :: rest }), false)
    | .fault t => (t, false)

/-! ### Releases and acquires (R240, R241) -/

/-- A release sends write-backs of the lines left to it while fewer than 16 are in flight (R241): of a line that has
been written back since, it waits for what is still in flight. The numbers of lines whose dirty sectors hold an
uncorrectable error, none of which is written (R243), come back last. -/
def FarCache.pumpRelease (fc : FarCache) (r : FcRelease) : Nat → FarCache × FcRelease × List Nat
  | 0 => (fc, r, [])
  | n + 1 =>
    match r.todo with
    | [] => (fc, r, [])
    | l :: rest =>
      let gone : FcRelease := { r with todo := rest, wait := r.wait ++ (fc.wbs.filter (fun w => w.ctx == r.ctx && w.line == l)).map FcWb.id }
      match fc.place r.ctx l with
      | none => FarCache.pumpRelease fc gone n
      | some p =>
        if (fc.at p).dirty = 0 then FarCache.pumpRelease fc gone n
        else
          let q := fc.sectors p (fc.at p).dirty
          if q.2 then
            match q.1.writeBack p with
            | none => (fc, r, [])
            | some (fc', id) => FarCache.pumpRelease fc' { gone with wait := gone.wait ++ [id] } n
          else
            let a := FarCache.pumpRelease q.1 gone n
            (a.1, a.2.1, l :: a.2.2)

/-- Every release under way goes on; the lines in error come back. -/
def FarCache.pumpAll (fc : FarCache) : FarCache × List Nat :=
  let q := fc.releases.foldl (fun (a : FarCache × List FcRelease × List Nat) r =>
    let b := a.1.pumpRelease r (r.todo.length + 1)
    (b.1, a.2.1 ++ [b.2.1], a.2.2 ++ b.2.2)) (fc, [], [])
  ({ q.1 with releases := q.2.1 }, q.2.2)

/-- A MODULE or SYSTEM release begins (R240, R241): every dirty line of the context is to be written back; every
write-back and write-around of the context in flight is waited for, and at SYSTEM scope every host store. -/
def FarCache.release (fc : FarCache) (unit c : Nat) (system : Bool) : FarCache :=
  let r : FcRelease := { unit := unit, ctx := c
                         todo := (fc.lines.filter (fun l => l.2.ctx == c && l.2.dirty != 0)).map (fun l => l.2.line)
                         wait := (fc.wbs.filter (fun w => w.ctx == c)).map FcWb.id
                         hosts := if system then (fc.hostStores.filter (fun h => h.ctx == c)).map HostStore.id else [] }
  { fc with releases := fc.releases ++ [r] }

/-- The releases of a core go on; a line in error kills the context (R243). -/
def State.pumpFar (s : State) (core : Nat) : State :=
  let q := (s.core core).fc.pumpAll
  q.2.foldl (fun t l => t.coreFault core .uncorrEcc (128 * l)) (s.modCore core (fun k => { k with fc := q.1 }))

/-- A release of a gang or queue begins at the far cache of its core. -/
def State.farRelease (s : State) (core unit c : Nat) (system : Bool) : State :=
  (s.modCore core (fun k => { k with fc := k.fc.release unit c system })).pumpFar core

/-- A release has nothing left to wait for. -/
def FarCache.released (fc : FarCache) (r : FcRelease) : Bool :=
  r.todo.isEmpty && !(fc.wbs.any (fun w => r.wait.contains w.id)) && !(fc.hostStores.any (fun h => r.hosts.contains h.id))

/-- A miss entry's request has left the core: no write-back has to be accepted before it (R234, R240). -/
def FarCache.sent (fc : FarCache) (m : FcMiss) : Bool := !(fc.wbs.any (fun w => some w.id == m.after))

/-- A MODULE or SYSTEM acquire (R240): clean bytes become invalid, a line with none left is free, and the fills in flight
become stale; a miss entry whose request has not left keeps its line. -/
def FarCache.acquire (fc : FarCache) (c : Nat) : FarCache :=
  let keeps := fun (line : Nat) => fc.misses.any (fun m => m.line == line && m.ctx == c && !m.noAlloc && !fc.sent m)
  { fc with
    lines := (fc.lines.map (fun l => if l.2.ctx = c then (l.1, { l.2 with valid := l.2.dirty, pending := l.2.pending && keeps l.2.line }) else l)).filter
      (fun l => l.2.ctx != c || l.2.valid != 0 || l.2.pending)
    misses := fc.misses.map (fun m => if m.ctx = c ∧ fc.sent m then { m with stale := true } else m) }

/-- Drops every line of a context without writing it (R242). -/
def FarCache.flush (fc : FarCache) (c : Nat) : FarCache :=
  { fc with lines := fc.lines.filter (fun l => l.2.ctx != c), misses := fc.misses.filter (fun m => m.ctx != c)
            hostStores := fc.hostStores.filter (fun h => h.ctx != c), releases := fc.releases.filter (fun r => r.ctx != c) }

end Sys2Proof.Machine
end

