-- ==== Sys2Proof/Machine/SyncOps.lean ====
section
/-!
DEFINITION. Tallies, tokens and the retirement of records (09_queues R251, R256 to R259; 11_tallies R306 to R315;
19_debug_test R515 to R521).
-/

namespace Sys2Proof.Machine

/-! ### Trace (19_debug_test R519 to R521) -/

/-- The EPOCH record that begins every half, and the LOST record after a loss. -/
def traceOpen (now c : Nat) (lost : Nat) : List W64 :=
  let w0 := fun kind => wordOf (now % 2 ^ 40 + 2 ^ 40 * kind + 2 ^ 46 * (c % 1024))
  [w0 1, wordOf (now / 2 ^ 40 % 2 ^ 24)] ++ (if lost = 0 then [] else [w0 6, wordOf (lost % 2 ^ 32)])

/-- A trace record: with both halves full it is dropped and counted (R521). -/
def Core.traceRec (k : Core) (now c e kind data : Nat) : Core :=
  let d := k.dbg
  if d.trace.en && bitOf d.trace.eng e then
    if d.buf.length ≥ 256 ∧ d.drain ≠ [] then
      { k with dbg := { d with traceLost := satAdd 0xFFFFFFFF d.traceLost 1, lost := d.lost + 1 } }.count 0x3A 1
    else
      let d := if d.buf.length ≥ 256 then { d with drain := d.buf, buf := [] } else d
      let d := if d.buf = [] then { d with buf := traceOpen now c d.lost, lost := 0 } else d
      let w0 := wordOf (now % 2 ^ 40 + 2 ^ 40 * kind + 2 ^ 44 * e + 2 ^ 46 * (c % 1024))
      { k with dbg := { d with buf := d.buf ++ [w0, wordOf data] } }.count 0x39 1
  else k

/-! ### Counter records (R515 to R517) -/

def Core.flagsOf (k : Core) (e : Nat) : FFlags :=
  if e = 0 then k.ge.flags else if e = 1 then k.me.flags else (k.mv e).flags

/-- The iteration index of the innermost enclosing LOOP. -/
def Queue.iter (q : Queue) : Nat := match q.loops with | [] => 0 | l :: _ => l.count - l.left

/-- A counter record (R515). -/
def crecWords (k : Core) (now c e : Nat) (end_ : Bool) (opc slot iter : Nat) : CRec :=
  let w0 := now % 2 ^ 40 + 2 ^ 40 * boolN end_ + 2 ^ 41 * (k.flagsOf e).bits + 2 ^ 45 * (opc % 256) + 2 ^ 53 * e
  let w1 := slot + 2 ^ 12 * (c % 1024) + 2 ^ 22 * (k.dbg.selGen % 256) + 2 ^ 32 * (iter % 2 ^ 32)
  let n := (List.range 8).foldl (fun a i => a + tblGet 0 k.dbg.counters i * 2 ^ (48 * i)) 0
  [wordOf w0, wordOf w1] ++ (List.range 6).map (fun j => wordOf (n / 2 ^ (64 * j)))

/-- The engine latches a counter record, and queues its write when the queue has a CREC_BASE (R516). -/
def Core.latch (k : Core) (now c e : Nat) (end_ : Bool) (opc slot : Nat) : Core :=
  let k := k.countErrors
  let q := k.queue e
  let ws := crecWords k now c e end_ opc slot q.iter
  let d := { k.dbg with last := tblSet (2 * e + boolN end_) ws k.dbg.last }
  let d := if q.crecBase = 0 then d
    else { d with writes := d.writes ++ [{ eng := e, slot := slot, end_ := end_, ctx := c
                                           addr := q.crecBase + 128 * slot + 64 * boolN end_, words := ws }] }
  { k with dbg := d }

/-- A record of this queue finds no room for its counter record (R517). -/
def Core.crecFull (k : Core) (e : Nat) : Bool := (k.queue e).crecBase != 0 && decide (k.dbg.writes.length ≥ 16)

/-! ### Queue indices (R251, R254, R268, R269) -/

/-- Slots from `a` forward to `b` on the ring. -/
def Queue.dist (q : Queue) (a b : Nat) : Nat := (b + q.size - a % q.size) % q.size

/-- The oldest slot that on-chip copies must keep: the outermost active loop's body, else the next record. -/
def Queue.keep (q : Queue) : Nat := match q.loops.getLast? with | some l => l.first | none => q.next

/-- How far HEAD can advance: past every slot before the oldest record in flight, the outermost active loop, the next
record and the end counter records not yet written (R251, R256, R269, R517). -/
def Queue.headMove (q : Queue) (writes : List CRecWrite) (e : Nat) : Nat :=
  (q.flight.map (fun f => q.dist q.head f.slot)
    ++ (writes.filter (fun w => w.eng == e && w.end_)).map (fun w => q.dist q.head w.slot)
    ++ q.loops.map (fun l => q.dist q.head l.first)).foldl min (q.dist q.head q.next)

/-- HEAD moves as far as it can; the slots it passes are counted for the context's reference batches (R361). -/
def State.moveHead (s : State) (core e : Nat) : State :=
  let k := s.core core
  let q := k.queue e
  let d := q.headMove k.dbg.writes e
  let s := s.setQueue core e { q with head := (q.head + d) % q.size }
  match k.ctx with
  | none => s
  | some c => s.modCtx c (fun x => { x with passed := tblSet (4 * core + e) (tblGet 0 x.passed (4 * core + e) + d) x.passed })

/-- The back edges of the loops that end at the slot now next (R269). -/
def loopEdges (nxt : Nat) : List QLoop → List QLoop × Nat
  | [] => ([], nxt)
  | l :: t =>
    if l.stop = nxt then
      (if l.left > 1 then ({ l with left := l.left - 1 } :: t, l.first) else loopEdges nxt t)
    else (l :: t, nxt)

/-- The queue goes past `n` slots: loop edges, then the on-chip copies no loop needs are dropped. -/
def Queue.pass (q : Queue) (n : Nat) : Queue :=
  let r := loopEdges ((q.next + n) % q.size) q.loops
  let q := { q with loops := r.1, next := r.2 }
  { q with onchip := q.onchip.dropWhile (fun o => o.1 != q.keep) }

/-! ### Tallies (11_tallies R304 to R312) -/

def State.tallyAt (s : State) (h : Home) : TallySlot :=
  if h.hub then let t := tblGet ({} : HubSlot) s.hub.tallies h.slot; { value := t.value, sat := t.sat }
  else tblGet {} (s.core h.core).tally.slots h.slot

def State.setTally (s : State) (h : Home) (t : TallySlot) : State :=
  if h.hub then
    let u := tblGet ({} : HubSlot) s.hub.tallies h.slot
    { s with hub := { s.hub with tallies := tblSet h.slot { u with value := t.value, sat := t.sat } s.hub.tallies } }
  else s.modCore h.core (fun k => { k with tally := { k.tally with slots := tblSet h.slot t k.tally.slots } })

/-- HOME of the post-mortem record (13_contexts R369). -/
def Home.code (h : Home) : Nat := h.slot + (if h.hub then 2 ^ 23 else 2 ^ 12 * h.core)

/-- The home of a virtual id of a context, if the plan maps it (R305). -/
def Ctx.home (x : Ctx) (vid : Nat) : Option Home := tblFind vid x.tmap

def State.watchesAt (s : State) (h : Home) : List Watch := if h.hub then s.hub.watches else (s.core h.core).tally.watches

def State.setWatches (s : State) (h : Home) (ws : List Watch) : State :=
  if h.hub then { s with hub := { s.hub with watches := ws } }
  else s.modCore h.core (fun k => { k with tally := { k.tally with watches := ws } })

/-- A wait's condition holds (R307); a saturated tally satisfies no wait (R310). -/
def TallySlot.reached (t : TallySlot) (threshold : Nat) : Bool := !t.sat && decide (t.value ≥ threshold)

/-- The home tests its watches and answers those whose condition holds with a wake (R307). -/
def State.fire (s : State) (h : Home) : State :=
  let v := s.tallyAt h
  let ws := s.watchesAt h
  let hit := ws.filter (fun w => w.home == h && v.reached w.threshold)
  let t := s.setWatches h (ws.filter (fun w => !(w.home == h && v.reached w.threshold)))
  { t with net := { t.net with wakes := t.net.wakes ++ hit.map (fun w => { who := w.who, idx := w.idx, serial := w.serial, ctx := w.ctx }) } }

/-- A tally operation leaves its queue or gang for its home; it reaches a home on its own core in the next cycle
(R306). -/
def State.sendTally (s : State) (m : TallyMsg) : State := { s with net := { s.net with tally := s.net.tally ++ [m] } }

/-! ### Tokens (R313 to R315) -/

/-- Adds a token; a counter at 32,767 stays there and the context is killed (R314). -/
def State.addToken (s : State) (c core cls qid slot : Nat) : State :=
  let n := tblGet 0 (s.core core).tally.tokens cls
  if n ≥ 32767 then
    let s := s.raise c { cause := .tallySat, core := core, engine := 6, qid := qid, slot := slot
                         tally := cls + 2 ^ 12, home := cls + 2 ^ 12 * core }
    let s := s.tail (hubRing 0) 0x0D c none (cls + 2 ^ 12) (cls + 2 ^ 12 * core) 0
    if qid < 5120 then s.tail (ringOf (qid / 4) (qid % 4)) 0x0D c none (cls + 2 ^ 12) (cls + 2 ^ 12 * core) 0 else s
  else s.modCore core (fun k => { k with tally := { k.tally with tokens := tblSet cls (n + 1) k.tally.tokens } })

/-- A record's core produces a token: counted here, or sent to the core that its routing entry names (R313, R315). -/
def State.produceToken (s : State) (c core e slot cls : Nat) : State :=
  let r := tblGet ({} : TokRoute) (s.core core).tally.routes cls
  if r.outCore = core then s.addToken c core cls (4 * core + e) slot
  else { s with net := { s.net with tokens := s.net.tokens ++ [{ ctx := c, core := r.outCore, cls := cls, qid := 4 * core + e, slot := slot }] } }

/-! ### Retirement (09_queues R256, R257, R259) -/

/-- A record retires now: end counter record, tailings, trace, tokens, completion tally, HEAD. -/
def State.retireNow (s : State) (core e : Nat) (fl : Flight) : State :=
  match (s.core core).ctx with
  | none => s
  | some c =>
    let s := s.modQueue core e (fun q => { q with flight := q.flight.filter (fun g => g.id != fl.id) })
    let q := s.queue core e
    let s := s.modCore core (fun k => ((k.latch s.now c e true fl.opc fl.slot).count 0x32 1))
    let s := s.tail (ringOf core e) 2 c none (fl.slot + 2 ^ 12 * fl.opc + 2 ^ 32 * q.iter) (fl.words.getD 1 0).toNat (fl.words.getD 2 0).toNat
    let s := if bitOf (s.core core).dbg.trace.lvl 1
      then s.modCore core (fun k => k.traceRec s.now c e 4 (fl.slot + 2 ^ 12 * fl.opc + 2 ^ 32 * q.iter)) else s
    -- a LOOP's token and completion tally fields are ignored (R268)
    let s := if fl.opc = 5 then s else (recProduces fl.words).foldl (fun t cls => t.produceToken c core e fl.slot cls) s
    let s := if fl.opc = 5 then s else match recTally fl.words with
      | none => s
      | some vid => match (s.ctx c).home vid with
        | none => s
        | some h => s.sendTally { ctx := c, vid := vid, home := h, src := ⟨core, 16 + e⟩, act := .add 1, qid := 4 * core + e, slot := fl.slot }
    s.moveHead core e

/-- A record retires, or waits to retire while its counter record finds no room (19_debug_test R517). -/
def State.retire (s : State) (core e id : Nat) : State :=
  let q := s.queue core e
  match q.flight.find? (fun f => f.id == id) with
  | none => s
  | some fl =>
    if (s.core core).crecFull e then
      s.setQueue core e { q with toRetire := if q.toRetire.contains id then q.toRetire else q.toRetire ++ [id] }
    else s.retireNow core e fl

/-- The records that waited to retire do so while there is room (R517). -/
def State.retireLate (s : State) (core e : Nat) : State :=
  (s.queue core e).toRetire.foldl (fun t id =>
    if (t.core core).crecFull e then t
    else (t.modQueue core e (fun q => { q with toRetire := q.toRetire.filter (fun i => i != id) })).retire core e id) s

/-! ### Waits (R263, R266, R307) -/

/-- The tallies a blocked record waits on. -/
def QBlock.waits : QBlock → List TWait
  | .wait w => [w]
  | .barrier ws _ _ => ws
  | _ => []

def QBlock.setWaits (b : QBlock) (ws : List TWait) : QBlock :=
  match b with
  | .wait w => .wait (ws.headD w)
  | .barrier _ u a => .barrier ws u a
  | x => x

/-- The end of a record's wait: tailings and trace. -/
def State.waitEnd (s : State) (core e c : Nat) (slot : Nat) (start : Nat) (tag kind : Nat) (thr seen : Nat) (expired : Bool) : State :=
  let s := s.tail (ringOf core e) 4 c none (slot + 2 ^ 12 * tag + 2 ^ 24 * kind + 2 ^ 26 * boolN expired) (thr % 2 ^ 32 + 2 ^ 32 * (seen % 2 ^ 32)) 0
  if bitOf (s.core core).dbg.trace.lvl 2
  then s.modCore core (fun k => k.traceRec s.now c e 5 (slot + 2 ^ 12 * boolN expired + 2 ^ 32 * (min 0xFFFFFFFF (s.now - start)))) else s

/-- A record begins to wait: the WAIT_BEGIN entry (19_debug_test R525). -/
def State.waitBegin (s : State) (core e c slot tag kind thr seen tmo : Nat) : State :=
  s.tail (ringOf core e) 3 c none (slot + 2 ^ 12 * tag + 2 ^ 24 * kind) (thr % 2 ^ 32 + 2 ^ 32 * (seen % 2 ^ 32)) tmo

/-- The tally waits of a BARRIER are over: a WAIT_END entry for each. -/
def State.tallyEnds (s : State) (core e c slot : Nat) (ws : List TWait) : State :=
  ws.foldl (fun t w => t.tail (ringOf core e) 4 c none (slot + 2 ^ 12 * w.vid) (w.threshold % 2 ^ 32 + 2 ^ 32 * (w.seen % 2 ^ 32)) 0) s

/-- A blocked record goes on once its tallies are reached: a WAIT retires; a BARRIER arrives at its unit, or retires
when it names none. -/
def State.progress (s : State) (core e : Nat) : State :=
  let q := s.queue core e
  let c := ((s.core core).ctx).getD 0
  let slot := ((q.flight.find? (fun f => f.id == q.blockId)).map Flight.slot).getD 0xFFF
  match q.block with
  | .wait w =>
    if w.done then ((s.setQueue core e { q with block := .none }).waitEnd core e c slot q.blockStart w.vid 0 w.threshold w.seen false).retire core e q.blockId
    else s
  | .barrier ws u arrived =>
    if ws.all TWait.done then
      match u with
      | none => ((s.setQueue core e { q with block := .none }).tallyEnds core e c slot ws).retire core e q.blockId
      | some unit =>
        if arrived then s
        else
          let tmo := ((q.flight.find? (fun f => f.id == q.blockId)).map (fun f => wbits f.words 2 55 32)).getD 0
          let t := ((s.setQueue core e { q with block := .barrier ws u true }).tallyEnds core e c slot ws).waitBegin core e c slot unit 2
            (tblGet ({} : BarUnit) s.hub.units unit).gen 0 tmo
          { t with net := { t.net with arrivals := t.net.arrivals ++ [{ ctx := c, unit := unit, qid := 4 * core + e, gen := 0 }] } }
    else s
  | _ => s

/-- The tally of this home is now `v`: a wait on it is done when its threshold is reached (R307). -/
def TWait.test (h : Home) (v : TallySlot) (w : TWait) : TWait :=
  if w.home = h ∧ w.begun then { w with seen := v.value, done := w.done || v.reached w.threshold } else w

/-- The waits of the core's own queues and gangs on a tally of this core are tested in every cycle (R307). -/
def State.pokeLocal (s : State) (h : Home) : State :=
  if h.hub then s
  else
    let v := s.tallyAt h
    let s := (List.range 4).foldl (fun t e =>
      let q := t.queue h.core e
      (t.setQueue h.core e { q with block := q.block.setWaits (q.block.waits.map (TWait.test h v)) }).progress h.core e) s
    (List.range 16).foldl (fun t sl =>
      let g := t.gang h.core sl
      match g.wait with
      | .tally vid thr _ _ _ =>
        let c := ((t.core h.core).ctx).getD 0
        if (t.ctx c).home vid = some h ∧ v.reached thr then
          (t.setGang h.core sl g.wake).tail (ringOf h.core 0) 4 c (some sl) (0xFFF + 2 ^ 12 * vid) (thr % 2 ^ 32 + 2 ^ 32 * v.value) 0
        else t
      | _ => t) s

/-- An increment takes effect at the home (R310): an exact sum of 0xFFFF_FFFF or more saturates, sets SAT and kills the
owning context. -/
def State.addTally (s : State) (m : TallyMsg) (n : Nat) : State :=
  let t := s.tallyAt m.home
  if t.value + n ≥ 0xFFFFFFFF then
    let s := s.setTally m.home { value := 0xFFFFFFFF, sat := true }
    let s := s.raise m.ctx { cause := .tallySat, core := if m.home.hub then 0xFFFF else m.home.core
                             engine := if m.home.hub then 4 else 6, gang := m.gang, npc := m.npc, qid := m.qid, slot := m.slot
                             tally := m.vid + 2 ^ 13, home := m.home.code }
    let s := s.tail (hubRing 0) 0x0D m.ctx none m.vid m.home.code 0
    if m.qid < 5120 then s.tail (ringOf (m.qid / 4) (m.qid % 4)) 0x0D m.ctx none m.vid m.home.code 0 else s
  else s.setTally m.home { t with value := t.value + n }

/-- DELTA as a REBASE applies it (R267, R278): at most the smaller of the two values. -/
def State.rebaseDelta (s : State) (h1 h2 : Home) (delta : Nat) : Nat := min delta (min (s.tallyAt h1).value (s.tallyAt h2).value)

/-- REBASE (R267, R311): DELTA is clamped to the smaller value, and the thresholds of the waits that have begun go down
with the tallies. -/
def State.rebaseTally (s : State) (h1 h2 : Home) (delta : Nat) : State :=
  let a := s.tallyAt h1
  let b := s.tallyAt h2
  let d := s.rebaseDelta h1 h2 delta
  let s := (s.setTally h1 { a with value := a.value - d }).setTally h2 { b with value := b.value - d }
  let s := s.setWatches h1 ((s.watchesAt h1).map (fun w => if w.home = h1 ∨ w.home = h2 then { w with threshold := w.threshold - d } else w))
  if h1.hub then s
  else
    let low := fun (w : TWait) => if (w.home = h1 ∨ w.home = h2) ∧ w.begun then { w with threshold := w.threshold - d } else w
    let s := (List.range 4).foldl (fun t e =>
      let q := t.queue h1.core e
      t.setQueue h1.core e { q with block := q.block.setWaits (q.block.waits.map low) }) s
    (List.range 16).foldl (fun t sl =>
      let g := t.gang h1.core sl
      match g.wait with
      | .tally vid thr st tmo ser =>
        let hm := ((t.core h1.core).ctx).bind (fun c => (t.ctx c).home vid)
        if hm = some h1 ∨ hm = some h2 then t.setGang h1.core sl { g with wait := .tally vid (thr - d) st tmo ser } else t
      | _ => t) s

/-- An increment from another module (R319): applied at the home, added at the memory controller to the saved value of
a context that is away (08_far R223, R224), or dropped and counted. -/
def State.remoteAdd (s : State) (c vid n : Nat) : State :=
  let x := s.ctx c
  let drop := { s with hub := { s.hub with tdrop := tblSet c (satAdd 0xFFFFFFFF (tblGet 0 s.hub.tdrop c) 1) s.hub.tdrop } }
  match x.home vid with
  | none => drop
  | some h =>
    if x.killing then drop
    else if x.state = .placed then
      s.sendTally { ctx := c, vid := vid, home := h, src := ⟨0xFFFF, 20⟩, act := .add n }
    else if x.state = .suspended ∨ (x.state = .ready ∧ x.preserve ∧ x.switches > 0) then
      let a := x.save + 4 * vid
      let r := s.farRead a 4
      match r.2 with
      | none => r.1.raise c { cause := .uncorrEcc, addr := a }
      | some old =>
        let v := ofLe old + n
        let t := (r.1.farWrite a (leBytes 4 (min v 0xFFFFFFFF))).1
        if v ≥ 0xFFFFFFFF then
          t.raise c { cause := .tallySat, core := if h.hub then 0xFFFF else h.core, engine := if h.hub then 4 else 6
                      tally := vid + 2 ^ 13, home := h.code }
        else t
    else drop

/-- The timeout that applies: 0 selects the site default, and 10 s is the most (R258, R278). -/
def State.tmoNs (s : State) (us : Nat) : Nat := 1000 * (if us = 0 then s.waitUs else min us 10000000)

end Sys2Proof.Machine
end

