-- ==== Sys2Proof/Machine/LinkOps.lean ====
section
/-!
DEFINITION. Sending frames: lanes, credits, the retry buffer, routes, jobs, claims and signal streams (15_haul_twin
R403 to R414).
-/

namespace Sys2Proof.Machine

def State.port (s : State) (p : Nat) : Port := tblGet {} s.links.ports p
def State.setPort (s : State) (p : Nat) (x : Port) : State := { s with links := { s.links with ports := tblSet p x s.links.ports } }
def State.modLinks (s : State) (f : Links → Links) : State := { s with links := f s.links }
def State.modTwin (s : State) (f : Twin → Twin) : State := { s with links := { s.links with twin := f s.links.twin } }

/-- The twin port. -/
def twinPort : Nat := 16

/-- Payload bytes of a frame (R404). -/
def bodyBytes : FrameBody → Nat
  | .claim .. => 16
  | .write _ _ _ _ d => d.length
  | .signal .. => 16
  | .hello .. => 32
  | .mirrorWrite _ _ _ d => d.length
  | .settle .. => 8
  | _ => 0

/-- Changes a port; frames that it sends are counted, with their payload (19_debug_test R518). -/
def State.modPort (s : State) (p : Nat) (f : Port → Port) : State :=
  let x := s.port p
  let y := f x
  let sent := y.unacked.filter (fun g => !(x.unacked.any (fun h => h.seq == g.seq)))
  let s := s.setPort p y
  if sent = [] then s
  else (s.hubCount 6 2 sent.length).hubCount 6 5 ((sent.map (fun g => cdiv (bodyBytes g.body) 64)).foldl (· + ·) 0)

/-- The lane class of a frame (R404, R405): request, response, mirror data, twin control. -/
inductive LaneKind where
  | request
  | response
  | mirror
  | control
  deriving DecidableEq, Repr

def bodyLane : FrameBody → LaneKind
  | .claimAck .. => .response
  | .commitAck .. => .response
  | .signalAck .. => .response
  | .mirrorWrite .. => .mirror
  | .claim .. => .request
  | .write .. => .request
  | .signal .. => .request
  | .claimEnd .. => .request
  | .heartbeat .. => .request
  | _ => .control

/-- The length of a frame in 16-byte units, header and trailer with it (R403). -/
def frameUnits (f : Frame) : Nat := 2 + cdiv (bodyBytes f.body) 16

/-- The receive buffer of a lane, in 16-byte units (R405). -/
def laneRoom (port vl : Nat) : Nat :=
  if vl < 4 then 4096 else if vl < 8 then 512 else if port ≠ twinPort then 0 else if vl = 8 then 16384 else if vl = 9 then 256 else 0

/-- A sequenced frame can go out now: the port is UP, the retry buffer has room and the lane has credit (R405, R407). -/
def Port.canSend (x : Port) (p : Nat) (f : Frame) : Bool :=
  x.state == .up && decide (x.unacked.length < 1024) && decide (tblGet 0 x.spent f.vl + frameUnits f ≤ laneRoom p f.vl)

/-- Sends a frame: it takes the next SEQ and its credits, and is kept for retry. -/
def Port.emit (x : Port) (f : Frame) : Port :=
  { x with txNext := (x.txNext + 1) % 4096, unacked := x.unacked ++ [{ f with seq := x.txNext }]
           spent := tblSet f.vl (tblGet 0 x.spent f.vl + frameUnits f) x.spent }

/-- Sends the frames that wait, in order within each lane (R405). -/
def Port.pump (p : Nat) (x : Port) : Port :=
  let r := x.waiting.foldl (fun (a : Port × List Frame) f =>
    if !(a.2.any (fun g => g.vl == f.vl)) && a.1.canSend p f then (a.1.emit f, a.2) else (a.1, a.2 ++ [f])) (x, [])
  { r.1 with waiting := r.2 }

/-- Gives a frame to a port. -/
def Port.give (p : Nat) (x : Port) (f : Frame) : Port := ({ x with waiting := x.waiting ++ [f] } : Port).pump p

/-- The port that the route table gives for a node (R408): PRIMARY while it is UP, else ALTERNATE. -/
def State.routePort (s : State) (node : Nat) : Option Nat :=
  let e := tblGet 0 s.links.routes node
  let prim := bitsOf e 4 0
  let alt := bitsOf e 9 5
  if !bitOf e 10 ∨ node ≥ 0xFFFF then none
  else if prim ≤ 16 ∧ (s.port prim).state = .up then some prim
  else if alt ≤ 16 ∧ (s.port alt).state = .up then some alt
  else none

def State.routeValid (s : State) (node : Nat) : Bool := decide (node < 0xFFFF) && bitOf (tblGet 0 s.links.routes node) 10

/-- Sends a request or response frame to a node over its route; without an UP port the frame is lost, and its source
recovers (R406, R414). -/
def State.sendFrame (s : State) (node : Nat) (b : FrameBody) : State :=
  match s.routePort node with
  | none => s
  | some p =>
    let vl := match bodyLane b with | .response => 4 | .mirror => 8 | .control => 9 | .request => 0
    s.modPort p (fun x => x.give p { vl := vl, seq := 0, hops := 0, dst := node, src := s.links.node, good := true, body := b })

/-- Sends a frame on the twin port, on its twin lane (R404, R405). -/
def State.sendTwin (s : State) (b : FrameBody) : State :=
  let vl := match bodyLane b with | .mirror => 8 | _ => 9
  s.modPort twinPort (fun x => if x.state = .up then x.give twinPort { vl := vl, seq := 0, hops := 0, dst := s.links.twin.slot, src := s.links.node, good := true, body := b } else x)

/-- The job of a context, and whether a node is allowed to it (R409). -/
def State.jobOf (s : State) (c : Nat) : Option Job := (s.links.jobs.find? (fun j => j.2.valid && j.2.ctx == c)).map Prod.snd

def Job.permits (j : Job) (node : Nat) : Bool := (memRead j.permit (node / 8)).getLsbD (node % 8)

def State.nodeAllowed (s : State) (c node : Nat) : Bool :=
  s.routeValid node && (match s.jobOf c with | some j => j.permits node | none => false)

/-- A remote SIGNAL leaves (R413): it takes the stream's next SIG_ID and waits for its acknowledgement. -/
def State.sendSignal (s : State) (core e rec_ c node tid count : Nat) : State :=
  let st := tblGet ({} : SigStream) s.links.sigOut node
  let job := ((s.jobOf c).map Job.job).getD 0
  let m : SrcSignal := { sigId := st.next, core := core, eng := e, rec_ := rec_, ctx := c, job := job, tid := tid, count := count }
  let st' : SigStream := { st with next := (st.next + 1) % 65536, waiting := st.waiting ++ [m]
                                   progress := if st.waiting = [] then s.now else st.progress }
  (s.modLinks (fun l => { l with sigOut := tblSet node st' l.sigOut })).sendFrame node (.signal job tid count st.next st.gen)

/-- A claim id that no open claim of this module has (R410); which of them is free (assumption 50). -/
def Links.freshClaim (l : Links) (pick : Nat) : Nat :=
  ((List.range (l.src.length + 1)).map (fun i => (pick + i) % 65536)).find? (fun i => !(l.src.any (fun c => c.id == i))) |>.getD 0

/-- Opens a claim for a remote MOVE and sends it (R208, R410). -/
def State.openClaim (s : State) (core e rec_ c node base len : Nat) (sigEn : Bool) (sigTid sigInc : Nat) : State × Nat :=
  let d := s.draw
  let s := d.2
  let id := s.links.freshClaim (Config.freeClaim d.1)
  let job := ((s.jobOf c).map Job.job).getD 0
  let cl : SrcClaim := { id := id, core := core, eng := e, rec_ := rec_, ctx := c, node := node, job := job, base := base, len := len
                         sigEn := sigEn, sigTid := sigTid, sigInc := sigInc, progress := s.now }
  ((s.modLinks (fun l => { l with src := l.src ++ [cl] })).sendFrame node
    (.claim job id 0 base len sigTid sigEn sigInc), id)

end Sys2Proof.Machine
end

