-- ==== Sys2Proof/Machine/Records.lean ====
section
/-!
DEFINITION. The fields of queue records: clamps and defaults (09_queues R260 to R278), and which records are malformed
(R261).
-/

namespace Sys2Proof.Machine

/-- Replaces bits [hi:lo] of a word. -/
def setBits (w : W64) (hi lo v : Nat) : W64 :=
  BitVec.ofNat 64 (w.toNat - bitsOf w.toNat hi lo * 2 ^ lo + v % 2 ^ (hi + 1 - lo) * 2 ^ lo)

/-- Replaces bits of word `i` of a record. -/
def setWord (ws : List W64) (i hi lo v : Nat) : List W64 := ws.set i (setBits (ws.getD i 0) hi lo v)

/-- The clamp of R114: the nearest legal multiple of `step`, a value between two going to the larger. -/
def clampMul (lo hi step x : Nat) : Nat := max lo (min hi (cdiv x step * step))

/-- The default of a field: a code past `top` becomes `d`. -/
def dflt (top d x : Nat) : Nat := if x > top then d else x

/-! ### Accessors -/

def tmoEff (site us : Nat) : Nat := if us = 0 then site else min us 10000000

/-- Bytes times two of a transposed element (07_moves R186). -/
def twHalf (tw : Nat) : Nat := if tw = 1 then 4 else if tw = 2 then 2 else 1

/-- The effective ROWS of a transposed move (R187): the nearest multiple of G that is at least G, a tie to the larger. -/
def rowsEff (rows gl : Nat) : Nat :=
  let r := max 1 (min 4096 rows)
  if gl ≥ 6 then r else max (2 ^ gl) ((2 * r + 2 ^ gl) / (2 * 2 ^ gl) * 2 ^ gl)

/-- The effective words of a record (R278, R114, R178, R186, R187, R275): every clamped or defaulted field at the value
the module uses. -/
def effWords (site : Nat) (ws : List W64) : List W64 :=
  let o := recOpc ws
  let b := fun i hi lo => wbits ws i hi lo
  if o = 0x01 then setWord ws 2 23 0 (tmoEff site (b 2 23 0))
  else if o = 0x03 then setWord ws 2 55 32 (tmoEff site (b 2 55 32))
  else if o = 0x05 then
    setWord (setWord ws 1 5 0 (max 1 (b 1 5 0))) 1 7 6 (dflt 2 0 (b 1 7 6))
  else if o = 0x09 then
    setWord (setWord (setWord (setWord ws 1 1 0 (dflt 2 2 (b 1 1 0))) 1 3 2 (dflt 2 2 (b 1 3 2))) 1 5 4 (dflt 2 0 (b 1 5 4)))
      1 31 8 (tmoEff site (b 1 31 8))
  else if o = 0x20 then setWord (setWord ws 1 52 48 (min 16 (b 1 52 48))) 2 23 0 (tmoEff site (b 2 23 0))
  else if o = 0x30 then
    let e0 := clampMul 0 112 16 (b 1 49 43)
    let ws := setWord ws 1 12 0 (clampMul 16 4096 16 (b 1 12 0))
    let ws := setWord ws 1 25 13 (clampMul 16 4096 16 (b 1 25 13))
    let ws := setWord ws 1 42 26 (clampMul 32 65536 32 (b 1 42 26))
    let ws := setWord ws 1 49 43 e0
    let ws := setWord ws 1 57 50 (clampMul 16 (128 - e0) 16 (b 1 57 50))
    let ws := setWord ws 2 3 0 (dflt 11 0 (b 2 3 0))
    let ws := setWord ws 2 7 4 (dflt 11 0 (b 2 7 4))
    setWord ws 2 11 8 (dflt 11 0 (b 2 11 8))
  else if o = 0x31 ∨ o = 0x32 then
    let c0 := clampMul 0 48 16 (b 1 28 23)
    let e0 := clampMul 0 112 16 (b 1 7 1)
    let ws := setWord ws 1 28 23 c0
    let ws := setWord ws 1 7 1 e0
    let ws := setWord ws 1 15 8 (clampMul 16 (128 - e0) 16 (b 1 15 8))
    let ws := setWord ws 1 22 16 (clampMul 16 (64 - c0) 16 (b 1 22 16))
    if o = 0x31 then setWord ws 1 36 33 (dflt 11 0 (b 1 36 33)) else ws
  else if o = 0x40 then
    let tw := b 2 49 48
    let ws := setWord ws 3 24 0 (min 16777216 (b 3 24 0))
    let ws := if bitOf (ws.getD 3 0).toNat 25 then setWord ws 3 53 38 (max 1 (b 3 53 38)) else ws
    if tw = 0 then ws
    else
      let gl := if b 2 52 50 = 6 then 7 else b 2 52 50
      let cols := max 1 (min 4096 (b 4 25 13))
      let ws := setWord ws 2 52 50 gl
      let ws := setWord ws 4 12 0 (rowsEff (b 4 12 0) gl)
      let ws := setWord ws 4 25 13 cols
      setWord ws 4 49 26 (max (b 4 49 26) (cdiv (cols * twHalf tw) 2))
  else ws

/-- The most recent record of a queue shows an effective DELTA in Q_CUR (R278, R286). -/
def Queue.showDelta (q : Queue) (rec_ delta : Nat) : Queue := if q.serial = rec_ + 1 then { q with cur := setWord q.cur 1 63 32 delta } else q

/-! ### Malformed records (R261) -/

/-- The kind is listed and accepted by queue `e` (R262). -/
def opcOk (o e : Nat) : Bool :=
  decide (o ≤ 9) || (o == 0x20 && e == 0) || (decide (0x30 ≤ o) && decide (o ≤ 0x33) && e == 1) || (o == 0x40 && decide (2 ≤ e))

/-- The most extension records of a kind (R262). -/
def extMax (o : Nat) : Nat := if o = 0x20 then 2 else if o = 0x40 then 1 else 0

/-- The endpoint classes of a MOVE (07_moves R177): the check-bit range belongs to far memory. -/
inductive EndClass where
  | slab
  | far
  | host
  | remote
  | none
  deriving DecidableEq, Repr

def endClass (a : Nat) : EndClass :=
  match addrClass a with
  | .far => .far
  | .check => .far
  | .slab _ _ => .slab
  | .host => .host
  | .none => .none

/-- The table of R177. -/
def moveAllowed (src dst : EndClass) : Bool :=
  match src, dst with
  | .slab, _ => true
  | .far, _ => true
  | .host, .slab => true
  | .host, .far => true
  | .none, _ => true
  | _, .none => true
  | _, _ => false

/-- A class whose source or destination has no class is no malformed record: it faults (R277). -/
def moveMalformed (ws : List W64) : Bool :=
  let tw := wbits ws 2 49 48
  let dst := if wbits ws 1 63 48 = 0xFFFF then endClass (wbits ws 2 47 0) else .remote
  (tw != 0 && recExt ws == 0) || !moveAllowed (endClass (wbits ws 1 47 0)) dst || (tw != 0 && dst != .slab && dst != .none)

/-- The pairing of a MATMUL's formats and its output (04_matrix R115). -/
def matmulMalformed (ws : List W64) : Bool :=
  !pairOk (wbits ws 2 3 0) (wbits ws 2 7 4) || (fmtMx (wbits ws 2 11 8) && wbits ws 1 25 13 % 32 != 0)

/-- An MDRAIN to an MX output needs whole 32-column blocks (R275). -/
def mdrainMalformed (ws : List W64) : Bool :=
  fmtMx (wbits ws 1 36 33) && (wbits ws 1 22 16 % 32 != 0 || wbits ws 1 28 23 % 32 != 0)

/-- Names of a record that the plan's maps leave unmapped (R257, R261, R266, R311, R313, R316). -/
def unmapped (s : State) (c core e : Nat) (ws : List W64) : Bool :=
  let x := s.ctx c
  let o := recOpc ws
  let miss := fun tid => (x.home tid).isNone
  let rt := fun cls => tblGet ({} : TokRoute) (s.core core).tally.routes cls
  let header := (recConsumes ws).any (fun cls => !((rt cls).inValid && (rt cls).inEng == e))
    || (recProduces ws).any (fun cls => !(rt cls).outValid)
    || (match recTally ws with | some t => miss t | none => false)
  let body :=
    if o = 0x01 then miss (wbits ws 1 11 0)
    else if o = 0x02 then wbits ws 1 31 16 == 0xFFFF && miss (wbits ws 1 11 0)
    else if o = 0x03 then
      (wbits ws 1 12 12 == 1 && miss (wbits ws 1 11 0)) || (wbits ws 1 25 25 == 1 && miss (wbits ws 1 24 13))
      || (wbits ws 1 30 30 == 1 && (match tblFind (wbits ws 1 29 26) x.units with
          | none => true
          | some u => !((tblGet ({} : BarUnit) s.hub.units u).parts.contains (4 * core + e))))
    else if o = 0x04 then
      let a := wbits ws 1 11 0
      let b := wbits ws 1 23 12
      miss a || miss b || a == b || (x.home a).map Home.place != (x.home b).map Home.place
    else if o = 0x05 then wbits ws 1 7 6 == 2 && miss (wbits ws 1 19 8)
    else if o = 0x40 then
      wbits ws 3 25 25 == 1 && wbits ws 1 63 48 == 0xFFFF && miss (wbits ws 3 37 26)
    else false
  (o != 0x05 && header) || body

/-- Whether the slots of a body end on a record boundary: the slots left after whole records (R269). -/
def bodyWhole (q : Queue) : Nat → Nat → Nat → Bool
  | _, _, 0 => true
  | 0, _, _ => false
  | fuel + 1, slot, left =>
    match q.slotWords slot with
    | none => false
    | some w =>
      let n := 1 + min (recExt w) 3
      if n > left then false else bodyWhole q fuel ((slot + n) % q.size) (left - n)

/-- A LOOP whose body overruns its outer loop's, or which would nest to a fifth level (R269): known from the record alone. -/
def loopStrays (q : Queue) (body : Nat) : Bool :=
  decide (q.loops.length ≥ 4)
  || (match q.loops with
      | [] => false
      | l :: _ => decide (q.dist q.next l.stop < 1 + body))

/-- A head slot whose OPC or EXT is malformed (R261): known before its extension slots are on chip. -/
def headMalformed (e : Nat) (w : List W64) : Bool := !opcOk (recOpc w) e || decide (recExt w > extMax (recOpc w))

/-- A malformed record (R261), from its effective words. -/
def malformed (s : State) (c core e : Nat) (ws : List W64) : Bool :=
  let o := recOpc ws
  headMalformed e ws || unmapped s c core e ws
  || (o == 0x30 && matmulMalformed ws) || (o == 0x31 && mdrainMalformed ws) || (o == 0x40 && moveMalformed ws)

end Sys2Proof.Machine
end

