-- ==== Sys2Proof/Machine/QueueOps.lean ====
section
/-!
DEFINITION. The issue of one queue record: the conditions common to all kinds, malformed records, breakpoints, tokens,
counter records (09_queues R256 to R262, R279 to R283; 19_debug_test R514 to R517), and waits on tallies.
-/

namespace Sys2Proof.Machine

/-- A record that issues: context, place, number, its effective words. -/
structure RecInfo where
  c : Nat
  core : Nat
  e : Nat
  slot : Nat
  id : Nat
  ws : List W64
  deriving DecidableEq, Repr

/-- A fault of an engine's record (00_scope R9, 13_contexts R369). -/
def State.recFault (s : State) (c core e : Nat) (cause : Cause) (slot : Nat) (ws : List W64) (addr : Nat) : State :=
  s.raise c { cause := cause, core := core, engine := e, addr := addr, qid := 4 * core + e, slot := slot, record := ws }

def State.infoFault (s : State) (r : RecInfo) (cause : Cause) (addr : Nat) : State :=
  s.recFault r.c r.core r.e cause r.slot r.ws addr

/-- A record in flight faults. -/
def State.flightFault (s : State) (core e id : Nat) (cause : Cause) (addr : Nat) : State :=
  match (s.core core).ctx, (s.queue core e).flight.find? (fun f => f.id == id) with
  | some c, some f => s.recFault c core e cause f.slot f.words addr
  | _, _ => s

/-- The selection, FREEZE and CLEAR of the counters take effect at the next record that any engine of the core issues
(R514); FC_CTRL at the next record of the GE queue (08_far R247). -/
def Core.atIssue (k : Core) (e : Nat) : Core :=
  let d := k.dbg
  let d := if (List.range 8).all (fun i => tblGet 0 d.sel i == tblGet 0 d.selNow i) then d
    else { d with selNow := d.sel, selGen := (d.selGen + 1) % 256 }
  let d := if d.clearPend then { d with counters := [], clearPend := false } else d
  let k := { k with dbg := { d with freeze := d.freezeReg } }
  if e = 0 then { k with fc := { k.fc with ctrlNow := k.fc.ctrl } } else k

def Core.takeTokens (k : Core) (cls : List Nat) : Core :=
  { k with tally := { k.tally with tokens := cls.foldl (fun t x => tblSet x (tblGet 0 t x - 1) t) k.tally.tokens } }

/-- A LOOP's body slots are all on chip (R268). -/
def Queue.bodyOn (q : Queue) (body : Nat) : Bool :=
  (List.range body).all (fun i => (q.slotWords ((q.next + 1 + i) % q.size)).isSome)

/-- The record kinds that wait until every earlier record of the queue has retired (R262). -/
def needsOrder (ws : List W64) : Bool :=
  let o := recOpc ws
  o == 0x03 || o == 0x08 || o == 0x09 || (o == 0x02 && wbits ws 2 1 0 != 0)

/-- No gang window is open, and every instruction accepted in it has finished (04_matrix R119). -/
def State.windowClear (s : State) (core : Nat) : Bool := !(s.core core).me.win.open_ && decide ((s.core core).me.win.finish ≤ s.cycleOf core)

/-- A tally operation of this source to this home is still on its way (11_tallies R306). -/
def State.opsPending (s : State) (src : Waiter) (h : Home) : Bool := s.net.tally.any (fun m => m.src == src && m.home.place == h.place)

/-- A SIGNAL or MOVE names a node that the route table or the context's job does not allow (R264, R277; 15_haul_twin
R409). -/
def State.nodeRefused (s : State) (c : Nat) (ws : List W64) : Bool :=
  let no := fun n => n != 0xFFFF && !s.nodeAllowed c n
  (recOpc ws == 0x02 && no (wbits ws 1 31 16)) || (recOpc ws == 0x40 && no (wbits ws 1 63 48))

/-- The first consumed class that the core has too few tokens of. -/
def Core.lackToken (k : Core) (cls : List Nat) : Option Nat :=
  cls.find? (fun x => decide (tblGet 0 k.tally.tokens x < (cls.filter (fun y => y == x)).length))

/-- The next record's wait for its tokens is over: the WAIT_END entry. -/
def State.tokenEnd (s : State) (c core e : Nat) : State :=
  let q := s.queue core e
  match q.tokSince with
  | none => s
  | some t => (s.setQueue core e { q with tokSince := none }).waitEnd core e c q.next t q.tokCls 1 1
      (tblGet 0 (s.core core).tally.tokens q.tokCls) false

/-- The next record waits (R258): for its tokens while the core lacks them, and with its tokens there for its body or for
earlier records. DEF_TMO is taken as it stands when the wait begins (R284). -/
def State.preWait (s : State) (c core e : Nat) (ws : List W64) : State :=
  let q := s.queue core e
  match if recOpc ws = 5 then none else (s.core core).lackToken (recConsumes ws) with
  | some cls =>
    if q.tokSince.isSome then s
    else (s.setQueue core e { q with tokSince := some (s.ctxNow c), tokCls := cls, tmoNow := q.defTmo }).waitBegin core e c q.next cls 1
      ((recConsumes ws).filter (fun y => y == cls)).length (tblGet 0 (s.core core).tally.tokens cls) q.defTmo
  | none =>
    let s := s.tokenEnd c core e
    s.modQueue core e (fun q => if q.ordSince.isSome then q else { q with ordSince := some (s.ctxNow c), tmoNow := q.defTmo })

/-- The issue of the next record: every latch, count and entry that issuing makes, and the core's last context (R170, R257, R259, R268, R286, R514 to
R519, R525). -/
def State.issueRec (s : State) (c core e : Nat) (ws : List W64) : State × RecInfo :=
  let q := s.queue core e
  let r : RecInfo := { c := c, core := core, e := e, slot := q.next, id := q.serial, ws := ws }
  let o := recOpc ws
  let s := s.tokenEnd c core e
  let s := s.modCore core (fun k => { k.atIssue e with lastCtx := some c })
  let s := if o = 5 then s else s.modCore core (fun k => k.takeTokens (recConsumes ws))
  let s := s.modCore core (fun k => (k.latch s.now c e false o q.next).count 0x3F 1)
  let tag := q.next + 2 ^ 12 * o + 2 ^ 32 * q.iter
  let s := s.tail (ringOf core e) 1 c none tag (ws.getD 1 0).toNat (ws.getD 2 0).toNat
  let s := if bitOf (s.core core).dbg.trace.lvl 0 then s.modCore core (fun k => k.traceRec s.now c e 3 tag) else s
  let s := s.modQueue core e (fun q =>
    { q.pass (1 + min (recExt ws) 2) with
        flight := q.flight ++ [{ id := q.serial, slot := q.next, opc := o, words := ws, start := s.ctxNow c }]
        serial := q.serial + 1, stepArm := false, cur := ws.take 8
        blockId := q.serial, blockStart := if o = 3 then q.ordSince.getD (s.ctxNow c) else s.ctxNow c, ordSince := none })
  (s, r)

/-- The next record of a queue issues if it is of this kind and may issue now; otherwise the command has no effect but
the stall it counts. `ready` is the kind's own condition, `body` its effect. -/
def onRecord (s : State) (core e opc : Nat) (ready : Nat → List W64 → State → Bool) (body : RecInfo → State → State) : Out :=
  if core < 1280 ∧ e < 4 then
    match s.live core with
    | none => .next s
    | some c =>
      let q := s.queue core e
      if !q.inForce.enable || q.block != .none || (q.halt && !q.stepArm) then .next s
      else if headMalformed e ((q.slotWords q.next).getD [0]) then
        .next (s.recFault c core e .malformedCmd q.next ((q.slotWords q.next).getD []) 0)
      else match q.nextWords with
      | none => .next s
      | some raw =>
        let ws := effWords s.waitUs raw
        let loopBody := wbits ws 1 5 0
        if malformed s c core e ws || (opc == 5 && recOpc ws == 5 && loopStrays q loopBody) then .next (s.recFault c core e .malformedCmd q.next ws 0)
        else if recOpc ws ≠ opc then .next s
        else if (q.inForce.fenced && q.flight != []) || (e == 0 && (s.core core).ge.launches.any (fun l => decide (l.started < l.count)))
            || (s.core core).crecFull e || (e == 1 && !s.windowClear core) then .next s
        else if (needsOrder ws && q.flight != []) || (opc == 5 && !q.bodyOn loopBody)
            || (opc != 5 && !(s.core core).tokensOk (recConsumes ws)) then
          .next (s.preWait c core e ws)
        else if opc = 5 ∧ !bodyWhole q 64 ((q.next + 1) % q.size) loopBody then .next (s.recFault c core e .malformedCmd q.next ws 0)
        else if s.nodeRefused c ws then .next (s.recFault c core e .windowFault q.next ws 0)
        else if !ready c ws s then .next s
        else if q.brkEn && recBrk ws && !q.stepArm then
          .next (((s.setQueue core e { q with halt := true, halted := true }).tail (ringOf core e) 8 c none q.next 0 0).rehalt c)
        else let r := s.issueRec c core e ws; .next (body r.2 r.1)
  else .fault .noSuchUnit

/-- Begins one wait of a record on a tally: at the own core it is tested at once, elsewhere a watch is sent (R307). -/
def State.beginWait (s : State) (r : RecInfo) (idx vid thr : Nat) : State × TWait :=
  match (s.ctx r.c).home vid with
  | none => (s, { vid := vid, home := ⟨true, 0, 0⟩, threshold := thr })
  | some h =>
    if !h.hub ∧ h.core = r.core then
      let v := s.tallyAt h
      (s, { vid := vid, home := h, threshold := thr, begun := true, done := v.reached thr, seen := v.value })
    else
      ({ s with net := { s.net with watches := s.net.watches ++
          [({ ctx := r.c, who := ⟨r.core, 16 + r.e⟩, idx := idx, serial := r.id, home := h, threshold := thr } : Watch)] } },
       { vid := vid, home := h, threshold := thr })

/-- No tally operation of the queue to the home of this id is still on its way: a wait at the own core comes after them
(R306). -/
def State.waitClear (s : State) (c core e vid : Nat) : Bool :=
  match (s.ctx c).home vid with
  | none => true
  | some h => !(s.opsPending ⟨core, 16 + e⟩ h)

end Sys2Proof.Machine
end

