-- ==== Sys2Proof/Machine/Fold.lean ====
section
/-!
DEFINITION. The matrix array as the clock drives it: what a MATMUL or MDRAIN does in which cycle, and the passing of time
(04_matrix R109 to R118; 05_numbers R137; 06_slab R164 to R167; 18_clocks_reset R500).
-/

namespace Sys2Proof.Machine

def State.me (s : State) (core : Nat) : MatrixEngine := (s.core core).me
def State.modMe (s : State) (core : Nat) (f : MatrixEngine → MatrixEngine) : State := s.modCore core (fun k => { k with me := f k.me })

/-- The device address of a slab of a core (01_module R20). -/
def slabAt (core i : Nat) : Nat := slabBase + core * 2 ^ 24 + 512 * i

/-- Only the bounds of R146 are promised now (05_numbers R145). -/
def State.loose (s : State) (core : Nat) : Bool := s.links.twin.rebuild || (s.me core).degraded

/-! ### MATMUL (R114 to R117, R274) -/

/-- The effective fields of a MATMUL (R274). -/
structure MatJob where
  m : Nat
  n : Nat
  k : Nat
  e0 : Nat
  h : Nat
  bank : Nat
  acc : Bool
  nodrain : Bool
  fa : Nat
  fb : Nat
  fo : Nat
  prof : Nat
  aBase : Nat
  bBase : Nat
  dBase : Nat
  asBase : Nat
  bsBase : Nat
  deriving DecidableEq, Repr

def matJob (ws : List W64) : MatJob :=
  let b := wbits ws
  { m := b 1 12 0, n := b 1 25 13, k := b 1 42 26, e0 := b 1 49 43, h := b 1 57 50, bank := b 1 58 58
    acc := b 1 59 59 == 1, nodrain := b 1 60 60 == 1, fa := b 2 3 0, fb := b 2 7 4, fo := b 2 11 8, prof := b 2 15 12
    aBase := b 2 30 16, bBase := b 2 45 31, dBase := b 2 60 46, asBase := b 3 14 0, bsBase := b 3 29 15 }

def MatJob.units (j : MatJob) : List MatUnit := foldUnits j.m j.n j.h
def MatJob.passes (j : MatJob) : Nat := cdiv j.k (kPass j.fa)
def MatJob.groups (j : MatJob) : Nat := cdiv j.n 64

/-- Slabs of the panels of a pass of a unit (R103, R116): A, B, A scales, B scales. -/
def MatJob.aSlabsOf (j : MatJob) (u : MatUnit) (p : Nat) : List Nat :=
  (List.range (aSlabs j.fa u.m)).map (fun i => j.aBase + (u.c * j.passes + p) * aSlabs j.fa j.h + i)
def MatJob.bSlabsOf (j : MatJob) (u : MatUnit) (p : Nat) : List Nat :=
  (List.range (bSlabs j.fb)).map (fun i => j.bBase + (u.g * j.passes + p) * bSlabs j.fb + i)
def MatJob.asSlabsOf (j : MatJob) (u : MatUnit) (p : Nat) : List Nat :=
  if fmtMx j.fa then (List.range (asSlabs j.fa u.m)).map (fun i => j.asBase + (u.c * j.passes + p) * asSlabs j.fa j.h + i) else []
def MatJob.bsSlabsOf (j : MatJob) (u : MatUnit) (p : Nat) : List Nat :=
  if fmtMx j.fb then [j.bsBase + u.g * j.passes + p] else []

/-- A unit drains unless NODRAIN keeps the last one (R116). -/
def MatJob.drains (j : MatJob) (u : MatUnit) : Bool := !(j.nodrain && j.units.getLast? == some u)

def MatJob.unitReads (j : MatJob) (u : MatUnit) : List Nat :=
  (List.range j.passes).flatMap (fun p => j.bSlabsOf u p ++ j.bsSlabsOf u p ++ j.aSlabsOf u p ++ j.asSlabsOf u p)

/-- The first slab of the output unit (R116). -/
def MatJob.outBase (j : MatJob) (u : MatUnit) : Nat := j.dBase + (u.c * j.groups + u.g) * unitStride j.fo j.h
def MatJob.unitWrites (j : MatJob) (u : MatUnit) : List Nat :=
  if j.drains u then (List.range (unitStride j.fo j.h)).map (fun i => j.outBase u + i) else []

/-- The bias slab of a drain of an ME record (R137). -/
def biasSlabOf (me : MatrixEngine) (prof g : Nat) : List Nat :=
  let p := tblGet ({} : Profile) me.profiles prof
  if p.biasMode = 2 then [p.biasSlab + g] else []

/-- The bias of each column of a drain (R135, R137). -/
def biasOf (p : Profile) (slab : List Byte) (gang : Bool) (c0 : Nat) : Nat → Option Nat :=
  fun j => if p.biasMode = 1 then some p.bias else if p.biasMode = 2 ∧ !gang then some (ofLe ((slab.drop (4 * (c0 + j))).take 4)) else none

/-- The first slab of a list that is no slab of the core or that no window grants (R115, R274). -/
def State.badSlab (s : State) (c core : Nat) (right : Right) (ix : List Nat) : Option Nat :=
  ix.find? (fun i => decide (i > 26623) || !((s.ctx c).granted right (slabAt core i) 512))

/-- What stops a record of the matrix engine before any input cycle (R115, R137, R274, R275). -/
def State.matFault (s : State) (c core : Nat) (reads writes : List Nat) : Option (Cause × Nat) :=
  match (s.badSlab c core .r reads).orElse (fun _ => s.badSlab c core .w writes) with
  | some i => some (.windowFault, slabAt core i)
  | none => (reads.find? (fun i => (s.core core).slab.bank i == .off)).map (fun i => (.slabBankOff, slabAt core i))

/-- An operand lies in a bank that is waking (06_slab R167). -/
def State.anyWaking (s : State) (core : Nat) (ix : List Nat) : Bool := ix.any (fun i => (s.core core).slab.bank i == .waking)

/-- Planned reads of whole slabs; none when one was uncorrectable (06_slab R164). -/
def State.readSlabs (s : State) (core : Nat) (ix : List Nat) : State × Option (List Byte) :=
  ix.foldl (fun (p : State × Option (List Byte)) i =>
    let r := (p.1.core core).slab.read i
    let t := (p.1.modSlab core (fun _ => r.1)).count core 0x1C 1
    (t, match p.2, r.2 with | some a, some b => some (a ++ b) | _, _ => none)) (s, some [])

/-- An output slab reaches the port (R113, R166): false when its bank is DRAINING or OFF and the write is dropped. -/
def State.putSlab (s : State) (core : Nat) (o : Nat × List Byte) : State × Bool :=
  match (s.core core).slab.bank o.1 with
  | .draining => (s, false)
  | .off => (s, false)
  | _ => ((s.modSlab core (fun b => (b.write o.1 0 o.2).1)).count core 0x1D 1, true)

/-- Writes output slabs; the context of a dropped one is killed (R113). -/
def State.putSlabs (s : State) (core rec_ : Nat) (os : List (Nat × List Byte)) : State :=
  os.foldl (fun t o =>
    let r := t.putSlab core o
    if r.2 then r.1 else r.1.flightFault core 1 rec_ .slabBankOff (slabAt core o.1)) s

/-! ### Drains (R113, R116, R137, R140, R275) -/

/-- What a drain reads, and where it writes: profile, output format, rectangle, column group, chunk height, first slab. -/
structure DrainJob where
  prof : Nat
  fo : Nat
  bank : Nat
  e0 : Nat
  c0 : Nat
  m : Nat
  n : Nat
  g : Nat
  h : Nat
  base : Nat
  deriving DecidableEq, Repr

def MatJob.drainJob (j : MatJob) (u : MatUnit) : DrainJob :=
  { prof := j.prof, fo := j.fo, bank := j.bank, e0 := j.e0, c0 := 0, m := u.m, n := u.w, g := u.g, h := j.h, base := j.outBase u }

/-- The drain of an MDRAIN (R275). -/
def mdrainJob (ws : List W64) : DrainJob :=
  let b := wbits ws 1
  { prof := b 32 29, fo := b 36 33, bank := b 0 0, e0 := b 7 1, c0 := b 28 23, m := b 15 8, n := b 22 16, g := 0, h := b 15 8, base := b 51 37 }

/-- Unit `i` of a MATMUL. -/
def MatJob.unitAt (j : MatJob) (i : Nat) : MatUnit := j.units.getD i ⟨0, 0, 0, 0⟩

/-- Drain `i` of a record in progress. -/
def MatRun.drainJob (r : MatRun) (i : Nat) : DrainJob :=
  if recOpc r.words = 0x31 then mdrainJob r.words else (matJob r.words).drainJob ((matJob r.words).unitAt i)

/-- The output slabs of a drain: cycles after its first one, place, slab. A slab is written in the cycle after its last entry leaves
the converter, the scale slab one cycle after the last of them (R113). -/
def DrainJob.writes (d : DrainJob) : List (Nat × Nat × Nat) :=
  let q := slabRows d.fo
  (List.range (cdiv d.m q)).map (fun i => (min (q * (i + 1)) d.m + 10, i, d.base + i))
    ++ (if fmtMx d.fo then [(d.m + 11, cdiv d.h q, d.base + cdiv d.h q)] else [])

/-- The events of drain `i` that starts in a cycle. -/
def DrainJob.events (d : DrainJob) (rec_ i start : Nat) : List MeEvent :=
  ⟨start, rec_, .drain i⟩ :: d.writes.map (fun w => ⟨start + w.1, rec_, .write i w.2.1 w.2.2⟩)

/-! ### The events of a MATMUL (R105, R109, R117) -/

/-- The reads of a pass of a unit, by place on the input bus: each slab in its window's last cycle (assumption 53). -/
def MatJob.passReads (j : MatJob) (i p l : Nat) (u : MatUnit) : List (Nat × MeAct) :=
  let qb := 512 / rowBytes j.fb
  let qa := 512 / segBytes j.fa
  let x := l + 32
  let s := segCycles j.fa
  let num := fun (ix : List Nat) => (List.range ix.length).zip ix
  (num (j.bSlabsOf u p)).map (fun y => (l + y.1 * qb, .read 0 p i y.2))
    ++ (j.bsSlabsOf u p).map (fun y => (l, .read 1 p i y))
    ++ (num (j.aSlabsOf u p)).map (fun y => (x + y.1 * qa * s, .read 2 p i y.2))
    ++ (num (j.asSlabsOf u p)).map (fun y => (x + y.1 * (512 / (kPass j.fa / 32)) / qa * qa * s, .read 3 p i y.2))

/-- The events of unit `i`, whose first load, last input and first drain cycle are `t`, of a record that issues in cycle `now` and
starts its first load in cycle `c0`; a degraded array takes twice the cycles (R127). -/
def MatJob.unitEvents (j : MatJob) (rec_ now c0 f i : Nat) (t : Nat × Nat × Nat) (u : MatUnit) : List MeEvent :=
  ((List.range j.passes).flatMap (fun p => (j.passReads i p (t.1 + p * (32 + u.m * segCycles j.fa)) u).map (fun x =>
      (⟨max now (c0 + f * x.1 - 3), rec_, x.2⟩ : MeEvent))))
    ++ [⟨c0 + f * (t.2.1 + 36), rec_, .compute i⟩]
    ++ (if j.drains u then (j.drainJob u).events rec_ i (c0 + f * t.2.2) else [])

/-- Units with their numbers and cycles. -/
def MatJob.timed (j : MatJob) (t : FoldTime) : List (Nat × (Nat × Nat × Nat) × MatUnit) :=
  (List.range j.units.length).zip (t.units.zip j.units)

/-- The stationary loads and streams of a MATMUL, from its first load (R104, R117). -/
def MatJob.loads (j : MatJob) (c0 f : Nat) (t : FoldTime) : List (Nat × Nat × Nat) :=
  (j.timed t).flatMap (fun x => (List.range j.passes).map (fun p =>
    let n := x.2.2.m * segCycles j.fa
    let l := x.2.1.1 + p * (32 + n)
    (c0 + f * l, c0 + f * (l + 32), c0 + f * (l + 32 + n))))

/-- The first load of a record waits until none of its accumulator writes reaches an entry before a pending drain reads it (R118):
entry E0 + j is first written 68 + j × s cycles after the load starts. -/
def MatJob.firstLoad (j : MatJob) (runs : List MatRun) (now : Nat) : Nat :=
  let h := (j.unitAt 0).m
  ((runs.filter (fun r => r.bank == j.bank)).flatMap MatRun.drains).foldl (fun c d =>
    ((List.range h).filter (fun x => decide (d.2.1 ≤ j.e0 + x) && decide (j.e0 + x < d.2.1 + d.2.2))).foldl (fun c x =>
      max c (d.1 + (j.e0 + x - d.2.1) + 1 - (68 + x * segCycles j.fa))) c) now

/-- The first cycle in which the converter is free of earlier records' drains (R113). -/
def MatrixEngine.convFree (me : MatrixEngine) : Nat := (me.run.flatMap MatRun.drains).foldl (fun c d => max c (d.1 + d.2.2)) 0

/-- A MATMUL that issues in a cycle: the record in progress, and its events. -/
def MatJob.start (j : MatJob) (me : MatrixEngine) (rec_ now : Nat) (ws : List W64) : MatRun × List MeEvent :=
  let f := if me.degraded then 2 else 1
  let c0 := j.firstLoad me.run now
  let t := foldTime j.fa j.fo j.k (cdiv (me.convFree - c0) f) j.units
  let us := j.timed t
  ({ rec_ := rec_, words := ws, lastIn := c0 + f * t.e
     due := if j.nodrain then c0 + max (f * (t.e + 37)) (f * t.wrote) else c0 + f * t.d + t.m + 10 + boolN (fmtMx j.fo)
     bank := j.bank, loads := j.loads c0 f t
     drains := (us.filter (fun x => j.drains x.2.2)).map (fun x => (c0 + f * x.2.1.2.2, j.e0, x.2.2.m)) },
   us.flatMap (fun x => j.unitEvents rec_ now c0 f x.1 x.2.1 x.2.2))

/-- The skew table of a core (R107, R108): the physical stage of logical row `r`, past the repaired row of the dressing map. The
array's times outside it do not depend on it. -/
def skewOf (core r : Nat) : Nat :=
  let b := (Config.dressCore core).toNat
  if bitOf b 7 && decide (b % 32 ≤ r) then r + 1 else r

/-! ### Events in order -/

/-- Within a cycle, reads and drains come before the writes of slabs (06_slab R150). -/
def MeEvent.key (e : MeEvent) : Nat := 2 * e.at_ + (match e.act with | .write .. => 1 | _ => 0)

def insertEvent (e : MeEvent) : List MeEvent → List MeEvent
  | [] => [e]
  | x :: t => if x.key ≤ e.key then x :: insertEvent e t else e :: x :: t

/-- Events join those that wait, each behind those of its own cycle. -/
def joinEvents (es old : List MeEvent) : List MeEvent := es.foldl (fun t e => insertEvent e t) old

/-- A record joins those in progress. -/
def MatrixEngine.begin (me : MatrixEngine) (r : MatRun) (es : List MeEvent) : MatrixEngine :=
  { me with run := me.run ++ [r], events := joinEvents es me.events }

/-- What lies at or after cycle `t` moves by `n`. -/
def later (t n x : Nat) : Nat := if t ≤ x then x + n else x

def MatRun.slip (t n : Nat) (r : MatRun) : MatRun :=
  { r with lastIn := later t n r.lastIn, due := later t n r.due
           loads := r.loads.map (fun l => (later t n l.1, later t n l.2.1, later t n l.2.2))
           drains := r.drains.map (fun d => (later t n d.1, d.2)) }

/-- The array, its drains and the converter are held for `n` cycles from cycle `t` on (R113): every later event of every record
moves, and the cycles are counted (R125). -/
def MatrixEngine.hold (me : MatrixEngine) (t n : Nat) (es : List MeEvent) : MatrixEngine :=
  { me with events := es.map (fun e => { e with at_ := e.at_ + n }), run := me.run.map (MatRun.slip t n), bubbles := satAdd 0xFFFFFFFF me.bubbles n }

/-! ### What an event does -/

def State.modRun (s : State) (core id : Nat) (f : MatRun → MatRun) : State :=
  s.modMe core (fun me => { me with run := me.run.map (fun r => if r.rec_ = id then f r else r) })

/-- A record of the array meets a fault: nothing of it is drained any more (06_slab R164). -/
def State.meFault (s : State) (core id : Nat) (cause : Cause) (addr : Nat) : State :=
  (s.flightFault core 1 id cause addr).modRun core id (fun r => { r with dead := true })

/-- The bytes that the reads of a panel have delivered. -/
def MatRun.panel (r : MatRun) (u p panel : Nat) : List Byte := (r.got.filter (fun x => x.1 == (u, p, panel))).flatMap Prod.snd

/-- A planned read of an operand slab (R109; 06_slab R164, R166). -/
def State.meRead (s : State) (core : Nat) (r : MatRun) (panel p u slab : Nat) : State :=
  if (s.core core).slab.bank slab = .off then s.meFault core r.rec_ .slabBankOff (slabAt core slab)
  else
    let b := s.readSlabs core [slab]
    match b.2 with
    | none => b.1.meFault core r.rec_ .uncorrEcc (slabAt core slab)
    | some bs => b.1.modRun core r.rec_ (fun x => { x with got := x.got ++ [((u, p, panel), bs)] })

/-- The array has used a cell whose parity bit does not match (R127): its column is marked, and the core is degraded for the query
table and the loader too. -/
def State.markColumn (s : State) (core col : Nat) : State :=
  { s.modMe core (fun me => { me with degraded := true, badCol := col % 64, parity := none }) with
    dbg := { s.dbg with degraded := if s.dbg.degraded.contains core then s.dbg.degraded else core :: s.dbg.degraded } }

/-- The passes of a unit have written the accumulators (R104 to R106, R116). -/
def State.meSums (s : State) (core : Nat) (r : MatRun) (i : Nat) : State :=
  let j := matJob r.words
  let u := j.unitAt i
  let q := 512 / segBytes j.fa
  let rq := 512 / rowBytes j.fb
  let e := cellE j.fb
  let pA := (List.range j.passes).map (fun p => r.panel i p 2)
  let pB := (List.range j.passes).map (fun p => r.panel i p 0)
  let pXa := (List.range j.passes).map (fun p => r.panel i p 3)
  let pXb := (List.range j.passes).map (fun p => r.panel i p 1)
  let fA := fun p m k => elemAt (((pA.getD p []).drop (512 * (m / q) + m % q * segBytes j.fa)).take (segBytes j.fa)) (fmtBits j.fa) k
  let fB := fun p n k => elemAt (((pB.getD p []).drop (512 * (k / e / rq) + k / e % rq * rowBytes j.fb)).take (rowBytes j.fb)) (fmtBits j.fb) (n * e + k % e)
  let fXa := fun p m b => ((pXa.getD p []).getD (m * (kPass j.fa / 32) + b) 0).toNat
  let fXb := fun p n b => ((pXb.getD p []).getD (n * (kPass j.fb / 32) + b) 0).toNat
  let t : Tile := { fa := j.fa, fb := j.fb, k := j.k, bank := j.bank, e0 := j.e0, c0 := 0, m := u.m, n := u.w, acc := j.acc }
  let d := s.draw
  let s := (if s.loose core then d.2 else s).modMe core (fun me => me.run_ t (if s.loose core then some d.1 else none) fA fB fXa fXb)
  let s := ((s.count core 0x0C (32 * j.passes)).count core 0x0D (j.passes * u.m * segCycles j.fa)).count core 0x11 (j.passes * u.m)
  s.modRun core r.rec_ (fun x => { x with got := x.got.filter (fun y => y.1.1 != i) })

/-- The last write of a unit's passes: a parity error among them stops the record, and they are never drained (R127). -/
def State.meCompute (s : State) (core : Nat) (r : MatRun) (i : Nat) : State :=
  match (s.me core).parity with
  | some col => (s.markColumn core col).meFault core r.rec_ .uncorrEcc 0
  | none => s.meSums core r i

/-- A drain starts (R113, R135, R137): the profile in force now serves all its entries, and its bias slab is read in this cycle. -/
def State.meDrain (s : State) (c core : Nat) (r : MatRun) (i : Nat) : State :=
  let d := r.drainJob i
  let bias := biasSlabOf (s.me core) d.prof d.g
  match s.matFault c core bias [] with
  | some f => s.meFault core r.rec_ f.1 f.2
  | none =>
    let bs := s.readSlabs core bias
    match bs.2 with
    | none => bs.1.meFault core r.rec_ .uncorrEcc (slabAt core (bias.headD 0))
    | some slab =>
      let p := tblGet ({} : Profile) (s.me core).profiles d.prof
      let x := (bs.1.me core).drain d.prof d.fo d.bank d.e0 d.c0 d.m d.n (biasOf p slab false d.c0)
      let s := (bs.1.modMe core (fun _ => x.1)).count core 0x0E d.m
      s.modRun core r.rec_ (fun y => { y with outs := y.outs ++ (unitSlabs d.fo d.h x.2).map (fun o => ((i, o.1), o.2)) })

/-- An output slab leaves the converter (R113). -/
def State.meWrite (s : State) (core : Nat) (r : MatRun) (i k slab : Nat) : State :=
  match r.outs.find? (fun o => o.1 == (i, k)) with
  | none => s
  | some o => (s.putSlabs core r.rec_ [(slab, o.2)]).modRun core r.rec_ (fun y => { y with outs := y.outs.filter (fun o => o.1 != (i, k)) })

/-- An event of a record in progress. -/
def State.meEvent (s : State) (c core : Nat) (e : MeEvent) : State :=
  match (s.me core).run.find? (fun r => r.rec_ == e.rec_ && !r.dead) with
  | none => s
  | some r =>
    match e.act with
    | .read panel p u slab => s.meRead core r panel p u slab
    | .compute i => s.meCompute core r i
    | .drain i => s.meDrain c core r i
    | .write i k slab => s.meWrite core r i k slab

/-- An event that must wait for a waking bank (06_slab R167): its slab's, or for a drain its bias slab's. -/
def State.meBlocked (s : State) (core : Nat) (e : MeEvent) : Bool :=
  match (s.me core).run.find? (fun r => r.rec_ == e.rec_ && !r.dead) with
  | none => false
  | some r =>
    match e.act with
    | .read _ _ _ slab => s.anyWaking core [slab]
    | .compute _ => false
    | .drain i => s.anyWaking core (biasSlabOf (s.me core) (r.drainJob i).prof (r.drainJob i).g)
    | .write _ _ slab => s.anyWaking core [slab]

/-- The array's events up to a cycle, in order; one that waits for a bank holds everything (R113), and a fault on the core stops the
array (02_gangs R65). -/
def State.runEvents (c core lim : Nat) : List MeEvent → State → State
  | [], s => s.modMe core (fun me => { me with events := [] })
  | e :: rest, s =>
    if lim < e.at_ ∨ (s.live core).isNone then s.modMe core (fun me => { me with events := e :: rest })
    else if s.meBlocked core e then (s.modMe core (fun me => me.hold e.at_ (lim - e.at_) (e :: rest))).count core 0x10 (lim - e.at_)
    else State.runEvents c core lim rest (s.meEvent c core e)

/-- The array of a core catches up with its die's clock. -/
def State.pumpMe (s : State) (core : Nat) : State :=
  match s.live core with
  | none => s
  | some c => if (s.me core).events = [] then s else State.runEvents c core (s.cycleOf core) (s.me core).events s

/-! ### The passing of time -/

/-- The clocks move by `h` half nanoseconds, and the arrays with them. -/
def State.advance (s : State) (h : Nat) : State := (s.cores.map Prod.fst).foldl State.pumpMe (s.clock h)

/-- The clocks move to a time that is not in the past. -/
def State.advanceTo (s : State) (now : Nat) : State := if s.half < 2 * now then s.advance (2 * now - s.half) else s

end Sys2Proof.Machine
end

