-- ==== Sys2Proof/Machine/NetOps.lean ====
section
/-!
DEFINITION. The scheduled network, the slab port's table, paced flows and the die bridges (01_module R11 to R18; 06_slab R149
to R155; 07_moves R189 to R198; 10_cutplan R290 to R293).
-/

namespace Sys2Proof.Machine

/-- Contexts that are PLACED, and those that hold a bench (13_contexts R346). -/
def State.placed (s : State) : List (Nat × Ctx) := s.ctxs.filter (fun p => p.2.state == .placed)
def State.holders (s : State) : List (Nat × Ctx) :=
  s.ctxs.filter (fun p => p.2.state == .placed || p.2.state == .suspended
    || (p.2.state == .killing && p.2.bench.any (fun n => (s.core n).ctx == some p.1)))

def Ctx.plan_ (x : Ctx) : Plan := x.loaded.getD {}

/-! ### Physical rows (01_module R13 to R15) -/

/-- The physical row of a logical core: its logical row, one further from the column's disabled row on (R14). -/
def physRow (core : Nat) : Nat :=
  let r := core % 320 / 16
  if r < Config.dressColumn (16 * dieOf core + core % 16) then r else r + 1

/-! ### Router tables (R190, R191, R290, R291) -/

/-- The entry in force at a router of a die in a cycle: the fields of every bench in residence, merged (R290, R291). -/
def State.routerAt (s : State) (die col row cycle : Nat) : Nat :=
  s.holders.foldl (fun a p => a ||| tblGet 0 p.2.plan_.routers (4096 * ((die * 16 + col) * 21 + row) + cycle % 4096)) 0

/-- A beat at a router: the router's column and physical row, and the input at which it came, as R291 numbers inputs. -/
structure Beat where
  col : Nat
  row : Nat
  inp : Nat
  deriving DecidableEq, Repr

/-- Where a beat that leaves on mesh output 0 (north) to 3 (west) is one cycle later. -/
def Beat.hop (b : Beat) (out : Nat) : Option Beat :=
  let low := if out % 2 = 0 then Config.northLow == (out == 0) else Config.eastHigh == (out == 3)
  let inp := (out + 2) % 4 + 1
  if out % 2 = 0 then
    (if low then (if b.row = 0 then none else some { b with row := b.row - 1, inp := inp })
     else if b.row = 20 then none else some { b with row := b.row + 1, inp := inp })
  else if low then (if b.col = 0 then none else some { b with col := b.col - 1, inp := inp })
  else if b.col = 15 then none else some { b with col := b.col + 1, inp := inp }

/-- The hops after which a beat leaves at the local port of a router (R190, R191): in each cycle it leaves on every output whose
field names its input, and advances one hop. -/
def State.beatHops (s : State) (die col row : Nat) : Nat → Nat → List Beat → Option Nat
  | 0, _, _ => none
  | fuel + 1, cycle, bs =>
    let entry := fun (b : Beat) => s.routerAt die b.col b.row cycle
    if bs = [] then none
    else if bs.any (fun b => b.col == col && b.row == row && bitsOf (entry b) 14 12 == b.inp) then some 0
    else (s.beatHops die col row fuel (cycle + 1) (bs.flatMap (fun b =>
      ((List.range 4).filter (fun o => bitsOf (entry b) (3 * o + 2) (3 * o) == b.inp)).filterMap b.hop))).map (· + 1)

/-- A slab that a core's port reads in a cycle reaches another core of the die (R191): its eight beats take one way and leave at
that core's local port, and the core's write slot after the last of them is ARRIVE (R292). -/
def State.lands (s : State) (src dst cycle : Nat) : Bool :=
  let go := fun i => s.beatHops (dieOf src) (dst % 16) (physRow dst) 336 (cycle + 1 + i) [⟨src % 16, physRow src, 5⟩]
  match go 0 with
  | none => false
  | some h => (List.range 8).all (fun i => go i == some h) && bitsOf (tblGet 0 (s.core dst).portTable ((cycle + h + 9) % 4096)) 18 16 == 5

/-! ### The slab port's table (R149 to R153, R290, R292) -/

/-- The port table's entry in force at a core. -/
def State.portAt (s : State) (core : Nat) : Nat := tblGet 0 (s.core core).portTable (s.cycleOf core % 4096)

/-- The owner of read slot A (0) or B (1), and the outgoing flow that the slot names. -/
def readOwner (w slot : Nat) : Nat × Nat :=
  let v := bitsOf w (8 * slot + 2) (8 * slot)
  (if v ≥ 4 then 0 else v, bitsOf w (8 * slot + 7) (8 * slot + 3))

/-- The owner of the write slot. -/
def writeOwner (w : Nat) : Nat := let v := bitsOf w 18 16; if v ≥ 6 then 0 else v

/-- Read slots that no planned access owns in this cycle (R152). -/
def State.freeReads (s : State) (core : Nat) : Nat := ([0, 1].filter (fun i => (readOwner (s.portAt core) i).1 == 0)).length

/-- No planned access owns the write slot of this cycle. -/
def State.freeWrite (s : State) (core : Nat) : Bool := writeOwner (s.portAt core) == 0

/-- What planned reads have taken of the port in this cycle. -/
def Slab.portIn (b : Slab) (cycle : Nat) : PortUse := if b.port.cycle = cycle then b.port else { cycle := cycle }

/-- A planned read of a bank in a cycle: a bank that another planned read has in that cycle holds it (R155). -/
def Slab.planned (b : Slab) (cycle bank : Nat) (slots : List Nat) : Slab × Bool :=
  let u := b.portIn cycle
  if u.banks.contains bank then ({ b with conflict := satAdd 0xFFFFFFFF b.conflict 1 }, false)
  else ({ b with port := { u with slots := slots ++ u.slots, banks := bank :: u.banks } }, true)

/-! ### Flows (R293) -/

/-- The outgoing flows of a core that are an engine's (2 for MV0, 3 for MV1), by their numbers, with their entries. A flow that no
read slot of the port table names carries nothing. -/
def Core.flowsOf (k : Core) (e : Nat) : List (Nat × Nat) :=
  ((List.range 32).map (fun i => (i, tblGet 0 k.flows i))).filter (fun f => f.2 % 2 == e - 2
    && k.portTable.any (fun p => readOwner p.2 0 == (e, f.1) || readOwner p.2 1 == (e, f.1)))

/-- A flow is paced, and the entries it may have under way: 0 takes 1. -/
def flowPaced (w : Nat) : Bool := bitOf w 1
def flowCredits (w : Nat) : Nat := max 1 (bitsOf w 19 14)

/-! ### Die bridges (01_module R11, R12; 07_moves R194) -/

/-- The bridge directions between two dies, 4 being the hub's endpoints: 0 to 3 from a die to the hub, 4 to 7 from the hub to a
die, 8 to 23 from a die to a neighbour, 24 on through the hub fabric. Opposite dies meet over the hub only (R12). -/
def bridgeLegs (a b : Nat) : List Nat :=
  if a = b then []
  else if b = 4 then [a]
  else if (b + 4 - a) % 4 = 2 then [a, 24 + 4 * a + b, 4 + b]
  else [8 + 4 * a + b]

/-- The planned queue of a bridge direction, in slabs (R194). -/
def legRoom (l : Nat) : Nat := if l < 8 then 84 else if l < 24 then 56 else 96

/-- Entries of paced flows whose credit is not back, through a bridge direction. -/
def State.legLoad (s : State) (l : Nat) : Nat :=
  (s.cores.map (fun p => ((p.2.mv0.sent ++ p.2.mv1.sent).filter (fun x => x.2.contains l)).length)).foldl (· + ·) 0

/-- The die, or the hub (4), that takes a request's data: a slab's core, the channel's controller, the host and other modules at
the hub (R193, R216). -/
def State.endDie (s : State) (node dst : Nat) : Nat :=
  if node ≠ 0xFFFF then 4
  else match addrClass dst with
    | .slab home _ => dieOf home
    | .host => 4
    | _ => (farPlace s.far.localUnits (dst % farTop)).1 / 24

/-! ### The slot of a request (R191 to R193, R197, R293) -/

/-- How a request may read its source now. -/
inductive MvSlot where
  /-- no planned slot is needed -/
  | free
  /-- a scheduled flow's read slot -/
  | planned (slot : Nat)
  /-- a paced flow's read slot: the flow, and the bridge directions that its entry crosses -/
  | paced (slot flow : Nat) (legs : List Nat)
  /-- its slot comes in another cycle -/
  | wait
  /-- another planned read has its bank (06_slab R155) -/
  | held
  /-- its paced flow has no credit: the slot group goes empty -/
  | empty (slot : Nat)
  /-- no flow of the engine fits: the slab travels as a packet -/
  | noFlow
  deriving DecidableEq, Repr

/-- The destination slab's core, for a request that stays in the module. -/
def MvReq.home (q : MvReq) (node : Nat) : Option Nat :=
  if node = 0xFFFF then (match addrClass q.dst with | .slab h _ => some h | _ => none) else none

/-- A flow fits a request (R293): a scheduled one to its core on the same die, any paced one for every other destination. -/
def flowFits (core w : Nat) (home : Option Nat) : Bool :=
  match home with
  | some h => if dieOf h = dieOf core then !flowPaced w && bitsOf w 12 2 == h else flowPaced w
  | none => flowPaced w

/-- The way of a packet on the request network is open: at a slab it takes a free write slot (R152, R192). -/
def State.packetSlot (s : State) (home : Option Nat) : MvSlot :=
  match home with
  | some h => if s.freeWrite h then .free else .wait
  | none => .free

/-- How a request whose slab the plan gave read slot `i` for flow `f` goes: a scheduled flow's slab must reach its core, within
one core by the engine's write slots; a paced flow needs a credit, room in each bridge queue, and at another die's core the
landing buffer's (06_slab R154). -/
def State.flowSlot (s : State) (core e node dst : Nat) (home : Option Nat) (i : Nat) (f : Nat × Nat) : MvSlot :=
  let k := s.core core
  if flowPaced f.2 then
    let legs := bridgeLegs (dieOf core) (s.endDie node dst)
    let used := (((k.mv e).sent).filter (fun x => x.1 == f.1)).length
    let room : Bool := match home with | some h => decide ((s.core h).slab.landing.length < 16) | none => true
    if used < flowCredits f.2 ∧ legs.all (fun l => decide (s.legLoad l < legRoom l)) ∧ room then .paced i f.1 legs else .empty i
  else
    match home with
    | some h =>
      if h = core then (if k.portTable.any (fun p => writeOwner p.2 == e) then .planned i else .wait)
      else if s.lands core h (s.cycleOf core) then .planned i else .wait
    | none => .wait

/-- The slot of a request that has not read its source (R293). A packet, a source that is not slab memory, a band buffer's read
and a context that is being killed need no planned read slot (07_moves R185, R186; 10_cutplan R303; assumption 126). -/
def State.slotFor (s : State) (c core e : Nat) (r : MvRec) (q : MvReq) : MvSlot :=
  let k := s.core core
  let home := q.home r.node
  if (s.ctx c).killing ∨ r.tw ≠ 0 then .free
  else if q.fallback then s.packetSlot home
  else match addrClass q.src with
    | .slab src off =>
      let fs := (k.flowsOf e).filter (fun f => flowFits core f.2 home)
      if src ≠ core ∨ fs = [] then .noFlow
      else
        let u := k.slab.portIn (s.cycleOf core)
        let now := [0, 1].filter (fun i => !u.slots.contains i && (readOwner (s.portAt core) i).1 == e
          && fs.any (fun f => f.1 == (readOwner (s.portAt core) i).2))
        (match now with
         | [] => .wait
         | i :: _ =>
           match fs.find? (fun f => f.1 == (readOwner (s.portAt core) i).2) with
           | none => .wait
           | some f => if u.banks.contains (off / 512 % 32) then .held else s.flowSlot core e r.node q.dst home i f)
    | _ => .free

/-- A request takes its slot, a planned read of the port (19_debug_test R513). -/
def State.takeSlot (s : State) (core e : Nat) (q : MvReq) : MvSlot → State
  | .planned i => (s.modSlab core (fun b => (b.planned (s.cycleOf core) (q.src / 512 % 32) [i]).1)).count core 0x1C 1
  | .paced i f legs =>
    ((s.modSlab core (fun b => (b.planned (s.cycleOf core) (q.src / 512 % 32) [i]).1)).count core 0x1C 1).modCore core (fun k =>
      k.setMv e { k.mv e with sent := (k.mv e).sent ++ [(f, legs)] })
  | _ => s

/-- A slot group of an engine's paced flow goes empty (R193, R214). -/
def State.emptySlot (s : State) (core e : Nat) : State :=
  s.modCore core (fun k => (k.setMv e { k.mv e with creditWait := true, empty := satAdd 0xFFFFFFFF (k.mv e).empty 1 }).count 0x19 1)

end Sys2Proof.Machine
end

