-- ==== Sys2Proof/Machine/GangMem.lean ====
section
/-!
DEFINITION. The memory instructions of gangs and what completes them: SLD, SST, LD, ST, ATOM, the slab port's unplanned
queue, far cache fills and write-backs (02_gangs R44 to R56, R64; 06_slab R152, R163 to R169; 08_far R232 to R240).
-/

namespace Sys2Proof.Machine

/-! ### Checks of an access (R64) -/

/-- What an LD or ST lane meets, in the order of R64: class and window, then alignment. -/
def Ctx.laneFault (x : Ctx) (right : Right) (a n : Nat) : Option Cause :=
  let ok := match addrClass a with
    | .far => x.farOk right a n
    | .host => decide (a + n ≤ 2 ^ 48) && x.granted right a n
    | _ => false
  if !ok then some .windowFault else if a % n ≠ 0 then some .illegalInsn else none

/-- What an ATOM lane meets (R54): far memory, with R and W rights. -/
def Ctx.atomFault (x : Ctx) (a n : Nat) : Option Cause :=
  if !(x.farOk .r a n && x.farOk .w a n) then some .windowFault else if a % n ≠ 0 then some .illegalInsn else none

/-- The fault of the lowest-numbered executing lane that has one, with its address (R64, R65). -/
def firstFault (chk : Nat → Option Cause) (addr : Nat → Nat) (lanes : List Nat) : Option (Cause × Nat) :=
  lanes.findSome? (fun l => (chk (addr l)).map (fun c => (c, addr l)))

/-- Groups lanes by key, in order of the lowest lane that has each key (R52). -/
def groupLanes (key : Nat → Nat) (lanes : List Nat) : List (Nat × List Nat) :=
  (lanes.foldl (fun acc l => if acc.any (fun g => g.1 == key l) then acc.map (fun g => if g.1 = key l then (g.1, g.2 ++ [l]) else g)
    else acc ++ [(key l, [l])]) [])

/-! ### LD and ST (R51, R52, R56) -/

/-- Issues the lines of an LD or ST; when all have issued the gang goes on, but for a host-window access, which it waits
for (assumption 26). -/
def State.pumpGang (s : State) (core c slot : Nat) (parts : List LinePart) (resume : Addr) (host : Bool) (load : Nat) : State :=
  let r := State.pumpParts core c slot parts s
  if r.2 then
    r.1.modGang core slot (fun x =>
      let pendingLoad := x.loads.any (fun l => l.id == load)
      if host && (pendingLoad || x.stores != 0) then { x with wait := .host, resume := resume } else x.advance resume)
  else r.1

/-- The parts of an LD or ST, one for each distinct line. -/
def lineParts (env : GangEnv) (x : Gang) (f : VForm) (store : Bool) (draw : Nat) (lanes : List Nat) : List LinePart :=
  (groupLanes (fun l => laneAddr env x f l / 128) lanes).map (fun g =>
    { slot := env.slot, uid := x.uid, insn := x.insnAt env.slot, load := x.nextId, form := f, store := store, line := g.1, draw := draw
      lanes := g.2.map (fun l => (l, laneAddr env x f l % 128, if store then storeBytes env x f l else [])) })

/-- LD or ST: checks every lane before any line is accessed, then issues line by line. -/
def gangLdSt (g : GangAt) (f : VForm) (store : Bool) (c : Nat) (x : Gang) (env : GangEnv) (s : State) : State :=
  match x.todo with
  | p :: rest => s.pumpGang g.core c g.slot (p :: rest) g.next (128 * p.line ≥ hostBase) p.load
  | [] =>
    let lanes := lanesOf (x.execLanes f.qp f.qn)
    let n := 2 ^ opxSz f
    match firstFault (fun a => (s.ctx c).laneFault (if store then .w else .r) a n) (laneAddr env x f) lanes with
    | some (cause, a) => s.gangFault g.core g.slot cause a
    | none =>
      let d := if store then s.draw else (0, s)
      let s := d.2
      let parts := lineParts env x f store d.1 lanes
      let host := parts.any (fun p => decide (128 * p.line ≥ hostBase))
      let y := { x with nextId := x.nextId + 1
                        loads := if store ∨ parts.isEmpty then x.loads
                          else x.loads ++ [{ id := x.nextId, regs := destRegs f.d n, left := parts.length }] }
      (s.setGang g.core g.slot y).pumpGang g.core c g.slot parts g.next host x.nextId

def ldUse (f : VForm) : RegUse := (addrUse f).and { vw := destRegs f.d (2 ^ opxSz f) }
def stUse (f : VForm) : RegUse :=
  (addrUse f).and (if f.ib then {} else if f.bs then { sr := if f.b < 64 then [f.b] else [] }
    else { vr := destRegs f.b (2 ^ opxSz f) })

/-- LD (R51 to R53, R81, R82). -/
def execLd (g : GangAt) (f : VForm) (s : State) : Out :=
  onGang s g (.ld g f) true (ldUse f) (fun c x env t => gangLdSt g f false c x env t) true

/-- ST (R51, R52, R233, R236, R239). -/
def execSt (g : GangAt) (f : VForm) (s : State) : Out :=
  onGang s g (.st g f) true (stUse f) (fun c x env t => gangLdSt g f true c x env t) true

/-! ### ATOM (R54, R55) -/

def atomUse (f : VForm) : RegUse :=
  let w := tyWidth f.ty
  (addrUse f).and { vr := (if f.ib ∨ f.bs then [] else pairRegs f.b w) ++ (if f.ic ∨ f.cs then [] else pairRegs f.c w)
                    sr := (if f.bs ∧ f.b < 64 then [f.b] else []) ++ (if f.cs ∧ f.c < 64 then [f.c] else [])
                    vw := destRegs f.d (2 ^ opxSz f) }

/-- Before an ATOM the cache writes back a line it names, if dirty, and invalidates it (R54): the cache, whether none is
left, and the line whose dirty sectors met an uncorrectable error. -/
def FarCache.yield (fc : FarCache) (c : Nat) (lines : List Nat) : FarCache × Bool × Option Nat :=
  lines.foldl (fun r line =>
    if !r.2.1 || r.2.2.isSome then r
    else match r.1.place c line with
      | none => r
      | some p =>
        if (r.1.at p).dirty = 0 then (r.1.drop p, true, none)
        else
          let q := r.1.sectors p (r.1.at p).dirty
          if !q.2 then (q.1, true, some line)
          else match q.1.writeBack p with
            | none => (q.1, false, none)
            | some w => (w.1.drop p, true, none)) (fc, true, none)

/-- The fills in flight of lines that an ATOM names become stale: they install nothing, and later loads do not join them
(12_model R329, R330). -/
def FarCache.overtake (fc : FarCache) (c : Nat) (lines : List Nat) : FarCache :=
  { fc with misses := fc.misses.map (fun m => if m.ctx = c ∧ lines.contains m.line then { m with stale := true } else m) }

/-- ATOM (R54, R55): one message to the controller for each location; each lane's old value comes back. -/
def execAtom (g : GangAt) (f : VForm) (s : State) : Out :=
  onGang s g (.atom g f) true (atomUse f) (fun c x env t =>
    let lanes := lanesOf (x.execLanes f.qp f.qn)
    let n := 2 ^ opxSz f
    let w := tyWidth f.ty
    let sg := tySigned f.ty
    match firstFault (fun a => (t.ctx c).atomFault a n) (laneAddr env x f) lanes with
    | some (cause, a) => t.gangFault g.core g.slot cause a
    | none =>
      let k := t.core g.core
      let groups := groupLanes (laneAddr env x f) lanes
      let lines := groups.map (fun q => q.1 / 128)
      let y := k.fc.yield c lines
      match y.2.2 with
      | some l => (t.setCore g.core { k with fc := y.1 }).gangFault g.core g.slot .uncorrEcc (((groups.find? (fun q => q.1 / 128 == l)).map Prod.fst).getD 0)
      | none => if !y.2.1 then t.setCore g.core { k with fc := y.1 }
      else
        let msgs := groups.map (fun q => ({ ctx := c, core := g.core, slot := g.slot, uid := x.uid, insn := x.insnAt g.slot, load := x.nextId, form := f, addr := q.1
                                            lanes := q.2.map (fun l => (l, opB env x f sg w l, opC env x f sg w l)), seq := y.1.nextId } : AtomMsg))
        let x' := { x with nextId := x.nextId + 1
                           loads := if msgs.isEmpty then x.loads else x.loads ++ [({ id := x.nextId, regs := destRegs f.d n, left := msgs.length } : GangLoad)] }
        let k' : Core := { k with fc := { (y.1.overtake c lines) with nextId := y.1.nextId + 1 } }
        let t := t.setCore g.core (k'.setGang g.slot (x'.advance g.next))
        { t with net := { t.net with atoms := t.net.atoms ++ msgs } })

/-- A request of the core on a line that left before request `seq` is still on its way: a sent miss, a write-back or an
atomic (12_model R330; assumption 121). -/
def State.olderAt (s : State) (core line seq : Nat) : Bool :=
  let fc := (s.core core).fc
  fc.wbs.any (fun w => w.line == line && decide (w.id < seq)) || fc.misses.any (fun m => m.line == line && decide (m.seq < seq))
  || s.net.atoms.any (fun m => m.core == core && m.addr / 128 == line && decide (m.seq < seq))

/-- The lanes of one location, one after another in ascending order: the final value and each lane's old value (R55). -/
def atomRun (f : VForm) : List (Nat × Nat × Nat) → Nat → Nat × List (Nat × Nat)
  | [], v => (v, [])
  | (l, b, c) :: rest, v =>
    let r := atomRun f rest (atomNew (opxAop f) (tyWidth f.ty) (tySigned f.ty) v b c)
    (r.1, (l, v) :: r.2)

/-- ATOM_COMPLETE: the k-th atomic in flight is performed at the controller and its old values return (R54, R55); it waits
for the core's earlier requests on the line (12_model R330; assumption 121), and for earlier ones of the same gang on the
same location. An uncorrectable error kills the context (R224). -/
def execAtomComplete (k : Nat) (s : State) : Out :=
  match firstOf (fun a b => a.core == b.core && a.slot == b.slot && a.addr == b.addr) k s.net.atoms with
  | none => .next s
  | some m =>
    if s.olderAt m.core (m.addr / 128) m.seq then .next s
    else
      let n := 2 ^ opxSz m.form
      let s := { s with net := { s.net with atoms := dropAt k s.net.atoms } }
      let r := s.farRead m.addr n
      match r.2 with
      | none => .next (r.1.insnFault m.core m.insn .uncorrEcc m.addr)
      | some bs =>
        let q := atomRun m.form m.lanes (ofLe bs)
        let t := (r.1.farWrite m.addr (leBytes n q.1)).1
        if (t.ctx m.ctx).killing then .next t
        else .next (t.withGang m.core m.slot m.uid (fun x =>
          (q.2.foldl (fun y o => y.putV m.form.d o.1 (8 * n) o.2) x).part m.load))

/-! ### Slabs (R44 to R50; 06_slab R152, R166, R169) -/

/-- The slab access checks (R47, R160, R161): slab memory of a core of the bench, with the right on all of the slab. -/
def Ctx.slabFault (x : Ctx) (right : Right) (a : Nat) : Option Cause :=
  match addrClass a with
  | .slab n _ => if x.bench.contains n && x.granted right a 512 then none else some .windowFault
  | _ => some .windowFault

/-- An access reaches the slab port (R50, R166): a write to a bank that is draining or off is dropped, and like a read of a
bank that is off it faults. -/
def Slab.refuses (b : Slab) (write : Bool) (slab : Nat) : Bool :=
  match b.bank slab with
  | .on => false
  | .draining => write
  | .off => true
  | .waking => false

/-- Joins the unplanned queue; a local access goes before a remote one of the same age (R152). -/
def joinUnpl (home : Nat) (u : Unpl) (q : List Unpl) : List Unpl :=
  if u.who.core = home then
    q.filter (fun v => !(v.since == u.since && v.who.core != home)) ++ [u] ++ q.filter (fun v => v.since == u.since && v.who.core != home)
  else q ++ [u]

/-- SLD or SST (R44 to R50): `store` gives the bytes of an SST. -/
def gangSlab (g : GangAt) (f : VForm) (store : Bool) (c : Nat) (x : Gang) (env : GangEnv) (s : State) : Option State :=
  let a := slabAddr env x f
  match (s.ctx c).slabFault (if store then .w else .r) a with
  | some cause => some (s.gangFault g.core g.slot cause a)
  | none =>
    let home := (a - slabBase) / 2 ^ 24
    let idx := (a - slabBase) % 2 ^ 24 / 512
    let u : Unpl := { write := store, slab := idx, data := if store then gatherSlab x f.d else [], ctx := c, who := ⟨g.core, g.slot⟩
                      uid := x.uid, insn := x.insnAt g.slot, load := x.nextId, dreg := f.d, since := s.cycleOf home }
    let y := if store then { x with nextId := x.nextId + 1, stores := x.stores + 1 }
      else { x with nextId := x.nextId + 1, loads := x.loads ++ [{ id := x.nextId, regs := destRegs f.d 16, left := 1 }] }
    if home = g.core then
      let b := (s.core home).slab
      if b.refuses store idx then some (s.gangFault g.core g.slot .slabBankOff a)
      -- a full queue: the instruction does not issue (R152)
      else if b.unplanned.length ≥ 32 then none
      else some ((s.setGang g.core g.slot (y.advance g.next)).modSlab home (fun b => { b with unplanned := joinUnpl home u b.unplanned }))
    else
      let t := s.setGang g.core g.slot (y.advance g.next)
      some { t with net := { t.net with slabs := t.net.slabs ++ [{ home := home, req := u }] } }

/-- SLD (R44 to R50): the whole slab into four registers of all lanes. -/
def execSld (g : GangAt) (f : VForm) (s : State) : Out :=
  onGangTry s g (.sld g f) true { vw := destRegs f.d 16, sr := if f.a < 64 then [f.a] else [] }
    (fun c x env t => gangSlab g f false c x env t)

/-- SST (R44 to R50): four registers of all lanes into the whole slab. -/
def execSst (g : GangAt) (f : VForm) (s : State) : Out :=
  onGangTry s g (.sst g f) true { vr := destRegs f.d 16, sr := if f.a < 64 then [f.a] else [] }
    (fun c x env t => gangSlab g f true c x env t)

/-- REMOTE_SLAB_ACCESS: the k-th SLD or SST on its way reaches the owning core's port (R152, R169); a full queue leaves it
in the network. -/
def execRemoteSlabAccess (k : Nat) (s : State) : Out :=
  match firstOf (fun a b => a.req.who == b.req.who && a.home == b.home) k s.net.slabs with
  | none => .next s
  | some m =>
    let b := (s.core m.home).slab
    let t := { s with net := { s.net with slabs := dropAt k s.net.slabs } }
    if (s.ctx m.req.ctx).killing ∧ !m.req.write then .next t
    else if b.refuses m.req.write m.req.slab then
      .next (t.insnFault m.req.who.core m.req.insn .slabBankOff (slabBase + m.home * 2 ^ 24 + 512 * m.req.slab))
    else if b.unplanned.length ≥ 32 then .next s
    else .next (t.modSlab m.home (fun b => { b with unplanned := joinUnpl m.home { m.req with since := s.cycleOf m.home } b.unplanned }))

/-- Which accesses of the unplanned queue are granted in a cycle: oldest first, distinct idle banks for the reads, one
write; an access is passed over while an older one of the same gang to the same slab waits (R49, R149, R152). -/
def grantPick (b : Slab) (rdFree : Nat) (wrFree : Bool) (busy : W32) : List Unpl → List Unpl → List Unpl × List Unpl
  | _, [] => ([], [])
  | before, u :: rest =>
    let bank := u.slab % 32
    let blocked := before.any (fun v => v.who == u.who && v.slab == u.slab)
    let ready := match b.bank u.slab with | .waking => false | _ => true
    if !blocked && ready && u.write && wrFree then
      let r := grantPick b rdFree false busy (before ++ [u]) rest
      (u :: r.1, r.2)
    else if !blocked && ready && !u.write && decide (rdFree > 0) && !busy.getLsbD bank then
      let r := grantPick b (rdFree - 1) wrFree (busy ||| BitVec.ofNat 32 (2 ^ bank)) (before ++ [u]) rest
      (u :: r.1, r.2)
    else
      let r := grantPick b rdFree wrFree busy (before ++ [u]) rest
      (r.1, u :: r.2)

/-- One granted SLD (R45, R48, R164): local data goes into the registers, remote data travels back. -/
def State.grantRead (home : Nat) (s : State) (u : Unpl) : State :=
  let a := slabBase + home * 2 ^ 24 + 512 * u.slab
  if (s.core home).slab.refuses false u.slab then s.insnFault u.who.core u.insn .slabBankOff a
  else
    let r := (s.core home).slab.read u.slab
    let s := s.modSlab home (fun _ => r.1)
    match r.2 with
    | none => s.insnFault u.who.core u.insn .uncorrEcc a
    | some bs =>
      if (s.ctx u.ctx).killing then s
      else if u.who.core = home then s.withGang home u.who.unit u.uid (fun x => (loadSlab x u.dreg bs).part u.load)
      else { s with net := { s.net with slabReplies := s.net.slabReplies ++ [{ who := u.who, ctx := u.ctx, uid := u.uid, load := u.load, dreg := u.dreg, data := bs }] } }

/-- One granted SST (R46, R48). -/
def State.grantWrite (home : Nat) (s : State) (u : Unpl) : State :=
  let r := (s.core home).slab.write u.slab 0 u.data
  (s.modSlab home (fun _ => r.1)).withGang u.who.core u.who.unit u.uid (fun x => { x with stores := x.stores - 1 })

/-- UNPLANNED_GRANT (R149, R150, R152): the port grants its unplanned queue what is free of one cycle's slots that no planned
access owns (10_cutplan R292), on banks that no planned read has; reads return what the slabs held before the cycle's write. The
cycles the granted accesses waited are counted (R176). -/
def execUnplannedGrant (core rdFree : Nat) (wrFree : Bool) (busy : W32) (s : State) : Out :=
  if core < 1280 then
    let b := (s.core core).slab
    let taken := (b.portIn (s.cycleOf core)).banks.foldl (fun m i => m ||| BitVec.ofNat 32 (2 ^ i)) busy
    let r := grantPick b (min rdFree (s.freeReads core)) (wrFree && s.freeWrite core) taken [] b.unplanned
    let waited := (r.1.map (fun u => s.cycleOf core - u.since)).foldl (· + ·) 0
    let s := s.modCore core (fun k => (({ k with slab := { k.slab with unplanned := r.2, waitCycles := satAdd 0xFFFFFFFF k.slab.waitCycles waited } }.count
      0x1E r.1.length).count 0x1F waited))
    let s := (r.1.filter (fun u => !u.write)).foldl (State.grantRead core) s
    .next ((r.1.filter (fun u => u.write)).foldl (State.grantWrite core) s)
  else .fault .noSuchUnit

/-- ECC_REWRITE (R163): the oldest rewrite that waits is carried out in a write slot that no planned access owns (10_cutplan
R292); it needs its bank powered. -/
def execEccRewrite (core : Nat) (wrFree : Bool) (s : State) : Out :=
  if core < 1280 then
    match (s.core core).slab.rewrites with
    | [] => .next s
    | cw :: rest =>
      if wrFree ∧ s.freeWrite core ∧ (s.core core).slab.bank (cw / 8) ≠ .waking then
        .next (s.modSlab core (fun b => { b with rewrites := rest, bad := tblDrop cw b.bad }))
      else .next s
  else .fault .noSuchUnit

/-- REMOTE_SLD_REPLY: the k-th slab on its way back reaches its gang (R48). -/
def execRemoteSldReply (k : Nat) (s : State) : Out :=
  match s.net.slabReplies[k]? with
  | none => .next s
  | some m =>
    let t := { s with net := { s.net with slabReplies := dropAt k s.net.slabReplies } }
    if (s.ctx m.ctx).killing then .next t
    else .next (t.withGang m.who.core m.who.unit m.uid (fun x => (loadSlab x m.dreg m.data).part m.load))

/-! ### Fills and write-backs (08_far R231 to R235, R240; 02_gangs R56) -/

/-- The host rejected a page of a gang's access (R56): the gang engine stops issuing; the rejected instruction counts as
not executed and is executed again after the resume. -/
def State.hostReject (s : State) (core slot uid load addr : Nat) : State :=
  let s := (s.modCore core (fun k => { k with ge := { k.ge with rejected := some (k.ge.rejected.getD addr) } })).hubCount 3 4 1
  let s := match (s.core core).ctx with
    | none => s
    | some c => s.modCtx c (fun y => { y with suspendReq := some (y.suspendReq.getD addr) })
  let x := s.gang core slot
  if x.live ∧ x.uid = uid then
    s.setGang core slot { x with wait := .rejected, todo := [], loads := x.loads.filter (fun l => l.id != load) }
  else s

/-- FAR_CACHE_FILL: the k-th miss entry's line returns (R231, R232, R237, R240). It waits for the victim's write-back
(R234) and for the core's earlier requests on its line (12_model R330; assumption 121). Far memory is read at the controller; a host line's data, or its rejection
(R56), is the host's answer. A kill discards the data (R367). -/
def execFarCacheFill (core k : Nat) (hostOk : Bool) (hostData : List Byte) (s : State) : Out :=
  if core < 1280 then
    let fc := (s.core core).fc
    match fc.misses[k]? with
    | none => .next s
    | some m =>
      if !fc.sent m || s.olderAt core m.line m.seq then .next s
      else
        let host := decide (128 * m.line ≥ hostBase)
        let q := if host then (s, some ((List.range 128).map (fun i => hostData.getD i 0))) else s.farRead (128 * m.line) 128
        let t := q.1.modCore core (fun j => { j with fc := { j.fc with misses := dropAt k j.fc.misses } })
        let unpend := fun (t : State) => t.modCore core (fun j =>
          match j.fc.place m.ctx m.line with
          | none => j
          | some p => if m.stale then j
            else if (j.fc.at p).valid = 0 then { j with fc := j.fc.drop p }
            else { j with fc := j.fc.put p { j.fc.at p with pending := false } })
        if (s.ctx m.ctx).killing then .next (unpend t)
        else if host && !hostOk then
          .next (m.parts.foldl (fun t p => t.hostReject core p.slot p.uid p.load ((s.ctx m.ctx).hostAddr (128 * m.line) / 4096 * 4096)) (unpend t))
        else match q.2 with
          | none =>
            if m.prefetch then .next (unpend t)
            else
              .next (match m.parts with
                | [] => (unpend t).coreFault core .uncorrEcc (128 * m.line)
                | p :: ps =>
                  let bad := fun o => s.blockBad (farBlock s.far.localUnits (128 * m.line + o))
                  let v := ((p :: ps).find? (fun v => (List.range 128).any (fun o => v.mask.getLsbD o && bad o))).getD p
                  (unpend t).insnFault core v.insn .uncorrEcc (v.badAddr bad))
          | some bs =>
            let t := if m.stale || m.noAlloc then t
              else t.modCore core (fun j =>
                match j.fc.place m.ctx m.line with
                | none => j
                | some p => { j with fc := j.fc.put p { (j.fc.at p).merge ((List.range 128).map (fun i => (i, bs.getD i 0))) true with pending := false } })
            .next (m.parts.foldl (fun t p => t.withGang core p.slot p.uid (fun x => x.deliver p (p.byte bs))) t)
  else .fault .noSuchUnit

/-- WRITEBACK_ACCEPT: the controller accepts the k-th write-back or write-around (R234 to R237), after the core's
earlier requests on its line (12_model R330; assumption 121); an uncorrectable block that it would merge into kills the context (R224). -/
def execWritebackAccept (core k : Nat) (s : State) : Out :=
  if core < 1280 then
    match (s.core core).fc.wbs[k]? with
    | none => .next s
    | some w =>
      if s.olderAt core w.line w.id then .next s else
      let r := s.farWriteBytes (128 * w.line) w.bytes
      let t := (r.1.modCore core (fun j => { j with fc := { j.fc with wbs := dropAt k j.fc.wbs } }.count 0x27 1)).pumpFar core
      let t := match w.slot with
        | none => t
        | some i => t.withGang core i.slot i.uid (fun x => { x with stores := x.stores - 1 })
      if r.2 then .next t
      else .next (match w.slot with
        | none => t.coreFault core .uncorrEcc (128 * w.line)
        | some i => t.insnFault core i .uncorrEcc (128 * w.line))
  else .fault .noSuchUnit

end Sys2Proof.Machine
end

