-- ==== Sys2Proof/Machine/QueueRec.lean ====
section
/-!
DEFINITION. The records common to all queues and LAUNCH, the fetch of rings, commits and stepping (09_queues R254,
R262 to R273, R279 to R285; 06_slab R165 to R167; 10_cutplan R299).
-/

namespace Sys2Proof.Machine

/-! ### NOP, WAIT, SIGNAL, BARRIER, REBASE (R262 to R267) -/

/-- NOP (R262): retires at issue. -/
def execNopRec (core eng : Nat) (s : State) : Out :=
  onRecord s core eng 0x00 (fun _ _ _ => true) (fun r s => s.retire r.core r.e r.id)

/-- WAIT (R263): the queue is held until the tally is at least VALUE. -/
def execWaitRec (core eng : Nat) (s : State) : Out :=
  onRecord s core eng 0x01 (fun c ws s => s.waitClear c core eng (wbits ws 1 11 0)) (fun r s =>
    let vid := wbits r.ws 1 11 0
    let q := s.beginWait r 0 vid (wbits r.ws 1 63 32)
    let s := q.1.waitBegin core eng r.c r.slot vid 0 q.2.threshold q.2.seen (wbits r.ws 2 23 0)
    (s.modQueue core eng (fun x => { x with block := .wait q.2 })).progress core eng)

/-- The increment of a SIGNAL leaves (R264): a count of 0 changes nothing. -/
def State.signalSend (s : State) (core e : Nat) (fl : Flight) : State :=
  match (s.core core).ctx with
  | none => s
  | some c =>
    let vid := wbits fl.words 1 11 0
    let node := wbits fl.words 1 31 16
    let n := wbits fl.words 1 63 32
    let s := s.modQueue core e (fun q => { q with flight := q.flight.map (fun f => if f.id = fl.id then { f with releasing := false } else f) })
    if n = 0 then s.retire core e fl.id
    else if node ≠ 0xFFFF then s.sendSignal core e fl.id c node vid n
    else match (s.ctx c).home vid with
      | none => s
      | some h => s.sendTally { ctx := c, vid := vid, home := h, src := ⟨core, 16 + e⟩, act := .add n, qid := 4 * core + e, slot := fl.slot, retires := some fl.id }

/-- Whether a release of a queue at this scope goes to the far cache (R332): 1 CORE, 2 MODULE, 3 SYSTEM. -/
def releaseFar (e scope : Nat) : Bool := e == 0 && decide (scope ≥ 2)

/-- SIGNAL (R264): with a scope it releases first; then its increment leaves. -/
def execSignalRec (core eng : Nat) (s : State) : Out :=
  onRecord s core eng 0x02 (fun _ _ _ => true) (fun r t =>
    let scope := wbits r.ws 2 1 0
    match (t.queue core eng).flight.find? (fun f => f.id == r.id) with
    | none => t
    | some fl =>
      if releaseFar eng scope then
        let t := t.modQueue core eng (fun q => { q with flight := q.flight.map (fun f => if f.id = r.id then { f with releasing := true } else f) })
        t.farRelease core 16 r.c (scope == 3)
      else t.signalSend core eng fl)

/-- BARRIER (R266): tallies, then the barrier unit. -/
def execBarrierRec (core eng : Nat) (s : State) : Out :=
  let en0 := fun ws => wbits ws 1 12 12 == 1
  let en1 := fun ws => wbits ws 1 25 25 == 1
  onRecord s core eng 0x03 (fun c ws s =>
      (!en0 ws || s.waitClear c core eng (wbits ws 1 11 0)) && (!en1 ws || s.waitClear c core eng (wbits ws 1 24 13))) (fun r s =>
    let tids := (if en0 r.ws then [(wbits r.ws 1 11 0, wbits r.ws 1 63 32)] else []) ++ (if en1 r.ws then [(wbits r.ws 1 24 13, wbits r.ws 2 31 0)] else [])
    let q := tids.foldl (fun (a : State × List TWait) t =>
      let b := a.1.beginWait r a.2.length t.1 t.2
      (b.1.waitBegin core eng r.c r.slot t.1 0 t.2 b.2.seen (wbits r.ws 2 55 32), a.2 ++ [b.2])) (s, [])
    let unit := if wbits r.ws 1 30 30 = 1 then tblFind (wbits r.ws 1 29 26) (q.1.ctx r.c).units else none
    (q.1.modQueue core eng (fun x => { x with block := .barrier q.2 unit false })).progress core eng)

/-- REBASE (R267, R311): sent to the pair's home, in order with the queue's other tally operations; retires at issue. Q_CUR shows DELTA as the values clamp it. -/
def execRebaseRec (core eng : Nat) (s : State) : Out :=
  onRecord s core eng 0x04 (fun _ _ _ => true) (fun r s =>
    let p := wbits r.ws 1 11 0
    let k := wbits r.ws 1 23 12
    let s := match (s.ctx r.c).home p, (s.ctx r.c).home k with
      | some h, some h2 =>
        let d := wbits r.ws 1 63 32
        (s.modQueue core eng (fun q => q.showDelta r.id (s.rebaseDelta h h2 d))).sendTally
          { ctx := r.c, vid := p, home := h, src := ⟨core, 16 + eng⟩, act := .rebase k h2 d r.id, qid := 4 * core + eng, slot := r.slot }
      | _, _ => s
    s.retire core eng r.id)

/-! ### LOOP (R268, R269) -/

/-- A loop is entered with its count (R268): 0 skips the body. The queue has already passed the LOOP's own slot. -/
def Queue.enter (q : Queue) (body n : Nat) : Queue :=
  if n = 0 then { q with block := .none }.pass body
  else { q with block := .none, loops := { first := q.next, stop := (q.next + body) % q.size, left := n, count := n } :: q.loops }

def State.enterLoop (s : State) (core e id n : Nat) : State :=
  let q := s.queue core e
  match q.flight.find? (fun f => f.id == id) with
  | none => s
  | some fl => (s.setQueue core e (q.enter (wbits fl.words 1 5 0) n)).retire core e id

/-- LOOP (R268): a count in the record enters at once; a count word or a tally is read first. -/
def execLoopRec (core eng : Nat) (s : State) : Out :=
  onRecord s core eng 0x05 (fun _ _ _ => true) (fun r s =>
    let src := wbits r.ws 1 7 6
    if src = 0 then s.enterLoop core eng r.id (wbits r.ws 1 63 32)
    else
      let a := wbits r.ws 2 47 0
      if src = 1 ∧ !(a % 4 == 0 && (s.ctx r.c).farOk .r a 4) then s.infoFault r .windowFault a
      else s.modQueue core eng (fun q => { q with block := .loopRead (src == 2) }))

/-- LOOP_COUNT_READ (R268): the count word, read at the controller, or the tally's value, read at its home after the
queue's earlier operations there, arrives and the loop enters. -/
def execLoopCountRead (core eng : Nat) (s : State) : Out :=
  if core < 1280 ∧ eng < 4 then
    let q := s.queue core eng
    match s.live core, q.block, q.flight.find? (fun f => f.id == q.blockId) with
    | some _, .loopRead false, some fl =>
      let a := wbits fl.words 2 47 0
      let r := s.farRead a 4
      (match r.2 with
       | none => .next (r.1.flightFault core eng fl.id .uncorrEcc a)
       | some bs => .next (r.1.enterLoop core eng fl.id (ofLe bs)))
    | some c, .loopRead true, some fl =>
      (match (s.ctx c).home (wbits fl.words 1 19 8) with
       | none => .next s
       | some h => if s.opsPending ⟨core, 16 + eng⟩ h then .next s else .next (s.enterLoop core eng fl.id (s.tallyAt h).value))
    | _, _, _ => .next s
  else .fault .noSuchUnit

/-! ### PHASE (R270, R299) -/

/-- This queue is the lead engine of its die for the context (R288, R299). -/
def Ctx.isLead (x : Ctx) (core e : Nat) : Bool := tblFind (dieOf core) x.lead == some (4 * core + e)

/-- PHASE (R270, R299): a lead engine's mark takes the die's mark line, which it waits for; any engine's mark goes to the
trace. -/
def execPhaseRec (core eng : Nat) (s : State) : Out :=
  onRecord s core eng 0x06 (fun c _ s => !((s.ctx c).isLead core eng) || (tblGet ({} : Die) s.dies (dieOf core)).line.isNone) (fun r s =>
    let mark := wbits r.ws 1 15 0
    let lead := (s.ctx r.c).isLead core eng
    let s := if lead then
        let d := tblGet ({} : Die) s.dies (dieOf core)
        { s with dies := tblSet (dieOf core) { d with line := some (r.c, mark, s.now) } s.dies }
      else s
    let s := s.modCore core (fun k => (k.traceRec s.now r.c eng 2 (mark + 2 ^ 16 * boolN lead)).count 0x33 1)
    s.retire core eng r.id)

/-! ### POWER and the banks (R271; 06_slab R165 to R167) -/

def Slab.setBank (b : Slab) (bank : Nat) (x : BankState) : Slab := { b with banks := tblSet bank x b.banks }

/-- The oldest POWER record of a bank acts on it; the bank's later records wait behind it (R167). -/
def Slab.bankStep (bank : Nat) : Nat → Slab → Slab
  | 0, b => b
  | n + 1, b =>
    match b.powerWaits.find? (fun w => w.bank == bank) with
    | none => b
    | some w =>
      let done := Slab.bankStep bank n { b with powerWaits := b.powerWaits.erase w }
      match tblGet .on b.banks bank, w.on with
      | .on, true => done
      | .on, false => b.setBank bank .draining
      | .off, false => done
      | .off, true => b.setBank bank .waking
      | .draining, _ => b
      | .waking, _ => b

/-- POWER records with no bank left to wait for retire (R165, R167). -/
def State.powerSettle (s : State) (core : Nat) : State :=
  (List.range 4).foldl (fun t e =>
    ((t.queue core e).flight.filter (fun f => f.opc == 7 && !((t.core core).slab.powerWaits.any (fun w => w.eng == e && w.rec_ == f.id)))).foldl
      (fun t f => t.retire core e f.id) t) s

def State.stepBank (s : State) (core bank : Nat) : State :=
  s.modSlab core (fun b => b.bankStep bank (b.powerWaits.length + 1))

/-- POWER (R271, R165, R167). -/
def execPowerRec (core eng : Nat) (s : State) : Out :=
  onRecord s core eng 0x07 (fun _ _ _ => true) (fun r s =>
    let on := wbits r.ws 1 32 32 == 1
    let banks := (List.range 32).filter (fun i => bitOf (wbits r.ws 1 31 0) i)
    let s := s.modSlab core (fun b => { b with powerWaits := b.powerWaits ++ banks.map (fun i => { eng := eng, rec_ := r.id, bank := i, on := on }) })
    (banks.foldl (fun t i => t.stepBank core i) s).powerSettle core)

/-- The planned writes of the matrix engine to a bank that are still due (R165). -/
def MatrixEngine.due (m : MatrixEngine) (bank : Nat) : Bool :=
  m.events.any (fun e => match e.act with | .write _ _ slab => slab % 32 == bank | _ => false)

/-- BANK_OFF (R165): a draining bank with no write in flight goes OFF. -/
def execBankOff (core bank : Nat) (s : State) : Out :=
  if core < 1280 ∧ bank < 32 then
    let k := s.core core
    if tblGet .on k.slab.banks bank = .draining ∧ k.slab.inflightWrites bank = 0 ∧ !k.me.due bank then
      .next (((s.modSlab core (fun b => b.setBank bank .off)).stepBank core bank).powerSettle core)
    else .next s
  else .fault .noSuchUnit

/-- Writes zeros with fresh check bits into all slabs of a bank (R167). -/
def Slab.zeroBank (b : Slab) (bank : Nat) : Slab :=
  { b with mem := b.mem.filter (fun x => x.1 / 512 % 32 != bank), bad := b.bad.filter (fun x => x.1 / 8 % 32 != bank)
           rewrites := b.rewrites.filter (fun w => w / 8 % 32 != bank) }

/-- BANK_ON (R167): a waking bank has written its zeros and goes ON; what the array held up for it goes on (04_matrix R113). -/
def execBankOn (core bank : Nat) (s : State) : Out :=
  if core < 1280 ∧ bank < 32 then
    if tblGet .on (s.core core).slab.banks bank = .waking then
      .next ((((s.modSlab core (fun b => (b.zeroBank bank).setBank bank .on)).stepBank core bank).powerSettle core).pumpMe core)
    else .next s
  else .fault .noSuchUnit

/-! ### CLEAR_FLAGS and FENCE (R271, R272) -/

/-- CLEAR_FLAGS (R271): clears the sticky flags of its own engine. -/
def execClearFlags (core eng : Nat) (s : State) : Out :=
  onRecord s core eng 0x08 (fun _ _ _ => true) (fun r s =>
    (s.modCore core (fun k =>
      if eng = 0 then { k with ge := { k.ge with flags := {} } }
      else if eng = 1 then { k with me := { k.me with flags := {} } }
      else k.setMv eng { k.mv eng with flags := {} })).retire core eng r.id)

/-- The last step of a FENCE (R272, R335): the acquire, and the record retires. -/
def State.fenceEnd (s : State) (core e c : Nat) (fl : Flight) : State :=
  let kind := wbits fl.words 1 3 2
  let s := if e = 0 ∧ kind ≠ 0 ∧ wbits fl.words 1 1 0 ≠ 0 then s.modCore core (fun k => { k with fc := k.fc.acquire c }) else s
  (s.modQueue core e (fun q => { q with block := .none })).retire core e fl.id

/-- The second step of a FENCE (R272): its fence-object operation leaves for the controller. -/
def State.fenceFop (s : State) (core e c : Nat) (fl : Flight) : State :=
  let fop := wbits fl.words 1 5 4
  let a := wbits fl.words 2 47 0
  if fop = 0 then s.fenceEnd core e c fl
  else
    let s := s.modQueue core e (fun q => { q with block := .fence 1 true, blockStart := s.ctxNow c })
    let s := if fop = 2 then s.waitBegin core e c fl.slot 0 3 (wbits fl.words 3 31 0) 0 (wbits fl.words 1 31 8) else s
    { s with net := { s.net with fobj := s.net.fobj ++
        [({ ctx := c, who := ⟨core, 16 + e⟩, addr := a, max := if fop = 1 then some (fl.words.getD 3 0).toNat else none } : FobjMsg)] } }

/-- The address rules of a fence object (03_sett R90): far memory, 16-byte aligned, the rights of the operation. -/
def Ctx.fenceObjOk (x : Ctx) (signal : Bool) (a : Nat) : Bool :=
  a % 16 == 0 && x.farOk .r a 16 && (!signal || x.farOk .w a 16)

/-- FENCE (R272): release, fence-object operation, acquire. -/
def execFenceRec (core eng : Nat) (s : State) : Out :=
  onRecord s core eng 0x09 (fun _ _ _ => true) (fun r s =>
    let scope := wbits r.ws 1 1 0
    let kind := wbits r.ws 1 3 2
    let fop := wbits r.ws 1 5 4
    let a := wbits r.ws 2 47 0
    if fop ≠ 0 ∧ !(s.ctx r.c).fenceObjOk (fop == 1) a then s.infoFault r .windowFault a
    else
      match (s.queue core eng).flight.find? (fun f => f.id == r.id) with
      | none => s
      | some fl =>
        if kind ≠ 1 ∧ releaseFar eng (scope + 1) then
          let s := s.modQueue core eng (fun q => { q with block := .fence 0 false })
          s.farRelease core 16 r.c (scope == 2)
        else s.fenceFop core eng r.c fl)

/-! ### LAUNCH (R27 to R31, R273) -/

/-- LAUNCH (R28, R273): the launch waits for slots; a count of 0 retires at once. -/
def execLaunchRec (core eng : Nat) (s : State) : Out :=
  onRecord s core eng 0x20 (fun _ _ _ => true) (fun r s =>
    let n := wbits r.ws 1 52 48
    let l : Launch := { id := r.id, entry := BitVec.ofNat 48 (wbits r.ws 1 47 0 / 8 * 8)
                        args := (List.range 8).map (fun i => r.ws.getD (4 + i) 0), count := n, started := 0, live := 0
                        start := s.ctxNow r.c, tmo := wbits r.ws 2 23 0 }
    let s := s.modCore core (fun k => { k with ge := { k.ge with seedNow := k.ge.seed } })
    if n = 0 then s.retire core eng r.id
    else s.modCore core (fun k => { k with ge := { k.ge with launches := k.ge.launches ++ [l] } }))

/-! ### Ring fetches (R254) -/

/-- RING_FETCH (R254): an aligned block of 16 slots arrives and its slots up to TAIL are decoded. -/
def execRingFetch (core eng : Nat) (hostOk : Bool) (hostData : List Byte) (s : State) : Out :=
  if core < 1280 ∧ eng < 4 then
    match s.live core with
    | none => .next s
    | some c =>
      let q := s.queue core eng
      let x := s.ctx c
      if !q.inForce.enable || q.fetch == q.tail || decide (q.onchip.length ≥ 64) || x.suspendReq.isSome then .next s
      else
        let b := q.inForce.base + 32 * (q.fetch / 16 * 16)
        let n := min (16 - q.fetch % 16) (min (q.dist q.fetch q.tail) (64 - q.onchip.length))
        let take := fun (bs : List Byte) (t : State) =>
          let rec_ := fun i => (q.fetch + i, (List.range 4).map (fun j => BitVec.ofNat 64 (ofLe ((bs.drop (32 * ((q.fetch + i) % 16) + 8 * j)).take 8))))
          t.setQueue core eng { q with onchip := q.onchip ++ (List.range n).map rec_, fetch := (q.fetch + n) % q.size }
        let fault := .next (s.recFault c core eng .windowFault q.fetch [] b)
        match addrClass b with
        | .far =>
          if x.farOk .r b 512 then
            let r := s.farRead b 512
            match r.2 with
            | none => .next (r.1.recFault c core eng .uncorrEcc q.fetch [] b)
            | some bs => .next (take bs r.1)
          else fault
        | .host =>
          if x.granted .r b 512 then
            if hostOk then .next (take ((List.range 512).map (fun i => hostData.getD i 0)) s)
            -- the host rejected the page: the Foreman suspends the context (R254, 02_gangs R56)
            else .next (s.modCtx c (fun x => { x with suspendReq := some (x.hostAddr b / 4096 * 4096) }))
          else fault
        | _ => fault
  else .fault .noSuchUnit

/-! ### Commits and stepping (R279 to R285) -/

/-- QUEUE_COMMIT (R285): software commits the staged fields. -/
def execQueueCommit (core eng : Nat) (s : State) : Out :=
  if core < 1280 ∧ eng < 4 then .next (s.modQueue core eng (fun q => { q with commit := .software }))
  else .fault .noSuchUnit

/-- The commit puts the staged fields in force and sets the indices (R285). -/
def Queue.commitNow (q : Queue) : Queue :=
  let n := 2 ^ q.staged.log2
  let go := fun (h t : Nat) => { q with inForce := q.staged, commit := .none, head := h % n, fetch := h % n, next := h % n, tail := t % n
                                        onchip := [], loops := [] }
  match q.commit with
  | .none => q
  | .software => go 0 0
  | .foreman h t => go h t

/-- QUEUE_COMMIT_EFFECT (R285): in a cycle with no record on chip and none in flight. -/
def execQueueCommitEffect (core eng : Nat) (s : State) : Out :=
  if core < 1280 ∧ eng < 4 then
    let q := s.queue core eng
    if q.onchip = [] ∧ q.flight = [] then .next (s.setQueue core eng q.commitNow) else .next s
  else .fault .noSuchUnit

/-- Sets or clears HALT of a queue (R279, R281). -/
def State.haltQueue (s : State) (core e : Nat) (v : Bool) : State :=
  let q := s.queue core e
  let s := s.setQueue core e { q with halt := v, halted := v, stepArm := q.stepArm && v }
  match (s.core core).ctx with
  | none => s
  | some c =>
    let s := s.rehalt c
    if v && !q.halt then s.tail (ringOf core e) 8 c none q.next 0 0 else s

/-- HALT (R279). -/
def execHalt (core eng : Nat) (value : Bool) (s : State) : Out :=
  if core < 1280 ∧ eng < 4 then .next (s.haltQueue core eng value) else .fault .noSuchUnit

/-- STEP (R280): no effect while HALTED is 0. -/
def execStepOne (core eng : Nat) (s : State) : Out :=
  if core < 1280 ∧ eng < 4 then
    let q := s.queue core eng
    if q.halted then
      .next ((s.setQueue core eng { q with stepArm := true }).tail (ringOf core eng) 8 ((s.core core).ctx.getD 0) none (q.next + 2 ^ 12) 0 0)
    else .next s
  else .fault .noSuchUnit

/-- BRK_EN (R282). -/
def execBrkEn (core eng : Nat) (value : Bool) (s : State) : Out :=
  if core < 1280 ∧ eng < 4 then .next (s.modQueue core eng (fun q => { q with brkEn := value })) else .fault .noSuchUnit

end Sys2Proof.Machine
end

