-- ==== Sys2Proof/Machine/GangSync.lean ====
section
/-!
DEFINITION. Synchronisation of gangs, and the messages of tallies, tokens, barriers and fence objects (02_gangs R64;
03_sett R87 to R91; 11_tallies R306 to R320; 13_contexts R362 to R364).
-/

namespace Sys2Proof.Machine

/-! ### TSIG, TWAIT, TREAD (R87, R309) -/

/-- The one scalar operand of format T: a register, a special value (R71, R72) or the immediate. -/
def tSrc (env : GangEnv) (x : Gang) (f : TForm) : Nat := if f.ib then f.ext.toNat else x.scalarOp env 0 f.src

def tUse (f : TForm) : RegUse := if f.ib ∨ f.src ≥ 64 then {} else { sr := [f.src] }

/-- TSIG (R87, R309): the increment leaves for the home; a count of 0 does nothing. -/
def execTsig (g : GangAt) (f : TForm) (s : State) : Out :=
  onGang s g (.tsig g f) false (tUse f) (fun c x env t =>
    match (t.ctx c).home f.tid with
    | none => t.gangFault g.core g.slot .illegalInsn 0
    | some h =>
      let n := tSrc env x f % 2 ^ 32
      let t := t.setGang g.core g.slot (x.advance g.next)
      if n = 0 then t
      else t.sendTally { ctx := c, vid := f.tid, home := h, src := ⟨g.core, g.slot⟩, act := .add n, gang := g.slot, npc := x.pc.toNat
                         qid := 4 * g.core, slot := ((t.launchFlight g.core x.uid).map Flight.slot).getD 0xFFFF })

/-- TWAIT (R87, R307): satisfied at once, or the gang waits; elsewhere than at its own core a watch is sent. -/
def execTwait (g : GangAt) (f : TForm) (s : State) : Out :=
  onGangTry s g (.twait g f) false (tUse f) (fun c x env t =>
    match (t.ctx c).home f.tid with
    | none => some (t.gangFault g.core g.slot .illegalInsn 0)
    | some h =>
      let v := tSrc env x f % 2 ^ 32
      let here := !h.hub && h.core == g.core
      let seen := (t.tallyAt h).value
      if here && t.opsPending ⟨g.core, g.slot⟩ h then none
      else if here && (t.tallyAt h).reached v then some (t.setGang g.core g.slot (x.advance g.next))
      else
        let t := t.tail (ringOf g.core 0) 3 c (some g.slot) (0xFFF + 2 ^ 12 * f.tid) (v + 2 ^ 32 * (if here then seen else 0)) (min f.tmo 10000000)
        let t := t.setGang g.core g.slot { x with wait := .tally f.tid v (t.ctxNow c) f.tmo x.nextId, nextId := x.nextId + 1, resume := g.next }
        if here then some t
        else some { t with net := { t.net with watches := t.net.watches ++
          [({ ctx := c, who := ⟨g.core, g.slot⟩, idx := 0, serial := x.nextId, home := h, threshold := v } : Watch)] } })

/-- TREAD (R87, R309): the value at the home; from elsewhere it comes back as a reply. -/
def execTread (g : GangAt) (f : TForm) (s : State) : Out :=
  onGangTry s g (.tread g f) false { sw := [f.src] } (fun c x _ t =>
    match (t.ctx c).home f.tid with
    | none => some (t.gangFault g.core g.slot .illegalInsn 0)
    | some h =>
      if t.opsPending ⟨g.core, g.slot⟩ h then none
      else if !h.hub && h.core == g.core then
        some (t.setGang g.core g.slot ((x.setS f.src (BitVec.ofNat 64 (t.tallyAt h).value)).advance g.next))
      else
        let t := t.setGang g.core g.slot ({ x with busyS := x.busyS ++ [f.src] }.advance g.next)
        some { t with net := { t.net with reads := t.net.reads ++
          [({ who := ⟨g.core, g.slot⟩, ctx := c, home := h, vid := f.tid, uid := x.uid, dreg := f.src } : ReadMsg)] } })

/-- TREAD_REPLY (R309): the home has read the tally and its value reaches the gang's register. -/
def execTreadReply (k : Nat) (s : State) : Out :=
  match firstOf (fun a b => a.who == b.who && a.home.place == b.home.place) k s.net.reads with
  | none => .next s
  | some m =>
    let t := { s with net := { s.net with reads := dropAt k s.net.reads } }
    let x := t.gang m.who.core m.who.unit
    if (s.ctx m.ctx).killing ∨ !x.live ∨ x.uid ≠ m.uid then .next t
    else .next (t.setGang m.who.core m.who.unit ({ x with busyS := x.busyS.erase m.dreg }.setS m.dreg (BitVec.ofNat 64 (s.tallyAt m.home).value)))

/-! ### Fences and fence objects (R89, R90; 12_model R332, R335) -/

/-- Every earlier access of the gang has completed (R332). -/
def Gang.quiet (x : Gang) : Bool := x.loads.isEmpty && x.stores == 0

/-- FENCE_INSN (R89): release and acquire at the scope. -/
def execFenceInsn (g : GangAt) (f : FForm) (s : State) : Out :=
  onGangTry s g (.fenceInsn g f) false {} (fun c x _ t =>
    let go := t.setGang g.core g.slot (x.advance g.next)
    if f.fk ≠ 1 ∧ !x.quiet then none
    else if f.sc = 0 then some go
    else if f.fk = 1 then some (go.modCore g.core (fun k => { k with fc := k.fc.acquire c }))
    else
      let t := t.setGang g.core g.slot { x with wait := .fence f.sc (f.fk == 2), resume := g.next }
      some (t.farRelease g.core g.slot c (f.sc == 2)))

def fUse (f : FForm) : RegUse := { sr := (if f.a < 64 then [f.a] else []) ++ (if f.ib ∨ f.b ≥ 64 then [] else [f.b]) }

/-- The value operand of format F, 64 bits. -/
def fVal (env : GangEnv) (x : Gang) (f : FForm) : Nat := if f.ib then f.ext.toNat else x.scalarOp env 0 f.b % 2 ^ 64

/-- Sends a fence-object operation to the controller. -/
def State.sendFobj (s : State) (c : Nat) (who : Waiter) (a : Nat) (mx : Option Nat) : State :=
  { s with net := { s.net with fobj := s.net.fobj ++ [({ ctx := c, who := who, addr := a, max := mx } : FobjMsg)] } }

/-- FSIG (R90): a release, then the maximum at the controller. -/
def execFsig (g : GangAt) (f : FForm) (s : State) : Out :=
  onGangTry s g (.fsig g f) false (fUse f) (fun c x env t =>
    let a := x.scalarOp env 0 f.a % 2 ^ 64
    let v := fVal env x f
    match (t.ctx c).atomFault a 16 with
    | some cause => some (t.gangFault g.core g.slot cause a)
    | none =>
      if !x.quiet then none
      else
        let t := t.setGang g.core g.slot { x with wait := .fsig a v f.sc (f.sc == 0), resume := g.next }
        if f.sc = 0 then some (t.sendFobj c ⟨g.core, g.slot⟩ a (some v))
        else some (t.farRelease g.core g.slot c (f.sc == 2)))

/-- FWAIT (R90): the object is read at the controller until the wait ends. -/
def execFwait (g : GangAt) (f : FForm) (s : State) : Out :=
  onGang s g (.fwait g f) false (fUse f) (fun c x env t =>
    let a := x.scalarOp env 0 f.a % 2 ^ 64
    let v := fVal env x f
    let bad := if !(t.ctx c).farOk .r a 16 then some Cause.windowFault else if a % 16 ≠ 0 then some .illegalInsn else none
    match bad with
    | some cause => t.gangFault g.core g.slot cause a
    | none =>
      let t := t.tail (ringOf g.core 0) 3 c (some g.slot) (0xFFF + 3 * 2 ^ 24) (v % 2 ^ 32) (min f.tmo 10000000)
      let t := t.setGang g.core g.slot { x with wait := .fwait f.d a v f.sc (t.ctxNow c) f.tmo true, resume := g.next }
      t.sendFobj c ⟨g.core, g.slot⟩ a none)

/-- FWAIT_POLL (R90, R272): a pending wait on a fence object reads it again; unit 0 to 15 a gang slot, 16 to 19 the FENCE
of a queue. -/
def execFwaitPoll (core slot : Nat) (s : State) : Out :=
  if core < 1280 ∧ slot < 20 then
    match s.live core with
    | none => .next s
    | some c =>
      if slot < 16 then
        let x := s.gang core slot
        match x.wait with
        | .fwait d a v sc st tmo false => .next ((s.setGang core slot { x with wait := .fwait d a v sc st tmo true }).sendFobj c ⟨core, slot⟩ a none)
        | _ => .next s
      else
        let e := slot - 16
        let q := s.queue core e
        match q.block, q.flight.find? (fun f => f.id == q.blockId) with
        | .fence 1 false, some fl =>
          .next ((s.setQueue core e { q with block := .fence 1 true }).sendFobj c ⟨core, slot⟩ (wbits fl.words 2 47 0) none)
        | _, _ => .next s
  else .fault .noSuchUnit

/-- The acquire of a wait that ends (R240, R335). -/
def State.acquireAt (s : State) (core c scope : Nat) : State :=
  if scope = 0 then s else s.modCore core (fun k => { k with fc := k.fc.acquire c })

/-- The reply of a fence-object operation reaches a gang (R90): what the value word and the status word held. -/
def State.fobjGang (s : State) (core slot c v status : Nat) : State :=
  let x := s.gang core slot
  match x.wait with
  | .fsig _ _ _ true => s.setGang core slot x.wake
  | .fwait d a val sc st tmo true =>
    if v ≥ val ∨ status % 4 = 2 then
      let y := x.setP d (if v ≥ val then 0xFFFFFFFF else 0)
      ((s.setGang core slot y.wake).acquireAt core c sc).tail (ringOf core 0) 4 c (some slot) (0xFFF + 3 * 2 ^ 24) (val % 2 ^ 32 + 2 ^ 32 * (v % 2 ^ 32)) 0
    else s.setGang core slot { x with wait := .fwait d a val sc st tmo false }
  | _ => s

/-- The wait of a FENCE expires, or finds its object ABANDONED (R258, R272). -/
def State.waitExpired (s : State) (c core e tag kind thr seen tally home : Nat) (fl : Flight) : State :=
  let s := s.waitEnd core e c fl.slot fl.start tag kind thr seen true
  s.raise c { cause := .syncTimeout, core := core, engine := e, qid := 4 * core + e, slot := fl.slot, tally := tally, home := home
              value := thr % 2 ^ 32 + 2 ^ 32 * (seen % 2 ^ 32), record := fl.words }

/-- The reply of a fence-object operation reaches a FENCE (R272): an ABANDONED object ends the wait as expired. -/
def State.fobjQueue (s : State) (core e c v status : Nat) : State :=
  let q := s.queue core e
  match q.block, q.flight.find? (fun f => f.id == q.blockId) with
  | .fence 1 true, some fl =>
    let val := (fl.words.getD 3 0).toNat
    if wbits fl.words 1 5 4 = 1 then s.fenceEnd core e c fl
    else if v ≥ val then (s.waitEnd core e c fl.slot fl.start 0 3 val v false).fenceEnd core e c fl
    else if status % 4 = 2 then s.waitExpired c core e 2 3 val v 0 0 fl
    else s.setQueue core e { q with block := .fence 1 false }
  | _, _ => s

/-- FENCE_OBJECT_REPLY: the controller performs the k-th operation on a fence object and its reply arrives (R90, R272,
R362). -/
def execFenceObjectReply (k : Nat) (s : State) : Out :=
  match firstOf (fun a b => a.who == b.who) k s.net.fobj with
  | none => .next s
  | some m =>
    let s := { s with net := { s.net with fobj := dropAt k s.net.fobj } }
    let r := s.farRead m.addr 16
    match r.2 with
    | none =>
      if m.who.unit < 16 then .next (r.1.gangFault m.who.core m.who.unit .uncorrEcc m.addr)
      else .next (r.1.flightFault m.who.core (m.who.unit - 16) (r.1.queue m.who.core (m.who.unit - 16)).blockId .uncorrEcc m.addr)
    | some bs =>
      let v := ofLe (bs.take 8)
      let status := ofLe (bs.drop 8)
      let t := match m.max with
        | some n => (r.1.farWrite m.addr (leBytes 8 (max v n))).1
        | none => r.1
      if (t.ctx m.ctx).killing then .next t
      else if m.who.unit < 16 then .next (t.fobjGang m.who.core m.who.unit m.ctx v status)
      else .next (t.fobjQueue m.who.core (m.who.unit - 16) m.ctx v status)

/-- A release has ended: its gang, its FENCE or its SIGNAL goes on (R89, R90, R264, R272). -/
def State.releaseDone (s : State) (core : Nat) (r : FcRelease) : State :=
  if r.unit < 16 then
    let x := s.gang core r.unit
    match x.wait with
    | .fence _ acq => let t := s.setGang core r.unit x.wake; if acq then t.acquireAt core r.ctx 1 else t
    | .fsig a v sc false => (s.setGang core r.unit { x with wait := .fsig a v sc true }).sendFobj r.ctx ⟨core, r.unit⟩ a (some v)
    | _ => s
  else
    let q := s.queue core 0
    match q.block, q.flight.find? (fun f => f.id == q.blockId) with
    | .fence 0 false, some fl => s.fenceFop core 0 r.ctx fl
    | _, _ =>
      match q.flight.find? (fun f => f.releasing) with
      | some fl => s.signalSend core 0 fl
      | none => s

/-- FAR_CACHE_RELEASE_DONE (R240, R241): the oldest release with nothing left to write back ends. -/
def execFarCacheReleaseDone (core : Nat) (s : State) : Out :=
  if core < 1280 then
    let fc := (s.core core).fc
    match s.live core, fc.releases.find? fc.released with
    | some _, some r =>
      .next ((s.modCore core (fun k => { k with fc := { k.fc with releases := k.fc.releases.erase r } })).releaseDone core r)
    | _, _ => .next s
  else .fault .noSuchUnit

/-! ### The allocator (R91; 13_contexts R363, R364) -/

def aUse (f : AForm) : RegUse := { sr := if f.ib ∨ f.a ≥ 64 then [] else [f.a], sw := [f.d] }
def aArg (env : GangEnv) (x : Gang) (f : AForm) : Nat := if f.ib then f.ext.toNat else x.scalarOp env 0 f.a % 2 ^ 64

/-- ALLOC (R91): a size of 0 returns 0 without a call; otherwise the gang waits for the Foreman's reply. -/
def execAlloc (g : GangAt) (f : AForm) (s : State) : Out :=
  onGang s g (.alloc g f) false (aUse f) (fun c x env t =>
    let n := aArg env x f
    if n = 0 then t.setGang g.core g.slot ((x.setS f.d 0).advance g.next)
    else
      let t := t.setGang g.core g.slot { x with wait := .alloc f.d, resume := g.next }
      { t with net := { t.net with services := t.net.services ++
        [({ ctx := c, core := g.core, slot := g.slot, uid := x.uid, dreg := f.d, size := n, aln := max 6 (min 26 f.aln), pool := f.pool } : AllocMsg)] } })

/-- The range of a heap's window, if the window is valid with R and W rights (R363). -/
def Ctx.heap (x : Ctx) (h : Option Nat) : Option (Nat × Nat × Nat) :=
  match h with
  | none => none
  | some i =>
    let w := tblGet ({} : Window) x.windows i
    if w.valid && w.r && w.w then some (i, 65536 * w.base, 65536 * w.bound) else none

/-- Inserts a block in address order. -/
def insertBlock (b : Block) : List Block → List Block
  | [] => [b]
  | c :: t => if b.addr < c.addr then b :: c :: t else c :: insertBlock b t

/-- The free ranges between the blocks of a heap, ascending: start and end. They lie in the heap's window, whatever blocks
lie outside it since the window was replaced. -/
def freeRanges (lo hi : Nat) : List Block → List (Nat × Nat)
  | [] => if lo < hi then [(lo, hi)] else []
  | b :: t => (if lo < min b.addr hi then [(lo, min b.addr hi)] else []) ++ freeRanges (max lo (b.addr + b.size)) hi t

/-- How many places of a free range hold `n` bytes at alignment `al`. -/
def rangePlaces (n al : Nat) (r : Nat × Nat) : Nat :=
  let a := cdiv r.1 al * al
  if a + n ≤ r.2 then (r.2 - n - a) / al + 1 else 0

/-- A place in the smallest free range that fits (R363); of several such ranges and places it is the Foreman's choice,
which `pick` settles (free, assumption 30). -/
def bestRange (pick n al : Nat) (rs : List (Nat × Nat)) : Option Nat :=
  let ok := rs.filter (fun r => rangePlaces n al r != 0)
  let least := (ok.map (fun r => r.2 - r.1)).min?
  let best := ok.filter (fun r => some (r.2 - r.1) == least)
  let total := (best.map (rangePlaces n al)).foldl (· + ·) 0
  if total = 0 then none else placeIn n al (if total = 1 then 0 else pick % total) best
where
  /-- The k-th place of some ranges. -/
  placeIn (n al : Nat) : Nat → List (Nat × Nat) → Option Nat
    | _, [] => none
    | k, r :: t =>
      if k < rangePlaces n al r then some (cdiv r.1 al * al + al * k) else placeIn n al (k - rangePlaces n al r) t

/-- alloc at the Foreman (R363): the address, or 0. -/
def Ctx.allocate (x : Ctx) (pick size aln pool : Nat) : Ctx × Nat :=
  let n := cdiv size 64 * 64
  let i := x.heap x.heapI
  let h := if pool = 1 then (match x.heapL with | some l => x.heap (some l) | none => i) else i
  match h with
  | none => (x, 0)
  | some (w, lo, hi) =>
    if x.blocks.length ≥ 65536 then (x, 0)
    else match bestRange pick n (2 ^ aln) (freeRanges lo hi (x.blocks.filter (fun b => b.heap == w))) with
      | none => (x, 0)
      | some a => ({ x with blocks := insertBlock { heap := w, addr := a, size := n } x.blocks }, a)

/-- ALLOC_REPLY (R363): the oldest service call is served and its reply arrives; after step 1 of a kill it is discarded
(R364). -/
def execAllocReply (k : Nat) (s : State) : Out :=
  match firstOf (fun _ _ => true) k s.net.services with
  | none => .next s
  | some m =>
    let t := { s with net := { s.net with services := dropAt k s.net.services } }
    let x := t.ctx m.ctx
    let g := t.gang m.core m.slot
    if x.killing ∨ !g.live ∨ g.uid ≠ m.uid then .next t
    else
      let d := t.draw
      let t := d.2
      let r := x.allocate (Config.freePlace d.1) m.size m.aln m.pool
      .next ((t.setCtx m.ctx r.1).setGang m.core m.slot (g.setS m.dreg (BitVec.ofNat 64 r.2)).wake)

/-- FREE (R91, R364): a live block's range returns to the heap; an address that starts no block is counted. -/
def execFree (g : GangAt) (f : AForm) (s : State) : Out :=
  onGang s g (.free g f) false { (aUse f) with sw := [] } (fun c x env t =>
    let a := aArg env x f
    let t := t.setGang g.core g.slot (x.advance g.next)
    if a = 0 then t
    else t.modCtx c (fun y =>
      if y.blocks.any (fun b => b.addr == a) then { y with blocks := y.blocks.filter (fun b => b.addr != a) }
      else { y with badFree := satAdd 0xFFFFFFFF y.badFree 1 }))

/-! ### Tally messages (R306 to R311) -/

/-- An increment from another module reaches a context that has left its bench, or that has been placed anew, since the
module took it: it is handled as one that arrives now (R319). -/
def State.remoteLate (s : State) (m : TallyMsg) : State :=
  match m.act with
  | .add n => s.remoteAdd m.ctx m.vid n
  | .rebase .. => s

/-- TALLY_OPERATION: the k-th operation in flight takes effect at its home, after those of the same source to the same
home (R265, R306, R309); the home tests its waits (R307), and a SIGNAL record retires (R262). -/
def execTallyOperation (k : Nat) (s : State) : Out :=
  match firstOf (fun a b => a.src == b.src && a.home.place == b.home.place) k s.net.tally with
  | none => .next s
  | some m =>
    if s.net.reads.any (fun r => r.who == m.src && r.home.place == m.home.place) then .next s
    else
      let t := { s with net := { s.net with tally := dropAt k s.net.tally } }
      if 1280 ≤ m.src.core ∧ ((s.ctx m.ctx).state ≠ .placed ∨ (s.ctx m.ctx).home m.vid ≠ some m.home) then .next (t.remoteLate m)
      else if (s.ctx m.ctx).killing then .next t
      else
        let t := match m.act with
          | .add n => t.addTally m n
          | .rebase _ h2 d id => (t.rebaseTally m.home h2 d).modQueue m.src.core (m.src.unit - 16) (fun q => q.showDelta id (t.rebaseDelta m.home h2 d))
        let t := if m.home.hub then t.hubCount 0 2 1 else t.count m.home.core 0x2C 1
        let t := (t.fire m.home).pokeLocal m.home
        match m.retires with
        | some id => .next (t.retire m.src.core (m.src.unit - 16) id)
        | none => .next t

/-- Watches that a home holds, and its limit (R308): a core block holds those from other cores. -/
def watchRoom (h : Home) : Nat := if h.hub then 8192 else 64

/-- WATCH: the k-th watch in flight arrives at its home (R307, R308), after the waiter's earlier operations there. -/
def execWatch (k : Nat) (s : State) : Out :=
  match s.net.watches[k]? with
  | none => .next s
  | some w =>
    if s.opsPending w.who w.home then .next s
    else
      let t := { s with net := { s.net with watches := dropAt k s.net.watches } }
      if (s.ctx w.ctx).killing then .next t
      else if (s.tallyAt w.home).reached w.threshold then
        .next { t with net := { t.net with wakes := t.net.wakes ++ [({ who := w.who, idx := w.idx, serial := w.serial, ctx := w.ctx } : Wake)] } }
      else if (s.watchesAt w.home).length ≥ watchRoom w.home then
        let t := { t with net := { t.net with refused := t.net.refused ++ [w] } }
        if w.home.hub then
          .next (({ t with hub := { t.hub with full := satAdd 0xFFFF t.hub.full 1 } }.tail (hubRing 0) 0x0E w.ctx none
            ((tblGet ({} : HubSlot) s.hub.tallies w.home.slot).vid + 2 ^ 12 * w.who.core) 0 0).hubCount 0 4 1)
        else .next ((t.modCore w.home.core (fun k => { k with tally := { k.tally with retry := satAdd 0xFFFF k.tally.retry 1 } })).count w.home.core 0x30 1)
      else .next (t.setWatches w.home (t.watchesAt w.home ++ [w]))

/-- WATCH_RETRY (R308): a refused watch is sent again. -/
def execWatchRetry (k : Nat) (s : State) : Out :=
  match s.net.refused[k]? with
  | none => .next s
  | some w => .next { s with net := { s.net with refused := dropAt k s.net.refused, watches := s.net.watches ++ [w] } }

/-- WAKE (R307): the k-th wake reaches its waiter. -/
def execWake (k : Nat) (s : State) : Out :=
  match s.net.wakes[k]? with
  | none => .next s
  | some w =>
    let t := { s with net := { s.net with wakes := dropAt k s.net.wakes } }
    let core := w.who.core
    if (s.ctx w.ctx).killing then .next t
    else if w.who.unit < 16 then
      let x := t.gang core w.who.unit
      match x.wait with
      | .tally vid thr _ _ ser =>
        if ser = w.serial ∧ x.live then
          .next ((t.setGang core w.who.unit x.wake).tail (ringOf core 0) 4 w.ctx (some w.who.unit) (0xFFF + 2 ^ 12 * vid) (thr % 2 ^ 32 + 2 ^ 32 * (thr % 2 ^ 32)) 0)
        else .next t
      | _ => .next t
    else
      let e := w.who.unit - 16
      let q := t.queue core e
      if q.blockId = w.serial then
        let ws := q.block.waits.mapIdx (fun i (x : TWait) => if i = w.idx then { x with done := true, seen := x.threshold } else x)
        .next ((t.setQueue core e { q with block := q.block.setWaits ws }).progress core e)
      else .next t

/-! ### Tokens and barriers (R314 to R318) -/

/-- TOKEN_ARRIVAL (R314, R315). -/
def execTokenArrival (k : Nat) (s : State) : Out :=
  match s.net.tokens[k]? with
  | none => .next s
  | some m =>
    let t := { s with net := { s.net with tokens := dropAt k s.net.tokens } }
    if (s.ctx m.ctx).killing then .next t else .next (t.addToken m.ctx m.core m.cls m.qid m.slot)

def State.unit (s : State) (u : Nat) : BarUnit := tblGet {} s.hub.units u
def State.setUnit (s : State) (u : Nat) (b : BarUnit) : State := { s with hub := { s.hub with units := tblSet u b s.hub.units } }

/-- The hub ring's entry of a barrier event (19_debug_test R525). -/
def State.barTail (s : State) (u qid code gen : Nat) : State :=
  s.tail (hubRing 1) 0x0C (s.unit u).ctx none (u + 2 ^ 8 * (s.unit u).vunit + 2 ^ 12 * qid + 2 ^ 25 * code) (gen % 2 ^ 32) 0

/-- Generation g fills when its bitmap holds every participant; releases go to all of them (R317). -/
def State.fillUnit (s : State) (u : Nat) : State :=
  let b := s.unit u
  if !b.filled ∧ b.parts ≠ [] ∧ b.parts.all (fun p => b.arr0.contains p) then
    let s := s.setUnit u { b with filled := true, owed := b.parts }
    let s := b.parts.foldl (fun t p => t.barTail u p 1 b.gen) s
    { s with net := { s.net with releases := s.net.releases ++ b.parts.map (fun p => ({ ctx := b.ctx, unit := u, qid := p, gen := b.gen } : BarMsg)) } }
  else s

/-- An arrival (R317): entered in g, in g + 1, or held for g + 2. -/
def State.arrive (s : State) (u qid : Nat) : State :=
  let b := s.unit u
  if !b.arr0.contains qid then ((s.setUnit u { b with arr0 := b.arr0 ++ [qid] }).barTail u qid 0 b.gen).fillUnit u
  else if !b.arr1.contains qid then (s.setUnit u { b with arr1 := b.arr1 ++ [qid] }).barTail u qid 0 (b.gen + 1)
  else ((s.setUnit u { b with held := b.held ++ [qid] }).barTail u qid 2 (b.gen + 2)).hubCount 1 3 1

/-- BARRIER_ARRIVAL (R317): the k-th arrival in flight reaches its unit. -/
def execBarrierArrival (k : Nat) (s : State) : Out :=
  match s.net.arrivals[k]? with
  | none => .next s
  | some m =>
    let t := { s with net := { s.net with arrivals := dropAt k s.net.arrivals } }
    if (s.ctx m.ctx).killing then .next t else .next ((t.arrive m.unit m.qid).hubCount 1 2 1)

/-- A generation whose releases are all delivered closes (R317): g + 1 becomes the oldest, and held arrivals enter the new
g + 1. -/
def State.closeUnit (s : State) (u : Nat) : State :=
  let b := s.unit u
  if b.filled ∧ b.owed = [] then
    (s.setUnit u { b with gen := (b.gen + 1) % 2 ^ 32, arr0 := b.arr1, arr1 := b.held, held := [], filled := false }).fillUnit u
  else s

/-- BARRIER_RELEASE (R318): the k-th release reaches its participant, whose BARRIER retires. -/
def execBarrierRelease (k : Nat) (s : State) : Out :=
  match s.net.releases[k]? with
  | none => .next s
  | some m =>
    let t := { s with net := { s.net with releases := dropAt k s.net.releases } }
    if (s.ctx m.ctx).killing then .next t
    else
      let core := m.qid / 4
      let e := m.qid % 4
      let b := t.unit m.unit
      let t := t.setUnit m.unit { b with owed := b.owed.erase m.qid }
      let q := t.queue core e
      let t := match q.block, q.flight.find? (fun f => f.id == q.blockId) with
        | .barrier _ (some u) true, some fl =>
          if u = m.unit then
            ((t.setQueue core e { q with block := .none }).waitEnd core e m.ctx fl.slot q.blockStart m.unit 2 m.gen b.arr0.length false).retire core e fl.id
          else t
        | _, _ => t
      .next (t.closeUnit m.unit)

/-! ### Timeouts (R88, R258, R320) -/

/-- A gang's wait expires (R88). -/
def State.gangExpired (s : State) (c core slot tag kind thr seen home : Nat) : State :=
  let x := s.gang core slot
  let fl := s.launchFlight core x.uid
  let s := s.tail (ringOf core 0) 4 c (some slot) (0xFFF + 2 ^ 12 * tag + 2 ^ 24 * kind + 2 ^ 26) (thr % 2 ^ 32 + 2 ^ 32 * (seen % 2 ^ 32)) 0
  s.raise c { cause := .syncTimeout, core := core, engine := 0, gang := slot, npc := x.pc.toNat, mask := x.mask.toNat, qid := 4 * core
              slot := (fl.map Flight.slot).getD 0xFFFF, tally := tag, home := home, value := thr % 2 ^ 32 + 2 ^ 32 * (seen % 2 ^ 32)
              record := (fl.map Flight.words).getD [] }

/-- What a BARRIER that still waits for earlier records is reported to wait on: its unit, else its first tally: tag, kind,
threshold, value last seen and home. -/
def State.barrierTag (s : State) (c : Nat) (ws : List W64) : Nat × Nat × Nat × Nat × Nat :=
  if wbits ws 1 30 30 = 1 then
    (match tblFind (wbits ws 1 29 26) (s.ctx c).units with | some u => (u, 2, (s.unit u).gen, 0, 0) | none => (0, 2, 0, 0, 0))
  else
    let t := if wbits ws 1 12 12 = 1 then (wbits ws 1 11 0, wbits ws 1 63 32) else (wbits ws 1 24 13, wbits ws 2 31 0)
    (t.1, 0, t.2, 0, (((s.ctx c).home t.1).map Home.code).getD 0)

/-- The wait of a queue's next record that has expired (R258): for tokens and for a LOOP's body DEF_TMO as it stood when
the wait began, for a BARRIER or FENCE its own TMO; a SIGNAL and a CLEAR_FLAGS have none. -/
def State.nextExpired (s : State) (c core e : Nat) : Option (Nat × Nat × Nat × Nat × Nat × Flight) :=
  let q := s.queue core e
  let late := fun (start us : Nat) => decide (s.ctxNow c ≥ start + s.tmoNs us)
  match q.nextWords with
  | none => none
  | some raw =>
    let ws := effWords s.waitUs raw
    let o := recOpc ws
    let fl := fun (t : Nat) => ({ id := q.serial, slot := q.next, opc := o, words := ws, start := t } : Flight)
    match if o = 5 then none else (s.core core).lackToken (recConsumes ws), q.tokSince, q.ordSince with
    | some cls, some t, _ =>
      if late t q.tmoNow then some (cls, 1, ((recConsumes ws).filter (fun y => y == cls)).length, tblGet 0 (s.core core).tally.tokens cls, 0, fl t) else none
    | none, _, some t =>
      if o = 5 ∧ late t q.tmoNow then some (0, 0, 0, 0, 0, fl t)
      else if o = 3 ∧ late t (wbits ws 2 55 32) then let b := s.barrierTag c ws; some (b.1, b.2.1, b.2.2.1, b.2.2.2.1, b.2.2.2.2, fl t)
      else if o = 9 ∧ late t (wbits ws 1 31 8) then some (0, 3, wbits ws 3 31 0, 0, 0, fl t)
      else none
    | _, _, _ => none

/-- The wait of a queue that has expired, if any: its tag, kind, threshold, value last seen, tally, home and record. -/
def State.queueExpired (s : State) (c core e : Nat) : Option (Nat × Nat × Nat × Nat × Nat × Flight) :=
  let q := s.queue core e
  let now := s.ctxNow c
  let late := fun (start us : Nat) => decide (now ≥ start + s.tmoNs us)
  match q.block, q.flight.find? (fun f => f.id == q.blockId) with
  | .wait w, some fl => if late q.blockStart (wbits fl.words 2 23 0) then some (w.vid, 0, w.threshold, w.seen, w.home.code, fl) else none
  | .barrier ws u arrived, some fl =>
    if late q.blockStart (wbits fl.words 2 55 32) then
      match ws.find? (fun w => !w.done), u with
      | some w, _ => some (w.vid, 0, w.threshold, w.seen, w.home.code, fl)
      | none, some n => let b := s.unit n; some (n, 2, b.gen, if arrived then b.arr0.length else 0, 0, fl)
      | none, none => none
    else none
  | .fence 1 _, some fl =>
    if wbits fl.words 1 5 4 = 2 ∧ late q.blockStart (wbits fl.words 1 31 8) then some (0, 3, wbits fl.words 3 31 0, 0, 0, fl) else none
  | .none, _ => s.nextExpired c core e
  | _, _ => none

/-- SYNC_TIMEOUT (R88, R258, R281, R320): the wait of a gang (unit 0 to 15) or of a queue (16 to 19) has run its
timeout. -/
def execSyncTimeout (core unit now : Nat) (s : State) : Out :=
  if core < 1280 ∧ unit < 20 then
    let s := s.advanceTo now
    match s.live core with
    | none => .next s
    | some c =>
      if unit < 16 then
        match (s.gang core unit).wait with
        | .tally vid thr st tmo _ =>
          if s.ctxNow c ≥ st + s.tmoNs tmo then
            let h := ((s.ctx c).home vid).getD ⟨true, 0, 0⟩
            .next (s.gangExpired c core unit vid 0 thr (if !h.hub ∧ h.core = core then (s.tallyAt h).value else 0) h.code)
          else .next s
        | .fwait _ _ v _ st tmo _ => if s.ctxNow c ≥ st + s.tmoNs tmo then .next (s.gangExpired c core unit 0 3 v 0 0) else .next s
        | _ => .next s
      else match s.queueExpired c core (unit - 16) with
        | some (tag, kind, thr, seen, home, fl) => .next (s.waitExpired c core (unit - 16) tag kind thr seen (if kind = 0 then tag else if kind = 1 then tag + 2 ^ 12 else 0) home fl)
        | none => .next s
  else .fault .noSuchUnit

end Sys2Proof.Machine
end

