-- ==== Sys2Proof/Machine/HostOps.lean ====
section
/-!
DEFINITION. Interrupt vectors, event records and mailbox messages (14_host R385 to R393).
-/

namespace Sys2Proof.Machine

def State.modPci (s : State) (f : HostPort → HostPort) : State := { s with pci := f s.pci }
def HostPort.chan (p : HostPort) (k : Nat) : MailChan := tblGet {} p.chans k
def State.modChan (s : State) (k : Nat) (f : MailChan → MailChan) : State :=
  s.modPci (fun p => { p with chans := tblSet k (f (p.chan k)) p.chans })

/-- A word of the MSI-X table; a vector control word that nothing has written masks its vector. -/
def HostPort.msixWord (p : HostPort) (v i : Nat) : Nat :=
  ((tblFind (4 * v + i) p.msix).getD (if i = 3 then 1 else 0)).toNat

/-- Raises a vector (R385): a masked vector sets its pending bit, otherwise the message is written. -/
def State.vector (s : State) (v : Nat) : State :=
  if bitOf (s.pci.msixWord v 3) 0 then s.modPci (fun p => { p with pba := if p.pba.contains v then p.pba else p.pba ++ [v] })
  else s.hostWrite (s.pci.msixWord v 0 + 2 ^ 32 * s.pci.msixWord v 1) (leBytes 4 (s.pci.msixWord v 2))

/-- Sends the pending message of a vector that is no longer masked. -/
def State.unmask (s : State) (v : Nat) : State :=
  if s.pci.pba.contains v ∧ !bitOf (s.pci.msixWord v 3) 0 then (s.modPci (fun p => { p with pba := p.pba.erase v })).vector v else s

/-- A HOST_ERR bit is set; vector 1,028 is raised each time (R384). -/
def State.hostErr (s : State) (f : HostErr → HostErr) : State := (s.modPci (fun p => { p with err := f p.err })).vector 1028

/-- Reports a device-level event (R386): the record in host memory, then the vector; a full or disabled queue drops the
record. -/
def State.event (s : State) (kind data : Nat) : State :=
  let q := s.pci.evq
  let n := 2 ^ q.inForce.log2
  let drop := s.modPci (fun p => { p with evq := { p.evq with drop := satAdd 0xFFFFFFFF p.evq.drop 1 } })
  let s := if !q.inForce.enable ∨ (q.tail + 1) % n = q.head then drop
    else
      let phase := boolN (q.written / n % 2 == 0)
      let w := kind + 2 ^ 31 * phase
      (s.hostWrite (q.inForce.base + 16 * q.tail) (leBytes 4 w ++ leBytes 4 (q.written % 2 ^ 32) ++ leBytes 8 data)).modPci
        (fun p => { p with evq := { p.evq with tail := (q.tail + 1) % n, written := q.written + 1 } })
  s.vector (1032 + kind)

/-! ### Mailboxes (R389 to R393) -/

/-- The requests each core's table lists (R351, R432, R465, R489). -/
def listed (ch : Nat) : List Nat :=
  if ch = 0 then [0x10, 0x11, 0x12, 0x13, 0x20, 0x21, 0x40, 0x41, 0x42, 0x43]
  else if ch = 1 then [0x01, 0x10, 0x11, 0x12, 0x13, 0x14, 0x15, 0x16, 0x20, 0x21, 0x22]
  else if ch = 2 then [0x01, 0x02, 0x03, 0x10, 0x11, 0x12, 0x13, 0x14]
  else [0x40, 0x41]

/-- A core's E_ARG status (R390). -/
def eArg (ch : Nat) : Nat := if ch = 1 then 7 else 3

/-- Hardware accepts this code from this sender (R391). -/
def mailAllowed (ch sender code : Nat) : Bool :=
  if sender = 0 then decide (code < 0x80)
  else if sender = 1 then decide (0x40 ≤ code) && decide (code < 0x60) && (ch == 0 || ch == 3)
  else true

/-- Queues a reply to the port the request came from (R392): a HOST reply raises vector 1,024 + k. The stamp is the
receiving core's. A reply whose port a function reset has cleared (R397; sender 6) is discarded. -/
def State.reply (s : State) (r : ReqRef) (status : Nat) (args : List Nat) : State :=
  if r.sender = 6 then s
  else
  let c := s.pci.chan r.channel
  let sender := 2 + r.channel
  let n := tblGet 0 c.seqs sender
  let w0 := r.header % 256 + 2 ^ 8 * args.length + 2 ^ 12 * status + 2 ^ 16 * (r.header / 2 ^ 16)
  let words := (List.range 16).map (fun i => BitVec.ofNat 32 (if i = 0 then w0 else args.getD (i - 1) 0))
  let s := s.modChan r.channel (fun c => { c with seqs := tblSet sender ((n + 1) % 65536) c.seqs
                                                  replies := tblSet r.sender (tblGet [] c.replies r.sender ++ [{ words := words, sender := sender, seq := n }]) c.replies })
  if r.sender = 0 then s.vector (1024 + r.channel) else s

/-- A message enters a channel (R389 to R393): dropped when the inbound queue is full; refused, or answered E_ABSENT, by
hardware; otherwise stamped and queued. -/
def State.mailIn (s : State) (ch sender : Nat) (words : List W32) : State :=
  let c := s.pci.chan ch
  let h := (words.getD 0 0).toNat
  let ref : ReqRef := { channel := ch, sender := sender, header := h }
  if c.inbound.length ≥ 16 then (s.modChan ch (fun c => { c with fullDrop := satAdd 0xFFFF c.fullDrop 1 })).hubCount 4 4 1
  else if !mailAllowed ch sender (h % 256) then
    ((s.modChan ch (fun c => { c with refused := satAdd 0xFFFF c.refused 1 })).hubCount 4 4 1).reply ref 15 []
  else if !s.pci.running.contains ch then s.reply ref 14 []
  else
    let n := tblGet 0 c.seqs sender
    (s.modChan ch (fun c => { c with seqs := tblSet sender ((n + 1) % 65536) c.seqs, inbound := c.inbound ++ [{ words := words, sender := sender, seq := n }] })).hubCount 4 2 1

/-- Argument word `i` of a message; words past LEN read as 0 (R390). -/
def MailMsg.arg (m : MailMsg) (i : Nat) : Nat :=
  if i ≤ bitsOf (m.words.getD 0 0).toNat 11 8 then (m.words.getD i 0).toNat else 0

/-- Two argument words as one 64-bit value, low word first. -/
def MailMsg.arg2 (m : MailMsg) (i : Nat) : Nat := m.arg i + 2 ^ 32 * m.arg (i + 1)

/-- The core of channel `ch` takes its oldest request if its code is `code`, or if its table does not list the code (then
it answers E_ARG); it takes none while the requester's reply queue is full (R390, R392). -/
def onRequest (s : State) (ch code : Nat) (body : ReqRef → MailMsg → State → State) : Out :=
  match (s.pci.chan ch).inbound with
  | [] => .next s
  | m :: rest =>
    let h := (m.words.getD 0 0).toNat
    let ref : ReqRef := { channel := ch, sender := m.sender, header := h }
    if !s.pci.running.contains ch ∨ (tblGet [] (s.pci.chan ch).replies m.sender).length ≥ 16 then .next s
    else
      let t := s.modChan ch (fun c => { c with inbound := rest })
      if !(listed ch).contains (h % 256) then .next (t.reply ref (eArg ch) [])
      else if h % 256 = code then .next (body ref m t)
      else .next s

end Sys2Proof.Machine
end

