-- ==== Sys2Proof/Machine/MoveOps.lean ====
section
/-!
DEFINITION. The requests of move records: how a record is divided, what a request reads and writes, when a record
retires, and commits of remote writes (07_moves R177 to R212; 15_haul_twin R411, R412; 11_tallies R319).
-/

namespace Sys2Proof.Machine

/-! ### Division into requests (R179, R186) -/

/-- Bytes of one source row of a transposed move (R187). -/
def MvRec.rowBytes (r : MvRec) : Nat := cdiv (r.cols * twHalf r.tw) 2

/-- Bytes that the record reads. -/
def MvRec.total (r : MvRec) : Nat := if r.tw = 0 then r.len else r.rows * r.rowBytes

/-- The next request of a record (R179): at most 512 bytes, within one aligned 512 bytes of source and destination. -/
def MvRec.nextOf (r : MvRec) : MvReq :=
  if r.tw = 0 then
    let a := r.src + r.pos
    let b := r.dst + r.pos
    { id := r.nextReq, src := a, dst := b, len := min (r.len - r.pos) (min (512 - a % 512) (512 - b % 512)) }
  else
    let row := r.pos / r.rowBytes
    let off := r.pos % r.rowBytes
    let a := r.src + row * r.stride + off
    { id := r.nextReq, src := a, dst := r.dst, len := min (r.rowBytes - off) (512 - a % 512), band := row / 32 }

/-- A record can issue requests: a claim is accepted, nothing was rejected (R205, R208). -/
def MvRec.open_ (r : MvRec) : Bool := decide (r.pos < r.total) && !r.rejected && (r.node == 0xFFFF || r.claimOk)

/-- Issues requests of a record while the engine has room (R180). -/
def MvRec.pump : Nat → Nat → MvRec → MvRec
  | 0, _, r => r
  | fuel + 1, room, r =>
    let q := r.nextOf
    if r.open_ && decide (room > 0) then
      MvRec.pump fuel (room - 1) { r with reqs := r.reqs ++ [q], pos := r.pos + q.len, nextReq := r.nextReq + 1 }
    else r

/-- Requests in flight of an engine. -/
def MoveEngine.inflight (m : MoveEngine) : Nat := (m.recs.map (fun r => r.reqs.length)).foldl (· + ·) 0

/-- Every request in flight is a read of this record's next band whose data is in: nothing completes before the band's other reads
have issued (R180, R186; assumption 32). -/
def MoveEngine.stuckOn (m : MoveEngine) (x : MvRec) : Bool :=
  x.tw != 0 && m.recs.all (fun r => r.reqs.all (fun q => r.id == x.id && q.data.isSome && q.band == x.nextOf.band))

/-- What issuing has done: the records so far, requests in flight, requests issued, their 64-byte units, and those of the
host window. -/
structure PumpAcc where
  recs : List MvRec := []
  inflight : Nat
  fresh : Nat := 0
  units : Nat := 0
  hosts : Nat := 0

/-- Issues the requests of one record, up to 128 in flight, and one more where nothing else could ever complete (R180). -/
def PumpAcc.step (m : MoveEngine) (a : PumpAcc) (x : MvRec) : PumpAcc :=
  let y := x.pump 128 (max (128 - a.inflight) (boolN (m.stuckOn x)))
  let fresh := y.reqs.drop x.reqs.length
  let hosts := (fresh.filter (fun q => decide (q.src ≥ hostBase) || (y.node == 0xFFFF && decide (q.dst ≥ hostBase)))).length
  { recs := a.recs ++ [y], inflight := a.inflight + fresh.length, fresh := a.fresh + fresh.length
    units := a.units + (fresh.map (fun q => cdiv q.len 64)).foldl (· + ·) 0, hosts := a.hosts + hosts }

/-- Issues what can be issued, record by record (R180, R181), and counts it. -/
def State.pumpMoves (s : State) (core e : Nat) : State :=
  let stop := match (s.core core).ctx with
    | none => true
    | some c => (s.ctx c).killing || (s.ctx c).suspendReq.isSome || (s.ctx c).state != CtxState.placed
  if stop then s
  else
    let m := (s.core core).mv e
    let r := m.recs.foldl (PumpAcc.step m) { inflight := m.inflight }
    s.modCore core (fun k =>
      (((k.setMv e { m with recs := r.recs }).count (0x14 + (e - 2)) r.fresh).count (0x16 + (e - 2)) r.units).count 0x1B r.hosts)

def State.modRec (s : State) (core e id : Nat) (f : MvRec → MvRec) : State :=
  s.modCore core (fun k => k.setMv e { k.mv e with recs := (k.mv e).recs.map (fun r => if r.id = id then f r else r) })

def State.modReq (s : State) (core e id req : Nat) (f : MvReq → MvReq) : State :=
  s.modRec core e id (fun r => { r with reqs := r.reqs.map (fun q => if q.id = req then f q else q) })

def MoveEngine.rec_ (m : MoveEngine) (id : Nat) : Option MvRec := m.recs.find? (fun r => r.id == id)

/-! ### Completion and retirement (R182, R183, R210) -/

/-- Nothing of the record is left to do. -/
def MvRec.finished (r : MvRec) : Bool := decide (r.pos = r.total) && r.reqs.isEmpty && r.pages.isEmpty && !r.rejected && r.node == 0xFFFF

/-- Where the increment of a local record is generated (R210), by the address that the record wrote last: at the destination
core (unit 20), at the edge fabric of the die whose controller took the write (unit 21), at the hub's PCI Express controller
(unit 22). -/
def signalAt (localUnits addr : Nat) : Waiter :=
  match addrClass addr with
  | .slab home _ => ⟨home, 20⟩
  | .host => ⟨0, 22⟩
  | _ => ⟨320 * ((farPlace localUnits (addr % farTop)).1 / 24), 21⟩

/-- A record retires (R183): its signal is generated first, at its destination (R210). -/
def State.moveRetire (s : State) (c core e : Nat) (r : MvRec) : State :=
  let s := s.modCore core (fun k => k.setMv e { k.mv e with recs := (k.mv e).recs.filter (fun x => x.id != r.id) })
  let slot := (((s.queue core e).flight.find? (fun f => f.id == r.id)).map Flight.slot).getD 0xFFFF
  let s := if r.sigEn ∧ r.node = 0xFFFF then
      match (s.ctx c).home r.sigTid with
      | none => s
      | some h => s.sendTally { ctx := c, vid := r.sigTid, home := h, src := signalAt s.far.localUnits r.last, act := .add r.sigInc, qid := 4 * core + e, slot := slot }
    else s
  s.retire core e r.id

/-- After a request has completed: further requests issue, and a finished record retires, but not once a kill has begun
(R185). -/
def State.moveStep (s : State) (core e id : Nat) : State :=
  match (s.core core).ctx with
  | none => s
  | some c =>
    let s := match ((s.core core).mv e).rec_ id with
      | some r => if r.finished ∧ !(s.ctx c).killing then s.moveRetire c core e r else s
      | none => s
    s.pumpMoves core e

/-- A request has completed (R182); the record notes where it wrote (R210). -/
def State.completeReq (s : State) (core e id req : Nat) : State :=
  (s.modRec core e id (fun r =>
    { r with reqs := r.reqs.filter (fun q => q.id != req), last := ((r.reqs.find? (fun q => q.id == req)).map MvReq.dst).getD r.last })).moveStep core e id

/-- A request has failed: its record neither issues further requests nor retires. -/
def State.failReq (s : State) (core e id req : Nat) : State :=
  s.modRec core e id (fun r => { r with reqs := r.reqs.filter (fun q => q.id != req), rejected := true })

/-! ### What a request reads (R184, R164; 08_far R223, R224) -/

/-- Bytes of a range as pieces, each with its offset. -/
abbrev Pieces := List (Nat × List Byte)

/-- Adds bytes to pieces: to the last piece where they follow it, as a piece of their own otherwise. -/
def joinPiece (ps : Pieces) (o : Nat) (bs : List Byte) : Pieces :=
  match ps with
  | [] => [(o, bs)]
  | [(x, cs)] => if x + cs.length = o then [(x, cs ++ bs)] else [(x, cs), (o, bs)]
  | p :: t => p :: joinPiece t o bs

/-- The data of a request, block by block: an uncorrectable block forwards nothing, and the check-bit range reads as
zeros (R177). -/
def State.readFar (s : State) (a n : Nat) : State × Pieces × Bool :=
  (blocksOf a n).foldl (fun (p : State × Pieces × Bool) b =>
    let lo := max a b
    let hi := min (a + n) (b + 64)
    if b ≥ farTop then (p.1, joinPiece p.2.1 (lo - a) (List.replicate (hi - lo) 0), p.2.2)
    else
      let q := p.1.touchBlock (farBlock s.far.localUnits b)
      if q.2 then (q.1, joinPiece p.2.1 (lo - a) (memReadN q.1.far.mem lo (hi - lo)), p.2.2) else (q.1, p.2.1, true)) (s, [], false)

/-- What reading a request's source answers. -/
inductive SrcRead where
  /-- a waking bank, or a host window whose data has not come -/
  | wait
  | fault (s : State) (cause : Cause)
  /-- the pieces, and whether a block was uncorrectable -/
  | got (s : State) (ps : Pieces) (bad : Bool)

def State.readSource (s : State) (a n : Nat) : SrcRead :=
  match addrClass a with
  | .slab core off =>
    let b := (s.core core).slab
    match b.bank (off / 512) with
    | .waking => .wait
    | .off => .fault s .slabBankOff
    | _ =>
      let r := b.read (off / 512)
      let s := s.modSlab core (fun _ => r.1)
      (match r.2 with
       | none => .fault s .uncorrEcc
       | some bs => .got s [(0, (bs.drop (off % 512)).take n)] false)
  | .far => let r := s.readFar a n; .got r.1 r.2.1 r.2.2
  | .check => let r := s.readFar a n; .got r.1 r.2.1 r.2.2
  | _ => .wait

/-! ### What a request writes (R150, R154, R156, R166, R192) -/

/-- Writes pieces into one slab through its port, as one masked write; where a partly covered codeword is uncorrectable,
nothing of the slab is written, and the answer is false (R156, R157, R164). -/
def State.slabPieces (s : State) (core slab off : Nat) (ps : Pieces) : State × Bool :=
  let w := (s.core core).slab.writeMask slab (ps.map (fun p => (off + p.1, p.2)))
  let partial_ := ps.any (fun p => !(decide ((off + p.1) % 64 = 0) && decide (p.2.length % 64 = 0)))
  (s.modCore core (fun k => ({ k with slab := w.1 } : Core).count 0x23 (boolN partial_)), w.2)

/-- Writes pieces into far memory; the check-bit range drops them (R177). -/
def State.farPieces (s : State) (a : Nat) (ps : Pieces) : State × Bool :=
  ps.foldl (fun (acc : State × Bool) p =>
    if a + p.1 ≥ farTop then acc
    else
      let r := acc.1.farWrite (a + p.1) p.2
      (r.1, acc.2 && r.2)) (s, true)

/-- Joins a request's pieces into whole bytes, zeros where nothing was forwarded. -/
def piecesBytes (n : Nat) (ps : Pieces) : List Byte :=
  ps.foldl (fun bs p => bs.take p.1 ++ p.2 ++ bs.drop (p.1 + p.2.length)) (List.replicate n 0)

/-- Two cores of one die whose transfer is planned on the scheduled network (R191). -/
def sameDie (src : Nat) (core : Nat) : Bool :=
  match addrClass src with
  | .slab n _ => dieOf n == dieOf core
  | _ => false

/-- The landing buffer of a core has room (R154). -/
def Slab.landRoom (b : Slab) : Bool := decide (b.landing.length < 16)

/-- A slab of a request goes on as a packet of the request network (R192, R293): counted, and entered in the ring of the port that
takes it (19_debug_test R525). -/
def State.fallBack (s : State) (c core e : Nat) (r : MvRec) (q : MvReq) : State :=
  let slot := (((s.queue core e).flight.find? (fun f => f.id == r.id)).map Flight.slot).getD 0xFFF
  let t := s.modReq core e r.id q.id (fun q => { q with fallback := true })
  let t := t.modCore core (fun k => (k.setMv e { k.mv e with fallback := satAdd 0xFFFFFFFF (k.mv e).fallback 1 }).count 0x18 1)
  match q.home r.node with
  | some home => t.tail (ringOf home 4) 0x0A c none ((q.dst - slabBase) % 2 ^ 24 / 512) (4 * core + e + 2 ^ 13 * slot) 0
  | none => t

/-- A local request's data arrives at its destination slab: at a bank that is not ON it waits in the landing buffer, and a full
one sends it back to be sent again (R192), or grants its flow no credit (R193, R197). -/
def State.moveToSlab (s : State) (c core e : Nat) (r : MvRec) (q : MvReq) (home off : Nat) (ps : Pieces) : State :=
  let b := (s.core home).slab
  let slab := off / 512
  let fault := fun (cause : Cause) (s : State) => (s.flightFault core e r.id cause q.dst).failReq core e r.id q.id
  let land := s.modSlab home (fun b => { b with landing := b.landing ++
      [({ slab := slab, off := off % 512, parts := ps, ctx := c, origin := .move core e r.id q.id } : Landing)] })
  let held := land.modReq core e r.id q.id (fun q => { q with data := some [] })
  match b.bank slab with
  | .draining => fault .slabBankOff s
  | .off => fault .slabBankOff s
  | .waking => if q.fallback then s else if b.landRoom then held else if sameDie q.src home then s.fallBack c core e r q else s.emptySlot core e
  | .on =>
    if q.fallback || sameDie q.src home then
      let w := s.slabPieces home slab (off % 512) ps
      if w.2 then w.1.completeReq core e r.id q.id else fault .uncorrEcc w.1
    else if b.landRoom then held
    else s.emptySlot core e

/-- A local plain request's data arrives at its destination (R182): host writes are posted in order (14_host R379), and
complete with their page checks. -/
def State.moveDeliver (s : State) (c core e : Nat) (r : MvRec) (q : MvReq) (ps : Pieces) : State :=
  match addrClass q.dst with
  | .slab home off => s.moveToSlab c core e r q home off ps
  | .host =>
    (ps.foldl (fun (t : State) p => t.hostWrite ((s.ctx c).hostAddr q.dst + p.1) p.2) s).modReq core e r.id q.id (fun p => { p with data := some [] })
  | _ =>
    let w := s.farPieces q.dst ps
    if w.2 then w.1.completeReq core e r.id q.id
    else (w.1.flightFault core e r.id .uncorrEcc q.dst).failReq core e r.id q.id

/-! ### Transposed writes (R186) -/

/-- The destination stream index of element (r, c). -/
def transIndex (g cols r c : Nat) : Nat := r / g * (cols * g) + c * g + r % g

/-- Nibbles of one element. -/
def twNibbles (tw : Nat) : Nat := twHalf tw

/-- Nibble `i` of a byte list. -/
def nibbleOf (bs : List Byte) (i : Nat) : Nat := (bs.getD (i / 2) 0).toNat / 16 ^ (i % 2) % 16

/-- The nibbles that a band writes: destination nibble index and value; `rows` gives a row's bytes. -/
def bandNibbles (r : MvRec) (band : Nat) (row : Nat → List Byte) : List (Nat × Nat) :=
  let k := twNibbles r.tw
  (List.range (min 32 (r.rows - 32 * band))).flatMap (fun i =>
    let bs := row (32 * band + i)
    (List.range r.cols).flatMap (fun c =>
      let d := transIndex r.group r.cols (32 * band + i) c
      (List.range k).map (fun j => (k * d + j, nibbleOf bs (k * c + j)))))

/-- Sets a nibble of a sparse byte map that starts from what the destination holds. -/
def putNibble (old : Nat → Byte) (m : Tbl Byte) (x : Nat × Nat) : Tbl Byte :=
  let b := ((tblFind (x.1 / 2) m).getD (old (x.1 / 2))).toNat
  let v := if x.1 % 2 = 0 then b / 16 * 16 + x.2 else b % 16 + 16 * x.2
  tblSet (x.1 / 2) (BitVec.ofNat 8 v) m

/-- Runs of consecutive bytes of an ascending byte map, cut at slab boundaries. -/
def byteRuns (base : Nat) : Tbl Byte → List (Nat × List Byte)
  | [] => []
  | (i, b) :: t =>
    match byteRuns base t with
    | (j, bs) :: rest => if j = i + 1 ∧ (base + j) % 512 ≠ 0 then (i, b :: bs) :: rest else (i, [b]) :: (j, bs) :: rest
    | [] => [(i, [b])]

/-- A local request of the engine's older records has still to write a slab of this range (06_slab R159). -/
def MoveEngine.olderWrite (m : MoveEngine) (id dst len : Nat) : Bool :=
  (m.recs.takeWhile (fun r => r.id != id)).any (fun r => r.node == 0xFFFF && r.reqs.any (fun q =>
    let a := if r.tw = 0 then q.dst else r.dst
    let n := if r.tw = 0 then q.len else r.len
    decide (a / 512 ≤ (dst + len - 1) / 512) && decide (dst / 512 ≤ (a + n - 1) / 512)))

/-- How far a slab of a band is. -/
def MvRec.outAt (r : MvRec) (band slab : Nat) : Option Nat := (r.outs.find? (fun x => x.1 == band && x.2.1 == slab)).map (fun x => x.2.2)

def State.setOut (s : State) (core e id band slab v : Nat) : State :=
  s.modRec core e id (fun r => { r with outs := r.outs.filter (fun x => !(x.1 == band && x.2.1 == slab)) ++ [(band, slab, v)] })

/-- A band's requests and slabs leave the record. -/
def State.dropBand (s : State) (core e id band : Nat) : State :=
  s.modRec core e id (fun r => { r with reqs := r.reqs.filter (fun q => q.band != band), outs := r.outs.filter (fun x => x.1 != band) })

/-- A band whose slabs are all written completes its reads (R180). -/
def State.bandDone (s : State) (core e id band : Nat) : State :=
  match ((s.core core).mv e).rec_ id with
  | none => s
  | some r =>
    let mine := r.outs.filter (fun x => x.1 == band)
    if mine ≠ [] ∧ mine.all (fun x => x.2.2 == 0) then (s.dropBand core e id band).moveStep core e id else s

/-- A band's write has faulted: its record neither issues further requests nor retires. -/
def State.bandFault (s : State) (core e : Nat) (r : MvRec) (band : Nat) (cause : Cause) : State :=
  ((s.flightFault core e r.id cause r.dst).dropBand core e r.id band).modRec core e r.id (fun r => { r with rejected := true })

/-- One slab of a band is written (R186), through the landing buffer while its bank wakes; a full one sends it back, and it goes
on as a packet (R192). The answer is false where an uncorrectable codeword stops the write (R164). -/
def State.writeOut (s : State) (c core e : Nat) (r : MvRec) (band home u : Nat) (ps : Pieces) : State × Bool :=
  let b := (s.core home).slab
  let st := r.outAt band u
  if st = some 0 ∨ st = some 1 then (s, true)
  else if b.bank u = .waking then
    if st = some 2 then (s, true)
    else if b.landRoom then
      ((s.modSlab home (fun b => { b with landing := b.landing ++ [({ slab := u, off := 0, parts := ps, ctx := c, origin := .band core e r.id band } : Landing)] })).setOut
        core e r.id band u 1, true)
    else ((s.setOut core e r.id band u 2).modCore core (fun k => (k.setMv e { k.mv e with fallback := satAdd 0xFFFFFFFF (k.mv e).fallback 1 }).count 0x18 1), true)
  else
    let w := s.slabPieces home u 0 ps
    (w.1.setOut core e r.id band u 0, w.2)

/-- Writes a completed band from the band buffer, slab by slab (R186): a bank that is draining or off faults. A band that waits for
more reads lets the engine go on issuing. -/
def State.writeBand (s : State) (c core e : Nat) (r : MvRec) (band : Nat) : State :=
  let mine := r.reqs.filter (fun q => q.band == band)
  let whole := decide (r.pos ≥ min r.rows (32 * band + 32) * r.rowBytes)
  match addrClass r.dst with
  | .slab home off0 =>
    if !whole || mine.any (fun q => q.data.isNone) then s.pumpMoves core e
    else if ((s.core core).mv e).olderWrite r.id r.dst r.len then s
    else
      let rowOf := fun n =>
        (mine.filter (fun q => decide (r.src + n * r.stride ≤ q.src) && decide (q.src < r.src + n * r.stride + r.rowBytes))).flatMap (fun q => q.data.getD [])
      let old := fun i => memRead (s.core home).slab.mem (off0 + i)
      let runs := (byteRuns off0 ((bandNibbles r band rowOf).foldl (putNibble old) [])).map (fun x => (off0 + x.1, x.2))
      let slabs := (runs.map (fun x => x.1 / 512)).eraseDups
      let left := slabs.filter (fun u => r.outAt band u != some 0)
      if left.any (fun u => (s.core home).slab.bank u == .draining || (s.core home).slab.bank u == .off) then s.bandFault core e r band .slabBankOff
      else
        let w := left.foldl (fun (a : State × Bool) u =>
          let q := a.1.writeOut c core e r band home u ((runs.filter (fun x => x.1 / 512 == u)).map (fun x => (x.1 % 512, x.2)))
          (q.1, a.2 && q.2)) (s, true)
        if w.2 then w.1.bandDone core e r.id band else w.1.bandFault core e r band .uncorrEcc
  | _ => s

/-! ### Remote writes at their destination (15_haul_twin R411, R412; 11_tallies R319) -/

def State.modClaim (s : State) (node id : Nat) (f : DstClaim → DstClaim) : State :=
  s.modLinks (fun l => { l with dst := l.dst.map (fun d => if d.src = node ∧ d.id = id then f d else d) })

/-- A claim whose bytes have all committed (R412): its signal, then FINAL. -/
def State.claimFinal (s : State) (d : DstClaim) (idx : Nat) : State :=
  let s := s.modClaim d.src d.id (fun d => { d with final := true })
  let s := if d.sigEn then
      (if d.dead then { s with hub := { s.hub with tdrop := tblSet d.ctx (satAdd 0xFFFFFFFF (tblGet 0 s.hub.tdrop d.ctx) 1) s.hub.tdrop } }
       else s.remoteAdd d.ctx d.sigTid d.sigInc)
    else s
  s.sendFrame d.src (.commitAck d.id idx true)

/-- A WRITE of a claim has committed (R411, R412). -/
def State.commitRemote (s : State) (node id idx n : Nat) : State :=
  match s.links.dst.find? (fun d => d.src == node && d.id == id) with
  | none => s
  | some d =>
    let d' := { d with open_ := d.open_.erase idx, committed := d.committed + n }
    let s := ((s.modClaim node id (fun _ => d')).sendFrame node (.commitAck id idx false)).hubCount 5 5 (cdiv n 64)
    if d'.committed ≥ d'.len ∧ !d'.final then s.claimFinal d' idx else s

end Sys2Proof.Machine
end

