-- ==== Sys2Proof/Machine/Moves.lean ====
section
/-!
DEFINITION. MOVE records and the events that complete their requests, page checks of the host window, and the landing
buffer (07_moves R177 to R212; 06_slab R154; 08_far R239; 14_host R379).
-/

namespace Sys2Proof.Machine

/-- A range that the context may access with this right (R177, R178, R160, R161): one endpoint class, populated, granted;
slab memory of a core of the bench. -/
def Ctx.rangeOk (x : Ctx) (right : Right) (a n : Nat) : Bool :=
  n == 0 ||
  ((match addrClass a with
    | .far => decide (a + n ≤ checkTop)
    | .check => decide (a + n ≤ checkTop)
    | .slab core off => x.bench.contains core && decide (off + n ≤ 0xD00000)
    | .host => decide (a + n ≤ 2 ^ 48)
    | .none => false) && x.granted right a n)

/-- The record of a MOVE, from its effective words (R178, R186, R187, R277). -/
def moveRec (id : Nat) (ws : List W64) : MvRec :=
  let tw := wbits ws 2 49 48
  let rows := wbits ws 4 12 0
  let gl := wbits ws 2 52 50
  let cols := wbits ws 4 25 13
  let len := if tw = 0 then wbits ws 3 24 0 else cdiv (rows * cols * twHalf tw) 2
  { id := id, src := wbits ws 1 47 0, dst := wbits ws 2 47 0, node := wbits ws 1 63 48, len := len, tw := tw
    group := if gl = 7 then rows else 2 ^ gl, rows := rows, cols := cols, stride := wbits ws 4 49 26
    sigEn := wbits ws 3 25 25 == 1, sigTid := wbits ws 3 37 26, sigInc := wbits ws 3 53 38 }

/-- The first byte of a range that the context may not access so (13_contexts R369, ADDR): windows and address classes end
at multiples of 64 KiB. -/
def Ctx.rangeFirst (x : Ctx) (right : Right) (a n : Nat) : Nat :=
  if !x.rangeOk right a 1 then a
  else (((List.range ((a + n - 1) / 65536 - a / 65536)).map (fun i => 65536 * (a / 65536 + i + 1))).find? (fun b => !x.rangeOk right b 1)).getD a

/-- The source range is readable: the bytes of every row of a transposed move (R178, R187). -/
def MvRec.srcOk (r : MvRec) (x : Ctx) : Bool :=
  if r.tw = 0 then x.rangeOk .r r.src r.len
  else (List.range r.rows).all (fun i => x.rangeOk .r (r.src + i * r.stride) r.rowBytes)

/-- The first byte of the source that is not readable. -/
def MvRec.srcFirst (r : MvRec) (x : Ctx) : Nat :=
  if r.tw = 0 then x.rangeFirst .r r.src r.len
  else match (List.range r.rows).find? (fun i => !x.rangeOk .r (r.src + i * r.stride) r.rowBytes) with
    | some i => x.rangeFirst .r (r.src + i * r.stride) r.rowBytes
    | none => r.src

/-- The host pages that a write record touches, ascending. -/
def hostPages (a n : Nat) : List Nat := if n = 0 then [] else (List.range ((a + n - 1) / 4096 - a / 4096 + 1)).map (fun i => a / 4096 + i)

/-- MOVE (R177 to R181, R207, R208): the ranges are checked, then requests issue; a remote record opens its claim first.
A length of 0 retires at issue with its signal. -/
def execMove (core eng : Nat) (s : State) : Out :=
  onRecord s core eng 0x40 (fun _ _ s => decide (((s.core core).mv eng).recs.length < 16)) (fun i s =>
    let r := { moveRec i.id i.ws with last := (moveRec i.id i.ws).dst }
    let x := s.ctx i.c
    if !r.srcOk x then s.infoFault i .windowFault (r.srcFirst x)
    else if r.node = 0xFFFF then
      if !x.rangeOk .w r.dst r.len then s.infoFault i .windowFault (x.rangeFirst .w r.dst r.len)
      else
        let pages := if r.dst ≥ hostBase then hostPages (x.hostAddr r.dst) r.len else []
        let r := { r with pages := pages }
        if r.len = 0 then s.moveRetire i.c core eng r
        else (s.modCore core (fun k => k.setMv eng { k.mv eng with recs := (k.mv eng).recs ++ [r] })).pumpMoves core eng
    else if r.len = 0 ∧ !r.sigEn then s.retire core eng r.id
    else
      let q := s.openClaim core eng r.id i.c r.node r.dst r.len r.sigEn r.sigTid r.sigInc
      q.1.modCore core (fun k => k.setMv eng { k.mv eng with recs := (k.mv eng).recs ++ [{ r with claim := some q.2 }] }))

/-- A remote request's bytes leave as a WRITE (R411). -/
def State.sendWrite (s : State) (core e : Nat) (r : MvRec) (q : MvReq) (bs : List Byte) : State :=
  match r.claim.bind (fun id => s.links.src.find? (fun c => c.id == id)) with
  | none => s
  | some cl =>
    let w : SrcWrite := { idx := q.id, offset := q.dst - r.dst, data := bs }
    let cl' := { cl with writes := cl.writes ++ [w], progress := if cl.writes = [] then s.now else cl.progress }
    let s := s.modLinks (fun l => { l with src := l.src.map (fun c => if c.id = cl.id then cl' else c) })
    (s.modReq core e r.id q.id (fun q => { q with data := some [] })).sendFrame r.node (.write w.offset w.idx cl.id cl.gen bs)

/-- Data of a request whose source has been read goes on to its destination. -/
def State.moveData (s : State) (c core e : Nat) (r : MvRec) (q : MvReq) (ps : Pieces) (bad : Bool) : State :=
  let s := if bad then s.flightFault core e r.id .uncorrEcc q.src else s
  if r.tw ≠ 0 then
    if bad then s.failReq core e r.id q.id
    else
      let t := s.modReq core e r.id q.id (fun p => { p with data := some (piecesBytes q.len ps) })
      match ((t.core core).mv e).rec_ r.id with
      | some r' => t.writeBand c core e r' q.band
      | none => t
  else if r.node ≠ 0xFFFF then
    if bad then s.failReq core e r.id q.id else s.sendWrite core e r q (piecesBytes q.len ps)
  else
    let t := s.moveDeliver c core e r q ps
    if bad then t.modRec core e r.id (fun r => { r with rejected := true }) else t

/-- The k-th request in flight of an engine, oldest record first. -/
def MoveEngine.kth (m : MoveEngine) (k : Nat) : Option (MvRec × MvReq) := (m.recs.flatMap (fun r => r.reqs.map (fun q => (r, q))))[k]?

/-- An older request in flight has still to write this request's destination slab (06_slab R159). -/
def MoveEngine.behind (m : MoveEngine) (k : Nat) (r : MvRec) (q : MvReq) : Bool :=
  match q.home r.node with
  | none => false
  | some _ => r.tw == 0 && (((m.recs.flatMap (fun r => r.reqs.map (fun q => (r, q)))).take k).any (fun p => p.1.id == r.id && p.2.dst / 512 == q.dst / 512)
      || m.olderWrite r.id q.dst q.len)

/-- What the engine does with a request's slot (R192, R193, R293; 06_slab R155): it reads, or the slab falls back to the request
network, or its slot group goes empty, or it waits. -/
def State.readReq (s : State) (c core eng : Nat) (r : MvRec) (q : MvReq) : MvSlot → State
  | .wait => s
  | .held => (s.modCore core (fun k => ({ k with slab := (k.slab.planned (s.cycleOf core) (q.src / 512 % 32) []).1 } : Core).count 0x20 1)).fallBack c core eng r q
  | .noFlow => s.fallBack c core eng r q
  | .empty i => (s.modSlab core (fun b => { b with port := { b.portIn (s.cycleOf core) with slots := i :: (b.portIn (s.cycleOf core)).slots } })).emptySlot core eng
  | slot =>
    match (s.takeSlot core eng q slot).readSource q.src q.len with
    | .wait => s
    | .fault t cause => (t.flightFault core eng r.id cause q.src).failReq core eng r.id q.id
    | .got t ps bad => t.moveData c core eng r q ps bad

/-- MOVE_REQUEST_COMPLETE (R182, R184, R185): the k-th request reads its source and reaches its destination, if the plan gives it
its slot now. A request already past its source waits for what completes it; a band that was held is written now. -/
def execMoveRequestComplete (core eng k : Nat) (s : State) : Out :=
  if core < 1280 ∧ (eng = 2 ∨ eng = 3) then
    match (s.core core).ctx, ((s.core core).mv eng).kth k with
    | some c, some (r, q) =>
      if q.data.isSome then
        (if r.tw ≠ 0 then .next (s.writeBand c core eng r q.band) else .next s)
      else if r.node ≠ 0xFFFF ∧ r.reqs.any (fun p => decide (p.id < q.id) && p.data.isNone) then .next s
      else if ((s.core core).mv eng).behind k r q then .next s
      else .next (s.readReq c core eng r q (s.slotFor c core eng r q))
    | _, _ => .next s
  else .fault .noSuchUnit

/-- FALLBACK_SLAB (R192): the k-th request's slab missed its planned slot, and goes as a request-network packet, which takes a
free write slot. A transposed record's slabs come from the band buffer and miss no slot. -/
def execFallbackSlab (core eng k : Nat) (s : State) : Out :=
  if core < 1280 ∧ (eng = 2 ∨ eng = 3) then
    match (s.core core).ctx, ((s.core core).mv eng).kth k with
    | some c, some (r, q) =>
      if q.data.isSome ∨ q.fallback ∨ r.tw ≠ 0 ∨ (q.home r.node).isNone then .next s else .next (s.fallBack c core eng r q)
    | _, _ => .next s
  else .fault .noSuchUnit

/-- CREDIT_RETURN (R197): the receiver freed the oldest entry, whose flow has its credit back. -/
def execCreditReturn (core eng : Nat) (s : State) : Out :=
  if core < 1280 ∧ (eng = 2 ∨ eng = 3) then
    .next (s.modCore core (fun k => k.setMv eng { k.mv eng with sent := (k.mv eng).sent.drop 1, creditWait := false }))
  else .fault .noSuchUnit

/-- LANDING_WRITE (R154): in a landing slot of the port table (10_cutplan R292) the oldest slab whose bank does not wake leaves
the landing buffer. -/
def execLandingWrite (core : Nat) (slot : Bool) (s : State) : Out :=
  if core < 1280 then
    let b := (s.core core).slab
    match slot && writeOwner (s.portAt core) == 4, b.landing.find? (fun l => b.bank l.slab != BankState.waking) with
    | true, some l =>
      let s := s.modSlab core (fun b => { b with landing := b.landing.erase l })
      let w := if b.bank l.slab = .off then (s, false) else s.slabPieces core l.slab l.off l.parts
      let cause := if b.bank l.slab = .off then Cause.slabBankOff else .uncorrEcc
      match l.origin with
      | .move mc me id req =>
        if !w.2 then .next ((w.1.flightFault mc me id cause (slabBase + core * 2 ^ 24 + 512 * l.slab)).failReq mc me id req)
        else .next (w.1.completeReq mc me id req)
      | .band mc me id band =>
        (match ((w.1.core mc).mv me).rec_ id with
         | none => .next w.1
         | some r => if w.2 then .next ((w.1.setOut mc me id band l.slab 0).bandDone mc me id band) else .next (w.1.bandFault mc me r band cause))
      | .remote node id idx =>
        let t := if w.2 then w.1 else w.1.raise l.ctx { cause := cause, core := core, engine := 6 }
        .next (t.commitRemote node id idx ((l.parts.map (fun p => p.2.length)).foldl (· + ·) 0))
    | _, _ => .next s
  else .fault .noSuchUnit

/-! ### The host window (R203, R205; 08_far R239; 02_gangs R56) -/

/-- The host rejected a page of a move record (R205): no further request, no token, and the context is to be suspended. -/
def State.moveReject (s : State) (c core e : Nat) (r : MvRec) (addr : Nat) : State :=
  ((s.modRec core e r.id (fun r => { r with rejected := true })).modCtx c (fun x => { x with suspendReq := some (x.suspendReq.getD addr) })).hubCount 3 4 1

/-- The host page of a write request. -/
def Ctx.pageOf (x : Ctx) (q : MvReq) : Nat := x.hostAddr q.dst / 4096

/-- The engine has checked a page of a write record: every write of the page has issued and left (R203). -/
def MvRec.checkOut (x : Ctx) (r : MvRec) (page : Nat) : Bool :=
  r.reqs.all (fun q => x.pageOf q != page || q.data.isSome) && (decide (r.pos = r.total) || decide (page < x.pageOf r.nextOf))

/-- A page check of a write record returned clean (R182, R203): the writes of the page complete. -/
def State.pageClean (s : State) (c core e : Nat) (r : MvRec) (page : Nat) : State :=
  let x := s.ctx c
  let s := s.modRec core e r.id (fun r => { r with pages := r.pages.erase page, reqs := r.reqs.filter (fun q => x.pageOf q != page), last := r.dst })
  s.moveStep core e r.id

/-- A host-window store of the gang has completed; a gang that waited for its host accesses goes on. -/
def Gang.storeDone (x : Gang) : Gang :=
  let y := { x with stores := x.stores - 1 }
  if y.wait = .host ∧ y.stores = 0 ∧ y.loads = [] then y.wake else y

/-- An ST has lines left to send: the checks of its pages follow them (R239). -/
def Core.sending (k : Core) (h : HostStore) : Bool :=
  let x := k.gang h.slot
  x.live && x.uid == h.uid && x.todo.any (fun p => p.load == h.load)

/-- A gang's host-window store has a page answered (R239): clean, the store ends with its last page; rejected, the gang
engine stops (02_gangs R56). -/
def State.storeChecked (s : State) (core id page : Nat) (ok : Bool) : State :=
  match (s.core core).fc.hostStores.find? (fun h => h.id == id) with
  | none => s
  | some h =>
    if !h.pages.contains page || (s.core core).sending h then s
    else
      let left := h.pages.erase page
      let keep := ok && !left.isEmpty
      let stores := if keep then (s.core core).fc.hostStores.map (fun g => if g.id = id then { g with pages := left } else g)
        else (s.core core).fc.hostStores.filter (fun g => g.id != id)
      let t := s.modCore core (fun k => { k with fc := { k.fc with hostStores := stores } })
      if keep then t
      else if ok then t.withGang core h.slot h.uid Gang.storeDone
      else (t.withGang core h.slot h.uid (fun x => { x with stores := x.stores - 1 })).hostReject core h.slot h.uid 0 (4096 * page)

/-- A completion of a host request, clean or rejected. -/
def State.hostAnswer (s : State) (core unit id page : Nat) (ok : Bool) (data : List Byte) : State :=
  if unit = 0 then s.storeChecked core id page ok
  else
    match (s.core core).ctx, ((s.core core).mv unit).rec_ id with
    | some c, some r =>
      let x := s.ctx c
      if r.node = 0xFFFF ∧ r.dst ≥ hostBase then
        if !r.pages.contains page || !r.checkOut x page then s
        else if ok then s.pageClean c core unit r page
        else (s.moveReject c core unit r (4096 * page)).modRec core unit id (fun r => { r with pages := r.pages.erase page })
      else
        match r.reqs.find? (fun q => q.id == page) with
        | none => s
        | some q =>
          if q.data.isSome ∨ q.src < hostBase then s
          else if ok then s.moveData c core unit r q [(0, (List.range q.len).map (fun i => data.getD i 0))] false
          else (s.moveReject c core unit r (x.hostAddr q.src / 4096 * 4096)).modRec core unit id (fun r => { r with reqs := r.reqs.filter (fun p => p.id != q.id) })
    | _, _ => s

/-- HOST_PAGE_CHECK (R203): the answer to a host request of a gang store (unit 0; `id` its number, `page` the page), of a
record that writes the host (`id` the record, `page` the page), or of one that reads it (`page` the request's number). -/
def execHostPageCheck (core unit id page : Nat) (ok : Bool) (data : List Byte) (s : State) : Out :=
  if core < 1280 ∧ (unit = 0 ∨ unit = 2 ∨ unit = 3) then .next (s.hostAnswer core unit id page ok data)
  else .fault .noSuchUnit

/-- COMPLETION_TIMEOUT (R379, R203): a request without a completion is a rejection of its page. -/
def execCompletionTimeout (core unit id page : Nat) (s : State) : Out :=
  if core < 1280 ∧ (unit = 0 ∨ unit = 2 ∨ unit = 3) then .next (s.hostAnswer core unit id page false [])
  else .fault .noSuchUnit

end Sys2Proof.Machine
end

