-- ==== Sys2Proof/Machine/Matrix.lean ====
section
/-!
DEFINITION. Records and gang instructions of the matrix engine (04_matrix R109 to R122; 09_queues R274 to R276; 02_gangs
R58 to R60), and converter profiles (05_numbers R136, R137).
-/

namespace Sys2Proof.Machine

/-! ### MATMUL (R114 to R117, R274) -/

/-- MATMUL (R115 to R118, R274): it issues after the last input cycle of the record before, and runs as the clock drives it until
MATMUL_RETIRE. -/
def execMatmul (core eng : Nat) (s : State) : Out :=
  onRecord s core eng 0x30
    (fun _ ws s => (s.me core).run.all (fun r => decide (r.lastIn < s.cycleOf core)) && !s.anyWaking core ((matJob ws).units.flatMap (matJob ws).unitReads))
    (fun r s =>
      let j := matJob r.ws
      let bias := (j.units.filter j.drains).flatMap (fun u => biasSlabOf (s.me core) j.prof u.g)
      match s.matFault r.c core (j.units.flatMap j.unitReads ++ bias) (j.units.flatMap j.unitWrites) with
      | some f => s.infoFault r f.1 f.2
      | none =>
        (s.modMe core (fun me => me.begin (j.start me r.id (s.cycleOf core) r.ws).1 (j.start me r.id (s.cycleOf core) r.ws).2)).pumpMe core)

/-- A starved chute holds the input of the youngest record in a cycle (R110): what lies there or later moves by one. -/
def MatrixEngine.starve (me : MatrixEngine) (id cyc : Nat) : MatrixEngine :=
  { me with run := me.run.map (fun r => if r.rec_ = id then r.slip cyc 1 else r)
            events := joinEvents ((me.events.filter (fun e => e.rec_ == id)).map (fun e => { e with at_ := later cyc 1 e.at_ })) (me.events.filter (fun e => e.rec_ != id))
            bubbles := satAdd 0xFFFFFFFF me.bubbles 1 }

/-- CHUTE_STARVE (R110, R125): the input is held for one cycle, and every later event of the record moves by one. -/
def execChuteStarve (core : Nat) (s : State) : Out :=
  if core < 1280 then
    match s.live core, (s.me core).run.getLast? with
    | some _, some r =>
      if s.cycleOf core ≤ r.lastIn then .next ((s.modMe core (fun me => me.starve r.rec_ (s.cycleOf core))).count core 0x10 1)
      else .next s
    | _, _ => .next s
  else .fault .noSuchUnit

/-- MATMUL_RETIRE (R113, R117, R118): the oldest record in progress has nothing left to do, and its last cycle is there. -/
def execMatmulRetire (core : Nat) (s : State) : Out :=
  if core < 1280 then
    match s.live core, (s.me core).run with
    | some _, r :: rest =>
      if s.cycleOf core < r.due ∨ r.dead ∨ (s.me core).events.any (fun e => e.rec_ == r.rec_) then .next s
      else .next ((s.modMe core (fun me => { me with run := rest })).retire core 1 r.rec_)
    | _, _ => .next s
  else .fault .noSuchUnit

/-! ### MDRAIN and MCLEAR (R118, R275) -/

/-- Every earlier record of the queue has retired (R118, R119). -/
def State.meIdle (s : State) (core eng : Nat) : Bool := (s.queue core eng).flight == []

/-- MDRAIN (R118, R137, R140, R275): it drains one entry per cycle from its issue on. -/
def execMdrain (core eng : Nat) (s : State) : Out :=
  onRecord s core eng 0x31 (fun _ _ s => s.meIdle core eng) (fun r s =>
    let d := mdrainJob r.ws
    match s.matFault r.c core (biasSlabOf (s.me core) d.prof 0) ((List.range (unitStride d.fo d.m)).map (fun i => d.base + i)) with
    | some f => s.infoFault r f.1 f.2
    | none =>
      let cyc := s.cycleOf core
      let run : MatRun := { rec_ := r.id, words := r.ws, lastIn := cyc, due := cyc + d.m + 10 + boolN (fmtMx d.fo), bank := d.bank, drains := [(cyc, d.e0, d.m)] }
      (s.modMe core (fun me => me.begin run (d.events r.id 0 cyc))).pumpMe core)

/-- MCLEAR (R111, R118, R275): it clears one entry per cycle from its issue on, and nothing reads them meanwhile. -/
def execMclear (core eng : Nat) (s : State) : Out :=
  onRecord s core eng 0x32 (fun _ _ s => s.meIdle core eng) (fun r s =>
    let b := wbits r.ws
    let cyc := s.cycleOf core
    s.modMe core (fun me => (me.clearTile (b 1 0 0) (b 1 7 1) (b 1 28 23) (b 1 15 8) (b 1 22 16)).begin
      { rec_ := r.id, words := r.ws, lastIn := cyc, due := cyc + b 1 15 8 - 1, bank := b 1 0 0 } []))

/-! ### Gang windows (R119, R120, R276) -/

/-- GANG_WINDOW (R119, R276): a LENGTH of 0 opens none. -/
def execGangWindow (core eng : Nat) (s : State) : Out :=
  onRecord s core eng 0x33 (fun _ _ s => s.meIdle core eng) (fun r s =>
    let len := wbits r.ws 1 23 0
    if len = 0 then s.retire core eng r.id
    else
      let cyc := s.cycleOf core
      s.modMe core (fun me => { me with win := { open_ := true, close := cyc + len, grant := r.ws.getD 2 0, rec_ := r.id, inputEnd := cyc, finish := cyc } }))

/-- GANG_WINDOW_CLOSE (R119). -/
def execGangWindowClose (core now : Nat) (s : State) : Out :=
  if core < 1280 then
    let s := s.advanceTo now
    let w := (s.me core).win
    match s.live core with
    | some _ =>
      if w.open_ ∧ w.close ≤ s.cycleOf core then
        .next ((s.modMe core (fun me => { me with win := { me.win with open_ := false } })).retire core 1 w.rec_)
      else .next s
    | none => .next s
  else .fault .noSuchUnit

/-- Vector registers of a group of `n` bytes from `base` (R85). -/
def groupRegs (base n : Nat) : List Nat := (List.range (regsOf n)).map (fun i => base + i)

/-- The bytes of a register group (R122). -/
def groupBytes (x : Gang) (base n : Nat) : List Byte :=
  (List.range n).map (fun b => BitVec.ofNat 8 ((x.getV (base + b / 128) (b % 128 / 4)).toNat / 256 ^ (b % 4)))

/-- Writes a register group in all lanes; unused bytes of its last register become 0 (R85, R122). -/
def setGroup (x : Gang) (base : Nat) (bs : List Byte) : Gang :=
  (List.range (32 * regsOf bs.length)).foldl (fun x i => x.setV (base + i / 32) (i % 32) (BitVec.ofNat 32 (ofLe ((bs.drop (4 * i)).take 4)))) x

/-- Registers that a gang matrix instruction reads, and writes (R60, R85). -/
def matUse (op : Nat) (f : MForm) : List Nat × List Nat :=
  if op ≤ 1 then
    (groupRegs f.a (mfM f * mfK f * fmtBits f.fa / 8) ++ groupRegs f.b (mfK f * mfN f * fmtBits f.fb / 8)
      ++ (if fmtMx f.fa then groupRegs f.c (mfM f * mfK f / 32) ++ groupRegs (f.c + regsOf (mfM f * mfK f / 32)) (mfN f * mfK f / 32) else []), [])
  else if op = 2 then
    ([], groupRegs f.x (mfM f * mfN f * fmtBits f.fa / 8) ++ (if fmtMx f.fa then groupRegs f.c (mfM f * mfN f / 32) else []))
  else ([], [])

/-- The accumulator code of the instruction's tile (R83). -/
def matCode (op : Nat) (f : MForm) : Nat := if op = 2 then f.a else f.x

/-- Window cycles, and cycles until the last write (R120); a degraded array takes twice the cycles of a product (R127). -/
def matCycles (degraded : Bool) (op : Nat) (f : MForm) : Nat × Nat :=
  if op ≤ 1 then
    let w := (if degraded then 2 else 1) * (cdiv (mfK f) (kPass f.fa) * (32 + mfM f * segCycles f.fa))
    (w, w + 35)
  else if op = 2 then (mfM f, mfM f + 10) else (mfM f, mfM f - 1)

/-- Whether the grant mask has every block of the tile (R119, R120). -/
def granted (grant : W64) (op : Nat) (f : MForm) : Bool :=
  let x := matCode op f
  (List.range (mfM f / 16)).all (fun i => (List.range (mfN f / 16)).all (fun j =>
    grant.getLsbD (32 * accBank x + 4 * (accRow x / 16 + i) + accCol x / 16 + j)))

/-- A gang matrix instruction issues and waits for the array (R58, R59): no active mask, no predicate. -/
def gangMatrix (s : State) (g : GangAt) (i : Instr) (op : Nat) (f : MForm) : Out :=
  let u := matUse op f
  onGang s g i true { vr := u.1, vw := u.2 } (fun _ x _ t =>
    let y := { x with wait := .window, resume := g.next, heldV := x.heldV ++ u.1, dueV := x.dueV ++ u.2 }
    (t.setGang g.core g.slot y).modMe g.core (fun me => { me with gangQueue := me.gangQueue ++ [({ slot := g.slot, op := op, form := f } : GangMat)] }))

/-- MMA (R58, R59, R83, R121). -/
def execMma (g : GangAt) (f : MForm) (s : State) : Out := gangMatrix s g (.mma g f) 0 f
/-- MMAZ (R58, R59, R83, R121). -/
def execMmaz (g : GangAt) (f : MForm) (s : State) : Out := gangMatrix s g (.mmaz g f) 1 f
/-- GANG_MDRAIN (R58, R59, R83). -/
def execGangMdrain (g : GangAt) (f : MForm) (s : State) : Out := gangMatrix s g (.gangMdrain g f) 2 f
/-- MCLR (R58, R59, R83). -/
def execMclr (g : GangAt) (f : MForm) (s : State) : Out := gangMatrix s g (.mclr g f) 3 f

/-- The product of two register groups (R121, R122). -/
def State.gangSums (s : State) (core : Nat) (x : Gang) (f : MForm) (acc : Bool) : State :=
  let m := mfM f
  let n := mfN f
  let k := mfK f
  let kp := kPass f.fa
  let bsA := groupBytes x f.a (m * k * fmtBits f.fa / 8)
  let bsB := groupBytes x f.b (k * n * fmtBits f.fb / 8)
  let scA := groupBytes x f.c (m * k / 32)
  let scB := groupBytes x (f.c + regsOf (m * k / 32)) (n * k / 32)
  let t : Tile := { fa := f.fa, fb := f.fb, k := k, bank := accBank f.x, e0 := accRow f.x, c0 := accCol f.x, m := m, n := n, acc := acc }
  let d := s.draw
  (if s.loose core then d.2 else s).modMe core (fun me => me.run_ t (if s.loose core then some d.1 else none)
    (fun p i q => elemAt bsA (fmtBits f.fa) (i * k + p * kp + q)) (fun p j q => elemAt bsB (fmtBits f.fb) (j * k + p * kp + q))
    (fun p i b => (scA.getD (i * (k / 32) + p * (kp / 32) + b) 0).toNat) (fun p j b => (scB.getD (j * (k / 32) + p * (kp / 32) + b) 0).toNat))

/-- MMA and MMAZ in the array: a parity error kills the context, and the product is never drained (R127). -/
def State.gangProduct (s : State) (core slot : Nat) (x : Gang) (f : MForm) (acc : Bool) : State :=
  match (s.me core).parity with
  | some col => (s.markColumn core col).gangFault core slot .uncorrEcc 0
  | none => s.gangSums core x f acc

/-- An mdrain of a tile into vector registers (R83, R122, R137). -/
def State.gangDrain (s : State) (core slot : Nat) (f : MForm) : State :=
  let p := tblGet ({} : Profile) (s.me core).profiles f.cvp
  let r := (s.me core).drain f.cvp f.fa (accBank f.a) (accRow f.a) (accCol f.a) (mfM f) (mfN f) (biasOf p [] true (accCol f.a))
  let bytes := packCodes (fmtBits f.fa) (mfM f * mfN f * fmtBits f.fa / 8) (r.2.flatMap Prod.fst)
  let s := (s.modMe core (fun _ => r.1)).count core 0x0E (mfM f)
  s.modGang core slot (fun x =>
    let x := setGroup x f.x bytes
    if fmtMx f.fa then setGroup x f.c (r.2.flatMap (fun d => d.2.map (BitVec.ofNat 8))) else x)

/-- GANG_MATRIX_ACCEPT (R60, R120, R121): the oldest waiting instruction enters the array when the window has cycles enough
left. -/
def execGangMatrixAccept (core now : Nat) (s : State) : Out :=
  if core < 1280 then
    let s := s.advanceTo now
    let me := s.me core
    let cyc := s.cycleOf core
    match s.live core, me.gangQueue with
    | some _, q :: rest =>
      let u := matCycles me.degraded q.op q.form
      if !me.win.open_ ∨ cyc < me.win.inputEnd ∨ me.win.close < cyc + u.1 then .next s
      else if !granted me.win.grant q.op q.form then .next (s.gangFault core q.slot .illegalInsn 0)
      else
        let f := q.form
        let x := s.gang core q.slot
        let b := accBank (matCode q.op f)
        let win : GangWin := { me.win with
          inputEnd := cyc + u.1, finish := max me.win.finish (cyc + u.2 + 1)
          busy := tblSet b (max (tblGet 0 me.win.busy b) (cyc + u.2 + 1)) me.win.busy }
        let s := (s.modMe core (fun me => { me with gangQueue := rest, win := win })).count core 0x12 1
        let s :=
          if q.op ≤ 1 then s.gangProduct core q.slot x f (q.op == 0)
          else if q.op = 2 then s.gangDrain core q.slot f
          else s.modMe core (fun me => me.clearTile (accBank f.x) (accRow f.x) (accCol f.x) (mfM f) (mfN f))
        .next (s.modGang core q.slot (fun x => ({ x with heldV := [], dueV := [] } : Gang).wake))
    | _, _ => .next s
  else .fault .noSuchUnit

/-! ### Converter profiles (05_numbers R136, R137) -/

/-- A commit of one profile (R136, R137): a lower bound above the upper one raises it; the draws start again. DESIGN CHOICE: of two
zeros of different sign the negative one is the lower, here and in the clip stage (assumption 118). -/
def MatrixEngine.commit (me : MatrixEngine) (i : Nat) : MatrixEngine :=
  let p := tblGet ({} : Profile) me.staged i
  let p := if f32Less p.clipHi p.clipLo then { p with clipHi := p.clipLo } else p
  { me with staged := tblSet i p me.staged, profiles := tblSet i p me.profiles, draws := tblSet i 0 me.draws }

def MatrixEngine.commits (me : MatrixEngine) (mask : Nat) : MatrixEngine :=
  (List.range 16).foldl (fun m i => if bitOf mask i then m.commit i else m) me

/-- CVT_COMMIT (R136, R137). -/
def execCvtCommit (core mask : Nat) (s : State) : Out :=
  if core < 1280 then .next (s.modMe core (fun me => me.commits mask)) else .fault .noSuchUnit

end Sys2Proof.Machine
end

