-- ==== Sys2Proof/Machine/Fields.lean ====
section
/-!
DEFINITION. Fields that the Foreman writes at a switch-in and software through registers alike: converter profiles,
FC_CTRL and queue control (05_numbers R136, R137; 08_far R247; 09_queues R250, R284).
-/

namespace Sys2Proof.Machine

/-! ### Converter profiles (R136) -/

def f32IsNan (w : Nat) : Bool := decide (bitsOf w 30 23 = 255) && bitsOf w 22 0 != 0
def f32IsInfNan (w : Nat) : Bool := decide (bitsOf w 30 23 = 255)

/-- CVT_CTRL with the reserved encodings of ROUND and BIAS_MODE at 0. -/
def cvtCtrl (w : Nat) : Nat :=
  let w := w % 256
  let w := if bitsOf w 1 0 = 3 then w - 3 else w
  if bitsOf w 3 2 = 3 then w - 12 else w

/-- A write of word `i` of a staged profile (R136). -/
def Profile.write (p : Profile) (i w : Nat) : Profile :=
  if i = 0 then { p with scale := if f32IsInfNan w then 0x3F800000 else if bitsOf w 30 23 = 0 then bitsOf w 31 31 * 2 ^ 31 else w }
  else if i = 1 then { p with bias := if f32IsInfNan w then 0 else w }
  else if i = 2 then { p with clipLo := if f32IsNan w then 0xFF800000 else w }
  else if i = 3 then { p with clipHi := if f32IsNan w then 0x7F800000 else w }
  else if i = 4 then { p with ctrl := cvtCtrl w }
  else if i = 5 then { p with seed := w }
  else if i = 6 then { p with biasSlab := min 26623 (w % 2 ^ 15) }
  else p

/-- Word `i` of a profile as it reads. -/
def Profile.word (p : Profile) (i : Nat) : Nat :=
  if i = 0 then p.scale else if i = 1 then p.bias else if i = 2 then p.clipLo else if i = 3 then p.clipHi
  else if i = 4 then p.ctrl else if i = 5 then p.seed else if i = 6 then p.biasSlab else 0

/-- A whole profile from its eight words. -/
def Profile.ofWords (ws : List Nat) : Profile := (List.range 8).foldl (fun p i => p.write i (ws.getD i 0)) {}

/-! ### FC_CTRL (R247) -/

def FcCtrl.ofWord (w : Nat) : FcCtrl :=
  { pfEn := bitOf w 0, pfStride := max 1 (min 16 (bitsOf w 5 1)), pfDist := max 1 (min 4 (bitsOf w 8 6))
    streamEn := bitOf w 9, streamRun := max 2 (bitsOf w 13 10) }

def FcCtrl.word (c : FcCtrl) : Nat := boolN c.pfEn + 2 * c.pfStride + 2 ^ 6 * c.pfDist + 2 ^ 9 * boolN c.streamEn + 2 ^ 10 * c.streamRun

/-! ### Queue control (R250, R284) -/

/-- LOG2SIZE is clamped into 6 to 12, a timeout to at most 10 s. -/
def clampLog2 (x : Nat) : Nat := max 6 (min 12 x)
def clampTmo (us : Nat) : Nat := min us 10000000

/-- The Foreman loads a queue descriptor (R250, R285) and commits it; `bell` is the latest doorbell tail stored for the
queue. -/
def Queue.load (q : Queue) (ws : List Nat) (bell : Option Nat) : Queue :=
  let w0 := ws.getD 0 0
  let w1 := ws.getD 1 0
  let ctl : QCtl := { base := bitsOf w0 47 9 * 512, log2 := clampLog2 (bitsOf w0 51 48), fenced := bitOf w0 52, enable := bitOf w0 53 }
  let q := { q with staged := ctl, defTmo := clampTmo (bitsOf w1 31 0), crecBase := bitsOf (ws.getD 2 0) 47 0
                    commit := .foreman (bitsOf w1 43 32) ((bell.map (fun b => min b (2 ^ ctl.log2 - 1))).getD (bitsOf w1 55 44))
                    flight := [], onchip := [], block := .none, tokSince := none, ordSince := none, toRetire := [], cur := []
                    loops := [] }
  q.commitNow

end Sys2Proof.Machine
end

