-- ==== Sys2Proof/Machine/PlanOps.lean ====
section
/-!
DEFINITION. Plan images: how the Foreman reads them and the checks of a placement (10_cutplan R287 to R303).
-/

namespace Sys2Proof.Machine

/-- The little-endian number of `n` bytes at offset `o` of a byte list. -/
def leAt (bs : List Byte) (o n : Nat) : Nat := ofLe ((bs.drop o).take n)

/-- A byte list as 4-byte words. -/
def words4 : List Byte → List Nat
  | a :: b :: c :: d :: t => ofLe [a, b, c, d] :: words4 t
  | _ => []

/-- Cuts a list into pieces of `n`. -/
def chunks {α : Type} (n : Nat) : Nat → List α → List (List α)
  | 0, _ => []
  | k + 1, xs => xs.take n :: chunks n k (xs.drop n)

/-! ### Header and sections (R288, R289) -/

/-- The cores of a BENCH field, ascending (R288), and whether the field is well formed. -/
def benchOf (w : Nat) : List Nat :=
  ((List.range 4).filter (fun d => bitOf w d)).flatMap (fun d =>
    (List.range (bitsOf w 20 16)).flatMap (fun r =>
      (List.range (bitsOf w 36 32)).map (fun c => 320 * d + 16 * (bitsOf w 12 8 + r) + bitsOf w 27 24 + c)))

def benchOk (w : Nat) : Bool :=
  w % 16 != 0 && bitsOf w 20 16 != 0 && decide (bitsOf w 12 8 + bitsOf w 20 16 ≤ 20)
  && bitsOf w 36 32 != 0 && decide (bitsOf w 27 24 + bitsOf w 36 32 ≤ 16)
  && bitsOf w 7 4 == 0 && bitsOf w 15 13 == 0 && bitsOf w 23 21 == 0 && bitsOf w 31 28 == 0 && w / 2 ^ 37 == 0

/-- A section: kind, offset, size, and whether its reserved fields are 0 (R288; 03_sett R67). -/
structure Section where
  kind : Nat
  off : Nat
  size : Nat
  clean : Bool
  deriving DecidableEq, Repr

def sectionsOf (img : List Byte) (n : Nat) : List Section :=
  (List.range n).map (fun i =>
    let b := (img.drop (128 + 16 * i)).take 16
    { kind := leAt b 0 2, off := leAt b 4 4, size := leAt b 8 4, clean := leAt b 2 2 == 0 && leAt b 12 4 == 0 && leAt b 4 4 % 8 == 0 })

/-- Two sections share a byte; a section of SIZE 0 covers none. -/
def Section.overlaps (a b : Section) : Bool :=
  a.size != 0 && b.size != 0 && decide (a.off < b.off + b.size) && decide (b.off < a.off + a.size)

def pairwiseB {α : Type} (ok : α → α → Bool) : List α → Bool
  | [] => true
  | x :: t => t.all (ok x) && pairwiseB ok t

/-- The section table obeys R288 and R289: a section of SIZE 0 is empty wherever its OFFSET points. -/
def sectionsOk (ss : List Section) (len n : Nat) : Bool :=
  ss.all (fun x => x.clean && decide (1 ≤ x.kind) && decide (x.kind ≤ 13) && (x.size == 0 || (decide (128 + 16 * n ≤ x.off) && decide (x.off + x.size ≤ len))))
  && pairwiseB (fun x y => !(x.overlaps y) && (x.kind == 13 || x.kind != y.kind)) ss

/-- The bytes of a section; an absent one has none. -/
def sectionBytes (img : List Byte) (ss : List Section) (kind : Nat) : List Byte :=
  match ss.find? (fun x => x.kind == kind) with
  | none => []
  | some x => (img.drop x.off).take x.size

/-- The required sections have exactly their sizes (R289). -/
def sizesOk (ss : List Section) (cores phases : Nat) : Bool :=
  [(2, 16384 * cores), (3, 128 * cores), (4, 512 * cores), (5, 16 * cores), (6, 16384), (7, 256 * cores), (9, 32 * phases), (10, 448)].all
    (fun p => ss.any (fun x => x.kind == p.1 && x.size == p.2))

/-! ### Router tables (R291) -/

/-- A router entry with every field that takes its default at 0. -/
def routerEntry (row w : Nat) : Nat :=
  let edge := row == 0 || row == 20
  (List.range 6).foldl (fun acc i =>
    let v := bitsOf w (3 * i + 2) (3 * i)
    let v := if v = 7 ∨ v = i + 1 ∨ (!edge && (v == 6 || i == 5)) then 0 else v
    acc + v * 2 ^ (3 * i)) 0

/-- The router tables of a ROUTERS section, and whether it is well formed. -/
def routersOf : Nat → List Nat → Tbl Nat × Bool
  | 0, ws => ([], ws.isEmpty)
  | n + 1, ws =>
    match ws with
    | [] => ([], true)
    | k0 :: k1 :: rest =>
      let row := bitsOf k0 12 8
      let key := (bitsOf k0 1 0 * 16 + bitsOf k0 5 2) * 21 + row
      let es := rest.take 4096
      let ok := decide (row ≤ 20) && bitsOf k0 7 6 == 0 && k0 / 2 ^ 13 == 0 && k1 == 0 && decide (es.length = 4096)
        && es.all (fun w => w / 2 ^ 18 == 0)
      let r := routersOf n (rest.drop 4096)
      (((List.range es.length).zip es).foldl (fun t p =>
        let e := routerEntry row p.2
        if e = 0 then t else tblSet (4096 * key + p.1) e t) r.1, ok && r.2)
    | _ => ([], false)

/-- The keys of a ROUTERS section's records. -/
def routerKeys : Nat → List Nat → List Nat
  | 0, _ => []
  | _, [] => []
  | n + 1, k :: t => k :: routerKeys n (t.drop 4097)

/-- Two entries of one router and index use an output both (R190). -/
def fieldsCollide (x y : Nat) : Bool := (List.range 6).any (fun i => bitsOf x (3 * i + 2) (3 * i) != 0 && bitsOf y (3 * i + 2) (3 * i) != 0)

/-- Two plans collide on the routers (R190, R302). -/
def routersCollide (x y : Tbl Nat) : Bool := x.any (fun p => match tblFind p.1 y with | some e => fieldsCollide p.2 e | none => false)

/-- Two plans use one router (R302). -/
def routersShared (x y : Tbl Nat) : Bool := x.any (fun p => y.any (fun q => q.1 / 4096 == p.1 / 4096))

/-! ### Barriers (11_tallies R316) -/

/-- The unit records of a BARRIERS section, and whether it is well formed. -/
def barriersOf (qids : List Nat) : Nat → List Byte → List PlanUnit × Bool
  | 0, bs => ([], bs.isEmpty)
  | n + 1, bs =>
    if bs.isEmpty then ([], true)
    else
      let h := leAt bs 0 4
      let np := bitsOf h 16 4
      let parts := (List.range np).map (fun i => leAt bs (4 + 2 * i) 2)
      let size := cdiv (4 + 2 * np) 4 * 4
      let ok := decide (1 ≤ np) && decide (np ≤ 5120) && h / 2 ^ 17 == 0 && decide (size ≤ bs.length)
        && parts.all (fun q => qids.contains q) && pairwiseB (fun a b => a != b) parts
      let r := barriersOf qids n (bs.drop size)
      ({ unit := h % 16, parts := parts } :: r.1, ok && r.2)

/-! ### A whole image -/

/-- A plan image's tables, and whether the image obeys R288, R289, R291 to R293, R305, R313 and R316. -/
def planOf (img : List Byte) : Plan × Bool :=
  let len := leAt img 0x08 4
  let nsec := leAt img 0x0C 2
  let bw := leAt img 0x28 8
  let nph := leAt img 0x36 2
  let bench := if benchOk bw then benchOf bw else []
  let nb := bench.length
  let ss := sectionsOf img nsec
  let sec := sectionBytes img ss
  let leads := (List.range 4).filterMap (fun d =>
    let w := leAt img (0x38 + 4 * d) 4
    if bitOf bw d then some (d, bitOf w 15, 4 * bitsOf w 10 0 + bitsOf w 12 11) else none)
  let headOk := decide (1 ≤ nsec) && decide (nsec ≤ 16) && decide (128 + 16 * nsec ≤ len) && benchOk bw
    && leAt img 0x31 1 == 0 && leAt img 0x50 48 == 0 && decide (1 ≤ nph) && decide (nph ≤ 256)
    && leads.all (fun l => l.2.1 && bench.contains (l.2.2 / 4) && dieOf (l.2.2 / 4) == l.1)
    && decide (leAt img 0x48 8 + 32 * 4 * nb ≤ farTop)
  if !(headOk && sectionsOk ss len nsec && sizesOk ss nb nph) then ({ id := leAt img 0x10 8 }, false)
  else
    let routers := routersOf 1400 (words4 (sec 1))
    let ports := chunks 4096 nb (words4 (sec 2))
    let flows := chunks 32 nb (words4 (sec 3))
    let presets := (List.range nb).map (fun i => (leAt (sec 5) (16 * i) 4, leAt (sec 5) (16 * i + 4) 4))
    let tallies := words4 (sec 6)
    let tokens := chunks 64 nb (words4 (sec 7))
    let barriers := barriersOf (bench.flatMap (fun n => (List.range 4).map (fun e => 4 * n + e))) 17 (sec 8)
    let phases := (List.range nph).map (fun i =>
      let b := (sec 9).drop (32 * i)
      ({ dieW := (List.range 4).map (fun d => leAt b (2 * d) 2), durUs := leAt b 8 4, leadUs := leAt b 12 4, excMj := leAt b 16 4
         recoverUs := leAt b 20 4 } : PhaseRow))
    let homes := (tallies.filter (fun w => bitOf w 31 && !bitOf w 30)).map (fun w => (bitsOf w 18 8, w % 256))
    let token := fun (n cls : Nat) => match bench.idxOf? n with
      | some i => (tokens.getD i []).getD cls 0
      | none => 0
    let ok := routers.2 && barriers.2 && pairwiseB (fun a b => a != b) (routerKeys 1400 (words4 (sec 1)))
      && pairwiseB (fun a b => a.unit != b.unit) barriers.1 && decide (barriers.1.length ≤ 16)
      && ports.all (fun t => t.all (fun w => w / 2 ^ 24 == 0))
      && flows.all (fun t => t.all (fun w => w / 2 ^ 20 == 0))
      && (List.range nb).all (fun i => leAt (sec 5) (16 * i + 8) 8 == 0)
      && tallies.all (fun w => bitsOf w 29 19 == 0)
      && homes.all (fun h => bench.contains h.1) && pairwiseB (fun a b => a != b) homes
      && tokens.all (fun t => t.all (fun w => w / 2 ^ 15 == 0))
      && (List.range nb).all (fun i => (List.range 64).all (fun cls =>
          let w := (tokens.getD i []).getD cls 0
          !bitOf w 11 || (bench.contains (bitsOf w 10 0) && bitOf (token (bitsOf w 10 0) cls) 14)))
      && decide (((tokens.map (fun t => (t.filter (fun w => bitOf w 14)).length)).foldl (· + ·) 0) ≤ 7104)
      && (List.range nph).all (fun i => leAt (sec 9) (32 * i + 24) 8 == 0)
    ({ id := leAt img 0x10 8, bench := bench, dieMask := bw % 16, cls := leAt img 0x30 1, ceilW := leAt img 0x32 2, excW := leAt img 0x34 2
       lead := leads.map (fun l => (l.1, l.2.2)), qdt := leAt img 0x48 8, routers := routers.1, ports := ports, flows := flows
       converters := chunks 128 nb (words4 (sec 4)), presets := presets, tallies := tallies, tokens := tokens, barriers := barriers.1
       phases := phases, budget := words4 (sec 10) }, ok)

/-! ### What a plan needs (R298, R302) -/

/-- A phase's draw above BASE_W, in 0.25 W (R300). -/
def PhaseRow.draw (p : PhaseRow) : Nat := p.dieW.foldl (· + ·) 0

/-- The largest phase draw of a plan above BASE_W, in 0.25 W. -/
def Plan.peak (p : Plan) : Nat := (p.phases.map PhaseRow.draw).foldl max 0

/-- Hub slots that a plan's tally map needs. -/
def Plan.hubSlots (p : Plan) : Nat := (p.tallies.filter (fun w => bitOf w 31 && bitOf w 30)).length

/-- The limit of a BUDGET entry (07_moves R194, R196; 08_far R215, R228): seven eighths of 3 or 2 slabs a cycle over 256
cycles; seven eighths of 19.2 GB/s over 1,024 ns, rounded down. -/
def budgetLimit (i : Nat) : Nat := if i < 8 then 672 else if i < 16 then 448 else 17203

/-- Unassigned hub tally slots and barrier units. -/
def State.freeSlots (s : State) : List Nat := (List.range 4096).filter (fun i => !(tblGet ({} : HubSlot) s.hub.tallies i).valid)
def State.freeUnits (s : State) : List Nat := (List.range 256).filter (fun i => !(tblGet ({} : BarUnit) s.hub.units i).valid)

/-- The bytes of the module's stepping, "A1" (R288). -/
def steppingLe : Nat := 0x3141

/-- The dressing map digest (17_site_trust R494). -/
def dressDigest : List Byte :=
  Config.sha512 ((List.range 64).map (fun i => BitVec.ofNat 8 (Config.dressColumn i)) ++ (List.range 1280).map Config.dressCore)

/-- A header field that far memory holds has another value than this. -/
def headWrong (img : List Byte) (o n v : Nat) : Bool := decide (o + n ≤ img.length) && leAt img o n != v

/-- The checks of R302 that look at the image alone: F_FORM, F_DRESSING, F_MALFORMED. The fields of a header that the end of
far memory cuts off are not there to be wrong: such an image is malformed (R288). -/
def imageCode (s : State) (a : Nat) (img : List Byte) (p : Plan × Bool) : Nat :=
  if headWrong img 0 4 0x50545543 || headWrong img 0x0E 2 1 || headWrong img 4 2 4 || headWrong img 6 2 steppingLe then 0x0801
  else if 0x28 ≤ img.length ∧ (img.drop 0x18).take 16 ≠ dressDigest.take 16 then 0x0802
  else if !p.2 || !((s.ctx 0).farOk .r a (leAt img 8 4)) then 0x0803
  else 0

/-- The checks of R302 against the site, the cores and the plans in residence. -/
def placeCode (s : State) (p : Plan) : Nat :=
  let res := s.placed.map (fun x => x.2.plan_)
  let peaks := 4 * Config.baseW + p.peak + (res.map Plan.peak).foldl (· + ·) 0
  if p.cls ≠ s.site.cls ∨ p.ceilW > s.site.sustW ∨ p.excW > s.site.excW then 0x0804
  else if p.bench.any (fun n => s.dbg.degraded.contains n) then 0x0805
  else if p.bench.any (fun n => (s.core n).ctx.isSome) ∨ s.holders.length ≥ 16 then 0x0811
  else if s.holders.any (fun x => routersCollide p.routers x.2.plan_.routers) then 0x0812
  else if (List.range 112).any (fun i => decide (p.budget.getD i 0 + (res.map (fun r => r.budget.getD i 0)).foldl (· + ·) 0 > budgetLimit i)) then 0x0813
  else if peaks > 4 * (if p.excW = 0 then s.gov.sustW else s.gov.excW) then 0x0814
  else if p.hubSlots > s.freeSlots.length ∨ p.barriers.length > s.freeUnits.length then 0x0815
  else 0

/-- A refusal of R302 that is permanent. -/
def permanent (code : Nat) : Bool := decide (0x0801 ≤ code) && decide (code ≤ 0x0805)

/-- A context in residence holds what a refused plan needs (13_contexts R354). -/
def State.inTheWay (s : State) (p : Plan) (code : Nat) (x : Ctx) : Bool :=
  let r := x.plan_
  if code = 0x0811 then decide (s.holders.length ≥ 16) || p.bench.any (fun n => r.bench.contains n)
  else if code = 0x0812 then routersCollide p.routers r.routers
  else if code = 0x0813 then (List.range 112).any (fun i =>
    p.budget.getD i 0 != 0 && r.budget.getD i 0 != 0
      && decide (p.budget.getD i 0 + (s.placed.map (fun y => y.2.plan_.budget.getD i 0)).foldl (· + ·) 0 > budgetLimit i))
  else if code = 0x0814 then r.peak != 0
  else if code = 0x0815 then
    (decide (p.hubSlots > s.freeSlots.length) && r.hubSlots != 0)
    || (decide (p.barriers.length > s.freeUnits.length) && !r.barriers.isEmpty)
  else false

end Sys2Proof.Machine
end

