-- ==== Sys2Proof/Machine/CtxOps.lean ====
section
/-!
DEFINITION. Operations on contexts that the Foreman's meanings share: query entries, objects and windows, what is
outstanding, saving and restoring, leaving a bench, the steps of a kill (13_contexts R345 to R370; 11_tallies R321, R322).
-/

namespace Sys2Proof.Machine

/-! ### Query entries (R374, R375) -/

/-- An update of a context's query entry: SEQ goes to the next even value. -/
def State.bump (s : State) (c : Nat) : State := s.modCtx c (fun x => { x with seq := (x.seq + 2) % 2 ^ 32 })

/-- Sets an event bit and raises the context's vector (R374). -/
def State.ctxEvent (s : State) (c bit : Nat) : State :=
  ((s.modCtx c (fun x => { x with events := if bitOf x.events bit then x.events else x.events + 2 ^ bit })).bump c).vector c

/-- PLACED_US in ns up to now: total time PLACED since CTX_START. -/
def Ctx.placedTotal (x : Ctx) (now : Nat) : Nat := x.placedNs + (if x.state = .placed then now - x.placedAt else 0)

/-! ### Far memory as the Foreman reads and writes it (R347, R357) -/

/-- Bytes at the controllers, none when the range leaves far memory or a block is uncorrectable. -/
def State.fread (s : State) (a n : Nat) : State × Option (List Byte) := if a + n ≤ farTop then s.farRead a n else (s, none)

/-! ### Objects (R357 to R361) -/

def Foreman.objAddr (f : Foreman) (id : Nat) : Nat := f.objTable + 32 * id

/-- A field of an object's descriptor: none where context 0's windows do not let the Foreman read it (R345), or where a
block is uncorrectable. -/
def State.objField (s : State) (id off n : Nat) : State × Option Nat :=
  if (s.ctx 0).granted .r (s.fman.objAddr id + off) n then
    let r := s.fread (s.fman.objAddr id + off) n
    (r.1, r.2.map ofLe)
  else (s, none)

/-- Writes a field of an object's descriptor, where context 0's windows let the Foreman (R345). -/
def State.objWrite (s : State) (id off n v : Nat) : State :=
  if (s.ctx 0).granted .w (s.fman.objAddr id + off) n then (s.farWrite (s.fman.objAddr id + off) (leBytes n v)).1 else s

/-- The Foreman releases an object's memory (R359). -/
def State.releaseObj (s : State) (id : Nat) : State :=
  let s := s.objWrite id 0x1A 1 0
  let s := { s with fman := { s.fman with objects := s.fman.objects.filter (fun o => o.id != id) } }
  (s.bump 0).event 0 id

/-- Adds 1 to DEV_COUNT (R360, R361). -/
def State.addRef (s : State) (id : Nat) : State :=
  let r := s.objField id 0x14 4
  match r.2 with
  | none => r.1
  | some n => r.1.objWrite id 0x14 4 ((n + 1) % 2 ^ 32)

/-- Subtracts 1 from DEV_COUNT; at 0, an object whose host count has reached 0 is released (R359). -/
def State.dropRef (s : State) (id : Nat) : State :=
  if !s.fman.tables then s
  else
    let r := s.objField id 0x14 4
    match r.2 with
    | none => r.1
    | some n =>
      let t := r.1.objWrite id 0x14 4 (n - 1)
      let k := t.objField id 0x1A 2
      match k.2 with
      | none => k.1
      | some w => if n ≤ 1 ∧ w % 256 ≠ 0 ∧ bitOf w 8 then k.1.releaseObj id else k.1

def Window.named (w : Window) : Bool := w.valid && w.obj != 0

/-- A window comes into force, or leaves it (R360). -/
def State.windowIn (s : State) (w : Window) : State := if w.named then s.addRef w.obj else s
def State.windowOut (s : State) (w : Window) : State := if w.named then s.dropRef w.obj else s

/-- A window entry from its 16 bytes (R348). -/
def windowOf (bs : List Byte) : Window :=
  let r := leAt bs 12 1
  { base := leAt bs 0 4, bound := leAt bs 4 4, obj := leAt bs 8 4, r := bitOf r 0, w := bitOf r 1, x := bitOf r 2, valid := bitOf r 3 }

/-- The window encloses slab memory of a core outside the bench (06_slab R161). -/
def Window.strays (w : Window) (bench : List Nat) : Bool :=
  (List.range 1280).any (fun n => !bench.contains n && decide (slabBase + n * 2 ^ 24 < 65536 * w.bound)
    && decide (65536 * w.base < slabBase + n * 2 ^ 24 + 0xD00000))

/-- The refusals of a window (R349). -/
def State.windowBad (s : State) (bench : List Nat) (w : Window) : Bool :=
  w.valid &&
    ((decide (w.base < w.bound) && w.strays bench)
     || (w.obj != 0 && !(s.fman.objects.any (fun o => o.id == w.obj
          && (decide (w.bound ≤ w.base) || (decide (o.base ≤ 65536 * w.base) && decide (65536 * w.bound ≤ o.base + o.size)))))))

/-- The window of a context is replaced (R350). -/
def State.putWindow (s : State) (c i : Nat) (w : Window) : State :=
  let old := tblGet ({} : Window) (s.ctx c).windows i
  let s := (s.windowIn w).windowOut old
  (s.modCtx c (fun x => { x with windows := tblSet i w x.windows })).bump c

/-! ### Cores of a context -/

/-- The cores that a context holds. -/
def State.held (s : State) (c : Nat) : List Nat := (s.ctx c).bench.filter (fun n => (s.core n).ctx == some c)

/-- A SWITCH entry in the rings of the context's cores and of the hub (19_debug_test R525). -/
def State.tailSwitch (s : State) (c code : Nat) : State :=
  let s := (s.held c).foldl (fun t n => (List.range 5).foldl (fun t u => t.tail (ringOf n u) 7 c none code 0 0) t) s
  (List.range 8).foldl (fun t u => t.tail (hubRing u) 7 c none code 0 0) s

/-- The entry or exit of a context in the trace of each enabled engine (19_debug_test R519). -/
def State.traceSwitch (s : State) (c out : Nat) : State :=
  (s.held c).foldl (fun t n => t.modCore n (fun k => (List.range 4).foldl (fun k e => k.traceRec t.now c e 7 out) k)) s

/-! ### What is outstanding (R353, R367; 11_tallies R321) -/

/-- Tally operations, tokens, arrivals, wakes and reads that the context has sent are on their way; a SIGNAL to another
module until it is acknowledged. -/
def State.netBusy (s : State) (c : Nat) : Bool :=
  let n := s.net
  n.tally.any (fun m => m.ctx == c && m.src.core < 1280) || n.reads.any (fun m => m.ctx == c) || n.tokens.any (fun m => m.ctx == c)
  || n.arrivals.any (fun m => m.ctx == c) || n.releases.any (fun m => m.ctx == c) || n.atoms.any (fun m => m.ctx == c)
  || n.fobj.any (fun m => m.ctx == c) || n.services.any (fun m => m.ctx == c)
  || n.slabs.any (fun m => m.req.ctx == c) || n.slabReplies.any (fun m => m.ctx == c) || n.wakes.any (fun m => m.ctx == c)
  || s.links.sigOut.any (fun p => p.2.waiting.any (fun m => m.ctx == c))

/-- An issued request of a move record has not completed (R185, R206): its source is still to be read, a whole band waits
for a waking bank, a remote write is not acknowledged, or the check of a page whose writes have all left has not
returned. -/
def MvRec.waits (x : Ctx) (r : MvRec) : Bool :=
  if r.node = 0xFFFF then
    r.reqs.any (fun q => q.data.isNone)
    || (r.tw != 0 && r.reqs.any (fun q => decide (r.pos ≥ min r.rows (32 * q.band + 32) * r.rowBytes)))
    || r.pages.any (r.checkOut x)
  else r.reqs != []

/-- Requests of the context to memory on one core are outstanding. -/
def Core.memBusy (k : Core) (x : Ctx) (c : Nat) : Bool :=
  k.mv0.recs.any (MvRec.waits x) || k.mv1.recs.any (MvRec.waits x)
  || k.fc.hostStores.any (fun h => h.ctx == c && !k.sending h)
  || k.fc.misses.any (fun m => m.ctx == c) || k.fc.wbs.any (fun w => w.ctx == c)
  || k.slab.unplanned.any (fun u => u.ctx == c) || k.slab.landing.any (fun l => l.ctx == c)
  || k.dbg.writes.any (fun w => w.ctx == c)

/-- Landing data of the context waits at some core of its bench, whoever sent it. -/
def State.memBusy (s : State) (c : Nat) : Bool :=
  (s.held c).any (fun n => (s.core n).memBusy (s.ctx c) c) || s.net.atoms.any (fun m => m.ctx == c) || s.net.fobj.any (fun m => m.ctx == c)
  || s.net.slabs.any (fun m => m.req.ctx == c)

/-- A remote record waits for FINAL only: all of its requests have completed, and it retires with its tokens (R206). -/
def MvRec.ending (r : MvRec) : Bool := r.node != 0xFFFF && !r.rejected && r.pos == r.total && (r.claimOk || r.total == 0)

/-- Releases, matrix records and ending remote records of the context are outstanding on a core (R365; 02_gangs R56). -/
def State.sideBusy (s : State) (c : Nat) : Bool :=
  (s.held c).any (fun n =>
    let k := s.core n
    k.fc.releases.any (fun r => r.ctx == c) || k.me.run != [] || k.me.win.open_ || (k.mv0.recs ++ k.mv1.recs).any MvRec.ending)

/-- A queue has nothing to do and nothing in flight (R353). -/
def Queue.idle (q : Queue) : Bool := q.head == q.tail && q.flight == [] && q.toRetire == [] && q.block == .none

/-- A placed context is quiescent (R353). -/
def State.quiescent (s : State) (c : Nat) : Bool :=
  (s.ctx c).state == .placed && (s.ctx c).fault.isNone && (s.ctx c).suspendReq.isNone
  && (s.held c).all (fun n =>
    (List.range 4).all (fun e => (s.queue n e).idle) && (List.range 16).all (fun g => !(s.gang n g).live)
    && (s.core n).ge.launches == [] && (s.core n).mv0.recs == [] && (s.core n).mv1.recs == [] && (s.core n).slab.powerWaits == []
    && (s.core n).slab.rewrites == [])
  && !s.netBusy c && !s.memBusy c && !s.sideBusy c
  && !(s.links.src.any (fun m => m.ctx == c))

/-! ### The context save area (11_tallies R321, R322) -/

/-- A list of chosen elements as a bitmap of `n` bytes over a list of all. -/
def bitmapOf (n : Nat) (all chosen : List Nat) : List Byte :=
  leBytes n (((List.range all.length).zip all).foldl (fun acc p => acc + 2 ^ p.1 * boolN (chosen.contains p.2)) 0)

/-- The elements that a bitmap chooses. -/
def bitmapIn (bs : List Byte) (all : List Nat) : List Nat :=
  (((List.range all.length).zip all).filter (fun p => (bs.getD (p.1 / 8) 0).getLsbD (p.1 % 8))).map Prod.snd

/-- The 64 KiB of the save area's synchronisation part. -/
def State.syncBytes (s : State) (c : Nat) : List Byte :=
  let x := s.ctx c
  let tallies := (List.range 4096).flatMap (fun v => leBytes 4 (match x.home v with | some h => (s.tallyAt h).value | none => 0))
  let unit := fun v => match tblFind v x.units with | some u => s.unit u | none => ({} : BarUnit)
  let heads := (List.range 16).flatMap (fun v =>
    let b := unit v
    leBytes 4 b.gen ++ leBytes 2 b.arr0.length ++ leBytes 2 b.arr1.length ++ leBytes 2 b.held.length ++ leBytes 6 0)
  let maps := (List.range 16).flatMap (fun v => let b := unit v; bitmapOf 640 b.parts b.arr0 ++ bitmapOf 640 b.parts b.arr1)
  let toks := (s.held c).flatMap (fun n => (List.range 64).filterMap (fun cls =>
    let k := tblGet 0 (s.core n).tally.tokens cls
    if k = 0 then none else some (n + 2 ^ 11 * cls + 2 ^ 17 * k)))
  let tokBytes := (toks.take 7104).flatMap (fun w => leBytes 4 w)
  tallies ++ heads ++ maps ++ tokBytes ++ List.replicate (28416 - tokBytes.length) 0

/-- Bytes written to far memory, whatever the ECC check answers. -/
def State.farPut (s : State) (a : Nat) (bs : List Byte) : State := (s.farWrite a bs).1

def State.saveSync (s : State) (c : Nat) : State := s.farPut (s.ctx c).save (s.syncBytes c)

/-- The token entries of the save area, up to the first zero word. -/
def tokenWords : List Nat → List Nat
  | [] => []
  | w :: t => if w = 0 then [] else w :: tokenWords t

/-- The synchronisation state comes back from the save area's bytes. -/
def State.loadSync (s : State) (c : Nat) (bs : List Byte) : State :=
  let x := s.ctx c
  let s := x.tmap.foldl (fun t p => t.setTally p.2 { value := leAt bs (4 * p.1) 4 }) s
  let s := x.units.foldl (fun t p =>
    let b := t.unit p.2
    let m := (bs.drop (0x4100 + 1280 * p.1)).take 1280
    t.setUnit p.2 { b with gen := leAt bs (0x4000 + 16 * p.1) 4, arr0 := bitmapIn (m.take 640) b.parts
                           arr1 := bitmapIn (m.drop 640) b.parts, held := [], owed := [], filled := false }) s
  (tokenWords (words4 ((bs.drop 0x9100).take 28416))).foldl (fun t w =>
    t.modCore (bitsOf w 10 0) (fun k => { k with tally := { k.tally with tokens := tblSet (bitsOf w 16 11) (bitsOf w 31 17) k.tally.tokens } })) s

/-- A fault that the Foreman itself meets (R369). -/
def State.foremanFault (s : State) (c addr : Nat) : State := s.raise c { cause := .uncorrEcc, addr := addr }

/-- What follows the read of a save area at `a`: the bytes are taken, or the context faults. -/
def areaRead (c a : Nat) (load : State → List Byte → State) (r : State × Option (List Byte)) : State × Bool :=
  match r.2 with
  | none => (r.1.foremanFault c a, false)
  | some bs => (load r.1 bs, true)

/-- Restores the synchronisation state; false when the area cannot be read. -/
def State.restoreSync (s : State) (c : Nat) : State × Bool :=
  areaRead c (s.ctx c).save (fun t bs => t.loadSync c bs) (s.fread (s.ctx c).save 65536)

/-! ### Gangs and accumulators of a suspended context (R365, R366) -/

/-- The 352 KiB of a core in the gang save area; the part private to the stepping is free (assumption 22). -/
def gsaveBytes (k : Core) (salt : Nat) : List Byte :=
  let slots := List.range 16
  let g := fun i => k.gang i
  slots.flatMap (fun i => (List.range 4096).flatMap (fun j => leBytes 4 (tblGet 0 (g i).v j).toNat))
  ++ slots.flatMap (fun i => (List.range 64).flatMap (fun r => leBytes 8 ((g i).getS r).toNat))
  ++ slots.flatMap (fun i => (List.range 8).flatMap (fun r => leBytes 4 ((g i).getP r).toNat))
  ++ (List.range 24064).map (fun i => Config.freeSaved (2 ^ 20 * salt + i))
  ++ (List.range 16384).flatMap (fun i => leBytes 4 (tblGet 0 k.me.acc i).toNat)

/-- A table from values by place, without the zeros. -/
def tblOfWords {w : Nat} (xs : List Nat) : Tbl (BitVec w) :=
  (((List.range xs.length).zip xs).filter (fun p => p.2 != 0)).map (fun p => (p.1, BitVec.ofNat w p.2))

/-- Registers and accumulators come back from a core's saved bytes. -/
def Core.loadGsave (k : Core) (bs : List Byte) : Core :=
  let k := (List.range 16).foldl (fun k i =>
    let v := words4 ((bs.drop (0x4000 * i)).take 0x4000)
    let sr := (chunks 8 64 ((bs.drop (0x40000 + 0x200 * i)).take 0x200)).map ofLe
    let p := words4 ((bs.drop (0x42000 + 0x20 * i)).take 0x20)
    k.setGang i { k.gang i with v := tblOfWords v, s := tblOfWords sr, p := tblOfWords (p.set 0 0) }) k
  { k with me := { k.me with acc := tblOfWords (words4 (bs.drop 0x48000)) } }

/-- Saves every bench core into GSAVE (R365). -/
def State.saveGangs (s : State) (c : Nat) : State :=
  let r := s.draw
  let cores := s.held c
  (((List.range cores.length).zip cores).foldl (fun t p =>
    t.farPut ((t.ctx c).gsave + 360448 * p.1) (gsaveBytes (t.core p.2) (1280 * r.1 + p.1))) r.2)

/-- One core comes back from the `size` bytes at `a` of its save area. -/
def restoreCore (c a size n : Nat) (p : State × Bool) : State × Bool :=
  let r := areaRead c a (fun t bs => t.modCore n (fun k => k.loadGsave bs)) (p.1.fread a size)
  (r.1, p.2 && r.2)

/-- Restores every bench core from GSAVE (R366); false when the area cannot be read. -/
def State.restoreGangs (s : State) (c : Nat) : State × Bool :=
  let cores := s.held c
  ((List.range cores.length).zip cores).foldl (fun a p => restoreCore c ((s.ctx c).gsave + 360448 * p.1) 360448 p.2 a) (s, true)

/-! ### Far cache write-back at a switch (08_far R242) -/

/-- Writes back the dirty bytes of a context's lines on a core, and drops the lines. -/
def State.cacheOut (s : State) (c n : Nat) : State :=
  let mine := (s.core n).fc.lines.filter (fun l => l.2.ctx == c)
  let s := mine.foldl (fun t l =>
    if l.2.dirty = 0 then t
    else
      let q := (t.core n).fc.sectors l.1 l.2.dirty
      let t := t.modCore n (fun k => { k with fc := q.1 })
      if !q.2 then t.raise c { cause := .uncorrEcc, core := n, engine := 0, addr := 128 * l.2.line }
      else
        let w := t.farWriteBytes (128 * l.2.line) (FarCache.wbBytes l.2)
        if w.2 then w.1 else w.1.raise c { cause := .uncorrEcc, core := n, engine := 0, addr := 128 * l.2.line }) s
  mine.foldl (fun t l => t.modCore n (fun k => { k with fc := k.fc.drop l.1 })) s

/-! ### Leaving a bench (R303, R321, R356, R367) -/

/-- Messages of a context that are still on their way are dropped, but for increments from other modules: those are
handled when they arrive (11_tallies R319). -/
def Net.purge (n : Net) (c : Nat) : Net :=
  { tally := n.tally.filter (fun m => m.ctx != c || decide (1280 ≤ m.src.core)), watches := n.watches.filter (fun m => m.ctx != c)
    refused := n.refused.filter (fun m => m.ctx != c), wakes := n.wakes.filter (fun m => m.ctx != c)
    reads := n.reads.filter (fun m => m.ctx != c), tokens := n.tokens.filter (fun m => m.ctx != c)
    arrivals := n.arrivals.filter (fun m => m.ctx != c), releases := n.releases.filter (fun m => m.ctx != c)
    atoms := n.atoms.filter (fun m => m.ctx != c), fobj := n.fobj.filter (fun m => m.ctx != c)
    services := n.services.filter (fun m => m.ctx != c), slabs := n.slabs.filter (fun m => m.req.ctx != c)
    slabReplies := n.slabReplies.filter (fun m => m.ctx != c) }

/-- A watch's threshold as REBASE has left it goes back to its waiter (R311). -/
def State.lowerWait (s : State) (w : Watch) : State :=
  if w.who.unit < 16 then
    s.modGang w.who.core w.who.unit (fun g =>
      match g.wait with
      | .tally vid thr st tmo ser => if ser = w.serial then { g with wait := .tally vid w.threshold st tmo ser } else { g with wait := .tally vid thr st tmo ser }
      | _ => g)
  else
    s.modQueue w.who.core (w.who.unit - 16) (fun q =>
      if q.blockId = w.serial then
        { q with block := q.block.setWaits (q.block.waits.mapIdx (fun i (x : TWait) => if i = w.idx then { x with threshold := w.threshold } else x)) }
      else q)

/-- Watches of a context leave their homes; each waiter keeps its threshold as REBASE has left it. -/
def State.dropWatches (s : State) (c : Nat) : State :=
  let held := (s.hub.watches ++ (s.held c).flatMap (fun n => (s.core n).tally.watches)).filter (fun w => w.ctx == c)
  let s := held.foldl State.lowerWait s
  let s := { s with hub := { s.hub with watches := s.hub.watches.filter (fun w => w.ctx != c) }
                    net := { s.net with watches := s.net.watches.filter (fun w => w.ctx != c)
                                        refused := s.net.refused.filter (fun w => w.ctx != c)
                                        wakes := s.net.wakes.filter (fun w => w.ctx != c) } }
  (s.held c).foldl (fun t n => t.modCore n (fun k => { k with tally := { k.tally with watches := [] } })) s

/-- Tallies, tokens and barrier participation are cleared, and hub slots and units return to the pool (11_tallies
R321). -/
def State.clearSync (s : State) (c : Nat) : State :=
  let s := (s.held c).foldl (fun t n => t.modCore n (fun k => { k with tally := { k.tally with slots := [], tokens := [], watches := [] } })) s
  { s with net := s.net.purge c
           hub := { s.hub with tallies := s.hub.tallies.filter (fun p => !(p.2.valid && p.2.ctx == c))
                               watches := s.hub.watches.filter (fun w => w.ctx != c)
                               units := s.hub.units.filter (fun p => !(p.2.valid && p.2.ctx == c)) } }

/-- A queue that its context leaves keeps its registers and loses what was in flight. -/
def Queue.leave (q : Queue) : Queue :=
  { q with inForce := { q.inForce with enable := false }, commit := .none, onchip := [], loops := [], flight := [], block := .none
           tokSince := none, ordSince := none, toRetire := [], stepArm := false }

/-- A core is released, and its port and flow tables are empty (10_cutplan R303). -/
def Core.leave (k : Core) : Core :=
  { k with ctx := none
           ge := { k.ge with slots := [], launches := [], stopped := false, rejected := none, ibuf := [] }
           me := { k.me with run := [], events := [], win := {}, gangQueue := [] }
           mv0 := { k.mv0 with recs := [], sent := [], creditWait := false }, mv1 := { k.mv1 with recs := [], sent := [], creditWait := false }
           slab := { k.slab with powerWaits := [], rewrites := [] }
           queues := k.queues.map (fun p => (p.1, p.2.leave))
           tally := { k.tally with routes := [] }
           portTable := [], flows := [] }

/-- What a kill leaves of a core's gang engine: no state (02_gangs R65). -/
def Core.scrap (k : Core) : Core := { k with ge := {} }

/-- No core counts a killed context as the last one whose records ran on it: whoever comes next finds its slabs filled
(06_slab R170). -/
def State.forgetLast (s : State) (c : Nat) : State :=
  { s with cores := s.cores.map (fun p => (p.1, if p.2.lastCtx = some c then { p.2 with lastCtx := none } else p.2)) }

/-- The bench is released (R303): its tables, its unit map and its phase state go with it. The tally map's names stay for increments that
arrive while the context is away (11_tallies R319). -/
def State.leaveBench (s : State) (c : Nat) : State :=
  let s := (s.held c).foldl (fun t n => t.modCore n Core.leave) s
  (s.modCtx c (fun x => { x with units := [], lead := [], marks := [], yielding := false, haltSince := none, haltNs := 0 })).bump 0

/-! ### The kill sequence (R367 to R369) -/

/-- Step 1: fetching stops, HALT, BRK_EN and STEP are cleared; window changes that wait never come into force (R350). -/
def State.killStep1 (s : State) (c : Nat) : State :=
  let s := s.tailSwitch c 3
  let s := (s.held c).foldl (fun t n => (List.range 4).foldl (fun t e =>
    t.modQueue n e (fun q => { q with halt := false, halted := false, brkEn := false, stepArm := false })) t) s
  let x := s.ctx c
  let s := s.setCtx c { x with placedNs := x.placedTotal s.now, state := .killing, killing := true, yielding := false, pendWins := []
                               cause := match x.fault with | some f => f.cause.code | none => 0 }
  let s := x.pendWins.foldl (fun t p => t.reply p.req 2 []) s
  let s := s.modLinks (fun l => { l with dst := l.dst.map (fun d => if d.ctx = c then { d with dead := true } else d) })
  s.bump c

/-- Begins the kill of a context with a cause of its own (R369). -/
def State.killWith (s : State) (c : Nat) (f : FaultRec) : State := (s.raise c f).killStep1 c

/-- Step 7: every ACTIVE fence object of a fence page that the context owns is abandoned (R362, R367). -/
def State.abandon (s : State) (c : Nat) : State :=
  s.fman.objects.foldl (fun t o =>
    let r := t.objField o.id 0x18 3
    match r.2 with
    | none => r.1
    | some w =>
      if w % 65536 = c ∧ w / 65536 = 2 then
        (List.range 4096).foldl (fun t i =>
          let a := o.base + 16 * i + 8
          let q := t.fread a 1
          match q.2 with
          | some [b] => if b.toNat % 2 = 1 then (q.1.farWrite a [BitVec.ofNat 8 (b.toNat / 4 * 4 + 2)]).1 else q.1
          | _ => q.1) r.1
      else r.1) s

/-- The post-mortem record (R369). -/
def pmBytes (f : FaultRec) (later : Nat) : List Byte :=
  let rec_ := (f.record.take 4).flatMap (fun w => leBytes 8 w.toNat)
  leBytes 4 f.cause.code ++ leBytes 2 f.core ++ leBytes 1 f.engine ++ leBytes 1 f.gang ++ leBytes 8 f.npc ++ leBytes 8 f.addr
  ++ leBytes 4 f.mask ++ leBytes 2 f.qid ++ leBytes 2 f.slot ++ leBytes 4 f.tally ++ leBytes 4 f.home ++ leBytes 8 f.time
  ++ leBytes 4 later ++ leBytes 4 0 ++ leBytes 8 f.value ++ rec_ ++ List.replicate (4096 - 0x40 - rec_.length) 0

/-- A context returns to FREE (R351, R397): its SEQ and its dropped doorbells go on counting. -/
def State.freeCtx (s : State) (c : Nat) : State :=
  let x := s.ctx c
  (s.setCtx c { seq := x.seq, dbDrop := x.dbDrop }).bump c

/-- Claims of a killed context end at their source. -/
def State.endClaims (s : State) (c : Nat) : State :=
  let mine := s.links.src.filter (fun m => m.ctx == c)
  let s := s.modLinks (fun l => { l with src := l.src.filter (fun m => m.ctx != c) })
  mine.foldl (fun t m => t.sendFrame m.node (.claimEnd m.id)) s

/-- Steps 3 to 7 and the end of the kill (R367). -/
def State.killFinish (s : State) (c : Nat) : State :=
  let s := (s.endClaims c).clearSync c
  let s := (s.held c).foldl (fun t n => t.modCore n (fun k => { k with fc := k.fc.flush c })) s
  let s := (s.ctx c).windows.foldl (fun t p => t.windowOut p.2) s
  let s := (s.held c).foldl (fun t n => t.modCore n Core.scrap) (s.traceSwitch c 1)
  let s := (s.leaveBench c).forgetLast c
  let s := (s.ctx c).batches.foldl (fun t b => b.ids.foldl (fun t i => t.dropRef i) t) s
  let s := s.abandon c
  let x := s.ctx c
  let s := match x.fault with
    | some f => (s.farWrite x.pm (pmBytes f x.later)).1
    | none => s
  if x.toFree then s.freeCtx c
  else (s.modCtx c (fun x => { x with state := .dead, killing := false, windows := [], batches := [], blocks := [], bells := [], suspendReq := none })).ctxEvent c 3

end Sys2Proof.Machine
end

