-- ==== Sys2Proof/Machine/Contexts.lean ====
section
/-!
DEFINITION. What the Foreman does with contexts on its own: placement, switch-in and switch-out, windows at quiescence,
suspension and resume, kills, reference batches; phase marks and doorbells (09_queues R252, R253; 10_cutplan R298 to R303;
13_contexts R345 to R368).
-/

namespace Sys2Proof.Machine

/-! ### Switch-in (R355; 06_slab R170) -/

/-- The nonzero words of a table by index. -/
def tblOfNats (ws : List Nat) : Tbl Nat := ((List.range ws.length).zip ws).filter (fun p => p.2 != 0)

/-- `n` members of a list, in an order that the free values from `d` on settle (assumption 55). -/
def pickFree (d : Nat) : Nat → List Nat → List Nat
  | 0, _ => []
  | _ + 1, [] => []
  | n + 1, [a] => a :: pickFree (d + 1) n []
  | n + 1, a :: b :: t =>
    let l := a :: b :: t
    let i := Config.freePlace d % l.length
    l.getD i a :: pickFree (d + 1) n (l.eraseIdx i)

/-- The physical home of each valid entry of a tally map; hub entries take the given slots in order (11_tallies R305). -/
def assignHomes : List (Nat × Nat) → List Nat → Tbl Home × List (Nat × Nat)
  | [], _ => ([], [])
  | (v, w) :: t, free =>
    if !bitOf w 31 then assignHomes t free
    else if bitOf w 30 then
      match free with
      | [] => assignHomes t []
      | f :: fs => let r := assignHomes t fs; ((v, ⟨true, 0, f⟩) :: r.1, (v, f) :: r.2)
    else let r := assignHomes t free; ((v, ⟨false, bitsOf w 18 8, w % 256⟩) :: r.1, r.2)

/-- Token routes of a core from its plan entries (11_tallies R313). -/
def routesOf (ws : List Nat) : Tbl TokRoute :=
  (((List.range ws.length).zip ws).filter (fun p => p.2 != 0)).map (fun p =>
    (p.1, { outCore := bitsOf p.2 10 0, outValid := bitOf p.2 11, inEng := bitsOf p.2 13 12, inValid := bitOf p.2 14 }))

/-- Converter profiles of a core from its 128 words (05_numbers R136, R137). -/
def profilesOf (ws : List Nat) : Tbl Profile := (List.range 16).map (fun i => (i, Profile.ofWords ((ws.drop (8 * i)).take 8)))

/-- A core joins the bench of context `c` as bench core `i` of the plan: slab memory is filled for another context (R170),
profiles are committed, presets written, accumulators set to +0, tables loaded (R355). -/
def Core.join (k : Core) (c i : Nat) (p : Plan) : Core :=
  let fresh := k.lastCtx != some c
  let pr := profilesOf (p.converters.getD i [])
  let pre := p.presets.getD i (0, 0)
  { k with
    ctx := some c
    slab := if fresh then { k.slab with mem := [], bad := [], banks := [], conflict := 0, waitCycles := 0, rewrites := [] } else k.slab
    mv0 := if fresh then { k.mv0 with fallback := 0, empty := 0 } else k.mv0
    mv1 := if fresh then { k.mv1 with fallback := 0, empty := 0 } else k.mv1
    me := ({ k.me with staged := pr, acc := [], intBlocks := [], bubbles := 0 } : MatrixEngine).commits 0xFFFF
    ge := { k.ge with seed := pre.1 }
    fc := { k.fc with ctrl := FcCtrl.ofWord pre.2 }
    tally := { k.tally with slots := [], tokens := [], watches := [], routes := routesOf (p.tokens.getD i []) }
    portTable := tblOfNats (p.ports.getD i [])
    flows := tblOfNats (p.flows.getD i [])
    queues := k.queues.map (fun q => (q.1, if fresh then { q.2 with fstall := 0, cur := [] } else { q.2 with cur := [] })) }

/-- The queue descriptors of a bench, in ascending QID; none when one cannot be read. -/
def State.readQdt (s : State) (p : Plan) : State × Option (List (List Nat)) :=
  let n := 4 * p.bench.length
  let r := s.fread p.qdt (32 * n)
  (r.1, r.2.map (fun bs => (chunks 32 n bs).map (fun d => (chunks 8 4 d).map ofLe)))

/-- Step 6 of a switch-in: every queue of the bench is loaded and committed (R250, R285). -/
def State.loadQueues (s : State) (c : Nat) (p : Plan) (ds : List (List Nat)) : State :=
  let qids := p.bench.flatMap (fun n => (List.range 4).map (fun e => 4 * n + e))
  let bells := (s.ctx c).bells
  (qids.zip ds).foldl (fun t q => t.modQueue (q.1 / 4) (q.1 % 4) (fun x => x.load q.2 (tblFind q.1 bells))) s

/-- The plan that is in force after a switch-in: the tables and maps are not written again when the context was the last to
use its cores and routers (R355). Everything else comes from the image that was read: presets and converter profiles are
written at every switch-in (R289), phases and leads are the Governor's. -/
def State.planIn (s : State) (c : Nat) (p : Plan) : Plan :=
  let x := s.ctx c
  match x.loaded with
  | some l =>
    if x.routersKept && l.bench == p.bench && p.bench.all (fun n => (s.core n).lastCtx == some c) then
      { p with routers := l.routers, ports := l.ports, flows := l.flows, tallies := l.tallies, tokens := l.tokens, barriers := l.barriers }
    else p
  | none => p

/-- Other contexts can no longer count on the routers that this plan writes (R302, R355). -/
def State.takeRouters (s : State) (c : Nat) (p : Plan) : State :=
  { s with ctxs := s.ctxs.map (fun (y : Nat × Ctx) =>
      (y.1, if y.1 != c && routersShared y.2.plan_.routers p.routers then { y.2 with routersKept := false } else y.2)) }

/-- Hub tally slots and barrier units are assigned to a context, and its HUB_TDROP is set to 0 (11_tallies R305, R316,
R324). -/
def State.takeHub (s : State) (c : Nat) (slots : List (Nat × Nat)) (units : List (PlanUnit × Nat)) : State :=
  { s with hub := { s.hub with
      tallies := slots.foldl (fun t (h : Nat × Nat) => tblSet h.2 ({ value := 0, sat := false, vid := h.1, ctx := c, valid := true } : HubSlot) t) s.hub.tallies
      units := units.foldl (fun t (u : PlanUnit × Nat) => tblSet u.2 ({ ctx := c, vunit := u.1.unit, valid := true, parts := u.1.parts } : BarUnit) t) s.hub.units
      tdrop := tblDrop c s.hub.tdrop } }

/-- Switch-in (R355). -/
def State.switchIn (s : State) (c : Nat) (image : Plan) : State :=
  let p := s.planIn c image
  let q := s.readQdt p
  match q.2 with
  | none => q.1.foremanFault c p.qdt
  | some ds =>
    let s := q.1
    let entries := (List.range p.tallies.length).zip p.tallies
    let homes := assignHomes entries (pickFree s.draws p.hubSlots s.freeSlots)
    let units := p.barriers.zip (pickFree (s.draws + 4096) p.barriers.length s.freeUnits)
    let s := { s with draws := s.draws + 4352 }
    let s := (s.takeRouters c p).takeHub c homes.2 units
    let s := ((List.range p.bench.length).zip p.bench).foldl (fun t n => t.modCore n.2 (fun k => k.join c n.1 p)) s
    let s := s.modCtx c (fun x => { x with tmap := homes.1, units := units.foldl (fun t (u : PlanUnit × Nat) => tblSet u.1.unit u.2 t) [], bench := p.bench
                                           dieMask := p.dieMask, qdt := p.qdt, lead := p.lead, loaded := some p, routersKept := true })
    let r := if (s.ctx c).preserve then s.restoreSync c else (s, true)
    if !r.2 then (r.1.clearSync c).leaveBench c
    else
      let s := r.1.loadQueues c p ds
      let s := s.modCtx c (fun x => { x with
        state := .placed, placedAt := s.now, sliceAt := s.now, placeCode := 0, yielding := false, bells := [], switches := satAdd 0xFFFFFFFF x.switches 1
        marks := ((List.range 4).filter (fun d => bitOf p.dieMask d)).map (fun d => (d, [({ start := s.half, phase := 0 } : PMark)])) })
      ((((s.rehalt c).ctxEvent c 0).bump 0).tailSwitch c 0).traceSwitch c 0

/-! ### Placement (R352, R354; 10_cutplan R302) -/

/-- A context that the Foreman tries to place: READY, not held, not refused for good, not context 0 (R345, R352). -/
def Ctx.candidate (c : Nat) (x : Ctx) : Bool :=
  c != 0 && x.state == .ready && !x.hold && !permanent x.placeCode && x.fault.isNone

/-- The order of R352: descending priority, then the order in which the contexts became READY. -/
def insertCand (x : Nat × Ctx) : List (Nat × Ctx) → List (Nat × Ctx)
  | [] => [x]
  | y :: t =>
    if x.2.priority > y.2.priority ∨ (x.2.priority = y.2.priority ∧ x.2.order < y.2.order) then x :: y :: t else y :: insertCand x t

def State.candidates (s : State) : List Nat := ((s.ctxs.filter (fun p => p.2.candidate p.1)).foldr insertCand []).map Prod.fst

/-- A plan image as far as it can be read: its bytes, and whether a block was uncorrectable. An image that does not lie in
far memory is cut short. -/
def State.readImage (s : State) (a : Nat) : State × List Byte × Bool :=
  let h := s.fread a (min 128 (farTop - a))
  match h.2 with
  | none => (h.1, [], true)
  | some hd =>
    let len := leAt hd 8 4
    if a + len > farTop ∨ len ≤ 128 ∨ hd.length < 128 then (h.1, hd, false)
    else
      let r := h.1.fread a len
      match r.2 with
      | none => (r.1, [], true)
      | some bs => (r.1, bs, false)

/-- One attempt to place one context: the refusal code, 0 when it was placed. A permanent code sets event REFUSED. -/
def State.tryPlace (s : State) (c : Nat) : State × Nat :=
  let a := (s.ctx c).plan
  let r := s.readImage a
  if r.2.2 then (r.1.foremanFault c a, 0)
  else
    let p := planOf r.2.1
    let i := imageCode r.1 a r.2.1 p
    let code := if i ≠ 0 then i else placeCode r.1 p.1
    if code = 0 then (r.1.switchIn c p.1, 0)
    else
      let s := r.1.modCtx c (fun x => { x with placeCode := code })
      (if permanent code then s.ctxEvent c 4 else s.bump c, code)

/-- The placed contexts that hold what the first waiting context needs become yielding (R354). -/
def State.markYielding (s : State) (first : Option (Nat × Nat)) : State :=
  let s := { s with ctxs := s.ctxs.map (fun p => (p.1, { p.2 with yielding := false })) }
  match first with
  | none => s
  | some (c, code) =>
    let w := s.ctx c
    let p := (planOf (s.readImage w.plan).2.1).1
    { s with ctxs := s.ctxs.map (fun y =>
        let x := y.2
        let due := decide (x.priority < w.priority)
          || (x.priority == w.priority && x.timeslice != 0 && decide (s.now ≥ x.sliceAt + 1000 * x.timeslice))
        (y.1, { x with yielding := x.state == .placed && due && s.inTheWay p code x })) }

/-- The Foreman tries every READY context that is not held, in order (R352). -/
def State.placeAll (s : State) : State :=
  let r := s.candidates.foldl (fun (a : State × Option (Nat × Nat)) c =>
    let q := a.1.tryPlace c
    (q.1, if a.2.isNone && q.2 != 0 && !permanent q.2 then some (c, q.2) else a.2)) (s, none)
  r.1.markYielding r.2

/-- PLACEMENT_ATTEMPT (R352). -/
def execPlacementAttempt (now : Nat) (s : State) : Out :=
  let s := s.advanceTo now
  if s.pci.running.contains 1 ∧ s.fman.tables then .next s.placeAll else .next s

/-! ### Quiescence: windows and switch-out (R350, R353, R356) -/

/-- The window changes that wait come into force, each answered (R350). One that R349 has come to refuse is answered
E_WINDOW. -/
def State.applyWindows (s : State) (c : Nat) : State :=
  let ps := (s.ctx c).pendWins
  let s := s.modCtx c (fun x => { x with pendWins := [] })
  ps.foldl (fun t p =>
    if t.windowBad (t.ctx c).bench p.win then t.reply p.req 4 []
    else ((t.putWindow c p.idx p.win).ctxEvent c 5).reply p.req 0 []) s

/-- HEAD and TAIL go back into word 1 of each queue descriptor (R250). -/
def State.storeQueues (s : State) (c : Nat) : State :=
  let x := s.ctx c
  let qids := x.bench.flatMap (fun n => (List.range 4).map (fun e => 4 * n + e))
  ((List.range qids.length).zip qids).foldl (fun t p =>
    let q := t.queue (p.2 / 4) (p.2 % 4)
    let a := x.qdt + 32 * p.1 + 12
    let w := t.farWrite a (leBytes 3 (q.head + 2 ^ 12 * q.tail))
    if w.2 then w.1 else w.1.foremanFault c a) s

/-- Switch-out (R356); a fault on the way leaves the context to its kill. -/
def State.switchOut (s : State) (c : Nat) : State :=
  let s := s.applyWindows c
  let s := if (s.ctx c).preserve then s.saveSync c else s
  let s := (s.held c).foldl (fun t n => t.cacheOut c n) s
  let s := s.storeQueues c
  if (s.ctx c).fault.isSome then s
  else
    let x := s.ctx c
    let s := (((s.traceSwitch c 1).tailSwitch c 1).clearSync c).leaveBench c
    let s := s.modCtx c (fun y => { y with state := .ready, placedNs := x.placedTotal s.now, order := s.fman.nextOrder })
    ({ s with fman := { s.fman with nextOrder := s.fman.nextOrder + 1 } } : State).ctxEvent c 1

/-- WINDOW_APPLY (R350, R353): at the quiescence of a placed context its pending windows come into force, and with them it
is switched out. -/
def execWindowApply (c : Nat) (s : State) : Out :=
  if s.quiescent c ∧ (s.ctx c).pendWins ≠ [] then .next (s.switchOut c) else .next s

/-- SWITCH_OUT (R353, R356): a placed context that is held or yielding, or has a SET_WINDOW pending, at its quiescence. -/
def execSwitchOut (c : Nat) (s : State) : Out :=
  if s.quiescent c && ((s.ctx c).hold || (s.ctx c).yielding || (s.ctx c).pendWins != []) then .next (s.switchOut c) else .next s

/-! ### Suspension and resume (R365, R366; 02_gangs R56; 07_moves R205, R206; 11_tallies R321) -/

/-- CONTEXT_SUSPEND (R365): once what the context has sent has taken effect and its issued requests have completed. -/
def execContextSuspend (c now : Nat) (s : State) : Out :=
  let s := s.advanceTo now
  let x := s.ctx c
  match x.suspendReq with
  | none => .next s
  | some addr =>
    if x.state ≠ .placed ∨ x.fault.isSome = true ∨ s.netBusy c = true ∨ s.memBusy c = true ∨ s.sideBusy c = true then .next s
    else
      let s := (s.held c).foldl (fun t n => t.cacheOut c n) ((s.saveGangs c).saveSync c)
      if (s.ctx c).fault.isSome then .next s
      else
        let s := (s.dropWatches c).tailSwitch c 2
        let s := s.modCtx c (fun y => { y with state := .suspended, suspendAddr := addr, placedNs := x.placedTotal s.now })
        .next ((s.ctxEvent c 2).bump 0)

/-- A wait of a record begins afresh: at the own core it is tested again, elsewhere its watch is sent again (R321). -/
def State.rewatch (s : State) (c core unit idx serial : Nat) (w : TWait) : State × TWait :=
  if w.done then (s, w)
  else if !w.home.hub && w.home.core == core then (s, ({ w with begun := true } : TWait).test w.home (s.tallyAt w.home))
  else
    ({ s with net := { s.net with watches := s.net.watches ++
        [({ ctx := c, who := ⟨core, unit⟩, idx := idx, serial := serial, home := w.home, threshold := w.threshold } : Watch)] } },
     { w with begun := false })

/-- The waits of a queue begin afresh after a resume, with their timeouts; a barrier arrival that its unit had held is sent
again; the latest doorbell tail is applied. -/
def State.resumeQueue (s : State) (c core e : Nat) : State :=
  let q := s.queue core e
  let r := q.block.waits.foldl (fun (a : State × List TWait) w =>
    let b := a.1.rewatch c core (16 + e) a.2.length q.blockId w
    (b.1, a.2 ++ [b.2])) (s, [])
  let qid := 4 * core + e
  let s := r.1
  let block := match q.block.setWaits r.2 with
    | .fence st _ => QBlock.fence st false
    | .barrier ws (some u) true => QBlock.barrier ws (some u) ((s.unit u).arr0.contains qid || (s.unit u).arr1.contains qid)
    | b => b
  let s := s.setQueue core e { q with block := block, blockStart := s.ctxNow c, tokSince := q.tokSince.map (fun _ => s.ctxNow c), ordSince := q.ordSince.map (fun _ => s.ctxNow c)
                                      tail := match tblFind qid (s.ctx c).bells with | some b => min b (q.size - 1) | none => q.tail }
  s.progress core e

/-- A gang goes on after a resume: a rejected instruction is executed again, a wait begins afresh. -/
def State.resumeGang (s : State) (c core slot : Nat) : State :=
  let g := s.gang core slot
  match g.wait with
  | .rejected => s.setGang core slot { g with wait := .none }
  | .fwait d a v sc _ tmo _ => s.setGang core slot { g with wait := .fwait d a v sc (s.ctxNow c) tmo false }
  | .tally vid thr _ tmo ser =>
    match (s.ctx c).home vid with
    | none => s
    | some h =>
      let r := s.rewatch c core slot 0 ser { vid := vid, home := h, threshold := thr }
      if r.2.done then r.1.setGang core slot g.wake
      else r.1.setGang core slot { g with wait := .tally vid thr (s.ctxNow c) tmo ser }
  | _ => s

/-- The records of a move engine go on after a resume (R205, R206): one that has only partly completed starts again from
its first byte, a remote one under a new claim; one that waits only for acknowledgements goes on waiting. -/
def State.resumeMoves (s : State) (c core e : Nat) : State :=
  let x := s.ctx c
  ((s.core core).mv e).recs.foldl (fun t r =>
    if r.node = 0xFFFF then
      t.modRec core e r.id (fun r => { r with pos := 0, reqs := [], nextReq := 0, rejected := false
                                              pages := if r.dst ≥ hostBase then hostPages (x.hostAddr r.dst) r.len else [] })
    else if !r.claimOk || (!r.rejected && r.pos == r.total) then t
    else
      match r.claim with
      | none => t
      | some id =>
        let t := (t.modLinks (fun l => { l with src := l.src.filter (fun m => m.id != id) })).sendFrame r.node (.claimEnd id)
        let q := t.openClaim core e r.id c r.node r.dst r.len r.sigEn r.sigTid r.sigInc
        q.1.modRec core e r.id (fun r => { r with pos := 0, reqs := [], nextReq := 0, rejected := false, claim := some q.2, claimOk := false })) s

/-- CTX_RESUME of a suspended context (R366). -/
def State.resume (s : State) (c : Nat) : State :=
  let g := s.restoreGangs c
  if !g.2 then g.1
  else
    let r := g.1.restoreSync c
    if !r.2 then r.1
    else
      let s := r.1.modCtx c (fun x => { x with state := .placed, placedAt := r.1.now, suspendReq := none })
      let cores := s.held c
      let s := cores.foldl (fun t n =>
        let t := t.modCore n (fun k => { k with ge := { k.ge with rejected := none, launches := k.ge.launches.map (fun l => { l with start := t.ctxNow c }) } })
        let t := (List.range 16).foldl (fun t i => t.resumeGang c n i) t
        let t := t.modCore n (fun k => { k with queues := k.queues.map (fun q => (q.1, { q.2 with
          flight := q.2.flight.map (fun f => if f.opc = 0x20 then { f with start := t.ctxNow c } else f) })) })
        (List.range 4).foldl (fun t e => t.resumeQueue c n e) t) s
      let s := s.modCtx c (fun x => { x with bells := [] })
      let s := cores.foldl (fun t n => [2, 3].foldl (fun t e => (t.resumeMoves c n e).pumpMoves n e) t) s
      (((s.bump c).bump 0).tailSwitch c 4)

/-! ### Kills and batches (R361, R367) -/

/-- CONTEXT_KILL (R367): the kill of a context whose fault the Foreman has recorded begins. -/
def execContextKill (c : Nat) (s : State) : Out :=
  let x := s.ctx c
  if c ≠ 0 ∧ x.fault.isSome = true ∧ x.killing = false ∧ x.state ≠ .free ∧ x.state ≠ .dead then .next (s.killStep1 c) else .next s

/-- Once every kill of a function reset has ended, the Foreman forgets its tables and objects (14_host R397). -/
def State.forgetTables (s : State) : State :=
  if s.fman.forget && !(s.ctxs.any (fun p => p.2.killing)) then { s with fman := { nextOrder := s.fman.nextOrder } } else s

/-- KILL_DRAIN_DONE (R367): everything outstanding has completed; steps 3 to 7 follow. -/
def execKillDrainDone (c : Nat) (s : State) : Out :=
  if (s.ctx c).killing ∧ !s.memBusy c then .next (s.killFinish c).forgetTables else .next s

/-- REF_BATCH_RETIRE (R361): the queue's HEAD has passed the end slot of the context's k-th batch. -/
def execRefBatchRetire (c k : Nat) (s : State) : Out :=
  match (s.ctx c).batches[k]? with
  | none => .next s
  | some b =>
    if tblGet 0 (s.ctx c).passed b.qid < b.until_ then .next s
    else .next (b.ids.foldl (fun t i => t.dropRef i) (s.modCtx c (fun x => { x with batches := dropAt k x.batches })))

/-! ### Phase marks (10_cutplan R299) -/

/-- A mark on the die's mark line is accepted: its phase began with the mark, `since` in ns (R270), or begins LEAD_US after
it, and replaces later marks (16_governor R458). -/
def State.acceptMark (s : State) (die c mark since : Nat) : State :=
  let p := (s.ctx c).plan_
  let phase := min (mark % 256) (p.phases.length - 1)
  let lead := ((p.phases[phase]?).map PhaseRow.leadUs).getD 0
  let start := if bitOf mark 15 then 2 * since + 2000 * lead else 2 * since
  if (s.ctx c).state ≠ .placed ∧ (s.ctx c).state ≠ .suspended then s
  else s.modCtx c (fun x => { x with
    marks := tblSet die ((tblGet [] x.marks die).filter (fun m => decide (m.start < start)) ++ [({ start := start, phase := phase } : PMark)]) x.marks })

/-- PHASE_MARK (R299): the mark line of a die takes one mark per µs. -/
def execPhaseMark (die now : Nat) (s : State) : Out :=
  if die < 4 then
    let s := s.advanceTo now
    let d := tblGet ({} : Die) s.dies die
    match d.line with
    | none => .next s
    | some (c, mark, since) =>
      if s.now < since + 1000 then .next s
      else .next (({ s with dies := tblSet die { d with line := none } s.dies } : State).acceptMark die c mark since)
  else .fault .noSuchUnit

/-! ### Doorbells (09_queues R252, R253) -/

/-- QDB (R252, R253): the tail of a queue; dropped when the queue is not the context's or its kill has begun, stored while
the context is away. -/
def State.doorbell (s : State) (c qid tail : Nat) : State :=
  let x := s.ctx c
  let qid := min qid 5119
  let away := x.state = .ready ∨ x.state = .suspended
  if x.bench.contains (qid / 4) ∧ !x.killing ∧ (x.state = .placed ∨ away) then
    if x.state = .placed then
      let q := s.queue (qid / 4) (qid % 4)
      (s.setQueue (qid / 4) (qid % 4) { q with tail := min tail (q.size - 1) }).count (qid / 4) 0x3E 1
    else s.modCtx c (fun x => { x with bells := tblSet qid tail x.bells })
  else s.modCtx c (fun x => { x with dbDrop := satAdd 0xFFFFFFFF x.dbDrop 1 })

def execQdb (c qid tail : Nat) (s : State) : Out := if c < 1024 then .next (s.doorbell c (qid % 2 ^ 13) (tail % 2 ^ 12)) else .fault .noSuchUnit

end Sys2Proof.Machine
end

