-- ==== Sys2Proof/Machine/Foreman.lean ====
section
/-!
DEFINITION. The requests of the Foreman's mailbox channel (13_contexts R347 to R351, R357 to R361, R366).
-/

namespace Sys2Proof.Machine

/-! ### What every request meets (R351; 14_host R388) -/

/-- The statuses of R351. -/
def sOk : Nat := 0
def sBusy : Nat := 1
def sState : Nat := 2
def sDesc : Nat := 3
def sWindow : Nat := 4
def sObject : Nat := 5
def sNoMem : Nat := 6
def sArg : Nat := 7

/-- A request of the Foreman's table: E_BUSY before READY, E_STATE without tables, E_ARG for an argument out of range,
E_STATE for a context or object while context 0 is not READY. `body` answers the rest. -/
def foremanReq (s : State) (code : Nat) (argOk : MailMsg → State → Bool) (service : MailMsg → Bool)
    (body : ReqRef → MailMsg → State → State) : Out :=
  onRequest s 1 code (fun ref m t =>
    if !t.pci.ready && code != 0x16 then t.reply ref sBusy []
    else if !t.fman.tables && code != 0x01 then t.reply ref sState []
    else if !argOk m t then t.reply ref sArg []
    else if service m && (t.ctx 0).state != .ready then t.reply ref sState []
    else body ref m t)

/-- The first argument is a context id. -/
def argCtx (m : MailMsg) : Bool := decide (m.arg 1 < 1024)

/-! ### Tables (R351) -/

/-- Every object is released and forgotten without OBJECT_FREED records: KIND of each descriptor goes to 0 (R351, R359). -/
def State.forgetObjects (s : State) : State :=
  let t := s.fman.objects.foldl (fun (t : State) o => t.objWrite o.id 0x1A 1 0) s
  { t with fman := { t.fman with objects := [] } }

/-- SET_TABLES (R351): accepted while every other context is FREE and no window of context 0 names an object. -/
def execSetTables (s : State) : Out :=
  foremanReq s 0x01
    (fun m _ => m.arg2 1 % 512 == 0 && m.arg2 3 % 32 == 0 && decide (1 ≤ m.arg 5) && decide (m.arg 5 ≤ 65536)
      && decide (m.arg2 1 + 512 * 1024 ≤ farTop) && decide (m.arg2 3 + 32 * m.arg 5 ≤ farTop))
    (fun _ => false) (fun ref m t =>
      if t.ctxs.any (fun p => (p.1 != 0 && p.2.state != .free) || (p.1 == 0 && p.2.windows.any (fun w => w.2.named))) then t.reply ref sState []
      else
        let t := t.forgetObjects
        ({ t with fman := { t.fman with tables := true, ctxTable := m.arg2 1, objTable := m.arg2 3, entries := m.arg 5 } } : State).reply ref sOk [])

/-! ### Contexts (R347 to R351) -/

/-- A context as its descriptor gives it (R347); `dl` is DEFAULT_LOCAL, so `local_` is the effective mode (R358); what
outlives a start stays. -/
def descCtx (dl : Bool) (old : Ctx) (ds : List Byte) : Ctx :=
  let fl := leAt ds 2 2
  let heap := fun (b : Nat) => if bitOf b 7 then some (b % 16) else none
  { preserve := bitOf fl 0, localSet := bitOf fl 1, local_ := if bitOf fl 1 then bitOf fl 2 else dl, priority := leAt ds 4 1 % 8
    heapI := heap (leAt ds 5 1), heapL := heap (leAt ds 6 1), timeslice := leAt ds 8 4, hostHi := leAt ds 0x0C 4 % 2 ^ 17
    plan := leAt ds 0x10 8, save := leAt ds 0x18 8, gsave := leAt ds 0x20 8, pm := leAt ds 0x28 8
    windows := (List.range 16).map (fun i => (i, windowOf ((ds.drop (0x80 + 16 * i)).take 16)))
    seq := old.seq, dbDrop := old.dbDrop }

/-- The refusals of a descriptor with E_DESC (R347); `hd` is what stands at PLAN, `n` the bench's cores. -/
def State.descBad (s : State) (c : Nat) (ds : List Byte) (x : Ctx) (hd : List Byte) (n : Nat) : Bool :=
  let z := s.ctx 0
  let area := fun (a size al : Nat) => a % al == 0 && decide (a + size ≤ farTop)
  let both := fun (w : Ctx) (a size : Nat) => w.granted .r a size && w.granted .w a size
  leAt ds 0 2 != c
  || (if c = 0 then !(x.granted .r s.fman.ctxTable (512 * 1024) && both x s.fman.objTable (32 * s.fman.entries))
      else !(area x.save 65536 65536 && area x.gsave (360448 * n) 65536 && area x.pm 4096 4096
             && both z x.save 65536 && both z x.gsave (360448 * n) && leAt hd 0 4 == 0x50545543))

/-- CTX_START of a FREE context (R347 to R349). -/
def State.startCtx (s : State) (ref : ReqRef) (c : Nat) : State :=
  let a := s.fman.ctxTable + 512 * c
  if (s.ctx c).state ≠ .free then s.reply ref sState []
  else if c ≠ 0 ∧ !(s.ctx 0).farOk .r a 512 then s.reply ref sDesc []
  else
    let r := s.fread a 512
    match r.2 with
    | none => r.1.reply ref sDesc []
    | some ds =>
      let x := descCtx s.far.defaultLocal (r.1.ctx c) ds
      let h := if c = 0 then (r.1, some []) else r.1.fread x.plan 4
      -- the header, where it can be read, names the bench of R161 and the queue descriptors of R250
      let g := if c = 0 ∨ h.2.isNone then (h.1, some []) else h.1.fread x.plan 128
      let hd := g.2.getD []
      let bw := leAt hd 0x28 8
      let bench := if c ≠ 0 ∧ benchOk bw then benchOf bw else []
      let s := g.1
      if s.descBad c ds x (h.2.getD []) bench.length then s.reply ref sDesc []
      else if x.windows.any (fun w => s.windowBad bench w.2) then s.reply ref sWindow []
      else
        let s := x.windows.foldl (fun t w => t.windowIn w.2) s
        let s := s.setCtx c { x with state := .ready, bench := bench, qdt := leAt hd 0x48 8, dieMask := bw % 16, order := s.fman.nextOrder }
        (({ s with fman := { s.fman with nextOrder := s.fman.nextOrder + 1 } } : State).bump c).reply ref sOk []

/-- CTX_START (R347). -/
def execCtxStart (s : State) : Out :=
  foremanReq s 0x10 (fun m _ => argCtx m) (fun m => m.arg 1 != 0) (fun ref m t => t.startCtx ref (m.arg 1))

/-- A READY, PLACED or SUSPENDED context. -/
def CtxState.lives (x : CtxState) : Bool := x == .ready || x == .placed || x == .suspended

/-- CTX_HOLD (R351). -/
def execCtxHold (s : State) : Out :=
  foremanReq s 0x11 (fun m _ => argCtx m && decide (m.arg 2 ≤ 1)) (fun _ => true) (fun ref m t =>
    let c := m.arg 1
    if !(t.ctx c).state.lives then t.reply ref sState []
    else ((t.modCtx c (fun x => { x with hold := m.arg 2 == 1 })).bump c).reply ref sOk [])

/-- CTX_RESUME (R351, R366). -/
def execCtxResume (s : State) : Out :=
  foremanReq s 0x12 (fun m _ => argCtx m) (fun _ => true) (fun ref m t =>
    if (t.ctx (m.arg 1)).state ≠ .suspended then t.reply ref sState []
    else (t.resume (m.arg 1)).reply ref sOk [])

/-- CTX_KILL (R345, R351, R368): replies once step 1 of the kill sequence is done. -/
def execCtxKill (s : State) : Out :=
  foremanReq s 0x13 (fun m _ => argCtx m) (fun _ => true) (fun ref m t =>
    let c := m.arg 1
    let x := t.ctx c
    if c = 0 ∨ x.state = .free ∨ x.state = .dead then t.reply ref sState []
    else if x.killing then t.reply ref sOk []
    else (t.killWith c { cause := .killRequest }).reply ref sOk [])

/-- CTX_DESTROY (R351). -/
def execCtxDestroy (s : State) : Out :=
  foremanReq s 0x14 (fun m _ => argCtx m) (fun _ => true) (fun ref m t =>
    if (t.ctx (m.arg 1)).state ≠ .dead then t.reply ref sState []
    else (t.freeCtx (m.arg 1)).reply ref sOk [])

/-- SET_WINDOW (R348 to R350): at once for a READY context, at the next quiescence for the others. -/
def execSetWindow (s : State) : Out :=
  foremanReq s 0x15 (fun m _ => argCtx m && decide (m.arg 2 < 16)) (fun _ => true) (fun ref m t =>
    let c := m.arg 1
    let x := t.ctx c
    let w := windowOf ([3, 4, 5, 6].flatMap (fun i => leBytes 4 (m.arg i)))
    if !x.state.lives then t.reply ref sState []
    else if t.windowBad x.bench w then t.reply ref sWindow []
    else if x.state = .ready then ((t.putWindow c (m.arg 2) w).ctxEvent c 5).reply ref sOk []
    else t.modCtx c (fun x => { x with pendWins := x.pendWins ++ [{ idx := m.arg 2, win := w, req := ref }] }))

/-- CTX_ACK (R351): served before READY as well (14_host R388). -/
def execCtxAck (s : State) : Out :=
  foremanReq s 0x16 (fun m _ => argCtx m) (fun _ => true) (fun ref m t =>
    let c := m.arg 1
    ((t.modCtx c (fun x => { x with events := x.events - (x.events &&& m.arg 2) })).bump c).reply ref sOk [])

/-! ### Objects and batches (R357 to R361) -/

/-- The region of a pool (R220, R358): start and end. -/
def State.poolRange (s : State) (pool owner : Nat) : Nat × Nat :=
  let l := s.far.localUnits
  let top := (31 - l) * 24 * 2 ^ 30
  let size := l * 6 * 2 ^ 30
  let x := s.ctx owner
  let mode := if x.localSet ∨ x.state ≠ .free then x.local_ else s.far.defaultLocal
  let die := if pool = 5 then (if mode then (List.range 4).find? (fun d => bitOf x.dieMask d) else none)
    else if 1 ≤ pool ∧ pool ≤ 4 then some (pool - 1) else none
  match die with
  | some d => if l = 0 then (0, top) else (top + d * size, top + (d + 1) * size)
  | none => (0, top)

/-- The gaps between objects in a region, ascending, from objects in address order: start and end. -/
def objGaps (lo hi : Nat) : List ObjRange → List (Nat × Nat)
  | [] => if lo < hi then [(lo, hi)] else []
  | o :: t =>
    if o.base + o.size ≤ lo then objGaps lo hi t
    else if o.base ≥ hi then (if lo < hi then [(lo, hi)] else [])
    else (if lo < o.base then [(lo, o.base)] else []) ++ objGaps (o.base + o.size) hi t

def insertObj (o : ObjRange) : List ObjRange → List ObjRange
  | [] => [o]
  | p :: t => if o.base < p.base then o :: p :: t else p :: insertObj o t

/-- How many places of a gap an object of `n` bytes fits at, at multiples of 64 KiB. -/
def gapPlaces (n : Nat) (g : Nat × Nat) : Nat := if g.1 + n ≤ g.2 then (g.2 - g.1 - n) / 65536 + 1 else 0

/-- The k-th place. -/
def placeAt (n : Nat) : Nat → List (Nat × Nat) → Option Nat
  | _, [] => none
  | k, g :: t => if k < gapPlaces n g then some (g.1 + 65536 * k) else placeAt n (k - gapPlaces n g) t

/-- A place for an object of `n` bytes (R358): which of those that fit is the Foreman's choice (free, assumption 36). -/
def State.findPlace (s : State) (pool owner n : Nat) : State × Option Nat :=
  let r := s.poolRange pool owner
  let gaps := objGaps r.1 r.2 s.fman.objects
  let total := (gaps.map (gapPlaces n)).foldl (· + ·) 0
  let d := s.draw
  (d.2, if total = 0 then none else placeAt n (Config.freePlace d.1 % total) gaps)

/-- An object id of the table: 0 names no object. -/
def argObj (m : MailMsg) (t : State) : Bool := m.arg 1 != 0 && decide (m.arg 1 < t.fman.entries)
def State.objExists (s : State) (id : Nat) : Bool := s.fman.objects.any (fun o => o.id == id)

/-- OBJ_CREATE (R358): writes BASE, SIZE, DEV_COUNT, OWNER, KIND and FLAGS of the descriptor and answers BASE. -/
def execObjCreate (s : State) : Out :=
  foremanReq s 0x20
    (fun m t => argObj m t && (m.arg 2 == 1 || m.arg 2 == 2) && m.arg2 3 != 0 && m.arg2 3 % 65536 == 0
      && (m.arg 2 == 1 || m.arg2 3 == 65536) && decide (m.arg 5 ≤ 5) && decide (m.arg 6 < 1024))
    (fun _ => true) (fun ref m t =>
      let id := m.arg 1
      let size := m.arg2 3
      if t.objExists id then t.reply ref sObject []
      else
        let r := t.findPlace (m.arg 5) (m.arg 6) size
        match r.2 with
        | none => r.1.reply ref sNoMem []
        | some base =>
          let s := { r.1 with fman := { r.1.fman with objects := insertObj { id := id, base := base, size := size } r.1.fman.objects } }
          let s := ((((s.objWrite id 0x00 8 base).objWrite id 0x08 8 size).objWrite id 0x14 4 0).objWrite id 0x18 2 (m.arg 6)).objWrite id 0x1A 2 (m.arg 2)
          (s.bump 0).reply ref sOk [base % 2 ^ 32, base / 2 ^ 32])

/-- OBJ_HOST_ZERO (R359). -/
def execObjHostZero (s : State) : Out :=
  foremanReq s 0x21 (fun m t => argObj m t) (fun _ => true) (fun ref m t =>
    let id := m.arg 1
    if !t.objExists id then t.reply ref sObject []
    else
      let s := t.objWrite id 0x1B 1 1
      let d := s.objField id 0x14 4
      (if d.2 = some 0 then d.1.releaseObj id else d.1).reply ref sOk [])

/-- HEAD and ring size of a queue of the context: in its registers while the context holds its bench, in its descriptor
otherwise (R250). -/
def State.headOf (s : State) (c qid : Nat) : State × Option (Nat × Nat) :=
  let x := s.ctx c
  if x.state = .ready then
    let i := (x.bench.flatMap (fun n => (List.range 4).map (fun e => 4 * n + e))).idxOf qid
    let r := s.fread (x.qdt + 32 * i) 32
    (r.1, r.2.map (fun d =>
      let n := 2 ^ clampLog2 (bitsOf (leAt d 0 8) 51 48)
      (bitsOf (leAt d 8 8) 43 32 % n, n)))
  else
    let q := s.queue (qid / 4) (qid % 4)
    (s, some (q.head, q.size))

/-- REF_BATCH (R361). -/
def execRefBatch (s : State) : Out :=
  foremanReq s 0x22
    (fun m t => argCtx m && (t.ctx (m.arg 1)).bench.contains (m.arg 2 / 4) && decide (1 ≤ m.arg 6) && decide (m.arg 6 ≤ 4096)
      && (t.ctx 0).farOk .r (m.arg2 4) (4 * m.arg 6))
    (fun _ => true) (fun ref m t =>
      let c := m.arg 1
      let x := t.ctx c
      if !x.state.lives then t.reply ref sState []
      else if x.batches.length ≥ 1024 then t.reply ref sBusy []
      else
        let r := t.fread (m.arg2 4) (4 * m.arg 6)
        let h := r.1.headOf c (m.arg 2)
        match r.2, h.2 with
        | some bs, some (head, n) =>
          let ids := words4 bs
          if !ids.all (fun i => i != 0 && h.1.objExists i) then h.1.reply ref sObject []
          else
            let dist := (m.arg 3 % n + n - head) % n
            let s := ids.foldl (fun s i => s.addRef i) h.1
            let s := s.modCtx c (fun x => { x with
              batches := x.batches ++ [{ qid := m.arg 2, until_ := tblGet 0 x.passed (m.arg 2) + dist + 1, ids := ids }] })
            s.reply ref sOk []
        | _, _ => h.1.reply ref sObject [])

end Sys2Proof.Machine
end

