-- ==== Sys2Proof/Machine/Host.lean ====
section
/-!
DEFINITION. The host's accesses through BAR2, mailboxes, doorbells between the host and the control cores, and the stages
of readiness (14_host R376 to R396).
-/

namespace Sys2Proof.Machine

/-! ### BAR2 (R383; 08_far R224) -/

/-- The end of the range that BAR2 serves, check bits included (R383). -/
def bar2Top : Nat := 0xC000000000

/-- The device address of a BAR2 offset. -/
def State.bar2Addr (s : State) (offset : Nat) : Nat := s.pci.origin * 2 ^ 30 + offset

def State.complete (s : State) (c : Completion) : State := s.modPci (fun p => { p with completion := some c })

/-- The blocks of a range that hold an uncorrectable error. -/
def State.badBlocks (s : State) (a n : Nat) : List Nat :=
  (blocksOf a n).filter (fun b => s.blockBad (farBlock s.far.localUnits b))

/-- BAR2_READ (R383): served at the controllers; an uncorrectable block aborts, sets HOST_ERR.BAR2_UE and is reported
(R224, R386). A read that runs past the served range is refused. -/
def execBar2Read (offset size : Nat) (s : State) : Out :=
  let a := s.bar2Addr offset
  if !s.pci.ready then .next ((s.hostErr (fun e => { e with bar2Early := true })).complete .unsupported)
  else if a + size > bar2Top then .next ((s.hostErr (fun e => { e with bar2Range := true })).complete .unsupported)
  else
    let n := min size (farTop - min a farTop)
    let bad := s.badBlocks a n
    let r := s.farRead a n
    match r.2 with
    | some bs => .next (r.1.complete (.data (bs ++ List.replicate (size - n) 0)))
    | none =>
      let t := (r.1.hostErr (fun e => { e with bar2Ue := true })).complete .aborter
      .next (bad.foldl (fun t b => t.event 1 b) t)

/-- BAR2_WRITE (R383): a partial write of an uncorrectable block writes nothing (R222, R224). -/
def execBar2Write (offset : Nat) (data : List Byte) (s : State) : Out :=
  let a := s.bar2Addr offset
  if !s.pci.ready then .next (s.hostErr (fun e => { e with bar2Early := true }))
  else if a + data.length > bar2Top then .next (s.hostErr (fun e => { e with bar2Range := true }))
  else .next (s.farWrite a (data.take (farTop - min a farTop))).1

/-! ### The event queue (R387) -/

/-- Records held until the event queue is enabled are written once it is (19_debug_test R534; 17_site_trust R492). -/
def State.flushHeld (s : State) : State :=
  if s.pci.evq.inForce.enable then
    let hs := s.dbg.held
    hs.foldl (fun t h => t.event h.1 h.2) { s with dbg := { s.dbg with held := [] } }
  else s

/-- EVQ_COMMIT (R387): the staged set comes into force, and the queue is empty. -/
def execEvqCommit (s : State) : Out :=
  .next (s.modPci (fun p => { p with evq := { p.evq with inForce := p.evq.staged, head := 0, tail := 0, written := 0 } })).flushHeld

/-! ### Mailboxes (R391 to R393) -/

/-- MAILBOX_SEND (R391, R393): a write of SEND queues the header with the ARG words as they stand; a control core's message
enters at its private port. -/
def execMailboxSend (channel sender header : Nat) (s : State) : Out :=
  if channel < 4 ∧ sender < 6 then
    let args := (s.pci.chan channel).args
    .next (s.mailIn channel sender (BitVec.ofNat 32 header :: (List.range 15).map (fun i => if sender = 0 then tblGet 0 args (i + 1) else 0)))
  else .fault .noSuchUnit

/-- RPOP (R393): discards the oldest HOST reply. -/
def execRpop (channel : Nat) (s : State) : Out :=
  if channel < 4 then .next (s.modChan channel (fun c => { c with replies := tblSet 0 ((tblGet [] c.replies 0).drop 1) c.replies }))
  else .fault .noSuchUnit

/-! ### Doorbells (R395, R396) -/

/-- A doorbell bit is set and the core's mask enables it. -/
def HostPort.rings (p : HostPort) (core bit : Nat) : Bool := p.dbPend.getLsbD bit && (tblGet 0 p.dbMask core).getLsbD bit

def State.clearBell (s : State) (bit : Nat) : State := s.modPci (fun p => { p with dbPend := p.dbPend &&& ~~~(1#32 <<< bit) })

/-- DB_CLR (R395): bits set in the same cycle stay set. -/
def execDbClr (mask sets : W32) (s : State) : Out := .next (s.modPci (fun p => { p with dbPend := (p.dbPend &&& ~~~mask) ||| sets }))

/-- PLACE (R395): the Foreman tries placement at once, then clears the bit. -/
def execPlace (now : Nat) (s : State) : Out :=
  let s := s.advanceTo now
  if s.pci.running.contains 1 ∧ s.pci.rings 1 0 then
    .next ((if s.fman.tables then s.placeAll else s).clearBell 0)
  else .next s

/-- Sets HOLD on every READY, PLACED and SUSPENDED context (R351, R395). -/
def State.holdAll (s : State) : State :=
  s.ctxs.foldl (fun t p => if p.2.state.lives then (t.modCtx p.1 (fun x => { x with hold := true })).bump p.1 else t) s

/-- DRIVER_DOWN (R395): the bit is cleared once no context is PLACED. -/
def execDriverDown (s : State) : Out :=
  if s.pci.running.contains 1 ∧ s.pci.rings 1 1 then
    let s := s.holdAll
    .next (if s.placed.isEmpty then s.clearBell 1 else s)
  else .next s

/-- SENSE (R395; 16_governor R451): the next control period samples every sensor, and then clears the bit. -/
def execSense (s : State) : Out :=
  if s.pci.running.contains 3 ∧ s.pci.rings 3 2 then .next { s with gov := { s.gov with sense := true } } else .next s

/-- LINKS (R395; 15_haul_twin R433): the Banksman refreshes the LINKS part, which the SEQ of context 0 covers (13_contexts
R375), then clears the bit. -/
def execLinks (s : State) : Out :=
  if s.pci.running.contains 2 ∧ s.pci.rings 2 3 then .next ((s.bump 0).clearBell 3) else .next s

/-- DB_STRAY (R395): a core whose mask enables a set bit without an action clears it and counts it. -/
def execDbStray (core bit : Nat) (s : State) : Out :=
  if core < 4 ∧ bit < 32 then
    if 4 ≤ bit ∧ s.pci.running.contains core ∧ s.pci.rings core bit then
      .next ((s.clearBell bit).modPci (fun p => { p with dbStray := satAdd 0xFFFF p.dbStray 1 }))
    else .next s
  else .fault .noSuchUnit

/-! ### Readiness (R388) -/

/-- FW_STATE becomes 1 once PERST# is deasserted, every control core runs and the self-test is complete (18_clocks_reset
R506). -/
def State.fwUpdate (s : State) : State :=
  if s.pci.fw = .starting ∧ !s.pci.perst ∧ s.dbg.stDone ∧ [0, 1, 2, 3].all (fun c => s.pci.running.contains c) then
    s.modPci (fun p => { p with fw := .ready })
  else s

/-- PERST_DEASSERT (R388). -/
def execPerstDeassert (now : Nat) (s : State) : Out :=
  let s := s.advanceTo now
  if s.pci.perst then .next (s.modPci (fun p => { p with perst := false, perstSince := s.now })).fwUpdate else .next s

/-- LINK_TRAINED (R376, R388): after PERST# deassertion and the application of the site image, within the site limits. -/
def execLinkTrained (speed width : Nat) (flit : Bool) (s : State) : Out :=
  if !s.pci.perst ∧ s.site.locked ∧ s.resets.remove ≠ .safe then
    .next (s.modPci (fun p => { p with speed := min speed s.site.pcieGen, width := min width s.site.pcieWidth
                                       flit := flit || decide (min speed s.site.pcieGen = 6) }))
  else .next s

/-- GATEKEEPER_ONLY (R388): 1.0 s after PERST# deassertion the other control cores have no verified firmware. -/
def execGatekeeperOnly (now : Nat) (s : State) : Out :=
  let s := s.advanceTo now
  if s.pci.fw = .starting ∧ !s.pci.perst ∧ s.now ≥ s.pci.perstSince + 1000000000 ∧ s.pci.running.contains 0
      ∧ !([1, 2, 3].any (fun c => s.pci.running.contains c)) then
    .next (s.modPci (fun p => { p with fw := .gatekeeperOnly }))
  else .next s

end Sys2Proof.Machine
end

