-- ==== Sys2Proof/Machine/Haul.lean ====
section
/-!
DEFINITION. Ports, frames, forwarding, claims and signals between modules (15_haul_twin R400 to R416, R432, R434, R435).
-/

namespace Sys2Proof.Machine

/-! ### Ports (R402, R407, R434) -/

/-- A port's STATE changes: the LINK event record (R434). -/
def State.portState (s : State) (p : Nat) (st : PortState) : State :=
  let x := s.port p
  if x.state = st then s
  else (s.setPort p { x with state := st }).event 3 (p + 2 ^ 5 * st.code + 2 ^ 16 * x.peerNode)

/-- The pair state changes: the TWIN event record (R434). -/
def State.setPair (s : State) (st : Pair) (epoch : Nat) : State :=
  if s.links.twin.pair = st then s
  else (s.modTwin (fun t => { t with pair := st })).event 4 (st.code + 2 ^ 32 * epoch)

/-- What a port that leaves UP discards (R402). -/
def Port.discard (x : Port) : Port :=
  { x with unacked := [], waiting := [], rx := [], spent := [], rounds := 0, txNext := 0, rxLast := 4095 }

/-- Training starts (R402, R435); the twin port's loss is a loss of the pair's link (R415). -/
def State.train (s : State) (p : Nat) : State :=
  let x := s.port p
  if !x.enable ∨ s.resets.remove = .safe then s
  else
    let s := (s.setPort p { x.discard with fails := 0 }).portState p .training
    if p = twinPort ∧ s.links.twin.pair = .paired then s.setPair .linkLost 0 else s

/-- The last thing a port tells its peer: what it accepted, whether it asks for a resend, credits returned (R403, R404). -/
def Port.tell (x : Port) (nack : Bool) (vl units : Nat) : Port :=
  { x with lastLink := { ackValid := true, ackSeq := x.rxLast, nack := nack, nackSeq := (x.rxLast + 1) % 4096, creditVl := vl, creditCount := units } }

/-- The HELLO of this module (R404, R415). -/
def State.helloBody (s : State) (departing : Bool) : FrameBody :=
  let t := s.links.twin
  let flags := boolN t.enable + 2 * boolN departing + 4 * boolN t.mset.isSome + 8 * boolN t.sset.isSome
  let held := fun (b : ShadowBuf) => if b.state = 2 then b.epoch else 0
  .hello Config.serial s.links.node s.links.node t.slot flags t.settled ((t.sset.map (fun x => held x.a)).getD 0) ((t.sset.map (fun x => held x.b)).getD 0)

/-- TRAINING_ATTEMPT (R402): the port comes UP, or fails; the third failure in a row takes it DOWN. The twin port then
sends HELLO (R415). -/
def execTrainingAttempt (port : Nat) (ok : Bool) (peerNode peerPort : Nat) (peerSerial : List Byte) (s : State) : Out :=
  if port < 17 then
    let x := s.port port
    if !x.enable ∨ x.state ≠ .training ∨ !s.pci.running.contains 2 then .next s
    else if ok then
      let s := s.setPort port { x.discard with fails := 0, rateActive := x.rate, peerNode := peerNode, peerPort := peerPort, peerSerial := peerSerial }
      let s := s.portState port .up
      if port = twinPort ∧ s.links.twin.enable then .next (s.sendTwin (s.helloBody false)) else .next s
    else if x.fails ≥ 2 then .next ((s.setPort port { x with fails := 3 }).portState port .down)
    else .next (s.setPort port { x with fails := x.fails + 1 })
  else .fault .noSuchUnit

/-- TRAINING_RETRY (R402): a DOWN port tries again. -/
def execTrainingRetry (port : Nat) (s : State) : Out :=
  if port < 17 then (if (s.port port).state = .down then .next (s.train port) else .next s) else .fault .noSuchUnit

/-- PORT_LEAVE_UP (R402). -/
def execPortLeaveUp (port : Nat) (cause : LeaveCause) (s : State) : Out :=
  if port < 17 then
    let x := s.port port
    if x.state ≠ .up ∨ (cause = .retryRounds ∧ x.rounds < 16) then .next s else .next (s.train port)
  else .fault .noSuchUnit

/-- PORT_RETRAIN (R435): RETRAIN of a port whose ENABLE is 0 has no effect. -/
def execPortRetrain (port : Nat) (s : State) : Out :=
  if port < 17 then .next (s.train port) else .fault .noSuchUnit

/-- CODEWORD_UNCORRECTABLE (R400, R407): the frames it overlaps are not received, and a resend is asked for. -/
def execCodewordUncorrectable (port : Nat) (s : State) : Out :=
  if port < 17 then
    if (s.port port).state = .up then
      .next (s.modPort port (fun x => ({ x with fecUncorr := satAdd 0xFFFFFFFF x.fecUncorr 1 } : Port).tell true 0 0))
    else .next s
  else .fault .noSuchUnit

/-- A retry round (R402, R407). -/
def Port.round (x : Port) : Port := { x with retry := satAdd 0xFFFFFFFF x.retry 1, rounds := x.rounds + 1 }

/-- RETRY_TIMEOUT (R407). -/
def execRetryTimeout (port : Nat) (s : State) : Out :=
  if port < 17 then
    let x := s.port port
    if x.state = .up ∧ x.unacked ≠ [] then .next ((s.setPort port x.round).hubCount 6 4 1) else .next s
  else .fault .noSuchUnit

/-! ### Forwarding (R406) -/

/-- Tries to send a frame on towards its node; false when its lane has no credit now. -/
def State.forward (s : State) (f : Frame) : State × Bool :=
  match s.routePort f.dst with
  | none => (s, false)
  | some p =>
    let g := { f with hops := f.hops + 1, vl := f.vl + 1 }
    let x := s.port p
    if x.waiting.any (fun h => h.vl == g.vl) || !x.canSend p g then (s, false) else (s.setPort p (x.emit g), true)

/-- Sends on what was held for credit, port by port, oldest first. -/
def State.pumpForward (s : State) : State :=
  (List.range 17).foldl (fun t p =>
    (t.port p).rx.foldl (fun (t : State) h =>
      if h.2.dst = t.links.node then t
      else
        let r := t.forward h.2
        if r.2 then r.1.modPort p (fun x => { x with rx := x.rx.erase h }.tell false h.2.vl (frameUnits h.2)) else t) t) s

/-- FORWARD_TIMEOUT (R406): the k-th frame in a receive buffer has waited more than 1 ms and is discarded. -/
def execForwardTimeout (port k : Nat) (s : State) : Out :=
  if port < 17 then
    match (s.port port).rx[k]? with
    | none => .next s
    | some h =>
      if s.now > h.1 + 1000000 then
        .next (s.modPort port (fun x => ({ x with rx := dropAt k x.rx, fwdDrop := satAdd 0xFFFFFFFF x.fwdDrop 1 } : Port).tell false h.2.vl (frameUnits h.2)))
      else .next s
  else .fault .noSuchUnit

/-- LINK (R404, R405, R407): acknowledgements, credits and a request to resend. -/
def execLink (port : Nat) (h : LinkFrame) (s : State) : Out :=
  if port < 17 then
    let x := s.port port
    if x.state ≠ .up then .next s
    else
      let acked := if h.ackValid ∧ x.unacked.any (fun f => f.seq == h.ackSeq)
        then (x.unacked.dropWhile (fun f => f.seq != h.ackSeq)).drop 1 else x.unacked
      let y := { x with unacked := acked, rounds := if acked.length < x.unacked.length then 0 else x.rounds
                        spent := tblSet h.creditVl (tblGet 0 x.spent h.creditVl - h.creditCount) x.spent }
      let y := if h.nack then y.round else y
      let s := if h.nack then s.hubCount 6 4 1 else s
      .next (s.modPort port (fun _ => y.pump port)).pumpForward
  else .fault .noSuchUnit

/-! ### Receiving a frame (R403 to R407) -/

/-- The lane that a frame must travel on (R404, R405). -/
def laneRight (port : Nat) (f : Frame) : Bool :=
  match f.body with
  | .heartbeat _ _ => (port == twinPort && f.vl == 9) || f.vl == f.hops
  | .hello .. => (port == twinPort && f.vl == 9) || f.vl == f.hops
  | b => match bodyLane b with
    | .request => f.vl == f.hops
    | .response => f.vl == 4 + f.hops
    | .mirror => port == twinPort && f.vl == 8
    | .control => port == twinPort && f.vl == 9

/-- A frame arrives at a port: a bad or malformed one is counted and asked for again, one out of order is not accepted,
one for another node is forwarded, and this module's own one has its effect. `hold` says that the frame must stay in the
receive buffer. -/
def onFrame (s : State) (port : Nat) (f : Frame) (hold : State → Bool) (own : State → State) : Out :=
  if port < 17 then
    let x := s.port port
    if x.state ≠ .up then .next s
    else if !f.good ∨ f.vl > 9 ∨ f.hops > 3 ∨ !laneRight port f then
      .next (s.setPort port (({ x with crcErr := satAdd 0xFFFFFFFF x.crcErr 1 } : Port).tell true 0 0))
    else if f.seq ≠ (x.rxLast + 1) % 4096 then
      .next (s.setPort port (x.tell (decide ((f.seq + 4096 - (x.rxLast + 1) % 4096) % 4096 < 2048)) 0 0))
    else
      let y := { x with rxLast := f.seq }
      let free := s.setPort port (y.tell false f.vl (frameUnits f))
      let kept := s.setPort port ({ y with rx := y.rx ++ [(s.now, f)] }.tell false 0 0)
      if f.dst ≠ s.links.node ∧ f.vl < 8 then
        if f.hops = 3 ∨ (s.routePort f.dst).isNone then .next (free.modPort port (fun x => { x with fwdDrop := satAdd 0xFFFFFFFF x.fwdDrop 1 }))
        else
          let r := free.forward f
          if r.2 then .next r.1 else .next kept
      else if hold s then .next kept
      else .next (own free)
  else .fault .noSuchUnit

/-! ### Claims (R410 to R412) -/

/-- A frame's GEN against an entry's: the entry's GEN afterwards, or none when the frame is discarded (R414). -/
def genOk (cur new : Nat) : Option Nat := if new = cur then some cur else if new = (cur + 1) % 4 then some new else none

/-- The job entry of this module for a JOB id (R409). -/
def State.jobEntry (s : State) (job : Nat) : Option Job := (s.links.jobs.find? (fun j => j.2.valid && j.2.job == job)).map Prod.snd

/-- The answer to a claim (R410): 0 OK, 1 REFUSED, 2 WAIT. For a move the check-bit range is far memory (07_moves R177). -/
def State.claimStatus (s : State) (src job base len : Nat) : Nat × Nat :=
  match s.jobEntry job with
  | none => (1, 0)
  | some j =>
    let x := s.ctx j.ctx
    let slab := match addrClass base with | .slab _ _ => true | _ => false
    let placeOk := match addrClass base with
      | .far => decide (base + len ≤ checkTop)
      | .check => decide (base + len ≤ checkTop)
      | .slab core off => x.bench.contains core && decide (off + len ≤ 0xD00000)
      | _ => false
    if !j.permits src ∨ x.state = .free ∨ x.state = .killing ∨ x.state = .dead ∨ x.killing then (1, j.ctx)
    else if len ≠ 0 ∧ (placeOk && x.granted .w base len) = false then (1, j.ctx)
    else if (len ≠ 0 ∧ slab = true ∧ x.state ≠ .placed) ∨ s.links.dst.length ≥ 8192 then (2, j.ctx)
    else (0, j.ctx)

/-- CLAIM (R410, R412, R414). -/
def execClaim (port : Nat) (f : Frame) (s : State) : Out :=
  onFrame s port f (fun _ => false) (fun s =>
    match f.body with
    | .claim job id gen base len sigTid sigEn sigInc =>
      (match s.links.dst.find? (fun d => d.src == f.src && d.id == id) with
       | some d =>
         -- a claim sent again after its answer was lost
         (match genOk d.gen gen with
          | some g => (s.modClaim f.src id (fun d => { d with gen := g })).sendFrame f.src (.claimAck id 0)
          | none => s)
       | none =>
         let st := s.claimStatus f.src job base len
         if st.1 ≠ 0 then (s.sendFrame f.src (.claimAck id st.1)).hubCount 5 4 1
         else
           let d : DstClaim := { src := f.src, id := id, gen := gen, ctx := st.2, base := base, len := len, sigEn := sigEn, sigTid := sigTid, sigInc := sigInc }
           let s := ((s.modLinks (fun l => { l with dst := l.dst ++ [d] })).sendFrame f.src (.claimAck id 0)).hubCount 5 2 1
           if len = 0 then s.claimFinal d 0 else s)
    | _ => s)

def State.modSrc (s : State) (id : Nat) (f : SrcClaim → SrcClaim) : State :=
  s.modLinks (fun l => { l with src := l.src.map (fun c => if c.id = id then f c else c) })

/-- The tailings entry of a claim's answer (19_debug_test R525). -/
def State.claimTail (s : State) (cl : SrcClaim) (code : Nat) : State :=
  let slot := (((s.queue cl.core cl.eng).flight.find? (fun f => f.id == cl.rec_)).map Flight.slot).getD 0xFFF
  s.tail (ringOf cl.core cl.eng) 0x0B cl.ctx none (slot + 2 ^ 12 * cl.node + 2 ^ 28 * code) 0 0

/-- CLAIM_ACK (R208, R410): data follows, the context is killed, or the claim is sent again later. -/
def execClaimAck (port : Nat) (f : Frame) (s : State) : Out :=
  onFrame s port f (fun _ => false) (fun s =>
    match f.body with
    | .claimAck id status =>
      (match s.links.src.find? (fun c => c.id == id && c.node == f.src && !c.answered) with
       | none => s
       | some cl =>
         if status = 0 then
           let s := (s.modSrc id (fun c => { c with answered := true, waitSince := none, progress := s.now })).claimTail cl 2
           (s.modRec cl.core cl.eng cl.rec_ (fun r => { r with claimOk := true })).pumpMoves cl.core cl.eng
         else if status = 2 then
           let s := if cl.waitSince.isNone then s.claimTail cl 1 else s
           s.modSrc id (fun c => { c with waitSince := some s.now, progress := s.now })
         else
           let s := s.flightFault cl.core cl.eng cl.rec_ .windowFault cl.base
           (s.modLinks (fun l => { l with src := l.src.filter (fun c => c.id != id) })).modRec cl.core cl.eng cl.rec_ (fun r => { r with rejected := true }))
    | _ => s)

def State.sendClaim (s : State) (cl : SrcClaim) : State :=
  s.sendFrame cl.node (.claim cl.job cl.id cl.gen cl.base cl.len cl.sigTid cl.sigEn cl.sigInc)

/-- CLAIM_RETRY (R410): 10 µs after a WAIT the claim is sent again. -/
def execClaimRetry (id : Nat) (s : State) : Out :=
  match s.links.src.find? (fun c => c.id == id) with
  | none => .next s
  | some cl =>
    match cl.waitSince with
    | some t => if s.now ≥ t + 10000 then .next ((s.modSrc id (fun c => { c with waitSince := some s.now, progress := s.now })).sendClaim cl) else .next s
    | none => .next s

/-- A WRITE to slab memory must stay in its lane buffer: its context is away, its landing buffer has no room, or its bank
wakes (R154, R411). -/
def State.writeHeld (s : State) (src id idx offset : Nat) : Bool :=
  match s.links.dst.find? (fun d => d.src == src && d.id == id) with
  | none => false
  | some d =>
    match addrClass (d.base + offset) with
    | .slab home _ => idx == d.next && !d.dead && ((s.ctx d.ctx).state != .placed || !(s.core home).slab.landRoom)
    | _ => false

/-- The next WRITE of a claim is taken (R411): far memory commits at its controller, and the check-bit range drops it (07_moves
R177); slab memory through the landing buffer. -/
def State.takeWrite (s : State) (d : DstClaim) (idx offset : Nat) (data : List Byte) : State :=
  let s := s.modClaim d.src d.id (fun d => { d with next := d.next + 1, open_ := d.open_ ++ [idx] })
  if d.dead then s.commitRemote d.src d.id idx data.length
  else match addrClass (d.base + offset) with
    | .slab home off =>
      let b := (s.core home).slab
      (match b.bank (off / 512) with
       | .draining | .off =>
         (s.raise d.ctx { cause := .slabBankOff, core := home, engine := 6, addr := d.base + offset }).commitRemote d.src d.id idx data.length
       | _ => s.modSlab home (fun b => { b with landing := b.landing ++
           [({ slab := off / 512, off := off % 512, parts := [(0, data)], ctx := d.ctx, origin := .remote d.src d.id idx } : Landing)] }))
    | _ =>
      let w := if d.base + offset ≥ farTop then (s, true) else s.farWrite (d.base + offset) data
      let t := if w.2 then w.1 else w.1.raise d.ctx { cause := .uncorrEcc, addr := d.base + offset }
      t.commitRemote d.src d.id idx data.length

/-- WRITE (R411, R412, R414): taken in REQ_IDX order; one that was committed before is acknowledged again. -/
def execWriteFrame (port : Nat) (f : Frame) (s : State) : Out :=
  match f.body with
  | .write offset idx id gen data =>
    onFrame s port f (fun s => s.writeHeld f.src id idx offset) (fun s =>
      match s.links.dst.find? (fun d => d.src == f.src && d.id == id) with
      | none => s
      | some d =>
        match genOk d.gen gen with
        | none => s
        | some g =>
          let s := s.modClaim f.src id (fun d => { d with gen := g })
          if idx = d.next then s.takeWrite { d with gen := g } idx offset data
          else if idx < d.next ∧ !d.open_.contains idx then s.sendFrame f.src (.commitAck id idx false)
          else s)
  | _ => onFrame s port f (fun _ => false) (fun s => s)

/-- COMMIT_ACK (R209, R411, R412): a request is complete; FINAL retires the record and ends the claim. -/
def execCommitAck (port : Nat) (f : Frame) (s : State) : Out :=
  onFrame s port f (fun _ => false) (fun s =>
    match f.body with
    | .commitAck id idx final =>
      (match s.links.src.find? (fun c => c.id == id && c.node == f.src) with
       | none => if final then s.sendFrame f.src (.claimEnd id) else s
       | some cl =>
         if final then
           let s := (s.modLinks (fun l => { l with src := l.src.filter (fun c => c.id != id) })).sendFrame f.src (.claimEnd id)
           match ((s.core cl.core).mv cl.eng).rec_ cl.rec_ with
           | some r => if (s.ctx cl.ctx).killing ∨ (s.core cl.core).ctx ≠ some cl.ctx then s else (s.moveRetire cl.ctx cl.core cl.eng r).pumpMoves cl.core cl.eng
           | none => s
         else
           (s.modSrc id (fun c => { c with writes := c.writes.filter (fun w => w.idx != idx), progress := s.now })).completeReq cl.core cl.eng cl.rec_ idx)
    | _ => s)

/-- CLAIM_END (R412): the destination frees the entry. -/
def execClaimEnd (port : Nat) (f : Frame) (s : State) : Out :=
  onFrame s port f (fun _ => false) (fun s =>
    match f.body with
    | .claimEnd id => s.modLinks (fun l => { l with dst := l.dst.filter (fun d => !(d.src == f.src && d.id == id)) })
    | _ => s)

/-! ### Signals (R413, R414) -/

/-- SIGNAL_FRAME (R319, R413): applied in SIG_ID order; an older one is only acknowledged. Neither rule asks for the
source's permission, as R410 does of a claim: a job that this module does not have drops the increment, since the frame then
names no context (DEDUCED, assumption 123). -/
def execSignalFrame (port : Nat) (f : Frame) (s : State) : Out :=
  onFrame s port f (fun _ => false) (fun s =>
    match f.body with
    | .signal job tid count sigId gen =>
      let st := tblGet ({} : SigIn) s.links.sigIn f.src
      (match genOk st.gen gen with
       | none => s
       | some g =>
         let d := (sigId + 65536 - st.last) % 65536
         let put := fun (s : State) (last : Nat) => s.modLinks (fun l => { l with sigIn := tblSet f.src { last := last, gen := g } l.sigIn })
         if d = 1 then
           let s := (put s sigId).sendFrame f.src (.signalAck sigId)
           match s.jobEntry job with
           | some j => s.remoteAdd j.ctx tid count
           | none => s
         else if d = 0 ∨ d ≥ 65536 - 1024 then (put s st.last).sendFrame f.src (.signalAck sigId)
         else put s st.last)
    | _ => s)

/-- SIGNAL_ACK (R262, R413): the SIGNAL record retires. -/
def execSignalAck (port : Nat) (f : Frame) (s : State) : Out :=
  onFrame s port f (fun _ => false) (fun s =>
    match f.body with
    | .signalAck sigId =>
      let st := tblGet ({} : SigStream) s.links.sigOut f.src
      (match st.waiting.find? (fun m => m.sigId == sigId) with
       | none => s
       | some m =>
         let st' := { st with waiting := st.waiting.filter (fun m => m.sigId != sigId), progress := s.now }
         let s := s.modLinks (fun l => { l with sigOut := tblSet f.src st' l.sigOut })
         if (s.core m.core).ctx = some m.ctx ∧ !(s.ctx m.ctx).killing then s.retire m.core m.eng m.rec_ else s)
    | _ => s)

/-- RESEND_TIMEOUT (R414): 2 ms without progress on a claim, or on the signal stream to a node, advance GEN and send again
on the route in force. -/
def execResendTimeout (signals : Bool) (id : Nat) (s : State) : Out :=
  let count := fun (s : State) => s.modLinks (fun l => { l with resends := satAdd 0xFFFFFFFF l.resends 1 })
  if signals then
    let st := tblGet ({} : SigStream) s.links.sigOut id
    if st.waiting = [] ∨ s.now < st.progress + 2000000 then .next s
    else
      let g := (st.gen + 1) % 4
      let s := count (s.modLinks (fun l => { l with sigOut := tblSet id { st with gen := g, progress := s.now } l.sigOut }))
      .next (st.waiting.foldl (fun t m => t.sendFrame id (.signal m.job m.tid m.count m.sigId g)) s)
  else match s.links.src.find? (fun c => c.id == id) with
    | none => .next s
    | some cl =>
      if cl.waitSince.isSome ∨ (cl.answered ∧ cl.writes = []) ∨ s.now < cl.progress + 2000000 then .next s
      else
        let g := (cl.gen + 1) % 4
        let s := count (s.modSrc id (fun c => { c with gen := g, progress := s.now }))
        let s := if cl.answered then s else s.sendClaim { cl with gen := g }
        .next (cl.writes.foldl (fun t w => t.sendFrame cl.node (.write w.offset w.idx cl.id g w.data)) s)

/-! ### Banksman requests on routes and jobs (R408, R409, R432) -/

/-- Reads a list that a request names, through the controllers: an address in the windows of context 0 (R432). An
uncorrectable block delivers nothing (08_far R223, R224). -/
def State.readList (s : State) (a n : Nat) : State × Option (List Byte) :=
  if (s.ctx 0).farOk .r a n then s.farRead a n else (s, none)

/-- ROUTE_LOAD (R408, R432). -/
def execRouteLoad (s : State) : Out :=
  onRequest s 2 0x01 (fun r m s =>
    let a := m.arg2 1
    let first := m.arg 3
    let n := m.arg 4
    if first + n > 65536 then s.reply r 3 []
    else match s.readList a (4 * n) with
      | (s, none) => s.reply r 3 []
      | (s, some bs) =>
        let s := s.modLinks (fun l => { l with routes := (List.range n).foldl (fun t i => tblSet (first + i) (ofLe ((bs.drop (4 * i)).take 4)) t) l.routes })
        s.reply r 0 [])

/-- JOB_SET (R409, R432): a context belongs to at most one job. -/
def execJobSet (s : State) : Out :=
  onRequest s 2 0x02 (fun r m s =>
    let i := m.arg 1
    let c := m.arg 3
    if i > 15 ∨ c > 1023 then s.reply r 3 []
    else if s.links.jobs.any (fun j => j.1 != i && j.2.valid && j.2.ctx == c) then s.reply r 2 []
    else match s.readList (m.arg2 4) 8192 with
      | (s, none) => s.reply r 3 []
      | (s, some bs) =>
        let j : Job := { job := m.arg 2 % 65536, ctx := c, valid := true, permit := memWriteN [] 0 bs }
        (s.modLinks (fun l => { l with jobs := tblSet i j l.jobs })).reply r 0 [])

/-- JOB_CLEAR (R432). -/
def execJobClear (s : State) : Out :=
  onRequest s 2 0x03 (fun r m s =>
    if m.arg 1 > 15 then s.reply r 3 []
    else (s.modLinks (fun l => { l with jobs := tblDrop (m.arg 1) l.jobs })).reply r 0 [])

/-- RETRAIN (R432): training starts on every enabled port of the mask. -/
def execRetrain (s : State) : Out :=
  onRequest s 2 0x14 (fun r m s => ((List.range 17).foldl (fun t p => if bitOf (m.arg 1) p then t.train p else t) s).reply r 0 [])

end Sys2Proof.Machine
end

