-- ==== Sys2Proof/Machine/Twin.lean ====
section
/-!
DEFINITION. The twin: pairing, heartbeats, mirror sets, epochs, copies, shadow buffers and restore (15_haul_twin R415 to
R431).
-/

namespace Sys2Proof.Machine

/-! ### The mirror space (R417) -/

/-- Units of the mirror space. -/
def MirrorSet.units (m : MirrorSet) : Nat := (m.ranges.map (fun r => r.2 / 65536)).foldl (· + ·) 0

/-- The far memory address of an offset in the mirror space. -/
def mirrorAddr : List (Nat × Nat) → Nat → Option Nat
  | [], _ => none
  | (b, sz) :: t, off => if off < sz then some (b + off) else mirrorAddr t (off - sz)

/-- The TWIN event record (R434). -/
def State.twinEvent (s : State) (reason epoch : Nat) : State :=
  s.event 4 (s.links.twin.pair.code + 2 ^ 3 * reason + 2 ^ 32 * epoch)

/-- Reads 512 bytes at the controllers; a block that delivers no data leaves its bytes open (R224; assumption 35). -/
def State.mirrorRead (s : State) (a n : Nat) : State × List Byte :=
  (blocksOf a n).foldl (fun (p : State × List Byte) b =>
    let q := p.1.touchBlock (farBlock s.far.localUnits b)
    if q.2 then (q.1, p.2 ++ memReadN q.1.far.mem b 64)
    else
      let d := q.1.draw
      (d.2, p.2 ++ (List.range 64).map (fun i => Config.freeByte (64 * d.1 + i)))) (s, [])

/-! ### Copies of the own mirror set (R421 to R425) -/

/-- Sends the frame at one offset of the mirror space. -/
def State.sendMirror (s : State) (c : MirrorCopy) (off : Nat) : State :=
  match s.links.twin.mset with
  | none => s
  | some m =>
    match mirrorAddr m.ranges off with
    | none => s
    | some a =>
      let r := s.mirrorRead a 512
      r.1.sendTwin (.mirrorWrite off c.buf false r.2)

def State.setCopy (s : State) (c : Option MirrorCopy) : State := s.modTwin (fun t => { t with copy := c })

/-- Sends the SETTLE of a copy (R423). -/
def State.sendSettle (s : State) (c : MirrorCopy) : State :=
  (s.setCopy (some { c with settleSent := true })).sendTwin (.settle c.epoch false c.buf c.raced c.units)

/-- Goes on with the running copy while paired: unit by unit, then SETTLE once every frame is acknowledged (R422, R423). -/
def State.pumpCopy (s : State) : State :=
  let t := s.links.twin
  match t.copy with
  | none => s
  | some c =>
    if t.pair ≠ .paired ∨ c.sent ≠ [] ∨ c.settleSent then s
    else match c.todo with
      | [] => s.sendSettle c
      | u :: rest =>
        let offs := (List.range 128).map (fun i => 65536 * u + 512 * i)
        offs.foldl (fun s o => s.sendMirror c o) (s.setCopy (some { c with todo := rest, sent := offs }))

/-- A new copy may start (R415, R421, R428). -/
def Twin.canCopy (t : Twin) : Bool :=
  t.pair == .paired && t.partner.sset && t.mset.isSome && !t.departing && t.copy.isNone && t.restore.isNone && decide (t.closed ≠ 0)

/-- The units of the copy of the last closed epoch, and whether they are all units (R421, R426). -/
def Twin.copySet (t : Twin) (m : MirrorSet) : List Nat × Bool :=
  let held := if t.lastBuf then t.heldA else t.heldB
  if t.closed ≥ 3 ∧ held = some (t.closed - 2) ∧ !t.full then
    ((List.range m.units).filter (fun u => t.prev.contains u || t.prev2.contains u), false)
  else (List.range m.units, true)

/-- Starts the copy that a close owes (R421, R425). -/
def State.startCopy (s : State) : State :=
  let t := s.links.twin
  match t.mset with
  | none => s
  | some m =>
    if !t.canCopy ∨ !t.owed then s
    else
      let us := t.copySet m
      let c : MirrorCopy := { epoch := t.closed, buf := !t.lastBuf, units := us.1.length, todo := us.1, whole := us.2, covers := t.uncounted }
      (s.modTwin (fun t => { t with copy := some c, owed := false, uncounted := 0
                                    heldA := if c.buf then t.heldA else none, heldB := if c.buf then none else t.heldB })).pumpCopy

/-- A copy ends without a settle: the epoch counts as unsettled, and a later settle covers its closes (R425, R427). -/
def Twin.dropCopy (t : Twin) : Twin :=
  match t.copy with
  | none => t
  | some c => { t with copy := none, owed := true, uncounted := t.uncounted + c.covers }

/-- A paused copy goes on from its first frame that was not acknowledged (R422). -/
def State.resumeCopy (s : State) : State :=
  match s.links.twin.copy with
  | none => s.startCopy
  | some c =>
    if c.settleSent then s.sendSettle c
    else if c.sent ≠ [] then c.sent.foldl (fun s o => s.sendMirror c o) s
    else s.pumpCopy

/-- The epoch after `n` (R420, R426). -/
def nextEpoch (n : Nat) : Nat := if n ≥ 0xFFFFFFFF then 1 else n + 1

/-- EPOCH_POLL (R420, R421, R425): the fence object is read at the controller; a value of NEXT_MARK or more closes the open
epoch. -/
def execEpochPoll (s : State) : Out :=
  match s.links.twin.mset with
  | none => .next s
  | some m =>
    if !s.pci.running.contains 2 ∨ m.fence + 16 > farTop then .next s
    else
      let r := s.farRead m.fence 16
      match r.2 with
      | none => .next r.1
      | some bs =>
        if ofLe (bs.take 8) < m.mark ∨ ofLe (bs.drop 8) % 4 = 2 then .next r.1
        else
          .next (r.1.modTwin (fun t => { t with
            mset := some { m with mark := (m.mark + 1) % 2 ^ 64 }
            closed := nextEpoch t.closed, prev2 := t.prev, prev := t.dirty, dirty := [], owed := true, uncounted := t.uncounted + 1 })).startCopy

/-- MIRROR_ACK (R422): of a copy, or of a push (R430). -/
def State.ackCopy (s : State) (off : Nat) (buf : Bool) : State :=
  match s.links.twin.copy with
  | none => s
  | some c =>
    if c.buf = buf ∧ c.sent.contains off then (s.setCopy (some { c with sent := c.sent.erase off })).pumpCopy else s

/-! ### The shadow set (R418, R423, R427) -/

def ShadowSet.buf (x : ShadowSet) (b : Bool) : ShadowBuf := if b then x.b else x.a
def ShadowSet.setBuf (x : ShadowSet) (b : Bool) (v : ShadowBuf) : ShadowSet := if b then { x with b := v } else { x with a := v }
def State.setShadow (s : State) (x : ShadowSet) : State := s.modTwin (fun t => { t with sset := some x })

/-- Writes a shadow header, STATE last (R418). -/
def State.writeHeader (s : State) (b : ShadowBuf) : State :=
  let d := s.draw
  let free := fun (lo n : Nat) => (List.range n).map (fun i => Config.freeByte (2048 * d.1 + lo + i))
  let s := (d.2.farWrite b.addr ([0x53, 0x48, 0x44, 0x57] ++ leBytes 4 b.epoch)).1
  let s := (s.farWrite (b.addr + 0xC) (free 0xC 4 ++ d.2.links.twin.partner.serial)).1
  let s := (s.farWrite (b.addr + 0x20) (leBytes 8 b.units)).1
  let s := (s.farWrite (b.addr + 0x400) (free 0x400 1024)).1
  (s.farWrite (b.addr + 8) (leBytes 4 b.state)).1

/-- A held buffer rejects frames while the shadows are frozen (R427). -/
def Twin.rejects (t : Twin) (b : ShadowBuf) : Bool := t.frozen && b.state == 2

/-- A MIRROR_WRITE into a shadow buffer (R418, R421, R422). -/
def State.takeMirror (s : State) (off : Nat) (buf : Bool) (data : List Byte) : State :=
  let t := s.links.twin
  match t.sset with
  | none => s
  | some x =>
    let b := x.buf buf
    if t.rejects b ∨ 65536 + off + data.length > x.size then s
    else
      let fresh := decide (b.state ≠ 1)
      let b := { b with state := 1, got := if fresh then [] else b.got, units := max (if fresh then 0 else b.units) (off / 65536 + 1) }
      let s := if fresh then s.writeHeader b else s
      let w := s.farWrite (b.addr + 65536 + off) data
      let b := { b with got := if b.got.contains off then b.got else b.got ++ [off] }
      let s := w.1.setShadow (x.setBuf buf b)
      if w.2 then s.sendTwin (.mirrorAck off buf false) else s

/-- A MIRROR_WRITE into the live ranges, during a RESTORE (R430). -/
def State.takeLive (s : State) (off : Nat) (buf : Bool) (data : List Byte) : State :=
  let t := s.links.twin
  match t.restore, t.mset with
  | some r, some m =>
    (match mirrorAddr m.ranges off with
     | none => s
     | some a =>
       let w := s.farWrite a data
       let s := w.1.modTwin (fun t => { t with restore := some { r with got := if r.got.contains off then r.got else r.got ++ [off] } })
       if w.2 then s.sendTwin (.mirrorAck off buf true) else s)
  | _, _ => s

/-- MIRROR_WRITE (R422, R427, R430). -/
def execMirrorWrite (port : Nat) (f : Frame) (s : State) : Out :=
  onFrame s port f (fun _ => false) (fun s =>
    match f.body with
    | .mirrorWrite off buf live data => if live then s.takeLive off buf data else s.takeMirror off buf data
    | _ => s)

/-- A SETTLE of a shadow buffer (R423): the count must match the frames accepted since COPYING. -/
def State.settleShadow (s : State) (epoch : Nat) (buf raced : Bool) (units : Nat) : State :=
  let t := s.links.twin
  match t.sset with
  | none => s.sendTwin (.settleAck epoch false false)
  | some x =>
    let b := x.buf buf
    let again := decide (b.state = 2 ∨ b.state = 3) && b.epoch == epoch
    let got := if b.state = 1 ∨ again then b.got else []
    if (t.rejects b && !again) ∨ got.length ≠ 128 * units then s.sendTwin (.settleAck epoch false false)
    else
      let b := { b with epoch := epoch, state := if raced then 3 else 2, got := got, units := max b.units units }
      let s := (s.writeHeader b).setShadow { x.setBuf buf b with active := buf }
      s.sendTwin (.settleAck epoch false true)

/-- A SETTLE of the live ranges ends a RESTORE (R430). -/
def State.settleLive (s : State) (epoch units : Nat) : State :=
  let t := s.links.twin
  match t.restore, t.mset with
  | some r, some m =>
    if r.epoch ≠ epoch then s.sendTwin (.settleAck epoch true false)
    else if units ≠ m.units ∨ r.got.length ≠ 128 * units then
      ((s.modTwin (fun t => { t with restore := none, rebuild := false })).sendTwin (.settleAck epoch true false)).reply r.req 5 []
    else
      let s := s.modTwin (fun t => { t with
        restore := none, settled := epoch, closed := epoch, dirty := [], prev := [], prev2 := [], full := true
        lastBuf := if t.heldB = some epoch then true else if t.heldA = some epoch then false else t.lastBuf
        heldA := none, heldB := none, owed := false, uncounted := 0
        mset := some { m with mark := r.mark } })
      ((s.sendTwin (.settleAck epoch true true)).twinEvent 2 epoch).reply r.req 0 []
  | _, _ => s.sendTwin (.settleAck epoch true false)

/-- SETTLE (R423, R430). -/
def execSettle (port : Nat) (f : Frame) (s : State) : Out :=
  onFrame s port f (fun _ => false) (fun s =>
    match f.body with
    | .settle epoch live buf raced units => if live then s.settleLive epoch units else s.settleShadow epoch buf raced units
    | _ => s)

/-! ### The push of a held buffer back into the partner (R430) -/

def State.setPush (s : State) (p : Option MirrorPush) : State := s.modTwin (fun t => { t with push := p })

def State.sendPush (s : State) (p : MirrorPush) (off : Nat) : State :=
  match s.links.twin.sset with
  | none => s
  | some x =>
    let r := s.mirrorRead ((x.buf p.buf).addr + 65536 + off) 512
    r.1.sendTwin (.mirrorWrite off p.buf true r.2)

def State.pumpPush (s : State) : State :=
  match s.links.twin.push with
  | none => s
  | some p =>
    if p.sent ≠ [] ∨ p.settleSent then s
    else match p.todo with
      | [] => (s.setPush (some { p with settleSent := true })).sendTwin (.settle p.epoch true p.buf false p.units)
      | u :: rest =>
        let offs := (List.range 128).map (fun i => 65536 * u + 512 * i)
        offs.foldl (fun s o => s.sendPush p o) (s.setPush (some { p with todo := rest, sent := offs }))

def State.ackPush (s : State) (off : Nat) (buf : Bool) : State :=
  match s.links.twin.push with
  | none => s
  | some p =>
    if p.buf = buf ∧ p.sent.contains off then (s.setPush (some { p with sent := p.sent.erase off })).pumpPush else s

/-- A push that the link interrupted goes on. -/
def State.resumePush (s : State) : State :=
  match s.links.twin.push with
  | none => s
  | some p =>
    if p.settleSent then s.sendTwin (.settle p.epoch true p.buf false p.units)
    else if p.sent ≠ [] then p.sent.foldl (fun s o => s.sendPush p o) s
    else s.pumpPush

/-- MIRROR_ACK (R422, R430). -/
def execMirrorAck (port : Nat) (f : Frame) (s : State) : Out :=
  onFrame s port f (fun _ => false) (fun s =>
    match f.body with
    | .mirrorAck off buf live => if live then s.ackPush off buf else s.ackCopy off buf
    | _ => s)

/-- RESTORE_REQ (R430): the buffer that holds the epoch as SETTLED is pushed; without one the request is refused by a
SETTLE_ACK without OK (assumption 34). -/
def execRestoreReq (port : Nat) (f : Frame) (s : State) : Out :=
  onFrame s port f (fun _ => false) (fun s =>
    match f.body, s.links.twin.sset with
    | .restoreReq epoch, some x =>
      let holds := fun (b : ShadowBuf) => b.state == 2 && b.epoch == epoch
      if holds x.a || holds x.b then
        let buf := !holds x.a
        let n := (x.buf buf).units
        (s.setPush (some { epoch := epoch, buf := buf, units := n, todo := List.range n })).pumpPush
      else s.sendTwin (.settleAck epoch true false)
    | .restoreReq epoch, none => s.sendTwin (.settleAck epoch true false)
    | _, _ => s)

/-- The settle of a copy is acknowledged with OK (R423 to R425, R430). -/
def State.copySettled (s : State) (m : MirrorSet) (c : MirrorCopy) : State :=
  let s := s.modTwin (fun t => { t with
    copy := none, settled := c.epoch, lastBuf := c.buf
    heldA := if c.buf then t.heldA else if c.raced then none else some c.epoch
    heldB := if c.buf then (if c.raced then none else some c.epoch) else t.heldB
    races := if c.raced then satAdd 0xFFFFFFFF t.races 1 else t.races
    full := c.raced || (t.full && !c.whole)
    rebuild := t.rebuild && !c.whole })
  let s := s.remoteAdd m.ctx m.tid c.covers
  let s := if c.raced then s.twinEvent 1 c.epoch else s
  s.startCopy

/-- The settle of a copy is refused: the epoch is copied again in full (R423). -/
def State.copyRefused (s : State) (m : MirrorSet) (c : MirrorCopy) : State :=
  let s := s.setCopy (some { c with todo := List.range m.units, units := m.units, sent := [], settleSent := false, whole := true })
  (s.twinEvent 3 c.epoch).pumpCopy

/-- SETTLE_ACK (R423, R430). -/
def execSettleAck (port : Nat) (f : Frame) (s : State) : Out :=
  onFrame s port f (fun _ => false) (fun s =>
    let t := s.links.twin
    match f.body with
    | .settleAck epoch true ok =>
      (match t.push with
       | some p =>
         if p.epoch = epoch ∧ p.settleSent then s.modTwin (fun t => { t with push := none, frozen := t.frozen && !ok }) else s
       | none =>
         match t.restore with
         | some r => if r.epoch = epoch ∧ !ok then (s.modTwin (fun t => { t with restore := none, rebuild := false })).reply r.req 4 [] else s
         | none => s)
    | .settleAck epoch false ok =>
      (match t.mset, t.copy with
       | some m, some c => if c.epoch = epoch ∧ c.settleSent then (if ok then s.copySettled m c else s.copyRefused m c) else s
       | _, _ => s)
    | _ => s)

/-! ### Pairing and heartbeats (R415, R416, R427) -/

/-- Both held buffers freeze, and the own copy and push end (R427). -/
def State.freeze (s : State) : State :=
  let t := s.links.twin
  let s := match t.restore with | some r => s.reply r.req 2 [] | none => s
  s.modTwin (fun t => { t.dropCopy with frozen := t.frozen || t.sset.isSome, push := none, restore := none, rebuild := t.rebuild && t.restore.isNone })

/-- HELLO (R415, R427, R428). -/
def execHello (port : Nat) (f : Frame) (s : State) : Out :=
  onFrame s port f (fun _ => false) (fun s =>
    match f.body with
    | .hello serial node _ twinSlot flags settled heldA heldB =>
      let t := s.links.twin
      if t.pair = .disabled then s
      else
        let p : Partner := { heard := true, serial := serial, mset := bitOf flags 2, sset := bitOf flags 3, settled := settled, heldA := heldA, heldB := heldB }
        if node ≠ t.slot ∨ twinSlot ≠ s.links.node then s.setPair .mismatch 0
        else if bitOf flags 1 then ((s.modTwin (fun t => { t with partner := p })).freeze).setPair .departed 0
        else
          let held := fun (n : Nat) => if n = 0 then none else some n
          let s := s.modTwin (fun t => { t with
            partner := p, heard := s.now
            heldA := held heldA, heldB := held heldB
            lastBuf := if heldB = t.settled ∧ heldB ≠ 0 then true else if heldA = t.settled ∧ heldA ≠ 0 then false else t.lastBuf })
          ((s.setPair .paired 0).resumeCopy).resumePush
    | _ => s)

/-- HEARTBEAT (R416): from the twin, by any path. -/
def execHeartbeat (port : Nat) (f : Frame) (now : Nat) (s : State) : Out :=
  onFrame (s.advanceTo now) port f (fun _ => false) (fun s =>
    match f.body with
    | .heartbeat _ settled =>
      if f.src = s.links.twin.slot then s.modTwin (fun t => { t with heard := s.now, partner := { t.partner with settled := settled } }) else s
    | _ => s)

/-- HEARTBEAT_TIMER (R416): every 100 µs on the twin port, every 1 ms over haul while the twin's link is lost. -/
def execHeartbeatTimer (now : Nat) (s : State) : Out :=
  let s := s.advanceTo now
  let t := s.links.twin
  if !t.enable ∨ !s.pci.running.contains 2 then .next s
  else
    let b : FrameBody := .heartbeat t.pair.code t.settled
    let s := if (s.port twinPort).state = .up ∧ s.now ≥ t.beat + 100000 then (s.modTwin (fun t => { t with beat := s.now })).sendTwin b else s
    .next (if t.pair = .linkLost ∧ s.routeValid t.slot ∧ s.now ≥ t.haulBeat + 1000000
      then (s.modTwin (fun t => { t with haulBeat := s.now })).sendFrame t.slot b else s)

/-- PARTNER_LOST (R416, R427): no heartbeat by any path for 10 ms. -/
def execPartnerLost (now : Nat) (s : State) : Out :=
  let s := s.advanceTo now
  let t := s.links.twin
  if (t.pair = .paired ∨ t.pair = .linkLost) ∧ s.now ≥ t.heard + 10000000 then .next (s.freeze.setPair .partnerLost t.closed)
  else .next s

/-! ### Banksman requests on the twin (R417, R429, R430, R432) -/

/-- The ranges of a list, 16 bytes each: base, size. -/
def rangesOf (bs : List Byte) (n : Nat) : List (Nat × Nat) :=
  (List.range n).map (fun i => (ofLe ((bs.drop (16 * i)).take 8), ofLe ((bs.drop (16 * i + 8)).take 8)))

/-- The ranges of a mirror set are legal (R417). -/
def State.rangesOk (s : State) (c : Nat) (rs : List (Nat × Nat)) : Bool :=
  rs.all (fun r => r.1 % 65536 == 0 && r.2 % 65536 == 0 && decide (r.2 ≠ 0) && decide (r.1 + r.2 ≤ farTop) && (s.ctx c).granted .w r.1 r.2)
  && decide ((rs.map Prod.snd).foldl (· + ·) 0 ≤ 2 ^ 37)
  && (List.range rs.length).all (fun i => (List.range i).all (fun j =>
      let a := rs.getD i (0, 0)
      let b := rs.getD j (0, 0)
      decide (a.1 + a.2 ≤ b.1) || decide (b.1 + b.2 ≤ a.1)))

/-- The module's HELLO again, after a change of what it says (assumption 34). -/
def State.sayHello (s : State) : State := if s.links.twin.enable then s.sendTwin (s.helloBody false) else s

/-- MIRROR_SET (R417, R429, R432). -/
def execMirrorSet (s : State) : Out :=
  onRequest s 2 0x10 (fun r m s =>
    let c := m.arg 1
    let n := m.arg 9
    if c > 1023 ∨ m.arg 2 > 4095 ∨ n = 0 ∨ n > 64 then s.reply r 3 []
    else match s.readList (m.arg2 7) (16 * n) with
      | (s, none) => s.reply r 3 []
      | (s, some bs) =>
        let rs := rangesOf bs n
        let new : MirrorSet := { ctx := c, tid := m.arg 2, fence := m.arg2 3, mark := m.arg2 5, ranges := rs }
        if !(s.ctx c).preserve then s.reply r 2 []
        else if !s.rangesOk c rs then s.reply r 3 []
        else match s.links.twin.mset with
          | some old =>
            if old.ranges.map Prod.snd = rs.map Prod.snd then
              ((s.modTwin (fun t => { t with mset := some new })).sayHello).reply r 0 []
            else s.reply r 2 []
          | none =>
            let s := s.modTwin (fun t => { t with mset := some new, closed := 0, settled := 0, dirty := [], prev := [], prev2 := []
                                                  copy := none, owed := false, uncounted := 0, full := false })
            s.sayHello.reply r 0 [])

/-- MIRROR_CLEAR (R432). -/
def execMirrorClear (s : State) : Out :=
  onRequest s 2 0x11 (fun r _ s =>
    if s.links.twin.copy.isSome then s.reply r 2 []
    else
      let s := s.modTwin (fun t => { t with mset := none, closed := 0, settled := 0, dirty := [], prev := [], prev2 := [], owed := false, uncounted := 0, full := false })
      s.sayHello.reply r 0 [])

/-- SHADOW_SET (R432): both buffers are emptied, and nothing is frozen any more (R427). -/
def execShadowSet (s : State) : Out :=
  onRequest s 2 0x12 (fun r m s =>
    let a := m.arg2 1
    let b := m.arg2 3
    let size := m.arg2 5
    if size < 65536 then s.reply r 6 []
    else if !((s.ctx 0).farOk .w a size && (s.ctx 0).farOk .w b size) then s.reply r 3 []
    else
      let x : ShadowSet := { size := size, a := { addr := a }, b := { addr := b }, active := false }
      let s := (s.writeHeader x.a).writeHeader x.b
      let s := s.modTwin (fun t => { t with sset := some x, frozen := false, push := none })
      s.sayHello.reply r 0 [])

/-- RESTORE (R430, R432); the reply comes when it has ended. A second RESTORE, or one during a copy, is answered E_BUSY
(assumption 34). -/
def execRestore (s : State) : Out :=
  onRequest s 2 0x13 (fun r m s =>
    let t := s.links.twin
    match t.mset with
    | none => s.reply r 2 []
    | some x =>
      if t.pair ≠ .paired ∨ (s.ctx x.ctx).state = .placed then s.reply r 2 []
      else if t.restore.isSome ∨ t.copy.isSome then s.reply r 1 []
      else
        let s := s.modTwin (fun t => { t with restore := some { epoch := m.arg 1, mark := m.arg2 2, req := r }, rebuild := true })
        s.sendTwin (.restoreReq (m.arg 1)))

end Sys2Proof.Machine
end

