-- ==== Sys2Proof/Machine/Debug.lean ====
section
/-!
DEFINITION. Counters, trace, stepping of a whole context, sounding and the start-up self-test (19_debug_test R512 to
R535).
-/

namespace Sys2Proof.Machine

def onCore (core : Nat) (s : State) (f : State → State) : Out := if core < 1280 then .next (f s) else .fault .noSuchUnit

/-! ### Counters and counter records (R514 to R517) -/

/-- CLEAR (R514): the counters go to 0 at the next record that an engine of the core issues. -/
def execClear (core : Nat) (s : State) : Out :=
  onCore core s (fun s => s.modCore core (fun k => { k with dbg := { k.dbg with clearPend := true } }))

/-- COUNTER_RECORD_WRITE (R516, R517): the oldest queued write is checked and accepted at its controller; engines that
waited for room go on, and HEAD may pass the slot. -/
def execCounterRecordWrite (core : Nat) (s : State) : Out :=
  onCore core s (fun s =>
    match (s.core core).dbg.writes with
    | [] => s
    | w :: rest =>
      let s := s.modCore core (fun k => { k with dbg := { k.dbg with writes := rest } })
      let fault := fun (s : State) (cause : Cause) => s.recFault w.ctx core w.eng cause w.slot [] w.addr
      let s := if !(s.ctx w.ctx).farOk .w w.addr 64 then fault s .windowFault
        else
          let r := s.farWrite w.addr (w.words.flatMap (fun x => leBytes 8 x.toNat))
          if r.2 then r.1 else fault r.1 .uncorrEcc
      if (s.ctx w.ctx).killing then s
      else (List.range 4).foldl (fun t e => (t.retireLate core e).moveHead core e) s)

/-! ### Trace (R519 to R522) -/

/-- Records that are dropped (R521). -/
def Core.traceDrop (k : Core) (n : Nat) : Core :=
  ({ k with dbg := { k.dbg with traceLost := satAdd 0xFFFFFFFF k.dbg.traceLost n, lost := k.dbg.lost + n } } : Core).count 0x3A n

/-- A half begins to drain, padded with zeros; a half that finds the ring full is discarded whole (R520, R521). -/
def Core.drainHalf (k : Core) : Core :=
  let d := k.dbg
  if d.drain ≠ [] ∨ d.buf = [] then k
  else if (d.traceTail + 1) % 2 ^ d.trace.log2 = d.traceHead then
    ({ k with dbg := { d with buf := [] } } : Core).traceDrop (d.buf.length / 2)
  else { k with dbg := { d with drain := d.buf ++ List.replicate (256 - d.buf.length) 0, buf := [] } }

/-- A commit of the trace settings comes into force once no drain is in flight; a half that has not filled drains first
(R520, R522). -/
def Core.traceSettle (k : Core) : Core :=
  if !k.dbg.traceCommit ∨ k.dbg.drain ≠ [] then k
  else
    let k := if k.dbg.trace.en then k.drainHalf else k
    if k.dbg.drain ≠ [] then k
    else
      let d := k.dbg
      let bad := decide (d.traceStaged.base + 2048 * 2 ^ d.traceStaged.log2 > farTop)
      { k with dbg := { d with trace := { d.traceStaged with en := d.traceStaged.en && !bad }, badBase := bad, traceCommit := false
                               traceHead := 0, traceTail := 0, buf := [], drain := [] } }

/-- TRACE_DRAIN (R520): a half that has filled begins to drain. -/
def execTraceDrain (core : Nat) (s : State) : Out :=
  onCore core s (fun s => s.modCore core (fun k => if k.dbg.buf.length ≥ 256 then k.drainHalf else k))

/-- TRACE_CHUNK_DONE (R520, R521): the four requests of a chunk have been accepted, and TRC_TAIL advances. A half that
finds the ring full is discarded. -/
def execTraceChunkDone (core : Nat) (s : State) : Out :=
  onCore core s (fun s =>
    let d := (s.core core).dbg
    if d.drain = [] then s
    else if (d.traceTail + 1) % 2 ^ d.trace.log2 = d.traceHead then
      s.modCore core (fun k => (({ k with dbg := { d with drain := [] } } : Core).traceDrop (d.drain.length / 2)).traceSettle)
    else
      let s := (s.farWrite (d.trace.base + 2048 * d.traceTail) (d.drain.flatMap (fun w => leBytes 8 w.toNat))).1
      s.modCore core (fun k => ({ k with dbg := { k.dbg with drain := [], traceTail := (d.traceTail + 1) % 2 ^ d.trace.log2 } } : Core).traceSettle))

/-- TRACE_COMMIT (R522). -/
def execTraceCommit (core : Nat) (s : State) : Out :=
  onCore core s (fun s => s.modCore core (fun k => ({ k with dbg := { k.dbg with traceCommit := true } } : Core).traceSettle))

/-- EPOCH_RECORD (R519): bit 40 of the time base has changed. -/
def execEpochRecord (core : Nat) (s : State) : Out :=
  onCore core s (fun s =>
    let k := s.core core
    if k.dbg.trace.en && k.dbg.buf != [] && decide (k.dbg.buf.length < 256) then
      s.setCore core (({ k with dbg := { k.dbg with buf := k.dbg.buf ++ traceOpen s.now ((k.ctx).getD 0) 0 } } : Core).count 0x39 1)
    else s)

/-! ### Stepping a context (R524) -/

/-- CTX_HALT (R524): every queue of a PLACED context's bench. -/
def execCtxHalt (c : Nat) (value : Bool) (s : State) : Out :=
  if (s.ctx c).state = .placed then
    .next ((s.held c).foldl (fun t n => (List.range 4).foldl (fun t e => t.haltQueue n e value) t) s)
  else .next s

/-! ### Sounding of ports (R527 to R530) -/

/-- A pattern as it takes effect (R530): codes 10 to 15, and 6 to 9 at 224 Gb/s, are the default 5. -/
def patternEff (rateActive : Bool) (p : Nat) : Nat := if p ≥ 10 ∨ (p ≥ 6 ∧ !rateActive) then 5 else p

/-- SOUNDING_COMMIT (R528, R530): EN 1 takes a port that is not DISABLED to SOUNDING, and EN 0 starts training; every
checker count starts at 0. -/
def execSoundingCommit (port : Nat) (s : State) : Out :=
  if port < 17 then
    let x := s.port port
    let ctl := { x.sounding.staged with pattern := patternEff x.rateActive x.sounding.staged.pattern }
    let s := s.setPort port { x with sounding := { x.sounding with inForce := ctl, lanes := [] } }
    if x.state = .disabled then .next s
    else if ctl.en then
      let s := (s.setPort port (s.port port).discard).portState port .sounding
      .next (if port = twinPort ∧ s.links.twin.pair = .paired then s.setPair .linkLost 0 else s)
    else if x.state = .sounding then .next (s.train port)
    else .next s
  else .fault .noSuchUnit

/-- Lanes of a port that sound. -/
def Port.soundLanes (x : Port) (port : Nat) : List Nat :=
  (List.range (if port = twinPort then 8 else 4)).filter (fun l => bitOf x.sounding.inForce.lanes l)

def Port.modLane (x : Port) (l : Nat) (f : SoundLane → SoundLane) : Port :=
  { x with sounding := { x.sounding with lanes := tblSet l (f (tblGet {} x.sounding.lanes l)) x.sounding.lanes } }

/-- INJECT (R529): in near-end loopback every locked checker of an enabled lane counts one error; in the other modes the
bit goes to the peer's checkers. -/
def execInject (port : Nat) (s : State) : Out :=
  if port < 17 then
    let x := s.port port
    if x.state = .sounding ∧ x.sounding.inForce.loop = 1 then
      .next (s.setPort port ((x.soundLanes port).foldl (fun y l =>
        y.modLane l (fun a => if a.since.isSome then { a with errors := satAdd 0xFFFFFFFF a.errors 1 } else a)) x))
    else .next s
  else .fault .noSuchUnit

/-- A bridge's sounding. -/
def State.bridge (s : State) (j : Nat) : BridgeSound := tblGet {} s.dbg.bridges j
def State.setBridge (s : State) (j : Nat) (b : BridgeSound) : State := { s with dbg := { s.dbg with bridges := tblSet j b s.dbg.bridges } }

/-- LOCK (R529, R531): 64 consecutive error-free bits; codes 8 and 9 never lock. -/
def execLock (bridge : Bool) (port lane : Nat) (s : State) : Out :=
  if bridge then
    if port < 16 then
      let b := s.bridge port
      .next (if b.busy then s.setBridge port { b with lock := true } else s)
    else .fault .noSuchUnit
  else if port < 17 ∧ lane < 8 then
    let x := s.port port
    if x.state = .sounding ∧ (x.soundLanes port).contains lane ∧ x.sounding.inForce.pattern < 8 then
      .next (s.setPort port (x.modLane lane (fun a => { a with since := some (a.since.getD s.now) })))
    else .next s
  else .fault .noSuchUnit

/-- LOST (R529): more than 32 errors in 128 bits. -/
def execLost (port lane : Nat) (s : State) : Out :=
  if port < 17 ∧ lane < 8 then
    let x := s.port port
    let a := tblGet ({} : SoundLane) x.sounding.lanes lane
    match a.since with
    | some t =>
      if x.state = .sounding then
        .next (s.setPort port (x.modLane lane (fun a => { a with since := none, hasLost := true, lockedNs := a.lockedNs + (s.now - t)
                                                                 errors := satAdd 0xFFFFFFFF a.errors 33 })))
      else .next s
    | none => .next s
  else .fault .noSuchUnit

/-! ### Sounding of die bridges (R531) -/

/-- START (R531): refused while a context is PLACED or SUSPENDED. -/
def execStart (j : Nat) (s : State) : Out :=
  if j < 16 then
    let b := s.bridge j
    if s.ctxs.any (fun p => p.2.state == .placed || p.2.state == .suspended) then .next (s.setBridge j { b with refused := true })
    else if b.busy then .next s
    else .next (s.setBridge j { b with busy := true, patternNow := b.pattern, loopNow := b.loop, durNow := b.durMs, lock := false
                                       err := 0, firstWire := 0, valid := false, bits := 0 })
  else .fault .noSuchUnit

/-- BRIDGE_SOUNDING_END (R531): the sounding ends after DUR_MS; what the checkers found is free (assumption 38). -/
def execBridgeSoundingEnd (j : Nat) (s : State) : Out :=
  if j < 16 then
    let b := s.bridge j
    if !b.busy then .next s
    else
      let d := s.draw
      let f := fun i => Config.freeSound (4 * d.1 + i)
      let err := f 0 % 2 ^ 32
      .next (d.2.setBridge j { b with busy := false, lock := bitOf (f 1) 0, err := err, valid := err != 0
                                      firstWire := if err = 0 then 0 else f 2 % 65536, bits := f 3 % 2 ^ 32 })
  else .fault .noSuchUnit

/-! ### The start-up self-test (R532 to R535) -/

/-- The compute dies that bridge direction `j` joins (R531); bridges 0 to 3 join one die to the hub. -/
def bridgeDies (j : Nat) : List Nat := let b := j / 2; if b < 4 then [b] else [b - 4, (b - 3) % 4]

/-- A core's self-test result (R533, R535): its first failure in the order of the steps. -/
def Core.tested (k : Core) (f : Option CoreFail) : Core :=
  match f with
  | none => { k with stFail := false, stUnit := 0, stWhere := 0, me := { k.me with degraded := false, badCol := 0 } }
  | some x => { k with stFail := true, stUnit := x.unit % 8, stWhere := x.place % 64
                       me := { k.me with degraded := x.unit == 1, badCol := if x.unit = 1 then x.place % 64 else 0 } }

/-- The failure records and the summary (R534), held until the event queue is first enabled. -/
def selfTestRecords (cores : List CoreFail) (bridges : List Nat) (failed : Nat) : List (Nat × Nat) :=
  let cs := cores.map (fun x => 1 + 4 * x.core + 2 ^ 13 * (x.unit % 8) + 2 ^ 16 * (x.place % 64))
  let bs := bridges.map (fun j => 2 + 4 * j)
  ((cs ++ bs).take 63 ++ [2 ^ 32 * failed]).map (fun d => (6, d))

/-- SELF_TEST_COMPLETE (R532 to R535). -/
def execSelfTestComplete (cores : List CoreFail) (bridges : List Nat) (s : State) : Out :=
  if cores.all (fun x => decide (x.core < 1280)) && bridges.all (fun j => decide (j < 16)) then
    if !s.power.rails ∨ s.dbg.stDone then .next s
    else
      let failed := (List.range 1280).filter (fun n => cores.any (fun x => x.core == n))
      let joined := bridges.flatMap bridgeDies
      let degraded := (List.range 1280).filter (fun n => failed.contains n || joined.contains (dieOf n))
      let touched := (List.range 1280).filter (fun n => failed.contains n || (s.core n).stFail || (s.core n).me.degraded)
      let s := touched.foldl (fun t n => t.modCore n (fun k => k.tested (cores.find? (fun x => x.core == n)))) s
      let s := { s with dbg := { s.dbg with
        stDone := true, stPass := cores.isEmpty && bridges.isEmpty, stFailed := failed.length, degraded := degraded
        bridgeFail := (List.range 16).foldl (fun a j => a + 2 ^ j * boolN (bridges.contains j)) 0
        held := s.dbg.held ++ selfTestRecords cores bridges failed.length } }
      .next ((s.bump 0).flushHeld).fwUpdate
  else .fault .noSuchUnit

end Sys2Proof.Machine
end

