-- ==== Sys2Proof/Machine/GangAlu.lean ====
section
/-!
DEFINITION. The scalar, vector, floating-point, conversion and predicate instructions of gang programs
(03_sett R80, R92 to R95).
-/

namespace Sys2Proof.Machine

/-- NOP_INSN (R74): the gang goes on. -/
def execNopInsn (g : GangAt) (s : State) : Out :=
  onGang s g (.nopInsn g) false {} (fun _ x _ t => t.gangDone g (x, {}))

/-! ### Scalar slot: integer (opcodes 0x10 to 0x1F) -/

/-- ADD_SCALAR (R92). -/
def execAddScalar (g : GangAt) (f : VForm) (s : State) : Out :=
  gangAlu s g (.addScalar g f) (specS tyWide) f (fun env x => scaInt .add env x f)

/-- SUB_SCALAR (R92). -/
def execSubScalar (g : GangAt) (f : VForm) (s : State) : Out :=
  gangAlu s g (.subScalar g f) (specS tyWide) f (fun env x => scaInt .sub env x f)

/-- MUL_SCALAR (R92). -/
def execMulScalar (g : GangAt) (f : VForm) (s : State) : Out :=
  gangAlu s g (.mulScalar g f) (specS tyWide) f (fun env x => scaInt .mul env x f)

/-- MULHI_SCALAR (R92). -/
def execMulhiScalar (g : GangAt) (f : VForm) (s : State) : Out :=
  gangAlu s g (.mulhiScalar g f) (specS tyWide) f (fun env x => scaInt .mulhi env x f)

/-- AND_SCALAR (R92). -/
def execAndScalar (g : GangAt) (f : VForm) (s : State) : Out :=
  gangAlu s g (.andScalar g f) (specS tyInts) f (fun env x => scaInt .and env x f)

/-- OR_SCALAR (R92). -/
def execOrScalar (g : GangAt) (f : VForm) (s : State) : Out :=
  gangAlu s g (.orScalar g f) (specS tyInts) f (fun env x => scaInt .or env x f)

/-- XOR_SCALAR (R92). -/
def execXorScalar (g : GangAt) (f : VForm) (s : State) : Out :=
  gangAlu s g (.xorScalar g f) (specS tyInts) f (fun env x => scaInt .xor env x f)

/-- SHL_SCALAR (R92). -/
def execShlScalar (g : GangAt) (f : VForm) (s : State) : Out :=
  gangAlu s g (.shlScalar g f) (specS tyInts) f (fun env x => scaInt .shl env x f)

/-- SHR_SCALAR (R92). -/
def execShrScalar (g : GangAt) (f : VForm) (s : State) : Out :=
  gangAlu s g (.shrScalar g f) (specS tyInts) f (fun env x => scaInt .shr env x f)

/-- SAR_SCALAR (R92). -/
def execSarScalar (g : GangAt) (f : VForm) (s : State) : Out :=
  gangAlu s g (.sarScalar g f) (specS tyInts) f (fun env x => scaInt .sar env x f)

/-- MIN_SCALAR (R92). -/
def execMinScalar (g : GangAt) (f : VForm) (s : State) : Out :=
  gangAlu s g (.minScalar g f) (specS tyInts) f (fun env x => scaInt .min env x f)

/-- MAX_SCALAR (R92). -/
def execMaxScalar (g : GangAt) (f : VForm) (s : State) : Out :=
  gangAlu s g (.maxScalar g f) (specS tyInts) f (fun env x => scaInt .max env x f)

/-- MOV_SCALAR (R92): D = B. -/
def execMovScalar (g : GangAt) (f : VForm) (s : State) : Out :=
  gangAlu s g (.movScalar g f) specMovS f (fun env x => scaInt .mov env x f)

/-- CADDR (R92). -/
def execCaddr (g : GangAt) (f : VForm) (constBase : Addr) (s : State) : Out :=
  gangAlu s g (.caddr g f constBase) specCaddr f (fun env x => scaCaddr constBase env x f)

/-! ### Vector slot: integer (opcodes 0x20 to 0x2F) -/

/-- ADD_VECTOR (R92). -/
def execAddVector (g : GangAt) (f : VForm) (s : State) : Out :=
  gangAlu s g (.addVector g f) (specV tyWide) f (fun env x => vecInt .add env x f)

/-- SUB_VECTOR (R92). -/
def execSubVector (g : GangAt) (f : VForm) (s : State) : Out :=
  gangAlu s g (.subVector g f) (specV tyWide) f (fun env x => vecInt .sub env x f)

/-- MUL_VECTOR (R92). -/
def execMulVector (g : GangAt) (f : VForm) (s : State) : Out :=
  gangAlu s g (.mulVector g f) (specV [0, 1]) f (fun env x => vecInt .mul env x f)

/-- MULHI_VECTOR (R92). -/
def execMulhiVector (g : GangAt) (f : VForm) (s : State) : Out :=
  gangAlu s g (.mulhiVector g f) (specV [0, 1]) f (fun env x => vecInt .mulhi env x f)

/-- AND_VECTOR (R92). -/
def execAndVector (g : GangAt) (f : VForm) (s : State) : Out :=
  gangAlu s g (.andVector g f) (specV tyInts) f (fun env x => vecInt .and env x f)

/-- OR_VECTOR (R92). -/
def execOrVector (g : GangAt) (f : VForm) (s : State) : Out :=
  gangAlu s g (.orVector g f) (specV tyInts) f (fun env x => vecInt .or env x f)

/-- XOR_VECTOR (R92). -/
def execXorVector (g : GangAt) (f : VForm) (s : State) : Out :=
  gangAlu s g (.xorVector g f) (specV tyInts) f (fun env x => vecInt .xor env x f)

/-- SHL_VECTOR (R92). -/
def execShlVector (g : GangAt) (f : VForm) (s : State) : Out :=
  gangAlu s g (.shlVector g f) (specV tyInts) f (fun env x => vecInt .shl env x f)

/-- SHR_VECTOR (R92). -/
def execShrVector (g : GangAt) (f : VForm) (s : State) : Out :=
  gangAlu s g (.shrVector g f) (specV tyInts) f (fun env x => vecInt .shr env x f)

/-- SAR_VECTOR (R92). -/
def execSarVector (g : GangAt) (f : VForm) (s : State) : Out :=
  gangAlu s g (.sarVector g f) (specV tyInts) f (fun env x => vecInt .sar env x f)

/-- MIN_VECTOR (R92). -/
def execMinVector (g : GangAt) (f : VForm) (s : State) : Out :=
  gangAlu s g (.minVector g f) (specV tyInts) f (fun env x => vecInt .min env x f)

/-- MAX_VECTOR (R92). -/
def execMaxVector (g : GangAt) (f : VForm) (s : State) : Out :=
  gangAlu s g (.maxVector g f) (specV tyInts) f (fun env x => vecInt .max env x f)

/-- MOV_VECTOR (R92). -/
def execMovVector (g : GangAt) (f : VForm) (s : State) : Out :=
  gangAlu s g (.movVector g f) specMovV f (fun env x => vecInt .mov env x f)

/-- SEL (R92). -/
def execSel (g : GangAt) (f : VForm) (s : State) : Out :=
  gangAlu s g (.sel g f) specSel f (fun env x => vecSel env x f)

/-- POPC (R92). -/
def execPopc (g : GangAt) (f : VForm) (s : State) : Out :=
  gangAlu s g (.popc g f) specUn f (fun _ x => vecUn popCount x f)

/-- CLZ (R92). -/
def execClz (g : GangAt) (f : VForm) (s : State) : Out :=
  gangAlu s g (.clz g f) specUn f (fun _ x => vecUn leadZeros x f)

/-! ### Vector slot: FP32 (opcodes 0x30 to 0x3D) -/

/-- FADD (R92, R93). -/
def execFadd (g : GangAt) (f : VForm) (s : State) : Out :=
  gangAlu s g (.fadd g f) (specF2 true) f (fun env x => vecF2 (f32Add (rndOf f.rnd)) env x f)

/-- FSUB (R92, R93). -/
def execFsub (g : GangAt) (f : VForm) (s : State) : Out :=
  gangAlu s g (.fsub g f) (specF2 true) f (fun env x => vecF2 (f32Sub (rndOf f.rnd)) env x f)

/-- FMUL (R92, R93). -/
def execFmul (g : GangAt) (f : VForm) (s : State) : Out :=
  gangAlu s g (.fmul g f) (specF2 true) f (fun env x => vecF2 (f32Mul (rndOf f.rnd)) env x f)

/-- FDIV (R92, R93). -/
def execFdiv (g : GangAt) (f : VForm) (s : State) : Out :=
  gangAlu s g (.fdiv g f) (specF2 true) f (fun env x => vecF2 (f32Div (rndOf f.rnd)) env x f)

/-- FFMA (R92, R93): one rounding; its executing lanes are counted (19_debug_test R513). -/
def execFfma (g : GangAt) (f : VForm) (s : State) : Out :=
  onGang s g (.ffma g f) true (vUse specF3 f) (fun _ x env t =>
    (t.gangDone g (vecF3 (f32Fma (rndOf f.rnd)) env x f)).count g.core 8 (lanesOf (x.execLanes f.qp f.qn)).length)

/-- FMIN (R92). -/
def execFmin (g : GangAt) (f : VForm) (s : State) : Out :=
  gangAlu s g (.fmin g f) (specF2 false) f (fun env x => vecF2 (f32MinMax false) env x f)

/-- FMAX (R92). -/
def execFmax (g : GangAt) (f : VForm) (s : State) : Out :=
  gangAlu s g (.fmax g f) (specF2 false) f (fun env x => vecF2 (f32MinMax true) env x f)

/-- FABS (R92, R93). -/
def execFabs (g : GangAt) (f : VForm) (s : State) : Out :=
  gangAlu s g (.fabs g f) (specF1 false) f (fun _ x => vecF1 (fun a => (f32Abs a, {})) x f)

/-- FNEG (R92, R93). -/
def execFneg (g : GangAt) (f : VForm) (s : State) : Out :=
  gangAlu s g (.fneg g f) (specF1 false) f (fun _ x => vecF1 (fun a => (f32Neg a, {})) x f)

/-- FRCP (R92, R93). -/
def execFrcp (g : GangAt) (f : VForm) (s : State) : Out :=
  gangAlu s g (.frcp g f) (specF1 false) f (fun _ x => vecF1 f32Rcp x f)

/-- FRSQ (R92, R93). -/
def execFrsq (g : GangAt) (f : VForm) (s : State) : Out :=
  gangAlu s g (.frsq g f) (specF1 false) f (fun _ x => vecF1 f32Rsq x f)

/-- FEX2 (R92, R93). -/
def execFex2 (g : GangAt) (f : VForm) (s : State) : Out :=
  gangAlu s g (.fex2 g f) (specF1 false) f (fun _ x => vecF1 f32Ex2 x f)

/-- FLG2 (R92, R93). -/
def execFlg2 (g : GangAt) (f : VForm) (s : State) : Out :=
  gangAlu s g (.flg2 g f) (specF1 false) f (fun _ x => vecF1 f32Lg2 x f)

/-- FSQRT (R92, R93). -/
def execFsqrt (g : GangAt) (f : VForm) (s : State) : Out :=
  gangAlu s g (.fsqrt g f) (specF1 true) f (fun _ x => vecF1 (f32Sqrt (rndOf f.rnd)) x f)

/-! ### Conversion, bytes and lanes (opcodes 0x40 to 0x44) -/

/-- CVT (R95). -/
def execCvt (g : GangAt) (f : VForm) (s : State) : Out :=
  gangAlu s g (.cvt g f) specCvt f (fun env x => vecCvt env x f)

/-- PACK (R92). -/
def execPack (g : GangAt) (f : VForm) (s : State) : Out :=
  gangAlu s g (.pack g f) specPack f (fun env x => vecPack env x f)

/-- BPERM (R92). -/
def execBperm (g : GangAt) (f : VForm) (s : State) : Out :=
  gangAlu s g (.bperm g f) specBperm f (fun env x => vecBperm env x f)

/-- SHFL (R94). -/
def execShfl (g : GangAt) (f : VForm) (s : State) : Out :=
  gangAlu s g (.shfl g f) specShfl f (fun env x => vecShfl env x f)

/-- RED (R94). -/
def execRed (g : GangAt) (f : VForm) (s : State) : Out :=
  gangAlu s g (.red g f) specRed f (fun _ x => vecRed x f)

/-! ### Predicates (opcodes 0x50 to 0x54) -/

/-- SETP (R80). -/
def execSetp (g : GangAt) (f : VForm) (s : State) : Out :=
  gangAlu s g (.setp g f) specSetp f (fun env x => predSetp env x f)

/-- PLOG (R80). -/
def execPlog (g : GangAt) (f : VForm) (s : State) : Out :=
  gangAlu s g (.plog g f) specPlog f (fun _ x => predPlog x f)

/-- PBAL (R80). -/
def execPbal (g : GangAt) (f : VForm) (s : State) : Out :=
  gangAlu s g (.pbal g f) specPbal f (fun _ x => predPbal x f)

/-- PSET (R80). -/
def execPset (g : GangAt) (f : VForm) (s : State) : Out :=
  gangAlu s g (.pset g f) specPset f (fun env x => predPset env x f)

/-- SCMP (R80). -/
def execScmp (g : GangAt) (f : VForm) (s : State) : Out :=
  gangAlu s g (.scmp g f) specScmp f (fun env x => predScmp env x f)

end Sys2Proof.Machine
end

