-- ==== Sys2Proof/Machine/GangControl.lean ====
section
/-!
DEFINITION. Branches, loops and exits of gangs, native code fetch, and the life of a launch (02_gangs R27 to R43,
R556; 03_sett R77 to R79).
-/

namespace Sys2Proof.Machine

/-- A jump, or the fault of a push that does not fit (R38, R43). -/
def State.gangGo (s : State) (g : GangAt) (r : Option Gang) : State :=
  match r with
  | some x => s.setGang g.core g.slot x
  | none => s.gangFault g.core g.slot .illegalInsn 0

/-- BR (R36, R77); a divergent branch is counted. -/
def execBr (g : GangAt) (p : Nat) (pn : Bool) (tgt join : Addr) (s : State) : Out :=
  onGang s g (.br g p pn tgt join) false {} (fun _ x _ t =>
    let d := x.execLanes p pn
    (t.gangGo g (x.branch p pn tgt join g.next)).count g.core 9 (boolN (d != x.mask && d != 0)))

/-- BRA (R77): every active lane jumps. -/
def execBra (g : GangAt) (tgt : Addr) (s : State) : Out :=
  onGang s g (.bra g tgt) false {} (fun _ x _ t => t.setGang g.core g.slot (x.goto tgt))

/-- LOOP_INSN (R41 to R43). -/
def execLoopInsn (g : GangAt) (sreg : Nat) (last after : Addr) (s : State) : Out :=
  onGang s g (.loopInsn g sreg last after) false { sr := [sreg] } (fun _ x _ t => t.gangGo g (x.loop sreg last after g.next))

/-- A gang with no lane left frees its slot; its requests that have not completed count against the launch (R30, R40). -/
def State.gangExit (s : State) (core slot : Nat) (x : Gang) : State :=
  s.modCore core (fun k =>
    let k := k.setGang slot {}
    { k with ge := { k.ge with launches := k.ge.launches.map (fun l =>
        if l.id = x.launch then { l with live := l.live - 1, out := l.out + x.stores + (x.loads.map GangLoad.left).foldl (· + ·) 0 } else l) } })

/-- EXIT (R40, R79). -/
def execExit (g : GangAt) (qp : Nat) (qn : Bool) (s : State) : Out :=
  onGang s g (.exit g qp qn) false {} (fun _ x _ t =>
    let y := x.exitLanes qp qn g.next
    if y.gone then t.gangExit g.core g.slot y else t.setGang g.core g.slot y)

/-- CODE_FETCH (R556): the instruction at the gang's program counter arrives in the core's instruction buffer, read at
the controller. Execution outside a window with code rights, or outside far memory, is ILLEGAL_INSN (R64, R160). -/
def execCodeFetch (core slot : Nat) (s : State) : Out :=
  if core < 1280 ∧ slot < 16 then
    let x := s.gang core slot
    match s.live core with
    | none => .next s
    | some c =>
      if x.live ∧ !(s.core core).ge.stopped ∧ !(s.core core).ge.ibuf.contains x.pc.toNat then
        let a := x.pc.toNat
        if (s.ctx c).farOk .x a 1 then
          let r := s.farRead a 1
          match r.2 with
          | none => .next (r.1.gangFault core slot .uncorrEcc a)
          | some _ => .next (r.1.modCore core (fun k => { k with ge := { k.ge with ibuf := k.ge.ibuf ++ [a] } }))
        else .next (s.gangFault core slot .illegalInsn a)
      else .next s
  else .fault .noSuchUnit

/-- GANG_START (R27, R29): the next gang of the current launch starts in the lowest free slot; the slot's detectors
reset (08_far R236, R238). -/
def execGangStart (core : Nat) (s : State) : Out :=
  if core < 1280 then
    match s.live core with
    | none => .next s
    | some _ =>
      let k := s.core core
      match k.ge.launches.find? (fun l => decide (l.started < l.count)), k.freeSlot with
      | some l, some sl =>
        let k := k.setGang sl (Gang.start l.id l.started l.entry l.args)
        let ls := k.ge.launches.map (fun m => if m.id = l.id then { m with started := m.started + 1, live := m.live + 1 } else m)
        .next (s.setCore core { k with ge := { k.ge with launches := ls }
                                       fc := { k.fc with streams := tblDrop sl k.fc.streams, strides := tblDrop sl k.fc.strides } })
      | _, _ => .next s
  else .fault .noSuchUnit

/-- A launch has nothing left to do (R30). -/
def Launch.finished (l : Launch) : Bool := l.started == l.count && l.live == 0 && l.out == 0

/-- LAUNCH_RETIRE (R30): the last gang has exited and every memory request has completed. -/
def execLaunchRetire (core id : Nat) (s : State) : Out :=
  if core < 1280 then
    match s.live core with
    | none => .next s
    | some _ =>
      let k := s.core core
      if k.ge.launches.any (fun l => l.id == id && l.finished) then
        let t := s.setCore core { k with ge := { k.ge with launches := k.ge.launches.filter (fun l => l.id != id) } }
        .next (t.retire core 0 id)
      else .next s
  else .fault .noSuchUnit

/-- The GANG_STATE entry of a gang (19_debug_test R525). -/
def State.gangState (s : State) (core c slot : Nat) : State :=
  let x := s.gang core slot
  let win := match x.wait with | .window => true | _ => false
  let tw := match x.wait with | .tally t v _ _ _ => t + 2 ^ 32 * (v % 2 ^ 32) | _ => 0
  s.tail (ringOf core 0) 6 c (some slot)
    (x.mask.toNat + 2 ^ 32 * x.rstack.length + 2 ^ 37 * x.lstack.length + 2 ^ 40 * boolN win) x.pc.toNat tw

/-- LAUNCH_TIMEOUT (R32): an unretired launch has run its timeout; the state of each of its gangs is left in the GE
tailings ring. It does not count while a queue of the context is halted (R281) or the context is suspended. -/
def execLaunchTimeout (core id now : Nat) (s : State) : Out :=
  if core < 1280 then
    let s := s.advanceTo now
    match s.live core with
    | none => .next s
    | some c =>
      match (s.core core).ge.launches.find? (fun l => l.id == id) with
      | none => .next s
      | some l =>
        if s.ctxNow c ≥ l.start + s.tmoNs l.tmo then
          let s := (List.range 16).foldl (fun t sl =>
            if (t.gang core sl).live ∧ (t.gang core sl).launch = id then t.gangState core c sl else t) s
          let fl := (s.queue core 0).flight.find? (fun f => f.id == id)
          .next (s.raise c { cause := .syncTimeout, core := core, engine := 0, qid := 4 * core
                             slot := (fl.map Flight.slot).getD 0xFFFF, record := (fl.map Flight.words).getD [] })
        else .next s
  else .fault .noSuchUnit

end Sys2Proof.Machine
end

