-- ==== Sys2Proof/Machine/GovOps.lean ====
section
/-!
DEFINITION. What the Governor computes: stretch levels, planned power, the thermal plant model, the control law and its
register words (16_governor R438 to R466). Values are exact rational numbers, in W, kelvin and seconds' fractions as each
definition says; the manual states no number format for them (assumption 37).
-/

namespace Sys2Proof.Machine

def State.modGov (s : State) (f : Governor → Governor) : State := { s with gov := f s.gov }
def Governor.die (g : Governor) (d : Nat) : GovDie := tblGet {} g.dies d
def Governor.setDie (g : Governor) (d : Nat) (x : GovDie) : Governor := { g with dies := tblSet d x g.dies }
def Governor.fan (g : Governor) (f : Nat) : GovFan := tblGet {} g.fans f

/-- A value as a register's whole number of units: itself, or the free one of its two neighbours (assumption 37), held
inside the field. -/
def roundReg (top : Nat) (x : Rat) : Nat :=
  let lo := x.num / (x.den : Int)
  let up := x.den != 1 && Config.freeRound x.num x.den
  min top ((if up then lo + 1 else lo).toNat)

/-! ### Stretch levels (R446, R447, R449) -/

/-- The level that the hardware trips impose on a die. -/
def Governor.tripLevel (g : Governor) (d : Nat) : Nat := if (g.die d).trip || g.tripHub || g.tripBus then 8 else 0

/-- The effective level of a die (R447). -/
def Governor.level (g : Governor) (d : Nat) : Nat :=
  let x := g.die d
  max x.govLevel (max (g.tripLevel d) x.minNow)

/-- The clock generators take the levels from their next cycle boundary on (R446). -/
def State.applyLevels (s : State) : State :=
  { s with dies := s.dies.map (fun (p : Nat × Die) => (p.1, { p.2 with target := s.gov.level p.1 })) }

/-! ### Planned power (R458) -/

/-- How long a phase lasts on a die at level `l`, in half nanoseconds. -/
def PhaseRow.half (l : Nat) (r : PhaseRow) : Nat := r.durUs * 125 * (16 + l)

def phasesHalf (l : Nat) (rows : List PhaseRow) : Nat := (rows.map (PhaseRow.half l)).foldl (· + ·) 0

/-- A die's draw of the phase in force `e` after the first row of the list began, in 0.25 W. -/
def drawAfter (l d : Nat) : List PhaseRow → Nat → Nat
  | [], _ => 0
  | r :: t, e => if e < r.half l ∨ t.isEmpty then r.dieW.getD d 0 else drawAfter l d t (e - r.half l)

/-- The sum of a die's draw over the time `e` from the beginning of the list, in 0.25 W half nanoseconds. -/
def drawSum (l d : Nat) : List PhaseRow → Nat → Nat
  | [], _ => 0
  | r :: t, e => if e < r.half l then r.dieW.getD d 0 * e else r.dieW.getD d 0 * r.half l + drawSum l d t (e - r.half l)

/-- The rows in the order in which they follow phase `p`. -/
def rowsFrom (rows : List PhaseRow) (p : Nat) : List PhaseRow := rows.drop p ++ rows.take p

/-- The draw `e` after a mark's phase began: the phases repeat. -/
def drawAt (l d : Nat) (rows : List PhaseRow) (e : Nat) : Nat :=
  let t := phasesHalf l rows
  drawAfter l d rows (if t = 0 then 0 else e % t)

/-- The sum of the draw over the first `e` after a mark's phase began. -/
def drawUpTo (l d : Nat) (rows : List PhaseRow) (e : Nat) : Nat :=
  let t := phasesHalf l rows
  if t = 0 then drawAfter l d rows 0 * e else e / t * drawSum l d rows t + drawSum l d rows (e % t)

/-- The marks with the times until which each holds: a later mark replaces the prediction from its start on (R458). -/
def markSpans (stop : Nat) : List PMark → List (PMark × Nat)
  | [] => []
  | [m] => [(m, stop)]
  | m :: n :: t => (m, n.start) :: markSpans stop (n :: t)

/-- One bench on one die: its draw at a time, in 0.25 W. -/
def Ctx.drawAt (x : Ctx) (l d t : Nat) : Nat :=
  match ((tblGet [] x.marks d).filter (fun m => decide (m.start ≤ t))).getLast? with
  | none => 0
  | some m => Sys2Proof.Machine.drawAt l d (rowsFrom x.plan_.phases m.phase) (t - m.start)

/-- One bench on one die: its draw summed from `a` to `b`. -/
def Ctx.drawOver (x : Ctx) (l d a b : Nat) : Nat :=
  ((markSpans b (tblGet [] x.marks d)).map (fun (p : PMark × Nat) =>
    let rows := rowsFrom x.plan_.phases p.1.phase
    let lo := max a p.1.start
    let hi := min b p.2
    if lo < hi then drawUpTo l d rows (hi - p.1.start) - drawUpTo l d rows (lo - p.1.start) else 0)).foldl (· + ·) 0

/-- The times after `a` and up to `b` at which a phase of the bench begins on a die. -/
def Ctx.startsIn (x : Ctx) (l d a b : Nat) : List Nat :=
  ((markSpans (b + 1) (tblGet [] x.marks d)).flatMap (fun (p : PMark × Nat) =>
    let rows := rowsFrom x.plan_.phases p.1.phase
    let t := phasesHalf l rows
    let offs := (rows.foldl (fun (q : List Nat × Nat) r => (q.1 ++ [q.2], q.2 + r.half l)) ([], 0)).1
    let k0 := if t = 0 then 0 else (max a p.1.start - p.1.start) / t
    let k1 := if t = 0 then 0 else (min b p.2 - p.1.start) / t
    ((List.range (k1 - k0 + 1)).flatMap (fun k => offs.map (fun o => p.1.start + (k0 + k) * t + o))).filter (fun u => decide (u < p.2)))).filter
      (fun u => decide (a < u) && decide (u ≤ b))

/-- The planned draw of a die above its base share at a time, in W: before and after reconciliation. -/
def State.unscaled (s : State) (d t : Nat) : Rat :=
  ((s.placed.map (fun p => p.2.drawAt (s.gov.level d) d t)).foldl (· + ·) 0 : Nat) / 4

/-- The planned power of a die at a time, in W (R458). -/
def State.planned (s : State) (d t : Nat) : Rat := ((Config.dieBaseW : Nat) : Rat) + (s.gov.die d).scale * s.unscaled d t

/-- The largest planned power of a die over a span of time. -/
def State.plannedPeak (s : State) (d a b : Nat) : Rat :=
  (s.placed.flatMap (fun p => p.2.startsIn (s.gov.level d) d a b)).foldl (fun m t => max m (s.planned d t)) (s.planned d a)

/-- The mean planned module input over a span, in W. -/
def State.plannedMean (s : State) (a b : Nat) : Rat :=
  (List.range 4).foldl (fun acc d =>
    let sum : Nat := (s.placed.map (fun p => p.2.drawOver (s.gov.level d) d a b)).foldl (· + ·) 0
    acc + ((Config.dieBaseW : Nat) : Rat) + (s.gov.die d).scale * ((sum : Rat) / (4 * (b - a) : Nat))) 100

def clampRat (lo hi x : Rat) : Rat := max lo (min hi x)

/-- The reconciliation factor of a die over its window of measured and planned draws above the base share, in 0.25 W
(R458): unchanged while the planned draw is below 10 W. -/
def reconcile (old : Rat) (w : List (Nat × Nat)) : Rat :=
  let m : Nat := (w.map Prod.fst).foldl (· + ·) 0
  let p : Nat := (w.map Prod.snd).foldl (· + ·) 0
  if p < 40 * w.length ∨ p = 0 then old else clampRat (4 / 5) (5 / 4) ((m : Rat) / (p : Nat))

/-! ### The plant model and the control law (R455, R459) -/

/-- kc(u), in K/W. -/
def Plant.kc (p : Plant) (u : Rat) : Rat := ((p.kcmin : Nat) + ((p.kcmax : Rat) - (p.kcmin : Nat)) * (1 - u)) / 1000

/-- r of a die at effort u, in K/W. -/
def Plant.r (p : Plant) (d : Nat) (u : Rat) : Rat :=
  let x := p.dies.getD d ⟨0, 0, 0⟩
  ((x.rmin : Nat) + ((x.rmax : Rat) - (x.rmin : Nat)) * (1 - u)) / 1000

/-- A measured junction temperature in °C. -/
def GovDie.tj (x : GovDie) : Rat := (x.tjMeas : Rat) / 8

/-- The inlet temperature in °C. -/
def Governor.inlet (g : Governor) : Rat := (g.tIn : Rat) / 16

/-- One step of the model with Δt of 1 ms and the effort of the period before; at the first control period tj_pred takes
the measured values. `pin` is the measured input in W. -/
def Governor.predict (g : Governor) (p : Plant) (pin : Rat) : Governor :=
  let ul := g.uLag + (g.effort - g.uLag) / (p.tauA : Nat)
  let pf := g.pInF + (pin - g.pInF) / (p.tauC : Nat)
  let ref := g.inlet + p.kc ul * pf
  let g' := { g with uLag := ul, pInF := pf, started := true }
  (List.range 4).foldl (fun a d =>
    let x := a.die d
    let tau : Nat := (p.dies.getD d ⟨0, 0, 1⟩).tau
    a.setDie d { x with tjPred := if g.started then x.tjPred + (ref + p.r d ul * ((x.pMeas : Rat) / 4) - x.tjPred) / tau else x.tj }) g'

/-- The difference between measurement and model of a die, without its sign. -/
def GovDie.off (x : GovDie) : Rat := let e := x.tj - x.tjPred; if e < 0 then -e else e

/-- The smallest k/255 that holds the target of a die at the coming power; 1 if none does (R459). -/
def feedForward (p : Plant) (d : Nat) (tin pin pd target : Rat) : Rat :=
  match (List.range 256).find? (fun (k : Nat) =>
    let u : Rat := (k : Rat) / 255
    decide (tin + p.kc u * pin + p.r d u * pd ≤ target)) with
  | some k => (k : Rat) / 255
  | none => 1

/-- REFRESH_X2 is set on a channel of die `d` (08_far R226, R215). -/
def State.dieHot (s : State) (d : Nat) : Bool := (List.range 24).any (fun i => (s.chan (24 * d + i)).refreshX2)

/-- The control law of a period that begins at `t`, in half nanoseconds (R459). A faulty thermistor holds the effort at 1
in AIR and COLDPLATE (R453). -/
def State.law (s : State) (t : Nat) : State :=
  let p := s.site.plant
  let ahead := (List.range 4).map (fun d => s.plannedPeak d t (t + 2000000 * p.tauA))
  let pin := ahead.foldl (· + ·) 100
  let target : Rat := (s.site.tjTarget : Nat)
  let ff := (List.range 4).foldl (fun m d =>
    max m (feedForward p d s.gov.inlet pin (ahead.getD d 0) target + (if s.dieHot d then 1 / 10 else 0))) 0
  let e := (List.range 3).foldl (fun m d => max m ((s.gov.die (d + 1)).tj - target)) ((s.gov.die 0).tj - target)
  let i := s.gov.trim
  let raw := ff + e / 50 + i
  let lim : Rat × Rat := if s.gov.wide then (-1, 1) else (-1 / 5, 1 / 2)
  let i' := if 0 < raw ∧ raw < 1 then clampRat lim.1 lim.2 (i + e / 2000) else i
  let u := if s.gov.thermFault ∧ s.site.cls ≠ 2 then 1 else clampRat 0 1 (ff + e / 50 + i')
  s.modGov (fun g => { g with uff := ff, trim := i', effort := u })

/-- The outputs that the effort drives (R452, R453). -/
def State.outputs (s : State) : State :=
  let x := s.site
  let a := x.acts
  let u := s.gov.effort
  let span := fun (lo : Nat) => roundReg 100 ((lo : Rat) + ((100 : Rat) - (lo : Nat)) * u)
  let faulty := (List.range 6).any (fun f => (s.gov.fan f).fault)
  let duty := fun (f : Nat) =>
    if !bitOf a.fanMask f || x.cls == 2 then 0
    else if faulty && !(s.gov.fan f).fault then 100
    else if x.cls = 0 then span a.fanMin else a.fanMin
  let demand := if x.cls ≠ 1 then 0 else if s.gov.flowFault then 100 else span a.demandMin
  s.modGov (fun g => { g with
    fans := (List.range 6).map (fun f => (f, { g.fan f with duty := duty f }))
    pump := if a.pumpEn then demand else 0, valve := if a.valveEn then demand else 0 })

/-! ### Events (R466) -/

/-- A THERMAL record: at most one for each reason in 100 ms, and none while the Governor does not run or the main rails
are down. -/
def State.thermal (s : State) (reason die value : Nat) : State :=
  let due := match tblFind reason s.gov.said with | none => true | some t => decide (t + 100000000 ≤ s.now)
  if due && s.pci.running.contains 3 && s.power.rails then
    (s.modGov (fun g => { g with said := tblSet reason s.now g.said })).event 2
      (reason % 16 + 2 ^ 4 * (die % 8) + 2 ^ 16 * (value % 65536) + 2 ^ 32 * (s.now / 1000000 % 2 ^ 32))
  else s

/-- A record of no die whose value the manual does not give: it is free (assumption 42). -/
def State.thermalFree (s : State) (reason : Nat) : State :=
  let r := s.draw
  r.2.thermal reason 7 (Config.freeRecord r.1 % 65536)

/-! ### Levels for power (R443, R444, R448) -/

/-- A die's draw above its base share at another level, in W. -/
def drawScaled (meas : Rat) (was now : Nat) : Rat := meas * (16 + was : Nat) / (16 + now : Nat)

/-- The levels that the Governor weighs: for each die its own level, its effective level as measured, the other levels'
bound, and its measured and planned draw above the base share, in W. -/
structure Weigh where
  own : Nat
  was : Nat
  floor : Nat
  meas : Rat
  plan : Rat

def Weigh.draw (w : Weigh) : Rat := drawScaled w.meas w.was (max w.own w.floor)

/-- The predicted load, in W, from the measured one. -/
def predicted (load : Rat) (ws : List Weigh) : Rat := ws.foldl (fun a w => a - (w.meas - w.draw)) load

/-- The die to raise: below level 15, the one whose draw most exceeds its plan, the lower number on a tie. -/
def raiseWhich (ws : List Weigh) : Option Nat :=
  ((List.range ws.length).zip ws).foldl (fun (b : Option Nat) (p : Nat × Weigh) =>
    if p.2.own ≥ 15 then b
    else match b with
      | none => some p.1
      | some i => match ws[i]? with
        | some w => if w.draw - w.plan < p.2.draw - p.2.plan then some p.1 else b
        | none => some p.1) none

def bump1 (ws : List Weigh) (i : Nat) (f : Nat → Nat) : List Weigh :=
  ((List.range ws.length).zip ws).map (fun (p : Nat × Weigh) => if p.1 = i then { p.2 with own := f p.2.own } else p.2)

/-- Raises one level at a time until the predicted load meets the limit; at most 60 steps are possible. -/
def raiseLevels (load limit : Rat) : Nat → List Weigh → List Weigh × List Nat
  | 0, ws => (ws, [])
  | n + 1, ws =>
    if predicted load ws ≤ limit then (ws, [])
    else match raiseWhich ws with
      | none => (ws, [])
      | some i => let r := raiseLevels load limit n (bump1 ws i (· + 1)); (r.1, i :: r.2)

/-- Lowers each die by at most one level, as long as the predicted load stays within the limit. -/
def lowerLevels (load limit : Rat) (ws : List Weigh) : List Weigh :=
  (List.range ws.length).foldl (fun a i =>
    let b := bump1 a i (fun k => k - 1)
    if predicted load b ≤ limit then b else a) ws

/-! ### Registers (R462 to R464) -/

def Governor.statusWord (g : Governor) (cls : Nat) : Nat :=
  cls + 2 ^ 2 * boolN g.excursion + 2 ^ 3 * boolN g.inputLimit + 2 ^ 4 * boolN g.mismatch + 2 ^ 5 * boolN g.running
  + (List.range 4).foldl (fun a d => a + 2 ^ (8 + d) * boolN (g.die d).trip) 0
  + 2 ^ 12 * boolN g.tripHub + 2 ^ 13 * boolN g.tripBus

def GovTrip.word (t : GovTrip) : Nat :=
  boolN t.t105 + 2 * boolN t.bus42 + 4 * boolN t.shutdown + 8 * boolN t.shutBus + 16 * t.shutDie + 2 ^ 16 * t.t105Count

/-- TJ_MEAS and TJ_PRED of a die. -/
def GovDie.tjWord (x : GovDie) : Nat := x.tjMeas % 4096 + 2 ^ 16 * roundReg 4095 (8 * x.tjPred)

def int16 (x : Int) : Nat := (x % 65536).toNat

def Forecast.word (f : Forecast) (j : Nat) : Nat := f.entries.getD (2 * j) 0 % 65536 + 2 ^ 16 * (f.entries.getD (2 * j + 1) 0 % 65536)

/-- The 4-byte register at an offset of BAR0 0x080_0000; reserved offsets read 0. -/
def State.govWord (s : State) (o : Nat) : Nat :=
  let g := s.gov
  if o = 0x000 then g.statusWord s.site.cls
  else if o = 0x004 then g.stagedSust + 2 ^ 16 * g.stagedExc
  else if o = 0x00C then g.pIn + 2 ^ 16 * g.vBus
  else if o = 0x010 then g.vIn + 2 ^ 16 * g.iIn
  else if o = 0x014 then g.eBuf + 2 ^ 16 * g.excLeft
  else if o = 0x018 then g.breach
  else if 0x040 ≤ o ∧ o < 0x080 then
    let d := (o - 0x40) / 16
    let x := g.die d
    if o % 16 = 0 then x.pMeas + 2 ^ 16 * x.pPlan
    else if o % 16 = 4 then x.tjWord
    else if o % 16 = 8 then g.level d + 2 ^ 4 * x.govLevel + 2 ^ 8 * x.stretchMin
    else roundReg 65535 (1024 * x.scale)
  else if o = 0x080 then g.hubTj
  else if o = 0x090 then roundReg 255 (255 * g.effort) + 2 ^ 8 * roundReg 255 (255 * g.uff) + 2 ^ 16 * g.pump + 2 ^ 24 * g.valve
  else if o = 0x094 then int16 g.tIn + 2 ^ 16 * int16 g.tOut
  else if o = 0x098 then
    g.flow + (List.range 6).foldl (fun a f => a + 2 ^ (16 + f) * boolN (g.fan f).fault) 0 + 2 ^ 22 * boolN g.flowFault
      + 2 ^ 23 * boolN g.thermFault
  else if 0x0A0 ≤ o ∧ o < 0x0B8 then let f := g.fan ((o - 0xA0) / 4); f.rpm + 2 ^ 16 * f.duty
  else if o = 0x100 then g.forecast.seq
  else if o = 0x104 then g.forecast.t0
  else if o = 0x108 then g.forecast.pNow
  else if 0x110 ≤ o ∧ o < 0x150 then g.forecast.word ((o - 0x110) / 4)
  else if o = 0x200 then g.trips.word
  else 0

end Sys2Proof.Machine
end

