-- ==== Sys2Proof/Machine/RemovalOps.lean ====
section
/-!
DEFINITION. The steps of a removal that several commands share (18_clocks_reset R504, R508 to R510; 15_haul_twin R428).
-/

namespace Sys2Proof.Machine

/-- Contexts that are not yet READY, FREE or DEAD. -/
def State.remaining (s : State) : Nat :=
  (s.ctxs.filter (fun p => p.2.state == .placed || p.2.state == .suspended || p.2.state == .killing)).length

/-- REMAINING (R504): while DRAINING. -/
def State.remainingReg (s : State) : Nat := if s.resets.remove = .draining then s.remaining else 0

/-- REMOVE_STATE changes, or a removal is cancelled: the REMOVAL record (R510). -/
def State.removal (s : State) (st : RemoveState) (cancelled : Bool) : State :=
  let s := { s with resets := { s.resets with remove := st, cancelled := s.resets.cancelled || cancelled } }
  s.event 5 (st.code + 2 ^ 3 * boolN cancelled + 2 ^ 16 * s.remainingReg + 2 ^ 32 * (s.now / 1000000 % 2 ^ 32))

/-- Steps 2 and 3: the copy stops, HELLO with the departing flag leaves by the path there is, and draining begins. -/
def State.depart (s : State) : State :=
  let w := s.links.twin
  let s := s.modTwin (fun t => { t with copy := none, departSent := true })
  let s := if !w.enable then s
    else if (s.port twinPort).state = .up then s.sendTwin (s.helloBody true)
    else s.sendFrame w.slot (s.helloBody true)
  let s := { s with resets := { s.resets with remove := .draining, drainSince := s.now } }
  let s := s.holdAll
  let s := s.ctxs.foldl (fun t p => if p.2.state = .suspended then t.killWith p.1 { cause := .killRequest } else t) s
  s.removal .draining false

/-- Step 1 begins; a module whose twin is disabled or not PAIRED passes steps 1 and 2 at once, and so does one that has no
copy running. -/
def State.startRemoval (s : State) : State :=
  let s := s.modTwin (fun t => { t with departing := true })
  let s := ({ s with resets := { s.resets with drainSince := s.now } } : State).removal .settling false
  if s.links.twin.pair ≠ .paired ∨ s.links.twin.copy.isNone then s.depart else s

/-- The Foreman, Banksman and Governor run. -/
def State.manned (s : State) : Bool := [1, 2, 3].all (fun c => s.pci.running.contains c)

/-- A request is acted on once the Foreman, Banksman and Governor run (R508). -/
def State.removalWaits (s : State) : State :=
  if s.resets.removeReq && s.resets.remove == .none && s.manned then s.startRemoval else s

end Sys2Proof.Machine
end

