-- ==== Sys2Proof/Machine/SiteOps.lean ====
section
/-!
DEFINITION. The site image: validity, records, effective values, and the site's status words (17_site_trust R467 to R479;
16_governor R439, R454, R455; 08_far R244).
-/

namespace Sys2Proof.Machine

/-! ### Copies and records (R469 to R472) -/

/-- The records of a copy in order: type and value; none when one runs past the end (R470). -/
def siteRecords : Nat → List Byte → Option (List (Nat × List Byte))
  | _, [] => some []
  | 0, _ => none
  | fuel + 1, bs =>
    let n := leAt bs 2 2
    let size := 4 + cdiv n 4 * 4
    if bs.length < size then none
    else (siteRecords fuel (bs.drop size)).map (fun r => (leAt bs 0 2, (bs.drop 4).take n) :: r)

/-- The types of R474. -/
def siteTypes : List Nat := [0x01, 0x10, 0x11, 0x12, 0x13, 0x14, 0x20, 0x21, 0x22, 0x23, 0x24, 0x25, 0x26]

/-- The records that count, the first of each known type, and how many are ignored (R470). -/
def siteUseful : List (Nat × List Byte) → List Nat → Tbl (List Byte) × Nat
  | [], _ => ([], 0)
  | (t, v) :: rest, seen =>
    if siteTypes.contains t && !seen.contains t then
      let r := siteUseful rest (t :: seen)
      ((t, v) :: r.1, r.2)
    else let r := siteUseful rest seen; (r.1, r.2 + 1)

/-- The first failure of a copy, 0 when it is valid (R471, R477): header, records, key, signature, in the order of R471. -/
def siteFail (t : Trust) (img : List Byte) : Nat :=
  let len := leAt img 8 4
  let slot := tblGet ({} : OwnerSlot) t.owners (leAt img 6 1)
  if leAt img 0 4 ≠ 0x45544953 ∨ leAt img 4 2 ≠ 1 then 2
  else if leAt img 7 1 ≠ 0 ∨ leAt img 0x10 16 ≠ 0 ∨ len < 1060 ∨ len > 65536 ∨ len % 4 ≠ 0 ∨ img.length < len then 3
  else
    match siteRecords 16384 ((img.drop 0x20).take (len - 512 - 0x20)) with
    | some ((0x01, key) :: _) =>
      if key.length ≠ 512 then 6
      else if slot.state ≠ .active ∨ slot.hash ≠ Config.sha512 key then 4
      else if Config.sigOk key (img.take (len - 512)) ((img.drop (len - 512)).take 512) then 0
      else 5
    | _ => 6

/-! ### Effective values (R475) -/

/-- A field of a record: none when the record is absent or too short to supply it. -/
def siteField (rs : Tbl (List Byte)) (t off n : Nat) : Option Nat :=
  match tblFind t rs with
  | none => none
  | some v => if off + n ≤ v.length then some (leAt v off n) else none

/-- An effective value and whether it counts as clamped: only supplied values count. -/
def siteClamp (x : Option Nat) (dflt lo hi : Nat) : Nat × Nat :=
  let v := max lo (min hi (x.getD dflt))
  (v, match x with | some y => boolN (y != v) | none => 0)

/-- A supplied value whose reserved encodings take the default. -/
def siteLegal (x : Option Nat) (dflt : Nat) (ok : Nat → Bool) : Nat × Nat :=
  match x with
  | none => (dflt, 0)
  | some y => if ok y then (y, 0) else (dflt, 1)

/-- Sustained ceilings of the classes (R438). -/
def classMax (cls : Nat) : Nat := if cls = 0 then 1100 else 1600

/-- The identity lane order. -/
def laneIdentity : Nat := 0xFAC688

/-- The lane order of a port with `n` lanes: a set that is no permutation of the port's lanes takes the identity; the
fields of lanes that the port does not have are ignored (R475). -/
def laneOrder (n : Nat) (w : Nat) : Nat × Nat :=
  let xs := (List.range n).map (fun i => bitsOf w (3 * i + 2) (3 * i))
  let perm := (List.range n).all (fun l => xs.contains l)
  if perm then ((List.range 8).foldl (fun a i => a + 8 ^ i * (if i < n then xs.getD i 0 else i)) 0, 0) else (laneIdentity, 1)

/-- The lane settings of port `p`. -/
def siteLanes (rs : Tbl (List Byte)) (p : Nat) : LaneCfg × Nat :=
  match siteField rs 0x22 (4 + 8 * p) 8 with
  | none => ({}, 0)
  | some w =>
    let n := if p = 16 then 8 else 4
    let tx := laneOrder n (bitsOf w 39 16)
    let rx := laneOrder n (bitsOf w 63 40)
    ({ txPol := bitsOf w 7 0 % 2 ^ n, rxPol := bitsOf w 15 8 % 2 ^ n, txOrder := tx.1, rxOrder := rx.1 }, tx.2 + rx.2)

/-- The width limit (14_host R376). -/
def widthClamp (w : Nat) : Nat := if w ≤ 1 then 1 else if w ≤ 2 then 2 else if w ≤ 4 then 4 else if w ≤ 8 then 8 else 16

/-- Every effective value of an image's records. -/
structure SiteVals where
  site : Site
  node : Nat
  twinSlot : Nat
  twinEn : Bool
  haulEn : Nat
  waitUs : Nat
  localUnits : Nat
  defaultLocal : Bool

/-- The effective values of a list of records (R475; 16_governor R439, R454, R455; 08_far R244). -/
def siteValues (base : Site) (pins : Nat) (rs : Tbl (List Byte)) : SiteVals :=
  let f := siteField rs
  let cls := siteLegal (f 0x10 0 1) 0 (fun x => decide (x ≤ 2))
  let imm := cls.1 == 2
  let sust := siteClamp (f 0x11 0 2) (classMax cls.1) 600 (classMax cls.1)
  let exc := if imm then siteClamp (f 0x11 2 2) 1900 sust.1 1900 else siteClamp (f 0x11 2 2) 0 0 0
  let ms := if imm ∧ exc.1 ≠ sust.1 then siteClamp (f 0x11 4 2) 250 0 250 else siteClamp (f 0x11 4 2) 0 0 0
  let ramp := siteClamp (f 0x12 0 1) 20 1 40
  let tj := siteClamp (f 0x12 1 1) 85 60 95
  let ppr := siteClamp (f 0x13 1 1) 2 1 4
  let fanMin := siteClamp (f 0x13 2 1) 20 0 100
  let demMin := siteClamp (f 0x13 3 1) 20 0 100
  let flags := (f 0x13 4 1).getD 3
  let ppl := siteClamp (f 0x13 6 2) 1000 1 65535
  let pd := Plant.default cls.1
  let dies := (List.range 4).map (fun d =>
    let q := pd.dies.getD d ⟨0, 0, 0⟩
    let lo := siteClamp (f 0x14 (8 * d) 2) q.rmin 10 2000
    let hi := siteClamp (f 0x14 (8 * d + 2) 2) q.rmax lo.1 2000
    let ta := siteClamp (f 0x14 (8 * d + 4) 2) q.tau 10 10000
    (({ rmin := lo.1, rmax := hi.1, tau := ta.1 } : DiePlant), lo.2 + hi.2 + ta.2))
  let kl := siteClamp (f 0x14 32 2) pd.kcmin 0 200
  let kh := siteClamp (f 0x14 34 2) pd.kcmax kl.1 200
  let tc := siteClamp (f 0x14 36 4) pd.tauC 100 600000
  let ta := siteClamp (f 0x14 40 2) pd.tauA 10 10000
  let node := siteLegal (f 0x20 0 2) (pins % 64) (fun x => x != 0xFFFF)
  let slot := (f 0x21 0 2).getD 0
  let ten := siteClamp (f 0x21 2 1) 0 0 1
  let lanes := (List.range 17).map (siteLanes rs)
  let width := match f 0x23 0 1 with | none => (16, 0) | some w => (widthClamp w, boolN (widthClamp w != w))
  let gen := siteClamp (f 0x23 1 1) 6 1 6
  let smb := siteLegal ((f 0x24 0 1).map (fun x => x % 128)) 0x5A (fun x => decide (8 ≤ x) && decide (x < 0x78))
  let wait := match f 0x25 0 4 with | some 0 => (2000000, 1) | w => siteClamp w 2000000 1 10000000
  let lu := siteClamp (f 0x26 0 1) 4 0 31
  let dl := siteClamp (f 0x26 1 1) 0 0 1
  let clamped := [cls.2, sust.2, exc.2, ms.2, ramp.2, tj.2, ppr.2, fanMin.2, demMin.2, ppl.2, kl.2, kh.2, tc.2, ta.2, node.2, ten.2
                  , width.2, gen.2, smb.2, wait.2, lu.2, dl.2] ++ dies.map Prod.snd ++ lanes.map Prod.snd
  { site := { base with
      clamped := min 255 (clamped.foldl (· + ·) 0)
      cls := cls.1, sustW := sust.1, excW := exc.1, excMs := ms.1, ramp := ramp.1, tjTarget := tj.1
      acts := { fanMask := (f 0x13 0 1).getD 0x3F % 64, tachPpr := ppr.1 - 1, fanMin := fanMin.1, demandMin := demMin.1
                pumpEn := bitOf flags 0, valveEn := bitOf flags 1, fanFaultRpm := (f 0x13 5 1).getD 10, flowPpl := ppl.1
                flowMin := (f 0x13 8 2).getD 500 }
      plant := { dies := dies.map Prod.fst, kcmin := kl.1, kcmax := kh.1, tauC := tc.1, tauA := ta.1 }
      lanes := (List.range 17).zip (lanes.map Prod.fst)
      pcieWidth := width.1, pcieGen := gen.1, smbusAddr := smb.1 }
    node := node.1, twinSlot := slot, twinEn := ten.1 == 1 && slot != node.1 && slot != 0xFFFF
    haulEn := (f 0x22 0 4).getD 0 % 2 ^ 17, waitUs := wait.1, localUnits := lu.1, defaultLocal := dl.1 == 1 && lu.1 != 0 }

/-- The values of an unsited module (R473): AIR at 600 W, twin and haul ports disabled, the node id of the pins. -/
def unsitedValues (base : Site) (pins : Nat) : SiteVals :=
  let v := siteValues base pins []
  { v with site := { v.site with sustW := 600 } }

/-- The Gatekeeper's choice between the copies (R472): 0, 1, or 2 for none. -/
def siteChoice (a b : List Byte) (fa fb : Nat) : Nat :=
  if fa = 0 ∧ fb = 0 then (if leAt b 0x0C 4 > leAt a 0x0C 4 then 1 else 0)
  else if fa = 0 then 0 else if fb = 0 then 1 else 2

/-! ### Status words (R477, R495) -/

/-- SITE_STATUS. -/
def Site.statusWord (x : Site) : Nat :=
  x.source + 2 ^ 2 * boolN x.locked + 2 ^ 3 * boolN x.copy0 + 2 ^ 4 * boolN x.copy1 + 2 ^ 5 * x.fail0 + 2 ^ 8 * x.fail1
  + 2 ^ 11 * x.keySlot + 2 ^ 16 * x.unknown + 2 ^ 24 * x.clamped

/-- TRUST_STATUS. -/
def Trust.statusWord (t : Trust) : Nat :=
  let owners := fun (st : OwnerState) => (List.range 4).foldl (fun a k => a + 2 ^ k * boolN ((tblGet ({} : OwnerSlot) t.owners k).state == st)) 0
  t.running + 2 ^ 2 * boolN t.fallback + 2 ^ 3 * boolN t.a.valid + 2 ^ 4 * boolN t.b.valid + 2 ^ 5 * t.rollback
  + 2 ^ 16 * owners .active + 2 ^ 20 * owners .revoked

/-! ### Applying (R476) -/

/-- The ports that the site image enables begin to train (15_haul_twin R402). -/
def State.enablePorts (s : State) (mask : Nat) : State :=
  (List.range 17).foldl (fun t p =>
    let on := bitOf mask p
    (t.setPort p { t.port p with enable := on }).portState p (if on then .training else .disabled)) s

/-- The effective values of a chosen image take effect, and the other control cores start (R476). -/
def State.applySite (s : State) (v : SiteVals) : State :=
  let w := s.links.twin
  let s := { s with
    site := { v.site with locked := true }
    waitUs := v.waitUs
    far := { s.far with localUnits := v.localUnits, defaultLocal := v.defaultLocal }
    links := { s.links with node := v.node
                            twin := { w with slot := v.twinSlot, enable := v.twinEn, pair := if v.twinEn then .searching else .disabled } }
    gov := { s.gov with stagedSust := v.site.sustW, stagedExc := v.site.excW, sustW := v.site.sustW, excW := v.site.excW
                        excLeft := v.site.excMs }
    pci := { s.pci with running := if s.trust.running = 3 then s.pci.running else [0, 1, 2, 3] } }
  (s.enablePorts v.haulEn).fwUpdate.removalWaits

end Sys2Proof.Machine
end

