-- ==== Sys2Proof/Machine/Trust.lean ====
section
/-!
DEFINITION. Firmware slots, owner keys, attestation, the Gatekeeper's requests and the SMBus target (17_site_trust R476,
R480 to R495).
-/

namespace Sys2Proof.Machine

def State.modTrust (s : State) (f : Trust → Trust) : State := { s with trust := f s.trust }

/-! ### Firmware packages (R482 to R484) -/

def Trust.slot (t : Trust) (i : Nat) : FwSlot := if i = 0 then t.a else t.b
def Trust.setSlot (t : Trust) (i : Nat) (x : FwSlot) : Trust := if i = 0 then { t with a := x } else { t with b := x }

/-- Bytes of a slot from `off` on: what was written over what the factory left. -/
def Trust.slotBytes (t : Trust) (i off n : Nat) : List Byte :=
  (List.range n).map (fun k => (tblFind (off + k) (t.slot i).bytes).getD (Config.factoryFlash i (off + k)))

/-- What a check of a package finds. -/
inductive FwCheck where
  | valid (version rollback length : Nat)
  | badSig
  | badRollback
  deriving DecidableEq, Repr

/-- Checks the package of a slot (R482). -/
def Trust.check (t : Trust) (i : Nat) : FwCheck :=
  let h := t.slotBytes i 0 0x220
  let len := leAt h 0x10 4
  let rb := leAt h 0x0C 4
  let signer := (h.drop 0x20).take 512
  let key := Config.sha512 signer
  if leAt h 0 4 ≠ 0x57464755 ∨ leAt h 4 2 ≠ 1 ∨ leAt h 6 2 ≠ steppingLe ∨ len < 2048 ∨ len > 16777216 ∨ leAt h 0x14 12 ≠ 0
      ∨ rb > 63 ∨ (key ≠ Config.romKey 0 ∧ key ≠ Config.romKey 1) then .badSig
  else if !Config.sigOk signer (t.slotBytes i 0 (len - 512)) (t.slotBytes i (len - 512) 512) then .badSig
  else if rb < t.rollback then .badRollback
  else .valid (leAt h 8 4) rb len

/-- A slot after a check. -/
def FwSlot.found (x : FwSlot) : FwCheck → FwSlot
  | .valid v r l => { x with valid := true, version := v, rollback := r, length := l }
  | _ => { x with valid := false, version := 0, rollback := 0, length := 0 }

/-- The boot ROM checks both slots and boots the valid package with the larger VERSION, slot A when they are equal; with
none the ROM itself serves channel 0 (R483). -/
def Trust.boot (t : Trust) : Trust :=
  let t := (t.setSlot 0 (t.a.found (t.check 0))).setSlot 1 (t.b.found (t.check 1))
  let pick := if t.a.valid && (!t.b.valid || decide (t.a.version ≥ t.b.version)) then 0 else if t.b.valid then 1 else 3
  { t with running := pick, version := if pick = 0 then t.a.version else if pick = 1 then t.b.version else 0
           fallback := false, restarted := false, update := none }

/-- A FIRMWARE event record (R492). -/
def fwData (reason slot value : Nat) : Nat := reason + 2 ^ 4 * slot + 2 ^ 32 * value

/-- FALLBACK (R484): the ROM restarts once from the other slot, if that slot is valid; otherwise only the Gatekeeper's
channel is served, and the module reaches FW_STATE 2. -/
def execFallback (s : State) : Out :=
  let t := s.trust
  if t.running = 3 then .next s
  else
    let other := 1 - t.running
    if (t.slot other).valid && !t.restarted then
      let s := s.modTrust (fun t => { t with running := other, version := (t.slot other).version, fallback := true, restarted := true })
      .next ({ s with dbg := { s.dbg with held := s.dbg.held ++ [(7, fwData 2 other (t.slot other).version)] } } : State).flushHeld
    else
      .next (((s.modTrust (fun t => { t with running := 3, version := 0 })).modPci (fun p => { p with running := [0] })))

/-! ### Applying the site image (R472, R473, R476) -/

/-- SITE_IMAGE_APPLY (R476): the copies as read from the NVM; `readsB` tells whether SFDP reports room for copy 1. -/
def execSiteImageApply (copyA copyB : List Byte) (readsB : Bool) (s : State) : Out :=
  if s.site.locked ∨ !s.pci.running.contains 0 then .next s
  else
    let fa := siteFail s.trust copyA
    let fb := if readsB then siteFail s.trust copyB else 1
    let pick := siteChoice copyA copyB fa fb
    let img := if pick = 0 then copyA else copyB
    let base : Site := { slotPins := s.site.slotPins, source := pick, copy0 := fa == 0, copy1 := fb == 0, fail0 := fa, fail1 := fb }
    if pick = 2 then .next (s.applySite (unsitedValues base s.site.slotPins))
    else
      let len := leAt img 8 4
      let rs := siteUseful ((siteRecords 16384 ((img.drop 0x20).take (len - 512 - 0x20))).getD []) []
      let base := { base with keySlot := leAt img 6 1, unknown := min 255 rs.2, seq := leAt img 0x0C 4, image := img.take len }
      .next (s.applySite (siteValues base s.site.slotPins rs.1))

/-! ### Requests of channel 0 (R489, R490) -/

/-- The statuses of R489. -/
def gBusy : Nat := 1
def gState : Nat := 2
def gArg : Nat := 3
def gSig : Nat := 4
def gRollback : Nat := 5

/-- The trust buffer of the port that a request came through (R490). -/
def Trust.buf (t : Trust) (sender : Nat) : Mem := if sender = 1 then t.smbusBuf else t.hostBuf
def Trust.setBuf (t : Trust) (sender : Nat) (m : Mem) : Trust := if sender = 1 then { t with smbusBuf := m } else { t with hostBuf := m }

/-- FW_BEGIN (R485): the erased header reads as ones. -/
def execFwBegin (s : State) : Out :=
  onRequest s 0 0x10 (fun ref m t =>
    let i := m.arg 1
    if i > 1 then t.reply ref gArg []
    else if i = t.trust.running then t.reply ref gState []
    else if t.trust.update.isSome then t.reply ref gBusy []
    else
      let x := t.trust.slot i
      let erased := (List.range 0x220).foldl (fun b k => tblSet k (0xFF : Byte) b) x.bytes
      (t.modTrust (fun u => { u.setSlot i ({ x with bytes := erased }.found .badSig) with update := some i })).reply ref 0 [])

/-- FW_DATA (R485). -/
def execFwData (s : State) : Out :=
  onRequest s 0 0x11 (fun ref m t =>
    let off := m.arg 1
    let n := m.arg 2
    match t.trust.update with
    | none => t.reply ref gArg []
    | some i =>
      if n = 0 ∨ n > 4096 ∨ off + n > 16777216 then t.reply ref gArg []
      else
        let bs := memReadN (t.trust.buf ref.sender) 0 n
        let x := t.trust.slot i
        let bytes := ((List.range n).zip bs).foldl (fun b p => tblSet (off + p.1) p.2 b) x.bytes
        (t.modTrust (fun u => u.setSlot i { x with bytes := bytes })).reply ref 0 [])

/-- FW_END (R485, R492): the whole package is verified, and the update is closed. -/
def execFwEnd (s : State) : Out :=
  onRequest s 0 0x12 (fun ref _ t =>
    match t.trust.update with
    | none => t.reply ref gState []
    | some i =>
      let c := t.trust.check i
      let t := t.modTrust (fun u => { u.setSlot i ((u.slot i).found c) with update := none })
      match c with
      | .valid v r _ => (t.event 7 (fwData 0 i v)).reply ref 0 [v, r]
      | .badSig => (t.event 7 (fwData 1 i 0)).reply ref gSig []
      | .badRollback => (t.event 7 (fwData 1 i 0)).reply ref gRollback [])

/-- FW_COMMIT (R486): the rollback counter rises to that of the running package, and never falls. -/
def execFwCommit (s : State) : Out :=
  onRequest s 0 0x13 (fun ref _ t =>
    let u := t.trust
    let r := if u.running = 3 then 0 else (u.slot u.running).rollback
    if r > u.rollback then
      let drop := fun (x : FwSlot) => if x.valid && decide (x.rollback < r) then x.found .badRollback else x
      let t := t.modTrust (fun u => { u with rollback := r, a := drop u.a, b := drop u.b })
      (t.event 7 (fwData 3 u.running r)).reply ref 0 [r]
    else t.reply ref 0 [u.rollback])

/-- An owner statement in the requester's buffer is well formed and for this module (R481). -/
def ownerFormOk (b : List Byte) (op : Nat) : Bool :=
  leAt b 0 4 == 0x4B4E574F && leAt b 4 1 == op && decide (leAt b 5 1 < 4) && leAt b 6 2 == 0 && (b.drop 8).take 12 == Config.serial
  && leAt b 0x14 12 == 0 && (op == 1 || leAt b 0x20 64 == 0)

/-- The statement is signed by the ACTIVE key of a slot other than the target (R481). -/
def Trust.ownerSigned (t : Trust) (b : List Byte) (target : Nat) : Bool :=
  let key := (b.drop 0x260).take 512
  (List.range 4).any (fun k => k != target && (tblGet ({} : OwnerSlot) t.owners k).state == .active
      && (tblGet ({} : OwnerSlot) t.owners k).hash == Config.sha512 key)
  && Config.sigOk key (b.take 0x60) ((b.drop 0x60).take 512)

/-- OWNER_PROGRAM and OWNER_REVOKE (R480, R481). The state of the target is checked before the signature, or the last ACTIVE
slot could never be refused with E_STATE (assumption 41). -/
def ownerRequest (code op : Nat) (s : State) : Out :=
  onRequest s 0 code (fun ref _ t =>
    let u := t.trust
    let b := memReadN (u.buf ref.sender) 0 0x460
    let k := leAt b 5 1
    let own := fun j => tblGet ({} : OwnerSlot) u.owners j
    let actives := ((List.range 4).filter (fun j => (own j).state == .active)).length
    let allEmpty := (List.range 4).all (fun j => (own j).state == .empty)
    if !ownerFormOk b op then t.reply ref gArg []
    else if (own k).state ≠ (if op = 1 then OwnerState.empty else .active) ∨ (op = 2 ∧ actives ≤ 1) then t.reply ref gState []
    else if !(op == 1 && allEmpty) && !u.ownerSigned b k then t.reply ref gSig []
    else
      let x : OwnerSlot := if op = 1 then { state := .active, hash := (b.drop 0x20).take 64 } else { own k with state := .revoked }
      ((t.modTrust (fun u => { u with owners := tblSet k x u.owners })).event 7 (fwData (if op = 1 then 4 else 5) 0 k)).reply ref 0 [])

/-- OWNER_PROGRAM (R481). -/
def execOwnerProgram (s : State) : Out := ownerRequest 0x20 1 s
/-- OWNER_REVOKE (R481). -/
def execOwnerRevoke (s : State) : Out := ownerRequest 0x21 2 s

/-- The mason's mark block (R493). -/
def markBlock : List Byte := (List.range 256).map Config.markByte ++ (List.range 64).map (fun i => dressDigest.getD i 0)

/-- A measurement: 64 bytes of a digest. -/
def digest64 (bs : List Byte) : List Byte := let d := Config.sha512 bs; (List.range 64).map (fun i => d.getD i 0)
def zeros (n : Nat) : List Byte := List.replicate n 0

/-- The signed part of the attestation report (R488). -/
def State.attestBody (s : State) (nonce : List Byte) : List Byte :=
  let t := s.trust
  let rom := t.running = 3
  let unsited := s.site.source = 2
  leBytes 4 0x52545441 ++ leBytes 2 1 ++ leBytes 2 steppingLe ++ Config.serial ++ leBytes 1 s.site.source
  ++ leBytes 1 (if unsited then 0xFF else s.site.keySlot) ++ leBytes 1 (if rom then 0xFF else t.running) ++ zeros 1
  ++ leBytes 4 t.version ++ leBytes 4 t.rollback ++ leBytes 8 s.now ++ zeros 24 ++ nonce
  ++ (if rom then zeros 64 else digest64 (t.slotBytes t.running 0 (t.slot t.running).length))
  ++ (if unsited then zeros 64 else digest64 s.site.image)
  ++ (List.range 64).map (fun i => dressDigest.getD i 0) ++ digest64 markBlock

/-- ATTEST (R488): the report and its signature, which is free (assumption 21), replace bytes 0 to 0x37F of the buffer. -/
def execAttest (s : State) : Out :=
  onRequest s 0 0x40 (fun ref _ t =>
    let body := t.attestBody (memReadN (t.trust.buf ref.sender) 0 64)
    let sig := Config.freeSignature body
    (t.modTrust (fun u => u.setBuf ref.sender (memWriteN (u.buf ref.sender) 0 (body ++ (List.range 512).map (fun i => sig.getD i 0))))).reply ref 0 [])

/-- GET_CERT (R487): the certificate's bytes, which are free (assumption 21), go to the buffer. -/
def execGetCert (s : State) : Out :=
  onRequest s 0 0x41 (fun ref m t =>
    if m.arg 1 > 2 then t.reply ref gArg []
    else
      let der := (Config.freeCert (m.arg 1)).take 4096
      (t.modTrust (fun u => u.setBuf ref.sender (memWriteN (u.buf ref.sender) 0 der))).reply ref 0 [der.length])

/-- The dressing map as BAR0 shows it from 0x0E0_0400 to 0x0E0_09FF, gap included (R494). -/
def dressBlock : List Byte :=
  (List.range 64).map (fun i => BitVec.ofNat 8 (Config.dressColumn i)) ++ zeros 192 ++ (List.range 1280).map Config.dressCore

/-- GET_MARK (R489): the mark block, then the dressing map at offset 0x400 as BAR0 lays it out. -/
def execGetMark (s : State) : Out :=
  onRequest s 0 0x42 (fun ref _ t =>
    (t.modTrust (fun u => u.setBuf ref.sender (memWriteN (memWriteN (u.buf ref.sender) 0 markBlock) 0x400 dressBlock))).reply ref 0 [])

/-- GET_TRUST (R489). -/
def execGetTrust (s : State) : Out :=
  onRequest s 0 0x43 (fun ref _ t => t.reply ref 0 [t.site.statusWord, t.site.seq, t.trust.statusWord])

/-! ### The SMBus target (R491) -/

/-- A transaction with a wrong Packet Error Code is discarded; commands other than STATUS need the Gatekeeper or the ROM. -/
def onSmbus (pecOk : Bool) (s : State) (f : State → State) : Out :=
  if pecOk ∧ s.power.standby ∧ s.pci.running.contains 0 then .next (f s) else .next s

/-- MB_SEND (R491): a channel above 3 is clamped to 3. -/
def execMbSend (pecOk : Bool) (channel : Nat) (words : List W32) (s : State) : Out :=
  onSmbus pecOk s (fun s => s.mailIn (min channel 3) 1 ((List.range 16).map (fun i => words.getD i 0)))

/-- A stamp word (14_host R389). -/
def MailMsg.stamp (m : MailMsg) : Nat := m.sender + 2 ^ 16 * m.seq

/-- MB_RECV (R491): count 0, or the stamp and 16 words of the oldest SMBUS reply, which the read removes. -/
def execMbRecv (pecOk : Bool) (channel : Nat) (s : State) : Out :=
  if channel < 4 then
    onSmbus pecOk s (fun s =>
      match tblGet [] (s.pci.chan channel).replies 1 with
      | [] => s.modTrust (fun t => { t with smbusOut := [] })
      | m :: rest =>
        (s.modChan channel (fun c => { c with replies := tblSet 1 rest c.replies })).modTrust
          (fun t => { t with smbusOut := leBytes 4 m.stamp ++ m.words.flatMap (fun w => leBytes 4 w.toNat) }))
  else .fault .noSuchUnit

/-- BUF_SEEK (R491). -/
def execBufSeek (pecOk : Bool) (offset : Nat) (s : State) : Out :=
  onSmbus pecOk s (fun s => s.modTrust (fun t => { t with seek := min 4064 (offset / 32 * 32) }))

def Trust.seekOn (t : Trust) : Trust := { t with seek := if t.seek + 32 > 4064 then 0 else t.seek + 32 }

/-- BUF_READ (R491). -/
def execBufRead (pecOk : Bool) (s : State) : Out :=
  onSmbus pecOk s (fun s => s.modTrust (fun t => ({ t with smbusOut := memReadN t.smbusBuf t.seek 32 } : Trust).seekOn))

/-- BUF_WRITE (R491): 1 to 32 bytes. -/
def execBufWrite (pecOk : Bool) (data : List Byte) (s : State) : Out :=
  onSmbus pecOk s (fun s =>
    if data = [] ∨ data.length > 32 then s
    else s.modTrust (fun t => ({ t with smbusBuf := memWriteN t.smbusBuf t.seek data } : Trust).seekOn))

/-- STATUS (R491): answered from standby power on. -/
def execStatus (pecOk : Bool) (s : State) : Out :=
  if pecOk ∧ s.power.standby then
    .next (s.modTrust (fun t => { t with smbusOut := leBytes 2 (s.pci.fw.code + 2 ^ 2 * s.site.source + 2 ^ 4 * boolN s.site.locked + 2 ^ 5 * boolN t.fallback) }))
  else .next s

end Sys2Proof.Machine
end

