-- ==== Sys2Proof/Machine/Resets.lean ====
section
/-!
DEFINITION. Resets, power-up, power events, removal, and the far memory controllers' own work (14_host R397; 18_clocks_reset
R500 to R511; 20_electrical R538 to R540; 08_far R223, R226, R229, R557).
-/

namespace Sys2Proof.Machine

/-! ### The function reset (R397) -/

/-- Step 1: HOST requests and replies are discarded, and a HOST request under way loses its reply; an open firmware update
ends (17_site_trust R485). -/
def State.dropHost (s : State) : State :=
  let lost := fun (r : ReqRef) => if r.sender = 0 then { r with sender := 6 } else r
  let s := s.modPci (fun p => { p with chans := p.chans.map (fun c =>
    (c.1, { c.2 with inbound := c.2.inbound.filter (fun m => m.sender != 0), replies := tblDrop 0 c.2.replies, args := [] })) })
  let s := { s with ctxs := s.ctxs.map (fun (p : Nat × Ctx) => (p.1, { p.2 with pendWins := p.2.pendWins.map (fun (w : PendWin) => { w with req := lost w.req }) })) }
  (s.modTwin (fun t => { t with restore := t.restore.map (fun (r : Restore) => { r with req := lost r.req }) })).modTrust (fun t => { t with update := none })

/-- Outstanding host-window requests of a core end as completion timeouts, which a kill ignores (R368). -/
def Core.endHost (k : Core) : Core :=
  let recs := fun (rs : List MvRec) => rs.map (fun r => { r with reqs := r.reqs.filter (fun q => decide (q.src < hostBase) || q.data.isSome) })
  { k with fc := { k.fc with misses := k.fc.misses.filter (fun m => decide (128 * m.line < hostBase)) }
           mv0 := { k.mv0 with recs := recs k.mv0.recs }, mv1 := { k.mv1 with recs := recs k.mv1.recs } }

/-- Step 2: every living context is killed, and will be FREE; context 0 holds no bench and leaves at once. -/
def State.killAll (s : State) : State :=
  let s := s.ctxs.foldl (fun t p =>
    let x := s.ctx p.1
    if x.state = .free ∨ x.state = .dead then t
    else if p.1 = 0 then ((x.windows.foldl (fun t w => t.windowOut w.2) t).freeCtx 0)
    else
      let t := t.modCtx p.1 (fun y => { y with toFree := true })
      let t := if x.state = .killing then t else t.killWith p.1 { cause := .killRequest }
      (t.held p.1).foldl (fun t n => t.modCore n Core.endHost) t) s
  ({ s with fman := { s.fman with forget := true }
            ctxs := s.ctxs.filter (fun (p : Nat × Ctx) => (s.ctx p.1).state != .dead) } : State).forgetTables

/-- Step 3: BARs, MSI-X, event queue, doorbells and HOST_ERR return to their reset values. -/
def HostPort.clear (p : HostPort) : HostPort :=
  { p with err := {}, origin := 0, msix := [], pba := [], evq := {}, dbPend := 0, dbMask := [(1, 3), (2, 8), (3, 4)], completion := none }

def State.functionReset (s : State) (kind : ResetKind) : State :=
  let s := (s.dropHost.killAll).modPci HostPort.clear
  { s with resets := { s.resets with last := kind } }

/-- FUNCTION_RESET (R397). -/
def execFunctionReset (s : State) : Out := .next (s.functionReset .function)

/-- PERST_ASSERT (R397, R502): the function reset, and the link goes down. -/
def execPerstAssert (s : State) : Out :=
  if s.pci.perst then .next s
  else .next ((s.functionReset .perst).modPci (fun p => { p with perst := true, speed := 0, width := 0, flit := false }))

/-! ### Cold and warm resets (R502, R503, R505, R506) -/

/-- What the boot ROM starts: the Gatekeeper, or the ROM in its place (17_site_trust R483). -/
def State.bootRom (s : State) : State :=
  (s.modTrust Trust.boot).modPci (fun p => { p with running := [0] })

/-- COLD_RESET (R502, R505, R506): standby power becomes good. OTP, flash, host memory, the pins and GOV_TRIP are what
they were; everything else is at its reset value; the boot ROM runs, and bus precharge begins at an input of 48 V or
more. -/
def execColdReset (slotPins : Nat) (s : State) : Out :=
  let z := State.reset
  let t := s.trust
  let own : FwSlot → FwSlot := fun x => { bytes := x.bytes }
  let r : State := { z with
    pending := s.pending, host := s.host, draws := s.draws
    trust := { z.trust with owners := t.owners, rollback := t.rollback, a := own t.a, b := own t.b }
    gov := { z.gov with trips := s.gov.trips }
    pci := { z.pci with perst := s.pci.perst }
    site := { z.site with slotPins := slotPins % 64 }
    power := { standby := true, inputCv := s.power.inputCv, stage := decide (4800 ≤ s.power.inputCv) && decide (s.power.inputCv ≤ 5900) }
    resets := { last := .cold, priorShutdown := s.gov.trips.shutdown, removeReq := s.resets.removeReq } }
  .next r.bootRom

/-- A core after a warm reset: what its self-test found and its trace settings stay (R502; 19_debug_test R522, R533). -/
def Core.warm (k : Core) : Core :=
  { stFail := k.stFail, stUnit := k.stUnit, stWhere := k.stWhere
    me := { degraded := k.me.degraded, badCol := k.me.badCol }
    dbg := { trace := k.dbg.trace, traceStaged := k.dbg.traceStaged, badBase := k.dbg.badBase, traceHead := k.dbg.traceHead
             traceTail := k.dbg.traceTail } }

/-- Links after a warm reset: ports that the site image enables train again; tables and sets are gone (R502, R503). -/
def Links.warm (l : Links) : Links :=
  { node := l.node
    ports := l.ports.map (fun p => (p.1, { enable := p.2.enable, state := if p.2.enable then .training else .disabled }))
    twin := { enable := l.twin.enable, slot := l.twin.slot, pair := if l.twin.enable then .searching else .disabled } }

/-- Far memory after a warm reset: contents and training stay; the counters count from the last module reset (08_far
R246). -/
def FarMem.warm (f : FarMem) : FarMem :=
  { f with chans := f.chans.map (fun c => (c.1, { trained := c.2.trained, refreshX2 := c.2.refreshX2 })) }

/-- The Governor after a warm reset: trips and ceilings of the site stay, everything else starts afresh. -/
def Governor.warm (g : Governor) (x : Site) : Governor :=
  { trips := g.trips, tripHub := g.tripHub, tripBus := g.tripBus, stagedSust := x.sustW, stagedExc := x.excW, sustW := x.sustW
    excW := x.excW, excLeft := x.excMs, breach := g.breach, dies := g.dies.map (fun d => (d.1, { trip := d.2.trip })) }

/-- The hub's debug units after a warm reset: the self-test's results and held records stay. -/
def HubDebug.warm (d : HubDebug) : HubDebug :=
  { traces := d.traces.map (fun t => (t.1, { t.2 with frozen := false })), stDone := d.stDone, stPass := d.stPass, stFailed := d.stFailed
    bridgeFail := d.bridgeFail, degraded := d.degraded, held := d.held }

/-- WARM_RESET (R503, R504): the kills of step 1 end before the dies are reset. -/
def State.warmReset (s : State) : State :=
  let s := s.functionReset .warm
  let s := (s.ctxs.filter (fun p => p.2.killing)).foldl (fun t p => t.killFinish p.1) s
  let t := s.trust
  let s : State := { s with
    dies := [], cores := s.cores.map (fun k => (k.1, k.2.warm)), net := {}, hub := {}, ctxs := [], fman := {}
    links := s.links.warm, far := s.far.warm, gov := s.gov.warm s.site, dbg := s.dbg.warm
    trust := { t with hostBuf := [], smbusBuf := [], seek := 0, smbusOut := [] }
    pci := { s.pci with fw := .starting, speed := 0, width := 0, flit := false, chans := [], ready := false, dbStray := 0 }
    resets := { s.resets with warmCount := satAdd 255 s.resets.warmCount 1, remove := .none, cancelled := false } }
  let s := s.bootRom
  let s := if s.trust.running = 3 then s else s.modPci (fun p => { p with running := [0, 1, 2, 3] })
  s.fwUpdate.removalWaits

/-- WARM_RESET: a write of RST_CTRL with the key (R504). -/
def execWarmReset (key : Nat) (warm : Bool) (s : State) : Out := if key = 0x5752 ∧ warm then .next s.warmReset else .next s

/-- BUS_PRECHARGE_DONE (R505, R506): the bus is at 50.0 V and the main rails are up; the bounds of R388 then run from here
(R507). -/
def execBusPrechargeDone (s : State) : Out :=
  if s.power.standby ∧ s.power.stage ∧ !s.power.rails ∧ !s.power.latched ∧ s.resets.remove ≠ .safe then
    let s := { s with power := { s.power with rails := true } }
    .next (if s.pci.perst then s else s.modPci (fun p => { p with perstSince := s.now }))
  else .next s

/-- DIE_RESET_RELEASE (R506). -/
def execDieResetRelease (die : Nat) (s : State) : Out :=
  if die < 4 then
    if s.power.rails ∧ !(tblGet ({} : Die) s.dies die).released then
      .next ({ s with dies := tblSet die { released := true } s.dies } : State).applyLevels
    else .next s
  else .fault .noSuchUnit

/-- FAR_MEMORY_READY (R388, R557): training is complete and, after a cold reset, every block holds zero. -/
def execFarMemoryReady (s : State) : Out :=
  if s.power.rails ∧ !s.pci.perst ∧ s.pci.running.contains 1 ∧ !s.pci.ready then
    let fresh := !(s.far.chans.any (fun c => c.2.trained))
    let far := { s.far with chans := (List.range 96).map (fun ch => (ch, { s.chan ch with trained := true }))
                            mem := if fresh then [] else s.far.mem, bad := if fresh then [] else s.far.bad }
    .next ((({ s with far := far } : State).modPci (fun p => { p with ready := true })).bump 0)
  else .next s

/-- TIME_BASE_CORRECTION (R500): 1 µs after the last correction the copies of the dies in operation stand anew; where, is
free within the 5 ns by which any two may differ (assumption 40). -/
def execTimeBaseCorrection (s : State) : Out :=
  if s.half < s.corrected + 2000 then .next s
  else
    let base : Int := (Config.freeSkew s.draws % 11 : Nat) - 10
    .next { s with
      corrected := s.half, draws := s.draws + 5
      dies := (List.range 4).foldl (fun t d =>
        let x := tblGet ({} : Die) t d
        if x.released then tblSet d { x with skew := base + (Config.freeSkew (s.draws + 1 + d) % 11 : Nat) } t else t) s.dies }

/-! ### Input and standby power (R505, R538, R540) -/

/-- INPUT_APPLIED (R505, R538): the input reaches 48 V on standby power. -/
def execInputApplied (cv : Nat) (s : State) : Out :=
  let p := { s.power with inputCv := cv }
  .next { s with power := if cv ≥ 4800 ∧ cv ≤ 5900 ∧ p.standby ∧ !p.latched ∧ s.resets.remove ≠ .safe then { p with stage := true } else p }

/-- INPUT_OVERVOLTAGE (R538): above 59.0 V the input stage turns off. -/
def execInputOvervoltage (cv : Nat) (s : State) : Out :=
  if cv > 5900 then .next { s with power := { s.power with inputCv := cv, stage := false } } else .next s

/-- INPUT_RESTART (R538): below 58.0 V for 1 ms. -/
def execInputRestart (cv : Nat) (s : State) : Out :=
  if 4800 ≤ cv ∧ cv < 5800 ∧ s.power.standby ∧ !s.power.latched ∧ s.resets.remove ≠ .safe then
    .next { s with power := { s.power with inputCv := cv, stage := true } }
  else .next s

/-- INPUT_LOSS (R538, R539): below 46.0 V in service. -/
def execInputLoss (cv : Nat) (s : State) : Out :=
  if cv < 4600 then .next { s with power := { s.power with inputCv := cv, stage := false } } else .next s

/-- AUX_POWER_LOSS (R540): every rail falls and GOV_TRIP is lost; OTP, flash and host memory stay. -/
def execAuxPowerLoss (s : State) : Out :=
  let z := State.reset
  let t := s.trust
  let own : FwSlot → FwSlot := fun x => { bytes := x.bytes }
  .next { z with
    pending := s.pending, host := s.host, draws := s.draws
    trust := { z.trust with owners := t.owners, rollback := t.rollback, a := own t.a, b := own t.b }
    pci := { z.pci with perst := s.pci.perst }
    power := { inputCv := s.power.inputCv }
    resets := { removeReq := s.resets.removeReq } }

/-! ### Removal (R508 to R510; 15_haul_twin R428) -/

/-- REMOVE_REQ (R508): acted on once the Foreman, Banksman and Governor run. -/
def execRemoveReq (now : Nat) (s : State) : Out :=
  let s := s.advanceTo now
  let s := { s with resets := { s.resets with removeReq := true } }
  .next s.removalWaits

/-- REMOVAL_SETTLE_TIMEOUT (R428): step 1 ends: after 2 s, or once the copy has settled or PAIR is not PAIRED. -/
def execRemovalSettleTimeout (now : Nat) (s : State) : Out :=
  let s := s.advanceTo now
  if s.resets.remove = .settling ∧ (s.now ≥ s.resets.drainSince + 2000000000 ∨ s.links.twin.copy.isNone ∨ s.links.twin.pair ≠ .paired) then
    .next s.depart
  else .next s

/-- REMOVAL_DRAIN_TIMEOUT (R508, step 4): 10 s after draining began. -/
def execRemovalDrainTimeout (now : Nat) (s : State) : Out :=
  let s := s.advanceTo now
  if s.resets.remove = .draining ∧ s.now ≥ s.resets.drainSince + 10000000000 then
    .next (s.ctxs.foldl (fun t p => if p.2.state = .placed then t.killWith p.1 { cause := .killRequest } else t) s)
  else .next s

/-- REMOVAL_SAFE (R508, step 5): transmitters idle, input stage off, the record, then the link down. -/
def execRemovalSafe (now : Nat) (s : State) : Out :=
  let s := s.advanceTo now
  if s.resets.remove = .draining ∧ s.remaining = 0 then
    let s := (List.range 17).foldl (fun t p => if (t.port p).enable then (t.setPort p (t.port p).discard).portState p .down else t) s
    let s := { s with power := { s.power with stage := false } }
    .next ((s.removal .safe false).modPci (fun p => { p with speed := 0, width := 0, flit := false }))
  else .next s

/-- REMOVE_CANCEL (R509): before step 2 the removal is cancelled; from step 2 on it goes on. -/
def execRemoveCancel (now : Nat) (s : State) : Out :=
  let s := s.advanceTo now
  let s := { s with resets := { s.resets with removeReq := false } }
  if s.resets.remove = .settling then .next ((s.modTwin (fun t => { t with departing := false })).removal .none true) else .next s

/-! ### Far memory controllers (08_far R223, R226, R229) -/

/-- SCRUB (R223, R224): the controller reads a block of its channel, data or check region; the check words of a data block are met
with their own block. -/
def execScrub (channel block : Nat) (s : State) : Out :=
  if channel < 96 ∧ block < 2 ^ 27 then
    if (s.chan channel).trained then .next (s.meetBlock (2 ^ 27 * channel + block) true).1 else .next s
  else .fault .noSuchUnit

/-- REFRESH_RATE_POLL (R226): the four channels of a controller. -/
def execRefreshRatePoll (controller : Nat) (hot : Bool) (s : State) : Out :=
  if controller < 24 then
    .next ((List.range 4).foldl (fun t i => t.setChan (4 * controller + i) { t.chan (4 * controller + i) with refreshX2 := hot }) s)
  else .fault .noSuchUnit

/-- WCK_RETUNE (R229): the pause of a channel begins or ends. -/
def execWckRetune (channel : Nat) (running : Bool) (s : State) : Out :=
  if channel < 96 then .next (s.setChan channel { s.chan channel with retune := running }) else .fault .noSuchUnit

end Sys2Proof.Machine
end

