-- ==== Sys2Proof/Machine/Governor.lean ====
section
/-!
DEFINITION. The Governor's commands: the control period, faults of sensors and actuators, the forecast, ceilings, trips and
the shutdown (16_governor R438 to R466).
-/

namespace Sys2Proof.Machine

/-! ### A control period (R457) -/

/-- A staged ceiling that was committed comes into force (R440, R462). -/
def State.ceilings (s : State) : State :=
  match s.gov.commit with
  | none => s
  | some c => (s.modGov (fun g => { g with commit := none, sustW := c.1, excW := c.2 })).thermal 10 7 c.1

/-- What is sampled in every period: powers, voltages, junction temperatures (R451). -/
def State.sampleFast (s : State) (x : Samples) : State :=
  s.modGov (fun g =>
    let g := { g with
      pIn := roundReg 65535 ((x.vIn * x.iIn : Nat) / 2500), vBus := x.vBus % 65536, vIn := x.vIn % 65536, iIn := x.iIn % 65536
      eBuf := roundReg 65535 (((x.vBus * x.vBus - 4200 * 4200) * 87 : Nat) / 100000), hubTj := x.hubTj % 4096 }
    (List.range 4).foldl (fun (g : Governor) d => g.setDie d { g.die d with
      pMeas := x.rail.getD d 0 % 65536, tjMeas := x.tj.getD d 0 % 4096, minNow := (g.die d).stretchMin }) g)

/-- A fan's reading: what the fan fault and its recovery of 10 s count (R453). -/
def GovFan.read (f : GovFan) (fitted : Bool) (thresh rpm now : Nat) : GovFan :=
  let f := { f with rpm := rpm % 65536 }
  let f := { f with low := if fitted && decide (rpm < thresh) && decide (30 ≤ f.duty) then some (f.low.getD now) else none
                    good := if f.fault && decide (thresh ≤ rpm) then some (f.good.getD now) else none }
  match f.good with
  | some t => if t + 10000000000 ≤ now then { f with fault := false, good := none } else f
  | none => f

/-- What is sampled every 100 ms: thermistors, flow, tachometers (R451, R453). -/
def State.sampleSlow (s : State) (x : Samples) : State :=
  let a := s.site.acts
  let now := s.now
  let bad := x.tIn.isNone || x.tOut.isNone
  let first := bad && !s.gov.thermFault
  let s := s.modGov (fun g =>
    let low := s.site.cls == 1 && decide (x.flow < a.flowMin) && decide (30 ≤ max g.pump g.valve)
    { g with
      slowAt := some now, tIn := x.tIn.getD 800, tOut := x.tOut.getD 800, thermFault := bad
      flow := x.flow % 65536, flowLow := if low then some (g.flowLow.getD now) else none
      flowFault := g.flowFault && decide (x.flow < a.flowMin)
      fans := (List.range 6).map (fun f => (f, (g.fan f).read (bitOf a.fanMask f) (100 * a.fanFaultRpm) (x.rpm.getD f 0) now)) })
  if first then s.thermal 5 7 400 else s

/-- Plans, model and law of a period (R455, R458 to R460). -/
def State.think (s : State) (x : Samples) : State :=
  let t := s.half
  let s := s.modGov (fun g => (List.range 4).foldl (fun (g : Governor) d =>
    let y := g.die d
    let w := (((y.pMeas - 4 * Config.dieBaseW), roundReg 65535 (4 * s.unscaled d t)) :: y.window).take 100
    g.setDie d { y with window := w, scale := reconcile y.scale w }) g)
  let s := s.modGov (fun g => (List.range 4).foldl (fun (g : Governor) d =>
    g.setDie d { g.die d with pPlan := roundReg 65535 (4 * s.planned d t) }) g)
  let s := s.modGov (fun g => g.predict s.site.plant ((x.vIn * x.iIn : Nat) / 10000))
  let offs := (List.range 4).map (fun d => (s.gov.die d).off)
  let s := s.modGov (fun g => { g with
    badRun := if offs.any (fun o => decide (8 < o)) then g.badRun + 1 else 0
    goodRun := if offs.all (fun o => decide (o < 4)) then g.goodRun + 1 else 0 })
  (s.law t).outputs

/-- P_cap in W: 31 A at the input voltage, or the sustained ceiling in force (R441). -/
def Governor.pCap (g : Governor) : Rat := min (g.sustW : Rat) (((31 * g.vIn : Nat) : Rat) / 100)

/-- The excursion's count and the limit of the load in this period: EXC_W while an excursion may go on, P_cap otherwise;
whether the period cuts, and whether it stretches (R443, R444). -/
def State.excursionStep (s : State) (load : Rat) : State × Rat × Bool × Bool :=
  let g := s.gov
  let cap := g.pCap
  let able := s.site.cls == 2 && s.site.excMs != 0
  let inExc := able && decide (cap < load)
  let back := decide (5000 ≤ g.vBus)
  let left := if inExc then g.excLeft - 1 else if back then s.site.excMs else g.excLeft
  let cutNow := inExc && (left == 0 || decide ((g.excW : Rat) < load) || decide (g.vBus < 4250))
  let cut := cutNow || (g.cut && !back)
  let s := s.modGov (fun g => { g with excursion := inExc, excLeft := left, cut := cut })
  let limit := if able ∧ !cut then max cap (g.excW : Rat) else cap
  let act := if inExc then cut else decide (cap * (51 / 50) < load) || decide (g.vBus < 4800)
  (s, limit, cut, act)

/-- The Governor's own levels for power (R447, R448). -/
def State.stretch (s : State) (load : Rat) : State :=
  let r := s.excursionStep load
  let s := r.1
  let ws := (List.range 4).map (fun d =>
    let y := s.gov.die d
    ({ own := y.govLevel, was := s.gov.level d, floor := max (s.gov.tripLevel d) y.minNow
       meas := max 0 ((y.pMeas : Rat) / 4 - ((Config.dieBaseW : Nat) : Rat)), plan := s.planned d s.half - ((Config.dieBaseW : Nat) : Rat) } : Weigh))
  let up := if r.2.2.2 then raiseLevels load r.2.1 60 ws else (ws, [])
  let fin := if up.2.isEmpty then lowerLevels load r.2.1 ws else up.1
  let s := s.modGov (fun g => (List.range 4).foldl (fun (g : Governor) d =>
    g.setDie d { g.die d with govLevel := (fin.map Weigh.own).getD d 0 }) g)
  match up.2 with
  | [] => s
  | d :: _ => s.thermal (if r.2.2.1 then 8 else 7) d (roundReg 65535 load)

/-- INPUT_LIMIT (R442): an input below 51.6 V. -/
def State.inputLimit (s : State) : State :=
  let low := decide (s.gov.vIn < 5160)
  let t := s.modGov (fun g => { g with inputLimit := low })
  if low && !s.gov.inputLimit then t.thermal 9 7 (31 * s.gov.vIn / 100) else t

/-- Publishes the heat forecast (R461): with no bench placed, every entry is the measured input. -/
def State.publish (s : State) : State :=
  let ms := 2000000
  let now := roundReg 65535 ((s.gov.pIn : Rat) / 4)
  let t0 := s.half / ms
  let entry := fun (k : Nat) =>
    if s.placed.isEmpty then now else roundReg 65535 (s.plannedMean (ms * (t0 + 50 * k)) (ms * (t0 + 50 * (k + 1))))
  s.modGov (fun g => { g with forecast := {
    seq := (g.forecast.seq + 2) % 2 ^ 32, t0 := t0 % 2 ^ 32, pNow := now, entries := (List.range 32).map entry } })

/-- CONTROL_PERIOD (R457): a millisecond after the one before, while the Governor's firmware runs. A period after doorbell
SENSE samples everything, publishes, and clears the bit (R451, R461; 14_host R395). -/
def execControlPeriod (now : Nat) (x : Samples) (s : State) : Out :=
  let s := s.advanceTo now
  let due := match s.gov.periodAt with | none => true | some t => decide (t + 1000000 ≤ s.now)
  if !due ∨ !s.pci.running.contains 3 then .next s
  else
    let slow := s.gov.sense || (match s.gov.slowAt with | none => true | some t => decide (t + 100000000 ≤ s.now))
    let load : Rat := (x.meanLoad : Rat) / 4
    let s := (s.modGov (fun g => { g with periodAt := some s.now, running := true })).ceilings
    let s := s.sampleFast x
    let s := if slow then s.sampleSlow x else s
    let s := ((s.inputLimit.think x).stretch load).applyLevels
    let s := if s.gov.sense then
        (s.publish.modGov (fun g => { g with sense := false })).modPci (fun p => { p with dbPend := p.dbPend &&& ~~~(4 : W32) })
      else s
    let s := s.hubCount 7 2 1
    .next (if (List.range 4).any (fun d => decide (0 < s.gov.level d)) then s.hubCount 7 3 1 else s)

/-! ### Faults of fans, flow and model (R453, R460) -/

/-- FAN_FAULT (R453). -/
def execFanFault (fan now : Nat) (s : State) : Out :=
  let s := s.advanceTo now
  if fan < 6 then
    match (s.gov.fan fan).low with
    | some t =>
      if t + 2000000000 ≤ s.now ∧ !(s.gov.fan fan).fault ∧ s.pci.running.contains 3 then
        let s := s.modGov (fun g => { g with fans := tblSet fan { g.fan fan with fault := true, good := none } g.fans })
        .next (s.outputs.thermalFree 3)
      else .next s
    | none => .next s
  else .fault .noSuchUnit

/-- FLOW_FAULT (R453): it does not stretch. -/
def execFlowFault (now : Nat) (s : State) : Out :=
  let s := s.advanceTo now
  match s.gov.flowLow with
  | some t =>
    if t + 1000000000 ≤ s.now ∧ !s.gov.flowFault ∧ s.pci.running.contains 3 then
      .next ((s.modGov (fun g => { g with flowFault := true })).outputs.thermalFree 4)
    else .next s
  | none => .next s

/-- MODEL_MISMATCH (R460): after 200 consecutive periods with an error above 8 K. -/
def execModelMismatch (now : Nat) (s : State) : Out :=
  let s := s.advanceTo now
  if s.gov.badRun ≥ 200 ∧ s.pci.running.contains 3 then
    let worst := (List.range 4).foldl (fun (b : Nat) d => if (s.gov.die b).off < (s.gov.die d).off then d else b) 0
    let v := (s.gov.die worst).tjMeas
    let s := s.modGov (fun g => { g with mismatch := true, wide := true, badRun := 0, goodRun := 0 })
    let s := s.thermal 6 worst v
    .next (s.modGov (fun g => (List.range 4).foldl (fun (g : Governor) d => g.setDie d { g.die d with tjPred := (g.die d).tj }) g))
  else .next s

/-- MODEL_MISMATCH_CLEAR (R460): the error has been below 4 K on every die for 10 s of periods. -/
def execModelMismatchClear (s : State) : Out :=
  if s.gov.mismatch ∧ s.gov.goodRun ≥ 10000 ∧ s.pci.running.contains 3 then .next (s.modGov (fun g => { g with mismatch := false, wide := false }))
  else .next s

/-- FORECAST_PUBLISH (R461): every 10 ms. -/
def execForecastPublish (now : Nat) (s : State) : Out :=
  let s := s.advanceTo now
  let due := match s.gov.pubAt with | none => true | some t => decide (t + 10000000 ≤ s.now)
  if due && s.pci.running.contains 3 then .next (s.publish.modGov (fun g => { g with pubAt := some s.now })) else .next s

/-- CEILING_COMMIT: writing 1 to COMMIT commits both ceilings for the next control period (R462). -/
def State.commitCeilings (s : State) : State := s.modGov (fun g => { g with commit := some (g.stagedSust, g.stagedExc) })
def execCeilingCommit (s : State) : Out := .next s.commitCeilings

/-! ### Trips and the shutdown (R449, R450) -/

/-- TRIP_105 (R449): die 4 is the hub; a sensor at or above 105 °C. -/
def execTripHot (die eighths now : Nat) (s : State) : Out :=
  let s := s.advanceTo now
  if die < 5 then
    let held := if die = 4 then s.gov.tripHub else (s.gov.die die).trip
    if eighths < 840 ∨ held ∨ !s.power.rails then .next s
    else
      let s := s.modGov (fun g =>
        let g := { g with trips := { g.trips with t105 := true, t105Count := satAdd 0xFFFF g.trips.t105Count 1 } }
        if die = 4 then { g with tripHub := true } else g.setDie die { g.die die with trip := true })
      .next ((s.applyLevels.hubCount 7 4 1).thermal 0 die eighths)
  else .fault .noSuchUnit

/-- TRIP_105_RELEASE (R449): every sensor has read below 100 °C for 10 ms. -/
def execTripHotRelease (die eighths now : Nat) (s : State) : Out :=
  let s := s.advanceTo now
  if die < 5 then
    let held := if die = 4 then s.gov.tripHub else (s.gov.die die).trip
    if 800 ≤ eighths ∨ !held then .next s
    else
      let s := s.modGov (fun g => if die = 4 then { g with tripHub := false } else g.setDie die { g.die die with trip := false })
      .next (s.applyLevels.thermal 1 die eighths)
  else .fault .noSuchUnit

/-- BUS_TRIP (R449): the bus at or below 42.0 V. -/
def execBusTrip (cv now : Nat) (s : State) : Out :=
  let s := s.advanceTo now
  if cv ≤ 4200 ∧ !s.gov.tripBus ∧ s.power.rails then
    let s := s.modGov (fun g => { g with tripBus := true, trips := { g.trips with bus42 := true } })
    .next ((s.applyLevels.hubCount 7 4 1).thermalFree 2)
  else .next s

/-- BUS_TRIP_RELEASE (R449): the bus at or above 45.0 V. -/
def execBusTripRelease (cv : Nat) (s : State) : Out :=
  if 4500 ≤ cv ∧ s.gov.tripBus then .next (s.modGov (fun g => { g with tripBus := false })).applyLevels else .next s

/-- Every rail but standby falls (R450): cores, hub fabric, far memory, ports and the PCI Express link are at their reset
values; contexts and what is in flight are gone; the Gatekeeper and the Governor keep running. -/
def State.railsDown (s : State) : State :=
  let z := State.reset
  let t := s.links.twin
  { s with
    dies := [], cores := [], net := {}, hub := {}, ctxs := [], fman := {}, rings := [], dbg := {}
    far := { localUnits := s.far.localUnits, defaultLocal := s.far.defaultLocal }
    links := { node := s.links.node, twin := { slot := t.slot, enable := t.enable, pair := if t.enable then .searching else .disabled } }
    pci := { z.pci with perst := s.pci.perst, perstSince := s.pci.perstSince, running := s.pci.running.filter (fun c => c = 0 ∨ c = 3) }
    power := { s.power with stage := false, rails := false } }

/-- SHUTDOWN (R449, R450): a sensor at or above 115 °C, of die 0 to 3 or 4 for the hub, or the bus at or below 38.0 V. -/
def execShutdown (bus : Bool) (die reading : Nat) (s : State) : Out :=
  if die < 5 then
    if (if bus then 3800 < reading else reading < 920) ∨ s.power.latched ∨ !s.power.rails then .next s
    else
      let s := s.railsDown
      .next { s with
        power := { s.power with latched := true }
        gov := { s.gov with trips := { s.gov.trips with shutdown := true, shutBus := bus, shutDie := if bus then 0 else die } } }
  else .fault .noSuchUnit

/-- BREACH (R441): at 52.0 V the input stage cuts its current regardless of the ramp. -/
def execBreach (cv : Nat) (s : State) : Out :=
  if 5200 ≤ cv then .next (s.modGov (fun g => { g with breach := satAdd 0xFFFFFFFF g.breach 1 })) else .next s

/-! ### Requests of channel 3 (R465) -/

/-- GET_STATUS. -/
def execGetStatus (s : State) : Out :=
  onRequest s 3 0x40 (fun ref _ t =>
    t.reply ref 0 ([0x000, 0x00C, 0x010, 0x014, 0x044, 0x054, 0x064, 0x074, 0x080, 0x200].map t.govWord))

/-- GET_FORECAST. -/
def execGetForecast (s : State) : Out :=
  onRequest s 3 0x41 (fun ref m t =>
    let h := m.arg 1
    if h > 1 then t.reply ref 3 []
    else t.reply ref 0 ([0x100, 0x104, 0x108].map t.govWord ++ (List.range 8).map (fun j => t.govWord (0x110 + 4 * (8 * h + j)))))

end Sys2Proof.Machine
end

