-- ==== Sys2Proof/Machine/Regs.lean ====
section
/-!
DEFINITION. What the host reads through BAR0: every register, the query table, and what the module's outputs show. Offsets
are BAR0's (14_host R380); each function gives 4-byte words, and an offset that no register occupies reads 0.
-/

namespace Sys2Proof.Machine

def lo32 (x : Nat) : Nat := x % 2 ^ 32
def hi32 (x : Nat) : Nat := x / 2 ^ 32 % 2 ^ 32
/-- Word 0 or 1 of a 64-bit value. -/
def half64 (x i : Nat) : Nat := if i = 0 then lo32 x else hi32 x

/-! ### The query table (13_contexts R373, R374; 15_haul_twin R433) -/

/-- The context that holds a core while PLACED or SUSPENDED; 0xFFFF for none. -/
def State.ownerOf (s : State) (n : Nat) : Nat :=
  match (s.core n).ctx with
  | some c => if (s.ctx c).state = .placed ∨ (s.ctx c).state = .suspended then c else 0xFFFF
  | none => 0xFFFF

/-- An entry of the query table. -/
def State.ctxWord (s : State) (c i : Nat) : Nat :=
  let x := s.ctx c
  let used := (x.blocks.map Block.size).foldl (· + ·) 0
  let us := (x.placedNs + (if x.state = .placed then s.now - x.placedAt else 0)) / 1000
  if i = 0 then lo32 x.seq
  else if i = 1 then
    x.state.code + 2 ^ 8 * (boolN x.preserve + 2 * boolN x.local_ + 4 * boolN x.hold + 8 * boolN x.yielding) + 2 ^ 16 * x.placeCode
  else if i = 2 then x.events
  else if i = 3 then x.cause
  else if i = 4 ∨ i = 5 then half64 x.suspendAddr (i - 4)
  else if i = 6 ∨ i = 7 then half64 used (i - 6)
  else if i = 8 then x.blocks.length
  else if i = 9 then x.badFree
  else if i = 10 then x.switches
  else if i = 11 then x.hostHi
  else if i = 12 ∨ i = 13 then half64 us (i - 12)
  else 0

/-- TWIN registers (R437). -/
def State.twinWord (s : State) (o : Nat) : Nat :=
  let t := s.links.twin
  let copy := match t.copy with
    | none => 0
    | some c => if t.pair ≠ .paired then 3 else if c.settleSent then 2 else 1
  let sh : ShadowSet := t.sset.getD {}
  if o = 0x00 then
    t.pair.code + 2 ^ 3 * boolN t.mset.isSome + 2 ^ 4 * boolN t.sset.isSome + 2 ^ 5 * boolN t.frozen + 2 ^ 6 * copy
      + 2 ^ 8 * boolN t.dirty.isEmpty + 2 ^ 9 * boolN t.rebuild
  else if o = 0x04 then (if t.mset.isSome then t.closed else 0)
  else if o = 0x08 then (if t.mset.isSome then t.settled else 0)
  else if o = 0x0C then sh.a.epoch
  else if o = 0x10 then sh.b.epoch
  else if o = 0x14 then sh.a.state + 4 * sh.b.state + 16 * boolN sh.active
  else if o = 0x18 then (match t.copy with | none => 0 | some c => c.todo.length)
  else if o = 0x1C then t.races
  else 0

/-- A port's entry in the LINKS part (R433): lanes are up while the port is UP. -/
def State.linksWord (s : State) (p i : Nat) : Nat :=
  let x := s.port p
  let lanes := if x.state = .up then (if p = twinPort then 8 else 4) else 0
  if i = 0 then x.state.code + 2 ^ 8 * boolN x.rateActive + 2 ^ 16 * lanes
  else if i = 1 then x.peerNode + 2 ^ 16 * x.peerPort
  else if i < 5 then leAt x.peerSerial (4 * (i - 2)) 4
  else if i = 5 then x.fecUncorr
  else if i = 6 then x.retry
  else 0

/-- Far memory bytes that no object holds. -/
def State.farFree (s : State) : Nat := farTop - (s.fman.objects.map ObjRange.size).foldl (· + ·) 0

def State.queryWord (s : State) (o : Nat) : Nat :=
  if o = 0x000 then 0x4C425451
  else if o = 0x004 then 1 + 2 ^ 16 * 4
  else if o = 0x008 then steppingLe + 2 ^ 16 * 0x0100
  else if o = 0x00C then boolN s.pci.ready
  else if o = 0x010 then Config.cores
  else if o = 0x014 then Config.slabs
  else if o = 0x018 ∨ o = 0x01C then half64 farTop ((o - 0x018) / 4)
  else if o = 0x020 then Config.contexts
  else if o = 0x024 then 16
  else if o = 0x028 then 16
  else if o = 0x02C then 4096
  else if o = 0x030 then 256
  else if o = 0x034 then 4096
  else if o = 0x038 then 256
  else if o = 0x03C then 64
  else if o = 0x040 then 4 * Config.baseW
  else if o = 0x044 then 1000000
  else if o = 0x048 then 2048
  else if o = 0x100 then s.freeSlots.length
  else if o = 0x104 then s.freeUnits.length
  else if o = 0x108 then s.placed.length
  else if o = 0x10C then (s.placed.map (fun p => p.2.plan_.peak)).foldl (· + ·) 0
  else if o = 0x110 ∨ o = 0x114 then half64 s.farFree ((o - 0x110) / 4)
  else if 0x200 ≤ o ∧ o < 0x2A0 then
    (List.range 32).foldl (fun a i => a + 2 ^ i * boolN (s.dbg.degraded.contains (8 * (o - 0x200) + i))) 0
  else if 0x800 ≤ o ∧ o < 0xA20 then s.linksWord ((o - 0x800) / 32) ((o - 0x800) % 32 / 4)
  else if 0xA20 ≤ o ∧ o < 0xA40 then s.twinWord (o - 0xA20)
  else if 0x1000 ≤ o ∧ o < 0x1A00 then s.ownerOf ((o - 0x1000) / 2) + 2 ^ 16 * s.ownerOf ((o - 0x1000) / 2 + 1)
  else if 0x10000 ≤ o ∧ o < 0x20000 then s.ctxWord ((o - 0x10000) / 64) ((o - 0x10000) % 64 / 4)
  else 0

/-! ### Mailboxes, doorbells, the host port, resets (14_host R384, R387, R393, R396; 18_clocks_reset R504) -/

def State.chanWord (s : State) (k o : Nat) : Nat :=
  let c := s.pci.chan k
  let rs := tblGet [] c.replies 0
  if 0x004 ≤ o ∧ o < 0x040 then (tblGet 0 c.args (o / 4)).toNat
  else if o = 0x044 then (16 - c.inbound.length) + 2 ^ 8 * rs.length
  else if o = 0x048 then c.fullDrop + 2 ^ 16 * c.refused
  else if 0x080 ≤ o ∧ o < 0x0C0 then (match rs with | [] => 0 | m :: _ => (m.words.getD ((o - 0x080) / 4) 0).toNat)
  else if o = 0x0C0 then (match rs with | [] => 0 | m :: _ => m.sender + 2 ^ 16 * (m.seq % 65536))
  else 0

def State.bellWord (s : State) (o : Nat) : Nat :=
  if o = 0x00 ∨ o = 0x04 then s.pci.dbPend.toNat
  else if 0x10 ≤ o ∧ o < 0x20 then (tblGet 0 s.pci.dbMask ((o - 0x10) / 4)).toNat
  else if o = 0x20 then s.pci.dbStray
  else 0

def HostErr.word (e : HostErr) : Nat := boolN e.bar0Size + 2 * boolN e.bar2Range + 4 * boolN e.bar2Early + 8 * boolN e.bar2Ue

def State.hostWord (s : State) (o : Nat) : Nat :=
  let p := s.pci
  if o = 0x00 then
    p.speed + 2 ^ 3 * p.width + 2 ^ 8 * boolN p.flit + 2 ^ 9 * s.site.pcieGen + 2 ^ 12 * s.site.pcieWidth + 2 ^ 17 * p.fw.code
  else if o = 0x04 then p.err.word
  else if o = 0x08 then p.origin
  else if o = 0x10 ∨ o = 0x14 then half64 p.evq.staged.base ((o - 0x10) / 4)
  else if o = 0x18 then p.evq.staged.log2 + 2 ^ 8 * boolN p.evq.staged.enable
  else if o = 0x20 then p.evq.head
  else if o = 0x24 then p.evq.tail
  else if o = 0x28 then p.evq.drop
  else 0

def State.resetWord (s : State) (o : Nat) : Nat :=
  let r := s.resets
  if o = 0x00 then r.last.code + 2 ^ 8 * r.warmCount + 2 ^ 16 * boolN r.priorShutdown
  else if o = 0x08 then r.remove.code + 2 ^ 3 * boolN r.removeReq + 2 ^ 4 * boolN r.cancelled + 2 ^ 16 * s.remainingReg
  else 0

/-- The MSI-X table and pending bit array (R385). -/
def State.msixReg (s : State) (o : Nat) : Nat :=
  if o < 0x8000 then s.pci.msixWord (o / 16) (o % 16 / 4)
  else if 0x80000 ≤ o ∧ o < 0x80100 then
    (List.range 32).foldl (fun a i => a + 2 ^ i * boolN (s.pci.pba.contains (8 * (o - 0x80000) + i))) 0
  else 0

/-! ### Site values and identity (16_governor R439, R454, R456; 17_site_trust R477 to R479, R493 to R495; 08_far R244) -/

def LaneCfg.value (x : LaneCfg) : Nat := x.txPol + 2 ^ 8 * x.rxPol + 2 ^ 16 * x.txOrder + 2 ^ 40 * x.rxOrder

/-- SITE_EFF_PLANT (R456). -/
def Plant.word (p : Plant) (o : Nat) : Nat :=
  if o < 0x20 then
    let d := p.dies.getD (o / 8) ⟨0, 0, 0⟩
    if o % 8 = 0 then d.rmin + 2 ^ 16 * d.rmax else d.tau
  else if o = 0x20 then p.kcmin + 2 ^ 16 * p.kcmax
  else if o = 0x24 then p.tauC
  else if o = 0x28 then p.tauA
  else 0

/-- HAUL_EN: the ports that the site image enables. -/
def State.haulEn (s : State) : Nat := (List.range 17).foldl (fun a p => a + 2 ^ p * boolN (s.port p).enable) 0

def State.siteWord (s : State) (o : Nat) : Nat :=
  let x := s.site
  let a := x.acts
  if o = 0x00 then x.statusWord
  else if o = 0x04 then x.seq
  else if o = 0x10 then s.links.node + 2 ^ 16 * s.links.twin.slot
  else if o = 0x14 then s.haulEn + 2 ^ 31 * boolN s.links.twin.enable
  else if o = 0x18 then x.pcieWidth + 2 ^ 5 * x.pcieGen + 2 ^ 8 * x.smbusAddr
  else if o = 0x1C then s.waitUs
  else if o = 0x40 then s.far.localUnits + 2 ^ 8 * boolN s.far.defaultLocal
  else if o = 0x80 then x.cls + 2 ^ 2 * x.sustW + 2 ^ 13 * x.excW + 2 ^ 24 * x.excMs
  else if o = 0x84 then x.ramp + 2 ^ 8 * x.tjTarget
  else if o = 0x88 then
    a.fanMask + 2 ^ 6 * a.tachPpr + 2 ^ 8 * a.fanMin + 2 ^ 15 * a.demandMin + 2 ^ 22 * boolN a.pumpEn + 2 ^ 23 * boolN a.valveEn
      + 2 ^ 24 * a.fanFaultRpm
  else if o = 0x8C then a.flowPpl + 2 ^ 16 * a.flowMin
  else if 0x100 ≤ o ∧ o < 0x130 then x.plant.word (o - 0x100)
  else if 0x200 ≤ o ∧ o < 0x288 then half64 (tblGet ({} : LaneCfg) x.lanes ((o - 0x200) / 8)).value (o % 8 / 4)
  else 0

/-- The mason's mark, the dressing map, TRUST_STATUS and the host's trust buffer, from BAR0 0x0E0_0000. -/
def State.trustWord (s : State) (o : Nat) : Nat :=
  let t := s.trust
  if o < 0x140 then leAt markBlock o 4
  else if 0x400 ≤ o ∧ o < 0xA00 then leAt dressBlock (o - 0x400) 4
  else if o = 0xA00 then t.statusWord
  else if o = 0xA04 then t.version
  else if o = 0xA08 then (if t.a.valid then t.a.version else 0)
  else if o = 0xA0C then (if t.b.valid then t.b.version else 0)
  else if 0x1000 ≤ o ∧ o < 0x2000 then ofLe (memReadN t.hostBuf (o - 0x1000) 4)
  else 0

/-! ### A core's register window -/

/-- GE_STATUS (02_gangs R63). -/
def Core.geStatus (k : Core) : Nat :=
  let busy := (List.range 16).filter (fun sl => (k.gang sl).live)
  (busy.map (fun sl => 2 ^ sl)).foldl (· + ·) 0 + 2 ^ 16 * busy.length + 2 ^ 24 * k.ge.flags.bits
    + 2 ^ 28 * boolN k.launchWait + 2 ^ 29 * boolN (!k.me.gangQueue.isEmpty)

/-- A WAIT, BARRIER, FENCE or LOOP count read of a queue is pending (09_queues R286): it has issued, or, with its tokens
there, a BARRIER or FENCE waits for earlier records. -/
def Core.syncWait (k : Core) (e : Nat) : Bool :=
  let q := k.queue e
  q.block != .none
  || (k.open_ e && q.flight != [] && (match q.nextWords with
      | some ws => (recOpc ws == 3 || recOpc ws == 9) && k.tokensOk (recConsumes ws)
      | none => false))

/-- The state of the matrix engine in cycle `cyc` (04_matrix R124). -/
def Core.meState (k : Core) (cyc : Nat) : Nat :=
  let m := k.me
  if m.win.open_ then 3
  else if m.run.any (fun r => r.loads.any (fun l => decide (l.1 ≤ cyc) && decide (cyc < l.2.1))) then 1
  else if m.run.any (fun r => r.loads.any (fun l => decide (l.2.1 ≤ cyc) && decide (cyc < l.2.2))) then 2
  else if m.run.any (fun r => decide (cyc ≤ r.due)) || m.events != [] then 5
  else if k.tokenWait 1 || k.syncWait 1 then 4
  else 0

def Core.bankBusy (k : Core) (b cyc : Nat) : Bool :=
  k.me.run.any (fun r => r.bank == b && (decide (cyc ≤ r.due) || k.me.events.any (fun e => e.rec_ == r.rec_))) || decide (cyc < tblGet 0 k.me.win.busy b)

def Core.meStatus (k : Core) (cyc : Nat) : Nat :=
  k.meState cyc + 2 ^ 3 * k.me.flags.bits + 2 ^ 7 * boolN (k.bankBusy 0 cyc) + 2 ^ 8 * boolN (k.bankBusy 1 cyc)
    + 2 ^ 9 * boolN k.me.degraded + 2 ^ 16 * (if k.me.win.open_ then min 0xFFFF (k.me.win.close - cyc) else 0)

/-- ME_DRESS (R126) of core `n`. -/
def Core.meDress (k : Core) (n : Nat) : Nat :=
  let b := (Config.dressCore n).toNat
  (if bitOf b 7 then 1 + 2 * (b % 32) else 0) + 2 ^ 6 * boolN k.me.degraded + 2 ^ 7 * k.me.badCol

/-- MV_STATUS (07_moves R213): requests are held for a lost route while a claim's node has no port. -/
def State.mvStatus (s : State) (m : MoveEngine) : Nat :=
  let reqs := (m.recs.map (fun r => r.reqs.length)).foldl (· + ·) 0
  min 128 reqs + 2 ^ 8 * m.recs.length + 2 ^ 13 * boolN m.creditWait
    + 2 ^ 14 * boolN (m.recs.any (fun r => r.claim.isSome && !r.claimOk))
    + 2 ^ 15 * boolN (m.recs.any (fun r => r.claim.isSome && (s.routePort r.node).isNone)) + 2 ^ 16 * m.flags.bits

/-- SLAB_PWR, SLAB_PWR_BUSY and the other slab registers (06_slab R172 to R176). -/
def Slab.word (b : Slab) (o : Nat) : Nat :=
  let bits := fun (f : BankState → Bool) => (List.range 32).foldl (fun a i => a + 2 ^ i * boolN (f (tblGet .on b.banks i))) 0
  if o = 0x00 then bits (fun x => x == .on)
  else if o = 0x04 then bits (fun x => x == .draining || x == .waking)
  else if o = 0x08 then b.ceCount
  else if o = 0x0C then b.ueCount
  else if o = 0x10 then b.eccAddr.slab + 2 ^ 15 * b.eccAddr.codeword + 2 ^ 18 * boolN b.eccAddr.ue + 2 ^ 31 * boolN b.eccAddr.valid
  else if o = 0x18 then b.waitCycles
  else if o = 0x1C then b.conflict
  else 0

/-- FC_CTRL, FC_STATUS and FC_ECC (08_far R247, R248). -/
def FarCache.word (f : FarCache) (o : Nat) : Nat :=
  if o = 0x00 then f.ctrl.word
  else if o = 0x04 then
    f.misses.length + 2 ^ 7 * f.wbs.length + 2 ^ 12 * boolN (!f.releases.isEmpty)
      + (List.range 16).foldl (fun a k => a + 2 ^ (16 + k) * boolN (f.ctrlNow.streamEn && decide (f.ctrlNow.streamRun ≤ (tblGet ({} : StreamDet) f.streams k).run))) 0
  else if o = 0x08 then min 0xFFFF f.ceCount
  else 0

/-- The registers of a queue (09_queues R284, R286). -/
def Core.queueWord (k : Core) (e o : Nat) : Nat :=
  let q := k.queue e
  if o = 0x00 ∨ o = 0x04 then half64 q.staged.base (o / 4)
  else if o = 0x08 then q.staged.log2 + 2 ^ 4 * boolN q.staged.fenced + 2 ^ 5 * boolN q.staged.enable
  else if o = 0x0C then q.defTmo
  else if o = 0x14 then q.head + 2 ^ 16 * q.fetch
  else if o = 0x18 then q.tail
  else if o = 0x1C then
    q.onchip.length + 2 ^ 7 * boolN (q.commit != .none) + 2 ^ 8 * boolN q.halted + 2 ^ 9 * boolN (k.tokenWait e)
      + 2 ^ 10 * boolN (k.syncWait e) + 2 ^ 11 * boolN q.fetchWait + 2 ^ 12 * q.loops.length
  else if o = 0x20 then boolN q.halt + 2 * boolN q.brkEn
  else if o = 0x24 then q.fstall
  else 0

/-- The tally block (11_tallies R323). -/
def TallyBlock.word (t : TallyBlock) (o : Nat) : Nat :=
  if o < 0x400 then (tblGet ({} : TallySlot) t.slots (o / 4)).value
  else if o < 0x420 then
    (List.range 32).foldl (fun a b => a + 2 ^ b * boolN (tblGet ({} : TallySlot) t.slots (8 * (o - 0x400) + b)).sat) 0
  else if o = 0x500 then t.watches.length + 2 ^ 16 * t.retry
  else if 0x800 ≤ o ∧ o < 0x900 then tblGet 0 t.tokens ((o - 0x800) / 4)
  else 0

/-- Counters, trace and counter records (19_debug_test R514, R516, R522). -/
def CoreDebug.word (d : CoreDebug) (o : Nat) : Nat :=
  let sel := fun (b : Nat) => (List.range 4).foldl (fun a i => a + 2 ^ (8 * i) * tblGet 0 d.sel (b + i)) 0
  let t := d.traceStaged
  if o = 0x000 then sel 0
  else if o = 0x004 then sel 4
  else if o = 0x008 then boolN d.freezeReg + 2 ^ 8 * d.selGen
  else if 0x010 ≤ o ∧ o < 0x050 then half64 (tblGet 0 d.counters ((o - 0x010) / 8)) (o % 8 / 4)
  else if o = 0x100 then boolN t.en + 2 * t.lvl + 2 ^ 4 * t.eng + 2 ^ 8 * boolN d.badBase
  else if o = 0x104 ∨ o = 0x108 then half64 t.base ((o - 0x104) / 4)
  else if o = 0x10C then t.log2
  else if o = 0x114 then d.traceHead
  else if o = 0x118 then d.traceTail
  else if o = 0x11C then d.traceLost
  else if 0x200 ≤ o ∧ o < 0x400 then
    let i := (o - 0x200) % 128 / 64
    half64 (((tblGet [] d.last (2 * ((o - 0x200) / 128) + i)).getD (o % 64 / 8) 0 : W64).toNat) (o % 8 / 4)
  else 0

/-- The register window of core `n` (BAR0 0x100_0000 + n × 0x4000). -/
def State.coreWord (s : State) (n o : Nat) : Nat :=
  let k := s.core n
  let cyc := s.cycleOf n
  if o = 0x0200 then k.geStatus
  else if o = 0x0210 then k.ge.seed
  else if o = 0x0400 then k.meStatus cyc
  else if o = 0x0408 then k.me.bubbles
  else if o = 0x0410 then k.meDress n
  else if o = 0x0600 then s.mvStatus k.mv0
  else if o = 0x0608 then k.mv0.fallback
  else if o = 0x060C then k.mv0.empty
  else if o = 0x0640 then s.mvStatus k.mv1
  else if o = 0x0648 then k.mv1.fallback
  else if o = 0x064C then k.mv1.empty
  else if 0x0800 ≤ o ∧ o < 0x0A00 then (tblGet ({} : Profile) k.me.staged ((o - 0x0800) / 32)).word (o % 32 / 4)
  else if 0x0C00 ≤ o ∧ o < 0x0C20 then k.slab.word (o - 0x0C00)
  else if 0x0E00 ≤ o ∧ o < 0x0E0C then k.fc.word (o - 0x0E00)
  else if 0x1000 ≤ o ∧ o < 0x1100 then k.queueWord ((o - 0x1000) / 64) (o % 64)
  else if 0x1100 ≤ o ∧ o < 0x1200 then
    half64 (((k.queue ((o - 0x1100) / 64)).cur.getD (o % 64 / 8) 0 : W64).toNat) (o % 8 / 4)
  else if 0x2000 ≤ o ∧ o < 0x2900 then k.tally.word (o - 0x2000)
  else if 0x3000 ≤ o ∧ o < 0x3400 then k.dbg.word (o - 0x3000)
  else 0

/-! ### Far memory controllers, the hub, links and debug units -/

/-- Entries of a channel's request queue (08_far R228): the fills, write-backs, ATOM and fence-object operations and counter records
that have left for it and are not served, up to 32 (assumption 101). -/
def State.reqDepth (s : State) (ch : Nat) : Nat :=
  let here := fun (as : List Nat) => (as.filter (fun a => (farPlace s.far.localUnits (a % farTop)).1 == ch)).length
  min 32 ((s.cores.map (fun p => here ((p.2.fc.misses.filter (fun m => m.after.isNone)).map (fun m => 128 * m.line))
      + here (p.2.fc.wbs.map (fun w => 128 * w.line)) + here (p.2.dbg.writes.map CRecWrite.addr))).foldl (· + ·) 0
    + here (s.net.atoms.map (fun m => m.addr)) + here (s.net.fobj.map (fun m => m.addr)))

/-- A channel's registers (08_far R245, R246). -/
def Channel.word (c : Channel) (depth o : Nat) : Nat :=
  if o = 0x00 then boolN c.trained + 2 * boolN c.refreshX2 + 4 * boolN c.retune + 2 ^ 16 * depth
  else if o = 0x08 then c.ceCount
  else if o = 0x0C then c.ueCount
  else if o = 0x10 then c.block + 2 ^ 27 * boolN c.ue + 2 ^ 28 * boolN c.scrub + 2 ^ 31 * boolN c.valid
  else 0

/-- Hub tallies and barrier units (11_tallies R324, R325), from BAR0 0x300_0000. -/
def State.hubWord (s : State) (o : Nat) : Nat :=
  let slot := fun (i : Nat) => tblGet ({} : HubSlot) s.hub.tallies i
  if o < 0x4000 then (slot (o / 4)).value
  else if o < 0x8000 then
    let x := slot ((o - 0x4000) / 4)
    x.vid + 2 ^ 12 * x.ctx + 2 ^ 30 * boolN x.sat + 2 ^ 31 * boolN x.valid
  else if o = 0x8000 then s.hub.watches.length + 2 ^ 16 * s.hub.full
  else if 0x9000 ≤ o ∧ o < 0xA000 then tblGet 0 s.hub.tdrop ((o - 0x9000) / 4)
  else if 0x10000 ≤ o ∧ o < 0x12000 then
    let u := tblGet ({} : BarUnit) s.hub.units ((o - 0x10000) / 32)
    let i := o % 32
    if i = 0x00 then u.ctx + 2 ^ 10 * u.vunit + 2 ^ 15 * boolN u.valid + 2 ^ 16 * u.parts.length
    else if i = 0x04 then lo32 u.gen
    else if i = 0x08 then u.arr0.length + 2 ^ 16 * u.arr1.length
    else if i = 0x0C then u.held.length
    else 0
  else 0

/-- Bits compared on a lane, in units of 2^20 (19_debug_test R530): the time for which its checker was locked, at the rate
in force. -/
def Port.soundBits (x : Port) (l now : Nat) : Nat :=
  let a := tblGet ({} : SoundLane) x.sounding.lanes l
  let ns := a.lockedNs + (match a.since with | some t => now - t | none => 0)
  min 0xFFFFFFFF ((if x.rateActive then ns * 425 / 2 else ns * 224) / 2 ^ 20)

/-- A port's registers (15_haul_twin R435; 19_debug_test R530). -/
def State.portWord (s : State) (p o : Nat) : Nat :=
  let x := s.port p
  let y := x.sounding.staged
  let lane := fun (l : Nat) => tblGet ({} : SoundLane) x.sounding.lanes l
  if o = 0x00 then boolN x.enable + 2 * boolN x.rate
  else if o = 0x04 then x.state.code + 2 ^ 3 * boolN x.rateActive + 2 ^ 16 * x.peerNode
  else if o = 0x08 then x.fecCorr
  else if o = 0x0C then x.fecUncorr
  else if o = 0x10 then x.retry
  else if o = 0x14 then x.crcErr
  else if o = 0x18 then x.fwdDrop
  else if o = 0x40 then y.pattern + 2 ^ 4 * y.loop + 2 ^ 8 * y.lanes + 2 ^ 16 * boolN y.en
  else if 0x80 ≤ o ∧ o % 16 = 0 then (lane ((o - 0x80) / 16)).errors
  else if 0x80 ≤ o ∧ o % 16 = 4 then boolN (lane ((o - 0x80) / 16)).since.isSome + 2 * boolN (lane ((o - 0x80) / 16)).hasLost
  else if 0x80 ≤ o ∧ o % 16 = 8 then x.soundBits ((o - 0x80) / 16) s.now
  else 0

/-- Links, from BAR0 0x340_0000 (15_haul_twin R435 to R437). -/
def State.linkWord (s : State) (o : Nat) : Nat :=
  if o < 0x1100 then s.portWord (o / 0x100) (o % 0x100)
  else if o = 0x1800 then s.links.node + 2 ^ 16 * s.links.twin.slot
  else if o = 0x1804 then s.links.dst.length
  else if o = 0x1808 then s.links.resends
  else if 0x2000 ≤ o then s.twinWord (o - 0x2000)
  else 0

def BridgeSound.word (b : BridgeSound) (o : Nat) : Nat :=
  if o = 0x00 then b.pattern + 4 * boolN b.loop + 8 * b.durMs
  else if o = 0x08 then boolN b.busy + 2 * boolN b.refused + 4 * boolN b.lock
  else if o = 0x0C then b.err
  else if o = 0x10 then b.firstWire + 2 ^ 16 * boolN b.valid
  else if o = 0x14 then b.bits
  else 0

/-- The ring that TL_SEL shows (R526). -/
def TlSel.ring (t : TlSel) : Nat := if t.hub then hubRing t.hubUnit else ringOf t.core t.unit
def TlSel.word (t : TlSel) : Nat := t.core + 2 ^ 11 * t.unit + 2 ^ 15 * boolN t.hub + 2 ^ 16 * t.hubUnit

/-- Entry number m of a ring is at place m mod 64. -/
def Ring.entry (r : Ring) (place : Nat) : List W64 :=
  let back := (r.count + 63 - place) % 64
  if back < r.count then r.entries.getD back [] else []

/-- Debug units, from BAR0 0x380_0000 (19_debug_test R518, R523, R526, R531, R535). What a control core's instruction trace
holds is free (assumption 25). -/
def State.debugWord (s : State) (o : Nat) : Nat :=
  let d := s.dbg
  if o = 0x0000 then d.tl.word
  else if o = 0x0004 then lo32 (tblGet ({} : Ring) s.rings d.tl.ring).count
  else if 0x0800 ≤ o ∧ o < 0x1000 then
    half64 ((((tblGet ({} : Ring) s.rings d.tl.ring).entry ((o - 0x0800) / 32)).getD (o % 32 / 8) 0).toNat) (o % 8 / 4)
  else if o = 0x20000 then boolN d.stDone + 2 * boolN d.stPass + 4 * d.stFailed + 2 ^ 16 * d.bridgeFail
  else if 0x21000 ≤ o ∧ o < 0x22400 then
    let k := s.core ((o - 0x21000) / 4)
    boolN k.stFail + 2 * k.stUnit + 16 * k.stWhere
  else if 0x30000 ≤ o ∧ o < 0x30400 then (tblGet ({} : BridgeSound) d.bridges ((o - 0x30000) / 64)).word (o % 64)
  else if 0x40000 ≤ o ∧ o < 0x50000 then half64 (Config.freeTrace ((o - 0x40000) / 8 + 16384 * s.draws)).toNat (o % 8 / 4)
  else if 0x50000 ≤ o ∧ o < 0x50010 then
    (Config.freeTrace (8192 + (o - 0x50000) / 4 + 16384 * s.draws)).toNat % 8192
  else if 0x60000 ≤ o ∧ o < 0x60200 then
    let u := (o - 0x60000) / 64
    let i := o % 64
    if i = 0 then (List.range 4).foldl (fun a j => a + 2 ^ (8 * j) * tblGet 0 d.sel (4 * u + j)) 0
    else if 8 ≤ i ∧ i < 40 then half64 (tblGet 0 d.counters (4 * u + (i - 8) / 8)) (i % 8 / 4)
    else 0
  else 0

/-! ### BAR0 as a whole (14_host R380) -/

/-- The 4-byte word at a BAR0 offset that is a multiple of 4. -/
def State.readWord (s : State) (o : Nat) : Nat :=
  if o < 0x20000 then s.queryWord o
  else if o < 0x100000 then 0
  else if o < 0x104000 then s.chanWord ((o - 0x100000) / 4096) (o % 4096)
  else if o < 0x105000 then s.bellWord (o - 0x104000)
  else if o < 0x106000 then s.hostWord (o - 0x105000)
  else if o < 0x107000 then s.resetWord (o - 0x106000)
  else if o < 0x200000 then 0
  else if o < 0x400000 then s.msixReg (o - 0x200000)
  else if o < 0x800000 then (if o % 4096 = 4 then (s.ctx ((o - 0x400000) / 4096)).dbDrop else 0)
  else if o < 0xC00000 then s.govWord (o - 0x800000)
  else if o < 0xE00000 then s.siteWord (o - 0xC00000)
  else if o < 0x1000000 then s.trustWord (o - 0xE00000)
  else if o < 0x2400000 then s.coreWord ((o - 0x1000000) / 0x4000) (o % 0x4000)
  else if o < 0x2500000 then 0
  else if o < 0x2506000 then (s.chan ((o - 0x2500000) / 256)).word (s.reqDepth ((o - 0x2500000) / 256)) (o % 256)
  else if o < 0x3000000 then 0
  else if o < 0x3400000 then s.hubWord (o - 0x3000000)
  else if o < 0x3800000 then s.linkWord (o - 0x3400000)
  else s.debugWord (o - 0x3800000)

/-- A naturally aligned access of 4 or 8 bytes inside the 64 MiB of BAR0. -/
def bar0Ok (o size : Nat) : Bool := (size == 4 || size == 8) && o % size == 0 && decide (o + size ≤ 0x4000000)

/-- A BAR0 read of `size` bytes: none completes with Unsupported Request (R380). -/
def State.readBar0 (s : State) (o size : Nat) : Option (List Byte) :=
  if bar0Ok o size then some ((List.range (size / 4)).flatMap (fun i => leBytes 4 (s.readWord (o + 4 * i)))) else none

/-! ### Configuration space (14_host R378) and the status LEDs (18_clocks_reset R511) -/

/-- Device ID, Revision ID and class code. -/
def pciDevice : Nat := 0x4160
def pciRevision : Nat := 0xA1
def pciClass : Nat := 0x120000
/-- Device Serial Number: the first 8 bytes of the digest of the module's serial. -/
def pciSerial : List Byte := (Config.sha512 Config.serial).take 8

/-- What a LED output does: steady, blinking at a rate in Hz, or off. -/
inductive Led where
  | off
  | steady
  | blink (hz : Nat)
  deriving DecidableEq, Repr

/-- STATUS and FAULT (R511). -/
def State.leds (s : State) : Led × Led :=
  if s.power.latched then (.steady, .steady)
  else if s.resets.remove = .safe then (.steady, .off)
  else if s.resets.remove ≠ .none then (.blink 1, .off)
  else if s.power.standby && (s.pci.fw == .gatekeeperOnly || (s.site.locked && s.site.source == 2) || (s.dbg.stDone && !s.dbg.stPass)) then
    (.off, .blink 2)
  else (.off, .off)

end Sys2Proof.Machine
end

