-- ==== Sys2Proof/Machine/RegWrite.lean ====
section
/-!
DEFINITION. Writes of registers (00_scope R5 to R7; 14_host R380): every writable field of BAR0, with its clamps and
defaults. A field that has a command of its own acts as that command does.
-/

namespace Sys2Proof.Machine

/-- The state after a command that cannot stop on the units a register names. -/
def Out.orElse (o : Out) (s : State) : State := match o with | .next t => t | _ => s

def clampNat (lo hi x : Nat) : Nat := max lo (min hi x)

/-- The low word, or the high word, of a 64-bit value replaced. -/
def setLo (x v : Nat) : Nat := x / 2 ^ 32 * 2 ^ 32 + v
def setHi (x v : Nat) : Nat := x % 2 ^ 32 + 2 ^ 32 * v

/-! ### Mailboxes, doorbells, the host port, resets -/

def State.writeChan (s : State) (k o v : Nat) : State :=
  if 0x004 ≤ o ∧ o < 0x040 then s.modChan k (fun c => { c with args := tblSet (o / 4) (BitVec.ofNat 32 v) c.args })
  else if o = 0x040 then (execMailboxSend k 0 v s).orElse s
  else if o = 0x0C4 ∧ bitOf v 0 then (execRpop k s).orElse s
  else s

def State.writeBell (s : State) (o v : Nat) : State :=
  let w : W32 := BitVec.ofNat 32 v
  if o = 0x00 then s.modPci (fun p => { p with dbPend := p.dbPend ||| w })
  else if o = 0x04 then (execDbClr w 0 s).orElse s
  else if 0x10 ≤ o ∧ o < 0x20 then s.modPci (fun p => { p with dbMask := tblSet ((o - 0x10) / 4) w p.dbMask })
  else s

def EventQueue.stage (q : EventQueue) (f : EvqCtl → EvqCtl) : EventQueue := { q with staged := f q.staged }

def State.writeHost (s : State) (o v : Nat) : State :=
  let evq := fun (f : EventQueue → EventQueue) => s.modPci (fun p => { p with evq := f p.evq })
  if o = 0x04 then
    s.modPci (fun p => { p with err := {
      bar0Size := p.err.bar0Size && !bitOf v 0, bar2Range := p.err.bar2Range && !bitOf v 1
      bar2Early := p.err.bar2Early && !bitOf v 2, bar2Ue := p.err.bar2Ue && !bitOf v 3 } })
  else if o = 0x08 then s.modPci (fun p => { p with origin := min 767 (v % 1024) })
  else if o = 0x10 then evq (fun q => q.stage (fun c => { c with base := setLo c.base (v / 4096 * 4096) }))
  else if o = 0x14 then evq (fun q => q.stage (fun c => { c with base := setHi c.base v }))
  else if o = 0x18 then evq (fun q => q.stage (fun c => { c with log2 := clampNat 4 16 (v % 32), enable := bitOf v 8 }))
  else if o = 0x1C ∧ bitOf v 0 then (execEvqCommit s).orElse s
  else if o = 0x20 then evq (fun q => { q with head := v % 65536 % 2 ^ q.inForce.log2 })
  else s

def State.writeReset (s : State) (o v : Nat) : State :=
  if o = 0x04 then (execWarmReset (v % 65536) (bitOf v 16) s).orElse s
  else if o = 0x08 ∧ bitOf v 4 then { s with resets := { s.resets with cancelled := false } }
  else s

/-- The MSI-X table (R385): a vector that is no longer masked sends its pending message. -/
def State.writeMsix (s : State) (o v : Nat) : State :=
  if o < 0x8000 then (s.modPci (fun p => { p with msix := tblSet (o / 4) (BitVec.ofNat 32 v) p.msix })).unmask (o / 16) else s

/-! ### The Governor (16_governor R462 to R464) -/

def State.writeGov (s : State) (o v : Nat) : State :=
  let x := s.site
  if o = 0x004 then
    let su := clampNat 600 x.sustW (v % 2048)
    s.modGov (fun g => { g with stagedSust := su, stagedExc := if x.excW = 0 then 0 else clampNat su x.excW (bitsOf v 26 16) })
  else if o = 0x008 ∧ bitOf v 0 then s.commitCeilings
  else if 0x040 ≤ o ∧ o < 0x080 ∧ o % 16 = 8 then
    s.modGov (fun g => g.setDie ((o - 0x40) / 16) { g.die ((o - 0x40) / 16) with stretchMin := bitsOf v 11 8 })
  else if o = 0x200 then
    s.modGov (fun g => { g with trips := { g.trips with
      t105 := g.trips.t105 && !bitOf v 0, bus42 := g.trips.bus42 && !bitOf v 1, shutdown := g.trips.shutdown && !bitOf v 2 } })
  else s

/-! ### A core's register window -/

/-- Control registers of a queue (09_queues R284, R286). -/
def State.writeQueue (s : State) (n e o v : Nat) : State :=
  let stage := fun (f : QCtl → QCtl) => s.modQueue n e (fun q => { q with staged := f q.staged })
  if o = 0x00 then stage (fun c => { c with base := setLo c.base (v / 512 * 512) })
  else if o = 0x04 then stage (fun c => { c with base := setHi c.base (v % 65536) })
  else if o = 0x08 then stage (fun c => { c with log2 := clampLog2 (v % 16), fenced := bitOf v 4, enable := bitOf v 5 })
  else if o = 0x0C then s.modQueue n e (fun q => { q with defTmo := clampTmo v })
  else if o = 0x10 ∧ bitOf v 0 then (execQueueCommit n e s).orElse s
  else if o = 0x20 then
    let halted := (s.queue n e).halted
    let s := if bitOf v 0 = (s.queue n e).halt then s else s.haltQueue n e (bitOf v 0)
    let s := s.modQueue n e (fun q => { q with brkEn := bitOf v 1 })
    if bitOf v 2 ∧ halted then (execStepOne n e s).orElse s else s
  else s

/-- Counters and trace settings (19_debug_test R514, R522). -/
def CoreDebug.write (d : CoreDebug) (o v : Nat) : CoreDebug :=
  let sel := fun (b : Nat) => { d with sel := (List.range 4).foldl (fun t i => tblSet (b + i) (v / 2 ^ (8 * i) % 64) t) d.sel }
  let t := d.traceStaged
  if o = 0x000 then sel 0
  else if o = 0x004 then sel 4
  else if o = 0x008 then { d with freezeReg := bitOf v 0, clearPend := d.clearPend || bitOf v 1 }
  else if o = 0x100 then { d with traceStaged := { t with en := bitOf v 0, lvl := bitsOf v 3 1, eng := bitsOf v 7 4 } }
  else if o = 0x104 then { d with traceStaged := { t with base := setLo t.base (v / 2048 * 2048) } }
  else if o = 0x108 then { d with traceStaged := { t with base := setHi t.base (v % 65536) } }
  else if o = 0x10C then { d with traceStaged := { t with log2 := clampNat 4 20 (v % 32) } }
  else if o = 0x114 then { d with traceHead := v % 2 ^ 20 % 2 ^ d.trace.log2 }
  else d

def State.writeCore (s : State) (n o v : Nat) : State :=
  if o = 0x0210 then s.modCore n (fun k => { k with ge := { k.ge with seed := v } })
  else if 0x0800 ≤ o ∧ o < 0x0A00 then
    let i := (o - 0x0800) / 32
    s.modMe n (fun m => { m with staged := tblSet i ((tblGet ({} : Profile) m.staged i).write (o % 32 / 4) v) m.staged })
  else if o = 0x0A00 then (execCvtCommit n (v % 65536) s).orElse s
  else if o = 0x0C10 then
    if bitOf v 31 then s.modSlab n (fun b => { b with eccAddr := { b.eccAddr with valid := false } }) else s
  else if o = 0x0E00 then s.modCore n (fun k => { k with fc := { k.fc with ctrl := FcCtrl.ofWord v } })
  else if 0x1000 ≤ o ∧ o < 0x1100 then s.writeQueue n ((o - 0x1000) / 64) (o % 64) v
  else if o = 0x3110 then if bitOf v 0 then (execTraceCommit n s).orElse s else s
  else if 0x3000 ≤ o ∧ o < 0x3120 then s.modCore n (fun k => { k with dbg := k.dbg.write (o - 0x3000) v })
  else s

/-! ### Links and debug units -/

def State.writePort (s : State) (p o v : Nat) : State :=
  if o = 0x00 then
    let s := s.modPort p (fun x => { x with rate := bitOf v 1 })
    if bitOf v 2 then s.train p else s
  else if o = 0x40 then
    s.modPort p (fun x => { x with sounding := { x.sounding with staged := {
      pattern := patternEff x.rateActive (v % 16), loop := if bitsOf v 5 4 = 3 then 0 else bitsOf v 5 4
      lanes := bitsOf v 15 8, en := bitOf v 16 } } })
  else if o = 0x44 then
    let s := if bitOf v 0 then (execSoundingCommit p s).orElse s else s
    if bitOf v 1 then (execInject p s).orElse s else s
  else if 0x80 ≤ o ∧ o % 16 = 4 ∧ bitOf v 1 then s.modPort p (fun x => x.modLane ((o - 0x80) / 16) (fun a => { a with hasLost := false }))
  else s

def State.writeBridge (s : State) (j o v : Nat) : State :=
  let b := s.bridge j
  if o = 0x00 then
    s.setBridge j { b with pattern := if v % 4 = 3 then 2 else v % 4, loop := bitOf v 2, durMs := clampNat 1 1000 (bitsOf v 12 3) }
  else if o = 0x04 ∧ bitOf v 0 then (execStart j s).orElse s
  else if o = 0x08 ∧ bitOf v 1 then s.setBridge j { b with refused := false }
  else s

def State.writeDebug (s : State) (o v : Nat) : State :=
  if o = 0x0000 then
    { s with dbg := { s.dbg with tl := {
      core := min 1279 (v % 2048), unit := if bitsOf v 13 11 > 4 then 0 else bitsOf v 13 11, hub := bitOf v 15, hubUnit := bitsOf v 18 16 } } }
  else if o = 0x10000 then (execCtxHalt (v % 1024) (bitOf v 16) s).orElse s
  else if 0x30000 ≤ o ∧ o < 0x30400 then s.writeBridge ((o - 0x30000) / 64) (o % 64) v
  else if 0x50000 ≤ o ∧ o < 0x50010 ∧ bitOf v 11 then
    let k := (o - 0x50000) / 4
    { s with dbg := { s.dbg with traces := tblSet k { tblGet ({} : CtlTrace) s.dbg.traces k with frozen := false } s.dbg.traces } }
  else if 0x60000 ≤ o ∧ o < 0x60200 ∧ o % 64 = 0 then
    let u := (o - 0x60000) / 64
    { s with dbg := { s.dbg with sel := (List.range 4).foldl (fun t i =>
        let c := v / 2 ^ (8 * i) % 256
        tblSet (4 * u + i) (if c > 5 then 0 else c) t) s.dbg.sel } }
  else s

/-! ### BAR0 as a whole -/

/-- A 4-byte write at a BAR0 offset that is a multiple of 4; a read-only, reserved or unoccupied offset ignores it. -/
def State.writeWord (s : State) (o v : Nat) : State :=
  let v := v % 2 ^ 32
  if o < 0x100000 then s
  else if o < 0x104000 then s.writeChan ((o - 0x100000) / 4096) (o % 4096) v
  else if o < 0x105000 then s.writeBell (o - 0x104000) v
  else if o < 0x106000 then s.writeHost (o - 0x105000) v
  else if o < 0x107000 then s.writeReset (o - 0x106000) v
  else if o < 0x200000 then s
  else if o < 0x400000 then s.writeMsix (o - 0x200000) v
  else if o < 0x800000 then
    if o % 4096 = 0 then (execQdb ((o - 0x400000) / 4096) (v % 2 ^ 13) (bitsOf v 27 16) s).orElse s else s
  else if o < 0xC00000 then s.writeGov (o - 0x800000) v
  else if o < 0xE01000 then s
  else if o < 0xE02000 then s.modTrust (fun t => { t with hostBuf := memWriteN t.hostBuf (o - 0xE01000) (leBytes 4 v) })
  else if o < 0x1000000 then s
  else if o < 0x2400000 then s.writeCore ((o - 0x1000000) / 0x4000) (o % 0x4000) v
  else if o < 0x2500000 then s
  else if o < 0x2506000 then
    let ch := (o - 0x2500000) / 256
    if o % 256 = 0x10 ∧ bitOf v 31 then s.setChan ch { s.chan ch with valid := false } else s
  else if o < 0x3400000 then s
  else if o < 0x3401100 then s.writePort ((o - 0x3400000) / 256) (o % 256) v
  else if o < 0x3800000 then s
  else s.writeDebug (o - 0x3800000) v

/-- REGISTER_WRITE (00_scope R7; 14_host R380): a write of 4 or 8 bytes, naturally aligned; 8 bytes are two words, the lower
address first; any other write is dropped and sets HOST_ERR.BAR0_SIZE. -/
def execRegisterWrite (offset size value : Nat) (s : State) : Out :=
  if !bar0Ok offset size then .next (s.hostErr (fun e => { e with bar0Size := true }))
  else .next ((List.range (size / 4)).foldl (fun t i => t.writeWord (offset + 4 * i) (value / 2 ^ (32 * i))) s)

end Sys2Proof.Machine
end

