-- ==== Sys2Proof/Machine/Dispatch.lean ====
section
/-! DEFINITION. The meaning of every command, one arm per constructor. -/

namespace Sys2Proof.Machine

def exec (i : Instr) (s : State) : Host.Outcome State Fault Refusal :=
  match i with
  | .registerWrite offset size value => Sys2Proof.Machine.execRegisterWrite offset size value s
  | .nopInsn g => Sys2Proof.Machine.execNopInsn g s
  | .br g p pn tgt join => Sys2Proof.Machine.execBr g p pn tgt join s
  | .bra g tgt => Sys2Proof.Machine.execBra g tgt s
  | .loopInsn g sreg last after => Sys2Proof.Machine.execLoopInsn g sreg last after s
  | .exit g qp qn => Sys2Proof.Machine.execExit g qp qn s
  | .addScalar g f => Sys2Proof.Machine.execAddScalar g f s
  | .subScalar g f => Sys2Proof.Machine.execSubScalar g f s
  | .mulScalar g f => Sys2Proof.Machine.execMulScalar g f s
  | .mulhiScalar g f => Sys2Proof.Machine.execMulhiScalar g f s
  | .andScalar g f => Sys2Proof.Machine.execAndScalar g f s
  | .orScalar g f => Sys2Proof.Machine.execOrScalar g f s
  | .xorScalar g f => Sys2Proof.Machine.execXorScalar g f s
  | .shlScalar g f => Sys2Proof.Machine.execShlScalar g f s
  | .shrScalar g f => Sys2Proof.Machine.execShrScalar g f s
  | .sarScalar g f => Sys2Proof.Machine.execSarScalar g f s
  | .minScalar g f => Sys2Proof.Machine.execMinScalar g f s
  | .maxScalar g f => Sys2Proof.Machine.execMaxScalar g f s
  | .movScalar g f => Sys2Proof.Machine.execMovScalar g f s
  | .caddr g f constBase => Sys2Proof.Machine.execCaddr g f constBase s
  | .addVector g f => Sys2Proof.Machine.execAddVector g f s
  | .subVector g f => Sys2Proof.Machine.execSubVector g f s
  | .mulVector g f => Sys2Proof.Machine.execMulVector g f s
  | .mulhiVector g f => Sys2Proof.Machine.execMulhiVector g f s
  | .andVector g f => Sys2Proof.Machine.execAndVector g f s
  | .orVector g f => Sys2Proof.Machine.execOrVector g f s
  | .xorVector g f => Sys2Proof.Machine.execXorVector g f s
  | .shlVector g f => Sys2Proof.Machine.execShlVector g f s
  | .shrVector g f => Sys2Proof.Machine.execShrVector g f s
  | .sarVector g f => Sys2Proof.Machine.execSarVector g f s
  | .minVector g f => Sys2Proof.Machine.execMinVector g f s
  | .maxVector g f => Sys2Proof.Machine.execMaxVector g f s
  | .movVector g f => Sys2Proof.Machine.execMovVector g f s
  | .sel g f => Sys2Proof.Machine.execSel g f s
  | .popc g f => Sys2Proof.Machine.execPopc g f s
  | .clz g f => Sys2Proof.Machine.execClz g f s
  | .fadd g f => Sys2Proof.Machine.execFadd g f s
  | .fsub g f => Sys2Proof.Machine.execFsub g f s
  | .fmul g f => Sys2Proof.Machine.execFmul g f s
  | .ffma g f => Sys2Proof.Machine.execFfma g f s
  | .fmin g f => Sys2Proof.Machine.execFmin g f s
  | .fmax g f => Sys2Proof.Machine.execFmax g f s
  | .fabs g f => Sys2Proof.Machine.execFabs g f s
  | .fneg g f => Sys2Proof.Machine.execFneg g f s
  | .frcp g f => Sys2Proof.Machine.execFrcp g f s
  | .fsqrt g f => Sys2Proof.Machine.execFsqrt g f s
  | .frsq g f => Sys2Proof.Machine.execFrsq g f s
  | .fex2 g f => Sys2Proof.Machine.execFex2 g f s
  | .flg2 g f => Sys2Proof.Machine.execFlg2 g f s
  | .fdiv g f => Sys2Proof.Machine.execFdiv g f s
  | .cvt g f => Sys2Proof.Machine.execCvt g f s
  | .pack g f => Sys2Proof.Machine.execPack g f s
  | .bperm g f => Sys2Proof.Machine.execBperm g f s
  | .shfl g f => Sys2Proof.Machine.execShfl g f s
  | .red g f => Sys2Proof.Machine.execRed g f s
  | .setp g f => Sys2Proof.Machine.execSetp g f s
  | .plog g f => Sys2Proof.Machine.execPlog g f s
  | .pbal g f => Sys2Proof.Machine.execPbal g f s
  | .pset g f => Sys2Proof.Machine.execPset g f s
  | .scmp g f => Sys2Proof.Machine.execScmp g f s
  | .sld g f => Sys2Proof.Machine.execSld g f s
  | .sst g f => Sys2Proof.Machine.execSst g f s
  | .ld g f => Sys2Proof.Machine.execLd g f s
  | .st g f => Sys2Proof.Machine.execSt g f s
  | .atom g f => Sys2Proof.Machine.execAtom g f s
  | .atomComplete k => Sys2Proof.Machine.execAtomComplete k s
  | .mma g f => Sys2Proof.Machine.execMma g f s
  | .mmaz g f => Sys2Proof.Machine.execMmaz g f s
  | .gangMdrain g f => Sys2Proof.Machine.execGangMdrain g f s
  | .mclr g f => Sys2Proof.Machine.execMclr g f s
  | .gangMatrixAccept core now => Sys2Proof.Machine.execGangMatrixAccept core now s
  | .tsig g f => Sys2Proof.Machine.execTsig g f s
  | .twait g f => Sys2Proof.Machine.execTwait g f s
  | .tread g f => Sys2Proof.Machine.execTread g f s
  | .fenceInsn g f => Sys2Proof.Machine.execFenceInsn g f s
  | .fsig g f => Sys2Proof.Machine.execFsig g f s
  | .fwait g f => Sys2Proof.Machine.execFwait g f s
  | .fwaitPoll core slot => Sys2Proof.Machine.execFwaitPoll core slot s
  | .fenceObjectReply k => Sys2Proof.Machine.execFenceObjectReply k s
  | .farCacheReleaseDone core => Sys2Proof.Machine.execFarCacheReleaseDone core s
  | .alloc g f => Sys2Proof.Machine.execAlloc g f s
  | .allocReply k => Sys2Proof.Machine.execAllocReply k s
  | .free g f => Sys2Proof.Machine.execFree g f s
  | .codeFetch core slot => Sys2Proof.Machine.execCodeFetch core slot s
  | .farCacheFill core k hostOk hostData => Sys2Proof.Machine.execFarCacheFill core k hostOk hostData s
  | .writebackAccept core k => Sys2Proof.Machine.execWritebackAccept core k s
  | .gangStart core => Sys2Proof.Machine.execGangStart core s
  | .launchRetire core id => Sys2Proof.Machine.execLaunchRetire core id s
  | .launchTimeout core id now => Sys2Proof.Machine.execLaunchTimeout core id now s
  | .qdb ctx qid tail => Sys2Proof.Machine.execQdb ctx qid tail s
  | .ringFetch core eng hostOk hostData => Sys2Proof.Machine.execRingFetch core eng hostOk hostData s
  | .nopRec core eng => Sys2Proof.Machine.execNopRec core eng s
  | .waitRec core eng => Sys2Proof.Machine.execWaitRec core eng s
  | .signalRec core eng => Sys2Proof.Machine.execSignalRec core eng s
  | .barrierRec core eng => Sys2Proof.Machine.execBarrierRec core eng s
  | .rebaseRec core eng => Sys2Proof.Machine.execRebaseRec core eng s
  | .loopRec core eng => Sys2Proof.Machine.execLoopRec core eng s
  | .loopCountRead core eng => Sys2Proof.Machine.execLoopCountRead core eng s
  | .phaseRec core eng => Sys2Proof.Machine.execPhaseRec core eng s
  | .phaseMark die now => Sys2Proof.Machine.execPhaseMark die now s
  | .powerRec core eng => Sys2Proof.Machine.execPowerRec core eng s
  | .bankOff core bank => Sys2Proof.Machine.execBankOff core bank s
  | .bankOn core bank => Sys2Proof.Machine.execBankOn core bank s
  | .clearFlags core eng => Sys2Proof.Machine.execClearFlags core eng s
  | .fenceRec core eng => Sys2Proof.Machine.execFenceRec core eng s
  | .launchRec core eng => Sys2Proof.Machine.execLaunchRec core eng s
  | .matmul core eng => Sys2Proof.Machine.execMatmul core eng s
  | .chuteStarve core => Sys2Proof.Machine.execChuteStarve core s
  | .matmulRetire core => Sys2Proof.Machine.execMatmulRetire core s
  | .mdrain core eng => Sys2Proof.Machine.execMdrain core eng s
  | .mclear core eng => Sys2Proof.Machine.execMclear core eng s
  | .gangWindow core eng => Sys2Proof.Machine.execGangWindow core eng s
  | .gangWindowClose core now => Sys2Proof.Machine.execGangWindowClose core now s
  | .move core eng => Sys2Proof.Machine.execMove core eng s
  | .moveRequestComplete core eng k => Sys2Proof.Machine.execMoveRequestComplete core eng k s
  | .fallbackSlab core eng k => Sys2Proof.Machine.execFallbackSlab core eng k s
  | .creditReturn core eng => Sys2Proof.Machine.execCreditReturn core eng s
  | .landingWrite core slot => Sys2Proof.Machine.execLandingWrite core slot s
  | .unplannedGrant core rdFree wrFree busy => Sys2Proof.Machine.execUnplannedGrant core rdFree wrFree busy s
  | .eccRewrite core wrFree => Sys2Proof.Machine.execEccRewrite core wrFree s
  | .remoteSlabAccess k => Sys2Proof.Machine.execRemoteSlabAccess k s
  | .hostPageCheck core unit id page ok data => Sys2Proof.Machine.execHostPageCheck core unit id page ok data s
  | .contextSuspend ctx now => Sys2Proof.Machine.execContextSuspend ctx now s
  | .tokenArrival k => Sys2Proof.Machine.execTokenArrival k s
  | .tallyOperation k => Sys2Proof.Machine.execTallyOperation k s
  | .watch k => Sys2Proof.Machine.execWatch k s
  | .watchRetry k => Sys2Proof.Machine.execWatchRetry k s
  | .wake k => Sys2Proof.Machine.execWake k s
  | .syncTimeout core unit now => Sys2Proof.Machine.execSyncTimeout core unit now s
  | .barrierArrival k => Sys2Proof.Machine.execBarrierArrival k s
  | .barrierRelease k => Sys2Proof.Machine.execBarrierRelease k s
  | .queueCommit core eng => Sys2Proof.Machine.execQueueCommit core eng s
  | .queueCommitEffect core eng => Sys2Proof.Machine.execQueueCommitEffect core eng s
  | .halt core eng value => Sys2Proof.Machine.execHalt core eng value s
  | .stepOne core eng => Sys2Proof.Machine.execStepOne core eng s
  | .brkEn core eng value => Sys2Proof.Machine.execBrkEn core eng value s
  | .cvtCommit core mask => Sys2Proof.Machine.execCvtCommit core mask s
  | .placementAttempt now => Sys2Proof.Machine.execPlacementAttempt now s
  | .switchOut ctx => Sys2Proof.Machine.execSwitchOut ctx s
  | .windowApply ctx => Sys2Proof.Machine.execWindowApply ctx s
  | .contextKill ctx => Sys2Proof.Machine.execContextKill ctx s
  | .killDrainDone ctx => Sys2Proof.Machine.execKillDrainDone ctx s
  | .refBatchRetire ctx k => Sys2Proof.Machine.execRefBatchRetire ctx k s
  | .setTables => Sys2Proof.Machine.execSetTables s
  | .ctxStart => Sys2Proof.Machine.execCtxStart s
  | .ctxHold => Sys2Proof.Machine.execCtxHold s
  | .ctxResume => Sys2Proof.Machine.execCtxResume s
  | .ctxKill => Sys2Proof.Machine.execCtxKill s
  | .ctxDestroy => Sys2Proof.Machine.execCtxDestroy s
  | .setWindow => Sys2Proof.Machine.execSetWindow s
  | .ctxAck => Sys2Proof.Machine.execCtxAck s
  | .objCreate => Sys2Proof.Machine.execObjCreate s
  | .objHostZero => Sys2Proof.Machine.execObjHostZero s
  | .refBatch => Sys2Proof.Machine.execRefBatch s
  | .bar2Read offset size => Sys2Proof.Machine.execBar2Read offset size s
  | .bar2Write offset data => Sys2Proof.Machine.execBar2Write offset data s
  | .functionReset => Sys2Proof.Machine.execFunctionReset s
  | .perstAssert => Sys2Proof.Machine.execPerstAssert s
  | .perstDeassert now => Sys2Proof.Machine.execPerstDeassert now s
  | .evqCommit => Sys2Proof.Machine.execEvqCommit s
  | .mailboxSend channel sender header => Sys2Proof.Machine.execMailboxSend channel sender header s
  | .rpop channel => Sys2Proof.Machine.execRpop channel s
  | .dbClr mask sets => Sys2Proof.Machine.execDbClr mask sets s
  | .place now => Sys2Proof.Machine.execPlace now s
  | .driverDown => Sys2Proof.Machine.execDriverDown s
  | .sense => Sys2Proof.Machine.execSense s
  | .links => Sys2Proof.Machine.execLinks s
  | .dbStray core bit => Sys2Proof.Machine.execDbStray core bit s
  | .trainingAttempt port ok peerNode peerPort peerSerial => Sys2Proof.Machine.execTrainingAttempt port ok peerNode peerPort peerSerial s
  | .trainingRetry port => Sys2Proof.Machine.execTrainingRetry port s
  | .portLeaveUp port cause => Sys2Proof.Machine.execPortLeaveUp port cause s
  | .codewordUncorrectable port => Sys2Proof.Machine.execCodewordUncorrectable port s
  | .link port h => Sys2Proof.Machine.execLink port h s
  | .retryTimeout port => Sys2Proof.Machine.execRetryTimeout port s
  | .forwardTimeout port k => Sys2Proof.Machine.execForwardTimeout port k s
  | .claim port f => Sys2Proof.Machine.execClaim port f s
  | .claimAck port f => Sys2Proof.Machine.execClaimAck port f s
  | .claimRetry id => Sys2Proof.Machine.execClaimRetry id s
  | .writeFrame port f => Sys2Proof.Machine.execWriteFrame port f s
  | .commitAck port f => Sys2Proof.Machine.execCommitAck port f s
  | .claimEnd port f => Sys2Proof.Machine.execClaimEnd port f s
  | .signalFrame port f => Sys2Proof.Machine.execSignalFrame port f s
  | .signalAck port f => Sys2Proof.Machine.execSignalAck port f s
  | .resendTimeout signals id => Sys2Proof.Machine.execResendTimeout signals id s
  | .hello port f => Sys2Proof.Machine.execHello port f s
  | .heartbeat port f now => Sys2Proof.Machine.execHeartbeat port f now s
  | .heartbeatTimer now => Sys2Proof.Machine.execHeartbeatTimer now s
  | .partnerLost now => Sys2Proof.Machine.execPartnerLost now s
  | .epochPoll => Sys2Proof.Machine.execEpochPoll s
  | .mirrorWrite port f => Sys2Proof.Machine.execMirrorWrite port f s
  | .mirrorAck port f => Sys2Proof.Machine.execMirrorAck port f s
  | .settle port f => Sys2Proof.Machine.execSettle port f s
  | .settleAck port f => Sys2Proof.Machine.execSettleAck port f s
  | .restoreReq port f => Sys2Proof.Machine.execRestoreReq port f s
  | .routeLoad => Sys2Proof.Machine.execRouteLoad s
  | .jobSet => Sys2Proof.Machine.execJobSet s
  | .jobClear => Sys2Proof.Machine.execJobClear s
  | .mirrorSet => Sys2Proof.Machine.execMirrorSet s
  | .mirrorClear => Sys2Proof.Machine.execMirrorClear s
  | .shadowSet => Sys2Proof.Machine.execShadowSet s
  | .restore => Sys2Proof.Machine.execRestore s
  | .retrain => Sys2Proof.Machine.execRetrain s
  | .portRetrain port => Sys2Proof.Machine.execPortRetrain port s
  | .removeReq now => Sys2Proof.Machine.execRemoveReq now s
  | .removalSettleTimeout now => Sys2Proof.Machine.execRemovalSettleTimeout now s
  | .removalDrainTimeout now => Sys2Proof.Machine.execRemovalDrainTimeout now s
  | .removalSafe now => Sys2Proof.Machine.execRemovalSafe now s
  | .removeCancel now => Sys2Proof.Machine.execRemoveCancel now s
  | .controlPeriod now x => Sys2Proof.Machine.execControlPeriod now x s
  | .fanFault fan now => Sys2Proof.Machine.execFanFault fan now s
  | .flowFault now => Sys2Proof.Machine.execFlowFault now s
  | .modelMismatch now => Sys2Proof.Machine.execModelMismatch now s
  | .modelMismatchClear => Sys2Proof.Machine.execModelMismatchClear s
  | .forecastPublish now => Sys2Proof.Machine.execForecastPublish now s
  | .ceilingCommit => Sys2Proof.Machine.execCeilingCommit s
  | .tripHot die eighths now => Sys2Proof.Machine.execTripHot die eighths now s
  | .tripHotRelease die eighths now => Sys2Proof.Machine.execTripHotRelease die eighths now s
  | .busTrip cv now => Sys2Proof.Machine.execBusTrip cv now s
  | .busTripRelease cv => Sys2Proof.Machine.execBusTripRelease cv s
  | .shutdown bus die reading => Sys2Proof.Machine.execShutdown bus die reading s
  | .breach cv => Sys2Proof.Machine.execBreach cv s
  | .inputOvervoltage cv => Sys2Proof.Machine.execInputOvervoltage cv s
  | .inputRestart cv => Sys2Proof.Machine.execInputRestart cv s
  | .inputLoss cv => Sys2Proof.Machine.execInputLoss cv s
  | .auxPowerLoss => Sys2Proof.Machine.execAuxPowerLoss s
  | .getStatus => Sys2Proof.Machine.execGetStatus s
  | .getForecast => Sys2Proof.Machine.execGetForecast s
  | .coldReset slotPins => Sys2Proof.Machine.execColdReset slotPins s
  | .siteImageApply copyA copyB readsB => Sys2Proof.Machine.execSiteImageApply copyA copyB readsB s
  | .fallback => Sys2Proof.Machine.execFallback s
  | .gatekeeperOnly now => Sys2Proof.Machine.execGatekeeperOnly now s
  | .busPrechargeDone => Sys2Proof.Machine.execBusPrechargeDone s
  | .dieResetRelease die => Sys2Proof.Machine.execDieResetRelease die s
  | .farMemoryReady => Sys2Proof.Machine.execFarMemoryReady s
  | .warmReset key warm => Sys2Proof.Machine.execWarmReset key warm s
  | .timeBaseCorrection => Sys2Proof.Machine.execTimeBaseCorrection s
  | .scrub channel block => Sys2Proof.Machine.execScrub channel block s
  | .refreshRatePoll controller hot => Sys2Proof.Machine.execRefreshRatePoll controller hot s
  | .wckRetune channel running => Sys2Proof.Machine.execWckRetune channel running s
  | .fwBegin => Sys2Proof.Machine.execFwBegin s
  | .fwData => Sys2Proof.Machine.execFwData s
  | .fwEnd => Sys2Proof.Machine.execFwEnd s
  | .fwCommit => Sys2Proof.Machine.execFwCommit s
  | .ownerProgram => Sys2Proof.Machine.execOwnerProgram s
  | .ownerRevoke => Sys2Proof.Machine.execOwnerRevoke s
  | .attest => Sys2Proof.Machine.execAttest s
  | .getCert => Sys2Proof.Machine.execGetCert s
  | .getMark => Sys2Proof.Machine.execGetMark s
  | .getTrust => Sys2Proof.Machine.execGetTrust s
  | .mbSend pecOk channel words => Sys2Proof.Machine.execMbSend pecOk channel words s
  | .mbRecv pecOk channel => Sys2Proof.Machine.execMbRecv pecOk channel s
  | .bufSeek pecOk offset => Sys2Proof.Machine.execBufSeek pecOk offset s
  | .bufRead pecOk => Sys2Proof.Machine.execBufRead pecOk s
  | .bufWrite pecOk data => Sys2Proof.Machine.execBufWrite pecOk data s
  | .status pecOk => Sys2Proof.Machine.execStatus pecOk s
  | .selfTestComplete cores bridges => Sys2Proof.Machine.execSelfTestComplete cores bridges s
  | .clear core => Sys2Proof.Machine.execClear core s
  | .traceDrain core => Sys2Proof.Machine.execTraceDrain core s
  | .traceChunkDone core => Sys2Proof.Machine.execTraceChunkDone core s
  | .traceCommit core => Sys2Proof.Machine.execTraceCommit core s
  | .ctxHalt ctx value => Sys2Proof.Machine.execCtxHalt ctx value s
  | .soundingCommit port => Sys2Proof.Machine.execSoundingCommit port s
  | .inject port => Sys2Proof.Machine.execInject port s
  | .start bridge => Sys2Proof.Machine.execStart bridge s
  | .bridgeSoundingEnd bridge => Sys2Proof.Machine.execBridgeSoundingEnd bridge s
  | .completionTimeout core unit id page => Sys2Proof.Machine.execCompletionTimeout core unit id page s
  | .lock bridge port lane => Sys2Proof.Machine.execLock bridge port lane s
  | .lost port lane => Sys2Proof.Machine.execLost port lane s
  | .counterRecordWrite core => Sys2Proof.Machine.execCounterRecordWrite core s
  | .inputApplied cv => Sys2Proof.Machine.execInputApplied cv s
  | .linkTrained speed width flit => Sys2Proof.Machine.execLinkTrained speed width flit s
  | .remoteSldReply k => Sys2Proof.Machine.execRemoteSldReply k s
  | .treadReply k => Sys2Proof.Machine.execTreadReply k s
  | .epochRecord core => Sys2Proof.Machine.execEpochRecord core s

end Sys2Proof.Machine
end

