-- ==== Sys2Proof/Machine/Step.lean ====
section
/-!
DEFINITION. One step of the module: the command at the front of the queue; on an empty queue, one tick of the clock.
-/

namespace Sys2Proof.Machine

/-- One KCLK cycle passes (18_clocks_reset R496, R500): 2.5 ns. -/
def State.tickOnce (s : State) : State := s.advance 5

/-- One step: the front command's effect on the state with the queue's rest; on an empty queue the clocks move by one tick
(DESIGN CHOICE: assumption 2). -/
def step (s : State) : Host.Outcome State Fault Refusal :=
  match s.pending with
  | [] => .next s.tickOnce
  | c :: rest => exec c { s with pending := rest }

/-- The state with the command that a word spells put at the front of its queue; no row of the table gives bits, so no
word spells a command and the state is unchanged. -/
def State.withFetchWord (s : State) (nbits w : Nat) : State :=
  match decodeTableWord nbits w with
  | some c => { s with pending := c :: s.pending }
  | none => s

end Sys2Proof.Machine
end

