-- ==== Sys2Proof/Certificates/Slice0/Obligations.lean ====
section
/-!
DEFINITION. The statements for the provers. The namespace Sys2Proof.Claims holds the words they are written in and one statement for
each command or rule; at the end each `Obligations.…` gathers the statements of one family.
-/

namespace Sys2Proof.Claims

open Machine

/-! ### Frames: what a statement says stays as it was -/

/-- Of the whole state only core `n` changes. -/
def OnlyCore (n : Nat) (s t : State) : Prop := t = { s with cores := t.cores } ∧ ∀ m, m ≠ n → t.core m = s.core m

/-- Of the whole state only one gang changes, and of its core besides that gang only the round robin pointers, the sticky
flags and the event counters. -/
def OnlyGang (g : GangAt) (s t : State) : Prop :=
  OnlyCore g.core s t ∧ (∀ sl, sl ≠ g.slot → t.gang g.core sl = s.gang g.core sl) ∧
  t.core g.core = { s.core g.core with
    ge := { (s.core g.core).ge with
      slots := (t.core g.core).ge.slots, flags := (t.core g.core).ge.flags
      rrVector := (t.core g.core).ge.rrVector, rrScalar := (t.core g.core).ge.rrScalar }
    dbg := { (s.core g.core).dbg with counters := (t.core g.core).dbg.counters } }

/-- The sticky flags of the gang engine of core `n` are as before. -/
def FlagsStay (n : Nat) (s t : State) : Prop := (t.core n).ge.flags = (s.core n).ge.flags

/-! ### When a gang instruction issues -/

/-- The unit exists, the gang is at an instruction that can issue now, and the loader accepts its fields. -/
def Issues (s : State) (g : GangAt) (i : Instr) (u : RegUse) (c : Nat) (mem : Bool := false) : Prop :=
  g.core < 1280 ∧ g.slot < 16 ∧ s.gangReady g u mem = some c ∧ i.loadErr = none

/-! ### Integer instructions (03_sett R92), over words of the type's width -/

/-- An integer operation: type width, signed, SAT, operands A and B. -/
abbrev IFun := (w : Nat) → (signed sat : Bool) → BitVec w → BitVec w → BitVec w

/-- The number that a word of an integer type stands for. -/
def numOfWord {w : Nat} (signed : Bool) (a : BitVec w) : Int := if signed then a.toInt else (a.toNat : Int)

/-- The exact result, clamped to the type's range. -/
def clampWord (w : Nat) (signed : Bool) (x : Int) : BitVec w :=
  BitVec.ofInt w (if signed then max (-(2 ^ (w - 1))) (min (2 ^ (w - 1) - 1) x) else max 0 (min (2 ^ w - 1) x))

def fnAdd : IFun := fun w sg sat a b => if sat then clampWord w sg (numOfWord sg a + numOfWord sg b) else a + b
def fnSub : IFun := fun w sg sat a b => if sat then clampWord w sg (numOfWord sg a - numOfWord sg b) else a - b
def fnMul : IFun := fun w sg sat a b => if sat then clampWord w sg (numOfWord sg a * numOfWord sg b) else a * b
def fnMulhi : IFun := fun w sg _ a b => BitVec.ofInt w (numOfWord sg a * numOfWord sg b / 2 ^ w)
def fnAnd : IFun := fun _ _ _ a b => a &&& b
def fnOr : IFun := fun _ _ _ a b => a ||| b
def fnXor : IFun := fun _ _ _ a b => a ^^^ b
def fnShl : IFun := fun w sg sat a b => if sat then clampWord w sg (numOfWord sg a * 2 ^ (b.toNat % w)) else a <<< (b.toNat % w)
def fnShr : IFun := fun w _ _ a b => a >>> (b.toNat % w)
def fnSar : IFun := fun w _ _ a b => a.sshiftRight (b.toNat % w)
def fnMin : IFun := fun _ sg _ a b => if numOfWord sg a ≤ numOfWord sg b then a else b
def fnMax : IFun := fun _ sg _ a b => if numOfWord sg a ≤ numOfWord sg b then b else a
def fnMov : IFun := fun _ _ _ _ b => b

/-- A family of instructions of one shape: how each is written, what the loader checks of it, what it computes. -/
structure IntRow where
  instr : GangAt → VForm → Instr
  spec : VSpec
  fn : IFun

/-- The integer instructions of the scalar slot. -/
def scalarRows : List IntRow :=
  [⟨.addScalar, specS tyWide, fnAdd⟩, ⟨.subScalar, specS tyWide, fnSub⟩, ⟨.mulScalar, specS tyWide, fnMul⟩
   , ⟨.mulhiScalar, specS tyWide, fnMulhi⟩, ⟨.andScalar, specS tyInts, fnAnd⟩, ⟨.orScalar, specS tyInts, fnOr⟩
   , ⟨.xorScalar, specS tyInts, fnXor⟩, ⟨.shlScalar, specS tyInts, fnShl⟩, ⟨.shrScalar, specS tyInts, fnShr⟩
   , ⟨.sarScalar, specS tyInts, fnSar⟩, ⟨.minScalar, specS tyInts, fnMin⟩, ⟨.maxScalar, specS tyInts, fnMax⟩
   , ⟨.movScalar, specMovS, fnMov⟩]

/-- The integer instructions of the vector slot. -/
def vectorRows : List IntRow :=
  [⟨.addVector, specV tyWide, fnAdd⟩, ⟨.subVector, specV tyWide, fnSub⟩, ⟨.mulVector, specV [0, 1], fnMul⟩
   , ⟨.mulhiVector, specV [0, 1], fnMulhi⟩, ⟨.andVector, specV tyInts, fnAnd⟩, ⟨.orVector, specV tyInts, fnOr⟩
   , ⟨.xorVector, specV tyInts, fnXor⟩, ⟨.shlVector, specV tyInts, fnShl⟩, ⟨.shrVector, specV tyInts, fnShr⟩
   , ⟨.sarVector, specV tyInts, fnSar⟩, ⟨.minVector, specV tyInts, fnMin⟩, ⟨.maxVector, specV tyInts, fnMax⟩
   , ⟨.movVector, specMovV, fnMov⟩]

/-- A scalar operand (R71, R75, R76): the immediate's low bits, or a scalar register or special value. -/
def scalarSrc (s : State) (g : GangAt) (w : Nat) (imm : Bool) (ext : W64) (code : Nat) : BitVec w :=
  if imm then ext.setWidth w else BitVec.ofNat w ((s.gang g.core g.slot).scalarOp (s.gangEnv g.core g.slot) 0 code)

/-- One integer instruction of the scalar slot completes: its destination holds the result, with every higher bit 0; no
other register of the gang changes, no flag, nothing else of the module. -/
def ScalarInt (r : IntRow) : Prop :=
  ∀ (g : GangAt) (f : VForm) (s : State) (c : Nat), Issues s g (r.instr g f) (vUse r.spec f) c →
    ∃ t, exec (r.instr g f) s = .next t ∧ OnlyGang g s t ∧ FlagsStay g.core s t ∧
      t.gang g.core g.slot = { (s.gang g.core g.slot).advance g.next with s := (t.gang g.core g.slot).s } ∧
      (∀ q, (t.gang g.core g.slot).getS q =
        if q = f.d then (r.fn (tyWidth f.ty) (tySigned f.ty) f.sat (scalarSrc s g _ false 0 f.a) (scalarSrc s g _ f.ib f.ext f.b)).setWidth 64
        else (s.gang g.core g.slot).getS q)

/-- CADDR: the device address of CONST plus operand B. -/
def CaddrRuns : Prop :=
  ∀ (g : GangAt) (f : VForm) (base : Addr) (s : State) (c : Nat), Issues s g (.caddr g f base) (vUse specCaddr f) c →
    ∃ t, exec (.caddr g f base) s = .next t ∧ OnlyGang g s t ∧ FlagsStay g.core s t ∧
      t.gang g.core g.slot = { (s.gang g.core g.slot).advance g.next with s := (t.gang g.core g.slot).s } ∧
      (∀ q, (t.gang g.core g.slot).getS q =
        if q = f.d then base.setWidth 64 + scalarSrc s g 64 f.ib f.ext f.b else (s.gang g.core g.slot).getS q)

/-- A lane's value of a vector register, or of a pair for a 64-bit type. -/
def laneVal (x : Gang) (r l w : Nat) : BitVec w :=
  if w = 64 then BitVec.ofNat w ((x.getV r l).toNat + 2 ^ 32 * (x.getV (r + 1) l).toNat) else (x.getV r l).setWidth w

/-- A source of the vector slot in a lane: immediate, scalar or vector. With both immediates, each is half the extension
word, extended by the type (R76). -/
def laneSrc (s : State) (g : GangAt) (w l : Nat) (signed imm both sc : Bool) (ext : W64) (code : Nat) : BitVec w :=
  if imm then
    (if both then (if signed then (ext.setWidth 32).signExtend w else (ext.setWidth 32).setWidth w) else ext.setWidth w)
  else if sc then BitVec.ofNat w ((s.gang g.core g.slot).scalarOp (s.gangEnv g.core g.slot) l code)
  else laneVal (s.gang g.core g.slot) code l w

/-- Operands B and C of a form. -/
def laneB (s : State) (g : GangAt) (f : VForm) (w l : Nat) (signed : Bool) : BitVec w := laneSrc s g w l signed f.ib f.ic f.bs f.ext f.b
def laneC (s : State) (g : GangAt) (f : VForm) (w l : Nat) (signed : Bool) : BitVec w :=
  laneSrc s g w l signed f.ic f.ib f.cs (if f.ib then f.ext >>> 32 else f.ext) f.c

/-- After a vector instruction of type width `w` with destination `d`, the executing lanes hold `val` and zeros above;
every other register and lane is as before; `draws` counts the gang's stochastic conversions. -/
def LanesHold (s t : State) (g : GangAt) (f : VForm) (w : Nat) (val : Nat → BitVec w) (draws : Nat) : Prop :=
  let x := s.gang g.core g.slot
  let y := t.gang g.core g.slot
  let ex := x.execLanes f.qp f.qn
  y = { x.advance g.next with v := y.v, draws := draws } ∧
  (∀ l, l < 32 → ex.getLsbD l = true → laneVal y f.d l w = val l ∧ (w < 32 → y.getV f.d l = (val l).setWidth 32)) ∧
  (∀ r l, l < 32 → (ex.getLsbD l = false ∨ (r ≠ f.d ∧ (w ≠ 64 ∨ r ≠ f.d + 1))) → y.getV r l = x.getV r l)

/-- One integer instruction of the vector slot completes (R39, R92). -/
def VectorInt (r : IntRow) : Prop :=
  ∀ (g : GangAt) (f : VForm) (s : State) (c : Nat), Issues s g (r.instr g f) (vUse r.spec f) c →
    ∃ t, exec (r.instr g f) s = .next t ∧ OnlyGang g s t ∧ FlagsStay g.core s t ∧
      LanesHold s t g f (tyWidth f.ty) (fun l => r.fn (tyWidth f.ty) (tySigned f.ty) f.sat
        (laneVal (s.gang g.core g.slot) f.a l _) (laneB s g f _ l (tySigned f.ty))) (s.gang g.core g.slot).draws

/-! ### The other vector instructions (03_sett R92 to R95) -/

/-- What an instruction computes in a lane, from its operands A, B and C in that lane. -/
structure LaneRow where
  instr : GangAt → VForm → Instr
  spec : VSpec
  /-- widths of the sources and of the result -/
  src : VForm → Nat
  dst : VForm → Nat
  signed : VForm → Bool
  fn : (s : State) → (g : GangAt) → (f : VForm) → Nat → BitVec (src f) → BitVec (src f) → BitVec (src f) → BitVec (dst f)

/-- Byte `j` of eight bytes. -/
def byteOf (x : BitVec 64) (j : Nat) : BitVec 8 := (x >>> (8 * j)).setWidth 8

/-- SEL, POPC, CLZ, PACK, BPERM. -/
def laneRows : List LaneRow :=
  [⟨.sel, specSel, fun f => tyWidth f.ty, fun f => tyWidth f.ty, fun f => tySigned f.ty, fun s g f l a b _ =>
      if ((s.gang g.core g.slot).getP (f.opx % 8)).getLsbD l = bitOf f.opx 3 then b else a⟩
   , ⟨.popc, specUn, fun _ => 32, fun _ => 32, fun _ => false, fun _ _ _ _ a _ _ => a.cpop⟩
   , ⟨.clz, specUn, fun _ => 32, fun _ => 32, fun _ => false, fun _ _ _ _ a _ _ => a.clz⟩
   , ⟨.pack, specPack, fun _ => 16, fun _ => 32, fun _ => false, fun _ _ _ _ a b _ => b ++ a⟩
   , ⟨.bperm, specBperm, fun _ => 32, fun _ => 32, fun _ => false, fun _ _ _ _ a b c =>
      let j := fun k => ((c >>> (4 * k)).setWidth 3).toNat
      byteOf (b ++ a) (j 3) ++ byteOf (b ++ a) (j 2) ++ byteOf (b ++ a) (j 1) ++ byteOf (b ++ a) (j 0)⟩]

/-- One instruction that works lane by lane completes, and raises no flag. -/
def LaneRuns (r : LaneRow) : Prop :=
  ∀ (g : GangAt) (f : VForm) (s : State) (c : Nat), Issues s g (r.instr g f) (vUse r.spec f) c →
    ∃ t, exec (r.instr g f) s = .next t ∧ OnlyGang g s t ∧ FlagsStay g.core s t ∧
      LanesHold s t g f (r.dst f) (fun l => r.fn s g f l (laneVal (s.gang g.core g.slot) f.a l _)
        (laneB s g f _ l (r.signed f)) (laneC s g f _ l (r.signed f))) (s.gang g.core g.slot).draws

/-- The lane that SHFL reads (R94): form 0 lane B mod 32, 1 l xor B, 2 l − B, 3 l + B; outside 0 to 31 the lane's own. -/
def shuffleLane (form l b : Nat) : Nat :=
  match form with
  | 0 => b % 32
  | 1 => (l ^^^ b) % 32
  | 2 => if b ≤ l then l - b else l
  | _ => if l + b ≤ 31 then l + b else l

/-- SHFL reads all 32 lanes, whatever the mask, and writes the executing ones. -/
def ShflRuns : Prop :=
  ∀ (g : GangAt) (f : VForm) (s : State) (c : Nat), Issues s g (.shfl g f) (vUse specShfl f) c →
    ∃ t, exec (.shfl g f) s = .next t ∧ OnlyGang g s t ∧ FlagsStay g.core s t ∧
      LanesHold s t g f 32 (fun l => (s.gang g.core g.slot).getV f.a (shuffleLane f.opx l (laneB s g f 32 l false).toNat))
        (s.gang g.core g.slot).draws

/-- Node `b` of level `n` of the tree of R94: level 0 has the executing lanes; lanes that do not execute are left out. -/
def treeNode (op ty : Nat) (sat : Bool) (leaf : Nat → Option Nat) : Nat → Nat → Option Nat
  | 0, b => leaf b
  | n + 1, b =>
    match treeNode op ty sat leaf n (2 * b), treeNode op ty sat leaf n (2 * b + 1) with
    | some x, some y => some (redNode op ty sat x y).1
    | some x, none => some x
    | none, y => y

/-- RED: the scalar destination holds the tree's root; an empty mask leaves it unchanged. -/
def RedRuns : Prop :=
  ∀ (g : GangAt) (f : VForm) (s : State) (c : Nat), Issues s g (.red g f) (vUse specRed f) c →
    let x := s.gang g.core g.slot
    ∃ t, exec (.red g f) s = .next t ∧ OnlyGang g s t ∧ (f.ty ≠ 4 → FlagsStay g.core s t) ∧
      t.gang g.core g.slot = { x.advance g.next with s := (t.gang g.core g.slot).s } ∧
      (∀ q, (t.gang g.core g.slot).getS q =
        match treeNode (f.opx % 8) f.ty f.sat (fun l => if (x.execLanes f.qp f.qn).getLsbD l then some (x.getV f.a l).toNat else none) 5 0 with
        | some v => if q = f.d then BitVec.ofNat 64 v else x.getS q
        | none => x.getS q)

/-- The sticky flags accumulate what the executing lanes raise (R62): each flag is set afterwards when it was set before or
a lane raised it. -/
def FlagsGather (s t : State) (g : GangAt) (f : VForm) (raised : Nat → FFlags) : Prop :=
  ∀ flag ∈ [FFlags.ovf, FFlags.unf, FFlags.inx, FFlags.inv],
    (flag (t.core g.core).ge.flags = true ↔ flag (s.core g.core).ge.flags = true ∨
      ∃ l, l < 32 ∧ ((s.gang g.core g.slot).execLanes f.qp f.qn).getLsbD l = true ∧ flag (raised l) = true)

/-- A floating-point instruction: its result and flags in a lane, from the rounding and the operands' words. -/
structure FloatRow where
  instr : GangAt → VForm → Instr
  spec : VSpec
  fn : Rnd → (a b c : Nat) → Nat × FFlags

/-- The FP32 instructions. -/
def floatRows : List FloatRow :=
  [⟨.fadd, specF2 true, fun r a b _ => f32Add r a b⟩, ⟨.fsub, specF2 true, fun r a b _ => f32Sub r a b⟩
   , ⟨.fmul, specF2 true, fun r a b _ => f32Mul r a b⟩, ⟨.fdiv, specF2 true, fun r a b _ => f32Div r a b⟩
   , ⟨.ffma, specF3, fun r a b c => f32Fma r a b c⟩, ⟨.fmin, specF2 false, fun _ a b _ => f32MinMax false a b⟩
   , ⟨.fmax, specF2 false, fun _ a b _ => f32MinMax true a b⟩, ⟨.fabs, specF1 false, fun _ a _ _ => (f32Abs a, {})⟩
   , ⟨.fneg, specF1 false, fun _ a _ _ => (f32Neg a, {})⟩, ⟨.frcp, specF1 false, fun _ a _ _ => f32Rcp a⟩
   , ⟨.frsq, specF1 false, fun _ a _ _ => f32Rsq a⟩, ⟨.fex2, specF1 false, fun _ a _ _ => f32Ex2 a⟩
   , ⟨.flg2, specF1 false, fun _ a _ _ => f32Lg2 a⟩, ⟨.fsqrt, specF1 true, fun r a _ _ => f32Sqrt r a⟩]

/-- One floating-point instruction completes: result and flags in every executing lane, and nothing else. -/
def FloatRuns (r : FloatRow) : Prop :=
  ∀ (g : GangAt) (f : VForm) (s : State) (c : Nat), Issues s g (r.instr g f) (vUse r.spec f) c →
    let op := fun l => r.fn (rndOf f.rnd) ((s.gang g.core g.slot).getV f.a l).toNat (laneB s g f 32 l false).toNat (laneC s g f 32 l false).toNat
    ∃ t, exec (r.instr g f) s = .next t ∧ OnlyGang g s t ∧ FlagsGather s t g f (fun l => (op l).2) ∧
      LanesHold s t g f 32 (fun l => BitVec.ofNat 32 (op l).1) (s.gang g.core g.slot).draws

/-- CVT: the source at the width of its type, the result at the width of TY; a stochastic conversion that executes draws
with the gang's count, which then goes up by one (05_numbers R142). -/
def CvtRuns : Prop :=
  ∀ (g : GangAt) (f : VForm) (s : State) (c : Nat), Issues s g (.cvt g f) (vUse specCvt f) c →
    let x := s.gang g.core g.slot
    let rnd := fun l => if f.rnd = 2 then Rnd.draw (drawOf (s.core g.core).ge.seedNow (32 * g.slot + l) x.draws) else rndOf f.rnd
    let op := fun l => cvtOne f.ty (f.opx % 16) (rnd l) f.sat (laneVal x f.a l (tyWidth (f.opx % 16))).toNat
    ∃ t, exec (.cvt g f) s = .next t ∧ OnlyGang g s t ∧ FlagsGather s t g f (fun l => (op l).2) ∧
      LanesHold s t g f (tyWidth f.ty) (fun l => BitVec.ofNat _ (op l).1)
        (if f.rnd = 2 ∧ x.execLanes f.qp f.qn ≠ 0 then (x.draws + 1) % 2 ^ 32 else x.draws)

/-! ### Predicate instructions (03_sett R80) -/

/-- How two values of a type compare; none when an FP32 operand is a NaN. -/
def compareAt (ty : Nat) {w : Nat} (a b : BitVec w) : Option Ordering :=
  if ty = 4 then (cmpVal 4 a.toNat b.toNat).map (fun v => compare v 0)
  else some (compare (numOfWord (tySigned ty) a) (numOfWord (tySigned ty) b))

/-- The condition codes of R80; with a NaN only `ne` holds. -/
def condition (cc : Nat) (o : Option Ordering) : Bool :=
  match cc with
  | 0 => o == some .eq
  | 1 => o != some .eq
  | 2 => o == some .lt
  | 3 => o == some .lt || o == some .eq
  | 4 => o == some .gt
  | _ => o == some .gt || o == some .eq

/-- Only one predicate register of the gang changes, and p0 never does (R25). -/
def PredIs (s t : State) (g : GangAt) (d : Nat) (bit : Nat → Bool) : Prop :=
  let x := s.gang g.core g.slot
  let y := t.gang g.core g.slot
  y = { x.advance g.next with p := y.p } ∧ 
  (∀ q l, l < 32 → (y.getP q).getLsbD l = if q = d ∧ q ≠ 0 then bit l else (x.getP q).getLsbD l)

/-- SETP: in each executing lane the bit is the condition on A and B; the other lanes keep theirs. -/
def SetpRuns : Prop :=
  ∀ (g : GangAt) (f : VForm) (s : State) (c : Nat), Issues s g (.setp g f) (vUse specSetp f) c →
    let x := s.gang g.core g.slot
    ∃ t, exec (.setp g f) s = .next t ∧ OnlyGang g s t ∧ FlagsStay g.core s t ∧ PredIs s t g f.d (fun l =>
      if (x.execLanes f.qp f.qn).getLsbD l
      then condition (f.opx % 8) (compareAt f.ty (laneVal x f.a l (tyWidth f.ty)) (laneB s g f _ l (tySigned f.ty)))
      else (x.getP f.d).getLsbD l)

/-- PLOG: the operation on two predicate registers, bit by bit. -/
def PlogRuns : Prop :=
  ∀ (g : GangAt) (f : VForm) (s : State) (c : Nat), Issues s g (.plog g f) (vUse specPlog f) c →
    let a := (s.gang g.core g.slot).getP f.a
    let b := (s.gang g.core g.slot).getP f.b
    ∃ t, exec (.plog g f) s = .next t ∧ OnlyGang g s t ∧ FlagsStay g.core s t ∧ PredIs s t g f.d
      (match f.opx % 8 with | 0 => a &&& b | 1 => a ||| b | 2 => a ^^^ b | 3 => a &&& ~~~b | 4 => ~~~a | _ => a).getLsbD

/-- PBAL: the scalar register holds the predicate's bits of the active lanes. -/
def PbalRuns : Prop :=
  ∀ (g : GangAt) (f : VForm) (s : State) (c : Nat), Issues s g (.pbal g f) (vUse specPbal f) c →
    let x := s.gang g.core g.slot
    ∃ t, exec (.pbal g f) s = .next t ∧ OnlyGang g s t ∧ FlagsStay g.core s t ∧
      t.gang g.core g.slot = { x.advance g.next with s := (t.gang g.core g.slot).s } ∧
      (∀ q, (t.gang g.core g.slot).getS q = if q = f.d then (x.getP f.a &&& x.mask).setWidth 64 else x.getS q)

/-- PSET: the predicate register holds the low 32 bits of the scalar operand. -/
def PsetRuns : Prop :=
  ∀ (g : GangAt) (f : VForm) (s : State) (c : Nat), Issues s g (.pset g f) (vUse specPset f) c →
    ∃ t, exec (.pset g f) s = .next t ∧ OnlyGang g s t ∧ FlagsStay g.core s t ∧ PredIs s t g f.d (scalarSrc s g 32 f.ib f.ext f.b).getLsbD

/-- SCMP: all ones when the condition holds for the two scalars, else all zeros. -/
def ScmpRuns : Prop :=
  ∀ (g : GangAt) (f : VForm) (s : State) (c : Nat), Issues s g (.scmp g f) (vUse specScmp f) c →
    ∃ t, exec (.scmp g f) s = .next t ∧ OnlyGang g s t ∧ FlagsStay g.core s t ∧ PredIs s t g f.d
      (fun _ => condition (f.opx % 8) (compareAt f.ty (scalarSrc s g (tyWidth f.ty) false 0 f.a) (scalarSrc s g (tyWidth f.ty) f.ib f.ext f.b)))

/-! ### Sequencing of gangs (02_gangs R25, R36 to R43; 03_sett R74, R77 to R79) -/

/-- A gang instruction completes: the gang of the slot becomes `y`, no flag changes, and nothing else. -/
def GangBecomes (i : Instr) (g : GangAt) (s : State) (y : Gang) : Prop :=
  ∃ t, exec i s = .next t ∧ OnlyGang g s t ∧ FlagsStay g.core s t ∧ t.gang g.core g.slot = y

/-- NOP_INSN: the gang goes on to the next instruction. -/
def NopInsnRuns : Prop :=
  ∀ (g : GangAt) (s : State) (c : Nat), Issues s g (.nopInsn g) {} c →
    GangBecomes (.nopInsn g) g s ((s.gang g.core g.slot).advance g.next)

/-- BRA: every active lane jumps. -/
def BraRuns : Prop :=
  ∀ (g : GangAt) (tgt : Addr) (s : State) (c : Nat), Issues s g (.bra g tgt) {} c →
    GangBecomes (.bra g tgt) g s ((s.gang g.core g.slot).goto tgt)

/-- The stack after a divergent branch (R36): a join entry, unless the top is one with the same join point, then the pending
entry. -/
def branchStack (x : Gang) (t : W32) (tgt join : Addr) : List RecEntry :=
  let parked := match x.rstack with
    | e :: _ => decide (e.pending = false ∧ e.join = join)
    | [] => false
  (⟨true, tgt, t, join⟩ : RecEntry) :: (if parked then x.rstack else ⟨false, join, x.mask, join⟩ :: x.rstack)

/-- BR: all active lanes jump, none does, or the paths are stacked and the fall-through path runs first. -/
def BrRuns : Prop :=
  ∀ (g : GangAt) (p : Nat) (pn : Bool) (tgt join : Addr) (s : State) (c : Nat), Issues s g (.br g p pn tgt join) {} c →
    let x := s.gang g.core g.slot
    let t := if pn then x.mask &&& ~~~(x.getP p) else x.mask &&& x.getP p
    (t = x.mask → GangBecomes (.br g p pn tgt join) g s (x.goto tgt)) ∧
    (t ≠ x.mask → t = 0 → GangBecomes (.br g p pn tgt join) g s (x.advance g.next)) ∧
    (t ≠ x.mask → t ≠ 0 → (branchStack x t tgt join).length ≤ 32 →
      GangBecomes (.br g p pn tgt join) g s
        ({ x with rstack := branchStack x t tgt join, mask := x.mask &&& ~~~t }.advance g.next))

/-- LOOP_INSN: the count is captured when the loop is entered; a count of 0 skips the body, and the loops around it that end at the
same instruction go on (R41, R42). -/
def LoopInsnRuns : Prop :=
  ∀ (g : GangAt) (sreg : Nat) (last after : Addr) (s : State) (c : Nat), Issues s g (.loopInsn g sreg last after) { sr := [sreg] } c →
    let x := s.gang g.core g.slot
    let n := ((x.getS sreg).setWidth 32).toNat
    (n = 0 → GangBecomes (.loopInsn g sreg last after) g s
      ({ x with lstack := (loopBack last after x.lstack).1 }.goto (loopBack last after x.lstack).2)) ∧
    (n ≠ 0 → x.lstack.length < 4 → GangBecomes (.loopInsn g sreg last after) g s
      ({ x with lstack := { first := g.next, last := last, after := after, count := n, iter := 0 } :: x.lstack }.goto g.next))

/-- EXIT: the executing lanes leave for good; the others go on, or an earlier path does, or the slot is freed and the
launch has one live gang fewer (R40). -/
def ExitRuns : Prop :=
  ∀ (g : GangAt) (qp : Nat) (qn : Bool) (s : State) (c : Nat), Issues s g (.exit g qp qn) {} c →
    let x := s.gang g.core g.slot
    let gone := x.execLanes qp qn
    let left := { x with exited := x.exited ||| gone, mask := x.mask &&& ~~~gone }
    let y := if left.mask = 0 then left.goto x.pc else left.advance g.next
    (y.mask ≠ 0 → GangBecomes (.exit g qp qn) g s y) ∧
    (y.mask = 0 → ∃ t, exec (.exit g qp qn) s = .next t ∧ OnlyCore g.core s t ∧ t.gang g.core g.slot = {} ∧
      (∀ sl, sl ≠ g.slot → t.gang g.core sl = s.gang g.core sl) ∧
      (∀ l ∈ (s.core g.core).ge.launches, l.id = x.launch →
        ∃ m ∈ (t.core g.core).ge.launches, m.id = l.id ∧ m.started = l.started ∧ m.live = l.live - 1))

/-- The instruction whose fields the loader would reject is an undefined native encoding (R64): it faults the context with
ILLEGAL_INSN, changes no gang and stops the core's gang engine (R65). -/
def IllegalFaults : Prop :=
  ∀ r ∈ scalarRows ++ vectorRows, ∀ (g : GangAt) (f : VForm) (s : State) (c : Nat), g.core < 1280 → g.slot < 16 →
    s.gangReady g (vUse r.spec f) = some c → (r.instr g f).loadErr ≠ none → (s.ctx c).fault = none →
    ∃ t f', exec (r.instr g f) s = .next t ∧ (t.ctx c).fault = some f' ∧ f'.cause = .illegalInsn ∧ f'.core = g.core ∧ f'.gang = g.slot ∧
      f'.npc = (s.gang g.core g.slot).pc.toNat ∧ f'.mask = (s.gang g.core g.slot).mask.toNat ∧
      (t.core g.core).ge.stopped = true ∧ (∀ sl, t.gang g.core sl = s.gang g.core sl) ∧ t.far = s.far ∧ t.host = s.host

/-! ### Code fetch and the life of a launch (02_gangs R27 to R32, R556) -/

/-- CODE_FETCH: the instruction comes from the controller into the core's buffer; no byte of memory changes. -/
def CodeFetchRuns : Prop :=
  ∀ (core slot : Nat) (s : State) (c : Nat), core < 1280 → slot < 16 → s.live core = some c → (s.gang core slot).live = true →
    (s.core core).ge.stopped = false → (s.gang core slot).pc.toNat ∉ (s.core core).ge.ibuf →
    (s.ctx c).farOk .x (s.gang core slot).pc.toNat 1 = true → s.far.bad = [] →
    ∃ t, exec (.codeFetch core slot) s = .next t ∧ OnlyCore core s t ∧
      t.core core = { s.core core with ge := { (s.core core).ge with ibuf := (s.core core).ge.ibuf ++ [(s.gang core slot).pc.toNat] } }

/-- GANG_START: the next gang of the launch starts in the lowest free slot, with the state of R27. -/
def GangStartRuns : Prop :=
  ∀ (core sl : Nat) (l : Launch) (s : State) (c : Nat), core < 1280 → s.live core = some c →
    (s.core core).ge.launches.find? (fun l => decide (l.started < l.count)) = some l →
    sl < 16 → (s.gang core sl).live = false → (∀ i, i < sl → (s.gang core i).live = true) →
    ∃ t, exec (.gangStart core) s = .next t ∧ OnlyCore core s t ∧ (∀ i, i ≠ sl → t.gang core i = s.gang core i) ∧
      let x := t.gang core sl
      x.live = true ∧ x.launch = l.id ∧ x.index = l.started ∧ x.mask = BitVec.allOnes 32 ∧ x.rstack = [] ∧ x.lstack = [] ∧ x.pc = l.entry ∧
      (∀ r, x.getS r = if r < 8 then l.args.getD r 0 else 0) ∧ (∀ r k, x.getV r k = 0) ∧ (∀ r, 1 ≤ r → x.getP r = 0) ∧
      (t.core core).ge.launches = (s.core core).ge.launches.map (fun m => if m.id = l.id then { m with started := m.started + 1, live := m.live + 1 } else m)

/-- LAUNCH_RETIRE: when the last gang has exited and every memory request has completed, the launch is gone and its record
leaves the queue's flight. -/
def LaunchRetireRuns : Prop :=
  ∀ (core id : Nat) (l : Launch) (f : Flight) (s : State) (c : Nat), core < 1280 → s.live core = some c →
    l ∈ (s.core core).ge.launches → l.id = id → l.started = l.count → l.live = 0 → l.out = 0 →
    (s.queue core 0).flight.find? (fun f => f.id == id) = some f → (s.core core).crecFull 0 = false →
    ∃ t, exec (.launchRetire core id) s = .next t ∧ (∀ m, m ≠ core → t.core m = s.core m) ∧ t.far = s.far ∧ t.host = s.host ∧
      (t.core core).ge.launches = (s.core core).ge.launches.filter (fun l => l.id != id) ∧ (∀ sl, t.gang core sl = s.gang core sl) ∧
      (t.queue core 0).flight = (s.queue core 0).flight.filter (fun g => g.id != id)

/-- LAUNCH_TIMEOUT: an unretired launch that has run its timeout kills its context with SYNC_TIMEOUT. -/
def LaunchTimeoutRuns : Prop :=
  ∀ (core id now : Nat) (l : Launch) (s : State) (c : Nat),
    let u := s.advanceTo now
    core < 1280 → u.live core = some c → (u.ctx c).fault = none →
    (u.core core).ge.launches.find? (fun l => l.id == id) = some l →
    u.ctxNow c ≥ l.start + 1000 * (if l.tmo = 0 then u.waitUs else min l.tmo 10000000) →
    ∃ t f, exec (.launchTimeout core id now) s = .next t ∧ (t.ctx c).fault = some f ∧ f.cause = .syncTimeout ∧ f.core = core ∧ f.qid = 4 * core ∧
      f.time = u.now ∧ (t.core core).ge.stopped = true ∧ t.far = u.far ∧ t.host = u.host

/-! ### Memory instructions of gangs (02_gangs R44 to R56, R64; 06_slab R149 to R166; 08_far R230 to R240) -/

/-- The core of an issuing gang becomes `k`, but for the round robin pointers and the event counters; the messages in flight
become `net`; nothing else of the module changes. -/
def CoreBecomes (n : Nat) (s t : State) (k : Core) (net : Net) : Prop :=
  t = { s with cores := t.cores, net := net } ∧ (∀ m, m ≠ n → t.core m = s.core m) ∧
  ∃ rv rs ct, t.core n = { k with ge := { k.ge with rrVector := rv, rrScalar := rs }, dbg := { k.dbg with counters := ct } }

/-- What an SLD or SST asks of the port of the slab's core. -/
def slabAsk (g : GangAt) (f : VForm) (store : Bool) (x : Gang) (c slab cycle : Nat) : Unpl :=
  { write := store, slab := slab, data := if store then gatherSlab x f.d else [], ctx := c, who := ⟨g.core, g.slot⟩, uid := x.uid
    insn := x.insnAt g.slot, load := x.nextId, dreg := f.d, since := cycle }

/-- The gang after an SLD or SST has issued: four registers are reserved, or a store is outstanding. -/
def slabGang (g : GangAt) (f : VForm) (store : Bool) (x : Gang) : Gang :=
  (if store then { x with nextId := x.nextId + 1, stores := x.stores + 1 }
   else { x with nextId := x.nextId + 1, loads := x.loads ++ [({ id := x.nextId, regs := [f.d, f.d + 1, f.d + 2, f.d + 3], left := 1 } : GangLoad)] }).advance g.next

/-- SLD (`store` false) or SST issues: its access waits at the port of its own core, or is on its way to another's. -/
def SlabIssues (instr : GangAt → VForm → Instr) (store : Bool) : Prop :=
  ∀ (g : GangAt) (f : VForm) (s : State) (c home off : Nat),
    let x := s.gang g.core g.slot
    let a := slabAddr (s.gangEnv g.core g.slot) x f
    Issues s g (instr g f)
      (if store then { vr := destRegs f.d 16, sr := if f.a < 64 then [f.a] else [] } else { vw := destRegs f.d 16, sr := if f.a < 64 then [f.a] else [] }) c →
    addrClass a = .slab home off → (s.ctx c).bench.contains home = true → (s.ctx c).granted (if store then .w else .r) a 512 = true →
    (home = g.core → ((s.core home).slab.bank (off / 512) = .on ∨ (s.core home).slab.bank (off / 512) = .waking) →
      (s.core home).slab.unplanned.length < 32 →
      ∃ t, exec (instr g f) s = .next t ∧ CoreBecomes g.core s t
        { (s.core g.core).setGang g.slot (slabGang g f store x) with slab := { (s.core g.core).slab with
            unplanned := joinUnpl home (slabAsk g f store x c (off / 512) (s.cycleOf home)) (s.core g.core).slab.unplanned } } s.net) ∧
    (home ≠ g.core →
      ∃ t, exec (instr g f) s = .next t ∧ CoreBecomes g.core s t ((s.core g.core).setGang g.slot (slabGang g f store x))
        { s.net with slabs := s.net.slabs ++ [({ home := home, req := slabAsk g f store x c (off / 512) (s.cycleOf home) } : RemoteSlab)] })

/-- SLD issues: its read waits at the slab port of its own core, or is on its way to another. -/
def SldIssues : Prop := SlabIssues .sld false
/-- SST issues: its 512 bytes wait to be written, or are on their way. -/
def SstIssues : Prop := SlabIssues .sst true

/-- A granted SLD of the port's own core: byte b of the slab is in lane b / 16, register vd + (b mod 16) / 4, byte b mod 4
(R45); with `rdFree` 1 and no write slot the oldest access alone is granted. The port's table leaves a read slot free, and no
planned read has the bank (10_cutplan R292). -/
def GrantReadRuns : Prop :=
  ∀ (core : Nat) (busy : W32) (u : Unpl) (rest : List Unpl) (s : State),
    core < 1280 → (s.core core).slab.unplanned = u :: rest → u.write = false → (s.core core).slab.bank u.slab = .on →
    busy.getLsbD (u.slab % 32) = false → 0 < s.freeReads core → u.slab % 32 ∉ ((s.core core).slab.portIn (s.cycleOf core)).banks →
    (∀ i, i < 8 → tblFind (8 * u.slab + i) (s.core core).slab.bad = none) →
    (s.ctx u.ctx).killing = false → u.who.core = core → (s.gang core u.who.unit).live = true → (s.gang core u.who.unit).uid = u.uid →
    (s.gang core u.who.unit).wait = .none →
    let x := s.gang core u.who.unit
    ∃ t, exec (.unplannedGrant core 1 false busy) s = .next t ∧ OnlyCore core s t ∧
      (t.core core).slab.unplanned = rest ∧ (t.core core).slab.mem = (s.core core).slab.mem ∧ (∀ sl, sl ≠ u.who.unit → t.gang core sl = s.gang core sl) ∧
      (∀ r l, r < 4 → l < 32 → (t.gang core u.who.unit).getV (u.dreg + r) l =
        BitVec.ofNat 32 (ofLe (memReadN (s.core core).slab.mem (512 * u.slab + 16 * l + 4 * r) 4))) ∧
      (∀ r l, r < u.dreg ∨ u.dreg + 4 ≤ r → l < 32 → (t.gang core u.who.unit).getV r l = x.getV r l) ∧
      t.gang core u.who.unit = { x with v := (t.gang core u.who.unit).v, loads := (t.gang core u.who.unit).loads }

/-- A granted SST: the whole slab is written, and no other byte of slab memory. The port's table leaves the write slot free. -/
def GrantWriteRuns : Prop :=
  ∀ (core : Nat) (busy : W32) (u : Unpl) (rest : List Unpl) (s : State),
    core < 1280 → (s.core core).slab.unplanned = u :: rest → u.write = true →
    (s.core core).slab.bank u.slab ≠ .waking → s.freeWrite core = true → u.data.length = 512 → Memory.wf (s.core core).slab.mem = true →
    u.who.core = core → (s.gang core u.who.unit).live = true → (s.gang core u.who.unit).uid = u.uid →
    let x := s.gang core u.who.unit
    ∃ t, exec (.unplannedGrant core 0 true busy) s = .next t ∧ OnlyCore core s t ∧
      (t.core core).slab.unplanned = rest ∧ memReadN (t.core core).slab.mem (512 * u.slab) 512 = u.data ∧
      (∀ a, a < 512 * u.slab ∨ 512 * u.slab + 512 ≤ a → memRead (t.core core).slab.mem a = memRead (s.core core).slab.mem a) ∧
      (∀ sl, sl ≠ u.who.unit → t.gang core sl = s.gang core sl) ∧ t.gang core u.who.unit = { x with stores := x.stores - 1 }

/-- No access is granted in a cycle whose slots planned accesses own (01_module R17; 10_cutplan R292): the unplanned queue, slab
memory and every gang stay. -/
def GrantHeldRuns : Prop :=
  ∀ (core rdFree : Nat) (wrFree : Bool) (busy : W32) (s : State), core < 1280 → s.freeReads core = 0 → s.freeWrite core = false →
    ∃ t, exec (.unplannedGrant core rdFree wrFree busy) s = .next t ∧ OnlyCore core s t ∧
      (t.core core).slab.unplanned = (s.core core).slab.unplanned ∧ (t.core core).slab.mem = (s.core core).slab.mem ∧
      (∀ sl, t.gang core sl = s.gang core sl)

/-- Which slots are free (R292): a read slot whose owner field is 0 or one of the reserved values 4 to 7, the write slot with owner 0
or one of 6 and 7. -/
def FreeSlotsAre : Prop :=
  ∀ (core : Nat) (s : State), let w := tblGet 0 (s.core core).portTable (s.cycleOf core % 4096)
    let open_ := fun (v : Nat) => decide (v = 0 ∨ 4 ≤ v)
    s.freeReads core = boolN (open_ (bitsOf w 2 0)) + boolN (open_ (bitsOf w 10 8)) ∧
    (s.freeWrite core = true ↔ bitsOf w 18 16 = 0 ∨ 6 ≤ bitsOf w 18 16)

/-- ECC_REWRITE: the oldest codeword that waits is rewritten in a write slot that no planned access owns, and no longer counts as
in error (R163). -/
def EccRewriteRuns : Prop :=
  ∀ (core cw : Nat) (rest : List Nat) (s : State), core < 1280 → (s.core core).slab.rewrites = cw :: rest →
    (s.core core).slab.bank (cw / 8) ≠ .waking → s.freeWrite core = true →
    ∃ t, exec (.eccRewrite core true) s = .next t ∧ OnlyCore core s t ∧
      t.core core = { s.core core with slab := { (s.core core).slab with rewrites := rest, bad := tblDrop cw (s.core core).slab.bad } }

/-- REMOTE_SLAB_ACCESS: an access that no earlier one of the same source to the same home precedes reaches the port (R48,
R152). -/
def RemoteSlabAccessRuns : Prop :=
  ∀ (k : Nat) (m : RemoteSlab) (s : State), s.net.slabs[k]? = some m →
    (∀ o ∈ s.net.slabs.take k, o.req.who ≠ m.req.who ∨ o.home ≠ m.home) → (s.ctx m.req.ctx).killing = false →
    ((s.core m.home).slab.bank m.req.slab = .on ∨ (s.core m.home).slab.bank m.req.slab = .waking) →
    (s.core m.home).slab.unplanned.length < 32 →
    exec (.remoteSlabAccess k) s = .next ({ s with net := { s.net with slabs := s.net.slabs.take k ++ s.net.slabs.drop (k + 1) } }.setCore m.home
      { s.core m.home with slab := { (s.core m.home).slab with
          unplanned := joinUnpl m.home { m.req with since := s.cycleOf m.home } (s.core m.home).slab.unplanned } })

/-- REMOTE_SLD_REPLY: the slab's bytes reach the registers of the gang that asked. -/
def RemoteSldReplyRuns : Prop :=
  ∀ (k : Nat) (m : SlabReply) (s : State), s.net.slabReplies[k]? = some m → (s.ctx m.ctx).killing = false →
    (s.gang m.who.core m.who.unit).live = true → (s.gang m.who.core m.who.unit).uid = m.uid → m.data.length = 512 →
    let n := m.who.core
    let x := s.gang n m.who.unit
    ∃ t, exec (.remoteSldReply k) s = .next t ∧
      t = { s with cores := t.cores, net := { s.net with slabReplies := s.net.slabReplies.take k ++ s.net.slabReplies.drop (k + 1) } } ∧
      (∀ j, j ≠ n → t.core j = s.core j) ∧ t.core n = (s.core n).setGang m.who.unit (t.gang n m.who.unit) ∧
      (∀ r l, r < 4 → l < 32 → (t.gang n m.who.unit).getV (m.dreg + r) l = BitVec.ofNat 32 (ofLe ((m.data.drop (16 * l + 4 * r)).take 4))) ∧
      (∀ r l, r < m.dreg ∨ m.dreg + 4 ≤ r → l < 32 → (t.gang n m.who.unit).getV r l = x.getV r l)

/-! ### LD, ST and ATOM, by the line -/

/-- The executing lanes of a memory instruction all lie in line `ln`, and every lane passes the checks of R64. -/
def OneLine (s : State) (g : GangAt) (f : VForm) (c ln : Nat) (right : Right) : Prop :=
  let x := s.gang g.core g.slot
  let a := laneAddr (s.gangEnv g.core g.slot) x f
  x.todo = [] ∧ lanesOf (x.execLanes f.qp f.qn) ≠ [] ∧ 128 * ln + 128 ≤ farTop ∧
  ∀ l ∈ lanesOf (x.execLanes f.qp f.qn), a l / 128 = ln ∧ (s.ctx c).farOk right (a l) (2 ^ opxSz f) = true ∧ a l % 2 ^ opxSz f = 0

/-- The 32-bit word that an LD writes in its i-th register, from the bytes of memory at the lane's address (R81, R82). -/
def loadedWord (f : VForm) (m : Nat → Byte) (i : Nat) : W32 :=
  let n := 2 ^ opxSz f
  let raw := ofLe ((List.range (min n 4)).map (fun j => m (4 * i + j)))
  BitVec.ofNat 32 (if opxSx f ∧ n < 4 ∧ 2 ^ (8 * n - 1) ≤ raw then raw + 2 ^ 32 - 2 ^ (8 * n) else raw)

/-- LD whose line is resident with every byte it reads valid: the lanes' registers hold the bytes, at once (R52, R232). -/
def LdHitRuns : Prop :=
  ∀ (g : GangAt) (f : VForm) (s : State) (c ln p : Nat), Issues s g (.ld g f) (ldUse f) c true → OneLine s g f c ln .r →
    let x := s.gang g.core g.slot
    let a := laneAddr (s.gangEnv g.core g.slot) x f
    let fc := (s.core g.core).fc
    fc.place c ln = some p → (∀ l ∈ lanesOf (x.execLanes f.qp f.qn), ∀ j, j < 2 ^ opxSz f → (fc.at p).valid.getLsbD (a l % 128 + j) = true) →
    (∀ i, i < 8 → tblFind (8 * p + i) fc.bad = none) →
    ∃ t v ls, exec (.ld g f) s = .next t ∧
      CoreBecomes g.core s t { (s.core g.core).setGang g.slot ({ x with nextId := x.nextId + 1, v := v, loads := ls }.advance g.next) with fc := fc.touch p true } s.net ∧
      ((∀ l ∈ x.loads, l.id ≠ x.nextId ∧ l.left ≠ 0) → ls = x.loads) ∧
      (∀ r l, l < 32 → tblGet 0 v (32 * r + l) =
        if (x.execLanes f.qp f.qn).getLsbD l ∧ f.d ≤ r ∧ r < f.d + (2 ^ opxSz f + 3) / 4
        then loadedWord f (fun j => memRead (fc.at p).data (a l % 128 + j)) (r - f.d) else x.getV r l)

/-- LD whose line is not resident and has no miss entry, with NA: one entry waits for the line and the gang goes on, with the
destination registers reserved (R52, R237). The stride detector moves (R238); it changes the cache alone, and with PF_EN 0 it
asks for no other line. -/
def LdMissRuns : Prop :=
  ∀ (g : GangAt) (f : VForm) (s : State) (c ln : Nat), Issues s g (.ld g f) (ldUse f) c true → OneLine s g f c ln .r →
    let x := s.gang g.core g.slot
    let fc := (s.core g.core).fc
    fc.place c ln = none → (∀ m ∈ fc.misses, m.line ≠ ln ∨ m.ctx ≠ c) → fc.misses.length < 64 → opxNa f = true →
    ∃ t part fc', exec (.ld g f) s = .next t ∧ part.line = ln ∧ part.store = false ∧ part.load = x.nextId ∧ part.form = f ∧
      part.lanes.map Prod.fst = lanesOf (x.execLanes f.qp f.qn) ∧
      ({ line := ln, ctx := c, parts := [part], noAlloc := true, seq := fc.nextId } : FcMiss) ∈ fc'.misses ∧
      (fc.ctrlNow.pfEn = false → fc' = { fc with
        strides := tblSet g.slot { x0 := some ln, d := match (tblGet ({} : StrideDet) fc.strides g.slot).x0 with | some x => (ln : Int) - x | none => 0 } fc.strides
        misses := fc.misses ++ [({ line := ln, ctx := c, parts := [part], noAlloc := true, seq := fc.nextId } : FcMiss)], nextId := fc.nextId + 1 }) ∧
      CoreBecomes g.core s t { (s.core g.core).setGang g.slot
          ({ x with nextId := x.nextId + 1, loads := x.loads ++ [({ id := x.nextId, regs := destRegs f.d (2 ^ opxSz f), left := 1 } : GangLoad)] }.advance g.next) with fc := fc' } s.net

/-- The bytes that an ST of one line stores, by offset, of lanes that name distinct locations: in order of the lanes. -/
def storedBytes (s : State) (g : GangAt) (f : VForm) : List (Nat × Byte) :=
  let x := s.gang g.core g.slot
  let env := s.gangEnv g.core g.slot
  (lanesOf (x.execLanes f.qp f.qn)).flatMap (fun l =>
    (List.range (2 ^ opxSz f)).map (fun j => (laneAddr env x f l % 128 + j, (storeBytes env x f l).getD j 0)))

/-- ST whose line is resident: its bytes are merged into the line and are dirty; memory itself is unchanged (R233). -/
def StHitRuns : Prop :=
  ∀ (g : GangAt) (f : VForm) (s : State) (c ln p : Nat), Issues s g (.st g f) (stUse f) c true → OneLine s g f c ln .w →
    let x := s.gang g.core g.slot
    let fc := (s.core g.core).fc
    (∀ l ∈ lanesOf (x.execLanes f.qp f.qn), ∀ m ∈ lanesOf (x.execLanes f.qp f.qn), l ≠ m →
      laneAddr (s.gangEnv g.core g.slot) x f l ≠ laneAddr (s.gangEnv g.core g.slot) x f m) →
    fc.place c ln = some p →
    ∃ t, exec (.st g f) s = .next t ∧
      CoreBecomes g.core { s with draws := s.draws + 1 } t { (s.core g.core).setGang g.slot ({ x with nextId := x.nextId + 1 }.advance g.next) with
        fc := (fc.put p ((fc.at p).merge (storedBytes s g f) false)).touch p true } s.net

/-- ST with NA whose line is not resident: a write-around waits to be accepted, and the gang has a store outstanding (R236,
R237). -/
def StAroundRuns : Prop :=
  ∀ (g : GangAt) (f : VForm) (s : State) (c ln : Nat), Issues s g (.st g f) (stUse f) c true → OneLine s g f c ln .w →
    let x := s.gang g.core g.slot
    let fc := (s.core g.core).fc
    (∀ l ∈ lanesOf (x.execLanes f.qp f.qn), ∀ m ∈ lanesOf (x.execLanes f.qp f.qn), l ≠ m →
      laneAddr (s.gangEnv g.core g.slot) x f l ≠ laneAddr (s.gangEnv g.core g.slot) x f m) →
    fc.place c ln = none → opxNa f = true → fc.wbs.length < 16 →
    ∃ t str, exec (.st g f) s = .next t ∧
      CoreBecomes g.core { s with draws := s.draws + 1 } t
        { (s.core g.core).setGang g.slot ({ x with nextId := x.nextId + 1, stores := x.stores + 1 }.advance g.next) with
          fc := { fc with streams := str, wbs := fc.wbs ++ [({ id := fc.nextId, line := ln, ctx := c, slot := some (x.insnAt g.slot), bytes := storedBytes s g f } : FcWb)], nextId := fc.nextId + 1 } } s.net

/-- What merging bytes into a line does: an offset that is named holds the last byte named for it, and is valid, and dirty
after a store; a fill leaves dirty bytes as they are (R231). -/
def MergeReads : Prop :=
  ∀ (l : FcLine) (bs : List (Nat × Byte)) (fill : Bool) (o : Nat), Memory.wf l.data = true → o < 128 →
    let m := l.merge bs fill
    (((∀ b ∈ bs, b.1 ≠ o) ∨ (fill = true ∧ l.dirty.getLsbD o = true)) →
      memRead m.data o = memRead l.data o ∧ m.valid.getLsbD o = l.valid.getLsbD o ∧ m.dirty.getLsbD o = l.dirty.getLsbD o) ∧
    (∀ pre v post, bs = pre ++ (o, v) :: post → (∀ b ∈ post, b.1 ≠ o) → (fill = false ∨ l.dirty.getLsbD o = false) →
      memRead m.data o = v ∧ m.valid.getLsbD o = true ∧ m.dirty.getLsbD o = (!fill))

/-- ATOM on one location, whose line is not in the cache: one message goes to the controller, with each lane's operands in
ascending lane order (R54, R55). Fills of the line that are under way become stale (12_model R329). -/
def AtomRuns : Prop :=
  ∀ (g : GangAt) (f : VForm) (s : State) (c ad : Nat), Issues s g (.atom g f) (atomUse f) c →
    let x := s.gang g.core g.slot
    let env := s.gangEnv g.core g.slot
    let lanes := lanesOf (x.execLanes f.qp f.qn)
    let w := tyWidth f.ty
    lanes ≠ [] → (∀ l ∈ lanes, laneAddr env x f l = ad) → ad % 2 ^ opxSz f = 0 →
    (s.ctx c).farOk .r ad (2 ^ opxSz f) = true → (s.ctx c).farOk .w ad (2 ^ opxSz f) = true → (s.core g.core).fc.place c (ad / 128) = none →
    ∃ t, exec (.atom g f) s = .next t ∧
      CoreBecomes g.core s t { (s.core g.core).setGang g.slot
          ({ x with nextId := x.nextId + 1, loads := x.loads ++ [({ id := x.nextId, regs := destRegs f.d (2 ^ opxSz f), left := 1 } : GangLoad)] }.advance g.next) with
        fc := { (s.core g.core).fc with
          misses := (s.core g.core).fc.misses.map (fun m => if m.ctx = c ∧ m.line = ad / 128 then { m with stale := true } else m)
          nextId := (s.core g.core).fc.nextId + 1 } }
        { s.net with atoms := s.net.atoms ++ [({ ctx := c, core := g.core, slot := g.slot, uid := x.uid, insn := x.insnAt g.slot, load := x.nextId, form := f, addr := ad,
                                                                   lanes := lanes.map (fun l => (l, opB env x f (tySigned f.ty) w l, opC env x f (tySigned f.ty) w l)), seq := (s.core g.core).fc.nextId } : AtomMsg)] }

/-- The values that an atomic leaves at its location, lane after lane in ascending order, starting with the old one. -/
def atomValue (f : VForm) (lanes : List (Nat × Nat × Nat)) (v : Nat) : Nat :=
  lanes.foldl (fun v l => atomNew (opxAop f) (tyWidth f.ty) (tySigned f.ty) v l.2.1 l.2.2) v

/-- ATOM_COMPLETE: the location holds the last value, no other byte of memory changes, and each lane's register holds the
value that it found (R54, R55). -/
def AtomCompleteRuns : Prop :=
  ∀ (k : Nat) (m : AtomMsg) (s : State), s.net.atoms[k]? = some m →
    (∀ o ∈ s.net.atoms.take k, o.core ≠ m.core ∨ o.slot ≠ m.slot ∨ o.addr ≠ m.addr) →
    (∀ w ∈ (s.core m.core).fc.wbs, w.line ≠ m.addr / 128 ∨ m.seq ≤ w.id) →
    (∀ j ∈ (s.core m.core).fc.misses, j.line ≠ m.addr / 128 ∨ m.seq ≤ j.seq) →
    (∀ o ∈ s.net.atoms, o.core ≠ m.core ∨ o.addr / 128 ≠ m.addr / 128 ∨ m.seq ≤ o.seq) → s.far.bad = [] → Memory.wf s.far.mem = true → (s.ctx m.ctx).killing = false →
    (s.gang m.core m.slot).live = true → (s.gang m.core m.slot).uid = m.uid → s.links.twin.mset = none →
    (m.lanes.map Prod.fst).Nodup → (∀ l ∈ m.lanes, l.1 < 32) → opxSz m.form ≤ 3 →
    let n := 2 ^ opxSz m.form
    let old := ofLe (memReadN s.far.mem m.addr n)
    ∃ t, exec (.atomComplete k) s = .next t ∧
      t = { s with cores := t.cores, far := { s.far with mem := t.far.mem }, net := { s.net with atoms := s.net.atoms.take k ++ s.net.atoms.drop (k + 1) } } ∧
      memReadN t.far.mem m.addr n = leBytes n (atomValue m.form m.lanes old) ∧
      (∀ a, a < m.addr ∨ m.addr + n ≤ a → memRead t.far.mem a = memRead s.far.mem a) ∧
      (∀ j, j ≠ m.core → t.core j = s.core j) ∧
      (∀ pre l b d post, m.lanes = pre ++ (l, b, d) :: post →
        laneVal (t.gang m.core m.slot) m.form.d l (8 * n) = BitVec.ofNat (8 * n) (atomValue m.form pre old))

/-- FAR_CACHE_FILL of far memory: the line's entry leaves, and the line holds memory's bytes but for those that are dirty,
none of them pending (R231, R232); memory is unchanged. -/
def FarCacheFillRuns : Prop :=
  ∀ (core k p : Nat) (m : FcMiss) (ok : Bool) (data : List Byte) (s : State),
    let fc := (s.core core).fc
    core < 1280 → fc.misses[k]? = some m → (∀ w ∈ fc.wbs, some w.id ≠ m.after ∧ (w.line ≠ m.line ∨ m.seq ≤ w.id)) →
    (∀ j ∈ fc.misses, j.line ≠ m.line ∨ m.seq ≤ j.seq) → (∀ o ∈ s.net.atoms, o.core ≠ core ∨ o.addr / 128 ≠ m.line ∨ m.seq ≤ o.seq) →
    128 * m.line < hostBase →
    (s.ctx m.ctx).killing = false → s.far.bad = [] → m.stale = false → m.noAlloc = false → m.parts = [] → fc.place m.ctx m.line = some p →
    ∃ t, exec (.farCacheFill core k ok data) s = .next t ∧ OnlyCore core s t ∧
      t.core core = { s.core core with fc := { fc with misses := fc.misses.take k ++ fc.misses.drop (k + 1)
                                                       lines := tblSet p (t.core core |>.fc.at p) fc.lines } } ∧
      (∀ o, o < 128 → Memory.wf (fc.at p).data = true →
        memRead ((t.core core).fc.at p).data o = if (fc.at p).dirty.getLsbD o then memRead (fc.at p).data o else memRead s.far.mem (128 * m.line + o)) ∧
      ((t.core core).fc.at p).dirty = (fc.at p).dirty ∧ ((t.core core).fc.at p).pending = false

/-- WRITEBACK_ACCEPT of the oldest request of the core on its line: the bytes of a write-back are in memory, and no other byte changes
(R235). -/
def WritebackAcceptRuns : Prop :=
  ∀ (core k : Nat) (w : FcWb) (s : State), core < 1280 → (s.core core).fc.wbs[k]? = some w →
    (∀ o ∈ (s.core core).fc.wbs, o.line ≠ w.line ∨ w.id ≤ o.id) → (∀ j ∈ (s.core core).fc.misses, j.line ≠ w.line ∨ w.id ≤ j.seq) →
    (∀ o ∈ s.net.atoms, o.core ≠ core ∨ o.addr / 128 ≠ w.line ∨ w.id ≤ o.seq) →
    w.slot = none → s.far.bad = [] → (s.core core).fc.bad = [] → Memory.wf s.far.mem = true →
    (w.bytes.map Prod.fst).Nodup → (∀ b ∈ w.bytes, b.1 < 128) →
    ∃ t, exec (.writebackAccept core k) s = .next t ∧ (∀ j, j ≠ core → t.core j = s.core j) ∧
      t = { s with cores := t.cores, far := { s.far with mem := t.far.mem }, links := t.links } ∧
      (∀ b ∈ w.bytes, memRead t.far.mem (128 * w.line + b.1) = b.2) ∧
      (∀ a, (∀ b ∈ w.bytes, a ≠ 128 * w.line + b.1) → memRead t.far.mem a = memRead s.far.mem a) ∧
      (t.core core).ge = (s.core core).ge ∧ (t.core core).slab = (s.core core).slab

/-! ### Tally instructions of gangs and tally messages (03_sett R87, R309; 11_tallies R304 to R311) -/

/-- The 32-bit operand of TSIG and TWAIT: the low word of the immediate, the register or the special value (R71, R87). -/
def tallyOperand (s : State) (g : GangAt) (f : TForm) : Nat := (scalarSrc s g 32 f.ib f.ext f.src).toNat

/-- The home of a virtual id is a slot of this core's tally block. -/
def HomeHere (h : Home) (core : Nat) : Prop := h.hub = false ∧ h.core = core

/-- TSIG: an increment of n leaves for the home, unless n is 0; the gang goes on at once. -/
def TsigRuns : Prop :=
  ∀ (g : GangAt) (f : TForm) (s : State) (c : Nat) (h : Home), Issues s g (.tsig g f) (tUse f) c → (s.ctx c).home f.tid = some h →
    let x := s.gang g.core g.slot
    let n := tallyOperand s g f
    ∃ t m, exec (.tsig g f) s = .next t ∧ m.ctx = c ∧ m.vid = f.tid ∧ m.home = h ∧ m.src = ⟨g.core, g.slot⟩ ∧ m.act = .add n ∧ m.retires = none ∧
      CoreBecomes g.core s t ((s.core g.core).setGang g.slot (x.advance g.next)) { s.net with tally := if n = 0 then s.net.tally else s.net.tally ++ [m] }

/-- TWAIT on a tally of the gang's own core: satisfied at once when the tally is not saturated and its value is at least V (R307,
R310), else the gang waits. -/
def TwaitHereRuns : Prop :=
  ∀ (g : GangAt) (f : TForm) (s : State) (c : Nat) (h : Home), Issues s g (.twait g f) (tUse f) c → (s.ctx c).home f.tid = some h →
    HomeHere h g.core → s.opsPending ⟨g.core, g.slot⟩ h = false →
    let x := s.gang g.core g.slot
    let v := tallyOperand s g f
    ∃ t r, exec (.twait g f) s = .next t ∧
      if (s.tallyAt h).sat = false ∧ v ≤ (s.tallyAt h).value then CoreBecomes g.core s t ((s.core g.core).setGang g.slot (x.advance g.next)) s.net
      else CoreBecomes g.core { s with rings := r } t ((s.core g.core).setGang g.slot
        { x with wait := .tally f.tid v (s.ctxNow c) f.tmo x.nextId, nextId := x.nextId + 1, resume := g.next }) s.net

/-- TWAIT on a tally elsewhere: the gang waits and a watch is on its way. -/
def TwaitAwayRuns : Prop :=
  ∀ (g : GangAt) (f : TForm) (s : State) (c : Nat) (h : Home), Issues s g (.twait g f) (tUse f) c → (s.ctx c).home f.tid = some h →
    ¬ HomeHere h g.core →
    let x := s.gang g.core g.slot
    let v := tallyOperand s g f
    ∃ t r, exec (.twait g f) s = .next t ∧
      CoreBecomes g.core { s with rings := r } t ((s.core g.core).setGang g.slot
        { x with wait := .tally f.tid v (s.ctxNow c) f.tmo x.nextId, nextId := x.nextId + 1, resume := g.next })
        { s.net with watches := s.net.watches ++ [({ ctx := c, who := ⟨g.core, g.slot⟩, idx := 0, serial := x.nextId, home := h, threshold := v } : Watch)] }

/-- TREAD: the value, zero-extended, is in the register at once when the tally is the core's own; else a read is on its way
and the register is reserved. -/
def TreadRuns : Prop :=
  ∀ (g : GangAt) (f : TForm) (s : State) (c : Nat) (h : Home), Issues s g (.tread g f) { sw := [f.src] } c → (s.ctx c).home f.tid = some h →
    s.opsPending ⟨g.core, g.slot⟩ h = false →
    let x := s.gang g.core g.slot
    ∃ t, exec (.tread g f) s = .next t ∧
      (HomeHere h g.core → CoreBecomes g.core s t ((s.core g.core).setGang g.slot ((x.setS f.src (BitVec.ofNat 64 (s.tallyAt h).value)).advance g.next)) s.net) ∧
      (¬ HomeHere h g.core → CoreBecomes g.core s t ((s.core g.core).setGang g.slot ({ x with busyS := x.busyS ++ [f.src] }.advance g.next))
        { s.net with reads := s.net.reads ++ [({ who := ⟨g.core, g.slot⟩, ctx := c, home := h, vid := f.tid, uid := x.uid, dreg := f.src } : ReadMsg)] })

/-- The k-th message of a list is the first of its source for its home. -/
def FirstTo {α : Type} (src : α → Waiter) (home : α → Home) (k : Nat) (m : α) (xs : List α) : Prop :=
  xs[k]? = some m ∧ ∀ o ∈ xs.take k, src o ≠ src m ∨ (home o).place ≠ (home m).place

/-- TREAD_REPLY: the register holds the tally's value, and is reserved no longer. -/
def TreadReplyRuns : Prop :=
  ∀ (k : Nat) (m : ReadMsg) (s : State), FirstTo ReadMsg.who ReadMsg.home k m s.net.reads → (s.ctx m.ctx).killing = false →
    let n := m.who.core
    let x := s.gang n m.who.unit
    x.live = true → x.uid = m.uid →
    ∃ t, exec (.treadReply k) s = .next t ∧
      t = { s with cores := t.cores, net := { s.net with reads := s.net.reads.take k ++ s.net.reads.drop (k + 1) } } ∧ (∀ j, j ≠ n → t.core j = s.core j) ∧
      t.core n = (s.core n).setGang m.who.unit ({ x with busyS := x.busyS.erase m.dreg }.setS m.dreg (BitVec.ofNat 64 (s.tallyAt m.home).value))

/-- The operation comes from this module, or its context is placed and the id has the home the operation was sent to (R319). -/
def LocalOrCurrent (s : State) (m : TallyMsg) : Prop :=
  m.src.core < 1280 ∨ ((s.ctx m.ctx).state = .placed ∧ (s.ctx m.ctx).home m.vid = some m.home)

/-- TALLY_OPERATION on a hub tally: an increment below the limit adds; the watches that the value reaches are answered and
leave, and the others stay (R307, R309, R310). -/
def HubAddRuns : Prop :=
  ∀ (k n : Nat) (m : TallyMsg) (s : State), FirstTo TallyMsg.src TallyMsg.home k m s.net.tally →
    (∀ r ∈ s.net.reads, r.who ≠ m.src ∨ r.home.place ≠ m.home.place) → (s.ctx m.ctx).killing = false →
    LocalOrCurrent s m → (s.tallyAt m.home).sat = false →
    m.act = .add n → m.home.hub = true → m.retires = none → (s.tallyAt m.home).value + n < 0xFFFFFFFF →
    let v := (s.tallyAt m.home).value + n
    ∃ t, exec (.tallyOperation k) s = .next t ∧
      t = { s with hub := t.hub, net := { s.net with tally := s.net.tally.take k ++ s.net.tally.drop (k + 1), wakes := t.net.wakes }, dbg := t.dbg } ∧
      (t.tallyAt m.home).value = v ∧ (t.tallyAt m.home).sat = false ∧
      (∀ j, j ≠ m.home.slot → tblFind j t.hub.tallies = tblFind j s.hub.tallies) ∧
      (∀ w, w ∈ t.hub.watches ↔ w ∈ s.hub.watches ∧ (w.home ≠ m.home ∨ v < w.threshold)) ∧
      t.net.wakes = s.net.wakes ++ (s.hub.watches.filter (fun w => decide (w.home = m.home) && decide (w.threshold ≤ v))).map
        (fun w => ({ who := w.who, idx := w.idx, serial := w.serial, ctx := w.ctx } : Wake))

/-- An exact sum of 0xFFFF_FFFF or more leaves the tally at 0xFFFF_FFFF with SAT set, satisfies no wait, and kills the owning context
with TALLY_SAT (R310). -/
def HubSaturates : Prop :=
  ∀ (k n : Nat) (m : TallyMsg) (s : State), FirstTo TallyMsg.src TallyMsg.home k m s.net.tally →
    (∀ r ∈ s.net.reads, r.who ≠ m.src ∨ r.home.place ≠ m.home.place) → (s.ctx m.ctx).killing = false →
    LocalOrCurrent s m → m.act = .add n → m.home.hub = true → m.retires = none → 0xFFFFFFFF ≤ (s.tallyAt m.home).value + n →
    (s.ctx m.ctx).state = .placed → (s.ctx m.ctx).fault = none →
    ∃ t f, exec (.tallyOperation k) s = .next t ∧ (t.tallyAt m.home).value = 0xFFFFFFFF ∧ (t.tallyAt m.home).sat = true ∧
      (∀ w, w ∈ t.hub.watches ↔ w ∈ s.hub.watches) ∧ t.net.wakes = s.net.wakes ∧
      (t.ctx m.ctx).fault = some f ∧ f.cause = .tallySat ∧ t.far = s.far ∧ t.host = s.host

/-- REBASE of two hub tallies by a queue: DELTA, clamped to the smaller value, is taken from both (R311); of the cores only the
queue's Q_CUR may change, where it still shows the record (R278). -/
def HubRebaseRuns : Prop :=
  ∀ (k vid2 d id : Nat) (h2 : Home) (m : TallyMsg) (s : State), FirstTo TallyMsg.src TallyMsg.home k m s.net.tally →
    (∀ r ∈ s.net.reads, r.who ≠ m.src ∨ r.home.place ≠ m.home.place) → (s.ctx m.ctx).killing = false →
    m.src.core < 1280 → 16 ≤ m.src.unit → m.src.unit < 20 →
    m.act = .rebase vid2 h2 d id → m.home.hub = true → h2.hub = true → h2.slot ≠ m.home.slot → m.retires = none →
    let a := (s.tallyAt m.home).value
    let b := (s.tallyAt h2).value
    let e := min d (min a b)
    ∃ t, exec (.tallyOperation k) s = .next t ∧ (t.tallyAt m.home).value = a - e ∧ (t.tallyAt h2).value = b - e ∧
      (∀ j, j ≠ m.home.slot → j ≠ h2.slot → tblFind j t.hub.tallies = tblFind j s.hub.tallies) ∧
      (∀ j, t.core j = if j = m.src.core then (s.core j).setQueue (m.src.unit - 16) ((s.queue j (m.src.unit - 16)).showDelta id e) else s.core j) ∧ t.ctxs = s.ctxs ∧ t.far = s.far ∧ t.host = s.host

/-- TALLY_OPERATION on a tally of a core: an increment below the limit adds, to this tally alone (R309). -/
def CoreAddRuns : Prop :=
  ∀ (k n : Nat) (m : TallyMsg) (s : State), FirstTo TallyMsg.src TallyMsg.home k m s.net.tally →
    (∀ r ∈ s.net.reads, r.who ≠ m.src ∨ r.home.place ≠ m.home.place) → (s.ctx m.ctx).killing = false →
    LocalOrCurrent s m → m.act = .add n → m.home.hub = false → m.retires = none → (s.tallyAt m.home).value + n < 0xFFFFFFFF →
    ∃ t, exec (.tallyOperation k) s = .next t ∧ (t.tallyAt m.home).value = (s.tallyAt m.home).value + n ∧ (t.tallyAt m.home).sat = (s.tallyAt m.home).sat ∧
      (∀ h, h ≠ m.home → t.tallyAt h = s.tallyAt h) ∧ t.far = s.far ∧ t.host = s.host ∧
      (∀ j, j ≠ m.home.core → t.core j = s.core j) ∧ (t.core m.home.core).slab = (s.core m.home.core).slab

/-- WATCH: answered with a wake when the value is reached, refused when the home has no room, else held (R307, R308); a saturated
tally answers none (R310). -/
def WatchRuns : Prop :=
  ∀ (k : Nat) (w : Watch) (s : State), s.net.watches[k]? = some w → s.opsPending w.who w.home = false → (s.ctx w.ctx).killing = false →
    let net := { s.net with watches := s.net.watches.take k ++ s.net.watches.drop (k + 1) }
    let met := (s.tallyAt w.home).sat = false ∧ w.threshold ≤ (s.tallyAt w.home).value
    (met →
      exec (.watch k) s = .next { s with net := { net with wakes := s.net.wakes ++ [({ who := w.who, idx := w.idx, serial := w.serial, ctx := w.ctx } : Wake)] } }) ∧
    (¬ met → (s.watchesAt w.home).length < (if w.home.hub then 8192 else 64) →
      exec (.watch k) s = .next (({ s with net := net } : State).setWatches w.home (s.watchesAt w.home ++ [w]))) ∧
    (¬ met → (if w.home.hub then 8192 else 64) ≤ (s.watchesAt w.home).length →
      ∃ t, exec (.watch k) s = .next t ∧ t.net = { net with refused := s.net.refused ++ [w] } ∧ t.watchesAt w.home = s.watchesAt w.home ∧
        t.far = s.far ∧ t.host = s.host ∧ t.ctxs = s.ctxs)

/-- WATCH_RETRY: a refused watch is on its way again. -/
def WatchRetryRuns : Prop :=
  ∀ (k : Nat) (w : Watch) (s : State), s.net.refused[k]? = some w →
    exec (.watchRetry k) s = .next { s with net := { s.net with refused := s.net.refused.take k ++ s.net.refused.drop (k + 1), watches := s.net.watches ++ [w] } }

/-- WAKE of a gang whose wait it answers: the gang goes on. -/
def WakeGangRuns : Prop :=
  ∀ (k : Nat) (w : Wake) (s : State) (vid thr st tmo : Nat), s.net.wakes[k]? = some w → (s.ctx w.ctx).killing = false → w.who.unit < 16 →
    let n := w.who.core
    let x := s.gang n w.who.unit
    x.wait = .tally vid thr st tmo w.serial → x.live = true →
    ∃ t r, exec (.wake k) s = .next t ∧
      t = { s with cores := t.cores, rings := r, net := { s.net with wakes := s.net.wakes.take k ++ s.net.wakes.drop (k + 1) } } ∧
      (∀ j, j ≠ n → t.core j = s.core j) ∧ t.core n = (s.core n).setGang w.who.unit ({ x with wait := .none }.advance x.resume)

/-- WAKE of a queue's WAIT: the record retires. -/
def WakeWaitRuns : Prop :=
  ∀ (k e : Nat) (w : Wake) (s : State) (tw : TWait) (fl : Flight) (c : Nat), s.net.wakes[k]? = some w → (s.ctx w.ctx).killing = false →
    w.who.unit = 16 + e → w.idx = 0 →
    let n := w.who.core
    let q := s.queue n e
    (s.core n).ctx = some c → q.block = .wait tw → q.blockId = w.serial → q.flight.find? (fun f => f.id == w.serial) = some fl → (s.core n).crecFull e = false →
    ∃ t hd, exec (.wake k) s = .next t ∧ t.queue n e = { q with block := .none, flight := q.flight.filter (fun f => f.id != w.serial), head := hd } ∧
      t.far = s.far ∧ t.host = s.host ∧ (∀ j, j ≠ n → t.core j = s.core j) ∧ (t.core n).slab = (s.core n).slab ∧ (t.core n).ge.slots = (s.core n).ge.slots

/-- TOKEN_ARRIVAL: one token more, or TALLY_SAT when the counter stands at 32,767 (R314). -/
def TokenArrivalRuns : Prop :=
  ∀ (k : Nat) (m : TokMsg) (s : State), s.net.tokens[k]? = some m → (s.ctx m.ctx).killing = false →
    let net := { s.net with tokens := s.net.tokens.take k ++ s.net.tokens.drop (k + 1) }
    let n := tblGet 0 (s.core m.core).tally.tokens m.cls
    (n < 32767 → exec (.tokenArrival k) s = .next (({ s with net := net } : State).setCore m.core
      { s.core m.core with tally := { (s.core m.core).tally with tokens := tblSet m.cls (n + 1) (s.core m.core).tally.tokens } })) ∧
    (32767 ≤ n → (s.ctx m.ctx).state = .placed → (s.ctx m.ctx).fault = none →
      ∃ t f, exec (.tokenArrival k) s = .next t ∧ (t.ctx m.ctx).fault = some f ∧ f.cause = .tallySat ∧ f.core = m.core ∧
        (t.core m.core).tally = (s.core m.core).tally ∧ t.net = net ∧ t.far = s.far ∧ t.host = s.host)

/-! ### Fences, fence objects and barriers (03_sett R89, R90; 11_tallies R316 to R318; 12_model R332 to R335) -/

/-- FENCE_INSN: a release waits for the gang's earlier accesses; GANG scope has no more to do; an acquire makes the cache's
clean bytes invalid; a release writes the dirty lines back before the gang goes on, here of a cache without error marks (R332, R335,
R240, R243). -/
def FenceInsnRuns : Prop :=
  ∀ (g : GangAt) (f : FForm) (s : State) (c : Nat), Issues s g (.fenceInsn g f) {} c →
    let x := s.gang g.core g.slot
    let k := s.core g.core
    (f.fk = 1 ∨ (x.loads = [] ∧ x.stores = 0)) → k.fc.bad = [] →
    ∃ t, exec (.fenceInsn g f) s = .next t ∧
      CoreBecomes g.core s t
        (if f.sc = 0 then k.setGang g.slot (x.advance g.next)
         else if f.fk = 1 then { k.setGang g.slot (x.advance g.next) with fc := k.fc.acquire c }
         else { k.setGang g.slot { x with wait := .fence f.sc (f.fk == 2), resume := g.next } with fc := (k.fc.release g.slot c (f.sc == 2)).pumpAll.1 }) s.net

/-- What an acquire does to the cache (R240): no line of the context keeps a byte that is not dirty, other contexts' lines
stay, and the context's fills become stale once their requests have left the core. -/
def AcquireDrops : Prop :=
  ∀ (fc : FarCache) (c : Nat) (p : Nat) (l : FcLine), (p, l) ∈ (fc.acquire c).lines →
    (l.ctx ≠ c → (p, l) ∈ fc.lines) ∧ (l.ctx = c → l.valid = l.dirty ∧ (l.dirty ≠ 0 ∨ l.pending = true)) ∧
    (∀ m ∈ (fc.acquire c).misses, m.ctx = c → (∀ w ∈ fc.wbs, some w.id ≠ m.after) → m.stale = true)

/-- The entries of a table in rising order, each number once: the form that every change of a table keeps. -/
def Rising {α : Type} (t : Tbl α) : Prop := (t.map Prod.fst).Pairwise (· < ·)

/-- A release sends what the 16 write-backs allow (R241): with no error mark in the cache and room for every dirty line, and no other
release under way, each dirty line of the context leaves, and no line of it stays dirty. -/
def ReleaseSends : Prop :=
  ∀ (fc : FarCache) (unit c : Nat) (system : Bool), fc.bad = [] → fc.releases = [] → (∀ p l, (p, l) ∈ fc.lines → fc.place l.ctx l.line = some p) →
    Rising fc.lines →
    fc.wbs.length + (fc.lines.filter (fun l => l.2.ctx == c && l.2.dirty != 0)).length ≤ 16 →
    let q := (fc.release unit c system).pumpAll.1
    (∀ p l, (p, l) ∈ q.lines → l.ctx = c → l.dirty = 0) ∧
    (∀ p l, (p, l) ∈ fc.lines → l.ctx = c → l.dirty ≠ 0 → ∃ w ∈ q.wbs, w.line = l.line ∧ w.ctx = c ∧ w.bytes = FarCache.wbBytes l) ∧
    (∀ w ∈ fc.wbs, w ∈ q.wbs) ∧ q.wbs.length = fc.wbs.length + (fc.lines.filter (fun l => l.2.ctx == c && l.2.dirty != 0)).length

/-- FSIG: at GANG scope the maximum leaves for the controller at once; at a wider scope after the release. The address is the
register's 64 bits (R90). -/
def FsigRuns : Prop :=
  ∀ (g : GangAt) (f : FForm) (s : State) (c : Nat), Issues s g (.fsig g f) (fUse f) c →
    let x := s.gang g.core g.slot
    let k := s.core g.core
    let a := x.scalarOp (s.gangEnv g.core g.slot) 0 f.a % 2 ^ 64
    let v := fVal (s.gangEnv g.core g.slot) x f
    (s.ctx c).farOk .r a 16 = true → (s.ctx c).farOk .w a 16 = true → a % 16 = 0 → x.loads = [] → x.stores = 0 → k.fc.bad = [] →
    ∃ t, exec (.fsig g f) s = .next t ∧
      (f.sc = 0 → CoreBecomes g.core s t (k.setGang g.slot { x with wait := .fsig a v f.sc true, resume := g.next })
        { s.net with fobj := s.net.fobj ++ [({ ctx := c, who := ⟨g.core, g.slot⟩, addr := a, max := some v } : FobjMsg)] }) ∧
      (f.sc ≠ 0 → CoreBecomes g.core s t
        { k.setGang g.slot { x with wait := .fsig a v f.sc false, resume := g.next } with fc := (k.fc.release g.slot c (f.sc == 2)).pumpAll.1 } s.net)

/-- FWAIT: the gang waits and a read of the object is on its way. -/
def FwaitRuns : Prop :=
  ∀ (g : GangAt) (f : FForm) (s : State) (c : Nat), Issues s g (.fwait g f) (fUse f) c →
    let x := s.gang g.core g.slot
    let a := x.scalarOp (s.gangEnv g.core g.slot) 0 f.a % 2 ^ 64
    let v := fVal (s.gangEnv g.core g.slot) x f
    (s.ctx c).farOk .r a 16 = true → a % 16 = 0 →
    ∃ t r, exec (.fwait g f) s = .next t ∧
      CoreBecomes g.core { s with rings := r } t ((s.core g.core).setGang g.slot { x with wait := .fwait f.d a v f.sc (s.ctxNow c) f.tmo true, resume := g.next })
        { s.net with fobj := s.net.fobj ++ [({ ctx := c, who := ⟨g.core, g.slot⟩, addr := a, max := none } : FobjMsg)] }

/-- FWAIT_POLL: a gang whose object was not reached reads it again. -/
def FwaitPollRuns : Prop :=
  ∀ (core slot d a v sc st tmo : Nat) (s : State) (c : Nat), core < 1280 → slot < 16 → s.live core = some c →
    let x := s.gang core slot
    x.wait = .fwait d a v sc st tmo false →
    exec (.fwaitPoll core slot) s = .next { s.setGang core slot { x with wait := .fwait d a v sc st tmo true } with
      net := { s.net with fobj := s.net.fobj ++ [({ ctx := c, who := ⟨core, slot⟩, addr := a, max := none } : FobjMsg)] } }

/-- FENCE_OBJECT_REPLY to FSIG: the value word holds the greater of the two, the other 8 bytes of the object and all other
memory are unchanged, and the gang goes on. -/
def FsigReplyRuns : Prop :=
  ∀ (k : Nat) (m : FobjMsg) (n a v sc : Nat) (s : State), s.net.fobj[k]? = some m → (∀ o ∈ s.net.fobj.take k, o.who ≠ m.who) → m.max = some n →
    m.who.unit < 16 → (s.ctx m.ctx).killing = false → s.far.bad = [] → Memory.wf s.far.mem = true → s.links.twin.mset = none →
    let j := m.who.core
    let x := s.gang j m.who.unit
    x.wait = .fsig a v sc true →
    let old := ofLe (memReadN s.far.mem m.addr 8)
    ∃ t, exec (.fenceObjectReply k) s = .next t ∧
      t = { s with cores := t.cores, far := { s.far with mem := t.far.mem }, net := { s.net with fobj := s.net.fobj.take k ++ s.net.fobj.drop (k + 1) } } ∧
      memReadN t.far.mem m.addr 8 = leBytes 8 (max old n) ∧
      (∀ b, b < m.addr ∨ m.addr + 8 ≤ b → memRead t.far.mem b = memRead s.far.mem b) ∧
      (∀ i, i ≠ j → t.core i = s.core i) ∧ t.core j = (s.core j).setGang m.who.unit ({ x with wait := .none }.advance x.resume)

/-- FENCE_OBJECT_REPLY to FWAIT: the wait ends with its predicate all ones when the value is reached, all zeros when the object
is ABANDONED, and goes on otherwise; memory is unchanged. -/
def FwaitReplyRuns : Prop :=
  ∀ (k : Nat) (m : FobjMsg) (d a v sc st tmo : Nat) (s : State), s.net.fobj[k]? = some m → (∀ o ∈ s.net.fobj.take k, o.who ≠ m.who) → m.max = none →
    m.who.unit < 16 → (s.ctx m.ctx).killing = false → s.far.bad = [] →
    let j := m.who.core
    let x := s.gang j m.who.unit
    x.wait = .fwait d a v sc st tmo true →
    let value := ofLe (memReadN s.far.mem m.addr 8)
    let status := ofLe (memReadN s.far.mem (m.addr + 8) 8)
    let net := { s.net with fobj := s.net.fobj.take k ++ s.net.fobj.drop (k + 1) }
    ∃ t r, exec (.fenceObjectReply k) s = .next t ∧ t = { s with cores := t.cores, net := net, rings := r } ∧ (∀ i, i ≠ j → t.core i = s.core i) ∧
      (v ≤ value ∨ status % 4 = 2 → t.gang j m.who.unit = { (x.setP d (if v ≤ value then 0xFFFFFFFF else 0)) with wait := .none }.advance x.resume) ∧
      (value < v → status % 4 ≠ 2 → t.gang j m.who.unit = { x with wait := .fwait d a v sc st tmo false })

/-- FAR_CACHE_RELEASE_DONE: the oldest release with nothing left to write back ends, and the gang whose fence it is goes on. -/
def ReleaseDoneRuns : Prop :=
  ∀ (core : Nat) (r : FcRelease) (sc : Nat) (s : State) (c : Nat), core < 1280 → s.live core = some c →
    (s.core core).fc.releases.find? (s.core core).fc.released = some r → r.unit < 16 →
    let x := s.gang core r.unit
    x.wait = .fence sc false →
    exec (.farCacheReleaseDone core) s = .next (s.setCore core
      { (s.core core).setGang r.unit ({ x with wait := .none }.advance x.resume) with
        fc := { (s.core core).fc with releases := (s.core core).fc.releases.erase r } })

/-- BARRIER_ARRIVAL: entered in the oldest open generation, in the next, or held (R317). -/
def BarrierArrivalRuns : Prop :=
  ∀ (k : Nat) (m : BarMsg) (s : State), s.net.arrivals[k]? = some m → (s.ctx m.ctx).killing = false →
    let b := s.unit m.unit
    let net := { s.net with arrivals := s.net.arrivals.take k ++ s.net.arrivals.drop (k + 1) }
    (m.qid ∉ b.arr0 → (∃ p ∈ b.parts, p ∉ b.arr0 ++ [m.qid]) → ∃ t, exec (.barrierArrival k) s = .next t ∧
      t.unit m.unit = { b with arr0 := b.arr0 ++ [m.qid] } ∧ t.net = net ∧ t.cores = s.cores ∧ t.ctxs = s.ctxs ∧ t.far = s.far ∧ t.host = s.host) ∧
    (m.qid ∉ b.arr0 → b.filled = false → b.parts ≠ [] → (∀ p ∈ b.parts, p ∈ b.arr0 ++ [m.qid]) → ∃ t, exec (.barrierArrival k) s = .next t ∧
      t.unit m.unit = { b with arr0 := b.arr0 ++ [m.qid], filled := true, owed := b.parts } ∧
      t.net = { net with releases := s.net.releases ++ b.parts.map (fun p => ({ ctx := b.ctx, unit := m.unit, qid := p, gen := b.gen } : BarMsg)) } ∧
      t.cores = s.cores ∧ t.ctxs = s.ctxs ∧ t.far = s.far ∧ t.host = s.host) ∧
    (m.qid ∈ b.arr0 → m.qid ∉ b.arr1 → ∃ t, exec (.barrierArrival k) s = .next t ∧
      t.unit m.unit = { b with arr1 := b.arr1 ++ [m.qid] } ∧ t.net = net ∧ t.cores = s.cores) ∧
    (m.qid ∈ b.arr0 → m.qid ∈ b.arr1 → ∃ t, exec (.barrierArrival k) s = .next t ∧
      t.unit m.unit = { b with held := b.held ++ [m.qid] } ∧ t.net = net ∧ t.cores = s.cores)

/-- BARRIER_RELEASE: the participant's BARRIER retires, and the unit owes it no longer (R318). -/
def BarrierReleaseRuns : Prop :=
  ∀ (k : Nat) (m : BarMsg) (ws : List TWait) (fl : Flight) (s : State) (c : Nat), s.net.releases[k]? = some m → (s.ctx m.ctx).killing = false →
    let n := m.qid / 4
    let e := m.qid % 4
    let q := s.queue n e
    (s.core n).ctx = some c → q.block = .barrier ws (some m.unit) true → q.flight.find? (fun f => f.id == q.blockId) = some fl → (s.core n).crecFull e = false →
    (s.unit m.unit).owed.erase m.qid ≠ [] →
    ∃ t hd, exec (.barrierRelease k) s = .next t ∧ t.queue n e = { q with block := .none, flight := q.flight.filter (fun f => f.id != q.blockId), head := hd } ∧
      t.unit m.unit = { s.unit m.unit with owed := (s.unit m.unit).owed.erase m.qid } ∧
      t.far = s.far ∧ t.host = s.host ∧ (∀ j, j ≠ n → t.core j = s.core j) ∧ (t.core n).slab = (s.core n).slab ∧ (t.core n).ge.slots = (s.core n).ge.slots

/-! ### The allocator, and timeouts (03_sett R88, R91; 13_contexts R363, R364) -/

/-- The size or address operand of ALLOC and FREE. -/
def serviceArg (s : State) (g : GangAt) (f : AForm) : W64 :=
  if f.ib then f.ext else BitVec.ofNat 64 ((s.gang g.core g.slot).scalarOp (s.gangEnv g.core g.slot) 0 f.a)

/-- ALLOC: a size of 0 gives 0; otherwise the gang waits for the Foreman, with the alignment clamped to 6 to 26. -/
def AllocRuns : Prop :=
  ∀ (g : GangAt) (f : AForm) (s : State) (c : Nat), Issues s g (.alloc g f) (aUse f) c →
    let x := s.gang g.core g.slot
    let n := (serviceArg s g f).toNat
    ∃ t, exec (.alloc g f) s = .next t ∧
      (n = 0 → CoreBecomes g.core s t ((s.core g.core).setGang g.slot ((x.setS f.d 0).advance g.next)) s.net) ∧
      (n ≠ 0 → CoreBecomes g.core s t ((s.core g.core).setGang g.slot { x with wait := .alloc f.d, resume := g.next })
        { s.net with services := s.net.services ++ [({ ctx := c, core := g.core, slot := g.slot, uid := x.uid, dreg := f.d, size := n,
                                                       aln := max 6 (min 26 f.aln), pool := f.pool } : AllocMsg)] })

/-- ALLOC_REPLY: the oldest call is served: the gang's register holds the address, and the gang goes on. -/
def AllocReplyRuns : Prop :=
  ∀ (m : AllocMsg) (rest : List AllocMsg) (s : State), s.net.services = m :: rest → (s.ctx m.ctx).killing = false →
    let x := s.gang m.core m.slot
    x.live = true → x.uid = m.uid →
    ∃ t pick, exec (.allocReply 0) s = .next t ∧
      let r := (s.ctx m.ctx).allocate pick m.size m.aln m.pool
      t = { s with draws := s.draws + 1, ctxs := tblSet m.ctx r.1 s.ctxs, cores := t.cores, net := { s.net with services := rest } } ∧
      (∀ j, j ≠ m.core → t.core j = s.core j) ∧
      t.core m.core = (s.core m.core).setGang m.slot ({ x.setS m.dreg (BitVec.ofNat 64 r.2) with wait := .none }.advance x.resume)

/-- FREE: the block that starts at the address is free again; an address that starts none is counted (R364). -/
def FreeRuns : Prop :=
  ∀ (g : GangAt) (f : AForm) (s : State) (c : Nat), Issues s g (.free g f) { aUse f with sw := [] } c →
    let x := s.gang g.core g.slot
    let a := (serviceArg s g f).toNat
    let y := s.ctx c
    ∃ t, exec (.free g f) s = .next t ∧
      CoreBecomes g.core { s with ctxs := t.ctxs } t ((s.core g.core).setGang g.slot (x.advance g.next)) s.net ∧
      (a = 0 → t.ctxs = s.ctxs) ∧
      (a ≠ 0 → (∃ b ∈ y.blocks, b.addr = a) → t.ctxs = tblSet c { y with blocks := y.blocks.filter (fun b => b.addr != a) } s.ctxs) ∧
      (a ≠ 0 → (∀ b ∈ y.blocks, b.addr ≠ a) → t.ctxs = tblSet c { y with badFree := min 0xFFFFFFFF (y.badFree + 1) } s.ctxs)

/-- SYNC_TIMEOUT of a gang's TWAIT: once the wait has lasted its timeout, the context faults with SYNC_TIMEOUT, naming gang,
tally and threshold (R88, R258, R320). -/
def SyncTimeoutRuns : Prop :=
  ∀ (core unit now tid v st tmo ser : Nat) (s : State) (c : Nat),
    let u := s.advanceTo now
    core < 1280 → unit < 16 → u.live core = some c → (u.ctx c).fault = none → (u.gang core unit).wait = .tally tid v st tmo ser → 
    st + 1000 * (if tmo = 0 then u.waitUs else min tmo 10000000) ≤ u.ctxNow c →
    ∃ t f, exec (.syncTimeout core unit now) s = .next t ∧ (t.ctx c).fault = some f ∧ f.cause = .syncTimeout ∧ f.core = core ∧ f.gang = unit ∧
      f.tally = tid ∧ f.value % 2 ^ 32 = v % 2 ^ 32 ∧ f.time = u.now ∧ f.npc = (u.gang core unit).pc.toNat ∧
      (t.core core).ge.stopped = true ∧ (∀ sl, t.gang core sl = u.gang core sl) ∧ t.far = u.far ∧ t.host = u.host

/-! ### Queue records (09_queues R254 to R273) -/

/-- The next record of queue e of a core issues: the record's effective words, of kind `opc`, may issue now (R254, R257, R259 to
R262, R264, R268, R269, R282, R314, R517). -/
def RecIssues (s : State) (core e opc c : Nat) (ws : List W64) : Prop :=
  let q := s.queue core e
  core < 1280 ∧ e < 4 ∧ s.live core = some c ∧ q.inForce.enable = true ∧ q.block = .none ∧ (q.halt = false ∨ q.stepArm = true) ∧
  headMalformed e ((q.slotWords q.next).getD [0]) = false ∧ (∃ raw, q.nextWords = some raw ∧ effWords s.waitUs raw = ws) ∧ recOpc ws = opc ∧ malformed s c core e ws = false ∧
  (q.inForce.fenced = false ∨ q.flight = []) ∧ (e = 0 → ∀ l ∈ (s.core core).ge.launches, l.count ≤ l.started) ∧
  (q.crecBase = 0 ∨ (s.core core).dbg.writes.length + 1 < 16) ∧ (needsOrder ws = true → q.flight = []) ∧
  (e = 1 → s.windowClear core = true) ∧
  (opc = 5 → loopStrays q (wbits ws 1 5 0) = false ∧ q.bodyOn (wbits ws 1 5 0) = true ∧ bodyWhole q 64 ((q.next + 1) % q.size) (wbits ws 1 5 0) = true) ∧
  (opc ≠ 5 → (s.core core).tokensOk (recConsumes ws) = true) ∧ s.nodeRefused c ws = false ∧
  (q.brkEn = false ∨ recBrk ws = false ∨ q.stepArm = true)

/-- A record as it issues (R256, R258). -/
def newFlight (s : State) (core e c : Nat) (ws : List W64) : Flight :=
  { id := (s.queue core e).serial, slot := (s.queue core e).next, opc := recOpc ws, words := ws, start := s.ctxNow c }

/-- The queue once its record has issued: it has gone past the record's slots, and the record is in flight. A BARRIER's time runs from
where its wait for earlier records began (R258). -/
def issuedQueue (s : State) (core e c : Nat) (ws : List W64) : Queue :=
  let q := s.queue core e
  { q.pass (1 + min (recExt ws) 2) with
      flight := q.flight ++ [newFlight s core e c ws], serial := q.serial + 1, stepArm := false, cur := ws.take 8
      blockId := q.serial, blockStart := if recOpc ws = 3 then q.ordSince.getD (s.ctxNow c) else s.ctxNow c, tokSince := none, ordSince := none }

/-- A record has left the queue's flight; HEAD may have moved. -/
def Retired (q r : Queue) (id : Nat) : Prop := ∃ hd, r = { q with flight := q.flight.filter (fun f => f.id != id), head := hd }

/-- What a record may change besides its own effect: of its core its queues, counters and traces, the tokens, FC_CTRL in force,
the stop of the gangs and the last context; outside the core messages in flight, contexts, event counters, rings, free values and the
hub but for tallies and barrier units. The core is otherwise `k`. -/
def RecBecomes (n : Nat) (s t : State) (k : Core) : Prop :=
  t = { s with cores := t.cores, net := t.net, hub := t.hub, ctxs := t.ctxs, dbg := t.dbg, rings := t.rings, draws := t.draws } ∧
  (∀ m, m ≠ n → t.core m = s.core m) ∧ t.hub.tallies = s.hub.tallies ∧ t.hub.units = s.hub.units ∧
  ∃ qs d tk cn st lc, t.core n =
    { k with queues := qs, dbg := d, tally := { k.tally with tokens := tk }, fc := { k.fc with ctrlNow := cn }, ge := { k.ge with stopped := st }, lastCtx := lc }

/-- NOP: retires at issue. -/
def NopRecRuns : Prop :=
  ∀ (core e c : Nat) (ws : List W64) (s : State), RecIssues s core e 0 c ws →
    ∃ t, exec (.nopRec core e) s = .next t ∧ RecBecomes core s t (s.core core) ∧
      Retired (issuedQueue s core e c ws) (t.queue core e) (s.queue core e).serial

/-- A wait's condition (R307, R310): the tally is not saturated, and its value is at least the threshold. -/
def ReachedIs : Prop := ∀ (t : TallySlot) (v : Nat), t.reached v = true ↔ t.sat = false ∧ v ≤ t.value

/-- WAIT: on a tally of its own core that has reached the value, the record retires; otherwise the queue is held at it. -/
def WaitRecRuns : Prop :=
  ∀ (core e c : Nat) (ws : List W64) (s : State) (h : Home), RecIssues s core e 1 c ws →
    let vid := wbits ws 1 11 0
    let v := wbits ws 1 63 32
    (s.ctx c).home vid = some h → s.opsPending ⟨core, 16 + e⟩ h = false →
    ∃ t, exec (.waitRec core e) s = .next t ∧ RecBecomes core s t (s.core core) ∧
      (HomeHere h core → (s.tallyAt h).reached v = true → Retired (issuedQueue s core e c ws) (t.queue core e) (s.queue core e).serial) ∧
      (HomeHere h core → (s.tallyAt h).reached v = false → t.queue core e = { issuedQueue s core e c ws with
        block := .wait { vid := vid, home := h, threshold := v, begun := true, done := false, seen := (s.tallyAt h).value } } ∧ t.net = s.net) ∧
      (¬ HomeHere h core → t.queue core e = { issuedQueue s core e c ws with block := .wait { vid := vid, home := h, threshold := v } } ∧
        t.net = { s.net with watches := s.net.watches ++
          [({ ctx := c, who := ⟨core, 16 + e⟩, idx := 0, serial := (s.queue core e).serial, home := h, threshold := v } : Watch)] })

/-- SIGNAL to a tally of this module, with no release or by a queue that has nothing to write back: a count of 0 retires it,
otherwise its increment is on its way. -/
def SignalRecRuns : Prop :=
  ∀ (core e c : Nat) (ws : List W64) (s : State) (h : Home), RecIssues s core e 2 c ws → wbits ws 1 31 16 = 0xFFFF →
    let vid := wbits ws 1 11 0
    let n := wbits ws 1 63 32
    (s.ctx c).home vid = some h → (e ≠ 0 ∨ wbits ws 2 1 0 < 2) → (∀ f ∈ (s.queue core e).flight, f.id ≠ (s.queue core e).serial) →
    ∃ t, exec (.signalRec core e) s = .next t ∧ RecBecomes core s t (s.core core) ∧
      (n = 0 → Retired (issuedQueue s core e c ws) (t.queue core e) (s.queue core e).serial) ∧
      (n ≠ 0 → t.queue core e = { issuedQueue s core e c ws with
          flight := (s.queue core e).flight ++ [newFlight s core e c ws] } ∧
        t.net = { s.net with tally := s.net.tally ++ [({ ctx := c, vid := vid, home := h, src := ⟨core, 16 + e⟩, act := .add n, qid := 4 * core + e
                                                         slot := (s.queue core e).next, retires := some (s.queue core e).serial } : TallyMsg)] })

/-- SIGNAL whose release goes to the far cache (scope MODULE or SYSTEM, queue of the gang engine), here one without error marks: the
release begins, and sends what it can (R241, R264, R332). -/
def SignalReleaseRuns : Prop :=
  ∀ (core c : Nat) (ws : List W64) (s : State), RecIssues s core 0 2 c ws → 2 ≤ wbits ws 2 1 0 → (s.core core).fc.bad = [] →
    (∀ f ∈ (s.queue core 0).flight, f.id ≠ (s.queue core 0).serial) →
    ∃ t cn, exec (.signalRec core 0) s = .next t ∧
      RecBecomes core s t { s.core core with fc := (({ (s.core core).fc with ctrlNow := cn } : FarCache).release 16 c (wbits ws 2 1 0 == 3)).pumpAll.1 } ∧
      t.queue core 0 = { issuedQueue s core 0 c ws with flight := (s.queue core 0).flight ++ [{ newFlight s core 0 c ws with releasing := true }] } ∧ t.net = s.net

/-- REBASE: the operation is on its way to the home of both tallies, and the record retires; Q_CUR shows DELTA clamped to the smaller
of the values (R267, R278). -/
def RebaseRecRuns : Prop :=
  ∀ (core e c : Nat) (ws : List W64) (s : State) (h h2 : Home), RecIssues s core e 4 c ws →
    let p := wbits ws 1 11 0
    let k := wbits ws 1 23 12
    (s.ctx c).home p = some h → (s.ctx c).home k = some h2 →
    ∃ t post, exec (.rebaseRec core e) s = .next t ∧ RecBecomes core s t (s.core core) ∧
      Retired { issuedQueue s core e c ws with cur := setWord (ws.take 8) 1 63 32 (min (wbits ws 1 63 32) (min (s.tallyAt h).value (s.tallyAt h2).value)) }
        (t.queue core e) (s.queue core e).serial ∧
      t.net.tally = s.net.tally ++ [({ ctx := c, vid := p, home := h, src := ⟨core, 16 + e⟩, act := .rebase k h2 (wbits ws 1 63 32) (s.queue core e).serial, qid := 4 * core + e
                                       slot := (s.queue core e).next } : TallyMsg)] ++ post

/-- LOOP with a count in the record: with a count of 0 the queue goes past the body, otherwise a loop is active with that count
(R268). -/
def LoopRecRuns : Prop :=
  ∀ (core e c : Nat) (ws : List W64) (s : State), RecIssues s core e 5 c ws → wbits ws 1 7 6 = 0 → (∀ f ∈ (s.queue core e).flight, f.id ≠ (s.queue core e).serial) →
    let q := issuedQueue s core e c ws
    let body := wbits ws 1 5 0
    let n := wbits ws 1 63 32
    ∃ t, exec (.loopRec core e) s = .next t ∧ RecBecomes core s t (s.core core) ∧
      (n = 0 → Retired (q.pass body) (t.queue core e) (s.queue core e).serial) ∧
      (n ≠ 0 → Retired { q with loops := { first := q.next, stop := (q.next + body) % q.size, left := n, count := n } :: q.loops } (t.queue core e) (s.queue core e).serial)

/-- LOOP with its count in memory or in a tally: the queue is held until the count has arrived. -/
def LoopReadRuns : Prop :=
  ∀ (core e c : Nat) (ws : List W64) (s : State), RecIssues s core e 5 c ws → wbits ws 1 7 6 ≠ 0 →
    (wbits ws 1 7 6 = 1 → wbits ws 2 47 0 % 4 = 0 ∧ (s.ctx c).farOk .r (wbits ws 2 47 0) 4 = true) →
    ∃ t, exec (.loopRec core e) s = .next t ∧ RecBecomes core s t (s.core core) ∧
      t.queue core e = { issuedQueue s core e c ws with block := .loopRead (wbits ws 1 7 6 == 2) }

/-- LOOP_COUNT_READ: the count word arrives, and the loop is entered with it. -/
def LoopCountReadRuns : Prop :=
  ∀ (core e c : Nat) (fl : Flight) (s : State), core < 1280 → e < 4 → s.live core = some c → s.far.bad = [] →
    let q := s.queue core e
    q.block = .loopRead false → q.flight.find? (fun f => f.id == q.blockId) = some fl → (s.core core).crecFull e = false →
    let body := wbits fl.words 1 5 0
    let n := ofLe (memReadN s.far.mem (wbits fl.words 2 47 0) 4)
    ∃ t, exec (.loopCountRead core e) s = .next t ∧ RecBecomes core s t (s.core core) ∧
      (n = 0 → Retired ({ q with block := .none }.pass body) (t.queue core e) q.blockId) ∧
      (n ≠ 0 → Retired { q with block := .none, loops := { first := q.next, stop := (q.next + body) % q.size, left := n, count := n } :: q.loops } (t.queue core e) q.blockId)

/-- PHASE: a lead engine's mark takes the die's mark line; any mark retires its record (R270, R299). -/
def PhaseRecRuns : Prop :=
  ∀ (core e c : Nat) (ws : List W64) (s : State), RecIssues s core e 6 c ws →
    ((s.ctx c).isLead core e = true → (tblGet ({} : Die) s.dies (dieOf core)).line = none) →
    ∃ t, exec (.phaseRec core e) s = .next t ∧
      Retired (issuedQueue s core e c ws) (t.queue core e) (s.queue core e).serial ∧
      ((s.ctx c).isLead core e = false → RecBecomes core s t (s.core core)) ∧
      ((s.ctx c).isLead core e = true →
        RecBecomes core { s with dies := tblSet (dieOf core) { tblGet ({} : Die) s.dies (dieOf core) with line := some (c, wbits ws 1 15 0, s.now) } s.dies } t (s.core core))

/-- CLEAR_FLAGS: the sticky flags of its own engine, and only those, are zero. -/
def ClearFlagsRuns : Prop :=
  ∀ (core e c : Nat) (ws : List W64) (s : State), RecIssues s core e 8 c ws →
    ∃ t, exec (.clearFlags core e) s = .next t ∧ Retired (issuedQueue s core e c ws) (t.queue core e) (s.queue core e).serial ∧
      let k := s.core core
      (e = 0 → RecBecomes core s t { k with ge := { k.ge with flags := {} } }) ∧
      (e = 1 → RecBecomes core s t { k with me := { k.me with flags := {} } }) ∧
      (e = 2 → RecBecomes core s t { k with mv0 := { k.mv0 with flags := {} } }) ∧
      (e = 3 → RecBecomes core s t { k with mv1 := { k.mv1 with flags := {} } })

/-- FENCE of an acquire or a release at a queue with nothing to write back: it ends at once; the acquire of the gang engine's queue
at scope MODULE or SYSTEM drops the context's clean bytes (R272, R335). -/
def FenceRecRuns : Prop :=
  ∀ (core e c : Nat) (ws : List W64) (s : State), RecIssues s core e 9 c ws → wbits ws 1 5 4 = 0 → (wbits ws 1 3 2 = 1 ∨ e ≠ 0 ∨ wbits ws 1 1 0 = 0) →
    ∃ t, exec (.fenceRec core e) s = .next t ∧ Retired (issuedQueue s core e c ws) (t.queue core e) (s.queue core e).serial ∧
      ((e ≠ 0 ∨ wbits ws 1 1 0 = 0) → RecBecomes core s t (s.core core)) ∧
      (e = 0 → wbits ws 1 1 0 ≠ 0 → RecBecomes core s t { s.core core with fc := (s.core core).fc.acquire c })

/-- FENCE with a fence-object operation: the queue is held, and the operation is on its way to the object (R272). -/
def FenceObjectRuns : Prop :=
  ∀ (core e c : Nat) (ws : List W64) (s : State), RecIssues s core e 9 c ws →
    let fop := wbits ws 1 5 4
    let a := wbits ws 2 47 0
    (fop = 1 ∨ fop = 2) → (s.ctx c).fenceObjOk (fop == 1) a = true → (wbits ws 1 3 2 = 1 ∨ e ≠ 0 ∨ wbits ws 1 1 0 = 0) →
    ∃ t, exec (.fenceRec core e) s = .next t ∧ RecBecomes core s t (s.core core) ∧
      t.queue core e = { issuedQueue s core e c ws with block := .fence 1 true } ∧
      t.net = { s.net with fobj := s.net.fobj ++
        [({ ctx := c, who := ⟨core, 16 + e⟩, addr := a, max := if fop = 1 then some (ws.getD 3 0).toNat else none } : FobjMsg)] }

/-- LAUNCH: a count of 0 retires it; otherwise the launch waits for slots with its entry, arguments and count (R28, R273). -/
def LaunchRecRuns : Prop :=
  ∀ (core c : Nat) (ws : List W64) (s : State), RecIssues s core 0 0x20 c ws →
    let n := wbits ws 1 52 48
    let k := s.core core
    ∃ t, exec (.launchRec core 0) s = .next t ∧
      (n = 0 → RecBecomes core s t { k with ge := { k.ge with seedNow := k.ge.seed } } ∧ Retired (issuedQueue s core 0 c ws) (t.queue core 0) (s.queue core 0).serial) ∧
      (n ≠ 0 → RecBecomes core s t { k with ge := { k.ge with seedNow := k.ge.seed, launches := k.ge.launches ++
          [({ id := (s.queue core 0).serial, entry := BitVec.ofNat 48 (wbits ws 1 47 0 / 8 * 8), args := (List.range 8).map (fun i => ws.getD (4 + i) 0)
              count := n, started := 0, live := 0, start := s.ctxNow c, tmo := wbits ws 2 23 0 } : Launch)] } } ∧
        t.queue core 0 = issuedQueue s core 0 c ws)

/-! ### Doorbells, ring fetches, commits, stepping (09_queues R252 to R254, R279 to R285) -/

/-- QDB: a doorbell to a queue of a placed context sets TAIL, clamped to the ring; while the context is away the value waits; a
doorbell to a queue that is not the context's, or of a context that is killed, is counted and changes nothing else (R252, R253). -/
def QdbRuns : Prop :=
  ∀ (c qid tail : Nat) (s : State), c < 1024 → qid < 5120 → tail < 4096 →
    let x := s.ctx c
    let q := s.queue (qid / 4) (qid % 4)
    (qid / 4 ∈ x.bench → x.killing = false → x.state = .placed → ∃ d, exec (.qdb c qid tail) s = .next ((s.setQueue (qid / 4) (qid % 4)
      { q with tail := min tail (2 ^ q.inForce.log2 - 1) }).modCore (qid / 4) (fun k => { k with dbg := { k.dbg with counters := d } }))) ∧
    (qid / 4 ∈ x.bench → x.killing = false → x.state = .ready ∨ x.state = .suspended →
      exec (.qdb c qid tail) s = .next { s with ctxs := tblSet c { x with bells := tblSet qid tail x.bells } s.ctxs }) ∧
    (qid / 4 ∉ x.bench ∨ x.killing = true → exec (.qdb c qid tail) s = .next { s with ctxs := tblSet c { x with dbDrop := min 0xFFFFFFFF (x.dbDrop + 1) } s.ctxs })

/-- RING_FETCH: the slots from FETCH to the end of the block, to TAIL or to the room on chip arrive, each with its four words, from
far memory or, for a ring in host memory, from the block the host returned (R254). -/
def RingFetchRuns : Prop :=
  ∀ (core e : Nat) (ok : Bool) (data : List Byte) (s : State) (c : Nat), core < 1280 → e < 4 → s.live core = some c →
    let q := s.queue core e
    let x := s.ctx c
    let b := q.inForce.base + 32 * (q.fetch / 16 * 16)
    q.inForce.enable = true → q.fetch ≠ q.tail → q.onchip.length < 64 → x.suspendReq = none →
    let n := min (16 - q.fetch % 16) (min (q.dist q.fetch q.tail) (64 - q.onchip.length))
    let slots := fun (bs : List Byte) => (List.range n).map (fun i =>
      (q.fetch + i, (List.range 4).map (fun j => BitVec.ofNat 64 (ofLe ((bs.drop (32 * ((q.fetch + i) % 16) + 8 * j)).take 8)))))
    let arrived := fun (bs : List Byte) => ({ q with onchip := q.onchip ++ slots bs, fetch := (q.fetch + n) % 2 ^ q.inForce.log2 } : Queue)
    (addrClass b = .far → x.farOk .r b 512 = true → s.far.bad = [] →
      exec (.ringFetch core e ok data) s = .next (s.setQueue core e (arrived (memReadN s.far.mem b 512)))) ∧
    (addrClass b = .host → x.granted .r b 512 = true → ok = true → data.length = 512 → exec (.ringFetch core e ok data) s = .next (s.setQueue core e (arrived data))) ∧
    (addrClass b = .host → x.granted .r b 512 = true → ok = false →
      exec (.ringFetch core e ok data) s = .next { s with ctxs := tblSet c { x with suspendReq := some (x.hostAddr b / 4096 * 4096) } s.ctxs })

/-- QUEUE_COMMIT asks for the staged fields; QUEUE_COMMIT_EFFECT puts them in force and sets all indices to 0 (software) or to the
Foreman's, once nothing is on chip or in flight (R285). -/
def QueueCommitRuns : Prop :=
  ∀ (core e : Nat) (s : State), core < 1280 → e < 4 →
    let q := s.queue core e
    exec (.queueCommit core e) s = .next (s.setQueue core e { q with commit := .software }) ∧
    (q.onchip ≠ [] ∨ q.flight ≠ [] → exec (.queueCommitEffect core e) s = .next s) ∧
    (q.onchip = [] → q.flight = [] → q.commit = .software → exec (.queueCommitEffect core e) s = .next (s.setQueue core e
      { q with inForce := q.staged, commit := .none, head := 0, fetch := 0, next := 0, tail := 0, loops := [] })) ∧
    (∀ h t, q.onchip = [] → q.flight = [] → q.commit = .foreman h t → exec (.queueCommitEffect core e) s = .next (s.setQueue core e
      { q with inForce := q.staged, commit := .none, head := h % 2 ^ q.staged.log2, fetch := h % 2 ^ q.staged.log2, next := h % 2 ^ q.staged.log2
               tail := t % 2 ^ q.staged.log2, loops := [] }))

/-- HALT, STEP and BRK_EN of a queue; STEP has no effect while the queue is not halted (R279 to R282). -/
def StepControlRuns : Prop :=
  ∀ (core e : Nat) (v : Bool) (s : State), core < 1280 → e < 4 →
    let q := s.queue core e
    exec (.brkEn core e v) s = .next (s.setQueue core e { q with brkEn := v }) ∧
    (q.halted = false → exec (.stepOne core e) s = .next s) ∧
    (q.halted = true → ∃ r, exec (.stepOne core e) s = .next { s.setQueue core e { q with stepArm := true } with rings := r }) ∧
    (∃ r x, exec (.halt core e v) s = .next { s.setQueue core e { q with halt := v, halted := v, stepArm := q.stepArm && v } with rings := r, ctxs := x })

/-! ### BARRIER and POWER records, the banks, marks and counter records -/

/-- BARRIER that waits on no tally: with no unit it retires; with one, its arrival is on its way to the unit (R266). -/
def BarrierRecRuns : Prop :=
  ∀ (core e c : Nat) (ws : List W64) (s : State), RecIssues s core e 3 c ws → wbits ws 1 12 12 = 0 → wbits ws 1 25 25 = 0 →
    ∃ t, exec (.barrierRec core e) s = .next t ∧ RecBecomes core s t (s.core core) ∧
      (wbits ws 1 30 30 = 0 → Retired (issuedQueue s core e c ws) (t.queue core e) (s.queue core e).serial) ∧
      (∀ u, wbits ws 1 30 30 = 1 → tblFind (wbits ws 1 29 26) (s.ctx c).units = some u →
        t.queue core e = { issuedQueue s core e c ws with block := .barrier [] (some u) true } ∧
        t.net = { s.net with arrivals := s.net.arrivals ++ [({ ctx := c, unit := u, qid := 4 * core + e, gen := 0 } : BarMsg)] })

/-- BARRIER that waits on a tally of another home: the queue is held, and the watch is on its way. -/
def BarrierTallyRuns : Prop :=
  ∀ (core e c : Nat) (ws : List W64) (s : State) (h : Home), RecIssues s core e 3 c ws → wbits ws 1 12 12 = 1 → wbits ws 1 25 25 = 0 →
    (s.ctx c).home (wbits ws 1 11 0) = some h → s.opsPending ⟨core, 16 + e⟩ h = false → ¬ HomeHere h core →
    let u := if wbits ws 1 30 30 = 1 then tblFind (wbits ws 1 29 26) (s.ctx c).units else none
    ∃ t, exec (.barrierRec core e) s = .next t ∧ RecBecomes core s t (s.core core) ∧
      t.queue core e = { issuedQueue s core e c ws with block := .barrier [{ vid := wbits ws 1 11 0, home := h, threshold := wbits ws 1 63 32 }] u false } ∧
      t.net = { s.net with watches := s.net.watches ++
        [({ ctx := c, who := ⟨core, 16 + e⟩, idx := 0, serial := (s.queue core e).serial, home := h, threshold := wbits ws 1 63 32 } : Watch)] }

/-- POWER of one bank that no other record waits on: a bank that is ON drains, a bank that is OFF wakes, a bank already in the state
asked for stays as it is (R165, R167, R271). -/
def PowerRecRuns : Prop :=
  ∀ (core e c i : Nat) (ws : List W64) (s : State), RecIssues s core e 7 c ws → i < 32 → wbits ws 1 31 0 = 2 ^ i → (∀ w ∈ (s.core core).slab.powerWaits, w.bank ≠ i) →
    let b := (s.core core).slab
    let on := wbits ws 1 32 32 == 1
    let w : PowerWait := { eng := e, rec_ := (s.queue core e).serial, bank := i, on := on }
    ∃ t, exec (.powerRec core e) s = .next t ∧
      (b.bank i = .on → on = false → RecBecomes core s t { s.core core with slab := { b with powerWaits := b.powerWaits ++ [w], banks := tblSet i .draining b.banks } }) ∧
      (b.bank i = .off → on = true → RecBecomes core s t { s.core core with slab := { b with powerWaits := b.powerWaits ++ [w], banks := tblSet i .waking b.banks } }) ∧
      (b.bank i = .on → on = true → RecBecomes core s t (s.core core)) ∧
      (b.bank i = .off → on = false → RecBecomes core s t (s.core core))

/-- BANK_OFF: a draining bank with no write in flight to it and none of the array's still due goes OFF; its records that asked for that are done (R165). -/
def BankOffRuns : Prop :=
  ∀ (core i : Nat) (w : PowerWait) (s : State), core < 1280 → i < 32 →
    let b := (s.core core).slab
    b.bank i = .draining → b.inflightWrites i = 0 → (∀ v ∈ (s.core core).me.events, ∀ x y slab, v.act = .write x y slab → slab % 32 ≠ i) →
    b.powerWaits.filter (fun x => x.bank == i) = [w] → w.on = false →
    ∃ t, exec (.bankOff core i) s = .next t ∧
      RecBecomes core s t { s.core core with slab := { b with banks := tblSet i .off b.banks, powerWaits := b.powerWaits.erase w } }

/-- BANK_ON at a core whose array has nothing left to do: a waking bank is ON with zeros in all its slabs, no codeword of it in error or awaiting its rewrite; its record is
done; every other slab reads as before (R167). -/
def BankOnRuns : Prop :=
  ∀ (core i : Nat) (w : PowerWait) (s : State), core < 1280 → i < 32 →
    let b := (s.core core).slab
    b.bank i = .waking → (s.core core).me.events = [] →
    b.powerWaits.filter (fun x => x.bank == i) = [w] → w.on = true →
    ∃ t b', exec (.bankOn core i) s = .next t ∧ RecBecomes core s t { s.core core with slab := b' } ∧ b'.bank i = .on ∧
      b'.powerWaits = b.powerWaits.erase w ∧ b'.unplanned = b.unplanned ∧ b'.landing = b.landing ∧
      (∀ j, j ≠ i → tblGet .on b'.banks j = tblGet .on b.banks j) ∧
      (∀ a, memRead b'.mem a = if a / 512 % 32 = i then 0 else memRead b.mem a) ∧
      (∀ cw v, (cw, v) ∈ b'.bad ↔ (cw, v) ∈ b.bad ∧ cw / 8 % 32 ≠ i) ∧ (∀ cw, cw ∈ b'.rewrites ↔ cw ∈ b.rewrites ∧ cw / 8 % 32 ≠ i)

/-- PHASE_MARK: a mark that has held its line for 1 µs is accepted: its phase began with the mark, or begins LEAD_US after it for a mark
with bit 15 set, and later marks of the die are replaced (R270, R299). -/
def PhaseMarkRuns : Prop :=
  ∀ (die now c mark since : Nat) (s : State), die < 4 →
    let u := s.advanceTo now
    let d := tblGet ({} : Die) u.dies die
    let x := u.ctx c
    d.line = some (c, mark, since) → since + 1000 ≤ u.now → (x.state = .placed ∨ x.state = .suspended) →
    let phase := min (mark % 256) (x.plan_.phases.length - 1)
    let start := if bitOf mark 15 then 2 * since + 2000 * ((x.plan_.phases[phase]?).map PhaseRow.leadUs).getD 0 else 2 * since
    exec (.phaseMark die now) s = .next { u with
      dies := tblSet die { d with line := none } u.dies
      ctxs := tblSet c { x with marks := tblSet die ((tblGet [] x.marks die).filter (fun m => decide (m.start < start)) ++ [({ start := start, phase := phase } : PMark)]) x.marks } u.ctxs }

/-- COUNTER_RECORD_WRITE: the oldest queued counter record is in memory, its 64 bytes and no others; in a core where no record waits to
retire the queue of writes has lost it (R516, R517). -/
def CounterRecordWriteRuns : Prop :=
  ∀ (core : Nat) (w : CRecWrite) (rest : List CRecWrite) (s : State), core < 1280 → (s.core core).dbg.writes = w :: rest → w.words.length = 8 →
    (s.ctx w.ctx).farOk .w w.addr 64 = true → (s.ctx w.ctx).killing = false → s.far.bad = [] → Memory.wf s.far.mem = true → s.links.twin.mset = none →
    ∃ t, exec (.counterRecordWrite core) s = .next t ∧ RecBecomes core { s with far := { s.far with mem := t.far.mem } } t (s.core core) ∧
      memReadN t.far.mem w.addr 64 = w.words.flatMap (fun x => leBytes 8 x.toNat) ∧
      (∀ a, a < w.addr ∨ w.addr + 64 ≤ a → memRead t.far.mem a = memRead s.far.mem a) ∧
      ((∀ e, e < 4 → (s.queue core e).toRetire = []) → (t.core core).dbg.writes = rest)

/-! ### The matrix engine (04_matrix; 02_gangs R58 to R60; 09_queues R274 to R276; 05_numbers R136, R137) -/

/-- Gang matrix instructions with their operation number. -/
def matRows : List ((GangAt → MForm → Instr) × Nat) := [(.mma, 0), (.mmaz, 1), (.gangMdrain, 2), (.mclr, 3)]

/-- MMA, MMAZ, MDRAIN, MCLR: the gang waits for the array, its operand registers held and its results due (R58 to R60). -/
def GangMatrixIssues : Prop :=
  ∀ r ∈ matRows, ∀ (g : GangAt) (f : MForm) (s : State) (c : Nat), Issues s g (r.1 g f) { vr := (matUse r.2 f).1, vw := (matUse r.2 f).2 } c →
    let x := s.gang g.core g.slot
    let k := s.core g.core
    ∃ t, exec (r.1 g f) s = .next t ∧ CoreBecomes g.core s t
      { k.setGang g.slot { x with wait := .window, resume := g.next, heldV := x.heldV ++ (matUse r.2 f).1, dueV := x.dueV ++ (matUse r.2 f).2 } with
        me := { k.me with gangQueue := k.me.gangQueue ++ [({ slot := g.slot, op := r.2, form := f } : GangMat)] } } s.net

/-- The oldest waiting gang matrix instruction may enter the array: the window is open, free of earlier input, has cycles enough left and
grants the tile (R119, R120). -/
def MatAccepts (u : State) (core c : Nat) (q : GangMat) (rest : List GangMat) : Prop :=
  let me := (u.core core).me
  core < 1280 ∧ u.live core = some c ∧ me.gangQueue = q :: rest ∧ me.win.open_ = true ∧ me.win.inputEnd ≤ u.cycleOf core ∧
  u.cycleOf core + (matCycles (u.core core).me.degraded q.op q.form).1 ≤ me.win.close ∧ granted me.win.grant q.op q.form = true

/-- The window once an instruction has entered. -/
def acceptedWin (u : State) (core : Nat) (q : GangMat) : GangWin :=
  let w := (u.core core).me.win
  let n := matCycles (u.core core).me.degraded q.op q.form
  { w with inputEnd := u.cycleOf core + n.1, finish := max w.finish (u.cycleOf core + n.2 + 1)
           busy := tblSet (if q.op = 2 then accBank q.form.a else accBank q.form.x)
             (max (tblGet 0 w.busy (if q.op = 2 then accBank q.form.a else accBank q.form.x)) (u.cycleOf core + n.2 + 1)) w.busy }

/-- From u to t only the core's array, the gang's slot and the event counters change. -/
def MatBecomes (core slot : Nat) (u t : State) (me : MatrixEngine) (x : Gang) : Prop :=
  ∃ ct, t = u.setCore core { (u.core core).setGang slot x with me := me, dbg := { (u.core core).dbg with counters := ct } }

/-- An instruction that the window has no room for, or that finds it closed, waits. -/
def MatWaits : Prop :=
  ∀ (core now c : Nat) (q : GangMat) (rest : List GangMat) (s : State),
    let u := s.advanceTo now
    core < 1280 → u.live core = some c → (u.core core).me.gangQueue = q :: rest →
    (u.core core).me.win.open_ = false ∨ (u.core core).me.win.close < u.cycleOf core + (matCycles (u.core core).me.degraded q.op q.form).1 →
    exec (.gangMatrixAccept core now) s = .next u

/-- What the passes over a tile leave in an entry: each pass adds its partial sum in one rounding, the first pass of a MMAZ overwrites
(R104 to R106, R132 to R134). -/
def tileValue (t : Tile) (a b xa xb : Nat → Nat → Nat) (old : Nat) : Nat :=
  (List.range t.passes).foldl (fun v p => (passEntry t.fa t.fb (t.left p) (!t.acc && p == 0) (a p) (b p) (xa p) (xb p) v).1 % 2 ^ 32) old

/-- MMA and MMAZ enter the array: every entry of the tile holds the products of its row of A and column of B, every other accumulator
is unchanged, and the gang goes on (R121, R122). -/
def GangProductRuns : Prop :=
  ∀ (core now c : Nat) (q : GangMat) (rest : List GangMat) (s : State),
    let u := s.advanceTo now
    MatAccepts u core c q rest → q.op ≤ 1 → u.loose core = false → (u.core core).me.parity = none →
    let f := q.form
    let x := u.gang core q.slot
    let me := (u.core core).me
    let m := mfM f
    let n := mfN f
    let k := mfK f
    let kp := kPass f.fa
    let bank := accBank f.x
    let e0 := accRow f.x
    let c0 := accCol f.x
    c0 + n ≤ 64 →
    let bsA := groupBytes x f.a (m * k * fmtBits f.fa / 8)
    let bsB := groupBytes x f.b (k * n * fmtBits f.fb / 8)
    let scA := groupBytes x f.c (m * k / 32)
    let scB := groupBytes x (f.c + regsOf (m * k / 32)) (n * k / 32)
    let tile : Tile := { fa := f.fa, fb := f.fb, k := k, bank := bank, e0 := e0, c0 := c0, m := m, n := n, acc := q.op == 0 }
    ∃ t me', exec (.gangMatrixAccept core now) s = .next t ∧
      MatBecomes core q.slot u t me' ({ x with wait := .none, heldV := [], dueV := [] }.advance x.resume) ∧
      me'.gangQueue = rest ∧ me'.win = acceptedWin u core q ∧ me'.run = me.run ∧ me'.profiles = me.profiles ∧
      (∀ i, i < m → ∀ j, j < n → me'.accAt bank (e0 + i) (c0 + j) = tileValue tile
        (fun p e => elemAt bsA (fmtBits f.fa) (i * k + p * kp + e)) (fun p e => elemAt bsB (fmtBits f.fb) (j * k + p * kp + e))
        (fun p b => (scA.getD (i * (k / 32) + p * (kp / 32) + b) 0).toNat) (fun p b => (scB.getD (j * (k / 32) + p * (kp / 32) + b) 0).toNat)
        (me.accAt bank (e0 + i) (c0 + j))) ∧
      (∀ bk e cl, cl < 64 → (∀ i, i < m → ∀ j, j < n → (bk, e, cl) ≠ (bank, e0 + i, c0 + j)) → e < 128 → e0 + m ≤ 128 → me'.accAt bk e cl = me.accAt bk e cl)

/-- A column has failed a parity check: DEGRADED and BAD_COL are set, the module's list names the core, and the accumulators are as they were. -/
def ColumnMarked (s t : State) (core col : Nat) : Prop :=
  (t.core core).me.degraded = true ∧ (t.core core).me.badCol = col % 64 ∧ (t.core core).me.parity = none ∧ core ∈ t.dbg.degraded ∧
  (t.core core).me.acc = (s.core core).me.acc ∧ (t.core core).slab.mem = (s.core core).slab.mem

/-- MMA and MMAZ meet a cell whose parity bit does not match (04_matrix R127; 00_scope R9): the context is killed, the column is marked, and no
accumulator changes. -/
def GangParityStops : Prop :=
  ∀ (core now c col : Nat) (q : GangMat) (rest : List GangMat) (s : State),
    let u := s.advanceTo now
    MatAccepts u core c q rest → q.op ≤ 1 → (u.core core).me.parity = some col → (u.ctx c).fault = none →
    ∃ t f, exec (.gangMatrixAccept core now) s = .next t ∧ ColumnMarked u t core col ∧
      (t.ctx c).fault = some f ∧ f.cause = .uncorrEcc ∧ f.core = core ∧ f.engine = 0 ∧ f.gang = q.slot ∧ f.addr = 0

/-- MDRAIN enters the array: the converter's codes of the tile, packed row by row, are in the destination registers, the scales of an
MX output in the next group, and the gang goes on; the accumulators are unchanged (R83, R122, R137). -/
def GangDrainRuns : Prop :=
  ∀ (core now c : Nat) (q : GangMat) (rest : List GangMat) (s : State),
    let u := s.advanceTo now
    MatAccepts u core c q rest → q.op = 2 →
    let f := q.form
    let x := u.gang core q.slot
    let me := (u.core core).me
    let r := ({ me with gangQueue := rest, win := acceptedWin u core q } : MatrixEngine).drain f.cvp f.fa (accBank f.a) (accRow f.a) (accCol f.a) (mfM f) (mfN f)
      (biasOf (tblGet ({} : Profile) me.profiles f.cvp) [] true (accCol f.a))
    let y := setGroup x f.x (packCodes (fmtBits f.fa) (mfM f * mfN f * fmtBits f.fa / 8) (r.2.flatMap Prod.fst))
    let z := if fmtMx f.fa then setGroup y f.c (r.2.flatMap (fun d => d.2.map (BitVec.ofNat 8))) else y
    ∃ t, exec (.gangMatrixAccept core now) s = .next t ∧
      MatBecomes core q.slot u t r.1 ({ z with wait := .none, heldV := [], dueV := [] }.advance z.resume) ∧ r.1.acc = me.acc ∧ r.1.gangQueue = rest

/-- A tile is +0 with no INT32 block in it, and every accumulator outside it is unchanged (R111). -/
def TileCleared (me me' : MatrixEngine) (bank e0 c0 m n : Nat) : Prop :=
  (∀ i, i < m → ∀ j, j < n → me'.accAt bank (e0 + i) (c0 + j) = 0) ∧
  (∀ bk e cl, cl < 64 → e < 128 → (∀ i, i < m → ∀ j, j < n → (bk, e, cl) ≠ (bank, e0 + i, c0 + j)) → me'.accAt bk e cl = me.accAt bk e cl)

/-- MCLR enters the array: the tile is +0, and the gang goes on. -/
def GangClearRuns : Prop :=
  ∀ (core now c : Nat) (q : GangMat) (rest : List GangMat) (s : State),
    let u := s.advanceTo now
    MatAccepts u core c q rest → q.op = 3 →
    let f := q.form
    let x := u.gang core q.slot
    let me := (u.core core).me
    accCol f.x + mfN f ≤ 64 → accRow f.x + mfM f ≤ 128 →
    ∃ t me', exec (.gangMatrixAccept core now) s = .next t ∧
      MatBecomes core q.slot u t me' ({ x with wait := .none, heldV := [], dueV := [] }.advance x.resume) ∧
      me'.gangQueue = rest ∧ me'.win = acceptedWin u core q ∧ me'.run = me.run ∧ me'.flags = me.flags ∧
      TileCleared me me' (accBank f.x) (accRow f.x) (accCol f.x) (mfM f) (mfN f)

/-- MCLEAR: the tile is +0 from its issue on, and the record stays in flight for the cycle of each of its entries (R111, R118, R275). -/
def MclearRuns : Prop :=
  ∀ (core c : Nat) (ws : List W64) (s : State), RecIssues s core 1 0x32 c ws → (s.queue core 1).flight = [] →
    let bank := wbits ws 1 0 0
    let e0 := wbits ws 1 7 1
    let c0 := wbits ws 1 28 23
    let m := wbits ws 1 15 8
    let n := wbits ws 1 22 16
    let me := (s.core core).me
    let cyc := s.cycleOf core
    c0 + n ≤ 64 → e0 + m ≤ 128 →
    ∃ t me', exec (.mclear core 1) s = .next t ∧ RecBecomes core s t { s.core core with me := me' } ∧ t.queue core 1 = issuedQueue s core 1 c ws ∧
      me'.run = me.run ++ [({ rec_ := (s.queue core 1).serial, words := ws, lastIn := cyc, due := cyc + m - 1, bank := bank } : MatRun)] ∧
      me'.events = me.events ∧ me'.profiles = me.profiles ∧ TileCleared me me' bank e0 c0 m n

/-- GANG_WINDOW: a LENGTH of 0 opens none; otherwise the window is open for that many cycles with the record's grant, and the record
stays in flight (R119, R276). -/
def GangWindowRuns : Prop :=
  ∀ (core c : Nat) (ws : List W64) (s : State), RecIssues s core 1 0x33 c ws → (s.queue core 1).flight = [] →
    let len := wbits ws 1 23 0
    let k := s.core core
    ∃ t, exec (.gangWindow core 1) s = .next t ∧
      (len = 0 → RecBecomes core s t k ∧ Retired (issuedQueue s core 1 c ws) (t.queue core 1) (s.queue core 1).serial) ∧
      (len ≠ 0 → RecBecomes core s t { k with me := { k.me with win :=
          { open_ := true, close := s.cycleOf core + len, grant := ws.getD 2 0, rec_ := (s.queue core 1).serial, inputEnd := s.cycleOf core, finish := s.cycleOf core } } } ∧
        t.queue core 1 = issuedQueue s core 1 c ws)

/-- GANG_WINDOW_CLOSE: once its last cycle has passed the window is closed and its record retires (R119). -/
def GangWindowCloseRuns : Prop :=
  ∀ (core now c : Nat) (fl : Flight) (s : State),
    let u := s.advanceTo now
    let w := (u.core core).me.win
    core < 1280 → u.live core = some c → w.open_ = true → w.close ≤ u.cycleOf core →
    (u.queue core 1).flight.find? (fun f => f.id == w.rec_) = some fl → (u.core core).crecFull 1 = false →
    ∃ t, exec (.gangWindowClose core now) s = .next t ∧
      RecBecomes core u t { u.core core with me := { (u.core core).me with win := { w with open_ := false } } } ∧ Retired (u.queue core 1) (t.queue core 1) w.rec_

/-- MATMUL that issues, its ranges granted and no operand bank OFF or waking: the record is in progress with the events of its fold, and
stays in flight until MATMUL_RETIRE; what lies in the cycle of its issue is done at once (R115 to R118, R274). -/
def MatmulRuns : Prop :=
  ∀ (core c : Nat) (ws : List W64) (s : State), RecIssues s core 1 0x30 c ws →
    let me := (s.core core).me
    let j := matJob ws
    let bias := (j.units.filter j.drains).flatMap (fun u => biasSlabOf me j.prof u.g)
    (∀ r ∈ me.run, r.lastIn < s.cycleOf core) → (∀ i ∈ j.units.flatMap j.unitReads, (s.core core).slab.bank i ≠ .waking) →
    s.matFault c core (j.units.flatMap j.unitReads ++ bias) (j.units.flatMap j.unitWrites) = none →
    let b := j.start me (s.queue core 1).serial (s.cycleOf core) ws
    ∃ u, exec (.matmul core 1) s = .next (u.pumpMe core) ∧ u.queue core 1 = issuedQueue s core 1 c ws ∧
      RecBecomes core s u { s.core core with me := { me with run := me.run ++ [b.1], events := joinEvents b.2 me.events } }

/-- The times of a MATMUL on an array that is not degraded, with no drain pending on its bank and the converter free: its last input
cycle and its retirement are those of R117; it reads exactly its units' slabs, at or after its issue and before it retires, and writes
only its output slabs (R109, R113, R116, R117). -/
def MatmulTimes : Prop :=
  ∀ (j : MatJob) (me : MatrixEngine) (id now : Nat) (ws : List W64), me.degraded = false →
    (∀ r ∈ me.run, ∀ d ∈ r.drains, d.1 + d.2.2 ≤ now ∧ r.bank ≠ j.bank) →
    let b := j.start me id now ws
    let times := foldTimes j.fa j.fo j.k j.nodrain j.units
    b.1.lastIn = now + times.1 ∧ b.1.due = now + times.2 ∧ (∀ e ∈ b.2, e.rec_ = id ∧ now ≤ e.at_) ∧
      b.2.filterMap (fun e => match e.act with | .read _ _ _ slab => some slab | _ => none) = j.units.flatMap j.unitReads ∧
      (∀ e ∈ b.2, ∀ x y slab, e.act = .write x y slab → slab ∈ j.units.flatMap j.unitWrites)

/-- The array does what lies at cycles up to the die's, in order: an event of the core's array that is due, the next one being
later. -/
def ArrayDoes (s : State) (core c : Nat) (e : MeEvent) (rest : List MeEvent) (r : MatRun) : Prop :=
  s.live core = some c ∧ (s.core core).me.events = e :: rest ∧ e.at_ ≤ s.cycleOf core ∧ (∀ x ∈ rest, s.cycleOf core < x.at_) ∧
  (s.core core).me.run.find? (fun x => x.rec_ == e.rec_ && !x.dead) = some r

/-- From s to t only the array, slab memory and the event counters of one core change. -/
def ArrayBecomes (core : Nat) (s t : State) (me : MatrixEngine) (b : Slab) : Prop :=
  ∃ ct, t = s.setCore core { s.core core with me := me, slab := b, dbg := { (s.core core).dbg with counters := ct } }

/-- An array with nothing left to do, or nothing due, does nothing. -/
def ArrayIdle : Prop :=
  ∀ (core : Nat) (s : State), (∀ x ∈ (s.core core).me.events, s.cycleOf core < x.at_) → ∀ j, (s.pumpMe core).core j = s.core j

/-- A planned read of an operand slab in a bank that is ON, none of its codewords in error: its bytes join the record's panel (R109). -/
def ArrayReads : Prop :=
  ∀ (core c : Nat) (e : MeEvent) (rest : List MeEvent) (r : MatRun) (panel p u slab : Nat) (s : State), ArrayDoes s core c e rest r →
    e.act = .read panel p u slab → (s.core core).slab.bank slab = .on → (∀ i, i < 8 → tblFind (8 * slab + i) (s.core core).slab.bad = none) →
    let me := (s.core core).me
    ArrayBecomes core s (s.pumpMe core) { me with events := rest, run := me.run.map (fun x =>
      if x.rec_ = r.rec_ then { x with got := x.got ++ [((u, p, panel), memReadN (s.core core).slab.mem (512 * slab) 512)] } else x) } (s.core core).slab

/-- A planned read that meets an uncorrectable codeword, or a bank that is OFF: the context is killed, and nothing more of the record is
drained (06_slab R164, R166). -/
def ArrayReadFaults : Prop :=
  ∀ (core c : Nat) (e : MeEvent) (rest : List MeEvent) (r : MatRun) (fl : Flight) (panel p u slab : Nat) (s : State), ArrayDoes s core c e rest r →
    e.act = .read panel p u slab → (s.ctx c).fault = none → (s.core core).ctx = some c → (s.queue core 1).flight.find? (fun f => f.id == r.rec_) = some fl →
    ((s.core core).slab.bank slab = .off ∨ ((s.core core).slab.bank slab = .on ∧ ∃ i, i < 8 ∧ tblFind (8 * slab + i) (s.core core).slab.bad = some true)) →
    ∃ f, ((s.pumpMe core).ctx c).fault = some f ∧ f.cause = (if (s.core core).slab.bank slab = .off then .slabBankOff else .uncorrEcc) ∧ f.core = core ∧
      f.engine = 1 ∧ f.addr = slabAt core slab ∧ (∀ x ∈ ((s.pumpMe core).core core).me.run, x.rec_ = r.rec_ → x.dead = true) ∧
      ((s.pumpMe core).core core).slab.mem = (s.core core).slab.mem

/-- The passes of a unit have reached the accumulators: every entry of its tile holds the products of its row of A and its column of B,
read from the panels, and every other accumulator is unchanged (R104 to R106, R116). -/
def ArrayComputes : Prop :=
  ∀ (core c : Nat) (e : MeEvent) (rest : List MeEvent) (r : MatRun) (i : Nat) (s : State), ArrayDoes s core c e rest r → e.act = .compute i →
    s.loose core = false → (s.core core).me.parity = none →
    let me := (s.core core).me
    let j := matJob r.words
    let u := j.unitAt i
    let q := 512 / segBytes j.fa
    let rq := 512 / rowBytes j.fb
    let el := cellE j.fb
    let pan := fun (p panel : Nat) => r.panel i p panel
    let tile : Tile := { fa := j.fa, fb := j.fb, k := j.k, bank := j.bank, e0 := j.e0, c0 := 0, m := u.m, n := u.w, acc := j.acc }
    u.w ≤ 64 →
    ∃ me', ArrayBecomes core s (s.pumpMe core) me' (s.core core).slab ∧ me'.events = rest ∧ me'.profiles = me.profiles ∧ me'.win = me.win ∧
      (∀ x, x < u.m → ∀ y, y < u.w → me'.accAt j.bank (j.e0 + x) y = tileValue tile
        (fun p k => elemAt (((pan p 2).drop (512 * (x / q) + x % q * segBytes j.fa)).take (segBytes j.fa)) (fmtBits j.fa) k)
        (fun p k => elemAt (((pan p 0).drop (512 * (k / el / rq) + k / el % rq * rowBytes j.fb)).take (rowBytes j.fb)) (fmtBits j.fb) (y * el + k % el))
        (fun p b => ((pan p 3).getD (x * (kPass j.fa / 32) + b) 0).toNat) (fun p b => ((pan p 1).getD (y * (kPass j.fb / 32) + b) 0).toNat)
        (me.accAt j.bank (j.e0 + x) y)) ∧
      (∀ bk en cl, cl < 64 → (∀ x, x < u.m → ∀ y, y < u.w → (bk, en, cl) ≠ (j.bank, j.e0 + x, y)) → en < 128 → j.e0 + u.m ≤ 128 → me'.accAt bk en cl = me.accAt bk en cl)

/-- A unit's passes meet a cell whose parity bit does not match (04_matrix R127): the context is killed, the column is marked, and nothing more of the
record is drained. -/
def ArrayParityStops : Prop :=
  ∀ (core c col : Nat) (e : MeEvent) (rest : List MeEvent) (r : MatRun) (fl : Flight) (i : Nat) (s : State), ArrayDoes s core c e rest r → e.act = .compute i →
    (s.core core).me.parity = some col → (s.ctx c).fault = none → (s.queue core 1).flight.find? (fun f => f.id == r.rec_) = some fl → core < 1280 →
    ∃ f, ColumnMarked s (s.pumpMe core) core col ∧ ((s.pumpMe core).ctx c).fault = some f ∧ f.cause = .uncorrEcc ∧ f.core = core ∧ f.engine = 1 ∧ f.addr = 0 ∧
      (∀ x ∈ ((s.pumpMe core).core core).me.run, x.rec_ = r.rec_ → x.dead = true)

/-- A drain starts: with the profile in force in this cycle the rectangle goes through the converter, with the bias slab's values where
the profile takes them, and its slabs wait to be written; the accumulators are unchanged (R113, R135, R137). -/
def ArrayDrains : Prop :=
  ∀ (core c : Nat) (e : MeEvent) (rest : List MeEvent) (r : MatRun) (i : Nat) (s : State), ArrayDoes s core c e rest r → e.act = .drain i →
    let me := (s.core core).me
    let k := s.core core
    let d := r.drainJob i
    let p := tblGet ({} : Profile) me.profiles d.prof
    let bias := biasSlabOf me d.prof d.g
    (∀ x ∈ bias, k.slab.bank x = .on ∧ ∀ y, y < 8 → tblFind (8 * x + y) k.slab.bad = none) → s.matFault c core bias [] = none →
    let o := me.drain d.prof d.fo d.bank d.e0 d.c0 d.m d.n (biasOf p (if p.biasMode = 2 then memReadN k.slab.mem (512 * (p.biasSlab + d.g)) 512 else []) false d.c0)
    ArrayBecomes core s (s.pumpMe core) { o.1 with events := rest, run := me.run.map (fun x =>
        if x.rec_ = r.rec_ then { x with outs := x.outs ++ (unitSlabs d.fo d.h o.2).map (fun y => ((i, y.1), y.2)) } else x) } k.slab ∧ o.1.acc = me.acc

/-- An output slab leaves the converter for a bank that is ON: it is in slab memory (R113). -/
def ArrayWrites : Prop :=
  ∀ (core c : Nat) (e : MeEvent) (rest : List MeEvent) (r : MatRun) (i n slab : Nat) (bs : List Byte) (s : State), ArrayDoes s core c e rest r →
    e.act = .write i n slab → r.outs.find? (fun o => o.1 == (i, n)) = some ((i, n), bs) → (s.core core).slab.bank slab = .on →
    let me := (s.core core).me
    ArrayBecomes core s (s.pumpMe core) { me with events := rest, run := me.run.map (fun x =>
      if x.rec_ = r.rec_ then { x with outs := x.outs.filter (fun o => o.1 != (i, n)) } else x) } ((s.core core).slab.write slab 0 bs).1

/-- An output slab for a bank that is DRAINING or OFF is dropped, and kills the context (R113). -/
def ArrayWriteDropped : Prop :=
  ∀ (core c : Nat) (e : MeEvent) (rest : List MeEvent) (r : MatRun) (fl : Flight) (i n slab : Nat) (bs : List Byte) (s : State), ArrayDoes s core c e rest r →
    e.act = .write i n slab → r.outs.find? (fun o => o.1 == (i, n)) = some ((i, n), bs) →
    ((s.core core).slab.bank slab = .off ∨ (s.core core).slab.bank slab = .draining) → (s.ctx c).fault = none → (s.core core).ctx = some c →
    (s.queue core 1).flight.find? (fun f => f.id == r.rec_) = some fl →
    ∃ f, ((s.pumpMe core).ctx c).fault = some f ∧ f.cause = .slabBankOff ∧ f.core = core ∧ f.addr = slabAt core slab ∧
      ((s.pumpMe core).core core).slab = (s.core core).slab

/-- An event whose slab lies in a waking bank holds the array: every later event of every record moves by the cycles it waits, and they
are counted as bubbles (R113, R125; 06_slab R167). -/
def ArrayHolds : Prop :=
  ∀ (core c : Nat) (e : MeEvent) (rest : List MeEvent) (r : MatRun) (slab : Nat) (s : State), ArrayDoes s core c e rest r →
    ((∃ i n, e.act = .write i n slab) ∨ (∃ a p u, e.act = .read a p u slab)) → (s.core core).slab.bank slab = .waking →
    let me := (s.core core).me
    let n := s.cycleOf core - e.at_
    let go := fun (x : Nat) => if e.at_ ≤ x then x + n else x
    ArrayBecomes core s (s.pumpMe core) { me with
        events := (e :: rest).map (fun x => { x with at_ := x.at_ + n }), bubbles := min 0xFFFFFFFF (me.bubbles + n)
        run := me.run.map (fun x => { x with lastIn := go x.lastIn, due := go x.due, loads := x.loads.map (fun l => (go l.1, go l.2.1, go l.2.2))
                                             drains := x.drains.map (fun d => (go d.1, d.2)) }) } (s.core core).slab

/-- CHUTE_STARVE: while the youngest record still takes input, all that it has to do from this cycle on moves by one cycle, and the stall
is counted (R110, R125). -/
def ChuteStarveRuns : Prop :=
  ∀ (core c : Nat) (r : MatRun) (s : State), core < 1280 → s.live core = some c →
    let k := s.core core
    let cyc := s.cycleOf core
    let go := fun (x : Nat) => if cyc ≤ x then x + 1 else x
    k.me.run.getLast? = some r → cyc ≤ r.lastIn →
    ∃ ct es, exec (.chuteStarve core) s = .next (s.setCore core { k with
      dbg := { k.dbg with counters := ct }
      me := { k.me with
        run := k.me.run.map (fun x => if x.rec_ = r.rec_ then
          { x with lastIn := go x.lastIn, due := go x.due, loads := x.loads.map (fun l => (go l.1, go l.2.1, go l.2.2))
                   drains := x.drains.map (fun d => (go d.1, d.2)) } else x)
        events := es, bubbles := min 0xFFFFFFFF (k.me.bubbles + 1) } }) ∧
      ∀ e, e ∈ es ↔ ∃ x ∈ k.me.events, e = if x.rec_ = r.rec_ then { x with at_ := go x.at_ } else x

/-- MATMUL_RETIRE: the oldest record of the array, with nothing left to do and its last cycle reached, retires (R113, R117, R118). -/
def MatmulRetireRuns : Prop :=
  ∀ (core c : Nat) (r : MatRun) (rest : List MatRun) (fl : Flight) (s : State), core < 1280 → s.live core = some c →
    let k := s.core core
    k.me.run = r :: rest → r.due ≤ s.cycleOf core → r.dead = false → (∀ e ∈ k.me.events, e.rec_ ≠ r.rec_) →
    (s.queue core 1).flight.find? (fun f => f.id == r.rec_) = some fl → k.crecFull 1 = false →
    ∃ t, exec (.matmulRetire core) s = .next t ∧ RecBecomes core s t { k with me := { k.me with run := rest } } ∧
      Retired (s.queue core 1) (t.queue core 1) r.rec_

/-- MDRAIN: its drain starts in the cycle of its issue, and it stays in flight. With no other work on the array and its bias slab, if it
has one, readable, the rectangle is through the converter, and its slabs wait for the cycles in which they are written (R113, R118, R137,
R140, R275). -/
def MdrainRuns : Prop :=
  ∀ (core c : Nat) (ws : List W64) (s : State), RecIssues s core 1 0x31 c ws → (s.queue core 1).flight = [] →
    let k := s.core core
    let b := wbits ws 1
    let prof := b 32 29
    let fo := b 36 33
    let m := b 15 8
    let base := b 51 37
    let p := tblGet ({} : Profile) k.me.profiles prof
    let bias := biasSlabOf k.me prof 0
    let id := (s.queue core 1).serial
    let cyc := s.cycleOf core
    let q := slabRows fo
    let r : MatRun := { rec_ := id, words := ws, lastIn := cyc, due := cyc + m + 10 + boolN (fmtMx fo), bank := b 0 0, drains := [(cyc, b 7 1, m)] }
    let writes := ((List.range (cdiv m q)).map (fun i => (⟨cyc + (min (q * (i + 1)) m + 10), id, .write 0 i (base + i)⟩ : MeEvent))) ++
      (if fmtMx fo then [(⟨cyc + (m + 11), id, .write 0 (cdiv m q) (base + cdiv m q)⟩ : MeEvent)] else [])
    s.matFault c core bias ((List.range (unitStride fo m)).map (fun i => base + i)) = none →
    ∃ u, exec (.mdrain core 1) s = .next (u.pumpMe core) ∧ u.queue core 1 = issuedQueue s core 1 c ws ∧
      RecBecomes core s u { k with me := { k.me with run := k.me.run ++ [r], events := joinEvents (⟨cyc, id, .drain 0⟩ :: writes) k.me.events } } ∧
      (k.me.events = [] → (∀ x ∈ k.me.run, x.rec_ ≠ id) → (∀ x ∈ bias, k.slab.bank x = .on ∧ ∀ y, y < 8 → tblFind (8 * x + y) k.slab.bad = none) →
        let d := k.me.drain prof fo (b 0 0) (b 7 1) (b 28 23) m (b 22 16)
          (biasOf p (if p.biasMode = 2 then memReadN k.slab.mem (512 * p.biasSlab) 512 else []) false (b 28 23))
        RecBecomes core s (u.pumpMe core) { k with me := { d.1 with events := writes, run := k.me.run ++
          [{ r with outs := (unitSlabs fo m d.2).map (fun o => ((0, o.1), o.2)) }] } } ∧ d.1.acc = k.me.acc)

/-- CVT_COMMIT: the profiles named take their staged values, a lower clip bound above the upper one raising it, and their draws start
again; the others are unchanged (R136, R137). -/
def CvtCommitRuns : Prop :=
  ∀ (core mask : Nat) (s : State), core < 1280 →
    let me := (s.core core).me
    ∃ me', exec (.cvtCommit core mask) s = .next (s.setCore core { s.core core with me := me' }) ∧
      me' = { me with staged := me'.staged, profiles := me'.profiles, draws := me'.draws } ∧
      ∀ i, i < 16 →
        let p := tblGet ({} : Profile) me.staged i
        (bitOf mask i = true → tblGet ({} : Profile) me'.profiles i = (if f32Less p.clipHi p.clipLo then { p with clipHi := p.clipLo } else p) ∧ tblGet 0 me'.draws i = 0) ∧
        (bitOf mask i = false → tblGet ({} : Profile) me'.profiles i = tblGet ({} : Profile) me.profiles i ∧ tblGet 0 me'.draws i = tblGet 0 me.draws i)

/-! ### Moves (07_moves R177 to R212; 06_slab R154) -/

/-- Requests that divide `left` bytes from `a` to `b`, numbered from `n`: each within one aligned 512 bytes of the source and of the
destination, and as long as that allows (R179). -/
def Divides : Nat → Nat → Nat → Nat → List MvReq → Prop
  | _, _, _, _, [] => True
  | a, b, left, n, q :: qs =>
    let m := min left (min (512 - a % 512) (512 - b % 512))
    0 < left ∧ q = { id := n, src := a, dst := b, len := m } ∧ Divides (a + m) (b + m) (left - m) (n + 1) qs

/-- The increment of a local record is generated where its last write went (R210): at the destination's core, at the edge fabric of the
die whose controller took it, or at the hub for host memory. -/
def SignalFrom : Prop :=
  ∀ (units a : Nat), (∀ n off, addrClass a = .slab n off → signalAt units a = ⟨n, 20⟩) ∧ (addrClass a = .host → signalAt units a = ⟨0, 22⟩) ∧
    (addrClass a = .far → signalAt units a = ⟨320 * ((farPlace units a).1 / 24), 21⟩)

/-- A plain MOVE within the module, both ranges granted: with no bytes it retires, its increment first; otherwise it joins the
engine's records, and its requests issue, in order, until all of its bytes are asked for or 128 requests are in flight (R179 to R183). -/
def MoveRuns : Prop :=
  ∀ (core e c : Nat) (ws : List W64) (s : State), RecIssues s core e 0x40 c ws → wbits ws 1 63 48 = 0xFFFF → wbits ws 2 49 48 = 0 →
    let src := wbits ws 1 47 0
    let dst := wbits ws 2 47 0
    let len := wbits ws 3 24 0
    let id := (s.queue core e).serial
    let recs := ((s.core core).mv e).recs
    recs.length < 16 → (∀ x ∈ recs, x.open_ = false ∧ x.id ≠ id) → (∀ f ∈ (s.queue core e).flight, f.id ≠ id) → (s.ctx c).rangeOk .r src len = true → (s.ctx c).rangeOk .w dst len = true →
    (s.ctx c).suspendReq = none →
    ∃ t, exec (.move core e) s = .next t ∧
      (len = 0 → RecBecomes core s t (s.core core) ∧ Retired (issuedQueue s core e c ws) (t.queue core e) id ∧
        ∃ more, t.net.tally = s.net.tally ++ (match wbits ws 3 25 25 == 1, (s.ctx c).home (wbits ws 3 37 26) with
          | true, some h => [({ ctx := c, vid := wbits ws 3 37 26, home := h, src := signalAt s.far.localUnits dst, act := .add (wbits ws 3 53 38), qid := 4 * core + e
                                slot := (s.queue core e).next } : TallyMsg)]
          | _, _ => []) ++ more) ∧
      (len ≠ 0 → t.queue core e = issuedQueue s core e c ws ∧ ∃ reqs pos gr rw cl st,
        RecBecomes core s t ((s.core core).setMv e { (s.core core).mv e with recs := recs ++
          [({ id := id, src := src, dst := dst, node := 0xFFFF, len := len, group := gr, rows := rw, cols := cl, stride := st
              sigEn := wbits ws 3 25 25 == 1, sigTid := wbits ws 3 37 26, sigInc := wbits ws 3 53 38, last := dst, pos := pos, nextReq := reqs.length
              reqs := reqs, pages := if dst ≥ hostBase then hostPages ((s.ctx c).hostAddr dst) len else [] } : MvRec)] }) ∧
        Divides src dst len 0 reqs ∧ pos = (reqs.map MvReq.len).sum ∧ ((s.core core).mv e).inflight + reqs.length ≤ max ((s.core core).mv e).inflight 128 ∧
        (pos = len ∨ 128 ≤ ((s.core core).mv e).inflight + reqs.length))

/-- The bytes that a request reads, where nothing stands in the way: far memory without a block in error, or a slab in a bank that is
ON without a codeword in error (R184, R164). -/
def SourceReads (s : State) (q : MvReq) (bs : List Byte) : Prop :=
  0 < q.len ∧ ((q.src + q.len ≤ farTop ∧ s.far.bad = [] ∧ bs = memReadN s.far.mem q.src q.len) ∨
    ∃ n off, addrClass q.src = .slab n off ∧ off % 512 + q.len ≤ 512 ∧ (s.core n).slab.bank (off / 512) = .on ∧
      (∀ i, i < 8 → tblFind (8 * (off / 512) + i) (s.core n).slab.bad = none) ∧ bs = memReadN (s.core n).slab.mem off q.len)

/-- A request of an engine that has not read its source, of a plain record within the module, whose number and whose requests' numbers
are its own; no older request of the engine has still to write its destination slab (06_slab R159). -/
def Unread (s : State) (core e c k : Nat) (r : MvRec) (q : MvReq) : Prop :=
  core < 1280 ∧ (e = 2 ∨ e = 3) ∧ (s.core core).ctx = some c ∧ ((s.core core).mv e).kth k = some (r, q) ∧ q.data = none ∧ r.tw = 0 ∧ r.node = 0xFFFF ∧
  ((s.core core).mv e).behind k r q = false ∧ (∀ x ∈ ((s.core core).mv e).recs, x.id = r.id → x = r) ∧ (∀ p ∈ r.reqs, p.id = q.id → p = q)

/-- The request has a slot now: none is needed, or a read slot of the port's table carries it (R293). -/
def Slotted (s : State) (core e c : Nat) (r : MvRec) (q : MvReq) (slot : MvSlot) : Prop :=
  s.slotFor c core e r q = slot ∧ (slot = .free ∨ (∃ i, slot = .planned i) ∨ ∃ i f legs, slot = .paced i f legs)

/-- Such a request reads its source now, and more is left to do of its record than this request; no record of the engine has more to
issue. -/
def Reading (s : State) (core e c k : Nat) (r : MvRec) (q : MvReq) (slot : MvSlot) (bs : List Byte) : Prop :=
  Unread s core e c k r q ∧ Slotted s core e c r q slot ∧ SourceReads s q bs ∧ (∀ x ∈ ((s.core core).mv e).recs, x.open_ = false) ∧ (∃ p ∈ r.reqs, p.id ≠ q.id)

/-- What taking a slot does: a planned read has the slot and its slab's bank for this cycle, and a paced flow's entry is under way until
its credit returns; bytes, records and everything else stay (R155, R193, R197). -/
def TakeSlotRuns : Prop :=
  ∀ (core e : Nat) (q : MvReq) (s : State), let k := s.core core
    let now := k.slab.portIn (s.cycleOf core)
    let after := fun (i : Nat) => ({ now with slots := i :: now.slots, banks := q.src / 512 % 32 :: now.banks } : PortUse)
    s.takeSlot core e q .free = s ∧
    (∀ i, q.src / 512 % 32 ∉ now.banks →
      ∃ ct, s.takeSlot core e q (.planned i) = s.setCore core { k with slab := { k.slab with port := after i }, dbg := { k.dbg with counters := ct } }) ∧
    (∀ i f legs, q.src / 512 % 32 ∉ now.banks →
      ∃ ct, s.takeSlot core e q (.paced i f legs) = s.setCore core (({ k with slab := { k.slab with port := after i }, dbg := { k.dbg with counters := ct } } : Core).setMv e
        { k.mv e with sent := (k.mv e).sent ++ [(f, legs)] }))

/-- A request needs no planned slot where its source is no slab, a kill has begun, or it is a packet that a free write slot takes (R185, R192). -/
def SlotFreeRuns : Prop :=
  ∀ (core e c : Nat) (r : MvRec) (q : MvReq) (s : State),
    ((s.ctx c).killing = true → s.slotFor c core e r q = .free) ∧
    ((s.ctx c).killing = false → r.tw = 0 → q.fallback = false → (∀ n off, addrClass q.src ≠ .slab n off) → s.slotFor c core e r q = .free) ∧
    (∀ home off, (s.ctx c).killing = false → r.tw = 0 → q.fallback = true → r.node = 0xFFFF → addrClass q.dst = .slab home off →
      s.slotFor c core e r q = if s.freeWrite home then .free else .wait)

/-- Read slot A of this cycle belongs to an engine's flow, whose entry in the core's flow table is `v`; no planned read has the slot or
the bank of the source slab (R292, R293). -/
def SlotFits (s : State) (core e c : Nat) (r : MvRec) (q : MvReq) (off v : Nat) : Prop :=
  let w := tblGet 0 (s.core core).portTable (s.cycleOf core % 4096)
  let u := (s.core core).slab.portIn (s.cycleOf core)
  (e = 2 ∨ e = 3) ∧ (s.ctx c).killing = false ∧ r.tw = 0 ∧ q.fallback = false ∧ addrClass q.src = .slab core off ∧ bitsOf w 2 0 = e ∧
  tblGet 0 (s.core core).flows (bitsOf w 7 3) = v ∧ v % 2 = e - 2 ∧ 0 ∉ u.slots ∧ off / 512 % 32 ∉ u.banks

/-- A scheduled flow's slot carries a slab to the core that its flow names on the same die, in a cycle from which the routers' tables take
all eight beats there; in another cycle the request waits (R191, R293). -/
def SlotPlannedRuns : Prop :=
  ∀ (core e c off v home o : Nat) (r : MvRec) (q : MvReq) (s : State), SlotFits s core e c r q off v → r.node = 0xFFFF → addrClass q.dst = .slab home o →
    dieOf home = dieOf core → home ≠ core → bitOf v 1 = false → bitsOf v 12 2 = home →
    s.slotFor c core e r q = if s.lands core home (s.cycleOf core) then .planned 0 else .wait

/-- A paced flow's slot carries a slab to far memory, the host or another module where the flow has a credit left and every bridge
direction on the way has room; otherwise its slot group goes empty (R193, R194, R197, R293). -/
def SlotPacedRuns : Prop :=
  ∀ (core e c off v : Nat) (r : MvRec) (q : MvReq) (s : State), SlotFits s core e c r q off v → q.home r.node = none → bitOf v 1 = true →
    let legs := bridgeLegs (dieOf core) (s.endDie r.node q.dst)
    let used := (((s.core core).mv e).sent.filter (fun x => x.1 == bitsOf (tblGet 0 (s.core core).portTable (s.cycleOf core % 4096)) 7 3)).length
    s.slotFor c core e r q =
      if used < max 1 (bitsOf v 19 14) ∧ ∀ l ∈ legs, s.legLoad l < (if l < 8 then 84 else if l < 24 then 56 else 96)
      then .paced 0 (bitsOf (tblGet 0 (s.core core).portTable (s.cycleOf core % 4096)) 7 3) legs else .empty 0

/-- The bridges between two dies, the hub being 4: one between neighbours, and between opposite dies the bridge of each to the hub and the
hub fabric (01_module R12). -/
def BridgesAre : Prop :=
  ∀ (a b : Nat), a < 4 → b < 4 → bridgeLegs a a = [] ∧ (bridgeLegs a 4).length = 1 ∧
    (a ≠ b → (a + b) % 2 = 1 → (bridgeLegs a b).length = 1) ∧ (a ≠ b → (a + b) % 2 = 0 → bridgeLegs a b = bridgeLegs a 4 ++ [24 + 4 * a + b, 4 + b])

/-- Where a beat on a mesh output is one cycle later: one router further, at the input on the facing side (R190, R291). -/
def BeatHops : Prop :=
  ∀ (b : Beat) (out : Nat), out < 4 → ∀ x, b.hop out = some x →
    x.inp = (if out = 0 then 3 else if out = 1 then 4 else if out = 2 then 1 else 2) ∧
    (out % 2 = 0 → x.col = b.col ∧ (x.row = b.row + 1 ∨ x.row + 1 = b.row)) ∧ (out % 2 = 1 → x.row = b.row ∧ (x.col = b.col + 1 ∨ x.col + 1 = b.col))

/-- The physical row of a logical core is its logical row, or the next one from its column's disabled row on (R14). -/
def PhysRowIs : Prop :=
  ∀ (core : Nat), core < 1280 → let d := Config.dressColumn (16 * dieOf core + core % 16)
    physRow core = (if core % 320 / 16 < d then core % 320 / 16 else core % 320 / 16 + 1) ∧ physRow core ≠ d ∧ physRow core ≤ 20

/-- The engine's records with one request changed, or gone. -/
def reqsOf (recs : List MvRec) (id : Nat) (f : List MvReq → List MvReq) : List MvRec := recs.map (fun x => if x.id = id then { x with reqs := f x.reqs } else x)

/-- The engine's records once a request has completed: the record notes where it wrote (R210). -/
def doneOf (recs : List MvRec) (id req dst : Nat) : List MvRec :=
  recs.map (fun x => if x.id = id then { x with reqs := x.reqs.filter (fun p => p.id != req), last := dst } else x)

/-- Of the module only far memory, slab memory of core `home`, the records of one move engine and event counters change, as `recs` says. -/
def MoveBecomes (core e home : Nat) (s t : State) (recs : List MvRec) : Prop :=
  t = { s with far := { s.far with mem := t.far.mem }, cores := t.cores } ∧ (∀ n, n ≠ core → n ≠ home → t.core n = s.core n) ∧
  ∀ n, ∃ d, t.core n = { (if n = core then (s.core n).setMv e { (s.core n).mv e with recs := recs } else s.core n) with
    dbg := d, slab := if n = home then (t.core n).slab else (s.core n).slab }

/-- MOVE_REQUEST_COMPLETE (R182, R184): with its slot taken, the bytes read reach far memory, or the slab (a slab of the same die, or a
request that goes as a packet), and the request is done; other bytes for a slab, and all bytes for one whose bank wakes, wait in its
landing buffer; bytes for the host are posted, and the request waits for its page's check. -/
def MoveRequestCompleteRuns : Prop :=
  ∀ (core e c k : Nat) (r : MvRec) (q : MvReq) (slot : MvSlot) (bs : List Byte) (s : State), Reading s core e c k r q slot bs →
    let recs := ((s.core core).mv e).recs
    let u := s.takeSlot core e q slot
    let gone := doneOf recs r.id q.id q.dst
    let held := reqsOf recs r.id (fun qs => qs.map (fun p => if p.id = q.id then { p with data := some [] } else p))
    (q.dst + q.len ≤ farTop → s.far.bad = [] → s.links.twin.mset = none → Memory.wf s.far.mem = true →
      ∃ t, exec (.moveRequestComplete core e k) s = .next t ∧ MoveBecomes core e 1280 u t gone ∧ memReadN t.far.mem q.dst q.len = bs ∧
        (∀ a, a < q.dst ∨ q.dst + q.len ≤ a → memRead t.far.mem a = memRead s.far.mem a)) ∧
    (∀ home off, addrClass q.dst = .slab home off → (s.core home).slab.bank (off / 512) = .on → (s.core home).slab.bad = [] → Memory.wf (s.core home).slab.mem = true →
      q.fallback = true ∨ sameDie q.src home = true →
      ∃ t, exec (.moveRequestComplete core e k) s = .next t ∧ MoveBecomes core e home u t gone ∧ t.far = s.far ∧ memReadN (t.core home).slab.mem off q.len = bs ∧
        (∀ a, a < off ∨ off + q.len ≤ a → memRead (t.core home).slab.mem a = memRead (s.core home).slab.mem a) ∧
        (t.core home).slab = { (u.core home).slab with mem := (t.core home).slab.mem, rewrites := (t.core home).slab.rewrites }) ∧
    (∀ home off, addrClass q.dst = .slab home off → q.fallback = false →
      ((s.core home).slab.bank (off / 512) = .on ∧ sameDie q.src home = false) ∨ (s.core home).slab.bank (off / 512) = .waking →
      (s.core home).slab.landing.length < 16 →
      ∃ t, exec (.moveRequestComplete core e k) s = .next t ∧ MoveBecomes core e home u t held ∧ t.far = s.far ∧
        (t.core home).slab = { (u.core home).slab with landing := (s.core home).slab.landing ++
          [({ slab := off / 512, off := off % 512, parts := [(0, bs)], ctx := c, origin := .move core e r.id q.id } : Landing)] }) ∧
    (addrClass q.dst = .host → Memory.wf s.host = true →
      ∃ t, exec (.moveRequestComplete core e k) s = .next t ∧ MoveBecomes core e 1280 { u with host := t.host, dbg := t.dbg } t held ∧ t.far = s.far ∧
        memReadN t.host ((s.ctx c).hostAddr q.dst) q.len = bs ∧
        ∀ a, a < (s.ctx c).hostAddr q.dst ∨ (s.ctx c).hostAddr q.dst + q.len ≤ a → memRead t.host a = memRead s.host a)

/-- What falling back does: the request goes as a packet, FALLBACK counts it, and the port that takes it has its tailings entry (R192). -/
def FallsBack (s t : State) (core e : Nat) (r : MvRec) (q : MvReq) : Prop :=
  let m := (s.core core).mv e
  let sent := reqsOf m.recs r.id (fun qs => qs.map (fun p => if p.id = q.id then { p with fallback := true } else p))
  ∃ d, t = { s with cores := t.cores, rings := t.rings } ∧ (∀ n, n ≠ core → t.core n = s.core n) ∧
    t.core core = { (s.core core).setMv e { m with fallback := min 0xFFFFFFFF (m.fallback + 1), recs := sent } with dbg := d }

/-- MOVE_REQUEST_COMPLETE where the request may not read in this cycle: without its slot it waits; without a flow of the plan it falls
back; a planned read that another one's bank holds is counted and falls back; a paced flow without a credit leaves its slot group empty
(R155, R192, R193, R293). -/
def MoveSlotRuns : Prop :=
  ∀ (core e c k : Nat) (r : MvRec) (q : MvReq) (s : State), Unread s core e c k r q →
    let b := (s.core core).slab
    (s.slotFor c core e r q = .wait → exec (.moveRequestComplete core e k) s = .next s) ∧
    (s.slotFor c core e r q = .noFlow → ∃ t, exec (.moveRequestComplete core e k) s = .next t ∧ FallsBack s t core e r q) ∧
    (s.slotFor c core e r q = .held → q.src / 512 % 32 ∈ (b.portIn (s.cycleOf core)).banks → ∃ t u d, exec (.moveRequestComplete core e k) s = .next t ∧
      u = s.setCore core { s.core core with slab := { b with conflict := min 0xFFFFFFFF (b.conflict + 1) }, dbg := d } ∧ FallsBack u t core e r q) ∧
    (∀ i, s.slotFor c core e r q = .empty i → ∃ d, exec (.moveRequestComplete core e k) s = .next (s.setCore core { (({ s.core core with
        slab := { b with port := { b.portIn (s.cycleOf core) with slots := i :: (b.portIn (s.cycleOf core)).slots } } } : Core).setMv e
          { (s.core core).mv e with creditWait := true, empty := min 0xFFFFFFFF (((s.core core).mv e).empty + 1) }) with dbg := d }))

/-- FALLBACK_SLAB: the request goes as a packet, FALLBACK counts it, and its tailings entry is written (R192). -/
def FallbackSlabRuns : Prop :=
  ∀ (core e k c home off : Nat) (r : MvRec) (q : MvReq) (s : State), core < 1280 → e = 2 ∨ e = 3 → (s.core core).ctx = some c →
    ((s.core core).mv e).kth k = some (r, q) → addrClass q.dst = .slab home off → q.data = none → q.fallback = false → r.node = 0xFFFF → r.tw = 0 →
    ∃ t, exec (.fallbackSlab core e k) s = .next t ∧ FallsBack s t core e r q

/-- CREDIT_RETURN: the engine's oldest entry of a paced flow has its credit back (R197). -/
def CreditReturnRuns : Prop :=
  ∀ (core e : Nat) (s : State), core < 1280 → e = 2 ∨ e = 3 →
    let m := (s.core core).mv e
    exec (.creditReturn core e) s = .next (s.setCore core ((s.core core).setMv e { m with sent := m.sent.drop 1, creditWait := false }))

/-- LANDING_WRITE: in a landing slot of the port's table the oldest slab whose bank does not wake is written, and its request, of a record that has more to do, is done;
elsewhere nothing is (R154, R292). -/
def LandingWriteRuns : Prop :=
  ∀ (n core e c : Nat) (l : Landing) (pre post : List Landing) (id : Nat) (r : MvRec) (req : Nat) (bs : List Byte) (s : State), n < 1280 →
    let owner := bitsOf (tblGet 0 (s.core n).portTable (s.cycleOf n % 4096)) 18 16
    exec (.landingWrite n false) s = .next s ∧ (owner ≠ 4 → exec (.landingWrite n true) s = .next s) ∧
    (owner = 4 → (s.core n).slab.landing = pre ++ l :: post → (∀ x ∈ pre, (s.core n).slab.bank x.slab = .waking) → (s.core n).slab.bank l.slab = .on → l ∉ pre →
      l.parts = [(0, bs)] → l.origin = .move core e id req → (s.core n).slab.bad = [] → Memory.wf (s.core n).slab.mem = true →
      e = 2 ∨ e = 3 → (s.core core).ctx = some c → r ∈ ((s.core core).mv e).recs → r.id = id → (∃ p ∈ r.reqs, p.id ≠ req) →
      (∀ x ∈ ((s.core core).mv e).recs, x.open_ = false ∧ (x.id = id → x = r)) →
      ∀ p, r.reqs.find? (fun q => q.id == req) = some p →
      let a := 512 * l.slab + l.off
      ∃ t, exec (.landingWrite n true) s = .next t ∧
        MoveBecomes core e n s t (doneOf ((s.core core).mv e).recs id req p.dst) ∧ t.far = s.far ∧
        memReadN (t.core n).slab.mem a bs.length = bs ∧ (∀ b, b < a ∨ a + bs.length ≤ b → memRead (t.core n).slab.mem b = memRead (s.core n).slab.mem b) ∧
        (t.core n).slab = { (s.core n).slab with mem := (t.core n).slab.mem, rewrites := (t.core n).slab.rewrites, landing := pre ++ post })

/-- HOST_PAGE_CHECK of a store of the gang whose lines have all left: clean and the last page of its store, the gang has one store less
outstanding; its bytes were posted when it issued (08_far R239). HOST_PAGE_CHECK of a page of a record that writes the host, clean: the
page's writes are done. COMPLETION_TIMEOUT of such a page: no further request, and the context is to be suspended (R203, R205;
14_host R379). -/
def HostPageRuns : Prop :=
  ∀ (core c : Nat) (s : State), core < 1280 →
    (∀ (h : HostStore) (page : Nat), (s.core core).fc.hostStores.find? (fun x => x.id == h.id) = some h → h.pages = [page] →
      (s.gang core h.slot).live = true → (s.gang core h.slot).uid = h.uid → (s.gang core h.slot).wait = .none → (∀ p ∈ (s.gang core h.slot).todo, p.load ≠ h.load) →
      ∃ t, exec (.hostPageCheck core 0 h.id page true []) s = .next t ∧ t = { s with cores := t.cores } ∧ (∀ n, n ≠ core → t.core n = s.core n) ∧
        t.core core = { (s.core core).setGang h.slot { s.gang core h.slot with stores := (s.gang core h.slot).stores - 1 } with
          fc := { (s.core core).fc with hostStores := (s.core core).fc.hostStores.filter (fun x => x.id != h.id) } }) ∧
    (∀ (e page : Nat) (r : MvRec), e = 2 ∨ e = 3 → (s.core core).ctx = some c → ((s.core core).mv e).recs.find? (fun x => x.id == r.id) = some r → r.node = 0xFFFF → hostBase ≤ r.dst →
      page ∈ r.pages → (∀ q ∈ r.reqs, (s.ctx c).pageOf q = page → q.data.isSome = true) → r.pos = r.total →
      (r.pages.erase page ≠ [] → (∀ x ∈ ((s.core core).mv e).recs, x.open_ = false ∧ (x.id = r.id → x = r)) →
        ∃ t, exec (.hostPageCheck core e r.id page true []) s = .next t ∧ MoveBecomes core e 1280 s t (((s.core core).mv e).recs.map (fun x =>
          if x.id = r.id then { x with pages := x.pages.erase page, reqs := x.reqs.filter (fun q => (s.ctx c).pageOf q != page), last := x.dst } else x))) ∧
      ((s.ctx c).suspendReq = none →
      let recs := ((s.core core).mv e).recs.map (fun x => if x.id = r.id then { x with rejected := true, pages := x.pages.erase page } else x)
      ∃ d, exec (.completionTimeout core e r.id page) s = .next { s.setCore core ((s.core core).setMv e { (s.core core).mv e with recs := recs }) with
        ctxs := tblSet c { s.ctx c with suspendReq := some (4096 * page) } s.ctxs, dbg := d }))

/-! ### Requests of the Foreman (13_contexts R345 to R351, R357 to R361, R368; 14_host R389 to R392) -/

/-- The oldest request in a channel is `m`, of this code, its core runs and the requester's reply queue has room (R390, R392). -/
def Asked (s : State) (ch code : Nat) (m : MailMsg) (rest : List MailMsg) : Prop :=
  (s.pci.chan ch).inbound = m :: rest ∧ ch ∈ s.pci.running ∧ (tblGet [] (s.pci.chan ch).replies m.sender).length < 16 ∧ (m.words.getD 0 0).toNat % 256 = code

/-- The module once a channel's oldest request has been taken. -/
def taken (s : State) (ch : Nat) (rest : List MailMsg) : State :=
  { s with pci := { s.pci with chans := tblSet ch { s.pci.chan ch with inbound := rest } s.pci.chans } }

/-- Where the reply to a request goes. -/
def refOf (ch : Nat) (m : MailMsg) : ReqRef := { channel := ch, sender := m.sender, header := (m.words.getD 0 0).toNat }

/-- A context changed, and its query entry with it (R375). -/
def ctxWith (s : State) (c : Nat) (x : Ctx) : State := { s with ctxs := tblSet c { x with seq := (x.seq + 2) % 2 ^ 32 } s.ctxs }

/-- A reply: the request's code and tag, the count of words, the status and the words, stamped by the core that sends it, at the end of
the requester's queue; a reply to the HOST raises vector 1,024 + k, and a masked vector only sets its pending bit (R385, R390 to R392). -/
def ReplyRuns : Prop :=
  ∀ (s : State) (r : ReqRef) (status : Nat) (args : List Nat), r.sender ≤ 5 → args.length ≤ 15 → status < 16 →
    let c := s.pci.chan r.channel
    let n := tblGet 0 c.seqs (2 + r.channel)
    let t := s.reply r status args
    ∃ m : MailMsg, m.words.length = 16 ∧ m.sender = 2 + r.channel ∧ m.seq = n ∧
      (m.words.getD 0 0).toNat % 256 = r.header % 256 ∧ (m.words.getD 0 0).toNat / 2 ^ 8 % 16 = args.length ∧ (m.words.getD 0 0).toNat / 2 ^ 12 % 16 = status ∧
      (m.words.getD 0 0).toNat / 2 ^ 16 = r.header / 2 ^ 16 % 2 ^ 16 ∧ (∀ i, i < args.length → m.words.getD (i + 1) 0 = BitVec.ofNat 32 (args.getD i 0)) ∧
      (∀ i, args.length < i → i < 16 → m.words.getD i 0 = 0) ∧
      t.pci.chans = tblSet r.channel { c with seqs := tblSet (2 + r.channel) ((n + 1) % 65536) c.seqs
                                              replies := tblSet r.sender (tblGet [] c.replies r.sender ++ [m]) c.replies } s.pci.chans ∧
      (r.sender ≠ 0 → t = { s with pci := { s.pci with chans := t.pci.chans } }) ∧
      (r.sender = 0 → bitOf (s.pci.msixWord (1024 + r.channel) 3) 0 = true → 1024 + r.channel ∉ s.pci.pba →
        t = { s with pci := { s.pci with chans := t.pci.chans, pba := s.pci.pba ++ [1024 + r.channel] } }) ∧
      (r.sender = 0 → bitOf (s.pci.msixWord (1024 + r.channel) 3) 0 = false →
        t = { s with pci := { s.pci with chans := t.pci.chans }, dbg := t.dbg
                     host := memWriteN s.host (s.pci.msixWord (1024 + r.channel) 0 + 2 ^ 32 * s.pci.msixWord (1024 + r.channel) 1) (leBytes 4 (s.pci.msixWord (1024 + r.channel) 2)) })

/-- Far memory answers and takes writes without an error, and no mirror is kept. -/
def FarClean (s : State) : Prop := s.far.bad = [] ∧ s.links.twin.mset = none ∧ Memory.wf s.far.mem = true

/-- Context 0's windows let the Foreman read and write every field of an object's descriptor (R345, R357). -/
def DescOpen (s : State) (id : Nat) : Prop :=
  ∀ right o n, (right = .r ∨ right = .w) → 0 < n → o + n ≤ 32 → (s.ctx 0).granted right (s.fman.objTable + 32 * id + o) n = true

/-- Where context 0's windows do not let the Foreman, a field of a descriptor is not written, and reads as none (R345). -/
def DescShut : Prop :=
  ∀ (s : State) (id o n v : Nat),
    ((s.ctx 0).granted .w (s.fman.objTable + 32 * id + o) n = false → s.objWrite id o n v = s) ∧
    ((s.ctx 0).granted .r (s.fman.objTable + 32 * id + o) n = false → s.objField id o n = (s, none))

/-- SET_TABLES while every other context is FREE and no window of context 0 names an object: the new tables stand, and every object of the
earlier table is released, its KIND 0 in the earlier table's descriptor (R351, R359). -/
def SetTablesRuns : Prop :=
  ∀ (s : State) (m : MailMsg) (rest : List MailMsg), Asked s 1 0x01 m rest → s.pci.ready = true → m.arg2 1 % 512 = 0 → m.arg2 3 % 32 = 0 →
    1 ≤ m.arg 5 → m.arg 5 ≤ 65536 → m.arg2 1 + 512 * 1024 ≤ farTop → m.arg2 3 + 32 * m.arg 5 ≤ farTop →
    (∀ p ∈ s.ctxs, (p.1 ≠ 0 → p.2.state = .free) ∧ (p.1 = 0 → ∀ w ∈ p.2.windows, w.2.valid = false ∨ w.2.obj = 0)) →
    (s.fman.objects = [] ∨ FarClean s) →
    let fman := { s.fman with tables := true, ctxTable := m.arg2 1, objTable := m.arg2 3, entries := m.arg 5, objects := [] }
    ∃ f : Mem, exec .setTables s = .next (({ taken s 1 rest with far := { s.far with mem := f }, fman := fman } : State).reply (refOf 1 m) 0 []) ∧
      (s.fman.objects = [] → f = s.far.mem) ∧
      (∀ o ∈ s.fman.objects, (s.ctx 0).granted .w (s.fman.objTable + 32 * o.id + 0x1A) 1 = true → memRead f (s.fman.objTable + 32 * o.id + 0x1A) = 0) ∧
      (∀ a, (∀ o ∈ s.fman.objects, a ≠ s.fman.objTable + 32 * o.id + 0x1A) → memRead f a = memRead s.far.mem a)

/-- The Foreman serves: far memory is in service, the tables stand, and context 0 has started (R351; 14_host R388). -/
def Serves (s : State) : Prop := s.pci.ready = true ∧ s.fman.tables = true ∧ (s.ctx 0).state = .ready

/-- READY, PLACED or SUSPENDED. -/
def Lives (x : Ctx) : Prop := x.state = .ready ∨ x.state = .placed ∨ x.state = .suspended

/-- CTX_START of a FREE context whose descriptor, areas and windows are in order, and whose windows name no object: it is READY with
what its descriptor says, last of the READY contexts (R346 to R349, R352). -/
def CtxStartRuns : Prop :=
  ∀ (s : State) (m : MailMsg) (rest : List MailMsg), Asked s 1 0x10 m rest → Serves s → m.arg 1 < 1024 → m.arg 1 ≠ 0 → s.far.bad = [] →
    let c := m.arg 1
    let a := s.fman.ctxTable + 512 * c
    let ds := memReadN s.far.mem a 512
    let hd := memReadN s.far.mem (leAt ds 0x10 8) 128
    let bw := leAt hd 0x28 8
    let bench := if benchOk bw then benchOf bw else []
    let wins := (List.range 16).map (fun i => (i, windowOf ((ds.drop (0x80 + 16 * i)).take 16)))
    (s.ctx c).state = .free → (s.ctx 0).farOk .r a 512 = true → a + 512 ≤ farTop → leAt ds 0x10 8 + 128 ≤ farTop →
    (∀ x : Ctx, x.save = leAt ds 0x18 8 → x.gsave = leAt ds 0x20 8 → x.pm = leAt ds 0x28 8 → s.descBad c ds x hd bench.length = false) →
    (∀ w ∈ wins, s.windowBad bench w.2 = false ∧ (w.2.valid = false ∨ w.2.obj = 0)) →
    ∃ x, exec .ctxStart s = .next ((ctxWith { taken s 1 rest with fman := { s.fman with nextOrder := s.fman.nextOrder + 1 } } c x).reply (refOf 1 m) 0 []) ∧
      x = { state := .ready, seq := (s.ctx c).seq, dbDrop := (s.ctx c).dbDrop, bench := bench, qdt := leAt hd 0x48 8, dieMask := bw % 16, order := s.fman.nextOrder
            preserve := bitOf (leAt ds 2 2) 0, localSet := bitOf (leAt ds 2 2) 1
            local_ := if bitOf (leAt ds 2 2) 1 then bitOf (leAt ds 2 2) 2 else s.far.defaultLocal
            priority := leAt ds 4 1 % 8, heapI := if bitOf (leAt ds 5 1) 7 then some (leAt ds 5 1 % 16) else none
            heapL := if bitOf (leAt ds 6 1) 7 then some (leAt ds 6 1 % 16) else none, timeslice := leAt ds 8 4, hostHi := leAt ds 0x0C 4 % 2 ^ 17
            plan := leAt ds 0x10 8, save := leAt ds 0x18 8, gsave := leAt ds 0x20 8, pm := leAt ds 0x28 8, windows := wins }

/-- CTX_HOLD of a live context sets or clears its hold; CTX_ACK clears the named event bits; CTX_DESTROY returns a DEAD context to FREE,
its SEQ and its dropped doorbells counting on; each in a state where it may not act answers E_STATE (R351). -/
def CtxHoldAckDestroyRuns : Prop :=
  ∀ (s : State) (m : MailMsg) (rest : List MailMsg), m.arg 1 < 1024 →
    let c := m.arg 1
    let x := s.ctx c
    (Asked s 1 0x11 m rest → Serves s → Lives x → m.arg 2 ≤ 1 →
      exec .ctxHold s = .next ((ctxWith (taken s 1 rest) c { x with hold := m.arg 2 == 1 }).reply (refOf 1 m) 0 [])) ∧
    (Asked s 1 0x11 m rest → Serves s → ¬ Lives x → m.arg 2 ≤ 1 → exec .ctxHold s = .next ((taken s 1 rest).reply (refOf 1 m) 2 [])) ∧
    (Asked s 1 0x16 m rest → s.fman.tables = true → (s.ctx 0).state = .ready →
      exec .ctxAck s = .next ((ctxWith (taken s 1 rest) c { x with events := x.events - (x.events &&& m.arg 2) }).reply (refOf 1 m) 0 [])) ∧
    (Asked s 1 0x14 m rest → Serves s → x.state = .dead →
      exec .ctxDestroy s = .next ((ctxWith (taken s 1 rest) c { seq := x.seq, dbDrop := x.dbDrop }).reply (refOf 1 m) 0 [])) ∧
    (Asked s 1 0x14 m rest → Serves s → x.state ≠ .dead → exec .ctxDestroy s = .next ((taken s 1 rest).reply (refOf 1 m) 2 []))

/-- CTX_KILL begins the kill of a context that lives, with cause KILL_REQUEST: it is KILLING, its queues no longer halt or step, and its
open claims are dead; the other contexts are as before (R351, R367, R368). -/
def CtxKillRuns : Prop :=
  ∀ (s : State) (m : MailMsg) (rest : List MailMsg), Asked s 1 0x13 m rest → Serves s → m.arg 1 < 1024 → m.arg 1 ≠ 0 →
    let c := m.arg 1
    let x := s.ctx c
    Lives x → x.fault = none → x.killing = false → x.pendWins = [] →
    ∃ t : State, exec .ctxKill s = .next (t.reply (refOf 1 m) 0 []) ∧
      t.ctx c = { x with state := .killing, killing := true, yielding := false, cause := Cause.killRequest.code, placedNs := x.placedTotal s.now
                         fault := some { cause := .killRequest, time := s.now }, seq := (x.seq + 2) % 2 ^ 32 } ∧
      (∀ d, d ≠ c → t.ctx d = s.ctx d) ∧ t.links.dst = s.links.dst.map (fun d => if d.ctx = c then { d with dead := true } else d) ∧
      (∀ n ∈ s.held c, ∀ e, e < 4 → t.queue n e = { s.queue n e with halt := false, halted := false, brkEn := false, stepArm := false }) ∧
      t = { taken s 1 rest with cores := t.cores, ctxs := t.ctxs, links := { s.links with dst := t.links.dst }, rings := t.rings }

/-- SET_WINDOW: a READY context's window comes into force at once; that of a placed or suspended one waits for its quiescence (R348, R350). -/
def SetWindowRuns : Prop :=
  ∀ (s : State) (m : MailMsg) (rest : List MailMsg), Asked s 1 0x15 m rest → Serves s → m.arg 1 < 1024 → m.arg 2 < 16 →
    let c := m.arg 1
    let x := s.ctx c
    let w := windowOf ([3, 4, 5, 6].flatMap (fun i => leBytes 4 (m.arg i)))
    s.windowBad x.bench w = false →
    (x.state = .placed ∨ x.state = .suspended →
      exec .setWindow s = .next { taken s 1 rest with ctxs := tblSet c { x with pendWins := x.pendWins ++ [({ idx := m.arg 2, win := w, req := refOf 1 m } : PendWin)] } s.ctxs }) ∧
    (x.state = .ready → w.named = false → (tblGet ({} : Window) x.windows (m.arg 2)).named = false → bitOf x.events 5 = false →
      let y : Ctx := { x with windows := tblSet (m.arg 2) w x.windows, events := x.events + 32, seq := (x.seq + 4) % 2 ^ 32 }
      exec .setWindow s = .next ((({ taken s 1 rest with ctxs := tblSet c y s.ctxs } : State).vector c).reply (refOf 1 m) 0 []))

/-- A window that R349 refuses is answered E_WINDOW, and changes nothing. -/
def SetWindowRefused : Prop :=
  ∀ (s : State) (m : MailMsg) (rest : List MailMsg), Asked s 1 0x15 m rest → Serves s → m.arg 1 < 1024 → m.arg 2 < 16 → Lives (s.ctx (m.arg 1)) →
    s.windowBad (s.ctx (m.arg 1)).bench (windowOf ([3, 4, 5, 6].flatMap (fun i => leBytes 4 (m.arg i)))) = true →
    exec .setWindow s = .next ((taken s 1 rest).reply (refOf 1 m) 4 [])

/-! ### Objects and reference batches (13_contexts R357 to R361); event records (14_host R386) -/

/-- Two address ranges, each a first byte and a length, have no byte in common. -/
def Apart (a n b k : Nat) : Prop := a + n ≤ b ∨ b + k ≤ a

/-- The number of `n` bytes at an address of far memory. -/
def farNum (s : State) (a n : Nat) : Nat := ofLe (memReadN s.far.mem a n)

/-- OBJ_CREATE with room in its pool: a place in the pool's region that no object has, at a multiple of 64 KiB; which one is the
Foreman's. The descriptor says BASE, SIZE, no references, owner and kind; no other byte of far memory changes (R357, R358). -/
def ObjCreateRuns : Prop :=
  ∀ (s : State) (m : MailMsg) (rest : List MailMsg) (b : Nat), Asked s 1 0x20 m rest → Serves s → FarClean s →
    let id := m.arg 1
    let size := m.arg2 3
    let r := s.poolRange (m.arg 5) (m.arg 6)
    let objs := s.fman.objects
    let d := s.fman.objTable + 32 * id
    id ≠ 0 → id < s.fman.entries → m.arg 2 = 1 ∨ m.arg 2 = 2 → size ≠ 0 → size % 65536 = 0 → (m.arg 2 = 2 → size = 65536) → m.arg 5 ≤ 5 → m.arg 6 < 1024 →
    DescOpen s id → (∀ o ∈ objs, o.id ≠ id ∧ o.base % 65536 = 0 ∧ o.size % 65536 = 0) → objs.Pairwise (fun o p => o.base + o.size ≤ p.base) → r.1 % 65536 = 0 →
    r.1 ≤ b → b + size ≤ r.2 → r.2 < 2 ^ 64 → (∀ o ∈ objs, Apart b size o.base o.size) →
    ∃ base t, r.1 ≤ base ∧ base + size ≤ r.2 ∧ base % 65536 = 0 ∧ (∀ o ∈ objs, Apart base size o.base o.size) ∧
      exec .objCreate s = .next (State.reply t (refOf 1 m) 0 [base % 2 ^ 32, base / 2 ^ 32]) ∧
      t = { ctxWith (taken s 1 rest) 0 (s.ctx 0) with far := { s.far with mem := t.far.mem }, fman := { s.fman with objects := t.fman.objects }, draws := s.draws + 1 } ∧
      (∀ o, o ∈ t.fman.objects ↔ o ∈ objs ∨ o = ({ id := id, base := base, size := size } : ObjRange)) ∧
      farNum t d 8 = base ∧ farNum t (d + 8) 8 = size ∧ farNum t (d + 0x14) 4 = 0 ∧ farNum t (d + 0x18) 2 = m.arg 6 ∧ farNum t (d + 0x1A) 1 = m.arg 2 ∧ farNum t (d + 0x1B) 1 = 0 ∧
      (∀ a, a < d ∨ d + 32 ≤ a ∨ (d + 0x10 ≤ a ∧ a < d + 0x14) → memRead t.far.mem a = memRead s.far.mem a)

/-- OBJ_CREATE where no place of the pool's region is free answers E_NOMEM, and of an id in use E_OBJECT. -/
def ObjCreateRefused : Prop :=
  ∀ (s : State) (m : MailMsg) (rest : List MailMsg), Asked s 1 0x20 m rest → Serves s → m.arg 1 ≠ 0 → m.arg 1 < s.fman.entries → m.arg 2 = 1 →
    m.arg2 3 ≠ 0 → m.arg2 3 % 65536 = 0 → m.arg 5 ≤ 5 → m.arg 6 < 1024 →
    ((∃ o ∈ s.fman.objects, o.id = m.arg 1) → exec .objCreate s = .next ((taken s 1 rest).reply (refOf 1 m) 5 [])) ∧
    ((∀ o ∈ s.fman.objects, o.id ≠ m.arg 1) → (s.poolRange (m.arg 5) (m.arg 6)).2 < (s.poolRange (m.arg 5) (m.arg 6)).1 + m.arg2 3 →
      exec .objCreate s = .next (({ taken s 1 rest with draws := s.draws + 1 } : State).reply (refOf 1 m) 6 []))

/-- The reference count of an object, in far memory. -/
def devCount (s : State) (id : Nat) : Nat := farNum s (s.fman.objTable + 32 * id + 0x14) 4

/-- OBJ_HOST_ZERO sets the descriptor's host flag; an object without device references is released: its kind becomes 0, its memory is
free, context 0's entry is updated and event record 0 says which (R359). -/
def ObjHostZeroRuns : Prop :=
  ∀ (s : State) (m : MailMsg) (rest : List MailMsg), Asked s 1 0x21 m rest → Serves s → FarClean s →
    let id := m.arg 1
    let d := s.fman.objTable + 32 * id
    id ≠ 0 → id < s.fman.entries → (∃ o ∈ s.fman.objects, o.id = id) → d + 32 ≤ farTop → DescOpen s id →
    (devCount s id ≠ 0 → ∃ t, exec .objHostZero s = .next (State.reply t (refOf 1 m) 0 []) ∧ t = { taken s 1 rest with far := { s.far with mem := t.far.mem } } ∧
      farNum t (d + 0x1B) 1 = 1 ∧ ∀ a, a ≠ d + 0x1B → memRead t.far.mem a = memRead s.far.mem a) ∧
    (devCount s id = 0 → ∃ t, exec .objHostZero s = .next (State.reply (State.event t 0 id) (refOf 1 m) 0 []) ∧
      t = { ctxWith (taken s 1 rest) 0 (s.ctx 0) with far := { s.far with mem := t.far.mem }, fman := { s.fman with objects := s.fman.objects.filter (fun o => o.id != id) } } ∧
      farNum t (d + 0x1A) 1 = 0 ∧ farNum t (d + 0x1B) 1 = 1 ∧ ∀ a, a ≠ d + 0x1A → a ≠ d + 0x1B → memRead t.far.mem a = memRead s.far.mem a)

/-- An event record: 16 bytes at the queue's tail with the kind, the phase of its pass, a count and the data, and then its vector; a queue
that is full or disabled counts the record and drops it (R386). -/
def EventRuns : Prop :=
  ∀ (s : State) (kind data : Nat), kind < 2 ^ 31 → data < 2 ^ 64 →
    let q := s.pci.evq
    let n := 2 ^ q.inForce.log2
    (q.inForce.enable = true → (q.tail + 1) % n ≠ q.head → Memory.wf s.host = true → bitOf (s.pci.msixWord (1032 + kind) 3) 0 = true →
      let a := q.inForce.base + 16 * q.tail
      let t := s.event kind data
      t.pci.evq = { q with tail := (q.tail + 1) % n, written := q.written + 1 } ∧
      ofLe (memReadN t.host a 4) % 2 ^ 31 = kind ∧ ofLe (memReadN t.host a 4) / 2 ^ 31 = (if q.written / n % 2 = 0 then 1 else 0) ∧
      ofLe (memReadN t.host (a + 4) 4) = q.written % 2 ^ 32 ∧ ofLe (memReadN t.host (a + 8) 8) = data ∧
      (∀ b, b < a ∨ a + 16 ≤ b → memRead t.host b = memRead s.host b) ∧ 1032 + kind ∈ t.pci.pba ∧
      t = { s with host := t.host, dbg := t.dbg, pci := { s.pci with evq := t.pci.evq, pba := t.pci.pba } }) ∧
    (q.inForce.enable = false ∨ (q.tail + 1) % n = q.head →
      s.event kind data = State.vector { s with pci := { s.pci with evq := { q with drop := min 0xFFFFFFFF (q.drop + 1) } } } (1032 + kind))

/-- REF_BATCH: the batch is outstanding until the queue's HEAD has passed its end slot, and each object it names has one reference more for
each time it names it; no other byte of far memory changes (R361). -/
def RefBatchRuns : Prop :=
  ∀ (s : State) (m : MailMsg) (rest : List MailMsg), Asked s 1 0x22 m rest → Serves s → FarClean s →
    let c := m.arg 1
    let x := s.ctx c
    let qid := m.arg 2
    let ids := words4 (memReadN s.far.mem (m.arg2 4) (4 * m.arg 6))
    let q := s.queue (qid / 4) (qid % 4)
    c < 1024 → qid / 4 ∈ x.bench → 1 ≤ m.arg 6 → m.arg 6 ≤ 4096 → (s.ctx 0).farOk .r (m.arg2 4) (4 * m.arg 6) = true → x.state = .placed ∨ x.state = .suspended →
    x.batches.length < 1024 → (∀ i ∈ ids, i ≠ 0 ∧ (∃ o ∈ s.fman.objects, o.id = i) ∧ s.fman.objTable + 32 * i + 32 ≤ farTop ∧ DescOpen s i) →
    let y : Ctx := { x with batches := x.batches ++ [({ qid := qid, until_ := tblGet 0 x.passed qid + (m.arg 3 % q.size + q.size - q.head) % q.size + 1, ids := ids } : Batch)] }
    ∃ t, exec .refBatch s = .next (State.reply t (refOf 1 m) 0 []) ∧ t = { taken s 1 rest with far := { s.far with mem := t.far.mem }, ctxs := tblSet c y s.ctxs } ∧
      (∀ i, devCount t i = (devCount s i + ids.count i) % 2 ^ 32) ∧
      (∀ a, (∀ i ∈ ids, a < s.fman.objTable + 32 * i + 0x14 ∨ s.fman.objTable + 32 * i + 0x18 ≤ a) → memRead t.far.mem a = memRead s.far.mem a)

/-- REF_BATCH_RETIRE: before HEAD has passed the end slot nothing happens; then the batch goes, and its object has one reference less; an
object whose host count is 0 as well is released with its last reference (R359, R361). -/
def RefBatchRetireRuns : Prop :=
  ∀ (c k i : Nat) (b : Batch) (s : State), (s.ctx c).batches[k]? = some b →
    (tblGet 0 (s.ctx c).passed b.qid < b.until_ → exec (.refBatchRetire c k) s = .next s) ∧
    (b.until_ ≤ tblGet 0 (s.ctx c).passed b.qid → b.ids = [i] → FarClean s → s.fman.tables = true →
      let d := s.fman.objTable + 32 * i
      let y : Ctx := { s.ctx c with batches := (s.ctx c).batches.take k ++ (s.ctx c).batches.drop (k + 1) }
      let u : State := { s with ctxs := tblSet c y s.ctxs }
      d + 32 ≤ farTop → DescOpen s i →
      (1 < devCount s i ∨ farNum s (d + 0x1A) 1 = 0 ∨ farNum s (d + 0x1B) 1 % 2 = 0 →
        ∃ t, exec (.refBatchRetire c k) s = .next t ∧ t = { u with far := { s.far with mem := t.far.mem } } ∧ devCount t i = devCount s i - 1 ∧
          ∀ a, a < d + 0x14 ∨ d + 0x18 ≤ a → memRead t.far.mem a = memRead s.far.mem a) ∧
      (devCount s i ≤ 1 → farNum s (d + 0x1A) 1 ≠ 0 → farNum s (d + 0x1B) 1 % 2 = 1 →
        ∃ t, exec (.refBatchRetire c k) s = .next (State.event t 0 i) ∧
          t = { ctxWith u 0 (u.ctx 0) with far := { s.far with mem := t.far.mem }, fman := { s.fman with objects := s.fman.objects.filter (fun o => o.id != i) } } ∧
          farNum t (d + 0x1A) 1 = 0 ∧ ∀ a, a < d + 0x14 ∨ (d + 0x18 ≤ a ∧ a ≠ d + 0x1A) → memRead t.far.mem a = memRead s.far.mem a))

/-! ### Contexts: windows at quiescence, kills, suspension, switch-out, resume, placement (13_contexts R345 to R368) -/

/-- CONTEXT_KILL: the kill of a context with a recorded fault begins, with that fault's cause (R367, R368). -/
def ContextKillRuns : Prop :=
  ∀ (c : Nat) (f : FaultRec) (s : State), c ≠ 0 →
    let x := s.ctx c
    x.fault = some f → x.killing = false → Lives x → x.pendWins = [] →
    ∃ t : State, exec (.contextKill c) s = .next t ∧
      t.ctx c = { x with state := .killing, killing := true, yielding := false, cause := f.cause.code, placedNs := x.placedTotal s.now, seq := (x.seq + 2) % 2 ^ 32 } ∧
      (∀ d, d ≠ c → t.ctx d = s.ctx d) ∧ t.links.dst = s.links.dst.map (fun d => if d.ctx = c then { d with dead := true } else d) ∧
      (∀ n ∈ s.held c, ∀ e, e < 4 → t.queue n e = { s.queue n e with halt := false, halted := false, brkEn := false, stepArm := false }) ∧
      t = { s with cores := t.cores, ctxs := t.ctxs, links := { s.links with dst := t.links.dst }, rings := t.rings }

/-- What a core keeps and loses when its context leaves it for good: no gang, launch, record, move, power wait, tally, token or route is
left, and its port and flow tables are empty (R303). -/
def Freed (k j : Core) : Prop :=
  j.ctx = none ∧ j.ge.slots = [] ∧ j.ge.launches = [] ∧ j.ge.stopped = false ∧ j.me.run = [] ∧ j.me.events = [] ∧ j.mv0.recs = [] ∧ j.mv1.recs = [] ∧
  j.mv0.sent = [] ∧ j.mv1.sent = [] ∧ j.portTable = [] ∧ j.flows = [] ∧ j.tally.slots = [] ∧ j.tally.tokens = [] ∧ j.tally.watches = [] ∧ j.tally.routes = [] ∧ j.slab.mem = k.slab.mem ∧ j.slab.powerWaits = [] ∧
  ∀ e, (j.queue e).flight = [] ∧ (j.queue e).onchip = [] ∧ (j.queue e).block = .none ∧ (j.queue e).inForce.enable = false

/-- KILL_DRAIN_DONE: nothing happens while memory requests of the context are outstanding; then the context, which holds no batch, names no
object and has no claim, is DEAD, its cores are free, its messages, hub tallies and barrier units are gone, and its post-mortem record
stands in memory; of its gang engines nothing is left, and no core counts it as its last context (02_gangs R65; 06_slab R170; R303, R367,
R369). -/
def KillDrainDoneRuns : Prop :=
  ∀ (c : Nat) (f : FaultRec) (s : State), c ≠ 0 →
    let x := s.ctx c
    (x.killing = true → s.memBusy c = true → exec (.killDrainDone c) s = .next s) ∧
    (x.killing = true → s.memBusy c = false → x.fault = some f → x.toFree = false → x.batches = [] → (∀ w ∈ x.windows, w.2.named = false) →
      s.fman.objects = [] → s.fman.forget = false → (∀ m ∈ s.links.src, m.ctx ≠ c) → x.bench.Nodup → FarClean s → bitOf x.events 3 = false →
      ∃ t, exec (.killDrainDone c) s = .next (State.vector t c) ∧
        (t.ctx c).state = .dead ∧ (t.ctx c).killing = false ∧ (t.ctx c).windows = [] ∧ (t.ctx c).events = x.events + 8 ∧ (t.ctx c).fault = some f ∧ (t.ctx c).pm = x.pm ∧
        (∀ d, d ≠ c → d ≠ 0 → t.ctx d = s.ctx d) ∧ (∀ n ∈ s.held c, Freed (s.core n) (t.core n) ∧ (t.core n).ge = {} ∧ (t.core n).lastCtx ≠ some c) ∧
        (∀ n, n ∉ s.held c → t.core n = { s.core n with lastCtx := if (s.core n).lastCtx = some c then none else (s.core n).lastCtx }) ∧
        (∀ m, m ∈ t.net.tally ↔ m ∈ s.net.tally ∧ (m.ctx ≠ c ∨ 1280 ≤ m.src.core)) ∧ (∀ p, p ∈ t.hub.tallies ↔ p ∈ s.hub.tallies ∧ (p.2.valid = false ∨ p.2.ctx ≠ c)) ∧
        memReadN t.far.mem x.pm 4096 = pmBytes f x.later ∧ (∀ a, a < x.pm ∨ x.pm + 4096 ≤ a → memRead t.far.mem a = memRead s.far.mem a) ∧
        t = { s with cores := t.cores, far := { s.far with mem := t.far.mem }, host := t.host, net := t.net, hub := t.hub, ctxs := t.ctxs, rings := t.rings, dbg := t.dbg })

/-- No line of the context is in the far caches of its cores. -/
def CachesClear (s : State) (c : Nat) : Prop := ∀ n ∈ s.held c, ∀ l ∈ (s.core n).fc.lines, l.2.ctx ≠ c

/-- CONTEXT_SUSPEND: once the context's requests have completed, its gangs' registers and accumulators stand in its gang save area, core by
core, and its synchronisation state in its save area; it is SUSPENDED with the address that its host access was rejected at (R365; 11_tallies R321). -/
def ContextSuspendRuns : Prop :=
  ∀ (c now addr : Nat) (s : State),
    let u := s.advanceTo now
    let x := u.ctx c
    let cores := u.held c
    c ≠ 0 → x.suspendReq = some addr → x.state = .placed → x.fault = none → u.netBusy c = false → u.memBusy c = false → u.sideBusy c = false →
    CachesClear u c → FarClean u → x.bench.Nodup → Apart x.save 65536 x.gsave (360448 * cores.length) → bitOf x.events 2 = false →
    (∀ w, w ∈ u.hub.watches ∨ (∃ n ∈ cores, w ∈ (u.core n).tally.watches) → w.ctx = c → w.who.core ∈ cores) →
    ∃ t, exec (.contextSuspend c now) s = .next (State.bump (State.vector t c) 0) ∧
      (t.ctx c) = { x with state := .suspended, suspendAddr := addr, placedNs := x.placedTotal u.now, events := x.events + 4, seq := (x.seq + 2) % 2 ^ 32 } ∧
      (∀ d, d ≠ c → t.ctx d = u.ctx d) ∧
      (∀ i, i < cores.length → memReadN t.far.mem (x.gsave + 360448 * i) 360448 = gsaveBytes (u.core (cores.getD i 0)) (1280 * u.draws + i)) ∧
      memReadN t.far.mem x.save 65536 = u.syncBytes c ∧
      (∀ a, (a < x.save ∨ x.save + 65536 ≤ a) → (a < x.gsave ∨ x.gsave + 360448 * cores.length ≤ a) → memRead t.far.mem a = memRead u.far.mem a) ∧
      (∀ n, n ∉ cores → t.core n = u.core n) ∧ (∀ n ∈ cores, ∃ gs qs, t.core n = { u.core n with tally := { (u.core n).tally with watches := [] }, ge := { (u.core n).ge with slots := gs }, queues := qs }) ∧
      ((∀ w ∈ u.hub.watches, w.ctx ≠ c) → (∀ n ∈ cores, ∀ w ∈ (u.core n).tally.watches, w.ctx ≠ c) →
        ∀ n ∈ cores, t.core n = { u.core n with tally := { (u.core n).tally with watches := [] } }) ∧
      t = { u with cores := t.cores, far := { u.far with mem := t.far.mem }, net := { u.net with watches := t.net.watches, refused := t.net.refused, wakes := t.net.wakes }, hub := { u.hub with watches := t.hub.watches }, ctxs := t.ctxs, rings := t.rings, draws := u.draws + 1 }

/-- A watch that leaves its home gives its waiter the threshold that REBASE has left it (11_tallies R311, R321): a gang's TWAIT, and the
wait of a queue's record; nothing else changes. -/
def LowerWaitRuns : Prop :=
  ∀ (w : Watch) (s : State),
    (∀ vid thr st tmo, w.who.unit < 16 → (s.gang w.who.core w.who.unit).wait = .tally vid thr st tmo w.serial →
      s.lowerWait w = s.setGang w.who.core w.who.unit { s.gang w.who.core w.who.unit with wait := .tally vid w.threshold st tmo w.serial }) ∧
    (∀ tw, 16 ≤ w.who.unit → let q := s.queue w.who.core (w.who.unit - 16)
      q.block = .wait tw → q.blockId = w.serial → w.idx = 0 →
      s.lowerWait w = s.setQueue w.who.core (w.who.unit - 16) { q with block := .wait { tw with threshold := w.threshold } })

/-! ### Contexts: switch-out, placement, resume (13_contexts R350 to R356, R366; 10_cutplan R302, R303) -/

/-- What the raise of a vector may change: the pending bits, or the message's words in host memory. -/
def Raised (u t : State) (v : Nat) : Prop := t.pci = (u.vector v).pci ∧ t.host = (u.vector v).host ∧ t.dbg = (u.vector v).dbg

/-- From s to t the context has left its bench for good or until its next placement (R352, R356; 11_tallies R321): HEAD and TAIL of each of its
queues stand in its queue descriptors, a PRESERVE context's synchronisation state stands in its save area, its cores, hub tallies and barrier
units are free, and it is READY, the last of the READY contexts. -/
def SwitchedOut (c : Nat) (s t : State) : Prop :=
  let x := s.ctx c
  t.ctx c = { x with state := .ready, placedNs := x.placedTotal s.now, order := s.fman.nextOrder, events := x.events + 2, seq := (x.seq + 2) % 2 ^ 32, units := [], lead := [], marks := [], yielding := false, haltSince := none, haltNs := 0 } ∧
  t.ctx 0 = { s.ctx 0 with seq := ((s.ctx 0).seq + 2) % 2 ^ 32 } ∧ (∀ d, d ≠ c → d ≠ 0 → t.ctx d = s.ctx d) ∧
  (∀ n ∈ x.bench, Freed (s.core n) (t.core n)) ∧ (∀ n, n ∉ x.bench → t.core n = s.core n) ∧
  (∀ i, i < x.bench.length → ∀ e, e < 4 → let q := s.queue (x.bench.getD i 0) e
    farNum t (x.qdt + 32 * (4 * i + e) + 12) 3 = (q.head + 2 ^ 12 * q.tail) % 2 ^ 24) ∧
  (x.preserve = true → memReadN t.far.mem x.save 65536 = s.syncBytes c) ∧
  (∀ a, (x.preserve = false ∨ a < x.save ∨ x.save + 65536 ≤ a) → (∀ i, i < 4 * x.bench.length → a < x.qdt + 32 * i + 12 ∨ x.qdt + 32 * i + 15 ≤ a) →
    memRead t.far.mem a = memRead s.far.mem a) ∧
  t.net = s.net.purge c ∧ (∀ p, p ∈ t.hub.tallies ↔ p ∈ s.hub.tallies ∧ (p.2.valid = false ∨ p.2.ctx ≠ c)) ∧
  (∀ p, p ∈ t.hub.units ↔ p ∈ s.hub.units ∧ (p.2.valid = false ∨ p.2.ctx ≠ c)) ∧
  t = { s with cores := t.cores, far := { s.far with mem := t.far.mem }, net := t.net, hub := t.hub, ctxs := t.ctxs, rings := t.rings, fman := { s.fman with nextOrder := s.fman.nextOrder + 1 } }

/-- The context is alone on its bench, none of its lines is in a cache, and far memory takes what is saved. -/
def LeavesClean (c : Nat) (s : State) : Prop :=
  let x := s.ctx c
  s.held c = x.bench ∧ CachesClear s c ∧ FarClean s ∧ x.bench.Nodup ∧ x.fault = none ∧ bitOf x.events 1 = false ∧ Apart x.save 65536 x.qdt (128 * x.bench.length)

/-- SWITCH_OUT: nothing happens unless the context is quiescent and held, yielding or has a SET_WINDOW pending. Then it is switched out
(R352, R353, R356; 11_tallies R321). -/
def SwitchOutRuns : Prop :=
  ∀ (c : Nat) (s : State), c ≠ 0 →
    let x := s.ctx c
    (s.quiescent c = false ∨ (x.hold = false ∧ x.yielding = false ∧ x.pendWins = []) → exec (.switchOut c) s = .next s) ∧
    (s.quiescent c = true → x.hold = true ∨ x.yielding = true → x.pendWins = [] → LeavesClean c s →
      ∃ t, exec (.switchOut c) s = .next (State.vector t c) ∧ SwitchedOut c s t)

/-- WINDOW_APPLY, or SWITCH_OUT: at the quiescence of a placed context a window change that waits comes into force and is answered, and with
it the context is switched out; at no other time does WINDOW_APPLY do anything (R350, R353). -/
def WindowApplyRuns : Prop :=
  ∀ (c : Nat) (p : PendWin) (s : State),
    (s.quiescent c = false ∨ (s.ctx c).pendWins = [] → exec (.windowApply c) s = .next s) ∧
    (s.quiescent c = true → (s.ctx c).pendWins ≠ [] → exec (.switchOut c) s = exec (.windowApply c) s) ∧
    (s.quiescent c = true → (s.ctx c).pendWins = [p] → c ≠ 0 → s.windowBad (s.ctx c).bench p.win = false → p.win.named = false →
      (tblGet ({} : Window) (s.ctx c).windows p.idx).named = false → bitOf (s.ctx c).events 5 = false →
      let x := s.ctx c
      let y : Ctx := { x with pendWins := [], windows := tblSet p.idx p.win x.windows, events := x.events + 32, seq := (x.seq + 4) % 2 ^ 32 }
      let u := (({ s with ctxs := tblSet c y s.ctxs } : State).vector c).reply p.req 0 []
      LeavesClean c u → ∃ t, exec (.windowApply c) s = .next (State.vector t c) ∧ SwitchedOut c u t)

/-- The plan image of a context, as its words in far memory say. -/
def imageOf (s : State) (a : Nat) : List Byte := memReadN s.far.mem a (leAt (memReadN s.far.mem a 128) 8 4)

/-- PLACEMENT_ATTEMPT with one context to place, whose image passes every check of R302: it is PLACED with the image's bench, cores, queue
descriptors, hub tallies and barrier units, its queues are loaded and enabled as their descriptors say, its cores carry its tables, and
its time does not count while one of its queues is halted (09_queues R281; R352, R355; 09_queues R250, R285; 10_cutplan R302). -/
def PlacementRuns : Prop :=
  ∀ (c now : Nat) (s : State) (ds : List (List Nat)),
    let u := s.advanceTo now
    let x := u.ctx c
    let bs := imageOf u x.plan
    let p := (planOf bs).1
    1 ∈ u.pci.running → u.fman.tables = true → u.candidates = [c] → x.state = .ready → FarClean u → x.plan + leAt (memReadN u.far.mem x.plan 128) 8 4 ≤ farTop →
    128 < leAt (memReadN u.far.mem x.plan 128) 8 4 → imageCode u x.plan bs (planOf bs) = 0 → placeCode u p = 0 → x.preserve = false → x.loaded = none →
    bitOf x.events 0 = false → p.bench.Nodup → u.readQdt p = (u, some ds) → ds.length = 4 * p.bench.length → c ≠ 0 →
    let homes := assignHomes ((List.range p.tallies.length).zip p.tallies) (pickFree u.draws p.hubSlots u.freeSlots)
    let units := p.barriers.zip (pickFree (u.draws + 4096) p.barriers.length u.freeUnits)
    let halted := p.bench.any (fun n => (List.range 4).any (fun e => (u.queue n e).halted))
    ∃ t, exec (.placementAttempt now) s = .next t ∧
      t.ctx c = { x with
        state := .placed, placedAt := u.now, sliceAt := u.now, placeCode := 0, yielding := false, bells := [], switches := satAdd 0xFFFFFFFF x.switches 1
        marks := ((List.range 4).filter (fun d => bitOf p.dieMask d)).map (fun d => (d, [({ start := u.half, phase := 0 } : PMark)])), tmap := homes.1
        units := units.foldl (fun t (y : PlanUnit × Nat) => tblSet y.1.unit y.2 t) [], bench := p.bench, dieMask := p.dieMask, qdt := p.qdt, lead := p.lead
        loaded := some p, routersKept := true, events := x.events + 1, seq := (x.seq + 2) % 2 ^ 32
        haltSince := if halted then some (x.haltSince.getD u.now) else none
        haltNs := if halted then x.haltNs else x.haltNs + (match x.haltSince with | some a => u.now - a | none => 0) } ∧
      (∀ i, i < p.bench.length → let n := p.bench.getD i 0
        t.core n = { (u.core n).join c i p with queues := (t.core n).queues, dbg := (t.core n).dbg } ∧
        ∀ e, e < 4 → t.queue n e = (((u.core n).join c i p).queue e).load (ds.getD (4 * i + e) []) (tblFind (4 * n + e) x.bells)) ∧
      (∀ n, n ∉ p.bench → t.core n = u.core n) ∧ t.hub = (u.takeHub c homes.2 units).hub ∧ Raised u t c ∧
      (∀ d, d ≠ c → d ≠ 0 → t.ctx d = { u.ctx d with yielding := false, routersKept := (u.ctx d).routersKept && !routersShared (u.ctx d).plan_.routers p.routers }) ∧
      t = { u with cores := t.cores, hub := t.hub, ctxs := t.ctxs, rings := t.rings, draws := u.draws + 4352, host := t.host, pci := t.pci, dbg := t.dbg }

/-- PLACEMENT_ATTEMPT with one context to place, whose image fails a check of R302: its code is recorded. A permanent code sets event REFUSED;
with another code, a placed context that holds what the plan needs is yielding if its priority is lower, or equal and its time slice over
(R352, R354). -/
def PlacementRefused : Prop :=
  ∀ (c now : Nat) (s : State),
    let u := s.advanceTo now
    let x := u.ctx c
    let bs := imageOf u x.plan
    let p := (planOf bs).1
    let code := if imageCode u x.plan bs (planOf bs) ≠ 0 then imageCode u x.plan bs (planOf bs) else placeCode u p
    1 ∈ u.pci.running → u.fman.tables = true → u.candidates = [c] → x.state = .ready → FarClean u → x.plan + leAt (memReadN u.far.mem x.plan 128) 8 4 ≤ farTop →
    128 < leAt (memReadN u.far.mem x.plan 128) 8 4 → code ≠ 0 → bitOf x.events 4 = false →
    (permanent code = true → ∃ t, exec (.placementAttempt now) s = .next t ∧ t.ctx c = { x with placeCode := code, events := x.events + 16, seq := (x.seq + 2) % 2 ^ 32, yielding := false } ∧
      (∀ d, d ≠ c → t.ctx d = { u.ctx d with yielding := false }) ∧ Raised u t c ∧ t = { u with ctxs := t.ctxs, host := t.host, pci := t.pci, dbg := t.dbg }) ∧
    (permanent code = false → ∃ t w : State, exec (.placementAttempt now) s = .next t ∧ t.ctx c = { x with placeCode := code, seq := (x.seq + 2) % 2 ^ 32, yielding := false } ∧
      w = { u with ctxs := w.ctxs } ∧ (∀ d, w.ctx d = if d = c then { x with placeCode := code, seq := (x.seq + 2) % 2 ^ 32, yielding := false } else { u.ctx d with yielding := false }) ∧
      (∀ d, d ≠ c → t.ctx d = { u.ctx d with yielding := (u.ctx d).state == .placed && (decide ((u.ctx d).priority < x.priority)
        || ((u.ctx d).priority == x.priority && (u.ctx d).timeslice != 0 && decide (u.now ≥ (u.ctx d).sliceAt + 1000 * (u.ctx d).timeslice))) && w.inTheWay p code (u.ctx d) }) ∧
      t = { u with ctxs := t.ctxs })

/-- CTX_RESUME of a suspended context whose gangs and queues wait for nothing and whose move engines hold no record: the registers and
accumulators of its cores come back from its gang save area and its synchronisation state from its save area, its queues take the tails
that doorbells stored meanwhile, and it is PLACED (R366; 11_tallies R321). -/
def CtxResumeRuns : Prop :=
  ∀ (s : State) (m : MailMsg) (rest : List MailMsg), Asked s 1 0x12 m rest → Serves s → m.arg 1 < 1024 → m.arg 1 ≠ 0 →
    let c := m.arg 1
    let x := s.ctx c
    let cores := s.held c
    x.state = .suspended → s.far.bad = [] → x.bench.Nodup → x.save + 65536 ≤ farTop → x.gsave + 360448 * cores.length ≤ farTop →
    (∀ n ∈ cores, (∀ g, ((s.core n).gang g).wait = .none) ∧ (s.core n).ge.launches = [] ∧ (s.core n).mv0.recs = [] ∧ (s.core n).mv1.recs = [] ∧
      ∀ e, (s.queue n e).block = .none ∧ (s.queue n e).flight = []) →
    ∃ t r : State, exec .ctxResume s = .next (t.reply (refOf 1 m) 0 []) ∧
      r = { taken s 1 rest with cores := r.cores } ∧ (∀ i, i < cores.length → r.core (cores.getD i 0) = (s.core (cores.getD i 0)).loadGsave (memReadN s.far.mem (x.gsave + 360448 * i) 360448)) ∧
      (∀ n, n ∉ cores → r.core n = s.core n) ∧
      let l := r.loadSync c (memReadN s.far.mem x.save 65536)
      t.ctx c = { x with state := .placed, placedAt := s.now, suspendReq := none, bells := [], seq := (x.seq + 2) % 2 ^ 32 } ∧ (∀ d, d ≠ c → d ≠ 0 → t.ctx d = s.ctx d) ∧
      (∀ n ∈ cores, t.core n = { l.core n with ge := { (l.core n).ge with rejected := none }, queues := (t.core n).queues, dbg := (t.core n).dbg } ∧
        ∀ e, e < 4 → t.queue n e = { s.queue n e with
          blockStart := s.ctxNow c, tokSince := (s.queue n e).tokSince.map (fun _ => s.ctxNow c), ordSince := (s.queue n e).ordSince.map (fun _ => s.ctxNow c)
          tail := match tblFind (4 * n + e) x.bells with | some b => min b ((s.queue n e).size - 1) | none => (s.queue n e).tail }) ∧
      (∀ n, n ∉ cores → t.core n = l.core n) ∧ t = { l with cores := t.cores, ctxs := t.ctxs, rings := t.rings }

/-! ### The host's registers, mailboxes and doorbells (14_host R376 to R396) -/

/-- An error of the host's accesses sets its bit and raises vector 1,028 (R384). -/
def erred (s : State) (f : HostErr → HostErr) : State := ({ s with pci := { s.pci with err := f s.pci.err } } : State).vector 1028

/-- A channel of the mailboxes changed. -/
def withChan (s : State) (k : Nat) (c : MailChan) : State := { s with pci := { s.pci with chans := tblSet k c s.pci.chans } }

/-- Registers of the module as a whole: a write of 4 bytes writes the register's writable fields and nothing else (00_scope R5 to R7; 14_host
R380, R383, R384, R387, R395). -/
def RegisterWriteModule : Prop :=
  ∀ (s : State) (v : Nat), v < 2 ^ 32 →
    (∀ o, o < 0x100000 → o % 4 = 0 → exec (.registerWrite o 4 v) s = .next s) ∧
    (∀ k i, k < 4 → 1 ≤ i → i < 16 → let c := s.pci.chan k
      exec (.registerWrite (0x100000 + 4096 * k + 4 * i) 4 v) s = .next (withChan s k { c with args := tblSet i (BitVec.ofNat 32 v) c.args })) ∧
    exec (.registerWrite 0x104000 4 v) s = .next { s with pci := { s.pci with dbPend := s.pci.dbPend ||| BitVec.ofNat 32 v } } ∧
    exec (.registerWrite 0x104004 4 v) s = .next { s with pci := { s.pci with dbPend := s.pci.dbPend &&& ~~~(BitVec.ofNat 32 v) } } ∧
    (∀ k, k < 4 → exec (.registerWrite (0x104010 + 4 * k) 4 v) s = .next { s with pci := { s.pci with dbMask := tblSet k (BitVec.ofNat 32 v) s.pci.dbMask } }) ∧
    exec (.registerWrite 0x105004 4 v) s = .next { s with pci := { s.pci with err := {
      bar0Size := s.pci.err.bar0Size && !bitOf v 0, bar2Range := s.pci.err.bar2Range && !bitOf v 1, bar2Early := s.pci.err.bar2Early && !bitOf v 2, bar2Ue := s.pci.err.bar2Ue && !bitOf v 3 } } } ∧
    exec (.registerWrite 0x105008 4 v) s = .next { s with pci := { s.pci with origin := min 767 (v % 1024) } } ∧
    exec (.registerWrite 0x105018 4 v) s = .next { s with pci := { s.pci with evq := { s.pci.evq with staged := { s.pci.evq.staged with log2 := max 4 (min 16 (v % 32)), enable := bitOf v 8 } } } } ∧
    exec (.registerWrite 0x105020 4 v) s = .next { s with pci := { s.pci with evq := { s.pci.evq with head := v % 65536 % 2 ^ s.pci.evq.inForce.log2 } } } ∧
    (∀ i, i < 1024 → exec (.registerWrite (0xE01000 + 4 * i) 4 v) s = .next { s with trust := { s.trust with hostBuf := memWriteN s.trust.hostBuf (4 * i) (leBytes 4 v) } })

/-- Registers of the cores and of the Governor: a write of 4 bytes stages or sets the named fields, with the clamps of the spec, and nothing else
(05_numbers R136; 06_slab R172; 08_far R247; 09_queues R250, R284, R286; 16_governor R453, R462). -/
def RegisterWriteUnits : Prop :=
  ∀ (s : State) (n v : Nat), n < 1280 → v < 2 ^ 32 →
    let b := 0x1000000 + 0x4000 * n
    exec (.registerWrite (b + 0x210) 4 v) s = .next (s.modCore n (fun k => { k with ge := { k.ge with seed := v } })) ∧
    (∀ i w, i < 16 → w < 8 → exec (.registerWrite (b + 0x800 + 32 * i + 4 * w) 4 v) s = .next (s.modMe n (fun m => { m with staged := tblSet i ((tblGet ({} : Profile) m.staged i).write w v) m.staged }))) ∧
    (bitOf v 31 = true → exec (.registerWrite (b + 0xC10) 4 v) s = .next (s.modSlab n (fun b => { b with eccAddr := { b.eccAddr with valid := false } }))) ∧
    exec (.registerWrite (b + 0xE00) 4 v) s = .next (s.modCore n (fun k => { k with fc := { k.fc with ctrl :=
      { pfEn := bitOf v 0, pfStride := max 1 (min 16 (bitsOf v 5 1)), pfDist := max 1 (min 4 (bitsOf v 8 6)), streamEn := bitOf v 9, streamRun := max 2 (bitsOf v 13 10) } } })) ∧
    (∀ e, e < 4 → let q := s.queue n e
      exec (.registerWrite (b + 0x1000 + 64 * e) 4 v) s = .next (s.setQueue n e { q with staged := { q.staged with base := q.staged.base / 2 ^ 32 * 2 ^ 32 + v / 512 * 512 } }) ∧
      exec (.registerWrite (b + 0x1004 + 64 * e) 4 v) s = .next (s.setQueue n e { q with staged := { q.staged with base := q.staged.base % 2 ^ 32 + 2 ^ 32 * (v % 65536) } }) ∧
      exec (.registerWrite (b + 0x1008 + 64 * e) 4 v) s = .next (s.setQueue n e { q with staged := { q.staged with log2 := max 6 (min 12 (v % 16)), fenced := bitOf v 4, enable := bitOf v 5 } }) ∧
      exec (.registerWrite (b + 0x100C + 64 * e) 4 v) s = .next (s.setQueue n e { q with defTmo := min v 10000000 }) ∧
      (bitOf v 0 = true → exec (.registerWrite (b + 0x1010 + 64 * e) 4 v) s = .next (s.setQueue n e { q with commit := .software }))) ∧
    exec (.registerWrite 0x800004 4 v) s = .next { s with gov := { s.gov with
      stagedSust := max 600 (min s.site.sustW (v % 2048))
      stagedExc := if s.site.excW = 0 then 0 else max (max 600 (min s.site.sustW (v % 2048))) (min s.site.excW (bitsOf v 26 16)) } } ∧
    exec (.registerWrite 0x800200 4 v) s = .next { s with gov := { s.gov with trips := { s.gov.trips with
      t105 := s.gov.trips.t105 && !bitOf v 0, bus42 := s.gov.trips.bus42 && !bitOf v 1, shutdown := s.gov.trips.shutdown && !bitOf v 2 } } }

/-- A write of 8 bytes is two words, the lower address first; a write of any other size, or that is not aligned, is dropped and sets
HOST_ERR.BAR0_SIZE (00_scope R7; 14_host R380, R384). -/
def RegisterWriteForms : Prop :=
  ∀ (s : State) (o v : Nat),
    (o % 8 = 0 → o + 8 ≤ 0x4000000 → v < 2 ^ 64 → ∃ t, exec (.registerWrite o 4 (v % 2 ^ 32)) s = .next t ∧ exec (.registerWrite o 8 v) s = exec (.registerWrite (o + 4) 4 (v / 2 ^ 32)) t) ∧
    (∀ size, (size ≠ 4 ∧ size ≠ 8) ∨ o % size ≠ 0 ∨ 0x4000000 < o + size → exec (.registerWrite o size v) s = .next (erred s (fun e => { e with bar0Size := true })))

/-- BAR2 reads: before readiness and past the served range they complete as Unsupported Request and set their HOST_ERR bit; otherwise the
bytes of far memory, and zeros past its end, complete (R383, R384; 08_far R219, R224). -/
def Bar2ReadRuns : Prop :=
  ∀ (s : State) (offset size : Nat),
    let a := s.pci.origin * 2 ^ 30 + offset
    let n := min size (farTop - min a farTop)
    let done := fun (t : State) (c : Completion) => ({ t with pci := { t.pci with completion := some c } } : State)
    (s.pci.ready = false → exec (.bar2Read offset size) s = .next (done (erred s (fun e => { e with bar2Early := true })) .unsupported)) ∧
    (s.pci.ready = true → 0xC000000000 < a + size → exec (.bar2Read offset size) s = .next (done (erred s (fun e => { e with bar2Range := true })) .unsupported)) ∧
    (s.pci.ready = true → a + size ≤ 0xC000000000 → s.far.bad = [] →
      exec (.bar2Read offset size) s = .next (done s (.data (memReadN s.far.mem a n ++ List.replicate (size - n) 0)))) ∧
    (s.pci.ready = true → a + size ≤ 0xC000000000 → (s.farRead a n).2 = none → exec (.bar2Read offset size) s = .next
      (((blocksOf a n).filter (fun b => s.blockBad (farBlock s.far.localUnits b))).foldl (fun t b => t.event 1 b)
        (done (erred (s.farRead a n).1 (fun e => { e with bar2Ue := true })) .aborter)))

/-- BAR2 writes: before readiness and past the served range they are dropped and set their HOST_ERR bit; otherwise the bytes that lie in far
memory are written, and nothing else changes (R383, R384; 08_far R219). -/
def Bar2WriteRuns : Prop :=
  ∀ (s : State) (offset : Nat) (data : List Byte),
    let a := s.pci.origin * 2 ^ 30 + offset
    (s.pci.ready = false → exec (.bar2Write offset data) s = .next (erred s (fun e => { e with bar2Early := true }))) ∧
    (s.pci.ready = true → 0xC000000000 < a + data.length → exec (.bar2Write offset data) s = .next (erred s (fun e => { e with bar2Range := true }))) ∧
    (s.pci.ready = true → a + data.length ≤ 0xC000000000 → FarClean s → ∃ m, exec (.bar2Write offset data) s = .next { s with far := { s.far with mem := m } } ∧
      ∀ x, memRead m x = if a ≤ x ∧ x < a + data.length ∧ x < farTop then data.getD (x - a) 0 else memRead s.far.mem x)

/-- EVQ_COMMIT: the staged set is in force and the queue is empty; a record held until then is written once the queue is enabled (R387). -/
def EvqCommitRuns : Prop :=
  ∀ (s : State),
    let t : State := { s with pci := { s.pci with evq := { s.pci.evq with inForce := s.pci.evq.staged, head := 0, tail := 0, written := 0 } } }
    (s.pci.evq.staged.enable = false ∨ s.dbg.held = [] → exec .evqCommit s = .next t) ∧
    (s.pci.evq.staged.enable = true → exec .evqCommit s = .next (s.dbg.held.foldl (fun t h => t.event h.1 h.2) { t with dbg := { t.dbg with held := [] } }))

/-- MAILBOX_SEND: the message is stamped and queued; a full queue drops it and counts it, a code that its port may not send is answered
E_REFUSED and counted, and a core that does not run is answered E_ABSENT (R389 to R393). -/
def MailboxSendRuns : Prop :=
  ∀ (s : State) (ch sender header : Nat), ch < 4 → sender < 6 → header < 2 ^ 32 →
    let c := s.pci.chan ch
    let n := tblGet 0 c.seqs sender
    let words := BitVec.ofNat 32 header :: (List.range 15).map (fun i => if sender = 0 then tblGet 0 c.args (i + 1) else 0)
    let ref : ReqRef := { channel := ch, sender := sender, header := header }
    let code := header % 256
    let allowed := (sender = 0 ∧ code < 0x80) ∨ (sender = 1 ∧ 0x40 ≤ code ∧ code < 0x60 ∧ (ch = 0 ∨ ch = 3)) ∨ 2 ≤ sender
    (c.inbound.length < 16 → allowed → ch ∈ s.pci.running →
      exec (.mailboxSend ch sender header) s = .next ((withChan s ch { c with seqs := tblSet sender ((n + 1) % 65536) c.seqs, inbound := c.inbound ++ [{ words := words, sender := sender, seq := n }] }).hubCount 4 2 1)) ∧
    (c.inbound.length < 16 → allowed → ch ∉ s.pci.running → exec (.mailboxSend ch sender header) s = .next (s.reply ref 14 [])) ∧
    (c.inbound.length < 16 → ¬ allowed → exec (.mailboxSend ch sender header) s = .next (((withChan s ch { c with refused := satAdd 0xFFFF c.refused 1 }).hubCount 4 4 1).reply ref 15 [])) ∧
    (16 ≤ c.inbound.length → exec (.mailboxSend ch sender header) s = .next ((withChan s ch { c with fullDrop := satAdd 0xFFFF c.fullDrop 1 }).hubCount 4 4 1))

/-- RPOP discards the oldest reply of the HOST; DB_CLR clears the named doorbells but for those set in the same cycle (R393, R395). -/
def RpopDbClrRuns : Prop :=
  ∀ (s : State) (ch : Nat) (mask sets : W32),
    (ch < 4 → let c := s.pci.chan ch
      exec (.rpop ch) s = .next (withChan s ch { c with replies := tblSet 0 ((tblGet [] c.replies 0).drop 1) c.replies })) ∧
    exec (.dbClr mask sets) s = .next { s with pci := { s.pci with dbPend := (s.pci.dbPend &&& ~~~mask) ||| sets } }

/-- A doorbell that its core serves: the bit is set, the core's mask enables it and the core runs (R395). -/
def Rung (s : State) (core bit : Nat) : Prop := core ∈ s.pci.running ∧ s.pci.dbPend.getLsbD bit = true ∧ (tblGet 0 s.pci.dbMask core).getLsbD bit = true

/-- The doorbell bit cleared. -/
def answered (s : State) (bit : Nat) : State := { s with pci := { s.pci with dbPend := s.pci.dbPend &&& ~~~(1#32 <<< bit) } }

/-- The doorbells: PLACE tries placement and is cleared; DRIVER_DOWN holds every READY, PLACED and SUSPENDED context, and is cleared once none is
placed; SENSE asks the next control period to sample every sensor; LINKS refreshes the query block's LINKS part; any other bit that a core's
mask enables is cleared and counted; none acts unless it is set, enabled and its core runs (R395, R396). -/
def DoorbellsRun : Prop :=
  ∀ (s : State) (now : Nat),
    let u := s.advanceTo now
    (Rung u 1 0 → u.fman.tables = false → exec (.place now) s = .next (answered u 0)) ∧
    (Rung u 1 0 → u.fman.tables = true → ∃ t, exec (.placementAttempt now) s = .next t ∧ exec (.place now) s = .next (answered t 0)) ∧
    (¬ Rung u 1 0 → exec (.place now) s = .next u) ∧
    (Rung s 1 1 → Rising s.ctxs → ∃ t, exec .driverDown s = .next t ∧
      (∀ d, t.ctx d = if (s.ctx d).state.lives then { s.ctx d with hold := true, seq := ((s.ctx d).seq + 2) % 2 ^ 32 } else s.ctx d) ∧
      t = { (if ∃ p ∈ s.ctxs, p.2.state = .placed then s else answered s 1) with ctxs := t.ctxs }) ∧
    (¬ Rung s 1 1 → exec .driverDown s = .next s) ∧
    (Rung s 3 2 → exec .sense s = .next { s with gov := { s.gov with sense := true } }) ∧
    (¬ Rung s 3 2 → exec .sense s = .next s) ∧
    (Rung s 2 3 → exec .links s = .next (answered (ctxWith s 0 (s.ctx 0)) 3)) ∧
    (¬ Rung s 2 3 → exec .links s = .next s) ∧
    (∀ core bit, core < 4 → bit < 32 → 4 ≤ bit → Rung s core bit →
      exec (.dbStray core bit) s = .next { answered s bit with pci := { (answered s bit).pci with dbStray := satAdd 0xFFFF s.pci.dbStray 1 } })

/-- PERST_DEASSERT opens the window of R388; LINK_TRAINED takes speed and width within the site's limits; GATEKEEPER_ONLY is reached 1.0 s after
the deassertion when no other control core runs (R376, R388). -/
def StagesRun : Prop :=
  ∀ (s : State) (now : Nat),
    let u := s.advanceTo now
    (u.pci.perst = true → ((∀ k, k < 4 → k ∈ u.pci.running) ∧ u.dbg.stDone = true ∧ u.pci.fw = .starting →
        exec (.perstDeassert now) s = .next { u with pci := { u.pci with perst := false, perstSince := u.now, fw := .ready } }) ∧
      (¬ ((∀ k, k < 4 → k ∈ u.pci.running) ∧ u.dbg.stDone = true ∧ u.pci.fw = .starting) →
        exec (.perstDeassert now) s = .next { u with pci := { u.pci with perst := false, perstSince := u.now } })) ∧
    (u.pci.perst = false → exec (.perstDeassert now) s = .next u) ∧
    (∀ speed width flit, s.pci.perst = false → s.site.locked = true → s.resets.remove ≠ .safe → exec (.linkTrained speed width flit) s = .next { s with pci := { s.pci with
      speed := min speed s.site.pcieGen, width := min width s.site.pcieWidth, flit := flit || decide (min speed s.site.pcieGen = 6) } }) ∧
    (∀ speed width flit, s.pci.perst = true ∨ s.site.locked = false ∨ s.resets.remove = .safe → exec (.linkTrained speed width flit) s = .next s) ∧
    (u.pci.fw = .starting → u.pci.perst = false → u.pci.perstSince + 1000000000 ≤ u.now → 0 ∈ u.pci.running → 1 ∉ u.pci.running → 2 ∉ u.pci.running → 3 ∉ u.pci.running →
      exec (.gatekeeperOnly now) s = .next { u with pci := { u.pci with fw := .gatekeeperOnly } })

/-! ### The Governor (16_governor R438 to R466) -/

/-- A THERMAL record leaves only when none of its reason has left in the last 100 ms, the Governor runs and the main rails are up; the word says
the reason, the die, the value and the time in ms (R466). -/
def ThermalRuns : Prop :=
  ∀ (s : State) (reason die value : Nat), reason < 16 → die < 8 → value < 65536 →
    (3 ∈ s.pci.running → s.power.rails = true → (∀ t, tblFind reason s.gov.said = some t → t + 100000000 ≤ s.now) →
      s.thermal reason die value = ({ s with gov := { s.gov with said := tblSet reason s.now s.gov.said } } : State).event 2 (reason + 2 ^ 4 * die + 2 ^ 16 * value + 2 ^ 32 * (s.now / 1000000 % 2 ^ 32))) ∧
    (3 ∉ s.pci.running ∨ s.power.rails = false ∨ (∃ t, tblFind reason s.gov.said = some t ∧ s.now < t + 100000000) → s.thermal reason die value = s)

/-- The dies' clocks take these levels from their next cycle boundary on (R446). -/
def Stretched (u t : State) : Prop := t.dies = u.dies.map (fun p => (p.1, { p.2 with target := t.gov.level p.1 }))

/-- What a control period samples: powers, voltages, currents, the buffer's energy, and the temperatures of the hub and the dies, held inside
their fields (R451, R462, R463). -/
def Sampled (x : Samples) (g : Governor) : Prop :=
  g.pIn = roundReg 65535 ((x.vIn * x.iIn : Nat) / 2500) ∧ g.vBus = x.vBus % 65536 ∧ g.vIn = x.vIn % 65536 ∧ g.iIn = x.iIn % 65536 ∧
  g.eBuf = roundReg 65535 (((x.vBus * x.vBus - 4200 * 4200) * 87 : Nat) / 100000) ∧ g.hubTj = x.hubTj % 4096 ∧
  ∀ d, d < 4 → (g.die d).pMeas = x.rail.getD d 0 % 65536 ∧ (g.die d).tjMeas = x.tj.getD d 0 % 4096

/-- CONTROL_PERIOD: nothing happens before a millisecond has passed since the last one, or while the Governor does not run. Then the samples
stand, a committed ceiling is in force, the effort lies between 0 and 1, a reading below 51.6 V limits the input, and every die's clock is
to take its effective level (R440 to R442, R446, R451, R457, R459, R462). -/
def ControlPeriodRuns : Prop :=
  ∀ (now : Nat) (x : Samples) (s : State),
    let u := s.advanceTo now
    ((∃ t, u.gov.periodAt = some t ∧ u.now < t + 1000000) ∨ 3 ∉ u.pci.running → exec (.controlPeriod now x) s = .next u) ∧
    ((∀ t, u.gov.periodAt = some t → t + 1000000 ≤ u.now) → 3 ∈ u.pci.running →
      ∃ t, exec (.controlPeriod now x) s = .next t ∧ t.gov.periodAt = some u.now ∧ t.gov.running = true ∧ Sampled x t.gov ∧ t.gov.commit = none ∧
        (∀ c, u.gov.commit = some c → t.gov.sustW = c.1 ∧ t.gov.excW = c.2) ∧ (u.gov.commit = none → t.gov.sustW = u.gov.sustW ∧ t.gov.excW = u.gov.excW) ∧
        t.gov.inputLimit = decide (x.vIn % 65536 < 5160) ∧ 0 ≤ t.gov.effort ∧ t.gov.effort ≤ 1 ∧ t.gov.trips = u.gov.trips ∧ t.gov.sense = false ∧ Stretched u t ∧
        t = { u with gov := t.gov, dies := t.dies, pci := t.pci, host := t.host, dbg := t.dbg })

/-- FAN_FAULT: a fan below its threshold for 2 s is faulty, and every other fitted fan that is not faulty turns at full duty in AIR and
COLDPLATE; before that nothing happens (R453). -/
def FanFaultRuns : Prop :=
  ∀ (fan now : Nat) (s : State), fan < 6 →
    let u := s.advanceTo now
    (((u.gov.fan fan).low = none ∨ (∃ t, (u.gov.fan fan).low = some t ∧ u.now < t + 2000000000) ∨ (u.gov.fan fan).fault = true ∨ 3 ∉ u.pci.running) →
      exec (.fanFault fan now) s = .next u) ∧
    (∀ t0, (u.gov.fan fan).low = some t0 → t0 + 2000000000 ≤ u.now → (u.gov.fan fan).fault = false → 3 ∈ u.pci.running →
      ∃ t, exec (.fanFault fan now) s = .next (State.thermalFree t 3) ∧ (t.gov.fan fan).fault = true ∧ (t.gov.fan fan).rpm = (u.gov.fan fan).rpm ∧
        (∀ f, f < 6 → f ≠ fan → (t.gov.fan f).fault = (u.gov.fan f).fault ∧ (bitOf u.site.acts.fanMask f = true → u.site.cls ≠ 2 → (u.gov.fan f).fault = false → (t.gov.fan f).duty = 100)) ∧
        t = { u with gov := { u.gov with fans := t.gov.fans, pump := t.gov.pump, valve := t.gov.valve } })

/-- FLOW_FAULT: a flow below its minimum for 1 s in COLDPLATE puts pump and valve at full demand; no level changes (R453). -/
def FlowFaultRuns : Prop :=
  ∀ (now : Nat) (s : State),
    let u := s.advanceTo now
    ((u.gov.flowLow = none ∨ (∃ t, u.gov.flowLow = some t ∧ u.now < t + 1000000000) ∨ u.gov.flowFault = true ∨ 3 ∉ u.pci.running) → exec (.flowFault now) s = .next u) ∧
    (∀ t0, u.gov.flowLow = some t0 → t0 + 1000000000 ≤ u.now → u.gov.flowFault = false → 3 ∈ u.pci.running →
      ∃ t, exec (.flowFault now) s = .next (State.thermalFree t 4) ∧ t.gov.flowFault = true ∧
        (u.site.cls = 1 → t.gov.pump = (if u.site.acts.pumpEn then 100 else 0) ∧ t.gov.valve = (if u.site.acts.valveEn then 100 else 0)) ∧
        t = { u with gov := { u.gov with flowFault := true, fans := t.gov.fans, pump := t.gov.pump, valve := t.gov.valve } })

/-- MODEL_MISMATCH: after 200 periods with an error above 8 K the model starts again from the measured temperatures, and the trim may move more
widely; MODEL_MISMATCH_CLEAR: after 10,000 periods with errors below 4 K both end (R460). -/
def MismatchRuns : Prop :=
  ∀ (now : Nat) (s : State),
    let u := s.advanceTo now
    (u.gov.badRun < 200 ∨ 3 ∉ u.pci.running → exec (.modelMismatch now) s = .next u) ∧
    (200 ≤ u.gov.badRun → 3 ∈ u.pci.running → ∃ t, exec (.modelMismatch now) s = .next t ∧
      t.gov.mismatch = true ∧ t.gov.wide = true ∧ t.gov.badRun = 0 ∧ t.gov.goodRun = 0 ∧ (∀ d, d < 4 → (t.gov.die d).tjPred = ((u.gov.die d).tjMeas : Rat) / 8) ∧
      (∀ d, t.gov.level d = u.gov.level d) ∧ t = { u with gov := t.gov, pci := t.pci, host := t.host, dbg := t.dbg }) ∧
    (s.gov.mismatch = true → 10000 ≤ s.gov.goodRun → 3 ∈ s.pci.running → exec .modelMismatchClear s = .next { s with gov := { s.gov with mismatch := false, wide := false } }) ∧
    (s.gov.mismatch = false ∨ s.gov.goodRun < 10000 ∨ 3 ∉ s.pci.running → exec .modelMismatchClear s = .next s)

/-- FORECAST_PUBLISH: every 10 ms the forecast's SEQ rises by 2 with its 32 entries, which are the measured input while no bench is placed (R461, R464). -/
def ForecastRuns : Prop :=
  ∀ (now : Nat) (s : State),
    let u := s.advanceTo now
    ((∃ t, u.gov.pubAt = some t ∧ u.now < t + 10000000) ∨ 3 ∉ u.pci.running → exec (.forecastPublish now) s = .next u) ∧
    ((∀ t, u.gov.pubAt = some t → t + 10000000 ≤ u.now) → 3 ∈ u.pci.running → ∃ t, exec (.forecastPublish now) s = .next t ∧
      t.gov.forecast.seq = (u.gov.forecast.seq + 2) % 2 ^ 32 ∧ t.gov.forecast.t0 = u.half / 2000000 % 2 ^ 32 ∧ t.gov.forecast.pNow = roundReg 65535 ((u.gov.pIn : Rat) / 4) ∧
      t.gov.forecast.entries.length = 32 ∧ ((∀ p ∈ u.ctxs, p.2.state ≠ .placed) → ∀ e ∈ t.gov.forecast.entries, e = t.gov.forecast.pNow) ∧
      t = { u with gov := { u.gov with pubAt := some u.now, forecast := t.gov.forecast } })

/-- CEILING_COMMIT commits the staged ceilings for the next control period (R462); the requests of channel 3 answer the Governor's words (R465). -/
def CeilingRequestsRun : Prop :=
  ∀ (s : State) (m : MailMsg) (rest : List MailMsg),
    exec .ceilingCommit s = .next { s with gov := { s.gov with commit := some (s.gov.stagedSust, s.gov.stagedExc) } } ∧
    (Asked s 3 0x40 m rest → exec .getStatus s = .next ((taken s 3 rest).reply (refOf 3 m) 0 ([0x000, 0x00C, 0x010, 0x014, 0x044, 0x054, 0x064, 0x074, 0x080, 0x200].map (taken s 3 rest).govWord))) ∧
    (Asked s 3 0x41 m rest → m.arg 1 ≤ 1 → exec .getForecast s = .next ((taken s 3 rest).reply (refOf 3 m) 0
      ([0x100, 0x104, 0x108].map (taken s 3 rest).govWord ++ (List.range 8).map (fun j => (taken s 3 rest).govWord (0x110 + 4 * (8 * m.arg 1 + j)))))) ∧
    (Asked s 3 0x41 m rest → 1 < m.arg 1 → exec .getForecast s = .next ((taken s 3 rest).reply (refOf 3 m) 3 []))

/-- TRIP_105: a sensor at or above 105 °C of a die (4: the hub) whose trip is not held raises the effective level of that die, or of every die, to
at least 8, sets T105 and counts it; below that, with the trip held, or with the rails down, nothing happens (R446, R447, R449). -/
def TripHotRuns : Prop :=
  ∀ (die x now : Nat) (s : State), die < 5 →
    let u := s.advanceTo now
    let held := if die = 4 then u.gov.tripHub else (u.gov.die die).trip
    (x < 840 ∨ held = true ∨ u.power.rails = false → exec (.tripHot die x now) s = .next u) ∧
    (840 ≤ x → held = false → u.power.rails = true → ∃ t, exec (.tripHot die x now) s = .next (State.thermal t 0 die x) ∧
      t.gov.trips = { u.gov.trips with t105 := true, t105Count := satAdd 0xFFFF u.gov.trips.t105Count 1 } ∧
      (∀ d, d < 4 → (d = die ∨ die = 4) → 8 ≤ t.gov.level d) ∧ (∀ d, d ≠ die → die ≠ 4 → t.gov.level d = u.gov.level d) ∧ Stretched u t ∧
      t = { u with gov := { u.gov with trips := t.gov.trips, tripHub := t.gov.tripHub, dies := t.gov.dies }, dies := t.dies, dbg := t.dbg })

/-- TRIP_105_RELEASE below 100 °C; BUS_TRIP at 42.0 V and below raises every die's level to at least 8; BUS_TRIP_RELEASE at 45.0 V (R449). -/
def TripReleasesRun : Prop :=
  ∀ (die x now cv : Nat) (s : State), die < 5 →
    let u := s.advanceTo now
    let held := if die = 4 then u.gov.tripHub else (u.gov.die die).trip
    (800 ≤ x ∨ held = false → exec (.tripHotRelease die x now) s = .next u) ∧
    (x < 800 → held = true → ∃ t, exec (.tripHotRelease die x now) s = .next (State.thermal t 1 die x) ∧
      (if die = 4 then t.gov.tripHub else (t.gov.die die).trip) = false ∧ Stretched u t ∧ t = { u with gov := { u.gov with tripHub := t.gov.tripHub, dies := t.gov.dies }, dies := t.dies }) ∧
    (cv ≤ 4200 → u.gov.tripBus = false → u.power.rails = true → ∃ t, exec (.busTrip cv now) s = .next (State.thermalFree t 2) ∧
      t.gov = { u.gov with tripBus := true, trips := { u.gov.trips with bus42 := true } } ∧ (∀ d, 8 ≤ t.gov.level d) ∧ Stretched u t ∧ t = { u with gov := t.gov, dies := t.dies, dbg := t.dbg }) ∧
    (4200 < cv ∨ u.gov.tripBus = true ∨ u.power.rails = false → exec (.busTrip cv now) s = .next u) ∧
    (4500 ≤ cv → s.gov.tripBus = true → ∃ t, exec (.busTripRelease cv) s = .next t ∧ t.gov = { s.gov with tripBus := false } ∧ Stretched s t ∧ t = { s with gov := t.gov, dies := t.dies }) ∧
    (cv < 4500 ∨ s.gov.tripBus = false → exec (.busTripRelease cv) s = .next s)

/-- SHUTDOWN at 115 °C or at 38.0 V: the input stage and every rail but standby are off and latched so, with the cause in GOV_TRIP; contexts, cores, far
memory and links are gone, the Gatekeeper and the Governor keep running, and host memory, the site, firmware and owners stay (R449, R450). -/
def ShutdownRuns : Prop :=
  ∀ (bus : Bool) (die x : Nat) (s : State), die < 5 →
    ((if bus then 3800 < x else x < 920) ∨ s.power.latched = true ∨ s.power.rails = false → exec (.shutdown bus die x) s = .next s) ∧
    (¬ (if bus then 3800 < x else x < 920) → s.power.latched = false → s.power.rails = true → ∃ t, exec (.shutdown bus die x) s = .next t ∧
      t.power = { s.power with stage := false, rails := false, latched := true } ∧
      t.gov = { s.gov with trips := { s.gov.trips with shutdown := true, shutBus := bus, shutDie := if bus then 0 else die } } ∧
      t.dies = [] ∧ t.cores = [] ∧ t.ctxs = [] ∧ t.net = {} ∧ t.hub = {} ∧ t.fman = {} ∧ t.rings = [] ∧ t.dbg = {} ∧ t.far.mem = [] ∧ t.far.chans = [] ∧
      (∀ k, k ∈ t.pci.running ↔ k ∈ s.pci.running ∧ (k = 0 ∨ k = 3)) ∧ t.pci.speed = 0 ∧ t.pci.ready = false ∧ t.links.ports = [] ∧ t.links.src = [] ∧ t.links.dst = [] ∧
      t = { s with power := t.power, gov := t.gov, dies := [], cores := [], ctxs := [], net := {}, hub := {}, fman := {}, rings := [], dbg := {}, far := t.far, pci := t.pci, links := t.links })

/-- The input stage: BREACH counts at 52.0 V; it turns off above 59.0 V and below 46.0 V, and on again below 58.0 V, never latched or SAFE (R441; 20_electrical
R538 to R540; 18_clocks_reset R505). -/
def InputRuns : Prop :=
  ∀ (cv : Nat) (s : State),
    (5200 ≤ cv → exec (.breach cv) s = .next { s with gov := { s.gov with breach := satAdd 0xFFFFFFFF s.gov.breach 1 } }) ∧ (cv < 5200 → exec (.breach cv) s = .next s) ∧
    (5900 < cv → exec (.inputOvervoltage cv) s = .next { s with power := { s.power with inputCv := cv, stage := false } }) ∧ (cv ≤ 5900 → exec (.inputOvervoltage cv) s = .next s) ∧
    (cv < 4600 → exec (.inputLoss cv) s = .next { s with power := { s.power with inputCv := cv, stage := false } }) ∧ (4600 ≤ cv → exec (.inputLoss cv) s = .next s) ∧
    (4800 ≤ cv → cv < 5800 → s.power.standby = true → s.power.latched = false → s.resets.remove ≠ .safe →
      exec (.inputRestart cv) s = .next { s with power := { s.power with inputCv := cv, stage := true } }) ∧
    (cv < 4800 ∨ 5800 ≤ cv ∨ s.power.standby = false ∨ s.power.latched = true ∨ s.resets.remove = .safe → exec (.inputRestart cv) s = .next s) ∧
    (4800 ≤ cv → cv ≤ 5900 → s.power.standby = true → s.power.latched = false → s.resets.remove ≠ .safe →
      exec (.inputApplied cv) s = .next { s with power := { s.power with inputCv := cv, stage := true } }) ∧
    (cv < 4800 ∨ 5900 < cv ∨ s.power.standby = false ∨ s.power.latched = true ∨ s.resets.remove = .safe →
      exec (.inputApplied cv) s = .next { s with power := { s.power with inputCv := cv } })

/-- AUX_POWER_LOSS: standby power falls, and everything is at its reset value but for the owners' keys and rollback, the firmware slots' bytes, host
memory, the commands that wait, and the pins (20_electrical R540). -/
def AuxPowerLossRuns : Prop :=
  ∀ (s : State), ∃ t, exec .auxPowerLoss s = .next t ∧
    t.host = s.host ∧ t.trust.owners = s.trust.owners ∧ t.trust.rollback = s.trust.rollback ∧ t.trust.a.bytes = s.trust.a.bytes ∧ t.trust.b.bytes = s.trust.b.bytes ∧
    t.pci.perst = s.pci.perst ∧ t.power = { inputCv := s.power.inputCv } ∧ t.resets = { removeReq := s.resets.removeReq } ∧ t.gov = State.reset.gov ∧
    t = { State.reset with pending := s.pending, host := s.host, draws := s.draws, trust := t.trust, pci := { State.reset.pci with perst := s.pci.perst }, power := t.power, resets := t.resets }

/-! ### The Gatekeeper: firmware, owners, attestation, SMBus (17_site_trust R472 to R495) -/

/-- The module with other trust state, once the request has been taken. -/
def trustWith (s : State) (rest : List MailMsg) (u : Trust) : State := { taken s 0 rest with trust := u }

/-- FW_BEGIN: the slot that does not run loses its header, is invalid, and an update of it is open; the other slot keeps every byte.
A slot above 1, the running slot and a second update are refused, in this order (R485, R489). -/
def FwBeginRuns : Prop :=
  ∀ (s : State) (m : MailMsg) (rest : List MailMsg), Asked s 0 0x10 m rest →
    let i := m.arg 1
    let no := fun (st : Nat) => exec .fwBegin s = .next ((taken s 0 rest).reply (refOf 0 m) st [])
    (1 < i → no 3) ∧ (i ≤ 1 → i = s.trust.running → no 2) ∧ (i ≤ 1 → i ≠ s.trust.running → s.trust.update ≠ none → no 1) ∧
    (i ≤ 1 → i ≠ s.trust.running → s.trust.update = none → ∃ u, exec .fwBegin s = .next ((trustWith s rest u).reply (refOf 0 m) 0 []) ∧
      u.update = some i ∧ (u.slot i).valid = false ∧ (u.slot i).version = 0 ∧ u.slot (1 - i) = s.trust.slot (1 - i) ∧
      (∀ k, u.slotBytes i k 1 = if k < 0x220 then [0xFF] else s.trust.slotBytes i k 1) ∧ u = { s.trust with a := u.a, b := u.b, update := some i })

/-- FW_DATA: bytes of the requester's trust buffer go into the slot of the open update, and no other byte of a slot changes; without an update,
with a length of 0 or above 4,096, or past the slot's end it is refused with E_ARG (R485, R489, R490). -/
def FwDataRuns : Prop :=
  ∀ (s : State) (m : MailMsg) (rest : List MailMsg), Asked s 0 0x11 m rest →
    let off := m.arg 1
    let n := m.arg 2
    (s.trust.update = none ∨ n = 0 ∨ 4096 < n ∨ 16777216 < off + n → exec .fwData s = .next ((taken s 0 rest).reply (refOf 0 m) 3 [])) ∧
    (∀ i, i ≤ 1 → s.trust.update = some i → n ≠ 0 → n ≤ 4096 → off + n ≤ 16777216 → ∃ u, exec .fwData s = .next ((trustWith s rest u).reply (refOf 0 m) 0 []) ∧
      u.slot (1 - i) = s.trust.slot (1 - i) ∧
      (∀ k, u.slotBytes i k 1 = if off ≤ k ∧ k < off + n then [memRead (s.trust.buf m.sender) (k - off)] else s.trust.slotBytes i k 1) ∧
      u = { s.trust with a := u.a, b := u.b })

/-- What a package must say to be valid: every field as the table states, a signer and a signature that the ROM accepts, and a ROLLBACK that is
not below the counter (R482). -/
def ValidPackage (t : Trust) (i : Nat) : Prop :=
  let h := t.slotBytes i 0 0x220
  let len := leAt h 0x10 4
  h.take 4 = [0x55, 0x47, 0x46, 0x57] ∧ leAt h 4 2 = 1 ∧ (h.drop 6).take 2 = [0x41, 0x31] ∧ leAt h 0x0C 4 ≤ 63 ∧ 2048 ≤ len ∧ len ≤ 16777216 ∧ leAt h 0x14 12 = 0 ∧
  (Config.sha512 ((h.drop 0x20).take 512) = Config.romKey 0 ∨ Config.sha512 ((h.drop 0x20).take 512) = Config.romKey 1) ∧
  Config.sigOk ((h.drop 0x20).take 512) (t.slotBytes i 0 (len - 512)) (t.slotBytes i (len - 512) 512) = true ∧ t.rollback ≤ leAt h 0x0C 4

/-- FW_END: the update ends; a valid package makes the slot valid with its VERSION, ROLLBACK and LENGTH, and the reply tells the first two;
otherwise the slot is invalid and the status is E_SIG or E_ROLLBACK. Each outcome leaves a FIRMWARE record (R482, R485, R489, R492). -/
def FwEndRuns : Prop :=
  ∀ (s : State) (m : MailMsg) (rest : List MailMsg) (i : Nat), Asked s 0 0x12 m rest →
    (s.trust.update = none → exec .fwEnd s = .next ((taken s 0 rest).reply (refOf 0 m) 2 [])) ∧
    (s.trust.update = some i → i ≤ 1 →
      let h := s.trust.slotBytes i 0 0x220
      let put := fun (x : FwSlot) => ({ s.trust.setSlot i x with update := none } : Trust)
      (ValidPackage s.trust i → exec .fwEnd s = .next (((trustWith s rest (put { s.trust.slot i with valid := true, version := leAt h 8 4, rollback := leAt h 0x0C 4, length := leAt h 0x10 4 })).event 7
        (2 ^ 4 * i + 2 ^ 32 * leAt h 8 4)).reply (refOf 0 m) 0 [leAt h 8 4, leAt h 0x0C 4])) ∧
      (¬ ValidPackage s.trust i → ∃ st, (st = 4 ∨ (st = 5 ∧ leAt h 0x0C 4 < s.trust.rollback)) ∧
        exec .fwEnd s = .next (((trustWith s rest (put { s.trust.slot i with valid := false, version := 0, rollback := 0, length := 0 })).event 7 (1 + 2 ^ 4 * i)).reply (refOf 0 m) st [])))

/-- FW_COMMIT: the rollback counter rises to the ROLLBACK of the running package and never falls; a valid slot with a smaller one is invalid from
then on (R486, R489, R492). -/
def FwCommitRuns : Prop :=
  ∀ (s : State) (m : MailMsg) (rest : List MailMsg), Asked s 0 0x13 m rest →
    let r := if s.trust.running = 3 then 0 else (s.trust.slot s.trust.running).rollback
    (r ≤ s.trust.rollback → exec .fwCommit s = .next ((taken s 0 rest).reply (refOf 0 m) 0 [s.trust.rollback])) ∧
    (s.trust.rollback < r → ∃ u, exec .fwCommit s = .next (((trustWith s rest u).event 7 (3 + 2 ^ 4 * s.trust.running + 2 ^ 32 * r)).reply (refOf 0 m) 0 [r]) ∧
      u.rollback = r ∧ (∀ i, (u.slot i).valid = ((s.trust.slot i).valid && decide (r ≤ (s.trust.slot i).rollback))) ∧
      (∀ i, (u.slot i).bytes = (s.trust.slot i).bytes) ∧ u = { s.trust with rollback := r, a := u.a, b := u.b })

/-- An owner statement in the requester's trust buffer that is in order: its head, operation, reserved bytes and this module's serial (R481). -/
def OwnerForm (b : List Byte) (op : Nat) : Prop :=
  b.take 4 = [0x4F, 0x57, 0x4E, 0x4B] ∧ leAt b 4 1 = op ∧ leAt b 5 1 < 4 ∧ leAt b 6 2 = 0 ∧ (b.drop 8).take 12 = Config.serial ∧ leAt b 0x14 12 = 0 ∧ (op = 2 → leAt b 0x20 64 = 0)

/-- The signer is the ACTIVE key of a slot other than the target, and the signature verifies (R481). -/
def OwnerSigned (t : Trust) (b : List Byte) (k : Nat) : Prop :=
  let key := (b.drop 0x260).take 512
  (∃ j, j < 4 ∧ j ≠ k ∧ (tblGet {} t.owners j).state = .active ∧ (tblGet {} t.owners j).hash = Config.sha512 key) ∧ Config.sigOk key (b.take 0x60) ((b.drop 0x60).take 512) = true

/-- OWNER_PROGRAM writes a hash into an EMPTY slot, which is ACTIVE then; the signature counts unless all four slots are EMPTY (R480, R481, R492). -/
def OwnerProgramRuns : Prop :=
  ∀ (s : State) (m : MailMsg) (rest : List MailMsg), Asked s 0 0x20 m rest →
    let b := memReadN (s.trust.buf m.sender) 0 0x460
    let k := leAt b 5 1
    let own := fun (j : Nat) => tblGet ({} : OwnerSlot) s.trust.owners j
    let free := ∀ j, j < 4 → (own j).state = .empty
    let no := fun (st : Nat) => exec .ownerProgram s = .next ((taken s 0 rest).reply (refOf 0 m) st [])
    (¬ OwnerForm b 1 → no 3) ∧ (OwnerForm b 1 → (own k).state ≠ .empty → no 2) ∧ (OwnerForm b 1 → (own k).state = .empty → ¬ free → ¬ OwnerSigned s.trust b k → no 4) ∧
    (OwnerForm b 1 → (own k).state = .empty → free ∨ OwnerSigned s.trust b k →
      exec .ownerProgram s = .next (((trustWith s rest { s.trust with owners := tblSet k { state := .active, hash := (b.drop 0x20).take 64 } s.trust.owners }).event 7 (4 + 2 ^ 32 * k)).reply (refOf 0 m) 0 []))

/-- OWNER_REVOKE makes an ACTIVE slot REVOKED and keeps its hash; the last ACTIVE slot cannot be revoked (R480, R481, R492). -/
def OwnerRevokeRuns : Prop :=
  ∀ (s : State) (m : MailMsg) (rest : List MailMsg), Asked s 0 0x21 m rest →
    let b := memReadN (s.trust.buf m.sender) 0 0x460
    let k := leAt b 5 1
    let own := fun (j : Nat) => tblGet ({} : OwnerSlot) s.trust.owners j
    let other := ∃ j, j < 4 ∧ j ≠ k ∧ (own j).state = .active
    let no := fun (st : Nat) => exec .ownerRevoke s = .next ((taken s 0 rest).reply (refOf 0 m) st [])
    (¬ OwnerForm b 2 → no 3) ∧ (OwnerForm b 2 → (own k).state ≠ .active ∨ ¬ other → no 2) ∧ (OwnerForm b 2 → (own k).state = .active → other → ¬ OwnerSigned s.trust b k → no 4) ∧
    (OwnerForm b 2 → (own k).state = .active → other → OwnerSigned s.trust b k →
      exec .ownerRevoke s = .next (((trustWith s rest { s.trust with owners := tblSet k { own k with state := .revoked } s.trust.owners }).event 7 (5 + 2 ^ 32 * k)).reply (refOf 0 m) 0 []))

/-- The bytes `bs` stand in a trust buffer from `o` on. -/
def Holds (b : Mem) (o : Nat) (bs : List Byte) : Prop := memReadN b o bs.length = bs

/-- ATTEST: the report of R488, field by field, stands in bytes 0 to 0x17F of the requester's trust buffer and its signature in the next 512; the
buffer's other bytes and everything else stay. The signature itself is a free value. -/
def AttestRuns : Prop :=
  ∀ (s : State) (m : MailMsg) (rest : List MailMsg), Asked s 0 0x40 m rest →
    let old := s.trust.buf m.sender
    let t := s.trust
    let rom := t.running = 3
    Memory.wf old = true → ∃ b : Mem, exec .attest s = .next ((trustWith s rest (t.setBuf m.sender b)).reply (refOf 0 m) 0 []) ∧
      Holds b 0 [0x41, 0x54, 0x54, 0x52] ∧ Holds b 4 [1, 0, 0x41, 0x31] ∧ Holds b 8 Config.serial ∧ Holds b 0x14 [BitVec.ofNat 8 s.site.source] ∧
      Holds b 0x15 [if s.site.source = 2 then 0xFF else BitVec.ofNat 8 s.site.keySlot] ∧ Holds b 0x16 [if rom then 0xFF else BitVec.ofNat 8 t.running, 0] ∧
      Holds b 0x18 (leBytes 4 t.version) ∧ Holds b 0x1C (leBytes 4 t.rollback) ∧ Holds b 0x20 (leBytes 8 s.now) ∧ Holds b 0x28 (zeros 24) ∧
      Holds b 0x40 (memReadN old 0 64) ∧ Holds b 0x80 (if rom then zeros 64 else digest64 (t.slotBytes t.running 0 (t.slot t.running).length)) ∧
      Holds b 0xC0 (if s.site.source = 2 then zeros 64 else digest64 s.site.image) ∧ Holds b 0x100 ((List.range 64).map (fun i => dressDigest.getD i 0)) ∧
      Holds b 0x140 (digest64 markBlock) ∧ Holds b 0x180 ((List.range 512).map (fun i => (Config.freeSignature (memReadN b 0 0x180)).getD i 0)) ∧
      ∀ a, 0x380 ≤ a → memRead b a = memRead old a

/-- GET_CERT, GET_MARK and GET_TRUST: the certificate (a free value) with its length; the mark block and, from 0x400 on, the dressing map in the
requester's buffer; the status words (R487, R489, R493, R494). An index above 2 is refused with E_ARG. -/
def GetRuns : Prop :=
  ∀ (s : State) (m : MailMsg) (rest : List MailMsg),
    let old := s.trust.buf m.sender
    let cert := (Config.freeCert (m.arg 1)).take 4096
    (Asked s 0 0x41 m rest → 2 < m.arg 1 → exec .getCert s = .next ((taken s 0 rest).reply (refOf 0 m) 3 [])) ∧
    (Asked s 0 0x41 m rest → m.arg 1 ≤ 2 → Memory.wf old = true → ∃ b, exec .getCert s = .next ((trustWith s rest (s.trust.setBuf m.sender b)).reply (refOf 0 m) 0 [cert.length]) ∧
      Holds b 0 cert ∧ ∀ a, cert.length ≤ a → memRead b a = memRead old a) ∧
    (Asked s 0 0x42 m rest → Memory.wf old = true → ∃ b, exec .getMark s = .next ((trustWith s rest (s.trust.setBuf m.sender b)).reply (refOf 0 m) 0 []) ∧
      Holds b 0 markBlock ∧ Holds b 0x400 dressBlock ∧ ∀ a, 0xA00 ≤ a → memRead b a = memRead old a) ∧
    (Asked s 0 0x43 m rest → exec .getTrust s = .next ((taken s 0 rest).reply (refOf 0 m) 0 [s.site.statusWord, s.site.seq, s.trust.statusWord]))

/-- FALLBACK: once at a power-up the ROM restarts from the other slot, if that is valid, and holds the FIRMWARE record of reason 2 until the event queue
is enabled; otherwise only the ROM serves channel 0 (R483, R484, R492). -/
def FallbackRuns : Prop :=
  ∀ (s : State),
    let o := 1 - s.trust.running
    (s.trust.running = 3 → exec .fallback s = .next s) ∧
    (s.trust.running ≤ 1 → (s.trust.slot o).valid = false ∨ s.trust.restarted = true →
      exec .fallback s = .next { s with trust := { s.trust with running := 3, version := 0 }, pci := { s.pci with running := [0] } }) ∧
    (s.trust.running ≤ 1 → (s.trust.slot o).valid = true → s.trust.restarted = false → s.pci.evq.inForce.enable = false →
      exec .fallback s = .next { s with trust := { s.trust with running := o, version := (s.trust.slot o).version, fallback := true, restarted := true },
                                        dbg := { s.dbg with held := s.dbg.held ++ [(7, 2 + 2 ^ 4 * o + 2 ^ 32 * (s.trust.slot o).version)] } })

/-- The SMBus target: a transaction with a wrong Packet Error Code changes nothing, and neither does one but STATUS before the Gatekeeper or the ROM serves
(R491). -/
def SmbusRefuses : Prop :=
  ∀ (s : State) (pec : Bool) (ch off : Nat) (ws : List W32) (bs : List Byte), pec = false ∨ s.power.standby = false ∨ 0 ∉ s.pci.running →
    exec (.mbSend pec ch ws) s = .next s ∧ (ch < 4 → exec (.mbRecv pec ch) s = .next s) ∧ exec (.bufSeek pec off) s = .next s ∧ exec (.bufRead pec) s = .next s ∧
    exec (.bufWrite pec bs) s = .next s ∧ (pec = false ∨ s.power.standby = false → exec (.status pec) s = .next s)

/-- The SMBus target serves: MB_SEND queues a message with stamp SMBUS, MB_RECV takes the oldest SMBUS reply, the buffer is read and written 32 bytes at a
time at an offset that wraps, and STATUS tells the states (R491). -/
def SmbusRuns : Prop :=
  ∀ (s : State), s.power.standby = true → 0 ∈ s.pci.running →
    let u := s.trust
    let put := fun (t : Trust) => ({ s with trust := t } : State)
    let next := if u.seek + 32 > 4064 then 0 else u.seek + 32
    (∀ ch (ws : List W32), ws.length = 16 → exec (.mbSend true ch ws) s = .next (s.mailIn (min ch 3) 1 ws)) ∧
    (∀ ch, ch < 4 → tblGet [] (s.pci.chan ch).replies 1 = [] → exec (.mbRecv true ch) s = .next (put { u with smbusOut := [] })) ∧
    (∀ ch m rest, ch < 4 → tblGet [] (s.pci.chan ch).replies 1 = m :: rest →
      exec (.mbRecv true ch) s = .next { withChan s ch { s.pci.chan ch with replies := tblSet 1 rest (s.pci.chan ch).replies } with
        trust := { u with smbusOut := leBytes 4 (m.sender + 2 ^ 16 * m.seq) ++ m.words.flatMap (fun w => leBytes 4 w.toNat) } }) ∧
    (∀ off, exec (.bufSeek true off) s = .next (put { u with seek := min 4064 (off / 32 * 32) })) ∧
    exec (.bufRead true) s = .next (put { u with smbusOut := memReadN u.smbusBuf u.seek 32, seek := next }) ∧
    (∀ bs, bs ≠ [] → bs.length ≤ 32 → exec (.bufWrite true bs) s = .next (put { u with smbusBuf := memWriteN u.smbusBuf u.seek bs, seek := next })) ∧
    (∀ bs, bs = [] ∨ 32 < bs.length → exec (.bufWrite true bs) s = .next s) ∧
    exec (.status true) s = .next (put { u with smbusOut := leBytes 2 (s.pci.fw.code + 4 * s.site.source + 16 * boolN s.site.locked + 32 * boolN u.fallback) })

/-! ### The site image, resets and power-up (17_site_trust R469 to R479; 14_host R397; 18_clocks_reset R500 to R507) -/

/-- A copy of the site image that is in order: head, length, records that fit, an owner key whose slot is ACTIVE, and its signature (R469 to R471). -/
def ValidCopy (t : Trust) (img : List Byte) : Prop :=
  let len := leAt img 8 4
  let slot := tblGet ({} : OwnerSlot) t.owners (leAt img 6 1)
  leAt img 0 4 = 0x45544953 ∧ leAt img 4 2 = 1 ∧ leAt img 7 1 = 0 ∧ leAt img 0x10 16 = 0 ∧ 1060 ≤ len ∧ len ≤ 65536 ∧ len % 4 = 0 ∧ len ≤ img.length ∧
  ∃ key rs, siteRecords 16384 ((img.drop 0x20).take (len - 512 - 0x20)) = some ((1, key) :: rs) ∧ key.length = 512 ∧ slot.state = .active ∧ slot.hash = Config.sha512 key ∧
    Config.sigOk key (img.take (len - 512)) ((img.drop (len - 512)).take 512) = true

/-- The effective values that the records `rs` give a module with these SLOT_ID pins: each supplied value inside its clamp, each absent one at its
default (R438, R439, R475; 08_far R244). -/
def Sited (rs : Tbl (List Byte)) (u : State) : Prop :=
  let f := siteField rs
  let x := u.site
  let cls := match f 0x10 0 1 with | some c => if c ≤ 2 then c else 0 | none => 0
  let top := if cls = 0 then 1100 else 1600
  x.cls = cls ∧ x.sustW = max 600 (min top ((f 0x11 0 2).getD top)) ∧ x.excW = (if cls = 2 then max x.sustW (min 1900 ((f 0x11 2 2).getD 1900)) else 0) ∧
  x.excMs = (if cls = 2 ∧ x.excW ≠ x.sustW then min 250 ((f 0x11 4 2).getD 250) else 0) ∧ x.ramp = max 1 (min 40 ((f 0x12 0 1).getD 20)) ∧ x.tjTarget = max 60 (min 95 ((f 0x12 1 1).getD 85)) ∧
  x.pcieGen = max 1 (min 6 ((f 0x23 1 1).getD 6)) ∧ x.smbusAddr = (match f 0x24 0 1 with | some a => if 8 ≤ a % 128 ∧ a % 128 < 0x78 then a % 128 else 0x5A | none => 0x5A) ∧
  u.links.node = (match f 0x20 0 2 with | some n => if n = 0xFFFF then x.slotPins % 64 else n | none => x.slotPins % 64) ∧
  u.links.twin.slot = (f 0x21 0 2).getD 0 ∧ u.links.twin.enable = (decide (1 ≤ (f 0x21 2 1).getD 0) && u.links.twin.slot != u.links.node && u.links.twin.slot != 0xFFFF) ∧
  u.waitUs = (match f 0x25 0 4 with | some 0 => 2000000 | some w => min 10000000 w | none => 2000000) ∧
  u.far.localUnits = min 31 ((f 0x26 0 1).getD 4) ∧ u.far.defaultLocal = (decide (1 ≤ (f 0x26 1 1).getD 0) && u.far.localUnits != 0)

/-- SITE_IMAGE_APPLY: the valid copy with the larger SEQUENCE counts, copy 0 on a tie; its records' effective values are locked in, the ceilings and ports follow
them, and the other control cores start. With no valid copy the module is unsited: AIR at 600 W, every port and the twin disabled, its node from the pins (R472, R473,
R475, R476). A removal that waits may begin then. -/
def SiteApplyRuns : Prop :=
  ∀ (a b : List Byte) (both : Bool) (s : State),
    let va := ValidCopy s.trust a
    let vb := both = true ∧ ValidCopy s.trust b
    let run := fun (src : Nat) (rs : Tbl (List Byte)) (w : Nat) => ∃ u, exec (.siteImageApply a b both) s = .next (State.removalWaits u) ∧
      u.site.locked = true ∧ u.site.source = src ∧ (u.site.copy0 = true ↔ va) ∧ (u.site.copy1 = true ↔ vb) ∧ u.site.slotPins = s.site.slotPins ∧
      u.gov = { s.gov with stagedSust := u.site.sustW, stagedExc := u.site.excW, sustW := u.site.sustW, excW := u.site.excW, excLeft := u.site.excMs } ∧
      u.links.twin = { s.links.twin with slot := u.links.twin.slot, enable := u.links.twin.enable, pair := if u.links.twin.enable then .searching else .disabled } ∧
      (∀ p, p < 17 → let on := bitOf w p; u.port p = { s.port p with enable := on, state := if on then .training else .disabled }) ∧
      u.pci.running = (if s.trust.running = 3 then s.pci.running else [0, 1, 2, 3]) ∧
      u = { s with site := u.site, waitUs := u.waitUs, far := { s.far with localUnits := u.far.localUnits, defaultLocal := u.far.defaultLocal },
                   links := { s.links with node := u.links.node, ports := u.links.ports, twin := u.links.twin }, gov := u.gov, pci := u.pci, host := u.host, dbg := u.dbg } ∧
      (if src = 2 then u.site.sustW = 600 ∧ u.site.cls = 0 ∧ u.site.excW = 0 ∧ u.links.node = s.site.slotPins % 64 ∧ u.links.twin.enable = false else Sited rs u)
    let recs := fun (img : List Byte) => (siteUseful ((siteRecords 16384 ((img.drop 0x20).take (leAt img 8 4 - 512 - 0x20))).getD []) []).1
    let mask := fun (img : List Byte) => (siteField (recs img) 0x22 0 4).getD 0
    (s.site.locked = true ∨ 0 ∉ s.pci.running → exec (.siteImageApply a b both) s = .next s) ∧
    (s.site.locked = false → 0 ∈ s.pci.running →
      (va → (vb → leAt b 0x0C 4 ≤ leAt a 0x0C 4) → run 0 (recs a) (mask a)) ∧ (vb → (va → leAt a 0x0C 4 < leAt b 0x0C 4) → run 1 (recs b) (mask b)) ∧ (¬ va → ¬ vb → run 2 [] 0))

/-- What a function reset leaves: every living context begins to be killed and will be FREE, dead ones and context 0 are FREE; no request and no reply of the HOST is
left, the host's registers, MSI-X and the event queue are at their reset values, and an open firmware update is over (14_host R397; 17_site_trust R485; 18_clocks_reset R504). -/
def FunctionIsReset (s t : State) (kind : ResetKind) : Prop :=
  (t.ctx 0).state = .free ∧
  (∀ c, c ≠ 0 → let x := s.ctx c
    if x.state = .free ∨ x.state = .dead then (t.ctx c).state = .free
    else (t.ctx c).state = .killing ∧ (t.ctx c).toFree = true ∧ (x.state ≠ .killing → (t.ctx c).killing = true)) ∧
  (∀ ch, (∀ m ∈ (t.pci.chan ch).inbound, m.sender ≠ 0) ∧ (Rising (s.pci.chan ch).replies → tblGet [] (t.pci.chan ch).replies 0 = [])) ∧
  t.pci.err = {} ∧ t.pci.origin = 0 ∧ t.pci.msix = [] ∧ t.pci.pba = [] ∧ t.pci.evq = {} ∧ t.pci.dbPend = 0 ∧ t.pci.dbMask = [(1, 3), (2, 8), (3, 4)] ∧
  t.trust = { s.trust with update := none } ∧ t.resets = { s.resets with last := kind } ∧ t.site = s.site ∧ t.gov = s.gov ∧ t.power = s.power ∧ t.dies = s.dies

/-- FUNCTION_RESET acts in every state; what the host holds, the site image, the Governor and the dies' clocks stay (14_host R397; 18_clocks_reset R502). -/
def FunctionResetRuns : Prop :=
  ∀ (s : State), ∃ t, exec .functionReset s = .next t ∧ FunctionIsReset s t .function

/-- FUNCTION_RESET with no context in the table: requests and replies of the HOST are gone, every other message stays, a HOST request under way loses its reply, the
Foreman forgets its tables, and nothing else changes (14_host R397). -/
def FunctionResetEmpty : Prop :=
  ∀ (s : State), s.ctxs = [] → ∃ t, exec .functionReset s = .next t ∧
    t.pci.chans = s.pci.chans.map (fun c => (c.1, { c.2 with inbound := c.2.inbound.filter (fun m => m.sender != 0), replies := tblDrop 0 c.2.replies, args := [] })) ∧
    t.fman = { nextOrder := s.fman.nextOrder } ∧ t.trust = { s.trust with update := none } ∧
    t.links = { s.links with twin := { s.links.twin with restore := s.links.twin.restore.map (fun r => { r with req := if r.req.sender = 0 then { r.req with sender := 6 } else r.req }) } } ∧
    t = { s with pci := { s.pci with err := {}, origin := 0, msix := [], pba := [], evq := {}, dbPend := 0, dbMask := [(1, 3), (2, 8), (3, 4)], completion := none, chans := t.pci.chans },
                 fman := t.fman, trust := t.trust, links := t.links, resets := { s.resets with last := .function } }

/-- PERST_ASSERT: a function reset, and the link goes down, unless PERST# is asserted already (14_host R397; 18_clocks_reset R502, R505). -/
def PerstAssertRuns : Prop :=
  ∀ (s : State), (s.pci.perst = true → exec .perstAssert s = .next s) ∧
    (s.pci.perst = false → ∃ t, exec .perstAssert s = .next { t with pci := { t.pci with perst := true, speed := 0, width := 0, flit := false } } ∧ FunctionIsReset s t .perst)

/-- What the boot ROM runs: the valid package with the larger VERSION, A when they are equal, and itself when none is valid (17_site_trust R483, R495). -/
def Booted (s t : State) : Prop :=
  (∀ i, i ≤ 1 → ((t.trust.slot i).valid = true ↔ ValidPackage s.trust i) ∧ (t.trust.slot i).bytes = (s.trust.slot i).bytes ∧
    (ValidPackage s.trust i → (t.trust.slot i).version = leAt (s.trust.slotBytes i 0 0x220) 8 4 ∧ (t.trust.slot i).rollback = leAt (s.trust.slotBytes i 0 0x220) 0x0C 4) ∧
    (¬ ValidPackage s.trust i → (t.trust.slot i).version = 0)) ∧
  t.trust.running = (if t.trust.a.valid = true ∧ (t.trust.b.valid = true → t.trust.b.version ≤ t.trust.a.version) then 0 else if t.trust.b.valid = true then 1 else 3) ∧
  t.trust.version = (if t.trust.running = 3 then 0 else (t.trust.slot t.trust.running).version) ∧ t.trust.fallback = false ∧ t.trust.update = none ∧
  t.trust.owners = s.trust.owners ∧ t.trust.rollback = s.trust.rollback

/-- COLD_RESET: the boot ROM runs and the pins are sampled; OTP, flash, host memory and GOV_TRIP stay, and everything else is at its reset value
(17_site_trust R483; 18_clocks_reset R502 to R506). -/
def ColdResetRuns : Prop :=
  ∀ (pins : Nat) (s : State), ∃ t, exec (.coldReset pins) s = .next t ∧ Booted s t ∧
    t = { State.reset with pending := s.pending, host := s.host, draws := s.draws, trust := t.trust, gov := { State.reset.gov with trips := s.gov.trips },
                           pci := { State.reset.pci with perst := s.pci.perst, running := [0] }, site := { State.reset.site with slotPins := pins % 64 },
                           power := { standby := true, inputCv := s.power.inputCv, stage := decide (4800 ≤ s.power.inputCv ∧ s.power.inputCv ≤ 5900) },
                           resets := { last := .cold, priorShutdown := s.gov.trips.shutdown, removeReq := s.resets.removeReq } }

/-- What a warm reset leaves: contexts, dies, queues, network and hub are at their reset values, counters with them; far memory keeps its training, the site, the
self-test's results, trips and pins stay, enabled ports train again, and the firmware boots again (18_clocks_reset R502 to R504; 08_far R246). -/
def WarmlyReset (s u : State) : Prop :=
  Booted s u ∧ u.dies = [] ∧ u.net = {} ∧ u.hub = {} ∧ u.ctxs = [] ∧ u.fman = {} ∧ u.site = s.site ∧ u.power = s.power ∧
  (∀ n, let k := s.core n
    u.core n = { stFail := k.stFail, stUnit := k.stUnit, stWhere := k.stWhere, me := { degraded := k.me.degraded, badCol := k.me.badCol }, dbg := (u.core n).dbg }) ∧
  (∀ ch, u.chan ch = { trained := (s.chan ch).trained, refreshX2 := (s.chan ch).refreshX2 }) ∧
  (∀ p, u.port p = { enable := (s.port p).enable, state := if (s.port p).enable then .training else .disabled }) ∧
  u.links = { node := s.links.node, ports := u.links.ports,
              twin := { enable := s.links.twin.enable, slot := s.links.twin.slot, pair := if s.links.twin.enable then .searching else .disabled } } ∧
  u.gov.trips = s.gov.trips ∧ u.gov.sustW = s.site.sustW ∧ u.gov.effort = 1 ∧ u.gov.periodAt = none ∧
  u.resets = { s.resets with last := .warm, warmCount := min 255 (s.resets.warmCount + 1), remove := .none, cancelled := false } ∧
  u.pci.chans = [] ∧ u.pci.ready = false ∧ u.pci.speed = 0 ∧ u.pci.running = (if u.trust.running = 3 then [0] else [0, 1, 2, 3]) ∧ u.trust.hostBuf = [] ∧ u.trust.smbusBuf = []

/-- WARM_RESET needs its key, and acts then in every state; a removal that waits may begin after it (R508). With no context in the table, whose kill might write a
post-mortem record or release an object, far memory keeps every byte and all else stays (18_clocks_reset R502 to R504). -/
def WarmResetRuns : Prop :=
  ∀ (key : Nat) (s : State),
    (∀ w, key ≠ 0x5752 ∨ w = false → exec (.warmReset key w) s = .next s) ∧
    (∃ u, exec (.warmReset 0x5752 true) s = .next (State.removalWaits u) ∧ WarmlyReset s u ∧
      (s.ctxs = [] → u.far = { s.far with chans := u.far.chans } ∧
        (∀ n, (u.core n).dbg = { trace := (s.core n).dbg.trace, traceStaged := (s.core n).dbg.traceStaged, badBase := (s.core n).dbg.badBase,
                                 traceHead := (s.core n).dbg.traceHead, traceTail := (s.core n).dbg.traceTail }) ∧
        u = { s with dies := [], cores := u.cores, net := {}, hub := {}, ctxs := [], fman := {}, links := u.links, far := u.far, gov := u.gov, dbg := u.dbg, trust := u.trust, pci := u.pci, resets := u.resets }))

/-- The other steps of power-up: the main rails once the bus is precharged, a die's reset released, far memory ready and, after a cold reset, zero (18_clocks_reset R505,
R506; 08_far R557; 14_host R383, R388). -/
def PowerUpRuns : Prop :=
  ∀ (die : Nat) (s : State), die < 4 →
    (s.power.standby = true → s.power.stage = true → s.power.rails = false → s.power.latched = false → s.resets.remove ≠ .safe →
      exec .busPrechargeDone s = .next { s with power := { s.power with rails := true }, pci := if s.pci.perst then s.pci else { s.pci with perstSince := s.now } }) ∧
    (s.power.standby = false ∨ s.power.stage = false ∨ s.power.rails = true ∨ s.power.latched = true ∨ s.resets.remove = .safe → exec .busPrechargeDone s = .next s) ∧
    (s.power.rails = true → (tblGet {} s.dies die : Die).released = false → exec (.dieResetRelease die) s =
      .next { s with dies := (tblSet die { released := true } s.dies).map (fun p => (p.1, { p.2 with target := s.gov.level p.1 })) }) ∧
    (s.power.rails = false ∨ (tblGet {} s.dies die : Die).released = true → exec (.dieResetRelease die) s = .next s) ∧
    (s.power.rails = false ∨ s.pci.perst = true ∨ 1 ∉ s.pci.running ∨ s.pci.ready = true → exec .farMemoryReady s = .next s) ∧
    (s.power.rails = true → s.pci.perst = false → 1 ∈ s.pci.running → s.pci.ready = false → ∃ t, exec .farMemoryReady s = .next t ∧
      t.pci = { s.pci with ready := true } ∧ (∀ ch, ch < 96 → t.chan ch = { s.chan ch with trained := true }) ∧ t.ctx 0 = { s.ctx 0 with seq := ((s.ctx 0).seq + 2) % 2 ^ 32 } ∧
      ((∀ c ∈ s.far.chans, c.2.trained = false) → t.far.mem = [] ∧ t.far.bad = []) ∧ ((∃ c ∈ s.far.chans, c.2.trained = true) → t.far.mem = s.far.mem ∧ t.far.bad = s.far.bad) ∧
      t = { s with far := { s.far with chans := t.far.chans, mem := t.far.mem, bad := t.far.bad }, pci := t.pci, ctxs := t.ctxs })

/-- TIME_BASE_CORRECTION: 1 µs after the one before, the copies of the dies in operation stand anew, no two of them, nor one and the hub, further than 5 ns apart
(18_clocks_reset R500). Where they stand within that is free. -/
def TimeBaseRuns : Prop :=
  ∀ (s : State), (s.half < s.corrected + 2000 → exec .timeBaseCorrection s = .next s) ∧
    (s.corrected + 2000 ≤ s.half → ∃ t, exec .timeBaseCorrection s = .next t ∧ t = { s with corrected := s.half, draws := s.draws + 5, dies := t.dies } ∧
      (∀ d, d < 4 → let x : Die := tblGet {} s.dies d; let y : Die := tblGet {} t.dies d
        y = { x with skew := y.skew } ∧ (x.released = false → y = x) ∧ (x.released = true → -10 ≤ y.skew ∧ y.skew ≤ 10)) ∧
      (∀ d e, d < 4 → e < 4 → (tblGet {} s.dies d : Die).released = true → (tblGet {} s.dies e : Die).released = true → (tblGet {} t.dies d : Die).skew ≤ (tblGet {} t.dies e : Die).skew + 10))

/-! ### Removal and the far memory controllers (18_clocks_reset R508 to R510; 15_haul_twin R428; 08_far R223 to R229) -/

/-- A REMOVAL record: the new state, whether it is a cancellation, REMAINING and the time in ms (18_clocks_reset R510). -/
def removalRecord (s : State) (state : Nat) (cancelled : Bool) (remaining : Nat) : State := s.event 5 (state + 8 * boolN cancelled + 2 ^ 16 * remaining + 2 ^ 32 * (s.now / 1000000 % 2 ^ 32))

/-- Steps 2 and 3 of a removal from `v`, in which no context is SUSPENDED: HELLO with the departing flag leaves by the path there is, HOLD is set on every READY and
PLACED context, and the module is DRAINING (18_clocks_reset R508; 15_haul_twin R428). -/
def Departs (v : State) (o : Out) : Prop :=
  let v1 : State := { v with links := { v.links with twin := { v.links.twin with copy := none, departSent := true } } }
  let h := if v1.links.twin.enable = false then v1 else if (v1.port 16).state = .up then v1.sendTwin (v1.helloBody true) else v1.sendFrame v1.links.twin.slot (v1.helloBody true)
  ∃ w, o = .next (removalRecord w 2 false (v.ctxs.filter (fun p => p.2.state == .placed || p.2.state == .suspended || p.2.state == .killing)).length) ∧
    (∀ d, w.ctx d = if (v.ctx d).state = .ready ∨ (v.ctx d).state = .placed then { v.ctx d with hold := true, seq := ((v.ctx d).seq + 2) % 2 ^ 32 } else v.ctx d) ∧
    w = { h with ctxs := w.ctxs, resets := { h.resets with remove := .draining, drainSince := h.now } }

/-- REMOVE_REQ: acted on once the Foreman, Banksman and Governor run. A copy that runs while the twin is PAIRED may settle first; without one, steps 1 and 2 are passed at
once (18_clocks_reset R508, R510; 15_haul_twin R428). -/
def RemoveReqRuns : Prop :=
  ∀ (now : Nat) (s : State),
    let w := s.advanceTo now
    let u : State := { w with resets := { w.resets with removeReq := true } }
    let v : State := { u with links := { u.links with twin := { u.links.twin with departing := true } }, resets := { u.resets with drainSince := u.now, remove := .settling } }
    let manned := 1 ∈ w.pci.running ∧ 2 ∈ w.pci.running ∧ 3 ∈ w.pci.running
    (¬ manned ∨ w.resets.remove ≠ .none → exec (.removeReq now) s = .next u) ∧
    (manned → w.resets.remove = .none → w.links.twin.pair = .paired → w.links.twin.copy ≠ none → exec (.removeReq now) s = .next (removalRecord v 1 false 0)) ∧
    (manned → w.resets.remove = .none → w.links.twin.pair ≠ .paired ∨ w.links.twin.copy = none → Rising w.ctxs → (∀ p ∈ w.ctxs, p.2.state ≠ .suspended) →
      Departs (removalRecord v 1 false 0) (exec (.removeReq now) s))

/-- The later steps of a removal: step 1 ends after 2 s, or without a copy that can settle; 10 s into DRAINING every context still PLACED is killed; once no context remains
the ports are DOWN, the input stage is off and the link goes down (18_clocks_reset R508, R510; 15_haul_twin R428). -/
def RemovalStepsRun : Prop :=
  ∀ (now : Nat) (s : State),
    let u := s.advanceTo now
    let ended := u.resets.drainSince + 2000000000 ≤ u.now ∨ u.links.twin.copy = none ∨ u.links.twin.pair ≠ .paired
    let left := (u.ctxs.filter (fun p => p.2.state == .placed || p.2.state == .suspended || p.2.state == .killing)).length
    (u.resets.remove ≠ .settling ∨ ¬ ended → exec (.removalSettleTimeout now) s = .next u) ∧
    (u.resets.remove = .settling → ended → Rising u.ctxs → (∀ p ∈ u.ctxs, p.2.state ≠ .suspended) → Departs u (exec (.removalSettleTimeout now) s)) ∧
    (u.resets.remove ≠ .draining ∨ u.now < u.resets.drainSince + 10000000000 → exec (.removalDrainTimeout now) s = .next u) ∧
    (u.resets.remove = .draining → u.resets.drainSince + 10000000000 ≤ u.now → Rising u.ctxs → ∃ t, exec (.removalDrainTimeout now) s = .next t ∧
      ∀ d, if (u.ctx d).state = .placed then (t.ctx d).state = .killing ∧ (t.ctx d).killing = true else (t.ctx d).state = (u.ctx d).state ∧ (t.ctx d).killing = (u.ctx d).killing) ∧
    (u.resets.remove ≠ .draining ∨ left ≠ 0 → exec (.removalSafe now) s = .next u) ∧
    (u.resets.remove = .draining → left = 0 → ∃ t, exec (.removalSafe now) s = .next t ∧
      (∀ p, p < 17 → (u.port p).enable = true → (t.port p).state = .down ∧ (t.port p).unacked = [] ∧ (t.port p).waiting = [] ∧ (t.port p).rx = []) ∧
      (∀ p, p < 17 → (u.port p).enable = false → t.port p = u.port p) ∧ t.power = { u.power with stage := false } ∧ t.resets = { u.resets with remove := .safe } ∧
      t.pci.speed = 0 ∧ t.pci.width = 0 ∧ t = { u with links := { u.links with ports := t.links.ports }, power := t.power, resets := t.resets, pci := t.pci, host := t.host, dbg := t.dbg })

/-- REMOVE_CANCEL: before step 2 the removal is cancelled, with its record; from step 2 on it goes on (18_clocks_reset R509, R510). -/
def RemoveCancelRuns : Prop :=
  ∀ (now : Nat) (s : State),
    let w := s.advanceTo now
    let u : State := { w with resets := { w.resets with removeReq := false } }
    (w.resets.remove ≠ .settling → exec (.removeCancel now) s = .next u) ∧
    (w.resets.remove = .settling → exec (.removeCancel now) s =
      .next (removalRecord { u with links := { u.links with twin := { u.links.twin with departing := false } }, resets := { u.resets with remove := .none, cancelled := true } } 0 true 0))

/-- SCRUB of a trained channel: a block without an error changes nothing; a corrected error is counted and recorded with SCRUB set, and the block is right again; an
uncorrectable one is counted and recorded and stays (08_far R223, R224). REFRESH_RATE_POLL sets the four channels of a controller, WCK_RETUNE one channel (08_far R226, R229). -/
def FarControllersRun : Prop :=
  ∀ (s : State) (ch block k : Nat) (hot run : Bool), ch < 96 → block < 2 ^ 27 → k < 24 →
    let b := 2 ^ 27 * ch + block
    ((s.chan ch).trained = false ∨ tblFind b s.far.bad = none → exec (.scrub ch block) s = .next s) ∧
    ((s.chan ch).trained = true → tblFind b s.far.bad = some false →
      let c := { s.chan ch with ceCount := min 0xFFFFFFFF ((s.chan ch).ceCount + 1) }
      exec (.scrub ch block) s = .next { s with far := { s.far with bad := tblDrop b s.far.bad, chans := tblSet ch (if c.valid = true ∧ c.ue = true then c else { c with block := block, ue := false, scrub := true, valid := true }) s.far.chans } }) ∧
    ((s.chan ch).trained = true → tblFind b s.far.bad = some true →
      exec (.scrub ch block) s = .next { s with far := { s.far with chans := tblSet ch { s.chan ch with ueCount := min 0xFFFF ((s.chan ch).ueCount + 1), block := block, ue := true, scrub := true, valid := true } s.far.chans } }) ∧
    (∃ t, exec (.refreshRatePoll k hot) s = .next t ∧ (∀ c, t.chan c = if c / 4 = k then { s.chan c with refreshX2 := hot } else s.chan c) ∧ t = { s with far := { s.far with chans := t.far.chans } }) ∧
    exec (.wckRetune ch run) s = .next { s with far := { s.far with chans := tblSet ch { s.chan ch with retune := run } s.far.chans } }

/-! ### Ports: training, retry, LINK frames, forwarding, sounding checkers (15_haul_twin R400 to R407, R415, R434, R435; 19_debug_test R529) -/

/-- `s` with one port changed; the other ports and all else stay. -/
def portTo (s : State) (p : Nat) (x : Port) : State := { s with links := { s.links with ports := tblSet p x s.links.ports } }

/-- A LINK record: the port, its new state's code, the peer's node (15_haul_twin R434). -/
def linkRecord (s : State) (p code peer : Nat) : State := s.event 3 (p + 2 ^ 5 * code + 2 ^ 16 * peer)

/-- What a port that leaves UP keeps: buffers, credits and sequence numbers start again (15_haul_twin R402). -/
def cleared (x : Port) : Port := { x with unacked := [], waiting := [], rx := [], spent := [], rounds := 0, txNext := 0, rxLast := 4095 }

/-- The state after training has started on port `p`: an enabled port discards what it held and is TRAINING, with a LINK record where its state changed; the twin
port's loss makes a PAIRED twin LINK_LOST, with a TWIN record (15_haul_twin R402, R415, R434). -/
def Trained (s : State) (p : Nat) (t : State) : Prop :=
  let x := s.port p
  let y : Port := { cleared x with fails := 0, state := .training }
  let u := if x.state = .training then portTo s p y else linkRecord (portTo s p y) p 1 x.peerNode
  (x.enable = false ∨ s.resets.remove = .safe → t = s) ∧
  (x.enable = true → s.resets.remove ≠ .safe → p ≠ 16 ∨ s.links.twin.pair ≠ .paired → t = u) ∧
  (x.enable = true → s.resets.remove ≠ .safe → p = 16 → s.links.twin.pair = .paired →
    t = State.event { u with links := { u.links with twin := { u.links.twin with pair := .linkLost } } } 4 4)

/-- TRAINING_ATTEMPT: only of an enabled port in TRAINING while the Banksman runs. A failure is counted and the third takes the port DOWN; a success takes it UP with the
peer's identity and the rate as written, and the twin port then says HELLO (15_haul_twin R402, R415, R434). -/
def TrainingRuns : Prop :=
  ∀ (s : State) (p node port : Nat) (ok : Bool) (serial : List Byte), p < 17 →
    let x := s.port p
    let e := exec (.trainingAttempt p ok node port serial) s
    (x.enable = false ∨ x.state ≠ .training ∨ 2 ∉ s.pci.running → e = .next s) ∧
    (x.enable = true → x.state = .training → 2 ∈ s.pci.running →
      (ok = false → x.fails < 2 → e = .next (portTo s p { x with fails := x.fails + 1 })) ∧
      (ok = false → 2 ≤ x.fails → e = .next (linkRecord (portTo s p { x with fails := 3, state := .down }) p 3 x.peerNode)) ∧
      (ok = true →
        let u := linkRecord (portTo s p { cleared x with fails := 0, rateActive := x.rate, peerNode := node, peerPort := port, peerSerial := serial, state := .up }) p 2 node
        e = .next (if p = 16 ∧ s.links.twin.enable = true then u.sendTwin (u.helloBody false) else u)))

/-- TRAINING_RETRY of a port that is DOWN, PORT_LEAVE_UP of a port that is UP (by retry rounds only after 16 of them) and PORT_RETRAIN start training (15_haul_twin R402, R407, R435). -/
def RetrainRuns : Prop :=
  ∀ (s : State) (p : Nat), p < 17 →
    ((s.port p).state ≠ .down → exec (.trainingRetry p) s = .next s) ∧
    ((s.port p).state = .down → ∃ t, exec (.trainingRetry p) s = .next t ∧ Trained s p t) ∧
    (∀ cause, (s.port p).state ≠ .up ∨ cause = .retryRounds ∧ (s.port p).rounds < 16 → exec (.portLeaveUp p cause) s = .next s) ∧
    (∀ cause, (s.port p).state = .up → cause ≠ .retryRounds ∨ 16 ≤ (s.port p).rounds → ∃ t, exec (.portLeaveUp p cause) s = .next t ∧ Trained s p t) ∧
    (∃ t, exec (.portRetrain p) s = .next t ∧ Trained s p t)

/-- CODEWORD_UNCORRECTABLE is counted and asks for a resend; RETRY_TIMEOUT with frames unacknowledged is a retry round; a frame that has waited more than 1 ms in a
receive buffer to be forwarded is discarded, its credit is returned and the drop is counted (15_haul_twin R400, R406, R407). -/
def PortTimesRun : Prop :=
  ∀ (s : State) (p k : Nat), p < 17 →
    let x := s.port p
    (x.state ≠ .up → exec (.codewordUncorrectable p) s = .next s) ∧
    (x.state = .up → exec (.codewordUncorrectable p) s = .next (portTo s p { x with fecUncorr := min 0xFFFFFFFF (x.fecUncorr + 1)
                                                                                    lastLink := ⟨true, x.rxLast, true, (x.rxLast + 1) % 4096, 0, 0⟩ })) ∧
    (x.state ≠ .up ∨ x.unacked = [] → exec (.retryTimeout p) s = .next s) ∧
    (x.state = .up → x.unacked ≠ [] → exec (.retryTimeout p) s =
      .next ((portTo s p { x with retry := min 0xFFFFFFFF (x.retry + 1), rounds := x.rounds + 1 }).hubCount 6 4 1)) ∧
    (x.rx[k]? = none → exec (.forwardTimeout p k) s = .next s) ∧
    (∀ at_ f, x.rx[k]? = some (at_, f) → s.now ≤ at_ + 1000000 → exec (.forwardTimeout p k) s = .next s) ∧
    (∀ at_ f, x.rx[k]? = some (at_, f) → at_ + 1000000 < s.now → exec (.forwardTimeout p k) s =
      .next (portTo s p { x with rx := x.rx.take k ++ x.rx.drop (k + 1), fwdDrop := min 0xFFFFFFFF (x.fwdDrop + 1)
                                 lastLink := ⟨true, x.rxLast, false, (x.rxLast + 1) % 4096, f.vl, frameUnits f⟩ }))

/-- LINK on a port that is UP, with no frame waiting here: the frames up to the acknowledged SEQ leave the retry buffer, the returned credits are free again, and a NACK
is a retry round (15_haul_twin R404, R405, R407). -/
def LinkRuns : Prop :=
  ∀ (s : State) (p : Nat) (h : LinkFrame), p < 17 →
    let x := s.port p
    let acked := if h.ackValid = true ∧ (∃ f ∈ x.unacked, f.seq = h.ackSeq) then (x.unacked.dropWhile (fun f => f.seq != h.ackSeq)).drop 1 else x.unacked
    let y : Port := { x with unacked := acked, rounds := if acked.length < x.unacked.length then 0 else x.rounds
                             spent := tblSet h.creditVl (tblGet 0 x.spent h.creditVl - h.creditCount) x.spent }
    (x.state ≠ .up → exec (.link p h) s = .next s) ∧
    (x.state = .up → x.waiting = [] → (∀ q, q < 17 → (s.port q).rx = []) → h.nack = false → exec (.link p h) s = .next (portTo s p y)) ∧
    (x.state = .up → x.waiting = [] → (∀ q, q < 17 → (s.port q).rx = []) → h.nack = true → exec (.link p h) s =
      .next (portTo (s.hubCount 6 4 1) p { y with retry := min 0xFFFFFFFF (y.retry + 1), rounds := y.rounds + 1 }))

/-- Frame `f` goes out on port `p` of `s`, which is UP with nothing waiting before it: with room in the retry buffer and credit on its lane it takes the next SEQ and its
credits and is kept for retry, and it is counted; without credit it waits (15_haul_twin R405, R407; 19_debug_test R518). -/
def Sends (s : State) (p : Nat) (f : Frame) (t : State) : Prop :=
  let x := s.port p
  let room := if f.vl < 4 then 4096 else if f.vl < 8 then 512 else if p ≠ 16 then 0 else if f.vl = 8 then 16384 else 256
  (x.unacked.length < 1024 → (∀ g ∈ x.unacked, g.seq ≠ x.txNext) → tblGet 0 x.spent f.vl + frameUnits f ≤ room →
    t = ((portTo s p { x with txNext := (x.txNext + 1) % 4096, unacked := x.unacked ++ [{ f with seq := x.txNext }]
                              spent := tblSet f.vl (tblGet 0 x.spent f.vl + frameUnits f) x.spent }).hubCount 6 2 1).hubCount 6 5 ((bodyBytes f.body + 63) / 64)) ∧
  (room < tblGet 0 x.spent f.vl + frameUnits f → t = portTo s p { x with waiting := [f] })

/-- The frames that this module sends: on the route to their node, or on the twin port; a node without a route to an UP port gets nothing (15_haul_twin R404 to R408). -/
def FrameSent : Prop :=
  ∀ (s : State) (p node : Nat) (b : FrameBody),
    (s.routePort node = none → s.sendFrame node b = s) ∧
    (s.routePort node = some p → (s.port p).state = .up → (s.port p).waiting = [] →
      Sends s p { vl := match bodyLane b with | .response => 4 | .mirror => 8 | .control => 9 | .request => 0
                  seq := 0, hops := 0, dst := node, src := s.links.node, good := true, body := b } (s.sendFrame node b)) ∧
    ((s.port 16).state = .up → (s.port 16).waiting = [] →
      Sends s 16 { vl := match bodyLane b with | .mirror => 8 | _ => 9
                   seq := 0, hops := 0, dst := s.links.twin.slot, src := s.links.node, good := true, body := b } (s.sendTwin b))

/-- LOCK of a checker of a sounding lane, or of a bridge under test, and LOST (19_debug_test R529, R531). -/
def LockLostRun : Prop :=
  ∀ (s : State) (p l j : Nat), p < 17 → l < 8 → j < 16 →
    let x := s.port p
    let a := tblGet ({} : SoundLane) x.sounding.lanes l
    let sounds := x.state = .sounding ∧ l < (if p = 16 then 8 else 4) ∧ bitOf x.sounding.inForce.lanes l = true
    let put := fun (b : SoundLane) => portTo s p { x with sounding := { x.sounding with lanes := tblSet l b x.sounding.lanes } }
    (sounds → x.sounding.inForce.pattern < 8 → exec (.lock false p l) s = .next (put { a with since := some (a.since.getD s.now) })) ∧
    (¬ sounds ∨ 8 ≤ x.sounding.inForce.pattern → exec (.lock false p l) s = .next s) ∧
    ((s.bridge j).busy = false → exec (.lock true j l) s = .next s) ∧
    ((s.bridge j).busy = true → exec (.lock true j l) s = .next { s with dbg := { s.dbg with bridges := tblSet j { s.bridge j with lock := true } s.dbg.bridges } }) ∧
    (a.since = none ∨ x.state ≠ .sounding → exec (.lost p l) s = .next s) ∧
    (∀ t, a.since = some t → x.state = .sounding → exec (.lost p l) s =
      .next (put { a with since := none, hasLost := true, lockedNs := a.lockedNs + (s.now - t), errors := min 0xFFFFFFFF (a.errors + 33) }))

/-! ### Frames that arrive, and claims (15_haul_twin R403 to R412, R414) -/

/-- The lane that a frame must travel on: requests on lanes 0 to 3 and responses on lanes 4 to 7, one lane up for each forwarding; mirror data on lane 8 and twin control
on lane 9, both on the twin port alone (15_haul_twin R404 to R406). -/
def OnLane (p : Nat) (f : Frame) : Prop :=
  match f.body with
  | .claim .. => f.vl = f.hops
  | .write .. => f.vl = f.hops
  | .signal .. => f.vl = f.hops
  | .claimEnd .. => f.vl = f.hops
  | .claimAck .. => f.vl = 4 + f.hops
  | .commitAck .. => f.vl = 4 + f.hops
  | .signalAck .. => f.vl = 4 + f.hops
  | .heartbeat .. => p = 16 ∧ f.vl = 9 ∨ f.vl = f.hops
  | .hello .. => p = 16 ∧ f.vl = 9 ∨ f.vl = f.hops
  | .mirrorWrite .. => p = 16 ∧ f.vl = 8
  | .mirrorAck .. => p = 16 ∧ f.vl = 9
  | .settle .. => p = 16 ∧ f.vl = 9
  | .settleAck .. => p = 16 ∧ f.vl = 9
  | .restoreReq .. => p = 16 ∧ f.vl = 9

/-- Frame `f` arrives at port `p` of `s` in order: the port is UP, the frame is good, on its lane, and has the SEQ that is due (15_haul_twin R403, R407). -/
def InOrder (s : State) (p : Nat) (f : Frame) : Prop :=
  (s.port p).state = .up ∧ f.good = true ∧ f.vl ≤ 9 ∧ f.hops ≤ 3 ∧ OnLane p f ∧ f.seq = ((s.port p).rxLast + 1) % 4096

/-- The state once frame `f` has been accepted at port `p` and its receive buffer is free again: the last SEQ accepted, and what the port tells its peer (15_haul_twin R403, R407). -/
def gotFrame (s : State) (p : Nat) (f : Frame) : State :=
  portTo s p { s.port p with rxLast := f.seq, lastLink := ⟨true, f.seq, false, (f.seq + 1) % 4096, f.vl, frameUnits f⟩ }

/-- Frame `f` arrives in order at port `p` of `s` and is for this module. -/
def ForMe (s : State) (p : Nat) (f : Frame) : Prop := p < 17 ∧ InOrder s p f ∧ (f.dst = s.links.node ∨ 8 ≤ f.vl)

/-- What happens to a frame that has no effect here: not received on a port that is not UP; counted and asked for again when it is bad or malformed; not accepted out of
order; forwarded one lane up with one more hop when it is for another node, held while its lane has no credit, and dropped after three forwardings or without a route
(15_haul_twin R400, R403 to R407). -/
def TurnedAway (s : State) (p : Nat) (f : Frame) (run : Out) : Prop :=
  let x := s.port p
  let due := (x.rxLast + 1) % 4096
  let u := gotFrame s p f
  (x.state ≠ .up → run = .next s) ∧
  (x.state = .up → f.good = false ∨ 9 < f.vl ∨ 3 < f.hops ∨ ¬ OnLane p f →
    run = .next (portTo s p { x with crcErr := min 0xFFFFFFFF (x.crcErr + 1), lastLink := ⟨true, x.rxLast, true, due, 0, 0⟩ })) ∧
  (x.state = .up → f.good = true → f.vl ≤ 9 → f.hops ≤ 3 → OnLane p f → f.seq ≠ due →
    run = .next (portTo s p { x with lastLink := ⟨true, x.rxLast, decide ((f.seq + 4096 - due) % 4096 < 2048), due, 0, 0⟩ })) ∧
  (InOrder s p f → f.dst ≠ s.links.node → f.vl < 8 → f.hops = 3 ∨ s.routePort f.dst = none →
    run = .next (portTo u p { u.port p with fwdDrop := min 0xFFFFFFFF (x.fwdDrop + 1) })) ∧
  (∀ q, InOrder s p f → f.dst ≠ s.links.node → f.vl < 8 → f.hops ≠ 3 → s.routePort f.dst = some q →
    let z := u.port q
    let g := { f with hops := f.hops + 1, vl := f.vl + 1 }
    let ready := z.state = .up ∧ z.unacked.length < 1024 ∧ (∀ h ∈ z.waiting, h.vl ≠ g.vl) ∧ tblGet 0 z.spent g.vl + frameUnits f ≤ (if g.vl < 4 then 4096 else 512)
    (ready → run = .next (portTo u q { z with txNext := (z.txNext + 1) % 4096, unacked := z.unacked ++ [{ g with seq := z.txNext }]
                                              spent := tblSet g.vl (tblGet 0 z.spent g.vl + frameUnits f) z.spent })) ∧
    (¬ ready → run = .next (portTo s p { x with rxLast := f.seq, rx := x.rx ++ [(s.now, f)], lastLink := ⟨true, f.seq, false, (f.seq + 1) % 4096, 0, 0⟩ })))

/-- The frame commands. -/
def frameCmds : List (Nat → Frame → Instr) :=
  [.claim, .claimAck, .writeFrame, .commitAck, .claimEnd, .signalFrame, .signalAck, .hello, .mirrorWrite, .mirrorAck, .settle, .settleAck, .restoreReq]

/-- Every frame command turns its frame away, or forwards it, in the same way (15_haul_twin R400, R403 to R407). -/
def FramesTurnedAway : Prop :=
  ∀ (s : State) (p now : Nat) (f : Frame), p < 17 → (∀ c ∈ frameCmds, TurnedAway s p f (exec (c p f) s)) ∧ TurnedAway (s.advanceTo now) p f (exec (.heartbeat p f now) s)

/-- GEN `new` of a frame is taken for an entry at `cur`: the same, or the one after it (15_haul_twin R414). -/
def Taken (cur new : Nat) : Prop := new = cur ∨ new = (cur + 1) % 4

/-- `s` with the entry of claim `id` from `node` changed. -/
def dstTo (s : State) (node id : Nat) (g : DstClaim → DstClaim) : State :=
  { s with links := { s.links with dst := s.links.dst.map (fun d => if d.src = node ∧ d.id = id then g d else d) } }

/-- `s` with the source's entry of claim `id` changed. -/
def srcTo (s : State) (id : Nat) (g : SrcClaim → SrcClaim) : State :=
  { s with links := { s.links with src := s.links.src.map (fun c => if c.id = id then g c else c) } }

/-- The claim may be granted: the job names a context that is not FREE, KILLING or DEAD and permits the node, and the destination lies in a window of that context
that grants the write, in far memory, its check-bit range included, or in the slab of a core of its bench (07_moves R177; 15_haul_twin R409, R410). -/
def ClaimLegal (s : State) (j : Job) (node base len : Nat) : Prop :=
  j.permits node = true ∧ (s.ctx j.ctx).state ≠ .free ∧ (s.ctx j.ctx).state ≠ .killing ∧ (s.ctx j.ctx).state ≠ .dead ∧ (s.ctx j.ctx).killing = false ∧
  (len = 0 ∨ (s.ctx j.ctx).granted .w base len = true ∧
    (base + len ≤ checkTop ∨ (∃ core off, addrClass base = .slab core off ∧ core ∈ (s.ctx j.ctx).bench ∧ off + len ≤ 0xD00000)))

/-- A CLAIM is refused, told to wait, or entered and answered OK; a claim without bytes is final at once. One sent again is answered OK again when its GEN is taken
(15_haul_twin R410, R412, R414). -/
def ClaimRuns : Prop :=
  ∀ (s : State) (p job id gen base len tid inc : Nat) (en : Bool) (f : Frame), ForMe s p f → f.body = .claim job id gen base len tid en inc →
    let u := gotFrame s p f
    let e := exec (.claim p f) s
    let answer := fun st => State.hubCount (u.sendFrame f.src (.claimAck id st)) 5 4 1
    (∀ d, s.links.dst.find? (fun d => d.src == f.src && d.id == id) = some d →
      (¬ Taken d.gen gen → e = .next u) ∧ (Taken d.gen gen → e = .next ((dstTo u f.src id (fun d => { d with gen := gen })).sendFrame f.src (.claimAck id 0)))) ∧
    (s.links.dst.find? (fun d => d.src == f.src && d.id == id) = none →
      (s.jobEntry job = none → e = .next (answer 1)) ∧
      (∀ j, s.jobEntry job = some j → ¬ ClaimLegal s j f.src base len → e = .next (answer 1)) ∧
      (∀ j, s.jobEntry job = some j → ClaimLegal s j f.src base len →
        let waits := 8192 ≤ s.links.dst.length ∨ len ≠ 0 ∧ (s.ctx j.ctx).state ≠ .placed ∧ (∃ core off, addrClass base = .slab core off)
        let d : DstClaim := { src := f.src, id := id, gen := gen, ctx := j.ctx, base := base, len := len, sigEn := en, sigTid := tid, sigInc := inc }
        let v : State := (State.sendFrame { u with links := { u.links with dst := u.links.dst ++ [d] } } f.src (.claimAck id 0)).hubCount 5 2 1
        (waits → e = .next (answer 2)) ∧ (¬ waits → e = .next (if len = 0 then v.claimFinal d 0 else v))))

/-- A claim whose bytes have all committed: its entry is final, its signal is added, or dropped and counted where its context is dead, and COMMIT_ACK with FINAL leaves
(15_haul_twin R412, R413). -/
def ClaimFinalRuns : Prop :=
  ∀ (s : State) (d : DstClaim) (idx : Nat),
    let u := dstTo s d.src d.id (fun d => { d with final := true })
    let v := if d.sigEn = false then u
      else if d.dead = true then { u with hub := { u.hub with tdrop := tblSet d.ctx (min 0xFFFFFFFF (tblGet 0 u.hub.tdrop d.ctx + 1)) u.hub.tdrop } }
      else u.remoteAdd d.ctx d.sigTid d.sigInc
    s.claimFinal d idx = v.sendFrame d.src (.commitAck d.id idx true)

/-- CLAIM_ACK. OK: the claim is answered, its record may send, and its engine goes on. WAIT: the time is noted, with a tailings entry the first time. REFUSED: the record
faults with WINDOW_FAULT and the claim is gone. Without an open claim of that id towards the node nothing happens (07_moves R208; 15_haul_twin R410). -/
def ClaimAckRuns : Prop :=
  ∀ (s : State) (p id st : Nat) (f : Frame), ForMe s p f → f.body = .claimAck id st →
    let u := gotFrame s p f
    let e := exec (.claimAck p f) s
    (s.links.src.find? (fun c => c.id == id && c.node == f.src && !c.answered) = none → e = .next u) ∧
    (∀ c, s.links.src.find? (fun c => c.id == id && c.node == f.src && !c.answered) = some c →
      (st = 0 → e = .next ((((srcTo u id (fun c => { c with answered := true, waitSince := none, progress := s.now })).claimTail c 2).modRec c.core c.eng c.rec_
        (fun r => { r with claimOk := true })).pumpMoves c.core c.eng)) ∧
      (st = 2 → e = .next (srcTo (if c.waitSince = none then u.claimTail c 1 else u) id (fun c => { c with waitSince := some s.now, progress := s.now }))) ∧
      (st ≠ 0 → st ≠ 2 →
        let v := u.flightFault c.core c.eng c.rec_ .windowFault c.base
        e = .next (State.modRec { v with links := { v.links with src := v.links.src.filter (fun c => c.id != id) } } c.core c.eng c.rec_ (fun r => { r with rejected := true }))))

/-- CLAIM_RETRY: 10 µs after a WAIT the claim is sent again (15_haul_twin R410). -/
def ClaimRetryRuns : Prop :=
  ∀ (s : State) (id : Nat),
    (s.links.src.find? (fun c => c.id == id) = none → exec (.claimRetry id) s = .next s) ∧
    (∀ c, s.links.src.find? (fun c => c.id == id) = some c →
      (c.waitSince = none → exec (.claimRetry id) s = .next s) ∧
      (∀ t, c.waitSince = some t → s.now < t + 10000 → exec (.claimRetry id) s = .next s) ∧
      (∀ t, c.waitSince = some t → t + 10000 ≤ s.now → exec (.claimRetry id) s =
        .next ((srcTo s id (fun c => { c with waitSince := some s.now, progress := s.now })).sendFrame c.node (.claim c.job c.id c.gen c.base c.len c.sigTid c.sigEn c.sigInc))))

/-- CLAIM_END frees the entry of the claim (15_haul_twin R412). -/
def ClaimEndRuns : Prop :=
  ∀ (s : State) (p id : Nat) (f : Frame), ForMe s p f → f.body = .claimEnd id → exec (.claimEnd p f) s =
    .next { gotFrame s p f with links := { (gotFrame s p f).links with dst := s.links.dst.filter (fun d => !(d.src == f.src && d.id == id)) } }

/-- A WRITE that must stay in its lane buffer: it is the next of a live claim into a slab whose context is away or whose landing buffer has no room (06_slab R154; 15_haul_twin R411). -/
def Waits (s : State) (node id idx offset : Nat) : Prop :=
  ∃ d home off, s.links.dst.find? (fun d => d.src == node && d.id == id) = some d ∧ addrClass (d.base + offset) = .slab home off ∧ idx = d.next ∧ d.dead = false ∧
    ((s.ctx d.ctx).state ≠ .placed ∨ (s.core home).slab.landRoom = false)

/-- WRITE: in REQ_IDX order; far memory commits at its controller, an uncorrectable block with a fault; the check-bit range drops it; slab memory goes through the landing buffer, a bank that is off
is a fault; a dead context's bytes are dropped; one that committed before is acknowledged again; an old GEN and an index out of order have no effect (07_moves R177; 15_haul_twin R411, R412, R414). -/
def WriteRuns : Prop :=
  ∀ (s : State) (p offset idx id gen : Nat) (data : List Byte) (f : Frame), ForMe s p f → f.body = .write offset idx id gen data →
    let u := gotFrame s p f
    let e := exec (.writeFrame p f) s
    (Waits s f.src id idx offset → e = .next (portTo s p { s.port p with rxLast := f.seq, rx := (s.port p).rx ++ [(s.now, f)], lastLink := ⟨true, f.seq, false, (f.seq + 1) % 4096, 0, 0⟩ })) ∧
    (s.links.dst.find? (fun d => d.src == f.src && d.id == id) = none → e = .next u) ∧
    (∀ d, ¬ Waits s f.src id idx offset → s.links.dst.find? (fun d => d.src == f.src && d.id == id) = some d →
      let v := dstTo u f.src id (fun d => { d with gen := gen })
      let w := dstTo v f.src id (fun d => { d with next := d.next + 1, open_ := d.open_ ++ [idx] })
      let a := d.base + offset
      (¬ Taken d.gen gen → e = .next u) ∧
      (Taken d.gen gen → d.next < idx ∨ idx < d.next ∧ idx ∈ d.open_ → e = .next v) ∧
      (Taken d.gen gen → idx < d.next → idx ∉ d.open_ → e = .next (v.sendFrame f.src (.commitAck id idx false))) ∧
      (Taken d.gen gen → idx = d.next → d.dead = true → e = .next (w.commitRemote f.src id idx data.length)) ∧
      (Taken d.gen gen → idx = d.next → d.dead = false → addrClass a = .far →
        let z := w.farWrite a data
        e = .next (State.commitRemote (if z.2 = true then z.1 else z.1.raise d.ctx { cause := .uncorrEcc, addr := a }) f.src id idx data.length)) ∧
      (Taken d.gen gen → idx = d.next → d.dead = false → addrClass a = .check → e = .next (w.commitRemote f.src id idx data.length)) ∧
      (∀ home off, Taken d.gen gen → idx = d.next → d.dead = false → addrClass a = .slab home off →
        let b := (s.core home).slab.bank (off / 512)
        (b = .draining ∨ b = .off → e = .next ((w.raise d.ctx { cause := .slabBankOff, core := home, engine := 6, addr := a }).commitRemote f.src id idx data.length)) ∧
        (b ≠ .draining → b ≠ .off → e = .next (w.modSlab home (fun b => { b with landing := b.landing ++
          [({ slab := off / 512, off := off % 512, parts := [(0, data)], ctx := d.ctx, origin := .remote d.src d.id idx } : Landing)] })))))

/-- COMMIT_ACK: the request of that index is complete; FINAL ends the claim, is answered by CLAIM_END and retires the record where its context still runs there
(07_moves R209; 15_haul_twin R411, R412). -/
def CommitAckRuns : Prop :=
  ∀ (s : State) (p id idx : Nat) (fin : Bool) (f : Frame), ForMe s p f → f.body = .commitAck id idx fin →
    let u := gotFrame s p f
    let e := exec (.commitAck p f) s
    (s.links.src.find? (fun c => c.id == id && c.node == f.src) = none → e = .next (if fin = true then u.sendFrame f.src (.claimEnd id) else u)) ∧
    (∀ c, s.links.src.find? (fun c => c.id == id && c.node == f.src) = some c →
      (fin = false → e = .next ((srcTo u id (fun c => { c with writes := c.writes.filter (fun w => w.idx != idx), progress := s.now })).completeReq c.core c.eng c.rec_ idx)) ∧
      (fin = true →
        let v := State.sendFrame { u with links := { u.links with src := u.links.src.filter (fun c => c.id != id) } } f.src (.claimEnd id)
        (((s.core c.core).mv c.eng).rec_ c.rec_ = none ∨ (s.ctx c.ctx).killing = true ∨ (s.core c.core).ctx ≠ some c.ctx → e = .next v) ∧
        (∀ r, ((s.core c.core).mv c.eng).rec_ c.rec_ = some r → (s.ctx c.ctx).killing = false → (s.core c.core).ctx = some c.ctx →
          e = .next ((v.moveRetire c.ctx c.core c.eng r).pumpMoves c.core c.eng))))

/-- A request of a claim that has committed: its index is no longer open, its bytes are counted, COMMIT_ACK leaves, and the claim is final once all its bytes have
committed (15_haul_twin R411, R412). -/
def CommitRemoteRuns : Prop :=
  ∀ (s : State) (node id idx n : Nat),
    (s.links.dst.find? (fun d => d.src == node && d.id == id) = none → s.commitRemote node id idx n = s) ∧
    (∀ d, s.links.dst.find? (fun d => d.src == node && d.id == id) = some d →
      let d' := { d with open_ := d.open_.erase idx, committed := d.committed + n }
      let u := ((dstTo s node id (fun _ => d')).sendFrame node (.commitAck id idx false)).hubCount 5 5 ((n + 63) / 64)
      s.commitRemote node id idx n = if d.len ≤ d.committed + n ∧ d.final = false then u.claimFinal d' idx else u)

/-! ### Signals between modules and their recovery (09_queues R262; 11_tallies R319; 15_haul_twin R413, R414) -/

/-- `s` with a field group of the twin changed. -/
def twinTo (s : State) (t : Twin) : State := { s with links := { s.links with twin := t } }

/-- An increment from another module: dropped and counted for a tally that has no home or a context that is being killed; sent to the home of a PLACED context; added at
the memory controller in the save area of a context that is away and has one, saturating with a fault, and with UNCORR_ECC where that delivers no value; dropped and
counted otherwise (08_far R223, R224; 11_tallies R318, R319). -/
def RemoteAddRuns : Prop :=
  ∀ (s : State) (c v n : Nat),
    let x := s.ctx c
    let drop : State := { s with hub := { s.hub with tdrop := tblSet c (min 0xFFFFFFFF (tblGet 0 s.hub.tdrop c + 1)) s.hub.tdrop } }
    let away := x.state = .suspended ∨ x.state = .ready ∧ x.preserve = true ∧ 0 < x.switches
    (x.home v = none ∨ x.killing = true ∨ x.state ≠ .placed ∧ ¬ away → s.remoteAdd c v n = drop) ∧
    (∀ h, x.home v = some h → x.killing = false → x.state = .placed →
      s.remoteAdd c v n = s.sendTally { ctx := c, vid := v, home := h, src := ⟨0xFFFF, 20⟩, act := .add n }) ∧
    (∀ h, x.home v = some h → x.killing = false → x.state ≠ .placed → away →
      let a := x.save + 4 * v
      let r := s.farRead a 4
      (s.far.bad = [] → r = (s, some (memReadN s.far.mem a 4))) ∧
      (r.2 = none → s.remoteAdd c v n = r.1.raise c { cause := .uncorrEcc, addr := a }) ∧ ∀ bs, r.2 = some bs →
      let old := ofLe bs
      let t := (r.1.farWrite a (leBytes 4 (min (old + n) 0xFFFFFFFF))).1
      (old + n < 0xFFFFFFFF → s.remoteAdd c v n = t) ∧
      (0xFFFFFFFF ≤ old + n → s.remoteAdd c v n = t.raise c { cause := .tallySat, core := if h.hub = true then 0xFFFF else h.core, engine := if h.hub = true then 4 else 6
                                                              tally := v + 2 ^ 13, home := h.code }))

/-- SIGNAL from another module: applied in SIG_ID order, with its acknowledgement, where this module has the job (for any source: the model's reading, log entry 123);
one of the 1024 before is acknowledged again; one that comes too early, or with an old GEN, has no effect on a tally (11_tallies R319; 15_haul_twin R413, R414). -/
def SignalFrameRuns : Prop :=
  ∀ (s : State) (p job tid count sig gen : Nat) (f : Frame), ForMe s p f → f.body = .signal job tid count sig gen →
    let u := gotFrame s p f
    let e := exec (.signalFrame p f) s
    let st := tblGet ({} : SigIn) s.links.sigIn f.src
    let d := (sig + 65536 - st.last) % 65536
    let put := fun last => { u with links := { u.links with sigIn := tblSet f.src ({ last := last, gen := gen } : SigIn) u.links.sigIn } }
    let v := State.sendFrame (put sig) f.src (.signalAck sig)
    (¬ Taken st.gen gen → e = .next u) ∧
    (Taken st.gen gen → d = 1 → s.jobEntry job = none → e = .next v) ∧
    (∀ j, Taken st.gen gen → d = 1 → s.jobEntry job = some j → e = .next (v.remoteAdd j.ctx tid count)) ∧
    (Taken st.gen gen → d = 0 ∨ 64512 ≤ d → e = .next (State.sendFrame (put st.last) f.src (.signalAck sig))) ∧
    (Taken st.gen gen → 1 < d → d < 64512 → e = .next (put st.last))

/-- SIGNAL_ACK: the signal no longer waits, and its record retires where its context still runs there (09_queues R262; 15_haul_twin R413). -/
def SignalAckRuns : Prop :=
  ∀ (s : State) (p sig : Nat) (f : Frame), ForMe s p f → f.body = .signalAck sig →
    let u := gotFrame s p f
    let e := exec (.signalAck p f) s
    let st := tblGet ({} : SigStream) s.links.sigOut f.src
    (st.waiting.find? (fun m => m.sigId == sig) = none → e = .next u) ∧
    (∀ m, st.waiting.find? (fun m => m.sigId == sig) = some m →
      let v : State := { u with links := { u.links with sigOut := tblSet f.src { st with waiting := st.waiting.filter (fun m => m.sigId != sig), progress := s.now } u.links.sigOut } }
      ((s.core m.core).ctx = some m.ctx → (s.ctx m.ctx).killing = false → e = .next (v.retire m.core m.eng m.rec_)) ∧
      ((s.core m.core).ctx ≠ some m.ctx ∨ (s.ctx m.ctx).killing = true → e = .next v))

/-- RESEND_TIMEOUT: 2 ms without progress on the signals to a node, or on a claim that waits for an answer or for commits, are counted, advance GEN and send again what
has not been acknowledged (15_haul_twin R414). -/
def ResendRuns : Prop :=
  ∀ (s : State) (id : Nat),
    let st := tblGet ({} : SigStream) s.links.sigOut id
    let g := (st.gen + 1) % 4
    (st.waiting = [] ∨ s.now < st.progress + 2000000 → exec (.resendTimeout true id) s = .next s) ∧
    (st.waiting ≠ [] → st.progress + 2000000 ≤ s.now → exec (.resendTimeout true id) s =
      .next (st.waiting.foldl (fun t m => t.sendFrame id (.signal m.job m.tid m.count m.sigId g))
        { s with links := { s.links with sigOut := tblSet id { st with gen := g, progress := s.now } s.links.sigOut, resends := min 0xFFFFFFFF (s.links.resends + 1) } })) ∧
    (s.links.src.find? (fun c => c.id == id) = none → exec (.resendTimeout false id) s = .next s) ∧
    (∀ c, s.links.src.find? (fun c => c.id == id) = some c →
      let idle := c.waitSince ≠ none ∨ c.answered = true ∧ c.writes = [] ∨ s.now < c.progress + 2000000
      let h := (c.gen + 1) % 4
      let u := srcTo { s with links := { s.links with resends := min 0xFFFFFFFF (s.links.resends + 1) } } id (fun c => { c with gen := h, progress := s.now })
      (idle → exec (.resendTimeout false id) s = .next s) ∧
      (¬ idle → exec (.resendTimeout false id) s =
        .next (c.writes.foldl (fun t w => t.sendFrame c.node (.write w.offset w.idx c.id h w.data))
          (if c.answered = true then u else u.sendFrame c.node (.claim c.job c.id h c.base c.len c.sigTid c.sigEn c.sigInc)))))

/-! ### Pairing and heartbeats (15_haul_twin R415, R416, R427, R428) -/

/-- The pair state after an event that names it, with the TWIN record where it changes (15_haul_twin R415, R434). -/
def pairTo (s : State) (pair : Pair) (epoch : Nat) : State :=
  if s.links.twin.pair = pair then s else State.event (twinTo s { s.links.twin with pair := pair }) 4 (pair.code + 2 ^ 32 * epoch)

/-- The shadows freeze: a running copy and push end, the copy's closes are owed again, and a RESTORE is answered E_STATE (15_haul_twin R425, R427, R430). -/
def FreezeRuns : Prop :=
  ∀ (s : State),
    let t := s.links.twin
    let drop : Twin := { t with copy := none, owed := t.owed || t.copy.isSome, uncounted := t.uncounted + (match t.copy with | some c => c.covers | none => 0)
                                frozen := t.frozen || t.sset.isSome, push := none, restore := none, rebuild := t.rebuild && t.restore.isNone }
    (t.restore = none → s.freeze = twinTo s drop) ∧ (∀ r, t.restore = some r → s.freeze = twinTo (s.reply r.req 2 []) drop)

/-- HELLO. Disabled: nothing. From a module that is not the twin, or that has another twin: MISMATCH. Departing: the shadows freeze and the pair is DEPARTED. Else the
pair is PAIRED, what the partner holds is known, and copies and pushes go on (15_haul_twin R415, R427, R428). -/
def HelloRuns : Prop :=
  ∀ (s : State) (p node slot twin flags settled a b : Nat) (serial : List Byte) (f : Frame), ForMe s p f → f.body = .hello serial node slot twin flags settled a b →
    let u := gotFrame s p f
    let e := exec (.hello p f) s
    let t := s.links.twin
    let q : Partner := { heard := true, serial := serial, mset := bitOf flags 2, sset := bitOf flags 3, settled := settled, heldA := a, heldB := b }
    (t.pair = .disabled → e = .next u) ∧
    (t.pair ≠ .disabled → node ≠ t.slot ∨ twin ≠ s.links.node → e = .next (pairTo u .mismatch 0)) ∧
    (t.pair ≠ .disabled → node = t.slot → twin = s.links.node → bitOf flags 1 = true → e = .next (pairTo (State.freeze (twinTo u { t with partner := q })) .departed 0)) ∧
    (t.pair ≠ .disabled → node = t.slot → twin = s.links.node → bitOf flags 1 = false →
      e = .next (((pairTo (twinTo u { t with partner := q, heard := s.now, heldA := if a = 0 then none else some a, heldB := if b = 0 then none else some b
                                             lastBuf := if b = t.settled ∧ b ≠ 0 then true else if a = t.settled ∧ a ≠ 0 then false else t.lastBuf }) .paired 0).resumeCopy).resumePush))

/-- HEARTBEAT of the twin, by any path; HEARTBEAT_TIMER: every 100 µs on the twin port while it is UP, and every 1 ms over haul while the twin's link is lost;
PARTNER_LOST after 10 ms without one (15_haul_twin R416, R427). -/
def HeartbeatRuns : Prop :=
  ∀ (s : State) (now p pair settled : Nat) (f : Frame),
    let w := s.advanceTo now
    let t := w.links.twin
    let b : FrameBody := .heartbeat t.pair.code t.settled
    let v := if (w.port 16).state = .up ∧ t.beat + 100000 ≤ w.now then State.sendTwin (twinTo w { t with beat := w.now }) b else w
    (ForMe w p f → f.body = .heartbeat pair settled → f.src ≠ t.slot → exec (.heartbeat p f now) s = .next (gotFrame w p f)) ∧
    (ForMe w p f → f.body = .heartbeat pair settled → f.src = t.slot →
      exec (.heartbeat p f now) s = .next (twinTo (gotFrame w p f) { t with heard := w.now, partner := { t.partner with settled := settled } })) ∧
    (t.enable = false ∨ 2 ∉ w.pci.running → exec (.heartbeatTimer now) s = .next w) ∧
    (t.enable = true → 2 ∈ w.pci.running → exec (.heartbeatTimer now) s =
      .next (if t.pair = .linkLost ∧ w.routeValid t.slot = true ∧ t.haulBeat + 1000000 ≤ w.now then State.sendFrame (twinTo v { v.links.twin with haulBeat := w.now }) t.slot b else v)) ∧
    ((t.pair ≠ .paired ∧ t.pair ≠ .linkLost) ∨ w.now < t.heard + 10000000 → exec (.partnerLost now) s = .next w) ∧
    (t.pair = .paired ∨ t.pair = .linkLost → t.heard + 10000000 ≤ w.now → exec (.partnerLost now) s = .next (pairTo w.freeze .partnerLost t.closed))

/-! ### The Banksman's requests on routes, jobs and the twin (15_haul_twin R408, R409, R417, R427, R429, R430, R432) -/

/-- ROUTE_LOAD: the entries of the list, which lies in a window of context 0, replace those from the first node on; no other entry changes. A list outside, one that
passes the table's end, and one that far memory does not deliver are refused with E_ARG and change no entry (08_far R224; 15_haul_twin R408, R432). -/
def RouteLoadRuns : Prop :=
  ∀ (s : State) (m : MailMsg) (rest : List MailMsg), Asked s 2 0x01 m rest →
    let u := taken s 2 rest
    let a := m.arg2 1
    let first := m.arg 3
    let n := m.arg 4
    let legal := first + n ≤ 65536 ∧ (s.ctx 0).farOk .r a (4 * n) = true
    let r := u.farRead a (4 * n)
    (s.far.bad = [] → r = (u, some (memReadN s.far.mem a (4 * n)))) ∧
    (¬ legal → exec .routeLoad s = .next (u.reply (refOf 2 m) 3 [])) ∧
    (legal → r.2 = none → exec .routeLoad s = .next (r.1.reply (refOf 2 m) 3 [])) ∧
    (∀ bs, legal → r.2 = some bs → ∃ tbl, exec .routeLoad s = .next (State.reply { r.1 with links := { r.1.links with routes := tbl } } (refOf 2 m) 0 []) ∧
      ∀ k, tblGet 0 tbl k = if first ≤ k ∧ k < first + n then ofLe ((bs.drop (4 * (k - first))).take 4) else tblGet 0 s.links.routes k)

/-- JOB_SET and JOB_CLEAR: a job entry with its bitmap of permitted nodes; a context belongs to at most one job; a bitmap outside context 0's windows, or one that far
memory does not deliver, is refused with E_ARG (08_far R224; 15_haul_twin R409, R432). -/
def JobsRun : Prop :=
  ∀ (s : State) (m : MailMsg) (rest : List MailMsg),
    let u := taken s 2 rest
    let i := m.arg 1
    let c := m.arg 3
    let a := m.arg2 4
    let used := ∃ j ∈ s.links.jobs, j.1 ≠ i ∧ j.2.valid = true ∧ j.2.ctx = c
    (Asked s 2 0x02 m rest → 15 < i ∨ 1023 < c → exec .jobSet s = .next (u.reply (refOf 2 m) 3 [])) ∧
    (Asked s 2 0x02 m rest → i ≤ 15 → c ≤ 1023 → used → exec .jobSet s = .next (u.reply (refOf 2 m) 2 [])) ∧
    (Asked s 2 0x02 m rest → i ≤ 15 → c ≤ 1023 → ¬ used → (s.ctx 0).farOk .r a 8192 = false → exec .jobSet s = .next (u.reply (refOf 2 m) 3 [])) ∧
    let r := u.farRead a 8192
    (s.far.bad = [] → r = (u, some (memReadN s.far.mem a 8192))) ∧
    (Asked s 2 0x02 m rest → i ≤ 15 → c ≤ 1023 → ¬ used → (s.ctx 0).farOk .r a 8192 = true → r.2 = none → exec .jobSet s = .next (r.1.reply (refOf 2 m) 3 [])) ∧
    (∀ bs, Asked s 2 0x02 m rest → i ≤ 15 → c ≤ 1023 → ¬ used → (s.ctx 0).farOk .r a 8192 = true → r.2 = some bs →
      ∃ j, exec .jobSet s = .next (State.reply { r.1 with links := { r.1.links with jobs := tblSet i j r.1.links.jobs } } (refOf 2 m) 0 []) ∧
        j.job = m.arg 2 % 65536 ∧ j.ctx = c ∧ j.valid = true ∧ memReadN j.permit 0 8192 = bs) ∧
    (Asked s 2 0x03 m rest → 15 < i → exec .jobClear s = .next (u.reply (refOf 2 m) 3 [])) ∧
    (Asked s 2 0x03 m rest → i ≤ 15 → exec .jobClear s = .next (State.reply { u with links := { u.links with jobs := tblDrop i u.links.jobs } } (refOf 2 m) 0 []))

/-- RETRAIN starts training on every enabled port of its mask; the other ports stay (15_haul_twin R402, R432, R435). -/
def RetrainRequestRuns : Prop :=
  ∀ (s : State) (m : MailMsg) (rest : List MailMsg), Asked s 2 0x14 m rest →
    let u := taken s 2 rest
    ∃ t : State, exec .retrain s = .next (t.reply (refOf 2 m) 0 []) ∧
      (∀ p, t.port p = if p < 17 ∧ bitOf (m.arg 1) p = true ∧ (s.port p).enable = true ∧ s.resets.remove ≠ .safe then { cleared (s.port p) with fails := 0, state := .training } else s.port p) ∧
      t = { u with links := { u.links with ports := t.links.ports, twin := { u.links.twin with pair := t.links.twin.pair } }
                   pci := { u.pci with evq := t.pci.evq, pba := t.pci.pba }, host := t.host, dbg := t.dbg }

/-- The mirror set that a MIRROR_SET names with the bytes of its list: context, tally, fence object, NEXT_MARK and ranges (15_haul_twin R417, R420, R432). -/
def namedSet (m : MailMsg) (bs : List Byte) : MirrorSet :=
  { ctx := m.arg 1, tid := m.arg 2, fence := m.arg2 3, mark := m.arg2 5,
    ranges := (List.range (m.arg 9)).map (fun i => (ofLe ((bs.drop (16 * i)).take 8), ofLe ((bs.drop (16 * i + 8)).take 8))) }

/-- The module's HELLO, after a change of what it says, where the twin is enabled (15_haul_twin R415). -/
def helloAgain (s : State) : State := if s.links.twin.enable = true then s.sendTwin (s.helloBody false) else s

/-- MIRROR_SET: only of a PRESERVE context, with 1 to 64 legal ranges of a list that lies in a window of context 0 and that far memory delivers; a set that replaces
another keeps the sizes of its ranges, and a first one starts with no epoch closed. MIRROR_CLEAR is refused during a copy (08_far R224; 15_haul_twin R417, R429, R432). -/
def MirrorSetRuns : Prop :=
  ∀ (s : State) (m : MailMsg) (rest : List MailMsg),
    let u := taken s 2 rest
    let a := m.arg2 7
    let n := 16 * m.arg 9
    let named := m.arg 1 ≤ 1023 ∧ m.arg 2 ≤ 4095 ∧ 0 < m.arg 9 ∧ m.arg 9 ≤ 64 ∧ (s.ctx 0).farOk .r a n = true
    let r := u.farRead a n
    let t := s.links.twin
    let fresh : Twin := { t with closed := 0, settled := 0, dirty := [], prev := [], prev2 := [], owed := false, uncounted := 0, full := false }
    let done := fun (v : State) w => Host.Outcome.next (State.reply (helloAgain (twinTo v w)) (refOf 2 m) 0 [])
    let no := fun (v : State) st => (.next (v.reply (refOf 2 m) st []) : Out)
    (s.far.bad = [] → r = (u, some (memReadN s.far.mem a n))) ∧
    (Asked s 2 0x10 m rest →
      (¬ named → exec .mirrorSet s = no u 3) ∧
      (named → r.2 = none → exec .mirrorSet s = no r.1 3) ∧
      (∀ bs, named → r.2 = some bs →
        let new := namedSet m bs
        let legal := s.rangesOk (m.arg 1) new.ranges = true
        ((s.ctx (m.arg 1)).preserve = false → exec .mirrorSet s = no r.1 2) ∧
        ((s.ctx (m.arg 1)).preserve = true → ¬ legal → exec .mirrorSet s = no r.1 3) ∧
        ((s.ctx (m.arg 1)).preserve = true → legal →
          (t.mset = none → exec .mirrorSet s = done r.1 { fresh with mset := some new, copy := none }) ∧
          (∀ old, t.mset = some old → old.ranges.map Prod.snd = new.ranges.map Prod.snd → exec .mirrorSet s = done r.1 { t with mset := some new }) ∧
          (∀ old, t.mset = some old → old.ranges.map Prod.snd ≠ new.ranges.map Prod.snd → exec .mirrorSet s = no r.1 2)))) ∧
    (Asked s 2 0x11 m rest → t.copy ≠ none → exec .mirrorClear s = no u 2) ∧
    (Asked s 2 0x11 m rest → t.copy = none → exec .mirrorClear s = done u { fresh with mset := none })

/-- SHADOW_SET: two buffers in windows of context 0; their headers are written EMPTY and nothing is frozen any more (15_haul_twin R418, R427, R432). -/
def ShadowSetRuns : Prop :=
  ∀ (s : State) (m : MailMsg) (rest : List MailMsg), Asked s 2 0x12 m rest →
    let u := taken s 2 rest
    let a := m.arg2 1
    let b := m.arg2 3
    let n := m.arg2 5
    let open_ := (s.ctx 0).farOk .w a n = true ∧ (s.ctx 0).farOk .w b n = true
    (n < 65536 → exec .shadowSet s = .next (u.reply (refOf 2 m) 6 [])) ∧
    (65536 ≤ n → ¬ open_ → exec .shadowSet s = .next (u.reply (refOf 2 m) 3 [])) ∧
    (65536 ≤ n → open_ →
      let w := (u.writeHeader { addr := a }).writeHeader { addr := b }
      exec .shadowSet s = .next (State.reply (helloAgain (twinTo w { w.links.twin with sset := some { size := n, a := { addr := a }, b := { addr := b }, active := false }, frozen := false, push := none })) (refOf 2 m) 0 []))

/-- RESTORE: E_STATE without a mirror set, while its context is PLACED, or while not PAIRED; E_BUSY during a copy or another restore; else RESTORE_REQ leaves, and the reply
comes when the restore has ended (15_haul_twin R430, R432). -/
def RestoreRuns : Prop :=
  ∀ (s : State) (m : MailMsg) (rest : List MailMsg), Asked s 2 0x13 m rest →
    let u := taken s 2 rest
    let t := s.links.twin
    (t.mset = none → exec .restore s = .next (u.reply (refOf 2 m) 2 [])) ∧
    (∀ x, t.mset = some x → t.pair ≠ .paired ∨ (s.ctx x.ctx).state = .placed → exec .restore s = .next (u.reply (refOf 2 m) 2 [])) ∧
    (∀ x, t.mset = some x → t.pair = .paired → (s.ctx x.ctx).state ≠ .placed → t.restore ≠ none ∨ t.copy ≠ none → exec .restore s = .next (u.reply (refOf 2 m) 1 [])) ∧
    (∀ x, t.mset = some x → t.pair = .paired → (s.ctx x.ctx).state ≠ .placed → t.restore = none → t.copy = none →
      exec .restore s = .next (State.sendTwin (twinTo u { t with restore := some { epoch := m.arg 1, mark := m.arg2 2, req := refOf 2 m }, rebuild := true }) (.restoreReq (m.arg 1))))

/-! ### Mirror copies, shadow buffers and restores (15_haul_twin R417 to R431) -/

/-- The 128 offsets of the 512-byte pieces of a unit (15_haul_twin R422). -/
def pieces (unit : Nat) : List Nat := (List.range 128).map (fun i => 65536 * unit + 512 * i)

/-- A running copy goes on while PAIRED, once every frame of a unit is acknowledged: the next unit's 128 frames leave, or, after the last one, SETTLE with the units of the
copy and whether it raced (15_haul_twin R422 to R424). -/
def CopyGoesOn : Prop :=
  ∀ (s : State), let t := s.links.twin
    (t.copy = none → s.pumpCopy = s) ∧
    (∀ c, t.copy = some c → t.pair ≠ .paired ∨ c.sent ≠ [] ∨ c.settleSent = true → s.pumpCopy = s) ∧
    (∀ c, t.copy = some c → t.pair = .paired → c.sent = [] → c.settleSent = false → c.todo = [] →
      s.pumpCopy = State.sendTwin (twinTo s { t with copy := some { c with settleSent := true } }) (.settle c.epoch false c.buf c.raced c.units)) ∧
    (∀ c k rest, t.copy = some c → t.pair = .paired → c.sent = [] → c.settleSent = false → c.todo = k :: rest →
      s.pumpCopy = (pieces k).foldl (fun s o => s.sendMirror c o) (twinTo s { t with copy := some { c with todo := rest, sent := pieces k } }))

/-- The copy that a close owes starts while PAIRED with a partner that has a shadow set, with no other copy, restore or removal: into the buffer that does not hold the
last settle, of the units written in the last two epochs when that buffer holds the epoch before the last, else of all units (15_haul_twin R415, R421, R425, R426, R428). -/
def CopyStarts : Prop :=
  ∀ (s : State) (m : MirrorSet), let t := s.links.twin
    let may := t.pair = .paired ∧ t.partner.sset = true ∧ t.departing = false ∧ t.copy = none ∧ t.restore = none ∧ t.closed ≠ 0 ∧ t.owed = true
    let part := 3 ≤ t.closed ∧ (if t.lastBuf = true then t.heldA else t.heldB) = some (t.closed - 2) ∧ t.full = false
    let us := if part then (List.range m.units).filter (fun k => t.prev.contains k || t.prev2.contains k) else List.range m.units
    (t.mset = none → s.startCopy = s) ∧
    (t.mset = some m → ¬ may → s.startCopy = s) ∧
    (t.mset = some m → may → s.startCopy = State.pumpCopy (twinTo s { t with
      copy := some { epoch := t.closed, buf := !t.lastBuf, units := us.length, todo := us, whole := decide (¬ part), covers := t.uncounted }
      owed := false, uncounted := 0, heldA := if t.lastBuf = true then none else t.heldA, heldB := if t.lastBuf = true then t.heldB else none }))

/-- EPOCH_POLL: with a mirror set and the Banksman running the fence object is read; once its count is NEXT_MARK or more, and it is no tally that a fault has stopped, the open
epoch closes: its number goes up by one, skipping 0, its dirty units become those of the last close, and a copy is owed (15_haul_twin R419 to R421, R425). -/
def EpochPollRuns : Prop :=
  ∀ (s : State),
    (s.links.twin.mset = none → exec .epochPoll s = .next s) ∧
    (∀ m, s.links.twin.mset = some m → 2 ∉ s.pci.running ∨ farTop < m.fence + 16 → exec .epochPoll s = .next s) ∧
    (∀ m, s.links.twin.mset = some m → 2 ∈ s.pci.running → m.fence + 16 ≤ farTop →
      let r := s.farRead m.fence 16
      let t := r.1.links.twin
      (r.2 = none → exec .epochPoll s = .next r.1) ∧
      (∀ bs, r.2 = some bs → ofLe (bs.take 8) < m.mark ∨ ofLe (bs.drop 8) % 4 = 2 → exec .epochPoll s = .next r.1) ∧
      (∀ bs, r.2 = some bs → m.mark ≤ ofLe (bs.take 8) → ofLe (bs.drop 8) % 4 ≠ 2 → exec .epochPoll s =
        .next (State.startCopy (twinTo r.1 { t with mset := some { m with mark := (m.mark + 1) % 2 ^ 64 }, closed := if 0xFFFFFFFF ≤ t.closed then 1 else t.closed + 1
                                                    prev2 := t.prev, prev := t.dirty, dirty := [], owed := true, uncounted := t.uncounted + 1 }))))

/-- MIRROR_WRITE of a copy: not without a shadow set that has room, nor into a held buffer while the shadows are frozen. The first one of a copy makes the buffer COPYING,
with its header; the bytes are written behind the header and the offset is acknowledged (15_haul_twin R418, R422, R427). -/
def MirrorWriteRuns : Prop :=
  ∀ (s : State) (p off : Nat) (buf : Bool) (data : List Byte) (f : Frame), ForMe s p f → f.body = .mirrorWrite off buf false data →
    let u := gotFrame s p f
    let e := exec (.mirrorWrite p f) s
    (s.links.twin.sset = none → e = .next u) ∧
    (∀ x, s.links.twin.sset = some x →
      let b := if buf = true then x.b else x.a
      let b1 : ShadowBuf := if b.state = 1 then { b with units := max b.units (off / 65536 + 1) } else { b with state := 1, got := [], units := off / 65536 + 1 }
      let b2 := { b1 with got := if off ∈ b1.got then b1.got else b1.got ++ [off] }
      let w := (if b.state = 1 then u else u.writeHeader b1).farWrite (b.addr + 65536 + off) data
      let v := twinTo w.1 { w.1.links.twin with sset := some (if buf = true then { x with b := b2 } else { x with a := b2 }) }
      (s.links.twin.frozen = true ∧ b.state = 2 ∨ x.size < 65536 + off + data.length → e = .next u) ∧
      (¬ (s.links.twin.frozen = true ∧ b.state = 2) → 65536 + off + data.length ≤ x.size → e = .next (if w.2 = true then v.sendTwin (.mirrorAck off buf false) else v)))

/-- MIRROR_WRITE into the live ranges: only during a RESTORE, at its offset of the mirror space (15_haul_twin R430). -/
def MirrorLiveRuns : Prop :=
  ∀ (s : State) (p off : Nat) (buf : Bool) (data : List Byte) (f : Frame), ForMe s p f → f.body = .mirrorWrite off buf true data →
    let u := gotFrame s p f
    let t := s.links.twin
    let e := exec (.mirrorWrite p f) s
    (t.restore = none ∨ t.mset = none → e = .next u) ∧
    (∀ r m, t.restore = some r → t.mset = some m → mirrorAddr m.ranges off = none → e = .next u) ∧
    (∀ r m a, t.restore = some r → t.mset = some m → mirrorAddr m.ranges off = some a →
      let w := u.farWrite a data
      let v := twinTo w.1 { w.1.links.twin with restore := some { r with got := if off ∈ r.got then r.got else r.got ++ [off] } }
      e = .next (if w.2 = true then v.sendTwin (.mirrorAck off buf true) else v))

/-- MIRROR_ACK: the acknowledged offset of the running copy, or of the push, is sent no more, and the copy or the push goes on (15_haul_twin R422, R430). -/
def MirrorAckRuns : Prop :=
  ∀ (s : State) (p off : Nat) (buf live : Bool) (f : Frame), ForMe s p f → f.body = .mirrorAck off buf live →
    let u := gotFrame s p f
    let t := s.links.twin
    let e := exec (.mirrorAck p f) s
    (live = false → (∀ c, t.copy = some c → c.buf = buf → off ∉ c.sent) → e = .next u) ∧
    (∀ c, live = false → t.copy = some c → c.buf = buf → off ∈ c.sent → e = .next (State.pumpCopy (twinTo u { t with copy := some { c with sent := c.sent.erase off } }))) ∧
    (live = true → (∀ c, t.push = some c → c.buf = buf → off ∉ c.sent) → e = .next u) ∧
    (∀ c, live = true → t.push = some c → c.buf = buf → off ∈ c.sent → e = .next (State.pumpPush (twinTo u { t with push := some { c with sent := c.sent.erase off } })))

/-- SETTLE of a shadow buffer: refused without a set, for a held buffer of other shadows that are frozen, or when the accepted frames are not 128 for each unit; else the
buffer is SETTLED, or RACED, with its epoch, its header is written, it is the active one, and the answer says OK (15_haul_twin R418, R423, R424, R427). -/
def SettleRuns : Prop :=
  ∀ (s : State) (p epoch units : Nat) (buf raced : Bool) (f : Frame), ForMe s p f → f.body = .settle epoch false buf raced units →
    let u := gotFrame s p f
    let e := exec (.settle p f) s
    (s.links.twin.sset = none → e = .next (u.sendTwin (.settleAck epoch false false))) ∧
    (∀ x, s.links.twin.sset = some x →
      let b := if buf = true then x.b else x.a
      let again := (b.state = 2 ∨ b.state = 3) ∧ b.epoch = epoch
      let got := if b.state = 1 ∨ again then b.got else []
      let bad := s.links.twin.frozen = true ∧ b.state = 2 ∧ ¬ again ∨ got.length ≠ 128 * units
      let b2 := { b with epoch := epoch, state := if raced = true then 3 else 2, got := got, units := max b.units units }
      let w := u.writeHeader b2
      (bad → e = .next (u.sendTwin (.settleAck epoch false false))) ∧
      (¬ bad → e = .next (State.sendTwin (twinTo w { w.links.twin with sset := some (if buf = true then { x with b := b2, active := true } else { x with a := b2, active := false }) })
        (.settleAck epoch false true))))

/-- SETTLE of the live ranges ends a RESTORE: refused for another epoch or without one; with other units than the mirror set or too few frames the restore ends with E_LAYOUT; else the module has the restored
epoch as the last one closed and settled, its mark is the requested one, the next copy is full, and the request is answered (15_haul_twin R430, R434). -/
def SettleLiveRuns : Prop :=
  ∀ (s : State) (p epoch units : Nat) (buf raced : Bool) (f : Frame), ForMe s p f → f.body = .settle epoch true buf raced units →
    let u := gotFrame s p f
    let t := s.links.twin
    let e := exec (.settle p f) s
    (t.restore = none ∨ t.mset = none ∨ (∃ r, t.restore = some r ∧ r.epoch ≠ epoch) → e = .next (u.sendTwin (.settleAck epoch true false))) ∧
    (∀ r m, t.restore = some r → t.mset = some m → r.epoch = epoch → units ≠ m.units ∨ r.got.length ≠ 128 * units →
      e = .next ((State.sendTwin (twinTo u { t with restore := none, rebuild := false }) (.settleAck epoch true false)).reply r.req 5 [])) ∧
    (∀ r m, t.restore = some r → t.mset = some m → r.epoch = epoch → units = m.units → r.got.length = 128 * units →
      e = .next (((State.sendTwin (twinTo u { t with
        restore := none, settled := epoch, closed := epoch, dirty := [], prev := [], prev2 := [], full := true
        lastBuf := if t.heldB = some epoch then true else if t.heldA = some epoch then false else t.lastBuf
        heldA := none, heldB := none, owed := false, uncounted := 0, mset := some { m with mark := r.mark } }) (.settleAck epoch true true)).twinEvent 2 epoch).reply r.req 0 []))

/-- SETTLE_ACK of the copy: with OK the epoch is settled, the tally of the mirror set gets the closes it covers, a race is counted and recorded, and the next copy starts;
without OK the epoch is copied again in full, with a record (15_haul_twin R423 to R425, R434). -/
def SettleAckRuns : Prop :=
  ∀ (s : State) (p epoch : Nat) (ok : Bool) (f : Frame), ForMe s p f → f.body = .settleAck epoch false ok →
    let u := gotFrame s p f
    let t := s.links.twin
    let e := exec (.settleAck p f) s
    (t.mset = none ∨ t.copy = none ∨ (∃ c, t.copy = some c ∧ (c.epoch ≠ epoch ∨ c.settleSent = false)) → e = .next u) ∧
    (∀ m c, t.mset = some m → t.copy = some c → c.epoch = epoch → c.settleSent = true →
      let w := (twinTo u { t with
        copy := none, settled := c.epoch, lastBuf := c.buf
        heldA := if c.buf = true then t.heldA else if c.raced = true then none else some c.epoch
        heldB := if c.buf = true then (if c.raced = true then none else some c.epoch) else t.heldB
        races := if c.raced = true then min 0xFFFFFFFF (t.races + 1) else t.races
        full := c.raced || (t.full && !c.whole), rebuild := t.rebuild && !c.whole }).remoteAdd m.ctx m.tid c.covers
      (ok = true → e = .next (State.startCopy (if c.raced = true then w.twinEvent 1 c.epoch else w))) ∧
      (ok = false → e = .next (State.pumpCopy (State.twinEvent (twinTo u { t with copy := some { c with todo := List.range m.units, units := m.units, sent := [], settleSent := false, whole := true } }) 3 c.epoch))))

/-- SETTLE_ACK of the live ranges: a push has ended, and with OK the shadows thaw; a RESTORE that the partner refuses ends with E_EPOCH (15_haul_twin R427, R430). -/
def SettleAckLiveRuns : Prop :=
  ∀ (s : State) (p epoch : Nat) (ok : Bool) (f : Frame), ForMe s p f → f.body = .settleAck epoch true ok →
    let u := gotFrame s p f
    let t := s.links.twin
    let e := exec (.settleAck p f) s
    (∀ c, t.push = some c → c.epoch = epoch → c.settleSent = true → e = .next (twinTo u { t with push := none, frozen := t.frozen && !ok })) ∧
    (∀ c, t.push = some c → c.epoch ≠ epoch ∨ c.settleSent = false → e = .next u) ∧
    (∀ r, t.push = none → t.restore = some r → r.epoch = epoch → ok = false → e = .next (State.reply (twinTo u { t with restore := none, rebuild := false }) r.req 4 [])) ∧
    (t.push = none → t.restore = none ∨ ok = true → e = .next u)

/-- RESTORE_REQ: the buffer that holds the epoch as SETTLED is pushed back, A before B; without one the answer is SETTLE_ACK without OK (15_haul_twin R430). -/
def RestoreReqRuns : Prop :=
  ∀ (s : State) (p epoch : Nat) (f : Frame), ForMe s p f → f.body = .restoreReq epoch →
    let u := gotFrame s p f
    let e := exec (.restoreReq p f) s
    let push := fun (b : Bool) (n : Nat) => State.pumpPush (twinTo u { u.links.twin with push := some { epoch := epoch, buf := b, units := n, todo := List.range n } })
    (s.links.twin.sset = none → e = .next (u.sendTwin (.settleAck epoch true false))) ∧
    (∀ x, s.links.twin.sset = some x →
      let inA := x.a.state = 2 ∧ x.a.epoch = epoch
      let inB := x.b.state = 2 ∧ x.b.epoch = epoch
      (inA → e = .next (push false x.a.units)) ∧ (¬ inA → inB → e = .next (push true x.b.units)) ∧
      (¬ inA → ¬ inB → e = .next (u.sendTwin (.settleAck epoch true false))))

/-! ### Counters, trace, sounding, self-test (19_debug_test R512 to R535) -/

/-- The trace settings of `k` come into force: the staged set, switched off where its ring does not fit far memory, and an empty trace (19_debug_test R522). -/
def traceNew (k : Core) : Core :=
  let fits := k.dbg.traceStaged.base + 2048 * 2 ^ k.dbg.traceStaged.log2 ≤ farTop
  { k with dbg := { k.dbg with trace := { k.dbg.traceStaged with en := k.dbg.traceStaged.en && decide fits }, badBase := !decide fits, traceCommit := false
                               traceHead := 0, traceTail := 0, buf := [], drain := [] } }

/-- The far memory trace ring of `k` is full: one more chunk would reach TRC_HEAD (19_debug_test R520, R521). -/
def ringFull (k : Core) : Prop := (k.dbg.traceTail + 1) % 2 ^ k.dbg.trace.log2 = k.dbg.traceHead

/-- `n` trace records are dropped and counted (19_debug_test R513, R521). -/
def dropped (k : Core) (n : Nat) : Core :=
  Core.count { k with dbg := { k.dbg with traceLost := min 0xFFFFFFFF (k.dbg.traceLost + n), lost := k.dbg.lost + n } } 0x3A n

/-- A commit of trace settings that waits comes into force once no drain is in flight; an unfilled half of an enabled trace drains first, padded with zeros, or is dropped
where the ring is full (19_debug_test R520 to R522). -/
def Settles (k k' : Core) : Prop :=
  (k.dbg.traceCommit = false ∨ k.dbg.drain ≠ [] → k' = k) ∧
  (k.dbg.traceCommit = true → k.dbg.drain = [] → k.dbg.trace.en = false ∨ k.dbg.buf = [] → k' = traceNew k) ∧
  (k.dbg.traceCommit = true → k.dbg.drain = [] → k.dbg.trace.en = true → k.dbg.buf ≠ [] → ¬ ringFull k →
    k' = { k with dbg := { k.dbg with drain := k.dbg.buf ++ List.replicate (256 - k.dbg.buf.length) 0, buf := [] } }) ∧
  (k.dbg.traceCommit = true → k.dbg.drain = [] → k.dbg.trace.en = true → k.dbg.buf ≠ [] → ringFull k →
    k' = traceNew (dropped { k with dbg := { k.dbg with buf := [] } } (k.dbg.buf.length / 2)))

/-- CLEAR, TRACE_DRAIN of a filled half, TRACE_CHUNK_DONE, TRACE_COMMIT and EPOCH_RECORD on a core (19_debug_test R514, R519 to R522). -/
def TraceRuns : Prop :=
  ∀ (s : State) (n : Nat), n < 1280 →
    let k := s.core n
    let d := k.dbg
    let w := (s.farWrite (d.trace.base + 2048 * d.traceTail) (d.drain.flatMap (fun w => leBytes 8 w.toNat))).1
    exec (.clear n) s = .next (s.setCore n { k with dbg := { d with clearPend := true } }) ∧
    (d.buf.length < 256 ∨ d.drain ≠ [] → exec (.traceDrain n) s = .next (s.setCore n k)) ∧
    (256 ≤ d.buf.length → d.drain = [] → ringFull k → exec (.traceDrain n) s = .next (s.setCore n (dropped { k with dbg := { d with buf := [] } } (d.buf.length / 2)))) ∧
    (256 ≤ d.buf.length → d.drain = [] → ¬ ringFull k → exec (.traceDrain n) s = .next (s.setCore n { k with dbg := { d with drain := d.buf ++ List.replicate (256 - d.buf.length) 0, buf := [] } })) ∧
    (d.drain = [] → exec (.traceChunkDone n) s = .next s) ∧
    (d.drain ≠ [] → ringFull k → ∃ k', Settles (dropped { k with dbg := { d with drain := [] } } (d.drain.length / 2)) k' ∧ exec (.traceChunkDone n) s = .next (s.setCore n k')) ∧
    (d.drain ≠ [] → ¬ ringFull k → ∃ k', Settles { w.core n with dbg := { (w.core n).dbg with drain := [], traceTail := (d.traceTail + 1) % 2 ^ d.trace.log2 } } k' ∧
      exec (.traceChunkDone n) s = .next (w.setCore n k')) ∧
    (∃ k', Settles { k with dbg := { d with traceCommit := true } } k' ∧ exec (.traceCommit n) s = .next (s.setCore n k')) ∧
    (d.trace.en = true → d.buf ≠ [] → d.buf.length < 256 → exec (.epochRecord n) s =
      .next (s.setCore n (Core.count { k with dbg := { d with buf := d.buf ++ [wordOf (s.now % 2 ^ 40 + 2 ^ 40 * 1 + 2 ^ 46 * ((k.ctx).getD 0 % 1024)), wordOf (s.now / 2 ^ 40 % 2 ^ 24)] } } 0x39 1))) ∧
    (d.trace.en = false ∨ d.buf = [] ∨ 256 ≤ d.buf.length → exec (.epochRecord n) s = .next s)

/-- CTX_HALT of a PLACED context: HALT of the four queues of every core that it holds, and of no other queue; of another context: nothing (19_debug_test R524). -/
def CtxHaltRuns : Prop :=
  ∀ (s : State) (c : Nat) (v : Bool),
    ((s.ctx c).state ≠ .placed → exec (.ctxHalt c v) s = .next s) ∧
    ((s.ctx c).state = .placed → ∃ t, exec (.ctxHalt c v) s = .next t ∧
      (∀ n e, n ∈ (s.ctx c).bench ∧ (s.core n).ctx = some c ∧ e < 4 → (t.queue n e).halt = v ∧ (t.queue n e).halted = v) ∧
      (∀ n e, ¬ (n ∈ (s.ctx c).bench ∧ (s.core n).ctx = some c ∧ e < 4) → t.queue n e = s.queue n e) ∧
      t = { s with cores := t.cores, ctxs := t.ctxs, rings := t.rings })

/-- SOUNDING_COMMIT: the staged set comes into force, with the default pattern for a code that the rate does not have, and the checkers start at 0. EN 1 takes a port that is
not DISABLED to SOUNDING, and the twin's link is then lost; EN 0 ends a sounding with training (15_haul_twin R402, R415; 19_debug_test R528, R530). -/
def SoundingRuns : Prop :=
  ∀ (s : State) (p : Nat), p < 17 →
    let x := s.port p
    let g := x.sounding.staged
    let set : SoundCtl := { g with pattern := if 10 ≤ g.pattern ∨ 6 ≤ g.pattern ∧ x.rateActive = false then 5 else g.pattern }
    let y : Port := { x with sounding := { x.sounding with inForce := set, lanes := [] } }
    let e := exec (.soundingCommit p) s
    (x.state = .disabled → e = .next (portTo s p y)) ∧
    (x.state ≠ .disabled → g.en = false → x.state ≠ .sounding → e = .next (portTo s p y)) ∧
    (x.state = .sounding → g.en = false → ∃ t, e = .next t ∧ Trained (portTo s p y) p t) ∧
    (x.state ≠ .disabled → g.en = true →
      let z := portTo s p { cleared y with state := .sounding }
      let u := if x.state = .sounding then z else linkRecord z p 4 x.peerNode
      (p ≠ 16 ∨ s.links.twin.pair ≠ .paired → e = .next u) ∧
      (p = 16 → s.links.twin.pair = .paired → e = .next (State.event (twinTo u { s.links.twin with pair := .linkLost }) 4 4)))

/-- INJECT: a port that sounds in near-end loopback counts one error on each enabled lane whose checker is locked; otherwise the peer's checkers count it (19_debug_test R529). -/
def InjectRuns : Prop :=
  ∀ (s : State) (p : Nat), p < 17 →
    let x := s.port p
    ((x.state ≠ .sounding ∨ x.sounding.inForce.loop ≠ 1) → exec (.inject p) s = .next s) ∧
    (x.state = .sounding → x.sounding.inForce.loop = 1 → ∃ ls, exec (.inject p) s = .next (portTo s p { x with sounding := { x.sounding with lanes := ls } }) ∧
      ∀ l, let a := tblGet ({} : SoundLane) x.sounding.lanes l
        tblGet ({} : SoundLane) ls l = if l < (if p = 16 then 8 else 4) ∧ bitOf x.sounding.inForce.lanes l = true ∧ a.since ≠ none then { a with errors := min 0xFFFFFFFF (a.errors + 1) } else a)

/-- `s` with one bridge's sounding changed. -/
def bridgeTo (s : State) (j : Nat) (b : BridgeSound) : State := { s with dbg := { s.dbg with bridges := tblSet j b s.dbg.bridges } }

/-- START of a bridge's sounding is refused while a context is PLACED or SUSPENDED, and has no effect on one that runs; else its settings come into force with every result
at 0. Its end leaves what the checkers found: free values (log entry 38), but VALID exactly with an error, and no wire without one (19_debug_test R531). -/
def BridgeRuns : Prop :=
  ∀ (s : State) (j : Nat), j < 16 →
    let b := s.bridge j
    let away := ∀ p ∈ s.ctxs, p.2.state ≠ .placed ∧ p.2.state ≠ .suspended
    (¬ away → exec (.start j) s = .next (bridgeTo s j { b with refused := true })) ∧
    (away → b.busy = true → exec (.start j) s = .next s) ∧
    (away → b.busy = false → exec (.start j) s = .next (bridgeTo s j { b with busy := true, patternNow := b.pattern, loopNow := b.loop, durNow := b.durMs, lock := false, err := 0, firstWire := 0, valid := false, bits := 0 })) ∧
    (b.busy = false → exec (.bridgeSoundingEnd j) s = .next s) ∧
    (b.busy = true → ∃ b', exec (.bridgeSoundingEnd j) s = .next (bridgeTo { s with draws := s.draws + 1 } j b') ∧ b'.busy = false ∧ (b'.valid = true ↔ b'.err ≠ 0) ∧
      (b'.err = 0 → b'.firstWire = 0) ∧ b'.err < 2 ^ 32 ∧ b'.firstWire < 2 ^ 16 ∧ b'.bits < 2 ^ 32 ∧
      b' = { b with busy := false, lock := b'.lock, err := b'.err, valid := b'.valid, firstWire := b'.firstWire, bits := b'.bits })

/-- The compute dies that a failed bridge direction marks: the one that bridge joins to the hub, or the two it joins (19_debug_test R531, R533). -/
def joins (j die : Nat) : Prop := let b := j / 2; if b < 4 then die = b else die = b - 4 ∨ die = (b - 3) % 4

/-- SELF_TEST_COMPLETE: once per cold reset, with the rails up. The results are as reported: a core's first failure, its unit and place, the array column of an array
failure; a core that passes has its marks cleared; a failed bridge direction marks every core of its dies degraded (04_matrix R127; 19_debug_test R532, R533, R535). -/
def SelfTestRuns : Prop :=
  ∀ (s : State) (cores : List CoreFail) (bridges : List Nat),
    let e := exec (.selfTestComplete cores bridges) s
    let sane := (∀ x ∈ cores, x.core < 1280) ∧ (∀ j ∈ bridges, j < 16)
    (¬ sane → e = .fault .noSuchUnit) ∧
    (sane → s.power.rails = false ∨ s.dbg.stDone = true → e = .next s) ∧
    (sane → s.power.rails = true → s.dbg.stDone = false → ∃ t, e = .next t ∧
      t.dbg.stDone = true ∧ (t.dbg.stPass = true ↔ cores = [] ∧ bridges = []) ∧
      t.dbg.stFailed = ((List.range 1280).filter (fun n => cores.any (fun x => x.core == n))).length ∧
      (∀ n, n < 1280 → (n ∈ t.dbg.degraded ↔ (∃ x ∈ cores, x.core = n) ∨ (∃ j ∈ bridges, joins j (dieOf n)))) ∧
      (∀ n x, n < 1280 → cores.find? (fun x => x.core == n) = some x → t.core n = { s.core n with
        stFail := true, stUnit := x.unit % 8, stWhere := x.place % 64, me := { (s.core n).me with degraded := x.unit == 1, badCol := if x.unit = 1 then x.place % 64 else 0 } }) ∧
      (∀ n, n < 1280 → cores.find? (fun x => x.core == n) = none → (s.core n).stFail = true ∨ (s.core n).me.degraded = true → t.core n = { s.core n with
        stFail := false, stUnit := 0, stWhere := 0, me := { (s.core n).me with degraded := false, badCol := 0 } }) ∧
      (∀ n, n < 1280 → cores.find? (fun x => x.core == n) = none → (s.core n).stFail = false → (s.core n).me.degraded = false → t.core n = s.core n) ∧
      t = { s with cores := t.cores, ctxs := t.ctxs, dbg := t.dbg, pci := t.pci, host := t.host })

/-! ### SIGNAL and MOVE to another module, transposed moves (09_queues R264; 07_moves R177, R186, R187, R207, R208; 15_haul_twin R410, R411, R413) -/

/-- SIGNAL to another module, without a release: a count of 0 retires it; else it takes the stream's next SIG_ID, waits for its acknowledgement and leaves in a SIGNAL
frame (09_queues R264; 15_haul_twin R413). `u` is the module once the record has issued. -/
def RemoteSignalRuns : Prop :=
  ∀ (core e c : Nat) (ws : List W64) (s : State), RecIssues s core e 2 c ws → wbits ws 1 31 16 ≠ 0xFFFF →
    let vid := wbits ws 1 11 0
    let node := wbits ws 1 31 16
    let n := wbits ws 1 63 32
    let id := (s.queue core e).serial
    let st := tblGet ({} : SigStream) s.links.sigOut node
    let job := ((s.jobOf c).map Job.job).getD 0
    let st' : SigStream := { st with next := (st.next + 1) % 65536, progress := if st.waiting = [] then s.now else st.progress
                                     waiting := st.waiting ++ [{ sigId := st.next, core := core, eng := e, rec_ := id, ctx := c, job := job, tid := vid, count := n }] }
    (e ≠ 0 ∨ wbits ws 2 1 0 < 2) → (∀ f ∈ (s.queue core e).flight, f.id ≠ id) →
    ∃ u : State, RecBecomes core s u (s.core core) ∧
      (n = 0 → exec (.signalRec core e) s = .next u ∧ Retired (issuedQueue s core e c ws) (u.queue core e) id) ∧
      (n ≠ 0 → u.queue core e = issuedQueue s core e c ws ∧ u.net = s.net ∧
        exec (.signalRec core e) s = .next (State.sendFrame { u with links := { u.links with sigOut := tblSet node st' u.links.sigOut } } node (.signal job vid n st.next st.gen)))

/-- MOVE to another module, its source granted: without bytes or a signal it retires; else it opens a claim under an id that no open claim has, sends CLAIM and joins the
engine's records, which wait for the answer (07_moves R207, R208; 15_haul_twin R410). `u` is the module once the record has issued. -/
def RemoteMoveRuns : Prop :=
  ∀ (core e c : Nat) (ws : List W64) (s : State), RecIssues s core e 0x40 c ws → wbits ws 1 63 48 ≠ 0xFFFF → wbits ws 2 49 48 = 0 →
    let src := wbits ws 1 47 0
    let dst := wbits ws 2 47 0
    let node := wbits ws 1 63 48
    let len := wbits ws 3 24 0
    let sig := wbits ws 3 25 25 == 1
    let tid := wbits ws 3 37 26
    let inc := wbits ws 3 53 38
    let id := (s.queue core e).serial
    let job := ((s.jobOf c).map Job.job).getD 0
    let eng := (s.core core).mv e
    eng.recs.length < 16 → (∀ x ∈ eng.recs, x.id ≠ id) → (s.ctx c).rangeOk .r src len = true → s.links.src.length < 65536 →
    ∃ u : State, RecBecomes core s u (s.core core) ∧
      (len = 0 → sig = false → exec (.move core e) s = .next u ∧ Retired (issuedQueue s core e c ws) (u.queue core e) id) ∧
      (len ≠ 0 ∨ sig = true → u.queue core e = issuedQueue s core e c ws ∧ ∃ cid gr rw cl st, cid < 65536 ∧ (∀ x ∈ s.links.src, x.id ≠ cid) ∧
        let open_ : SrcClaim := { id := cid, core := core, eng := e, rec_ := id, ctx := c, node := node, job := job, base := dst, len := len, sigEn := sig, sigTid := tid, sigInc := inc, progress := s.now }
        let v := State.sendFrame { u with draws := u.draws + 1, links := { u.links with src := u.links.src ++ [open_] } } node (.claim job cid 0 dst len tid sig inc)
        exec (.move core e) s = .next (v.setCore core ((v.core core).setMv e { (v.core core).mv e with recs := eng.recs ++
          [({ id := id, src := src, dst := dst, node := node, len := len, group := gr, rows := rw, cols := cl, stride := st
              sigEn := sig, sigTid := tid, sigInc := inc, last := dst, claim := some cid } : MvRec)] })))

/-- A request of a MOVE to another module that has its slot, its source read: in the order of its record it leaves as a WRITE of its claim, and is kept until it commits;
one before it that has not been read holds it back (07_moves R209; 10_cutplan R293; 15_haul_twin R411, R414). -/
def RemoteRequestRuns : Prop :=
  ∀ (core e c k id : Nat) (r : MvRec) (q : MvReq) (slot : MvSlot) (bs : List Byte) (cl : SrcClaim) (s : State), Slotted s core e c r q slot →
    let w := s.takeSlot core e q slot
    core < 1280 → e = 2 ∨ e = 3 → (s.core core).ctx = some c → ((s.core core).mv e).kth k = some (r, q) → q.data = none → r.tw = 0 → r.node ≠ 0xFFFF → SourceReads s q bs →
    ((∃ p ∈ r.reqs, p.id < q.id ∧ p.data = none) → exec (.moveRequestComplete core e k) s = .next s) ∧
    ((∀ p ∈ r.reqs, p.id < q.id → p.data ≠ none) → r.claim = some id → s.links.src.find? (fun c => c.id == id) = some cl →
      ∃ u : State, u = { w with cores := u.cores } ∧ (∀ n, u.core n = w.core n) ∧ exec (.moveRequestComplete core e k) s =
        .next (State.sendFrame ((srcTo u cl.id (fun _ => { cl with writes := cl.writes ++ [{ idx := q.id, offset := q.dst - r.dst, data := bs }]
                                                                   progress := if cl.writes = [] then s.now else cl.progress })).modReq core e r.id q.id (fun q => { q with data := some [] }))
          r.node (.write (q.dst - r.dst) q.id cl.id cl.gen bs)))

/-- A transposed MOVE, every source row granted: the record joins the engine's records, and the engine goes on; a request of it that has read its row is held in the band
buffer until its band is complete (07_moves R186, R187). `u` is the module once the record has issued. -/
def TransposedMoveRuns : Prop :=
  (∀ (core e c : Nat) (ws : List W64) (s : State), RecIssues s core e 0x40 c ws → wbits ws 1 63 48 = 0xFFFF → wbits ws 2 49 48 ≠ 0 →
    let r := { moveRec (s.queue core e).serial ws with last := wbits ws 2 47 0 }
    ((s.core core).mv e).recs.length < 16 → (∀ i, i < r.rows → (s.ctx c).rangeOk .r (r.src + i * r.stride) r.rowBytes = true) → (s.ctx c).rangeOk .w r.dst r.len = true → r.dst < hostBase → r.len ≠ 0 →
    ∃ u : State, RecBecomes core s u (s.core core) ∧ u.queue core e = issuedQueue s core e c ws ∧
      exec (.move core e) s = .next (State.pumpMoves (u.setCore core ((u.core core).setMv e { (u.core core).mv e with recs := ((s.core core).mv e).recs ++ [r] })) core e)) ∧
  (∀ (core e c k : Nat) (r : MvRec) (q : MvReq) (bs : List Byte) (s : State),
    core < 1280 → e = 2 ∨ e = 3 → (s.core core).ctx = some c → ((s.core core).mv e).kth k = some (r, q) → r.tw ≠ 0 → r.node = 0xFFFF →
    (q.data ≠ none → exec (.moveRequestComplete core e k) s = .next (s.writeBand c core e r q.band)) ∧
    (q.data = none → SourceReads s q bs → ∃ u : State, u = { s with cores := u.cores } ∧ (∀ n, u.core n = s.core n) ∧
      let v := u.modReq core e r.id q.id (fun p => { p with data := some bs })
      ∀ r', ((v.core core).mv e).rec_ r.id = some r' → exec (.moveRequestComplete core e k) s = .next (v.writeBand c core e r' q.band)))

/-! ### The whole machine -/

/-- A step runs the command at the front of the queue on the state with the queue's rest. -/
def FrontRuns : Prop :=
  ∀ (s : State) (c : Instr) (rest : List Instr), s.pending = c :: rest → step s = exec c { s with pending := rest }

/-- On an empty queue the clocks move by one tick of 2.5 ns (DESIGN CHOICE: log entry 2): the time base, the dies' clocks, the counters and samplers of the cores and of
the hub, and the count of the free values drawn; a core of a die whose reset is not released stays as it is. Then each array does what has fallen due; where no array has
anything left to do, nothing else of the state changes. -/
def IdleTicks : Prop :=
  ∀ s : State, s.pending = [] →
    ∃ (ds : Tbl Die) (cs : Tbl Core) (hd : HubDebug),
      let u : State := { s with half := s.half + 5, dies := ds, cores := cs, dbg := hd, draws := s.draws + 1 }
      step s = .next ((s.cores.map Prod.fst).foldl State.pumpMe u) ∧
      (∀ n, (tblGet ({} : Die) s.dies (dieOf n)).released = false → tblGet ({} : Core) cs n = tblGet ({} : Core) s.cores n) ∧
      ((∀ n, (s.core n).me.events = []) → step s = .next u)

/-- No command touches the queue: after a step on a command the queue holds the rest. -/
def QueueShrinks : Prop :=
  ∀ (s t : State) (c : Instr) (rest : List Instr), s.pending = c :: rest → step s = .next t → t.pending = rest

/-- Every step keeps far memory and host memory in canonical form. -/
def MemoryKept : Prop :=
  ∀ s t : State, step s = .next t → (Memory.wf s.far.mem = true → Memory.wf t.far.mem = true) ∧
    (Memory.wf s.host = true → Memory.wf t.host = true)

/-- An owner key slot of the OTP. -/
def keySlot (s : State) (k : Nat) : OwnerSlot := tblGet ({} : OwnerSlot) s.trust.owners k

/-- Where a state of an owner key slot stands in the order EMPTY, ACTIVE, REVOKED. -/
def slotRank : OwnerState → Nat
  | .empty => 0
  | .active => 1
  | .revoked => 2

/-- Every step, whatever its command: the four owner key slots only advance, EMPTY to ACTIVE to REVOKED, the hash of a slot that
is not EMPTY is never rewritten, a hash that is written has 64 bytes, a module with an ACTIVE key keeps one, no slot but the four is
ever touched, and the rollback counter never falls. -/
def OtpAdvances : Prop :=
  ∀ s t : State, step s = .next t →
    (∀ k, slotRank (keySlot s k).state ≤ slotRank (keySlot t k).state) ∧
    (∀ k, (keySlot s k).state ≠ .empty → (keySlot t k).hash = (keySlot s k).hash) ∧
    (∀ k, 4 ≤ k → keySlot t k = keySlot s k) ∧
    ((∃ k, k < 4 ∧ (keySlot s k).state = .active) → ∃ k, k < 4 ∧ (keySlot t k).state = .active) ∧
    ((∀ k, (keySlot s k).state ≠ .empty → (keySlot s k).hash.length = 64) →
      ∀ k, (keySlot t k).state ≠ .empty → (keySlot t k).hash.length = 64) ∧
    s.trust.rollback ≤ t.trust.rollback

/-- Far memory addresses (R218, R219), with L = LOCAL_UNITS: the interleaved region goes page by page over all 96 channels, die d's
local region over channels 24d to 24d + 23. -/
def FarChannels : Prop :=
  ∀ l a : Nat, l ≤ 31 → a < 744 * 2 ^ 30 →
    let i := (31 - l) * 24 * 2 ^ 30
    let sz := l * 6 * 2 ^ 30
    (a < i → farPlace l a = (a / 2 ^ 12 % 96, a / 2 ^ 12 / 96 * 4096 + a % 4096)) ∧
    (∀ d, d < 4 → i + d * sz ≤ a → a < i + (d + 1) * sz →
      let q := (a - i - d * sz) / 2 ^ 12
      farPlace l a = (24 * d + q % 24, (31 - l) * 256 * 2 ^ 20 + q / 24 * 4096 + a % 4096)) ∧
    (a < i ∨ ∃ d, d < 4 ∧ i + d * sz ≤ a ∧ a < i + (d + 1) * sz)

/-- The map from addresses to channels and offsets: every 4 KiB page lies whole in one of 96 channels, at consecutive offsets
below 7.75 GiB, no line of 128 bytes, request of 512 or block of 64 spans two channels, and no two addresses share a place. -/
def FarPlacesApart : Prop :=
  ∀ l a b : Nat, l ≤ 31 → a < 744 * 2 ^ 30 → b < 744 * 2 ^ 30 →
    ((farPlace l a).1 < 96 ∧ (farPlace l a).2 < 31 * 256 * 2 ^ 20) ∧
    (a / 4096 = b / 4096 → (farPlace l a).1 = (farPlace l b).1 ∧ (farPlace l a).2 + b = (farPlace l b).2 + a) ∧
    (∀ n k, n = 64 ∨ n = 128 ∨ n = 512 → a % n = 0 → k < n → (farPlace l (a + k)).1 = (farPlace l a).1) ∧
    (farPlace l a = farPlace l b → a = b)

/-- The FP32 code stands for a NaN: all ones in the exponent and a fraction that is not 0. -/
def isNan32 (x : Nat) : Prop := x / 2 ^ 23 % 2 ^ 8 = 255 ∧ x % 2 ^ 23 ≠ 0

/-- What the vector floating-point instructions of R92 deliver on operands A, B and C. -/
def fpResults (rnd : Rnd) (a b c : Nat) : List Nat :=
  [(f32Add rnd a b).1, (f32Sub rnd a b).1, (f32Mul rnd a b).1, (f32Fma rnd a b c).1, (f32Div rnd a b).1, (f32Sqrt rnd a).1
   , (f32MinMax false a b).1, (f32MinMax true a b).1, f32Abs a, f32Neg a, (f32Rcp a).1, (f32Rsq a).1, (f32Ex2 a).1]

/-- A NaN that one of them produces is the canonical quiet NaN. -/
def NanIsCanonical : Prop :=
  ∀ (rnd : Rnd) (a b c x : Nat), a < 2 ^ 32 → b < 2 ^ 32 → c < 2 ^ 32 → x ∈ fpResults rnd a b c → isNan32 x → x = 0x7FC00000

/-- The predicate registers of a gang: p0 reads as ones and discards what is written to it; p1 to p7 hold what is written. -/
def PredicateZero : Prop :=
  ∀ (g : Gang) (r q : Nat) (x : W32), g.getP 0 = 0xFFFFFFFF ∧ g.setP 0 x = g ∧
    (r ≠ 0 → (g.setP r x).getP q = if q = r then x else g.getP q)

/-- The memories of the module right after reset are in canonical form. -/
def ResetMemory : Prop := Memory.wf State.reset.far.mem = true ∧ Memory.wf State.reset.host = true

/-! ### Registers as the host reads them -/

/-- The BAR0 address of the register window of core `n` (R380). -/
def coreWindow (n : Nat) : Nat := 0x1000000 + 0x4000 * n

/-- SLAB_PWR and SLAB_PWR_BUSY (R172, R173): bit b says that bank b is ON, or that it is DRAINING or WAKING; with both bits 0 the
bank is OFF; right after reset they read 0xFFFF_FFFF and 0; writes of either, of 4 or of 8 bytes, are ignored. -/
def SlabPowerRegisters : Prop :=
  ∀ (s : State) (n b v : Nat), n < 1280 → b < 32 →
    let bank := tblGet .on (s.core n).slab.banks b
    (bitOf (s.readWord (coreWindow n + 0xC00)) b = true ↔ bank = .on) ∧
    (bitOf (s.readWord (coreWindow n + 0xC04)) b = true ↔ bank = .draining ∨ bank = .waking) ∧
    (bitOf (s.readWord (coreWindow n + 0xC00)) b = false → bitOf (s.readWord (coreWindow n + 0xC04)) b = false → bank = .off) ∧
    State.reset.readWord (coreWindow n + 0xC00) = 0xFFFFFFFF ∧ State.reset.readWord (coreWindow n + 0xC04) = 0 ∧
    exec (.registerWrite (coreWindow n + 0xC00) 4 v) s = .next s ∧ exec (.registerWrite (coreWindow n + 0xC04) 4 v) s = .next s ∧
    exec (.registerWrite (coreWindow n + 0xC00) 8 v) s = .next s

/-- The lane settings of port p are at 0x0C0_0200 + 8p (R479): TX_POL, RX_POL, TX_ORDER and RX_ORDER from the lowest bit up; writes
are ignored. -/
def PortLaneRegisters : Prop :=
  ∀ (s : State) (p v : Nat), p ≤ 16 →
    let x := tblGet ({} : LaneCfg) s.site.lanes p
    let a := 0xC00200 + 8 * p
    (x.txPol < 2 ^ 8 → x.rxPol < 2 ^ 8 → x.txOrder < 2 ^ 24 → x.rxOrder < 2 ^ 24 →
      s.readWord a = x.txPol + 2 ^ 8 * x.rxPol + 2 ^ 16 * (x.txOrder % 2 ^ 16) ∧
      s.readWord (a + 4) = x.txOrder / 2 ^ 16 + 2 ^ 8 * x.rxOrder) ∧
    exec (.registerWrite a 4 v) s = .next s ∧ exec (.registerWrite (a + 4) 4 v) s = .next s ∧ exec (.registerWrite a 8 v) s = .next s

/-- The control registers of a queue read back what a write staged, after clamping (R284). -/
def QueueRegistersReadBack : Prop :=
  ∀ (s t : State) (n e v : Nat), n < 1280 → e < 4 → v < 2 ^ 32 →
    let a := coreWindow n + 0x1000 + 64 * e
    (exec (.registerWrite (a + 8) 4 v) s = .next t →
      t.readWord (a + 8) = max 6 (min 12 (v % 16)) + 2 ^ 4 * (v / 2 ^ 4 % 2) + 2 ^ 5 * (v / 2 ^ 5 % 2)) ∧
    (exec (.registerWrite (a + 0xC) 4 v) s = .next t → t.readWord (a + 0xC) = min v 10000000) ∧
    (exec (.registerWrite a 4 v) s = .next t → t.readWord a = v / 512 * 512 ∧ t.readWord (a + 4) = s.readWord (a + 4)) ∧
    (exec (.registerWrite (a + 4) 4 v) s = .next t → s.readWord (a + 4) < 2 ^ 16 → t.readWord (a + 4) = v % 2 ^ 16 ∧ t.readWord a = s.readWord a)

/-- Registers right after reset, for every core and queue (R136, R172, R173, R247, R284, R387, R522): every bank is ON, a queue has a
ring of 2^12 slots in mode TOKEN and is disabled, the far cache's streaming and prefetch are on with their defaults, profile words
hold 1.0 and the infinities, tracing is off for all engines, the event queue has 16 records and is disabled. -/
def ResetReads : Prop :=
  (∀ n, n < 1280 →
    State.reset.readWord (coreWindow n + 0xC00) = 0xFFFFFFFF ∧ State.reset.readWord (coreWindow n + 0xC04) = 0 ∧
    State.reset.readWord (coreWindow n + 0xE00) = 1 + 2 * 16 + 2 ^ 6 * 2 + 2 ^ 9 + 2 ^ 10 * 4 ∧
    State.reset.readWord (coreWindow n + 0x3100) = 2 ^ 4 * 0xF ∧ State.reset.readWord (coreWindow n + 0x310C) = 4 ∧
    (∀ e, e < 4 → State.reset.readWord (coreWindow n + 0x1000 + 64 * e) = 0 ∧ State.reset.readWord (coreWindow n + 0x1004 + 64 * e) = 0 ∧
      State.reset.readWord (coreWindow n + 0x1008 + 64 * e) = 12 ∧ State.reset.readWord (coreWindow n + 0x100C + 64 * e) = 0) ∧
    (∀ i, i < 16 → State.reset.readWord (coreWindow n + 0x800 + 32 * i) = 0x3F800000 ∧ State.reset.readWord (coreWindow n + 0x804 + 32 * i) = 0 ∧
      State.reset.readWord (coreWindow n + 0x808 + 32 * i) = 0xFF800000 ∧ State.reset.readWord (coreWindow n + 0x80C + 32 * i) = 0x7F800000)) ∧
  State.reset.readWord 0x105010 = 0 ∧ State.reset.readWord 0x105018 = 4 ∧ State.reset.readWord 0x105028 = 0

/-- A command that names a unit the module does not have stops under that name: a core past 1,279, a gang slot past 15, a queue past
3, a port past 16 (DESIGN CHOICE: log entry 5). -/
def AbsentUnitsStop : Prop :=
  ∀ s : State,
    (∀ (g : GangAt) (f : VForm), ¬(g.core < 1280 ∧ g.slot < 16) →
      exec (.addVector g f) s = .fault .noSuchUnit ∧ exec (.fadd g f) s = .fault .noSuchUnit ∧ exec (.addScalar g f) s = .fault .noSuchUnit) ∧
    (∀ core eng, ¬(core < 1280 ∧ eng < 4) → exec (.nopRec core eng) s = .fault .noSuchUnit) ∧
    (∀ p, 17 ≤ p → exec (.portRetrain p) s = .fault .noSuchUnit ∧ exec (.retryTimeout p) s = .fault .noSuchUnit)

end Sys2Proof.Claims

open Sys2Proof

/-- Integer instructions of the scalar slot and CADDR: result, destination, frame. -/
def Obligations.ScalarIntegerInstructions : Prop :=
    (∀ r ∈ Claims.scalarRows, Claims.ScalarInt r) ∧
    Claims.CaddrRuns

/-- Integer, lane, shuffle and reduction instructions of the vector slot. -/
def Obligations.VectorIntegerInstructions : Prop :=
    (∀ r ∈ Claims.vectorRows, Claims.VectorInt r) ∧
    (∀ r ∈ Claims.laneRows, Claims.LaneRuns r) ∧
    Claims.ShflRuns ∧
    Claims.RedRuns

/-- FP32 instructions and conversions: result and flags in each executing lane; every NaN is the canonical one. -/
def Obligations.FloatInstructions : Prop :=
    (∀ r ∈ Claims.floatRows, Claims.FloatRuns r) ∧
    Claims.CvtRuns ∧
    Claims.NanIsCanonical

/-- Predicate instructions; p0 reads as ones and discards writes. -/
def Obligations.PredicateInstructions : Prop :=
    Claims.SetpRuns ∧
    Claims.PlogRuns ∧
    Claims.PbalRuns ∧
    Claims.PsetRuns ∧
    Claims.ScmpRuns ∧
    Claims.PredicateZero

/-- NOP, BRA, BR, LOOP and EXIT of a gang. -/
def Obligations.GangControlFlow : Prop :=
    Claims.NopInsnRuns ∧
    Claims.BraRuns ∧
    Claims.BrRuns ∧
    Claims.LoopInsnRuns ∧
    Claims.ExitRuns

/-- Gangs start and retire, launches time out, code is fetched, undefined encodings fault. -/
def Obligations.GangsStartAndEnd : Prop :=
    Claims.GangStartRuns ∧
    Claims.LaunchRetireRuns ∧
    Claims.LaunchTimeoutRuns ∧
    Claims.CodeFetchRuns ∧
    Claims.IllegalFaults

/-- SLD and SST: issue, grant by the slab port, remote access and reply, rewrite of a corrected codeword. -/
def Obligations.SlabAccessesOfGangs : Prop :=
    Claims.SldIssues ∧
    Claims.SstIssues ∧
    Claims.GrantReadRuns ∧
    Claims.GrantWriteRuns ∧
    Claims.EccRewriteRuns ∧
    Claims.RemoteSlabAccessRuns ∧
    Claims.RemoteSldReplyRuns ∧
    Claims.GrantHeldRuns ∧
    Claims.FreeSlotsAre

/-- LD and ST: hits, misses, write-arounds, and what merging bytes into a line does. -/
def Obligations.FarLoadsAndStores : Prop :=
    Claims.LdHitRuns ∧
    Claims.LdMissRuns ∧
    Claims.StHitRuns ∧
    Claims.StAroundRuns ∧
    Claims.MergeReads

/-- ATOM, its completion at the controller, cache fills and write-backs. -/
def Obligations.AtomicsAndFills : Prop :=
    Claims.AtomRuns ∧
    Claims.AtomCompleteRuns ∧
    Claims.FarCacheFillRuns ∧
    Claims.WritebackAcceptRuns

/-- TSIG, TWAIT, TREAD with its reply, and the arrival of a token. -/
def Obligations.TallyInstructions : Prop :=
    Claims.TsigRuns ∧
    Claims.TwaitHereRuns ∧
    Claims.TwaitAwayRuns ∧
    Claims.TreadRuns ∧
    Claims.TreadReplyRuns ∧
    Claims.TokenArrivalRuns

/-- Operations on tallies at their homes: add, saturate, rebase, watch and wake. -/
def Obligations.TallyOperations : Prop :=
    Claims.HubAddRuns ∧
    Claims.HubSaturates ∧
    Claims.HubRebaseRuns ∧
    Claims.CoreAddRuns ∧
    Claims.WatchRuns ∧
    Claims.WatchRetryRuns ∧
    Claims.WakeGangRuns ∧
    Claims.WakeWaitRuns ∧
    Claims.ReachedIs ∧
    Claims.LowerWaitRuns

/-- FENCE, FSIG and FWAIT of a gang, acquire and release, and the fence object. -/
def Obligations.GangFences : Prop :=
    Claims.FenceInsnRuns ∧
    Claims.AcquireDrops ∧
    Claims.FsigRuns ∧
    Claims.FwaitRuns ∧
    Claims.FwaitPollRuns ∧
    Claims.FsigReplyRuns ∧
    Claims.FwaitReplyRuns ∧
    Claims.ReleaseDoneRuns ∧
    Claims.ReleaseSends

/-- Barrier units, ALLOC and FREE, and the timeout of a wait. -/
def Obligations.BarriersAllocationTimeouts : Prop :=
    Claims.BarrierArrivalRuns ∧
    Claims.BarrierReleaseRuns ∧
    Claims.AllocRuns ∧
    Claims.AllocReplyRuns ∧
    Claims.FreeRuns ∧
    Claims.SyncTimeoutRuns

/-- Queue records NOP, WAIT, SIGNAL and REBASE. -/
def Obligations.TallyRecords : Prop :=
    Claims.NopRecRuns ∧
    Claims.WaitRecRuns ∧
    Claims.SignalRecRuns ∧
    Claims.SignalReleaseRuns ∧
    Claims.RebaseRecRuns

/-- Queue records LOOP, PHASE and CLEAR_FLAGS. -/
def Obligations.LoopAndMarkRecords : Prop :=
    Claims.LoopRecRuns ∧
    Claims.LoopReadRuns ∧
    Claims.LoopCountReadRuns ∧
    Claims.PhaseRecRuns ∧
    Claims.ClearFlagsRuns

/-- Queue records FENCE, BARRIER and LAUNCH. -/
def Obligations.FenceBarrierLaunchRecords : Prop :=
    Claims.FenceRecRuns ∧
    Claims.FenceObjectRuns ∧
    Claims.BarrierRecRuns ∧
    Claims.BarrierTallyRuns ∧
    Claims.LaunchRecRuns

/-- Doorbells, fetching of a ring, commit of its settings, halt and step. -/
def Obligations.QueueRings : Prop :=
    Claims.QdbRuns ∧
    Claims.RingFetchRuns ∧
    Claims.QueueCommitRuns ∧
    Claims.StepControlRuns

/-- POWER and the states of a bank, phase marks, and the write of a counter record. -/
def Obligations.BanksAndPhases : Prop :=
    Claims.PowerRecRuns ∧
    Claims.BankOffRuns ∧
    Claims.BankOnRuns ∧
    Claims.PhaseMarkRuns ∧
    Claims.CounterRecordWriteRuns

/-- MMA, MMAZ, MDRAIN and MCLR of a gang: issue, wait for the window, effect in the array. -/
def Obligations.GangMatrixInstructions : Prop :=
    Claims.GangMatrixIssues ∧
    Claims.MatWaits ∧
    Claims.GangProductRuns ∧
    Claims.GangParityStops ∧
    Claims.GangDrainRuns ∧
    Claims.GangClearRuns

/-- MCLEAR, GANG_WINDOW and its end, starved chutes, converter profiles. -/
def Obligations.MatrixRecords : Prop :=
    Claims.MclearRuns ∧
    Claims.GangWindowRuns ∧
    Claims.GangWindowCloseRuns ∧
    Claims.ChuteStarveRuns ∧
    Claims.CvtCommitRuns

/-- MATMUL, its retirement, and MDRAIN through the output converter. -/
def Obligations.MatmulRecords : Prop :=
    Claims.MatmulRuns ∧
    Claims.MatmulRetireRuns ∧
    Claims.MdrainRuns

/-- MOVE within the module, plain and transposed, and the completion of its requests. -/
def Obligations.MovesWithinTheModule : Prop :=
    Claims.MoveRuns ∧
    Claims.TransposedMoveRuns ∧
    Claims.MoveRequestCompleteRuns ∧
    Claims.MoveSlotRuns ∧
    Claims.SignalFrom

/-- Fallback packets, credits, the landing buffer, and checked host pages. -/
def Obligations.MoveTransport : Prop :=
    Claims.FallbackSlabRuns ∧
    Claims.CreditReturnRuns ∧
    Claims.LandingWriteRuns ∧
    Claims.HostPageRuns ∧
    Claims.TakeSlotRuns ∧
    Claims.SlotFreeRuns ∧
    Claims.SlotPlannedRuns ∧
    Claims.SlotPacedRuns ∧
    Claims.BridgesAre ∧
    Claims.BeatHops ∧
    Claims.PhysRowIs

/-- SIGNAL and MOVE to another module, and the requests of such a move. -/
def Obligations.MovesToOtherModules : Prop :=
    Claims.RemoteSignalRuns ∧
    Claims.RemoteMoveRuns ∧
    Claims.RemoteRequestRuns

/-- Replies of the mailboxes; SET_TABLES, CTX_START, CTX_HOLD, CTX_ACK and CTX_DESTROY. -/
def Obligations.ContextRequests : Prop :=
    Claims.ReplyRuns ∧
    Claims.SetTablesRuns ∧
    Claims.CtxStartRuns ∧
    Claims.CtxHoldAckDestroyRuns

/-- CTX_KILL, and windows: set, refused, applied at quiescence. -/
def Obligations.ContextWindows : Prop :=
    Claims.CtxKillRuns ∧
    Claims.SetWindowRuns ∧
    Claims.SetWindowRefused ∧
    Claims.WindowApplyRuns

/-- Shared objects, event records, and references held by batches of doorbells. -/
def Obligations.ObjectsEventsReferences : Prop :=
    Claims.ObjCreateRuns ∧
    Claims.ObjCreateRefused ∧
    Claims.ObjHostZeroRuns ∧
    Claims.EventRuns ∧
    Claims.RefBatchRuns ∧
    Claims.RefBatchRetireRuns ∧
    Claims.DescShut

/-- The kill of a context, its end, and suspension with the save area written. -/
def Obligations.ContextKillAndSuspend : Prop :=
    Claims.ContextKillRuns ∧
    Claims.KillDrainDoneRuns ∧
    Claims.ContextSuspendRuns

/-- Placement on a bench, its refusals, switch-out, and resumption of a suspended context. -/
def Obligations.PlacementAndSwitching : Prop :=
    Claims.PlacementRuns ∧
    Claims.PlacementRefused ∧
    Claims.SwitchOutRuns ∧
    Claims.CtxResumeRuns

/-- REGISTER_WRITE: what each register takes, its clamps, the forms of a write. -/
def Obligations.RegisterWrites : Prop :=
    Claims.RegisterWriteModule ∧
    Claims.RegisterWriteUnits ∧
    Claims.RegisterWriteForms

/-- BAR2 reads and writes, the event queue, mailboxes, doorbells, and the stages of readiness. -/
def Obligations.HostAccesses : Prop :=
    Claims.Bar2ReadRuns ∧
    Claims.Bar2WriteRuns ∧
    Claims.EvqCommitRuns ∧
    Claims.MailboxSendRuns ∧
    Claims.RpopDbClrRuns ∧
    Claims.DoorbellsRun ∧
    Claims.StagesRun

/-- The Governor: records, control periods, fan and flow faults, model mismatch. -/
def Obligations.GovernorControl : Prop :=
    Claims.ThermalRuns ∧
    Claims.ControlPeriodRuns ∧
    Claims.FanFaultRuns ∧
    Claims.FlowFaultRuns ∧
    Claims.MismatchRuns

/-- Forecasts, ceilings and requests of the Governor, and the trips of dies and bus. -/
def Obligations.GovernorTrips : Prop :=
    Claims.ForecastRuns ∧
    Claims.CeilingRequestsRun ∧
    Claims.TripHotRuns ∧
    Claims.TripReleasesRun

/-- Shutdown, the input stage, and the loss of auxiliary power. -/
def Obligations.PowerLossAndShutdown : Prop :=
    Claims.ShutdownRuns ∧
    Claims.InputRuns ∧
    Claims.AuxPowerLossRuns

/-- FW_BEGIN, FW_DATA, FW_END, FW_COMMIT and the fallback of the boot ROM. -/
def Obligations.FirmwareUpdate : Prop :=
    Claims.FwBeginRuns ∧
    Claims.FwDataRuns ∧
    Claims.FwEndRuns ∧
    Claims.FwCommitRuns ∧
    Claims.FallbackRuns

/-- OWNER_PROGRAM, OWNER_REVOKE, ATTEST, GET_CERT, GET_MARK and GET_TRUST. -/
def Obligations.OwnerKeysAndAttestation : Prop :=
    Claims.OwnerProgramRuns ∧
    Claims.OwnerRevokeRuns ∧
    Claims.AttestRuns ∧
    Claims.GetRuns

/-- The SMBus target: what it serves and what it turns away. -/
def Obligations.SmbusTarget : Prop :=
    Claims.SmbusRefuses ∧
    Claims.SmbusRuns

/-- SITE_IMAGE_APPLY, cold reset, the steps of power-up, and the time base. -/
def Obligations.SiteAndPowerUp : Prop :=
    Claims.SiteApplyRuns ∧
    Claims.ColdResetRuns ∧
    Claims.PowerUpRuns ∧
    Claims.TimeBaseRuns

/-- Function reset, PERST# and warm reset. -/
def Obligations.FunctionAndWarmReset : Prop :=
    Claims.FunctionResetRuns ∧
    Claims.FunctionResetEmpty ∧
    Claims.PerstAssertRuns ∧
    Claims.WarmResetRuns

/-- Removal of the module and its cancellation; scrubbing and the far memory controllers. -/
def Obligations.RemovalAndFarControllers : Prop :=
    Claims.RemoveReqRuns ∧
    Claims.RemovalStepsRun ∧
    Claims.RemoveCancelRuns ∧
    Claims.FarControllersRun

/-- Training, link frames, forwarding and losses of a port; which port a frame leaves by. -/
def Obligations.PortsAndLinks : Prop :=
    Claims.TrainingRuns ∧
    Claims.RetrainRuns ∧
    Claims.PortTimesRun ∧
    Claims.LinkRuns ∧
    Claims.FrameSent ∧
    Claims.LockLostRun

/-- Frames that are turned away; CLAIM, its answers, retry and end. -/
def Obligations.ClaimsOverHaul : Prop :=
    Claims.FramesTurnedAway ∧
    Claims.ClaimRuns ∧
    Claims.ClaimFinalRuns ∧
    Claims.ClaimAckRuns ∧
    Claims.ClaimRetryRuns ∧
    Claims.ClaimEndRuns

/-- WRITE from another module, its commit, and COMMIT_ACK. -/
def Obligations.RemoteWrites : Prop :=
    Claims.WriteRuns ∧
    Claims.CommitRemoteRuns ∧
    Claims.CommitAckRuns

/-- Increments and SIGNAL frames from another module, their acknowledgement, and resending. -/
def Obligations.RemoteSignals : Prop :=
    Claims.RemoteAddRuns ∧
    Claims.SignalFrameRuns ∧
    Claims.SignalAckRuns ∧
    Claims.ResendRuns

/-- HELLO, HEARTBEAT and the freezing of the shadows. -/
def Obligations.TwinPairing : Prop :=
    Claims.FreezeRuns ∧
    Claims.HelloRuns ∧
    Claims.HeartbeatRuns

/-- ROUTE_LOAD, JOB_SET, JOB_CLEAR, RETRAIN, MIRROR_SET, MIRROR_CLEAR, SHADOW_SET and RESTORE. -/
def Obligations.BanksmanRequests : Prop :=
    Claims.RouteLoadRuns ∧
    Claims.JobsRun ∧
    Claims.RetrainRequestRuns ∧
    Claims.MirrorSetRuns ∧
    Claims.ShadowSetRuns ∧
    Claims.RestoreRuns

/-- Epochs close, copies start and go on. -/
def Obligations.MirrorCopies : Prop :=
    Claims.CopyGoesOn ∧
    Claims.CopyStarts ∧
    Claims.EpochPollRuns

/-- MIRROR_WRITE into a shadow buffer or the live ranges, and MIRROR_ACK. -/
def Obligations.ShadowBuffers : Prop :=
    Claims.MirrorWriteRuns ∧
    Claims.MirrorLiveRuns ∧
    Claims.MirrorAckRuns

/-- SETTLE, SETTLE_ACK and RESTORE_REQ. -/
def Obligations.SettlesAndRestores : Prop :=
    Claims.SettleRuns ∧
    Claims.SettleLiveRuns ∧
    Claims.SettleAckRuns ∧
    Claims.SettleAckLiveRuns ∧
    Claims.RestoreReqRuns

/-- Trace, CTX_HALT, sounding of ports and bridges, injected errors, and the self-test. -/
def Obligations.DebugUnits : Prop :=
    Claims.TraceRuns ∧
    Claims.CtxHaltRuns ∧
    Claims.SoundingRuns ∧
    Claims.InjectRuns ∧
    Claims.BridgeRuns ∧
    Claims.SelfTestRuns

/-- A step runs the command at the front of the queue. -/
def Obligations.FrontCommandRuns : Prop :=
    Claims.FrontRuns

/-- On an empty queue the clock moves by one tick (the model's choice, log entry 2). -/
def Obligations.IdleStepTicks : Prop :=
    Claims.IdleTicks

/-- Every step keeps both memories canonical, and takes one command from the queue. -/
def Obligations.MemoriesStayCanonical : Prop :=
    Claims.MemoryKept ∧
    Claims.QueueShrinks

/-- Whatever the command, owner key slots only advance and keep their hashes. -/
def Obligations.OwnerKeysOnlyAdvance : Prop :=
    Claims.OtpAdvances

/-- Channel and offset of every far memory address; a page lies whole in one channel; no two addresses share a place. -/
def Obligations.FarMemoryAddressMap : Prop :=
    Claims.FarChannels ∧
    Claims.FarPlacesApart

/-- SLAB_PWR and SLAB_PWR_BUSY say the state of each bank and ignore writes. -/
def Obligations.SlabPowerRegistersRead : Prop :=
    Claims.SlabPowerRegisters

/-- Queue registers read back clamped values; lane settings read from the site image and ignore writes. -/
def Obligations.RegistersReadBack : Prop :=
    Claims.QueueRegistersReadBack ∧
    Claims.PortLaneRegisters

/-- Registers right after reset, and the memories in canonical form. -/
def Obligations.ResetValues : Prop :=
    Claims.ResetReads ∧
    Claims.ResetMemory

/-- A command that names a unit the module does not have stops by name (the model's choice, log entry 5). -/
def Obligations.AbsentUnitsFault : Prop :=
    Claims.AbsentUnitsStop

/-- What the events of a matrix record do in their cycles: planned reads, passes, drains, output slabs, and what holds or stops them. -/
def Obligations.ArrayEvents : Prop :=
    Claims.MatmulTimes ∧
    Claims.ArrayIdle ∧
    Claims.ArrayReads ∧
    Claims.ArrayReadFaults ∧
    Claims.ArrayComputes ∧
    Claims.ArrayParityStops ∧
    Claims.ArrayDrains ∧
    Claims.ArrayWrites ∧
    Claims.ArrayWriteDropped ∧
    Claims.ArrayHolds
end

