-- ==== Sys2Proof/Laws/Map.lean ====
section
/-!
SUPPORT. Laws of the two containers: sparse tables and byte memories.
-/

namespace Sys2Proof.Machine

/-! ### Tables -/

@[simp] theorem tblFind_tblSet_self {α : Type} (k : Nat) (v : α) (t : Tbl α) : tblFind k (tblSet k v t) = some v := by
  induction t with
  | nil => simp [tblSet, tblFind]
  | cons e t ih =>
    obtain ⟨j, w⟩ := e
    unfold tblSet
    split
    · simp [tblFind]
    · split
      · simp [tblFind]
      · have : j ≠ k := fun h => by omega
        simp [tblFind, this, ih]

theorem tblFind_tblSet_ne {α : Type} {j k : Nat} (h : j ≠ k) (v : α) (t : Tbl α) :
    tblFind j (tblSet k v t) = tblFind j t := by
  induction t with
  | nil => simp [tblSet, tblFind, h.symm]
  | cons e t ih =>
    obtain ⟨i, w⟩ := e
    unfold tblSet
    split
    · simp [tblFind, h.symm]
    · split
      · next hk => subst hk; simp [tblFind, h.symm]
      · by_cases hi : i = j <;> simp [tblFind, hi, ih]

@[simp] theorem tblGet_tblSet_self {α : Type} (d : α) (k : Nat) (v : α) (t : Tbl α) : tblGet d (tblSet k v t) k = v := by
  simp [tblGet]

theorem tblGet_tblSet_ne {α : Type} (d : α) {j k : Nat} (h : j ≠ k) (v : α) (t : Tbl α) :
    tblGet d (tblSet k v t) j = tblGet d t j := by
  simp [tblGet, tblFind_tblSet_ne h]

theorem tblGet_tblSet {α : Type} (d : α) (j k : Nat) (v : α) (t : Tbl α) :
    tblGet d (tblSet k v t) j = if j = k then v else tblGet d t j := by
  by_cases h : j = k
  · subst h; simp
  · simp [h, tblGet_tblSet_ne d h]

@[simp] theorem tblSet_tblSet_self {α : Type} (k : Nat) (v w : α) (t : Tbl α) : tblSet k v (tblSet k w t) = tblSet k v t := by
  induction t with
  | nil => simp [tblSet]
  | cons c t ih =>
    obtain ⟨j, x⟩ := c
    by_cases h1 : k < j
    · simp [tblSet, h1]
    · by_cases h2 : k = j
      · simp [tblSet, h2]
      · simp [tblSet, h1, h2, ih]

@[simp] theorem tblGet_nil {α : Type} (d : α) (k : Nat) : tblGet d ([] : Tbl α) k = d := rfl

theorem tblFind_tblDrop_ne {α : Type} {j k : Nat} (h : j ≠ k) (t : Tbl α) : tblFind j (tblDrop k t) = tblFind j t := by
  induction t with
  | nil => rfl
  | cons e t ih =>
    obtain ⟨i, w⟩ := e
    unfold tblDrop
    split
    · next hi => subst hi; simp [tblFind, h.symm]
    · by_cases hi : i = j <;> simp [tblFind, hi, ih]

/-! ### Memories -/

@[simp] theorem Memory.wf_nil : Memory.wf [] = true := rfl

/-- The canonical form of a non-empty memory, in one line. -/
theorem Memory.wf_cons {k : Nat} {v : Byte} {t : Mem} :
    Memory.wf ((k, v) :: t) = true ↔ v ≠ 0 ∧ memAbove k t = true ∧ Memory.wf t = true := by
  simp [Memory.wf, and_assoc]

/-- Below the first address everything reads 0. -/
theorem memRead_of_above {a : Nat} {t : Mem} (ha : memAbove a t = true) (hw : Memory.wf t = true) {b : Nat} (hb : b ≤ a) :
    memRead t b = 0 := by
  induction t generalizing a with
  | nil => rfl
  | cons e t ih =>
    obtain ⟨k, v⟩ := e
    simp [memAbove] at ha
    rw [Memory.wf_cons] at hw
    have hk : k ≠ b := by omega
    simp [memRead, hk, ih hw.2.1 hw.2.2 (by omega)]

theorem memAbove_mono {a b : Nat} {t : Mem} (h : memAbove a t = true) (hb : b ≤ a) : memAbove b t = true := by
  cases t with
  | nil => rfl
  | cons e t => simp [memAbove] at *; omega

theorem memAbove_memWrite {c a : Nat} {t : Mem} (b : Byte) (hc : c < a) (h : memAbove c t = true) (hw : Memory.wf t = true) :
    memAbove c (memWrite t a b) = true := by
  cases t with
  | nil => unfold memWrite; split <;> simp [memAbove, hc]
  | cons e t =>
    obtain ⟨k, v⟩ := e
    rw [Memory.wf_cons] at hw
    have hk : c < k := by simpa [memAbove] using h
    unfold memWrite
    split
    · split <;> simp [memAbove, hc, hk]
    · split
      · split
        · exact memAbove_mono hw.2.1 (by omega)
        · simp [memAbove, hc]
      · simp [memAbove, hk]

/-- A write keeps the canonical form. -/
theorem memWrite_wf {m : Mem} (h : Memory.wf m = true) (a : Nat) (b : Byte) : Memory.wf (memWrite m a b) = true := by
  induction m with
  | nil => unfold memWrite; split <;> simp_all [Memory.wf, memAbove]
  | cons e t ih =>
    obtain ⟨k, v⟩ := e
    have hw := Memory.wf_cons.1 h
    unfold memWrite
    split
    · split
      · exact h
      · exact Memory.wf_cons.2 ⟨‹_›, by simpa [memAbove], h⟩
    · split
      · next hk =>
        subst hk
        split
        · exact hw.2.2
        · exact Memory.wf_cons.2 ⟨‹_›, hw.2.1, hw.2.2⟩
      · exact Memory.wf_cons.2 ⟨hw.1, memAbove_memWrite b (by omega) hw.2.1 hw.2.2, ih hw.2.2⟩

/-- A byte written is read back. -/
theorem memRead_memWrite_self {m : Mem} (h : Memory.wf m = true) (a : Nat) (b : Byte) : memRead (memWrite m a b) a = b := by
  induction m with
  | nil => unfold memWrite; split <;> simp_all [memRead]
  | cons e t ih =>
    obtain ⟨k, v⟩ := e
    have hw := Memory.wf_cons.1 h
    unfold memWrite
    split
    · next hk =>
      split
      · next hb =>
        have : k ≠ a := by omega
        simp [memRead, this, hb, memRead_of_above hw.2.1 hw.2.2 (Nat.le_of_lt hk)]
      · simp [memRead]
    · split
      · next hk =>
        subst hk
        split
        · next hb => simp [hb, memRead_of_above hw.2.1 hw.2.2 (Nat.le_refl _)]
        · simp [memRead]
      · next h1 h2 =>
        have : k ≠ a := fun hh => h2 hh.symm
        simp [memRead, this, ih hw.2.2]

/-- A write leaves every other byte alone. -/
theorem memRead_memWrite_ne {a c : Nat} (hc : c ≠ a) (m : Mem) (b : Byte) : memRead (memWrite m a b) c = memRead m c := by
  induction m with
  | nil => unfold memWrite; split <;> simp [memRead, hc.symm]
  | cons e t ih =>
    obtain ⟨k, v⟩ := e
    unfold memWrite
    split
    · split
      · rfl
      · simp [memRead, hc.symm]
    · split
      · next hk =>
        subst hk
        split <;> simp [memRead, hc.symm]
      · by_cases hk : k = c <;> simp [memRead, hk, ih]

theorem memWriteN_wf {m : Mem} (h : Memory.wf m = true) (a : Nat) (bs : List Byte) : Memory.wf (memWriteN m a bs) = true := by
  induction bs generalizing m a with
  | nil => exact h
  | cons b bs ih => exact ih (memWrite_wf h a b) (a + 1)

theorem memFold_wf {α : Type} (a : α → Nat) (b : α → Byte) (xs : List α) {m : Mem} (h : Memory.wf m = true) :
    Memory.wf (xs.foldl (fun m x => memWrite m (a x) (b x)) m) = true := by
  induction xs generalizing m with
  | nil => exact h
  | cons x xs ih => exact ih (memWrite_wf h _ _)

/-- Outside the range written nothing changes. -/
theorem memRead_memWriteN_ne {a c : Nat} (m : Mem) (bs : List Byte) (hc : c < a ∨ a + bs.length ≤ c) :
    memRead (memWriteN m a bs) c = memRead m c := by
  induction bs generalizing m a with
  | nil => rfl
  | cons b bs ih =>
    simp only [List.length_cons] at hc
    rw [memWriteN, ih _ (by omega), memRead_memWrite_ne (by omega)]

/-- A range written is read back. -/
theorem memReadN_memWriteN {m : Mem} (h : Memory.wf m = true) (a : Nat) (bs : List Byte) :
    memReadN (memWriteN m a bs) a bs.length = bs := by
  induction bs generalizing m a with
  | nil => rfl
  | cons b bs ih =>
    rw [memWriteN, List.length_cons, memReadN, ih (memWrite_wf h a b),
      memRead_memWriteN_ne _ _ (Or.inl (Nat.lt_succ_self a)), memRead_memWrite_self h]

theorem memReadN_drop (m : Mem) (a n j : Nat) : (memReadN m a n).drop j = memReadN m (a + j) (n - j) := by
  induction n generalizing a j with
  | zero => simp [memReadN]
  | succ n ih =>
    cases j with
    | zero => simp
    | succ j => simp only [memReadN, List.drop_succ_cons, ih]; congr 1 <;> omega

theorem memReadN_take (m : Mem) (a n k : Nat) : (memReadN m a n).take k = memReadN m a (min k n) := by
  induction n generalizing a k with
  | zero => simp [memReadN]
  | succ n ih =>
    cases k with
    | zero => simp [memReadN]
    | succ k => rw [show min (k + 1) (n + 1) = min k n + 1 by omega]; simp only [memReadN, List.take_succ_cons, ih]

theorem memAbove_filter {a : Nat} {m : Mem} (p : Host.Cell → Bool) (h : memAbove a m = true) (hw : Memory.wf m = true) :
    memAbove a (m.filter p) = true := by
  induction m generalizing a with
  | nil => rfl
  | cons e t ih =>
    obtain ⟨k, v⟩ := e
    rw [Memory.wf_cons] at hw
    have hk : a < k := by simpa [memAbove] using h
    rw [List.filter_cons]
    split
    · simpa [memAbove] using hk
    · exact ih (memAbove_mono hw.2.1 (by omega)) hw.2.2

/-- Dropping entries keeps the canonical form. -/
theorem Memory.wf_filter {m : Mem} (h : Memory.wf m = true) (p : Host.Cell → Bool) : Memory.wf (m.filter p) = true := by
  induction m with
  | nil => rfl
  | cons e t ih =>
    obtain ⟨k, v⟩ := e
    have hw := Memory.wf_cons.1 h
    rw [List.filter_cons]
    split
    · exact Memory.wf_cons.2 ⟨hw.1, memAbove_filter p hw.2.1 hw.2.2, ih hw.2.2⟩
    · exact ih hw.2.2

theorem memClear_wf {m : Mem} (h : Memory.wf m = true) (lo hi : Nat) : Memory.wf (memClear m lo hi) = true :=
  Memory.wf_filter h _

theorem memRead_filter (p : Host.Cell → Bool) (q : Nat → Bool) (hp : ∀ c, p c = q c.1) (m : Mem) (a : Nat) :
    memRead (m.filter p) a = if q a then memRead m a else 0 := by
  induction m with
  | nil => simp [memRead]
  | cons e t ih =>
    obtain ⟨k, v⟩ := e
    rw [List.filter_cons, hp]
    by_cases hk : k = a
    · subst hk
      by_cases hq : q k = true
      · simp [hq, memRead]
      · simp only [hq] at ih; simp [hq, ih]
    · by_cases hq : q k = true <;> simp [hq, memRead, hk, ih]

/-- A cleared byte reads 0; every other byte is as before. -/
theorem memRead_memClear (m : Mem) (lo hi a : Nat) : memRead (memClear m lo hi) a = if lo ≤ a ∧ a < hi then 0 else memRead m a := by
  rw [memClear, memRead_filter _ (fun k => !(decide (lo ≤ k) && decide (k < hi))) (fun _ => rfl)]
  by_cases h1 : lo ≤ a <;> by_cases h2 : a < hi <;> simp [h1, h2]
  all_goals omega

/-- As many bytes are read as were asked for. -/
@[simp] theorem memReadN_length (m : Mem) (a n : Nat) : (memReadN m a n).length = n := by
  induction n generalizing a with
  | zero => rfl
  | succ n ih => rw [memReadN, List.length_cons, ih]

end Sys2Proof.Machine
end

