-- ==== Sys2Proof/Laws/State.lean ====
section
/-! SUPPORT. What every named update leaves as it was, one lemma per update and field of the state, and what reading a
unit after an update of it gives. -/

namespace Sys2Proof.Machine

@[simp] theorem State.setCore_pending (s : State) (n : Nat) (k : Core) : (s.setCore n k).pending = s.pending := rfl
@[simp] theorem State.setCore_half (s : State) (n : Nat) (k : Core) : (s.setCore n k).half = s.half := rfl
@[simp] theorem State.setCore_corrected (s : State) (n : Nat) (k : Core) : (s.setCore n k).corrected = s.corrected := rfl
@[simp] theorem State.setCore_dies (s : State) (n : Nat) (k : Core) : (s.setCore n k).dies = s.dies := rfl
@[simp] theorem State.setCore_far (s : State) (n : Nat) (k : Core) : (s.setCore n k).far = s.far := rfl
@[simp] theorem State.setCore_host (s : State) (n : Nat) (k : Core) : (s.setCore n k).host = s.host := rfl
@[simp] theorem State.setCore_net (s : State) (n : Nat) (k : Core) : (s.setCore n k).net = s.net := rfl
@[simp] theorem State.setCore_hub (s : State) (n : Nat) (k : Core) : (s.setCore n k).hub = s.hub := rfl
@[simp] theorem State.setCore_ctxs (s : State) (n : Nat) (k : Core) : (s.setCore n k).ctxs = s.ctxs := rfl
@[simp] theorem State.setCore_fman (s : State) (n : Nat) (k : Core) : (s.setCore n k).fman = s.fman := rfl
@[simp] theorem State.setCore_links (s : State) (n : Nat) (k : Core) : (s.setCore n k).links = s.links := rfl
@[simp] theorem State.setCore_pci (s : State) (n : Nat) (k : Core) : (s.setCore n k).pci = s.pci := rfl
@[simp] theorem State.setCore_site (s : State) (n : Nat) (k : Core) : (s.setCore n k).site = s.site := rfl
@[simp] theorem State.setCore_trust (s : State) (n : Nat) (k : Core) : (s.setCore n k).trust = s.trust := rfl
@[simp] theorem State.setCore_gov (s : State) (n : Nat) (k : Core) : (s.setCore n k).gov = s.gov := rfl
@[simp] theorem State.setCore_power (s : State) (n : Nat) (k : Core) : (s.setCore n k).power = s.power := rfl
@[simp] theorem State.setCore_resets (s : State) (n : Nat) (k : Core) : (s.setCore n k).resets = s.resets := rfl
@[simp] theorem State.setCore_dbg (s : State) (n : Nat) (k : Core) : (s.setCore n k).dbg = s.dbg := rfl
@[simp] theorem State.setCore_waitUs (s : State) (n : Nat) (k : Core) : (s.setCore n k).waitUs = s.waitUs := rfl
@[simp] theorem State.setCore_rings (s : State) (n : Nat) (k : Core) : (s.setCore n k).rings = s.rings := rfl
@[simp] theorem State.setCore_draws (s : State) (n : Nat) (k : Core) : (s.setCore n k).draws = s.draws := rfl

@[simp] theorem State.modCore_pending (s : State) (n : Nat) (f : Core → Core) : (s.modCore n f).pending = s.pending := rfl
@[simp] theorem State.modCore_half (s : State) (n : Nat) (f : Core → Core) : (s.modCore n f).half = s.half := rfl
@[simp] theorem State.modCore_corrected (s : State) (n : Nat) (f : Core → Core) : (s.modCore n f).corrected = s.corrected := rfl
@[simp] theorem State.modCore_dies (s : State) (n : Nat) (f : Core → Core) : (s.modCore n f).dies = s.dies := rfl
@[simp] theorem State.modCore_far (s : State) (n : Nat) (f : Core → Core) : (s.modCore n f).far = s.far := rfl
@[simp] theorem State.modCore_host (s : State) (n : Nat) (f : Core → Core) : (s.modCore n f).host = s.host := rfl
@[simp] theorem State.modCore_net (s : State) (n : Nat) (f : Core → Core) : (s.modCore n f).net = s.net := rfl
@[simp] theorem State.modCore_hub (s : State) (n : Nat) (f : Core → Core) : (s.modCore n f).hub = s.hub := rfl
@[simp] theorem State.modCore_ctxs (s : State) (n : Nat) (f : Core → Core) : (s.modCore n f).ctxs = s.ctxs := rfl
@[simp] theorem State.modCore_fman (s : State) (n : Nat) (f : Core → Core) : (s.modCore n f).fman = s.fman := rfl
@[simp] theorem State.modCore_links (s : State) (n : Nat) (f : Core → Core) : (s.modCore n f).links = s.links := rfl
@[simp] theorem State.modCore_pci (s : State) (n : Nat) (f : Core → Core) : (s.modCore n f).pci = s.pci := rfl
@[simp] theorem State.modCore_site (s : State) (n : Nat) (f : Core → Core) : (s.modCore n f).site = s.site := rfl
@[simp] theorem State.modCore_trust (s : State) (n : Nat) (f : Core → Core) : (s.modCore n f).trust = s.trust := rfl
@[simp] theorem State.modCore_gov (s : State) (n : Nat) (f : Core → Core) : (s.modCore n f).gov = s.gov := rfl
@[simp] theorem State.modCore_power (s : State) (n : Nat) (f : Core → Core) : (s.modCore n f).power = s.power := rfl
@[simp] theorem State.modCore_resets (s : State) (n : Nat) (f : Core → Core) : (s.modCore n f).resets = s.resets := rfl
@[simp] theorem State.modCore_dbg (s : State) (n : Nat) (f : Core → Core) : (s.modCore n f).dbg = s.dbg := rfl
@[simp] theorem State.modCore_waitUs (s : State) (n : Nat) (f : Core → Core) : (s.modCore n f).waitUs = s.waitUs := rfl
@[simp] theorem State.modCore_rings (s : State) (n : Nat) (f : Core → Core) : (s.modCore n f).rings = s.rings := rfl
@[simp] theorem State.modCore_draws (s : State) (n : Nat) (f : Core → Core) : (s.modCore n f).draws = s.draws := rfl

@[simp] theorem State.setQueue_pending (s : State) (n e : Nat) (q : Queue) : (s.setQueue n e q).pending = s.pending := rfl
@[simp] theorem State.setQueue_half (s : State) (n e : Nat) (q : Queue) : (s.setQueue n e q).half = s.half := rfl
@[simp] theorem State.setQueue_corrected (s : State) (n e : Nat) (q : Queue) : (s.setQueue n e q).corrected = s.corrected := rfl
@[simp] theorem State.setQueue_dies (s : State) (n e : Nat) (q : Queue) : (s.setQueue n e q).dies = s.dies := rfl
@[simp] theorem State.setQueue_far (s : State) (n e : Nat) (q : Queue) : (s.setQueue n e q).far = s.far := rfl
@[simp] theorem State.setQueue_host (s : State) (n e : Nat) (q : Queue) : (s.setQueue n e q).host = s.host := rfl
@[simp] theorem State.setQueue_net (s : State) (n e : Nat) (q : Queue) : (s.setQueue n e q).net = s.net := rfl
@[simp] theorem State.setQueue_hub (s : State) (n e : Nat) (q : Queue) : (s.setQueue n e q).hub = s.hub := rfl
@[simp] theorem State.setQueue_ctxs (s : State) (n e : Nat) (q : Queue) : (s.setQueue n e q).ctxs = s.ctxs := rfl
@[simp] theorem State.setQueue_fman (s : State) (n e : Nat) (q : Queue) : (s.setQueue n e q).fman = s.fman := rfl
@[simp] theorem State.setQueue_links (s : State) (n e : Nat) (q : Queue) : (s.setQueue n e q).links = s.links := rfl
@[simp] theorem State.setQueue_pci (s : State) (n e : Nat) (q : Queue) : (s.setQueue n e q).pci = s.pci := rfl
@[simp] theorem State.setQueue_site (s : State) (n e : Nat) (q : Queue) : (s.setQueue n e q).site = s.site := rfl
@[simp] theorem State.setQueue_trust (s : State) (n e : Nat) (q : Queue) : (s.setQueue n e q).trust = s.trust := rfl
@[simp] theorem State.setQueue_gov (s : State) (n e : Nat) (q : Queue) : (s.setQueue n e q).gov = s.gov := rfl
@[simp] theorem State.setQueue_power (s : State) (n e : Nat) (q : Queue) : (s.setQueue n e q).power = s.power := rfl
@[simp] theorem State.setQueue_resets (s : State) (n e : Nat) (q : Queue) : (s.setQueue n e q).resets = s.resets := rfl
@[simp] theorem State.setQueue_dbg (s : State) (n e : Nat) (q : Queue) : (s.setQueue n e q).dbg = s.dbg := rfl
@[simp] theorem State.setQueue_waitUs (s : State) (n e : Nat) (q : Queue) : (s.setQueue n e q).waitUs = s.waitUs := rfl
@[simp] theorem State.setQueue_rings (s : State) (n e : Nat) (q : Queue) : (s.setQueue n e q).rings = s.rings := rfl
@[simp] theorem State.setQueue_draws (s : State) (n e : Nat) (q : Queue) : (s.setQueue n e q).draws = s.draws := rfl

@[simp] theorem State.modQueue_pending (s : State) (n e : Nat) (f : Queue → Queue) : (s.modQueue n e f).pending = s.pending := rfl
@[simp] theorem State.modQueue_half (s : State) (n e : Nat) (f : Queue → Queue) : (s.modQueue n e f).half = s.half := rfl
@[simp] theorem State.modQueue_corrected (s : State) (n e : Nat) (f : Queue → Queue) : (s.modQueue n e f).corrected = s.corrected := rfl
@[simp] theorem State.modQueue_dies (s : State) (n e : Nat) (f : Queue → Queue) : (s.modQueue n e f).dies = s.dies := rfl
@[simp] theorem State.modQueue_far (s : State) (n e : Nat) (f : Queue → Queue) : (s.modQueue n e f).far = s.far := rfl
@[simp] theorem State.modQueue_host (s : State) (n e : Nat) (f : Queue → Queue) : (s.modQueue n e f).host = s.host := rfl
@[simp] theorem State.modQueue_net (s : State) (n e : Nat) (f : Queue → Queue) : (s.modQueue n e f).net = s.net := rfl
@[simp] theorem State.modQueue_hub (s : State) (n e : Nat) (f : Queue → Queue) : (s.modQueue n e f).hub = s.hub := rfl
@[simp] theorem State.modQueue_ctxs (s : State) (n e : Nat) (f : Queue → Queue) : (s.modQueue n e f).ctxs = s.ctxs := rfl
@[simp] theorem State.modQueue_fman (s : State) (n e : Nat) (f : Queue → Queue) : (s.modQueue n e f).fman = s.fman := rfl
@[simp] theorem State.modQueue_links (s : State) (n e : Nat) (f : Queue → Queue) : (s.modQueue n e f).links = s.links := rfl
@[simp] theorem State.modQueue_pci (s : State) (n e : Nat) (f : Queue → Queue) : (s.modQueue n e f).pci = s.pci := rfl
@[simp] theorem State.modQueue_site (s : State) (n e : Nat) (f : Queue → Queue) : (s.modQueue n e f).site = s.site := rfl
@[simp] theorem State.modQueue_trust (s : State) (n e : Nat) (f : Queue → Queue) : (s.modQueue n e f).trust = s.trust := rfl
@[simp] theorem State.modQueue_gov (s : State) (n e : Nat) (f : Queue → Queue) : (s.modQueue n e f).gov = s.gov := rfl
@[simp] theorem State.modQueue_power (s : State) (n e : Nat) (f : Queue → Queue) : (s.modQueue n e f).power = s.power := rfl
@[simp] theorem State.modQueue_resets (s : State) (n e : Nat) (f : Queue → Queue) : (s.modQueue n e f).resets = s.resets := rfl
@[simp] theorem State.modQueue_dbg (s : State) (n e : Nat) (f : Queue → Queue) : (s.modQueue n e f).dbg = s.dbg := rfl
@[simp] theorem State.modQueue_waitUs (s : State) (n e : Nat) (f : Queue → Queue) : (s.modQueue n e f).waitUs = s.waitUs := rfl
@[simp] theorem State.modQueue_rings (s : State) (n e : Nat) (f : Queue → Queue) : (s.modQueue n e f).rings = s.rings := rfl
@[simp] theorem State.modQueue_draws (s : State) (n e : Nat) (f : Queue → Queue) : (s.modQueue n e f).draws = s.draws := rfl

@[simp] theorem State.setGang_pending (s : State) (n sl : Nat) (g : Gang) : (s.setGang n sl g).pending = s.pending := rfl
@[simp] theorem State.setGang_half (s : State) (n sl : Nat) (g : Gang) : (s.setGang n sl g).half = s.half := rfl
@[simp] theorem State.setGang_corrected (s : State) (n sl : Nat) (g : Gang) : (s.setGang n sl g).corrected = s.corrected := rfl
@[simp] theorem State.setGang_dies (s : State) (n sl : Nat) (g : Gang) : (s.setGang n sl g).dies = s.dies := rfl
@[simp] theorem State.setGang_far (s : State) (n sl : Nat) (g : Gang) : (s.setGang n sl g).far = s.far := rfl
@[simp] theorem State.setGang_host (s : State) (n sl : Nat) (g : Gang) : (s.setGang n sl g).host = s.host := rfl
@[simp] theorem State.setGang_net (s : State) (n sl : Nat) (g : Gang) : (s.setGang n sl g).net = s.net := rfl
@[simp] theorem State.setGang_hub (s : State) (n sl : Nat) (g : Gang) : (s.setGang n sl g).hub = s.hub := rfl
@[simp] theorem State.setGang_ctxs (s : State) (n sl : Nat) (g : Gang) : (s.setGang n sl g).ctxs = s.ctxs := rfl
@[simp] theorem State.setGang_fman (s : State) (n sl : Nat) (g : Gang) : (s.setGang n sl g).fman = s.fman := rfl
@[simp] theorem State.setGang_links (s : State) (n sl : Nat) (g : Gang) : (s.setGang n sl g).links = s.links := rfl
@[simp] theorem State.setGang_pci (s : State) (n sl : Nat) (g : Gang) : (s.setGang n sl g).pci = s.pci := rfl
@[simp] theorem State.setGang_site (s : State) (n sl : Nat) (g : Gang) : (s.setGang n sl g).site = s.site := rfl
@[simp] theorem State.setGang_trust (s : State) (n sl : Nat) (g : Gang) : (s.setGang n sl g).trust = s.trust := rfl
@[simp] theorem State.setGang_gov (s : State) (n sl : Nat) (g : Gang) : (s.setGang n sl g).gov = s.gov := rfl
@[simp] theorem State.setGang_power (s : State) (n sl : Nat) (g : Gang) : (s.setGang n sl g).power = s.power := rfl
@[simp] theorem State.setGang_resets (s : State) (n sl : Nat) (g : Gang) : (s.setGang n sl g).resets = s.resets := rfl
@[simp] theorem State.setGang_dbg (s : State) (n sl : Nat) (g : Gang) : (s.setGang n sl g).dbg = s.dbg := rfl
@[simp] theorem State.setGang_waitUs (s : State) (n sl : Nat) (g : Gang) : (s.setGang n sl g).waitUs = s.waitUs := rfl
@[simp] theorem State.setGang_rings (s : State) (n sl : Nat) (g : Gang) : (s.setGang n sl g).rings = s.rings := rfl
@[simp] theorem State.setGang_draws (s : State) (n sl : Nat) (g : Gang) : (s.setGang n sl g).draws = s.draws := rfl

@[simp] theorem State.modGang_pending (s : State) (n sl : Nat) (f : Gang → Gang) : (s.modGang n sl f).pending = s.pending := rfl
@[simp] theorem State.modGang_half (s : State) (n sl : Nat) (f : Gang → Gang) : (s.modGang n sl f).half = s.half := rfl
@[simp] theorem State.modGang_corrected (s : State) (n sl : Nat) (f : Gang → Gang) : (s.modGang n sl f).corrected = s.corrected := rfl
@[simp] theorem State.modGang_dies (s : State) (n sl : Nat) (f : Gang → Gang) : (s.modGang n sl f).dies = s.dies := rfl
@[simp] theorem State.modGang_far (s : State) (n sl : Nat) (f : Gang → Gang) : (s.modGang n sl f).far = s.far := rfl
@[simp] theorem State.modGang_host (s : State) (n sl : Nat) (f : Gang → Gang) : (s.modGang n sl f).host = s.host := rfl
@[simp] theorem State.modGang_net (s : State) (n sl : Nat) (f : Gang → Gang) : (s.modGang n sl f).net = s.net := rfl
@[simp] theorem State.modGang_hub (s : State) (n sl : Nat) (f : Gang → Gang) : (s.modGang n sl f).hub = s.hub := rfl
@[simp] theorem State.modGang_ctxs (s : State) (n sl : Nat) (f : Gang → Gang) : (s.modGang n sl f).ctxs = s.ctxs := rfl
@[simp] theorem State.modGang_fman (s : State) (n sl : Nat) (f : Gang → Gang) : (s.modGang n sl f).fman = s.fman := rfl
@[simp] theorem State.modGang_links (s : State) (n sl : Nat) (f : Gang → Gang) : (s.modGang n sl f).links = s.links := rfl
@[simp] theorem State.modGang_pci (s : State) (n sl : Nat) (f : Gang → Gang) : (s.modGang n sl f).pci = s.pci := rfl
@[simp] theorem State.modGang_site (s : State) (n sl : Nat) (f : Gang → Gang) : (s.modGang n sl f).site = s.site := rfl
@[simp] theorem State.modGang_trust (s : State) (n sl : Nat) (f : Gang → Gang) : (s.modGang n sl f).trust = s.trust := rfl
@[simp] theorem State.modGang_gov (s : State) (n sl : Nat) (f : Gang → Gang) : (s.modGang n sl f).gov = s.gov := rfl
@[simp] theorem State.modGang_power (s : State) (n sl : Nat) (f : Gang → Gang) : (s.modGang n sl f).power = s.power := rfl
@[simp] theorem State.modGang_resets (s : State) (n sl : Nat) (f : Gang → Gang) : (s.modGang n sl f).resets = s.resets := rfl
@[simp] theorem State.modGang_dbg (s : State) (n sl : Nat) (f : Gang → Gang) : (s.modGang n sl f).dbg = s.dbg := rfl
@[simp] theorem State.modGang_waitUs (s : State) (n sl : Nat) (f : Gang → Gang) : (s.modGang n sl f).waitUs = s.waitUs := rfl
@[simp] theorem State.modGang_rings (s : State) (n sl : Nat) (f : Gang → Gang) : (s.modGang n sl f).rings = s.rings := rfl
@[simp] theorem State.modGang_draws (s : State) (n sl : Nat) (f : Gang → Gang) : (s.modGang n sl f).draws = s.draws := rfl

@[simp] theorem State.modSlab_pending (s : State) (n : Nat) (f : Slab → Slab) : (s.modSlab n f).pending = s.pending := rfl
@[simp] theorem State.modSlab_half (s : State) (n : Nat) (f : Slab → Slab) : (s.modSlab n f).half = s.half := rfl
@[simp] theorem State.modSlab_corrected (s : State) (n : Nat) (f : Slab → Slab) : (s.modSlab n f).corrected = s.corrected := rfl
@[simp] theorem State.modSlab_dies (s : State) (n : Nat) (f : Slab → Slab) : (s.modSlab n f).dies = s.dies := rfl
@[simp] theorem State.modSlab_far (s : State) (n : Nat) (f : Slab → Slab) : (s.modSlab n f).far = s.far := rfl
@[simp] theorem State.modSlab_host (s : State) (n : Nat) (f : Slab → Slab) : (s.modSlab n f).host = s.host := rfl
@[simp] theorem State.modSlab_net (s : State) (n : Nat) (f : Slab → Slab) : (s.modSlab n f).net = s.net := rfl
@[simp] theorem State.modSlab_hub (s : State) (n : Nat) (f : Slab → Slab) : (s.modSlab n f).hub = s.hub := rfl
@[simp] theorem State.modSlab_ctxs (s : State) (n : Nat) (f : Slab → Slab) : (s.modSlab n f).ctxs = s.ctxs := rfl
@[simp] theorem State.modSlab_fman (s : State) (n : Nat) (f : Slab → Slab) : (s.modSlab n f).fman = s.fman := rfl
@[simp] theorem State.modSlab_links (s : State) (n : Nat) (f : Slab → Slab) : (s.modSlab n f).links = s.links := rfl
@[simp] theorem State.modSlab_pci (s : State) (n : Nat) (f : Slab → Slab) : (s.modSlab n f).pci = s.pci := rfl
@[simp] theorem State.modSlab_site (s : State) (n : Nat) (f : Slab → Slab) : (s.modSlab n f).site = s.site := rfl
@[simp] theorem State.modSlab_trust (s : State) (n : Nat) (f : Slab → Slab) : (s.modSlab n f).trust = s.trust := rfl
@[simp] theorem State.modSlab_gov (s : State) (n : Nat) (f : Slab → Slab) : (s.modSlab n f).gov = s.gov := rfl
@[simp] theorem State.modSlab_power (s : State) (n : Nat) (f : Slab → Slab) : (s.modSlab n f).power = s.power := rfl
@[simp] theorem State.modSlab_resets (s : State) (n : Nat) (f : Slab → Slab) : (s.modSlab n f).resets = s.resets := rfl
@[simp] theorem State.modSlab_dbg (s : State) (n : Nat) (f : Slab → Slab) : (s.modSlab n f).dbg = s.dbg := rfl
@[simp] theorem State.modSlab_waitUs (s : State) (n : Nat) (f : Slab → Slab) : (s.modSlab n f).waitUs = s.waitUs := rfl
@[simp] theorem State.modSlab_rings (s : State) (n : Nat) (f : Slab → Slab) : (s.modSlab n f).rings = s.rings := rfl
@[simp] theorem State.modSlab_draws (s : State) (n : Nat) (f : Slab → Slab) : (s.modSlab n f).draws = s.draws := rfl

@[simp] theorem State.modMe_pending (s : State) (n : Nat) (f : MatrixEngine → MatrixEngine) : (s.modMe n f).pending = s.pending := rfl
@[simp] theorem State.modMe_half (s : State) (n : Nat) (f : MatrixEngine → MatrixEngine) : (s.modMe n f).half = s.half := rfl
@[simp] theorem State.modMe_corrected (s : State) (n : Nat) (f : MatrixEngine → MatrixEngine) : (s.modMe n f).corrected = s.corrected := rfl
@[simp] theorem State.modMe_dies (s : State) (n : Nat) (f : MatrixEngine → MatrixEngine) : (s.modMe n f).dies = s.dies := rfl
@[simp] theorem State.modMe_far (s : State) (n : Nat) (f : MatrixEngine → MatrixEngine) : (s.modMe n f).far = s.far := rfl
@[simp] theorem State.modMe_host (s : State) (n : Nat) (f : MatrixEngine → MatrixEngine) : (s.modMe n f).host = s.host := rfl
@[simp] theorem State.modMe_net (s : State) (n : Nat) (f : MatrixEngine → MatrixEngine) : (s.modMe n f).net = s.net := rfl
@[simp] theorem State.modMe_hub (s : State) (n : Nat) (f : MatrixEngine → MatrixEngine) : (s.modMe n f).hub = s.hub := rfl
@[simp] theorem State.modMe_ctxs (s : State) (n : Nat) (f : MatrixEngine → MatrixEngine) : (s.modMe n f).ctxs = s.ctxs := rfl
@[simp] theorem State.modMe_fman (s : State) (n : Nat) (f : MatrixEngine → MatrixEngine) : (s.modMe n f).fman = s.fman := rfl
@[simp] theorem State.modMe_links (s : State) (n : Nat) (f : MatrixEngine → MatrixEngine) : (s.modMe n f).links = s.links := rfl
@[simp] theorem State.modMe_pci (s : State) (n : Nat) (f : MatrixEngine → MatrixEngine) : (s.modMe n f).pci = s.pci := rfl
@[simp] theorem State.modMe_site (s : State) (n : Nat) (f : MatrixEngine → MatrixEngine) : (s.modMe n f).site = s.site := rfl
@[simp] theorem State.modMe_trust (s : State) (n : Nat) (f : MatrixEngine → MatrixEngine) : (s.modMe n f).trust = s.trust := rfl
@[simp] theorem State.modMe_gov (s : State) (n : Nat) (f : MatrixEngine → MatrixEngine) : (s.modMe n f).gov = s.gov := rfl
@[simp] theorem State.modMe_power (s : State) (n : Nat) (f : MatrixEngine → MatrixEngine) : (s.modMe n f).power = s.power := rfl
@[simp] theorem State.modMe_resets (s : State) (n : Nat) (f : MatrixEngine → MatrixEngine) : (s.modMe n f).resets = s.resets := rfl
@[simp] theorem State.modMe_dbg (s : State) (n : Nat) (f : MatrixEngine → MatrixEngine) : (s.modMe n f).dbg = s.dbg := rfl
@[simp] theorem State.modMe_waitUs (s : State) (n : Nat) (f : MatrixEngine → MatrixEngine) : (s.modMe n f).waitUs = s.waitUs := rfl
@[simp] theorem State.modMe_rings (s : State) (n : Nat) (f : MatrixEngine → MatrixEngine) : (s.modMe n f).rings = s.rings := rfl
@[simp] theorem State.modMe_draws (s : State) (n : Nat) (f : MatrixEngine → MatrixEngine) : (s.modMe n f).draws = s.draws := rfl

@[simp] theorem State.count_pending (s : State) (core code n : Nat) : (s.count core code n).pending = s.pending := rfl
@[simp] theorem State.count_half (s : State) (core code n : Nat) : (s.count core code n).half = s.half := rfl
@[simp] theorem State.count_corrected (s : State) (core code n : Nat) : (s.count core code n).corrected = s.corrected := rfl
@[simp] theorem State.count_dies (s : State) (core code n : Nat) : (s.count core code n).dies = s.dies := rfl
@[simp] theorem State.count_far (s : State) (core code n : Nat) : (s.count core code n).far = s.far := rfl
@[simp] theorem State.count_host (s : State) (core code n : Nat) : (s.count core code n).host = s.host := rfl
@[simp] theorem State.count_net (s : State) (core code n : Nat) : (s.count core code n).net = s.net := rfl
@[simp] theorem State.count_hub (s : State) (core code n : Nat) : (s.count core code n).hub = s.hub := rfl
@[simp] theorem State.count_ctxs (s : State) (core code n : Nat) : (s.count core code n).ctxs = s.ctxs := rfl
@[simp] theorem State.count_fman (s : State) (core code n : Nat) : (s.count core code n).fman = s.fman := rfl
@[simp] theorem State.count_links (s : State) (core code n : Nat) : (s.count core code n).links = s.links := rfl
@[simp] theorem State.count_pci (s : State) (core code n : Nat) : (s.count core code n).pci = s.pci := rfl
@[simp] theorem State.count_site (s : State) (core code n : Nat) : (s.count core code n).site = s.site := rfl
@[simp] theorem State.count_trust (s : State) (core code n : Nat) : (s.count core code n).trust = s.trust := rfl
@[simp] theorem State.count_gov (s : State) (core code n : Nat) : (s.count core code n).gov = s.gov := rfl
@[simp] theorem State.count_power (s : State) (core code n : Nat) : (s.count core code n).power = s.power := rfl
@[simp] theorem State.count_resets (s : State) (core code n : Nat) : (s.count core code n).resets = s.resets := rfl
@[simp] theorem State.count_dbg (s : State) (core code n : Nat) : (s.count core code n).dbg = s.dbg := rfl
@[simp] theorem State.count_waitUs (s : State) (core code n : Nat) : (s.count core code n).waitUs = s.waitUs := rfl
@[simp] theorem State.count_rings (s : State) (core code n : Nat) : (s.count core code n).rings = s.rings := rfl
@[simp] theorem State.count_draws (s : State) (core code n : Nat) : (s.count core code n).draws = s.draws := rfl

@[simp] theorem State.issued_pending (s : State) (core slot : Nat) (vec : Bool) : (s.issued core slot vec).pending = s.pending := rfl
@[simp] theorem State.issued_half (s : State) (core slot : Nat) (vec : Bool) : (s.issued core slot vec).half = s.half := rfl
@[simp] theorem State.issued_corrected (s : State) (core slot : Nat) (vec : Bool) : (s.issued core slot vec).corrected = s.corrected := rfl
@[simp] theorem State.issued_dies (s : State) (core slot : Nat) (vec : Bool) : (s.issued core slot vec).dies = s.dies := rfl
@[simp] theorem State.issued_far (s : State) (core slot : Nat) (vec : Bool) : (s.issued core slot vec).far = s.far := rfl
@[simp] theorem State.issued_host (s : State) (core slot : Nat) (vec : Bool) : (s.issued core slot vec).host = s.host := rfl
@[simp] theorem State.issued_net (s : State) (core slot : Nat) (vec : Bool) : (s.issued core slot vec).net = s.net := rfl
@[simp] theorem State.issued_hub (s : State) (core slot : Nat) (vec : Bool) : (s.issued core slot vec).hub = s.hub := rfl
@[simp] theorem State.issued_ctxs (s : State) (core slot : Nat) (vec : Bool) : (s.issued core slot vec).ctxs = s.ctxs := rfl
@[simp] theorem State.issued_fman (s : State) (core slot : Nat) (vec : Bool) : (s.issued core slot vec).fman = s.fman := rfl
@[simp] theorem State.issued_links (s : State) (core slot : Nat) (vec : Bool) : (s.issued core slot vec).links = s.links := rfl
@[simp] theorem State.issued_pci (s : State) (core slot : Nat) (vec : Bool) : (s.issued core slot vec).pci = s.pci := rfl
@[simp] theorem State.issued_site (s : State) (core slot : Nat) (vec : Bool) : (s.issued core slot vec).site = s.site := rfl
@[simp] theorem State.issued_trust (s : State) (core slot : Nat) (vec : Bool) : (s.issued core slot vec).trust = s.trust := rfl
@[simp] theorem State.issued_gov (s : State) (core slot : Nat) (vec : Bool) : (s.issued core slot vec).gov = s.gov := rfl
@[simp] theorem State.issued_power (s : State) (core slot : Nat) (vec : Bool) : (s.issued core slot vec).power = s.power := rfl
@[simp] theorem State.issued_resets (s : State) (core slot : Nat) (vec : Bool) : (s.issued core slot vec).resets = s.resets := rfl
@[simp] theorem State.issued_dbg (s : State) (core slot : Nat) (vec : Bool) : (s.issued core slot vec).dbg = s.dbg := rfl
@[simp] theorem State.issued_waitUs (s : State) (core slot : Nat) (vec : Bool) : (s.issued core slot vec).waitUs = s.waitUs := rfl
@[simp] theorem State.issued_rings (s : State) (core slot : Nat) (vec : Bool) : (s.issued core slot vec).rings = s.rings := rfl
@[simp] theorem State.issued_draws (s : State) (core slot : Nat) (vec : Bool) : (s.issued core slot vec).draws = s.draws := rfl

@[simp] theorem State.gangDone_pending (s : State) (g : GangAt) (r : Gang × FFlags) : (s.gangDone g r).pending = s.pending := rfl
@[simp] theorem State.gangDone_half (s : State) (g : GangAt) (r : Gang × FFlags) : (s.gangDone g r).half = s.half := rfl
@[simp] theorem State.gangDone_corrected (s : State) (g : GangAt) (r : Gang × FFlags) : (s.gangDone g r).corrected = s.corrected := rfl
@[simp] theorem State.gangDone_dies (s : State) (g : GangAt) (r : Gang × FFlags) : (s.gangDone g r).dies = s.dies := rfl
@[simp] theorem State.gangDone_far (s : State) (g : GangAt) (r : Gang × FFlags) : (s.gangDone g r).far = s.far := rfl
@[simp] theorem State.gangDone_host (s : State) (g : GangAt) (r : Gang × FFlags) : (s.gangDone g r).host = s.host := rfl
@[simp] theorem State.gangDone_net (s : State) (g : GangAt) (r : Gang × FFlags) : (s.gangDone g r).net = s.net := rfl
@[simp] theorem State.gangDone_hub (s : State) (g : GangAt) (r : Gang × FFlags) : (s.gangDone g r).hub = s.hub := rfl
@[simp] theorem State.gangDone_ctxs (s : State) (g : GangAt) (r : Gang × FFlags) : (s.gangDone g r).ctxs = s.ctxs := rfl
@[simp] theorem State.gangDone_fman (s : State) (g : GangAt) (r : Gang × FFlags) : (s.gangDone g r).fman = s.fman := rfl
@[simp] theorem State.gangDone_links (s : State) (g : GangAt) (r : Gang × FFlags) : (s.gangDone g r).links = s.links := rfl
@[simp] theorem State.gangDone_pci (s : State) (g : GangAt) (r : Gang × FFlags) : (s.gangDone g r).pci = s.pci := rfl
@[simp] theorem State.gangDone_site (s : State) (g : GangAt) (r : Gang × FFlags) : (s.gangDone g r).site = s.site := rfl
@[simp] theorem State.gangDone_trust (s : State) (g : GangAt) (r : Gang × FFlags) : (s.gangDone g r).trust = s.trust := rfl
@[simp] theorem State.gangDone_gov (s : State) (g : GangAt) (r : Gang × FFlags) : (s.gangDone g r).gov = s.gov := rfl
@[simp] theorem State.gangDone_power (s : State) (g : GangAt) (r : Gang × FFlags) : (s.gangDone g r).power = s.power := rfl
@[simp] theorem State.gangDone_resets (s : State) (g : GangAt) (r : Gang × FFlags) : (s.gangDone g r).resets = s.resets := rfl
@[simp] theorem State.gangDone_dbg (s : State) (g : GangAt) (r : Gang × FFlags) : (s.gangDone g r).dbg = s.dbg := rfl
@[simp] theorem State.gangDone_waitUs (s : State) (g : GangAt) (r : Gang × FFlags) : (s.gangDone g r).waitUs = s.waitUs := rfl
@[simp] theorem State.gangDone_rings (s : State) (g : GangAt) (r : Gang × FFlags) : (s.gangDone g r).rings = s.rings := rfl
@[simp] theorem State.gangDone_draws (s : State) (g : GangAt) (r : Gang × FFlags) : (s.gangDone g r).draws = s.draws := rfl

@[simp] theorem State.setCtx_pending (s : State) (c : Nat) (x : Ctx) : (s.setCtx c x).pending = s.pending := rfl
@[simp] theorem State.setCtx_half (s : State) (c : Nat) (x : Ctx) : (s.setCtx c x).half = s.half := rfl
@[simp] theorem State.setCtx_corrected (s : State) (c : Nat) (x : Ctx) : (s.setCtx c x).corrected = s.corrected := rfl
@[simp] theorem State.setCtx_dies (s : State) (c : Nat) (x : Ctx) : (s.setCtx c x).dies = s.dies := rfl
@[simp] theorem State.setCtx_cores (s : State) (c : Nat) (x : Ctx) : (s.setCtx c x).cores = s.cores := rfl
@[simp] theorem State.setCtx_far (s : State) (c : Nat) (x : Ctx) : (s.setCtx c x).far = s.far := rfl
@[simp] theorem State.setCtx_host (s : State) (c : Nat) (x : Ctx) : (s.setCtx c x).host = s.host := rfl
@[simp] theorem State.setCtx_net (s : State) (c : Nat) (x : Ctx) : (s.setCtx c x).net = s.net := rfl
@[simp] theorem State.setCtx_hub (s : State) (c : Nat) (x : Ctx) : (s.setCtx c x).hub = s.hub := rfl
@[simp] theorem State.setCtx_fman (s : State) (c : Nat) (x : Ctx) : (s.setCtx c x).fman = s.fman := rfl
@[simp] theorem State.setCtx_links (s : State) (c : Nat) (x : Ctx) : (s.setCtx c x).links = s.links := rfl
@[simp] theorem State.setCtx_pci (s : State) (c : Nat) (x : Ctx) : (s.setCtx c x).pci = s.pci := rfl
@[simp] theorem State.setCtx_site (s : State) (c : Nat) (x : Ctx) : (s.setCtx c x).site = s.site := rfl
@[simp] theorem State.setCtx_trust (s : State) (c : Nat) (x : Ctx) : (s.setCtx c x).trust = s.trust := rfl
@[simp] theorem State.setCtx_gov (s : State) (c : Nat) (x : Ctx) : (s.setCtx c x).gov = s.gov := rfl
@[simp] theorem State.setCtx_power (s : State) (c : Nat) (x : Ctx) : (s.setCtx c x).power = s.power := rfl
@[simp] theorem State.setCtx_resets (s : State) (c : Nat) (x : Ctx) : (s.setCtx c x).resets = s.resets := rfl
@[simp] theorem State.setCtx_dbg (s : State) (c : Nat) (x : Ctx) : (s.setCtx c x).dbg = s.dbg := rfl
@[simp] theorem State.setCtx_waitUs (s : State) (c : Nat) (x : Ctx) : (s.setCtx c x).waitUs = s.waitUs := rfl
@[simp] theorem State.setCtx_rings (s : State) (c : Nat) (x : Ctx) : (s.setCtx c x).rings = s.rings := rfl
@[simp] theorem State.setCtx_draws (s : State) (c : Nat) (x : Ctx) : (s.setCtx c x).draws = s.draws := rfl

@[simp] theorem State.modCtx_pending (s : State) (c : Nat) (f : Ctx → Ctx) : (s.modCtx c f).pending = s.pending := rfl
@[simp] theorem State.modCtx_half (s : State) (c : Nat) (f : Ctx → Ctx) : (s.modCtx c f).half = s.half := rfl
@[simp] theorem State.modCtx_corrected (s : State) (c : Nat) (f : Ctx → Ctx) : (s.modCtx c f).corrected = s.corrected := rfl
@[simp] theorem State.modCtx_dies (s : State) (c : Nat) (f : Ctx → Ctx) : (s.modCtx c f).dies = s.dies := rfl
@[simp] theorem State.modCtx_cores (s : State) (c : Nat) (f : Ctx → Ctx) : (s.modCtx c f).cores = s.cores := rfl
@[simp] theorem State.modCtx_far (s : State) (c : Nat) (f : Ctx → Ctx) : (s.modCtx c f).far = s.far := rfl
@[simp] theorem State.modCtx_host (s : State) (c : Nat) (f : Ctx → Ctx) : (s.modCtx c f).host = s.host := rfl
@[simp] theorem State.modCtx_net (s : State) (c : Nat) (f : Ctx → Ctx) : (s.modCtx c f).net = s.net := rfl
@[simp] theorem State.modCtx_hub (s : State) (c : Nat) (f : Ctx → Ctx) : (s.modCtx c f).hub = s.hub := rfl
@[simp] theorem State.modCtx_fman (s : State) (c : Nat) (f : Ctx → Ctx) : (s.modCtx c f).fman = s.fman := rfl
@[simp] theorem State.modCtx_links (s : State) (c : Nat) (f : Ctx → Ctx) : (s.modCtx c f).links = s.links := rfl
@[simp] theorem State.modCtx_pci (s : State) (c : Nat) (f : Ctx → Ctx) : (s.modCtx c f).pci = s.pci := rfl
@[simp] theorem State.modCtx_site (s : State) (c : Nat) (f : Ctx → Ctx) : (s.modCtx c f).site = s.site := rfl
@[simp] theorem State.modCtx_trust (s : State) (c : Nat) (f : Ctx → Ctx) : (s.modCtx c f).trust = s.trust := rfl
@[simp] theorem State.modCtx_gov (s : State) (c : Nat) (f : Ctx → Ctx) : (s.modCtx c f).gov = s.gov := rfl
@[simp] theorem State.modCtx_power (s : State) (c : Nat) (f : Ctx → Ctx) : (s.modCtx c f).power = s.power := rfl
@[simp] theorem State.modCtx_resets (s : State) (c : Nat) (f : Ctx → Ctx) : (s.modCtx c f).resets = s.resets := rfl
@[simp] theorem State.modCtx_dbg (s : State) (c : Nat) (f : Ctx → Ctx) : (s.modCtx c f).dbg = s.dbg := rfl
@[simp] theorem State.modCtx_waitUs (s : State) (c : Nat) (f : Ctx → Ctx) : (s.modCtx c f).waitUs = s.waitUs := rfl
@[simp] theorem State.modCtx_rings (s : State) (c : Nat) (f : Ctx → Ctx) : (s.modCtx c f).rings = s.rings := rfl
@[simp] theorem State.modCtx_draws (s : State) (c : Nat) (f : Ctx → Ctx) : (s.modCtx c f).draws = s.draws := rfl

@[simp] theorem State.bump_pending (s : State) (c : Nat) : (s.bump c).pending = s.pending := rfl
@[simp] theorem State.bump_half (s : State) (c : Nat) : (s.bump c).half = s.half := rfl
@[simp] theorem State.bump_corrected (s : State) (c : Nat) : (s.bump c).corrected = s.corrected := rfl
@[simp] theorem State.bump_dies (s : State) (c : Nat) : (s.bump c).dies = s.dies := rfl
@[simp] theorem State.bump_cores (s : State) (c : Nat) : (s.bump c).cores = s.cores := rfl
@[simp] theorem State.bump_far (s : State) (c : Nat) : (s.bump c).far = s.far := rfl
@[simp] theorem State.bump_host (s : State) (c : Nat) : (s.bump c).host = s.host := rfl
@[simp] theorem State.bump_net (s : State) (c : Nat) : (s.bump c).net = s.net := rfl
@[simp] theorem State.bump_hub (s : State) (c : Nat) : (s.bump c).hub = s.hub := rfl
@[simp] theorem State.bump_fman (s : State) (c : Nat) : (s.bump c).fman = s.fman := rfl
@[simp] theorem State.bump_links (s : State) (c : Nat) : (s.bump c).links = s.links := rfl
@[simp] theorem State.bump_pci (s : State) (c : Nat) : (s.bump c).pci = s.pci := rfl
@[simp] theorem State.bump_site (s : State) (c : Nat) : (s.bump c).site = s.site := rfl
@[simp] theorem State.bump_trust (s : State) (c : Nat) : (s.bump c).trust = s.trust := rfl
@[simp] theorem State.bump_gov (s : State) (c : Nat) : (s.bump c).gov = s.gov := rfl
@[simp] theorem State.bump_power (s : State) (c : Nat) : (s.bump c).power = s.power := rfl
@[simp] theorem State.bump_resets (s : State) (c : Nat) : (s.bump c).resets = s.resets := rfl
@[simp] theorem State.bump_dbg (s : State) (c : Nat) : (s.bump c).dbg = s.dbg := rfl
@[simp] theorem State.bump_waitUs (s : State) (c : Nat) : (s.bump c).waitUs = s.waitUs := rfl
@[simp] theorem State.bump_rings (s : State) (c : Nat) : (s.bump c).rings = s.rings := rfl
@[simp] theorem State.bump_draws (s : State) (c : Nat) : (s.bump c).draws = s.draws := rfl

@[simp] theorem State.setChan_pending (s : State) (ch : Nat) (x : Channel) : (s.setChan ch x).pending = s.pending := rfl
@[simp] theorem State.setChan_half (s : State) (ch : Nat) (x : Channel) : (s.setChan ch x).half = s.half := rfl
@[simp] theorem State.setChan_corrected (s : State) (ch : Nat) (x : Channel) : (s.setChan ch x).corrected = s.corrected := rfl
@[simp] theorem State.setChan_dies (s : State) (ch : Nat) (x : Channel) : (s.setChan ch x).dies = s.dies := rfl
@[simp] theorem State.setChan_cores (s : State) (ch : Nat) (x : Channel) : (s.setChan ch x).cores = s.cores := rfl
@[simp] theorem State.setChan_host (s : State) (ch : Nat) (x : Channel) : (s.setChan ch x).host = s.host := rfl
@[simp] theorem State.setChan_net (s : State) (ch : Nat) (x : Channel) : (s.setChan ch x).net = s.net := rfl
@[simp] theorem State.setChan_hub (s : State) (ch : Nat) (x : Channel) : (s.setChan ch x).hub = s.hub := rfl
@[simp] theorem State.setChan_ctxs (s : State) (ch : Nat) (x : Channel) : (s.setChan ch x).ctxs = s.ctxs := rfl
@[simp] theorem State.setChan_fman (s : State) (ch : Nat) (x : Channel) : (s.setChan ch x).fman = s.fman := rfl
@[simp] theorem State.setChan_links (s : State) (ch : Nat) (x : Channel) : (s.setChan ch x).links = s.links := rfl
@[simp] theorem State.setChan_pci (s : State) (ch : Nat) (x : Channel) : (s.setChan ch x).pci = s.pci := rfl
@[simp] theorem State.setChan_site (s : State) (ch : Nat) (x : Channel) : (s.setChan ch x).site = s.site := rfl
@[simp] theorem State.setChan_trust (s : State) (ch : Nat) (x : Channel) : (s.setChan ch x).trust = s.trust := rfl
@[simp] theorem State.setChan_gov (s : State) (ch : Nat) (x : Channel) : (s.setChan ch x).gov = s.gov := rfl
@[simp] theorem State.setChan_power (s : State) (ch : Nat) (x : Channel) : (s.setChan ch x).power = s.power := rfl
@[simp] theorem State.setChan_resets (s : State) (ch : Nat) (x : Channel) : (s.setChan ch x).resets = s.resets := rfl
@[simp] theorem State.setChan_dbg (s : State) (ch : Nat) (x : Channel) : (s.setChan ch x).dbg = s.dbg := rfl
@[simp] theorem State.setChan_waitUs (s : State) (ch : Nat) (x : Channel) : (s.setChan ch x).waitUs = s.waitUs := rfl
@[simp] theorem State.setChan_rings (s : State) (ch : Nat) (x : Channel) : (s.setChan ch x).rings = s.rings := rfl
@[simp] theorem State.setChan_draws (s : State) (ch : Nat) (x : Channel) : (s.setChan ch x).draws = s.draws := rfl

@[simp] theorem State.tail_pending (s : State) (ring kind ctx : Nat) (gang : Option Nat) (w1 w2 w3 : Nat) : (s.tail ring kind ctx gang w1 w2 w3).pending = s.pending := rfl
@[simp] theorem State.tail_half (s : State) (ring kind ctx : Nat) (gang : Option Nat) (w1 w2 w3 : Nat) : (s.tail ring kind ctx gang w1 w2 w3).half = s.half := rfl
@[simp] theorem State.tail_corrected (s : State) (ring kind ctx : Nat) (gang : Option Nat) (w1 w2 w3 : Nat) : (s.tail ring kind ctx gang w1 w2 w3).corrected = s.corrected := rfl
@[simp] theorem State.tail_dies (s : State) (ring kind ctx : Nat) (gang : Option Nat) (w1 w2 w3 : Nat) : (s.tail ring kind ctx gang w1 w2 w3).dies = s.dies := rfl
@[simp] theorem State.tail_cores (s : State) (ring kind ctx : Nat) (gang : Option Nat) (w1 w2 w3 : Nat) : (s.tail ring kind ctx gang w1 w2 w3).cores = s.cores := rfl
@[simp] theorem State.tail_far (s : State) (ring kind ctx : Nat) (gang : Option Nat) (w1 w2 w3 : Nat) : (s.tail ring kind ctx gang w1 w2 w3).far = s.far := rfl
@[simp] theorem State.tail_host (s : State) (ring kind ctx : Nat) (gang : Option Nat) (w1 w2 w3 : Nat) : (s.tail ring kind ctx gang w1 w2 w3).host = s.host := rfl
@[simp] theorem State.tail_net (s : State) (ring kind ctx : Nat) (gang : Option Nat) (w1 w2 w3 : Nat) : (s.tail ring kind ctx gang w1 w2 w3).net = s.net := rfl
@[simp] theorem State.tail_hub (s : State) (ring kind ctx : Nat) (gang : Option Nat) (w1 w2 w3 : Nat) : (s.tail ring kind ctx gang w1 w2 w3).hub = s.hub := rfl
@[simp] theorem State.tail_ctxs (s : State) (ring kind ctx : Nat) (gang : Option Nat) (w1 w2 w3 : Nat) : (s.tail ring kind ctx gang w1 w2 w3).ctxs = s.ctxs := rfl
@[simp] theorem State.tail_fman (s : State) (ring kind ctx : Nat) (gang : Option Nat) (w1 w2 w3 : Nat) : (s.tail ring kind ctx gang w1 w2 w3).fman = s.fman := rfl
@[simp] theorem State.tail_links (s : State) (ring kind ctx : Nat) (gang : Option Nat) (w1 w2 w3 : Nat) : (s.tail ring kind ctx gang w1 w2 w3).links = s.links := rfl
@[simp] theorem State.tail_pci (s : State) (ring kind ctx : Nat) (gang : Option Nat) (w1 w2 w3 : Nat) : (s.tail ring kind ctx gang w1 w2 w3).pci = s.pci := rfl
@[simp] theorem State.tail_site (s : State) (ring kind ctx : Nat) (gang : Option Nat) (w1 w2 w3 : Nat) : (s.tail ring kind ctx gang w1 w2 w3).site = s.site := rfl
@[simp] theorem State.tail_trust (s : State) (ring kind ctx : Nat) (gang : Option Nat) (w1 w2 w3 : Nat) : (s.tail ring kind ctx gang w1 w2 w3).trust = s.trust := rfl
@[simp] theorem State.tail_gov (s : State) (ring kind ctx : Nat) (gang : Option Nat) (w1 w2 w3 : Nat) : (s.tail ring kind ctx gang w1 w2 w3).gov = s.gov := rfl
@[simp] theorem State.tail_power (s : State) (ring kind ctx : Nat) (gang : Option Nat) (w1 w2 w3 : Nat) : (s.tail ring kind ctx gang w1 w2 w3).power = s.power := rfl
@[simp] theorem State.tail_resets (s : State) (ring kind ctx : Nat) (gang : Option Nat) (w1 w2 w3 : Nat) : (s.tail ring kind ctx gang w1 w2 w3).resets = s.resets := rfl
@[simp] theorem State.tail_dbg (s : State) (ring kind ctx : Nat) (gang : Option Nat) (w1 w2 w3 : Nat) : (s.tail ring kind ctx gang w1 w2 w3).dbg = s.dbg := rfl
@[simp] theorem State.tail_waitUs (s : State) (ring kind ctx : Nat) (gang : Option Nat) (w1 w2 w3 : Nat) : (s.tail ring kind ctx gang w1 w2 w3).waitUs = s.waitUs := rfl
@[simp] theorem State.tail_draws (s : State) (ring kind ctx : Nat) (gang : Option Nat) (w1 w2 w3 : Nat) : (s.tail ring kind ctx gang w1 w2 w3).draws = s.draws := rfl

@[simp] theorem State.hubCount_pending (s : State) (unit code n : Nat) : (s.hubCount unit code n).pending = s.pending := rfl
@[simp] theorem State.hubCount_half (s : State) (unit code n : Nat) : (s.hubCount unit code n).half = s.half := rfl
@[simp] theorem State.hubCount_corrected (s : State) (unit code n : Nat) : (s.hubCount unit code n).corrected = s.corrected := rfl
@[simp] theorem State.hubCount_dies (s : State) (unit code n : Nat) : (s.hubCount unit code n).dies = s.dies := rfl
@[simp] theorem State.hubCount_cores (s : State) (unit code n : Nat) : (s.hubCount unit code n).cores = s.cores := rfl
@[simp] theorem State.hubCount_far (s : State) (unit code n : Nat) : (s.hubCount unit code n).far = s.far := rfl
@[simp] theorem State.hubCount_host (s : State) (unit code n : Nat) : (s.hubCount unit code n).host = s.host := rfl
@[simp] theorem State.hubCount_net (s : State) (unit code n : Nat) : (s.hubCount unit code n).net = s.net := rfl
@[simp] theorem State.hubCount_hub (s : State) (unit code n : Nat) : (s.hubCount unit code n).hub = s.hub := rfl
@[simp] theorem State.hubCount_ctxs (s : State) (unit code n : Nat) : (s.hubCount unit code n).ctxs = s.ctxs := rfl
@[simp] theorem State.hubCount_fman (s : State) (unit code n : Nat) : (s.hubCount unit code n).fman = s.fman := rfl
@[simp] theorem State.hubCount_links (s : State) (unit code n : Nat) : (s.hubCount unit code n).links = s.links := rfl
@[simp] theorem State.hubCount_pci (s : State) (unit code n : Nat) : (s.hubCount unit code n).pci = s.pci := rfl
@[simp] theorem State.hubCount_site (s : State) (unit code n : Nat) : (s.hubCount unit code n).site = s.site := rfl
@[simp] theorem State.hubCount_trust (s : State) (unit code n : Nat) : (s.hubCount unit code n).trust = s.trust := rfl
@[simp] theorem State.hubCount_gov (s : State) (unit code n : Nat) : (s.hubCount unit code n).gov = s.gov := rfl
@[simp] theorem State.hubCount_power (s : State) (unit code n : Nat) : (s.hubCount unit code n).power = s.power := rfl
@[simp] theorem State.hubCount_resets (s : State) (unit code n : Nat) : (s.hubCount unit code n).resets = s.resets := rfl
@[simp] theorem State.hubCount_waitUs (s : State) (unit code n : Nat) : (s.hubCount unit code n).waitUs = s.waitUs := rfl
@[simp] theorem State.hubCount_rings (s : State) (unit code n : Nat) : (s.hubCount unit code n).rings = s.rings := rfl
@[simp] theorem State.hubCount_draws (s : State) (unit code n : Nat) : (s.hubCount unit code n).draws = s.draws := rfl

@[simp] theorem State.setBridge_pending (s : State) (j : Nat) (b : BridgeSound) : (s.setBridge j b).pending = s.pending := rfl
@[simp] theorem State.setBridge_half (s : State) (j : Nat) (b : BridgeSound) : (s.setBridge j b).half = s.half := rfl
@[simp] theorem State.setBridge_corrected (s : State) (j : Nat) (b : BridgeSound) : (s.setBridge j b).corrected = s.corrected := rfl
@[simp] theorem State.setBridge_dies (s : State) (j : Nat) (b : BridgeSound) : (s.setBridge j b).dies = s.dies := rfl
@[simp] theorem State.setBridge_cores (s : State) (j : Nat) (b : BridgeSound) : (s.setBridge j b).cores = s.cores := rfl
@[simp] theorem State.setBridge_far (s : State) (j : Nat) (b : BridgeSound) : (s.setBridge j b).far = s.far := rfl
@[simp] theorem State.setBridge_host (s : State) (j : Nat) (b : BridgeSound) : (s.setBridge j b).host = s.host := rfl
@[simp] theorem State.setBridge_net (s : State) (j : Nat) (b : BridgeSound) : (s.setBridge j b).net = s.net := rfl
@[simp] theorem State.setBridge_hub (s : State) (j : Nat) (b : BridgeSound) : (s.setBridge j b).hub = s.hub := rfl
@[simp] theorem State.setBridge_ctxs (s : State) (j : Nat) (b : BridgeSound) : (s.setBridge j b).ctxs = s.ctxs := rfl
@[simp] theorem State.setBridge_fman (s : State) (j : Nat) (b : BridgeSound) : (s.setBridge j b).fman = s.fman := rfl
@[simp] theorem State.setBridge_links (s : State) (j : Nat) (b : BridgeSound) : (s.setBridge j b).links = s.links := rfl
@[simp] theorem State.setBridge_pci (s : State) (j : Nat) (b : BridgeSound) : (s.setBridge j b).pci = s.pci := rfl
@[simp] theorem State.setBridge_site (s : State) (j : Nat) (b : BridgeSound) : (s.setBridge j b).site = s.site := rfl
@[simp] theorem State.setBridge_trust (s : State) (j : Nat) (b : BridgeSound) : (s.setBridge j b).trust = s.trust := rfl
@[simp] theorem State.setBridge_gov (s : State) (j : Nat) (b : BridgeSound) : (s.setBridge j b).gov = s.gov := rfl
@[simp] theorem State.setBridge_power (s : State) (j : Nat) (b : BridgeSound) : (s.setBridge j b).power = s.power := rfl
@[simp] theorem State.setBridge_resets (s : State) (j : Nat) (b : BridgeSound) : (s.setBridge j b).resets = s.resets := rfl
@[simp] theorem State.setBridge_waitUs (s : State) (j : Nat) (b : BridgeSound) : (s.setBridge j b).waitUs = s.waitUs := rfl
@[simp] theorem State.setBridge_rings (s : State) (j : Nat) (b : BridgeSound) : (s.setBridge j b).rings = s.rings := rfl
@[simp] theorem State.setBridge_draws (s : State) (j : Nat) (b : BridgeSound) : (s.setBridge j b).draws = s.draws := rfl

@[simp] theorem State.setUnit_pending (s : State) (u : Nat) (b : BarUnit) : (s.setUnit u b).pending = s.pending := rfl
@[simp] theorem State.setUnit_half (s : State) (u : Nat) (b : BarUnit) : (s.setUnit u b).half = s.half := rfl
@[simp] theorem State.setUnit_corrected (s : State) (u : Nat) (b : BarUnit) : (s.setUnit u b).corrected = s.corrected := rfl
@[simp] theorem State.setUnit_dies (s : State) (u : Nat) (b : BarUnit) : (s.setUnit u b).dies = s.dies := rfl
@[simp] theorem State.setUnit_cores (s : State) (u : Nat) (b : BarUnit) : (s.setUnit u b).cores = s.cores := rfl
@[simp] theorem State.setUnit_far (s : State) (u : Nat) (b : BarUnit) : (s.setUnit u b).far = s.far := rfl
@[simp] theorem State.setUnit_host (s : State) (u : Nat) (b : BarUnit) : (s.setUnit u b).host = s.host := rfl
@[simp] theorem State.setUnit_net (s : State) (u : Nat) (b : BarUnit) : (s.setUnit u b).net = s.net := rfl
@[simp] theorem State.setUnit_ctxs (s : State) (u : Nat) (b : BarUnit) : (s.setUnit u b).ctxs = s.ctxs := rfl
@[simp] theorem State.setUnit_fman (s : State) (u : Nat) (b : BarUnit) : (s.setUnit u b).fman = s.fman := rfl
@[simp] theorem State.setUnit_links (s : State) (u : Nat) (b : BarUnit) : (s.setUnit u b).links = s.links := rfl
@[simp] theorem State.setUnit_pci (s : State) (u : Nat) (b : BarUnit) : (s.setUnit u b).pci = s.pci := rfl
@[simp] theorem State.setUnit_site (s : State) (u : Nat) (b : BarUnit) : (s.setUnit u b).site = s.site := rfl
@[simp] theorem State.setUnit_trust (s : State) (u : Nat) (b : BarUnit) : (s.setUnit u b).trust = s.trust := rfl
@[simp] theorem State.setUnit_gov (s : State) (u : Nat) (b : BarUnit) : (s.setUnit u b).gov = s.gov := rfl
@[simp] theorem State.setUnit_power (s : State) (u : Nat) (b : BarUnit) : (s.setUnit u b).power = s.power := rfl
@[simp] theorem State.setUnit_resets (s : State) (u : Nat) (b : BarUnit) : (s.setUnit u b).resets = s.resets := rfl
@[simp] theorem State.setUnit_dbg (s : State) (u : Nat) (b : BarUnit) : (s.setUnit u b).dbg = s.dbg := rfl
@[simp] theorem State.setUnit_waitUs (s : State) (u : Nat) (b : BarUnit) : (s.setUnit u b).waitUs = s.waitUs := rfl
@[simp] theorem State.setUnit_rings (s : State) (u : Nat) (b : BarUnit) : (s.setUnit u b).rings = s.rings := rfl
@[simp] theorem State.setUnit_draws (s : State) (u : Nat) (b : BarUnit) : (s.setUnit u b).draws = s.draws := rfl

@[simp] theorem State.sendTally_pending (s : State) (x : TallyMsg) : (s.sendTally x).pending = s.pending := rfl
@[simp] theorem State.sendTally_half (s : State) (x : TallyMsg) : (s.sendTally x).half = s.half := rfl
@[simp] theorem State.sendTally_corrected (s : State) (x : TallyMsg) : (s.sendTally x).corrected = s.corrected := rfl
@[simp] theorem State.sendTally_dies (s : State) (x : TallyMsg) : (s.sendTally x).dies = s.dies := rfl
@[simp] theorem State.sendTally_cores (s : State) (x : TallyMsg) : (s.sendTally x).cores = s.cores := rfl
@[simp] theorem State.sendTally_far (s : State) (x : TallyMsg) : (s.sendTally x).far = s.far := rfl
@[simp] theorem State.sendTally_host (s : State) (x : TallyMsg) : (s.sendTally x).host = s.host := rfl
@[simp] theorem State.sendTally_hub (s : State) (x : TallyMsg) : (s.sendTally x).hub = s.hub := rfl
@[simp] theorem State.sendTally_ctxs (s : State) (x : TallyMsg) : (s.sendTally x).ctxs = s.ctxs := rfl
@[simp] theorem State.sendTally_fman (s : State) (x : TallyMsg) : (s.sendTally x).fman = s.fman := rfl
@[simp] theorem State.sendTally_links (s : State) (x : TallyMsg) : (s.sendTally x).links = s.links := rfl
@[simp] theorem State.sendTally_pci (s : State) (x : TallyMsg) : (s.sendTally x).pci = s.pci := rfl
@[simp] theorem State.sendTally_site (s : State) (x : TallyMsg) : (s.sendTally x).site = s.site := rfl
@[simp] theorem State.sendTally_trust (s : State) (x : TallyMsg) : (s.sendTally x).trust = s.trust := rfl
@[simp] theorem State.sendTally_gov (s : State) (x : TallyMsg) : (s.sendTally x).gov = s.gov := rfl
@[simp] theorem State.sendTally_power (s : State) (x : TallyMsg) : (s.sendTally x).power = s.power := rfl
@[simp] theorem State.sendTally_resets (s : State) (x : TallyMsg) : (s.sendTally x).resets = s.resets := rfl
@[simp] theorem State.sendTally_dbg (s : State) (x : TallyMsg) : (s.sendTally x).dbg = s.dbg := rfl
@[simp] theorem State.sendTally_waitUs (s : State) (x : TallyMsg) : (s.sendTally x).waitUs = s.waitUs := rfl
@[simp] theorem State.sendTally_rings (s : State) (x : TallyMsg) : (s.sendTally x).rings = s.rings := rfl
@[simp] theorem State.sendTally_draws (s : State) (x : TallyMsg) : (s.sendTally x).draws = s.draws := rfl

@[simp] theorem State.modPci_pending (s : State) (f : HostPort → HostPort) : (s.modPci f).pending = s.pending := rfl
@[simp] theorem State.modPci_half (s : State) (f : HostPort → HostPort) : (s.modPci f).half = s.half := rfl
@[simp] theorem State.modPci_corrected (s : State) (f : HostPort → HostPort) : (s.modPci f).corrected = s.corrected := rfl
@[simp] theorem State.modPci_dies (s : State) (f : HostPort → HostPort) : (s.modPci f).dies = s.dies := rfl
@[simp] theorem State.modPci_cores (s : State) (f : HostPort → HostPort) : (s.modPci f).cores = s.cores := rfl
@[simp] theorem State.modPci_far (s : State) (f : HostPort → HostPort) : (s.modPci f).far = s.far := rfl
@[simp] theorem State.modPci_host (s : State) (f : HostPort → HostPort) : (s.modPci f).host = s.host := rfl
@[simp] theorem State.modPci_net (s : State) (f : HostPort → HostPort) : (s.modPci f).net = s.net := rfl
@[simp] theorem State.modPci_hub (s : State) (f : HostPort → HostPort) : (s.modPci f).hub = s.hub := rfl
@[simp] theorem State.modPci_ctxs (s : State) (f : HostPort → HostPort) : (s.modPci f).ctxs = s.ctxs := rfl
@[simp] theorem State.modPci_fman (s : State) (f : HostPort → HostPort) : (s.modPci f).fman = s.fman := rfl
@[simp] theorem State.modPci_links (s : State) (f : HostPort → HostPort) : (s.modPci f).links = s.links := rfl
@[simp] theorem State.modPci_site (s : State) (f : HostPort → HostPort) : (s.modPci f).site = s.site := rfl
@[simp] theorem State.modPci_trust (s : State) (f : HostPort → HostPort) : (s.modPci f).trust = s.trust := rfl
@[simp] theorem State.modPci_gov (s : State) (f : HostPort → HostPort) : (s.modPci f).gov = s.gov := rfl
@[simp] theorem State.modPci_power (s : State) (f : HostPort → HostPort) : (s.modPci f).power = s.power := rfl
@[simp] theorem State.modPci_resets (s : State) (f : HostPort → HostPort) : (s.modPci f).resets = s.resets := rfl
@[simp] theorem State.modPci_dbg (s : State) (f : HostPort → HostPort) : (s.modPci f).dbg = s.dbg := rfl
@[simp] theorem State.modPci_waitUs (s : State) (f : HostPort → HostPort) : (s.modPci f).waitUs = s.waitUs := rfl
@[simp] theorem State.modPci_rings (s : State) (f : HostPort → HostPort) : (s.modPci f).rings = s.rings := rfl
@[simp] theorem State.modPci_draws (s : State) (f : HostPort → HostPort) : (s.modPci f).draws = s.draws := rfl

@[simp] theorem State.modLinks_pending (s : State) (f : Links → Links) : (s.modLinks f).pending = s.pending := rfl
@[simp] theorem State.modLinks_half (s : State) (f : Links → Links) : (s.modLinks f).half = s.half := rfl
@[simp] theorem State.modLinks_corrected (s : State) (f : Links → Links) : (s.modLinks f).corrected = s.corrected := rfl
@[simp] theorem State.modLinks_dies (s : State) (f : Links → Links) : (s.modLinks f).dies = s.dies := rfl
@[simp] theorem State.modLinks_cores (s : State) (f : Links → Links) : (s.modLinks f).cores = s.cores := rfl
@[simp] theorem State.modLinks_far (s : State) (f : Links → Links) : (s.modLinks f).far = s.far := rfl
@[simp] theorem State.modLinks_host (s : State) (f : Links → Links) : (s.modLinks f).host = s.host := rfl
@[simp] theorem State.modLinks_net (s : State) (f : Links → Links) : (s.modLinks f).net = s.net := rfl
@[simp] theorem State.modLinks_hub (s : State) (f : Links → Links) : (s.modLinks f).hub = s.hub := rfl
@[simp] theorem State.modLinks_ctxs (s : State) (f : Links → Links) : (s.modLinks f).ctxs = s.ctxs := rfl
@[simp] theorem State.modLinks_fman (s : State) (f : Links → Links) : (s.modLinks f).fman = s.fman := rfl
@[simp] theorem State.modLinks_pci (s : State) (f : Links → Links) : (s.modLinks f).pci = s.pci := rfl
@[simp] theorem State.modLinks_site (s : State) (f : Links → Links) : (s.modLinks f).site = s.site := rfl
@[simp] theorem State.modLinks_trust (s : State) (f : Links → Links) : (s.modLinks f).trust = s.trust := rfl
@[simp] theorem State.modLinks_gov (s : State) (f : Links → Links) : (s.modLinks f).gov = s.gov := rfl
@[simp] theorem State.modLinks_power (s : State) (f : Links → Links) : (s.modLinks f).power = s.power := rfl
@[simp] theorem State.modLinks_resets (s : State) (f : Links → Links) : (s.modLinks f).resets = s.resets := rfl
@[simp] theorem State.modLinks_dbg (s : State) (f : Links → Links) : (s.modLinks f).dbg = s.dbg := rfl
@[simp] theorem State.modLinks_waitUs (s : State) (f : Links → Links) : (s.modLinks f).waitUs = s.waitUs := rfl
@[simp] theorem State.modLinks_rings (s : State) (f : Links → Links) : (s.modLinks f).rings = s.rings := rfl
@[simp] theorem State.modLinks_draws (s : State) (f : Links → Links) : (s.modLinks f).draws = s.draws := rfl

@[simp] theorem State.setPort_pending (s : State) (p : Nat) (x : Port) : (s.setPort p x).pending = s.pending := rfl
@[simp] theorem State.setPort_half (s : State) (p : Nat) (x : Port) : (s.setPort p x).half = s.half := rfl
@[simp] theorem State.setPort_corrected (s : State) (p : Nat) (x : Port) : (s.setPort p x).corrected = s.corrected := rfl
@[simp] theorem State.setPort_dies (s : State) (p : Nat) (x : Port) : (s.setPort p x).dies = s.dies := rfl
@[simp] theorem State.setPort_cores (s : State) (p : Nat) (x : Port) : (s.setPort p x).cores = s.cores := rfl
@[simp] theorem State.setPort_far (s : State) (p : Nat) (x : Port) : (s.setPort p x).far = s.far := rfl
@[simp] theorem State.setPort_host (s : State) (p : Nat) (x : Port) : (s.setPort p x).host = s.host := rfl
@[simp] theorem State.setPort_net (s : State) (p : Nat) (x : Port) : (s.setPort p x).net = s.net := rfl
@[simp] theorem State.setPort_hub (s : State) (p : Nat) (x : Port) : (s.setPort p x).hub = s.hub := rfl
@[simp] theorem State.setPort_ctxs (s : State) (p : Nat) (x : Port) : (s.setPort p x).ctxs = s.ctxs := rfl
@[simp] theorem State.setPort_fman (s : State) (p : Nat) (x : Port) : (s.setPort p x).fman = s.fman := rfl
@[simp] theorem State.setPort_pci (s : State) (p : Nat) (x : Port) : (s.setPort p x).pci = s.pci := rfl
@[simp] theorem State.setPort_site (s : State) (p : Nat) (x : Port) : (s.setPort p x).site = s.site := rfl
@[simp] theorem State.setPort_trust (s : State) (p : Nat) (x : Port) : (s.setPort p x).trust = s.trust := rfl
@[simp] theorem State.setPort_gov (s : State) (p : Nat) (x : Port) : (s.setPort p x).gov = s.gov := rfl
@[simp] theorem State.setPort_power (s : State) (p : Nat) (x : Port) : (s.setPort p x).power = s.power := rfl
@[simp] theorem State.setPort_resets (s : State) (p : Nat) (x : Port) : (s.setPort p x).resets = s.resets := rfl
@[simp] theorem State.setPort_dbg (s : State) (p : Nat) (x : Port) : (s.setPort p x).dbg = s.dbg := rfl
@[simp] theorem State.setPort_waitUs (s : State) (p : Nat) (x : Port) : (s.setPort p x).waitUs = s.waitUs := rfl
@[simp] theorem State.setPort_rings (s : State) (p : Nat) (x : Port) : (s.setPort p x).rings = s.rings := rfl
@[simp] theorem State.setPort_draws (s : State) (p : Nat) (x : Port) : (s.setPort p x).draws = s.draws := rfl

@[simp] theorem State.modTwin_pending (s : State) (f : Twin → Twin) : (s.modTwin f).pending = s.pending := rfl
@[simp] theorem State.modTwin_half (s : State) (f : Twin → Twin) : (s.modTwin f).half = s.half := rfl
@[simp] theorem State.modTwin_corrected (s : State) (f : Twin → Twin) : (s.modTwin f).corrected = s.corrected := rfl
@[simp] theorem State.modTwin_dies (s : State) (f : Twin → Twin) : (s.modTwin f).dies = s.dies := rfl
@[simp] theorem State.modTwin_cores (s : State) (f : Twin → Twin) : (s.modTwin f).cores = s.cores := rfl
@[simp] theorem State.modTwin_far (s : State) (f : Twin → Twin) : (s.modTwin f).far = s.far := rfl
@[simp] theorem State.modTwin_host (s : State) (f : Twin → Twin) : (s.modTwin f).host = s.host := rfl
@[simp] theorem State.modTwin_net (s : State) (f : Twin → Twin) : (s.modTwin f).net = s.net := rfl
@[simp] theorem State.modTwin_hub (s : State) (f : Twin → Twin) : (s.modTwin f).hub = s.hub := rfl
@[simp] theorem State.modTwin_ctxs (s : State) (f : Twin → Twin) : (s.modTwin f).ctxs = s.ctxs := rfl
@[simp] theorem State.modTwin_fman (s : State) (f : Twin → Twin) : (s.modTwin f).fman = s.fman := rfl
@[simp] theorem State.modTwin_pci (s : State) (f : Twin → Twin) : (s.modTwin f).pci = s.pci := rfl
@[simp] theorem State.modTwin_site (s : State) (f : Twin → Twin) : (s.modTwin f).site = s.site := rfl
@[simp] theorem State.modTwin_trust (s : State) (f : Twin → Twin) : (s.modTwin f).trust = s.trust := rfl
@[simp] theorem State.modTwin_gov (s : State) (f : Twin → Twin) : (s.modTwin f).gov = s.gov := rfl
@[simp] theorem State.modTwin_power (s : State) (f : Twin → Twin) : (s.modTwin f).power = s.power := rfl
@[simp] theorem State.modTwin_resets (s : State) (f : Twin → Twin) : (s.modTwin f).resets = s.resets := rfl
@[simp] theorem State.modTwin_dbg (s : State) (f : Twin → Twin) : (s.modTwin f).dbg = s.dbg := rfl
@[simp] theorem State.modTwin_waitUs (s : State) (f : Twin → Twin) : (s.modTwin f).waitUs = s.waitUs := rfl
@[simp] theorem State.modTwin_rings (s : State) (f : Twin → Twin) : (s.modTwin f).rings = s.rings := rfl
@[simp] theorem State.modTwin_draws (s : State) (f : Twin → Twin) : (s.modTwin f).draws = s.draws := rfl

@[simp] theorem State.modTrust_pending (s : State) (f : Trust → Trust) : (s.modTrust f).pending = s.pending := rfl
@[simp] theorem State.modTrust_half (s : State) (f : Trust → Trust) : (s.modTrust f).half = s.half := rfl
@[simp] theorem State.modTrust_corrected (s : State) (f : Trust → Trust) : (s.modTrust f).corrected = s.corrected := rfl
@[simp] theorem State.modTrust_dies (s : State) (f : Trust → Trust) : (s.modTrust f).dies = s.dies := rfl
@[simp] theorem State.modTrust_cores (s : State) (f : Trust → Trust) : (s.modTrust f).cores = s.cores := rfl
@[simp] theorem State.modTrust_far (s : State) (f : Trust → Trust) : (s.modTrust f).far = s.far := rfl
@[simp] theorem State.modTrust_host (s : State) (f : Trust → Trust) : (s.modTrust f).host = s.host := rfl
@[simp] theorem State.modTrust_net (s : State) (f : Trust → Trust) : (s.modTrust f).net = s.net := rfl
@[simp] theorem State.modTrust_hub (s : State) (f : Trust → Trust) : (s.modTrust f).hub = s.hub := rfl
@[simp] theorem State.modTrust_ctxs (s : State) (f : Trust → Trust) : (s.modTrust f).ctxs = s.ctxs := rfl
@[simp] theorem State.modTrust_fman (s : State) (f : Trust → Trust) : (s.modTrust f).fman = s.fman := rfl
@[simp] theorem State.modTrust_links (s : State) (f : Trust → Trust) : (s.modTrust f).links = s.links := rfl
@[simp] theorem State.modTrust_pci (s : State) (f : Trust → Trust) : (s.modTrust f).pci = s.pci := rfl
@[simp] theorem State.modTrust_site (s : State) (f : Trust → Trust) : (s.modTrust f).site = s.site := rfl
@[simp] theorem State.modTrust_gov (s : State) (f : Trust → Trust) : (s.modTrust f).gov = s.gov := rfl
@[simp] theorem State.modTrust_power (s : State) (f : Trust → Trust) : (s.modTrust f).power = s.power := rfl
@[simp] theorem State.modTrust_resets (s : State) (f : Trust → Trust) : (s.modTrust f).resets = s.resets := rfl
@[simp] theorem State.modTrust_dbg (s : State) (f : Trust → Trust) : (s.modTrust f).dbg = s.dbg := rfl
@[simp] theorem State.modTrust_waitUs (s : State) (f : Trust → Trust) : (s.modTrust f).waitUs = s.waitUs := rfl
@[simp] theorem State.modTrust_rings (s : State) (f : Trust → Trust) : (s.modTrust f).rings = s.rings := rfl
@[simp] theorem State.modTrust_draws (s : State) (f : Trust → Trust) : (s.modTrust f).draws = s.draws := rfl

@[simp] theorem State.modGov_pending (s : State) (f : Governor → Governor) : (s.modGov f).pending = s.pending := rfl
@[simp] theorem State.modGov_half (s : State) (f : Governor → Governor) : (s.modGov f).half = s.half := rfl
@[simp] theorem State.modGov_corrected (s : State) (f : Governor → Governor) : (s.modGov f).corrected = s.corrected := rfl
@[simp] theorem State.modGov_dies (s : State) (f : Governor → Governor) : (s.modGov f).dies = s.dies := rfl
@[simp] theorem State.modGov_cores (s : State) (f : Governor → Governor) : (s.modGov f).cores = s.cores := rfl
@[simp] theorem State.modGov_far (s : State) (f : Governor → Governor) : (s.modGov f).far = s.far := rfl
@[simp] theorem State.modGov_host (s : State) (f : Governor → Governor) : (s.modGov f).host = s.host := rfl
@[simp] theorem State.modGov_net (s : State) (f : Governor → Governor) : (s.modGov f).net = s.net := rfl
@[simp] theorem State.modGov_hub (s : State) (f : Governor → Governor) : (s.modGov f).hub = s.hub := rfl
@[simp] theorem State.modGov_ctxs (s : State) (f : Governor → Governor) : (s.modGov f).ctxs = s.ctxs := rfl
@[simp] theorem State.modGov_fman (s : State) (f : Governor → Governor) : (s.modGov f).fman = s.fman := rfl
@[simp] theorem State.modGov_links (s : State) (f : Governor → Governor) : (s.modGov f).links = s.links := rfl
@[simp] theorem State.modGov_pci (s : State) (f : Governor → Governor) : (s.modGov f).pci = s.pci := rfl
@[simp] theorem State.modGov_site (s : State) (f : Governor → Governor) : (s.modGov f).site = s.site := rfl
@[simp] theorem State.modGov_trust (s : State) (f : Governor → Governor) : (s.modGov f).trust = s.trust := rfl
@[simp] theorem State.modGov_power (s : State) (f : Governor → Governor) : (s.modGov f).power = s.power := rfl
@[simp] theorem State.modGov_resets (s : State) (f : Governor → Governor) : (s.modGov f).resets = s.resets := rfl
@[simp] theorem State.modGov_dbg (s : State) (f : Governor → Governor) : (s.modGov f).dbg = s.dbg := rfl
@[simp] theorem State.modGov_waitUs (s : State) (f : Governor → Governor) : (s.modGov f).waitUs = s.waitUs := rfl
@[simp] theorem State.modGov_rings (s : State) (f : Governor → Governor) : (s.modGov f).rings = s.rings := rfl
@[simp] theorem State.modGov_draws (s : State) (f : Governor → Governor) : (s.modGov f).draws = s.draws := rfl

/-! ### Units that an update does not touch -/

@[simp] theorem State.ctx_setCore (s : State) (n : Nat) (k : Core) (m : Nat) : (s.setCore n k).ctx m = s.ctx m := rfl
@[simp] theorem State.ctx_modCore (s : State) (n : Nat) (f : Core → Core) (m : Nat) : (s.modCore n f).ctx m = s.ctx m := rfl
@[simp] theorem State.ctx_setQueue (s : State) (n e : Nat) (q : Queue) (m : Nat) : (s.setQueue n e q).ctx m = s.ctx m := rfl
@[simp] theorem State.ctx_modQueue (s : State) (n e : Nat) (f : Queue → Queue) (m : Nat) : (s.modQueue n e f).ctx m = s.ctx m := rfl
@[simp] theorem State.ctx_setGang (s : State) (n sl : Nat) (g : Gang) (m : Nat) : (s.setGang n sl g).ctx m = s.ctx m := rfl
@[simp] theorem State.ctx_modGang (s : State) (n sl : Nat) (f : Gang → Gang) (m : Nat) : (s.modGang n sl f).ctx m = s.ctx m := rfl
@[simp] theorem State.ctx_modSlab (s : State) (n : Nat) (f : Slab → Slab) (m : Nat) : (s.modSlab n f).ctx m = s.ctx m := rfl
@[simp] theorem State.ctx_modMe (s : State) (n : Nat) (f : MatrixEngine → MatrixEngine) (m : Nat) : (s.modMe n f).ctx m = s.ctx m := rfl
@[simp] theorem State.ctx_count (s : State) (core code n : Nat) (m : Nat) : (s.count core code n).ctx m = s.ctx m := rfl
@[simp] theorem State.ctx_issued (s : State) (core slot : Nat) (vec : Bool) (m : Nat) : (s.issued core slot vec).ctx m = s.ctx m := rfl
@[simp] theorem State.ctx_gangDone (s : State) (g : GangAt) (r : Gang × FFlags) (m : Nat) : (s.gangDone g r).ctx m = s.ctx m := rfl
@[simp] theorem State.core_setCtx (s : State) (c : Nat) (x : Ctx) (m : Nat) : (s.setCtx c x).core m = s.core m := rfl
@[simp] theorem State.gang_setCtx (s : State) (c : Nat) (x : Ctx) (m i : Nat) : (s.setCtx c x).gang m i = s.gang m i := rfl
@[simp] theorem State.queue_setCtx (s : State) (c : Nat) (x : Ctx) (m i : Nat) : (s.setCtx c x).queue m i = s.queue m i := rfl
@[simp] theorem State.core_modCtx (s : State) (c : Nat) (f : Ctx → Ctx) (m : Nat) : (s.modCtx c f).core m = s.core m := rfl
@[simp] theorem State.gang_modCtx (s : State) (c : Nat) (f : Ctx → Ctx) (m i : Nat) : (s.modCtx c f).gang m i = s.gang m i := rfl
@[simp] theorem State.queue_modCtx (s : State) (c : Nat) (f : Ctx → Ctx) (m i : Nat) : (s.modCtx c f).queue m i = s.queue m i := rfl
@[simp] theorem State.core_bump (s : State) (c : Nat) (m : Nat) : (s.bump c).core m = s.core m := rfl
@[simp] theorem State.gang_bump (s : State) (c : Nat) (m i : Nat) : (s.bump c).gang m i = s.gang m i := rfl
@[simp] theorem State.queue_bump (s : State) (c : Nat) (m i : Nat) : (s.bump c).queue m i = s.queue m i := rfl
@[simp] theorem State.core_setChan (s : State) (ch : Nat) (x : Channel) (m : Nat) : (s.setChan ch x).core m = s.core m := rfl
@[simp] theorem State.gang_setChan (s : State) (ch : Nat) (x : Channel) (m i : Nat) : (s.setChan ch x).gang m i = s.gang m i := rfl
@[simp] theorem State.queue_setChan (s : State) (ch : Nat) (x : Channel) (m i : Nat) : (s.setChan ch x).queue m i = s.queue m i := rfl
@[simp] theorem State.ctx_setChan (s : State) (ch : Nat) (x : Channel) (m : Nat) : (s.setChan ch x).ctx m = s.ctx m := rfl
@[simp] theorem State.core_tail (s : State) (ring kind ctx : Nat) (gang : Option Nat) (w1 w2 w3 : Nat) (m : Nat) : (s.tail ring kind ctx gang w1 w2 w3).core m = s.core m := rfl
@[simp] theorem State.gang_tail (s : State) (ring kind ctx : Nat) (gang : Option Nat) (w1 w2 w3 : Nat) (m i : Nat) : (s.tail ring kind ctx gang w1 w2 w3).gang m i = s.gang m i := rfl
@[simp] theorem State.queue_tail (s : State) (ring kind ctx : Nat) (gang : Option Nat) (w1 w2 w3 : Nat) (m i : Nat) : (s.tail ring kind ctx gang w1 w2 w3).queue m i = s.queue m i := rfl
@[simp] theorem State.ctx_tail (s : State) (ring kind ctx : Nat) (gang : Option Nat) (w1 w2 w3 : Nat) (m : Nat) : (s.tail ring kind ctx gang w1 w2 w3).ctx m = s.ctx m := rfl
@[simp] theorem State.core_hubCount (s : State) (unit code n : Nat) (m : Nat) : (s.hubCount unit code n).core m = s.core m := rfl
@[simp] theorem State.gang_hubCount (s : State) (unit code n : Nat) (m i : Nat) : (s.hubCount unit code n).gang m i = s.gang m i := rfl
@[simp] theorem State.queue_hubCount (s : State) (unit code n : Nat) (m i : Nat) : (s.hubCount unit code n).queue m i = s.queue m i := rfl
@[simp] theorem State.ctx_hubCount (s : State) (unit code n : Nat) (m : Nat) : (s.hubCount unit code n).ctx m = s.ctx m := rfl
@[simp] theorem State.core_setBridge (s : State) (j : Nat) (b : BridgeSound) (m : Nat) : (s.setBridge j b).core m = s.core m := rfl
@[simp] theorem State.gang_setBridge (s : State) (j : Nat) (b : BridgeSound) (m i : Nat) : (s.setBridge j b).gang m i = s.gang m i := rfl
@[simp] theorem State.queue_setBridge (s : State) (j : Nat) (b : BridgeSound) (m i : Nat) : (s.setBridge j b).queue m i = s.queue m i := rfl
@[simp] theorem State.ctx_setBridge (s : State) (j : Nat) (b : BridgeSound) (m : Nat) : (s.setBridge j b).ctx m = s.ctx m := rfl
@[simp] theorem State.core_setUnit (s : State) (u : Nat) (b : BarUnit) (m : Nat) : (s.setUnit u b).core m = s.core m := rfl
@[simp] theorem State.gang_setUnit (s : State) (u : Nat) (b : BarUnit) (m i : Nat) : (s.setUnit u b).gang m i = s.gang m i := rfl
@[simp] theorem State.queue_setUnit (s : State) (u : Nat) (b : BarUnit) (m i : Nat) : (s.setUnit u b).queue m i = s.queue m i := rfl
@[simp] theorem State.ctx_setUnit (s : State) (u : Nat) (b : BarUnit) (m : Nat) : (s.setUnit u b).ctx m = s.ctx m := rfl
@[simp] theorem State.core_sendTally (s : State) (x : TallyMsg) (m : Nat) : (s.sendTally x).core m = s.core m := rfl
@[simp] theorem State.gang_sendTally (s : State) (x : TallyMsg) (m i : Nat) : (s.sendTally x).gang m i = s.gang m i := rfl
@[simp] theorem State.queue_sendTally (s : State) (x : TallyMsg) (m i : Nat) : (s.sendTally x).queue m i = s.queue m i := rfl
@[simp] theorem State.ctx_sendTally (s : State) (x : TallyMsg) (m : Nat) : (s.sendTally x).ctx m = s.ctx m := rfl
@[simp] theorem State.core_modPci (s : State) (f : HostPort → HostPort) (m : Nat) : (s.modPci f).core m = s.core m := rfl
@[simp] theorem State.gang_modPci (s : State) (f : HostPort → HostPort) (m i : Nat) : (s.modPci f).gang m i = s.gang m i := rfl
@[simp] theorem State.queue_modPci (s : State) (f : HostPort → HostPort) (m i : Nat) : (s.modPci f).queue m i = s.queue m i := rfl
@[simp] theorem State.ctx_modPci (s : State) (f : HostPort → HostPort) (m : Nat) : (s.modPci f).ctx m = s.ctx m := rfl
@[simp] theorem State.core_modLinks (s : State) (f : Links → Links) (m : Nat) : (s.modLinks f).core m = s.core m := rfl
@[simp] theorem State.gang_modLinks (s : State) (f : Links → Links) (m i : Nat) : (s.modLinks f).gang m i = s.gang m i := rfl
@[simp] theorem State.queue_modLinks (s : State) (f : Links → Links) (m i : Nat) : (s.modLinks f).queue m i = s.queue m i := rfl
@[simp] theorem State.ctx_modLinks (s : State) (f : Links → Links) (m : Nat) : (s.modLinks f).ctx m = s.ctx m := rfl
@[simp] theorem State.core_setPort (s : State) (p : Nat) (x : Port) (m : Nat) : (s.setPort p x).core m = s.core m := rfl
@[simp] theorem State.gang_setPort (s : State) (p : Nat) (x : Port) (m i : Nat) : (s.setPort p x).gang m i = s.gang m i := rfl
@[simp] theorem State.queue_setPort (s : State) (p : Nat) (x : Port) (m i : Nat) : (s.setPort p x).queue m i = s.queue m i := rfl
@[simp] theorem State.ctx_setPort (s : State) (p : Nat) (x : Port) (m : Nat) : (s.setPort p x).ctx m = s.ctx m := rfl
@[simp] theorem State.core_modTwin (s : State) (f : Twin → Twin) (m : Nat) : (s.modTwin f).core m = s.core m := rfl
@[simp] theorem State.gang_modTwin (s : State) (f : Twin → Twin) (m i : Nat) : (s.modTwin f).gang m i = s.gang m i := rfl
@[simp] theorem State.queue_modTwin (s : State) (f : Twin → Twin) (m i : Nat) : (s.modTwin f).queue m i = s.queue m i := rfl
@[simp] theorem State.ctx_modTwin (s : State) (f : Twin → Twin) (m : Nat) : (s.modTwin f).ctx m = s.ctx m := rfl
@[simp] theorem State.core_modTrust (s : State) (f : Trust → Trust) (m : Nat) : (s.modTrust f).core m = s.core m := rfl
@[simp] theorem State.gang_modTrust (s : State) (f : Trust → Trust) (m i : Nat) : (s.modTrust f).gang m i = s.gang m i := rfl
@[simp] theorem State.queue_modTrust (s : State) (f : Trust → Trust) (m i : Nat) : (s.modTrust f).queue m i = s.queue m i := rfl
@[simp] theorem State.ctx_modTrust (s : State) (f : Trust → Trust) (m : Nat) : (s.modTrust f).ctx m = s.ctx m := rfl
@[simp] theorem State.core_modGov (s : State) (f : Governor → Governor) (m : Nat) : (s.modGov f).core m = s.core m := rfl
@[simp] theorem State.gang_modGov (s : State) (f : Governor → Governor) (m i : Nat) : (s.modGov f).gang m i = s.gang m i := rfl
@[simp] theorem State.queue_modGov (s : State) (f : Governor → Governor) (m i : Nat) : (s.modGov f).queue m i = s.queue m i := rfl
@[simp] theorem State.ctx_modGov (s : State) (f : Governor → Governor) (m : Nat) : (s.modGov f).ctx m = s.ctx m := rfl
@[simp] theorem State.core_draw (s : State) (m : Nat) : (s.draw.2).core m = s.core m := rfl
@[simp] theorem State.gang_draw (s : State) (m i : Nat) : (s.draw.2).gang m i = s.gang m i := rfl
@[simp] theorem State.queue_draw (s : State) (m i : Nat) : (s.draw.2).queue m i = s.queue m i := rfl
@[simp] theorem State.ctx_draw (s : State) (m : Nat) : (s.draw.2).ctx m = s.ctx m := rfl

@[simp] theorem State.draw_pending (s : State) : s.draw.2.pending = s.pending := rfl
@[simp] theorem State.draw_half (s : State) : s.draw.2.half = s.half := rfl
@[simp] theorem State.draw_corrected (s : State) : s.draw.2.corrected = s.corrected := rfl
@[simp] theorem State.draw_dies (s : State) : s.draw.2.dies = s.dies := rfl
@[simp] theorem State.draw_cores (s : State) : s.draw.2.cores = s.cores := rfl
@[simp] theorem State.draw_far (s : State) : s.draw.2.far = s.far := rfl
@[simp] theorem State.draw_host (s : State) : s.draw.2.host = s.host := rfl
@[simp] theorem State.draw_net (s : State) : s.draw.2.net = s.net := rfl
@[simp] theorem State.draw_hub (s : State) : s.draw.2.hub = s.hub := rfl
@[simp] theorem State.draw_ctxs (s : State) : s.draw.2.ctxs = s.ctxs := rfl
@[simp] theorem State.draw_fman (s : State) : s.draw.2.fman = s.fman := rfl
@[simp] theorem State.draw_links (s : State) : s.draw.2.links = s.links := rfl
@[simp] theorem State.draw_pci (s : State) : s.draw.2.pci = s.pci := rfl
@[simp] theorem State.draw_site (s : State) : s.draw.2.site = s.site := rfl
@[simp] theorem State.draw_trust (s : State) : s.draw.2.trust = s.trust := rfl
@[simp] theorem State.draw_gov (s : State) : s.draw.2.gov = s.gov := rfl
@[simp] theorem State.draw_power (s : State) : s.draw.2.power = s.power := rfl
@[simp] theorem State.draw_resets (s : State) : s.draw.2.resets = s.resets := rfl
@[simp] theorem State.draw_dbg (s : State) : s.draw.2.dbg = s.dbg := rfl
@[simp] theorem State.draw_waitUs (s : State) : s.draw.2.waitUs = s.waitUs := rfl
@[simp] theorem State.draw_rings (s : State) : s.draw.2.rings = s.rings := rfl
@[simp] theorem State.draw_draws (s : State) : s.draw.2.draws = s.draws + 1 := rfl
@[simp] theorem State.draw_fst (s : State) : s.draw.1 = s.draws := rfl

/-! ### Reading a unit after an update -/

@[simp] theorem State.setCore_setCore (s : State) (n : Nat) (k j : Core) : (s.setCore n k).setCore n j = s.setCore n j := by
  unfold State.setCore; simp
@[simp] theorem State.modCore_modCore (s : State) (n : Nat) (f g : Core → Core) : (s.modCore n f).modCore n g = s.modCore n (fun k => g (f k)) := by
  unfold State.modCore State.setCore State.core; simp
@[simp] theorem State.setCtx_setCtx (s : State) (n : Nat) (k j : Ctx) : (s.setCtx n k).setCtx n j = s.setCtx n j := by
  unfold State.setCtx; simp
@[simp] theorem State.modCtx_modCtx (s : State) (n : Nat) (f g : Ctx → Ctx) : (s.modCtx n f).modCtx n g = s.modCtx n (fun k => g (f k)) := by
  unfold State.modCtx State.setCtx State.ctx; simp
@[simp] theorem State.core_setCore_self (s : State) (n : Nat) (k : Core) : (s.setCore n k).core n = k := tblGet_tblSet_self _ _ _ _
theorem State.core_setCore_ne {m n : Nat} (h : m ≠ n) (s : State) (k : Core) : (s.setCore n k).core m = s.core m :=
  tblGet_tblSet_ne _ h _ _
@[simp] theorem State.core_modCore_self (s : State) (n : Nat) (f : Core → Core) : (s.modCore n f).core n = f (s.core n) :=
  tblGet_tblSet_self _ _ _ _
theorem State.core_modCore_ne {m n : Nat} (h : m ≠ n) (s : State) (f : Core → Core) : (s.modCore n f).core m = s.core m :=
  tblGet_tblSet_ne _ h _ _
@[simp] theorem Core.gang_setGang_self (k : Core) (sl : Nat) (g : Gang) : (k.setGang sl g).gang sl = g := tblGet_tblSet_self _ _ _ _
theorem Core.gang_setGang_ne {m sl : Nat} (h : m ≠ sl) (k : Core) (g : Gang) : (k.setGang sl g).gang m = k.gang m :=
  tblGet_tblSet_ne _ h _ _
@[simp] theorem State.gang_setGang_self (s : State) (n sl : Nat) (g : Gang) : (s.setGang n sl g).gang n sl = g := by
  simp [State.gang, State.setGang]
@[simp] theorem State.core_setGang_self (s : State) (n sl : Nat) (g : Gang) : (s.setGang n sl g).core n = (s.core n).setGang sl g :=
  tblGet_tblSet_self _ _ _ _
theorem State.core_setGang_ne {m n : Nat} (h : m ≠ n) (s : State) (sl : Nat) (g : Gang) : (s.setGang n sl g).core m = s.core m :=
  tblGet_tblSet_ne _ h _ _
@[simp] theorem Core.queue_setQueue_self (k : Core) (e : Nat) (q : Queue) : (k.setQueue e q).queue e = q := tblGet_tblSet_self _ _ _ _
theorem Core.queue_setQueue_ne {m e : Nat} (h : m ≠ e) (k : Core) (q : Queue) : (k.setQueue e q).queue m = k.queue m :=
  tblGet_tblSet_ne _ h _ _
@[simp] theorem State.core_setQueue_self (s : State) (n e : Nat) (q : Queue) : (s.setQueue n e q).core n = (s.core n).setQueue e q :=
  tblGet_tblSet_self _ _ _ _
theorem State.core_setQueue_ne {m n : Nat} (h : m ≠ n) (s : State) (e : Nat) (q : Queue) : (s.setQueue n e q).core m = s.core m :=
  tblGet_tblSet_ne _ h _ _
@[simp] theorem State.queue_setQueue_self (s : State) (n e : Nat) (q : Queue) : (s.setQueue n e q).queue n e = q := by
  simp [State.queue]
@[simp] theorem State.ctx_setCtx_self (s : State) (c : Nat) (x : Ctx) : (s.setCtx c x).ctx c = x := tblGet_tblSet_self _ _ _ _
theorem State.ctx_setCtx_ne {d c : Nat} (h : d ≠ c) (s : State) (x : Ctx) : (s.setCtx c x).ctx d = s.ctx d := tblGet_tblSet_ne _ h _ _
@[simp] theorem State.ctx_modCtx_self (s : State) (c : Nat) (f : Ctx → Ctx) : (s.modCtx c f).ctx c = f (s.ctx c) := tblGet_tblSet_self _ _ _ _
theorem State.ctx_modCtx_ne {d c : Nat} (h : d ≠ c) (s : State) (f : Ctx → Ctx) : (s.modCtx c f).ctx d = s.ctx d := tblGet_tblSet_ne _ h _ _

/-! ### Registers of a gang -/

theorem Gang.getS_setS (g : Gang) (r q : Nat) (x : W64) : (g.setS r x).getS q = if q = r then x else g.getS q := by
  unfold Gang.getS Gang.setS
  rw [tblGet_tblSet]
theorem Gang.getV_setV (g : Gang) (r l q m : Nat) (x : W32) :
    (g.setV r l x).getV q m = if 32 * q + m = 32 * r + l then x else g.getV q m := by
  unfold Gang.getV Gang.setV
  rw [tblGet_tblSet]
theorem Gang.getP_setP (g : Gang) (r q : Nat) (x : W32) :
    (g.setP r x).getP q = if q = r ∧ r ≠ 0 then x else g.getP q := by
  unfold Gang.getP Gang.setP
  by_cases h : r = 0
  · simp [h]
  · by_cases hq : q = 0
    · simp [hq, Ne.symm h]
    · simp [h, hq, tblGet_tblSet]

end Sys2Proof.Machine
end

