-- ==== Sys2Proof/Laws/Gang.lean ====
section
/-! SUPPORT. What the shared operations of gang instructions do: the issue, a result that is stored at once, and the
registers after it. -/

namespace Sys2Proof.Machine

theorem onGangTry_next {s : State} {g : GangAt} {i : Instr} {u : RegUse} {c : Nat} {mem : Bool} (vec : Bool)
    (body : Nat → Gang → GangEnv → State → Option State) (h1 : g.core < 1280) (h2 : g.slot < 16) (h3 : s.gangReady g u mem = some c)
    (h4 : i.loadErr = none) :
    onGangTry s g i vec u body mem
      = .next ((body c (s.gang g.core g.slot) (s.gangEnv g.core g.slot) (s.issued g.core g.slot vec)).getD s) := by
  unfold onGangTry
  rw [if_pos ⟨h1, h2⟩, h3]
  simp only [h4]

theorem onGang_next {s : State} {g : GangAt} {i : Instr} {u : RegUse} {c : Nat} {mem : Bool} (vec : Bool)
    (body : Nat → Gang → GangEnv → State → State) (h1 : g.core < 1280) (h2 : g.slot < 16) (h3 : s.gangReady g u mem = some c)
    (h4 : i.loadErr = none) :
    onGang s g i vec u body mem
      = .next (body c (s.gang g.core g.slot) (s.gangEnv g.core g.slot) (s.issued g.core g.slot vec)) :=
  onGangTry_next vec _ h1 h2 h3 h4

theorem gangAlu_next {s : State} {g : GangAt} {i : Instr} {sp : VSpec} {f : VForm} {c : Nat}
    (op : GangEnv → Gang → Gang × FFlags) (h1 : g.core < 1280) (h2 : g.slot < 16) (h3 : s.gangReady g (vUse sp f) = some c)
    (h4 : i.loadErr = none) :
    gangAlu s g i sp f op
      = .next ((s.issued g.core g.slot sp.vslot).gangDone g (op (s.gangEnv g.core g.slot) (s.gang g.core g.slot))) :=
  onGang_next _ _ h1 h2 h3 h4

theorem Core.count_eq (k : Core) (code n : Nat) : k.count code n = { k with dbg := { k.dbg with counters := (k.count code n).dbg.counters } } := by
  unfold Core.count
  dsimp only
  split <;> rfl

/-- The core after an instruction that ends at once. -/
theorem core_gangDone (s : State) (g : GangAt) (vec : Bool) (r : Gang × FFlags) :
    ∃ rv rs ct, ((s.issued g.core g.slot vec).gangDone g r).core g.core = { s.core g.core with
      ge := { (s.core g.core).ge with slots := tblSet g.slot (r.1.advance g.next) (s.core g.core).ge.slots
                                      flags := (s.core g.core).ge.flags.or r.2, rrVector := rv, rrScalar := rs }
      dbg := { (s.core g.core).dbg with counters := ct } } := by
  unfold State.gangDone State.issued
  simp only [State.core_modCore_self]
  rw [Core.count_eq]
  cases vec
  · exact ⟨_, _, _, rfl⟩
  · exact ⟨_, _, _, rfl⟩

theorem core_gangDone_ne {n : Nat} (s : State) (g : GangAt) (vec : Bool) (r : Gang × FFlags) (h : n ≠ g.core) :
    ((s.issued g.core g.slot vec).gangDone g r).core n = s.core n := by
  unfold State.gangDone State.issued
  rw [State.core_modCore_ne h, State.core_modCore_ne h]

theorem FFlags.or_none (a : FFlags) : a.or {} = a := by
  unfold FFlags.or
  simp

/-! ### Registers after a result in lanes -/

theorem Gang.putV_getV (g : Gang) (r l w x q m : Nat) (hl : l < 32) (hm : m < 32) :
    (g.putV r l w x).getV q m =
      if m = l ∧ q = r then BitVec.ofNat 32 (if w = 64 then x else x % 2 ^ w)
      else if m = l ∧ w = 64 ∧ q = r + 1 then BitVec.ofNat 32 (x / 2 ^ 32)
      else g.getV q m := by
  have e : ∀ p, 32 * q + m = 32 * p + l ↔ m = l ∧ q = p := by intro p; omega
  unfold Gang.putV
  by_cases hw : w = 64
  · simp only [hw, if_true, Gang.getV_setV, e]
    by_cases h1 : m = l ∧ q = r + 1
    · simp [h1]
    · by_cases h2 : m = l ∧ q = r
      · simp [h2]
      · simp only [h1, h2, if_false]
        simp only [true_and, h1, if_false]
  · simp only [hw, if_false, Gang.getV_setV, e, false_and, and_false]

theorem Gang.putV_frame (g : Gang) (r l w x : Nat) : g.putV r l w x = { g with v := (g.putV r l w x).v } := by
  unfold Gang.putV
  split <;> rfl

theorem Gang.putLanes_frame (g : Gang) (r w : Nat) (lanes : W32) (val : Nat → Nat) :
    g.putLanes r w lanes val = { g with v := (g.putLanes r w lanes val).v } := by
  have : ∀ (ls : List Nat) (g : Gang), ls.foldl (fun h l => h.putV r l w (val l)) g
      = { g with v := (ls.foldl (fun h l => h.putV r l w (val l)) g).v } := by
    intro ls
    induction ls with
    | nil => intro g; rfl
    | cons l ls ih =>
      intro g
      have h1 := ih (g.putV r l w (val l))
      rw [List.foldl_cons, h1]
      rw [Gang.putV_frame g r l w (val l)]
  exact this _ _

theorem mem_lanesOf {m : W32} {l : Nat} : l ∈ lanesOf m ↔ l < 32 ∧ m.getLsbD l = true := by
  unfold lanesOf
  simp

theorem lanesOf_lt {m : W32} {l : Nat} (h : l ∈ lanesOf m) : l < 32 := (mem_lanesOf.1 h).1

theorem lanesOf_nodup (m : W32) : (lanesOf m).Nodup := (List.nodup_range).filter _

/-- A vector register after a result has been stored in the lanes of a mask. -/
theorem Gang.getV_putLanes (g : Gang) (r w : Nat) (lanes : W32) (val : Nat → Nat) (q m : Nat) (hm : m < 32) :
    (g.putLanes r w lanes val).getV q m =
      if lanes.getLsbD m = true ∧ q = r then BitVec.ofNat 32 (if w = 64 then val m else val m % 2 ^ w)
      else if lanes.getLsbD m = true ∧ w = 64 ∧ q = r + 1 then BitVec.ofNat 32 (val m / 2 ^ 32)
      else g.getV q m := by
  have : ∀ (ls : List Nat) (g : Gang), (∀ l ∈ ls, l < 32) → ls.Nodup → (ls.foldl (fun h l => h.putV r l w (val l)) g).getV q m =
      if m ∈ ls ∧ q = r then BitVec.ofNat 32 (if w = 64 then val m else val m % 2 ^ w)
      else if m ∈ ls ∧ w = 64 ∧ q = r + 1 then BitVec.ofNat 32 (val m / 2 ^ 32)
      else g.getV q m := by
    intro ls
    induction ls with
    | nil => intro g _ _; simp
    | cons l ls ih =>
      intro g hlt hnd
      rw [List.foldl_cons, ih _ (fun x hx => hlt x (List.mem_cons_of_mem _ hx)) (List.nodup_cons.1 hnd).2,
        Gang.putV_getV _ _ _ _ _ _ _ (hlt l List.mem_cons_self) hm]
      by_cases hml : m = l
      · subst hml
        have hn : m ∉ ls := (List.nodup_cons.1 hnd).1
        simp [hn]
      · simp [hml]
  have h := this (lanesOf lanes) g (fun l hl => lanesOf_lt hl) (lanesOf_nodup _)
  simp only [mem_lanesOf, hm, true_and] at h
  exact h

end Sys2Proof.Machine
end

