-- ==== Sys2Proof/Laws/Bytes.lean ====
section
/-! SUPPORT. Little-endian bytes, byte masks, and the registers after a load or a slab read. -/

namespace Sys2Proof

@[simp] theorem leBytes_length (n x : Nat) : (leBytes n x).length = n := by
  induction n generalizing x with
  | zero => rfl
  | succ n ih => simp [leBytes, ih]

theorem ofLe_lt (bs : List Byte) : ofLe bs < 256 ^ bs.length := by
  induction bs with
  | nil => simp [ofLe]
  | cons b bs ih =>
    have := b.isLt
    simp only [ofLe, List.length_cons, Nat.pow_succ]
    omega

theorem ofLe_leBytes (n x : Nat) : ofLe (leBytes n x) = x % 256 ^ n := by
  induction n generalizing x with
  | zero => simp [leBytes, ofLe, Nat.mod_one]
  | succ n ih =>
    simp only [leBytes, ofLe, ih, BitVec.toNat_ofNat]
    rw [show (2 : Nat) ^ 8 = 256 from rfl, Nat.pow_succ, Nat.mul_comm (256 ^ n) 256]
    exact (Nat.mod_mul).symm

theorem leBytes_ofLe (bs : List Byte) : leBytes bs.length (ofLe bs) = bs := by
  induction bs with
  | nil => rfl
  | cons b bs ih =>
    have hb := b.isLt
    simp only [List.length_cons, ofLe, leBytes]
    have h2 : (b.toNat + 256 * ofLe bs) / 256 = ofLe bs := by omega
    have h1 : BitVec.ofNat 8 (b.toNat + 256 * ofLe bs) = b := by
      apply BitVec.eq_of_toNat_eq
      simp only [BitVec.toNat_ofNat]
      omega
    rw [h1, h2, ih]

theorem ofLe_take (bs : List Byte) (k : Nat) : ofLe (bs.take k) = ofLe bs % 256 ^ k := by
  induction bs generalizing k with
  | nil => simp [ofLe]
  | cons b bs ih =>
    have hb := b.isLt
    cases k with
    | zero => simp [ofLe, Nat.mod_one]
    | succ k =>
      simp only [List.take_succ_cons, ofLe, ih, Nat.pow_succ]
      rw [Nat.mul_comm (256 ^ k) 256, Nat.mod_mul]
      have h1 : (b.toNat + 256 * ofLe bs) % 256 = b.toNat := by omega
      have h2 : (b.toNat + 256 * ofLe bs) / 256 = ofLe bs := by omega
      rw [h1, h2]

theorem ofLe_drop (bs : List Byte) (k : Nat) : ofLe (bs.drop k) = ofLe bs / 256 ^ k := by
  induction k generalizing bs with
  | zero => simp
  | succ k ih =>
    cases bs with
    | nil => simp [ofLe]
    | cons b bs =>
      have hb := b.isLt
      simp only [List.drop_succ_cons, ofLe, ih, Nat.pow_succ]
      rw [Nat.mul_comm (256 ^ k) 256, ← Nat.div_div_eq_div_mul]
      congr 1
      omega

namespace Machine

/-- Registers after a fold of register writes at distinct places. -/
theorem fold_setV (key : Nat → Nat × Nat) (val : Nat → W32) (is : List Nat) (g : Gang) (r l : Nat) (hl : l < 32)
    (hlt : ∀ i ∈ is, (key i).2 < 32) (hn : is.Nodup) (hinj : ∀ i ∈ is, ∀ j ∈ is, key i = key j → i = j) :
    (∀ i ∈ is, key i = (r, l) → (is.foldl (fun h i => h.setV (key i).1 (key i).2 (val i)) g).getV r l = val i) ∧
    ((∀ i ∈ is, key i ≠ (r, l)) → (is.foldl (fun h i => h.setV (key i).1 (key i).2 (val i)) g).getV r l = g.getV r l) := by
  induction is generalizing g with
  | nil => simp
  | cons j is ih =>
    have ih' := ih (g.setV (key j).1 (key j).2 (val j)) (fun i hi => hlt i (List.mem_cons_of_mem _ hi)) (List.nodup_cons.1 hn).2
      (fun a ha b hb => hinj a (List.mem_cons_of_mem _ ha) b (List.mem_cons_of_mem _ hb))
    have hj := hlt j List.mem_cons_self
    have e : 32 * r + l = 32 * (key j).1 + (key j).2 ↔ key j = (r, l) := by
      constructor
      · intro h; ext <;> simp <;> omega
      · intro h; rw [h]
    constructor
    · intro i hi hk
      rw [List.foldl_cons]
      by_cases hij : i ∈ is
      · exact ih'.1 i hij hk
      · have : i = j := by rcases List.mem_cons.1 hi with h | h; exact h; exact absurd h hij
        subst this
        rw [ih'.2, Gang.getV_setV, if_pos (e.2 hk)]
        intro k hk' hkk
        have := hinj i hi k (List.mem_cons_of_mem _ hk') (hk.trans hkk.symm)
        subst this
        exact hij hk'
    · intro h
      rw [List.foldl_cons, ih'.2 (fun i hi => h i (List.mem_cons_of_mem _ hi)), Gang.getV_setV, if_neg]
      intro hh
      exact h j List.mem_cons_self (e.1 hh)

theorem fold_setV_frame (key : Nat → Nat × Nat) (val : Nat → W32) (is : List Nat) (g : Gang) :
    is.foldl (fun h i => h.setV (key i).1 (key i).2 (val i)) g = { g with v := (is.foldl (fun h i => h.setV (key i).1 (key i).2 (val i)) g).v } := by
  induction is generalizing g with
  | nil => rfl
  | cons j is ih => rw [List.foldl_cons, ih (g.setV _ _ _)]; rfl

/-- SLD changes vector registers only. -/
theorem loadSlab_frame (g : Gang) (d : Nat) (bs : List Byte) : loadSlab g d bs = { g with v := (loadSlab g d bs).v } :=
  fold_setV_frame (fun i => (d + i % 4, i / 4)) _ _ _

/-- Byte b of the slab is in lane b / 16, register d + (b mod 16) / 4 (02_gangs R45). -/
theorem loadSlab_get (g : Gang) (d : Nat) (bs : List Byte) (r l : Nat) (hr : r < 4) (hl : l < 32) :
    (loadSlab g d bs).getV (d + r) l = BitVec.ofNat 32 (ofLe ((bs.drop (16 * l + 4 * r)).take 4)) := by
  have := (fold_setV (fun i => (d + i % 4, i / 4)) (fun i => BitVec.ofNat 32 (ofLe ((bs.drop (4 * i)).take 4))) (List.range 128) g (d + r) l hl
    (by intro i hi; simp at hi ⊢; omega) List.nodup_range (by intro i hi j hj; simp; omega)).1 (4 * l + r) (by simp; omega) (by simp; omega)
  rw [show 16 * l + 4 * r = 4 * (4 * l + r) by omega]
  exact this

theorem loadSlab_ne (g : Gang) (d : Nat) (bs : List Byte) (r l : Nat) (hr : r < d ∨ d + 4 ≤ r) (hl : l < 32) :
    (loadSlab g d bs).getV r l = g.getV r l := by
  exact (fold_setV (fun i => (d + i % 4, i / 4)) (fun i => BitVec.ofNat 32 (ofLe ((bs.drop (4 * i)).take 4))) (List.range 128) g r l hl
    (by intro i hi; simp at hi ⊢; omega) List.nodup_range (by intro i hi j hj; simp; omega)).2 (by intro i _; simp; omega)

theorem loadLane_frame (g : Gang) (f : VForm) (l : Nat) (bs : List Byte) : loadLane g f l bs = { g with v := (loadLane g f l bs).v } := by
  unfold loadLane
  dsimp only
  split
  · rfl
  · exact fold_setV_frame (fun i => (f.d + i, l)) _ _ _

/-- `part` of a gang that waits for no host access changes the outstanding loads alone. -/
theorem part_frame (x : Gang) (load : Nat) (h : x.wait ≠ .host) : x.part load = { x with loads := (x.part load).loads } := by
  unfold Gang.part
  dsimp only
  rw [if_neg (by simp [h])]

/-! ### Clean reads -/

theorem touchBlock_clean {s : State} (hb : s.far.bad = []) (b : Nat) : s.touchBlock b = (s, true) := if_pos hb

theorem freshBlock_clean {s : State} (hb : s.far.bad = []) (b : Nat) : s.freshBlock b = s := if_pos hb

theorem farRead_clean {s : State} (hb : s.far.bad = []) (a n : Nat) : s.farRead a n = (s, some (memReadN s.far.mem a n)) := by
  have : ∀ (bs : List Nat), bs.foldl (fun (p : State × Bool) b =>
    let q := p.1.touchBlock (farBlock s.far.localUnits b)
    (q.1, p.2 && q.2)) (s, true) = (s, true) := by
    intro bs
    induction bs with
    | nil => rfl
    | cons b bs ih =>
      rw [List.foldl_cons]
      simp only [touchBlock_clean hb, Bool.and_self]
      exact ih
  unfold State.farRead
  rw [this]
  rfl

/-- A byte after a run of bytes was written. -/
theorem memRead_memWriteN {m : Mem} (h : Memory.wf m = true) (a : Nat) (bs : List Byte) (c : Nat) :
    memRead (memWriteN m a bs) c = if a ≤ c ∧ c < a + bs.length then bs.getD (c - a) 0 else memRead m c := by
  by_cases hc : a ≤ c ∧ c < a + bs.length
  · rw [if_pos hc]
    have h1 := memReadN_memWriteN h a bs
    have h2 : memRead (memWriteN m a bs) c = (memReadN (memWriteN m a bs) a bs.length).getD (c - a) 0 := by
      have go : ∀ (n : Nat) (m : Mem) (a c : Nat), a ≤ c → c < a + n → (memReadN m a n).getD (c - a) 0 = memRead m c := by
        intro n
        induction n with
        | zero => intro m a c h1 h2; omega
        | succ n ih =>
          intro m a c h1 h2
          unfold memReadN
          by_cases hac : c = a
          · subst hac; simp
          · rw [show c - a = (c - (a + 1)) + 1 by omega, List.getD_cons_succ]
            exact ih m (a + 1) c (by omega) (by omega)
      exact (go _ _ _ _ hc.1 hc.2).symm
    rw [h2, h1]
  · rw [if_neg hc]
    exact memRead_memWriteN_ne _ _ (by omega)

theorem farWriteBlock_clean {s : State} (hb : s.far.bad = []) (ht : s.links.twin.mset = none) (b a : Nat) (bs : List Byte) :
    s.farWriteBlock b a bs = ({ s with far := { s.far with mem := memWriteN s.far.mem (max a b) ((bs.drop (max a b - a)).take (min (a + bs.length) (b + 64) - max a b)) } }, true) := by
  have hm : ∀ (u : State) (x n : Nat), u.links.twin.mset = none → u.markDirty x n = u := by
    intro u x n hu
    unfold State.markDirty
    dsimp only
    rw [hu]
  unfold State.farWriteBlock
  dsimp only
  rw [touchBlock_clean hb, freshBlock_clean hb, ite_self]
  simp only [if_true]
  rw [hm]
  exact ht

/-- A write at the controllers when no block is in error and no mirror is kept: the bytes are there and no other changes. -/
theorem farWrite_clean {s : State} (hb : s.far.bad = []) (ht : s.links.twin.mset = none) (hw : Memory.wf s.far.mem = true) (a : Nat) (bs : List Byte) :
    ∃ m, s.farWrite a bs = ({ s with far := { s.far with mem := m } }, true) ∧ Memory.wf m = true ∧
      ∀ c, memRead m c = if a ≤ c ∧ c < a + bs.length then bs.getD (c - a) 0 else memRead s.far.mem c := by
  have go : ∀ (n k : Nat) (m : Mem), Memory.wf m = true → (∀ c, memRead m c = if a ≤ c ∧ c < a + bs.length ∧ c < (a / 64 + k) * 64 then bs.getD (c - a) 0 else memRead s.far.mem c) →
      ∃ m', (((List.range' k n).map (fun i => (a / 64 + i) * 64)).foldl (fun (p : State × Bool) b =>
        let q := p.1.farWriteBlock b a bs
        (q.1, p.2 && q.2)) ({ s with far := { s.far with mem := m } }, true)) = ({ s with far := { s.far with mem := m' } }, true) ∧ Memory.wf m' = true ∧
        (∀ c, memRead m' c = if a ≤ c ∧ c < a + bs.length ∧ c < (a / 64 + (k + n)) * 64 then bs.getD (c - a) 0 else memRead s.far.mem c) := by
    intro n
    induction n with
    | zero => intro k m h1 h2; exact ⟨m, rfl, h1, h2⟩
    | succ n ih =>
      intro k m h1 h2
      rw [List.range'_succ, List.map_cons, List.foldl_cons]
      have hblk := farWriteBlock_clean (s := { s with far := { s.far with mem := m } }) hb ht ((a / 64 + k) * 64) a bs
      dsimp only at hblk ⊢
      rw [hblk]
      obtain ⟨lo, hlo⟩ : ∃ lo, max a ((a / 64 + k) * 64) = lo := ⟨_, rfl⟩
      obtain ⟨hi, hhi⟩ : ∃ hi, min (a + bs.length) ((a / 64 + k) * 64 + 64) = hi := ⟨_, rfl⟩
      rw [hlo, hhi]
      obtain ⟨m', e1, e2, e3⟩ := ih (k + 1) (memWriteN m lo ((bs.drop (lo - a)).take (hi - lo))) (memWriteN_wf h1 _ _) (by
        intro c
        rw [memRead_memWriteN h1, h2]
        have hlen : ((bs.drop (lo - a)).take (hi - lo)).length = hi - lo := by rw [List.length_take, List.length_drop]; omega
        rw [hlen]
        by_cases hc : lo ≤ c ∧ c < lo + (hi - lo)
        · rw [if_pos hc, if_pos (by omega)]
          simp only [List.getD_eq_getElem?_getD]
          rw [List.getElem?_take_of_lt (by omega), List.getElem?_drop]
          congr 2; omega
        · rw [if_neg hc]
          by_cases hc2 : a ≤ c ∧ c < a + bs.length ∧ c < (a / 64 + k) * 64
          · rw [if_pos hc2, if_pos (by omega)]
          · rw [if_neg hc2, if_neg (by omega)])
      refine ⟨m', ?_, e2, ?_⟩
      · rw [Bool.true_and]; exact e1
      · intro c; rw [e3 c, show k + 1 + n = k + (n + 1) by omega]
  unfold State.farWrite blocksOf
  by_cases hn : bs.length = 0
  · rw [if_pos hn]
    refine ⟨s.far.mem, rfl, hw, fun c => ?_⟩
    rw [if_neg (by omega)]
  · rw [if_neg hn, List.range_eq_range']
    obtain ⟨m, e1, e2, e3⟩ := go ((a + bs.length - 1) / 64 - a / 64 + 1) 0 s.far.mem hw (by
      intro c; rw [if_neg (by omega)])
    refine ⟨m, e1, e2, fun c => ?_⟩
    rw [e3 c]
    by_cases hc : a ≤ c ∧ c < a + bs.length
    · rw [if_pos hc, if_pos (by omega)]
    · rw [if_neg hc, if_neg (by omega)]

theorem slab_read_clean (b : Slab) (u : Nat) (h : ∀ i, i < 8 → tblFind (8 * u + i) b.bad = none) : b.read u = (b, some (memReadN b.mem (512 * u) 512)) := by
  have : ∀ (is : List Nat), (∀ i ∈ is, i < 8) → is.foldl (fun (p : Slab × Bool) i =>
    let q := p.1.touch (8 * u + i)
    (q.1, p.2 && q.2)) (b, true) = (b, true) := by
    intro is
    induction is with
    | nil => intro _; rfl
    | cons i is ih =>
      intro hi
      rw [List.foldl_cons]
      have : b.touch (8 * u + i) = (b, true) := by unfold Slab.touch; rw [h i (hi i List.mem_cons_self)]
      simp only [this, Bool.and_self]
      exact ih (fun j hj => hi j (List.mem_cons_of_mem _ hj))
  unfold Slab.read
  rw [this _ (by intro i hi; simpa using hi)]
  rfl

theorem sectors_clean (fc : FarCache) (p : Nat) (m : BitVec 128) (h : ∀ i, i < 8 → tblFind (8 * p + i) fc.bad = none) : fc.sectors p m = (fc, true) := by
  have : ∀ (is : List Nat), (∀ i ∈ is, i < 8) → is.foldl (fun (r : FarCache × Bool) i =>
    if m &&& byteMask (16 * i) 16 = 0 then r
    else match tblFind (8 * p + i) r.1.bad with
      | none => r
      | some true => (r.1, false)
      | some false => ({ r.1 with ceCount := satAdd 0xFFFF r.1.ceCount 1 }, r.2)) (fc, true) = (fc, true) := by
    intro is
    induction is with
    | nil => intro _; rfl
    | cons i is ih =>
      intro hi
      rw [List.foldl_cons]
      have : (if m &&& byteMask (16 * i) 16 = 0 then (fc, true)
        else match tblFind (8 * p + i) fc.bad with
          | none => (fc, true)
          | some true => (fc, false)
          | some false => ({ fc with ceCount := satAdd 0xFFFF fc.ceCount 1 }, true)) = (fc, true) := by
        rw [h i (hi i List.mem_cons_self)]; simp
      rw [this]
      exact ih (fun j hj => hi j (List.mem_cons_of_mem _ hj))
  unfold FarCache.sectors
  exact this _ (by intro i hi; simpa using hi)

theorem firstOf_some {α : Type} {same : α → α → Bool} {k : Nat} {xs : List α} {m : α} (h : xs[k]? = some m) (hs : ∀ o ∈ xs.take k, same o m = false) :
    firstOf same k xs = some m := by
  unfold firstOf
  rw [h]
  dsimp only
  rw [if_neg]
  rw [List.any_eq_true]
  rintro ⟨o, ho, hh⟩
  rw [hs o ho] at hh
  cases hh

theorem withGang_hit {s : State} {n sl uid : Nat} {f : Gang → Gang} (h1 : (s.gang n sl).live = true) (h2 : (s.gang n sl).uid = uid) :
    s.withGang n sl uid f = s.setGang n sl (f (s.gang n sl)) := by
  unfold State.withGang
  dsimp only
  rw [if_pos ⟨h1, h2⟩]

theorem byteMask_bit (off n o : Nat) (ho : o < 128) : (byteMask off n).getLsbD o = decide (off ≤ o ∧ o < off + n) := by
  unfold byteMask
  rw [BitVec.getLsbD_ofNat, Nat.testBit_mul_two_pow, Nat.testBit_two_pow_sub_one]
  simp only [ho, decide_true, Bool.true_and]
  by_cases h : off ≤ o
  · simp [h]; omega
  · simp [h]

end Machine

end Sys2Proof
end

