-- ==== Sys2Proof/Laws/Fault.lean ====
section
/-! SUPPORT. What raising a fault of a context does, and when a core's context is live. -/

namespace Sys2Proof.Machine

theorem State.live_some {s : State} {core c : Nat} (h : s.live core = some c) :
    (s.core core).ctx = some c ∧ (s.ctx c).state = .placed ∧ (s.ctx c).killing = false ∧
      (match (s.ctx c).fault with | some f => f.core ≠ core | none => True) := by
  unfold State.live at h
  split at h
  · cases h
  · next d hd =>
    dsimp only at h
    cases hf : (s.ctx d).fault with
    | none =>
      rw [hf] at h
      simp at h
      obtain ⟨⟨h1, h2⟩, rfl⟩ := h
      exact ⟨hd, h1, h2, by rw [hf]; trivial⟩
    | some f =>
      rw [hf] at h
      simp at h
      obtain ⟨⟨⟨h1, h2⟩, h3⟩, rfl⟩ := h
      exact ⟨hd, h1, h2, by rw [hf]; exact h3⟩

/-- A context with no fault takes the one that is raised, with its time; nothing outside contexts, the faulting core's gang
engine and the tailings rings changes. -/
theorem State.raise_first {s : State} {c : Nat} {f : FaultRec} (h : (s.ctx c).fault = none) (hs : (s.ctx c).state = .placed) :
    ((s.raise c f).ctx c).fault = some { f with time := s.now } := by
  unfold State.raise
  simp only [h, hs]
  simp only [reduceCtorEq, or_self, if_false]
  split
  · split
    · rw [State.ctx_tail, State.ctx_modCore, State.ctx_setCtx_self]
    · rw [State.ctx_modCore, State.ctx_setCtx_self]
  · rw [State.ctx_setCtx_self]

theorem State.raise_same (s : State) (c : Nat) (f : FaultRec) :
    s.raise c f = { s with ctxs := (s.raise c f).ctxs, cores := (s.raise c f).cores, rings := (s.raise c f).rings } := by
  unfold State.raise
  dsimp only
  split
  · rfl
  · split
    · split <;> rfl
    · rfl

theorem State.raise_core_ne {s : State} {c n : Nat} {f : FaultRec} (h : n ≠ f.core) : (s.raise c f).core n = s.core n := by
  unfold State.raise
  dsimp only
  split
  · rfl
  · split
    · split
      · rw [State.core_tail, State.core_modCore_ne h, State.core_setCtx]
      · rw [State.core_modCore_ne h, State.core_setCtx]
    · rfl

theorem State.raise_core {s : State} {c : Nat} {f : FaultRec} (hs : (s.ctx c).state = .placed) (hc : f.core < 1280) :
    (s.raise c f).core f.core = { s.core f.core with ge := { (s.core f.core).ge with stopped := true } } := by
  unfold State.raise
  simp only [hs]
  simp only [reduceCtorEq, or_self, if_false, if_pos hc]
  split
  · rw [State.core_tail, State.core_modCore_self, State.core_setCtx]
  · rw [State.core_modCore_self, State.core_setCtx]

theorem State.ctx_raise_ne {s : State} {c d : Nat} {f : FaultRec} (h : d ≠ c) : (s.raise c f).ctx d = s.ctx d := by
  unfold State.raise
  dsimp only
  split
  · rfl
  · split
    · split
      · rw [State.ctx_tail, State.ctx_modCore, State.ctx_setCtx_ne h]
      · rw [State.ctx_modCore, State.ctx_setCtx_ne h]
    · exact State.ctx_setCtx_ne h _ _

end Sys2Proof.Machine
end

