-- ==== Sys2Proof/Laws/Keep.lean ====
section
/-!
SUPPORT. What every meaning keeps: the queue of waiting commands, and the canonical form of far memory and of host memory.
`Keep s t` says it of one change of state; the files KeepGen… hold one lemma for each operation.
-/

namespace Sys2Proof.Machine

/-- The owner key slot `k` of the OTP. -/
def Trust.owner (t : Trust) (k : Nat) : OwnerSlot := tblGet ({} : OwnerSlot) t.owners k

/-- A slot that stays, was EMPTY, or goes from ACTIVE to REVOKED under the same hash (17_site_trust R480). -/
def OwnerSlot.advancesTo (x y : OwnerSlot) : Prop :=
  y = x ∨ x.state = .empty ∨ (x.state = .active ∧ y.state = .revoked ∧ y.hash = x.hash)

theorem OwnerSlot.advancesTo_trans {x y z : OwnerSlot} (a : x.advancesTo y) (b : y.advancesTo z) : x.advancesTo z := by
  rcases a with rfl | a | ⟨a, a1, a2⟩
  · exact b
  · exact .inr (.inl a)
  · rcases b with rfl | b | ⟨b, _, _⟩
    · exact .inr (.inr ⟨a, a1, a2⟩)
    · rw [a1] at b; cases b
    · rw [a1] at b; cases b

/-- What every change of the OTP keeps (R480, R481, R486): the rollback counter never falls, slots only advance, there are four
of them, and a module with an ACTIVE key keeps one. -/
structure OtpKeep (a b : Trust) : Prop where
  rollback : a.rollback ≤ b.rollback
  slot : ∀ k, (a.owner k).advancesTo (b.owner k)
  four : ∀ k, 4 ≤ k → b.owner k = a.owner k
  active : (∃ k, k < 4 ∧ (a.owner k).state = .active) → ∃ k, k < 4 ∧ (b.owner k).state = .active
  hash : (∀ k, (a.owner k).state ≠ .empty → (a.owner k).hash.length = 64) →
    ∀ k, (b.owner k).state ≠ .empty → (b.owner k).hash.length = 64

theorem OtpKeep.refl (a : Trust) : OtpKeep a a := ⟨Nat.le_refl _, fun _ => .inl rfl, fun _ _ => rfl, id, id⟩

theorem OtpKeep.trans {a b c : Trust} (x : OtpKeep a b) (y : OtpKeep b c) : OtpKeep a c :=
  ⟨Nat.le_trans x.rollback y.rollback, fun k => OwnerSlot.advancesTo_trans (x.slot k) (y.slot k), fun k h => (y.four k h).trans (x.four k h),
    fun h => y.active (x.active h), fun h => y.hash (x.hash h)⟩

/-- A change of other fields of the trust state. -/
theorem OtpKeep.same {a b : Trust} (h : b.owners = a.owners) (r : b.rollback = a.rollback) : OtpKeep a b := by
  have e : ∀ k, b.owner k = a.owner k := fun k => by unfold Trust.owner; rw [h]
  exact ⟨Nat.le_of_eq r.symm, fun k => .inl (e k), fun k _ => e k, fun ⟨k, l, s⟩ => ⟨k, l, by rw [e k]; exact s⟩,
    fun h k => by rw [e k]; exact h k⟩

/-- From `s` to `t` the queue stays, both memories stay in canonical form, and the OTP only advances. -/
structure Keep (s t : State) : Prop where
  pending : t.pending = s.pending
  far : Memory.wf s.far.mem = true → Memory.wf t.far.mem = true
  host : Memory.wf s.host = true → Memory.wf t.host = true
  otp : OtpKeep s.trust t.trust

theorem Keep.refl (s : State) : Keep s s := ⟨rfl, id, id, OtpKeep.refl _⟩

theorem Keep.trans {s t u : State} (a : Keep s t) (b : Keep t u) : Keep s u :=
  ⟨b.pending.trans a.pending, fun h => b.far (a.far h), fun h => b.host (a.host h), a.otp.trans b.otp⟩

/-- A change of other fields. -/
theorem Keep.upd {s u : State} {half corrected : Nat} {dies cores far net hub ctxs fman links pci site gov power resets dbg waitUs
    rings draws} (h : Keep s u) (hf : far.mem = u.far.mem) :
    Keep s (State.mk u.pending half corrected dies cores far u.host net hub ctxs fman links pci site u.trust gov power resets dbg
      waitUs rings draws) :=
  ⟨h.pending, fun w => by simpa [hf] using h.far w, h.host, h.otp⟩

/-- A write of far memory that keeps the canonical form. -/
theorem Keep.farMem {s u : State} {half corrected : Nat} {dies cores far net hub ctxs fman links pci site gov power resets dbg waitUs
    rings draws} (h : Keep s u) (hf : Memory.wf u.far.mem = true → Memory.wf far.mem = true) :
    Keep s (State.mk u.pending half corrected dies cores far u.host net hub ctxs fman links pci site u.trust gov power resets dbg
      waitUs rings draws) :=
  ⟨h.pending, fun w => hf (h.far w), h.host, h.otp⟩

/-- A write of host memory that keeps the canonical form. -/
theorem Keep.hostMem {s u : State} {half corrected : Nat} {dies cores far host net hub ctxs fman links pci site gov power resets dbg waitUs
    rings draws} (h : Keep s u) (hf : far.mem = u.far.mem) (hh : Memory.wf u.host = true → Memory.wf host = true) :
    Keep s (State.mk u.pending half corrected dies cores far host net hub ctxs fman links pci site u.trust gov power resets dbg
      waitUs rings draws) :=
  ⟨h.pending, fun w => by simpa [hf] using h.far w, fun w => hh (h.host w), h.otp⟩

/-- A change of the trust state under which the OTP only advances. -/
theorem Keep.updTrust {s u : State} {half corrected : Nat} {dies cores far net hub ctxs fman links pci site trust gov power resets dbg waitUs
    rings draws} (h : Keep s u) (hf : far.mem = u.far.mem) (ht : OtpKeep u.trust trust) :
    Keep s (State.mk u.pending half corrected dies cores far u.host net hub ctxs fman links pci site trust gov power resets dbg
      waitUs rings draws) :=
  ⟨h.pending, fun w => by simpa [hf] using h.far w, h.host, h.otp.trans ht⟩

theorem Keep.foldl {α : Type} {s u : State} {f : State → α → State} (h : Keep s u) (hf : ∀ t x, Keep t (f t x)) (xs : List α) :
    Keep s (xs.foldl f u) := by
  induction xs generalizing u with
  | nil => exact h
  | cons x xs ih => exact ih (h.trans (hf u x))

/-- A fold whose accumulator carries the state. -/
theorem Keep.foldl_fst {α β : Type} {s : State} {u : State × β} {f : State × β → α → State × β} (h : Keep s u.1)
    (hf : ∀ p x, Keep p.1 (f p x).1) (xs : List α) : Keep s (xs.foldl f u).1 := by
  induction xs generalizing u with
  | nil => exact h
  | cons x xs ih => exact ih (h.trans (hf u x))

/-- What a meaning keeps when it answers a next state. -/
def OutKeep (s : State) (o : Out) : Prop := ∀ t, o = .next t → Keep s t

theorem OutKeep.next {s t : State} (h : Keep s t) : OutKeep s (.next t) := by
  intro u hu; cases hu; exact h

theorem OutKeep.fault {s : State} {r : Fault} : OutKeep s (.fault r) := by
  intro u hu; cases hu

theorem OutKeep.from {s u : State} {o : Out} (h : Keep s u) (ho : OutKeep u o) : OutKeep s o :=
  fun t ht => h.trans (ho t ht)

/-- The same of an effect that may not take place. -/
def OptKeep (s : State) (o : Option State) : Prop := ∀ t, o = some t → Keep s t

theorem OptKeep.none {s : State} : OptKeep s none := by
  intro u hu; cases hu

theorem OptKeep.some {s t : State} (h : Keep s t) : OptKeep s (some t) := by
  intro u hu; cases hu; exact h

theorem OptKeep.from {s u : State} {o : Option State} (h : Keep s u) (ho : OptKeep u o) : OptKeep s o :=
  fun t ht => h.trans (ho t ht)

theorem OptKeep.getD {s u : State} {o : Option State} (ho : OptKeep u o) (h : Keep s u) : ∀ d, Keep s d → Keep s (o.getD d) := by
  intro d hd
  cases ho' : o with
  | none => exact hd
  | some t => exact h.trans (ho t ho')

/-- The state of a pair that a match has taken apart. -/
theorem Keep.of_fst {α : Type} {s t : State} {p : State × α} {x : α} (h : Keep s p.1) (e : p = (t, x)) : Keep s t := by
  rw [e] at h; exact h

theorem Keep.ite {s a b : State} {c : Prop} [Decidable c] (ha : Keep s a) (hb : Keep s b) : Keep s (if c then a else b) := by
  split
  · exact ha
  · exact hb

theorem Keep.ite' {s a b : State} {c : Prop} [Decidable c] (ha : c → Keep s a) (hb : ¬c → Keep s b) : Keep s (if c then a else b) := by
  split
  · exact ha ‹_›
  · exact hb ‹_›

theorem Keep.ite_fst {β : Type} {s : State} {a b : State × β} {c : Prop} [Decidable c] (ha : Keep s a.1) (hb : Keep s b.1) :
    Keep s (if c then a else b).1 := by
  split
  · exact ha
  · exact hb

theorem OutKeep.ite {s : State} {a b : Out} {c : Prop} [Decidable c] (ha : OutKeep s a) (hb : OutKeep s b) :
    OutKeep s (if c then a else b) := by
  split
  · exact ha
  · exact hb

theorem OptKeep.ite {s : State} {a b : Option State} {c : Prop} [Decidable c] (ha : OptKeep s a) (hb : OptKeep s b) :
    OptKeep s (if c then a else b) := by
  split
  · exact ha
  · exact hb

/-- The same of one line of a load or store. -/
def PartKeep (s : State) : PartOut → Prop
  | .done t => Keep s t
  | .fault t => Keep s t
  | .stall => True
theorem PartKeep.stall {s : State} : PartKeep s .stall := trivial
theorem PartKeep.done {s t : State} (h : Keep s t) : PartKeep s (.done t) := h
theorem PartKeep.fault {s t : State} (h : Keep s t) : PartKeep s (.fault t) := h

end Sys2Proof.Machine
end

