-- ==== Sys2Proof/Laws/KeepBase.lean ====
section
/-! SUPPORT. What every operation keeps (`Keep`: the queue of waiting commands, and the canonical form of far and host memory): operations over registers, cores, gangs, far memory. -/

namespace Sys2Proof.Machine

/-! ### Machine/Ops.lean -/

theorem State.setCore_keep (s : State) (n : Nat) (k : Core) : Keep s (State.setCore s n k) := by
  unfold State.setCore
  refine Keep.upd ?_ rfl
  exact Keep.refl _

theorem State.modCore_keep (s : State) (n : Nat) (f : Core → Core) : Keep s (State.modCore s n f) := by
  unfold State.modCore
  exact State.setCore_keep _ _ _

theorem State.setQueue_keep (s : State) (n e : Nat) (q : Queue) : Keep s (State.setQueue s n e q) := by
  unfold State.setQueue
  exact State.setCore_keep _ _ _

theorem State.modQueue_keep (s : State) (n e : Nat) (f : Queue → Queue) : Keep s (State.modQueue s n e f) := by
  unfold State.modQueue
  exact State.setQueue_keep _ _ _ _

theorem State.setGang_keep (s : State) (n sl : Nat) (g : Gang) : Keep s (State.setGang s n sl g) := by
  unfold State.setGang
  exact State.setCore_keep _ _ _

theorem State.modGang_keep (s : State) (n sl : Nat) (f : Gang → Gang) : Keep s (State.modGang s n sl f) := by
  unfold State.modGang
  exact State.setGang_keep _ _ _ _

theorem State.setCtx_keep (s : State) (c : Nat) (x : Ctx) : Keep s (State.setCtx s c x) := by
  unfold State.setCtx
  refine Keep.upd ?_ rfl
  exact Keep.refl _

theorem State.modCtx_keep (s : State) (c : Nat) (f : Ctx → Ctx) : Keep s (State.modCtx s c f) := by
  unfold State.modCtx
  exact State.setCtx_keep _ _ _

theorem State.setChan_keep (s : State) (ch : Nat) (x : Channel) : Keep s (State.setChan s ch x) := by
  unfold State.setChan
  refine Keep.upd ?_ rfl
  exact Keep.refl _

theorem onUnits_keep (ok : Bool) (s : State) : OutKeep s (onUnits ok s) := by
  unfold onUnits
  refine OutKeep.ite ?_ ?_
  · refine OutKeep.next ?_
    exact Keep.refl _
  · exact OutKeep.fault

theorem State.count_keep (s : State) (core code n : Nat) : Keep s (State.count s core code n) := by
  unfold State.count
  exact State.modCore_keep _ _ _

theorem State.hubCount_keep (s : State) (unit code n : Nat) : Keep s (State.hubCount s unit code n) := by
  unfold State.hubCount
  refine Keep.upd ?_ rfl
  exact Keep.refl _

theorem State.clock_keep (s : State) (h : Nat) : Keep s (State.clock s h) := by
  unfold State.clock
  extract_lets +onlyGivenNames x1
  clear_value x1
  refine Keep.upd ?_ rfl
  exact Keep.refl _

theorem State.hostWrite_keep (s : State) (a : Nat) (bs : List Byte) : Keep s (State.hostWrite s a bs) := by
  unfold State.hostWrite
  refine Keep.hostMem ?_ rfl (fun h => memWriteN_wf h _ _)
  exact Keep.refl _

theorem State.hostBytes_keep (s : State) (bs : List (Nat × Byte)) : Keep s (State.hostBytes s bs) := by
  unfold State.hostBytes
  exact Keep.hostMem (Keep.refl _) rfl (memFold_wf _ _ bs)

theorem State.draw_keep (s : State) : Keep s (State.draw s).2 := by
  unfold State.draw
  dsimp only
  refine Keep.upd ?_ rfl
  exact Keep.refl _

theorem State.tail_keep (s : State) (ring kind ctx : Nat) (gang : Option Nat) (w1 w2 w3 : Nat) : Keep s (State.tail s ring kind ctx gang w1 w2 w3) := by
  unfold State.tail
  extract_lets +onlyGivenNames x1
  clear_value x1
  extract_lets +onlyGivenNames x2
  clear_value x2
  extract_lets +onlyGivenNames x3
  clear_value x3
  refine Keep.upd ?_ rfl
  exact Keep.refl _

theorem State.noteFar_keep (s : State) (blk : Nat) (ue scrub : Bool) : Keep s (State.noteFar s blk ue scrub) := by
  unfold State.noteFar
  extract_lets +onlyGivenNames x1
  clear_value x1
  extract_lets +onlyGivenNames x2
  clear_value x2
  extract_lets +onlyGivenNames x3
  clear_value x3
  extract_lets +onlyGivenNames x4
  clear_value x4
  exact State.setChan_keep _ _ _

theorem State.meetBlock_keep (s : State) (blk : Nat) (scrub : Bool) : Keep s (State.meetBlock s blk scrub).1 := by
  unfold State.meetBlock
  split
  · dsimp only
    exact Keep.refl _
  · dsimp only
    refine Keep.upd ?_ rfl
    exact State.noteFar_keep _ _ _ _
  · dsimp only
    exact State.noteFar_keep _ _ _ _

theorem State.cacheCheck_keep (s : State) (ch cb : Nat) (dirty : Bool) : Keep s (State.cacheCheck s ch cb dirty) := by
  unfold State.cacheCheck
  extract_lets +onlyGivenNames x1
  clear_value x1
  extract_lets +onlyGivenNames x2
  clear_value x2
  extract_lets +onlyGivenNames x3
  clear_value x3
  extract_lets +onlyGivenNames x4
  have k4 : Keep s (x4) := by
    dsimp only [x4]
    exact State.setChan_keep _ _ _
  clear_value x4
  split
  · refine Keep.upd ?_ rfl
    assumption
  · assumption

theorem State.checkWord_keep (s : State) (blk : Nat) : Keep s (State.checkWord s blk).1 := by
  unfold State.checkWord
  extract_lets +onlyGivenNames x1
  clear_value x1
  refine Keep.ite_fst ?_ ?_
  · dsimp only
    exact State.cacheCheck_keep _ _ _ _
  · extract_lets +onlyGivenNames x2
    have k2 : Keep s (x2.1) := by
      dsimp only [x2]
      exact State.meetBlock_keep _ _ _
    clear_value x2
    dsimp only
    refine Keep.ite ?_ ?_
    · exact Keep.trans ‹_› (State.cacheCheck_keep _ _ _ _)
    · assumption

theorem State.touchBlock_keep (s : State) (blk : Nat) : Keep s (State.touchBlock s blk).1 := by
  unfold State.touchBlock
  refine Keep.ite_fst ?_ ?_
  · dsimp only
    exact Keep.refl _
  · extract_lets +onlyGivenNames x1
    have k1 : Keep s (x1.1) := by
      dsimp only [x1]
      exact State.checkWord_keep _ _
    clear_value x1
    extract_lets +onlyGivenNames x2
    have k2 : Keep s (x2.1) := by
      dsimp only [x2]
      exact Keep.trans ‹_› (State.meetBlock_keep _ _ _)
    clear_value x2
    dsimp only
    assumption

theorem State.freshBlock_keep (s : State) (blk : Nat) : Keep s (State.freshBlock s blk) := by
  unfold State.freshBlock
  refine Keep.ite ?_ ?_
  · exact Keep.refl _
  · extract_lets +onlyGivenNames y1 x1
    have k1 : Keep s (x1) := by
      dsimp only [x1, y1]
      refine Keep.upd ?_ rfl
      exact Keep.refl _
    clear_value x1 y1
    refine Keep.ite ?_ ?_
    · assumption
    · exact Keep.trans ‹_› (State.cacheCheck_keep _ _ _ _)

theorem State.farRead_keep (s : State) (a n : Nat) : Keep s (State.farRead s a n).1 := by
  unfold State.farRead
  extract_lets +onlyGivenNames x1
  have k1 : Keep s (x1.1) := by
    dsimp only [x1]
    refine Keep.foldl_fst ?_ ?_ _
    · dsimp only
      exact Keep.refl _
    · intro x2
      intro x3
      dsimp only
      exact State.touchBlock_keep _ _
  clear_value x1
  dsimp only
  assumption

theorem State.markDirty_keep (s : State) (a n : Nat) : Keep s (State.markDirty s a n) := by
  unfold State.markDirty
  extract_lets +onlyGivenNames x1
  clear_value x1
  split
  · exact Keep.refl _
  · extract_lets +onlyGivenNames x2
    clear_value x2
    refine Keep.ite ?_ ?_
    · exact Keep.refl _
    · refine Keep.upd ?_ rfl
      exact Keep.refl _

theorem State.farWriteBlock_keep (s : State) (b a : Nat) (bs : List Byte) : Keep s (s.farWriteBlock b a bs).1 := by
  unfold State.farWriteBlock
  extract_lets +onlyGivenNames lo hi blk part t
  have k : Keep s t.1 := Keep.ite_fst (State.freshBlock_keep _ _) (State.touchBlock_keep _ _)
  clear_value t
  refine Keep.ite_fst ?_ k
  refine Keep.trans ?_ (State.markDirty_keep _ _ _)
  exact Keep.farMem k (fun h => memWriteN_wf h _ _)

theorem State.farWrite_keep (s : State) (a : Nat) (bs : List Byte) : Keep s (s.farWrite a bs).1 := by
  unfold State.farWrite
  refine Keep.foldl_fst (u := (s, true)) (Keep.refl s) (fun p x => ?_) _
  exact State.farWriteBlock_keep p.1 x a bs

theorem State.farWriteBytes_keep (s : State) (base : Nat) (bs : List (Nat × Byte)) : Keep s (s.farWriteBytes base bs).1 := by
  unfold State.farWriteBytes
  refine Keep.foldl_fst (u := (s, true)) (Keep.refl s) (fun p x => ?_) _
  refine Keep.ite_fst (Keep.refl _) ?_
  extract_lets +onlyGivenNames blk t
  have k : Keep p.1 t.1 := Keep.ite_fst (State.freshBlock_keep _ _) (State.touchBlock_keep _ _)
  clear_value t
  refine Keep.ite_fst ?_ k
  refine Keep.trans ?_ (State.markDirty_keep _ _ _)
  exact Keep.farMem k (fun h => memFold_wf _ _ _ h)

theorem State.raise_keep (s : State) (c : Nat) (f : FaultRec) : Keep s (State.raise s c f) := by
  unfold State.raise
  extract_lets +onlyGivenNames x1
  clear_value x1
  extract_lets +onlyGivenNames x2
  clear_value x2
  extract_lets +onlyGivenNames x3
  clear_value x3
  refine Keep.ite ?_ ?_
  · exact Keep.refl _
  · extract_lets +onlyGivenNames x4
    have k4 : Keep s (x4) := by
      dsimp only [x4]
      exact State.setCtx_keep _ _ _
    clear_value x4
    refine Keep.ite ?_ ?_
    · extract_lets +onlyGivenNames x5
      have k5 : Keep s (x5) := by
        dsimp only [x5]
        exact Keep.trans ‹_› (State.modCore_keep _ _ _)
      clear_value x5
      refine Keep.ite ?_ ?_
      · exact Keep.trans ‹_› (State.tail_keep _ _ _ _ _ _ _ _)
      · assumption
    · assumption

theorem State.rehalt_keep (s : State) (c : Nat) : Keep s (State.rehalt s c) := by
  unfold State.rehalt
  extract_lets +onlyGivenNames x1
  clear_value x1
  exact State.modCtx_keep _ _ _

theorem State.modSlab_keep (s : State) (core : Nat) (f : Slab → Slab) : Keep s (State.modSlab s core f) := by
  unfold State.modSlab
  exact State.modCore_keep _ _ _

/-! ### Machine/GangOps.lean -/

theorem State.insnFault_keep (s : State) (core : Nat) (i : InsnAt) (cause : Cause) (addr : Nat) : Keep s (State.insnFault s core i cause addr) := by
  unfold State.insnFault
  split
  · exact Keep.refl _
  · extract_lets +onlyGivenNames x1
    clear_value x1
    exact State.raise_keep _ _ _

theorem State.gangFault_keep (s : State) (core slot : Nat) (cause : Cause) (addr : Nat) : Keep s (State.gangFault s core slot cause addr) := by
  unfold State.gangFault
  exact State.insnFault_keep _ _ _ _ _

theorem State.coreFault_keep (s : State) (core : Nat) (cause : Cause) (addr : Nat) : Keep s (State.coreFault s core cause addr) := by
  unfold State.coreFault
  split
  · exact Keep.refl _
  · exact State.raise_keep _ _ _

theorem State.issued_keep (s : State) (core slot : Nat) (vec : Bool) : Keep s (State.issued s core slot vec) := by
  unfold State.issued
  exact State.modCore_keep _ _ _

theorem onGangTry_keep (s : State) (g : GangAt) (i : Instr) (vec : Bool) (u : RegUse)
    (body : Nat → Gang → GangEnv → State → Option State) (mem : Bool)
    (h : ∀ c x env t, OptKeep t (body c x env t)) : OutKeep s (onGangTry s g i vec u body mem) := by
  unfold onGangTry
  split
  · split
    · exact OutKeep.next (Keep.refl _)
    · split
      · exact OutKeep.next (State.gangFault_keep _ _ _ _ _)
      · exact OutKeep.next (OptKeep.getD (h _ _ _ _) (State.issued_keep _ _ _ _) _ (Keep.refl _))
  · exact OutKeep.fault

theorem onGang_keep (s : State) (g : GangAt) (i : Instr) (vec : Bool) (u : RegUse)
    (body : Nat → Gang → GangEnv → State → State) (mem : Bool)
    (h : ∀ c x env t, Keep t (body c x env t)) : OutKeep s (onGang s g i vec u body mem) :=
  onGangTry_keep s g i vec u _ mem (fun c x env t => OptKeep.some (h c x env t))

theorem State.withGang_keep (s : State) (core slot uid : Nat) (f : Gang → Gang) : Keep s (State.withGang s core slot uid f) := by
  unfold State.withGang
  extract_lets +onlyGivenNames x1
  clear_value x1
  refine Keep.ite ?_ ?_
  · exact State.setGang_keep _ _ _ _
  · exact State.modCore_keep _ _ _

theorem State.gangDone_keep (s : State) (g : GangAt) (r : Gang × FFlags) : Keep s (State.gangDone s g r) := by
  unfold State.gangDone
  exact State.modCore_keep _ _ _

theorem gangAlu_keep (s : State) (g : GangAt) (i : Instr) (sp : VSpec) (f : VForm) (op : GangEnv → Gang → Gang × FFlags) : OutKeep s (gangAlu s g i sp f op) := by
  unfold gangAlu
  refine onGang_keep _ _ _ _ _ _ _ ?_
  intro x1
  intro x2
  intro x3
  intro x4
  exact State.gangDone_keep _ _ _

/-! ### Machine/GangAlu.lean -/

theorem execNopInsn_keep (g : GangAt) (s : State) : OutKeep s (execNopInsn g s) := by
  unfold execNopInsn
  refine onGang_keep _ _ _ _ _ _ _ ?_
  intro x1
  intro x2
  intro x3
  intro x4
  exact State.gangDone_keep _ _ _

theorem execAddScalar_keep (g : GangAt) (f : VForm) (s : State) : OutKeep s (execAddScalar g f s) := by
  unfold execAddScalar
  refine gangAlu_keep _ _ _ _ _ _

theorem execSubScalar_keep (g : GangAt) (f : VForm) (s : State) : OutKeep s (execSubScalar g f s) := by
  unfold execSubScalar
  refine gangAlu_keep _ _ _ _ _ _

theorem execMulScalar_keep (g : GangAt) (f : VForm) (s : State) : OutKeep s (execMulScalar g f s) := by
  unfold execMulScalar
  refine gangAlu_keep _ _ _ _ _ _

theorem execMulhiScalar_keep (g : GangAt) (f : VForm) (s : State) : OutKeep s (execMulhiScalar g f s) := by
  unfold execMulhiScalar
  refine gangAlu_keep _ _ _ _ _ _

theorem execAndScalar_keep (g : GangAt) (f : VForm) (s : State) : OutKeep s (execAndScalar g f s) := by
  unfold execAndScalar
  refine gangAlu_keep _ _ _ _ _ _

theorem execOrScalar_keep (g : GangAt) (f : VForm) (s : State) : OutKeep s (execOrScalar g f s) := by
  unfold execOrScalar
  refine gangAlu_keep _ _ _ _ _ _

theorem execXorScalar_keep (g : GangAt) (f : VForm) (s : State) : OutKeep s (execXorScalar g f s) := by
  unfold execXorScalar
  refine gangAlu_keep _ _ _ _ _ _

theorem execShlScalar_keep (g : GangAt) (f : VForm) (s : State) : OutKeep s (execShlScalar g f s) := by
  unfold execShlScalar
  refine gangAlu_keep _ _ _ _ _ _

theorem execShrScalar_keep (g : GangAt) (f : VForm) (s : State) : OutKeep s (execShrScalar g f s) := by
  unfold execShrScalar
  refine gangAlu_keep _ _ _ _ _ _

theorem execSarScalar_keep (g : GangAt) (f : VForm) (s : State) : OutKeep s (execSarScalar g f s) := by
  unfold execSarScalar
  refine gangAlu_keep _ _ _ _ _ _

theorem execMinScalar_keep (g : GangAt) (f : VForm) (s : State) : OutKeep s (execMinScalar g f s) := by
  unfold execMinScalar
  refine gangAlu_keep _ _ _ _ _ _

theorem execMaxScalar_keep (g : GangAt) (f : VForm) (s : State) : OutKeep s (execMaxScalar g f s) := by
  unfold execMaxScalar
  refine gangAlu_keep _ _ _ _ _ _

theorem execMovScalar_keep (g : GangAt) (f : VForm) (s : State) : OutKeep s (execMovScalar g f s) := by
  unfold execMovScalar
  refine gangAlu_keep _ _ _ _ _ _

theorem execCaddr_keep (g : GangAt) (f : VForm) (constBase : Addr) (s : State) : OutKeep s (execCaddr g f constBase s) := by
  unfold execCaddr
  refine gangAlu_keep _ _ _ _ _ _

theorem execAddVector_keep (g : GangAt) (f : VForm) (s : State) : OutKeep s (execAddVector g f s) := by
  unfold execAddVector
  refine gangAlu_keep _ _ _ _ _ _

theorem execSubVector_keep (g : GangAt) (f : VForm) (s : State) : OutKeep s (execSubVector g f s) := by
  unfold execSubVector
  refine gangAlu_keep _ _ _ _ _ _

theorem execMulVector_keep (g : GangAt) (f : VForm) (s : State) : OutKeep s (execMulVector g f s) := by
  unfold execMulVector
  refine gangAlu_keep _ _ _ _ _ _

theorem execMulhiVector_keep (g : GangAt) (f : VForm) (s : State) : OutKeep s (execMulhiVector g f s) := by
  unfold execMulhiVector
  refine gangAlu_keep _ _ _ _ _ _

theorem execAndVector_keep (g : GangAt) (f : VForm) (s : State) : OutKeep s (execAndVector g f s) := by
  unfold execAndVector
  refine gangAlu_keep _ _ _ _ _ _

theorem execOrVector_keep (g : GangAt) (f : VForm) (s : State) : OutKeep s (execOrVector g f s) := by
  unfold execOrVector
  refine gangAlu_keep _ _ _ _ _ _

theorem execXorVector_keep (g : GangAt) (f : VForm) (s : State) : OutKeep s (execXorVector g f s) := by
  unfold execXorVector
  refine gangAlu_keep _ _ _ _ _ _

theorem execShlVector_keep (g : GangAt) (f : VForm) (s : State) : OutKeep s (execShlVector g f s) := by
  unfold execShlVector
  refine gangAlu_keep _ _ _ _ _ _

theorem execShrVector_keep (g : GangAt) (f : VForm) (s : State) : OutKeep s (execShrVector g f s) := by
  unfold execShrVector
  refine gangAlu_keep _ _ _ _ _ _

theorem execSarVector_keep (g : GangAt) (f : VForm) (s : State) : OutKeep s (execSarVector g f s) := by
  unfold execSarVector
  refine gangAlu_keep _ _ _ _ _ _

theorem execMinVector_keep (g : GangAt) (f : VForm) (s : State) : OutKeep s (execMinVector g f s) := by
  unfold execMinVector
  refine gangAlu_keep _ _ _ _ _ _

theorem execMaxVector_keep (g : GangAt) (f : VForm) (s : State) : OutKeep s (execMaxVector g f s) := by
  unfold execMaxVector
  refine gangAlu_keep _ _ _ _ _ _

theorem execMovVector_keep (g : GangAt) (f : VForm) (s : State) : OutKeep s (execMovVector g f s) := by
  unfold execMovVector
  refine gangAlu_keep _ _ _ _ _ _

theorem execSel_keep (g : GangAt) (f : VForm) (s : State) : OutKeep s (execSel g f s) := by
  unfold execSel
  refine gangAlu_keep _ _ _ _ _ _

theorem execPopc_keep (g : GangAt) (f : VForm) (s : State) : OutKeep s (execPopc g f s) := by
  unfold execPopc
  refine gangAlu_keep _ _ _ _ _ _

theorem execClz_keep (g : GangAt) (f : VForm) (s : State) : OutKeep s (execClz g f s) := by
  unfold execClz
  refine gangAlu_keep _ _ _ _ _ _

theorem execFadd_keep (g : GangAt) (f : VForm) (s : State) : OutKeep s (execFadd g f s) := by
  unfold execFadd
  refine gangAlu_keep _ _ _ _ _ _

theorem execFsub_keep (g : GangAt) (f : VForm) (s : State) : OutKeep s (execFsub g f s) := by
  unfold execFsub
  refine gangAlu_keep _ _ _ _ _ _

theorem execFmul_keep (g : GangAt) (f : VForm) (s : State) : OutKeep s (execFmul g f s) := by
  unfold execFmul
  refine gangAlu_keep _ _ _ _ _ _

theorem execFdiv_keep (g : GangAt) (f : VForm) (s : State) : OutKeep s (execFdiv g f s) := by
  unfold execFdiv
  refine gangAlu_keep _ _ _ _ _ _

theorem execFfma_keep (g : GangAt) (f : VForm) (s : State) : OutKeep s (execFfma g f s) := by
  unfold execFfma
  refine onGang_keep _ _ _ _ _ _ _ ?_
  intro x1
  intro x2
  intro x3
  intro x4
  refine Keep.trans ?_ (State.count_keep _ _ _ _)
  exact State.gangDone_keep _ _ _

theorem execFmin_keep (g : GangAt) (f : VForm) (s : State) : OutKeep s (execFmin g f s) := by
  unfold execFmin
  refine gangAlu_keep _ _ _ _ _ _

theorem execFmax_keep (g : GangAt) (f : VForm) (s : State) : OutKeep s (execFmax g f s) := by
  unfold execFmax
  refine gangAlu_keep _ _ _ _ _ _

theorem execFabs_keep (g : GangAt) (f : VForm) (s : State) : OutKeep s (execFabs g f s) := by
  unfold execFabs
  refine gangAlu_keep _ _ _ _ _ _

theorem execFneg_keep (g : GangAt) (f : VForm) (s : State) : OutKeep s (execFneg g f s) := by
  unfold execFneg
  refine gangAlu_keep _ _ _ _ _ _

theorem execFrcp_keep (g : GangAt) (f : VForm) (s : State) : OutKeep s (execFrcp g f s) := by
  unfold execFrcp
  refine gangAlu_keep _ _ _ _ _ _

theorem execFrsq_keep (g : GangAt) (f : VForm) (s : State) : OutKeep s (execFrsq g f s) := by
  unfold execFrsq
  refine gangAlu_keep _ _ _ _ _ _

theorem execFex2_keep (g : GangAt) (f : VForm) (s : State) : OutKeep s (execFex2 g f s) := by
  unfold execFex2
  refine gangAlu_keep _ _ _ _ _ _

theorem execFlg2_keep (g : GangAt) (f : VForm) (s : State) : OutKeep s (execFlg2 g f s) := by
  unfold execFlg2
  refine gangAlu_keep _ _ _ _ _ _

theorem execFsqrt_keep (g : GangAt) (f : VForm) (s : State) : OutKeep s (execFsqrt g f s) := by
  unfold execFsqrt
  refine gangAlu_keep _ _ _ _ _ _

theorem execCvt_keep (g : GangAt) (f : VForm) (s : State) : OutKeep s (execCvt g f s) := by
  unfold execCvt
  refine gangAlu_keep _ _ _ _ _ _

theorem execPack_keep (g : GangAt) (f : VForm) (s : State) : OutKeep s (execPack g f s) := by
  unfold execPack
  refine gangAlu_keep _ _ _ _ _ _

theorem execBperm_keep (g : GangAt) (f : VForm) (s : State) : OutKeep s (execBperm g f s) := by
  unfold execBperm
  refine gangAlu_keep _ _ _ _ _ _

theorem execShfl_keep (g : GangAt) (f : VForm) (s : State) : OutKeep s (execShfl g f s) := by
  unfold execShfl
  refine gangAlu_keep _ _ _ _ _ _

theorem execRed_keep (g : GangAt) (f : VForm) (s : State) : OutKeep s (execRed g f s) := by
  unfold execRed
  refine gangAlu_keep _ _ _ _ _ _

theorem execSetp_keep (g : GangAt) (f : VForm) (s : State) : OutKeep s (execSetp g f s) := by
  unfold execSetp
  refine gangAlu_keep _ _ _ _ _ _

theorem execPlog_keep (g : GangAt) (f : VForm) (s : State) : OutKeep s (execPlog g f s) := by
  unfold execPlog
  refine gangAlu_keep _ _ _ _ _ _

theorem execPbal_keep (g : GangAt) (f : VForm) (s : State) : OutKeep s (execPbal g f s) := by
  unfold execPbal
  refine gangAlu_keep _ _ _ _ _ _

theorem execPset_keep (g : GangAt) (f : VForm) (s : State) : OutKeep s (execPset g f s) := by
  unfold execPset
  refine gangAlu_keep _ _ _ _ _ _

theorem execScmp_keep (g : GangAt) (f : VForm) (s : State) : OutKeep s (execScmp g f s) := by
  unfold execScmp
  refine gangAlu_keep _ _ _ _ _ _

/-! ### Machine/SyncOps.lean -/

theorem State.moveHead_keep (s : State) (core e : Nat) : Keep s (State.moveHead s core e) := by
  unfold State.moveHead
  extract_lets +onlyGivenNames x1
  clear_value x1
  extract_lets +onlyGivenNames x2
  clear_value x2
  extract_lets +onlyGivenNames x3
  clear_value x3
  extract_lets +onlyGivenNames x4
  have k4 : Keep s (x4) := by
    dsimp only [x4]
    exact State.setQueue_keep _ _ _ _
  clear_value x4
  split
  · assumption
  · exact Keep.trans ‹_› (State.modCtx_keep _ _ _)

theorem State.setTally_keep (s : State) (h : Home) (t : TallySlot) : Keep s (State.setTally s h t) := by
  unfold State.setTally
  refine Keep.ite ?_ ?_
  · extract_lets +onlyGivenNames x1
    clear_value x1
    refine Keep.upd ?_ rfl
    exact Keep.refl _
  · exact State.modCore_keep _ _ _

theorem State.setWatches_keep (s : State) (h : Home) (ws : List Watch) : Keep s (State.setWatches s h ws) := by
  unfold State.setWatches
  refine Keep.ite ?_ ?_
  · refine Keep.upd ?_ rfl
    exact Keep.refl _
  · exact State.modCore_keep _ _ _

theorem State.fire_keep (s : State) (h : Home) : Keep s (State.fire s h) := by
  unfold State.fire
  extract_lets +onlyGivenNames x1
  clear_value x1
  extract_lets +onlyGivenNames x2
  clear_value x2
  extract_lets +onlyGivenNames x3
  clear_value x3
  extract_lets +onlyGivenNames x4
  have k4 : Keep s (x4) := by
    dsimp only [x4]
    exact State.setWatches_keep _ _ _
  clear_value x4
  refine Keep.upd ?_ rfl
  assumption

theorem State.sendTally_keep (s : State) (m : TallyMsg) : Keep s (State.sendTally s m) := by
  unfold State.sendTally
  refine Keep.upd ?_ rfl
  exact Keep.refl _

theorem State.addToken_keep (s : State) (c core cls qid slot : Nat) : Keep s (State.addToken s c core cls qid slot) := by
  unfold State.addToken
  extract_lets +onlyGivenNames x1
  clear_value x1
  refine Keep.ite ?_ ?_
  · extract_lets +onlyGivenNames x2
    have k2 : Keep s (x2) := by
      dsimp only [x2]
      exact State.raise_keep _ _ _
    clear_value x2
    extract_lets +onlyGivenNames x3
    have k3 : Keep s (x3) := by
      dsimp only [x3]
      exact Keep.trans ‹_› (State.tail_keep _ _ _ _ _ _ _ _)
    clear_value x3
    refine Keep.ite ?_ ?_
    · exact Keep.trans ‹_› (State.tail_keep _ _ _ _ _ _ _ _)
    · assumption
  · exact State.modCore_keep _ _ _

theorem State.produceToken_keep (s : State) (c core e slot cls : Nat) : Keep s (State.produceToken s c core e slot cls) := by
  unfold State.produceToken
  extract_lets +onlyGivenNames x1
  clear_value x1
  refine Keep.ite ?_ ?_
  · exact State.addToken_keep _ _ _ _ _ _
  · refine Keep.upd ?_ rfl
    exact Keep.refl _

theorem State.retireNow_keep (s : State) (core e : Nat) (fl : Flight) : Keep s (State.retireNow s core e fl) := by
  unfold State.retireNow
  split
  · exact Keep.refl _
  · extract_lets +onlyGivenNames x1
    have k1 : Keep s (x1) := by
      dsimp only [x1]
      exact State.modQueue_keep _ _ _ _
    clear_value x1
    extract_lets +onlyGivenNames x2
    clear_value x2
    extract_lets +onlyGivenNames x3
    have k3 : Keep s (x3) := by
      dsimp only [x3]
      exact Keep.trans ‹_› (State.modCore_keep _ _ _)
    clear_value x3
    extract_lets +onlyGivenNames x4
    have k4 : Keep s (x4) := by
      dsimp only [x4]
      exact Keep.trans ‹_› (State.tail_keep _ _ _ _ _ _ _ _)
    clear_value x4
    extract_lets +onlyGivenNames x5
    have k5 : Keep s (x5) := by
      dsimp only [x5]
      refine Keep.ite ?_ ?_
      · exact Keep.trans ‹_› (State.modCore_keep _ _ _)
      · assumption
    clear_value x5
    extract_lets +onlyGivenNames x6
    have k6 : Keep s (x6) := by
      dsimp only [x6]
      refine Keep.ite ?_ ?_
      · assumption
      · refine Keep.foldl ?_ ?_ _
        · assumption
        · intro x7
          intro x8
          exact State.produceToken_keep _ _ _ _ _ _
    clear_value x6
    extract_lets +onlyGivenNames x9
    have k9 : Keep s (x9) := by
      dsimp only [x9]
      refine Keep.ite ?_ ?_
      · assumption
      · split
        · assumption
        · split
          · assumption
          · exact Keep.trans ‹_› (State.sendTally_keep _ _)
    clear_value x9
    exact Keep.trans ‹_› (State.moveHead_keep _ _ _)

theorem State.retire_keep (s : State) (core e id : Nat) : Keep s (State.retire s core e id) := by
  unfold State.retire
  extract_lets +onlyGivenNames x1
  clear_value x1
  split
  · exact Keep.refl _
  · refine Keep.ite ?_ ?_
    · exact State.setQueue_keep _ _ _ _
    · exact State.retireNow_keep _ _ _ _

theorem State.retireLate_keep (s : State) (core e : Nat) : Keep s (State.retireLate s core e) := by
  unfold State.retireLate
  refine Keep.foldl ?_ ?_ _
  · exact Keep.refl _
  · intro x1
    intro x2
    refine Keep.ite ?_ ?_
    · exact Keep.refl _
    · refine Keep.trans ?_ (State.retire_keep _ _ _ _)
      exact State.modQueue_keep _ _ _ _

theorem State.waitEnd_keep (s : State) (core e c : Nat) (slot : Nat) (start : Nat) (tag kind : Nat) (thr seen : Nat) (expired : Bool) : Keep s (State.waitEnd s core e c slot start tag kind thr seen expired) := by
  unfold State.waitEnd
  extract_lets +onlyGivenNames x1
  have k1 : Keep s (x1) := by
    dsimp only [x1]
    exact State.tail_keep _ _ _ _ _ _ _ _
  clear_value x1
  refine Keep.ite ?_ ?_
  · exact Keep.trans ‹_› (State.modCore_keep _ _ _)
  · assumption

theorem State.waitBegin_keep (s : State) (core e c slot tag kind thr seen tmo : Nat) : Keep s (State.waitBegin s core e c slot tag kind thr seen tmo) := by
  unfold State.waitBegin
  exact State.tail_keep _ _ _ _ _ _ _ _

theorem State.tallyEnds_keep (s : State) (core e c slot : Nat) (ws : List TWait) : Keep s (State.tallyEnds s core e c slot ws) := by
  unfold State.tallyEnds
  refine Keep.foldl ?_ ?_ _
  · exact Keep.refl _
  · intro x1
    intro x2
    exact State.tail_keep _ _ _ _ _ _ _ _

theorem State.progress_keep (s : State) (core e : Nat) : Keep s (State.progress s core e) := by
  unfold State.progress
  extract_lets +onlyGivenNames x1
  clear_value x1
  extract_lets +onlyGivenNames x2
  clear_value x2
  extract_lets +onlyGivenNames x3
  clear_value x3
  split
  · refine Keep.ite ?_ ?_
    · refine Keep.trans ?_ (State.retire_keep _ _ _ _)
      refine Keep.trans ?_ (State.waitEnd_keep _ _ _ _ _ _ _ _ _ _ _)
      exact State.setQueue_keep _ _ _ _
    · exact Keep.refl _
  · refine Keep.ite ?_ ?_
    · split
      · refine Keep.trans ?_ (State.retire_keep _ _ _ _)
        refine Keep.trans ?_ (State.tallyEnds_keep _ _ _ _ _ _)
        exact State.setQueue_keep _ _ _ _
      · refine Keep.ite ?_ ?_
        · exact Keep.refl _
        · extract_lets +onlyGivenNames x4
          clear_value x4
          extract_lets +onlyGivenNames x5
          have k5 : Keep s (x5) := by
            dsimp only [x5]
            refine Keep.trans ?_ (State.waitBegin_keep _ _ _ _ _ _ _ _ _ _)
            refine Keep.trans ?_ (State.tallyEnds_keep _ _ _ _ _ _)
            exact State.setQueue_keep _ _ _ _
          clear_value x5
          refine Keep.upd ?_ rfl
          assumption
    · exact Keep.refl _
  · exact Keep.refl _

theorem State.pokeLocal_keep (s : State) (h : Home) : Keep s (State.pokeLocal s h) := by
  unfold State.pokeLocal
  refine Keep.ite ?_ ?_
  · exact Keep.refl _
  · extract_lets +onlyGivenNames x1
    clear_value x1
    extract_lets +onlyGivenNames x2
    have k2 : Keep s (x2) := by
      dsimp only [x2]
      refine Keep.foldl ?_ ?_ _
      · exact Keep.refl _
      · intro x3
        intro x4
        refine Keep.trans ?_ (State.progress_keep _ _ _)
        exact State.setQueue_keep _ _ _ _
    clear_value x2
    refine Keep.foldl ?_ ?_ _
    · assumption
    · intro x5
      intro x6
      extract_lets +onlyGivenNames x7
      clear_value x7
      split
      · extract_lets +onlyGivenNames x8
        clear_value x8
        refine Keep.ite ?_ ?_
        · refine Keep.trans ?_ (State.tail_keep _ _ _ _ _ _ _ _)
          exact State.setGang_keep _ _ _ _
        · exact Keep.refl _
      · exact Keep.refl _

theorem State.addTally_keep (s : State) (m : TallyMsg) (n : Nat) : Keep s (State.addTally s m n) := by
  unfold State.addTally
  extract_lets +onlyGivenNames x1
  clear_value x1
  refine Keep.ite ?_ ?_
  · extract_lets +onlyGivenNames x2
    have k2 : Keep s (x2) := by
      dsimp only [x2]
      exact State.setTally_keep _ _ _
    clear_value x2
    extract_lets +onlyGivenNames x3
    have k3 : Keep s (x3) := by
      dsimp only [x3]
      exact Keep.trans ‹_› (State.raise_keep _ _ _)
    clear_value x3
    extract_lets +onlyGivenNames x4
    have k4 : Keep s (x4) := by
      dsimp only [x4]
      exact Keep.trans ‹_› (State.tail_keep _ _ _ _ _ _ _ _)
    clear_value x4
    refine Keep.ite ?_ ?_
    · exact Keep.trans ‹_› (State.tail_keep _ _ _ _ _ _ _ _)
    · assumption
  · exact State.setTally_keep _ _ _

theorem State.rebaseTally_keep (s : State) (h1 h2 : Home) (delta : Nat) : Keep s (State.rebaseTally s h1 h2 delta) := by
  unfold State.rebaseTally
  extract_lets +onlyGivenNames x1
  clear_value x1
  extract_lets +onlyGivenNames x2
  clear_value x2
  extract_lets +onlyGivenNames x3
  clear_value x3
  extract_lets +onlyGivenNames x4
  have k4 : Keep s (x4) := by
    dsimp only [x4]
    refine Keep.trans ?_ (State.setTally_keep _ _ _)
    exact State.setTally_keep _ _ _
  clear_value x4
  extract_lets +onlyGivenNames x5
  have k5 : Keep s (x5) := by
    dsimp only [x5]
    exact Keep.trans ‹_› (State.setWatches_keep _ _ _)
  clear_value x5
  refine Keep.ite ?_ ?_
  · assumption
  · extract_lets +onlyGivenNames x6
    clear_value x6
    extract_lets +onlyGivenNames x7
    have k7 : Keep s (x7) := by
      dsimp only [x7]
      refine Keep.foldl ?_ ?_ _
      · assumption
      · intro x8
        intro x9
        exact State.setQueue_keep _ _ _ _
    clear_value x7
    refine Keep.foldl ?_ ?_ _
    · assumption
    · intro x10
      intro x11
      extract_lets +onlyGivenNames x12
      clear_value x12
      split
      · extract_lets +onlyGivenNames x13
        clear_value x13
        refine Keep.ite ?_ ?_
        · exact State.setGang_keep _ _ _ _
        · exact Keep.refl _
      · exact Keep.refl _

/-! ### Machine/FarOps.lean -/

theorem State.prefetch_keep (s : State) (core c line : Nat) : Keep s (State.prefetch s core c line) := by
  unfold State.prefetch
  extract_lets +onlyGivenNames x1
  clear_value x1
  extract_lets +onlyGivenNames x2
  clear_value x2
  refine Keep.ite ?_ ?_
  · split
    · exact State.setCore_keep _ _ _
    · exact Keep.refl _
  · exact Keep.refl _

theorem State.ldPart_keep (s : State) (core c : Nat) (p : LinePart) : PartKeep s (State.ldPart s core c p) := by
  unfold State.ldPart
  extract_lets +onlyGivenNames x1
  clear_value x1
  extract_lets +onlyGivenNames x2
  clear_value x2
  extract_lets +onlyGivenNames x3
  clear_value x3
  extract_lets +onlyGivenNames x4
  clear_value x4
  split
  · split
    · exact PartKeep.stall
    · extract_lets +onlyGivenNames x5
      clear_value x5
      split
      · extract_lets +onlyGivenNames x6
        clear_value x6
        refine PartKeep.done ?_
        exact State.setCore_keep _ _ _
      · refine PartKeep.fault ?_
        refine Keep.trans ?_ (State.insnFault_keep _ _ _ _ _)
        exact State.setCore_keep _ _ _
  · split
    · exact PartKeep.stall
    · extract_lets +onlyGivenNames x7
      clear_value x7
      extract_lets +onlyGivenNames x8
      clear_value x8
      extract_lets +onlyGivenNames x9
      have k9 : ∀ (fc' : FarCache), PartKeep s (x9 fc') := by
        intro x10
        dsimp only [x9]
        refine PartKeep.done ?_
        refine Keep.foldl ?_ ?_ _
        · exact State.setCore_keep _ _ _
        · intro x11
          intro x12
          exact State.prefetch_keep _ _ _ _
      clear_value x9
      extract_lets +onlyGivenNames x13
      have k13 : ∀ (fc' : FarCache) (noAlloc : Bool) (after : Option Nat), PartKeep s (x13 fc' noAlloc after) := by
        intro x14
        intro x15
        intro x16
        dsimp only [x13]
        exact k9 _
      clear_value x13
      split
      · exact k9 _
      · split
        · exact PartKeep.stall
        · split
          · exact k13 _ _ _
          · split
            · exact k13 _ _ _
            · split
              · exact PartKeep.stall
              · refine PartKeep.fault ?_
                exact State.gangFault_keep _ _ _ _ _
              · exact k13 _ _ _

theorem State.stHost_keep (s : State) (core c : Nat) (p : LinePart) : PartKeep s (State.stHost s core c p) := by
  unfold State.stHost
  extract_lets +onlyGivenNames x1
  clear_value x1
  extract_lets +onlyGivenNames x2
  clear_value x2
  extract_lets +onlyGivenNames x3
  clear_value x3
  extract_lets +onlyGivenNames x4
  clear_value x4
  extract_lets +onlyGivenNames x5
  have k5 : Keep s (x5) := by
    dsimp only [x5]
    exact State.hostBytes_keep _ _
  clear_value x5
  extract_lets +onlyGivenNames x6
  clear_value x6
  split
  · refine PartKeep.done ?_
    exact Keep.trans ‹_› (State.setCore_keep _ _ _)
  · extract_lets +onlyGivenNames x7
    clear_value x7
    refine PartKeep.done ?_
    exact Keep.trans ‹_› (State.setCore_keep _ _ _)

theorem State.stFar_keep (s : State) (core c : Nat) (p : LinePart) : PartKeep s (s.stFar core c p) := by
  unfold State.stFar
  extract_lets +onlyGivenNames x1
  clear_value x1
  extract_lets +onlyGivenNames x2
  clear_value x2
  split
  · refine PartKeep.done ?_
    exact State.setCore_keep _ _ _
  · extract_lets +onlyGivenNames x3
    clear_value x3
    extract_lets +onlyGivenNames x4
    clear_value x4
    extract_lets +onlyGivenNames x5
    clear_value x5
    extract_lets +onlyGivenNames x6
    clear_value x6
    split
    · split
      · exact PartKeep.stall
      · extract_lets +onlyGivenNames x7
        clear_value x7
        extract_lets +onlyGivenNames x8
        clear_value x8
        extract_lets +onlyGivenNames x9
        clear_value x9
        refine PartKeep.done ?_
        exact State.setCore_keep _ _ _
    · split
      · exact PartKeep.stall
      · refine PartKeep.fault ?_
        exact State.gangFault_keep _ _ _ _ _
      · refine PartKeep.done ?_
        exact State.setCore_keep _ _ _

theorem State.linePart_keep (s : State) (core c : Nat) (p : LinePart) : PartKeep s (s.linePart core c p) := by
  unfold State.linePart
  split
  · split
    · refine State.stHost_keep _ _ _ _
    · refine State.stFar_keep _ _ _ _
  · refine State.ldPart_keep _ _ _ _

theorem State.pumpParts_keep (core c slot : Nat) (ps : List LinePart) (s : State) : Keep s (State.pumpParts core c slot ps s).1 := by
  induction ps generalizing s with
  | nil => unfold State.pumpParts; dsimp only; exact State.modGang_keep _ _ _ _
  | cons p ps ih =>
    have h := State.linePart_keep s core c p
    unfold State.pumpParts
    split
    · next hp => rw [hp] at h; exact Keep.trans h (ih _)
    · dsimp only; exact State.modGang_keep _ _ _ _
    · next hp => rw [hp] at h; exact h

theorem State.pumpFar_keep (s : State) (core : Nat) : Keep s (State.pumpFar s core) := by
  unfold State.pumpFar
  extract_lets +onlyGivenNames x1
  clear_value x1
  refine Keep.foldl ?_ ?_ _
  · exact State.modCore_keep _ _ _
  · intro x2
    intro x3
    exact State.coreFault_keep _ _ _ _

theorem State.farRelease_keep (s : State) (core unit c : Nat) (system : Bool) : Keep s (State.farRelease s core unit c system) := by
  unfold State.farRelease
  refine Keep.trans ?_ (State.pumpFar_keep _ _)
  exact State.modCore_keep _ _ _

/-! ### Machine/QueueOps.lean: faults -/

theorem State.recFault_keep (s : State) (c core e : Nat) (cause : Cause) (slot : Nat) (ws : List W64) (addr : Nat) : Keep s (State.recFault s c core e cause slot ws addr) := by
  unfold State.recFault
  exact State.raise_keep _ _ _

theorem State.infoFault_keep (s : State) (r : RecInfo) (cause : Cause) (addr : Nat) : Keep s (State.infoFault s r cause addr) := by
  unfold State.infoFault
  exact State.recFault_keep _ _ _ _ _ _ _ _

theorem State.flightFault_keep (s : State) (core e id : Nat) (cause : Cause) (addr : Nat) : Keep s (State.flightFault s core e id cause addr) := by
  unfold State.flightFault
  split
  · exact State.recFault_keep _ _ _ _ _ _ _ _
  · exact Keep.refl _

/-! ### Machine/Fold.lean -/

theorem State.modMe_keep (s : State) (core : Nat) (f : MatrixEngine → MatrixEngine) : Keep s (State.modMe s core f) := by
  unfold State.modMe
  exact State.modCore_keep _ _ _

theorem State.readSlabs_keep (s : State) (core : Nat) (ix : List Nat) : Keep s (State.readSlabs s core ix).1 := by
  unfold State.readSlabs
  refine Keep.foldl_fst ?_ ?_ _
  · dsimp only
    exact Keep.refl _
  · intro x1
    intro x2
    extract_lets +onlyGivenNames x3
    clear_value x3
    extract_lets +onlyGivenNames x4
    have k4 : Keep x1.fst (x4) := by
      dsimp only [x4]
      refine Keep.trans ?_ (State.count_keep _ _ _ _)
      exact State.modSlab_keep _ _ _
    clear_value x4
    assumption

theorem State.putSlab_keep (s : State) (core : Nat) (o : Nat × List Byte) : Keep s (State.putSlab s core o).1 := by
  unfold State.putSlab
  split
  · dsimp only
    exact Keep.refl _
  · dsimp only
    exact Keep.refl _
  · dsimp only
    refine Keep.trans ?_ (State.count_keep _ _ _ _)
    exact State.modSlab_keep _ _ _

theorem State.putSlabs_keep (s : State) (core rec_ : Nat) (os : List (Nat × List Byte)) : Keep s (State.putSlabs s core rec_ os) := by
  unfold State.putSlabs
  refine Keep.foldl ?_ ?_ _
  · exact Keep.refl _
  · intro x1
    intro x2
    extract_lets +onlyGivenNames x3
    have k3 : Keep x1 (x3.1) := by
      dsimp only [x3]
      exact State.putSlab_keep _ _ _
    clear_value x3
    refine Keep.ite ?_ ?_
    · assumption
    · exact Keep.trans ‹_› (State.flightFault_keep _ _ _ _ _ _)

theorem State.modRun_keep (s : State) (core id : Nat) (f : MatRun → MatRun) : Keep s (State.modRun s core id f) := by
  unfold State.modRun
  exact State.modMe_keep _ _ _

theorem State.meFault_keep (s : State) (core id : Nat) (cause : Cause) (addr : Nat) : Keep s (State.meFault s core id cause addr) := by
  unfold State.meFault
  refine Keep.trans ?_ (State.modRun_keep _ _ _ _)
  exact State.flightFault_keep _ _ _ _ _ _

theorem State.meRead_keep (s : State) (core : Nat) (r : MatRun) (panel p u slab : Nat) : Keep s (State.meRead s core r panel p u slab) := by
  unfold State.meRead
  refine Keep.ite ?_ ?_
  · exact State.meFault_keep _ _ _ _ _
  · extract_lets +onlyGivenNames x1
    have k1 : Keep s (x1.1) := by
      dsimp only [x1]
      exact State.readSlabs_keep _ _ _
    clear_value x1
    split
    · exact Keep.trans ‹_› (State.meFault_keep _ _ _ _ _)
    · exact Keep.trans ‹_› (State.modRun_keep _ _ _ _)

theorem State.markColumn_keep (s : State) (core col : Nat) : Keep s (State.markColumn s core col) := by
  unfold State.markColumn
  extract_lets +onlyGivenNames x1
  have k1 : Keep s (x1) := by
    dsimp only [x1]
    exact State.modMe_keep _ _ _
  clear_value x1
  refine Keep.upd ?_ rfl
  assumption

theorem State.meSums_keep (s : State) (core : Nat) (r : MatRun) (i : Nat) : Keep s (State.meSums s core r i) := by
  unfold State.meSums
  extract_lets +onlyGivenNames x1
  clear_value x1
  extract_lets +onlyGivenNames x2
  clear_value x2
  extract_lets +onlyGivenNames x3
  clear_value x3
  extract_lets +onlyGivenNames x4
  clear_value x4
  extract_lets +onlyGivenNames x5
  clear_value x5
  extract_lets +onlyGivenNames x6
  clear_value x6
  extract_lets +onlyGivenNames x7
  clear_value x7
  extract_lets +onlyGivenNames x8
  clear_value x8
  extract_lets +onlyGivenNames x9
  clear_value x9
  extract_lets +onlyGivenNames x10
  clear_value x10
  extract_lets +onlyGivenNames x11
  clear_value x11
  extract_lets +onlyGivenNames x12
  clear_value x12
  extract_lets +onlyGivenNames x13
  clear_value x13
  extract_lets +onlyGivenNames x14
  clear_value x14
  extract_lets +onlyGivenNames x15
  have k15 : Keep s (x15.2) := by
    dsimp only [x15]
    exact State.draw_keep _
  clear_value x15
  extract_lets +onlyGivenNames x16
  have k16 : Keep s (x16) := by
    dsimp only [x16]
    refine Keep.trans ?_ (State.modMe_keep _ _ _)
    refine Keep.ite ?_ ?_
    · assumption
    · exact Keep.refl _
  clear_value x16
  extract_lets +onlyGivenNames x17
  have k17 : Keep s (x17) := by
    dsimp only [x17]
    refine Keep.trans ?_ (State.count_keep _ _ _ _)
    refine Keep.trans ?_ (State.count_keep _ _ _ _)
    exact Keep.trans ‹_› (State.count_keep _ _ _ _)
  clear_value x17
  exact Keep.trans ‹_› (State.modRun_keep _ _ _ _)

theorem State.meCompute_keep (s : State) (core : Nat) (r : MatRun) (i : Nat) : Keep s (State.meCompute s core r i) := by
  unfold State.meCompute
  split
  · refine Keep.trans ?_ (State.meFault_keep _ _ _ _ _)
    exact State.markColumn_keep _ _ _
  · exact State.meSums_keep _ _ _ _

theorem State.meDrain_keep (s : State) (c core : Nat) (r : MatRun) (i : Nat) : Keep s (State.meDrain s c core r i) := by
  unfold State.meDrain
  extract_lets +onlyGivenNames x1
  clear_value x1
  extract_lets +onlyGivenNames x2
  clear_value x2
  split
  · exact State.meFault_keep _ _ _ _ _
  · extract_lets +onlyGivenNames x3
    have k3 : Keep s (x3.1) := by
      dsimp only [x3]
      exact State.readSlabs_keep _ _ _
    clear_value x3
    split
    · exact Keep.trans ‹_› (State.meFault_keep _ _ _ _ _)
    · extract_lets +onlyGivenNames x4
      clear_value x4
      extract_lets +onlyGivenNames x5
      clear_value x5
      extract_lets +onlyGivenNames x6
      have k6 : Keep s (x6) := by
        dsimp only [x6]
        refine Keep.trans ?_ (State.count_keep _ _ _ _)
        exact Keep.trans ‹_› (State.modMe_keep _ _ _)
      clear_value x6
      exact Keep.trans ‹_› (State.modRun_keep _ _ _ _)

theorem State.meWrite_keep (s : State) (core : Nat) (r : MatRun) (i k slab : Nat) : Keep s (State.meWrite s core r i k slab) := by
  unfold State.meWrite
  split
  · exact Keep.refl _
  · refine Keep.trans ?_ (State.modRun_keep _ _ _ _)
    exact State.putSlabs_keep _ _ _ _

theorem State.meEvent_keep (s : State) (c core : Nat) (e : MeEvent) : Keep s (State.meEvent s c core e) := by
  unfold State.meEvent
  split
  · exact Keep.refl _
  · split
    · exact State.meRead_keep _ _ _ _ _ _ _
    · exact State.meCompute_keep _ _ _ _
    · exact State.meDrain_keep _ _ _ _ _
    · exact State.meWrite_keep _ _ _ _ _ _

theorem State.runEvents_keep (c core lim : Nat) (es : List MeEvent) (s : State) : Keep s (State.runEvents c core lim es s) := by
  induction es generalizing s with
  | nil => exact State.modMe_keep _ _ _
  | cons e rest ih =>
    unfold State.runEvents
    refine Keep.ite (State.modMe_keep _ _ _) (Keep.ite ?_ (Keep.trans (State.meEvent_keep _ _ _ _) (ih _)))
    exact Keep.trans (State.modMe_keep _ _ _) (State.count_keep _ _ _ _)

theorem State.pumpMe_keep (s : State) (core : Nat) : Keep s (State.pumpMe s core) := by
  unfold State.pumpMe
  split
  · exact Keep.refl _
  · refine Keep.ite ?_ ?_
    · exact Keep.refl _
    · exact State.runEvents_keep _ _ _ _ _

theorem State.advance_keep (s : State) (h : Nat) : Keep s (State.advance s h) := by
  unfold State.advance
  refine Keep.foldl ?_ ?_ _
  · exact State.clock_keep _ _
  · intro x1
    intro x2
    exact State.pumpMe_keep _ _

theorem State.advanceTo_keep (s : State) (now : Nat) : Keep s (State.advanceTo s now) := by
  unfold State.advanceTo
  refine Keep.ite ?_ ?_
  · exact State.advance_keep _ _
  · exact Keep.refl _

/-! ### Machine/GangControl.lean -/

theorem State.gangGo_keep (s : State) (g : GangAt) (r : Option Gang) : Keep s (State.gangGo s g r) := by
  unfold State.gangGo
  split
  · exact State.setGang_keep _ _ _ _
  · exact State.gangFault_keep _ _ _ _ _

theorem execBr_keep (g : GangAt) (p : Nat) (pn : Bool) (tgt join : Addr) (s : State) : OutKeep s (execBr g p pn tgt join s) := by
  unfold execBr
  refine onGang_keep _ _ _ _ _ _ _ ?_
  intro x1
  intro x2
  intro x3
  intro x4
  extract_lets +onlyGivenNames x5
  clear_value x5
  refine Keep.trans ?_ (State.count_keep _ _ _ _)
  exact State.gangGo_keep _ _ _

theorem execBra_keep (g : GangAt) (tgt : Addr) (s : State) : OutKeep s (execBra g tgt s) := by
  unfold execBra
  refine onGang_keep _ _ _ _ _ _ _ ?_
  intro x1
  intro x2
  intro x3
  intro x4
  exact State.setGang_keep _ _ _ _

theorem execLoopInsn_keep (g : GangAt) (sreg : Nat) (last after : Addr) (s : State) : OutKeep s (execLoopInsn g sreg last after s) := by
  unfold execLoopInsn
  refine onGang_keep _ _ _ _ _ _ _ ?_
  intro x1
  intro x2
  intro x3
  intro x4
  exact State.gangGo_keep _ _ _

theorem State.gangExit_keep (s : State) (core slot : Nat) (x : Gang) : Keep s (State.gangExit s core slot x) := by
  unfold State.gangExit
  exact State.modCore_keep _ _ _

theorem execExit_keep (g : GangAt) (qp : Nat) (qn : Bool) (s : State) : OutKeep s (execExit g qp qn s) := by
  unfold execExit
  refine onGang_keep _ _ _ _ _ _ _ ?_
  intro x1
  intro x2
  intro x3
  intro x4
  extract_lets +onlyGivenNames x5
  clear_value x5
  refine Keep.ite ?_ ?_
  · exact State.gangExit_keep _ _ _ _
  · exact State.setGang_keep _ _ _ _

theorem execCodeFetch_keep (core slot : Nat) (s : State) : OutKeep s (execCodeFetch core slot s) := by
  unfold execCodeFetch
  refine OutKeep.ite ?_ ?_
  · extract_lets +onlyGivenNames x1
    clear_value x1
    split
    · refine OutKeep.next ?_
      exact Keep.refl _
    · refine OutKeep.ite ?_ ?_
      · extract_lets +onlyGivenNames x2
        clear_value x2
        refine OutKeep.ite ?_ ?_
        · extract_lets +onlyGivenNames x3
          have k3 : Keep s (x3.1) := by
            dsimp only [x3]
            exact State.farRead_keep _ _ _
          clear_value x3
          split
          · refine OutKeep.next ?_
            exact Keep.trans ‹_› (State.gangFault_keep _ _ _ _ _)
          · refine OutKeep.next ?_
            exact Keep.trans ‹_› (State.modCore_keep _ _ _)
        · refine OutKeep.next ?_
          exact State.gangFault_keep _ _ _ _ _
      · refine OutKeep.next ?_
        exact Keep.refl _
  · exact OutKeep.fault

theorem execGangStart_keep (core : Nat) (s : State) : OutKeep s (execGangStart core s) := by
  unfold execGangStart
  refine OutKeep.ite ?_ ?_
  · split
    · refine OutKeep.next ?_
      exact Keep.refl _
    · extract_lets +onlyGivenNames x1
      clear_value x1
      split
      · extract_lets +onlyGivenNames x2
        clear_value x2
        extract_lets +onlyGivenNames x3
        clear_value x3
        refine OutKeep.next ?_
        exact State.setCore_keep _ _ _
      · refine OutKeep.next ?_
        exact Keep.refl _
  · exact OutKeep.fault

theorem execLaunchRetire_keep (core id : Nat) (s : State) : OutKeep s (execLaunchRetire core id s) := by
  unfold execLaunchRetire
  refine OutKeep.ite ?_ ?_
  · split
    · refine OutKeep.next ?_
      exact Keep.refl _
    · extract_lets +onlyGivenNames x1
      clear_value x1
      refine OutKeep.ite ?_ ?_
      · extract_lets +onlyGivenNames x2
        clear_value x2
        extract_lets +onlyGivenNames x3
        have k3 : Keep s (x3) := by
          dsimp only [x3]
          exact State.setCore_keep _ _ _
        clear_value x3
        refine OutKeep.next ?_
        exact Keep.trans ‹_› (State.retire_keep _ _ _ _)
      · refine OutKeep.next ?_
        exact Keep.refl _
  · exact OutKeep.fault

theorem State.gangState_keep (s : State) (core c slot : Nat) : Keep s (State.gangState s core c slot) := by
  unfold State.gangState
  extract_lets +onlyGivenNames x1
  clear_value x1
  extract_lets +onlyGivenNames x2
  clear_value x2
  extract_lets +onlyGivenNames x3
  clear_value x3
  exact State.tail_keep _ _ _ _ _ _ _ _

theorem execLaunchTimeout_keep (core id now : Nat) (s : State) : OutKeep s (execLaunchTimeout core id now s) := by
  unfold execLaunchTimeout
  refine OutKeep.ite ?_ ?_
  · extract_lets +onlyGivenNames x1
    have k1 : Keep s (x1) := by
      dsimp only [x1]
      exact State.advanceTo_keep _ _
    clear_value x1
    split
    · refine OutKeep.next ?_
      assumption
    · split
      · refine OutKeep.next ?_
        assumption
      · refine OutKeep.ite ?_ ?_
        · extract_lets +onlyGivenNames x2
          have k2 : Keep s (x2) := by
            dsimp only [x2]
            refine Keep.foldl ?_ ?_ _
            · assumption
            · intro x3
              intro x4
              refine Keep.ite ?_ ?_
              · exact State.gangState_keep _ _ _ _
              · exact Keep.refl _
          clear_value x2
          extract_lets +onlyGivenNames x5
          clear_value x5
          refine OutKeep.next ?_
          exact Keep.trans ‹_› (State.raise_keep _ _ _)
        · refine OutKeep.next ?_
          assumption
  · exact OutKeep.fault

/-! ### Machine/GangMem.lean -/

theorem State.pumpGang_keep (s : State) (core c slot : Nat) (parts : List LinePart) (resume : Addr) (host : Bool) (load : Nat) : Keep s (State.pumpGang s core c slot parts resume host load) := by
  unfold State.pumpGang
  extract_lets +onlyGivenNames x1
  have k1 : Keep s (x1.1) := by
    dsimp only [x1]
    exact State.pumpParts_keep _ _ _ _ _
  clear_value x1
  refine Keep.ite ?_ ?_
  · exact Keep.trans ‹_› (State.modGang_keep _ _ _ _)
  · assumption

theorem gangLdSt_keep (g : GangAt) (f : VForm) (store : Bool) (c : Nat) (x : Gang) (env : GangEnv) (s : State) : Keep s (gangLdSt g f store c x env s) := by
  unfold gangLdSt
  split
  · exact State.pumpGang_keep _ _ _ _ _ _ _ _
  · extract_lets +onlyGivenNames x1
    clear_value x1
    extract_lets +onlyGivenNames x2
    clear_value x2
    split
    · exact State.gangFault_keep _ _ _ _ _
    · extract_lets +onlyGivenNames x3
      have k3 : Keep s (x3.2) := by
        dsimp only [x3]
        split
        · exact State.draw_keep _
        · dsimp only
          exact Keep.refl _
      clear_value x3
      extract_lets +onlyGivenNames x4
      have k4 : Keep s (x4) := by
        dsimp only [x4]
        assumption
      clear_value x4
      extract_lets +onlyGivenNames x5
      clear_value x5
      extract_lets +onlyGivenNames x6
      clear_value x6
      extract_lets +onlyGivenNames x7
      clear_value x7
      refine Keep.trans ?_ (State.pumpGang_keep _ _ _ _ _ _ _ _)
      exact Keep.trans ‹_› (State.setGang_keep _ _ _ _)

theorem execLd_keep (g : GangAt) (f : VForm) (s : State) : OutKeep s (execLd g f s) := by
  unfold execLd
  refine onGang_keep _ _ _ _ _ _ _ ?_
  intro x1
  intro x2
  intro x3
  intro x4
  exact gangLdSt_keep _ _ _ _ _ _ _

theorem execSt_keep (g : GangAt) (f : VForm) (s : State) : OutKeep s (execSt g f s) := by
  unfold execSt
  refine onGang_keep _ _ _ _ _ _ _ ?_
  intro x1
  intro x2
  intro x3
  intro x4
  exact gangLdSt_keep _ _ _ _ _ _ _

theorem execAtom_keep (s : State) (g : GangAt) (f : VForm) : OutKeep s (execAtom g f s) := by
  unfold execAtom
  refine onGang_keep _ _ _ _ _ _ _ ?_
  intro x1
  intro x2
  intro x3
  intro x4
  extract_lets +onlyGivenNames x5
  clear_value x5
  extract_lets +onlyGivenNames x6
  clear_value x6
  extract_lets +onlyGivenNames x7
  clear_value x7
  extract_lets +onlyGivenNames x8
  clear_value x8
  split
  · exact State.gangFault_keep _ _ _ _ _
  · extract_lets +onlyGivenNames x9
    clear_value x9
    extract_lets +onlyGivenNames x10
    clear_value x10
    extract_lets +onlyGivenNames x11
    clear_value x11
    extract_lets +onlyGivenNames x12
    clear_value x12
    split
    · refine Keep.trans ?_ (State.gangFault_keep _ _ _ _ _)
      exact State.setCore_keep _ _ _
    · refine Keep.ite ?_ ?_
      · exact State.setCore_keep _ _ _
      · extract_lets +onlyGivenNames x13
        clear_value x13
        extract_lets +onlyGivenNames x14
        clear_value x14
        extract_lets +onlyGivenNames y15 x15
        clear_value x15 y15
        extract_lets +onlyGivenNames x16
        have k16 : Keep x4 (x16) := by
          dsimp only [x16]
          exact State.setCore_keep _ _ _
        clear_value x16
        refine Keep.upd ?_ rfl
        assumption

theorem execAtomComplete_keep (k : Nat) (s : State) : OutKeep s (execAtomComplete k s) := by
  unfold execAtomComplete
  split
  · refine OutKeep.next ?_
    exact Keep.refl _
  · refine OutKeep.ite ?_ ?_
    · refine OutKeep.next ?_
      exact Keep.refl _
    · extract_lets +onlyGivenNames x1
      clear_value x1
      extract_lets +onlyGivenNames x2
      clear_value x2
      extract_lets +onlyGivenNames x3
      have k3 : Keep s (x3) := by
        dsimp only [x3]
        refine Keep.upd ?_ rfl
        exact Keep.refl _
      clear_value x3
      extract_lets +onlyGivenNames x4
      have k4 : Keep s (x4.1) := by
        dsimp only [x4]
        exact Keep.trans ‹_› (State.farRead_keep _ _ _)
      clear_value x4
      split
      · refine OutKeep.next ?_
        exact Keep.trans ‹_› (State.insnFault_keep _ _ _ _ _)
      · extract_lets +onlyGivenNames x5
        clear_value x5
        extract_lets +onlyGivenNames x6
        have k6 : Keep s (x6) := by
          dsimp only [x6]
          exact Keep.trans ‹_› (State.farWrite_keep _ _ _)
        clear_value x6
        refine OutKeep.ite ?_ ?_
        · refine OutKeep.next ?_
          assumption
        · refine OutKeep.next ?_
          exact Keep.trans ‹_› (State.withGang_keep _ _ _ _ _)

theorem gangSlab_keep (g : GangAt) (f : VForm) (store : Bool) (c : Nat) (x : Gang) (env : GangEnv) (s : State) :
    OptKeep s (gangSlab g f store c x env s) := by
  unfold gangSlab
  extract_lets +onlyGivenNames x1
  clear_value x1
  split
  · refine OptKeep.some ?_
    exact State.gangFault_keep _ _ _ _ _
  · extract_lets +onlyGivenNames x2
    clear_value x2
    extract_lets +onlyGivenNames x3
    clear_value x3
    extract_lets +onlyGivenNames x4
    clear_value x4
    extract_lets +onlyGivenNames x5
    clear_value x5
    refine OptKeep.ite ?_ ?_
    · extract_lets +onlyGivenNames x6
      clear_value x6
      refine OptKeep.ite ?_ ?_
      · refine OptKeep.some ?_
        exact State.gangFault_keep _ _ _ _ _
      · refine OptKeep.ite ?_ ?_
        · exact OptKeep.none
        · refine OptKeep.some ?_
          refine Keep.trans ?_ (State.modSlab_keep _ _ _)
          exact State.setGang_keep _ _ _ _
    · extract_lets +onlyGivenNames x7
      have k7 : Keep s (x7) := by
        dsimp only [x7]
        exact State.setGang_keep _ _ _ _
      clear_value x7
      refine OptKeep.some ?_
      refine Keep.upd ?_ rfl
      assumption

theorem execSld_keep (g : GangAt) (f : VForm) (s : State) : OutKeep s (execSld g f s) := by
  unfold execSld
  refine onGangTry_keep _ _ _ _ _ _ _ ?_
  intro x1
  intro x2
  intro x3
  intro x4
  refine gangSlab_keep _ _ _ _ _ _ _

theorem execSst_keep (g : GangAt) (f : VForm) (s : State) : OutKeep s (execSst g f s) := by
  unfold execSst
  refine onGangTry_keep _ _ _ _ _ _ _ ?_
  intro x1
  intro x2
  intro x3
  intro x4
  refine gangSlab_keep _ _ _ _ _ _ _

theorem execRemoteSlabAccess_keep (k : Nat) (s : State) : OutKeep s (execRemoteSlabAccess k s) := by
  unfold execRemoteSlabAccess
  split
  · refine OutKeep.next ?_
    exact Keep.refl _
  · extract_lets +onlyGivenNames x1
    clear_value x1
    extract_lets +onlyGivenNames x2
    clear_value x2
    extract_lets +onlyGivenNames x3
    have k3 : Keep s (x3) := by
      dsimp only [x3]
      refine Keep.upd ?_ rfl
      exact Keep.refl _
    clear_value x3
    refine OutKeep.ite ?_ ?_
    · refine OutKeep.next ?_
      assumption
    · refine OutKeep.ite ?_ ?_
      · refine OutKeep.next ?_
        exact Keep.trans ‹_› (State.insnFault_keep _ _ _ _ _)
      · refine OutKeep.ite ?_ ?_
        · refine OutKeep.next ?_
          exact Keep.refl _
        · refine OutKeep.next ?_
          exact Keep.trans ‹_› (State.modSlab_keep _ _ _)

theorem State.grantRead_keep (home : Nat) (s : State) (u : Unpl) : Keep s (State.grantRead home s u) := by
  unfold State.grantRead
  extract_lets +onlyGivenNames x1
  clear_value x1
  refine Keep.ite ?_ ?_
  · exact State.insnFault_keep _ _ _ _ _
  · extract_lets +onlyGivenNames x2
    clear_value x2
    extract_lets +onlyGivenNames x3
    have k3 : Keep s (x3) := by
      dsimp only [x3]
      exact State.modSlab_keep _ _ _
    clear_value x3
    split
    · exact Keep.trans ‹_› (State.insnFault_keep _ _ _ _ _)
    · refine Keep.ite ?_ ?_
      · assumption
      · refine Keep.ite ?_ ?_
        · exact Keep.trans ‹_› (State.withGang_keep _ _ _ _ _)
        · refine Keep.upd ?_ rfl
          assumption

theorem State.grantWrite_keep (home : Nat) (s : State) (u : Unpl) : Keep s (State.grantWrite home s u) := by
  unfold State.grantWrite
  extract_lets +onlyGivenNames x1
  clear_value x1
  refine Keep.trans ?_ (State.withGang_keep _ _ _ _ _)
  exact State.modSlab_keep _ _ _

theorem execUnplannedGrant_keep (s : State) (core rdFree : Nat) (wrFree : Bool) (busy : W32) : OutKeep s (execUnplannedGrant core rdFree wrFree busy s) := by
  unfold execUnplannedGrant
  refine OutKeep.ite ?_ ?_
  · extract_lets +onlyGivenNames x1
    clear_value x1
    extract_lets +onlyGivenNames x2
    clear_value x2
    extract_lets +onlyGivenNames x3
    clear_value x3
    extract_lets +onlyGivenNames x4
    clear_value x4
    extract_lets +onlyGivenNames x5
    have k5 : Keep s (x5) := by
      dsimp only [x5]
      exact State.modCore_keep _ _ _
    clear_value x5
    extract_lets +onlyGivenNames x6
    have k6 : Keep s (x6) := by
      dsimp only [x6]
      refine Keep.foldl ?_ ?_ _
      · assumption
      · intro x7
        intro x8
        exact State.grantRead_keep _ _ _
    clear_value x6
    refine OutKeep.next ?_
    refine Keep.foldl ?_ ?_ _
    · assumption
    · intro x9
      intro x10
      exact State.grantWrite_keep _ _ _
  · exact OutKeep.fault

theorem execEccRewrite_keep (core : Nat) (wrFree : Bool) (s : State) : OutKeep s (execEccRewrite core wrFree s) := by
  unfold execEccRewrite
  refine OutKeep.ite ?_ ?_
  · split
    · refine OutKeep.next ?_
      exact Keep.refl _
    · refine OutKeep.ite ?_ ?_
      · refine OutKeep.next ?_
        exact State.modSlab_keep _ _ _
      · refine OutKeep.next ?_
        exact Keep.refl _
  · exact OutKeep.fault

theorem execRemoteSldReply_keep (k : Nat) (s : State) : OutKeep s (execRemoteSldReply k s) := by
  unfold execRemoteSldReply
  split
  · refine OutKeep.next ?_
    exact Keep.refl _
  · extract_lets +onlyGivenNames x1
    clear_value x1
    extract_lets +onlyGivenNames x2
    have k2 : Keep s (x2) := by
      dsimp only [x2]
      refine Keep.upd ?_ rfl
      exact Keep.refl _
    clear_value x2
    refine OutKeep.ite ?_ ?_
    · refine OutKeep.next ?_
      assumption
    · refine OutKeep.next ?_
      exact Keep.trans ‹_› (State.withGang_keep _ _ _ _ _)

theorem State.hostReject_keep (s : State) (core slot uid load addr : Nat) : Keep s (State.hostReject s core slot uid load addr) := by
  unfold State.hostReject
  extract_lets +onlyGivenNames x1
  have k1 : Keep s (x1) := by
    dsimp only [x1]
    refine Keep.trans ?_ (State.hubCount_keep _ _ _ _)
    exact State.modCore_keep _ _ _
  extract_lets +onlyGivenNames x2
  have k2 : Keep s (x2) := by
    dsimp only [x2]
    split
    · assumption
    · exact Keep.trans ‹_› (State.modCtx_keep _ _ _)
  extract_lets +onlyGivenNames x3
  refine Keep.ite ?_ ?_
  · exact Keep.trans ‹_› (State.setGang_keep _ _ _ _)
  · assumption

theorem execFarCacheFill_keep (s : State) (core k : Nat) (hostOk : Bool) (hostData : List Byte) : OutKeep s (execFarCacheFill core k hostOk hostData s) := by
  unfold execFarCacheFill
  refine OutKeep.ite ?_ ?_
  · extract_lets +onlyGivenNames x1
    clear_value x1
    split
    · refine OutKeep.next ?_
      exact Keep.refl _
    · refine OutKeep.ite ?_ ?_
      · refine OutKeep.next ?_
        exact Keep.refl _
      · extract_lets +onlyGivenNames x2
        clear_value x2
        extract_lets +onlyGivenNames x3
        have k3 : Keep s (x3.1) := by
          dsimp only [x3]
          refine Keep.ite_fst ?_ ?_
          · dsimp only
            exact Keep.refl _
          · exact State.farRead_keep _ _ _
        clear_value x3
        extract_lets +onlyGivenNames x4
        have k4 : Keep s (x4) := by
          dsimp only [x4]
          exact Keep.trans ‹_› (State.modCore_keep _ _ _)
        clear_value x4
        extract_lets +onlyGivenNames x5
        have k5 : ∀ (t : State), Keep t (x5 t) := by
          intro x6
          dsimp only [x5]
          exact State.modCore_keep _ _ _
        clear_value x5
        refine OutKeep.ite ?_ ?_
        · refine OutKeep.next ?_
          exact Keep.trans ‹_› (k5 _)
        · refine OutKeep.ite ?_ ?_
          · refine OutKeep.next ?_
            refine Keep.foldl ?_ ?_ _
            · exact Keep.trans ‹_› (k5 _)
            · intro x7
              intro x8
              exact State.hostReject_keep _ _ _ _ _ _
          · split
            · refine OutKeep.ite ?_ ?_
              · refine OutKeep.next ?_
                exact Keep.trans ‹_› (k5 _)
              · refine OutKeep.next ?_
                split
                · refine Keep.trans ?_ (State.coreFault_keep _ _ _ _)
                  exact Keep.trans ‹_› (k5 _)
                · extract_lets +onlyGivenNames x9
                  clear_value x9
                  extract_lets +onlyGivenNames x10
                  clear_value x10
                  refine Keep.trans ?_ (State.insnFault_keep _ _ _ _ _)
                  exact Keep.trans ‹_› (k5 _)
            · extract_lets +onlyGivenNames x11
              have k11 : Keep s (x11) := by
                dsimp only [x11]
                refine Keep.ite ?_ ?_
                · assumption
                · exact Keep.trans ‹_› (State.modCore_keep _ _ _)
              clear_value x11
              refine OutKeep.next ?_
              refine Keep.foldl ?_ ?_ _
              · assumption
              · intro x12
                intro x13
                exact State.withGang_keep _ _ _ _ _
  · exact OutKeep.fault

theorem execWritebackAccept_keep (s : State) (core k : Nat) : OutKeep s (execWritebackAccept core k s) := by
  unfold execWritebackAccept
  refine OutKeep.ite ?_ ?_
  · split
    · refine OutKeep.next ?_
      exact Keep.refl _
    · refine OutKeep.ite ?_ ?_
      · refine OutKeep.next ?_
        exact Keep.refl _
      · extract_lets +onlyGivenNames x1
        have k1 : Keep s (x1.1) := by
          dsimp only [x1]
          exact State.farWriteBytes_keep _ _ _
        clear_value x1
        extract_lets +onlyGivenNames x2
        have k2 : Keep s (x2) := by
          dsimp only [x2]
          refine Keep.trans ?_ (State.pumpFar_keep _ _)
          exact Keep.trans ‹_› (State.modCore_keep _ _ _)
        clear_value x2
        extract_lets +onlyGivenNames x3
        have k3 : Keep s (x3) := by
          dsimp only [x3]
          split
          · assumption
          · exact Keep.trans ‹_› (State.withGang_keep _ _ _ _ _)
        clear_value x3
        refine OutKeep.ite ?_ ?_
        · refine OutKeep.next ?_
          assumption
        · refine OutKeep.next ?_
          split
          · exact Keep.trans ‹_› (State.coreFault_keep _ _ _ _)
          · exact Keep.trans ‹_› (State.insnFault_keep _ _ _ _ _)
  · exact OutKeep.fault

end Sys2Proof.Machine
end

