-- ==== Sys2Proof/Laws/KeepQueue.lean ====
section
/-! SUPPORT. What every operation keeps (`Keep`: the queue of waiting commands, and the canonical form of far and host memory): links, queues, synchronization, moves, host memory. -/

namespace Sys2Proof.Machine

/-! ### Machine/LinkOps.lean -/

theorem State.setPort_keep (s : State) (p : Nat) (x : Port) : Keep s (State.setPort s p x) := by
  unfold State.setPort
  refine Keep.upd ?_ rfl
  exact Keep.refl _

theorem State.modLinks_keep (s : State) (f : Links → Links) : Keep s (State.modLinks s f) := by
  unfold State.modLinks
  refine Keep.upd ?_ rfl
  exact Keep.refl _

theorem State.modTwin_keep (s : State) (f : Twin → Twin) : Keep s (State.modTwin s f) := by
  unfold State.modTwin
  refine Keep.upd ?_ rfl
  exact Keep.refl _

theorem State.modPort_keep (s : State) (p : Nat) (f : Port → Port) : Keep s (State.modPort s p f) := by
  unfold State.modPort
  extract_lets +onlyGivenNames x1
  clear_value x1
  extract_lets +onlyGivenNames x2
  clear_value x2
  extract_lets +onlyGivenNames x3
  clear_value x3
  extract_lets +onlyGivenNames x4
  have k4 : Keep s (x4) := by
    dsimp only [x4]
    exact State.setPort_keep _ _ _
  clear_value x4
  refine Keep.ite ?_ ?_
  · assumption
  · refine Keep.trans ?_ (State.hubCount_keep _ _ _ _)
    exact Keep.trans ‹_› (State.hubCount_keep _ _ _ _)

theorem State.sendFrame_keep (s : State) (node : Nat) (b : FrameBody) : Keep s (State.sendFrame s node b) := by
  unfold State.sendFrame
  split
  · exact Keep.refl _
  · extract_lets +onlyGivenNames x1
    clear_value x1
    exact State.modPort_keep _ _ _

theorem State.sendTwin_keep (s : State) (b : FrameBody) : Keep s (State.sendTwin s b) := by
  unfold State.sendTwin
  extract_lets +onlyGivenNames x1
  clear_value x1
  exact State.modPort_keep _ _ _

theorem State.sendSignal_keep (s : State) (core e rec_ c node tid count : Nat) : Keep s (State.sendSignal s core e rec_ c node tid count) := by
  unfold State.sendSignal
  extract_lets +onlyGivenNames x1
  clear_value x1
  extract_lets +onlyGivenNames x2
  clear_value x2
  extract_lets +onlyGivenNames x3
  clear_value x3
  extract_lets +onlyGivenNames x4
  clear_value x4
  refine Keep.trans ?_ (State.sendFrame_keep _ _ _)
  exact State.modLinks_keep _ _

theorem State.openClaim_keep (s : State) (core e rec_ c node base len : Nat) (sigEn : Bool) (sigTid sigInc : Nat) : Keep s (State.openClaim s core e rec_ c node base len sigEn sigTid sigInc).1 := by
  unfold State.openClaim
  extract_lets +onlyGivenNames x1
  have k1 : Keep s (x1.2) := by
    dsimp only [x1]
    exact State.draw_keep _
  clear_value x1
  extract_lets +onlyGivenNames x2
  have k2 : Keep s (x2) := by
    dsimp only [x2]
    assumption
  clear_value x2
  extract_lets +onlyGivenNames x3
  clear_value x3
  extract_lets +onlyGivenNames x4
  clear_value x4
  extract_lets +onlyGivenNames x5
  clear_value x5
  dsimp only
  refine Keep.trans ?_ (State.sendFrame_keep _ _ _)
  exact Keep.trans ‹_› (State.modLinks_keep _ _)

/-! ### Machine/QueueOps.lean -/

theorem State.tokenEnd_keep (s : State) (c core e : Nat) : Keep s (State.tokenEnd s c core e) := by
  unfold State.tokenEnd
  extract_lets +onlyGivenNames x1
  clear_value x1
  split
  · exact Keep.refl _
  · refine Keep.trans ?_ (State.waitEnd_keep _ _ _ _ _ _ _ _ _ _ _)
    exact State.setQueue_keep _ _ _ _

theorem State.preWait_keep (s : State) (c core e : Nat) (ws : List W64) : Keep s (State.preWait s c core e ws) := by
  unfold State.preWait
  extract_lets +onlyGivenNames x1
  clear_value x1
  split
  · refine Keep.ite ?_ ?_
    · exact Keep.refl _
    · refine Keep.trans ?_ (State.waitBegin_keep _ _ _ _ _ _ _ _ _ _)
      exact State.setQueue_keep _ _ _ _
  · extract_lets +onlyGivenNames x2
    have k2 : Keep s (x2) := by
      dsimp only [x2]
      exact State.tokenEnd_keep _ _ _ _
    clear_value x2
    exact Keep.trans ‹_› (State.modQueue_keep _ _ _ _)

theorem State.issueRec_keep (s : State) (c core e : Nat) (ws : List W64) : Keep s (State.issueRec s c core e ws).1 := by
  unfold State.issueRec
  extract_lets +onlyGivenNames x1
  clear_value x1
  extract_lets +onlyGivenNames x2
  clear_value x2
  extract_lets +onlyGivenNames x3
  clear_value x3
  extract_lets +onlyGivenNames x4
  have k4 : Keep s (x4) := by
    dsimp only [x4]
    exact State.tokenEnd_keep _ _ _ _
  clear_value x4
  extract_lets +onlyGivenNames x5
  have k5 : Keep s (x5) := by
    dsimp only [x5]
    exact Keep.trans ‹_› (State.modCore_keep _ _ _)
  clear_value x5
  extract_lets +onlyGivenNames x6
  have k6 : Keep s (x6) := by
    dsimp only [x6]
    refine Keep.ite ?_ ?_
    · assumption
    · exact Keep.trans ‹_› (State.modCore_keep _ _ _)
  clear_value x6
  extract_lets +onlyGivenNames x7
  have k7 : Keep s (x7) := by
    dsimp only [x7]
    exact Keep.trans ‹_› (State.modCore_keep _ _ _)
  clear_value x7
  extract_lets +onlyGivenNames x8
  clear_value x8
  extract_lets +onlyGivenNames x9
  have k9 : Keep s (x9) := by
    dsimp only [x9]
    exact Keep.trans ‹_› (State.tail_keep _ _ _ _ _ _ _ _)
  clear_value x9
  extract_lets +onlyGivenNames x10
  have k10 : Keep s (x10) := by
    dsimp only [x10]
    refine Keep.ite ?_ ?_
    · exact Keep.trans ‹_› (State.modCore_keep _ _ _)
    · assumption
  clear_value x10
  extract_lets +onlyGivenNames x11
  have k11 : Keep s (x11) := by
    dsimp only [x11]
    exact Keep.trans ‹_› (State.modQueue_keep _ _ _ _)
  clear_value x11
  dsimp only
  assumption

theorem onRecord_keep (s : State) (core e opc : Nat) (ready : Nat → List W64 → State → Bool) (body : RecInfo → State → State) (h_body : ∀ (a : RecInfo) (a_1 : State), Keep a_1 (body a a_1)) : OutKeep s (onRecord s core e opc ready body) := by
  unfold onRecord
  refine OutKeep.ite ?_ ?_
  · split
    · refine OutKeep.next ?_
      exact Keep.refl _
    · extract_lets +onlyGivenNames x1
      clear_value x1
      refine OutKeep.ite ?_ ?_
      · refine OutKeep.next ?_
        exact Keep.refl _
      · refine OutKeep.ite ?_ ?_
        · refine OutKeep.next ?_
          exact State.recFault_keep _ _ _ _ _ _ _ _
        · split
          · refine OutKeep.next ?_
            exact Keep.refl _
          · extract_lets +onlyGivenNames x2
            clear_value x2
            extract_lets +onlyGivenNames x3
            clear_value x3
            refine OutKeep.ite ?_ ?_
            · refine OutKeep.next ?_
              exact State.recFault_keep _ _ _ _ _ _ _ _
            · refine OutKeep.ite ?_ ?_
              · refine OutKeep.next ?_
                exact Keep.refl _
              · refine OutKeep.ite ?_ ?_
                · refine OutKeep.next ?_
                  exact Keep.refl _
                · refine OutKeep.ite ?_ ?_
                  · refine OutKeep.next ?_
                    exact State.preWait_keep _ _ _ _ _
                  · refine OutKeep.ite ?_ ?_
                    · refine OutKeep.next ?_
                      exact State.recFault_keep _ _ _ _ _ _ _ _
                    · refine OutKeep.ite ?_ ?_
                      · refine OutKeep.next ?_
                        exact State.recFault_keep _ _ _ _ _ _ _ _
                      · refine OutKeep.ite ?_ ?_
                        · refine OutKeep.next ?_
                          exact Keep.refl _
                        · refine OutKeep.ite ?_ ?_
                          · refine OutKeep.next ?_
                            refine Keep.trans ?_ (State.rehalt_keep _ _)
                            refine Keep.trans ?_ (State.tail_keep _ _ _ _ _ _ _ _)
                            exact State.setQueue_keep _ _ _ _
                          · extract_lets +onlyGivenNames x4
                            have k4 : Keep s (x4.1) := by
                              dsimp only [x4]
                              exact State.issueRec_keep _ _ _ _ _
                            clear_value x4
                            refine OutKeep.next ?_
                            exact Keep.trans ‹_› (h_body _ _)
  · exact OutKeep.fault

theorem State.beginWait_keep (s : State) (r : RecInfo) (idx vid thr : Nat) : Keep s (State.beginWait s r idx vid thr).1 := by
  unfold State.beginWait
  split
  · dsimp only
    exact Keep.refl _
  · refine Keep.ite_fst ?_ ?_
    · extract_lets +onlyGivenNames x1
      clear_value x1
      dsimp only
      exact Keep.refl _
    · dsimp only
      refine Keep.upd ?_ rfl
      exact Keep.refl _

/-! ### Machine/QueueRec.lean -/

theorem execNopRec_keep (core eng : Nat) (s : State) : OutKeep s (execNopRec core eng s) := by
  unfold execNopRec
  refine onRecord_keep _ _ _ _ _ _ ?_
  intro x1
  intro x2
  exact State.retire_keep _ _ _ _

theorem execWaitRec_keep (core eng : Nat) (s : State) : OutKeep s (execWaitRec core eng s) := by
  unfold execWaitRec
  refine onRecord_keep _ _ _ _ _ _ ?_
  intro x1
  intro x2
  extract_lets +onlyGivenNames x3
  clear_value x3
  extract_lets +onlyGivenNames x4
  have k4 : Keep x2 (x4.1) := by
    dsimp only [x4]
    exact State.beginWait_keep _ _ _ _ _
  clear_value x4
  extract_lets +onlyGivenNames x5
  have k5 : Keep x2 (x5) := by
    dsimp only [x5]
    exact Keep.trans ‹_› (State.waitBegin_keep _ _ _ _ _ _ _ _ _ _)
  clear_value x5
  refine Keep.trans ?_ (State.progress_keep _ _ _)
  exact Keep.trans ‹_› (State.modQueue_keep _ _ _ _)

theorem State.signalSend_keep (s : State) (core e : Nat) (fl : Flight) : Keep s (State.signalSend s core e fl) := by
  unfold State.signalSend
  split
  · exact Keep.refl _
  · extract_lets +onlyGivenNames x1
    clear_value x1
    extract_lets +onlyGivenNames x2
    clear_value x2
    extract_lets +onlyGivenNames x3
    clear_value x3
    extract_lets +onlyGivenNames x4
    have k4 : Keep s (x4) := by
      dsimp only [x4]
      exact State.modQueue_keep _ _ _ _
    clear_value x4
    refine Keep.ite ?_ ?_
    · exact Keep.trans ‹_› (State.retire_keep _ _ _ _)
    · refine Keep.ite ?_ ?_
      · exact Keep.trans ‹_› (State.sendSignal_keep _ _ _ _ _ _ _ _)
      · split
        · assumption
        · exact Keep.trans ‹_› (State.sendTally_keep _ _)

theorem execSignalRec_keep (s : State) (core eng : Nat) : OutKeep s (execSignalRec core eng s) := by
  unfold execSignalRec
  refine onRecord_keep _ _ _ _ _ _ ?_
  intro x1
  intro x2
  extract_lets +onlyGivenNames x3
  clear_value x3
  split
  · exact Keep.refl _
  · refine Keep.ite ?_ ?_
    · extract_lets +onlyGivenNames x4
      have k4 : Keep x2 (x4) := by
        dsimp only [x4]
        exact State.modQueue_keep _ _ _ _
      clear_value x4
      exact Keep.trans ‹_› (State.farRelease_keep _ _ _ _ _)
    · exact State.signalSend_keep _ _ _ _

theorem execBarrierRec_keep (core eng : Nat) (s : State) : OutKeep s (execBarrierRec core eng s) := by
  unfold execBarrierRec
  extract_lets +onlyGivenNames x1
  clear_value x1
  extract_lets +onlyGivenNames x2
  clear_value x2
  refine onRecord_keep _ _ _ _ _ _ ?_
  intro x3
  intro x4
  extract_lets +onlyGivenNames x5
  clear_value x5
  extract_lets +onlyGivenNames x6
  have k6 : Keep x4 (x6.1) := by
    dsimp only [x6]
    refine Keep.foldl_fst ?_ ?_ _
    · dsimp only
      exact Keep.refl _
    · intro x7
      intro x8
      dsimp only
      refine Keep.trans ?_ (State.waitBegin_keep _ _ _ _ _ _ _ _ _ _)
      exact State.beginWait_keep _ _ _ _ _
  clear_value x6
  extract_lets +onlyGivenNames x9
  clear_value x9
  refine Keep.trans ?_ (State.progress_keep _ _ _)
  exact Keep.trans ‹_› (State.modQueue_keep _ _ _ _)

theorem execRebaseRec_keep (s : State) (core eng : Nat) : OutKeep s (execRebaseRec core eng s) := by
  unfold execRebaseRec
  refine onRecord_keep _ _ _ _ _ _ ?_
  intro x1
  intro x2
  extract_lets +onlyGivenNames x3
  clear_value x3
  extract_lets +onlyGivenNames x4
  clear_value x4
  extract_lets +onlyGivenNames y5 x5
  have k5 : Keep x2 (x5) := by
    dsimp only [x5, y5]
    split
    · refine Keep.trans ?_ (State.sendTally_keep _ _)
      exact State.modQueue_keep _ _ _ _
    · exact Keep.refl _
  clear_value x5 y5
  exact Keep.trans ‹_› (State.retire_keep _ _ _ _)

theorem State.enterLoop_keep (s : State) (core e id n : Nat) : Keep s (State.enterLoop s core e id n) := by
  unfold State.enterLoop
  extract_lets +onlyGivenNames x1
  clear_value x1
  split
  · exact Keep.refl _
  · refine Keep.trans ?_ (State.retire_keep _ _ _ _)
    exact State.setQueue_keep _ _ _ _

theorem execLoopRec_keep (core eng : Nat) (s : State) : OutKeep s (execLoopRec core eng s) := by
  unfold execLoopRec
  refine onRecord_keep _ _ _ _ _ _ ?_
  intro x1
  intro x2
  extract_lets +onlyGivenNames x3
  clear_value x3
  refine Keep.ite ?_ ?_
  · exact State.enterLoop_keep _ _ _ _ _
  · extract_lets +onlyGivenNames x4
    clear_value x4
    refine Keep.ite ?_ ?_
    · exact State.infoFault_keep _ _ _ _
    · exact State.modQueue_keep _ _ _ _

theorem execLoopCountRead_keep (core eng : Nat) (s : State) : OutKeep s (execLoopCountRead core eng s) := by
  unfold execLoopCountRead
  refine OutKeep.ite ?_ ?_
  · extract_lets +onlyGivenNames x1
    clear_value x1
    split
    · extract_lets +onlyGivenNames x2
      clear_value x2
      extract_lets +onlyGivenNames x3
      have k3 : Keep s (x3.1) := by
        dsimp only [x3]
        exact State.farRead_keep _ _ _
      clear_value x3
      split
      · refine OutKeep.next ?_
        exact Keep.trans ‹_› (State.flightFault_keep _ _ _ _ _ _)
      · refine OutKeep.next ?_
        exact Keep.trans ‹_› (State.enterLoop_keep _ _ _ _ _)
    · split
      · refine OutKeep.next ?_
        exact Keep.refl _
      · refine OutKeep.ite ?_ ?_
        · refine OutKeep.next ?_
          exact Keep.refl _
        · refine OutKeep.next ?_
          exact State.enterLoop_keep _ _ _ _ _
    · refine OutKeep.next ?_
      exact Keep.refl _
  · exact OutKeep.fault

theorem execPhaseRec_keep (core eng : Nat) (s : State) : OutKeep s (execPhaseRec core eng s) := by
  unfold execPhaseRec
  refine onRecord_keep _ _ _ _ _ _ ?_
  intro x1
  intro x2
  extract_lets +onlyGivenNames x3
  clear_value x3
  extract_lets +onlyGivenNames x4
  clear_value x4
  extract_lets +onlyGivenNames x5
  clear_value x5
  extract_lets +onlyGivenNames x6
  have k6 : Keep x2 (x6) := by
    dsimp only [x6]
    refine Keep.ite ?_ ?_
    · refine Keep.upd ?_ rfl
      exact Keep.refl _
    · exact Keep.refl _
  clear_value x6
  extract_lets +onlyGivenNames x7
  have k7 : Keep x2 (x7) := by
    dsimp only [x7]
    exact Keep.trans ‹_› (State.modCore_keep _ _ _)
  clear_value x7
  exact Keep.trans ‹_› (State.retire_keep _ _ _ _)

theorem State.powerSettle_keep (s : State) (core : Nat) : Keep s (State.powerSettle s core) := by
  unfold State.powerSettle
  refine Keep.foldl ?_ ?_ _
  · exact Keep.refl _
  · intro x1
    intro x2
    refine Keep.foldl ?_ ?_ _
    · exact Keep.refl _
    · intro x3
      intro x4
      exact State.retire_keep _ _ _ _

theorem State.stepBank_keep (s : State) (core bank : Nat) : Keep s (State.stepBank s core bank) := by
  unfold State.stepBank
  exact State.modSlab_keep _ _ _

theorem execPowerRec_keep (core eng : Nat) (s : State) : OutKeep s (execPowerRec core eng s) := by
  unfold execPowerRec
  refine onRecord_keep _ _ _ _ _ _ ?_
  intro x1
  intro x2
  extract_lets +onlyGivenNames x3
  clear_value x3
  extract_lets +onlyGivenNames x4
  clear_value x4
  extract_lets +onlyGivenNames x5
  have k5 : Keep x2 (x5) := by
    dsimp only [x5]
    exact State.modSlab_keep _ _ _
  clear_value x5
  refine Keep.trans ?_ (State.powerSettle_keep _ _)
  refine Keep.foldl ?_ ?_ _
  · assumption
  · intro x6
    intro x7
    exact State.stepBank_keep _ _ _

theorem execBankOff_keep (core bank : Nat) (s : State) : OutKeep s (execBankOff core bank s) := by
  unfold execBankOff
  refine OutKeep.ite ?_ ?_
  · extract_lets +onlyGivenNames x1
    clear_value x1
    refine OutKeep.ite ?_ ?_
    · refine OutKeep.next ?_
      refine Keep.trans ?_ (State.powerSettle_keep _ _)
      refine Keep.trans ?_ (State.stepBank_keep _ _ _)
      exact State.modSlab_keep _ _ _
    · refine OutKeep.next ?_
      exact Keep.refl _
  · exact OutKeep.fault

theorem execBankOn_keep (s : State) (core bank : Nat) : OutKeep s (execBankOn core bank s) := by
  unfold execBankOn
  refine OutKeep.ite ?_ ?_
  · refine OutKeep.ite ?_ ?_
    · refine OutKeep.next ?_
      refine Keep.trans ?_ (State.pumpMe_keep _ _)
      refine Keep.trans ?_ (State.powerSettle_keep _ _)
      refine Keep.trans ?_ (State.stepBank_keep _ _ _)
      exact State.modSlab_keep _ _ _
    · refine OutKeep.next ?_
      exact Keep.refl _
  · exact OutKeep.fault

theorem execClearFlags_keep (core eng : Nat) (s : State) : OutKeep s (execClearFlags core eng s) := by
  unfold execClearFlags
  refine onRecord_keep _ _ _ _ _ _ ?_
  intro x1
  intro x2
  refine Keep.trans ?_ (State.retire_keep _ _ _ _)
  exact State.modCore_keep _ _ _

theorem State.fenceEnd_keep (s : State) (core e c : Nat) (fl : Flight) : Keep s (State.fenceEnd s core e c fl) := by
  unfold State.fenceEnd
  extract_lets +onlyGivenNames x1
  clear_value x1
  extract_lets +onlyGivenNames x2
  have k2 : Keep s (x2) := by
    dsimp only [x2]
    refine Keep.ite ?_ ?_
    · exact State.modCore_keep _ _ _
    · exact Keep.refl _
  clear_value x2
  refine Keep.trans ?_ (State.retire_keep _ _ _ _)
  exact Keep.trans ‹_› (State.modQueue_keep _ _ _ _)

theorem State.fenceFop_keep (s : State) (core e c : Nat) (fl : Flight) : Keep s (State.fenceFop s core e c fl) := by
  unfold State.fenceFop
  extract_lets +onlyGivenNames x1
  clear_value x1
  extract_lets +onlyGivenNames x2
  clear_value x2
  refine Keep.ite ?_ ?_
  · exact State.fenceEnd_keep _ _ _ _ _
  · extract_lets +onlyGivenNames x3
    have k3 : Keep s (x3) := by
      dsimp only [x3]
      exact State.modQueue_keep _ _ _ _
    clear_value x3
    extract_lets +onlyGivenNames x4
    have k4 : Keep s (x4) := by
      dsimp only [x4]
      refine Keep.ite ?_ ?_
      · exact Keep.trans ‹_› (State.waitBegin_keep _ _ _ _ _ _ _ _ _ _)
      · assumption
    clear_value x4
    refine Keep.upd ?_ rfl
    assumption

theorem execFenceRec_keep (s : State) (core eng : Nat) : OutKeep s (execFenceRec core eng s) := by
  unfold execFenceRec
  refine onRecord_keep _ _ _ _ _ _ ?_
  intro x1
  intro x2
  extract_lets +onlyGivenNames x3
  clear_value x3
  extract_lets +onlyGivenNames x4
  clear_value x4
  extract_lets +onlyGivenNames x5
  clear_value x5
  extract_lets +onlyGivenNames x6
  clear_value x6
  refine Keep.ite ?_ ?_
  · exact State.infoFault_keep _ _ _ _
  · split
    · exact Keep.refl _
    · refine Keep.ite ?_ ?_
      · extract_lets +onlyGivenNames x7
        have k7 : Keep x2 (x7) := by
          dsimp only [x7]
          exact State.modQueue_keep _ _ _ _
        clear_value x7
        exact Keep.trans ‹_› (State.farRelease_keep _ _ _ _ _)
      · exact State.fenceFop_keep _ _ _ _ _

theorem execLaunchRec_keep (core eng : Nat) (s : State) : OutKeep s (execLaunchRec core eng s) := by
  unfold execLaunchRec
  refine onRecord_keep _ _ _ _ _ _ ?_
  intro x1
  intro x2
  extract_lets +onlyGivenNames x3
  clear_value x3
  extract_lets +onlyGivenNames x4
  clear_value x4
  extract_lets +onlyGivenNames x5
  have k5 : Keep x2 (x5) := by
    dsimp only [x5]
    exact State.modCore_keep _ _ _
  clear_value x5
  refine Keep.ite ?_ ?_
  · exact Keep.trans ‹_› (State.retire_keep _ _ _ _)
  · exact Keep.trans ‹_› (State.modCore_keep _ _ _)

theorem execRingFetch_keep (core eng : Nat) (hostOk : Bool) (hostData : List Byte) (s : State) : OutKeep s (execRingFetch core eng hostOk hostData s) := by
  unfold execRingFetch
  refine OutKeep.ite ?_ ?_
  · split
    · refine OutKeep.next ?_
      exact Keep.refl _
    · extract_lets +onlyGivenNames x1
      clear_value x1
      extract_lets +onlyGivenNames x2
      clear_value x2
      refine OutKeep.ite ?_ ?_
      · refine OutKeep.next ?_
        exact Keep.refl _
      · extract_lets +onlyGivenNames x3
        clear_value x3
        extract_lets +onlyGivenNames x4
        clear_value x4
        extract_lets +onlyGivenNames x5
        extract_lets +onlyGivenNames x6
        split
        · refine OutKeep.ite ?_ ?_
          · extract_lets +onlyGivenNames x7
            have k7 : Keep s (x7.1) := by
              dsimp only [x7]
              exact State.farRead_keep _ _ _
            clear_value x7
            split
            · refine OutKeep.next ?_
              exact Keep.trans ‹_› (State.recFault_keep _ _ _ _ _ _ _ _)
            · refine OutKeep.next ?_
              dsimp only [x5]
              exact Keep.trans ‹_› (State.setQueue_keep _ _ _ _)
          · dsimp only [x6]
            refine OutKeep.next ?_
            exact State.recFault_keep _ _ _ _ _ _ _ _
        · refine OutKeep.ite ?_ ?_
          · refine OutKeep.ite ?_ ?_
            · refine OutKeep.next ?_
              dsimp only [x5]
              exact State.setQueue_keep _ _ _ _
            · refine OutKeep.next ?_
              exact State.modCtx_keep _ _ _
          · dsimp only [x6]
            refine OutKeep.next ?_
            exact State.recFault_keep _ _ _ _ _ _ _ _
        · dsimp only [x6]
          refine OutKeep.next ?_
          exact State.recFault_keep _ _ _ _ _ _ _ _
  · exact OutKeep.fault

theorem execQueueCommit_keep (core eng : Nat) (s : State) : OutKeep s (execQueueCommit core eng s) := by
  unfold execQueueCommit
  refine OutKeep.ite ?_ ?_
  · refine OutKeep.next ?_
    exact State.modQueue_keep _ _ _ _
  · exact OutKeep.fault

theorem execQueueCommitEffect_keep (core eng : Nat) (s : State) : OutKeep s (execQueueCommitEffect core eng s) := by
  unfold execQueueCommitEffect
  refine OutKeep.ite ?_ ?_
  · extract_lets +onlyGivenNames x1
    clear_value x1
    refine OutKeep.ite ?_ ?_
    · refine OutKeep.next ?_
      exact State.setQueue_keep _ _ _ _
    · refine OutKeep.next ?_
      exact Keep.refl _
  · exact OutKeep.fault

theorem State.haltQueue_keep (s : State) (core e : Nat) (v : Bool) : Keep s (State.haltQueue s core e v) := by
  unfold State.haltQueue
  extract_lets +onlyGivenNames x1
  clear_value x1
  extract_lets +onlyGivenNames x2
  have k2 : Keep s (x2) := by
    dsimp only [x2]
    exact State.setQueue_keep _ _ _ _
  clear_value x2
  split
  · assumption
  · extract_lets +onlyGivenNames x3
    have k3 : Keep s (x3) := by
      dsimp only [x3]
      exact Keep.trans ‹_› (State.rehalt_keep _ _)
    clear_value x3
    refine Keep.ite ?_ ?_
    · exact Keep.trans ‹_› (State.tail_keep _ _ _ _ _ _ _ _)
    · assumption

theorem execHalt_keep (core eng : Nat) (value : Bool) (s : State) : OutKeep s (execHalt core eng value s) := by
  unfold execHalt
  refine OutKeep.ite ?_ ?_
  · refine OutKeep.next ?_
    exact State.haltQueue_keep _ _ _ _
  · exact OutKeep.fault

theorem execStepOne_keep (core eng : Nat) (s : State) : OutKeep s (execStepOne core eng s) := by
  unfold execStepOne
  refine OutKeep.ite ?_ ?_
  · extract_lets +onlyGivenNames x1
    clear_value x1
    refine OutKeep.ite ?_ ?_
    · refine OutKeep.next ?_
      refine Keep.trans ?_ (State.tail_keep _ _ _ _ _ _ _ _)
      exact State.setQueue_keep _ _ _ _
    · refine OutKeep.next ?_
      exact Keep.refl _
  · exact OutKeep.fault

theorem execBrkEn_keep (core eng : Nat) (value : Bool) (s : State) : OutKeep s (execBrkEn core eng value s) := by
  unfold execBrkEn
  refine OutKeep.ite ?_ ?_
  · refine OutKeep.next ?_
    exact State.modQueue_keep _ _ _ _
  · exact OutKeep.fault

/-! ### Machine/GangSync.lean -/

theorem execTsig_keep (g : GangAt) (f : TForm) (s : State) : OutKeep s (execTsig g f s) := by
  unfold execTsig
  refine onGang_keep _ _ _ _ _ _ _ ?_
  intro x1
  intro x2
  intro x3
  intro x4
  split
  · exact State.gangFault_keep _ _ _ _ _
  · extract_lets +onlyGivenNames x5
    clear_value x5
    extract_lets +onlyGivenNames x6
    have k6 : Keep x4 (x6) := by
      dsimp only [x6]
      exact State.setGang_keep _ _ _ _
    clear_value x6
    refine Keep.ite ?_ ?_
    · assumption
    · exact Keep.trans ‹_› (State.sendTally_keep _ _)

theorem execTwait_keep (g : GangAt) (f : TForm) (s : State) : OutKeep s (execTwait g f s) := by
  unfold execTwait
  refine onGangTry_keep _ _ _ _ _ _ _ ?_
  intro x1
  intro x2
  intro x3
  intro x4
  split
  · refine OptKeep.some ?_
    exact State.gangFault_keep _ _ _ _ _
  · extract_lets +onlyGivenNames x5
    clear_value x5
    extract_lets +onlyGivenNames x6
    clear_value x6
    extract_lets +onlyGivenNames x7
    clear_value x7
    refine OptKeep.ite ?_ ?_
    · exact OptKeep.none
    · refine OptKeep.ite ?_ ?_
      · refine OptKeep.some ?_
        exact State.setGang_keep _ _ _ _
      · extract_lets +onlyGivenNames x8
        have k8 : Keep x4 (x8) := by
          dsimp only [x8]
          exact State.tail_keep _ _ _ _ _ _ _ _
        clear_value x8
        extract_lets +onlyGivenNames x9
        have k9 : Keep x4 (x9) := by
          dsimp only [x9]
          exact Keep.trans ‹_› (State.setGang_keep _ _ _ _)
        clear_value x9
        refine OptKeep.ite ?_ ?_
        · refine OptKeep.some ?_
          assumption
        · refine OptKeep.some ?_
          refine Keep.upd ?_ rfl
          assumption

theorem execTread_keep (g : GangAt) (f : TForm) (s : State) : OutKeep s (execTread g f s) := by
  unfold execTread
  refine onGangTry_keep _ _ _ _ _ _ _ ?_
  intro x1
  intro x2
  intro x3
  intro x4
  split
  · refine OptKeep.some ?_
    exact State.gangFault_keep _ _ _ _ _
  · refine OptKeep.ite ?_ ?_
    · exact OptKeep.none
    · refine OptKeep.ite ?_ ?_
      · refine OptKeep.some ?_
        exact State.setGang_keep _ _ _ _
      · extract_lets +onlyGivenNames x5
        have k5 : Keep x4 (x5) := by
          dsimp only [x5]
          exact State.setGang_keep _ _ _ _
        clear_value x5
        refine OptKeep.some ?_
        refine Keep.upd ?_ rfl
        assumption

theorem execTreadReply_keep (k : Nat) (s : State) : OutKeep s (execTreadReply k s) := by
  unfold execTreadReply
  split
  · refine OutKeep.next ?_
    exact Keep.refl _
  · extract_lets +onlyGivenNames x1
    clear_value x1
    extract_lets +onlyGivenNames x2
    have k2 : Keep s (x2) := by
      dsimp only [x2]
      refine Keep.upd ?_ rfl
      exact Keep.refl _
    clear_value x2
    extract_lets +onlyGivenNames x3
    clear_value x3
    refine OutKeep.ite ?_ ?_
    · refine OutKeep.next ?_
      assumption
    · refine OutKeep.next ?_
      exact Keep.trans ‹_› (State.setGang_keep _ _ _ _)

theorem execFenceInsn_keep (s : State) (g : GangAt) (f : FForm) : OutKeep s (execFenceInsn g f s) := by
  unfold execFenceInsn
  refine onGangTry_keep _ _ _ _ _ _ _ ?_
  intro x1
  intro x2
  intro x3
  intro x4
  extract_lets +onlyGivenNames x5
  have k5 : Keep x4 (x5) := by
    dsimp only [x5]
    exact State.setGang_keep _ _ _ _
  clear_value x5
  refine OptKeep.ite ?_ ?_
  · exact OptKeep.none
  · refine OptKeep.ite ?_ ?_
    · refine OptKeep.some ?_
      assumption
    · refine OptKeep.ite ?_ ?_
      · refine OptKeep.some ?_
        exact Keep.trans ‹_› (State.modCore_keep _ _ _)
      · extract_lets +onlyGivenNames x6
        have k6 : Keep x4 (x6) := by
          dsimp only [x6]
          exact State.setGang_keep _ _ _ _
        clear_value x6
        refine OptKeep.some ?_
        exact Keep.trans ‹_› (State.farRelease_keep _ _ _ _ _)

theorem State.sendFobj_keep (s : State) (c : Nat) (who : Waiter) (a : Nat) (mx : Option Nat) : Keep s (State.sendFobj s c who a mx) := by
  unfold State.sendFobj
  refine Keep.upd ?_ rfl
  exact Keep.refl _

theorem execFsig_keep (s : State) (g : GangAt) (f : FForm) : OutKeep s (execFsig g f s) := by
  unfold execFsig
  refine onGangTry_keep _ _ _ _ _ _ _ ?_
  intro x1
  intro x2
  intro x3
  intro x4
  extract_lets +onlyGivenNames x5
  clear_value x5
  extract_lets +onlyGivenNames x6
  clear_value x6
  split
  · refine OptKeep.some ?_
    exact State.gangFault_keep _ _ _ _ _
  · refine OptKeep.ite ?_ ?_
    · exact OptKeep.none
    · extract_lets +onlyGivenNames x7
      have k7 : Keep x4 (x7) := by
        dsimp only [x7]
        exact State.setGang_keep _ _ _ _
      clear_value x7
      refine OptKeep.ite ?_ ?_
      · refine OptKeep.some ?_
        exact Keep.trans ‹_› (State.sendFobj_keep _ _ _ _ _)
      · refine OptKeep.some ?_
        exact Keep.trans ‹_› (State.farRelease_keep _ _ _ _ _)

theorem execFwait_keep (g : GangAt) (f : FForm) (s : State) : OutKeep s (execFwait g f s) := by
  unfold execFwait
  refine onGang_keep _ _ _ _ _ _ _ ?_
  intro x1
  intro x2
  intro x3
  intro x4
  extract_lets +onlyGivenNames x5
  clear_value x5
  extract_lets +onlyGivenNames x6
  clear_value x6
  extract_lets +onlyGivenNames x7
  clear_value x7
  split
  · exact State.gangFault_keep _ _ _ _ _
  · extract_lets +onlyGivenNames x8
    have k8 : Keep x4 (x8) := by
      dsimp only [x8]
      exact State.tail_keep _ _ _ _ _ _ _ _
    clear_value x8
    extract_lets +onlyGivenNames x9
    have k9 : Keep x4 (x9) := by
      dsimp only [x9]
      exact Keep.trans ‹_› (State.setGang_keep _ _ _ _)
    clear_value x9
    exact Keep.trans ‹_› (State.sendFobj_keep _ _ _ _ _)

theorem execFwaitPoll_keep (core slot : Nat) (s : State) : OutKeep s (execFwaitPoll core slot s) := by
  unfold execFwaitPoll
  refine OutKeep.ite ?_ ?_
  · split
    · refine OutKeep.next ?_
      exact Keep.refl _
    · refine OutKeep.ite ?_ ?_
      · extract_lets +onlyGivenNames x1
        clear_value x1
        split
        · refine OutKeep.next ?_
          refine Keep.trans ?_ (State.sendFobj_keep _ _ _ _ _)
          exact State.setGang_keep _ _ _ _
        · refine OutKeep.next ?_
          exact Keep.refl _
      · extract_lets +onlyGivenNames x2
        clear_value x2
        extract_lets +onlyGivenNames x3
        clear_value x3
        split
        · refine OutKeep.next ?_
          refine Keep.trans ?_ (State.sendFobj_keep _ _ _ _ _)
          exact State.setQueue_keep _ _ _ _
        · refine OutKeep.next ?_
          exact Keep.refl _
  · exact OutKeep.fault

theorem State.acquireAt_keep (s : State) (core c scope : Nat) : Keep s (State.acquireAt s core c scope) := by
  unfold State.acquireAt
  refine Keep.ite ?_ ?_
  · exact Keep.refl _
  · exact State.modCore_keep _ _ _

theorem State.fobjGang_keep (s : State) (core slot c v status : Nat) : Keep s (State.fobjGang s core slot c v status) := by
  unfold State.fobjGang
  extract_lets +onlyGivenNames x1
  clear_value x1
  split
  · exact State.setGang_keep _ _ _ _
  · refine Keep.ite ?_ ?_
    · extract_lets +onlyGivenNames x2
      clear_value x2
      refine Keep.trans ?_ (State.tail_keep _ _ _ _ _ _ _ _)
      refine Keep.trans ?_ (State.acquireAt_keep _ _ _ _)
      exact State.setGang_keep _ _ _ _
    · exact State.setGang_keep _ _ _ _
  · exact Keep.refl _

theorem State.waitExpired_keep (s : State) (c core e tag kind thr seen tally home : Nat) (fl : Flight) : Keep s (State.waitExpired s c core e tag kind thr seen tally home fl) := by
  unfold State.waitExpired
  extract_lets +onlyGivenNames x1
  have k1 : Keep s (x1) := by
    dsimp only [x1]
    exact State.waitEnd_keep _ _ _ _ _ _ _ _ _ _ _
  clear_value x1
  exact Keep.trans ‹_› (State.raise_keep _ _ _)

theorem State.fobjQueue_keep (s : State) (core e c v status : Nat) : Keep s (State.fobjQueue s core e c v status) := by
  unfold State.fobjQueue
  extract_lets +onlyGivenNames x1
  clear_value x1
  split
  · extract_lets +onlyGivenNames x2
    clear_value x2
    refine Keep.ite ?_ ?_
    · exact State.fenceEnd_keep _ _ _ _ _
    · refine Keep.ite ?_ ?_
      · refine Keep.trans ?_ (State.fenceEnd_keep _ _ _ _ _)
        exact State.waitEnd_keep _ _ _ _ _ _ _ _ _ _ _
      · refine Keep.ite ?_ ?_
        · exact State.waitExpired_keep _ _ _ _ _ _ _ _ _ _ _
        · exact State.setQueue_keep _ _ _ _
  · exact Keep.refl _

theorem execFenceObjectReply_keep (k : Nat) (s : State) : OutKeep s (execFenceObjectReply k s) := by
  unfold execFenceObjectReply
  split
  · refine OutKeep.next ?_
    exact Keep.refl _
  · extract_lets +onlyGivenNames x1
    clear_value x1
    extract_lets +onlyGivenNames x2
    have k2 : Keep s (x2) := by
      dsimp only [x2]
      refine Keep.upd ?_ rfl
      exact Keep.refl _
    clear_value x2
    extract_lets +onlyGivenNames x3
    have k3 : Keep s (x3.1) := by
      dsimp only [x3]
      exact Keep.trans ‹_› (State.farRead_keep _ _ _)
    clear_value x3
    split
    · refine OutKeep.ite ?_ ?_
      · refine OutKeep.next ?_
        exact Keep.trans ‹_› (State.gangFault_keep _ _ _ _ _)
      · refine OutKeep.next ?_
        exact Keep.trans ‹_› (State.flightFault_keep _ _ _ _ _ _)
    · extract_lets +onlyGivenNames x4
      clear_value x4
      extract_lets +onlyGivenNames x5
      clear_value x5
      extract_lets +onlyGivenNames x6
      have k6 : Keep s (x6) := by
        dsimp only [x6]
        split
        · exact Keep.trans ‹_› (State.farWrite_keep _ _ _)
        · assumption
      clear_value x6
      refine OutKeep.ite ?_ ?_
      · refine OutKeep.next ?_
        assumption
      · refine OutKeep.ite ?_ ?_
        · refine OutKeep.next ?_
          exact Keep.trans ‹_› (State.fobjGang_keep _ _ _ _ _ _)
        · refine OutKeep.next ?_
          exact Keep.trans ‹_› (State.fobjQueue_keep _ _ _ _ _ _)

theorem State.releaseDone_keep (s : State) (core : Nat) (r : FcRelease) : Keep s (State.releaseDone s core r) := by
  unfold State.releaseDone
  refine Keep.ite ?_ ?_
  · extract_lets +onlyGivenNames x1
    clear_value x1
    split
    · extract_lets +onlyGivenNames x2
      have k2 : Keep s (x2) := by
        dsimp only [x2]
        exact State.setGang_keep _ _ _ _
      clear_value x2
      refine Keep.ite ?_ ?_
      · exact Keep.trans ‹_› (State.acquireAt_keep _ _ _ _)
      · assumption
    · refine Keep.trans ?_ (State.sendFobj_keep _ _ _ _ _)
      exact State.setGang_keep _ _ _ _
    · exact Keep.refl _
  · extract_lets +onlyGivenNames x3
    clear_value x3
    split
    · exact State.fenceFop_keep _ _ _ _ _
    · split
      · exact State.signalSend_keep _ _ _ _
      · exact Keep.refl _

theorem execFarCacheReleaseDone_keep (core : Nat) (s : State) : OutKeep s (execFarCacheReleaseDone core s) := by
  unfold execFarCacheReleaseDone
  refine OutKeep.ite ?_ ?_
  · extract_lets +onlyGivenNames x1
    clear_value x1
    split
    · refine OutKeep.next ?_
      refine Keep.trans ?_ (State.releaseDone_keep _ _ _)
      exact State.modCore_keep _ _ _
    · refine OutKeep.next ?_
      exact Keep.refl _
  · exact OutKeep.fault

theorem execAlloc_keep (g : GangAt) (f : AForm) (s : State) : OutKeep s (execAlloc g f s) := by
  unfold execAlloc
  refine onGang_keep _ _ _ _ _ _ _ ?_
  intro x1
  intro x2
  intro x3
  intro x4
  extract_lets +onlyGivenNames x5
  clear_value x5
  refine Keep.ite ?_ ?_
  · exact State.setGang_keep _ _ _ _
  · extract_lets +onlyGivenNames x6
    have k6 : Keep x4 (x6) := by
      dsimp only [x6]
      exact State.setGang_keep _ _ _ _
    clear_value x6
    refine Keep.upd ?_ rfl
    assumption

theorem execAllocReply_keep (k : Nat) (s : State) : OutKeep s (execAllocReply k s) := by
  unfold execAllocReply
  split
  · refine OutKeep.next ?_
    exact Keep.refl _
  · extract_lets +onlyGivenNames x1
    clear_value x1
    extract_lets +onlyGivenNames x2
    have k2 : Keep s (x2) := by
      dsimp only [x2]
      refine Keep.upd ?_ rfl
      exact Keep.refl _
    extract_lets +onlyGivenNames x3
    extract_lets +onlyGivenNames x4
    refine OutKeep.ite ?_ ?_
    · refine OutKeep.next ?_
      assumption
    · extract_lets +onlyGivenNames x5
      have k5 : Keep s (x5.2) := by
        dsimp only [x5]
        exact Keep.trans ‹_› (State.draw_keep _)
      clear_value x5
      extract_lets +onlyGivenNames x6
      have k6 : Keep s (x6) := by
        dsimp only [x6]
        assumption
      clear_value x6
      extract_lets +onlyGivenNames x7
      clear_value x7
      refine OutKeep.next ?_
      refine Keep.trans ?_ (State.setGang_keep _ _ _ _)
      exact Keep.trans ‹_› (State.setCtx_keep _ _ _)

theorem execFree_keep (g : GangAt) (f : AForm) (s : State) : OutKeep s (execFree g f s) := by
  unfold execFree
  refine onGang_keep _ _ _ _ _ _ _ ?_
  intro x1
  intro x2
  intro x3
  intro x4
  extract_lets +onlyGivenNames x5
  clear_value x5
  extract_lets +onlyGivenNames x6
  have k6 : Keep x4 (x6) := by
    dsimp only [x6]
    exact State.setGang_keep _ _ _ _
  clear_value x6
  refine Keep.ite ?_ ?_
  · assumption
  · exact Keep.trans ‹_› (State.modCtx_keep _ _ _)

theorem State.remoteAdd_keep (s : State) (c vid n : Nat) : Keep s (State.remoteAdd s c vid n) := by
  unfold State.remoteAdd
  extract_lets +onlyGivenNames x1
  clear_value x1
  extract_lets +onlyGivenNames y2 x2
  have k2 : Keep s (x2) := by
    dsimp only [x2, y2]
    refine Keep.upd ?_ rfl
    exact Keep.refl _
  clear_value x2 y2
  split
  · assumption
  · refine Keep.ite ?_ ?_
    · assumption
    · refine Keep.ite ?_ ?_
      · exact State.sendTally_keep _ _
      · refine Keep.ite ?_ ?_
        · extract_lets +onlyGivenNames x3
          clear_value x3
          extract_lets +onlyGivenNames x4
          have k4 : Keep s (x4.1) := by
            dsimp only [x4]
            exact State.farRead_keep _ _ _
          clear_value x4
          split
          · exact Keep.trans ‹_› (State.raise_keep _ _ _)
          · extract_lets +onlyGivenNames x5
            clear_value x5
            extract_lets +onlyGivenNames x6
            have k6 : Keep s (x6) := by
              dsimp only [x6]
              exact Keep.trans ‹_› (State.farWrite_keep _ _ _)
            clear_value x6
            refine Keep.ite ?_ ?_
            · exact Keep.trans ‹_› (State.raise_keep _ _ _)
            · assumption
        · assumption

theorem State.remoteLate_keep (s : State) (m : TallyMsg) : Keep s (State.remoteLate s m) := by
  unfold State.remoteLate
  split
  · exact State.remoteAdd_keep _ _ _ _
  · exact Keep.refl _

theorem execTallyOperation_keep (s : State) (k : Nat) : OutKeep s (execTallyOperation k s) := by
  unfold execTallyOperation
  split
  · refine OutKeep.next ?_
    exact Keep.refl _
  · refine OutKeep.ite ?_ ?_
    · refine OutKeep.next ?_
      exact Keep.refl _
    · extract_lets +onlyGivenNames y1 x1
      have k1 : Keep s (x1) := by
        dsimp only [x1, y1]
        refine Keep.upd ?_ rfl
        exact Keep.refl _
      clear_value x1 y1
      refine OutKeep.ite ?_ ?_
      · refine OutKeep.next ?_
        exact Keep.trans ‹_› (State.remoteLate_keep _ _)
      · refine OutKeep.ite ?_ ?_
        · refine OutKeep.next ?_
          assumption
        · extract_lets +onlyGivenNames x2
          have k2 : Keep s (x2) := by
            dsimp only [x2]
            split
            · exact Keep.trans ‹_› (State.addTally_keep _ _ _)
            · refine Keep.trans ?_ (State.modQueue_keep _ _ _ _)
              exact Keep.trans ‹_› (State.rebaseTally_keep _ _ _ _)
          clear_value x2
          extract_lets +onlyGivenNames x3
          have k3 : Keep s (x3) := by
            dsimp only [x3]
            refine Keep.ite ?_ ?_
            · exact Keep.trans ‹_› (State.hubCount_keep _ _ _ _)
            · exact Keep.trans ‹_› (State.count_keep _ _ _ _)
          clear_value x3
          extract_lets +onlyGivenNames x4
          have k4 : Keep s (x4) := by
            dsimp only [x4]
            refine Keep.trans ?_ (State.pokeLocal_keep _ _)
            exact Keep.trans ‹_› (State.fire_keep _ _)
          clear_value x4
          split
          · refine OutKeep.next ?_
            exact Keep.trans ‹_› (State.retire_keep _ _ _ _)
          · refine OutKeep.next ?_
            assumption

theorem execWatch_keep (k : Nat) (s : State) : OutKeep s (execWatch k s) := by
  unfold execWatch
  split
  · refine OutKeep.next ?_
    exact Keep.refl _
  · refine OutKeep.ite ?_ ?_
    · refine OutKeep.next ?_
      exact Keep.refl _
    · extract_lets +onlyGivenNames x1
      clear_value x1
      extract_lets +onlyGivenNames x2
      have k2 : Keep s (x2) := by
        dsimp only [x2]
        refine Keep.upd ?_ rfl
        exact Keep.refl _
      clear_value x2
      refine OutKeep.ite ?_ ?_
      · refine OutKeep.next ?_
        assumption
      · refine OutKeep.ite ?_ ?_
        · refine OutKeep.next ?_
          refine Keep.upd ?_ rfl
          assumption
        · refine OutKeep.ite ?_ ?_
          · extract_lets +onlyGivenNames x3
            clear_value x3
            extract_lets +onlyGivenNames x4
            have k4 : Keep s (x4) := by
              dsimp only [x4]
              refine Keep.upd ?_ rfl
              assumption
            clear_value x4
            refine OutKeep.ite ?_ ?_
            · refine OutKeep.next ?_
              refine Keep.trans ?_ (State.hubCount_keep _ _ _ _)
              refine Keep.trans ?_ (State.tail_keep _ _ _ _ _ _ _ _)
              refine Keep.upd ?_ rfl
              assumption
            · refine OutKeep.next ?_
              refine Keep.trans ?_ (State.count_keep _ _ _ _)
              exact Keep.trans ‹_› (State.modCore_keep _ _ _)
          · refine OutKeep.next ?_
            exact Keep.trans ‹_› (State.setWatches_keep _ _ _)

theorem execWatchRetry_keep (k : Nat) (s : State) : OutKeep s (execWatchRetry k s) := by
  unfold execWatchRetry
  split
  · refine OutKeep.next ?_
    exact Keep.refl _
  · refine OutKeep.next ?_
    refine Keep.upd ?_ rfl
    exact Keep.refl _

theorem execWake_keep (k : Nat) (s : State) : OutKeep s (execWake k s) := by
  unfold execWake
  split
  · refine OutKeep.next ?_
    exact Keep.refl _
  · extract_lets +onlyGivenNames x1
    clear_value x1
    extract_lets +onlyGivenNames x2
    have k2 : Keep s (x2) := by
      dsimp only [x2]
      refine Keep.upd ?_ rfl
      exact Keep.refl _
    clear_value x2
    extract_lets +onlyGivenNames x3
    clear_value x3
    refine OutKeep.ite ?_ ?_
    · refine OutKeep.next ?_
      assumption
    · refine OutKeep.ite ?_ ?_
      · extract_lets +onlyGivenNames x4
        clear_value x4
        split
        · refine OutKeep.ite ?_ ?_
          · refine OutKeep.next ?_
            refine Keep.trans ?_ (State.tail_keep _ _ _ _ _ _ _ _)
            exact Keep.trans ‹_› (State.setGang_keep _ _ _ _)
          · refine OutKeep.next ?_
            assumption
        · refine OutKeep.next ?_
          assumption
      · extract_lets +onlyGivenNames x5
        clear_value x5
        extract_lets +onlyGivenNames x6
        clear_value x6
        refine OutKeep.ite ?_ ?_
        · extract_lets +onlyGivenNames x7
          clear_value x7
          refine OutKeep.next ?_
          refine Keep.trans ?_ (State.progress_keep _ _ _)
          exact Keep.trans ‹_› (State.setQueue_keep _ _ _ _)
        · refine OutKeep.next ?_
          assumption

theorem execTokenArrival_keep (k : Nat) (s : State) : OutKeep s (execTokenArrival k s) := by
  unfold execTokenArrival
  split
  · refine OutKeep.next ?_
    exact Keep.refl _
  · extract_lets +onlyGivenNames x1
    clear_value x1
    extract_lets +onlyGivenNames x2
    have k2 : Keep s (x2) := by
      dsimp only [x2]
      refine Keep.upd ?_ rfl
      exact Keep.refl _
    clear_value x2
    refine OutKeep.ite ?_ ?_
    · refine OutKeep.next ?_
      assumption
    · refine OutKeep.next ?_
      exact Keep.trans ‹_› (State.addToken_keep _ _ _ _ _ _)

theorem State.setUnit_keep (s : State) (u : Nat) (b : BarUnit) : Keep s (State.setUnit s u b) := by
  unfold State.setUnit
  refine Keep.upd ?_ rfl
  exact Keep.refl _

theorem State.barTail_keep (s : State) (u qid code gen : Nat) : Keep s (State.barTail s u qid code gen) := by
  unfold State.barTail
  exact State.tail_keep _ _ _ _ _ _ _ _

theorem State.fillUnit_keep (s : State) (u : Nat) : Keep s (State.fillUnit s u) := by
  unfold State.fillUnit
  extract_lets +onlyGivenNames x1
  clear_value x1
  refine Keep.ite ?_ ?_
  · extract_lets +onlyGivenNames x2
    have k2 : Keep s (x2) := by
      dsimp only [x2]
      exact State.setUnit_keep _ _ _
    clear_value x2
    extract_lets +onlyGivenNames x3
    have k3 : Keep s (x3) := by
      dsimp only [x3]
      refine Keep.foldl ?_ ?_ _
      · assumption
      · intro x4
        intro x5
        exact State.barTail_keep _ _ _ _ _
    clear_value x3
    refine Keep.upd ?_ rfl
    assumption
  · exact Keep.refl _

theorem State.arrive_keep (s : State) (u qid : Nat) : Keep s (State.arrive s u qid) := by
  unfold State.arrive
  extract_lets +onlyGivenNames x1
  clear_value x1
  refine Keep.ite ?_ ?_
  · refine Keep.trans ?_ (State.fillUnit_keep _ _)
    refine Keep.trans ?_ (State.barTail_keep _ _ _ _ _)
    exact State.setUnit_keep _ _ _
  · refine Keep.ite ?_ ?_
    · refine Keep.trans ?_ (State.barTail_keep _ _ _ _ _)
      exact State.setUnit_keep _ _ _
    · refine Keep.trans ?_ (State.hubCount_keep _ _ _ _)
      refine Keep.trans ?_ (State.barTail_keep _ _ _ _ _)
      exact State.setUnit_keep _ _ _

theorem execBarrierArrival_keep (k : Nat) (s : State) : OutKeep s (execBarrierArrival k s) := by
  unfold execBarrierArrival
  split
  · refine OutKeep.next ?_
    exact Keep.refl _
  · extract_lets +onlyGivenNames x1
    clear_value x1
    extract_lets +onlyGivenNames x2
    have k2 : Keep s (x2) := by
      dsimp only [x2]
      refine Keep.upd ?_ rfl
      exact Keep.refl _
    clear_value x2
    refine OutKeep.ite ?_ ?_
    · refine OutKeep.next ?_
      assumption
    · refine OutKeep.next ?_
      refine Keep.trans ?_ (State.hubCount_keep _ _ _ _)
      exact Keep.trans ‹_› (State.arrive_keep _ _ _)

theorem State.closeUnit_keep (s : State) (u : Nat) : Keep s (State.closeUnit s u) := by
  unfold State.closeUnit
  extract_lets +onlyGivenNames x1
  clear_value x1
  refine Keep.ite ?_ ?_
  · refine Keep.trans ?_ (State.fillUnit_keep _ _)
    exact State.setUnit_keep _ _ _
  · exact Keep.refl _

theorem execBarrierRelease_keep (k : Nat) (s : State) : OutKeep s (execBarrierRelease k s) := by
  unfold execBarrierRelease
  split
  · refine OutKeep.next ?_
    exact Keep.refl _
  · extract_lets +onlyGivenNames x1
    clear_value x1
    extract_lets +onlyGivenNames x2
    have k2 : Keep s (x2) := by
      dsimp only [x2]
      refine Keep.upd ?_ rfl
      exact Keep.refl _
    clear_value x2
    refine OutKeep.ite ?_ ?_
    · refine OutKeep.next ?_
      assumption
    · extract_lets +onlyGivenNames x3
      clear_value x3
      extract_lets +onlyGivenNames x4
      clear_value x4
      extract_lets +onlyGivenNames x5
      clear_value x5
      extract_lets +onlyGivenNames x6
      have k6 : Keep s (x6) := by
        dsimp only [x6]
        exact Keep.trans ‹_› (State.setUnit_keep _ _ _)
      clear_value x6
      extract_lets +onlyGivenNames x7
      clear_value x7
      extract_lets +onlyGivenNames x8
      have k8 : Keep s (x8) := by
        dsimp only [x8]
        split
        · refine Keep.ite ?_ ?_
          · refine Keep.trans ?_ (State.retire_keep _ _ _ _)
            refine Keep.trans ?_ (State.waitEnd_keep _ _ _ _ _ _ _ _ _ _ _)
            exact Keep.trans ‹_› (State.setQueue_keep _ _ _ _)
          · assumption
        · assumption
      clear_value x8
      refine OutKeep.next ?_
      exact Keep.trans ‹_› (State.closeUnit_keep _ _)

theorem State.gangExpired_keep (s : State) (c core slot tag kind thr seen home : Nat) : Keep s (State.gangExpired s c core slot tag kind thr seen home) := by
  unfold State.gangExpired
  extract_lets +onlyGivenNames x1
  clear_value x1
  extract_lets +onlyGivenNames x2
  clear_value x2
  extract_lets +onlyGivenNames x3
  have k3 : Keep s (x3) := by
    dsimp only [x3]
    exact State.tail_keep _ _ _ _ _ _ _ _
  clear_value x3
  exact Keep.trans ‹_› (State.raise_keep _ _ _)

theorem execSyncTimeout_keep (core unit now : Nat) (s : State) : OutKeep s (execSyncTimeout core unit now s) := by
  unfold execSyncTimeout
  refine OutKeep.ite ?_ ?_
  · extract_lets +onlyGivenNames x1
    have k1 : Keep s (x1) := by
      dsimp only [x1]
      exact State.advanceTo_keep _ _
    clear_value x1
    split
    · refine OutKeep.next ?_
      assumption
    · refine OutKeep.ite ?_ ?_
      · split
        · refine OutKeep.ite ?_ ?_
          · extract_lets +onlyGivenNames x2
            clear_value x2
            refine OutKeep.next ?_
            exact Keep.trans ‹_› (State.gangExpired_keep _ _ _ _ _ _ _ _ _)
          · refine OutKeep.next ?_
            assumption
        · refine OutKeep.ite ?_ ?_
          · refine OutKeep.next ?_
            exact Keep.trans ‹_› (State.gangExpired_keep _ _ _ _ _ _ _ _ _)
          · refine OutKeep.next ?_
            assumption
        · refine OutKeep.next ?_
          assumption
      · split
        · refine OutKeep.next ?_
          exact Keep.trans ‹_› (State.waitExpired_keep _ _ _ _ _ _ _ _ _ _ _)
        · refine OutKeep.next ?_
          assumption
  · exact OutKeep.fault

/-! ### Machine/MoveOps.lean -/

theorem State.pumpMoves_keep (s : State) (core e : Nat) : Keep s (State.pumpMoves s core e) := by
  unfold State.pumpMoves
  extract_lets +onlyGivenNames x1
  clear_value x1
  refine Keep.ite ?_ ?_
  · exact Keep.refl _
  · extract_lets +onlyGivenNames x2
    clear_value x2
    extract_lets +onlyGivenNames x3
    clear_value x3
    exact State.modCore_keep _ _ _

theorem State.modRec_keep (s : State) (core e id : Nat) (f : MvRec → MvRec) : Keep s (State.modRec s core e id f) := by
  unfold State.modRec
  exact State.modCore_keep _ _ _

theorem State.modReq_keep (s : State) (core e id req : Nat) (f : MvReq → MvReq) : Keep s (State.modReq s core e id req f) := by
  unfold State.modReq
  exact State.modRec_keep _ _ _ _ _

theorem State.moveRetire_keep (s : State) (c core e : Nat) (r : MvRec) : Keep s (State.moveRetire s c core e r) := by
  unfold State.moveRetire
  extract_lets +onlyGivenNames x1
  have k1 : Keep s (x1) := by
    dsimp only [x1]
    exact State.modCore_keep _ _ _
  clear_value x1
  extract_lets +onlyGivenNames x2
  clear_value x2
  extract_lets +onlyGivenNames x3
  have k3 : Keep s (x3) := by
    dsimp only [x3]
    refine Keep.ite ?_ ?_
    · split
      · assumption
      · exact Keep.trans ‹_› (State.sendTally_keep _ _)
    · assumption
  clear_value x3
  exact Keep.trans ‹_› (State.retire_keep _ _ _ _)

theorem State.moveStep_keep (s : State) (core e id : Nat) : Keep s (State.moveStep s core e id) := by
  unfold State.moveStep
  split
  · exact Keep.refl _
  · extract_lets +onlyGivenNames x1
    have k1 : Keep s (x1) := by
      dsimp only [x1]
      split
      · refine Keep.ite ?_ ?_
        · exact State.moveRetire_keep _ _ _ _ _
        · exact Keep.refl _
      · exact Keep.refl _
    clear_value x1
    exact Keep.trans ‹_› (State.pumpMoves_keep _ _ _)

theorem State.completeReq_keep (s : State) (core e id req : Nat) : Keep s (State.completeReq s core e id req) := by
  unfold State.completeReq
  refine Keep.trans ?_ (State.moveStep_keep _ _ _ _)
  exact State.modRec_keep _ _ _ _ _

theorem State.failReq_keep (s : State) (core e id req : Nat) : Keep s (State.failReq s core e id req) := by
  unfold State.failReq
  exact State.modRec_keep _ _ _ _ _

theorem State.readFar_keep (s : State) (a n : Nat) : Keep s (State.readFar s a n).1 := by
  unfold State.readFar
  refine Keep.foldl_fst ?_ ?_ _
  · dsimp only
    exact Keep.refl _
  · intro x1
    intro x2
    extract_lets +onlyGivenNames x3
    clear_value x3
    extract_lets +onlyGivenNames x4
    clear_value x4
    refine Keep.ite_fst ?_ ?_
    · dsimp only
      exact Keep.refl _
    · extract_lets +onlyGivenNames x5
      have k5 : Keep x1.fst (x5.1) := by
        dsimp only [x5]
        exact State.touchBlock_keep _ _
      clear_value x5
      refine Keep.ite_fst ?_ ?_
      · dsimp only
        assumption
      · dsimp only
        assumption

theorem State.slabPieces_keep (s : State) (core slab off : Nat) (ps : Pieces) : Keep s (State.slabPieces s core slab off ps).1 := by
  unfold State.slabPieces
  dsimp only
  exact State.modCore_keep _ _ _

theorem State.farPieces_keep (s : State) (a : Nat) (ps : Pieces) : Keep s (State.farPieces s a ps).1 := by
  unfold State.farPieces
  refine Keep.foldl_fst ?_ ?_ _
  · dsimp only
    exact Keep.refl _
  · intro x1
    intro x2
    refine Keep.ite_fst ?_ ?_
    · exact Keep.refl _
    · extract_lets +onlyGivenNames x3
      have k3 : Keep x1.fst (x3.1) := by
        dsimp only [x3]
        exact State.farWrite_keep _ _ _
      clear_value x3
      assumption

theorem State.takeSlot_keep (s : State) (core e : Nat) (q : MvReq) (a : MvSlot) : Keep s (State.takeSlot s core e q a) := by
  unfold State.takeSlot
  split
  · refine Keep.trans ?_ (State.count_keep _ _ _ _)
    exact State.modSlab_keep _ _ _
  · refine Keep.trans ?_ (State.modCore_keep _ _ _)
    refine Keep.trans ?_ (State.count_keep _ _ _ _)
    exact State.modSlab_keep _ _ _
  · exact Keep.refl _

theorem State.emptySlot_keep (s : State) (core e : Nat) : Keep s (State.emptySlot s core e) := by
  unfold State.emptySlot
  exact State.modCore_keep _ _ _

theorem State.fallBack_keep (s : State) (c core e : Nat) (r : MvRec) (q : MvReq) : Keep s (State.fallBack s c core e r q) := by
  unfold State.fallBack
  extract_lets +onlyGivenNames x1
  clear_value x1
  extract_lets +onlyGivenNames x2
  have k2 : Keep s (x2) := by
    dsimp only [x2]
    exact State.modReq_keep _ _ _ _ _ _
  clear_value x2
  extract_lets +onlyGivenNames x3
  have k3 : Keep s (x3) := by
    dsimp only [x3]
    exact Keep.trans ‹_› (State.modCore_keep _ _ _)
  clear_value x3
  split
  · exact Keep.trans ‹_› (State.tail_keep _ _ _ _ _ _ _ _)
  · assumption

theorem State.setOut_keep (s : State) (core e id band slab v : Nat) : Keep s (State.setOut s core e id band slab v) := by
  unfold State.setOut
  exact State.modRec_keep _ _ _ _ _

theorem State.dropBand_keep (s : State) (core e id band : Nat) : Keep s (State.dropBand s core e id band) := by
  unfold State.dropBand
  exact State.modRec_keep _ _ _ _ _

theorem State.bandDone_keep (s : State) (core e id band : Nat) : Keep s (State.bandDone s core e id band) := by
  unfold State.bandDone
  split
  · exact Keep.refl _
  · extract_lets +onlyGivenNames x1
    clear_value x1
    refine Keep.ite ?_ ?_
    · refine Keep.trans ?_ (State.moveStep_keep _ _ _ _)
      exact State.dropBand_keep _ _ _ _ _
    · exact Keep.refl _

theorem State.bandFault_keep (s : State) (core e : Nat) (r : MvRec) (band : Nat) (cause : Cause) : Keep s (State.bandFault s core e r band cause) := by
  unfold State.bandFault
  refine Keep.trans ?_ (State.modRec_keep _ _ _ _ _)
  refine Keep.trans ?_ (State.dropBand_keep _ _ _ _ _)
  exact State.flightFault_keep _ _ _ _ _ _

theorem State.writeOut_keep (s : State) (c core e : Nat) (r : MvRec) (band home u : Nat) (ps : Pieces) : Keep s (State.writeOut s c core e r band home u ps).1 := by
  unfold State.writeOut
  extract_lets +onlyGivenNames x1
  clear_value x1
  extract_lets +onlyGivenNames x2
  clear_value x2
  refine Keep.ite_fst ?_ ?_
  · dsimp only
    exact Keep.refl _
  · refine Keep.ite_fst ?_ ?_
    · refine Keep.ite_fst ?_ ?_
      · dsimp only
        exact Keep.refl _
      · refine Keep.ite_fst ?_ ?_
        · dsimp only
          refine Keep.trans ?_ (State.setOut_keep _ _ _ _ _ _ _)
          exact State.modSlab_keep _ _ _
        · dsimp only
          refine Keep.trans ?_ (State.modCore_keep _ _ _)
          exact State.setOut_keep _ _ _ _ _ _ _
    · extract_lets +onlyGivenNames x3
      have k3 : Keep s (x3.1) := by
        dsimp only [x3]
        exact State.slabPieces_keep _ _ _ _ _
      clear_value x3
      dsimp only
      exact Keep.trans ‹_› (State.setOut_keep _ _ _ _ _ _ _)

theorem State.moveToSlab_keep (s : State) (c core e : Nat) (r : MvRec) (q : MvReq) (home off : Nat) (ps : Pieces) : Keep s (State.moveToSlab s c core e r q home off ps) := by
  unfold State.moveToSlab
  extract_lets +onlyGivenNames x1
  clear_value x1
  extract_lets +onlyGivenNames x2
  clear_value x2
  extract_lets +onlyGivenNames x3
  have k3 : ∀ (cause : Cause) (s : State), Keep s (x3 cause s) := by
    intro x4
    intro x5
    dsimp only [x3]
    refine Keep.trans ?_ (State.failReq_keep _ _ _ _ _)
    exact State.flightFault_keep _ _ _ _ _ _
  clear_value x3
  extract_lets +onlyGivenNames x6
  have k6 : Keep s (x6) := by
    dsimp only [x6]
    exact State.modSlab_keep _ _ _
  clear_value x6
  extract_lets +onlyGivenNames x7
  have k7 : Keep s (x7) := by
    dsimp only [x7]
    exact Keep.trans ‹_› (State.modReq_keep _ _ _ _ _ _)
  clear_value x7
  split
  · exact k3 _ _
  · exact k3 _ _
  · refine Keep.ite ?_ ?_
    · exact Keep.refl _
    · refine Keep.ite ?_ ?_
      · assumption
      · refine Keep.ite ?_ ?_
        · exact State.fallBack_keep _ _ _ _ _ _
        · exact State.emptySlot_keep _ _ _
  · refine Keep.ite ?_ ?_
    · extract_lets +onlyGivenNames x8
      have k8 : Keep s (x8.1) := by
        dsimp only [x8]
        exact State.slabPieces_keep _ _ _ _ _
      clear_value x8
      refine Keep.ite ?_ ?_
      · exact Keep.trans ‹_› (State.completeReq_keep _ _ _ _ _)
      · exact Keep.trans ‹_› (k3 _ _)
    · refine Keep.ite ?_ ?_
      · assumption
      · exact State.emptySlot_keep _ _ _

theorem State.moveDeliver_keep (s : State) (c core e : Nat) (r : MvRec) (q : MvReq) (ps : Pieces) : Keep s (State.moveDeliver s c core e r q ps) := by
  unfold State.moveDeliver
  split
  · exact State.moveToSlab_keep _ _ _ _ _ _ _ _ _
  · refine Keep.trans ?_ (State.modReq_keep _ _ _ _ _ _)
    refine Keep.foldl ?_ ?_ _
    · exact Keep.refl _
    · intro x1
      intro x2
      exact State.hostWrite_keep _ _ _
  · extract_lets +onlyGivenNames x3
    have k3 : Keep s (x3.1) := by
      dsimp only [x3]
      exact State.farPieces_keep _ _ _
    clear_value x3
    refine Keep.ite ?_ ?_
    · exact Keep.trans ‹_› (State.completeReq_keep _ _ _ _ _)
    · refine Keep.trans ?_ (State.failReq_keep _ _ _ _ _)
      exact Keep.trans ‹_› (State.flightFault_keep _ _ _ _ _ _)

theorem State.writeBand_keep (s : State) (c core e : Nat) (r : MvRec) (band : Nat) : Keep s (State.writeBand s c core e r band) := by
  unfold State.writeBand
  extract_lets +onlyGivenNames x1
  clear_value x1
  extract_lets +onlyGivenNames x2
  clear_value x2
  split
  · refine Keep.ite ?_ ?_
    · exact State.pumpMoves_keep _ _ _
    · refine Keep.ite ?_ ?_
      · exact Keep.refl _
      · extract_lets +onlyGivenNames x3
        clear_value x3
        extract_lets +onlyGivenNames x4
        clear_value x4
        extract_lets +onlyGivenNames x5
        clear_value x5
        extract_lets +onlyGivenNames x6
        clear_value x6
        extract_lets +onlyGivenNames x7
        clear_value x7
        refine Keep.ite ?_ ?_
        · exact State.bandFault_keep _ _ _ _ _ _
        · extract_lets +onlyGivenNames x8
          have k8 : Keep s (x8.1) := by
            dsimp only [x8]
            refine Keep.foldl_fst ?_ ?_ _
            · dsimp only
              exact Keep.refl _
            · intro x9
              intro x10
              dsimp only
              exact State.writeOut_keep _ _ _ _ _ _ _ _ _
          clear_value x8
          refine Keep.ite ?_ ?_
          · exact Keep.trans ‹_› (State.bandDone_keep _ _ _ _ _)
          · exact Keep.trans ‹_› (State.bandFault_keep _ _ _ _ _ _)
  · exact Keep.refl _

theorem State.modClaim_keep (s : State) (node id : Nat) (f : DstClaim → DstClaim) : Keep s (State.modClaim s node id f) := by
  unfold State.modClaim
  exact State.modLinks_keep _ _

theorem State.claimFinal_keep (s : State) (d : DstClaim) (idx : Nat) : Keep s (State.claimFinal s d idx) := by
  unfold State.claimFinal
  extract_lets +onlyGivenNames x1
  have k1 : Keep s (x1) := by
    dsimp only [x1]
    exact State.modClaim_keep _ _ _ _
  clear_value x1
  extract_lets +onlyGivenNames x2
  clear_value x2
  extract_lets +onlyGivenNames x3
  have k3 : Keep s (x3) := by
    dsimp only [x3]
    refine Keep.ite ?_ ?_
    · refine Keep.ite ?_ ?_
      · refine Keep.upd ?_ rfl
        assumption
      · exact Keep.trans ‹_› (State.remoteAdd_keep _ _ _ _)
    · assumption
  clear_value x3
  exact Keep.trans ‹_› (State.sendFrame_keep _ _ _)

theorem State.commitRemote_keep (s : State) (node id idx n : Nat) : Keep s (State.commitRemote s node id idx n) := by
  unfold State.commitRemote
  split
  · exact Keep.refl _
  · extract_lets +onlyGivenNames x1
    clear_value x1
    extract_lets +onlyGivenNames x2
    have k2 : Keep s (x2) := by
      dsimp only [x2]
      refine Keep.trans ?_ (State.hubCount_keep _ _ _ _)
      refine Keep.trans ?_ (State.sendFrame_keep _ _ _)
      exact State.modClaim_keep _ _ _ _
    clear_value x2
    refine Keep.ite ?_ ?_
    · exact Keep.trans ‹_› (State.claimFinal_keep _ _ _)
    · assumption

/-! ### Machine/HostOps.lean -/

theorem State.modPci_keep (s : State) (f : HostPort → HostPort) : Keep s (State.modPci s f) := by
  unfold State.modPci
  refine Keep.upd ?_ rfl
  exact Keep.refl _

theorem State.modChan_keep (s : State) (k : Nat) (f : MailChan → MailChan) : Keep s (State.modChan s k f) := by
  unfold State.modChan
  exact State.modPci_keep _ _

theorem State.vector_keep (s : State) (v : Nat) : Keep s (State.vector s v) := by
  unfold State.vector
  refine Keep.ite ?_ ?_
  · exact State.modPci_keep _ _
  · exact State.hostWrite_keep _ _ _

theorem State.unmask_keep (s : State) (v : Nat) : Keep s (State.unmask s v) := by
  unfold State.unmask
  refine Keep.ite ?_ ?_
  · refine Keep.trans ?_ (State.vector_keep _ _)
    exact State.modPci_keep _ _
  · exact Keep.refl _

theorem State.hostErr_keep (s : State) (f : HostErr → HostErr) : Keep s (State.hostErr s f) := by
  unfold State.hostErr
  refine Keep.trans ?_ (State.vector_keep _ _)
  exact State.modPci_keep _ _

theorem State.event_keep (s : State) (kind data : Nat) : Keep s (State.event s kind data) := by
  unfold State.event
  extract_lets +onlyGivenNames x1
  clear_value x1
  extract_lets +onlyGivenNames x2
  clear_value x2
  extract_lets +onlyGivenNames x3
  have k3 : Keep s (x3) := by
    dsimp only [x3]
    exact State.modPci_keep _ _
  clear_value x3
  extract_lets +onlyGivenNames x4
  clear_value x4
  extract_lets +onlyGivenNames x5
  clear_value x5
  extract_lets +onlyGivenNames x6
  have k6 : Keep s (x6) := by
    dsimp only [x6]
    refine Keep.ite ?_ ?_
    · assumption
    · refine Keep.trans ?_ (State.modPci_keep _ _)
      exact State.hostWrite_keep _ _ _
  clear_value x6
  exact Keep.trans ‹_› (State.vector_keep _ _)

theorem State.reply_keep (s : State) (r : ReqRef) (status : Nat) (args : List Nat) : Keep s (State.reply s r status args) := by
  unfold State.reply
  refine Keep.ite ?_ ?_
  · exact Keep.refl _
  · extract_lets +onlyGivenNames x1
    clear_value x1
    extract_lets +onlyGivenNames x2
    clear_value x2
    extract_lets +onlyGivenNames x3
    clear_value x3
    extract_lets +onlyGivenNames x4
    clear_value x4
    extract_lets +onlyGivenNames x5
    clear_value x5
    extract_lets +onlyGivenNames x6
    have k6 : Keep s (x6) := by
      dsimp only [x6]
      exact State.modChan_keep _ _ _
    clear_value x6
    refine Keep.ite ?_ ?_
    · exact Keep.trans ‹_› (State.vector_keep _ _)
    · assumption

theorem State.mailIn_keep (s : State) (ch sender : Nat) (words : List W32) : Keep s (State.mailIn s ch sender words) := by
  unfold State.mailIn
  extract_lets +onlyGivenNames x1
  clear_value x1
  extract_lets +onlyGivenNames x2
  clear_value x2
  extract_lets +onlyGivenNames x3
  clear_value x3
  refine Keep.ite ?_ ?_
  · refine Keep.trans ?_ (State.hubCount_keep _ _ _ _)
    exact State.modChan_keep _ _ _
  · refine Keep.ite ?_ ?_
    · refine Keep.trans ?_ (State.reply_keep _ _ _ _)
      refine Keep.trans ?_ (State.hubCount_keep _ _ _ _)
      exact State.modChan_keep _ _ _
    · refine Keep.ite ?_ ?_
      · exact State.reply_keep _ _ _ _
      · extract_lets +onlyGivenNames x4
        clear_value x4
        refine Keep.trans ?_ (State.hubCount_keep _ _ _ _)
        exact State.modChan_keep _ _ _

theorem onRequest_keep (s : State) (ch code : Nat) (body : ReqRef → MailMsg → State → State) (h_body : ∀ a0 a1 a2, Keep a2 (body a0 a1 a2)) : OutKeep s (onRequest s ch code body) := by
  unfold onRequest
  split
  · refine OutKeep.next ?_
    exact Keep.refl _
  · extract_lets +onlyGivenNames x1
    clear_value x1
    extract_lets +onlyGivenNames x2
    clear_value x2
    refine OutKeep.ite ?_ ?_
    · refine OutKeep.next ?_
      exact Keep.refl _
    · extract_lets +onlyGivenNames x3
      have k3 : Keep s (x3) := by
        dsimp only [x3]
        exact State.modChan_keep _ _ _
      clear_value x3
      refine OutKeep.ite ?_ ?_
      · refine OutKeep.next ?_
        exact Keep.trans ‹_› (State.reply_keep _ _ _ _)
      · refine OutKeep.ite ?_ ?_
        · refine OutKeep.next ?_
          exact Keep.trans ‹_› (h_body _ _ _)
        · refine OutKeep.next ?_
          exact Keep.refl _

/-! ### Machine/Moves.lean -/

theorem execMove_keep (core eng : Nat) (s : State) : OutKeep s (execMove core eng s) := by
  unfold execMove
  refine onRecord_keep _ _ _ _ _ _ ?_
  intro x1
  intro x2
  extract_lets +onlyGivenNames x3 x4 x
  clear_value x
  refine Keep.ite ?_ ?_
  · exact State.infoFault_keep _ _ _ _
  · refine Keep.ite ?_ ?_
    · refine Keep.ite ?_ ?_
      · exact State.infoFault_keep _ _ _ _
      · extract_lets +onlyGivenNames x5
        clear_value x5
        extract_lets +onlyGivenNames x6
        refine Keep.ite ?_ ?_
        · exact State.moveRetire_keep _ _ _ _ _
        · refine Keep.trans ?_ (State.pumpMoves_keep _ _ _)
          exact State.modCore_keep _ _ _
    · refine Keep.ite ?_ ?_
      · exact State.retire_keep _ _ _ _
      · extract_lets +onlyGivenNames x7
        have k7 : Keep x2 (x7.1) := by
          dsimp only [x7]
          exact State.openClaim_keep _ _ _ _ _ _ _ _ _ _ _
        clear_value x7
        exact Keep.trans ‹_› (State.modCore_keep _ _ _)

theorem State.sendWrite_keep (s : State) (core e : Nat) (r : MvRec) (q : MvReq) (bs : List Byte) : Keep s (State.sendWrite s core e r q bs) := by
  unfold State.sendWrite
  split
  · exact Keep.refl _
  · extract_lets +onlyGivenNames x1
    clear_value x1
    extract_lets +onlyGivenNames x2
    clear_value x2
    extract_lets +onlyGivenNames x3
    have k3 : Keep s (x3) := by
      dsimp only [x3]
      exact State.modLinks_keep _ _
    clear_value x3
    refine Keep.trans ?_ (State.sendFrame_keep _ _ _)
    exact Keep.trans ‹_› (State.modReq_keep _ _ _ _ _ _)

theorem State.moveData_keep (s : State) (c core e : Nat) (r : MvRec) (q : MvReq) (ps : Pieces) (bad : Bool) : Keep s (State.moveData s c core e r q ps bad) := by
  unfold State.moveData
  extract_lets +onlyGivenNames x1
  have k1 : Keep s (x1) := by
    dsimp only [x1]
    refine Keep.ite ?_ ?_
    · exact State.flightFault_keep _ _ _ _ _ _
    · exact Keep.refl _
  clear_value x1
  refine Keep.ite ?_ ?_
  · refine Keep.ite ?_ ?_
    · exact Keep.trans ‹_› (State.failReq_keep _ _ _ _ _)
    · extract_lets +onlyGivenNames x2
      have k2 : Keep s (x2) := by
        dsimp only [x2]
        exact Keep.trans ‹_› (State.modReq_keep _ _ _ _ _ _)
      clear_value x2
      split
      · exact Keep.trans ‹_› (State.writeBand_keep _ _ _ _ _ _)
      · assumption
  · refine Keep.ite ?_ ?_
    · refine Keep.ite ?_ ?_
      · exact Keep.trans ‹_› (State.failReq_keep _ _ _ _ _)
      · exact Keep.trans ‹_› (State.sendWrite_keep _ _ _ _ _ _)
    · extract_lets +onlyGivenNames x3
      have k3 : Keep s (x3) := by
        dsimp only [x3]
        exact Keep.trans ‹_› (State.moveDeliver_keep _ _ _ _ _ _ _)
      clear_value x3
      refine Keep.ite ?_ ?_
      · exact Keep.trans ‹_› (State.modRec_keep _ _ _ _ _)
      · assumption

/-- What reading a request's source keeps. -/
theorem State.readSource_keep (s : State) (a n : Nat) : (∀ t cause, s.readSource a n = .fault t cause → Keep s t)
    ∧ (∀ t ps bad, s.readSource a n = .got t ps bad → Keep s t) := by
  unfold State.readSource
  constructor
  all_goals
    intro t
    intros
    rename_i h
    revert h
    split
    · dsimp only
      split
      · intro h; cases h
      · intro h; first | (cases h; exact Keep.refl _) | cases h
      · split
        · intro h; first | (cases h; exact State.modSlab_keep _ _ _) | cases h
        · intro h; first | (cases h; exact State.modSlab_keep _ _ _) | cases h
    · intro h; first | (cases h; exact State.readFar_keep _ _ _) | cases h
    · intro h; first | (cases h; exact State.readFar_keep _ _ _) | cases h
    · intro h; cases h

theorem State.readReq_keep (s : State) (c core eng : Nat) (r : MvRec) (q : MvReq) (m : MvSlot) : Keep s (s.readReq c core eng r q m) := by
  unfold State.readReq
  split
  · exact Keep.refl _
  · exact Keep.trans (State.modCore_keep _ _ _) (State.fallBack_keep _ _ _ _ _ _)
  · exact State.fallBack_keep _ _ _ _ _ _
  · exact Keep.trans (State.modSlab_keep _ _ _) (State.emptySlot_keep _ _ _)
  · split
    · exact Keep.refl _
    · next hr =>
      exact (((State.takeSlot_keep _ _ _ _ _).trans ((State.readSource_keep _ _ _).1 _ _ hr)).trans (State.flightFault_keep _ _ _ _ _ _)).trans
        (State.failReq_keep _ _ _ _ _)
    · next hr =>
      exact ((State.takeSlot_keep _ _ _ _ _).trans ((State.readSource_keep _ _ _).2 _ _ _ hr)).trans (State.moveData_keep _ _ _ _ _ _ _ _)

theorem execMoveRequestComplete_keep (s : State) (core eng k : Nat) : OutKeep s (execMoveRequestComplete core eng k s) := by
  unfold execMoveRequestComplete
  refine OutKeep.ite ?_ ?_
  · split
    · refine OutKeep.ite ?_ ?_
      · refine OutKeep.ite ?_ ?_
        · refine OutKeep.next ?_
          exact State.writeBand_keep _ _ _ _ _ _
        · refine OutKeep.next ?_
          exact Keep.refl _
      · refine OutKeep.ite ?_ ?_
        · refine OutKeep.next ?_
          exact Keep.refl _
        · refine OutKeep.ite ?_ ?_
          · refine OutKeep.next ?_
            exact Keep.refl _
          · refine OutKeep.next ?_
            exact State.readReq_keep _ _ _ _ _ _ _
    · refine OutKeep.next ?_
      exact Keep.refl _
  · exact OutKeep.fault

theorem execFallbackSlab_keep (s : State) (core eng k : Nat) : OutKeep s (execFallbackSlab core eng k s) := by
  unfold execFallbackSlab
  refine OutKeep.ite ?_ ?_
  · split
    · refine OutKeep.ite ?_ ?_
      · refine OutKeep.next ?_
        exact Keep.refl _
      · refine OutKeep.next ?_
        exact State.fallBack_keep _ _ _ _ _ _
    · refine OutKeep.next ?_
      exact Keep.refl _
  · exact OutKeep.fault

theorem execCreditReturn_keep (core eng : Nat) (s : State) : OutKeep s (execCreditReturn core eng s) := by
  unfold execCreditReturn
  refine OutKeep.ite ?_ ?_
  · refine OutKeep.next ?_
    exact State.modCore_keep _ _ _
  · exact OutKeep.fault

theorem execLandingWrite_keep (s : State) (core : Nat) (slot : Bool) : OutKeep s (execLandingWrite core slot s) := by
  unfold execLandingWrite
  refine OutKeep.ite ?_ ?_
  · extract_lets +onlyGivenNames x1
    clear_value x1
    split
    · extract_lets +onlyGivenNames x2
      have k2 : Keep s (x2) := by
        dsimp only [x2]
        exact State.modSlab_keep _ _ _
      clear_value x2
      extract_lets +onlyGivenNames x3
      have k3 : Keep s (x3.1) := by
        dsimp only [x3]
        refine Keep.ite_fst ?_ ?_
        · dsimp only
          assumption
        · exact Keep.trans ‹_› (State.slabPieces_keep _ _ _ _ _)
      clear_value x3
      extract_lets +onlyGivenNames x4
      clear_value x4
      split
      · refine OutKeep.ite ?_ ?_
        · refine OutKeep.next ?_
          refine Keep.trans ?_ (State.failReq_keep _ _ _ _ _)
          exact Keep.trans ‹_› (State.flightFault_keep _ _ _ _ _ _)
        · refine OutKeep.next ?_
          exact Keep.trans ‹_› (State.completeReq_keep _ _ _ _ _)
      · split
        · refine OutKeep.next ?_
          assumption
        · refine OutKeep.ite ?_ ?_
          · refine OutKeep.next ?_
            refine Keep.trans ?_ (State.bandDone_keep _ _ _ _ _)
            exact Keep.trans ‹_› (State.setOut_keep _ _ _ _ _ _ _)
          · refine OutKeep.next ?_
            exact Keep.trans ‹_› (State.bandFault_keep _ _ _ _ _ _)
      · extract_lets +onlyGivenNames x5
        have k5 : Keep s (x5) := by
          dsimp only [x5]
          refine Keep.ite ?_ ?_
          · assumption
          · exact Keep.trans ‹_› (State.raise_keep _ _ _)
        clear_value x5
        refine OutKeep.next ?_
        exact Keep.trans ‹_› (State.commitRemote_keep _ _ _ _ _)
    · refine OutKeep.next ?_
      exact Keep.refl _
  · exact OutKeep.fault

theorem State.moveReject_keep (s : State) (c core e : Nat) (r : MvRec) (addr : Nat) : Keep s (State.moveReject s c core e r addr) := by
  unfold State.moveReject
  refine Keep.trans ?_ (State.hubCount_keep _ _ _ _)
  refine Keep.trans ?_ (State.modCtx_keep _ _ _)
  exact State.modRec_keep _ _ _ _ _

theorem State.pageClean_keep (s : State) (c core e : Nat) (r : MvRec) (page : Nat) : Keep s (State.pageClean s c core e r page) := by
  unfold State.pageClean
  extract_lets +onlyGivenNames x1
  clear_value x1
  extract_lets +onlyGivenNames x2
  have k2 : Keep s (x2) := by
    dsimp only [x2]
    exact State.modRec_keep _ _ _ _ _
  clear_value x2
  exact Keep.trans ‹_› (State.moveStep_keep _ _ _ _)

theorem State.storeChecked_keep (s : State) (core id page : Nat) (ok : Bool) : Keep s (State.storeChecked s core id page ok) := by
  unfold State.storeChecked
  split
  · exact Keep.refl _
  · refine Keep.ite ?_ ?_
    · exact Keep.refl _
    · extract_lets +onlyGivenNames x1
      clear_value x1
      extract_lets +onlyGivenNames x2
      clear_value x2
      extract_lets +onlyGivenNames x3
      clear_value x3
      extract_lets +onlyGivenNames x4
      have k4 : Keep s (x4) := by
        dsimp only [x4]
        exact State.modCore_keep _ _ _
      clear_value x4
      refine Keep.ite ?_ ?_
      · assumption
      · refine Keep.ite ?_ ?_
        · exact Keep.trans ‹_› (State.withGang_keep _ _ _ _ _)
        · refine Keep.trans ?_ (State.hostReject_keep _ _ _ _ _ _)
          exact Keep.trans ‹_› (State.withGang_keep _ _ _ _ _)

theorem State.hostAnswer_keep (s : State) (core unit id page : Nat) (ok : Bool) (data : List Byte) : Keep s (State.hostAnswer s core unit id page ok data) := by
  unfold State.hostAnswer
  refine Keep.ite ?_ ?_
  · exact State.storeChecked_keep _ _ _ _ _
  · split
    · extract_lets +onlyGivenNames x1
      clear_value x1
      refine Keep.ite ?_ ?_
      · refine Keep.ite ?_ ?_
        · exact Keep.refl _
        · refine Keep.ite ?_ ?_
          · exact State.pageClean_keep _ _ _ _ _ _
          · refine Keep.trans ?_ (State.modRec_keep _ _ _ _ _)
            exact State.moveReject_keep _ _ _ _ _ _
      · split
        · exact Keep.refl _
        · refine Keep.ite ?_ ?_
          · exact Keep.refl _
          · refine Keep.ite ?_ ?_
            · exact State.moveData_keep _ _ _ _ _ _ _ _
            · refine Keep.trans ?_ (State.modRec_keep _ _ _ _ _)
              exact State.moveReject_keep _ _ _ _ _ _
    · exact Keep.refl _

theorem execHostPageCheck_keep (core unit id page : Nat) (ok : Bool) (data : List Byte) (s : State) : OutKeep s (execHostPageCheck core unit id page ok data s) := by
  unfold execHostPageCheck
  refine OutKeep.ite ?_ ?_
  · refine OutKeep.next ?_
    exact State.hostAnswer_keep _ _ _ _ _ _ _
  · exact OutKeep.fault

theorem execCompletionTimeout_keep (core unit id page : Nat) (s : State) : OutKeep s (execCompletionTimeout core unit id page s) := by
  unfold execCompletionTimeout
  refine OutKeep.ite ?_ ?_
  · refine OutKeep.next ?_
    exact State.hostAnswer_keep _ _ _ _ _ _ _
  · exact OutKeep.fault

end Sys2Proof.Machine
end

