-- ==== Sys2Proof/Laws/KeepUnits.lean ====
section
/-! SUPPORT. What every operation keeps (`Keep`: the queue of waiting commands, and the canonical form of far and host memory): haul, the twin pair and the Matrix Engine. -/

namespace Sys2Proof.Machine

/-! ### Machine/Haul.lean -/

theorem State.portState_keep (s : State) (p : Nat) (st : PortState) : Keep s (State.portState s p st) := by
  unfold State.portState
  extract_lets +onlyGivenNames x1
  clear_value x1
  refine Keep.ite ?_ ?_
  · exact Keep.refl _
  · refine Keep.trans ?_ (State.event_keep _ _ _)
    exact State.setPort_keep _ _ _

theorem State.setPair_keep (s : State) (st : Pair) (epoch : Nat) : Keep s (State.setPair s st epoch) := by
  unfold State.setPair
  refine Keep.ite ?_ ?_
  · exact Keep.refl _
  · refine Keep.trans ?_ (State.event_keep _ _ _)
    exact State.modTwin_keep _ _

theorem State.train_keep (s : State) (p : Nat) : Keep s (State.train s p) := by
  unfold State.train
  extract_lets +onlyGivenNames x1
  clear_value x1
  refine Keep.ite ?_ ?_
  · exact Keep.refl _
  · extract_lets +onlyGivenNames x2
    clear_value x2
    extract_lets +onlyGivenNames x3
    have k3 : Keep s (x3) := by
      dsimp only [x3]
      refine Keep.trans ?_ (State.portState_keep _ _ _)
      exact State.setPort_keep _ _ _
    clear_value x3
    refine Keep.ite ?_ ?_
    · exact Keep.trans ‹_› (State.setPair_keep _ _ _)
    · assumption

theorem execTrainingAttempt_keep (port : Nat) (ok : Bool) (peerNode peerPort : Nat) (peerSerial : List Byte) (s : State) : OutKeep s (execTrainingAttempt port ok peerNode peerPort peerSerial s) := by
  unfold execTrainingAttempt
  refine OutKeep.ite ?_ ?_
  · extract_lets +onlyGivenNames x1
    clear_value x1
    refine OutKeep.ite ?_ ?_
    · refine OutKeep.next ?_
      exact Keep.refl _
    · refine OutKeep.ite ?_ ?_
      · extract_lets +onlyGivenNames x2
        clear_value x2
        extract_lets +onlyGivenNames x3
        have k3 : Keep s (x3) := by
          dsimp only [x3]
          exact State.setPort_keep _ _ _
        clear_value x3
        extract_lets +onlyGivenNames x4
        have k4 : Keep s (x4) := by
          dsimp only [x4]
          exact Keep.trans ‹_› (State.portState_keep _ _ _)
        clear_value x4
        refine OutKeep.ite ?_ ?_
        · refine OutKeep.next ?_
          exact Keep.trans ‹_› (State.sendTwin_keep _ _)
        · refine OutKeep.next ?_
          assumption
      · refine OutKeep.ite ?_ ?_
        · refine OutKeep.next ?_
          refine Keep.trans ?_ (State.portState_keep _ _ _)
          exact State.setPort_keep _ _ _
        · refine OutKeep.next ?_
          exact State.setPort_keep _ _ _
  · exact OutKeep.fault

theorem execTrainingRetry_keep (port : Nat) (s : State) : OutKeep s (execTrainingRetry port s) := by
  unfold execTrainingRetry
  refine OutKeep.ite ?_ ?_
  · refine OutKeep.ite ?_ ?_
    · refine OutKeep.next ?_
      exact State.train_keep _ _
    · refine OutKeep.next ?_
      exact Keep.refl _
  · exact OutKeep.fault

theorem execPortLeaveUp_keep (port : Nat) (cause : LeaveCause) (s : State) : OutKeep s (execPortLeaveUp port cause s) := by
  unfold execPortLeaveUp
  refine OutKeep.ite ?_ ?_
  · extract_lets +onlyGivenNames x1
    clear_value x1
    refine OutKeep.ite ?_ ?_
    · refine OutKeep.next ?_
      exact Keep.refl _
    · refine OutKeep.next ?_
      exact State.train_keep _ _
  · exact OutKeep.fault

theorem execPortRetrain_keep (port : Nat) (s : State) : OutKeep s (execPortRetrain port s) := by
  unfold execPortRetrain
  refine OutKeep.ite ?_ ?_
  · refine OutKeep.next ?_
    exact State.train_keep _ _
  · exact OutKeep.fault

theorem execCodewordUncorrectable_keep (port : Nat) (s : State) : OutKeep s (execCodewordUncorrectable port s) := by
  unfold execCodewordUncorrectable
  refine OutKeep.ite ?_ ?_
  · refine OutKeep.ite ?_ ?_
    · refine OutKeep.next ?_
      exact State.modPort_keep _ _ _
    · refine OutKeep.next ?_
      exact Keep.refl _
  · exact OutKeep.fault

theorem execRetryTimeout_keep (port : Nat) (s : State) : OutKeep s (execRetryTimeout port s) := by
  unfold execRetryTimeout
  refine OutKeep.ite ?_ ?_
  · extract_lets +onlyGivenNames x1
    clear_value x1
    refine OutKeep.ite ?_ ?_
    · refine OutKeep.next ?_
      refine Keep.trans ?_ (State.hubCount_keep _ _ _ _)
      exact State.setPort_keep _ _ _
    · refine OutKeep.next ?_
      exact Keep.refl _
  · exact OutKeep.fault

theorem State.forward_keep (s : State) (f : Frame) : Keep s (State.forward s f).1 := by
  unfold State.forward
  split
  · dsimp only
    exact Keep.refl _
  · extract_lets +onlyGivenNames x1
    clear_value x1
    extract_lets +onlyGivenNames x2
    clear_value x2
    refine Keep.ite_fst ?_ ?_
    · dsimp only
      exact Keep.refl _
    · dsimp only
      exact State.setPort_keep _ _ _

theorem State.pumpForward_keep (s : State) : Keep s (State.pumpForward s) := by
  unfold State.pumpForward
  refine Keep.foldl ?_ ?_ _
  · exact Keep.refl _
  · intro x1
    intro x2
    refine Keep.foldl ?_ ?_ _
    · exact Keep.refl _
    · intro x3
      intro x4
      refine Keep.ite ?_ ?_
      · exact Keep.refl _
      · extract_lets +onlyGivenNames x5
        have k5 : Keep x3 (x5.1) := by
          dsimp only [x5]
          exact State.forward_keep _ _
        clear_value x5
        refine Keep.ite ?_ ?_
        · exact Keep.trans ‹_› (State.modPort_keep _ _ _)
        · exact Keep.refl _

theorem execForwardTimeout_keep (port k : Nat) (s : State) : OutKeep s (execForwardTimeout port k s) := by
  unfold execForwardTimeout
  refine OutKeep.ite ?_ ?_
  · split
    · refine OutKeep.next ?_
      exact Keep.refl _
    · refine OutKeep.ite ?_ ?_
      · refine OutKeep.next ?_
        exact State.modPort_keep _ _ _
      · refine OutKeep.next ?_
        exact Keep.refl _
  · exact OutKeep.fault

theorem execLink_keep (port : Nat) (h : LinkFrame) (s : State) : OutKeep s (execLink port h s) := by
  unfold execLink
  refine OutKeep.ite ?_ ?_
  · extract_lets +onlyGivenNames x1
    clear_value x1
    refine OutKeep.ite ?_ ?_
    · refine OutKeep.next ?_
      exact Keep.refl _
    · extract_lets +onlyGivenNames x2
      clear_value x2
      extract_lets +onlyGivenNames x3
      clear_value x3
      extract_lets +onlyGivenNames x4
      clear_value x4
      extract_lets +onlyGivenNames x5
      have k5 : Keep s (x5) := by
        dsimp only [x5]
        refine Keep.ite ?_ ?_
        · exact State.hubCount_keep _ _ _ _
        · exact Keep.refl _
      clear_value x5
      refine OutKeep.next ?_
      refine Keep.trans ?_ (State.pumpForward_keep _)
      exact Keep.trans ‹_› (State.modPort_keep _ _ _)
  · exact OutKeep.fault

theorem onFrame_keep (s : State) (port : Nat) (f : Frame) (hold : State → Bool) (own : State → State) (h_own : ∀ a0, Keep a0 (own a0)) : OutKeep s (onFrame s port f hold own) := by
  unfold onFrame
  refine OutKeep.ite ?_ ?_
  · extract_lets +onlyGivenNames x1
    clear_value x1
    refine OutKeep.ite ?_ ?_
    · refine OutKeep.next ?_
      exact Keep.refl _
    · refine OutKeep.ite ?_ ?_
      · refine OutKeep.next ?_
        exact State.setPort_keep _ _ _
      · refine OutKeep.ite ?_ ?_
        · refine OutKeep.next ?_
          exact State.setPort_keep _ _ _
        · extract_lets +onlyGivenNames x2
          clear_value x2
          extract_lets +onlyGivenNames x3
          have k3 : Keep s (x3) := by
            dsimp only [x3]
            exact State.setPort_keep _ _ _
          clear_value x3
          extract_lets +onlyGivenNames x4
          have k4 : Keep s (x4) := by
            dsimp only [x4]
            exact State.setPort_keep _ _ _
          clear_value x4
          refine OutKeep.ite ?_ ?_
          · refine OutKeep.ite ?_ ?_
            · refine OutKeep.next ?_
              exact Keep.trans ‹_› (State.modPort_keep _ _ _)
            · extract_lets +onlyGivenNames x5
              have k5 : Keep s (x5.1) := by
                dsimp only [x5]
                exact Keep.trans ‹_› (State.forward_keep _ _)
              clear_value x5
              refine OutKeep.ite ?_ ?_
              · refine OutKeep.next ?_
                assumption
              · refine OutKeep.next ?_
                assumption
          · refine OutKeep.ite ?_ ?_
            · refine OutKeep.next ?_
              assumption
            · refine OutKeep.next ?_
              exact Keep.trans ‹_› (h_own _)
  · exact OutKeep.fault

theorem execClaim_keep (port : Nat) (f : Frame) (s : State) : OutKeep s (execClaim port f s) := by
  unfold execClaim
  refine onFrame_keep _ _ _ _ _ ?_
  intro x1
  split
  · split
    · split
      · refine Keep.trans ?_ (State.sendFrame_keep _ _ _)
        exact State.modClaim_keep _ _ _ _
      · exact Keep.refl _
    · extract_lets +onlyGivenNames x2
      clear_value x2
      refine Keep.ite ?_ ?_
      · refine Keep.trans ?_ (State.hubCount_keep _ _ _ _)
        exact State.sendFrame_keep _ _ _
      · extract_lets +onlyGivenNames x3
        clear_value x3
        extract_lets +onlyGivenNames x4
        have k4 : Keep x1 (x4) := by
          dsimp only [x4]
          refine Keep.trans ?_ (State.hubCount_keep _ _ _ _)
          refine Keep.trans ?_ (State.sendFrame_keep _ _ _)
          exact State.modLinks_keep _ _
        clear_value x4
        refine Keep.ite ?_ ?_
        · exact Keep.trans ‹_› (State.claimFinal_keep _ _ _)
        · assumption
  · exact Keep.refl _

theorem State.modSrc_keep (s : State) (id : Nat) (f : SrcClaim → SrcClaim) : Keep s (State.modSrc s id f) := by
  unfold State.modSrc
  exact State.modLinks_keep _ _

theorem State.claimTail_keep (s : State) (cl : SrcClaim) (code : Nat) : Keep s (State.claimTail s cl code) := by
  unfold State.claimTail
  extract_lets +onlyGivenNames x1
  clear_value x1
  exact State.tail_keep _ _ _ _ _ _ _ _

theorem execClaimAck_keep (port : Nat) (f : Frame) (s : State) : OutKeep s (execClaimAck port f s) := by
  unfold execClaimAck
  refine onFrame_keep _ _ _ _ _ ?_
  intro x1
  split
  · split
    · exact Keep.refl _
    · refine Keep.ite ?_ ?_
      · extract_lets +onlyGivenNames x2
        have k2 : Keep x1 (x2) := by
          dsimp only [x2]
          refine Keep.trans ?_ (State.claimTail_keep _ _ _)
          exact State.modSrc_keep _ _ _
        clear_value x2
        refine Keep.trans ?_ (State.pumpMoves_keep _ _ _)
        exact Keep.trans ‹_› (State.modRec_keep _ _ _ _ _)
      · refine Keep.ite ?_ ?_
        · extract_lets +onlyGivenNames x3
          have k3 : Keep x1 (x3) := by
            dsimp only [x3]
            refine Keep.ite ?_ ?_
            · exact State.claimTail_keep _ _ _
            · exact Keep.refl _
          clear_value x3
          exact Keep.trans ‹_› (State.modSrc_keep _ _ _)
        · extract_lets +onlyGivenNames x4
          have k4 : Keep x1 (x4) := by
            dsimp only [x4]
            exact State.flightFault_keep _ _ _ _ _ _
          clear_value x4
          refine Keep.trans ?_ (State.modRec_keep _ _ _ _ _)
          exact Keep.trans ‹_› (State.modLinks_keep _ _)
  · exact Keep.refl _

theorem State.sendClaim_keep (s : State) (cl : SrcClaim) : Keep s (State.sendClaim s cl) := by
  unfold State.sendClaim
  exact State.sendFrame_keep _ _ _

theorem execClaimRetry_keep (id : Nat) (s : State) : OutKeep s (execClaimRetry id s) := by
  unfold execClaimRetry
  split
  · refine OutKeep.next ?_
    exact Keep.refl _
  · split
    · refine OutKeep.ite ?_ ?_
      · refine OutKeep.next ?_
        refine Keep.trans ?_ (State.sendClaim_keep _ _)
        exact State.modSrc_keep _ _ _
      · refine OutKeep.next ?_
        exact Keep.refl _
    · refine OutKeep.next ?_
      exact Keep.refl _

theorem State.takeWrite_keep (s : State) (d : DstClaim) (idx offset : Nat) (data : List Byte) : Keep s (State.takeWrite s d idx offset data) := by
  unfold State.takeWrite
  extract_lets +onlyGivenNames x1
  have k1 : Keep s (x1) := by
    dsimp only [x1]
    exact State.modClaim_keep _ _ _ _
  clear_value x1
  refine Keep.ite ?_ ?_
  · exact Keep.trans ‹_› (State.commitRemote_keep _ _ _ _ _)
  · split
    · extract_lets +onlyGivenNames x2
      clear_value x2
      split
      · refine Keep.trans ?_ (State.commitRemote_keep _ _ _ _ _)
        exact Keep.trans ‹_› (State.raise_keep _ _ _)
      · refine Keep.trans ?_ (State.commitRemote_keep _ _ _ _ _)
        exact Keep.trans ‹_› (State.raise_keep _ _ _)
      · exact Keep.trans ‹_› (State.modSlab_keep _ _ _)
    · extract_lets +onlyGivenNames x3
      have k3 : Keep s (x3.1) := by
        dsimp only [x3]
        refine Keep.ite_fst ?_ ?_
        · dsimp only
          assumption
        · exact Keep.trans ‹_› (State.farWrite_keep _ _ _)
      clear_value x3
      extract_lets +onlyGivenNames x4
      have k4 : Keep s (x4) := by
        dsimp only [x4]
        refine Keep.ite ?_ ?_
        · assumption
        · exact Keep.trans ‹_› (State.raise_keep _ _ _)
      clear_value x4
      exact Keep.trans ‹_› (State.commitRemote_keep _ _ _ _ _)

theorem execWriteFrame_keep (port : Nat) (f : Frame) (s : State) : OutKeep s (execWriteFrame port f s) := by
  unfold execWriteFrame
  split
  · refine onFrame_keep _ _ _ _ _ ?_
    intro x1
    split
    · exact Keep.refl _
    · split
      · exact Keep.refl _
      · extract_lets +onlyGivenNames x2
        have k2 : Keep x1 (x2) := by
          dsimp only [x2]
          exact State.modClaim_keep _ _ _ _
        clear_value x2
        refine Keep.ite ?_ ?_
        · exact Keep.trans ‹_› (State.takeWrite_keep _ _ _ _ _)
        · refine Keep.ite ?_ ?_
          · exact Keep.trans ‹_› (State.sendFrame_keep _ _ _)
          · assumption
  · refine onFrame_keep _ _ _ _ _ ?_
    intro x3
    exact Keep.refl _

theorem execCommitAck_keep (port : Nat) (f : Frame) (s : State) : OutKeep s (execCommitAck port f s) := by
  unfold execCommitAck
  refine onFrame_keep _ _ _ _ _ ?_
  intro x1
  split
  · split
    · refine Keep.ite ?_ ?_
      · exact State.sendFrame_keep _ _ _
      · exact Keep.refl _
    · refine Keep.ite ?_ ?_
      · extract_lets +onlyGivenNames x2
        have k2 : Keep x1 (x2) := by
          dsimp only [x2]
          refine Keep.trans ?_ (State.sendFrame_keep _ _ _)
          exact State.modLinks_keep _ _
        clear_value x2
        split
        · refine Keep.ite ?_ ?_
          · assumption
          · refine Keep.trans ?_ (State.pumpMoves_keep _ _ _)
            exact Keep.trans ‹_› (State.moveRetire_keep _ _ _ _ _)
        · assumption
      · refine Keep.trans ?_ (State.completeReq_keep _ _ _ _ _)
        exact State.modSrc_keep _ _ _
  · exact Keep.refl _

theorem execClaimEnd_keep (port : Nat) (f : Frame) (s : State) : OutKeep s (execClaimEnd port f s) := by
  unfold execClaimEnd
  refine onFrame_keep _ _ _ _ _ ?_
  intro x1
  split
  · exact State.modLinks_keep _ _
  · exact Keep.refl _

theorem execSignalFrame_keep (s : State) (port : Nat) (f : Frame) : OutKeep s (execSignalFrame port f s) := by
  unfold execSignalFrame
  refine onFrame_keep _ _ _ _ _ ?_
  intro x1
  split
  · extract_lets +onlyGivenNames x2
    clear_value x2
    split
    · exact Keep.refl _
    · extract_lets +onlyGivenNames x3
      clear_value x3
      extract_lets +onlyGivenNames x4
      have k4 : ∀ (s : State) (last : Nat), Keep s (x4 s last) := by
        intro x5
        intro x6
        dsimp only [x4]
        exact State.modLinks_keep _ _
      clear_value x4
      refine Keep.ite ?_ ?_
      · extract_lets +onlyGivenNames x7
        have k7 : Keep x1 (x7) := by
          dsimp only [x7]
          refine Keep.trans ?_ (State.sendFrame_keep _ _ _)
          exact k4 _ _
        clear_value x7
        split
        · exact Keep.trans ‹_› (State.remoteAdd_keep _ _ _ _)
        · assumption
      · refine Keep.ite ?_ ?_
        · refine Keep.trans ?_ (State.sendFrame_keep _ _ _)
          exact k4 _ _
        · exact k4 _ _
  · exact Keep.refl _

theorem execSignalAck_keep (port : Nat) (f : Frame) (s : State) : OutKeep s (execSignalAck port f s) := by
  unfold execSignalAck
  refine onFrame_keep _ _ _ _ _ ?_
  intro x1
  split
  · extract_lets +onlyGivenNames x2
    clear_value x2
    split
    · exact Keep.refl _
    · extract_lets +onlyGivenNames x3
      clear_value x3
      extract_lets +onlyGivenNames x4
      have k4 : Keep x1 (x4) := by
        dsimp only [x4]
        exact State.modLinks_keep _ _
      clear_value x4
      refine Keep.ite ?_ ?_
      · exact Keep.trans ‹_› (State.retire_keep _ _ _ _)
      · assumption
  · exact Keep.refl _

theorem execResendTimeout_keep (signals : Bool) (id : Nat) (s : State) : OutKeep s (execResendTimeout signals id s) := by
  unfold execResendTimeout
  extract_lets +onlyGivenNames x1
  refine OutKeep.ite ?_ ?_
  · extract_lets +onlyGivenNames x2
    clear_value x2
    refine OutKeep.ite ?_ ?_
    · refine OutKeep.next ?_
      exact Keep.refl _
    · extract_lets +onlyGivenNames x3
      clear_value x3
      extract_lets +onlyGivenNames x4
      have k4 : Keep s (x4) := by
        dsimp only [x4]
        dsimp only [x1]
        refine Keep.trans ?_ (State.modLinks_keep _ _)
        exact State.modLinks_keep _ _
      clear_value x4
      refine OutKeep.next ?_
      refine Keep.foldl ?_ ?_ _
      · assumption
      · intro x5
        intro x6
        exact State.sendFrame_keep _ _ _
  · split
    · refine OutKeep.next ?_
      exact Keep.refl _
    · refine OutKeep.ite ?_ ?_
      · refine OutKeep.next ?_
        exact Keep.refl _
      · extract_lets +onlyGivenNames x7
        clear_value x7
        extract_lets +onlyGivenNames x8
        have k8 : Keep s (x8) := by
          dsimp only [x8]
          dsimp only [x1]
          refine Keep.trans ?_ (State.modLinks_keep _ _)
          exact State.modSrc_keep _ _ _
        clear_value x8
        extract_lets +onlyGivenNames x9
        have k9 : Keep s (x9) := by
          dsimp only [x9]
          refine Keep.ite ?_ ?_
          · assumption
          · exact Keep.trans ‹_› (State.sendClaim_keep _ _)
        clear_value x9
        refine OutKeep.next ?_
        refine Keep.foldl ?_ ?_ _
        · assumption
        · intro x10
          intro x11
          exact State.sendFrame_keep _ _ _

theorem State.readList_keep (s : State) (a n : Nat) : Keep s (State.readList s a n).1 := by
  unfold State.readList
  refine Keep.ite_fst ?_ ?_
  · exact State.farRead_keep _ _ _
  · dsimp only
    exact Keep.refl _

theorem execRouteLoad_keep (s : State) : OutKeep s (execRouteLoad s) := by
  unfold execRouteLoad
  refine onRequest_keep _ _ _ _ ?_
  intro r m s
  refine Keep.ite (State.reply_keep _ _ _ _) ?_
  split
  · next h => exact ((State.readList_keep _ _ _).of_fst h).trans (State.reply_keep _ _ _ _)
  · next h => exact (((State.readList_keep _ _ _).of_fst h).trans (State.modLinks_keep _ _)).trans (State.reply_keep _ _ _ _)

theorem execJobSet_keep (s : State) : OutKeep s (execJobSet s) := by
  unfold execJobSet
  refine onRequest_keep _ _ _ _ ?_
  intro r m s
  refine Keep.ite (State.reply_keep _ _ _ _) (Keep.ite (State.reply_keep _ _ _ _) ?_)
  split
  · next h => exact ((State.readList_keep _ _ _).of_fst h).trans (State.reply_keep _ _ _ _)
  · next h => exact (((State.readList_keep _ _ _).of_fst h).trans (State.modLinks_keep _ _)).trans (State.reply_keep _ _ _ _)

theorem execJobClear_keep (s : State) : OutKeep s (execJobClear s) := by
  unfold execJobClear
  refine onRequest_keep _ _ _ _ ?_
  intro x1
  intro x2
  intro x3
  refine Keep.ite ?_ ?_
  · exact State.reply_keep _ _ _ _
  · refine Keep.trans ?_ (State.reply_keep _ _ _ _)
    exact State.modLinks_keep _ _

theorem execRetrain_keep (s : State) : OutKeep s (execRetrain s) := by
  unfold execRetrain
  refine onRequest_keep _ _ _ _ ?_
  intro x1
  intro x2
  intro x3
  refine Keep.trans ?_ (State.reply_keep _ _ _ _)
  refine Keep.foldl ?_ ?_ _
  · exact Keep.refl _
  · intro x4
    intro x5
    refine Keep.ite ?_ ?_
    · exact State.train_keep _ _
    · exact Keep.refl _

/-! ### Machine/Twin.lean -/

theorem State.twinEvent_keep (s : State) (reason epoch : Nat) : Keep s (State.twinEvent s reason epoch) := by
  unfold State.twinEvent
  exact State.event_keep _ _ _

theorem State.mirrorRead_keep (s : State) (a n : Nat) : Keep s (State.mirrorRead s a n).1 := by
  unfold State.mirrorRead
  refine Keep.foldl_fst ?_ ?_ _
  · dsimp only
    exact Keep.refl _
  · intro x1
    intro x2
    extract_lets +onlyGivenNames x3
    have k3 : Keep x1.fst (x3.1) := by
      dsimp only [x3]
      exact State.touchBlock_keep _ _
    clear_value x3
    refine Keep.ite_fst ?_ ?_
    · dsimp only
      assumption
    · extract_lets +onlyGivenNames x4
      have k4 : Keep x1.fst (x4.2) := by
        dsimp only [x4]
        exact Keep.trans ‹_› (State.draw_keep _)
      clear_value x4
      dsimp only
      assumption

theorem State.sendMirror_keep (s : State) (c : MirrorCopy) (off : Nat) : Keep s (State.sendMirror s c off) := by
  unfold State.sendMirror
  split
  · exact Keep.refl _
  · split
    · exact Keep.refl _
    · extract_lets +onlyGivenNames x1
      have k1 : Keep s (x1.1) := by
        dsimp only [x1]
        exact State.mirrorRead_keep _ _ _
      clear_value x1
      exact Keep.trans ‹_› (State.sendTwin_keep _ _)

theorem State.setCopy_keep (s : State) (c : Option MirrorCopy) : Keep s (State.setCopy s c) := by
  unfold State.setCopy
  exact State.modTwin_keep _ _

theorem State.sendSettle_keep (s : State) (c : MirrorCopy) : Keep s (State.sendSettle s c) := by
  unfold State.sendSettle
  refine Keep.trans ?_ (State.sendTwin_keep _ _)
  exact State.setCopy_keep _ _

theorem State.pumpCopy_keep (s : State) : Keep s (State.pumpCopy s) := by
  unfold State.pumpCopy
  extract_lets +onlyGivenNames x1
  clear_value x1
  split
  · exact Keep.refl _
  · refine Keep.ite ?_ ?_
    · exact Keep.refl _
    · split
      · exact State.sendSettle_keep _ _
      · extract_lets +onlyGivenNames x2
        clear_value x2
        refine Keep.foldl ?_ ?_ _
        · exact State.setCopy_keep _ _
        · intro x3
          intro x4
          exact State.sendMirror_keep _ _ _

theorem State.startCopy_keep (s : State) : Keep s (State.startCopy s) := by
  unfold State.startCopy
  extract_lets +onlyGivenNames x1
  clear_value x1
  split
  · exact Keep.refl _
  · refine Keep.ite ?_ ?_
    · exact Keep.refl _
    · extract_lets +onlyGivenNames x2
      clear_value x2
      extract_lets +onlyGivenNames x3
      clear_value x3
      refine Keep.trans ?_ (State.pumpCopy_keep _)
      exact State.modTwin_keep _ _

theorem State.resumeCopy_keep (s : State) : Keep s (State.resumeCopy s) := by
  unfold State.resumeCopy
  split
  · exact State.startCopy_keep _
  · refine Keep.ite ?_ ?_
    · exact State.sendSettle_keep _ _
    · refine Keep.ite ?_ ?_
      · refine Keep.foldl ?_ ?_ _
        · exact Keep.refl _
        · intro x1
          intro x2
          exact State.sendMirror_keep _ _ _
      · exact State.pumpCopy_keep _

theorem execEpochPoll_keep (s : State) : OutKeep s (execEpochPoll s) := by
  unfold execEpochPoll
  split
  · refine OutKeep.next ?_
    exact Keep.refl _
  · refine OutKeep.ite ?_ ?_
    · refine OutKeep.next ?_
      exact Keep.refl _
    · extract_lets +onlyGivenNames x1
      have k1 : Keep s (x1.1) := by
        dsimp only [x1]
        exact State.farRead_keep _ _ _
      clear_value x1
      split
      · refine OutKeep.next ?_
        assumption
      · refine OutKeep.ite ?_ ?_
        · refine OutKeep.next ?_
          assumption
        · refine OutKeep.next ?_
          refine Keep.trans ?_ (State.startCopy_keep _)
          exact Keep.trans ‹_› (State.modTwin_keep _ _)

theorem State.ackCopy_keep (s : State) (off : Nat) (buf : Bool) : Keep s (State.ackCopy s off buf) := by
  unfold State.ackCopy
  split
  · exact Keep.refl _
  · refine Keep.ite ?_ ?_
    · refine Keep.trans ?_ (State.pumpCopy_keep _)
      exact State.setCopy_keep _ _
    · exact Keep.refl _

theorem State.setShadow_keep (s : State) (x : ShadowSet) : Keep s (State.setShadow s x) := by
  unfold State.setShadow
  exact State.modTwin_keep _ _

theorem State.writeHeader_keep (s : State) (b : ShadowBuf) : Keep s (State.writeHeader s b) := by
  unfold State.writeHeader
  extract_lets +onlyGivenNames x1
  have k1 : Keep s (x1.2) := by
    dsimp only [x1]
    exact State.draw_keep _
  clear_value x1
  extract_lets +onlyGivenNames x2
  clear_value x2
  extract_lets +onlyGivenNames x3
  have k3 : Keep s (x3) := by
    dsimp only [x3]
    exact Keep.trans ‹_› (State.farWrite_keep _ _ _)
  clear_value x3
  extract_lets +onlyGivenNames x4
  have k4 : Keep s (x4) := by
    dsimp only [x4]
    exact Keep.trans ‹_› (State.farWrite_keep _ _ _)
  clear_value x4
  extract_lets +onlyGivenNames x5
  have k5 : Keep s (x5) := by
    dsimp only [x5]
    exact Keep.trans ‹_› (State.farWrite_keep _ _ _)
  clear_value x5
  extract_lets +onlyGivenNames x6
  have k6 : Keep s (x6) := by
    dsimp only [x6]
    exact Keep.trans ‹_› (State.farWrite_keep _ _ _)
  clear_value x6
  exact Keep.trans ‹_› (State.farWrite_keep _ _ _)

theorem State.takeMirror_keep (s : State) (off : Nat) (buf : Bool) (data : List Byte) : Keep s (State.takeMirror s off buf data) := by
  unfold State.takeMirror
  extract_lets +onlyGivenNames x1
  clear_value x1
  split
  · exact Keep.refl _
  · extract_lets +onlyGivenNames x2
    clear_value x2
    refine Keep.ite ?_ ?_
    · exact Keep.refl _
    · extract_lets +onlyGivenNames x3
      clear_value x3
      extract_lets +onlyGivenNames x4
      clear_value x4
      extract_lets +onlyGivenNames x5
      have k5 : Keep s (x5) := by
        dsimp only [x5]
        refine Keep.ite ?_ ?_
        · exact State.writeHeader_keep _ _
        · exact Keep.refl _
      clear_value x5
      extract_lets +onlyGivenNames x6
      have k6 : Keep s (x6.1) := by
        dsimp only [x6]
        exact Keep.trans ‹_› (State.farWrite_keep _ _ _)
      clear_value x6
      extract_lets +onlyGivenNames x7
      clear_value x7
      extract_lets +onlyGivenNames x8
      have k8 : Keep s (x8) := by
        dsimp only [x8]
        exact Keep.trans ‹_› (State.setShadow_keep _ _)
      clear_value x8
      refine Keep.ite ?_ ?_
      · exact Keep.trans ‹_› (State.sendTwin_keep _ _)
      · assumption

theorem State.takeLive_keep (s : State) (off : Nat) (buf : Bool) (data : List Byte) : Keep s (State.takeLive s off buf data) := by
  unfold State.takeLive
  extract_lets +onlyGivenNames x1
  clear_value x1
  split
  · split
    · exact Keep.refl _
    · extract_lets +onlyGivenNames x2
      have k2 : Keep s (x2.1) := by
        dsimp only [x2]
        exact State.farWrite_keep _ _ _
      clear_value x2
      extract_lets +onlyGivenNames x3
      have k3 : Keep s (x3) := by
        dsimp only [x3]
        exact Keep.trans ‹_› (State.modTwin_keep _ _)
      clear_value x3
      refine Keep.ite ?_ ?_
      · exact Keep.trans ‹_› (State.sendTwin_keep _ _)
      · assumption
  · exact Keep.refl _

theorem execMirrorWrite_keep (port : Nat) (f : Frame) (s : State) : OutKeep s (execMirrorWrite port f s) := by
  unfold execMirrorWrite
  refine onFrame_keep _ _ _ _ _ ?_
  intro x1
  split
  · refine Keep.ite ?_ ?_
    · exact State.takeLive_keep _ _ _ _
    · exact State.takeMirror_keep _ _ _ _
  · exact Keep.refl _

theorem State.settleShadow_keep (s : State) (epoch : Nat) (buf raced : Bool) (units : Nat) : Keep s (State.settleShadow s epoch buf raced units) := by
  unfold State.settleShadow
  extract_lets +onlyGivenNames x1
  clear_value x1
  split
  · exact State.sendTwin_keep _ _
  · extract_lets +onlyGivenNames x2
    clear_value x2
    extract_lets +onlyGivenNames x3
    clear_value x3
    extract_lets +onlyGivenNames x4
    clear_value x4
    refine Keep.ite ?_ ?_
    · exact State.sendTwin_keep _ _
    · extract_lets +onlyGivenNames x5
      clear_value x5
      extract_lets +onlyGivenNames x6
      clear_value x6
      extract_lets +onlyGivenNames x7
      have k7 : Keep s (x7) := by
        dsimp only [x7]
        refine Keep.trans ?_ (State.setShadow_keep _ _)
        exact State.writeHeader_keep _ _
      clear_value x7
      exact Keep.trans ‹_› (State.sendTwin_keep _ _)

theorem State.settleLive_keep (s : State) (epoch units : Nat) : Keep s (State.settleLive s epoch units) := by
  unfold State.settleLive
  extract_lets +onlyGivenNames x1
  clear_value x1
  split
  · refine Keep.ite ?_ ?_
    · exact State.sendTwin_keep _ _
    · refine Keep.ite ?_ ?_
      · refine Keep.trans ?_ (State.reply_keep _ _ _ _)
        refine Keep.trans ?_ (State.sendTwin_keep _ _)
        exact State.modTwin_keep _ _
      · extract_lets +onlyGivenNames x2
        have k2 : Keep s (x2) := by
          dsimp only [x2]
          exact State.modTwin_keep _ _
        clear_value x2
        refine Keep.trans ?_ (State.reply_keep _ _ _ _)
        refine Keep.trans ?_ (State.twinEvent_keep _ _ _)
        exact Keep.trans ‹_› (State.sendTwin_keep _ _)
  · exact State.sendTwin_keep _ _

theorem execSettle_keep (port : Nat) (f : Frame) (s : State) : OutKeep s (execSettle port f s) := by
  unfold execSettle
  refine onFrame_keep _ _ _ _ _ ?_
  intro x1
  split
  · refine Keep.ite ?_ ?_
    · exact State.settleLive_keep _ _ _
    · exact State.settleShadow_keep _ _ _ _ _
  · exact Keep.refl _

theorem State.setPush_keep (s : State) (p : Option MirrorPush) : Keep s (State.setPush s p) := by
  unfold State.setPush
  exact State.modTwin_keep _ _

theorem State.sendPush_keep (s : State) (p : MirrorPush) (off : Nat) : Keep s (State.sendPush s p off) := by
  unfold State.sendPush
  split
  · exact Keep.refl _
  · extract_lets +onlyGivenNames x1
    have k1 : Keep s (x1.1) := by
      dsimp only [x1]
      exact State.mirrorRead_keep _ _ _
    clear_value x1
    exact Keep.trans ‹_› (State.sendTwin_keep _ _)

theorem State.pumpPush_keep (s : State) : Keep s (State.pumpPush s) := by
  unfold State.pumpPush
  split
  · exact Keep.refl _
  · refine Keep.ite ?_ ?_
    · exact Keep.refl _
    · split
      · refine Keep.trans ?_ (State.sendTwin_keep _ _)
        exact State.setPush_keep _ _
      · extract_lets +onlyGivenNames x1
        clear_value x1
        refine Keep.foldl ?_ ?_ _
        · exact State.setPush_keep _ _
        · intro x2
          intro x3
          exact State.sendPush_keep _ _ _

theorem State.ackPush_keep (s : State) (off : Nat) (buf : Bool) : Keep s (State.ackPush s off buf) := by
  unfold State.ackPush
  split
  · exact Keep.refl _
  · refine Keep.ite ?_ ?_
    · refine Keep.trans ?_ (State.pumpPush_keep _)
      exact State.setPush_keep _ _
    · exact Keep.refl _

theorem State.resumePush_keep (s : State) : Keep s (State.resumePush s) := by
  unfold State.resumePush
  split
  · exact Keep.refl _
  · refine Keep.ite ?_ ?_
    · exact State.sendTwin_keep _ _
    · refine Keep.ite ?_ ?_
      · refine Keep.foldl ?_ ?_ _
        · exact Keep.refl _
        · intro x1
          intro x2
          exact State.sendPush_keep _ _ _
      · exact State.pumpPush_keep _

theorem execMirrorAck_keep (port : Nat) (f : Frame) (s : State) : OutKeep s (execMirrorAck port f s) := by
  unfold execMirrorAck
  refine onFrame_keep _ _ _ _ _ ?_
  intro x1
  split
  · refine Keep.ite ?_ ?_
    · exact State.ackPush_keep _ _ _
    · exact State.ackCopy_keep _ _ _
  · exact Keep.refl _

theorem execRestoreReq_keep (port : Nat) (f : Frame) (s : State) : OutKeep s (execRestoreReq port f s) := by
  unfold execRestoreReq
  refine onFrame_keep _ _ _ _ _ ?_
  intro x1
  split
  · extract_lets +onlyGivenNames x2
    clear_value x2
    refine Keep.ite ?_ ?_
    · extract_lets +onlyGivenNames x3
      clear_value x3
      extract_lets +onlyGivenNames x4
      clear_value x4
      refine Keep.trans ?_ (State.pumpPush_keep _)
      exact State.setPush_keep _ _
    · exact State.sendTwin_keep _ _
  · exact State.sendTwin_keep _ _
  · exact Keep.refl _

theorem State.copySettled_keep (s : State) (m : MirrorSet) (c : MirrorCopy) : Keep s (State.copySettled s m c) := by
  unfold State.copySettled
  extract_lets +onlyGivenNames x1
  have k1 : Keep s (x1) := by
    dsimp only [x1]
    exact State.modTwin_keep _ _
  clear_value x1
  extract_lets +onlyGivenNames x2
  have k2 : Keep s (x2) := by
    dsimp only [x2]
    exact Keep.trans ‹_› (State.remoteAdd_keep _ _ _ _)
  clear_value x2
  extract_lets +onlyGivenNames x3
  have k3 : Keep s (x3) := by
    dsimp only [x3]
    refine Keep.ite ?_ ?_
    · exact Keep.trans ‹_› (State.twinEvent_keep _ _ _)
    · assumption
  clear_value x3
  exact Keep.trans ‹_› (State.startCopy_keep _)

theorem State.copyRefused_keep (s : State) (m : MirrorSet) (c : MirrorCopy) : Keep s (State.copyRefused s m c) := by
  unfold State.copyRefused
  extract_lets +onlyGivenNames x1
  have k1 : Keep s (x1) := by
    dsimp only [x1]
    exact State.setCopy_keep _ _
  clear_value x1
  refine Keep.trans ?_ (State.pumpCopy_keep _)
  exact Keep.trans ‹_› (State.twinEvent_keep _ _ _)

theorem execSettleAck_keep (port : Nat) (f : Frame) (s : State) : OutKeep s (execSettleAck port f s) := by
  unfold execSettleAck
  refine onFrame_keep _ _ _ _ _ ?_
  intro x1
  extract_lets +onlyGivenNames x2
  clear_value x2
  split
  · split
    · refine Keep.ite ?_ ?_
      · exact State.modTwin_keep _ _
      · exact Keep.refl _
    · split
      · refine Keep.ite ?_ ?_
        · refine Keep.trans ?_ (State.reply_keep _ _ _ _)
          exact State.modTwin_keep _ _
        · exact Keep.refl _
      · exact Keep.refl _
  · split
    · refine Keep.ite ?_ ?_
      · refine Keep.ite ?_ ?_
        · exact State.copySettled_keep _ _ _
        · exact State.copyRefused_keep _ _ _
      · exact Keep.refl _
    · exact Keep.refl _
  · exact Keep.refl _

theorem State.freeze_keep (s : State) : Keep s (State.freeze s) := by
  unfold State.freeze
  extract_lets +onlyGivenNames x1
  clear_value x1
  extract_lets +onlyGivenNames x2
  have k2 : Keep s (x2) := by
    dsimp only [x2]
    split
    · exact State.reply_keep _ _ _ _
    · exact Keep.refl _
  clear_value x2
  exact Keep.trans ‹_› (State.modTwin_keep _ _)

theorem execHello_keep (port : Nat) (f : Frame) (s : State) : OutKeep s (execHello port f s) := by
  unfold execHello
  refine onFrame_keep _ _ _ _ _ ?_
  intro x1
  split
  · extract_lets +onlyGivenNames x2
    clear_value x2
    refine Keep.ite ?_ ?_
    · exact Keep.refl _
    · extract_lets +onlyGivenNames x3
      clear_value x3
      refine Keep.ite ?_ ?_
      · exact State.setPair_keep _ _ _
      · refine Keep.ite ?_ ?_
        · refine Keep.trans ?_ (State.setPair_keep _ _ _)
          refine Keep.trans ?_ (State.freeze_keep _)
          exact State.modTwin_keep _ _
        · extract_lets +onlyGivenNames x4
          clear_value x4
          extract_lets +onlyGivenNames x5
          have k5 : Keep x1 (x5) := by
            dsimp only [x5]
            exact State.modTwin_keep _ _
          clear_value x5
          refine Keep.trans ?_ (State.resumePush_keep _)
          refine Keep.trans ?_ (State.resumeCopy_keep _)
          exact Keep.trans ‹_› (State.setPair_keep _ _ _)
  · exact Keep.refl _

theorem execHeartbeat_keep (port : Nat) (f : Frame) (now : Nat) (s : State) : OutKeep s (execHeartbeat port f now s) := by
  unfold execHeartbeat
  refine OutKeep.from ?_ (onFrame_keep _ _ _ _ _ ?_)
  · exact State.advanceTo_keep _ _
  · intro x1
    split
    · refine Keep.ite ?_ ?_
      · exact State.modTwin_keep _ _
      · exact Keep.refl _
    · exact Keep.refl _

theorem execHeartbeatTimer_keep (now : Nat) (s : State) : OutKeep s (execHeartbeatTimer now s) := by
  unfold execHeartbeatTimer
  extract_lets +onlyGivenNames x1
  have k1 : Keep s (x1) := by
    dsimp only [x1]
    exact State.advanceTo_keep _ _
  clear_value x1
  extract_lets +onlyGivenNames x2
  clear_value x2
  refine OutKeep.ite ?_ ?_
  · refine OutKeep.next ?_
    assumption
  · extract_lets +onlyGivenNames x3
    clear_value x3
    extract_lets +onlyGivenNames x4
    have k4 : Keep s (x4) := by
      dsimp only [x4]
      refine Keep.ite ?_ ?_
      · refine Keep.trans ?_ (State.sendTwin_keep _ _)
        exact Keep.trans ‹_› (State.modTwin_keep _ _)
      · assumption
    clear_value x4
    refine OutKeep.next ?_
    refine Keep.ite ?_ ?_
    · refine Keep.trans ?_ (State.sendFrame_keep _ _ _)
      exact Keep.trans ‹_› (State.modTwin_keep _ _)
    · assumption

theorem execPartnerLost_keep (now : Nat) (s : State) : OutKeep s (execPartnerLost now s) := by
  unfold execPartnerLost
  extract_lets +onlyGivenNames x1
  have k1 : Keep s (x1) := by
    dsimp only [x1]
    exact State.advanceTo_keep _ _
  clear_value x1
  extract_lets +onlyGivenNames x2
  clear_value x2
  refine OutKeep.ite ?_ ?_
  · refine OutKeep.next ?_
    refine Keep.trans ?_ (State.setPair_keep _ _ _)
    exact Keep.trans ‹_› (State.freeze_keep _)
  · refine OutKeep.next ?_
    assumption

theorem State.sayHello_keep (s : State) : Keep s (State.sayHello s) := by
  unfold State.sayHello
  refine Keep.ite ?_ ?_
  · exact State.sendTwin_keep _ _
  · exact Keep.refl _

theorem execMirrorSet_keep (s : State) : OutKeep s (execMirrorSet s) := by
  unfold execMirrorSet
  refine onRequest_keep _ _ _ _ ?_
  intro r m s
  refine Keep.ite (State.reply_keep _ _ _ _) ?_
  split
  · next h => exact ((State.readList_keep _ _ _).of_fst h).trans (State.reply_keep _ _ _ _)
  · next h =>
    refine ((State.readList_keep _ _ _).of_fst h).trans ?_
    refine Keep.ite (State.reply_keep _ _ _ _) (Keep.ite (State.reply_keep _ _ _ _) ?_)
    split
    · refine Keep.ite ?_ (State.reply_keep _ _ _ _)
      exact ((State.modTwin_keep _ _).trans (State.sayHello_keep _)).trans (State.reply_keep _ _ _ _)
    · exact ((State.modTwin_keep _ _).trans (State.sayHello_keep _)).trans (State.reply_keep _ _ _ _)

theorem execMirrorClear_keep (s : State) : OutKeep s (execMirrorClear s) := by
  unfold execMirrorClear
  refine onRequest_keep _ _ _ _ ?_
  intro x1
  intro x2
  intro x3
  refine Keep.ite ?_ ?_
  · exact State.reply_keep _ _ _ _
  · extract_lets +onlyGivenNames x4
    have k4 : Keep x3 (x4) := by
      dsimp only [x4]
      exact State.modTwin_keep _ _
    clear_value x4
    refine Keep.trans ?_ (State.reply_keep _ _ _ _)
    exact Keep.trans ‹_› (State.sayHello_keep _)

theorem execShadowSet_keep (s : State) : OutKeep s (execShadowSet s) := by
  unfold execShadowSet
  refine onRequest_keep _ _ _ _ ?_
  intro x1
  intro x2
  intro x3
  extract_lets +onlyGivenNames x4
  clear_value x4
  extract_lets +onlyGivenNames x5
  clear_value x5
  extract_lets +onlyGivenNames x6
  clear_value x6
  refine Keep.ite ?_ ?_
  · exact State.reply_keep _ _ _ _
  · refine Keep.ite ?_ ?_
    · exact State.reply_keep _ _ _ _
    · extract_lets +onlyGivenNames x7
      clear_value x7
      extract_lets +onlyGivenNames x8
      have k8 : Keep x3 (x8) := by
        dsimp only [x8]
        refine Keep.trans ?_ (State.writeHeader_keep _ _)
        exact State.writeHeader_keep _ _
      clear_value x8
      extract_lets +onlyGivenNames x9
      have k9 : Keep x3 (x9) := by
        dsimp only [x9]
        exact Keep.trans ‹_› (State.modTwin_keep _ _)
      clear_value x9
      refine Keep.trans ?_ (State.reply_keep _ _ _ _)
      exact Keep.trans ‹_› (State.sayHello_keep _)

theorem execRestore_keep (s : State) : OutKeep s (execRestore s) := by
  unfold execRestore
  refine onRequest_keep _ _ _ _ ?_
  intro x1
  intro x2
  intro x3
  extract_lets +onlyGivenNames x4
  clear_value x4
  split
  · exact State.reply_keep _ _ _ _
  · refine Keep.ite ?_ ?_
    · exact State.reply_keep _ _ _ _
    · refine Keep.ite ?_ ?_
      · exact State.reply_keep _ _ _ _
      · extract_lets +onlyGivenNames x5
        have k5 : Keep x3 (x5) := by
          dsimp only [x5]
          exact State.modTwin_keep _ _
        clear_value x5
        exact Keep.trans ‹_› (State.sendTwin_keep _ _)

/-! ### Machine/Matrix.lean -/

theorem execMatmul_keep (s : State) (core eng : Nat) : OutKeep s (execMatmul core eng s) := by
  unfold execMatmul
  refine onRecord_keep _ _ _ _ _ _ ?_
  intro x1
  intro x2
  extract_lets +onlyGivenNames x3
  clear_value x3
  extract_lets +onlyGivenNames x4
  clear_value x4
  split
  · exact State.infoFault_keep _ _ _ _
  · refine Keep.trans ?_ (State.pumpMe_keep _ _)
    exact State.modMe_keep _ _ _

theorem execChuteStarve_keep (s : State) (core : Nat) : OutKeep s (execChuteStarve core s) := by
  unfold execChuteStarve
  refine OutKeep.ite ?_ ?_
  · split
    · refine OutKeep.ite ?_ ?_
      · refine OutKeep.next ?_
        refine Keep.trans ?_ (State.count_keep _ _ _ _)
        exact State.modMe_keep _ _ _
      · refine OutKeep.next ?_
        exact Keep.refl _
    · refine OutKeep.next ?_
      exact Keep.refl _
  · exact OutKeep.fault

theorem execMatmulRetire_keep (s : State) (core : Nat) : OutKeep s (execMatmulRetire core s) := by
  unfold execMatmulRetire
  refine OutKeep.ite ?_ ?_
  · split
    · refine OutKeep.ite ?_ ?_
      · refine OutKeep.next ?_
        exact Keep.refl _
      · refine OutKeep.next ?_
        refine Keep.trans ?_ (State.retire_keep _ _ _ _)
        exact State.modMe_keep _ _ _
    · refine OutKeep.next ?_
      exact Keep.refl _
  · exact OutKeep.fault

theorem execMdrain_keep (s : State) (core eng : Nat) : OutKeep s (execMdrain core eng s) := by
  unfold execMdrain
  refine onRecord_keep _ _ _ _ _ _ ?_
  intro x1
  intro x2
  extract_lets +onlyGivenNames x3
  clear_value x3
  split
  · exact State.infoFault_keep _ _ _ _
  · extract_lets +onlyGivenNames x4
    clear_value x4
    extract_lets +onlyGivenNames x5
    clear_value x5
    refine Keep.trans ?_ (State.pumpMe_keep _ _)
    exact State.modMe_keep _ _ _

theorem execMclear_keep (s : State) (core eng : Nat) : OutKeep s (execMclear core eng s) := by
  unfold execMclear
  refine onRecord_keep _ _ _ _ _ _ ?_
  intro x1
  intro x2
  extract_lets +onlyGivenNames x3
  clear_value x3
  extract_lets +onlyGivenNames x4
  clear_value x4
  exact State.modMe_keep _ _ _

theorem execGangWindow_keep (core eng : Nat) (s : State) : OutKeep s (execGangWindow core eng s) := by
  unfold execGangWindow
  refine onRecord_keep _ _ _ _ _ _ ?_
  intro x1
  intro x2
  extract_lets +onlyGivenNames x3
  clear_value x3
  refine Keep.ite ?_ ?_
  · exact State.retire_keep _ _ _ _
  · extract_lets +onlyGivenNames x4
    clear_value x4
    exact State.modMe_keep _ _ _

theorem execGangWindowClose_keep (core now : Nat) (s : State) : OutKeep s (execGangWindowClose core now s) := by
  unfold execGangWindowClose
  refine OutKeep.ite ?_ ?_
  · extract_lets +onlyGivenNames x1
    have k1 : Keep s (x1) := by
      dsimp only [x1]
      exact State.advanceTo_keep _ _
    clear_value x1
    extract_lets +onlyGivenNames x2
    clear_value x2
    split
    · refine OutKeep.ite ?_ ?_
      · refine OutKeep.next ?_
        refine Keep.trans ?_ (State.retire_keep _ _ _ _)
        exact Keep.trans ‹_› (State.modMe_keep _ _ _)
      · refine OutKeep.next ?_
        assumption
    · refine OutKeep.next ?_
      assumption
  · exact OutKeep.fault

theorem gangMatrix_keep (s : State) (g : GangAt) (i : Instr) (op : Nat) (f : MForm) : OutKeep s (gangMatrix s g i op f) := by
  unfold gangMatrix
  extract_lets +onlyGivenNames x1
  clear_value x1
  refine onGang_keep _ _ _ _ _ _ _ ?_
  intro x2
  intro x3
  intro x4
  intro x5
  extract_lets +onlyGivenNames x6
  clear_value x6
  refine Keep.trans ?_ (State.modMe_keep _ _ _)
  exact State.setGang_keep _ _ _ _

theorem execMma_keep (g : GangAt) (f : MForm) (s : State) : OutKeep s (execMma g f s) := by
  unfold execMma
  refine gangMatrix_keep _ _ _ _ _

theorem execMmaz_keep (g : GangAt) (f : MForm) (s : State) : OutKeep s (execMmaz g f s) := by
  unfold execMmaz
  refine gangMatrix_keep _ _ _ _ _

theorem execGangMdrain_keep (g : GangAt) (f : MForm) (s : State) : OutKeep s (execGangMdrain g f s) := by
  unfold execGangMdrain
  refine gangMatrix_keep _ _ _ _ _

theorem execMclr_keep (g : GangAt) (f : MForm) (s : State) : OutKeep s (execMclr g f s) := by
  unfold execMclr
  refine gangMatrix_keep _ _ _ _ _

theorem State.gangSums_keep (s : State) (core : Nat) (x : Gang) (f : MForm) (acc : Bool) : Keep s (State.gangSums s core x f acc) := by
  unfold State.gangSums
  extract_lets +onlyGivenNames x1
  clear_value x1
  extract_lets +onlyGivenNames x2
  clear_value x2
  extract_lets +onlyGivenNames x3
  clear_value x3
  extract_lets +onlyGivenNames x4
  clear_value x4
  extract_lets +onlyGivenNames x5
  clear_value x5
  extract_lets +onlyGivenNames x6
  clear_value x6
  extract_lets +onlyGivenNames x7
  clear_value x7
  extract_lets +onlyGivenNames x8
  clear_value x8
  extract_lets +onlyGivenNames x9
  clear_value x9
  extract_lets +onlyGivenNames x10
  have k10 : Keep s (x10.2) := by
    dsimp only [x10]
    exact State.draw_keep _
  clear_value x10
  refine Keep.trans ?_ (State.modMe_keep _ _ _)
  refine Keep.ite ?_ ?_
  · assumption
  · exact Keep.refl _

theorem State.gangProduct_keep (s : State) (core slot : Nat) (x : Gang) (f : MForm) (acc : Bool) : Keep s (State.gangProduct s core slot x f acc) := by
  unfold State.gangProduct
  split
  · refine Keep.trans ?_ (State.gangFault_keep _ _ _ _ _)
    exact State.markColumn_keep _ _ _
  · exact State.gangSums_keep _ _ _ _ _

theorem State.gangDrain_keep (s : State) (core slot : Nat) (f : MForm) : Keep s (State.gangDrain s core slot f) := by
  unfold State.gangDrain
  extract_lets +onlyGivenNames x1
  clear_value x1
  extract_lets +onlyGivenNames x2
  clear_value x2
  extract_lets +onlyGivenNames x3
  clear_value x3
  extract_lets +onlyGivenNames x4
  have k4 : Keep s (x4) := by
    dsimp only [x4]
    refine Keep.trans ?_ (State.count_keep _ _ _ _)
    exact State.modMe_keep _ _ _
  clear_value x4
  exact Keep.trans ‹_› (State.modGang_keep _ _ _ _)

theorem execGangMatrixAccept_keep (s : State) (core now : Nat) : OutKeep s (execGangMatrixAccept core now s) := by
  unfold execGangMatrixAccept
  refine OutKeep.ite ?_ ?_
  · extract_lets +onlyGivenNames x1
    have k1 : Keep s (x1) := by
      dsimp only [x1]
      exact State.advanceTo_keep _ _
    clear_value x1
    extract_lets +onlyGivenNames x2
    clear_value x2
    extract_lets +onlyGivenNames x3
    clear_value x3
    split
    · extract_lets +onlyGivenNames x4
      clear_value x4
      refine OutKeep.ite ?_ ?_
      · refine OutKeep.next ?_
        assumption
      · refine OutKeep.ite ?_ ?_
        · refine OutKeep.next ?_
          exact Keep.trans ‹_› (State.gangFault_keep _ _ _ _ _)
        · extract_lets +onlyGivenNames x5
          clear_value x5
          extract_lets +onlyGivenNames x6
          clear_value x6
          extract_lets +onlyGivenNames x7
          clear_value x7
          extract_lets +onlyGivenNames x8
          clear_value x8
          extract_lets +onlyGivenNames x9
          clear_value x9
          extract_lets +onlyGivenNames x10
          have k10 : Keep s (x10) := by
            dsimp only [x10]
            refine Keep.trans ?_ (State.count_keep _ _ _ _)
            exact Keep.trans ‹_› (State.modMe_keep _ _ _)
          clear_value x10
          extract_lets +onlyGivenNames x11
          have k11 : Keep s (x11) := by
            dsimp only [x11]
            refine Keep.ite ?_ ?_
            · exact Keep.trans ‹_› (State.gangProduct_keep _ _ _ _ _ _)
            · refine Keep.ite ?_ ?_
              · exact Keep.trans ‹_› (State.gangDrain_keep _ _ _ _)
              · exact Keep.trans ‹_› (State.modMe_keep _ _ _)
          clear_value x11
          refine OutKeep.next ?_
          exact Keep.trans ‹_› (State.modGang_keep _ _ _ _)
    · refine OutKeep.next ?_
      assumption
  · exact OutKeep.fault

theorem execCvtCommit_keep (core mask : Nat) (s : State) : OutKeep s (execCvtCommit core mask s) := by
  unfold execCvtCommit
  refine OutKeep.ite ?_ ?_
  · refine OutKeep.next ?_
    exact State.modMe_keep _ _ _
  · exact OutKeep.fault

end Sys2Proof.Machine
end

