-- ==== Sys2Proof/Laws/KeepCtx.lean ====
section
/-! SUPPORT. What every operation keeps (`Keep`: the queue of waiting commands, and the canonical form of far and host memory): contexts and the Foreman. -/

namespace Sys2Proof.Machine

/-! ### Machine/CtxOps.lean -/

theorem State.bump_keep (s : State) (c : Nat) : Keep s (State.bump s c) := by
  unfold State.bump
  exact State.modCtx_keep _ _ _

theorem State.ctxEvent_keep (s : State) (c bit : Nat) : Keep s (State.ctxEvent s c bit) := by
  unfold State.ctxEvent
  refine Keep.trans ?_ (State.vector_keep _ _)
  refine Keep.trans ?_ (State.bump_keep _ _)
  exact State.modCtx_keep _ _ _

theorem State.fread_keep (s : State) (a n : Nat) : Keep s (State.fread s a n).1 := by
  unfold State.fread
  refine Keep.ite_fst ?_ ?_
  · exact State.farRead_keep _ _ _
  · dsimp only
    exact Keep.refl _

theorem State.objField_keep (s : State) (id off n : Nat) : Keep s (State.objField s id off n).1 := by
  unfold State.objField
  refine Keep.ite_fst ?_ ?_
  · extract_lets +onlyGivenNames x1
    have k1 : Keep s (x1.1) := by
      dsimp only [x1]
      exact State.fread_keep _ _ _
    clear_value x1
    dsimp only
    assumption
  · dsimp only
    exact Keep.refl _

theorem State.objWrite_keep (s : State) (id off n v : Nat) : Keep s (State.objWrite s id off n v) := by
  unfold State.objWrite
  refine Keep.ite ?_ ?_
  · exact State.farWrite_keep _ _ _
  · exact Keep.refl _

theorem State.releaseObj_keep (s : State) (id : Nat) : Keep s (State.releaseObj s id) := by
  unfold State.releaseObj
  extract_lets +onlyGivenNames x1
  have k1 : Keep s (x1) := by
    dsimp only [x1]
    exact State.objWrite_keep _ _ _ _ _
  clear_value x1
  extract_lets +onlyGivenNames x2
  clear_value x2
  extract_lets +onlyGivenNames x3
  have k3 : Keep s (x3) := by
    dsimp only [x3]
    refine Keep.upd ?_ rfl
    assumption
  clear_value x3
  refine Keep.trans ?_ (State.event_keep _ _ _)
  exact Keep.trans ‹_› (State.bump_keep _ _)

theorem State.addRef_keep (s : State) (id : Nat) : Keep s (State.addRef s id) := by
  unfold State.addRef
  extract_lets +onlyGivenNames x1
  have k1 : Keep s (x1.1) := by
    dsimp only [x1]
    exact State.objField_keep _ _ _ _
  clear_value x1
  split
  · assumption
  · exact Keep.trans ‹_› (State.objWrite_keep _ _ _ _ _)

theorem State.dropRef_keep (s : State) (id : Nat) : Keep s (State.dropRef s id) := by
  unfold State.dropRef
  refine Keep.ite ?_ ?_
  · exact Keep.refl _
  · extract_lets +onlyGivenNames x1
    have k1 : Keep s (x1.1) := by
      dsimp only [x1]
      exact State.objField_keep _ _ _ _
    clear_value x1
    split
    · assumption
    · extract_lets +onlyGivenNames x2
      have k2 : Keep s (x2) := by
        dsimp only [x2]
        exact Keep.trans ‹_› (State.objWrite_keep _ _ _ _ _)
      clear_value x2
      extract_lets +onlyGivenNames x3
      have k3 : Keep s (x3.1) := by
        dsimp only [x3]
        exact Keep.trans ‹_› (State.objField_keep _ _ _ _)
      clear_value x3
      split
      · assumption
      · refine Keep.ite ?_ ?_
        · exact Keep.trans ‹_› (State.releaseObj_keep _ _)
        · assumption

theorem State.windowIn_keep (s : State) (w : Window) : Keep s (State.windowIn s w) := by
  unfold State.windowIn
  refine Keep.ite ?_ ?_
  · exact State.addRef_keep _ _
  · exact Keep.refl _

theorem State.windowOut_keep (s : State) (w : Window) : Keep s (State.windowOut s w) := by
  unfold State.windowOut
  refine Keep.ite ?_ ?_
  · exact State.dropRef_keep _ _
  · exact Keep.refl _

theorem State.putWindow_keep (s : State) (c i : Nat) (w : Window) : Keep s (State.putWindow s c i w) := by
  unfold State.putWindow
  extract_lets +onlyGivenNames x1
  clear_value x1
  extract_lets +onlyGivenNames x2
  have k2 : Keep s (x2) := by
    dsimp only [x2]
    refine Keep.trans ?_ (State.windowOut_keep _ _)
    exact State.windowIn_keep _ _
  clear_value x2
  refine Keep.trans ?_ (State.bump_keep _ _)
  exact Keep.trans ‹_› (State.modCtx_keep _ _ _)

theorem State.tailSwitch_keep (s : State) (c code : Nat) : Keep s (State.tailSwitch s c code) := by
  unfold State.tailSwitch
  extract_lets +onlyGivenNames x1
  have k1 : Keep s (x1) := by
    dsimp only [x1]
    refine Keep.foldl ?_ ?_ _
    · exact Keep.refl _
    · intro x2
      intro x3
      refine Keep.foldl ?_ ?_ _
      · exact Keep.refl _
      · intro x4
        intro x5
        exact State.tail_keep _ _ _ _ _ _ _ _
  clear_value x1
  refine Keep.foldl ?_ ?_ _
  · assumption
  · intro x6
    intro x7
    exact State.tail_keep _ _ _ _ _ _ _ _

theorem State.traceSwitch_keep (s : State) (c out : Nat) : Keep s (State.traceSwitch s c out) := by
  unfold State.traceSwitch
  refine Keep.foldl ?_ ?_ _
  · exact Keep.refl _
  · intro x1
    intro x2
    exact State.modCore_keep _ _ _

theorem State.farPut_keep (s : State) (a : Nat) (bs : List Byte) : Keep s (State.farPut s a bs) := by
  unfold State.farPut
  exact State.farWrite_keep _ _ _

theorem State.saveSync_keep (s : State) (c : Nat) : Keep s (State.saveSync s c) := by
  unfold State.saveSync
  exact State.farPut_keep _ _ _

theorem State.loadSync_keep (s : State) (c : Nat) (bs : List Byte) : Keep s (State.loadSync s c bs) := by
  unfold State.loadSync
  extract_lets +onlyGivenNames x1
  clear_value x1
  extract_lets +onlyGivenNames x2
  have k2 : Keep s (x2) := by
    dsimp only [x2]
    refine Keep.foldl ?_ ?_ _
    · exact Keep.refl _
    · intro x3
      intro x4
      exact State.setTally_keep _ _ _
  clear_value x2
  extract_lets +onlyGivenNames x5
  have k5 : Keep s (x5) := by
    dsimp only [x5]
    refine Keep.foldl ?_ ?_ _
    · assumption
    · intro x6
      intro x7
      exact State.setUnit_keep _ _ _
  clear_value x5
  refine Keep.foldl ?_ ?_ _
  · assumption
  · intro x8
    intro x9
    exact State.modCore_keep _ _ _

theorem State.foremanFault_keep (s : State) (c addr : Nat) : Keep s (State.foremanFault s c addr) := by
  unfold State.foremanFault
  exact State.raise_keep _ _ _

theorem areaRead_keep (s : State) (c a : Nat) (load : State → List Byte → State) (r : State × Option (List Byte)) (h : Keep s r.1)
    (hl : ∀ t bs, Keep t (load t bs)) : Keep s (areaRead c a load r).1 := by
  unfold areaRead
  split
  · exact h.trans (State.foremanFault_keep _ _ _)
  · exact h.trans (hl _ _)

theorem State.restoreSync_keep (s : State) (c : Nat) : Keep s (s.restoreSync c).1 :=
  areaRead_keep s _ _ _ _ (State.fread_keep _ _ _) (fun _ _ => State.loadSync_keep _ _ _)

theorem State.saveGangs_keep (s : State) (c : Nat) : Keep s (State.saveGangs s c) := by
  unfold State.saveGangs
  extract_lets +onlyGivenNames x1
  have k1 : Keep s (x1.2) := by
    dsimp only [x1]
    exact State.draw_keep _
  clear_value x1
  extract_lets +onlyGivenNames x2
  clear_value x2
  refine Keep.foldl ?_ ?_ _
  · assumption
  · intro x3
    intro x4
    exact State.farPut_keep _ _ _

theorem restoreCore_keep (c a size n : Nat) (p : State × Bool) : Keep p.1 (restoreCore c a size n p).1 :=
  areaRead_keep p.1 _ _ _ _ (State.fread_keep _ _ _) (fun _ _ => State.modCore_keep _ _ _)

theorem State.restoreGangs_keep (s : State) (c : Nat) : Keep s (s.restoreGangs c).1 := by
  unfold State.restoreGangs
  exact Keep.foldl_fst (Keep.refl s) (fun p x => restoreCore_keep _ _ _ _ _) _

theorem State.cacheOut_keep (s : State) (c n : Nat) : Keep s (State.cacheOut s c n) := by
  unfold State.cacheOut
  extract_lets +onlyGivenNames x1
  clear_value x1
  extract_lets +onlyGivenNames x2
  have k2 : Keep s (x2) := by
    dsimp only [x2]
    refine Keep.foldl ?_ ?_ _
    · exact Keep.refl _
    · intro x3
      intro x4
      refine Keep.ite ?_ ?_
      · exact Keep.refl _
      · refine Keep.ite ?_ ?_
        · refine Keep.trans ?_ (State.raise_keep _ _ _)
          exact State.modCore_keep _ _ _
        · refine Keep.ite ?_ ?_
          · refine Keep.trans ?_ (State.farWriteBytes_keep _ _ _)
            exact State.modCore_keep _ _ _
          · refine Keep.trans ?_ (State.raise_keep _ _ _)
            refine Keep.trans ?_ (State.farWriteBytes_keep _ _ _)
            exact State.modCore_keep _ _ _
  clear_value x2
  refine Keep.foldl ?_ ?_ _
  · assumption
  · intro x5
    intro x6
    exact State.modCore_keep _ _ _

theorem State.lowerWait_keep (s : State) (w : Watch) : Keep s (State.lowerWait s w) := by
  unfold State.lowerWait
  refine Keep.ite ?_ ?_
  · exact State.modGang_keep _ _ _ _
  · exact State.modQueue_keep _ _ _ _

theorem State.forgetLast_keep (s : State) (c : Nat) : Keep s (State.forgetLast s c) := by
  unfold State.forgetLast
  refine Keep.upd ?_ rfl
  exact Keep.refl _

theorem State.dropWatches_keep (s : State) (c : Nat) : Keep s (State.dropWatches s c) := by
  unfold State.dropWatches
  extract_lets +onlyGivenNames x1
  clear_value x1
  extract_lets +onlyGivenNames x2
  have k2 : Keep s (x2) := by
    dsimp only [x2]
    refine Keep.foldl ?_ ?_ _
    · exact Keep.refl _
    · intro x3
      intro x4
      exact State.lowerWait_keep _ _
  clear_value x2
  extract_lets +onlyGivenNames z5 y5 x5
  have k5 : Keep s (x5) := by
    dsimp only [x5, y5, z5]
    refine Keep.upd ?_ rfl
    assumption
  clear_value x5 y5 z5
  refine Keep.foldl ?_ ?_ _
  · assumption
  · intro x6
    intro x7
    exact State.modCore_keep _ _ _

theorem State.clearSync_keep (s : State) (c : Nat) : Keep s (State.clearSync s c) := by
  unfold State.clearSync
  extract_lets +onlyGivenNames x1
  have k1 : Keep s (x1) := by
    dsimp only [x1]
    refine Keep.foldl ?_ ?_ _
    · exact Keep.refl _
    · intro x2
      intro x3
      exact State.modCore_keep _ _ _
  clear_value x1
  refine Keep.upd ?_ rfl
  assumption

theorem State.leaveBench_keep (s : State) (c : Nat) : Keep s (State.leaveBench s c) := by
  unfold State.leaveBench
  extract_lets +onlyGivenNames x1
  have k1 : Keep s (x1) := by
    dsimp only [x1]
    refine Keep.foldl ?_ ?_ _
    · exact Keep.refl _
    · intro x2
      intro x3
      exact State.modCore_keep _ _ _
  clear_value x1
  refine Keep.trans ?_ (State.bump_keep _ _)
  exact Keep.trans ‹_› (State.modCtx_keep _ _ _)

theorem State.killStep1_keep (s : State) (c : Nat) : Keep s (State.killStep1 s c) := by
  unfold State.killStep1
  extract_lets +onlyGivenNames x1
  have k1 : Keep s (x1) := by
    dsimp only [x1]
    exact State.tailSwitch_keep _ _ _
  clear_value x1
  extract_lets +onlyGivenNames x2
  have k2 : Keep s (x2) := by
    dsimp only [x2]
    refine Keep.foldl ?_ ?_ _
    · assumption
    · intro x3
      intro x4
      refine Keep.foldl ?_ ?_ _
      · exact Keep.refl _
      · intro x5
        intro x6
        exact State.modQueue_keep _ _ _ _
  clear_value x2
  extract_lets +onlyGivenNames x7
  clear_value x7
  extract_lets +onlyGivenNames x8
  have k8 : Keep s (x8) := by
    dsimp only [x8]
    exact Keep.trans ‹_› (State.setCtx_keep _ _ _)
  clear_value x8
  extract_lets +onlyGivenNames x9
  have k9 : Keep s (x9) := by
    dsimp only [x9]
    refine Keep.foldl ?_ ?_ _
    · assumption
    · intro x10
      intro x11
      exact State.reply_keep _ _ _ _
  clear_value x9
  extract_lets +onlyGivenNames x12
  have k12 : Keep s (x12) := by
    dsimp only [x12]
    exact Keep.trans ‹_› (State.modLinks_keep _ _)
  clear_value x12
  exact Keep.trans ‹_› (State.bump_keep _ _)

theorem State.killWith_keep (s : State) (c : Nat) (f : FaultRec) : Keep s (State.killWith s c f) := by
  unfold State.killWith
  refine Keep.trans ?_ (State.killStep1_keep _ _)
  exact State.raise_keep _ _ _

theorem State.abandon_keep (s : State) (c : Nat) : Keep s (State.abandon s c) := by
  unfold State.abandon
  refine Keep.foldl ?_ ?_ _
  · exact Keep.refl _
  · intro x1
    intro x2
    extract_lets +onlyGivenNames x3
    have k3 : Keep x1 (x3.1) := by
      dsimp only [x3]
      exact State.objField_keep _ _ _ _
    clear_value x3
    split
    · assumption
    · refine Keep.ite ?_ ?_
      · refine Keep.foldl ?_ ?_ _
        · assumption
        · intro x4
          intro x5
          extract_lets +onlyGivenNames x6
          clear_value x6
          extract_lets +onlyGivenNames x7
          have k7 : Keep x4 (x7.1) := by
            dsimp only [x7]
            exact State.fread_keep _ _ _
          clear_value x7
          split
          · refine Keep.ite ?_ ?_
            · exact Keep.trans ‹_› (State.farWrite_keep _ _ _)
            · assumption
          · assumption
      · assumption

theorem State.freeCtx_keep (s : State) (c : Nat) : Keep s (State.freeCtx s c) := by
  unfold State.freeCtx
  extract_lets +onlyGivenNames x1
  clear_value x1
  refine Keep.trans ?_ (State.bump_keep _ _)
  exact State.setCtx_keep _ _ _

theorem State.endClaims_keep (s : State) (c : Nat) : Keep s (State.endClaims s c) := by
  unfold State.endClaims
  extract_lets +onlyGivenNames x1
  clear_value x1
  extract_lets +onlyGivenNames x2
  have k2 : Keep s (x2) := by
    dsimp only [x2]
    exact State.modLinks_keep _ _
  clear_value x2
  refine Keep.foldl ?_ ?_ _
  · assumption
  · intro x3
    intro x4
    exact State.sendFrame_keep _ _ _

theorem State.killFinish_keep (s : State) (c : Nat) : Keep s (State.killFinish s c) := by
  unfold State.killFinish
  extract_lets +onlyGivenNames x1
  have k1 : Keep s (x1) := by
    dsimp only [x1]
    refine Keep.trans ?_ (State.clearSync_keep _ _)
    exact State.endClaims_keep _ _
  clear_value x1
  extract_lets +onlyGivenNames x2
  have k2 : Keep s (x2) := by
    dsimp only [x2]
    refine Keep.foldl ?_ ?_ _
    · assumption
    · intro x3
      intro x4
      exact State.modCore_keep _ _ _
  clear_value x2
  extract_lets +onlyGivenNames x5
  have k5 : Keep s (x5) := by
    dsimp only [x5]
    refine Keep.foldl ?_ ?_ _
    · assumption
    · intro x6
      intro x7
      exact State.windowOut_keep _ _
  clear_value x5
  extract_lets +onlyGivenNames x8
  have k8 : Keep s (x8) := by
    dsimp only [x8]
    refine Keep.foldl ?_ ?_ _
    · exact Keep.trans ‹_› (State.traceSwitch_keep _ _ _)
    · intro x9
      intro x10
      exact State.modCore_keep _ _ _
  clear_value x8
  extract_lets +onlyGivenNames x11
  have k11 : Keep s (x11) := by
    dsimp only [x11]
    refine Keep.trans ?_ (State.forgetLast_keep _ _)
    exact Keep.trans ‹_› (State.leaveBench_keep _ _)
  clear_value x11
  extract_lets +onlyGivenNames x12
  have k12 : Keep s (x12) := by
    dsimp only [x12]
    refine Keep.foldl ?_ ?_ _
    · assumption
    · intro x13
      intro x14
      refine Keep.foldl ?_ ?_ _
      · exact Keep.refl _
      · intro x15
        intro x16
        exact State.dropRef_keep _ _
  clear_value x12
  extract_lets +onlyGivenNames x17
  have k17 : Keep s (x17) := by
    dsimp only [x17]
    exact Keep.trans ‹_› (State.abandon_keep _ _)
  clear_value x17
  extract_lets +onlyGivenNames x18
  clear_value x18
  extract_lets +onlyGivenNames x19
  have k19 : Keep s (x19) := by
    dsimp only [x19]
    split
    · exact Keep.trans ‹_› (State.farWrite_keep _ _ _)
    · assumption
  clear_value x19
  refine Keep.ite ?_ ?_
  · exact Keep.trans ‹_› (State.freeCtx_keep _ _)
  · refine Keep.trans ?_ (State.ctxEvent_keep _ _ _)
    exact Keep.trans ‹_› (State.modCtx_keep _ _ _)

/-! ### Machine/Contexts.lean -/

theorem State.readQdt_keep (s : State) (p : Plan) : Keep s (State.readQdt s p).1 := by
  unfold State.readQdt
  extract_lets +onlyGivenNames x1
  clear_value x1
  extract_lets +onlyGivenNames x2
  have k2 : Keep s (x2.1) := by
    dsimp only [x2]
    exact State.fread_keep _ _ _
  clear_value x2
  assumption

theorem State.loadQueues_keep (s : State) (c : Nat) (p : Plan) (ds : List (List Nat)) : Keep s (State.loadQueues s c p ds) := by
  unfold State.loadQueues
  extract_lets +onlyGivenNames x1
  clear_value x1
  extract_lets +onlyGivenNames x2
  clear_value x2
  refine Keep.foldl ?_ ?_ _
  · exact Keep.refl _
  · intro x3
    intro x4
    exact State.modQueue_keep _ _ _ _

theorem State.takeRouters_keep (s : State) (c : Nat) (p : Plan) : Keep s (State.takeRouters s c p) := by
  unfold State.takeRouters
  refine Keep.upd ?_ rfl
  exact Keep.refl _

theorem State.takeHub_keep (s : State) (c : Nat) (slots : List (Nat × Nat)) (units : List (PlanUnit × Nat)) : Keep s (State.takeHub s c slots units) := by
  unfold State.takeHub
  refine Keep.upd ?_ rfl
  exact Keep.refl _

theorem State.switchIn_keep (s : State) (c : Nat) (image : Plan) : Keep s (State.switchIn s c image) := by
  unfold State.switchIn
  extract_lets +onlyGivenNames x1
  clear_value x1
  extract_lets +onlyGivenNames x2
  have k2 : Keep s (x2.1) := by
    dsimp only [x2]
    exact State.readQdt_keep _ _
  clear_value x2
  split
  · exact Keep.trans ‹_› (State.foremanFault_keep _ _ _)
  · extract_lets +onlyGivenNames x3
    have k3 : Keep s (x3) := by
      dsimp only [x3]
      assumption
    clear_value x3
    extract_lets +onlyGivenNames x4
    clear_value x4
    extract_lets +onlyGivenNames x5
    clear_value x5
    extract_lets +onlyGivenNames x6
    clear_value x6
    extract_lets +onlyGivenNames x7
    have k7 : Keep s (x7) := by
      dsimp only [x7]
      refine Keep.upd ?_ rfl
      assumption
    clear_value x7
    extract_lets +onlyGivenNames x8
    have k8 : Keep s (x8) := by
      dsimp only [x8]
      refine Keep.trans ?_ (State.takeHub_keep _ _ _ _)
      exact Keep.trans ‹_› (State.takeRouters_keep _ _ _)
    clear_value x8
    extract_lets +onlyGivenNames x9
    have k9 : Keep s (x9) := by
      dsimp only [x9]
      refine Keep.foldl ?_ ?_ _
      · assumption
      · intro x10
        intro x11
        exact State.modCore_keep _ _ _
    clear_value x9
    extract_lets +onlyGivenNames x12
    have k12 : Keep s (x12) := by
      dsimp only [x12]
      exact Keep.trans ‹_› (State.modCtx_keep _ _ _)
    clear_value x12
    extract_lets +onlyGivenNames x13
    have k13 : Keep s (x13.1) := by
      dsimp only [x13]
      refine Keep.ite_fst ?_ ?_
      · exact Keep.trans ‹_› (State.restoreSync_keep _ _)
      · dsimp only
        assumption
    clear_value x13
    refine Keep.ite ?_ ?_
    · refine Keep.trans ?_ (State.leaveBench_keep _ _)
      exact Keep.trans ‹_› (State.clearSync_keep _ _)
    · extract_lets +onlyGivenNames x14
      have k14 : Keep s (x14) := by
        dsimp only [x14]
        exact Keep.trans ‹_› (State.loadQueues_keep _ _ _ _)
      clear_value x14
      extract_lets +onlyGivenNames x15
      have k15 : Keep s (x15) := by
        dsimp only [x15]
        exact Keep.trans ‹_› (State.modCtx_keep _ _ _)
      clear_value x15
      refine Keep.trans ?_ (State.traceSwitch_keep _ _ _)
      refine Keep.trans ?_ (State.tailSwitch_keep _ _ _)
      refine Keep.trans ?_ (State.bump_keep _ _)
      refine Keep.trans ?_ (State.ctxEvent_keep _ _ _)
      exact Keep.trans ‹_› (State.rehalt_keep _ _)

theorem State.readImage_keep (s : State) (a : Nat) : Keep s (State.readImage s a).1 := by
  unfold State.readImage
  extract_lets +onlyGivenNames x1
  have k1 : Keep s (x1.1) := by
    dsimp only [x1]
    exact State.fread_keep _ _ _
  clear_value x1
  split
  · dsimp only
    assumption
  · extract_lets +onlyGivenNames x2
    clear_value x2
    refine Keep.ite_fst ?_ ?_
    · dsimp only
      assumption
    · extract_lets +onlyGivenNames x3
      have k3 : Keep s (x3.1) := by
        dsimp only [x3]
        exact Keep.trans ‹_› (State.fread_keep _ _ _)
      clear_value x3
      split
      · dsimp only
        assumption
      · dsimp only
        assumption

theorem State.tryPlace_keep (s : State) (c : Nat) : Keep s (State.tryPlace s c).1 := by
  unfold State.tryPlace
  extract_lets +onlyGivenNames x1
  clear_value x1
  extract_lets +onlyGivenNames x2
  have k2 : Keep s (x2.1) := by
    dsimp only [x2]
    exact State.readImage_keep _ _
  clear_value x2
  refine Keep.ite_fst ?_ ?_
  · dsimp only
    exact Keep.trans ‹_› (State.foremanFault_keep _ _ _)
  · extract_lets +onlyGivenNames x3
    clear_value x3
    extract_lets +onlyGivenNames x4
    clear_value x4
    extract_lets +onlyGivenNames x5
    clear_value x5
    refine Keep.ite_fst ?_ ?_
    · dsimp only
      exact Keep.trans ‹_› (State.switchIn_keep _ _ _)
    · extract_lets +onlyGivenNames x6
      have k6 : Keep s (x6) := by
        dsimp only [x6]
        exact Keep.trans ‹_› (State.modCtx_keep _ _ _)
      clear_value x6
      dsimp only
      refine Keep.ite ?_ ?_
      · exact Keep.trans ‹_› (State.ctxEvent_keep _ _ _)
      · exact Keep.trans ‹_› (State.bump_keep _ _)

theorem State.markYielding_keep (s : State) (first : Option (Nat × Nat)) : Keep s (State.markYielding s first) := by
  unfold State.markYielding
  extract_lets +onlyGivenNames x1
  have k1 : Keep s (x1) := by
    dsimp only [x1]
    refine Keep.upd ?_ rfl
    exact Keep.refl _
  clear_value x1
  split
  · assumption
  · extract_lets +onlyGivenNames x2
    clear_value x2
    extract_lets +onlyGivenNames x3
    clear_value x3
    refine Keep.upd ?_ rfl
    assumption

theorem State.placeAll_keep (s : State) : Keep s (State.placeAll s) := by
  unfold State.placeAll
  extract_lets +onlyGivenNames x1
  have k1 : Keep s (x1.1) := by
    dsimp only [x1]
    refine Keep.foldl_fst ?_ ?_ _
    · dsimp only
      exact Keep.refl _
    · intro x2
      intro x3
      dsimp only
      exact State.tryPlace_keep _ _
  clear_value x1
  exact Keep.trans ‹_› (State.markYielding_keep _ _)

theorem execPlacementAttempt_keep (now : Nat) (s : State) : OutKeep s (execPlacementAttempt now s) := by
  unfold execPlacementAttempt
  extract_lets +onlyGivenNames x1
  have k1 : Keep s (x1) := by
    dsimp only [x1]
    exact State.advanceTo_keep _ _
  clear_value x1
  refine OutKeep.ite ?_ ?_
  · refine OutKeep.next ?_
    exact Keep.trans ‹_› (State.placeAll_keep _)
  · refine OutKeep.next ?_
    assumption

theorem State.applyWindows_keep (s : State) (c : Nat) : Keep s (State.applyWindows s c) := by
  unfold State.applyWindows
  extract_lets +onlyGivenNames x1
  clear_value x1
  extract_lets +onlyGivenNames x2
  have k2 : Keep s (x2) := by
    dsimp only [x2]
    exact State.modCtx_keep _ _ _
  clear_value x2
  refine Keep.foldl ?_ ?_ _
  · assumption
  · intro x3
    intro x4
    refine Keep.ite ?_ ?_
    · exact State.reply_keep _ _ _ _
    · refine Keep.trans ?_ (State.reply_keep _ _ _ _)
      refine Keep.trans ?_ (State.ctxEvent_keep _ _ _)
      exact State.putWindow_keep _ _ _ _

theorem State.storeQueues_keep (s : State) (c : Nat) : Keep s (State.storeQueues s c) := by
  unfold State.storeQueues
  extract_lets +onlyGivenNames x1
  clear_value x1
  extract_lets +onlyGivenNames x2
  clear_value x2
  refine Keep.foldl ?_ ?_ _
  · exact Keep.refl _
  · intro x3
    intro x4
    extract_lets +onlyGivenNames x5
    clear_value x5
    extract_lets +onlyGivenNames x6
    clear_value x6
    extract_lets +onlyGivenNames x7
    have k7 : Keep x3 (x7.1) := by
      dsimp only [x7]
      exact State.farWrite_keep _ _ _
    clear_value x7
    refine Keep.ite ?_ ?_
    · assumption
    · exact Keep.trans ‹_› (State.foremanFault_keep _ _ _)

theorem State.switchOut_keep (s : State) (c : Nat) : Keep s (State.switchOut s c) := by
  unfold State.switchOut
  extract_lets +onlyGivenNames x1
  have k1 : Keep s (x1) := by
    dsimp only [x1]
    exact State.applyWindows_keep _ _
  clear_value x1
  extract_lets +onlyGivenNames x2
  have k2 : Keep s (x2) := by
    dsimp only [x2]
    refine Keep.ite ?_ ?_
    · exact Keep.trans ‹_› (State.saveSync_keep _ _)
    · assumption
  clear_value x2
  extract_lets +onlyGivenNames x3
  have k3 : Keep s (x3) := by
    dsimp only [x3]
    refine Keep.foldl ?_ ?_ _
    · assumption
    · intro x4
      intro x5
      exact State.cacheOut_keep _ _ _
  clear_value x3
  extract_lets +onlyGivenNames x6
  have k6 : Keep s (x6) := by
    dsimp only [x6]
    exact Keep.trans ‹_› (State.storeQueues_keep _ _)
  clear_value x6
  refine Keep.ite ?_ ?_
  · assumption
  · extract_lets +onlyGivenNames x7
    clear_value x7
    extract_lets +onlyGivenNames x8
    have k8 : Keep s (x8) := by
      dsimp only [x8]
      refine Keep.trans ?_ (State.leaveBench_keep _ _)
      refine Keep.trans ?_ (State.clearSync_keep _ _)
      refine Keep.trans ?_ (State.tailSwitch_keep _ _ _)
      exact Keep.trans ‹_› (State.traceSwitch_keep _ _ _)
    clear_value x8
    extract_lets +onlyGivenNames x9
    have k9 : Keep s (x9) := by
      dsimp only [x9]
      exact Keep.trans ‹_› (State.modCtx_keep _ _ _)
    clear_value x9
    refine Keep.trans ?_ (State.ctxEvent_keep _ _ _)
    refine Keep.upd ?_ rfl
    assumption

theorem execWindowApply_keep (s : State) (c : Nat) : OutKeep s (execWindowApply c s) := by
  unfold execWindowApply
  refine OutKeep.ite ?_ ?_
  · refine OutKeep.next ?_
    exact State.switchOut_keep _ _
  · refine OutKeep.next ?_
    exact Keep.refl _

theorem execSwitchOut_keep (c : Nat) (s : State) : OutKeep s (execSwitchOut c s) := by
  unfold execSwitchOut
  refine OutKeep.ite ?_ ?_
  · refine OutKeep.next ?_
    exact State.switchOut_keep _ _
  · refine OutKeep.next ?_
    exact Keep.refl _

theorem execContextSuspend_keep (c now : Nat) (s : State) : OutKeep s (execContextSuspend c now s) := by
  unfold execContextSuspend
  extract_lets +onlyGivenNames x1
  have k1 : Keep s (x1) := by
    dsimp only [x1]
    exact State.advanceTo_keep _ _
  clear_value x1
  extract_lets +onlyGivenNames x2
  clear_value x2
  split
  · refine OutKeep.next ?_
    assumption
  · refine OutKeep.ite ?_ ?_
    · refine OutKeep.next ?_
      assumption
    · extract_lets +onlyGivenNames x3
      have k3 : Keep s (x3) := by
        dsimp only [x3]
        refine Keep.foldl ?_ ?_ _
        · refine Keep.trans ?_ (State.saveSync_keep _ _)
          exact Keep.trans ‹_› (State.saveGangs_keep _ _)
        · intro x4
          intro x5
          exact State.cacheOut_keep _ _ _
      clear_value x3
      refine OutKeep.ite ?_ ?_
      · refine OutKeep.next ?_
        assumption
      · extract_lets +onlyGivenNames x6
        have k6 : Keep s (x6) := by
          dsimp only [x6]
          refine Keep.trans ?_ (State.tailSwitch_keep _ _ _)
          exact Keep.trans ‹_› (State.dropWatches_keep _ _)
        clear_value x6
        extract_lets +onlyGivenNames x7
        have k7 : Keep s (x7) := by
          dsimp only [x7]
          exact Keep.trans ‹_› (State.modCtx_keep _ _ _)
        clear_value x7
        refine OutKeep.next ?_
        refine Keep.trans ?_ (State.bump_keep _ _)
        exact Keep.trans ‹_› (State.ctxEvent_keep _ _ _)

theorem State.rewatch_keep (s : State) (c core unit idx serial : Nat) (w : TWait) : Keep s (State.rewatch s c core unit idx serial w).1 := by
  unfold State.rewatch
  refine Keep.ite_fst ?_ ?_
  · dsimp only
    exact Keep.refl _
  · refine Keep.ite_fst ?_ ?_
    · dsimp only
      exact Keep.refl _
    · dsimp only
      refine Keep.upd ?_ rfl
      exact Keep.refl _

theorem State.resumeQueue_keep (s : State) (c core e : Nat) : Keep s (State.resumeQueue s c core e) := by
  unfold State.resumeQueue
  extract_lets +onlyGivenNames x1
  clear_value x1
  extract_lets +onlyGivenNames x2
  have k2 : Keep s (x2.1) := by
    dsimp only [x2]
    refine Keep.foldl_fst ?_ ?_ _
    · dsimp only
      exact Keep.refl _
    · intro x3
      intro x4
      dsimp only
      exact State.rewatch_keep _ _ _ _ _ _ _
  clear_value x2
  extract_lets +onlyGivenNames x5
  clear_value x5
  extract_lets +onlyGivenNames x6
  have k6 : Keep s (x6) := by
    dsimp only [x6]
    assumption
  clear_value x6
  extract_lets +onlyGivenNames x7
  clear_value x7
  extract_lets +onlyGivenNames x8
  have k8 : Keep s (x8) := by
    dsimp only [x8]
    exact Keep.trans ‹_› (State.setQueue_keep _ _ _ _)
  clear_value x8
  exact Keep.trans ‹_› (State.progress_keep _ _ _)

theorem State.resumeGang_keep (s : State) (c core slot : Nat) : Keep s (State.resumeGang s c core slot) := by
  unfold State.resumeGang
  extract_lets +onlyGivenNames x1
  clear_value x1
  split
  · exact State.setGang_keep _ _ _ _
  · exact State.setGang_keep _ _ _ _
  · split
    · exact Keep.refl _
    · extract_lets +onlyGivenNames x2
      have k2 : Keep s (x2.1) := by
        dsimp only [x2]
        exact State.rewatch_keep _ _ _ _ _ _ _
      clear_value x2
      refine Keep.ite ?_ ?_
      · exact Keep.trans ‹_› (State.setGang_keep _ _ _ _)
      · exact Keep.trans ‹_› (State.setGang_keep _ _ _ _)
  · exact Keep.refl _

theorem State.resumeMoves_keep (s : State) (c core e : Nat) : Keep s (State.resumeMoves s c core e) := by
  unfold State.resumeMoves
  extract_lets +onlyGivenNames x1
  clear_value x1
  refine Keep.foldl ?_ ?_ _
  · exact Keep.refl _
  · intro x2
    intro x3
    refine Keep.ite ?_ ?_
    · exact State.modRec_keep _ _ _ _ _
    · refine Keep.ite ?_ ?_
      · exact Keep.refl _
      · split
        · exact Keep.refl _
        · extract_lets +onlyGivenNames x4
          have k4 : Keep x2 (x4) := by
            dsimp only [x4]
            refine Keep.trans ?_ (State.sendFrame_keep _ _ _)
            exact State.modLinks_keep _ _
          clear_value x4
          extract_lets +onlyGivenNames x5
          have k5 : Keep x2 (x5.1) := by
            dsimp only [x5]
            exact Keep.trans ‹_› (State.openClaim_keep _ _ _ _ _ _ _ _ _ _ _)
          clear_value x5
          exact Keep.trans ‹_› (State.modRec_keep _ _ _ _ _)

theorem State.resume_keep (s : State) (c : Nat) : Keep s (State.resume s c) := by
  unfold State.resume
  extract_lets +onlyGivenNames x1
  have k1 : Keep s (x1.1) := by
    dsimp only [x1]
    exact State.restoreGangs_keep _ _
  clear_value x1
  refine Keep.ite ?_ ?_
  · assumption
  · extract_lets +onlyGivenNames x2
    have k2 : Keep s (x2.1) := by
      dsimp only [x2]
      exact Keep.trans ‹_› (State.restoreSync_keep _ _)
    clear_value x2
    refine Keep.ite ?_ ?_
    · assumption
    · extract_lets +onlyGivenNames x3
      have k3 : Keep s (x3) := by
        dsimp only [x3]
        exact Keep.trans ‹_› (State.modCtx_keep _ _ _)
      clear_value x3
      extract_lets +onlyGivenNames x4
      clear_value x4
      extract_lets +onlyGivenNames x5
      have k5 : Keep s (x5) := by
        dsimp only [x5]
        refine Keep.foldl ?_ ?_ _
        · assumption
        · intro x6
          intro x7
          refine Keep.foldl ?_ ?_ _
          · refine Keep.trans ?_ (State.modCore_keep _ _ _)
            refine Keep.foldl ?_ ?_ _
            · exact State.modCore_keep _ _ _
            · intro x8
              intro x9
              exact State.resumeGang_keep _ _ _ _
          · intro x10
            intro x11
            exact State.resumeQueue_keep _ _ _ _
      clear_value x5
      extract_lets +onlyGivenNames x12
      have k12 : Keep s (x12) := by
        dsimp only [x12]
        exact Keep.trans ‹_› (State.modCtx_keep _ _ _)
      clear_value x12
      extract_lets +onlyGivenNames x13
      have k13 : Keep s (x13) := by
        dsimp only [x13]
        refine Keep.foldl ?_ ?_ _
        · assumption
        · intro x14
          intro x15
          refine Keep.foldl ?_ ?_ _
          · exact Keep.refl _
          · intro x16
            intro x17
            refine Keep.trans ?_ (State.pumpMoves_keep _ _ _)
            exact State.resumeMoves_keep _ _ _ _
      clear_value x13
      refine Keep.trans ?_ (State.tailSwitch_keep _ _ _)
      refine Keep.trans ?_ (State.bump_keep _ _)
      exact Keep.trans ‹_› (State.bump_keep _ _)

theorem execContextKill_keep (c : Nat) (s : State) : OutKeep s (execContextKill c s) := by
  unfold execContextKill
  extract_lets +onlyGivenNames x1
  clear_value x1
  refine OutKeep.ite ?_ ?_
  · refine OutKeep.next ?_
    exact State.killStep1_keep _ _
  · refine OutKeep.next ?_
    exact Keep.refl _

theorem State.forgetTables_keep (s : State) : Keep s (State.forgetTables s) := by
  unfold State.forgetTables
  refine Keep.ite ?_ ?_
  · refine Keep.upd ?_ rfl
    exact Keep.refl _
  · exact Keep.refl _

theorem execKillDrainDone_keep (c : Nat) (s : State) : OutKeep s (execKillDrainDone c s) := by
  unfold execKillDrainDone
  refine OutKeep.ite ?_ ?_
  · refine OutKeep.next ?_
    refine Keep.trans ?_ (State.forgetTables_keep _)
    exact State.killFinish_keep _ _
  · refine OutKeep.next ?_
    exact Keep.refl _

theorem execRefBatchRetire_keep (c k : Nat) (s : State) : OutKeep s (execRefBatchRetire c k s) := by
  unfold execRefBatchRetire
  split
  · refine OutKeep.next ?_
    exact Keep.refl _
  · refine OutKeep.ite ?_ ?_
    · refine OutKeep.next ?_
      exact Keep.refl _
    · refine OutKeep.next ?_
      refine Keep.foldl ?_ ?_ _
      · exact State.modCtx_keep _ _ _
      · intro x1
        intro x2
        exact State.dropRef_keep _ _

theorem State.acceptMark_keep (s : State) (die c mark since : Nat) : Keep s (State.acceptMark s die c mark since) := by
  unfold State.acceptMark
  extract_lets +onlyGivenNames x1
  clear_value x1
  extract_lets +onlyGivenNames x2
  clear_value x2
  extract_lets +onlyGivenNames x3
  clear_value x3
  extract_lets +onlyGivenNames x4
  clear_value x4
  refine Keep.ite ?_ ?_
  · exact Keep.refl _
  · exact State.modCtx_keep _ _ _

theorem execPhaseMark_keep (s : State) (die now : Nat) : OutKeep s (execPhaseMark die now s) := by
  unfold execPhaseMark
  refine OutKeep.ite ?_ ?_
  · extract_lets +onlyGivenNames x1
    have k1 : Keep s (x1) := by
      dsimp only [x1]
      exact State.advanceTo_keep _ _
    clear_value x1
    extract_lets +onlyGivenNames x2
    clear_value x2
    split
    · refine OutKeep.next ?_
      assumption
    · refine OutKeep.ite ?_ ?_
      · refine OutKeep.next ?_
        assumption
      · refine OutKeep.next ?_
        refine Keep.trans ?_ (State.acceptMark_keep _ _ _ _ _)
        refine Keep.upd ?_ rfl
        assumption
  · exact OutKeep.fault

theorem State.doorbell_keep (s : State) (c qid tail : Nat) : Keep s (State.doorbell s c qid tail) := by
  unfold State.doorbell
  extract_lets +onlyGivenNames x1
  clear_value x1
  extract_lets +onlyGivenNames x2
  clear_value x2
  extract_lets +onlyGivenNames x3
  refine Keep.ite ?_ ?_
  · refine Keep.ite ?_ ?_
    · extract_lets +onlyGivenNames x4
      clear_value x4
      refine Keep.trans ?_ (State.count_keep _ _ _ _)
      exact State.setQueue_keep _ _ _ _
    · exact State.modCtx_keep _ _ _
  · exact State.modCtx_keep _ _ _

theorem execQdb_keep (c qid tail : Nat) (s : State) : OutKeep s (execQdb c qid tail s) := by
  unfold execQdb
  refine OutKeep.ite ?_ ?_
  · refine OutKeep.next ?_
    exact State.doorbell_keep _ _ _ _
  · exact OutKeep.fault

/-! ### Machine/Foreman.lean -/

theorem foremanReq_keep (s : State) (code : Nat) (argOk : MailMsg → State → Bool) (service : MailMsg → Bool) (body : ReqRef → MailMsg → State → State) (h_body : ∀ a0 a1 a2, Keep a2 (body a0 a1 a2)) : OutKeep s (foremanReq s code argOk service body) := by
  unfold foremanReq
  refine onRequest_keep _ _ _ _ ?_
  intro x1
  intro x2
  intro x3
  refine Keep.ite ?_ ?_
  · exact State.reply_keep _ _ _ _
  · refine Keep.ite ?_ ?_
    · exact State.reply_keep _ _ _ _
    · refine Keep.ite ?_ ?_
      · exact State.reply_keep _ _ _ _
      · refine Keep.ite ?_ ?_
        · exact State.reply_keep _ _ _ _
        · exact h_body _ _ _

theorem State.forgetObjects_keep (s : State) : Keep s (State.forgetObjects s) := by
  unfold State.forgetObjects
  extract_lets +onlyGivenNames x1
  have k1 : Keep s (x1) := by
    dsimp only [x1]
    refine Keep.foldl ?_ ?_ _
    · exact Keep.refl _
    · intro x2
      intro x3
      exact State.objWrite_keep _ _ _ _ _
  clear_value x1
  refine Keep.upd ?_ rfl
  assumption

theorem execSetTables_keep (s : State) : OutKeep s (execSetTables s) := by
  unfold execSetTables
  refine foremanReq_keep _ _ _ _ _ ?_
  intro x1
  intro x2
  intro x3
  refine Keep.ite ?_ ?_
  · exact State.reply_keep _ _ _ _
  · extract_lets +onlyGivenNames x4
    have k4 : Keep x3 (x4) := by
      dsimp only [x4]
      exact State.forgetObjects_keep _
    clear_value x4
    refine Keep.trans ?_ (State.reply_keep _ _ _ _)
    refine Keep.upd ?_ rfl
    assumption

theorem State.startCtx_keep (s : State) (ref : ReqRef) (c : Nat) : Keep s (State.startCtx s ref c) := by
  unfold State.startCtx
  extract_lets +onlyGivenNames x1
  clear_value x1
  refine Keep.ite ?_ ?_
  · exact State.reply_keep _ _ _ _
  · refine Keep.ite ?_ ?_
    · exact State.reply_keep _ _ _ _
    · extract_lets +onlyGivenNames x2
      have k2 : Keep s (x2.1) := by
        dsimp only [x2]
        exact State.fread_keep _ _ _
      clear_value x2
      split
      · exact Keep.trans ‹_› (State.reply_keep _ _ _ _)
      · extract_lets +onlyGivenNames x3
        clear_value x3
        extract_lets +onlyGivenNames x4
        have k4 : Keep s (x4.1) := by
          dsimp only [x4]
          refine Keep.ite_fst ?_ ?_
          · dsimp only
            assumption
          · exact Keep.trans ‹_› (State.fread_keep _ _ _)
        clear_value x4
        extract_lets +onlyGivenNames x5
        have k5 : Keep s (x5.1) := by
          dsimp only [x5]
          refine Keep.ite_fst ?_ ?_
          · dsimp only
            assumption
          · exact Keep.trans ‹_› (State.fread_keep _ _ _)
        clear_value x5
        extract_lets +onlyGivenNames x6
        clear_value x6
        extract_lets +onlyGivenNames x7
        clear_value x7
        extract_lets +onlyGivenNames x8
        clear_value x8
        extract_lets +onlyGivenNames x9
        have k9 : Keep s (x9) := by
          dsimp only [x9]
          assumption
        clear_value x9
        refine Keep.ite ?_ ?_
        · exact Keep.trans ‹_› (State.reply_keep _ _ _ _)
        · refine Keep.ite ?_ ?_
          · exact Keep.trans ‹_› (State.reply_keep _ _ _ _)
          · extract_lets +onlyGivenNames x10
            have k10 : Keep s (x10) := by
              dsimp only [x10]
              refine Keep.foldl ?_ ?_ _
              · assumption
              · intro x11
                intro x12
                exact State.windowIn_keep _ _
            clear_value x10
            extract_lets +onlyGivenNames x13
            have k13 : Keep s (x13) := by
              dsimp only [x13]
              exact Keep.trans ‹_› (State.setCtx_keep _ _ _)
            clear_value x13
            refine Keep.trans ?_ (State.reply_keep _ _ _ _)
            refine Keep.trans ?_ (State.bump_keep _ _)
            refine Keep.upd ?_ rfl
            assumption

theorem execCtxStart_keep (s : State) : OutKeep s (execCtxStart s) := by
  unfold execCtxStart
  refine foremanReq_keep _ _ _ _ _ ?_
  intro x1
  intro x2
  intro x3
  exact State.startCtx_keep _ _ _

theorem execCtxHold_keep (s : State) : OutKeep s (execCtxHold s) := by
  unfold execCtxHold
  refine foremanReq_keep _ _ _ _ _ ?_
  intro x1
  intro x2
  intro x3
  extract_lets +onlyGivenNames x4
  clear_value x4
  refine Keep.ite ?_ ?_
  · exact State.reply_keep _ _ _ _
  · refine Keep.trans ?_ (State.reply_keep _ _ _ _)
    refine Keep.trans ?_ (State.bump_keep _ _)
    exact State.modCtx_keep _ _ _

theorem execCtxResume_keep (s : State) : OutKeep s (execCtxResume s) := by
  unfold execCtxResume
  refine foremanReq_keep _ _ _ _ _ ?_
  intro x1
  intro x2
  intro x3
  refine Keep.ite ?_ ?_
  · exact State.reply_keep _ _ _ _
  · refine Keep.trans ?_ (State.reply_keep _ _ _ _)
    exact State.resume_keep _ _

theorem execCtxKill_keep (s : State) : OutKeep s (execCtxKill s) := by
  unfold execCtxKill
  refine foremanReq_keep _ _ _ _ _ ?_
  intro x1
  intro x2
  intro x3
  extract_lets +onlyGivenNames x4
  clear_value x4
  extract_lets +onlyGivenNames x5
  clear_value x5
  refine Keep.ite ?_ ?_
  · exact State.reply_keep _ _ _ _
  · refine Keep.ite ?_ ?_
    · exact State.reply_keep _ _ _ _
    · refine Keep.trans ?_ (State.reply_keep _ _ _ _)
      exact State.killWith_keep _ _ _

theorem execCtxDestroy_keep (s : State) : OutKeep s (execCtxDestroy s) := by
  unfold execCtxDestroy
  refine foremanReq_keep _ _ _ _ _ ?_
  intro x1
  intro x2
  intro x3
  refine Keep.ite ?_ ?_
  · exact State.reply_keep _ _ _ _
  · refine Keep.trans ?_ (State.reply_keep _ _ _ _)
    exact State.freeCtx_keep _ _

theorem execSetWindow_keep (s : State) : OutKeep s (execSetWindow s) := by
  unfold execSetWindow
  refine foremanReq_keep _ _ _ _ _ ?_
  intro x1
  intro x2
  intro x3
  extract_lets +onlyGivenNames x4
  clear_value x4
  extract_lets +onlyGivenNames x5
  clear_value x5
  extract_lets +onlyGivenNames x6
  clear_value x6
  refine Keep.ite ?_ ?_
  · exact State.reply_keep _ _ _ _
  · refine Keep.ite ?_ ?_
    · exact State.reply_keep _ _ _ _
    · refine Keep.ite ?_ ?_
      · refine Keep.trans ?_ (State.reply_keep _ _ _ _)
        refine Keep.trans ?_ (State.ctxEvent_keep _ _ _)
        exact State.putWindow_keep _ _ _ _
      · exact State.modCtx_keep _ _ _

theorem execCtxAck_keep (s : State) : OutKeep s (execCtxAck s) := by
  unfold execCtxAck
  refine foremanReq_keep _ _ _ _ _ ?_
  intro x1
  intro x2
  intro x3
  extract_lets +onlyGivenNames x4
  clear_value x4
  refine Keep.trans ?_ (State.reply_keep _ _ _ _)
  refine Keep.trans ?_ (State.bump_keep _ _)
  exact State.modCtx_keep _ _ _

theorem State.findPlace_keep (s : State) (pool owner n : Nat) : Keep s (State.findPlace s pool owner n).1 := by
  unfold State.findPlace
  extract_lets +onlyGivenNames x1
  clear_value x1
  extract_lets +onlyGivenNames x2
  clear_value x2
  extract_lets +onlyGivenNames x3
  clear_value x3
  extract_lets +onlyGivenNames x4
  have k4 : Keep s (x4.2) := by
    dsimp only [x4]
    exact State.draw_keep _
  clear_value x4
  assumption

theorem execObjCreate_keep (s : State) : OutKeep s (execObjCreate s) := by
  unfold execObjCreate
  refine foremanReq_keep _ _ _ _ _ ?_
  intro x1
  intro x2
  intro x3
  extract_lets +onlyGivenNames x4
  clear_value x4
  extract_lets +onlyGivenNames x5
  clear_value x5
  refine Keep.ite ?_ ?_
  · exact State.reply_keep _ _ _ _
  · extract_lets +onlyGivenNames x6
    have k6 : Keep x3 (x6.1) := by
      dsimp only [x6]
      exact State.findPlace_keep _ _ _ _
    clear_value x6
    split
    · exact Keep.trans ‹_› (State.reply_keep _ _ _ _)
    · extract_lets +onlyGivenNames x7
      have k7 : Keep x3 (x7) := by
        dsimp only [x7]
        assumption
      clear_value x7
      extract_lets +onlyGivenNames x8
      clear_value x8
      extract_lets +onlyGivenNames x9
      have k9 : Keep x3 (x9) := by
        dsimp only [x9]
        refine Keep.upd ?_ rfl
        assumption
      clear_value x9
      extract_lets +onlyGivenNames x10
      have k10 : Keep x3 (x10) := by
        dsimp only [x10]
        refine Keep.trans ?_ (State.objWrite_keep _ _ _ _ _)
        refine Keep.trans ?_ (State.objWrite_keep _ _ _ _ _)
        refine Keep.trans ?_ (State.objWrite_keep _ _ _ _ _)
        refine Keep.trans ?_ (State.objWrite_keep _ _ _ _ _)
        exact Keep.trans ‹_› (State.objWrite_keep _ _ _ _ _)
      clear_value x10
      refine Keep.trans ?_ (State.reply_keep _ _ _ _)
      exact Keep.trans ‹_› (State.bump_keep _ _)

theorem execObjHostZero_keep (s : State) : OutKeep s (execObjHostZero s) := by
  unfold execObjHostZero
  refine foremanReq_keep _ _ _ _ _ ?_
  intro x1
  intro x2
  intro x3
  extract_lets +onlyGivenNames x4
  clear_value x4
  refine Keep.ite ?_ ?_
  · exact State.reply_keep _ _ _ _
  · extract_lets +onlyGivenNames x5
    have k5 : Keep x3 (x5) := by
      dsimp only [x5]
      exact State.objWrite_keep _ _ _ _ _
    clear_value x5
    extract_lets +onlyGivenNames x6
    have k6 : Keep x3 (x6.1) := by
      dsimp only [x6]
      exact Keep.trans ‹_› (State.objField_keep _ _ _ _)
    clear_value x6
    refine Keep.trans ?_ (State.reply_keep _ _ _ _)
    refine Keep.ite ?_ ?_
    · exact Keep.trans ‹_› (State.releaseObj_keep _ _)
    · assumption

theorem State.headOf_keep (s : State) (c qid : Nat) : Keep s (State.headOf s c qid).1 := by
  unfold State.headOf
  extract_lets +onlyGivenNames x1
  clear_value x1
  refine Keep.ite_fst ?_ ?_
  · extract_lets +onlyGivenNames x2
    clear_value x2
    extract_lets +onlyGivenNames x3
    have k3 : Keep s (x3.1) := by
      dsimp only [x3]
      exact State.fread_keep _ _ _
    clear_value x3
    assumption
  · extract_lets +onlyGivenNames x4
    clear_value x4
    dsimp only
    exact Keep.refl _

theorem execRefBatch_keep (s : State) : OutKeep s (execRefBatch s) := by
  unfold execRefBatch
  refine foremanReq_keep _ _ _ _ _ ?_
  intro x1
  intro x2
  intro x3
  extract_lets +onlyGivenNames x4
  clear_value x4
  extract_lets +onlyGivenNames x5
  clear_value x5
  refine Keep.ite ?_ ?_
  · exact State.reply_keep _ _ _ _
  · refine Keep.ite ?_ ?_
    · exact State.reply_keep _ _ _ _
    · extract_lets +onlyGivenNames x6
      have k6 : Keep x3 (x6.1) := by
        dsimp only [x6]
        exact State.fread_keep _ _ _
      clear_value x6
      extract_lets +onlyGivenNames x7
      have k7 : Keep x3 (x7.1) := by
        dsimp only [x7]
        exact Keep.trans ‹_› (State.headOf_keep _ _ _)
      clear_value x7
      split
      · extract_lets +onlyGivenNames x8
        clear_value x8
        refine Keep.ite ?_ ?_
        · exact Keep.trans ‹_› (State.reply_keep _ _ _ _)
        · extract_lets +onlyGivenNames x9
          clear_value x9
          extract_lets +onlyGivenNames x10
          have k10 : Keep x3 (x10) := by
            dsimp only [x10]
            refine Keep.foldl ?_ ?_ _
            · assumption
            · intro x11
              intro x12
              exact State.addRef_keep _ _
          clear_value x10
          extract_lets +onlyGivenNames x13
          have k13 : Keep x3 (x13) := by
            dsimp only [x13]
            exact Keep.trans ‹_› (State.modCtx_keep _ _ _)
          clear_value x13
          exact Keep.trans ‹_› (State.reply_keep _ _ _ _)
      · exact Keep.trans ‹_› (State.reply_keep _ _ _ _)

/-! ### Machine/Host.lean -/

theorem State.complete_keep (s : State) (c : Completion) : Keep s (State.complete s c) := by
  unfold State.complete
  exact State.modPci_keep _ _

theorem execBar2Read_keep (offset size : Nat) (s : State) : OutKeep s (execBar2Read offset size s) := by
  unfold execBar2Read
  extract_lets +onlyGivenNames x1
  clear_value x1
  refine OutKeep.ite ?_ ?_
  · refine OutKeep.next ?_
    refine Keep.trans ?_ (State.complete_keep _ _)
    exact State.hostErr_keep _ _
  · refine OutKeep.ite ?_ ?_
    · refine OutKeep.next ?_
      refine Keep.trans ?_ (State.complete_keep _ _)
      exact State.hostErr_keep _ _
    · extract_lets +onlyGivenNames x2
      clear_value x2
      extract_lets +onlyGivenNames x3
      clear_value x3
      extract_lets +onlyGivenNames x4
      have k4 : Keep s (x4.1) := by
        dsimp only [x4]
        exact State.farRead_keep _ _ _
      clear_value x4
      split
      · refine OutKeep.next ?_
        exact Keep.trans ‹_› (State.complete_keep _ _)
      · extract_lets +onlyGivenNames x5
        have k5 : Keep s (x5) := by
          dsimp only [x5]
          refine Keep.trans ?_ (State.complete_keep _ _)
          exact Keep.trans ‹_› (State.hostErr_keep _ _)
        clear_value x5
        refine OutKeep.next ?_
        refine Keep.foldl ?_ ?_ _
        · assumption
        · intro x6
          intro x7
          exact State.event_keep _ _ _

theorem execBar2Write_keep (offset : Nat) (data : List Byte) (s : State) : OutKeep s (execBar2Write offset data s) := by
  unfold execBar2Write
  extract_lets +onlyGivenNames x1
  clear_value x1
  refine OutKeep.ite ?_ ?_
  · refine OutKeep.next ?_
    exact State.hostErr_keep _ _
  · refine OutKeep.ite ?_ ?_
    · refine OutKeep.next ?_
      exact State.hostErr_keep _ _
    · refine OutKeep.next ?_
      exact State.farWrite_keep _ _ _

theorem State.flushHeld_keep (s : State) : Keep s (State.flushHeld s) := by
  unfold State.flushHeld
  refine Keep.ite ?_ ?_
  · extract_lets +onlyGivenNames x1
    clear_value x1
    refine Keep.foldl ?_ ?_ _
    · refine Keep.upd ?_ rfl
      exact Keep.refl _
    · intro x2
      intro x3
      exact State.event_keep _ _ _
  · exact Keep.refl _

theorem execEvqCommit_keep (s : State) : OutKeep s (execEvqCommit s) := by
  unfold execEvqCommit
  refine OutKeep.next ?_
  refine Keep.trans ?_ (State.flushHeld_keep _)
  exact State.modPci_keep _ _

theorem execMailboxSend_keep (channel sender header : Nat) (s : State) : OutKeep s (execMailboxSend channel sender header s) := by
  unfold execMailboxSend
  refine OutKeep.ite ?_ ?_
  · extract_lets +onlyGivenNames x1
    clear_value x1
    refine OutKeep.next ?_
    exact State.mailIn_keep _ _ _ _
  · exact OutKeep.fault

theorem execRpop_keep (channel : Nat) (s : State) : OutKeep s (execRpop channel s) := by
  unfold execRpop
  refine OutKeep.ite ?_ ?_
  · refine OutKeep.next ?_
    exact State.modChan_keep _ _ _
  · exact OutKeep.fault

theorem State.clearBell_keep (s : State) (bit : Nat) : Keep s (State.clearBell s bit) := by
  unfold State.clearBell
  exact State.modPci_keep _ _

theorem execDbClr_keep (mask sets : W32) (s : State) : OutKeep s (execDbClr mask sets s) := by
  unfold execDbClr
  refine OutKeep.next ?_
  exact State.modPci_keep _ _

theorem execPlace_keep (now : Nat) (s : State) : OutKeep s (execPlace now s) := by
  unfold execPlace
  extract_lets +onlyGivenNames x1
  have k1 : Keep s (x1) := by
    dsimp only [x1]
    exact State.advanceTo_keep _ _
  clear_value x1
  refine OutKeep.ite ?_ ?_
  · refine OutKeep.next ?_
    refine Keep.trans ?_ (State.clearBell_keep _ _)
    refine Keep.ite ?_ ?_
    · exact Keep.trans ‹_› (State.placeAll_keep _)
    · assumption
  · refine OutKeep.next ?_
    assumption

theorem State.holdAll_keep (s : State) : Keep s (State.holdAll s) := by
  unfold State.holdAll
  refine Keep.foldl ?_ ?_ _
  · exact Keep.refl _
  · intro x1
    intro x2
    refine Keep.ite ?_ ?_
    · refine Keep.trans ?_ (State.bump_keep _ _)
      exact State.modCtx_keep _ _ _
    · exact Keep.refl _

theorem execDriverDown_keep (s : State) : OutKeep s (execDriverDown s) := by
  unfold execDriverDown
  refine OutKeep.ite ?_ ?_
  · extract_lets +onlyGivenNames x1
    have k1 : Keep s (x1) := by
      dsimp only [x1]
      exact State.holdAll_keep _
    clear_value x1
    refine OutKeep.next ?_
    refine Keep.ite ?_ ?_
    · exact Keep.trans ‹_› (State.clearBell_keep _ _)
    · assumption
  · refine OutKeep.next ?_
    exact Keep.refl _

theorem execSense_keep (s : State) : OutKeep s (execSense s) := by
  unfold execSense
  refine OutKeep.ite ?_ ?_
  · refine OutKeep.next ?_
    refine Keep.upd ?_ rfl
    exact Keep.refl _
  · refine OutKeep.next ?_
    exact Keep.refl _

theorem execLinks_keep (s : State) : OutKeep s (execLinks s) := by
  unfold execLinks
  refine OutKeep.ite ?_ ?_
  · refine OutKeep.next ?_
    refine Keep.trans ?_ (State.clearBell_keep _ _)
    exact State.bump_keep _ _
  · refine OutKeep.next ?_
    exact Keep.refl _

theorem execDbStray_keep (core bit : Nat) (s : State) : OutKeep s (execDbStray core bit s) := by
  unfold execDbStray
  refine OutKeep.ite ?_ ?_
  · refine OutKeep.ite ?_ ?_
    · refine OutKeep.next ?_
      refine Keep.trans ?_ (State.modPci_keep _ _)
      exact State.clearBell_keep _ _
    · refine OutKeep.next ?_
      exact Keep.refl _
  · exact OutKeep.fault

theorem State.fwUpdate_keep (s : State) : Keep s (State.fwUpdate s) := by
  unfold State.fwUpdate
  refine Keep.ite ?_ ?_
  · exact State.modPci_keep _ _
  · exact Keep.refl _

theorem execPerstDeassert_keep (now : Nat) (s : State) : OutKeep s (execPerstDeassert now s) := by
  unfold execPerstDeassert
  extract_lets +onlyGivenNames x1
  have k1 : Keep s (x1) := by
    dsimp only [x1]
    exact State.advanceTo_keep _ _
  clear_value x1
  refine OutKeep.ite ?_ ?_
  · refine OutKeep.next ?_
    refine Keep.trans ?_ (State.fwUpdate_keep _)
    exact Keep.trans ‹_› (State.modPci_keep _ _)
  · refine OutKeep.next ?_
    assumption

theorem execLinkTrained_keep (speed width : Nat) (flit : Bool) (s : State) : OutKeep s (execLinkTrained speed width flit s) := by
  unfold execLinkTrained
  refine OutKeep.ite ?_ ?_
  · refine OutKeep.next ?_
    exact State.modPci_keep _ _
  · refine OutKeep.next ?_
    exact Keep.refl _

theorem execGatekeeperOnly_keep (now : Nat) (s : State) : OutKeep s (execGatekeeperOnly now s) := by
  unfold execGatekeeperOnly
  extract_lets +onlyGivenNames x1
  have k1 : Keep s (x1) := by
    dsimp only [x1]
    exact State.advanceTo_keep _ _
  clear_value x1
  refine OutKeep.ite ?_ ?_
  · refine OutKeep.next ?_
    exact Keep.trans ‹_› (State.modPci_keep _ _)
  · refine OutKeep.next ?_
    assumption

/-! ### Machine/Debug.lean -/

theorem onCore_keep (core : Nat) (s : State) (f : State → State) (h_f : ∀ a0, Keep a0 (f a0)) : OutKeep s (onCore core s f) := by
  unfold onCore
  refine OutKeep.ite ?_ ?_
  · refine OutKeep.next ?_
    exact h_f _
  · exact OutKeep.fault

theorem execClear_keep (core : Nat) (s : State) : OutKeep s (execClear core s) := by
  unfold execClear
  refine onCore_keep _ _ _ ?_
  intro x1
  exact State.modCore_keep _ _ _

theorem execCounterRecordWrite_keep (core : Nat) (s : State) : OutKeep s (execCounterRecordWrite core s) := by
  unfold execCounterRecordWrite
  refine onCore_keep _ _ _ ?_
  intro x1
  split
  · exact Keep.refl _
  · extract_lets +onlyGivenNames x2
    have k2 : Keep x1 (x2) := by
      dsimp only [x2]
      exact State.modCore_keep _ _ _
    clear_value x2
    extract_lets +onlyGivenNames x3
    extract_lets +onlyGivenNames x4
    have k4 : Keep x1 (x4.1) := by
      dsimp only [x4]
      exact Keep.trans ‹_› (State.farWrite_keep _ _ _)
    clear_value x4
    extract_lets +onlyGivenNames x5
    have k5 : Keep x1 (x5) := by
      dsimp only [x5]
      refine Keep.ite ?_ ?_
      · dsimp only [x3]
        exact Keep.trans ‹_› (State.recFault_keep _ _ _ _ _ _ _ _)
      · refine Keep.ite ?_ ?_
        · assumption
        · dsimp only [x3]
          exact Keep.trans ‹_› (State.recFault_keep _ _ _ _ _ _ _ _)
    clear_value x5
    refine Keep.ite ?_ ?_
    · assumption
    · refine Keep.foldl ?_ ?_ _
      · assumption
      · intro x6
        intro x7
        refine Keep.trans ?_ (State.moveHead_keep _ _ _)
        exact State.retireLate_keep _ _ _

theorem execTraceDrain_keep (core : Nat) (s : State) : OutKeep s (execTraceDrain core s) := by
  unfold execTraceDrain
  refine onCore_keep _ _ _ ?_
  intro x1
  exact State.modCore_keep _ _ _

theorem execTraceChunkDone_keep (core : Nat) (s : State) : OutKeep s (execTraceChunkDone core s) := by
  unfold execTraceChunkDone
  refine onCore_keep _ _ _ ?_
  intro x1
  extract_lets +onlyGivenNames x2
  clear_value x2
  refine Keep.ite ?_ ?_
  · exact Keep.refl _
  · refine Keep.ite ?_ ?_
    · exact State.modCore_keep _ _ _
    · extract_lets +onlyGivenNames x3
      have k3 : Keep x1 (x3) := by
        dsimp only [x3]
        exact State.farWrite_keep _ _ _
      clear_value x3
      exact Keep.trans ‹_› (State.modCore_keep _ _ _)

theorem execTraceCommit_keep (core : Nat) (s : State) : OutKeep s (execTraceCommit core s) := by
  unfold execTraceCommit
  refine onCore_keep _ _ _ ?_
  intro x1
  exact State.modCore_keep _ _ _

theorem execEpochRecord_keep (core : Nat) (s : State) : OutKeep s (execEpochRecord core s) := by
  unfold execEpochRecord
  refine onCore_keep _ _ _ ?_
  intro x1
  extract_lets +onlyGivenNames x2
  clear_value x2
  refine Keep.ite ?_ ?_
  · exact State.setCore_keep _ _ _
  · exact Keep.refl _

theorem execCtxHalt_keep (c : Nat) (value : Bool) (s : State) : OutKeep s (execCtxHalt c value s) := by
  unfold execCtxHalt
  refine OutKeep.ite ?_ ?_
  · refine OutKeep.next ?_
    refine Keep.foldl ?_ ?_ _
    · exact Keep.refl _
    · intro x1
      intro x2
      refine Keep.foldl ?_ ?_ _
      · exact Keep.refl _
      · intro x3
        intro x4
        exact State.haltQueue_keep _ _ _ _
  · refine OutKeep.next ?_
    exact Keep.refl _

theorem execSoundingCommit_keep (port : Nat) (s : State) : OutKeep s (execSoundingCommit port s) := by
  unfold execSoundingCommit
  refine OutKeep.ite ?_ ?_
  · extract_lets +onlyGivenNames x1
    clear_value x1
    extract_lets +onlyGivenNames x2
    clear_value x2
    extract_lets +onlyGivenNames x3
    clear_value x3
    extract_lets +onlyGivenNames x4
    clear_value x4
    extract_lets +onlyGivenNames x5
    have k5 : Keep s (x5) := by
      dsimp only [x5]
      exact State.setPort_keep _ _ _
    clear_value x5
    refine OutKeep.ite ?_ ?_
    · refine OutKeep.next ?_
      assumption
    · refine OutKeep.ite ?_ ?_
      · extract_lets +onlyGivenNames x6
        have k6 : Keep s (x6) := by
          dsimp only [x6]
          refine Keep.trans ?_ (State.portState_keep _ _ _)
          exact Keep.trans ‹_› (State.setPort_keep _ _ _)
        clear_value x6
        refine OutKeep.next ?_
        refine Keep.ite ?_ ?_
        · exact Keep.trans ‹_› (State.setPair_keep _ _ _)
        · assumption
      · refine OutKeep.ite ?_ ?_
        · refine OutKeep.next ?_
          exact Keep.trans ‹_› (State.train_keep _ _)
        · refine OutKeep.next ?_
          assumption
  · exact OutKeep.fault

theorem execInject_keep (port : Nat) (s : State) : OutKeep s (execInject port s) := by
  unfold execInject
  refine OutKeep.ite ?_ ?_
  · extract_lets +onlyGivenNames x1
    clear_value x1
    refine OutKeep.ite ?_ ?_
    · refine OutKeep.next ?_
      exact State.setPort_keep _ _ _
    · refine OutKeep.next ?_
      exact Keep.refl _
  · exact OutKeep.fault

theorem State.setBridge_keep (s : State) (j : Nat) (b : BridgeSound) : Keep s (State.setBridge s j b) := by
  unfold State.setBridge
  refine Keep.upd ?_ rfl
  exact Keep.refl _

theorem execLock_keep (bridge : Bool) (port lane : Nat) (s : State) : OutKeep s (execLock bridge port lane s) := by
  unfold execLock
  refine OutKeep.ite ?_ ?_
  · refine OutKeep.ite ?_ ?_
    · extract_lets +onlyGivenNames x1
      clear_value x1
      refine OutKeep.next ?_
      refine Keep.ite ?_ ?_
      · exact State.setBridge_keep _ _ _
      · exact Keep.refl _
    · exact OutKeep.fault
  · refine OutKeep.ite ?_ ?_
    · extract_lets +onlyGivenNames x2
      clear_value x2
      refine OutKeep.ite ?_ ?_
      · refine OutKeep.next ?_
        exact State.setPort_keep _ _ _
      · refine OutKeep.next ?_
        exact Keep.refl _
    · exact OutKeep.fault

theorem execLost_keep (port lane : Nat) (s : State) : OutKeep s (execLost port lane s) := by
  unfold execLost
  refine OutKeep.ite ?_ ?_
  · extract_lets +onlyGivenNames x1
    clear_value x1
    extract_lets +onlyGivenNames x2
    clear_value x2
    split
    · refine OutKeep.ite ?_ ?_
      · refine OutKeep.next ?_
        exact State.setPort_keep _ _ _
      · refine OutKeep.next ?_
        exact Keep.refl _
    · refine OutKeep.next ?_
      exact Keep.refl _
  · exact OutKeep.fault

theorem execStart_keep (j : Nat) (s : State) : OutKeep s (execStart j s) := by
  unfold execStart
  refine OutKeep.ite ?_ ?_
  · extract_lets +onlyGivenNames x1
    clear_value x1
    refine OutKeep.ite ?_ ?_
    · refine OutKeep.next ?_
      exact State.setBridge_keep _ _ _
    · refine OutKeep.ite ?_ ?_
      · refine OutKeep.next ?_
        exact Keep.refl _
      · refine OutKeep.next ?_
        exact State.setBridge_keep _ _ _
  · exact OutKeep.fault

theorem execBridgeSoundingEnd_keep (j : Nat) (s : State) : OutKeep s (execBridgeSoundingEnd j s) := by
  unfold execBridgeSoundingEnd
  refine OutKeep.ite ?_ ?_
  · extract_lets +onlyGivenNames x1
    clear_value x1
    refine OutKeep.ite ?_ ?_
    · refine OutKeep.next ?_
      exact Keep.refl _
    · extract_lets +onlyGivenNames x2
      have k2 : Keep s (x2.2) := by
        dsimp only [x2]
        exact State.draw_keep _
      clear_value x2
      extract_lets +onlyGivenNames x3
      clear_value x3
      extract_lets +onlyGivenNames x4
      clear_value x4
      refine OutKeep.next ?_
      exact Keep.trans ‹_› (State.setBridge_keep _ _ _)
  · exact OutKeep.fault

theorem execSelfTestComplete_keep (cores : List CoreFail) (bridges : List Nat) (s : State) : OutKeep s (execSelfTestComplete cores bridges s) := by
  unfold execSelfTestComplete
  refine OutKeep.ite ?_ ?_
  · refine OutKeep.ite ?_ ?_
    · refine OutKeep.next ?_
      exact Keep.refl _
    · extract_lets +onlyGivenNames x1
      clear_value x1
      extract_lets +onlyGivenNames x2
      clear_value x2
      extract_lets +onlyGivenNames x3
      clear_value x3
      extract_lets +onlyGivenNames x4
      clear_value x4
      extract_lets +onlyGivenNames x5
      have k5 : Keep s (x5) := by
        dsimp only [x5]
        refine Keep.foldl ?_ ?_ _
        · exact Keep.refl _
        · intro x6
          intro x7
          exact State.modCore_keep _ _ _
      clear_value x5
      extract_lets +onlyGivenNames x8
      clear_value x8
      extract_lets +onlyGivenNames x9
      have k9 : Keep s (x9) := by
        dsimp only [x9]
        refine Keep.upd ?_ rfl
        assumption
      clear_value x9
      refine OutKeep.next ?_
      refine Keep.trans ?_ (State.fwUpdate_keep _)
      refine Keep.trans ?_ (State.flushHeld_keep _)
      exact Keep.trans ‹_› (State.bump_keep _ _)
  · exact OutKeep.fault

end Sys2Proof.Machine
end

