-- ==== Sys2Proof/Laws/KeepModule.lean ====
section
/-! SUPPORT. What every operation keeps (`Keep`: the queue of waiting commands, and the canonical form of far and host memory): removal, sites, trust, resets, power and register writes. -/

namespace Sys2Proof.Machine

/-! ### Machine/RemovalOps.lean -/

theorem State.removal_keep (s : State) (st : RemoveState) (cancelled : Bool) : Keep s (State.removal s st cancelled) := by
  unfold State.removal
  extract_lets +onlyGivenNames x1
  clear_value x1
  extract_lets +onlyGivenNames x2
  have k2 : Keep s (x2) := by
    dsimp only [x2]
    refine Keep.upd ?_ rfl
    exact Keep.refl _
  clear_value x2
  exact Keep.trans ‹_› (State.event_keep _ _ _)

theorem State.depart_keep (s : State) : Keep s (State.depart s) := by
  unfold State.depart
  extract_lets +onlyGivenNames x1
  clear_value x1
  extract_lets +onlyGivenNames x2
  have k2 : Keep s (x2) := by
    dsimp only [x2]
    exact State.modTwin_keep _ _
  clear_value x2
  extract_lets +onlyGivenNames x3
  have k3 : Keep s (x3) := by
    dsimp only [x3]
    refine Keep.ite ?_ ?_
    · assumption
    · refine Keep.ite ?_ ?_
      · exact Keep.trans ‹_› (State.sendTwin_keep _ _)
      · exact Keep.trans ‹_› (State.sendFrame_keep _ _ _)
  clear_value x3
  extract_lets +onlyGivenNames x4
  clear_value x4
  extract_lets +onlyGivenNames x5
  have k5 : Keep s (x5) := by
    dsimp only [x5]
    refine Keep.upd ?_ rfl
    assumption
  clear_value x5
  extract_lets +onlyGivenNames x6
  have k6 : Keep s (x6) := by
    dsimp only [x6]
    exact Keep.trans ‹_› (State.holdAll_keep _)
  clear_value x6
  extract_lets +onlyGivenNames x7
  have k7 : Keep s (x7) := by
    dsimp only [x7]
    refine Keep.foldl ?_ ?_ _
    · assumption
    · intro x8
      intro x9
      refine Keep.ite ?_ ?_
      · exact State.killWith_keep _ _ _
      · exact Keep.refl _
  clear_value x7
  exact Keep.trans ‹_› (State.removal_keep _ _ _)

theorem State.startRemoval_keep (s : State) : Keep s (State.startRemoval s) := by
  unfold State.startRemoval
  extract_lets +onlyGivenNames x1
  have k1 : Keep s (x1) := by
    dsimp only [x1]
    exact State.modTwin_keep _ _
  clear_value x1
  extract_lets +onlyGivenNames x2
  clear_value x2
  extract_lets +onlyGivenNames x3
  have k3 : Keep s (x3) := by
    dsimp only [x3]
    refine Keep.trans ?_ (State.removal_keep _ _ _)
    refine Keep.upd ?_ rfl
    assumption
  clear_value x3
  refine Keep.ite ?_ ?_
  · exact Keep.trans ‹_› (State.depart_keep _)
  · assumption

theorem State.removalWaits_keep (s : State) : Keep s (State.removalWaits s) := by
  unfold State.removalWaits
  refine Keep.ite ?_ ?_
  · exact State.startRemoval_keep _
  · exact Keep.refl _

/-! ### Machine/SiteOps.lean -/

theorem State.enablePorts_keep (s : State) (mask : Nat) : Keep s (State.enablePorts s mask) := by
  unfold State.enablePorts
  refine Keep.foldl ?_ ?_ _
  · exact Keep.refl _
  · intro x1
    intro x2
    extract_lets +onlyGivenNames x3
    clear_value x3
    refine Keep.trans ?_ (State.portState_keep _ _ _)
    exact State.setPort_keep _ _ _

theorem State.applySite_keep (s : State) (v : SiteVals) : Keep s (State.applySite s v) := by
  unfold State.applySite
  extract_lets +onlyGivenNames x1
  clear_value x1
  extract_lets +onlyGivenNames x2
  extract_lets +onlyGivenNames x3
  clear_value x3
  extract_lets +onlyGivenNames x4
  clear_value x4
  extract_lets +onlyGivenNames x5
  clear_value x5
  extract_lets +onlyGivenNames x6
  clear_value x6
  extract_lets +onlyGivenNames x7
  have k7 : Keep s (x7) := by
    dsimp only [x7]
    refine Keep.upd ?_ rfl
    exact Keep.refl _
  clear_value x7
  refine Keep.trans ?_ (State.removalWaits_keep _)
  refine Keep.trans ?_ (State.fwUpdate_keep _)
  exact Keep.trans ‹_› (State.enablePorts_keep _ _)

/-! ### Machine/Trust.lean -/

theorem State.modTrust_keep (s : State) (f : Trust → Trust) (ho : (f s.trust).owners = s.trust.owners)
    (hr : (f s.trust).rollback = s.trust.rollback) : Keep s (State.modTrust s f) := by
  unfold State.modTrust
  exact Keep.updTrust (Keep.refl _) rfl (OtpKeep.same ho hr)

theorem State.modTrust_keepOtp (s : State) (f : Trust → Trust) (h : OtpKeep s.trust (f s.trust)) : Keep s (State.modTrust s f) := by
  unfold State.modTrust
  exact Keep.updTrust (Keep.refl _) rfl h

theorem Trust.setSlot_owners (t : Trust) (i : Nat) (x : FwSlot) : (t.setSlot i x).owners = t.owners := by
  unfold Trust.setSlot; split <;> rfl

theorem Trust.setSlot_rollback (t : Trust) (i : Nat) (x : FwSlot) : (t.setSlot i x).rollback = t.rollback := by
  unfold Trust.setSlot; split <;> rfl

theorem Trust.setBuf_owners (t : Trust) (b : Nat) (x : Mem) : (t.setBuf b x).owners = t.owners := by
  unfold Trust.setBuf; split <;> rfl

theorem Trust.setBuf_rollback (t : Trust) (b : Nat) (x : Mem) : (t.setBuf b x).rollback = t.rollback := by
  unfold Trust.setBuf; split <;> rfl

theorem execFallback_keep (s : State) : OutKeep s (execFallback s) := by
  unfold execFallback
  extract_lets +onlyGivenNames x1
  clear_value x1
  refine OutKeep.ite ?_ ?_
  · refine OutKeep.next ?_
    exact Keep.refl _
  · extract_lets +onlyGivenNames x2
    clear_value x2
    refine OutKeep.ite ?_ ?_
    · extract_lets +onlyGivenNames x3
      have k3 : Keep s (x3) := by
        dsimp only [x3]
        exact State.modTrust_keep _ _ rfl rfl
      clear_value x3
      refine OutKeep.next ?_
      refine Keep.trans ?_ (State.flushHeld_keep _)
      refine Keep.upd ?_ rfl
      assumption
    · refine OutKeep.next ?_
      refine Keep.trans ?_ (State.modPci_keep _ _)
      exact State.modTrust_keep _ _ rfl rfl

theorem execSiteImageApply_keep (copyA copyB : List Byte) (readsB : Bool) (s : State) : OutKeep s (execSiteImageApply copyA copyB readsB s) := by
  unfold execSiteImageApply
  refine OutKeep.ite ?_ ?_
  · refine OutKeep.next ?_
    exact Keep.refl _
  · extract_lets +onlyGivenNames x1
    clear_value x1
    extract_lets +onlyGivenNames x2
    clear_value x2
    extract_lets +onlyGivenNames x3
    clear_value x3
    extract_lets +onlyGivenNames x4
    clear_value x4
    extract_lets +onlyGivenNames x5
    clear_value x5
    refine OutKeep.ite ?_ ?_
    · refine OutKeep.next ?_
      exact State.applySite_keep _ _
    · extract_lets +onlyGivenNames x6
      clear_value x6
      extract_lets +onlyGivenNames x7
      clear_value x7
      extract_lets +onlyGivenNames x8
      clear_value x8
      refine OutKeep.next ?_
      exact State.applySite_keep _ _

theorem execFwBegin_keep (s : State) : OutKeep s (execFwBegin s) := by
  unfold execFwBegin
  refine onRequest_keep _ _ _ _ ?_
  intro x1
  intro x2
  intro x3
  extract_lets +onlyGivenNames x4
  clear_value x4
  refine Keep.ite ?_ ?_
  · exact State.reply_keep _ _ _ _
  · refine Keep.ite ?_ ?_
    · exact State.reply_keep _ _ _ _
    · refine Keep.ite ?_ ?_
      · exact State.reply_keep _ _ _ _
      · extract_lets +onlyGivenNames x5
        clear_value x5
        extract_lets +onlyGivenNames x6
        clear_value x6
        refine Keep.trans ?_ (State.reply_keep _ _ _ _)
        exact State.modTrust_keep _ _ (Trust.setSlot_owners _ _ _) (Trust.setSlot_rollback _ _ _)

theorem execFwData_keep (s : State) : OutKeep s (execFwData s) := by
  unfold execFwData
  refine onRequest_keep _ _ _ _ ?_
  intro x1
  intro x2
  intro x3
  extract_lets +onlyGivenNames x4
  clear_value x4
  extract_lets +onlyGivenNames x5
  clear_value x5
  split
  · exact State.reply_keep _ _ _ _
  · refine Keep.ite ?_ ?_
    · exact State.reply_keep _ _ _ _
    · extract_lets +onlyGivenNames x6
      clear_value x6
      extract_lets +onlyGivenNames x7
      clear_value x7
      extract_lets +onlyGivenNames x8
      clear_value x8
      refine Keep.trans ?_ (State.reply_keep _ _ _ _)
      exact State.modTrust_keep _ _ (Trust.setSlot_owners _ _ _) (Trust.setSlot_rollback _ _ _)

theorem execFwEnd_keep (s : State) : OutKeep s (execFwEnd s) := by
  unfold execFwEnd
  refine onRequest_keep _ _ _ _ ?_
  intro x1
  intro x2
  intro x3
  split
  · exact State.reply_keep _ _ _ _
  · extract_lets +onlyGivenNames x4
    clear_value x4
    extract_lets +onlyGivenNames x5
    have k5 : Keep x3 (x5) := by
      dsimp only [x5]
      exact State.modTrust_keep _ _ (Trust.setSlot_owners _ _ _) (Trust.setSlot_rollback _ _ _)
    clear_value x5
    split
    · refine Keep.trans ?_ (State.reply_keep _ _ _ _)
      exact Keep.trans ‹_› (State.event_keep _ _ _)
    · refine Keep.trans ?_ (State.reply_keep _ _ _ _)
      exact Keep.trans ‹_› (State.event_keep _ _ _)
    · refine Keep.trans ?_ (State.reply_keep _ _ _ _)
      exact Keep.trans ‹_› (State.event_keep _ _ _)

theorem OtpKeep.rollbackUp {a b : Trust} (h : b.owners = a.owners) (r : a.rollback ≤ b.rollback) : OtpKeep a b := by
  have e : ∀ k, b.owner k = a.owner k := fun k => by unfold Trust.owner; rw [h]
  exact ⟨r, fun k => .inl (e k), fun k _ => e k, fun ⟨k, l, s⟩ => ⟨k, l, by rw [e k]; exact s⟩,
    fun h k => by rw [e k]; exact h k⟩

theorem execFwCommit_keep (s : State) : OutKeep s (execFwCommit s) := by
  unfold execFwCommit
  refine onRequest_keep _ _ _ _ ?_
  intro x1 x2 x3
  dsimp only
  by_cases h : (if x3.trust.running = 3 then 0 else (x3.trust.slot x3.trust.running).rollback) > x3.trust.rollback
  · rw [if_pos h]
    refine Keep.trans ?_ (State.reply_keep _ _ _ _)
    refine Keep.trans ?_ (State.event_keep _ _ _)
    exact State.modTrust_keepOtp _ _ (OtpKeep.rollbackUp rfl (Nat.le_of_lt h))
  · rw [if_neg h]
    exact State.reply_keep _ _ _ _

/-- Programming an EMPTY slot. -/
theorem OtpKeep.program {a : Trust} {k : Nat} {x : OwnerSlot} (hk : k < 4) (h : (a.owner k).state = .empty) (hx : x.state = .active)
    (hl : x.hash.length = 64) : OtpKeep a { a with owners := tblSet k x a.owners } := by
  have e : ∀ j, Trust.owner { a with owners := tblSet k x a.owners } j = if j = k then x else a.owner j := fun j => by
    show tblGet ({} : OwnerSlot) (tblSet k x a.owners) j = _
    by_cases q : j = k
    · subst q; rw [if_pos rfl, tblGet_tblSet_self]
    · rw [if_neg q, tblGet_tblSet_ne _ q]; rfl
  refine ⟨Nat.le_refl _, fun j => ?_, fun j l => ?_, fun _ => ⟨k, hk, ?_⟩, fun h j => ?_⟩
  · rw [e j]
    by_cases q : j = k
    · subst q; exact .inr (.inl h)
    · rw [if_neg q]; exact .inl rfl
  · rw [e j, if_neg (by omega)]
  · rw [e k, if_pos rfl]; exact hx
  · rw [e j]
    by_cases q : j = k
    · rw [if_pos q]; exact fun _ => hl
    · rw [if_neg q]; exact h j

/-- Revoking an ACTIVE slot when another is ACTIVE. -/
theorem OtpKeep.revoke {a : Trust} {k : Nat} (hk : k < 4) (h : (a.owner k).state = .active)
    (ho : ∃ j, j < 4 ∧ j ≠ k ∧ (a.owner j).state = .active) :
    OtpKeep a { a with owners := tblSet k { a.owner k with state := .revoked } a.owners } := by
  have e : ∀ j, Trust.owner { a with owners := tblSet k { a.owner k with state := .revoked } a.owners } j =
      if j = k then { a.owner k with state := .revoked } else a.owner j := fun j => by
    show tblGet ({} : OwnerSlot) (tblSet k { a.owner k with state := .revoked } a.owners) j = _
    by_cases q : j = k
    · subst q; rw [if_pos rfl, tblGet_tblSet_self]
    · rw [if_neg q, tblGet_tblSet_ne _ q]; rfl
  obtain ⟨i, hi, hn, ha⟩ := ho
  refine ⟨Nat.le_refl _, fun j => ?_, fun j l => ?_, fun _ => ⟨i, hi, ?_⟩, fun hh j => ?_⟩
  · rw [e j]
    by_cases q : j = k
    · subst q; rw [if_pos rfl]; exact .inr (.inr ⟨h, rfl, rfl⟩)
    · rw [if_neg q]; exact .inl rfl
  · rw [e j, if_neg (by omega)]
  · rw [e i, if_neg hn]; exact ha
  · rw [e j]
    by_cases q : j = k
    · rw [if_pos q]; exact fun _ => hh k (by rw [h]; exact fun q => by cases q)
    · rw [if_neg q]; exact hh j

/-- Among at least two of a list without repeats, one differs from `k`. -/
theorem exists_other {p : Nat → Bool} {k : Nat} : ∀ {l : List Nat}, l.Nodup → 1 < (l.filter p).length →
    ∃ j, j ∈ l ∧ j ≠ k ∧ p j = true := by
  intro l hn hl
  have hf : (l.filter p).Nodup := hn.filter _
  match hm : l.filter p, hl, hf with
  | a :: b :: r, _, hf =>
    have hab : a ≠ b := fun q => by subst q; simp at hf
    have ma : a ∈ l.filter p := by rw [hm]; simp
    have mb : b ∈ l.filter p := by rw [hm]; simp
    rw [List.mem_filter] at ma mb
    by_cases q : a = k
    · exact ⟨b, mb.1, fun e => hab (q.trans e.symm), mb.2⟩
    · exact ⟨a, ma.1, q, ma.2⟩

theorem ownerFormOk_lt {b : List Byte} {op : Nat} (h : ownerFormOk b op = true) : leAt b 5 1 < 4 := by
  unfold ownerFormOk at h
  simp only [Bool.and_eq_true, decide_eq_true_eq] at h
  exact h.1.1.1.1.2

theorem ownerRequest_keep (code op : Nat) (hop : op = 1 ∨ op = 2) (s : State) : OutKeep s (ownerRequest code op s) := by
  unfold ownerRequest
  refine onRequest_keep _ _ _ _ ?_
  intro ref xs t
  dsimp only
  obtain ⟨b, hb⟩ : ∃ b, memReadN (t.trust.buf ref.sender) 0 1120 = b := ⟨_, rfl⟩
  rw [hb]
  obtain ⟨k, hk⟩ : ∃ k, leAt b 5 1 = k := ⟨_, rfl⟩
  rw [hk]
  refine Keep.ite' (fun _ => State.reply_keep _ _ _ _) fun hf => ?_
  refine Keep.ite' (fun _ => State.reply_keep _ _ _ _) fun hs => ?_
  refine Keep.ite (State.reply_keep _ _ _ _) ?_
  refine Keep.trans ?_ (State.reply_keep _ _ _ _)
  refine Keep.trans ?_ (State.event_keep _ _ _)
  have h4 : k < 4 := by
    have := ownerFormOk_lt (b := b) (op := op) (by simpa using hf)
    rwa [hk] at this
  refine State.modTrust_keepOtp _ _ ?_
  rw [not_or] at hs
  rcases hop with rfl | rfl
  · refine OtpKeep.program h4 (Decidable.not_not.1 hs.1) rfl ?_
    show ((b.drop 32).take 64).length = 64
    rw [List.length_take, List.length_drop, ← hb, memReadN_length]
    rfl
  · refine OtpKeep.revoke h4 (Decidable.not_not.1 hs.1) ?_
    have hl : 1 < ((List.range 4).filter (fun j => (tblGet ({} : OwnerSlot) t.trust.owners j).state == .active)).length := by
      have := hs.2; omega
    obtain ⟨j, hj, hn, ha⟩ := exists_other (k := k) List.nodup_range hl
    exact ⟨j, List.mem_range.1 hj, hn, beq_iff_eq.1 ha⟩

theorem execOwnerProgram_keep (s : State) : OutKeep s (execOwnerProgram s) := by
  unfold execOwnerProgram
  refine ownerRequest_keep _ _ (.inl rfl) _

theorem execOwnerRevoke_keep (s : State) : OutKeep s (execOwnerRevoke s) := by
  unfold execOwnerRevoke
  refine ownerRequest_keep _ _ (.inr rfl) _

theorem execAttest_keep (s : State) : OutKeep s (execAttest s) := by
  unfold execAttest
  refine onRequest_keep _ _ _ _ ?_
  intro x1
  intro x2
  intro x3
  extract_lets +onlyGivenNames x4
  clear_value x4
  extract_lets +onlyGivenNames x5
  clear_value x5
  refine Keep.trans ?_ (State.reply_keep _ _ _ _)
  exact State.modTrust_keep _ _ (Trust.setBuf_owners _ _ _) (Trust.setBuf_rollback _ _ _)

theorem execGetCert_keep (s : State) : OutKeep s (execGetCert s) := by
  unfold execGetCert
  refine onRequest_keep _ _ _ _ ?_
  intro x1
  intro x2
  intro x3
  refine Keep.ite ?_ ?_
  · exact State.reply_keep _ _ _ _
  · extract_lets +onlyGivenNames x4
    clear_value x4
    refine Keep.trans ?_ (State.reply_keep _ _ _ _)
    exact State.modTrust_keep _ _ (Trust.setBuf_owners _ _ _) (Trust.setBuf_rollback _ _ _)

theorem execGetMark_keep (s : State) : OutKeep s (execGetMark s) := by
  unfold execGetMark
  refine onRequest_keep _ _ _ _ ?_
  intro x1
  intro x2
  intro x3
  refine Keep.trans ?_ (State.reply_keep _ _ _ _)
  exact State.modTrust_keep _ _ (Trust.setBuf_owners _ _ _) (Trust.setBuf_rollback _ _ _)

theorem execGetTrust_keep (s : State) : OutKeep s (execGetTrust s) := by
  unfold execGetTrust
  refine onRequest_keep _ _ _ _ ?_
  intro x1
  intro x2
  intro x3
  exact State.reply_keep _ _ _ _

theorem onSmbus_keep (pecOk : Bool) (s : State) (f : State → State) (h_f : ∀ a0, Keep a0 (f a0)) : OutKeep s (onSmbus pecOk s f) := by
  unfold onSmbus
  refine OutKeep.ite ?_ ?_
  · refine OutKeep.next ?_
    exact h_f _
  · refine OutKeep.next ?_
    exact Keep.refl _

theorem execMbSend_keep (pecOk : Bool) (channel : Nat) (words : List W32) (s : State) : OutKeep s (execMbSend pecOk channel words s) := by
  unfold execMbSend
  refine onSmbus_keep _ _ _ ?_
  intro x1
  exact State.mailIn_keep _ _ _ _

theorem execMbRecv_keep (pecOk : Bool) (channel : Nat) (s : State) : OutKeep s (execMbRecv pecOk channel s) := by
  unfold execMbRecv
  refine OutKeep.ite ?_ ?_
  · refine onSmbus_keep _ _ _ ?_
    intro x1
    split
    · exact State.modTrust_keep _ _ rfl rfl
    · refine Keep.trans ?_ (State.modTrust_keep _ _ rfl rfl)
      exact State.modChan_keep _ _ _
  · exact OutKeep.fault

theorem execBufSeek_keep (pecOk : Bool) (offset : Nat) (s : State) : OutKeep s (execBufSeek pecOk offset s) := by
  unfold execBufSeek
  refine onSmbus_keep _ _ _ ?_
  intro x1
  exact State.modTrust_keep _ _ rfl rfl

theorem execBufRead_keep (pecOk : Bool) (s : State) : OutKeep s (execBufRead pecOk s) := by
  unfold execBufRead
  refine onSmbus_keep _ _ _ ?_
  intro x1
  exact State.modTrust_keep _ _ rfl rfl

theorem execBufWrite_keep (pecOk : Bool) (data : List Byte) (s : State) : OutKeep s (execBufWrite pecOk data s) := by
  unfold execBufWrite
  refine onSmbus_keep _ _ _ ?_
  intro x1
  refine Keep.ite ?_ ?_
  · exact Keep.refl _
  · exact State.modTrust_keep _ _ rfl rfl

theorem execStatus_keep (pecOk : Bool) (s : State) : OutKeep s (execStatus pecOk s) := by
  unfold execStatus
  refine OutKeep.ite ?_ ?_
  · refine OutKeep.next ?_
    exact State.modTrust_keep _ _ rfl rfl
  · refine OutKeep.next ?_
    exact Keep.refl _

/-! ### Machine/GovOps.lean -/

theorem State.modGov_keep (s : State) (f : Governor → Governor) : Keep s (State.modGov s f) := by
  unfold State.modGov
  refine Keep.upd ?_ rfl
  exact Keep.refl _

theorem State.applyLevels_keep (s : State) : Keep s (State.applyLevels s) := by
  unfold State.applyLevels
  refine Keep.upd ?_ rfl
  exact Keep.refl _

theorem State.law_keep (s : State) (t : Nat) : Keep s (State.law s t) := by
  unfold State.law
  extract_lets +onlyGivenNames x1
  clear_value x1
  extract_lets +onlyGivenNames x2
  clear_value x2
  extract_lets +onlyGivenNames x3
  clear_value x3
  extract_lets +onlyGivenNames x4
  clear_value x4
  extract_lets +onlyGivenNames x5
  clear_value x5
  extract_lets +onlyGivenNames x6
  clear_value x6
  extract_lets +onlyGivenNames x7
  clear_value x7
  extract_lets +onlyGivenNames x8
  clear_value x8
  extract_lets +onlyGivenNames x9
  clear_value x9
  extract_lets +onlyGivenNames x10
  clear_value x10
  extract_lets +onlyGivenNames x11
  clear_value x11
  exact State.modGov_keep _ _

theorem State.outputs_keep (s : State) : Keep s (State.outputs s) := by
  unfold State.outputs
  extract_lets +onlyGivenNames x1
  clear_value x1
  extract_lets +onlyGivenNames x2
  clear_value x2
  extract_lets +onlyGivenNames x3
  clear_value x3
  extract_lets +onlyGivenNames x4
  clear_value x4
  extract_lets +onlyGivenNames x5
  clear_value x5
  extract_lets +onlyGivenNames x6
  clear_value x6
  extract_lets +onlyGivenNames x7
  clear_value x7
  exact State.modGov_keep _ _

theorem State.thermal_keep (s : State) (reason die value : Nat) : Keep s (State.thermal s reason die value) := by
  unfold State.thermal
  extract_lets +onlyGivenNames x1
  clear_value x1
  refine Keep.ite ?_ ?_
  · refine Keep.trans ?_ (State.event_keep _ _ _)
    exact State.modGov_keep _ _
  · exact Keep.refl _

theorem State.thermalFree_keep (s : State) (reason : Nat) : Keep s (State.thermalFree s reason) := by
  unfold State.thermalFree
  extract_lets +onlyGivenNames x1
  have k1 : Keep s (x1.2) := by
    dsimp only [x1]
    exact State.draw_keep _
  clear_value x1
  exact Keep.trans ‹_› (State.thermal_keep _ _ _ _)

/-! ### Machine/Resets.lean -/

theorem State.dropHost_keep (s : State) : Keep s (State.dropHost s) := by
  unfold State.dropHost
  extract_lets +onlyGivenNames x1
  clear_value x1
  extract_lets +onlyGivenNames x2
  have k2 : Keep s (x2) := by
    dsimp only [x2]
    exact State.modPci_keep _ _
  clear_value x2
  extract_lets +onlyGivenNames x3
  have k3 : Keep s (x3) := by
    dsimp only [x3]
    refine Keep.upd ?_ rfl
    assumption
  clear_value x3
  refine Keep.trans ?_ (State.modTrust_keep _ _ rfl rfl)
  exact Keep.trans ‹_› (State.modTwin_keep _ _)

theorem State.killAll_keep (s : State) : Keep s (State.killAll s) := by
  unfold State.killAll
  extract_lets +onlyGivenNames x1
  have k1 : Keep s (x1) := by
    dsimp only [x1]
    refine Keep.foldl ?_ ?_ _
    · exact Keep.refl _
    · intro x2
      intro x3
      refine Keep.ite ?_ ?_
      · exact Keep.refl _
      · refine Keep.ite ?_ ?_
        · refine Keep.trans ?_ (State.freeCtx_keep _ _)
          refine Keep.foldl ?_ ?_ _
          · exact Keep.refl _
          · intro x4
            intro x5
            exact State.windowOut_keep _ _
        · refine Keep.foldl ?_ ?_ _
          · refine Keep.ite ?_ ?_
            · exact State.modCtx_keep _ _ _
            · refine Keep.trans ?_ (State.killWith_keep _ _ _)
              exact State.modCtx_keep _ _ _
          · intro x6
            intro x7
            exact State.modCore_keep _ _ _
  clear_value x1
  refine Keep.trans ?_ (State.forgetTables_keep _)
  refine Keep.upd ?_ rfl
  assumption

theorem State.functionReset_keep (s : State) (kind : ResetKind) : Keep s (State.functionReset s kind) := by
  unfold State.functionReset
  extract_lets +onlyGivenNames x1
  have k1 : Keep s (x1) := by
    dsimp only [x1]
    refine Keep.trans ?_ (State.modPci_keep _ _)
    refine Keep.trans ?_ (State.killAll_keep _)
    exact State.dropHost_keep _
  clear_value x1
  refine Keep.upd ?_ rfl
  assumption

theorem execFunctionReset_keep (s : State) : OutKeep s (execFunctionReset s) := by
  unfold execFunctionReset
  refine OutKeep.next ?_
  exact State.functionReset_keep _ _

theorem execPerstAssert_keep (s : State) : OutKeep s (execPerstAssert s) := by
  unfold execPerstAssert
  refine OutKeep.ite ?_ ?_
  · refine OutKeep.next ?_
    exact Keep.refl _
  · refine OutKeep.next ?_
    refine Keep.trans ?_ (State.modPci_keep _ _)
    exact State.functionReset_keep _ _

theorem Trust.boot_owners (t : Trust) : t.boot.owners = t.owners := by
  unfold Trust.boot
  extract_lets x1 x2
  have h : x1.owners = t.owners := (Trust.setSlot_owners _ _ _).trans (Trust.setSlot_owners _ _ _)
  clear_value x1 x2
  exact h

theorem Trust.boot_rollback (t : Trust) : t.boot.rollback = t.rollback := by
  unfold Trust.boot
  extract_lets x1 x2
  have h : x1.rollback = t.rollback := (Trust.setSlot_rollback _ _ _).trans (Trust.setSlot_rollback _ _ _)
  clear_value x1 x2
  exact h

theorem State.bootRom_keep (s : State) : Keep s (State.bootRom s) := by
  unfold State.bootRom
  refine Keep.trans ?_ (State.modPci_keep _ _)
  exact State.modTrust_keep _ _ (Trust.boot_owners _) (Trust.boot_rollback _)

theorem execColdReset_keep (slotPins : Nat) (s : State) : OutKeep s (execColdReset slotPins s) := by
  unfold execColdReset
  refine OutKeep.next (Keep.trans ?_ (State.bootRom_keep _))
  exact ⟨rfl, fun _ => rfl, id, OtpKeep.same rfl rfl⟩

theorem State.warmReset_keep (s : State) : Keep s (State.warmReset s) := by
  unfold State.warmReset
  extract_lets +onlyGivenNames x1
  have k1 : Keep s (x1) := by
    dsimp only [x1]
    exact State.functionReset_keep _ _
  clear_value x1
  extract_lets +onlyGivenNames x2
  have k2 : Keep s (x2) := by
    dsimp only [x2]
    refine Keep.foldl ?_ ?_ _
    · assumption
    · intro x3
      intro x4
      exact State.killFinish_keep _ _
  clear_value x2
  extract_lets +onlyGivenNames x5
  have h5 : x5 = x2.trust := rfl
  clear_value x5
  extract_lets +onlyGivenNames x6
  clear_value x6
  extract_lets +onlyGivenNames x7
  clear_value x7
  extract_lets +onlyGivenNames x8
  have k8 : Keep s (x8) := by
    dsimp only [x8]
    exact Keep.updTrust k2 rfl (OtpKeep.same (by rw [h5]) (by rw [h5]))
  clear_value x8
  extract_lets +onlyGivenNames x9
  have k9 : Keep s (x9) := by
    dsimp only [x9]
    exact Keep.trans ‹_› (State.bootRom_keep _)
  clear_value x9
  extract_lets +onlyGivenNames x10
  have k10 : Keep s (x10) := by
    dsimp only [x10]
    refine Keep.ite ?_ ?_
    · assumption
    · exact Keep.trans ‹_› (State.modPci_keep _ _)
  clear_value x10
  refine Keep.trans ?_ (State.removalWaits_keep _)
  exact Keep.trans ‹_› (State.fwUpdate_keep _)

theorem execWarmReset_keep (key : Nat) (warm : Bool) (s : State) : OutKeep s (execWarmReset key warm s) := by
  unfold execWarmReset
  refine OutKeep.ite ?_ ?_
  · refine OutKeep.next ?_
    exact State.warmReset_keep _
  · refine OutKeep.next ?_
    exact Keep.refl _

theorem execBusPrechargeDone_keep (s : State) : OutKeep s (execBusPrechargeDone s) := by
  unfold execBusPrechargeDone
  refine OutKeep.ite ?_ ?_
  · extract_lets +onlyGivenNames x1
    clear_value x1
    extract_lets +onlyGivenNames x2
    have k2 : Keep s (x2) := by
      dsimp only [x2]
      refine Keep.upd ?_ rfl
      exact Keep.refl _
    clear_value x2
    refine OutKeep.next ?_
    refine Keep.ite ?_ ?_
    · assumption
    · exact Keep.trans ‹_› (State.modPci_keep _ _)
  · refine OutKeep.next ?_
    exact Keep.refl _

theorem execDieResetRelease_keep (die : Nat) (s : State) : OutKeep s (execDieResetRelease die s) := by
  unfold execDieResetRelease
  refine OutKeep.ite ?_ ?_
  · refine OutKeep.ite ?_ ?_
    · refine OutKeep.next ?_
      refine Keep.trans ?_ (State.applyLevels_keep _)
      refine Keep.upd ?_ rfl
      exact Keep.refl _
    · refine OutKeep.next ?_
      exact Keep.refl _
  · exact OutKeep.fault

theorem execFarMemoryReady_keep (s : State) : OutKeep s (execFarMemoryReady s) := by
  unfold execFarMemoryReady
  split
  · dsimp only
    refine OutKeep.next (Keep.trans (Keep.trans (Keep.farMem (Keep.refl s) ?_) (State.modPci_keep _ _)) (State.bump_keep _ _))
    intro h
    dsimp only
    split
    · rfl
    · exact h
  · exact OutKeep.next (Keep.refl _)

theorem execTimeBaseCorrection_keep (s : State) : OutKeep s (execTimeBaseCorrection s) := by
  unfold execTimeBaseCorrection
  refine OutKeep.ite ?_ ?_
  · refine OutKeep.next ?_
    exact Keep.refl _
  · extract_lets +onlyGivenNames x1
    clear_value x1
    refine OutKeep.next ?_
    refine Keep.upd ?_ rfl
    exact Keep.refl _

theorem execInputApplied_keep (cv : Nat) (s : State) : OutKeep s (execInputApplied cv s) := by
  unfold execInputApplied
  extract_lets +onlyGivenNames x1
  clear_value x1
  extract_lets +onlyGivenNames x2
  clear_value x2
  refine OutKeep.next ?_
  refine Keep.upd ?_ rfl
  exact Keep.refl _

theorem execInputOvervoltage_keep (cv : Nat) (s : State) : OutKeep s (execInputOvervoltage cv s) := by
  unfold execInputOvervoltage
  refine OutKeep.ite ?_ ?_
  · refine OutKeep.next ?_
    refine Keep.upd ?_ rfl
    exact Keep.refl _
  · refine OutKeep.next ?_
    exact Keep.refl _

theorem execInputRestart_keep (cv : Nat) (s : State) : OutKeep s (execInputRestart cv s) := by
  unfold execInputRestart
  refine OutKeep.ite ?_ ?_
  · refine OutKeep.next ?_
    refine Keep.upd ?_ rfl
    exact Keep.refl _
  · refine OutKeep.next ?_
    exact Keep.refl _

theorem execInputLoss_keep (cv : Nat) (s : State) : OutKeep s (execInputLoss cv s) := by
  unfold execInputLoss
  refine OutKeep.ite ?_ ?_
  · refine OutKeep.next ?_
    refine Keep.upd ?_ rfl
    exact Keep.refl _
  · refine OutKeep.next ?_
    exact Keep.refl _

theorem execAuxPowerLoss_keep (s : State) : OutKeep s (execAuxPowerLoss s) := by
  unfold execAuxPowerLoss
  exact OutKeep.next ⟨rfl, fun _ => rfl, id, OtpKeep.same rfl rfl⟩

theorem execRemoveReq_keep (now : Nat) (s : State) : OutKeep s (execRemoveReq now s) := by
  unfold execRemoveReq
  extract_lets +onlyGivenNames x1
  have k1 : Keep s (x1) := by
    dsimp only [x1]
    exact State.advanceTo_keep _ _
  clear_value x1
  extract_lets +onlyGivenNames x2
  clear_value x2
  extract_lets +onlyGivenNames x3
  have k3 : Keep s (x3) := by
    dsimp only [x3]
    refine Keep.upd ?_ rfl
    assumption
  clear_value x3
  refine OutKeep.next ?_
  exact Keep.trans ‹_› (State.removalWaits_keep _)

theorem execRemovalSettleTimeout_keep (now : Nat) (s : State) : OutKeep s (execRemovalSettleTimeout now s) := by
  unfold execRemovalSettleTimeout
  extract_lets +onlyGivenNames x1
  have k1 : Keep s (x1) := by
    dsimp only [x1]
    exact State.advanceTo_keep _ _
  clear_value x1
  refine OutKeep.ite ?_ ?_
  · refine OutKeep.next ?_
    exact Keep.trans ‹_› (State.depart_keep _)
  · refine OutKeep.next ?_
    assumption

theorem execRemovalDrainTimeout_keep (now : Nat) (s : State) : OutKeep s (execRemovalDrainTimeout now s) := by
  unfold execRemovalDrainTimeout
  extract_lets +onlyGivenNames x1
  have k1 : Keep s (x1) := by
    dsimp only [x1]
    exact State.advanceTo_keep _ _
  clear_value x1
  refine OutKeep.ite ?_ ?_
  · refine OutKeep.next ?_
    refine Keep.foldl ?_ ?_ _
    · assumption
    · intro x2
      intro x3
      refine Keep.ite ?_ ?_
      · exact State.killWith_keep _ _ _
      · exact Keep.refl _
  · refine OutKeep.next ?_
    assumption

theorem execRemovalSafe_keep (now : Nat) (s : State) : OutKeep s (execRemovalSafe now s) := by
  unfold execRemovalSafe
  extract_lets +onlyGivenNames x1
  have k1 : Keep s (x1) := by
    dsimp only [x1]
    exact State.advanceTo_keep _ _
  clear_value x1
  refine OutKeep.ite ?_ ?_
  · extract_lets +onlyGivenNames x2
    have k2 : Keep s (x2) := by
      dsimp only [x2]
      refine Keep.foldl ?_ ?_ _
      · assumption
      · intro x3
        intro x4
        refine Keep.ite ?_ ?_
        · refine Keep.trans ?_ (State.portState_keep _ _ _)
          exact State.setPort_keep _ _ _
        · exact Keep.refl _
    clear_value x2
    extract_lets +onlyGivenNames x5
    clear_value x5
    extract_lets +onlyGivenNames x6
    have k6 : Keep s (x6) := by
      dsimp only [x6]
      refine Keep.upd ?_ rfl
      assumption
    clear_value x6
    refine OutKeep.next ?_
    refine Keep.trans ?_ (State.modPci_keep _ _)
    exact Keep.trans ‹_› (State.removal_keep _ _ _)
  · refine OutKeep.next ?_
    assumption

theorem execRemoveCancel_keep (now : Nat) (s : State) : OutKeep s (execRemoveCancel now s) := by
  unfold execRemoveCancel
  extract_lets +onlyGivenNames x1
  have k1 : Keep s (x1) := by
    dsimp only [x1]
    exact State.advanceTo_keep _ _
  extract_lets +onlyGivenNames x2
  extract_lets +onlyGivenNames x3
  have k3 : Keep s (x3) := by
    dsimp only [x3]
    refine Keep.upd ?_ rfl
    assumption
  refine OutKeep.ite ?_ ?_
  · refine OutKeep.next ?_
    refine Keep.trans ?_ (State.removal_keep _ _ _)
    exact Keep.trans ‹_› (State.modTwin_keep _ _)
  · refine OutKeep.next ?_
    assumption

theorem execScrub_keep (s : State) (channel block : Nat) : OutKeep s (execScrub channel block s) := by
  unfold execScrub
  refine OutKeep.ite ?_ ?_
  · refine OutKeep.ite ?_ ?_
    · refine OutKeep.next ?_
      exact State.meetBlock_keep _ _ _
    · refine OutKeep.next ?_
      exact Keep.refl _
  · exact OutKeep.fault

theorem execRefreshRatePoll_keep (controller : Nat) (hot : Bool) (s : State) : OutKeep s (execRefreshRatePoll controller hot s) := by
  unfold execRefreshRatePoll
  refine OutKeep.ite ?_ ?_
  · refine OutKeep.next ?_
    refine Keep.foldl ?_ ?_ _
    · exact Keep.refl _
    · intro x1
      intro x2
      exact State.setChan_keep _ _ _
  · exact OutKeep.fault

theorem execWckRetune_keep (channel : Nat) (running : Bool) (s : State) : OutKeep s (execWckRetune channel running s) := by
  unfold execWckRetune
  refine OutKeep.ite ?_ ?_
  · refine OutKeep.next ?_
    exact State.setChan_keep _ _ _
  · exact OutKeep.fault

/-! ### Machine/Governor.lean -/

theorem State.ceilings_keep (s : State) : Keep s (State.ceilings s) := by
  unfold State.ceilings
  split
  · exact Keep.refl _
  · refine Keep.trans ?_ (State.thermal_keep _ _ _ _)
    exact State.modGov_keep _ _

theorem State.sampleFast_keep (s : State) (x : Samples) : Keep s (State.sampleFast s x) := by
  unfold State.sampleFast
  exact State.modGov_keep _ _

theorem State.sampleSlow_keep (s : State) (x : Samples) : Keep s (State.sampleSlow s x) := by
  unfold State.sampleSlow
  extract_lets +onlyGivenNames x1
  clear_value x1
  extract_lets +onlyGivenNames x2
  clear_value x2
  extract_lets +onlyGivenNames x3
  clear_value x3
  extract_lets +onlyGivenNames x4
  clear_value x4
  extract_lets +onlyGivenNames x5
  have k5 : Keep s (x5) := by
    dsimp only [x5]
    exact State.modGov_keep _ _
  clear_value x5
  refine Keep.ite ?_ ?_
  · exact Keep.trans ‹_› (State.thermal_keep _ _ _ _)
  · assumption

theorem State.think_keep (s : State) (x : Samples) : Keep s (State.think s x) := by
  unfold State.think
  extract_lets +onlyGivenNames x1
  clear_value x1
  extract_lets +onlyGivenNames x2
  have k2 : Keep s (x2) := by
    dsimp only [x2]
    exact State.modGov_keep _ _
  clear_value x2
  extract_lets +onlyGivenNames x3
  have k3 : Keep s (x3) := by
    dsimp only [x3]
    exact Keep.trans ‹_› (State.modGov_keep _ _)
  clear_value x3
  extract_lets +onlyGivenNames x4
  have k4 : Keep s (x4) := by
    dsimp only [x4]
    exact Keep.trans ‹_› (State.modGov_keep _ _)
  clear_value x4
  extract_lets +onlyGivenNames x5
  clear_value x5
  extract_lets +onlyGivenNames x6
  have k6 : Keep s (x6) := by
    dsimp only [x6]
    exact Keep.trans ‹_› (State.modGov_keep _ _)
  clear_value x6
  refine Keep.trans ?_ (State.outputs_keep _)
  exact Keep.trans ‹_› (State.law_keep _ _)

theorem State.excursionStep_keep (s : State) (load : Rat) : Keep s (State.excursionStep s load).1 := by
  unfold State.excursionStep
  extract_lets +onlyGivenNames x1
  clear_value x1
  extract_lets +onlyGivenNames x2
  clear_value x2
  extract_lets +onlyGivenNames x3
  clear_value x3
  extract_lets +onlyGivenNames x4
  clear_value x4
  extract_lets +onlyGivenNames x5
  clear_value x5
  extract_lets +onlyGivenNames x6
  clear_value x6
  extract_lets +onlyGivenNames x7
  clear_value x7
  extract_lets +onlyGivenNames x8
  clear_value x8
  extract_lets +onlyGivenNames x9
  have k9 : Keep s (x9) := by
    dsimp only [x9]
    exact State.modGov_keep _ _
  clear_value x9
  assumption

theorem State.stretch_keep (s : State) (load : Rat) : Keep s (State.stretch s load) := by
  unfold State.stretch
  extract_lets +onlyGivenNames x1
  have k1 : Keep s (x1.1) := by
    dsimp only [x1]
    exact State.excursionStep_keep _ _
  clear_value x1
  extract_lets +onlyGivenNames x2
  have k2 : Keep s (x2) := by
    dsimp only [x2]
    assumption
  clear_value x2
  extract_lets +onlyGivenNames x3
  clear_value x3
  extract_lets +onlyGivenNames x4
  clear_value x4
  extract_lets +onlyGivenNames x5
  clear_value x5
  extract_lets +onlyGivenNames x6
  have k6 : Keep s (x6) := by
    dsimp only [x6]
    exact Keep.trans ‹_› (State.modGov_keep _ _)
  clear_value x6
  split
  · assumption
  · exact Keep.trans ‹_› (State.thermal_keep _ _ _ _)

theorem State.inputLimit_keep (s : State) : Keep s (State.inputLimit s) := by
  unfold State.inputLimit
  extract_lets +onlyGivenNames x1
  clear_value x1
  extract_lets +onlyGivenNames x2
  have k2 : Keep s (x2) := by
    dsimp only [x2]
    exact State.modGov_keep _ _
  clear_value x2
  refine Keep.ite ?_ ?_
  · exact Keep.trans ‹_› (State.thermal_keep _ _ _ _)
  · assumption

theorem State.publish_keep (s : State) : Keep s (State.publish s) := by
  unfold State.publish
  extract_lets +onlyGivenNames x1
  clear_value x1
  extract_lets +onlyGivenNames x2
  clear_value x2
  extract_lets +onlyGivenNames x3
  clear_value x3
  extract_lets +onlyGivenNames x4
  clear_value x4
  exact State.modGov_keep _ _

theorem execControlPeriod_keep (now : Nat) (x : Samples) (s : State) : OutKeep s (execControlPeriod now x s) := by
  unfold execControlPeriod
  extract_lets +onlyGivenNames x1
  have k1 : Keep s (x1) := by
    dsimp only [x1]
    exact State.advanceTo_keep _ _
  clear_value x1
  extract_lets +onlyGivenNames x2
  clear_value x2
  refine OutKeep.ite ?_ ?_
  · refine OutKeep.next ?_
    assumption
  · extract_lets +onlyGivenNames x3
    clear_value x3
    extract_lets +onlyGivenNames x4
    clear_value x4
    extract_lets +onlyGivenNames x5
    have k5 : Keep s (x5) := by
      dsimp only [x5]
      refine Keep.trans ?_ (State.ceilings_keep _)
      exact Keep.trans ‹_› (State.modGov_keep _ _)
    clear_value x5
    extract_lets +onlyGivenNames x6
    have k6 : Keep s (x6) := by
      dsimp only [x6]
      exact Keep.trans ‹_› (State.sampleFast_keep _ _)
    clear_value x6
    extract_lets +onlyGivenNames x7
    have k7 : Keep s (x7) := by
      dsimp only [x7]
      refine Keep.ite ?_ ?_
      · exact Keep.trans ‹_› (State.sampleSlow_keep _ _)
      · assumption
    clear_value x7
    extract_lets +onlyGivenNames x8
    have k8 : Keep s (x8) := by
      dsimp only [x8]
      refine Keep.trans ?_ (State.applyLevels_keep _)
      refine Keep.trans ?_ (State.stretch_keep _ _)
      refine Keep.trans ?_ (State.think_keep _ _)
      exact Keep.trans ‹_› (State.inputLimit_keep _)
    clear_value x8
    extract_lets +onlyGivenNames x9
    have k9 : Keep s (x9) := by
      dsimp only [x9]
      refine Keep.ite ?_ ?_
      · refine Keep.trans ?_ (State.modPci_keep _ _)
        refine Keep.trans ?_ (State.modGov_keep _ _)
        exact Keep.trans ‹_› (State.publish_keep _)
      · assumption
    clear_value x9
    extract_lets +onlyGivenNames x10
    have k10 : Keep s (x10) := by
      dsimp only [x10]
      exact Keep.trans ‹_› (State.hubCount_keep _ _ _ _)
    clear_value x10
    refine OutKeep.next ?_
    refine Keep.ite ?_ ?_
    · exact Keep.trans ‹_› (State.hubCount_keep _ _ _ _)
    · assumption

theorem execFanFault_keep (fan now : Nat) (s : State) : OutKeep s (execFanFault fan now s) := by
  unfold execFanFault
  extract_lets +onlyGivenNames x1
  have k1 : Keep s (x1) := by
    dsimp only [x1]
    exact State.advanceTo_keep _ _
  clear_value x1
  refine OutKeep.ite ?_ ?_
  · split
    · refine OutKeep.ite ?_ ?_
      · extract_lets +onlyGivenNames x2
        have k2 : Keep s (x2) := by
          dsimp only [x2]
          exact Keep.trans ‹_› (State.modGov_keep _ _)
        clear_value x2
        refine OutKeep.next ?_
        refine Keep.trans ?_ (State.thermalFree_keep _ _)
        exact Keep.trans ‹_› (State.outputs_keep _)
      · refine OutKeep.next ?_
        assumption
    · refine OutKeep.next ?_
      assumption
  · exact OutKeep.fault

theorem execFlowFault_keep (now : Nat) (s : State) : OutKeep s (execFlowFault now s) := by
  unfold execFlowFault
  extract_lets +onlyGivenNames x1
  have k1 : Keep s (x1) := by
    dsimp only [x1]
    exact State.advanceTo_keep _ _
  clear_value x1
  split
  · refine OutKeep.ite ?_ ?_
    · refine OutKeep.next ?_
      refine Keep.trans ?_ (State.thermalFree_keep _ _)
      refine Keep.trans ?_ (State.outputs_keep _)
      exact Keep.trans ‹_› (State.modGov_keep _ _)
    · refine OutKeep.next ?_
      assumption
  · refine OutKeep.next ?_
    assumption

theorem execModelMismatch_keep (now : Nat) (s : State) : OutKeep s (execModelMismatch now s) := by
  unfold execModelMismatch
  extract_lets +onlyGivenNames x1
  have k1 : Keep s (x1) := by
    dsimp only [x1]
    exact State.advanceTo_keep _ _
  clear_value x1
  refine OutKeep.ite ?_ ?_
  · extract_lets +onlyGivenNames x2
    clear_value x2
    extract_lets +onlyGivenNames x3
    clear_value x3
    extract_lets +onlyGivenNames x4
    have k4 : Keep s (x4) := by
      dsimp only [x4]
      exact Keep.trans ‹_› (State.modGov_keep _ _)
    clear_value x4
    extract_lets +onlyGivenNames x5
    have k5 : Keep s (x5) := by
      dsimp only [x5]
      exact Keep.trans ‹_› (State.thermal_keep _ _ _ _)
    clear_value x5
    refine OutKeep.next ?_
    exact Keep.trans ‹_› (State.modGov_keep _ _)
  · refine OutKeep.next ?_
    assumption

theorem execModelMismatchClear_keep (s : State) : OutKeep s (execModelMismatchClear s) := by
  unfold execModelMismatchClear
  refine OutKeep.ite ?_ ?_
  · refine OutKeep.next ?_
    exact State.modGov_keep _ _
  · refine OutKeep.next ?_
    exact Keep.refl _

theorem execForecastPublish_keep (now : Nat) (s : State) : OutKeep s (execForecastPublish now s) := by
  unfold execForecastPublish
  extract_lets +onlyGivenNames x1
  have k1 : Keep s (x1) := by
    dsimp only [x1]
    exact State.advanceTo_keep _ _
  clear_value x1
  extract_lets +onlyGivenNames x2
  clear_value x2
  refine OutKeep.ite ?_ ?_
  · refine OutKeep.next ?_
    refine Keep.trans ?_ (State.modGov_keep _ _)
    exact Keep.trans ‹_› (State.publish_keep _)
  · refine OutKeep.next ?_
    assumption

theorem State.commitCeilings_keep (s : State) : Keep s (State.commitCeilings s) := by
  unfold State.commitCeilings
  exact State.modGov_keep _ _

theorem execCeilingCommit_keep (s : State) : OutKeep s (execCeilingCommit s) := by
  unfold execCeilingCommit
  refine OutKeep.next ?_
  exact State.commitCeilings_keep _

theorem execTripHot_keep (die eighths now : Nat) (s : State) : OutKeep s (execTripHot die eighths now s) := by
  unfold execTripHot
  extract_lets +onlyGivenNames x1
  have k1 : Keep s (x1) := by
    dsimp only [x1]
    exact State.advanceTo_keep _ _
  clear_value x1
  refine OutKeep.ite ?_ ?_
  · extract_lets +onlyGivenNames x2
    clear_value x2
    refine OutKeep.ite ?_ ?_
    · refine OutKeep.next ?_
      assumption
    · extract_lets +onlyGivenNames x3
      have k3 : Keep s (x3) := by
        dsimp only [x3]
        exact Keep.trans ‹_› (State.modGov_keep _ _)
      clear_value x3
      refine OutKeep.next ?_
      refine Keep.trans ?_ (State.thermal_keep _ _ _ _)
      refine Keep.trans ?_ (State.hubCount_keep _ _ _ _)
      exact Keep.trans ‹_› (State.applyLevels_keep _)
  · exact OutKeep.fault

theorem execTripHotRelease_keep (die eighths now : Nat) (s : State) : OutKeep s (execTripHotRelease die eighths now s) := by
  unfold execTripHotRelease
  extract_lets +onlyGivenNames x1
  have k1 : Keep s (x1) := by
    dsimp only [x1]
    exact State.advanceTo_keep _ _
  clear_value x1
  refine OutKeep.ite ?_ ?_
  · extract_lets +onlyGivenNames x2
    clear_value x2
    refine OutKeep.ite ?_ ?_
    · refine OutKeep.next ?_
      assumption
    · extract_lets +onlyGivenNames x3
      have k3 : Keep s (x3) := by
        dsimp only [x3]
        exact Keep.trans ‹_› (State.modGov_keep _ _)
      clear_value x3
      refine OutKeep.next ?_
      refine Keep.trans ?_ (State.thermal_keep _ _ _ _)
      exact Keep.trans ‹_› (State.applyLevels_keep _)
  · exact OutKeep.fault

theorem execBusTrip_keep (cv now : Nat) (s : State) : OutKeep s (execBusTrip cv now s) := by
  unfold execBusTrip
  extract_lets +onlyGivenNames x1
  have k1 : Keep s (x1) := by
    dsimp only [x1]
    exact State.advanceTo_keep _ _
  clear_value x1
  refine OutKeep.ite ?_ ?_
  · extract_lets +onlyGivenNames x2
    have k2 : Keep s (x2) := by
      dsimp only [x2]
      exact Keep.trans ‹_› (State.modGov_keep _ _)
    clear_value x2
    refine OutKeep.next ?_
    refine Keep.trans ?_ (State.thermalFree_keep _ _)
    refine Keep.trans ?_ (State.hubCount_keep _ _ _ _)
    exact Keep.trans ‹_› (State.applyLevels_keep _)
  · refine OutKeep.next ?_
    assumption

theorem execBusTripRelease_keep (cv : Nat) (s : State) : OutKeep s (execBusTripRelease cv s) := by
  unfold execBusTripRelease
  refine OutKeep.ite ?_ ?_
  · refine OutKeep.next ?_
    refine Keep.trans ?_ (State.applyLevels_keep _)
    exact State.modGov_keep _ _
  · refine OutKeep.next ?_
    exact Keep.refl _

theorem State.railsDown_keep (s : State) : Keep s s.railsDown := ⟨rfl, fun _ => rfl, id, OtpKeep.same rfl rfl⟩

theorem execShutdown_keep (bus : Bool) (die reading : Nat) (s : State) : OutKeep s (execShutdown bus die reading s) := by
  unfold execShutdown
  refine OutKeep.ite ?_ ?_
  · refine OutKeep.ite ?_ ?_
    · refine OutKeep.next ?_
      exact Keep.refl _
    · extract_lets +onlyGivenNames x1
      have k1 : Keep s (x1) := by
        dsimp only [x1]
        exact State.railsDown_keep _
      clear_value x1
      refine OutKeep.next ?_
      refine Keep.upd ?_ rfl
      assumption
  · exact OutKeep.fault

theorem execBreach_keep (cv : Nat) (s : State) : OutKeep s (execBreach cv s) := by
  unfold execBreach
  refine OutKeep.ite ?_ ?_
  · refine OutKeep.next ?_
    exact State.modGov_keep _ _
  · refine OutKeep.next ?_
    exact Keep.refl _

theorem execGetStatus_keep (s : State) : OutKeep s (execGetStatus s) := by
  unfold execGetStatus
  refine onRequest_keep _ _ _ _ ?_
  intro x1
  intro x2
  intro x3
  exact State.reply_keep _ _ _ _

theorem execGetForecast_keep (s : State) : OutKeep s (execGetForecast s) := by
  unfold execGetForecast
  refine onRequest_keep _ _ _ _ ?_
  intro x1
  intro x2
  intro x3
  extract_lets +onlyGivenNames x4
  clear_value x4
  refine Keep.ite ?_ ?_
  · exact State.reply_keep _ _ _ _
  · exact State.reply_keep _ _ _ _

/-! ### Machine/RegWrite.lean -/

theorem Out.orElse_keep (o : Out) (s : State) (h_o : OutKeep s o) : Keep s (o.orElse s) := by
  unfold Out.orElse
  split
  · exact h_o _ rfl
  · exact Keep.refl _

theorem State.writeChan_keep (s : State) (k o v : Nat) : Keep s (State.writeChan s k o v) := by
  unfold State.writeChan
  refine Keep.ite ?_ ?_
  · exact State.modChan_keep _ _ _
  · refine Keep.ite ?_ ?_
    · refine Keep.trans ?_ (Out.orElse_keep _ _ ?_)
      · exact Keep.refl _
      · refine execMailboxSend_keep _ _ _ _
    · refine Keep.ite ?_ ?_
      · refine Keep.trans ?_ (Out.orElse_keep _ _ ?_)
        · exact Keep.refl _
        · refine execRpop_keep _ _
      · exact Keep.refl _

theorem State.writeBell_keep (s : State) (o v : Nat) : Keep s (State.writeBell s o v) := by
  unfold State.writeBell
  extract_lets +onlyGivenNames x1
  clear_value x1
  refine Keep.ite ?_ ?_
  · exact State.modPci_keep _ _
  · refine Keep.ite ?_ ?_
    · refine Keep.trans ?_ (Out.orElse_keep _ _ ?_)
      · exact Keep.refl _
      · refine execDbClr_keep _ _ _
    · refine Keep.ite ?_ ?_
      · exact State.modPci_keep _ _
      · exact Keep.refl _

theorem State.writeHost_keep (s : State) (o v : Nat) : Keep s (State.writeHost s o v) := by
  unfold State.writeHost
  extract_lets +onlyGivenNames x1
  refine Keep.ite ?_ ?_
  · exact State.modPci_keep _ _
  · refine Keep.ite ?_ ?_
    · exact State.modPci_keep _ _
    · refine Keep.ite ?_ ?_
      · dsimp only [x1]
        exact State.modPci_keep _ _
      · refine Keep.ite ?_ ?_
        · dsimp only [x1]
          exact State.modPci_keep _ _
        · refine Keep.ite ?_ ?_
          · dsimp only [x1]
            exact State.modPci_keep _ _
          · refine Keep.ite ?_ ?_
            · refine Keep.trans ?_ (Out.orElse_keep _ _ ?_)
              · exact Keep.refl _
              · refine execEvqCommit_keep _
            · refine Keep.ite ?_ ?_
              · dsimp only [x1]
                exact State.modPci_keep _ _
              · exact Keep.refl _

theorem State.writeReset_keep (s : State) (o v : Nat) : Keep s (State.writeReset s o v) := by
  unfold State.writeReset
  refine Keep.ite ?_ ?_
  · refine Keep.trans ?_ (Out.orElse_keep _ _ ?_)
    · exact Keep.refl _
    · refine execWarmReset_keep _ _ _
  · refine Keep.ite ?_ ?_
    · refine Keep.upd ?_ rfl
      exact Keep.refl _
    · exact Keep.refl _

theorem State.writeMsix_keep (s : State) (o v : Nat) : Keep s (State.writeMsix s o v) := by
  unfold State.writeMsix
  refine Keep.ite ?_ ?_
  · refine Keep.trans ?_ (State.unmask_keep _ _)
    exact State.modPci_keep _ _
  · exact Keep.refl _

theorem State.writeGov_keep (s : State) (o v : Nat) : Keep s (State.writeGov s o v) := by
  unfold State.writeGov
  extract_lets +onlyGivenNames x1
  clear_value x1
  refine Keep.ite ?_ ?_
  · extract_lets +onlyGivenNames x2
    clear_value x2
    exact State.modGov_keep _ _
  · refine Keep.ite ?_ ?_
    · exact State.commitCeilings_keep _
    · refine Keep.ite ?_ ?_
      · exact State.modGov_keep _ _
      · refine Keep.ite ?_ ?_
        · exact State.modGov_keep _ _
        · exact Keep.refl _

theorem State.writeQueue_keep (s : State) (n e o v : Nat) : Keep s (State.writeQueue s n e o v) := by
  unfold State.writeQueue
  extract_lets +onlyGivenNames x1
  have k1 : ∀ (f : QCtl → QCtl), Keep s (x1 f) := by
    intro x2
    dsimp only [x1]
    exact State.modQueue_keep _ _ _ _
  clear_value x1
  refine Keep.ite ?_ ?_
  · exact k1 _
  · refine Keep.ite ?_ ?_
    · exact k1 _
    · refine Keep.ite ?_ ?_
      · exact k1 _
      · refine Keep.ite ?_ ?_
        · exact State.modQueue_keep _ _ _ _
        · refine Keep.ite ?_ ?_
          · refine Out.orElse_keep _ _ ?_
            exact execQueueCommit_keep _ _ _
          · refine Keep.ite ?_ ?_
            · extract_lets +onlyGivenNames x3
              clear_value x3
              extract_lets +onlyGivenNames x4
              have k4 : Keep s (x4) := by
                dsimp only [x4]
                refine Keep.ite ?_ ?_
                · exact Keep.refl _
                · exact State.haltQueue_keep _ _ _ _
              clear_value x4
              extract_lets +onlyGivenNames x5
              have k5 : Keep s (x5) := by
                dsimp only [x5]
                exact Keep.trans ‹_› (State.modQueue_keep _ _ _ _)
              clear_value x5
              refine Keep.ite ?_ ?_
              · refine Keep.trans ‹_› (Out.orElse_keep _ _ ?_)
                exact execStepOne_keep _ _ _
              · assumption
            · exact Keep.refl _

theorem State.writeCore_keep (s : State) (n o v : Nat) : Keep s (State.writeCore s n o v) := by
  unfold State.writeCore
  refine Keep.ite ?_ ?_
  · exact State.modCore_keep _ _ _
  · refine Keep.ite ?_ ?_
    · extract_lets +onlyGivenNames x1
      clear_value x1
      exact State.modMe_keep _ _ _
    · refine Keep.ite ?_ ?_
      · refine Keep.trans ?_ (Out.orElse_keep _ _ ?_)
        · exact Keep.refl _
        · refine execCvtCommit_keep _ _ _
      · refine Keep.ite ?_ ?_
        · refine Keep.ite ?_ ?_
          · exact State.modSlab_keep _ _ _
          · exact Keep.refl _
        · refine Keep.ite ?_ ?_
          · exact State.modCore_keep _ _ _
          · refine Keep.ite ?_ ?_
            · exact State.writeQueue_keep _ _ _ _ _
            · refine Keep.ite ?_ ?_
              · refine Keep.ite ?_ ?_
                · refine Keep.trans ?_ (Out.orElse_keep _ _ ?_)
                  · exact Keep.refl _
                  · refine execTraceCommit_keep _ _
                · exact Keep.refl _
              · refine Keep.ite ?_ ?_
                · exact State.modCore_keep _ _ _
                · exact Keep.refl _

theorem State.writePort_keep (s : State) (p o v : Nat) : Keep s (State.writePort s p o v) := by
  unfold State.writePort
  refine Keep.ite ?_ ?_
  · extract_lets +onlyGivenNames x1
    have k1 : Keep s (x1) := by
      dsimp only [x1]
      exact State.modPort_keep _ _ _
    clear_value x1
    refine Keep.ite ?_ ?_
    · exact Keep.trans ‹_› (State.train_keep _ _)
    · assumption
  · refine Keep.ite ?_ ?_
    · exact State.modPort_keep _ _ _
    · refine Keep.ite ?_ ?_
      · extract_lets +onlyGivenNames x2
        have k2 : Keep s (x2) := by
          dsimp only [x2]
          refine Keep.ite ?_ ?_
          · refine Keep.trans ?_ (Out.orElse_keep _ _ ?_)
            · exact Keep.refl _
            · refine execSoundingCommit_keep _ _
          · exact Keep.refl _
        clear_value x2
        refine Keep.ite ?_ ?_
        · refine Keep.trans ?_ (Out.orElse_keep _ _ ?_)
          · assumption
          · refine execInject_keep _ _
        · assumption
      · refine Keep.ite ?_ ?_
        · exact State.modPort_keep _ _ _
        · exact Keep.refl _

theorem State.writeBridge_keep (s : State) (j o v : Nat) : Keep s (State.writeBridge s j o v) := by
  unfold State.writeBridge
  extract_lets +onlyGivenNames x1
  clear_value x1
  refine Keep.ite ?_ ?_
  · exact State.setBridge_keep _ _ _
  · refine Keep.ite ?_ ?_
    · refine Keep.trans ?_ (Out.orElse_keep _ _ ?_)
      · exact Keep.refl _
      · refine execStart_keep _ _
    · refine Keep.ite ?_ ?_
      · exact State.setBridge_keep _ _ _
      · exact Keep.refl _

theorem State.writeDebug_keep (s : State) (o v : Nat) : Keep s (State.writeDebug s o v) := by
  unfold State.writeDebug
  refine Keep.ite ?_ ?_
  · refine Keep.upd ?_ rfl
    exact Keep.refl _
  · refine Keep.ite ?_ ?_
    · refine Keep.trans ?_ (Out.orElse_keep _ _ ?_)
      · exact Keep.refl _
      · refine execCtxHalt_keep _ _ _
    · refine Keep.ite ?_ ?_
      · exact State.writeBridge_keep _ _ _ _
      · refine Keep.ite ?_ ?_
        · extract_lets +onlyGivenNames x1
          clear_value x1
          refine Keep.upd ?_ rfl
          exact Keep.refl _
        · refine Keep.ite ?_ ?_
          · extract_lets +onlyGivenNames x2
            clear_value x2
            refine Keep.upd ?_ rfl
            exact Keep.refl _
          · exact Keep.refl _

theorem State.writeWord_keep (s : State) (o v : Nat) : Keep s (State.writeWord s o v) := by
  unfold State.writeWord
  extract_lets +onlyGivenNames x1
  clear_value x1
  refine Keep.ite ?_ ?_
  · exact Keep.refl _
  · refine Keep.ite ?_ ?_
    · exact State.writeChan_keep _ _ _ _
    · refine Keep.ite ?_ ?_
      · exact State.writeBell_keep _ _ _
      · refine Keep.ite ?_ ?_
        · exact State.writeHost_keep _ _ _
        · refine Keep.ite ?_ ?_
          · exact State.writeReset_keep _ _ _
          · refine Keep.ite ?_ ?_
            · exact Keep.refl _
            · refine Keep.ite ?_ ?_
              · exact State.writeMsix_keep _ _ _
              · refine Keep.ite ?_ ?_
                · refine Keep.ite ?_ ?_
                  · refine Keep.trans ?_ (Out.orElse_keep _ _ ?_)
                    · exact Keep.refl _
                    · refine execQdb_keep _ _ _ _
                  · exact Keep.refl _
                · refine Keep.ite ?_ ?_
                  · exact State.writeGov_keep _ _ _
                  · refine Keep.ite ?_ ?_
                    · exact Keep.refl _
                    · refine Keep.ite ?_ ?_
                      · exact State.modTrust_keep _ _ rfl rfl
                      · refine Keep.ite ?_ ?_
                        · exact Keep.refl _
                        · refine Keep.ite ?_ ?_
                          · exact State.writeCore_keep _ _ _ _
                          · refine Keep.ite ?_ ?_
                            · exact Keep.refl _
                            · refine Keep.ite ?_ ?_
                              · extract_lets +onlyGivenNames x2
                                clear_value x2
                                refine Keep.ite ?_ ?_
                                · exact State.setChan_keep _ _ _
                                · exact Keep.refl _
                              · refine Keep.ite ?_ ?_
                                · exact Keep.refl _
                                · refine Keep.ite ?_ ?_
                                  · exact State.writePort_keep _ _ _ _
                                  · refine Keep.ite ?_ ?_
                                    · exact Keep.refl _
                                    · exact State.writeDebug_keep _ _ _

theorem execRegisterWrite_keep (offset size value : Nat) (s : State) : OutKeep s (execRegisterWrite offset size value s) := by
  unfold execRegisterWrite
  refine OutKeep.ite ?_ ?_
  · refine OutKeep.next ?_
    exact State.hostErr_keep _ _
  · refine OutKeep.next ?_
    refine Keep.foldl ?_ ?_ _
    · exact Keep.refl _
    · intro x1
      intro x2
      exact State.writeWord_keep _ _ _

end Sys2Proof.Machine
end

