-- ==== Sys2Proof/Laws/KeepExec.lean ====
section
/-! SUPPORT. No command changes the queue of waiting commands or breaks the canonical form of a memory: `exec` keeps both. -/

namespace Sys2Proof.Machine

theorem exec_keep (i : Instr) (s : State) : OutKeep s (exec i s) := by
  unfold exec
  split
  · refine execRegisterWrite_keep _ _ _ _
  · refine execNopInsn_keep _ _
  · refine execBr_keep _ _ _ _ _ _
  · refine execBra_keep _ _ _
  · refine execLoopInsn_keep _ _ _ _ _
  · refine execExit_keep _ _ _ _
  · refine execAddScalar_keep _ _ _
  · refine execSubScalar_keep _ _ _
  · refine execMulScalar_keep _ _ _
  · refine execMulhiScalar_keep _ _ _
  · refine execAndScalar_keep _ _ _
  · refine execOrScalar_keep _ _ _
  · refine execXorScalar_keep _ _ _
  · refine execShlScalar_keep _ _ _
  · refine execShrScalar_keep _ _ _
  · refine execSarScalar_keep _ _ _
  · refine execMinScalar_keep _ _ _
  · refine execMaxScalar_keep _ _ _
  · refine execMovScalar_keep _ _ _
  · refine execCaddr_keep _ _ _ _
  · refine execAddVector_keep _ _ _
  · refine execSubVector_keep _ _ _
  · refine execMulVector_keep _ _ _
  · refine execMulhiVector_keep _ _ _
  · refine execAndVector_keep _ _ _
  · refine execOrVector_keep _ _ _
  · refine execXorVector_keep _ _ _
  · refine execShlVector_keep _ _ _
  · refine execShrVector_keep _ _ _
  · refine execSarVector_keep _ _ _
  · refine execMinVector_keep _ _ _
  · refine execMaxVector_keep _ _ _
  · refine execMovVector_keep _ _ _
  · refine execSel_keep _ _ _
  · refine execPopc_keep _ _ _
  · refine execClz_keep _ _ _
  · refine execFadd_keep _ _ _
  · refine execFsub_keep _ _ _
  · refine execFmul_keep _ _ _
  · refine execFfma_keep _ _ _
  · refine execFmin_keep _ _ _
  · refine execFmax_keep _ _ _
  · refine execFabs_keep _ _ _
  · refine execFneg_keep _ _ _
  · refine execFrcp_keep _ _ _
  · refine execFsqrt_keep _ _ _
  · refine execFrsq_keep _ _ _
  · refine execFex2_keep _ _ _
  · refine execFlg2_keep _ _ _
  · refine execFdiv_keep _ _ _
  · refine execCvt_keep _ _ _
  · refine execPack_keep _ _ _
  · refine execBperm_keep _ _ _
  · refine execShfl_keep _ _ _
  · refine execRed_keep _ _ _
  · refine execSetp_keep _ _ _
  · refine execPlog_keep _ _ _
  · refine execPbal_keep _ _ _
  · refine execPset_keep _ _ _
  · refine execScmp_keep _ _ _
  · refine execSld_keep _ _ _
  · refine execSst_keep _ _ _
  · refine execLd_keep _ _ _
  · refine execSt_keep _ _ _
  · refine execAtom_keep _ _ _
  · refine execAtomComplete_keep _ _
  · refine execMma_keep _ _ _
  · refine execMmaz_keep _ _ _
  · refine execGangMdrain_keep _ _ _
  · refine execMclr_keep _ _ _
  · refine execGangMatrixAccept_keep _ _ _
  · refine execTsig_keep _ _ _
  · refine execTwait_keep _ _ _
  · refine execTread_keep _ _ _
  · refine execFenceInsn_keep _ _ _
  · refine execFsig_keep _ _ _
  · refine execFwait_keep _ _ _
  · refine execFwaitPoll_keep _ _ _
  · refine execFenceObjectReply_keep _ _
  · refine execFarCacheReleaseDone_keep _ _
  · refine execAlloc_keep _ _ _
  · refine execAllocReply_keep _ _
  · refine execFree_keep _ _ _
  · refine execCodeFetch_keep _ _ _
  · refine execFarCacheFill_keep _ _ _ _ _
  · refine execWritebackAccept_keep _ _ _
  · refine execGangStart_keep _ _
  · refine execLaunchRetire_keep _ _ _
  · refine execLaunchTimeout_keep _ _ _ _
  · refine execQdb_keep _ _ _ _
  · refine execRingFetch_keep _ _ _ _ _
  · refine execNopRec_keep _ _ _
  · refine execWaitRec_keep _ _ _
  · refine execSignalRec_keep _ _ _
  · refine execBarrierRec_keep _ _ _
  · refine execRebaseRec_keep _ _ _
  · refine execLoopRec_keep _ _ _
  · refine execLoopCountRead_keep _ _ _
  · refine execPhaseRec_keep _ _ _
  · refine execPhaseMark_keep _ _ _
  · refine execPowerRec_keep _ _ _
  · refine execBankOff_keep _ _ _
  · refine execBankOn_keep _ _ _
  · refine execClearFlags_keep _ _ _
  · refine execFenceRec_keep _ _ _
  · refine execLaunchRec_keep _ _ _
  · refine execMatmul_keep _ _ _
  · refine execChuteStarve_keep _ _
  · refine execMatmulRetire_keep _ _
  · refine execMdrain_keep _ _ _
  · refine execMclear_keep _ _ _
  · refine execGangWindow_keep _ _ _
  · refine execGangWindowClose_keep _ _ _
  · refine execMove_keep _ _ _
  · refine execMoveRequestComplete_keep _ _ _ _
  · refine execFallbackSlab_keep _ _ _ _
  · refine execCreditReturn_keep _ _ _
  · refine execLandingWrite_keep _ _ _
  · refine execUnplannedGrant_keep _ _ _ _ _
  · refine execEccRewrite_keep _ _ _
  · refine execRemoteSlabAccess_keep _ _
  · refine execHostPageCheck_keep _ _ _ _ _ _ _
  · refine execContextSuspend_keep _ _ _
  · refine execTokenArrival_keep _ _
  · refine execTallyOperation_keep _ _
  · refine execWatch_keep _ _
  · refine execWatchRetry_keep _ _
  · refine execWake_keep _ _
  · refine execSyncTimeout_keep _ _ _ _
  · refine execBarrierArrival_keep _ _
  · refine execBarrierRelease_keep _ _
  · refine execQueueCommit_keep _ _ _
  · refine execQueueCommitEffect_keep _ _ _
  · refine execHalt_keep _ _ _ _
  · refine execStepOne_keep _ _ _
  · refine execBrkEn_keep _ _ _ _
  · refine execCvtCommit_keep _ _ _
  · refine execPlacementAttempt_keep _ _
  · refine execSwitchOut_keep _ _
  · refine execWindowApply_keep _ _
  · refine execContextKill_keep _ _
  · refine execKillDrainDone_keep _ _
  · refine execRefBatchRetire_keep _ _ _
  · refine execSetTables_keep _
  · refine execCtxStart_keep _
  · refine execCtxHold_keep _
  · refine execCtxResume_keep _
  · refine execCtxKill_keep _
  · refine execCtxDestroy_keep _
  · refine execSetWindow_keep _
  · refine execCtxAck_keep _
  · refine execObjCreate_keep _
  · refine execObjHostZero_keep _
  · refine execRefBatch_keep _
  · refine execBar2Read_keep _ _ _
  · refine execBar2Write_keep _ _ _
  · refine execFunctionReset_keep _
  · refine execPerstAssert_keep _
  · refine execPerstDeassert_keep _ _
  · refine execEvqCommit_keep _
  · refine execMailboxSend_keep _ _ _ _
  · refine execRpop_keep _ _
  · refine execDbClr_keep _ _ _
  · refine execPlace_keep _ _
  · refine execDriverDown_keep _
  · refine execSense_keep _
  · refine execLinks_keep _
  · refine execDbStray_keep _ _ _
  · refine execTrainingAttempt_keep _ _ _ _ _ _
  · refine execTrainingRetry_keep _ _
  · refine execPortLeaveUp_keep _ _ _
  · refine execCodewordUncorrectable_keep _ _
  · refine execLink_keep _ _ _
  · refine execRetryTimeout_keep _ _
  · refine execForwardTimeout_keep _ _ _
  · refine execClaim_keep _ _ _
  · refine execClaimAck_keep _ _ _
  · refine execClaimRetry_keep _ _
  · refine execWriteFrame_keep _ _ _
  · refine execCommitAck_keep _ _ _
  · refine execClaimEnd_keep _ _ _
  · refine execSignalFrame_keep _ _ _
  · refine execSignalAck_keep _ _ _
  · refine execResendTimeout_keep _ _ _
  · refine execHello_keep _ _ _
  · refine execHeartbeat_keep _ _ _ _
  · refine execHeartbeatTimer_keep _ _
  · refine execPartnerLost_keep _ _
  · refine execEpochPoll_keep _
  · refine execMirrorWrite_keep _ _ _
  · refine execMirrorAck_keep _ _ _
  · refine execSettle_keep _ _ _
  · refine execSettleAck_keep _ _ _
  · refine execRestoreReq_keep _ _ _
  · refine execRouteLoad_keep _
  · refine execJobSet_keep _
  · refine execJobClear_keep _
  · refine execMirrorSet_keep _
  · refine execMirrorClear_keep _
  · refine execShadowSet_keep _
  · refine execRestore_keep _
  · refine execRetrain_keep _
  · refine execPortRetrain_keep _ _
  · refine execRemoveReq_keep _ _
  · refine execRemovalSettleTimeout_keep _ _
  · refine execRemovalDrainTimeout_keep _ _
  · refine execRemovalSafe_keep _ _
  · refine execRemoveCancel_keep _ _
  · refine execControlPeriod_keep _ _ _
  · refine execFanFault_keep _ _ _
  · refine execFlowFault_keep _ _
  · refine execModelMismatch_keep _ _
  · refine execModelMismatchClear_keep _
  · refine execForecastPublish_keep _ _
  · refine execCeilingCommit_keep _
  · refine execTripHot_keep _ _ _ _
  · refine execTripHotRelease_keep _ _ _ _
  · refine execBusTrip_keep _ _ _
  · refine execBusTripRelease_keep _ _
  · refine execShutdown_keep _ _ _ _
  · refine execBreach_keep _ _
  · refine execInputOvervoltage_keep _ _
  · refine execInputRestart_keep _ _
  · refine execInputLoss_keep _ _
  · refine execAuxPowerLoss_keep _
  · refine execGetStatus_keep _
  · refine execGetForecast_keep _
  · refine execColdReset_keep _ _
  · refine execSiteImageApply_keep _ _ _ _
  · refine execFallback_keep _
  · refine execGatekeeperOnly_keep _ _
  · refine execBusPrechargeDone_keep _
  · refine execDieResetRelease_keep _ _
  · refine execFarMemoryReady_keep _
  · refine execWarmReset_keep _ _ _
  · refine execTimeBaseCorrection_keep _
  · refine execScrub_keep _ _ _
  · refine execRefreshRatePoll_keep _ _ _
  · refine execWckRetune_keep _ _ _
  · refine execFwBegin_keep _
  · refine execFwData_keep _
  · refine execFwEnd_keep _
  · refine execFwCommit_keep _
  · refine execOwnerProgram_keep _
  · refine execOwnerRevoke_keep _
  · refine execAttest_keep _
  · refine execGetCert_keep _
  · refine execGetMark_keep _
  · refine execGetTrust_keep _
  · refine execMbSend_keep _ _ _ _
  · refine execMbRecv_keep _ _ _
  · refine execBufSeek_keep _ _ _
  · refine execBufRead_keep _ _
  · refine execBufWrite_keep _ _ _
  · refine execStatus_keep _ _
  · refine execSelfTestComplete_keep _ _ _
  · refine execClear_keep _ _
  · refine execTraceDrain_keep _ _
  · refine execTraceChunkDone_keep _ _
  · refine execTraceCommit_keep _ _
  · refine execCtxHalt_keep _ _ _
  · refine execSoundingCommit_keep _ _
  · refine execInject_keep _ _
  · refine execStart_keep _ _
  · refine execBridgeSoundingEnd_keep _ _
  · refine execCompletionTimeout_keep _ _ _ _ _
  · refine execLock_keep _ _ _ _
  · refine execLost_keep _ _ _
  · refine execCounterRecordWrite_keep _ _
  · refine execInputApplied_keep _ _
  · refine execLinkTrained_keep _ _ _ _
  · refine execRemoteSldReply_keep _ _
  · refine execTreadReply_keep _ _
  · refine execEpochRecord_keep _ _

end Sys2Proof.Machine
end

