-- ==== Sys2Proof/Laws/Record.lean ====
section
/-! SUPPORT. The frame of queue records, `CoreFrame`: which operations stay within one core, its queues, the messages in
flight, the contexts' counts, the event counters and the tailings rings; and what issuing and retiring a record do. -/

namespace Sys2Proof.Machine

/-- What a change of a core leaves: of the core only its queues, counters and traces, tokens, FC_CTRL in force, the stop of its gangs
and its last context may change. -/
def CoreKeep (k j : Core) : Prop :=
  ∃ qs d tk cn st lc, j = { k with queues := qs, dbg := d, tally := { k.tally with tokens := tk }, fc := { k.fc with ctrlNow := cn }, ge := { k.ge with stopped := st }, lastCtx := lc }

theorem CoreKeep.refl (k : Core) : CoreKeep k k := ⟨_, _, _, _, _, _, rfl⟩
theorem CoreKeep.trans {k j i : Core} (a : CoreKeep k j) (b : CoreKeep j i) : CoreKeep k i := by
  obtain ⟨_, _, _, _, _, _, rfl⟩ := a
  obtain ⟨_, _, _, _, _, _, rfl⟩ := b
  exact ⟨_, _, _, _, _, _, rfl⟩

/-- From `s` to `t` no core but `n` changes, and core `n` only as `CoreKeep` says; outside the cores only messages in flight, the hub
but for its tallies and units, contexts, event counters, rings and free values do. -/
structure CoreFrame (n : Nat) (s t : State) : Prop where
  same : t = { s with cores := t.cores, net := t.net, hub := t.hub, ctxs := t.ctxs, dbg := t.dbg, rings := t.rings, draws := t.draws }
  other : ∀ m, m ≠ n → t.core m = s.core m
  keep : CoreKeep (s.core n) (t.core n)
  htall : t.hub.tallies = s.hub.tallies
  hunits : t.hub.units = s.hub.units

theorem CoreFrame.slab {n : Nat} {s t : State} (h : CoreFrame n s t) : (t.core n).slab = (s.core n).slab := by
  obtain ⟨_, _, _, _, _, _, e⟩ := h.keep; rw [e]
theorem CoreFrame.slots {n : Nat} {s t : State} (h : CoreFrame n s t) : (t.core n).ge.slots = (s.core n).ge.slots := by
  obtain ⟨_, _, _, _, _, _, e⟩ := h.keep; rw [e]
theorem CoreFrame.launches {n : Nat} {s t : State} (h : CoreFrame n s t) : (t.core n).ge.launches = (s.core n).ge.launches := by
  obtain ⟨_, _, _, _, _, _, e⟩ := h.keep; rw [e]
theorem CoreFrame.me {n : Nat} {s t : State} (h : CoreFrame n s t) : (t.core n).me = (s.core n).me := by
  obtain ⟨_, _, _, _, _, _, e⟩ := h.keep; rw [e]
theorem CoreFrame.mv0 {n : Nat} {s t : State} (h : CoreFrame n s t) : (t.core n).mv0 = (s.core n).mv0 := by
  obtain ⟨_, _, _, _, _, _, e⟩ := h.keep; rw [e]
theorem CoreFrame.mv1 {n : Nat} {s t : State} (h : CoreFrame n s t) : (t.core n).mv1 = (s.core n).mv1 := by
  obtain ⟨_, _, _, _, _, _, e⟩ := h.keep; rw [e]
theorem CoreFrame.lines {n : Nat} {s t : State} (h : CoreFrame n s t) : (t.core n).fc.lines = (s.core n).fc.lines := by
  obtain ⟨_, _, _, _, _, _, e⟩ := h.keep; rw [e]
theorem CoreFrame.tslots {n : Nat} {s t : State} (h : CoreFrame n s t) : (t.core n).tally.slots = (s.core n).tally.slots := by
  obtain ⟨_, _, _, _, _, _, e⟩ := h.keep; rw [e]

theorem CoreFrame.refl (n : Nat) (s : State) : CoreFrame n s s := ⟨rfl, fun _ _ => rfl, CoreKeep.refl _, rfl, rfl⟩

theorem CoreFrame.trans {n : Nat} {s t u : State} (a : CoreFrame n s t) (b : CoreFrame n t u) : CoreFrame n s u :=
  ⟨b.same.trans (by rw [a.same]), fun m h => (b.other m h).trans (a.other m h), a.keep.trans b.keep, b.htall.trans a.htall, b.hunits.trans a.hunits⟩

theorem CoreKeep.dbg (k : Core) (d : CoreDebug) : CoreKeep k { k with dbg := d } := ⟨_, _, _, _, _, _, rfl⟩

theorem CoreKeep.count (k : Core) (code n : Nat) : CoreKeep k (k.count code n) := by rw [Core.count_eq']; exact CoreKeep.dbg _ _
where
  Core.count_eq' : k.count code n = { k with dbg := (k.count code n).dbg } := by
    unfold Core.count
    dsimp only
    split <;> rfl

theorem CoreKeep.setCore (n : Nat) (s : State) (j : Core) (h : CoreKeep (s.core n) j) : CoreFrame n s (s.setCore n j) :=
  ⟨rfl, fun m hm => State.core_setCore_ne hm _ _, by rw [State.core_setCore_self]; exact h, rfl, rfl⟩

theorem CoreKeep.modCore (n : Nat) (s : State) (f : Core → Core) (h : CoreKeep (s.core n) (f (s.core n))) :
    CoreFrame n s (s.modCore n f) := CoreKeep.setCore n s _ h

theorem CoreFrame.setQueue (n : Nat) (s : State) (e : Nat) (q : Queue) : CoreFrame n s (s.setQueue n e q) :=
  CoreKeep.setCore n s _ ⟨_, _, _, _, _, _, rfl⟩
theorem CoreFrame.modQueue (n : Nat) (s : State) (e : Nat) (f : Queue → Queue) : CoreFrame n s (s.modQueue n e f) :=
  CoreFrame.setQueue n s e _
theorem CoreFrame.tail (n : Nat) (s : State) (ring kind ctx : Nat) (gang : Option Nat) (w1 w2 w3 : Nat) :
    CoreFrame n s (s.tail ring kind ctx gang w1 w2 w3) := ⟨rfl, fun _ _ => rfl, CoreKeep.refl _, rfl, rfl⟩
theorem CoreFrame.modCtx (n : Nat) (s : State) (c : Nat) (f : Ctx → Ctx) : CoreFrame n s (s.modCtx c f) :=
  ⟨rfl, fun _ _ => rfl, CoreKeep.refl _, rfl, rfl⟩
theorem CoreFrame.setCtx (n : Nat) (s : State) (c : Nat) (x : Ctx) : CoreFrame n s (s.setCtx c x) :=
  ⟨rfl, fun _ _ => rfl, CoreKeep.refl _, rfl, rfl⟩
theorem CoreFrame.net (n : Nat) (s : State) (x : Net) : CoreFrame n s { s with net := x } :=
  ⟨rfl, fun _ _ => rfl, CoreKeep.refl _, rfl, rfl⟩

theorem CoreFrame.foldl {α : Type} {n : Nat} {s : State} {f : State → α → State} (hf : ∀ t x, CoreFrame n t (f t x)) (xs : List α) :
    CoreFrame n s (xs.foldl f s) := by
  induction xs generalizing s with
  | nil => exact CoreFrame.refl n s
  | cons x xs ih => exact (hf s x).trans ih

theorem CoreFrame.raise (n : Nat) (s : State) (c : Nat) (f : FaultRec) (h : f.core = n) : CoreFrame n s (s.raise c f) := by
  subst h
  unfold State.raise
  dsimp only
  split
  · exact CoreFrame.refl _ _
  · split
    · have h1 : ∀ u : State, CoreFrame f.core u (u.modCore f.core (fun k => { k with ge := { k.ge with stopped := true } })) :=
        fun u => CoreKeep.modCore _ _ _ ⟨_, _, _, _, _, _, rfl⟩
      split
      · refine CoreFrame.trans ?_ (CoreFrame.tail _ _ _ _ _ _ _ _ _)
        exact (CoreFrame.setCtx _ s c _).trans (h1 _)
      · exact (CoreFrame.setCtx _ s c _).trans (h1 _)
    · exact ⟨rfl, fun _ _ => rfl, CoreKeep.refl _, rfl, rfl⟩

theorem CoreKeep.countErrors (k : Core) : CoreKeep k k.countErrors := by
  unfold Core.countErrors
  exact ((CoreKeep.dbg k _).trans (CoreKeep.count _ _ _)).trans ((CoreKeep.count _ _ _).trans (CoreKeep.count _ _ _))

theorem CoreKeep.latch (k : Core) (now c e : Nat) (end_ : Bool) (opc slot : Nat) : CoreKeep k (k.latch now c e end_ opc slot) :=
  (CoreKeep.countErrors k).trans (CoreKeep.dbg _ _)

theorem CoreKeep.traceRec (k : Core) (now c e kind data : Nat) : CoreKeep k (k.traceRec now c e kind data) := by
  unfold Core.traceRec
  dsimp only
  split
  · split
    · exact (CoreKeep.dbg k _).trans (CoreKeep.count _ _ _)
    · exact (CoreKeep.dbg k _).trans (CoreKeep.count _ _ _)
  · exact CoreKeep.refl _

theorem CoreFrame.addToken (s : State) (c n cls qid slot : Nat) : CoreFrame n s (s.addToken c n cls qid slot) := by
  unfold State.addToken
  dsimp only
  split
  · split
    · exact ((CoreFrame.raise n _ _ _ rfl).trans (CoreFrame.tail _ _ _ _ _ _ _ _ _)).trans (CoreFrame.tail _ _ _ _ _ _ _ _ _)
    · exact (CoreFrame.raise n _ _ _ rfl).trans (CoreFrame.tail _ _ _ _ _ _ _ _ _)
  · exact CoreKeep.modCore _ _ _ ⟨_, _, _, _, _, _, rfl⟩

theorem CoreFrame.produceToken (s : State) (c n e slot cls : Nat) : CoreFrame n s (s.produceToken c n e slot cls) := by
  unfold State.produceToken
  dsimp only
  split
  · exact CoreFrame.addToken _ _ _ _ _ _
  · exact CoreFrame.net _ _ _

theorem CoreFrame.moveHead (s : State) (n e : Nat) : CoreFrame n s (s.moveHead n e) := by
  unfold State.moveHead
  dsimp only
  split
  · exact CoreFrame.setQueue _ _ _ _
  · exact (CoreFrame.setQueue _ _ _ _).trans (CoreFrame.modCtx _ _ _ _)

theorem CoreFrame.retireNow (s : State) (n e : Nat) (fl : Flight) : CoreFrame n s (s.retireNow n e fl) := by
  unfold State.retireNow
  split
  · exact CoreFrame.refl _ _
  · refine CoreFrame.trans ?_ (CoreFrame.moveHead _ _ _)
    have h1 : ∀ u : State, ∀ (now c : Nat), CoreFrame n u (u.modCore n (fun k => ((k.latch now c e true fl.opc fl.slot).count 0x32 1))) :=
      fun u now c => CoreKeep.modCore _ _ _ ((CoreKeep.latch _ _ _ _ _ _ _).trans (CoreKeep.count _ _ _))
    have h2 : ∀ (u : State) (b : Bool) (now c kind w : Nat), CoreFrame n u (if b then u.modCore n (fun k => k.traceRec now c e kind w) else u) := by
      intro u b now c kind w
      split
      · exact CoreKeep.modCore _ _ _ (CoreKeep.traceRec _ _ _ _ _ _)
      · exact CoreFrame.refl _ _
    have h3 : ∀ (u : State) (c : Nat), CoreFrame n u (if fl.opc = 5 then u else (recProduces fl.words).foldl (fun t cls => t.produceToken c n e fl.slot cls) u) := by
      intro u c
      split
      · exact CoreFrame.refl _ _
      · exact CoreFrame.foldl (fun t x => CoreFrame.produceToken _ _ _ _ _ _) _
    have h4 : ∀ (u : State) (c : Nat), CoreFrame n u (if fl.opc = 5 then u else match recTally fl.words with
      | none => u
      | some vid => match (u.ctx c).home vid with
        | none => u
        | some h => u.sendTally { ctx := c, vid := vid, home := h, src := ⟨n, 16 + e⟩, act := .add 1, qid := 4 * n + e, slot := fl.slot }) := by
      intro u c
      split
      · exact CoreFrame.refl _ _
      · split
        · exact CoreFrame.refl _ _
        · split
          · exact CoreFrame.refl _ _
          · exact CoreFrame.net _ _ _
    refine CoreFrame.trans ?_ (h4 _ _)
    refine CoreFrame.trans ?_ (h3 _ _)
    refine CoreFrame.trans ?_ (h2 _ _ _ _ _ _)
    refine CoreFrame.trans ?_ (CoreFrame.tail _ _ _ _ _ _ _ _ _)
    exact (CoreFrame.modQueue _ _ _ _).trans (h1 _ _ _)

theorem CoreFrame.retire (s : State) (n e id : Nat) : CoreFrame n s (s.retire n e id) := by
  unfold State.retire
  dsimp only
  split
  · exact CoreFrame.refl _ _
  · split
    · exact CoreFrame.setQueue _ _ _ _
    · exact CoreFrame.retireNow _ _ _ _

theorem CoreFrame.waitEnd (s : State) (n e c slot start tag kind thr seen : Nat) (expired : Bool) :
    CoreFrame n s (s.waitEnd n e c slot start tag kind thr seen expired) := by
  unfold State.waitEnd
  dsimp only
  split
  · exact (CoreFrame.tail _ _ _ _ _ _ _ _ _).trans (CoreKeep.modCore _ _ _ (CoreKeep.traceRec _ _ _ _ _ _))
  · exact CoreFrame.tail _ _ _ _ _ _ _ _ _

theorem CoreFrame.waitBegin (s : State) (n e c slot tag kind thr seen tmo : Nat) :
    CoreFrame n s (s.waitBegin n e c slot tag kind thr seen tmo) := CoreFrame.tail _ _ _ _ _ _ _ _ _

theorem CoreKeep.atIssue (k : Core) (e : Nat) : CoreKeep k (k.atIssue e) := by
  unfold Core.atIssue
  dsimp only
  split <;> exact ⟨_, _, _, _, _, _, rfl⟩

theorem CoreFrame.tokenEnd (s : State) (c n e : Nat) : CoreFrame n s (s.tokenEnd c n e) := by
  unfold State.tokenEnd
  dsimp only
  split
  · exact CoreFrame.refl _ _
  · exact (CoreFrame.setQueue _ _ _ _).trans (CoreFrame.waitEnd _ _ _ _ _ _ _ _ _ _ _)

theorem CoreFrame.issueRec (s : State) (c n e : Nat) (ws : List W64) : CoreFrame n s (s.issueRec c n e ws).1 := by
  unfold State.issueRec
  dsimp only
  refine CoreFrame.trans ?_ (CoreFrame.modQueue _ _ _ _)
  have h2 : ∀ (u : State) (b : Bool) (now kind w : Nat), CoreFrame n u (if b then u.modCore n (fun k => k.traceRec now c e kind w) else u) := by
    intro u b now kind w
    split
    · exact CoreKeep.modCore _ _ _ (CoreKeep.traceRec _ _ _ _ _ _)
    · exact CoreFrame.refl _ _
  refine CoreFrame.trans ?_ (h2 _ _ _ _ _)
  refine CoreFrame.trans ?_ (CoreFrame.tail _ _ _ _ _ _ _ _ _)
  refine CoreFrame.trans ?_ (CoreKeep.modCore _ _ _ ((CoreKeep.latch _ _ _ _ _ _ _).trans (CoreKeep.count _ _ _)))
  have h3 : ∀ (u : State), CoreFrame n u (if recOpc ws = 5 then u else u.modCore n (fun k => k.takeTokens (recConsumes ws))) := by
    intro u
    split
    · exact CoreFrame.refl _ _
    · exact CoreKeep.modCore _ _ _ ⟨_, _, _, _, _, _, rfl⟩
  refine CoreFrame.trans ?_ (h3 _)
  refine CoreFrame.trans ?_ (CoreKeep.modCore _ _ _ ?_)
  · exact CoreFrame.tokenEnd _ _ _ _
  · have := CoreKeep.atIssue
    refine CoreKeep.trans (this _ e) ⟨_, _, _, _, _, _, rfl⟩

/-! ### The queues of a core, and the flight of one queue -/

theorem Core.queues_count (k : Core) (code n : Nat) : (k.count code n).queues = k.queues := by
  unfold Core.count; dsimp only; split <;> rfl
theorem Core.queues_countErrors (k : Core) : k.countErrors.queues = k.queues := by
  unfold Core.countErrors; dsimp only; rw [Core.queues_count, Core.queues_count, Core.queues_count]
theorem Core.queues_latch (k : Core) (now c e : Nat) (end_ : Bool) (opc slot : Nat) : (k.latch now c e end_ opc slot).queues = k.queues :=
  Core.queues_countErrors k
theorem Core.queues_traceRec (k : Core) (now c e kind data : Nat) : (k.traceRec now c e kind data).queues = k.queues := by
  unfold Core.traceRec; dsimp only
  split
  · split <;> rw [Core.queues_count]
  · rfl
theorem Core.queues_atIssue (k : Core) (e : Nat) : (k.atIssue e).queues = k.queues := by
  unfold Core.atIssue; dsimp only; split <;> rfl

theorem State.queues_raise (s : State) (c n : Nat) (f : FaultRec) : ((s.raise c f).core n).queues = (s.core n).queues := by
  unfold State.raise
  dsimp only
  have h1 : ∀ u : State, ((u.modCore f.core (fun k => { k with ge := { k.ge with stopped := true } })).core n).queues = (u.core n).queues := by
    intro u
    by_cases h : n = f.core
    · subst h; rw [State.core_modCore_self]
    · rw [State.core_modCore_ne h]
  split
  · rfl
  · split
    · split
      · rw [State.core_tail, h1, State.core_setCtx]
      · rw [h1, State.core_setCtx]
    · rfl

theorem State.queues_addToken (s : State) (c n cls qid slot : Nat) : ((s.addToken c n cls qid slot).core n).queues = (s.core n).queues := by
  unfold State.addToken
  dsimp only
  split
  · split
    · rw [State.core_tail, State.core_tail, State.queues_raise]
    · rw [State.core_tail, State.queues_raise]
  · rw [State.core_modCore_self]

theorem State.queues_produceToken (s : State) (c n e slot cls : Nat) : ((s.produceToken c n e slot cls).core n).queues = (s.core n).queues := by
  unfold State.produceToken
  dsimp only
  split
  · exact State.queues_addToken _ _ _ _ _ _
  · rfl

/-- HEAD moves; nothing else of the queue does. -/
theorem State.queue_moveHead (s : State) (n e : Nat) : ∃ h, (s.moveHead n e).queue n e = { s.queue n e with head := h } := by
  unfold State.moveHead
  dsimp only
  split
  · exact ⟨_, State.queue_setQueue_self _ _ _ _⟩
  · exact ⟨_, by rw [State.queue_modCtx, State.queue_setQueue_self]; rfl⟩

/-- A record that retires leaves the queue's flight; HEAD may move; nothing else of the queue changes. -/
theorem State.queue_retireNow (s : State) (n e : Nat) (fl : Flight) {c : Nat} (h : (s.core n).ctx = some c) :
    ∃ hd, (s.retireNow n e fl).queue n e = { s.queue n e with flight := (s.queue n e).flight.filter (fun g => g.id != fl.id), head := hd } := by
  unfold State.retireNow
  rw [h]
  dsimp only
  obtain ⟨hd, hh⟩ := State.queue_moveHead _ n e
  refine ⟨hd, hh.trans ?_⟩
  clear hh
  have hq : ∀ u v : State, (u.core n).queues = (v.core n).queues → u.queue n e = v.queue n e := by
    intro u v huv; unfold State.queue Core.queue; rw [huv]
  have h0 : (s.modQueue n e (fun q => { q with flight := q.flight.filter (fun g => g.id != fl.id) })).queue n e
      = { s.queue n e with flight := (s.queue n e).flight.filter (fun g => g.id != fl.id) } := State.queue_setQueue_self _ _ _ _
  have h1 : ∀ u : State, ∀ (now c : Nat), ((u.modCore n (fun k => ((k.latch now c e true fl.opc fl.slot).count 0x32 1))).core n).queues = (u.core n).queues := by
    intro u now c; rw [State.core_modCore_self, Core.queues_count, Core.queues_latch]
  have h2 : ∀ (u : State) (b : Bool) (now c kind w : Nat), ((if b then u.modCore n (fun k => k.traceRec now c e kind w) else u).core n).queues = (u.core n).queues := by
    intro u b now c kind w
    split
    · rw [State.core_modCore_self, Core.queues_traceRec]
    · rfl
  have hf : ∀ (xs : List Nat) (u : State) (c : Nat), ((xs.foldl (fun t cls => t.produceToken c n e fl.slot cls) u).core n).queues = (u.core n).queues := by
    intro xs
    induction xs with
    | nil => intro u c; rfl
    | cons x xs ih => intro u c; rw [List.foldl_cons, ih, State.queues_produceToken]
  have h3 : ∀ (u : State) (c : Nat), ((if fl.opc = 5 then u else (recProduces fl.words).foldl (fun t cls => t.produceToken c n e fl.slot cls) u).core n).queues = (u.core n).queues := by
    intro u c
    split
    · rfl
    · exact hf _ _ _
  have h4 : ∀ (u : State) (c : Nat), ((if fl.opc = 5 then u else match recTally fl.words with
      | none => u
      | some vid => match (u.ctx c).home vid with
        | none => u
        | some h => u.sendTally { ctx := c, vid := vid, home := h, src := ⟨n, 16 + e⟩, act := .add 1, qid := 4 * n + e, slot := fl.slot }).core n).queues = (u.core n).queues := by
    intro u c
    split
    · rfl
    · split
      · rfl
      · split <;> rfl
  refine congrArg (fun q : Queue => { q with head := hd }) (Eq.trans (hq _ _ ?_) h0)
  refine Eq.trans (h4 _ _) ?_
  refine Eq.trans (h3 _ _) ?_
  refine Eq.trans (h2 _ _ _ _ _ _) ?_
  rw [State.core_tail]
  exact h1 _ _ _

/-- The same of `retire`, while the counter record finds room. -/
theorem State.queue_retire (s : State) (n e id : Nat) (fl : Flight) {c : Nat} (h : (s.core n).ctx = some c)
    (hf : (s.queue n e).flight.find? (fun f => f.id == id) = some fl) (hc : (s.core n).crecFull e = false) :
    ∃ hd, (s.retire n e id).queue n e = { s.queue n e with flight := (s.queue n e).flight.filter (fun g => g.id != id), head := hd } := by
  have hid : fl.id = id := by simpa using List.find?_some hf
  unfold State.retire
  dsimp only
  rw [hf]
  dsimp only
  rw [if_neg (by simp [hc]), ← hid]
  exact State.queue_retireNow s n e fl h

theorem State.queue_of_queues {u v : State} {n : Nat} (e : Nat) (h : (u.core n).queues = (v.core n).queues) : u.queue n e = v.queue n e := by
  unfold State.queue Core.queue; rw [h]

theorem State.queues_waitEnd (s : State) (n e c slot start tag kind thr seen : Nat) (expired : Bool) (m : Nat) :
    ((s.waitEnd n e c slot start tag kind thr seen expired).core m).queues = (s.core m).queues := by
  unfold State.waitEnd
  dsimp only
  split
  · by_cases h : m = n
    · subst h; rw [State.core_modCore_self, Core.queues_traceRec, State.core_tail]
    · rw [State.core_modCore_ne h, State.core_tail]
  · rw [State.core_tail]

theorem Core.ctx_count (k : Core) (code n : Nat) : (k.count code n).ctx = k.ctx := by
  unfold Core.count; dsimp only; split <;> rfl

theorem Core.ctx_traceRec (k : Core) (now c e kind data : Nat) : (k.traceRec now c e kind data).ctx = k.ctx := by
  unfold Core.traceRec; dsimp only
  split
  · split <;> rw [Core.ctx_count]
  · rfl

theorem State.coreCtx_waitEnd (s : State) (n e c slot start tag kind thr seen : Nat) (expired : Bool) (m : Nat) :
    ((s.waitEnd n e c slot start tag kind thr seen expired).core m).ctx = (s.core m).ctx := by
  unfold State.waitEnd
  dsimp only
  split
  · by_cases h : m = n
    · subst h; rw [State.core_modCore_self, Core.ctx_traceRec, State.core_tail]
    · rw [State.core_modCore_ne h, State.core_tail]
  · rw [State.core_tail]

theorem Core.writes_count (k : Core) (code n : Nat) : (k.count code n).dbg.writes = k.dbg.writes := by
  unfold Core.count; dsimp only; split <;> rfl

theorem Core.writes_traceRec (k : Core) (now c e kind data : Nat) : (k.traceRec now c e kind data).dbg.writes = k.dbg.writes := by
  unfold Core.traceRec; dsimp only
  split
  · split
    · rw [Core.writes_count]
    · rw [Core.writes_count]
      simp [apply_ite CoreDebug.writes]
  · rfl

theorem State.writes_waitEnd (s : State) (n e c slot start tag kind thr seen : Nat) (expired : Bool) (m : Nat) :
    ((s.waitEnd n e c slot start tag kind thr seen expired).core m).dbg.writes = (s.core m).dbg.writes := by
  unfold State.waitEnd
  dsimp only
  split
  · by_cases h : m = n
    · subst h; rw [State.core_modCore_self, Core.writes_traceRec, State.core_tail]
    · rw [State.core_modCore_ne h, State.core_tail]
  · rw [State.core_tail]

/-- The end of a queue's wait, and the retirement of its record. -/
theorem State.queue_endWait {s : State} {n e c : Nat} {fl : Flight} {q : Queue} {id cc slot start tag kind thr seen : Nat} {expired : Bool}
    (hc : (s.core n).ctx = some c) (hq : s.queue n e = q) (hf : q.flight.find? (fun f => f.id == id) = some fl) (hw : (s.core n).crecFull e = false) :
    ∃ hd, ((s.waitEnd n e cc slot start tag kind thr seen expired).retire n e id).queue n e =
      { q with flight := q.flight.filter (fun f => f.id != id), head := hd } := by
  have h1 : (s.waitEnd n e cc slot start tag kind thr seen expired).queue n e = q := by
    rw [← hq]; exact State.queue_of_queues e (State.queues_waitEnd _ _ _ _ _ _ _ _ _ _ _ _)
  obtain ⟨hd, h⟩ := State.queue_retire (s.waitEnd n e cc slot start tag kind thr seen expired) n e id fl
    (by rw [State.coreCtx_waitEnd]; exact hc) (by rw [h1]; exact hf) (by
      unfold Core.crecFull
      have : ((s.waitEnd n e cc slot start tag kind thr seen expired).core n).queue e = (s.core n).queue e := h1.trans hq.symm
      rw [this, State.writes_waitEnd]
      exact hw)
  exact ⟨hd, by rw [h, h1]⟩

end Sys2Proof.Machine
end

