-- ==== Sys2Proof/Laws/OfInsns.lean ====
section
/-!
SUPPORT. Lemmas about gang instructions over their operands, for the proofs of the statements: what their operations do, step by step.
-/

namespace Sys2Proof.Claims

open Machine

theorem numOf_ofNat (w a : Nat) (hw : 0 < w) (sg : Bool) : numOfWord sg (BitVec.ofNat w a) = intVal w sg a := by
  unfold numOfWord intVal toSigned
  cases sg
  · simp
  · simp only [if_true]
    rw [BitVec.toInt_eq_msb_cond]
    have : (BitVec.ofNat w a).msb = bitOf (a % 2 ^ w) (w - 1) := by
      rw [BitVec.msb_eq_getLsbD_last, BitVec.getLsbD_ofNat]
      unfold bitOf
      have : w - 1 < w := by omega
      simp [this, Nat.testBit_eq_decide_div_mod_eq]
      have hh : a % 2 ^ w / 2 ^ (w-1) % 2 = a / 2 ^ (w-1) % 2 := by
        have e : 2 ^ w = 2 ^ (w-1) * 2 := by rw [← Nat.pow_succ]; congr 1; omega
        rw [e, Nat.mod_mul_right_div_self]
        simp
      rw [hh]
      by_cases h : a / 2 ^ (w-1) % 2 = 1 <;> simp [h]
    rw [this]
    simp only [BitVec.toNat_ofNat]
    split <;> simp

theorem wrap_eq (w : Nat) (x : Int) : wrapInt w x = (BitVec.ofInt w x).toNat := by
  unfold wrapInt
  simp [BitVec.toNat_ofInt]

theorem clamp_eq (w : Nat) (hw : 0 < w) (sg : Bool) (x : Int) : wrapInt w (clampInt (intMin w sg) (intMax w sg) x) = (clampWord w sg x).toNat := by
  rw [wrap_eq]
  unfold clampWord clampInt intMin intMax
  have hp : (0:Int) < 2 ^ (w-1) := Int.pow_pos (by decide)
  have hp2 : (0:Int) < 2 ^ w := Int.pow_pos (by decide)
  congr 2
  cases sg
  · simp only [Bool.false_eq_true, if_false]; split <;> (try split) <;> omega
  · simp only [if_true]; split <;> (try split) <;> omega

def opFn : IOp → IFun
  | .add => fnAdd | .sub => fnSub | .mul => fnMul | .mulhi => fnMulhi | .and => fnAnd | .or => fnOr | .xor => fnXor
  | .shl => fnShl | .shr => fnShr | .sar => fnSar | .min => fnMin | .max => fnMax | .mov => fnMov

theorem ofInt_numOf (w : Nat) (sg : Bool) (a : BitVec w) : BitVec.ofInt w (numOfWord sg a) = a := by
  unfold numOfWord
  cases sg
  · simp
  · simp

theorem ialu_eq (op : IOp) (w : Nat) (hw : 0 < w) (sg sat : Bool) (a b : Nat) (ha : a < 2 ^ w) (hb : b < 2 ^ w) :
    ialu op w sg sat a b = (opFn op w sg sat (BitVec.ofNat w a) (BitVec.ofNat w b)).toNat := by
  have hlt : ∀ x, x % 2 ^ w < 2 ^ w := fun x => Nat.mod_lt _ (Nat.pow_pos (by decide))
  have na := numOf_ofNat w a hw sg
  have nb := numOf_ofNat w b hw sg
  have oa := ofInt_numOf w sg (BitVec.ofNat w a)
  have ob := ofInt_numOf w sg (BitVec.ofNat w b)
  have hws : b % 2 ^ w % w = b % w ∨ True := Or.inr trivial
  cases op <;> simp only [ialu, opFn, fitInt]
  · cases sat <;> simp only [fnAdd, if_true, Bool.false_eq_true, if_false]
    · rw [wrap_eq, ← na, ← nb, BitVec.ofInt_add, oa, ob]
    · rw [clamp_eq w hw, na, nb]
  · cases sat <;> simp only [fnSub, if_true, Bool.false_eq_true, if_false]
    · rw [wrap_eq, ← na, ← nb, Int.sub_eq_add_neg, BitVec.ofInt_add, BitVec.ofInt_neg, oa, ob, BitVec.sub_eq_add_neg]
    · rw [clamp_eq w hw, na, nb]
  · cases sat <;> simp only [fnMul, if_true, Bool.false_eq_true, if_false]
    · rw [wrap_eq, ← na, ← nb, BitVec.ofInt_mul, oa, ob]
    · rw [clamp_eq w hw, na, nb]
  · rw [wrap_eq, ← na, ← nb]; rfl
  · simp [fnAnd, BitVec.toNat_and]
    first | rfl | (apply Nat.and_mod_two_pow) | skip
  · simp [fnOr, BitVec.toNat_or]; try rfl
  · simp [fnXor, BitVec.toNat_xor]; try rfl
  · cases sat <;> simp only [fnShl, if_true, Bool.false_eq_true, if_false]
    · rw [wrap_eq, ← na, BitVec.ofInt_mul, oa]
      simp only [BitVec.toNat_ofNat, Nat.mod_eq_of_lt hb]
      rw [BitVec.shiftLeft_eq_mul_twoPow]
      congr 2
      apply BitVec.eq_of_toNat_eq
      simp [BitVec.toNat_ofInt, BitVec.toNat_twoPow]
      norm_cast
    · rw [clamp_eq w hw, na]; simp only [BitVec.toNat_ofNat, Nat.mod_eq_of_lt hb]
  · simp [fnShr, BitVec.toNat_ushiftRight, Nat.shiftRight_eq_div_pow, Nat.mod_eq_of_lt hb]
  · have hs : toSigned w a = (BitVec.ofNat w a).toInt := by
      have := numOf_ofNat w a hw true
      simp only [numOfWord, intVal, if_true] at this
      exact this.symm
    rw [wrap_eq, hs]
    simp only [fnSar, BitVec.toNat_ofNat, Nat.mod_eq_of_lt hb, BitVec.sshiftRight, Int.shiftRight_eq_div_pow]
    norm_cast
  · rw [wrap_eq, ← na, ← nb]; simp only [fnMin]
    split
    · rw [oa]
    · rw [ob]
  · rw [wrap_eq, ← na, ← nb]; simp only [fnMax]
    split
    · rw [ob]
    · rw [oa]
  · simp [fnMov]

theorem tyWidth_pos (t : Nat) : 0 < tyWidth t := by
  unfold tyWidth; repeat' split
  all_goals decide

theorem only_done (s : State) (g : GangAt) (vec : Bool) (r : Gang × FFlags) :
    OnlyGang g s ((s.issued g.core g.slot vec).gangDone g r) := by
  obtain ⟨rv, rs, ct, h⟩ := core_gangDone s g vec r
  refine ⟨⟨rfl, fun m hm => core_gangDone_ne s g vec r hm⟩, ?_, ?_⟩
  · intro sl hsl
    unfold State.gang
    rw [h]
    exact tblGet_tblSet_ne _ hsl _ _
  · rw [h]

theorem gang_done (s : State) (g : GangAt) (vec : Bool) (r : Gang × FFlags) :
    ((s.issued g.core g.slot vec).gangDone g r).gang g.core g.slot = r.1.advance g.next := by
  obtain ⟨rv, rs, ct, h⟩ := core_gangDone s g vec r
  unfold State.gang
  rw [h]
  exact tblGet_tblSet_self _ _ _ _

theorem flags_done (s : State) (g : GangAt) (vec : Bool) (r : Gang × FFlags) (hr : r.2 = {}) :
    FlagsStay g.core s ((s.issued g.core g.slot vec).gangDone g r) := by
  obtain ⟨rv, rs, ct, h⟩ := core_gangDone s g vec r
  unfold FlagsStay
  rw [h, hr]
  exact FFlags.or_none _

theorem advance_setS (x : Gang) (r : Nat) (v : W64) (n : Addr) : (x.setS r v).advance n = { x.advance n with s := (x.setS r v).s } := rfl

theorem scalar_core (op : IOp) (g : GangAt) (f : VForm) (s : State) :
    BitVec.ofNat 64 (ialu op (tyWidth f.ty) (tySigned f.ty) f.sat
      (sopA (s.gangEnv g.core g.slot) (s.gang g.core g.slot) f (tyWidth f.ty)) (sopB (s.gangEnv g.core g.slot) (s.gang g.core g.slot) f (tyWidth f.ty)))
    = (opFn op (tyWidth f.ty) (tySigned f.ty) f.sat (scalarSrc s g _ false 0 f.a) (scalarSrc s g _ f.ib f.ext f.b)).setWidth 64 := by
  have hp : 0 < 2 ^ tyWidth f.ty := Nat.pow_pos (by decide)
  have hb : sopB (s.gangEnv g.core g.slot) (s.gang g.core g.slot) f (tyWidth f.ty) < 2 ^ tyWidth f.ty := by
    unfold sopB; split <;> exact Nat.mod_lt _ hp
  have ha : sopA (s.gangEnv g.core g.slot) (s.gang g.core g.slot) f (tyWidth f.ty) < 2 ^ tyWidth f.ty := Nat.mod_lt _ hp
  rw [ialu_eq op _ (tyWidth_pos _) _ _ _ _ ha hb]
  have e1 : BitVec.ofNat (tyWidth f.ty) (sopA (s.gangEnv g.core g.slot) (s.gang g.core g.slot) f (tyWidth f.ty)) = scalarSrc s g _ false 0 f.a := by
    unfold sopA scalarSrc
    apply BitVec.eq_of_toNat_eq
    simp
  have e2 : BitVec.ofNat (tyWidth f.ty) (sopB (s.gangEnv g.core g.slot) (s.gang g.core g.slot) f (tyWidth f.ty)) = scalarSrc s g _ f.ib f.ext f.b := by
    unfold sopB scalarSrc
    apply BitVec.eq_of_toNat_eq
    cases f.ib <;> simp
  rw [e1, e2]
  apply BitVec.eq_of_toNat_eq
  simp

theorem scalar_any (i : GangAt → VForm → Instr) (sp : VSpec) (op : IOp)
    (he : ∀ g f s, exec (i g f) s = gangAlu s g (i g f) sp f (fun env x => scaInt op env x f)) : ScalarInt ⟨i, sp, opFn op⟩ := by
  intro g f s c ⟨h1, h2, h3, h4⟩
  refine ⟨_, (he g f s).trans (gangAlu_next _ h1 h2 h3 h4), only_done _ _ _ _, flags_done _ _ _ _ rfl, ?_, ?_⟩
  · rw [gang_done]; rfl
  · intro q
    rw [gang_done]
    unfold scaInt
    dsimp only
    rw [scalar_core op g f s]
    show (Gang.setS _ _ _).getS q = _
    rw [Gang.getS_setS]

theorem scalarAll : ∀ r ∈ scalarRows, ScalarInt r := by
  intro r hr
  simp only [scalarRows, List.mem_cons, List.not_mem_nil, or_false] at hr
  rcases hr with rfl | rfl | rfl | rfl | rfl | rfl | rfl | rfl | rfl | rfl | rfl | rfl | rfl
  · exact scalar_any _ _ .add (fun _ _ _ => rfl)
  · exact scalar_any _ _ .sub (fun _ _ _ => rfl)
  · exact scalar_any _ _ .mul (fun _ _ _ => rfl)
  · exact scalar_any _ _ .mulhi (fun _ _ _ => rfl)
  · exact scalar_any _ _ .and (fun _ _ _ => rfl)
  · exact scalar_any _ _ .or (fun _ _ _ => rfl)
  · exact scalar_any _ _ .xor (fun _ _ _ => rfl)
  · exact scalar_any _ _ .shl (fun _ _ _ => rfl)
  · exact scalar_any _ _ .shr (fun _ _ _ => rfl)
  · exact scalar_any _ _ .sar (fun _ _ _ => rfl)
  · exact scalar_any _ _ .min (fun _ _ _ => rfl)
  · exact scalar_any _ _ .max (fun _ _ _ => rfl)
  · exact scalar_any _ _ .mov (fun _ _ _ => rfl)

theorem advance_v (x y : Gang) (n : Addr) (h : y = { x with v := y.v, draws := y.draws }) :
    y.advance n = { x.advance n with v := y.v, draws := y.draws } := by
  rw [h]; rfl

theorem laneVal_vecOp (x : Gang) (r l w : Nat) : x.vecOp r l w = (laneVal x r l w).toNat := by
  unfold Gang.vecOp laneVal
  by_cases hw : w = 64
  · subst hw
    simp
    have h1 := (x.getV r l).isLt
    have h2 := (x.getV (r+1) l).isLt
    omega
  · simp [hw]

theorem vecOp_lt (x : Gang) (r l w : Nat) : x.vecOp r l w < 2 ^ w := by
  rw [laneVal_vecOp]; exact BitVec.isLt _

theorem cast2 (n w : Nat) : ((n:Int) % 4294967296 % 2^w).toNat = n % 4294967296 % 2^w := by
  rw [show ((2:Int)^w) = ((2^w : Nat):Int) by simp, show (4294967296:Int) = ((4294967296:Nat):Int) from rfl, ← Int.natCast_emod, ← Int.natCast_emod]; rfl

theorem laneB_eq (s : State) (g : GangAt) (f : VForm) (w l : Nat) (sg : Bool) (hw : 0 < w) :
    opB (s.gangEnv g.core g.slot) (s.gang g.core g.slot) f sg w l = (laneB s g f w l sg).toNat := by
  unfold opB laneB laneSrc
  cases f.ib
  · cases f.bs
    · simp [laneVal_vecOp]
    · simp
  · cases f.ic
    · simp
    · simp only [if_true]
      rw [wrap_eq, show f.ext.toNat = (f.ext.toNat) from rfl]
      have h := numOf_ofNat 32 f.ext.toNat (by decide) sg
      rw [← h]
      have e : BitVec.ofNat 32 f.ext.toNat = f.ext.setWidth 32 := by apply BitVec.eq_of_toNat_eq; simp
      rw [e]
      cases sg
      · simp [numOfWord]; exact cast2 _ _
      · simp [numOfWord, BitVec.signExtend]

theorem laneC_eq (s : State) (g : GangAt) (f : VForm) (w l : Nat) (sg : Bool) (hw : 0 < w) :
    opC (s.gangEnv g.core g.slot) (s.gang g.core g.slot) f sg w l = (laneC s g f w l sg).toNat := by
  unfold opC laneC laneSrc
  cases f.ic
  · cases f.cs
    · simp [laneVal_vecOp]
    · simp
  · cases f.ib
    · simp
    · simp only [if_true]
      rw [wrap_eq]
      have h := numOf_ofNat 32 (f.ext.toNat / 2 ^ 32) (by decide) sg
      rw [← h]
      have e : BitVec.ofNat 32 (f.ext.toNat / 2 ^ 32) = (f.ext >>> 32).setWidth 32 := by
        apply BitVec.eq_of_toNat_eq; simp [Nat.shiftRight_eq_div_pow]
      rw [e]
      cases sg
      · simp [numOfWord]; exact cast2 _ _
      · simp [numOfWord, BitVec.signExtend]

theorem lanes_of_put (s : State) (g : GangAt) (f : VForm) (w : Nat) (val : Nat → BitVec w) (nval : Nat → Nat) (t : State)
    (d : Nat)
    (hw : w = 64 ∨ w ≤ 32)
    (hv : ∀ l, l < 32 → nval l = (val l).toNat)
    (ht : t.gang g.core g.slot = { (s.gang g.core g.slot).putLanes f.d w ((s.gang g.core g.slot).execLanes f.qp f.qn) nval with draws := d }.advance g.next) :
    LanesHold s t g f w val d := by
  have hfr := Gang.putLanes_frame (s.gang g.core g.slot) f.d w ((s.gang g.core g.slot).execLanes f.qp f.qn) nval
  have hvv : ∀ r l, l < 32 → (t.gang g.core g.slot).getV r l =
      ((s.gang g.core g.slot).putLanes f.d w ((s.gang g.core g.slot).execLanes f.qp f.qn) nval).getV r l := by
    intro r l _
    rw [ht]; rfl
  refine ⟨?_, ?_, ?_⟩
  · rw [ht, hfr]; rfl
  · intro l hl hx
    have hx2 := hx
    rcases hw with hw | hw
    · subst hw
      refine ⟨?_, fun h => absurd h (by decide)⟩
      unfold laneVal
      simp only [if_true]
      rw [hvv _ _ hl, hvv _ _ hl, Gang.getV_putLanes _ _ _ _ _ _ _ hl, Gang.getV_putLanes _ _ _ _ _ _ _ hl]
      simp only [hx, true_and, if_true, hv l hl]
      simp
      apply BitVec.eq_of_toNat_eq
      simp
      have := (val l).isLt
      omega
    · have h64 : w ≠ 64 := by omega
      have hg : (t.gang g.core g.slot).getV f.d l = (val l).setWidth 32 := by
        rw [hvv _ _ hl, Gang.getV_putLanes _ _ _ _ _ _ _ hl]
        simp only [hx, true_and, if_true, hv l hl, h64, if_false]
        apply BitVec.eq_of_toNat_eq
        simp
        
      refine ⟨?_, fun _ => hg⟩
      unfold laneVal
      simp only [h64, if_false]
      rw [hg]
      apply BitVec.eq_of_toNat_eq
      simp
      have := (val l).isLt
      rw [Nat.mod_eq_of_lt (a := (val l).toNat) (b := 4294967296)]
      · exact Nat.mod_eq_of_lt this
      · exact Nat.lt_of_lt_of_le this (Nat.pow_le_pow_right (by decide) hw)
  · intro r l hl h
    rw [hvv _ _ hl, Gang.getV_putLanes _ _ _ _ _ _ _ hl]
    rcases h with h | ⟨h1, h2⟩
    · simp only [h, Bool.false_eq_true, false_and, if_false]
    · simp only [h1, and_false, if_false]
      split
      · next h3 => rcases h2 with h2 | h2
                   · exact absurd h3.2.1 h2
                   · exact absurd h3.2.2 h2
      · rfl

theorem tyWidth_le (t : Nat) : tyWidth t = 64 ∨ tyWidth t ≤ 32 := by
  unfold tyWidth; repeat' split
  all_goals simp

theorem vec_any (i : GangAt → VForm → Instr) (sp : VSpec) (op : IOp)
    (he : ∀ g f s, exec (i g f) s = gangAlu s g (i g f) sp f (fun env x => vecInt op env x f)) : VectorInt ⟨i, sp, opFn op⟩ := by
  intro g f s c ⟨h1, h2, h3, h4⟩
  refine ⟨_, (he g f s).trans (gangAlu_next _ h1 h2 h3 h4), only_done _ _ _ _, flags_done _ _ _ _ rfl, ?_⟩
  apply lanes_of_put (hw := tyWidth_le _) (nval := _) (ht := ?_) (hv := ?_)
  rotate_left 2
  · rw [gang_done]
    unfold vecInt
    dsimp only
    rw [Gang.putLanes_frame]
  · intro l hl
    dsimp only
    rw [ialu_eq op _ (tyWidth_pos _) _ _ _ _ (vecOp_lt _ _ _ _) (by rw [laneB_eq _ _ _ _ _ _ (tyWidth_pos _)]; exact BitVec.isLt _),
      laneB_eq _ _ _ _ _ _ (tyWidth_pos _), laneVal_vecOp]
    simp

theorem vectorAll : ∀ r ∈ vectorRows, VectorInt r := by
  intro r hr
  simp only [vectorRows, List.mem_cons, List.not_mem_nil, or_false] at hr
  rcases hr with rfl | rfl | rfl | rfl | rfl | rfl | rfl | rfl | rfl | rfl | rfl | rfl | rfl
  · exact vec_any _ _ .add (fun _ _ _ => rfl)
  · exact vec_any _ _ .sub (fun _ _ _ => rfl)
  · exact vec_any _ _ .mul (fun _ _ _ => rfl)
  · exact vec_any _ _ .mulhi (fun _ _ _ => rfl)
  · exact vec_any _ _ .and (fun _ _ _ => rfl)
  · exact vec_any _ _ .or (fun _ _ _ => rfl)
  · exact vec_any _ _ .xor (fun _ _ _ => rfl)
  · exact vec_any _ _ .shl (fun _ _ _ => rfl)
  · exact vec_any _ _ .shr (fun _ _ _ => rfl)
  · exact vec_any _ _ .sar (fun _ _ _ => rfl)
  · exact vec_any _ _ .min (fun _ _ _ => rfl)
  · exact vec_any _ _ .max (fun _ _ _ => rfl)
  · exact vec_any _ _ .mov (fun _ _ _ => rfl)

theorem fold_flag (flag : FFlags → Bool) (hflag : ∀ a b : FFlags, flag (a.or b) = (flag a || flag b)) (h0 : flag {} = false)
    (ls : List Nat) (r : Nat → FFlags) (a : FFlags) :
    (flag (ls.foldl (fun fl l => fl.or (r l)) a) = true ↔ flag a = true ∨ ∃ l ∈ ls, flag (r l) = true) := by
  induction ls generalizing a with
  | nil => simp
  | cons l ls ih =>
    rw [List.foldl_cons, ih, hflag]
    simp [or_assoc]

theorem gather_done (s : State) (g : GangAt) (f : VForm) (vec : Bool) (x : Gang) (r : Nat → FFlags) :
    FlagsGather s ((s.issued g.core g.slot vec).gangDone g
      (x, (lanesOf ((s.gang g.core g.slot).execLanes f.qp f.qn)).foldl (fun fl l => fl.or (r l)) {})) g f r := by
  obtain ⟨rv, rs, ct, h⟩ := core_gangDone s g vec
    (x, (lanesOf ((s.gang g.core g.slot).execLanes f.qp f.qn)).foldl (fun fl l => fl.or (r l)) {})
  intro flag hf
  rw [h]
  have key : ∀ (hflag : ∀ a b : FFlags, flag (a.or b) = (flag a || flag b)) (h0 : flag {} = false),
      (flag ((s.core g.core).ge.flags.or ((lanesOf ((s.gang g.core g.slot).execLanes f.qp f.qn)).foldl (fun fl l => fl.or (r l)) {})) = true ↔
        flag (s.core g.core).ge.flags = true ∨ ∃ l, l < 32 ∧ ((s.gang g.core g.slot).execLanes f.qp f.qn).getLsbD l = true ∧ flag (r l) = true) := by
    intro hflag h0
    rw [hflag, Bool.or_eq_true, fold_flag flag hflag h0]
    simp only [h0, Bool.false_eq_true, false_or]
    simp only [mem_lanesOf]
    constructor
    · rintro (h | ⟨l, ⟨a, b⟩, c⟩)
      · exact Or.inl h
      · exact Or.inr ⟨l, a, b, c⟩
    · rintro (h | ⟨l, a, b, c⟩)
      · exact Or.inl h
      · exact Or.inr ⟨l, ⟨a, b⟩, c⟩
  simp only [List.mem_cons, List.not_mem_nil, or_false] at hf
  rcases hf with rfl | rfl | rfl | rfl
  all_goals exact key (fun _ _ => rfl) rfl

theorem vec32 (s : State) (g : GangAt) (r l : Nat) : (s.gang g.core g.slot).vecOp r l 32 = ((s.gang g.core g.slot).getV r l).toNat := by
  unfold Gang.vecOp
  simp
  exact BitVec.isLt _

theorem f32_lt (f : Nat × FFlags) : True := trivial

/-- float -/
theorem float_any (i : GangAt → VForm → Instr) (sp : VSpec) (fn : Rnd → (a b c : Nat) → Nat × FFlags)
    (op : GangEnv → Gang → VForm → Nat → Nat × FFlags)
    (hop : ∀ g f s l, l < 32 → op (s.gangEnv g.core g.slot) (s.gang g.core g.slot) f l = fn (rndOf f.rnd) ((s.gang g.core g.slot).getV f.a l).toNat
       (laneB s g f 32 l false).toNat (laneC s g f 32 l false).toNat)
    (he : ∀ g f s, exec (i g f) s = gangAlu s g (i g f) sp f (fun env x => vecF (op env x f) x f)) : FloatRuns ⟨i, sp, fn⟩ := by
  intro g f s c ⟨h1, h2, h3, h4⟩
  dsimp only at h3 h4 ⊢
  have hd := gang_done s g sp.vslot (vecF (op (s.gangEnv g.core g.slot) (s.gang g.core g.slot) f) (s.gang g.core g.slot) f)
  refine ⟨_, (he g f s).trans (gangAlu_next _ h1 h2 h3 h4), only_done _ _ _ _, ?_, ?_⟩
  · intro flag hf
    have := gather_done s g f sp.vslot ((vecF (op (s.gangEnv g.core g.slot) (s.gang g.core g.slot) f) (s.gang g.core g.slot) f).1)
      (fun l => (op (s.gangEnv g.core g.slot) (s.gang g.core g.slot) f l).2) flag hf
    refine this.trans (or_congr Iff.rfl ⟨?_, ?_⟩)
    · rintro ⟨l, a, b, c⟩; exact ⟨l, a, b, by dsimp only at c; rw [hop g f s l a] at c; exact c⟩
    · rintro ⟨l, a, b, c⟩; exact ⟨l, a, b, by dsimp only; rw [hop g f s l a]; exact c⟩
  · have hh : ∀ v, ({ (s.gang g.core g.slot).putLanes f.d 32 ((s.gang g.core g.slot).execLanes f.qp f.qn) v with draws := (s.gang g.core g.slot).draws } : Gang)
        = (s.gang g.core g.slot).putLanes f.d 32 ((s.gang g.core g.slot).execLanes f.qp f.qn) v := by
      intro v; rw [Gang.putLanes_frame]
    apply lanes_of_put (hw := Or.inr (Nat.le_refl _)) (nval := fun l => (op (s.gangEnv g.core g.slot) (s.gang g.core g.slot) f l).1 % 2 ^ 32) (ht := ?_) (hv := ?_)
    rotate_left
    · rw [hd]
      unfold vecF
      dsimp only
      have : (fun l => (op (s.gangEnv g.core g.slot) (s.gang g.core g.slot) f l).1) = (fun l => (op (s.gangEnv g.core g.slot) (s.gang g.core g.slot) f l).1) := rfl
      rw [hh]
      congr 1
      unfold Gang.putLanes
      congr 1
      funext h l
      unfold Gang.putV
      simp
    · intro l hl
      rw [hop g f s l hl]
      simp

theorem floatAll : ∀ r ∈ floatRows, r.instr ≠ .ffma → FloatRuns r := by
  intro r hr hne
  simp only [floatRows, List.mem_cons, List.not_mem_nil, or_false] at hr
  have b32 : ∀ s g f l, opB (s.gangEnv g.core g.slot) (s.gang g.core g.slot) f false 32 l = (laneB s g f 32 l false).toNat :=
    fun s g f l => laneB_eq _ _ _ _ _ _ (by decide)
  rcases hr with rfl | rfl | rfl | rfl | rfl | rfl | rfl | rfl | rfl | rfl | rfl | rfl | rfl | rfl
  · exact float_any _ _ _ (fun env x f l => f32Add (rndOf f.rnd) (x.vecOp f.a l 32) (opB env x f false 32 l)) (fun g f s l _ => by rw [vec32, b32]) (fun _ _ _ => rfl)
  · exact float_any _ _ _ (fun env x f l => f32Sub (rndOf f.rnd) (x.vecOp f.a l 32) (opB env x f false 32 l)) (fun g f s l _ => by rw [vec32, b32]) (fun _ _ _ => rfl)
  · exact float_any _ _ _ (fun env x f l => f32Mul (rndOf f.rnd) (x.vecOp f.a l 32) (opB env x f false 32 l)) (fun g f s l _ => by rw [vec32, b32]) (fun _ _ _ => rfl)
  · exact float_any _ _ _ (fun env x f l => f32Div (rndOf f.rnd) (x.vecOp f.a l 32) (opB env x f false 32 l)) (fun g f s l _ => by rw [vec32, b32]) (fun _ _ _ => rfl)
  · exact absurd rfl hne
  · exact float_any _ _ _ (fun env x f l => f32MinMax false (x.vecOp f.a l 32) (opB env x f false 32 l)) (fun g f s l _ => by rw [vec32, b32]) (fun _ _ _ => rfl)
  · exact float_any _ _ _ (fun env x f l => f32MinMax true (x.vecOp f.a l 32) (opB env x f false 32 l)) (fun g f s l _ => by rw [vec32, b32]) (fun _ _ _ => rfl)
  · exact float_any _ _ _ (fun _ x f l => (f32Abs (x.vecOp f.a l 32), {})) (fun g f s l _ => by rw [vec32]) (fun _ _ _ => rfl)
  · exact float_any _ _ _ (fun _ x f l => (f32Neg (x.vecOp f.a l 32), {})) (fun g f s l _ => by rw [vec32]) (fun _ _ _ => rfl)
  · exact float_any _ _ _ (fun _ x f l => f32Rcp (x.vecOp f.a l 32)) (fun g f s l _ => by rw [vec32]) (fun _ _ _ => rfl)
  · exact float_any _ _ _ (fun _ x f l => f32Rsq (x.vecOp f.a l 32)) (fun g f s l _ => by rw [vec32]) (fun _ _ _ => rfl)
  · exact float_any _ _ _ (fun _ x f l => f32Ex2 (x.vecOp f.a l 32)) (fun g f s l _ => by rw [vec32]) (fun _ _ _ => rfl)
  · exact float_any _ _ _ (fun _ x f l => f32Lg2 (x.vecOp f.a l 32)) (fun g f s l _ => by rw [vec32]) (fun _ _ _ => rfl)
  · exact float_any _ _ _ (fun _ x f l => f32Sqrt (rndOf f.rnd) (x.vecOp f.a l 32)) (fun g f s l _ => by rw [vec32]) (fun _ _ _ => rfl)

theorem cores_trans {s t u : State} (h1 : t = { s with cores := t.cores }) (h2 : u = { t with cores := u.cores }) :
    u = { s with cores := u.cores } := h2.trans (by rw [h1])

theorem lane_any (r : LaneRow) (op : GangEnv → Gang → VForm → Nat → Nat)
    (hw : ∀ f, r.dst f = 64 ∨ r.dst f ≤ 32)
    (hop : ∀ g f s l, l < 32 → op (s.gangEnv g.core g.slot) (s.gang g.core g.slot) f l =
      (r.fn s g f l (laneVal (s.gang g.core g.slot) f.a l _) (laneB s g f _ l (r.signed f)) (laneC s g f _ l (r.signed f))).toNat)
    (he : ∀ g f s, exec (r.instr g f) s = gangAlu s g (r.instr g f) r.spec f (fun env x => (x.putLanes f.d (r.dst f) (x.execLanes f.qp f.qn) (op env x f), {}))) :
    LaneRuns r := by
  intro g f s c ⟨h1, h2, h3, h4⟩
  refine ⟨_, (he g f s).trans (gangAlu_next _ h1 h2 h3 h4), only_done _ _ _ _, flags_done _ _ _ _ rfl, ?_⟩
  apply lanes_of_put (hw := hw f) (nval := _) (ht := ?_) (hv := ?_)
  rotate_left 2
  · rw [gang_done]
    dsimp only
    rw [Gang.putLanes_frame]
  · intro l hl
    exact hop g f s l hl
theorem bitOf_eq (x i : Nat) : bitOf x i = x.testBit i := by
  unfold bitOf; rw [Nat.testBit_eq_decide_div_mod_eq]; by_cases h : x / 2^i % 2 = 1 <;> simp [h]
theorem cpop_aux (a : BitVec 32) (n acc : Nat) : a.cpopNatRec n acc = acc + ((List.range n).filter (fun i => bitOf a.toNat i)).length := by
  induction n generalizing acc with
  | zero => simp
  | succ n ih =>
    rw [BitVec.cpopNatRec_succ, ih, List.range_succ, List.filter_append, List.length_append]
    rw [List.filter_cons, bitOf_eq, BitVec.testBit_toNat]
    cases a.getLsbD n <;> simp <;> omega
theorem cpop_eq (a : BitVec 32) : popCount a.toNat = a.cpop.toNat := by
  unfold popCount BitVec.cpop
  rw [BitVec.toNat_ofNat, cpop_aux, Nat.zero_add]
  have : ((List.range 32).filter (fun i => bitOf a.toNat i)).length ≤ 32 := by
    have := List.length_filter_le (fun i => bitOf a.toNat i) (List.range 32)
    simpa using this
  omega
theorem clz_eq (a : BitVec 32) : leadZeros a.toNat = a.clz.toNat := by
  unfold leadZeros bitLen
  rw [Nat.mod_eq_of_lt a.isLt]
  by_cases h : a = 0#32
  · have := BitVec.clz_eq_iff_eq_zero.2 h
    rw [this, h]; rfl
  · have h1 := BitVec.toNat_lt_two_pow_sub_clz (x := a)
    have h2 := BitVec.two_pow_sub_clz_le_toNat_of_ne_zero (by decide) h
    have hc : a.clz.toNat < 32 := by
      rcases Nat.lt_or_ge a.clz.toNat 32 with hh | hh
      · exact hh
      · rw [Nat.sub_eq_zero_of_le hh] at h1
        exfalso; apply h; apply BitVec.eq_of_toNat_eq; simp; omega
    have h0 : a.toNat ≠ 0 := fun hh => h (BitVec.eq_of_toNat_eq (by simpa using hh))
    rw [if_neg h0]
    have e1 : a.toNat.log2 < 32 - a.clz.toNat := (Nat.log2_lt h0).2 h1
    have e2 : 32 - 1 - a.clz.toNat ≤ a.toNat.log2 := (Nat.le_log2 h0).2 h2
    omega
theorem pack_eq (a b : BitVec 16) : a.toNat + 2 ^ 16 * b.toNat = (b ++ a).toNat := by
  rw [BitVec.toNat_append, Nat.shiftLeft_eq]
  have := a.isLt
  rw [Nat.mul_comm, Nat.add_comm]
  have h := Nat.two_pow_add_eq_or_of_lt this b.toNat
  rw [Nat.mul_comm] at h
  exact h
theorem perm_eq (a b c : BitVec 32) : permBytes a.toNat b.toNat c.toNat =
    (byteOf (b ++ a) ((c >>> (4 * 3)).setWidth 3).toNat ++ byteOf (b ++ a) ((c >>> (4 * 2)).setWidth 3).toNat ++ byteOf (b ++ a) ((c >>> (4 * 1)).setWidth 3).toNat ++ byteOf (b ++ a) ((c >>> (4 * 0)).setWidth 3).toNat).toNat := by
  have hab : a.toNat + 2 ^ 32 * b.toNat = (b ++ a).toNat := by
    rw [BitVec.toNat_append, Nat.shiftLeft_eq]
    have := a.isLt
    rw [Nat.mul_comm, Nat.add_comm]
    have h := Nat.two_pow_add_eq_or_of_lt this b.toNat
    rw [Nat.mul_comm] at h
    exact h
  have hb : ∀ j, (b ++ a).toNat / 2 ^ (8 * (bitsOf c.toNat (4 * j + 2) (4 * j))) % 256 = (byteOf (b ++ a) ((c >>> (4 * j)).setWidth 3).toNat).toNat := by
    intro j
    unfold byteOf bitsOf
    have : 4 * j + 2 + 1 - 4 * j = 3 := by omega
    simp [Nat.shiftRight_eq_div_pow, this]
  have hap : ∀ {m n : Nat} (x : BitVec m) (y : BitVec n), (x ++ y).toNat = y.toNat + 2 ^ n * x.toNat := by
    intro m n x y
    rw [BitVec.toNat_append, Nat.shiftLeft_eq]
    have := y.isLt
    rw [Nat.mul_comm (2^n), Nat.add_comm]
    have h := Nat.two_pow_add_eq_or_of_lt this x.toNat
    rw [Nat.mul_comm] at h
    exact h.symm
  unfold permBytes
  rw [hab]
  simp only [List.range, List.range.loop, List.foldl, hb]
  rw [show ∀ (x y z w : BitVec 8), (x ++ y ++ z ++ w).toNat = w.toNat + 2 ^ 8 * z.toNat + 2 ^ 16 * y.toNat + 2 ^ 24 * x.toNat from ?_]
  · omega
  · intro x y z w
    rw [hap, hap, hap]
    omega
theorem form1 : ∀ l b, l < 32 → Nat.xor l (b % 32) = (l ^^^ b) % 32 := by
  intro l b h
  show l ^^^ (b % 32) = _
  rw [show 32 = 2^5 from rfl, Nat.xor_mod_two_pow, Nat.mod_eq_of_lt (a := l) (b := 2^5) h]
theorem maskOf_bit (b : Nat → Bool) (l : Nat) (hl : l < 32) : (maskOf b).getLsbD l = b l := by
  have key : ∀ n, (List.range n).foldl (fun acc l => acc + 2 ^ l * boolN (b l)) 0 < 2 ^ n ∧
      ∀ i, i < n → ((List.range n).foldl (fun acc l => acc + 2 ^ l * boolN (b l)) 0).testBit i = b i := by
    intro n
    induction n with
    | zero => exact ⟨by simp, fun i h => absurd h (Nat.not_lt_zero _)⟩
    | succ n ih =>
      obtain ⟨h1, h2⟩ := ih
      rw [List.range_succ, List.foldl_append]
      simp only [List.foldl_cons, List.foldl_nil]
      generalize (List.range n).foldl (fun acc l => acc + 2 ^ l * boolN (b l)) 0 = x at *
      constructor
      · rw [Nat.pow_succ]
        unfold boolN
        split <;> omega
      · intro i hi
        rw [Nat.add_comm, Nat.testBit_two_pow_mul_add _ h1]
        by_cases hin : i < n
        · rw [if_pos hin, h2 i hin]
        · have : i = n := by omega
          subst this
          rw [if_neg (Nat.lt_irrefl _), Nat.sub_self]
          unfold boolN
          cases b i <;> rfl
  unfold maskOf
  rw [BitVec.getLsbD_ofNat, (key 32).2 l hl]
  simp [hl]
theorem cond_eq (cc ty : Nat) (w : Nat) (hcc : cc < 8) (hw0 : 0 < w) (a b : BitVec w) (hw : ty ≠ 4 → w = tyWidth ty) : condHolds cc (cmpVal ty a.toNat b.toNat) = condition cc (compareAt ty a b) := by
  have hcmp : ∀ v : Int, condHolds cc (some v) = condition cc (some (compare v 0)) := by
    intro v
    have : cc = 0 ∨ cc = 1 ∨ cc = 2 ∨ cc = 3 ∨ cc = 4 ∨ cc = 5 ∨ cc = 6 ∨ cc = 7 := by omega
    rcases Int.lt_trichotomy v 0 with h | h | h
    · have hc : compare v 0 = .lt := Int.compare_eq_lt.2 h
      rw [hc]
      rcases this with rfl | rfl | rfl | rfl | rfl | rfl | rfl | rfl <;> (try simp [condHolds, condition, h]) <;> (try omega) <;> (first | done | (have hv : (v != 0) = true := by simp; omega) ; rw [hv]; rfl)
    · have hc : compare v 0 = .eq := Int.compare_eq_eq.2 h
      rw [hc]
      rcases this with rfl | rfl | rfl | rfl | rfl | rfl | rfl | rfl <;> (try simp [condHolds, condition, h]) <;> (try omega) <;> (first | done | (have hv : (v != 0) = true := by simp; omega) ; rw [hv]; rfl)
    · have hc : compare v 0 = .gt := Int.compare_eq_gt.2 h
      rw [hc]
      rcases this with rfl | rfl | rfl | rfl | rfl | rfl | rfl | rfl <;> (try simp [condHolds, condition, h]) <;> (try omega) <;> (first | done | (have hv : (v != 0) = true := by simp; omega) ; rw [hv]; rfl)
  unfold compareAt
  by_cases h4 : ty = 4
  · subst h4
    simp only [if_true]
    cases cmpVal 4 a.toNat b.toNat with
    | none =>
      have : cc = 0 ∨ cc = 1 ∨ cc = 2 ∨ cc = 3 ∨ cc = 4 ∨ cc = 5 ∨ cc = 6 ∨ cc = 7 := by omega
      rcases this with rfl | rfl | rfl | rfl | rfl | rfl | rfl | rfl <;> rfl
    | some v => exact hcmp v
  · have hw := hw h4
    subst hw
    simp only [h4, if_false, cmpVal]
    have na := numOf_ofNat _ a.toNat hw0 (tySigned ty)
    have nb := numOf_ofNat _ b.toNat hw0 (tySigned ty)
    simp only [BitVec.ofNat_toNat, BitVec.setWidth_eq] at na nb
    rw [← na, ← nb, hcmp]
    congr 2
    rcases Int.lt_trichotomy (numOfWord (tySigned ty) a) (numOfWord (tySigned ty) b) with h | h | h
    · rw [if_pos h, Int.compare_eq_lt.2 h]; rfl
    · rw [if_neg (by omega), if_pos h, Int.compare_eq_eq.2 h]; rfl
    · rw [if_neg (by omega), if_neg (by omega), Int.compare_eq_gt.2 h]; rfl

theorem laneRowsAll : ∀ r ∈ laneRows, LaneRuns r := by
  intro r hr
  simp only [laneRows, List.mem_cons, List.not_mem_nil, or_false] at hr
  rcases hr with rfl | rfl | rfl | rfl | rfl
  · refine lane_any _ (fun env x f l => if ((x.getP (f.opx % 8)).getLsbD l).xor (bitOf f.opx 3) then x.vecOp f.a l (tyWidth f.ty) else opB env x f (tySigned f.ty) (tyWidth f.ty) l)
      (fun f => tyWidth_le _) (fun g f s l _ => ?_) (fun _ _ _ => rfl)
    dsimp only
    rw [laneB_eq _ _ _ _ _ _ (tyWidth_pos _), laneVal_vecOp]
    cases ((s.gang g.core g.slot).getP (f.opx % 8)).getLsbD l <;> cases bitOf f.opx 3 <;> simp
  · refine lane_any _ (fun env x f l => popCount (x.vecOp f.a l 32)) (fun f => Or.inr (Nat.le_refl _)) (fun g f s l _ => ?_) (fun _ _ _ => rfl)
    dsimp only
    rw [laneVal_vecOp, cpop_eq]
  · refine lane_any _ (fun env x f l => leadZeros (x.vecOp f.a l 32)) (fun f => Or.inr (Nat.le_refl _)) (fun g f s l _ => ?_) (fun _ _ _ => rfl)
    dsimp only
    rw [laneVal_vecOp, clz_eq]
  · refine lane_any _ (fun env x f l => x.vecOp f.a l 16 + 2 ^ 16 * opB env x f false 16 l) (fun f => Or.inr (Nat.le_refl _)) (fun g f s l _ => ?_) (fun _ _ _ => rfl)
    dsimp only
    rw [laneVal_vecOp, laneB_eq _ _ _ _ _ _ (by decide)]
    exact pack_eq _ _
  · refine lane_any _ (fun env x f l => permBytes (x.vecOp f.a l 32) (opB env x f false 32 l) (opC env x f false 32 l)) (fun f => Or.inr (Nat.le_refl _)) (fun g f s l _ => ?_) (fun _ _ _ => rfl)
    dsimp only
    rw [laneVal_vecOp, laneB_eq _ _ _ _ _ _ (by decide), laneC_eq _ _ _ _ _ _ (by decide)]
    exact perm_eq _ _ _

theorem advance_setP (x : Gang) (r : Nat) (v : W32) (n : Addr) : (x.setP r v).advance n = { x.advance n with p := (x.setP r v).p } := by
  unfold Gang.setP; split <;> rfl

theorem pred_is (s : State) (g : GangAt) (vec : Bool) (d : Nat) (v : W32) (bit : Nat → Bool) (h : ∀ l, l < 32 → v.getLsbD l = bit l) (fl : FFlags) :
    PredIs s ((s.issued g.core g.slot vec).gangDone g ((s.gang g.core g.slot).setP d v, fl)) g d bit := by
  refine ⟨?_, ?_⟩
  · rw [gang_done]; dsimp only; rw [advance_setP]
  · intro q l hl
    rw [gang_done]; dsimp only; rw [advance_setP]
    have : ∀ p, Gang.getP { (s.gang g.core g.slot).advance g.next with p := p } q = Gang.getP { (s.gang g.core g.slot) with p := p } q := fun _ => rfl
    rw [this]
    have e : ({ s.gang g.core g.slot with p := ((s.gang g.core g.slot).setP d v).p } : Gang) = (s.gang g.core g.slot).setP d v := by
      unfold Gang.setP; split <;> rfl
    rw [e, Gang.getP_setP]
    by_cases hq : q = d ∧ q ≠ 0
    · have : q = d ∧ d ≠ 0 := ⟨hq.1, hq.1 ▸ hq.2⟩
      rw [if_pos this, if_pos hq, h l hl]
    · have : ¬(q = d ∧ d ≠ 0) := fun h => hq ⟨h.1, h.1.symm ▸ h.2⟩
      rw [if_neg this, if_neg hq]

def joinNode (op ty : Nat) (sat : Bool) (a b : Option Nat) : Option Nat :=
  match a, b with
  | some x, some y => some (redNode op ty sat x y).1
  | some x, none => some x
  | none, y => y

theorem range_two (n : Nat) (f : Nat → Option Nat) :
    (List.range (2 * (n + 1))).map f = f 0 :: f 1 :: (List.range (2 * n)).map (fun i => f (i + 2)) := by
  rw [show 2 * (n + 1) = 2 * n + 1 + 1 from by omega, List.range_succ_eq_map, List.range_succ_eq_map]
  simp [Function.comp_def]

theorem redLevel_map (op ty : Nat) (sat : Bool) (n : Nat) (f : Nat → Option Nat) :
    (redLevel op ty sat ((List.range (2 * n)).map f)).1 = (List.range n).map (fun b => joinNode op ty sat (f (2 * b)) (f (2 * b + 1))) := by
  induction n generalizing f with
  | zero => rfl
  | succ n ih =>
    rw [range_two]
    unfold redLevel
    have := ih (fun i => f (i + 2))
    generalize hr : redLevel op ty sat ((List.range (2 * n)).map (fun i => f (i + 2))) = r at this
    rw [List.range_succ_eq_map, List.map_cons, List.map_map]
    dsimp only
    have e : (List.range n).map ((fun b => joinNode op ty sat (f (2 * b)) (f (2 * b + 1))) ∘ Nat.succ) = r.1 := by
      rw [this]
      apply List.map_congr_left
      intro b _
      show joinNode op ty sat (f (2 * (b + 1))) (f (2 * (b + 1) + 1)) = _
      rw [show 2 * (b + 1) = 2 * b + 2 by omega, show 2 * b + 2 + 1 = 2 * b + 1 + 2 by omega]
    rw [e]
    show _ = joinNode op ty sat (f 0) (f 1) :: r.1
    cases f 0 <;> cases f 1 <;> rfl

theorem redTree_node (op ty : Nat) (sat : Bool) (n m : Nat) (leaf : Nat → Option Nat) :
    (redTree op ty sat n ((List.range (2 ^ n)).map (fun b => treeNode op ty sat leaf m b))).1 = treeNode op ty sat leaf (m + n) 0 := by
  induction n generalizing m with
  | zero => rfl
  | succ n ih =>
    have h := redLevel_map op ty sat (2 ^ n) (fun b => treeNode op ty sat leaf m b)
    have h2 := ih (m + 1)
    rw [show m + 1 + n = m + (n + 1) from by omega] at h2
    rw [← h2, show 2 ^ (n + 1) = 2 * 2 ^ n by rw [Nat.pow_succ]; omega]
    show (redTree op ty sat n (redLevel op ty sat ((List.range (2 * 2 ^ n)).map (fun b => treeNode op ty sat leaf m b))).1).1 = _
    rw [h]
    congr 3

theorem redNode_flags (op ty : Nat) (sat : Bool) (x y : Nat) (h : ty ≠ 4) : (redNode op ty sat x y).2 = {} := by
  unfold redNode
  split
  · rfl
  · split
    · rfl
    · rfl

theorem redLevel_flags (op ty : Nat) (sat : Bool) (h : ty ≠ 4) : ∀ (n : Nat) (xs : List (Option Nat)), xs.length ≤ n → (redLevel op ty sat xs).2 = {} := by
  intro n
  induction n with
  | zero => intro xs hx; cases xs with | nil => rfl | cons a t => simp at hx
  | succ n ih =>
    intro xs hx
    match xs with
    | [] => rfl
    | [a] => rfl
    | a :: b :: t =>
      have := ih t (by simp at hx; omega)
      unfold redLevel
      cases a <;> cases b <;> simp [this, redNode_flags _ _ _ _ _ h] <;> rfl

theorem redTree_flags (op ty : Nat) (sat : Bool) (h : ty ≠ 4) (n : Nat) (xs : List (Option Nat)) : (redTree op ty sat n xs).2 = {} := by
  induction n generalizing xs with
  | zero => rfl
  | succ n ih =>
    unfold redTree
    simp [ih, redLevel_flags op ty sat h _ xs (Nat.le_refl _)]
    rfl

end Sys2Proof.Claims
end

