-- ==== Sys2Proof/Laws/OfFlow.lean ====
section
/-!
SUPPORT. Lemmas about control flow of gangs, launches and code fetches, for the proofs of the statements: what their operations do, step by step.
-/

namespace Sys2Proof.Claims

open Machine

theorem core_issued (s : State) (n sl : Nat) (vec : Bool) : ∃ rv rs ct, (s.issued n sl vec).core n = { s.core n with
      ge := { (s.core n).ge with rrVector := rv, rrScalar := rs }, dbg := { (s.core n).dbg with counters := ct } } := by
  unfold State.issued
  simp only [State.core_modCore_self]
  rw [Core.count_eq]
  cases vec
  · exact ⟨_, _, _, rfl⟩
  · exact ⟨_, _, _, rfl⟩

theorem core_issued_ne {m n : Nat} (h : m ≠ n) (s : State) (sl : Nat) (vec : Bool) : (s.issued n sl vec).core m = s.core m := by
  unfold State.issued; exact State.core_modCore_ne h _ _

theorem gang_issued (s : State) (n sl : Nat) (vec : Bool) (m i : Nat) : (s.issued n sl vec).gang m i = s.gang m i := by
  unfold State.gang
  by_cases h : m = n
  · subst h
    obtain ⟨rv, rs, ct, h⟩ := core_issued s m sl vec
    rw [h]; rfl
  · rw [core_issued_ne h]

theorem only_issued_set (s : State) (g : GangAt) (vec : Bool) (y : Gang) :
    OnlyGang g s ((s.issued g.core g.slot vec).setGang g.core g.slot y) ∧ FlagsStay g.core s ((s.issued g.core g.slot vec).setGang g.core g.slot y) := by
  obtain ⟨rv, rs, ct, h⟩ := core_issued s g.core g.slot vec
  refine ⟨⟨⟨rfl, fun m hm => ?_⟩, ?_, ?_⟩, ?_⟩
  · rw [State.core_setGang_ne hm, core_issued_ne hm]
  · intro sl hsl
    unfold State.gang
    rw [State.core_setGang_self, Core.gang_setGang_ne hsl, h]; rfl
  · rw [State.core_setGang_self, h]; rfl
  · unfold FlagsStay
    rw [State.core_setGang_self, h]; rfl

theorem only_count {g : GangAt} {s u : State} (ho : OnlyGang g s u) (hf : FlagsStay g.core s u) (code n : Nat) :
    OnlyGang g s (u.count g.core code n) ∧ FlagsStay g.core s (u.count g.core code n) ∧ (u.count g.core code n).gang g.core g.slot = u.gang g.core g.slot := by
  have hc : (u.count g.core code n).core g.core = { u.core g.core with dbg := { (u.core g.core).dbg with counters := ((u.count g.core code n).core g.core).dbg.counters } } := by
    simp only [State.count, State.core_modCore_self]
    exact Core.count_eq _ _ _
  refine ⟨⟨⟨?_, ?_⟩, ?_, ?_⟩, ?_, ?_⟩
  · exact cores_trans ho.1.1 rfl
  · intro m hm
    rw [State.count, State.core_modCore_ne hm]; exact ho.1.2 m hm
  · intro sl hsl
    rw [← ho.2.1 sl hsl]
    show ((u.count _ _ _).core _).gang sl = _
    rw [hc]; rfl
  · rw [hc, ho.2.2]
  · unfold FlagsStay at *; rw [hc]; exact hf
  · show ((u.count _ _ _).core _).gang _ = _
    rw [hc]; rfl

theorem becomes_set (i : Instr) (g : GangAt) (s : State) (vec : Bool) (y : Gang)
    (he : exec i s = .next ((s.issued g.core g.slot vec).setGang g.core g.slot y)) : GangBecomes i g s y :=
  ⟨_, he, (only_issued_set s g vec y).1, (only_issued_set s g vec y).2, State.gang_setGang_self _ _ _ _⟩

theorem raise_slots (s : State) (c : Nat) (f : FaultRec) (n sl : Nat) : (s.raise c f).gang n sl = s.gang n sl := by
  unfold State.gang Core.gang
  by_cases h : n = f.core
  · rw [(CoreFrame.raise n s c f h.symm).slots]
  · rw [State.raise_core_ne h]

theorem gangReady_live {s : State} {g : GangAt} {u : RegUse} {mem : Bool} {c : Nat} (h : s.gangReady g u mem = some c) : s.live g.core = some c := by
  have : ∀ (b : Bool) (x : Option Nat), (if b = true then x else none) = some c → x = some c := by
    intro b x; cases b <;> simp
  exact this _ _ h

theorem ill_any (i : GangAt → VForm → Instr) (sp : VSpec) (fn : IFun) (op : GangEnv → Gang → VForm → Gang × FFlags)
    (he : ∀ g f s, exec (i g f) s = gangAlu s g (i g f) sp f (fun env x => op env x f)) :
    ∀ (g : GangAt) (f : VForm) (s : State) (c : Nat), g.core < 1280 → g.slot < 16 →
    s.gangReady g (vUse sp f) = some c → (i g f).loadErr ≠ none → (s.ctx c).fault = none →
    ∃ t f', exec (i g f) s = .next t ∧ (t.ctx c).fault = some f' ∧ f'.cause = .illegalInsn ∧ f'.core = g.core ∧ f'.gang = g.slot ∧
      f'.npc = (s.gang g.core g.slot).pc.toNat ∧ f'.mask = (s.gang g.core g.slot).mask.toNat ∧
      (t.core g.core).ge.stopped = true ∧ (∀ sl, t.gang g.core sl = s.gang g.core sl) ∧ t.far = s.far ∧ t.host = s.host := by
  intro g f s c h1 h2 h3 h4 hf
  have hl := State.live_some (gangReady_live h3)
  have he : exec (i g f) s = .next (s.gangFault g.core g.slot .illegalInsn 0) := by
    rw [he]
    unfold gangAlu onGang onGangTry
    rw [if_pos ⟨h1, h2⟩, h3]
    cases hh : (i g f).loadErr with
    | none => exact absurd hh h4
    | some _ => rfl
  have hg : ∃ f', s.gangFault g.core g.slot .illegalInsn 0 = s.raise c f' ∧ f'.cause = .illegalInsn ∧ f'.core = g.core ∧ f'.gang = g.slot ∧
      f'.npc = (s.gang g.core g.slot).pc.toNat ∧ f'.mask = (s.gang g.core g.slot).mask.toNat := by
    unfold State.gangFault State.insnFault
    rw [hl.1]; exact ⟨_, rfl, rfl, rfl, rfl, rfl, rfl⟩
  obtain ⟨f', hg, e1, e2, e3, e4, e5⟩ := hg
  rw [hg] at he
  refine ⟨_, _, he, State.raise_first hf hl.2.1, e1, e2, e3, e4, e5, ?_, fun sl => raise_slots _ _ _ _ _, ?_, ?_⟩
  · rw [← e2, State.raise_core hl.2.1 (by omega)]
  · rw [State.raise_same]
  · rw [State.raise_same]

theorem tails_same (core c id : Nat) (xs : List Nat) (s : State) : ∃ r, xs.foldl (fun t sl =>
    if (t.gang core sl).live ∧ (t.gang core sl).launch = id then t.gangState core c sl else t) s = { s with rings := r } := by
  induction xs generalizing s with
  | nil => exact ⟨_, rfl⟩
  | cons x xs ih =>
    rw [List.foldl_cons]
    split
    · obtain ⟨r, h⟩ := ih (s.gangState core c x)
      exact ⟨r, h⟩
    · exact ih s

end Sys2Proof.Claims
end

