-- ==== Sys2Proof/Laws/OfSlabs.lean ====
section
/-!
SUPPORT. Lemmas about the slab port and accesses to slab memory, for the proofs of the statements: what their operations do, step by step.
-/

namespace Sys2Proof.Claims

open Machine

theorem core_becomes (s : State) (n sl : Nat) (vec : Bool) (f : Core → Core) (net : Net)
    (hf : ∀ rv rs ct, f { s.core n with ge := { (s.core n).ge with rrVector := rv, rrScalar := rs }, dbg := { (s.core n).dbg with counters := ct } }
      = { f (s.core n) with ge := { (f (s.core n)).ge with rrVector := rv, rrScalar := rs }, dbg := { (f (s.core n)).dbg with counters := ct } }) :
    CoreBecomes n s { (s.issued n sl vec).modCore n f with net := net } (f (s.core n)) net := by
  refine ⟨rfl, fun m hm => ?_, ?_⟩
  · show ((s.issued n sl vec).modCore n f).core m = _
    rw [State.core_modCore_ne hm, core_issued_ne hm]
  · obtain ⟨rv, rs, ct, h⟩ := core_issued s n sl vec
    refine ⟨rv, rs, ct, ?_⟩
    show ((s.issued n sl vec).modCore n f).core n = _
    rw [State.core_modCore_self, h, hf]

theorem slab_issues (i : GangAt → VForm → Instr) (store : Bool)
    (he : ∀ g f s, exec (i g f) s = onGangTry s g (i g f) true (if store then { vr := destRegs f.d 16, sr := if f.a < 64 then [f.a] else [] } else { vw := destRegs f.d 16, sr := if f.a < 64 then [f.a] else [] })
      (fun c x env t => gangSlab g f store c x env t)) : SlabIssues i store := by
  intro g f s c home off x a ⟨h1, h2, h3, h4⟩ hcl hb hgr
  have he' := (he g f s).trans (onGangTry_next true (fun c x env t => gangSlab g f store c x env t) h1 h2 h3 h4)
  have ha : home = (a - slabBase) / 2 ^ 24 ∧ off = (a - slabBase) % 2 ^ 24 := by
    unfold addrClass at hcl
    split at hcl
    · cases hcl
    · split at hcl
      · cases hcl
      · split at hcl
        · split at hcl
          · simp at hcl; exact ⟨hcl.1.symm, hcl.2.symm⟩
          · cases hcl
        · split at hcl <;> cases hcl
  have hsf : ((s.issued g.core g.slot true).ctx c).slabFault (if store then .w else .r) a = none := by
    have : (s.issued g.core g.slot true).ctx c = s.ctx c := rfl
    rw [this]
    unfold Ctx.slabFault
    rw [hcl]
    dsimp only
    rw [hb, hgr]; rfl
  have hslab : ((s.issued g.core g.slot true).core g.core).slab = (s.core g.core).slab := by
    obtain ⟨rv, rs, ct, h⟩ := core_issued s g.core g.slot true
    rw [h]
  have hgs : gangSlab g f store c x (s.gangEnv g.core g.slot) (s.issued g.core g.slot true) =
      if home = g.core then (if ((s.issued g.core g.slot true).core home).slab.refuses store (off / 512) then some ((s.issued g.core g.slot true).gangFault g.core g.slot .slabBankOff a) else if ((s.issued g.core g.slot true).core home).slab.unplanned.length ≥ 32 then none
        else some (((s.issued g.core g.slot true).setGang g.core g.slot (slabGang g f store x)).modSlab home (fun b => { b with unplanned := joinUnpl home (slabAsk g f store x c (off / 512) (s.cycleOf home)) b.unplanned })))
      else some { (s.issued g.core g.slot true).setGang g.core g.slot (slabGang g f store x) with net := { s.net with slabs := s.net.slabs ++ [({ home := home, req := slabAsk g f store x c (off / 512) (s.cycleOf home) } : RemoteSlab)] } } := by
    unfold gangSlab
    dsimp only
    rw [show slabAddr (s.gangEnv g.core g.slot) x f = a from rfl, hsf, ha.1, ha.2]
    cases store <;> rfl
  constructor
  · intro hh hbk hlen
    rw [hgs, if_pos hh] at he'
    rw [if_neg, if_neg] at he'
    · refine ⟨_, he', ?_⟩
      subst hh
      have : ∀ (u : State) (f : Slab → Slab) (y : Gang), (u.setGang g.core g.slot y).modSlab g.core f = u.modCore g.core (fun k => { k.setGang g.slot y with slab := f k.slab }) := by
        intro u f y
        unfold State.setGang State.modSlab
        exact State.modCore_modCore u g.core (fun k => k.setGang g.slot y) (fun k => { k with slab := f k.slab })
      rw [Option.getD_some, this]
      exact core_becomes s g.core g.slot true (fun k => { k.setGang g.slot (slabGang g f store x) with slab := { k.slab with unplanned := joinUnpl g.core (slabAsk g f store x c (off / 512) (s.cycleOf g.core)) k.slab.unplanned } }) s.net (fun _ _ _ => rfl)
    · rw [hh, hslab]; rw [hh] at hlen; omega
    · rw [hh, hslab]; rw [hh] at hbk
      unfold Slab.refuses
      rcases hbk with hbk | hbk <;> rw [hbk] <;> simp
  · intro hh
    rw [hgs, if_neg hh] at he'
    refine ⟨_, he', ?_⟩
    exact core_becomes s g.core g.slot true (fun k => k.setGang g.slot (slabGang g f store x)) _ (fun _ _ _ => rfl)

theorem pick_none (b : Slab) (busy : W32) (xs bef : List Unpl) : grantPick b 0 false busy bef xs = ([], xs) := by
  induction xs generalizing bef with
  | nil => rfl
  | cons u xs ih =>
    unfold grantPick
    simp only [ih]
    simp

theorem pick_read (b : Slab) (busy : W32) (u : Unpl) (rest : List Unpl) (hw : u.write = false) (hb : b.bank u.slab = .on) (hz : busy.getLsbD (u.slab % 32) = false) :
    grantPick b 1 false busy [] (u :: rest) = ([u], rest) := by
  unfold grantPick
  simp only [pick_none]
  simp only [hw, hb, hz]
  simp [pick_none]

theorem pick_write (b : Slab) (busy : W32) (u : Unpl) (rest : List Unpl) (hw : u.write = true) (hb : b.bank u.slab ≠ .waking) :
    grantPick b 0 true busy [] (u :: rest) = ([u], rest) := by
  unfold grantPick
  simp only [pick_none]
  simp only [hw]
  cases h : b.bank u.slab <;> simp_all

theorem count_core (k : Core) (code n : Nat) : (k.count code n).slab = k.slab ∧ (k.count code n).ge = k.ge := by
  rw [Core.count_eq]; exact ⟨rfl, rfl⟩

theorem slab_write_whole (b : Slab) (u : Nat) (bs : List Byte) (hl : bs.length = 512) :
    ∃ bad rw_, b.write u 0 bs = ({ b with mem := memWriteN b.mem (512 * u) bs, bad := bad, rewrites := rw_ }, true) := by
  unfold Slab.write
  dsimp only
  have : ((List.range 8).filter (fun i => decide (64 * i < 0 + bs.length) && decide (0 < 64 * i + 64))).filter (fun i => !(decide (0 ≤ 64 * i) && decide (64 * i + 64 ≤ 0 + bs.length))) = [] := by
    rw [hl]; decide
  rw [this]
  simp only [List.foldl_nil, if_true]
  exact ⟨_, _, rfl⟩

theorem group_one (key : Nat → Nat) (k : Nat) (lanes : List Nat) (h : ∀ l ∈ lanes, key l = k) (hne : lanes ≠ []) : groupLanes key lanes = [(k, lanes)] := by
  have go : ∀ (ls pre : List Nat), (∀ l ∈ ls, key l = k) → ls.foldl (fun acc l => if acc.any (fun g => g.1 == key l) then acc.map (fun g => if g.1 = key l then (g.1, g.2 ++ [l]) else g)
    else acc ++ [(key l, [l])]) [(k, pre)] = [(k, pre ++ ls)] := by
    intro ls
    induction ls with
    | nil => intro pre _; simp
    | cons l ls ih =>
      intro pre hl
      rw [List.foldl_cons]
      have : key l = k := hl l List.mem_cons_self
      simp only [this, List.any_cons, beq_self_eq_true, Bool.true_or, if_true, List.map_cons, List.map_nil]
      rw [ih _ (fun j hj => hl j (List.mem_cons_of_mem _ hj))]
      simp
  cases lanes with
  | nil => exact absurd rfl hne
  | cons l ls =>
    unfold groupLanes
    rw [List.foldl_cons]
    have : key l = k := h l List.mem_cons_self
    simp only [this, List.any_nil, List.nil_append]
    exact go ls [l] (fun j hj => h j (List.mem_cons_of_mem _ hj))

theorem firstFault_none (chk : Nat → Option Cause) (addr : Nat → Nat) (lanes : List Nat) (h : ∀ l ∈ lanes, chk (addr l) = none) : firstFault chk addr lanes = none := by
  unfold firstFault
  rw [List.findSome?_eq_none_iff]
  intro l hl
  rw [h l hl]; rfl

theorem farOk_class {x : Ctx} {r : Right} {a n : Nat} (h : x.farOk r a n = true) (hn : 0 < n) : addrClass a = .far := by
  unfold Ctx.farOk at h
  simp at h
  unfold addrClass
  rw [if_pos (by omega)]

theorem pow_pos' (n : Nat) : 0 < 2 ^ n := Nat.two_pow_pos n

/-- The single part of a memory instruction whose lanes lie in one line. -/
def thePart (s : State) (g : GangAt) (f : VForm) (store : Bool) (draw ln : Nat) : LinePart :=
  let x := s.gang g.core g.slot
  let env := s.gangEnv g.core g.slot
  { slot := g.slot, uid := x.uid, insn := x.insnAt g.slot, load := x.nextId, form := f, store := store, line := ln, draw := draw
    lanes := (lanesOf (x.execLanes f.qp f.qn)).map (fun l => (l, laneAddr env x f l % 128, if store then storeBytes env x f l else [])) }

theorem lineParts_one (s : State) (g : GangAt) (f : VForm) (store : Bool) (draw ln : Nat)
    (hne : lanesOf ((s.gang g.core g.slot).execLanes f.qp f.qn) ≠ [])
    (h : ∀ l ∈ lanesOf ((s.gang g.core g.slot).execLanes f.qp f.qn), laneAddr (s.gangEnv g.core g.slot) (s.gang g.core g.slot) f l / 128 = ln) :
    lineParts (s.gangEnv g.core g.slot) (s.gang g.core g.slot) f store draw (lanesOf ((s.gang g.core g.slot).execLanes f.qp f.qn)) = [thePart s g f store draw ln] := by
  unfold lineParts
  rw [group_one _ ln _ h hne]
  rfl

/-- What an LD or ST of one far line does once issued. -/
theorem ldst_one (g : GangAt) (f : VForm) (store : Bool) (c ln : Nat) (s : State) (ho : OneLine s g f c ln (if store then .w else .r)) :
    let s0 := if store then { s.issued g.core g.slot true with draws := s.draws + 1 } else s.issued g.core g.slot true
    let x := s.gang g.core g.slot
    let part := thePart s g f store (if store then s.draws else 0) ln
    let y : Gang := { x with nextId := x.nextId + 1, loads := if store then x.loads else x.loads ++ [{ id := x.nextId, regs := destRegs f.d (2 ^ opxSz f), left := 1 }] }
    gangLdSt g f store c x (s.gangEnv g.core g.slot) (s.issued g.core g.slot true) =
      (s0.setGang g.core g.slot y).pumpGang g.core c g.slot [part] g.next false x.nextId := by
  obtain ⟨h1, h2, h3, h4⟩ := ho
  intro s0 x part y
  unfold gangLdSt
  rw [show x.todo = [] from h1]
  dsimp only
  rw [show (s.issued g.core g.slot true).ctx c = s.ctx c from rfl]
  rw [firstFault_none]
  · dsimp only
    have hh : ∀ d, ([thePart s g f store d ln].any (fun p => decide (128 * p.line ≥ hostBase))) = false := by
      intro d
      simp only [List.any_cons, List.any_nil, Bool.or_false, decide_eq_false_iff_not]
      show ¬ 128 * ln ≥ hostBase
      unfold hostBase; unfold farTop at h3; omega
    have hlp : ∀ d, lineParts (s.gangEnv g.core g.slot) x f store d (lanesOf (x.execLanes f.qp f.qn)) = [thePart s g f store d ln] :=
      fun d => lineParts_one s g f store d ln h2 (fun l hl => (h4 l hl).1)
    rw [hlp, hh]
    cases store
    · simp only [s0, y, part, Bool.false_eq_true, if_false, List.isEmpty_cons, or_self, List.length_cons, List.length_nil, show x.todo = [] from h1]
    · simp only [s0, y, part, if_true, true_or, show x.todo = [] from h1]
      rfl
  · intro l hl
    obtain ⟨a1, a2, a3⟩ := h4 l hl
    unfold Ctx.laneFault
    dsimp only
    rw [farOk_class a2 (pow_pos' _)]
    dsimp only
    rw [a2]
    simp only [Bool.not_true, Bool.false_eq_true, if_false]
    rw [if_neg (by rw [show laneAddr (s.gangEnv g.core g.slot) x f l % 2 ^ opxSz f = 0 from a3]; simp)]

theorem pump_done {s t : State} {n c sl : Nat} {p : LinePart} {next : Addr} {load : Nat} (h : s.linePart n c p = .done t) :
    s.pumpGang n c sl [p] next false load = t.modCore n (fun k => k.setGang sl ({ k.gang sl with todo := [] }.advance next)) := by
  unfold State.pumpGang State.pumpParts
  rw [h]
  unfold State.pumpParts
  dsimp only
  simp only [if_true, Bool.false_and, Bool.false_eq_true, if_false]
  unfold State.modGang State.setGang State.gang State.modCore
  rw [State.core_setCore_self, State.setCore_setCore, Core.gang_setGang_self]
  congr 1
  unfold Core.setGang
  simp

theorem mask_bits (p : LinePart) (o : Nat) (ho : o < 128) : p.mask.getLsbD o = p.lanes.any (fun l => decide (l.2.1 ≤ o ∧ o < l.2.1 + 2 ^ opxSz p.form)) := by
  have : ∀ (ls : List (Nat × Nat × List Byte)) (m : BitVec 128), (ls.foldl (fun m l => m ||| byteMask l.2.1 (2 ^ opxSz p.form)) m).getLsbD o
      = (m.getLsbD o || ls.any (fun l => decide (l.2.1 ≤ o ∧ o < l.2.1 + 2 ^ opxSz p.form))) := by
    intro ls
    induction ls with
    | nil => intro m; simp
    | cons l ls ih =>
      intro m
      rw [List.foldl_cons, ih, BitVec.getLsbD_or, byteMask_bit _ _ _ ho, List.any_cons, Bool.or_assoc]
  unfold LinePart.mask
  rw [this]
  simp

theorem setGang_core (s : State) (n sl : Nat) (y : Gang) : (s.setGang n sl y).core n = (s.core n).setGang sl y := State.core_setCore_self _ _ _

theorem deliver_frame (x : Gang) (p : LinePart) (data : Nat → Byte) (h : x.wait ≠ .host) : x.deliver p data = { x with v := (x.deliver p data).v, loads := (x.part p.load).loads } := by
  have hf : ∀ (ls : List (Nat × Nat × List Byte)) (x : Gang), ls.foldl (fun y l => loadLane y p.form l.1 ((List.range (2 ^ opxSz p.form)).map (fun i => data (l.2.1 + i)))) x
    = { x with v := (ls.foldl (fun y l => loadLane y p.form l.1 ((List.range (2 ^ opxSz p.form)).map (fun i => data (l.2.1 + i)))) x).v } := by
    intro ls
    induction ls with
    | nil => intro x; rfl
    | cons l ls ih => intro x; rw [List.foldl_cons, ih, loadLane_frame]
  have hl : ∀ (v : Tbl W32), (({ x with v := v } : Gang).part p.load).loads = (x.part p.load).loads := by
    intro v
    unfold Gang.part
    dsimp only
    rw [if_neg (by simp [h]), if_neg (by simp [h])]
  unfold Gang.deliver
  rw [hf, part_frame _ _ (by exact h), hl]

theorem gangReady_wait {s : State} {g : GangAt} {u : RegUse} {mem : Bool} {c : Nat} (h : s.gangReady g u mem = some c) : (s.gang g.core g.slot).wait = .none := by
  unfold State.gangReady at h
  dsimp only at h
  have : ∀ (b : Bool) (x : Option Nat), (if b = true then x else none) = some c → b = true := by
    intro b x; cases b <;> simp
  have := this _ _ h
  simp only [Bool.and_eq_true] at this
  have h2 := this.1.1.1.1.2
  exact beq_iff_eq.1 h2

/-- Word i of what a load writes in a lane. -/
theorem loadLane_get (g : Gang) (f : VForm) (l : Nat) (m : Nat → Byte) (r k : Nat) (hl : l < 32) (hk : k < 32) :
    (loadLane g f l ((List.range (2 ^ opxSz f)).map m)).getV r k =
      if k = l ∧ f.d ≤ r ∧ r < f.d + (2 ^ opxSz f + 3) / 4 then loadedWord f m (r - f.d) else g.getV r k := by
  obtain ⟨n, hn⟩ : ∃ n, 2 ^ opxSz f = n := ⟨_, rfl⟩
  obtain ⟨bs, hbs⟩ : ∃ bs, (List.range n).map m = bs := ⟨_, rfl⟩
  have hlen : bs.length = n := by rw [← hbs]; simp
  rw [hn, hbs]
  by_cases h4 : n ≤ 4
  · have hpos : 0 < n := by rw [← hn]; exact Nat.two_pow_pos _
    have hc : (n + 3) / 4 = 1 := by omega
    unfold loadLane
    dsimp only
    rw [hn, if_pos h4, Gang.getV_setV]
    have e : (32 * r + k = 32 * f.d + l) ↔ (k = l ∧ f.d ≤ r ∧ r < f.d + (n + 3) / 4) := by omega
    by_cases hh : k = l ∧ f.d ≤ r ∧ r < f.d + (n + 3) / 4
    · rw [if_pos (e.2 hh), if_pos hh]
      unfold loadedWord
      dsimp only
      rw [hn, show min n 4 = n by omega, show r - f.d = 0 by omega]
      simp only [Nat.mul_zero, Nat.zero_add]
      rw [show (List.range n).map (fun j => m j) = bs from hbs]
      have hlt := ofLe_lt bs
      rw [hlen] at hlt
      generalize ofLe bs = x at hlt ⊢
      have hcase : n = 1 ∨ n = 2 ∨ n = 4 := by
        rcases h0 : opxSz f with _ | _ | _ | k
        · rw [h0] at hn; omega
        · rw [h0] at hn; omega
        · rw [h0] at hn; omega
        · rw [h0] at hn
          have : 2 ^ (k + 1 + 1 + 1) ≥ 2 ^ 3 := Nat.pow_le_pow_right (by omega) (by omega)
          omega
      cases hsx : opxSx f
      · simp
      · have hbit : ∀ w x : Nat, 0 < w → x < 2 ^ w → bitOf x (w - 1) = decide (2 ^ (w - 1) ≤ x) := by
          intro w x hw hx
          unfold bitOf
          have h2 : 2 ^ w = 2 * 2 ^ (w - 1) := by rw [← Nat.pow_succ']; congr 1; omega
          by_cases hle : 2 ^ (w - 1) ≤ x
          · have : x / 2 ^ (w - 1) = 1 := by
              apply Nat.div_eq_of_lt_le <;> omega
            rw [this]; simp [hle]
          · have : x / 2 ^ (w - 1) = 0 := Nat.div_eq_of_lt (by omega)
            rw [this]; simp [hle]
        rcases hcase with rfl | rfl | rfl
        · have hx : x < 2 ^ 8 := by simpa using hlt
          have := hbit 8 x (by omega) hx
          simp only [true_and, Nat.reduceMul, Nat.reduceSub, Nat.reduceLT, if_true]
          unfold wrapInt toSigned
          dsimp only
          rw [Nat.mod_eq_of_lt hx, this]
          by_cases h : 128 ≤ x
          · simp [h, (h : 2 ^ 7 ≤ x)]; congr 1; omega
          · simp [h, (h : ¬ 2 ^ 7 ≤ x)]; congr 1; omega
        · have hx : x < 2 ^ 16 := by simpa using hlt
          have := hbit 16 x (by omega) hx
          simp only [true_and, Nat.reduceMul, Nat.reduceSub, Nat.reduceLT, if_true]
          unfold wrapInt toSigned
          dsimp only
          rw [Nat.mod_eq_of_lt hx, this]
          by_cases h : 32768 ≤ x
          · simp [h, (h : 2 ^ 15 ≤ x)]; congr 1; omega
          · simp [h, (h : ¬ 2 ^ 15 ≤ x)]; congr 1; omega
        · simp
    · rw [if_neg (fun q => hh (e.1 q)), if_neg hh]
  · unfold loadLane
    dsimp only
    rw [hn, if_neg h4]
    have h4n : n % 4 = 0 := by
      rcases h0 : opxSz f with _ | _ | k
      · rw [h0] at hn; omega
      · rw [h0] at hn; omega
      · rw [h0, Nat.pow_succ, Nat.pow_succ] at hn; omega
    have hc : (n + 3) / 4 = n / 4 := by omega
    have hf := fold_setV (fun i => (f.d + i, l)) (fun i => BitVec.ofNat 32 (ofLe bs / 2 ^ (32 * i))) (List.range (n / 4)) g r k hk
      (by intro i _; exact hl) List.nodup_range (by intro i _ j _ h; simp at h; omega)
    by_cases hh : k = l ∧ f.d ≤ r ∧ r < f.d + (n + 3) / 4
    · rw [if_pos hh]
      refine (hf.1 (r - f.d) (by simp; omega) (by simp; omega)).trans ?_
      unfold loadedWord
      dsimp only
      rw [hn, if_neg (by omega), show min n 4 = 4 by omega]
      have hw : (List.range 4).map (fun j => m (4 * (r - f.d) + j)) = (bs.drop (4 * (r - f.d))).take 4 := by
        rw [← hbs, ← List.map_drop, ← List.map_take]
        have : ((List.range n).drop (4 * (r - f.d))).take 4 = (List.range 4).map (fun i => 4 * (r - f.d) + i) := by
          apply List.ext_getElem
          · simp; omega
          · intro i h1 h2; simp
        rw [this, List.map_map]
        rfl
      rw [hw, ofLe_take, ofLe_drop]
      apply BitVec.eq_of_toNat_eq
      simp only [BitVec.toNat_ofNat]
      rw [show (256:Nat) ^ 4 = 2 ^ 32 from rfl, Nat.mod_mod, show (256 : Nat) = 2 ^ 8 from rfl, ← Nat.pow_mul]
      congr 3
      omega
    · rw [if_neg hh]
      refine hf.2 ?_
      intro i hi h
      simp at hi h
      omega

end Sys2Proof.Claims
end

