-- ==== Sys2Proof/Laws/OfFar.lean ====
section
/-!
SUPPORT. Lemmas about the far cache, atomics and far memory, for the proofs of the statements: what their operations do, step by step.
-/

namespace Sys2Proof.Claims

open Machine

/-- `k` is `K` but for the pointers and counters. -/
def CoreUp (K k : Core) : Prop := ∃ rv rs ct, k = { K with ge := { K.ge with rrVector := rv, rrScalar := rs }, dbg := { K.dbg with counters := ct } }

theorem CoreUp.refl (K : Core) : CoreUp K K := ⟨_, _, _, rfl⟩
theorem CoreUp.count {K k : Core} (h : CoreUp K k) (code n : Nat) : CoreUp K (k.count code n) := by
  obtain ⟨rv, rs, ct, rfl⟩ := h
  rw [Core.count_eq]
  exact ⟨rv, rs, _, rfl⟩
theorem CoreUp.setGang {K k : Core} (h : CoreUp K k) (sl : Nat) (y : Gang) : CoreUp (K.setGang sl y) (k.setGang sl y) := by
  obtain ⟨rv, rs, ct, rfl⟩ := h
  exact ⟨rv, rs, ct, rfl⟩
theorem CoreUp.fc {K k : Core} (h : CoreUp K k) (fc : FarCache) : CoreUp { K with fc := fc } { k with fc := fc } := by
  obtain ⟨rv, rs, ct, rfl⟩ := h
  exact ⟨rv, rs, ct, rfl⟩

theorem CoreUp.hit {K k : Core} (h : CoreUp K k) (sl : Nat) (y z : Gang) (fc : FarCache) (code n : Nat) :
    CoreUp { K.setGang sl z with fc := fc } ((({ k.setGang sl y with fc := fc } : Core).count code n).setGang sl z) := by
  obtain ⟨rv, rs, ct, rfl⟩ := h
  rw [Core.count_eq]
  unfold Core.setGang
  simp only [tblSet_tblSet_self]
  exact ⟨rv, rs, _, rfl⟩

theorem becomes_of (s : State) (n sl : Nat) (vec : Bool) (f : Core → Core) (K : Core) (net : Net)
    (hf : ∀ k, CoreUp (s.core n) k → CoreUp K (f k)) :
    CoreBecomes n s { (s.issued n sl vec).modCore n f with net := net } K net := by
  refine ⟨by unfold State.issued; rfl, fun m hm => ?_, ?_⟩
  · show ((s.issued n sl vec).modCore n f).core m = _
    rw [State.core_modCore_ne hm, core_issued_ne hm]
  · obtain ⟨rv, rs, ct, h⟩ := core_issued s n sl vec
    show CoreUp K (((s.issued n sl vec).modCore n f).core n)
    rw [State.core_modCore_self]
    exact hf _ ⟨rv, rs, ct, h⟩

theorem setCore_eq (s : State) (n : Nat) (k : Core) : s.setCore n k = s.modCore n (fun _ => k) := rfl

/-- The chain: the gang is stored, the line's part changes the cache and counts, and the gang goes on. -/
theorem chain (s : State) (g : GangAt) (y : Gang) (fc : FarCache) (code : Nat) (net : Net) (hnet : net = s.net) :
    CoreBecomes g.core s ((((s.issued g.core g.slot true).setGang g.core g.slot y).modCore g.core (fun k => ({ k with fc := fc } : Core).count code 1)).modCore g.core
      (fun k => k.setGang g.slot ({ k.gang g.slot with todo := [] }.advance g.next)))
      { (s.core g.core).setGang g.slot ({ y with todo := [] }.advance g.next) with fc := fc } net := by
  have e : (((s.issued g.core g.slot true).setGang g.core g.slot y).modCore g.core (fun k => ({ k with fc := fc } : Core).count code 1)).modCore g.core
      (fun k => k.setGang g.slot ({ k.gang g.slot with todo := [] }.advance g.next)) =
      { (s.issued g.core g.slot true).modCore g.core (fun k => ((({ k.setGang g.slot y with fc := fc } : Core).count code 1).setGang g.slot ({ y with todo := [] }.advance g.next))) with net := net } := by
    have h0 : (s.issued g.core g.slot true).setGang g.core g.slot y = (s.issued g.core g.slot true).modCore g.core (fun k => k.setGang g.slot y) := rfl
    rw [h0, State.modCore_modCore, State.modCore_modCore]
    have hn : (s.issued g.core g.slot true).net = s.net := by unfold State.issued; rfl
    unfold State.modCore State.setCore
    simp only [hn, hnet]
    congr 2
    have : ∀ k : Core, (({ k.setGang g.slot y with fc := fc } : Core).count code 1).gang g.slot = y := by
      intro k
      rw [Core.count_eq]
      exact Core.gang_setGang_self _ _ _
    rw [this]
  rw [e]
  exact becomes_of s g.core g.slot true _ _ net (fun k hk => hk.hit g.slot y _ _ _ _)

/-- The chain of a store that becomes outstanding. -/
theorem chain' (s : State) (g : GangAt) (y z : Gang) (fc : FarCache) (code : Nat) (net : Net) (hnet : net = s.net) :
    CoreBecomes g.core s ((((s.issued g.core g.slot true).setGang g.core g.slot y).modCore g.core (fun k => (({ k with fc := fc } : Core).setGang g.slot z).count code 1)).modCore g.core
      (fun k => k.setGang g.slot ({ k.gang g.slot with todo := [] }.advance g.next)))
      { (s.core g.core).setGang g.slot ({ z with todo := [] }.advance g.next) with fc := fc } net := by
  have e : (((s.issued g.core g.slot true).setGang g.core g.slot y).modCore g.core (fun k => (({ k with fc := fc } : Core).setGang g.slot z).count code 1)).modCore g.core
      (fun k => k.setGang g.slot ({ k.gang g.slot with todo := [] }.advance g.next)) =
      { (s.issued g.core g.slot true).modCore g.core (fun k => ((({ k.setGang g.slot z with fc := fc } : Core).count code 1).setGang g.slot ({ z with todo := [] }.advance g.next))) with net := net } := by
    have h0 : (s.issued g.core g.slot true).setGang g.core g.slot y = (s.issued g.core g.slot true).modCore g.core (fun k => k.setGang g.slot y) := rfl
    rw [h0, State.modCore_modCore, State.modCore_modCore]
    have hn : (s.issued g.core g.slot true).net = s.net := by unfold State.issued; rfl
    unfold State.modCore State.setCore
    simp only [hn, hnet]
    congr 2
    have h1 : ∀ k : Core, ({ k.setGang g.slot y with fc := fc } : Core).setGang g.slot z = { k.setGang g.slot z with fc := fc } := by
      intro k; unfold Core.setGang; simp only [tblSet_tblSet_self]
    have h2 : ∀ k : Core, (({ k.setGang g.slot z with fc := fc } : Core).count code 1).gang g.slot = z := by
      intro k
      rw [Core.count_eq]
      exact Core.gang_setGang_self _ _ _
    rw [h1, h2]
  rw [e]
  exact becomes_of s g.core g.slot true _ _ net (fun k hk => hk.hit g.slot z _ _ _ _)

theorem todo_nil (y : Gang) (h : y.todo = []) : { y with todo := [] } = y := by rw [← h]

/-- Lanes that name distinct places all stand. -/
theorem part_bytes (s : State) (g : GangAt) (f : VForm) (d ln : Nat)
    (hd : ∀ l ∈ lanesOf ((s.gang g.core g.slot).execLanes f.qp f.qn), laneAddr (s.gangEnv g.core g.slot) (s.gang g.core g.slot) f l / 128 = ln)
    (hne : ∀ l ∈ lanesOf ((s.gang g.core g.slot).execLanes f.qp f.qn), ∀ m ∈ lanesOf ((s.gang g.core g.slot).execLanes f.qp f.qn), l ≠ m →
      laneAddr (s.gangEnv g.core g.slot) (s.gang g.core g.slot) f l ≠ laneAddr (s.gangEnv g.core g.slot) (s.gang g.core g.slot) f m) :
    (thePart s g f true d ln).bytes = storedBytes s g f := by
  obtain ⟨a, ha⟩ : ∃ a, laneAddr (s.gangEnv g.core g.slot) (s.gang g.core g.slot) f = a := ⟨_, rfl⟩
  obtain ⟨ls, hls⟩ : ∃ ls, lanesOf ((s.gang g.core g.slot).execLanes f.qp f.qn) = ls := ⟨_, rfl⟩
  rw [ha, hls] at hd hne
  have hnd : ls.Nodup := by rw [← hls]; exact lanesOf_nodup _
  have hlen : ∀ l, (storeBytes (s.gangEnv g.core g.slot) (s.gang g.core g.slot) f l).length = 2 ^ opxSz f := by
    intro l
    unfold storeBytes
    dsimp only
    split
    · simp
    · split
      · simp
      · have : ∀ (w : Nat) (v : Nat → Nat) (is : List Nat), (is.foldr (fun i acc => leBytes w (v i) ++ acc) []).length = w * is.length := by
          intro w v is
          induction is with
          | nil => simp
          | cons i is ih => rw [List.foldr_cons, List.length_append, ih, leBytes_length, List.length_cons]; rw [Nat.mul_add]; omega
        rw [this, List.length_range]
        unfold cdiv
        have hpos : 0 < 2 ^ opxSz f := Nat.two_pow_pos _
        rcases h0 : opxSz f with _ | _ | k
        · simp
        · simp
        · rw [Nat.pow_succ, Nat.pow_succ]
          have : 0 < 2 ^ k := Nat.two_pow_pos _
          rw [show min (2 ^ k * 2 * 2) 4 = 4 by omega, show (2 ^ k * 2 * 2 + 4 - 1) / 4 = 2 ^ k by omega]
          omega
  have hstand : ∀ l ∈ (thePart s g f true d ln).lanes, (thePart s g f true d ln).stands l = true := by
    intro l hl
    have hlanes : (thePart s g f true d ln).lanes = ls.map (fun l => (l, a l % 128, storeBytes (s.gangEnv g.core g.slot) (s.gang g.core g.slot) f l)) := by
      rw [← hls, ← ha]; rfl
    unfold LinePart.stands
    rw [hlanes] at hl ⊢
    rw [List.mem_map] at hl
    obtain ⟨j, hj, rfl⟩ := hl
    dsimp only
    have : (ls.map (fun l => (l, a l % 128, storeBytes (s.gangEnv g.core g.slot) (s.gang g.core g.slot) f l))).filter (fun m => m.2.1 == a j % 128)
        = [(j, a j % 128, storeBytes (s.gangEnv g.core g.slot) (s.gang g.core g.slot) f j)] := by
      have go : ∀ (ts : List Nat), ts.Nodup → (∀ t ∈ ts, t ∈ ls) → (ts.map (fun l => (l, a l % 128, storeBytes (s.gangEnv g.core g.slot) (s.gang g.core g.slot) f l))).filter (fun m => m.2.1 == a j % 128)
          = if j ∈ ts then [(j, a j % 128, storeBytes (s.gangEnv g.core g.slot) (s.gang g.core g.slot) f j)] else [] := by
        intro ts
        induction ts with
        | nil => intro _ _; simp
        | cons t ts ih =>
          intro hn hsub
          have ih' := ih (List.nodup_cons.1 hn).2 (fun q hq => hsub q (List.mem_cons_of_mem _ hq))
          rw [List.map_cons, List.filter_cons]
          by_cases htj : t = j
          · subst htj
            simp only [beq_self_eq_true, if_true]
            rw [ih', if_neg (List.nodup_cons.1 hn).1, if_pos List.mem_cons_self]
          · have h1 := hsub t List.mem_cons_self
            have hx : a t % 128 ≠ a j % 128 := by
              intro h
              have := hne t h1 j hj htj
              have d1 := hd t h1
              have d2 := hd j hj
              omega
            rw [if_neg (by simpa using hx), ih']
            simp [Ne.symm htj]
      rw [go ls hnd (fun _ h => h), if_pos hj]
    rw [this]
  unfold LinePart.bytes
  rw [List.filter_eq_self.2 hstand]
  unfold storedBytes thePart
  dsimp only
  rw [List.flatMap_map]
  congr 1
  funext l
  rw [if_pos rfl, hlen]

def mergeOne (fill : Bool) (l : FcLine) (x : Nat × Byte) : FcLine :=
  if fill && l.dirty.getLsbD x.1 then l
    else { l with data := memWrite l.data x.1 x.2, valid := l.valid ||| byteMask x.1 1
                  dirty := if fill then l.dirty else l.dirty ||| byteMask x.1 1 }

theorem merge_fold (l : FcLine) (bs : List (Nat × Byte)) (fill : Bool) : l.merge bs fill = bs.foldl (mergeOne fill) l := rfl

theorem mergeOne_ne (fill : Bool) (l : FcLine) (x : Nat × Byte) (o : Nat) (ho : o < 128) (h : x.1 ≠ o ∨ (fill = true ∧ l.dirty.getLsbD o = true)) :
    memRead (mergeOne fill l x).data o = memRead l.data o ∧ (mergeOne fill l x).valid.getLsbD o = l.valid.getLsbD o ∧ (mergeOne fill l x).dirty.getLsbD o = l.dirty.getLsbD o := by
  unfold mergeOne
  by_cases hc : (fill && l.dirty.getLsbD x.1) = true
  · rw [if_pos hc]; exact ⟨rfl, rfl, rfl⟩
  · rw [if_neg hc]
    have hx : o ≠ x.1 := by
      intro e; subst e
      rcases h with h | h
      · exact h rfl
      · simp [h] at hc
    have hb : (byteMask x.1 1).getLsbD o = false := by rw [byteMask_bit _ _ _ ho]; simp; omega
    refine ⟨memRead_memWrite_ne hx _ _, ?_, ?_⟩
    · show (l.valid ||| byteMask x.1 1).getLsbD o = _
      rw [BitVec.getLsbD_or, hb, Bool.or_false]
    · show (if fill then l.dirty else l.dirty ||| byteMask x.1 1).getLsbD o = _
      cases fill
      · simp [hb]
      · rfl

theorem mergeOne_wf (fill : Bool) (l : FcLine) (x : Nat × Byte) (h : Memory.wf l.data = true) : Memory.wf (mergeOne fill l x).data = true := by
  unfold mergeOne
  split
  · exact h
  · exact memWrite_wf h _ _

theorem merge_ne (fill : Bool) (bs : List (Nat × Byte)) (l : FcLine) (o : Nat) (ho : o < 128) (h : (∀ b ∈ bs, b.1 ≠ o) ∨ (fill = true ∧ l.dirty.getLsbD o = true)) :
    memRead (bs.foldl (mergeOne fill) l).data o = memRead l.data o ∧ (bs.foldl (mergeOne fill) l).valid.getLsbD o = l.valid.getLsbD o ∧ (bs.foldl (mergeOne fill) l).dirty.getLsbD o = l.dirty.getLsbD o := by
  induction bs generalizing l with
  | nil => exact ⟨rfl, rfl, rfl⟩
  | cons b bs ih =>
    rw [List.foldl_cons]
    have h1 := mergeOne_ne fill l b o ho (by
      rcases h with h | h
      · exact Or.inl (h b List.mem_cons_self)
      · exact Or.inr h)
    have h2 := ih (mergeOne fill l b) (by
      rcases h with h | h
      · exact Or.inl (fun c hc => h c (List.mem_cons_of_mem _ hc))
      · exact Or.inr ⟨h.1, h1.2.2.trans h.2⟩)
    exact ⟨h2.1.trans h1.1, h2.2.1.trans h1.2.1, h2.2.2.trans h1.2.2⟩

theorem merge_wf (fill : Bool) (bs : List (Nat × Byte)) (l : FcLine) (h : Memory.wf l.data = true) : Memory.wf (bs.foldl (mergeOne fill) l).data = true := by
  induction bs generalizing l with
  | nil => exact h
  | cons b bs ih => exact ih _ (mergeOne_wf fill l b h)

theorem mergeOne_eq (fill : Bool) (l : FcLine) (o : Nat) (v : Byte) (hw : Memory.wf l.data = true) (ho : o < 128) (h : fill = false ∨ l.dirty.getLsbD o = false) :
    memRead (mergeOne fill l (o, v)).data o = v ∧ (mergeOne fill l (o, v)).valid.getLsbD o = true ∧ (mergeOne fill l (o, v)).dirty.getLsbD o = (!fill) := by
  unfold mergeOne
  have hb : (byteMask o 1).getLsbD o = true := by rw [byteMask_bit _ _ _ ho]; simp
  rw [if_neg]
  · refine ⟨memRead_memWrite_self hw _ _, ?_, ?_⟩
    · show (l.valid ||| byteMask o 1).getLsbD o = _
      rw [BitVec.getLsbD_or, hb, Bool.or_true]
    · show (if fill then l.dirty else l.dirty ||| byteMask o 1).getLsbD o = _
      cases fill
      · simp [hb]
      · rcases h with h | h
        · cases h
        · simpa using h
  · simp
    intro hf
    rcases h with h | h
    · rw [hf] at h; cases h
    · exact h

theorem merge_last (fill : Bool) (pre post : List (Nat × Byte)) (v : Byte) (l : FcLine) (o : Nat) (hw : Memory.wf l.data = true) (ho : o < 128)
    (hp : ∀ b ∈ post, b.1 ≠ o) (h : fill = false ∨ l.dirty.getLsbD o = false) :
    memRead ((pre ++ (o, v) :: post).foldl (mergeOne fill) l).data o = v ∧ ((pre ++ (o, v) :: post).foldl (mergeOne fill) l).valid.getLsbD o = true ∧
      ((pre ++ (o, v) :: post).foldl (mergeOne fill) l).dirty.getLsbD o = (!fill) := by
  rw [List.foldl_append, List.foldl_cons]
  have hd : fill = false ∨ (pre.foldl (mergeOne fill) l).dirty.getLsbD o = false := by
    rcases h with h | h
    · exact Or.inl h
    · by_cases hf : fill = false
      · exact Or.inl hf
      · right
        have hft : fill = true := by cases fill <;> simp_all
        subst hft
        have : ∀ (bs : List (Nat × Byte)) (l : FcLine), (bs.foldl (mergeOne true) l).dirty = l.dirty := by
          intro bs
          induction bs with
          | nil => intro l; rfl
          | cons b bs ih => intro l; rw [List.foldl_cons, ih]; unfold mergeOne; split <;> rfl
        rw [this]; exact h
  have h1 := mergeOne_eq fill (pre.foldl (mergeOne fill) l) o v (merge_wf _ _ _ hw) ho hd
  have h2 := merge_ne fill post (mergeOne fill (pre.foldl (mergeOne fill) l) (o, v)) o ho (Or.inl hp)
  exact ⟨h2.1.trans h1.1, h2.2.1.trans h1.2.1, h2.2.2.trans h1.2.2⟩

theorem fc_eta (k : Core) : { k with fc := k.fc } = k := rfl

theorem getV_fold_putV (d w : Nat) (os : List (Nat × Nat)) (y : Gang) (q l : Nat) (hl : l < 32) (hlt : ∀ o ∈ os, o.1 < 32) (hnd : (os.map Prod.fst).Nodup) :
    (os.foldl (fun y o => y.putV d o.1 w o.2) y).getV q l =
      match os.find? (fun o => o.1 == l) with
      | some o => if q = d then BitVec.ofNat 32 (if w = 64 then o.2 else o.2 % 2 ^ w) else if w = 64 ∧ q = d + 1 then BitVec.ofNat 32 (o.2 / 2 ^ 32) else y.getV q l
      | none => y.getV q l := by
  induction os generalizing y with
  | nil => rfl
  | cons o os ih =>
    rw [List.foldl_cons, ih _ (fun p hp => hlt p (List.mem_cons_of_mem _ hp)) (List.nodup_cons.1 hnd).2, List.find?_cons]
    by_cases h : o.1 = l
    · have hno : os.find? (fun o => o.1 == l) = none := by
        rw [List.find?_eq_none]
        intro p hp
        simp
        intro e
        have := (List.nodup_cons.1 hnd).1
        apply this
        rw [h, ← e]
        exact List.mem_map_of_mem hp
      rw [hno]
      simp only [h, beq_self_eq_true]
      rw [Gang.putV_getV _ _ _ _ _ _ _ hl hl]
      simp
    · rw [show (o.1 == l) = false by simp [h]]
      dsimp only
      have hp : ∀ q, (y.putV d o.1 w o.2).getV q l = y.getV q l := by
        intro q
        rw [Gang.putV_getV _ _ _ _ _ _ _ (hlt o List.mem_cons_self) hl]
        simp [Ne.symm h]
      simp only [hp]

theorem atomRun_fst (f : VForm) (ls : List (Nat × Nat × Nat)) (v : Nat) : (atomRun f ls v).1 = atomValue f ls v := by
  induction ls generalizing v with
  | nil => rfl
  | cons l ls ih => obtain ⟨a, b, c⟩ := l; simp only [atomRun, atomValue, List.foldl_cons]; rw [ih]; rfl

theorem atomRun_map (f : VForm) (ls : List (Nat × Nat × Nat)) (v : Nat) : (atomRun f ls v).2.map Prod.fst = ls.map Prod.fst := by
  induction ls generalizing v with
  | nil => rfl
  | cons l ls ih => obtain ⟨a, b, c⟩ := l; simp only [atomRun, List.map_cons, ih]

theorem atomRun_find (f : VForm) (pre post : List (Nat × Nat × Nat)) (l b d v : Nat) (h : l ∉ pre.map Prod.fst) :
    (atomRun f (pre ++ (l, b, d) :: post) v).2.find? (fun o => o.1 == l) = some (l, atomValue f pre v) := by
  induction pre generalizing v with
  | nil => simp [atomRun, atomValue]
  | cons p pre ih =>
    obtain ⟨a, b', c⟩ := p
    simp only [List.cons_append, atomRun, List.find?_cons]
    have h1 : a ≠ l := by intro e; apply h; simp [e]
    rw [show (a == l) = false by simp [h1]]
    dsimp only
    rw [ih]
    · rfl
    · intro hh; apply h; simp at hh ⊢; right; exact hh

theorem markDirty_same (u : State) (a n : Nat) : ∃ l, u.markDirty a n = { u with links := l } := by
  unfold State.markDirty
  dsimp only
  split
  · exact ⟨_, rfl⟩
  · split
    · exact ⟨_, rfl⟩
    · exact ⟨_, rfl⟩

theorem fold_writes (base : Nat) (bs : List (Nat × Byte)) (m : Mem) (hw : Memory.wf m = true) (hn : (bs.map Prod.fst).Nodup) :
    Memory.wf (bs.foldl (fun m x => memWrite m (base + x.1) x.2) m) = true ∧
    (∀ b ∈ bs, memRead (bs.foldl (fun m x => memWrite m (base + x.1) x.2) m) (base + b.1) = b.2) ∧
    (∀ a, (∀ b ∈ bs, a ≠ base + b.1) → memRead (bs.foldl (fun m x => memWrite m (base + x.1) x.2) m) a = memRead m a) := by
  induction bs generalizing m with
  | nil => simp [hw]
  | cons b bs ih =>
    obtain ⟨i1, i2, i3⟩ := ih (memWrite m (base + b.1) b.2) (memWrite_wf hw _ _) (List.nodup_cons.1 hn).2
    refine ⟨i1, ?_, ?_⟩
    · intro c hc
      rcases List.mem_cons.1 hc with h | h
      · subst h
        rw [List.foldl_cons, i3, memRead_memWrite_self hw]
        intro d hd e
        have := (List.nodup_cons.1 hn).1
        apply this
        rw [show c.1 = d.1 by omega]
        exact List.mem_map_of_mem hd
      · exact i2 c h
    · intro a ha
      rw [List.foldl_cons, i3 a (fun d hd => ha d (List.mem_cons_of_mem _ hd)), memRead_memWrite_ne (ha b List.mem_cons_self)]

/-- A write-back's part of one block, where no block is in error: its bytes are written, and the mirror's bitmap follows. -/
theorem bytes_step (u : State) (base h : Nat) (bs : List (Nat × Byte)) (r : Bool) (hb : u.far.bad = []) :
    ∃ l, (let mine := bs.filter (fun x => decide (h ≤ x.1) && decide (x.1 < h + 64))
    if mine.isEmpty then ((u, r) : State × Bool)
    else
      let blk := farBlock u.far.localUnits (base + h)
      let t := if mine.length = 64 then (u.freshBlock blk, true) else u.touchBlock blk
      if t.2 then (({ t.1 with far := { t.1.far with mem := mine.foldl (fun m x => memWrite m (base + x.1) x.2) t.1.far.mem } } : State).markDirty (base + h) 64, r)
      else (t.1, false)) =
      ({ u with far := { u.far with mem := (bs.filter (fun x => decide (h ≤ x.1) && decide (x.1 < h + 64))).foldl (fun m x => memWrite m (base + x.1) x.2) u.far.mem }, links := l }, r) := by
  dsimp only
  by_cases he : (bs.filter (fun x => decide (h ≤ x.1) && decide (x.1 < h + 64))).isEmpty = true
  · rw [if_pos he]
    rw [List.isEmpty_iff] at he
    rw [he]
    exact ⟨u.links, rfl⟩
  · rw [if_neg he, freshBlock_clean hb, touchBlock_clean hb, ite_self]
    simp only [if_true]
    obtain ⟨l, hl⟩ := markDirty_same ({ u with far := { u.far with mem := (bs.filter (fun x => decide (h ≤ x.1) && decide (x.1 < h + 64))).foldl (fun m x => memWrite m (base + x.1) x.2) u.far.mem } }) (base + h) 64
    exact ⟨l, by rw [hl]⟩

end Sys2Proof.Claims
end

