-- ==== Sys2Proof/Laws/OfSync.lean ====
section
/-!
SUPPORT. Lemmas about tallies, waits, fences, barriers and timeouts, for the proofs of the statements: what their operations do, step by step.
-/

namespace Sys2Proof.Claims

open Machine

theorem issued_parts (s : State) (n sl : Nat) (vec : Bool) : (s.issued n sl vec).ctxs = s.ctxs ∧ (s.issued n sl vec).net = s.net ∧ (s.issued n sl vec).hub = s.hub ∧ (s.issued n sl vec).rings = s.rings ∧ (s.issued n sl vec).half = s.half := by
  unfold State.issued; exact ⟨rfl, rfl, rfl, rfl, rfl⟩

theorem issued_ctx (s : State) (n sl : Nat) (vec : Bool) (c : Nat) : (s.issued n sl vec).ctx c = s.ctx c := by unfold State.issued; rfl

theorem tallyAt_issued (s : State) (n sl : Nat) (vec : Bool) (h : Home) : (s.issued n sl vec).tallyAt h = s.tallyAt h := by
  unfold State.tallyAt
  split
  · rw [(issued_parts s n sl vec).2.2.1]
  · by_cases hc : h.core = n
    · obtain ⟨rv, rs, ct, e⟩ := core_issued s n sl vec
      rw [hc, e]
    · rw [core_issued_ne hc]

theorem opsPending_issued (s : State) (n sl : Nat) (vec : Bool) (w : Waiter) (h : Home) : (s.issued n sl vec).opsPending w h = s.opsPending w h := by
  unfold State.opsPending; rw [(issued_parts s n sl vec).2.1]

theorem tSrc_eq (s : State) (g : GangAt) (f : TForm) :
    tSrc (s.gangEnv g.core g.slot) (s.gang g.core g.slot) f % 2 ^ 32 = tallyOperand s g f := by
  unfold tSrc tallyOperand scalarSrc
  split
  · rw [BitVec.toNat_setWidth]
  · rw [BitVec.toNat_ofNat]

theorem launchFlight_issued (s : State) (n sl : Nat) (vec : Bool) (u : Nat) : (s.issued n sl vec).launchFlight n u = s.launchFlight n u := by
  unfold State.launchFlight State.queue Core.queue
  obtain ⟨rv, rs, ct, e⟩ := core_issued s n sl vec
  rw [e]

theorem becomes_rings (s : State) (n sl : Nat) (vec : Bool) (r : Tbl Ring) (f : Core → Core) (K : Core) (net : Net) (hf : ∀ k, CoreUp (s.core n) k → CoreUp K (f k)) :
    CoreBecomes n { s with rings := r } { (s.issued n sl vec).modCore n f with net := net, rings := r } K net := by
  have := becomes_of { s with rings := r } n sl vec f K net hf
  have e : ({ (s.issued n sl vec).modCore n f with net := net, rings := r } : State) = { (({ s with rings := r } : State).issued n sl vec).modCore n f with net := net } := by
    unfold State.issued; rfl
  rw [e]
  exact this

theorem here_eq (h : Home) (n : Nat) : ((!h.hub && h.core == n) = true) ↔ HomeHere h n := by
  unfold HomeHere; simp

theorem first_op {k : Nat} {m : TallyMsg} {s : State} (h : FirstTo TallyMsg.src TallyMsg.home k m s.net.tally) :
    firstOf (fun a b => a.src == b.src && a.home.place == b.home.place) k s.net.tally = some m := by
  refine firstOf_some h.1 (fun o ho => ?_)
  rcases h.2 o ho with h | h <;> simp [h]

theorem noreads {m : TallyMsg} {s : State} (h : ∀ r ∈ s.net.reads, r.who ≠ m.src ∨ r.home.place ≠ m.home.place) :
    ¬ (s.net.reads.any (fun r => r.who == m.src && r.home.place == m.home.place)) = true := by
  rw [Bool.not_eq_true, List.any_eq_false]
  intro r hr
  rcases h r hr with h | h <;> simp [h]

theorem noted {n : Nat} {s t : State} (h : CoreFrame n s t) : t.far = s.far ∧ t.host = s.host := by
  constructor <;> rw [h.same]

theorem tallyEnds_frame (s : State) (n e c slot : Nat) (ws : List TWait) : CoreFrame n s (s.tallyEnds n e c slot ws) := by
  unfold State.tallyEnds
  induction ws generalizing s with
  | nil => exact CoreFrame.refl _ _
  | cons w ws ih => exact (CoreFrame.tail _ _ _ _ _ _ _ _ _).trans (ih _)

theorem progress_frame (s : State) (n e : Nat) : CoreFrame n s (s.progress n e) := by
  unfold State.progress
  dsimp only
  split
  · split
    · exact ((CoreFrame.setQueue _ _ _ _).trans (CoreFrame.waitEnd _ _ _ _ _ _ _ _ _ _ _)).trans (CoreFrame.retire _ _ _ _)
    · exact CoreFrame.refl _ _
  · split
    · split
      · exact ((CoreFrame.setQueue _ _ _ _).trans (tallyEnds_frame _ _ _ _ _ _)).trans (CoreFrame.retire _ _ _ _)
      · split
        · exact CoreFrame.refl _ _
        · exact (((CoreFrame.setQueue _ _ _ _).trans (tallyEnds_frame _ _ _ _ _ _)).trans (CoreFrame.waitBegin _ _ _ _ _ _ _ _ _ _)).trans (CoreFrame.net _ _ _)
    · exact CoreFrame.refl _ _
  · exact CoreFrame.refl _ _

/-- What a home's own cycle leaves: other cores, far and host memory, slabs and tallies. -/
structure Poked (n : Nat) (s t : State) : Prop where
  far : t.far = s.far
  host : t.host = s.host
  hub : t.hub.tallies = s.hub.tallies
  other : ∀ m, m ≠ n → t.core m = s.core m
  slab : (t.core n).slab = (s.core n).slab
  tslots : (t.core n).tally.slots = (s.core n).tally.slots

theorem Poked.refl (n : Nat) (s : State) : Poked n s s := ⟨rfl, rfl, rfl, fun _ _ => rfl, rfl, rfl⟩
theorem Poked.trans {n : Nat} {s t u : State} (a : Poked n s t) (b : Poked n t u) : Poked n s u :=
  ⟨b.far.trans a.far, b.host.trans a.host, b.hub.trans a.hub, fun m h => (b.other m h).trans (a.other m h), b.slab.trans a.slab, b.tslots.trans a.tslots⟩

theorem Poked.foldl {α : Type} {n : Nat} {f : State → α → State} (hf : ∀ t x, Poked n t (f t x)) (xs : List α) (s : State) : Poked n s (xs.foldl f s) := by
  induction xs generalizing s with
  | nil => exact Poked.refl n s
  | cons x xs ih => exact (hf s x).trans (ih _)

theorem Poked.of_frame {n : Nat} {s t : State} (h : CoreFrame n s t) : Poked n s t :=
  ⟨(noted h).1, (noted h).2, h.htall, h.other, h.slab, h.tslots⟩

theorem Poked.setGang (n sl : Nat) (s : State) (y : Gang) : Poked n s (s.setGang n sl y) := by
  refine ⟨rfl, rfl, rfl, fun m h => State.core_setCore_ne h _ _, ?_, ?_⟩
  all_goals
    unfold State.setGang
    rw [State.core_setCore_self]
    rfl

theorem Poked.poke (s : State) (h : Home) : Poked h.core s (s.pokeLocal h) := by
  unfold State.pokeLocal
  split
  · exact Poked.refl _ _
  · dsimp only
    refine Poked.trans (Poked.foldl (fun t e => ?_) _ s) (Poked.foldl (fun t sl => ?_) _ _)
    · exact Poked.of_frame ((CoreFrame.setQueue _ _ _ _).trans (progress_frame _ _ _))
    · split
      · split
        · exact (Poked.setGang _ _ _ _).trans (Poked.of_frame (CoreFrame.tail _ _ _ _ _ _ _ _ _))
        · exact Poked.refl _ _
      · exact Poked.refl _ _

theorem CoreUp.acq {K k : Core} (h : CoreUp K k) (fc : FarCache) (sl : Nat) (y : Gang) : CoreUp { K.setGang sl y with fc := fc } { k.setGang sl y with fc := fc } := by
  obtain ⟨rv, rs, ct, rfl⟩ := h
  exact ⟨rv, rs, ct, rfl⟩

theorem fc_issued (s : State) (n sl : Nat) (vec : Bool) : ((s.issued n sl vec).core n).fc = (s.core n).fc := by
  obtain ⟨rv, rs, ct, h⟩ := core_issued s n sl vec; rw [h]

/-- The gang is stored, and the core's cache changes by `f`. -/
theorem becomes_gangfc (s : State) (n sl : Nat) (vec : Bool) (y : Gang) (f : FarCache → FarCache) :
    CoreBecomes n s (((s.issued n sl vec).setGang n sl y).modCore n (fun k => { k with fc := f k.fc })) { (s.core n).setGang sl y with fc := f (s.core n).fc } s.net := by
  have e : ((s.issued n sl vec).setGang n sl y).modCore n (fun k => { k with fc := f k.fc }) =
      { (s.issued n sl vec).modCore n (fun k => { k.setGang sl y with fc := f (s.core n).fc }) with net := s.net } := by
    rw [← (issued_parts s n sl vec).2.1, ← fc_issued s n sl vec]
    unfold State.setGang State.modCore
    rw [State.core_setCore_self, State.setCore_setCore]
    rfl
  rw [e]
  exact becomes_of s n sl vec _ _ _ (fun k hk => hk.acq _ _ _)

theorem becomes_gang (s : State) (n sl : Nat) (vec : Bool) (y : Gang) : CoreBecomes n s ((s.issued n sl vec).setGang n sl y) ((s.core n).setGang sl y) s.net := by
  have e : (s.issued n sl vec).setGang n sl y = { (s.issued n sl vec).modCore n (fun k => k.setGang sl y) with net := s.net } := by
    rw [← (issued_parts s n sl vec).2.1]; rfl
  rw [e]
  exact becomes_of s n sl vec _ _ _ (fun k hk => hk.setGang _ _)

theorem becomes_gangnet (s : State) (n sl : Nat) (vec : Bool) (y : Gang) (net : Net) : CoreBecomes n s { (s.issued n sl vec).setGang n sl y with net := net } ((s.core n).setGang sl y) net :=
  becomes_of s n sl vec (fun k => k.setGang sl y) _ net (fun k hk => hk.setGang _ _)

theorem fence_rel (p : Prop) [Decidable p] (a b : State) (n : Nat) (f : Core → Core) : (if p then a else b).modCore n f = if p then a.modCore n f else b.modCore n f := by
  split <;> rfl

theorem quiet_of {x : Gang} (h : x.loads = []) (h' : x.stores = 0) : (!x.quiet) = false := by
  unfold Gang.quiet; rw [h, h']; rfl

theorem memReadN_take8 (m : Mem) (a : Nat) : (memReadN m a 16).take 8 = memReadN m a 8 ∧ (memReadN m a 16).drop 8 = memReadN m (a + 8) 8 := by
  constructor
  · rw [memReadN_take, Nat.min_eq_left (by omega)]
  · rw [memReadN_drop]

theorem core_acquireAt (s : State) (n c sc : Nat) : (∀ i, i ≠ n → (s.acquireAt n c sc).core i = s.core i) ∧ (∃ fc, (s.acquireAt n c sc).core n = { s.core n with fc := fc }) ∧ s.acquireAt n c sc = { s with cores := (s.acquireAt n c sc).cores } := by
  unfold State.acquireAt
  split
  · exact ⟨fun _ _ => rfl, ⟨_, rfl⟩, rfl⟩
  · exact ⟨fun i hi => State.core_modCore_ne hi _ _, ⟨_, State.core_modCore_self _ _ _⟩, rfl⟩

theorem unit_setUnit (s : State) (u : Nat) (b : BarUnit) : (s.setUnit u b).unit u = b := tblGet_tblSet_self _ _ _ _

theorem contains_false {a : Nat} {xs : List Nat} (h : a ∉ xs) : xs.contains a = false := by simpa using h
theorem contains_true {a : Nat} {xs : List Nat} (h : a ∈ xs) : xs.contains a = true := by simpa using h

theorem barTails (u : Nat) (gen : Nat) (ps : List Nat) (s : State) : ∃ r, ps.foldl (fun t p => t.barTail u p 1 gen) s = { s with rings := r } := by
  induction ps generalizing s with
  | nil => exact ⟨_, rfl⟩
  | cons p ps ih =>
    obtain ⟨r, h⟩ := ih (s.barTail u p 1 gen)
    exact ⟨r, by rw [List.foldl_cons, h]; rfl⟩

theorem aArg_eq (s : State) (g : GangAt) (f : AForm) : aArg (s.gangEnv g.core g.slot) (s.gang g.core g.slot) f = (serviceArg s g f).toNat := by
  unfold aArg serviceArg
  split
  · rfl
  · rw [BitVec.toNat_ofNat]

theorem becomes_ctxs (s : State) (n sl : Nat) (vec : Bool) (y : Gang) (r : Tbl Ctx) :
    CoreBecomes n { s with ctxs := r } { (s.issued n sl vec).setGang n sl y with ctxs := r } ((s.core n).setGang sl y) s.net := by
  have := becomes_gang { s with ctxs := r } n sl vec y
  have e : ({ (s.issued n sl vec).setGang n sl y with ctxs := r } : State) = (({ s with ctxs := r } : State).issued n sl vec).setGang n sl y := by
    unfold State.issued; rfl
  rw [e]
  exact this

end Sys2Proof.Claims
end

