-- ==== Sys2Proof/Laws/OfRecords.lean ====
section
/-!
SUPPORT. Lemmas about the records of the queues, for the proofs of the statements: what their operations do, step by step.
-/

namespace Sys2Proof.Claims

open Machine

theorem onRecord_next {s : State} {core e opc c : Nat} {ws : List W64} {ready : Nat → List W64 → State → Bool} {body : RecInfo → State → State}
    (h : RecIssues s core e opc c ws) (hr : ready c ws s = true) :
    onRecord s core e opc ready body = .next (body { c := c, core := core, e := e, slot := (s.queue core e).next, id := (s.queue core e).serial, ws := ws } (s.issueRec c core e ws).1) := by
  obtain ⟨h1, h2, h3, h4, h5, h6, h7, ⟨raw, h8, h9⟩, h10, h11, h12, h13, h14, h15, h16, h17, h18, h19⟩ := h
  have hcr : (s.core core).crecFull e = false := by
    unfold Core.crecFull
    rcases h14 with h | h
    · rw [show ((s.core core).queue e).crecBase = 0 from h]; rfl
    · rw [decide_eq_false (by omega)]; simp
  unfold onRecord
  rw [if_pos ⟨h1, h2⟩, h3]
  dsimp only
  rw [if_neg (by rw [h4, h5]; rcases h6 with h | h <;> simp [h]), if_neg (by rw [h7]; exact Bool.false_ne_true), h8]
  dsimp only
  rw [h9, if_neg (by
    rw [h11, h10]
    by_cases ho : opc = 5
    · simp [ho, (h17 ho).1]
    · simp [ho]), if_neg (by simp [h10])]
  rw [if_neg (by
    rw [hcr]
    intro hh
    simp only [Bool.or_false, Bool.or_eq_true, Bool.and_eq_true, bne_iff_ne, List.any_eq_true, decide_eq_true_eq, beq_iff_eq, Bool.not_eq_true'] at hh
    rcases hh with (⟨a, b⟩ | ⟨a, l, hl, b⟩) | ⟨a, b⟩
    · rcases h12 with h | h
      · rw [h] at a; cases a
      · exact b h
    · have := h13 a l hl; omega
    · rw [h16 a] at b; cases b)]
  rw [if_neg (by
    intro hh
    simp only [Bool.or_eq_true, Bool.and_eq_true, bne_iff_ne, beq_iff_eq, Bool.not_eq_true'] at hh
    rcases hh with (⟨a, b⟩ | ⟨a, b⟩) | ⟨a, b⟩
    · exact b (h15 a)
    · rw [(h17 a).2.1] at b; cases b
    · rw [h18 a] at b; cases b)]
  rw [if_neg (fun hh => by rw [(h17 hh.1).2.2] at hh; exact Bool.noConfusion hh.2), if_neg (by simp [h19.1]), if_neg (by simp [hr])]
  rw [if_neg (by rcases h19.2 with h | h | h <;> simp [h])]
  rfl

/-- Only cores and rings differ. -/
def CR (s t : State) : Prop := ∃ cs r, t = { s with cores := cs, rings := r }
theorem CR.refl (s : State) : CR s s := ⟨_, _, rfl⟩
theorem CR.trans {s t u : State} (a : CR s t) (b : CR t u) : CR s u := by
  obtain ⟨_, _, rfl⟩ := a; obtain ⟨_, _, rfl⟩ := b; exact ⟨_, _, rfl⟩
theorem CR.ite {s : State} (b : Prop) [Decidable b] (f : Core → Core) (n : Nat) : CR s (if b then s.modCore n f else s) := by
  split
  · exact ⟨_, _, rfl⟩
  · exact CR.refl _
theorem CR.waitEnd (s : State) (n e c slot start tag kind thr seen : Nat) (ex : Bool) : CR s (s.waitEnd n e c slot start tag kind thr seen ex) := by
  unfold State.waitEnd
  dsimp only
  refine CR.trans (t := s.tail (ringOf n e) 4 c none (slot + 2 ^ 12 * tag + 2 ^ 24 * kind + 2 ^ 26 * boolN ex) (thr % 2 ^ 32 + 2 ^ 32 * (seen % 2 ^ 32)) 0) ⟨_, _, rfl⟩ ?_
  exact CR.ite _ _ _
theorem CR.tokenEnd (s : State) (c n e : Nat) : CR s (s.tokenEnd c n e) := by
  unfold State.tokenEnd
  dsimp only
  split
  · exact CR.refl _
  · exact CR.trans (t := s.setQueue n e _) ⟨_, _, rfl⟩ (CR.waitEnd _ _ _ _ _ _ _ _ _ _ _)

/-- The wait for tokens is over; nothing else of the queue changes. -/
theorem tokenEnd_queue (s : State) (c n e : Nat) : (s.tokenEnd c n e).queue n e = { s.queue n e with tokSince := none } := by
  unfold State.tokenEnd
  dsimp only
  split
  · next h => rw [← h]
  · rw [State.queue_of_queues e (State.queues_waitEnd _ _ _ _ _ _ _ _ _ _ _ _), State.queue_setQueue_self]

theorem CR.ctxNow {s t : State} (h : CR s t) (c : Nat) : t.ctxNow c = s.ctxNow c := by obtain ⟨_, _, rfl⟩ := h; rfl

/-- Issuing: what comes before the queue goes past the record changes cores and rings alone, and of the queue only the wait for tokens. -/
theorem CR.pre (s : State) (c core e : Nat) (ws : List W64) :
    ∃ v, CR s v ∧ v.queue core e = { s.queue core e with tokSince := none } ∧ (s.issueRec c core e ws).1 = v.modQueue core e (fun q =>
    { q.pass (1 + min (recExt ws) 2) with
        flight := q.flight ++ [{ id := q.serial, slot := q.next, opc := recOpc ws, words := ws, start := v.ctxNow c }]
        serial := q.serial + 1, stepArm := false, cur := ws.take 8,
        blockId := q.serial, blockStart := if recOpc ws = 3 then q.ordSince.getD (v.ctxNow c) else v.ctxNow c, ordSince := none }) := by
  have h2 : ∀ (u : State) (b : Bool) (now kind w : Nat), ((if b then u.modCore core (fun k => k.traceRec now c e kind w) else u).core core).queues = (u.core core).queues := by
    intro u b now kind w
    split
    · rw [State.core_modCore_self, Core.queues_traceRec]
    · rfl
  have h5 : ∀ u : State, CR u (if recOpc ws = 5 then u else u.modCore core (fun k => k.takeTokens (recConsumes ws))) ∧
      ((if recOpc ws = 5 then u else u.modCore core (fun k => k.takeTokens (recConsumes ws))).core core).queues = (u.core core).queues := by
    intro u
    split
    · exact ⟨CR.refl _, rfl⟩
    · exact ⟨⟨_, _, rfl⟩, by rw [State.core_modCore_self]; rfl⟩
  refine ⟨_, ?_, ?_, rfl⟩
  · dsimp only
    refine CR.trans ?_ (CR.ite _ _ _)
    refine CR.trans ?_ (⟨_, _, rfl⟩ : CR _ (State.tail _ _ _ _ _ _ _ _))
    refine CR.trans ?_ (⟨_, _, rfl⟩ : CR _ (State.modCore _ _ _))
    refine CR.trans ?_ (h5 _).1
    refine CR.trans ?_ (⟨_, _, rfl⟩ : CR _ (State.modCore _ _ _))
    exact CR.tokenEnd _ _ _ _
  · refine (State.queue_of_queues e ?_).trans (tokenEnd_queue s c core e)
    dsimp only
    rw [h2, State.core_tail, State.core_modCore_self, Core.queues_count, Core.queues_latch, (h5 _).2, State.core_modCore_self]
    show (Core.atIssue _ e).queues = _
    rw [Core.queues_atIssue]

theorem issue_cr (s : State) (c core e : Nat) (ws : List W64) : CR s (s.issueRec c core e ws).1 := by
  obtain ⟨v, h, _, e⟩ := CR.pre s c core e ws
  rw [e]; exact h.trans ⟨_, _, rfl⟩

theorem issue_queue (s : State) (c core e : Nat) (ws : List W64) : ((s.issueRec c core e ws).1).queue core e = issuedQueue s core e c ws := by
  obtain ⟨v, h, hq, he⟩ := CR.pre s c core e ws
  rw [he, show ∀ (u : State) (f : Queue → Queue), (u.modQueue core e f).queue core e = f (u.queue core e) from fun u f => State.queue_setQueue_self _ _ _ _,
    h.ctxNow, hq]
  rfl

theorem issue_info (s : State) (c core e : Nat) (ws : List W64) :
    (s.issueRec c core e ws).2 = { c := c, core := core, e := e, slot := (s.queue core e).next, id := (s.queue core e).serial, ws := ws } := rfl

/-- Frames give the claim's form. -/
theorem becomes_frame {n : Nat} {s t : State} (h : CoreFrame n s t) : RecBecomes n s t (s.core n) :=
  ⟨h.same, h.other, h.htall, h.hunits, h.keep⟩

theorem issue_frame (s : State) (c n e : Nat) (ws : List W64) : CoreFrame n s (s.issueRec c n e ws).1 := CoreFrame.issueRec _ _ _ _ _

theorem issue_writes (s : State) (c core e : Nat) (ws : List W64) (h : (s.queue core e).crecBase = 0 ∨ (s.core core).dbg.writes.length + 1 < 16) :
    (((s.issueRec c core e ws).1).core core).crecFull e = false := by
  unfold Core.crecFull
  have hq := issue_queue s c core e ws
  unfold State.queue at hq
  rw [hq]
  rcases h with h | h
  · rw [show (issuedQueue s core e c ws).crecBase = (s.queue core e).crecBase from rfl, h]; rfl
  · rw [decide_eq_false]
    · simp
    · have hat : ∀ k : Core, (k.atIssue e).dbg.writes = k.dbg.writes := by
        intro k; unfold Core.atIssue; dsimp only; repeat' (first | rfl | split)
      have hw : ∀ (k : Core) (now cc e' : Nat) (en : Bool) (o sl : Nat), (k.latch now cc e' en o sl).dbg.writes.length ≤ k.dbg.writes.length + 1 := by
        intro k now cc e' en o sl
        have h0 : k.countErrors.dbg.writes = k.dbg.writes := by
          unfold Core.countErrors
          dsimp only
          rw [Core.writes_count, Core.writes_count, Core.writes_count]
        unfold Core.latch
        dsimp only
        split
        · dsimp only; rw [h0]; omega
        · dsimp only; rw [List.length_append, h0]; simp
      have h2 : ∀ (u : State) (b : Bool) (now kind w : Nat), ((if b then u.modCore core (fun k => k.traceRec now c e kind w) else u).core core).dbg.writes = (u.core core).dbg.writes := by
        intro u b now kind w
        split
        · rw [State.core_modCore_self, Core.writes_traceRec]
        · rfl
      unfold State.issueRec
      dsimp only
      rw [show ∀ (u : State) (f : Queue → Queue), ((u.modQueue core e f).core core).dbg = (u.core core).dbg from fun u f => by
        show ((u.setQueue core e _).core core).dbg = _
        unfold State.setQueue; rw [State.core_setCore_self]; rfl]
      rw [h2, State.core_tail, State.core_modCore_self, Core.writes_count]
      have key : ∀ u : State, (u.core core).dbg.writes.length ≤ (s.core core).dbg.writes.length →
          (((u.core core).latch u.now c e false (recOpc ws) (s.queue core e).next).dbg.writes.length) ≤ (s.core core).dbg.writes.length + 1 := by
        intro u hu; have := hw (u.core core) u.now c e false (recOpc ws) (s.queue core e).next; omega
      have hle : ∀ u : State, ((u.core core).dbg.writes.length ≤ (s.core core).dbg.writes.length) → ∀ v : State, (v.core core).dbg.writes = (u.core core).dbg.writes → (v.core core).dbg.writes.length ≤ (s.core core).dbg.writes.length := by
        intro u hu v hv; rw [hv]; exact hu
      refine Nat.not_le.2 (Nat.lt_of_le_of_lt (key _ ?_) h)
      have h5 : ∀ u : State, ((if recOpc ws = 5 then u else u.modCore core (fun k => k.takeTokens (recConsumes ws))).core core).dbg.writes = (u.core core).dbg.writes := by
        intro u
        split
        · rfl
        · rw [State.core_modCore_self]; rfl
      rw [h5, State.core_modCore_self]
      show (Core.atIssue _ e).dbg.writes.length ≤ _
      rw [hat]
      unfold State.tokenEnd
      dsimp only
      split
      · exact Nat.le_refl _
      · exact Nat.le_of_eq (by rw [State.writes_waitEnd]; unfold State.setQueue; rw [State.core_setCore_self]; rfl)

theorem issue_ctx (s : State) (c core e : Nat) (ws : List W64) (h : (s.core core).ctx = some c) : (((s.issueRec c core e ws).1).core core).ctx = some c := by
  obtain ⟨_, _, _, _, _, _, hk⟩ := (issue_frame s c core e ws).keep
  rw [hk]; exact h

theorem issued_find {s : State} {core e c : Nat} {ws : List W64} (h : ∀ f ∈ (s.queue core e).flight, f.id ≠ (s.queue core e).serial) :
    (issuedQueue s core e c ws).flight.find? (fun f => f.id == (s.queue core e).serial) = some (newFlight s core e c ws) := by
  show ((s.queue core e).flight ++ [newFlight s core e c ws]).find? _ = _
  rw [List.find?_append, List.find?_eq_none.2]
  · simp [newFlight]
  · intro f hf; simpa using h f hf

theorem issued_find' (s : State) (core e c : Nat) (ws : List W64) :
    ∃ fl, (issuedQueue s core e c ws).flight.find? (fun f => f.id == (s.queue core e).serial) = some fl := by
  show ∃ fl, ((s.queue core e).flight ++ [newFlight s core e c ws]).find? _ = some fl
  rw [List.find?_append]
  cases hh : (s.queue core e).flight.find? (fun f => f.id == (s.queue core e).serial) with
  | some fl => exact ⟨fl, rfl⟩
  | none => exact ⟨newFlight s core e c ws, by simp [newFlight]⟩

/-- A record retires at the end of a chain of changes that leave its queue. -/
theorem retire_issued {s u : State} {core e c : Nat} {q : Queue} {id : Nat} (hc : (u.core core).ctx = some c) (hq : u.queue core e = q)
    (hf : ∃ fl, q.flight.find? (fun f => f.id == id) = some fl) (hw : (u.core core).crecFull e = false) :
    Retired q ((u.retire core e id).queue core e) id := by
  obtain ⟨fl, hf⟩ := hf
  obtain ⟨hd, h⟩ := State.queue_retire u core e id fl hc (by rw [hq]; exact hf) hw
  exact ⟨hd, by rw [h, hq]⟩

theorem RecIssues.room {s : State} {core e opc c : Nat} {ws : List W64} (h : RecIssues s core e opc c ws) :
    (s.queue core e).crecBase = 0 ∨ (s.core core).dbg.writes.length + 1 < 16 := h.2.2.2.2.2.2.2.2.2.2.2.2.1
theorem RecIssues.ctx {s : State} {core e opc c : Nat} {ws : List W64} (h : RecIssues s core e opc c ws) : (s.core core).ctx = some c := (State.live_some h.2.2.1).1

/-- The issued record retires after changes that leave its queue, its core's context and the room for counter records. -/
theorem retire_after {s u : State} {core e opc c : Nat} {ws : List W64} (h : RecIssues s core e opc c ws)
    (hk : (u.core core).ctx = ((s.issueRec c core e ws).1.core core).ctx) (hq : (u.core core).queues = ((s.issueRec c core e ws).1.core core).queues)
    (hw : (u.core core).dbg.writes.length ≤ ((s.issueRec c core e ws).1.core core).dbg.writes.length) :
    Retired (issuedQueue s core e c ws) ((u.retire core e (s.queue core e).serial).queue core e) (s.queue core e).serial := by
  have hqq : u.queue core e = issuedQueue s core e c ws := (State.queue_of_queues e hq).trans (issue_queue s c core e ws)
  refine retire_issued (s := s) (hk.trans (issue_ctx s c core e ws h.ctx)) hqq (issued_find' s core e c ws) ?_
  have := issue_writes s c core e ws h.room
  unfold Core.crecFull at this ⊢
  unfold Core.queue at this ⊢
  rw [hq]
  cases hb : ((tblGet ({} : Queue) ((s.issueRec c core e ws).1.core core).queues e).crecBase != 0) with
  | false => rfl
  | true =>
    rw [hb] at this
    simp only [Bool.true_and, decide_eq_false_iff_not] at this ⊢
    omega

theorem becomes_keep {n : Nat} {s u t : State} {k : Core} (hk : CoreKeep k (t.core n)) (h : u = { s with cores := u.cores, net := u.net, hub := u.hub, ctxs := u.ctxs, dbg := u.dbg, rings := u.rings, draws := u.draws })
    (ho : ∀ m, m ≠ n → u.core m = s.core m) (h1 : u.hub.tallies = s.hub.tallies) (h2 : u.hub.units = s.hub.units) (hf : CoreFrame n u t) : RecBecomes n s t k :=
  ⟨hf.same.trans (by rw [h]), fun m hm => (hf.other m hm).trans (ho m hm), hf.htall.trans h1, hf.hunits.trans h2, hk⟩

/-- Issue, a change of the core, then a frame. -/
theorem becomes_mod {n e c : Nat} {ws : List W64} {s t : State} {f : Core → Core} (hf : ∀ k j, CoreKeep k j → CoreKeep (f k) (f j))
    (ht : CoreFrame n ((s.issueRec c n e ws).1.modCore n f) t) : RecBecomes n s t (f (s.core n)) := by
  have hi := issue_frame s c n e ws
  refine becomes_keep ?_ (u := (s.issueRec c n e ws).1.modCore n f) ?_ ?_ hi.htall hi.hunits ht
  · refine CoreKeep.trans (hf _ _ hi.keep) ?_
    have := ht.keep
    rw [State.core_modCore_self] at this
    exact this
  · show ({ (s.issueRec c n e ws).1 with cores := _ } : State) = _
    rw [hi.same]
    rfl
  · intro m hm
    rw [State.core_modCore_ne hm]
    exact hi.other m hm

theorem here_iff (h : Home) (n : Nat) : (¬ h.hub = true ∧ h.core = n) ↔ HomeHere h n := by
  unfold HomeHere; simp

theorem issue_tallyAt (s : State) (c core e : Nat) (ws : List W64) (h : Home) : ((s.issueRec c core e ws).1).tallyAt h = s.tallyAt h := by
  have hf := issue_frame s c core e ws
  unfold State.tallyAt
  rw [hf.htall]
  by_cases hc : h.core = core
  · rw [hc, hf.tslots]
  · rw [hf.other _ hc]

theorem issue_ctxs (s : State) (c core e : Nat) (ws : List W64) (x : Nat) : ((s.issueRec c core e ws).1).ctx x = s.ctx x := by
  obtain ⟨_, _, h⟩ := issue_cr s c core e ws; rw [h]; rfl
theorem issue_net (s : State) (c core e : Nat) (ws : List W64) : ((s.issueRec c core e ws).1).net = s.net := by
  obtain ⟨_, _, h⟩ := issue_cr s c core e ws; rw [h]

theorem modQueue_queue (x : State) (n e : Nat) (f : Queue → Queue) : (x.modQueue n e f).queue n e = f (x.queue n e) := State.queue_setQueue_self _ _ _ _
theorem modQueue_dbg (x : State) (n e : Nat) (f : Queue → Queue) : ((x.modQueue n e f).core n).dbg = (x.core n).dbg := by
  show ((x.setQueue n e _).core n).dbg = _
  unfold State.setQueue; rw [State.core_setCore_self]; rfl
theorem modQueue_ctx (x : State) (n e : Nat) (f : Queue → Queue) : ((x.modQueue n e f).core n).ctx = (x.core n).ctx := by
  show ((x.setQueue n e _).core n).ctx = _
  unfold State.setQueue; rw [State.core_setCore_self]; rfl
theorem modQueue_full (x : State) (n e : Nat) (f : Queue → Queue) (h : (f (x.queue n e)).crecBase = (x.queue n e).crecBase) :
    ((x.modQueue n e f).core n).crecFull e = (x.core n).crecFull e := by
  unfold Core.crecFull
  have h1 : ((x.modQueue n e f).core n).queue e = f (x.queue n e) := modQueue_queue x n e f
  rw [h1, modQueue_dbg, h]
  rfl

/-- The record, its queue changed first, retires. -/
theorem retire_mod {u : State} {core e c id : Nat} {q : Queue} (f : Queue → Queue) (hc : (u.core core).ctx = some c) (hq : u.queue core e = q)
    (hb : (f q).crecBase = q.crecBase) (hf : ∃ fl, (f q).flight.find? (fun g => g.id == id) = some fl) (hw : (u.core core).crecFull e = false) :
    Retired (f q) (((u.modQueue core e f).retire core e id).queue core e) id := by
  refine retire_issued (s := u) (by rw [modQueue_ctx]; exact hc) (by rw [modQueue_queue, hq]) hf ?_
  rw [modQueue_full _ _ _ _ (by rw [hq]; exact hb)]
  exact hw

theorem release_off (fs : List Flight) (id : Nat) (fl : Flight) (h : ∀ f ∈ fs, f.id ≠ id) (hi : fl.id = id) (b : Bool) :
    (fs ++ [fl]).map (fun f => if f.id = id then { f with releasing := b } else f) = fs ++ [{ fl with releasing := b }] := by
  rw [List.map_append]
  congr 1
  · rw [List.map_congr_left (g := fun f => f) (fun f hf => if_neg (h f hf)), List.map_id']
  · simp [hi]

theorem raise_net (s : State) (c : Nat) (f : FaultRec) : (s.raise c f).net = s.net := by
  unfold State.raise; dsimp only; repeat' (first | rfl | split)

theorem addToken_net (s : State) (c n cls qid slot : Nat) : (s.addToken c n cls qid slot).net = s.net := by
  unfold State.addToken
  dsimp only
  repeat' split
  · show (State.raise _ _ _).net = _; exact raise_net _ _ _
  · show (State.raise _ _ _).net = _; exact raise_net _ _ _
  · rfl

theorem produceToken_net (s : State) (c n e slot cls : Nat) : (s.produceToken c n e slot cls).net.tally = s.net.tally := by
  unfold State.produceToken
  dsimp only
  split
  · rw [addToken_net]
  · rfl

theorem retireNow_tally (s : State) (n e : Nat) (fl : Flight) : ∃ post, (s.retireNow n e fl).net.tally = s.net.tally ++ post := by
  unfold State.retireNow
  split
  · exact ⟨[], by simp⟩
  · have hm : ∀ u : State, (u.moveHead n e).net = u.net := by
      intro u; unfold State.moveHead; dsimp only; split <;> rfl
    have hfold : ∀ (xs : List Nat) (u : State) (c : Nat), (xs.foldl (fun t cls => t.produceToken c n e fl.slot cls) u).net.tally = u.net.tally := by
      intro xs
      induction xs with
      | nil => intro u c; rfl
      | cons x xs ih => intro u c; rw [List.foldl_cons, ih, produceToken_net]
    have h3 : ∀ (u : State) (c : Nat), (if fl.opc = 5 then u else (recProduces fl.words).foldl (fun t cls => t.produceToken c n e fl.slot cls) u).net.tally = u.net.tally := by
      intro u c
      split
      · rfl
      · exact hfold _ _ _
    have h4 : ∀ (u : State) (c : Nat), ∃ post, (if fl.opc = 5 then u else match recTally fl.words with
        | none => u
        | some vid => match (u.ctx c).home vid with
          | none => u
          | some h => u.sendTally { ctx := c, vid := vid, home := h, src := ⟨n, 16 + e⟩, act := .add 1, qid := 4 * n + e, slot := fl.slot }).net.tally = u.net.tally ++ post := by
      intro u c
      split
      · exact ⟨[], by simp⟩
      · split
        · exact ⟨[], by simp⟩
        · split
          · exact ⟨[], by simp⟩
          · exact ⟨_, rfl⟩
    have h2 : ∀ (u : State) (b : Bool) (now c kind w : Nat), (if b then u.modCore n (fun k => k.traceRec now c e kind w) else u).net = u.net := by
      intro u b now c kind w; split <;> rfl
    dsimp only
    rw [hm]
    have key : ∀ (u : State) (c : Nat), u.net.tally = s.net.tally → ∃ post, (if fl.opc = 5 then u else match recTally fl.words with
        | none => u
        | some vid => match (u.ctx c).home vid with
          | none => u
          | some h => u.sendTally { ctx := c, vid := vid, home := h, src := ⟨n, 16 + e⟩, act := .add 1, qid := 4 * n + e, slot := fl.slot }).net.tally = s.net.tally ++ post := by
      intro u c hu; rw [← hu]; exact h4 u c
    refine key _ _ ?_
    rw [h3, h2]
    rfl

theorem retire_tally (s : State) (n e id : Nat) : ∃ post, (s.retire n e id).net.tally = s.net.tally ++ post := by
  unfold State.retire
  dsimp only
  split
  · exact ⟨[], by simp⟩
  · split
    · exact ⟨[], by rw [List.append_nil]; rfl⟩
    · exact retireNow_tally _ _ _ _

/-- A loop is entered, and its record retires. -/
theorem enter_loop {s u : State} {core e c id n : Nat} {fl : Flight} {q : Queue} (hf : CoreFrame core s u) (hc : (u.core core).ctx = some c) (hq : u.queue core e = q)
    (hfl : q.flight.find? (fun f => f.id == id) = some fl) (hw : (u.core core).crecFull e = false) :
    CoreFrame core s (u.enterLoop core e id n) ∧
    (n = 0 → Retired ({ q with block := .none }.pass (wbits fl.words 1 5 0)) ((u.enterLoop core e id n).queue core e) id) ∧
    (n ≠ 0 → Retired { q with block := .none, loops := { first := q.next, stop := (q.next + wbits fl.words 1 5 0) % q.size, left := n, count := n } :: q.loops } ((u.enterLoop core e id n).queue core e) id) := by
  have he : u.enterLoop core e id n = (u.modQueue core e (fun x => x.enter (wbits fl.words 1 5 0) n)).retire core e id := by
    unfold State.enterLoop State.modQueue
    dsimp only
    rw [hq, hfl]
  rw [he]
  refine ⟨(hf.trans (CoreFrame.modQueue _ _ _ _)).trans (CoreFrame.retire _ _ _ _), fun h0 => ?_, fun h0 => ?_⟩
  · have hx : q.enter (wbits fl.words 1 5 0) n = { q with block := .none }.pass (wbits fl.words 1 5 0) := by
      unfold Queue.enter; rw [if_pos h0]
    have := retire_mod (u := u) (id := id) (q := q) (fun x => x.enter (wbits fl.words 1 5 0) n) hc hq (by rw [hx]; rfl) ⟨fl, by rw [hx]; exact hfl⟩ hw
    rw [hx] at this
    exact this
  · have hx : q.enter (wbits fl.words 1 5 0) n = { q with block := .none, loops := { first := q.next, stop := (q.next + wbits fl.words 1 5 0) % q.size, left := n, count := n } :: q.loops } := by
      unfold Queue.enter; rw [if_neg h0]
    have := retire_mod (u := u) (id := id) (q := q) (fun x => x.enter (wbits fl.words 1 5 0) n) hc hq (by rw [hx]) ⟨fl, by rw [hx]; exact hfl⟩ hw
    rw [hx] at this
    exact this

theorem block_none {q : Queue} (h : q.block = .none) : ({ q with block := .none } : Queue) = q := by rw [← h]

theorem count_state (s : State) (n code k : Nat) : ∃ d, s.count n code k = s.modCore n (fun j => { j with dbg := { j.dbg with counters := d } }) := by
  unfold State.count Core.count State.modCore
  dsimp only
  split
  · exact ⟨_, rfl⟩
  · exact ⟨_, rfl⟩

theorem range_getD (data : List Byte) (h : data.length = 512) : (List.range 512).map (fun i => data.getD i 0) = data := by
  apply List.ext_getElem
  · simp [h]
  · intro i h1 h2; simp [List.getD_eq_getElem?_getD, List.getElem?_eq_getElem h2]

theorem rehalt_same (s : State) (c : Nat) : ∃ x, s.rehalt c = { s with ctxs := x } := ⟨_, rfl⟩

theorem memReadN_ext {m : Mem} {a : Nat} {bs : List Byte} (h : ∀ i, i < bs.length → memRead m (a + i) = bs.getD i 0) : memReadN m a bs.length = bs := by
  induction bs generalizing a with
  | nil => rfl
  | cons b bs ih =>
    show memRead m a :: memReadN m (a + 1) bs.length = _
    rw [ih (fun i hi => ?_)]
    · have := h 0 (by simp)
      simp at this
      rw [this]
    · have := h (i + 1) (by simpa using hi)
      rw [show a + 1 + i = a + (i + 1) by omega, this]
      rfl

theorem flat_len (ws : List W64) : (ws.flatMap (fun x => leBytes 8 x.toNat)).length = 8 * ws.length := by
  induction ws with
  | nil => rfl
  | cons x t ih => rw [List.flatMap_cons, List.length_append, ih, leBytes_length, List.length_cons]; omega

theorem queue_setQueue_ne (s : State) (n e e' : Nat) (q : Queue) (h : e' ≠ e) : (s.setQueue n e q).queue n e' = s.queue n e' := by
  unfold State.queue State.setQueue Core.queue
  rw [State.core_setCore_self]
  exact tblGet_tblSet_ne _ h _ _

theorem settle_frame (s : State) (n : Nat) : CoreFrame n s (s.powerSettle n) := by
  unfold State.powerSettle
  exact CoreFrame.foldl (fun t e => CoreFrame.foldl (fun t f => CoreFrame.retire _ _ _ _) _) _

theorem one_bank : ∀ i, i < 32 → (List.range 32).filter (fun j => bitOf (2 ^ i) j) = [i] := by decide

theorem bankStep_done (i : Nat) (b : Slab) (h : ∀ w ∈ b.powerWaits, w.bank ≠ i) (n : Nat) : b.bankStep i n = b := by
  cases n with
  | zero => rfl
  | succ n =>
    unfold Slab.bankStep
    rw [List.find?_eq_none.2 (by intro w hw; simpa using h w hw)]

theorem bankStep_one (i : Nat) (b : Slab) (w : PowerWait) (h : b.powerWaits.filter (fun x => x.bank == i) = [w]) (n : Nat) :
    b.bankStep i (n + 1) =
      match tblGet .on b.banks i, w.on with
      | .on, true => { b with powerWaits := b.powerWaits.erase w }
      | .on, false => b.setBank i .draining
      | .off, false => { b with powerWaits := b.powerWaits.erase w }
      | .off, true => b.setBank i .waking
      | .draining, _ => b
      | .waking, _ => b := by
  have hf : b.powerWaits.find? (fun x => x.bank == i) = some w := by
    rw [← List.head?_filter, h]; rfl
  have hdone : ∀ n, ({ b with powerWaits := b.powerWaits.erase w } : Slab).bankStep i n = { b with powerWaits := b.powerWaits.erase w } := by
    intro n
    refine bankStep_done i _ ?_ n
    intro x hx hxi
    have hwm : w ∈ b.powerWaits := List.mem_of_find?_eq_some hf
    have h1 : (b.powerWaits.erase w).filter (fun x => x.bank == i) = [] := by
      have hc : ∀ l : List PowerWait, (l.filter (fun x => x.bank == i)).erase w = (l.erase w).filter (fun x => x.bank == i) := by
        intro l
        exact List.erase_filter
      rw [← hc, h]; simp
    have := List.filter_eq_nil_iff.1 h1 x hx
    simp [hxi] at this
  unfold Slab.bankStep
  rw [hf]
  dsimp only
  rw [hdone n]
  all_goals (cases tblGet .on b.banks i <;> cases w.on <;> rfl)

/-- A change of the core, then a frame. -/
theorem becomes_core {n : Nat} {s t : State} {f : Core → Core} (ht : CoreFrame n (s.modCore n f) t) : RecBecomes n s t (f (s.core n)) := by
  refine becomes_keep ?_ (u := s.modCore n f) rfl (fun m hm => State.core_modCore_ne hm _ _) rfl rfl ht
  have := ht.keep
  rw [State.core_modCore_self] at this
  exact this

theorem stepBank_slab (s : State) (n i : Nat) (f : Core → Core) : ((s.modCore n f).stepBank n i) = s.modCore n (fun k => { f k with slab := (f k).slab.bankStep i ((f k).slab.powerWaits.length + 1) }) := by
  unfold State.stepBank State.modSlab
  rw [State.modCore_modCore]

/-- An array with nothing left to do does nothing. -/
theorem pumpMe_none {s : State} {n : Nat} (h : (s.core n).me.events = []) : s.pumpMe n = s := by
  unfold State.pumpMe
  split
  · rfl
  · exact if_pos h

theorem memRead_filter (p : Nat → Bool) (m : Mem) (a : Nat) : memRead (m.filter (fun x => p x.1)) a = if p a then memRead m a else 0 := by
  induction m with
  | nil => simp [memRead]
  | cons x t ih =>
    obtain ⟨k, v⟩ := x
    rw [List.filter_cons]
    dsimp only
    cases hk : p k with
    | true =>
      rw [if_pos rfl]
      unfold memRead
      by_cases hka : k = a
      · rw [if_pos hka, if_pos hka, ← hka, hk]; simp
      · rw [if_neg hka, if_neg hka, ih]
    | false =>
      rw [if_neg (by simp), ih]
      by_cases hka : k = a
      · rw [← hka, hk]; simp
      · rw [show memRead ((k, v) :: t) a = memRead t a by unfold memRead; rw [if_neg hka]; cases t <;> rfl]

end Sys2Proof.Claims
end

