-- ==== Sys2Proof/Laws/OfMatrix.lean ====
section
/-!
SUPPORT. Lemmas about the matrix engine, for the proofs of the statements: what their operations do, step by step.
-/

namespace Sys2Proof.Claims

open Machine

theorem gangMatrix_any (i : GangAt → MForm → Instr) (op : Nat) (he : ∀ g f s, exec (i g f) s = gangMatrix s g (i g f) op f) :
    ∀ (g : GangAt) (f : MForm) (s : State) (c : Nat), Issues s g (i g f) { vr := (matUse op f).1, vw := (matUse op f).2 } c →
    let x := s.gang g.core g.slot
    let k := s.core g.core
    ∃ t, exec (i g f) s = .next t ∧ CoreBecomes g.core s t
      { k.setGang g.slot { x with wait := .window, resume := g.next, heldV := x.heldV ++ (matUse op f).1, dueV := x.dueV ++ (matUse op f).2 } with
        me := { k.me with gangQueue := k.me.gangQueue ++ [({ slot := g.slot, op := op, form := f } : GangMat)] } } s.net := by
  intro g f s c ⟨h1, h2, h3, h4⟩ x k
  rw [he]
  unfold gangMatrix
  dsimp only
  rw [onGang_next _ _ h1 h2 h3 h4]
  refine ⟨_, rfl, ?_⟩
  have := becomes_of s g.core g.slot true (fun k => { (k.setGang g.slot { x with wait := .window, resume := g.next, heldV := x.heldV ++ (matUse op f).1, dueV := x.dueV ++ (matUse op f).2 }) with
    me := { k.me with gangQueue := k.me.gangQueue ++ [({ slot := g.slot, op := op, form := f } : GangMat)] } }) { k.setGang g.slot { x with wait := .window, resume := g.next, heldV := x.heldV ++ (matUse op f).1, dueV := x.dueV ++ (matUse op f).2 } with me := { k.me with gangQueue := k.me.gangQueue ++ [({ slot := g.slot, op := op, form := f } : GangMat)] } } s.net (by
      rintro k ⟨rv, rs, ct, rfl⟩; exact ⟨rv, rs, ct, rfl⟩)
  have e : ∀ (y : Gang) (F : MatrixEngine → MatrixEngine), ((s.issued g.core g.slot true).setGang g.core g.slot y).modMe g.core F =
      { (s.issued g.core g.slot true).modCore g.core (fun k => { (k.setGang g.slot y) with me := F k.me }) with net := s.net } := by
    intro y F
    have : (((s.issued g.core g.slot true).setGang g.core g.slot y).modMe g.core F) = (s.issued g.core g.slot true).modCore g.core (fun k => { (k.setGang g.slot y) with me := F k.me }) := by
      unfold State.modMe State.setGang State.modCore
      rw [State.core_setCore_self, State.setCore_setCore]
      rfl
    rw [this, ← (issued_parts s g.core g.slot true).2.1]
    rfl
  rw [e]
  exact this

theorem accAt_setAcc (me : MatrixEngine) (b e c b' e' c' v : Nat) :
    (me.setAcc b e c v).accAt b' e' c' = if accIdx b' e' c' = accIdx b e c then v % 2 ^ 32 else me.accAt b' e' c' := by
  unfold MatrixEngine.setAcc MatrixEngine.accAt
  split
  · next h => rw [h]; show (tblGet (0 : W32) (tblSet _ _ _) _).toNat = _; rw [tblGet_tblSet_self]; exact BitVec.toNat_ofNat _ _
  · next h => show (tblGet (0 : W32) (tblSet _ _ _) _).toNat = _; rw [tblGet_tblSet_ne _ h]

/-- A fold that sets the entries of one row, each from its old value. -/
theorem row_fold (bank e c0 : Nat) (F : Nat → Nat → Nat) (G : MatrixEngine → Nat → FFlags) (n : Nat) (me : MatrixEngine) :
    let r := (List.range n).foldl (fun (me : MatrixEngine) j => { me.setAcc bank e (c0 + j) (F j (me.accAt bank e (c0 + j))) with flags := G me j }) me
    r = { me with acc := r.acc, flags := r.flags } ∧
    (∀ j, j < n → r.accAt bank e (c0 + j) = F j (me.accAt bank e (c0 + j)) % 2 ^ 32) ∧
    (∀ b' e' c', (∀ j, j < n → accIdx b' e' c' ≠ accIdx bank e (c0 + j)) → r.accAt b' e' c' = me.accAt b' e' c') := by
  induction n with
  | zero => exact ⟨rfl, fun j h => absurd h (by omega), fun _ _ _ _ => rfl⟩
  | succ n ih =>
    intro r
    obtain ⟨h1, h2, h3⟩ := ih
    obtain ⟨q, hq⟩ : ∃ q, (List.range n).foldl (fun (me : MatrixEngine) j => { me.setAcc bank e (c0 + j) (F j (me.accAt bank e (c0 + j))) with flags := G me j }) me = q := ⟨_, rfl⟩
    rw [hq] at h1 h2 h3
    have hr : r = { q.setAcc bank e (c0 + n) (F n (q.accAt bank e (c0 + n))) with flags := G q n } := by
      show (List.range (n + 1)).foldl _ me = _
      rw [List.range_succ, List.foldl_append, hq]; rfl
    have hacc : ∀ b' e' c', r.accAt b' e' c' = if accIdx b' e' c' = accIdx bank e (c0 + n) then F n (q.accAt bank e (c0 + n)) % 2 ^ 32 else q.accAt b' e' c' := by
      intro b' e' c'; rw [hr]; exact accAt_setAcc _ _ _ _ _ _ _ _
    have hold : q.accAt bank e (c0 + n) = me.accAt bank e (c0 + n) := h3 _ _ _ (fun j hj => by unfold accIdx; omega)
    refine ⟨?_, fun j hj => ?_, fun b' e' c' hne => ?_⟩
    · rw [hr]; unfold MatrixEngine.setAcc; rw [h1]
    · rw [hacc]
      by_cases hjn : j = n
      · rw [hjn, if_pos rfl, hold]
      · rw [if_neg (by unfold accIdx; omega), h2 j (by omega)]
    · rw [hacc, if_neg (hne n (by omega)), h3 _ _ _ (fun j hj => hne j (by omega))]

/-- The same over the rows of a tile. -/
theorem tile_fold (bank e0 c0 n : Nat) (hn : c0 + n ≤ 64) (F : Nat → Nat → Nat → Nat) (G : MatrixEngine → Nat → Nat → FFlags) (m : Nat) (me : MatrixEngine) :
    let r := (List.range m).foldl (fun me i => (List.range n).foldl (fun (me : MatrixEngine) j =>
      { me.setAcc bank (e0 + i) (c0 + j) (F i j (me.accAt bank (e0 + i) (c0 + j))) with flags := G me i j }) me) me
    r = { me with acc := r.acc, flags := r.flags } ∧
    (∀ i, i < m → ∀ j, j < n → r.accAt bank (e0 + i) (c0 + j) = F i j (me.accAt bank (e0 + i) (c0 + j)) % 2 ^ 32) ∧
    (∀ b' e' c', (∀ i, i < m → ∀ j, j < n → accIdx b' e' c' ≠ accIdx bank (e0 + i) (c0 + j)) → r.accAt b' e' c' = me.accAt b' e' c') := by
  induction m with
  | zero => exact ⟨rfl, fun i h => absurd h (by omega), fun _ _ _ _ => rfl⟩
  | succ m ih =>
    intro r
    obtain ⟨h1, h2, h3⟩ := ih
    obtain ⟨q, hq⟩ : ∃ q, (List.range m).foldl (fun me i => (List.range n).foldl (fun (me : MatrixEngine) j =>
      { me.setAcc bank (e0 + i) (c0 + j) (F i j (me.accAt bank (e0 + i) (c0 + j))) with flags := G me i j }) me) me = q := ⟨_, rfl⟩
    rw [hq] at h1 h2 h3
    have hr : r = (List.range n).foldl (fun (me : MatrixEngine) j => { me.setAcc bank (e0 + m) (c0 + j) (F m j (me.accAt bank (e0 + m) (c0 + j))) with flags := G me m j }) q := by
      show (List.range (m + 1)).foldl _ me = _
      rw [List.range_succ, List.foldl_append, hq]; rfl
    obtain ⟨g1, g2, g3⟩ := row_fold bank (e0 + m) c0 (F m) (fun me j => G me m j) n q
    rw [← hr] at g1 g2 g3
    have hdis : ∀ i j j', i < m → j < n → j' < n → accIdx bank (e0 + i) (c0 + j) ≠ accIdx bank (e0 + m) (c0 + j') := by
      intro i j j' hi hj hj'; unfold accIdx; omega
    refine ⟨?_, fun i hi j hj => ?_, fun b' e' c' hne => ?_⟩
    · rw [g1, h1]
    · by_cases him : i = m
      · subst him
        rw [g2 j hj, h3 _ _ _ (fun i' hi' j' hj' => (hdis i' j' j hi' hj' hj).symm)]
      · rw [g3 _ _ _ (fun j' hj' => hdis i j j' (by omega) hj hj'), h2 i (by omega) j hj]
    · rw [g3 _ _ _ (fun j hj => hne m (by omega) j hj), h3 _ _ _ (fun i hi j hj => hne i (by omega) j hj)]

theorem idx_ne {bk e cl bank e' c' : Nat} (h : (bk, e, cl) ≠ (bank, e', c')) (h1 : cl < 64) (h2 : e < 128) (h3 : e' < 128) (h4 : c' < 64) : accIdx bk e cl ≠ accIdx bank e' c' := by
  intro he
  unfold accIdx at he
  apply h
  have a : cl = c' := by omega
  have b : bk * 128 + e = bank * 128 + e' := by omega
  have d : e = e' := by omega
  have f : bk = bank := by omega
  rw [a, d, f]

theorem clear_tile (me : MatrixEngine) (bank e0 c0 m n : Nat) (hn : c0 + n ≤ 64) (hm : e0 + m ≤ 128) :
    let r := me.clearTile bank e0 c0 m n
    r = { me with acc := r.acc, intBlocks := r.intBlocks } ∧ TileCleared me r bank e0 c0 m n := by
  intro r
  obtain ⟨q, hq⟩ : ∃ q, (List.range m).foldl (fun me i => (List.range n).foldl (fun me j => me.setAcc bank (e0 + i) (c0 + j) 0) me) me = q := ⟨_, rfl⟩
  have hfold : (fun (me : MatrixEngine) i => (List.range n).foldl (fun me j => me.setAcc bank (e0 + i) (c0 + j) 0) me) =
      (fun me i => (List.range n).foldl (fun (me : MatrixEngine) j => { me.setAcc bank (e0 + i) (c0 + j) ((fun _ _ _ => 0) i j (me.accAt bank (e0 + i) (c0 + j))) with flags := (fun (me : MatrixEngine) _ _ => me.flags) me i j }) me) := rfl
  rw [hfold] at hq
  obtain ⟨h1, h2, h3⟩ := tile_fold bank e0 c0 n hn (fun _ _ _ => 0) (fun (me : MatrixEngine) _ _ => me.flags) m me
  rw [hq] at h1 h2 h3
  have hr : r = q.setType false bank e0 c0 m n := by
    show MatrixEngine.setType _ false bank e0 c0 m n = _
    rw [hfold, hq]
  have hflag : q.flags = me.flags := by
    rw [← hq]
    have : ∀ (xs ys : List Nat) (me : MatrixEngine), (xs.foldl (fun me i => ys.foldl (fun (me : MatrixEngine) j => { me.setAcc bank (e0 + i) (c0 + j) ((fun _ _ _ => 0) i j (me.accAt bank (e0 + i) (c0 + j))) with flags := (fun (me : MatrixEngine) _ _ => me.flags) me i j }) me) me).flags = me.flags := by
      intro xs ys
      induction xs with
      | nil => intro me; rfl
      | cons x xs ih =>
        intro me
        rw [List.foldl_cons, ih]
        clear ih
        induction ys generalizing me with
        | nil => rfl
        | cons y ys ih2 => rw [List.foldl_cons, ih2]
    exact this _ _ _
  have hacc : ∀ b e c, r.accAt b e c = q.accAt b e c := by intro b e c; rw [hr]; rfl
  refine ⟨?_, fun i hi j hj => ?_, fun bk e cl hcl he hne => ?_⟩
  · rw [hr]
    unfold MatrixEngine.setType
    dsimp only
    rw [h1, hflag]
  · rw [hacc, h2 i hi j hj]
    all_goals rfl
  · rw [hacc, h3 _ _ _ (fun i hi j hj => idx_ne (hne i hi j hj) hcl he (by omega) (by omega))]

theorem pass_acc (me : MatrixEngine) (t : Tile) (hn : t.c0 + t.n ≤ 64) (p : Nat) (a b xa xb : Nat → Nat → Nat) :
    let r := me.pass t p a b xa xb
    (∃ A F B, r = { me with acc := A, flags := F, intBlocks := B }) ∧
    (∀ i, i < t.m → ∀ j, j < t.n → r.accAt t.bank (t.e0 + i) (t.c0 + j) =
      (passEntry t.fa t.fb (t.left p) (!t.acc && p == 0) (a i) (b j) (xa i) (xb j) (me.accAt t.bank (t.e0 + i) (t.c0 + j))).1 % 2 ^ 32) ∧
    (∀ b' e' c', (∀ i, i < t.m → ∀ j, j < t.n → accIdx b' e' c' ≠ accIdx t.bank (t.e0 + i) (t.c0 + j)) → r.accAt b' e' c' = me.accAt b' e' c') := by
  intro r
  obtain ⟨h1, h2, h3⟩ := tile_fold t.bank t.e0 t.c0 t.n hn (fun i j old => (passEntry t.fa t.fb (t.left p) (!t.acc && p == 0) (a i) (b j) (xa i) (xb j) old).1)
    (fun (me : MatrixEngine) i j => me.flags.or (passEntry t.fa t.fb (t.left p) (!t.acc && p == 0) (a i) (b j) (xa i) (xb j) (me.accAt t.bank (t.e0 + i) (t.c0 + j))).2) t.m me
  obtain ⟨q, hq⟩ : ∃ q, (List.range t.m).foldl (fun me i => (List.range t.n).foldl (fun (me : MatrixEngine) j =>
      { me.setAcc t.bank (t.e0 + i) (t.c0 + j) ((fun i j old => (passEntry t.fa t.fb (t.left p) (!t.acc && p == 0) (a i) (b j) (xa i) (xb j) old).1) i j (me.accAt t.bank (t.e0 + i) (t.c0 + j))) with
        flags := (fun (me : MatrixEngine) i j => me.flags.or (passEntry t.fa t.fb (t.left p) (!t.acc && p == 0) (a i) (b j) (xa i) (xb j) (me.accAt t.bank (t.e0 + i) (t.c0 + j))).2) me i j }) me) me = q := ⟨_, rfl⟩
  rw [hq] at h1 h2 h3
  have hr : r = q.setType (t.fa == 10) t.bank t.e0 t.c0 t.m t.n := by
    rw [← hq]; rfl
  have hacc : ∀ b e c, r.accAt b e c = q.accAt b e c := by intro b e c; rw [hr]; rfl
  refine ⟨?_, fun i hi j hj => by rw [hacc, h2 i hi j hj], fun b' e' c' hne => by rw [hacc, h3 _ _ _ hne]⟩
  refine ⟨q.acc, q.flags, r.intBlocks, ?_⟩
  rw [hr]
  unfold MatrixEngine.setType
  dsimp only
  rw [h1]

theorem passes_acc (t : Tile) (hn : t.c0 + t.n ≤ 64) (a b xa xb : Nat → Nat → Nat → Nat) (ps : List Nat) (me : MatrixEngine) :
    let r := ps.foldl (fun me p => me.pass t p (a p) (b p) (xa p) (xb p)) me
    (∃ A F B, r = { me with acc := A, flags := F, intBlocks := B }) ∧
    (∀ i, i < t.m → ∀ j, j < t.n → r.accAt t.bank (t.e0 + i) (t.c0 + j) =
      ps.foldl (fun v p => (passEntry t.fa t.fb (t.left p) (!t.acc && p == 0) (a p i) (b p j) (xa p i) (xb p j) v).1 % 2 ^ 32) (me.accAt t.bank (t.e0 + i) (t.c0 + j))) ∧
    (∀ b' e' c', (∀ i, i < t.m → ∀ j, j < t.n → accIdx b' e' c' ≠ accIdx t.bank (t.e0 + i) (t.c0 + j)) → r.accAt b' e' c' = me.accAt b' e' c') := by
  induction ps generalizing me with
  | nil => exact ⟨⟨_, _, _, rfl⟩, fun i _ j _ => rfl, fun _ _ _ _ => rfl⟩
  | cons p ps ih =>
    obtain ⟨g1, g2, g3⟩ := pass_acc me t hn p (a p) (b p) (xa p) (xb p)
    obtain ⟨h1, h2, h3⟩ := ih (me.pass t p (a p) (b p) (xa p) (xb p))
    intro r
    refine ⟨?_, fun i hi j hj => ?_, fun b' e' c' hne => ?_⟩
    · obtain ⟨A, F, B, h1⟩ := h1
      obtain ⟨A', F', B', g1⟩ := g1
      exact ⟨A, F, B, h1.trans (by rw [g1])⟩
    · refine (h2 i hi j hj).trans ?_
      rw [g2 i hi j hj]; rfl
    · exact (h3 _ _ _ hne).trans (g3 _ _ _ hne)

/-- What acceptance does before the instruction's own effect, and after. -/
theorem accept_before (u : State) (core : Nat) (w : GangWin) (rest : List GangMat) :
    ∃ d, ((u.modMe core (fun me => { me with gangQueue := rest, win := w })).count core 0x12 1) =
      u.modCore core (fun k => { k with me := { k.me with gangQueue := rest, win := w }, dbg := { k.dbg with counters := d } }) := by
  obtain ⟨d, h⟩ := count_state (u.modMe core (fun me => { me with gangQueue := rest, win := w })) core 0x12 1
  exact ⟨d, by rw [h]; unfold State.modMe; rw [State.modCore_modCore]⟩

theorem modGang_modCore (u : State) (core sl : Nat) (f : Core → Core) (g : Gang → Gang) (x : Gang) (hx : ((f (u.core core)).gang sl) = x) :
    (u.modCore core f).modGang core sl g = u.setCore core ((f (u.core core)).setGang sl (g x)) := by
  unfold State.modGang State.setGang State.gang
  rw [State.core_modCore_self, hx]
  show (u.setCore core _).setCore core _ = _
  rw [State.setCore_setCore]

theorem accept_eq {u s : State} {core now c : Nat} {q : GangMat} {rest : List GangMat} (hu : s.advanceTo now = u) (h : MatAccepts u core c q rest) :
    exec (.gangMatrixAccept core now) s = .next (
      let s1 := (u.modMe core (fun me => { me with gangQueue := rest, win := acceptedWin u core q })).count core 0x12 1
      let s2 := if q.op ≤ 1 then s1.gangProduct core q.slot (u.gang core q.slot) q.form (q.op == 0)
          else if q.op = 2 then s1.gangDrain core q.slot q.form
          else s1.modMe core (fun me => me.clearTile (accBank q.form.x) (accRow q.form.x) (accCol q.form.x) (mfM q.form) (mfN q.form))
      s2.modGang core q.slot (fun x => ({ x with heldV := [], dueV := [] } : Gang).wake)) := by
  obtain ⟨h1, h2, h3, h4, h5, h6, h7⟩ := h
  show execGangMatrixAccept core now s = _
  unfold execGangMatrixAccept
  rw [if_pos h1]
  dsimp only
  rw [hu, h2, show (u.me core).gangQueue = q :: rest from h3]
  dsimp only
  rw [if_neg (show ¬ ((!(u.me core).win.open_) = true ∨ u.cycleOf core < (u.me core).win.inputEnd ∨ (u.me core).win.close < u.cycleOf core + (matCycles (u.me core).degraded q.op q.form).1) by
    rw [show (u.me core).win.open_ = true from h4]
    rintro (h | h | h)
    · cases h
    · exact absurd h (Nat.not_lt.2 h5)
    · exact absurd h (Nat.not_lt.2 h6))]
  rw [if_neg (show ¬ (!granted (u.me core).win.grant q.op q.form) = true by rw [show granted (u.me core).win.grant q.op q.form = true from h7]; decide)]
  rw [show accBank (matCode q.op q.form) = (if q.op = 2 then accBank q.form.a else accBank q.form.x) by unfold matCode; split <;> rfl]
  rfl

theorem drain_fst (me : MatrixEngine) (prof fo bank e0 c0 m n : Nat) (bias : Nat → Option Nat) :
    (me.drain prof fo bank e0 c0 m n bias).1 = { me with draws := (me.drain prof fo bank e0 c0 m n bias).1.draws, flags := (me.drain prof fo bank e0 c0 m n bias).1.flags } := by
  unfold MatrixEngine.drain
  dsimp only
  generalize List.range m = is
  have : ∀ (p : Profile) (r : MatrixEngine × Drained), (is.foldl (fun (r : MatrixEngine × Drained) i =>
    let k := tblGet 0 r.1.draws prof
    let xs := (List.range n).map (fun j => (r.1.accAt bank (e0 + i) (c0 + j), r.1.isInt bank (e0 + i) (c0 + j)))
    let o := cvtEntry p fo c0 k xs bias
    ({ r.1 with draws := tblSet prof ((k + 1) % 2 ^ 32) r.1.draws, flags := r.1.flags.or o.2.2 }, r.2 ++ [(o.1, o.2.1)])) r).1 =
    { r.1 with draws := (is.foldl (fun (r : MatrixEngine × Drained) i =>
    let k := tblGet 0 r.1.draws prof
    let xs := (List.range n).map (fun j => (r.1.accAt bank (e0 + i) (c0 + j), r.1.isInt bank (e0 + i) (c0 + j)))
    let o := cvtEntry p fo c0 k xs bias
    ({ r.1 with draws := tblSet prof ((k + 1) % 2 ^ 32) r.1.draws, flags := r.1.flags.or o.2.2 }, r.2 ++ [(o.1, o.2.1)])) r).1.draws, flags := (is.foldl (fun (r : MatrixEngine × Drained) i =>
    let k := tblGet 0 r.1.draws prof
    let xs := (List.range n).map (fun j => (r.1.accAt bank (e0 + i) (c0 + j), r.1.isInt bank (e0 + i) (c0 + j)))
    let o := cvtEntry p fo c0 k xs bias
    ({ r.1 with draws := tblSet prof ((k + 1) % 2 ^ 32) r.1.draws, flags := r.1.flags.or o.2.2 }, r.2 ++ [(o.1, o.2.1)])) r).1.flags } := by
    intro p
    induction is with
    | nil => intro r; rfl
    | cons i is ih => intro r; simp only [List.foldl_cons]; rw [ih]
  exact this _ _

theorem meIdle_of {s : State} {core e : Nat} (h1 : (s.queue core e).flight = []) : s.meIdle core e = true := by
  unfold State.meIdle; rw [h1]; rfl

/-- Issue, a change of the core, retirement. -/
theorem rec_change {s : State} {core e opc c : Nat} {ws : List W64} (h : RecIssues s core e opc c ws) (f : Core → Core)
    (hf : ∀ k j, CoreKeep k j → CoreKeep (f k) (f j)) (h1 : ∀ k, (f k).ctx = k.ctx) (h2 : ∀ k, (f k).queues = k.queues) (h3 : ∀ k, (f k).dbg.writes = k.dbg.writes) :
    RecBecomes core s (((s.issueRec c core e ws).1.modCore core f).retire core e (s.queue core e).serial) (f (s.core core)) ∧
    Retired (issuedQueue s core e c ws) ((((s.issueRec c core e ws).1.modCore core f).retire core e (s.queue core e).serial).queue core e) (s.queue core e).serial := by
  refine ⟨becomes_mod hf (CoreFrame.retire _ _ _ _), retire_after h ?_ ?_ ?_⟩
  · rw [State.core_modCore_self, h1]
  · rw [State.core_modCore_self, h2]
  · exact Nat.le_of_eq (by rw [State.core_modCore_self, h3])

theorem write_banks (b : Slab) (u o : Nat) (bs : List Byte) : (b.write u o bs).1.banks = b.banks ∧ (b.write u o bs).1.powerWaits = b.powerWaits := by
  have ht : ∀ (b : Slab) (cw : Nat), (b.touch cw).1.banks = b.banks ∧ (b.touch cw).1.powerWaits = b.powerWaits := by
    intro b cw
    have hn : ∀ ue, (b.note cw ue).banks = b.banks ∧ (b.note cw ue).powerWaits = b.powerWaits := by
      intro ue; unfold Slab.note; dsimp only; repeat' (first | exact ⟨rfl, rfl⟩ | split)
    unfold Slab.touch
    split
    · exact ⟨rfl, rfl⟩
    · exact hn _
    · dsimp only
      split
      · exact hn _
      · exact hn _
  have hf : ∀ (cs : List Nat) (p : Slab × Bool), ((cs.foldl (fun (p : Slab × Bool) i => let q := p.1.touch (8 * u + i); (q.1, p.2 && q.2)) p).1).banks = p.1.banks ∧
      ((cs.foldl (fun (p : Slab × Bool) i => let q := p.1.touch (8 * u + i); (q.1, p.2 && q.2)) p).1).powerWaits = p.1.powerWaits := by
    intro cs
    induction cs with
    | nil => intro p; exact ⟨rfl, rfl⟩
    | cons x xs ih =>
      intro p
      rw [List.foldl_cons]
      exact ⟨(ih _).1.trans (ht _ _).1, (ih _).2.trans (ht _ _).2⟩
  unfold Slab.write
  dsimp only
  split
  · exact hf _ _
  · exact hf _ _

/-- From s to t only core n changes, to k but for its event counters. -/
def CoreIs (n : Nat) (s t : State) (k : Core) : Prop :=
  (∃ cs, t = { s with cores := cs }) ∧ (∀ m, m ≠ n → t.core m = s.core m) ∧ ∃ d, t.core n = { k with dbg := { k.dbg with counters := d } }

theorem CoreIs.refl (n : Nat) (s : State) : CoreIs n s s (s.core n) := ⟨⟨_, rfl⟩, fun _ _ => rfl, _, rfl⟩
theorem CoreIs.mod (n : Nat) (s : State) (f : Core → Core) : CoreIs n s (s.modCore n f) (f (s.core n)) :=
  ⟨⟨_, rfl⟩, fun _ h => State.core_modCore_ne h _ _, _, by rw [State.core_modCore_self]⟩
theorem CoreIs.trans {n : Nat} {s t u : State} {k : Core} {f : Core → Core} (hf : ∀ k d, ∃ d', f { k with dbg := { k.dbg with counters := d } } = { f k with dbg := { (f k).dbg with counters := d' } })
    (a : CoreIs n s t k) (b : CoreIs n t u (f (t.core n))) : CoreIs n s u (f k) := by
  obtain ⟨⟨_, rfl⟩, a2, d, a3⟩ := a
  obtain ⟨⟨_, rfl⟩, b2, d2, b3⟩ := b
  refine ⟨⟨_, rfl⟩, fun m hm => (b2 m hm).trans (a2 m hm), ?_⟩
  obtain ⟨d', h⟩ := hf k d
  exact ⟨d2, by rw [b3, a3, h]⟩
theorem CoreIs.count {n : Nat} {s t : State} {k : Core} (a : CoreIs n s t k) (code m : Nat) : CoreIs n s (t.count n code m) k := by
  obtain ⟨d, h⟩ := count_state t n code m
  rw [h]
  obtain ⟨⟨_, rfl⟩, a2, d0, a3⟩ := a
  refine ⟨⟨_, rfl⟩, fun m hm => (State.core_modCore_ne hm _ _).trans (a2 m hm), d, ?_⟩
  rw [State.core_modCore_self, a3]

/-- A change of slab memory or of the array after the others. -/
theorem CoreIs.slab {n : Nat} {s t : State} {k : Core} (a : CoreIs n s t k) (f : Slab → Slab) : CoreIs n s (t.modSlab n f) { k with slab := f k.slab } :=
  CoreIs.trans (f := fun k => { k with slab := f k.slab }) (fun _ d => ⟨d, rfl⟩) a (CoreIs.mod n t (fun k => { k with slab := f k.slab }))
theorem CoreIs.me {n : Nat} {s t : State} {k : Core} (a : CoreIs n s t k) (f : MatrixEngine → MatrixEngine) : CoreIs n s (t.modMe n f) { k with me := f k.me } :=
  CoreIs.trans (f := fun k => { k with me := f k.me }) (fun _ d => ⟨d, rfl⟩) a (CoreIs.mod n t (fun k => { k with me := f k.me }))
theorem CoreIs.slabEq {n : Nat} {s t : State} {k : Core} (a : CoreIs n s t k) : (t.core n).slab = k.slab ∧ (t.core n).me = k.me ∧ (t.core n).queues = k.queues ∧ (t.core n).ctx = k.ctx ∧ (t.core n).dbg.writes = k.dbg.writes := by
  obtain ⟨_, _, d, h⟩ := a
  rw [h]
  exact ⟨rfl, rfl, rfl, rfl, rfl⟩

theorem putSlabs_on (core rec_ : Nat) (os : List (Nat × List Byte)) {s t : State} {k : Core} (a : CoreIs core s t k) (h : ∀ i, tblGet .on k.slab.banks i = .on) :
    CoreIs core s (t.putSlabs core rec_ os) { k with slab := os.foldl (fun b o => (b.write o.1 0 o.2).1) k.slab } := by
  induction os generalizing t k with
  | nil => exact a
  | cons o os ih =>
    have hb : (t.core core).slab.bank o.1 = .on := by rw [a.slabEq.1]; exact h _
    have hp : t.putSlab core o = ((t.modSlab core (fun b => (b.write o.1 0 o.2).1)).count core 0x1D 1, true) := by
      unfold State.putSlab; rw [hb]
    have hs : t.putSlabs core rec_ (o :: os) = ((t.modSlab core (fun b => (b.write o.1 0 o.2).1)).count core 0x1D 1).putSlabs core rec_ os := by
      unfold State.putSlabs
      rw [List.foldl_cons, hp]
      rfl
    rw [hs]
    exact ih ((a.slab _).count _ _) (by intro i; rw [(write_banks _ _ _ _).1]; exact h i)

/-- From a core that is k to a frame. -/
theorem becomes_is {n : Nat} {s u v t : State} {f : Core → Core} (hf : ∀ k j, CoreKeep k j → CoreKeep (f k) (f j)) (h1 : CoreFrame n s u) (h2 : CoreIs n u v (f (u.core n))) (h3 : CoreFrame n v t) :
    RecBecomes n s t (f (s.core n)) := by
  obtain ⟨⟨cs, hv⟩, ho, d, hk⟩ := h2
  refine becomes_keep (u := v) ?_ ?_ (fun m hm => (ho m hm).trans (h1.other m hm)) (by rw [hv]; exact h1.htall) (by rw [hv]; exact h1.hunits) h3
  · refine CoreKeep.trans (hf _ _ h1.keep) (CoreKeep.trans ?_ h3.keep)
    rw [hk]
    exact ⟨_, _, _, _, _, _, rfl⟩
  · rw [hv]
    show ({ u with cores := cs } : State) = _
    rw [h1.same]

theorem readSlabs_clean (core : Nat) (ix : List Nat) {s t : State} {k : Core} (a : CoreIs core s t k) (h : k.slab.bad = []) (bs : List Byte) :
    ∃ u, CoreIs core s u k ∧ (ix.foldl (fun (p : State × Option (List Byte)) i =>
    let r := (p.1.core core).slab.read i
    let t := (p.1.modSlab core (fun _ => r.1)).count core 0x1C 1
    (t, match p.2, r.2 with | some a, some b => some (a ++ b) | _, _ => none)) (t, some bs)) = (u, some (bs ++ ix.flatMap (fun i => memReadN k.slab.mem (512 * i) 512))) := by
  induction ix generalizing t bs with
  | nil => exact ⟨t, a, by simp⟩
  | cons i ix ih =>
    have hr : (t.core core).slab.read i = (k.slab, some (memReadN k.slab.mem (512 * i) 512)) := by
      rw [a.slabEq.1]
      exact slab_read_clean _ _ (fun _ _ => by rw [h]; rfl)
    have a2 : CoreIs core s ((t.modSlab core (fun _ => k.slab)).count core 0x1C 1) k := (a.slab (fun _ => k.slab)).count _ _
    obtain ⟨u, hu, he⟩ := ih a2 (bs ++ memReadN k.slab.mem (512 * i) 512)
    refine ⟨u, hu, ?_⟩
    rw [List.foldl_cons, hr]
    dsimp only
    rw [he, List.flatMap_cons, List.append_assoc]

/-- The array changes, but not its records, profiles, window and waiting instructions. -/
def MeKeep (m m' : MatrixEngine) : Prop := m'.run = m.run ∧ m'.profiles = m.profiles ∧ m'.win = m.win ∧ m'.gangQueue = m.gangQueue
theorem MeKeep.refl (m : MatrixEngine) : MeKeep m m := ⟨rfl, rfl, rfl, rfl⟩
theorem MeKeep.trans {a b c : MatrixEngine} (h : MeKeep a b) (g : MeKeep b c) : MeKeep a c :=
  ⟨g.1.trans h.1, g.2.1.trans h.2.1, g.2.2.1.trans h.2.2.1, g.2.2.2.trans h.2.2.2⟩
theorem MeKeep.foldl {α : Type} (f : MatrixEngine → α → MatrixEngine) (hf : ∀ m x, MeKeep m (f m x)) (xs : List α) (m : MatrixEngine) : MeKeep m (xs.foldl f m) := by
  induction xs generalizing m with
  | nil => exact MeKeep.refl m
  | cons x xs ih => exact (hf m x).trans (ih _)

theorem MeKeep.ite {p : Prop} [Decidable p] {m a b : MatrixEngine} (h1 : MeKeep m a) (h2 : MeKeep m b) : MeKeep m (if p then a else b) := by
  split
  · exact h1
  · exact h2

theorem run_keep (me : MatrixEngine) (t : Tile) (loose : Option Nat) (a b xa xb : Nat → Nat → Nat → Nat) : MeKeep me (me.run_ t loose a b xa xb) := by
  have hp : ∀ (m : MatrixEngine) (p : Nat), MeKeep m (m.pass t p (a p) (b p) (xa p) (xb p)) := by
    intro m p
    unfold MatrixEngine.pass
    dsimp only
    refine MeKeep.trans (MeKeep.foldl _ (fun m i => MeKeep.foldl _ (fun m j => ?_) _ _) _ _) (⟨rfl, rfl, rfl, rfl⟩ : MeKeep _ (MatrixEngine.setType _ _ _ _ _ _ _))
    exact ⟨rfl, rfl, rfl, rfl⟩
  unfold MatrixEngine.run_
  dsimp only
  split
  · exact MeKeep.foldl _ hp _ _
  · refine MeKeep.trans (b := (List.range t.passes).foldl (fun me p => me.pass t p (a p) (b p) (xa p) (xb p)) me) (MeKeep.foldl _ hp _ _) ?_
    unfold MatrixEngine.loosen
    split
    · exact MeKeep.refl _
    · refine MeKeep.foldl _ (fun m i => MeKeep.foldl _ (fun m j => ?_) _ _) _ _
      exact MeKeep.ite ⟨rfl, rfl, rfl, rfl⟩ (MeKeep.refl _)

theorem drain_keep (me : MatrixEngine) (prof fo bank e0 c0 m n : Nat) (bias : Nat → Option Nat) : MeKeep me (me.drain prof fo bank e0 c0 m n bias).1 := by
  rw [drain_fst]; exact ⟨rfl, rfl, rfl, rfl⟩

/-- What the fold of a MATMUL may change. -/
def MatStep (n : Nat) (s t : State) : Prop :=
  (∃ cs dr, t = { s with cores := cs, draws := dr }) ∧ (∀ m, m ≠ n → t.core m = s.core m) ∧
  ∃ me' sl' d, t.core n = { s.core n with me := me', slab := sl', dbg := { (s.core n).dbg with counters := d } } ∧ MeKeep (s.core n).me me' ∧
    sl'.bad = [] ∧ sl'.banks = (s.core n).slab.banks

theorem MatStep.refl {n : Nat} {s : State} (h : (s.core n).slab.bad = []) : MatStep n s s :=
  ⟨⟨_, _, rfl⟩, fun _ _ => rfl, _, _, _, rfl, MeKeep.refl _, h, rfl⟩
theorem MatStep.bad {n : Nat} {s t : State} (h : MatStep n s t) : (t.core n).slab.bad = [] := by
  obtain ⟨_, _, _, _, _, e, _, b, _⟩ := h; rw [e]; exact b
theorem MatStep.banks {n : Nat} {s t : State} (h : MatStep n s t) : (t.core n).slab.banks = (s.core n).slab.banks := by
  obtain ⟨_, _, _, _, _, e, _, _, b⟩ := h; rw [e]; exact b
theorem MatStep.keep {n : Nat} {s t : State} (h : MatStep n s t) : MeKeep (s.core n).me (t.core n).me := by
  obtain ⟨_, _, _, _, _, e, b, _⟩ := h; rw [e]; exact b
theorem MatStep.trans {n : Nat} {s t u : State} (a : MatStep n s t) (b : MatStep n t u) : MatStep n s u := by
  have hk := a.keep.trans b.keep
  have hb := b.banks.trans a.banks
  obtain ⟨⟨_, _, e1⟩, a2, m1, s1, d1, a3, _⟩ := a
  obtain ⟨⟨_, _, e2⟩, b2, m2, s2, d2, b3, _, b5, _⟩ := b
  have e3 : u.core n = { s.core n with me := m2, slab := s2, dbg := { (s.core n).dbg with counters := d2 } } := by rw [b3, a3]
  refine ⟨⟨_, _, by rw [e2, e1]⟩, fun m hm => (b2 m hm).trans (a2 m hm), m2, s2, d2, e3, ?_, b5, ?_⟩
  · rw [e3] at hk; exact hk
  · rw [e3] at hb; exact hb
theorem MatStep.draw {n : Nat} {s t : State} (h : MatStep n s t) : MatStep n s t.draw.2 := by
  obtain ⟨⟨_, _, e⟩, h2⟩ := h
  exact ⟨⟨_, _, by rw [e]; rfl⟩, h2⟩
theorem MatStep.of_is {n : Nat} {s t : State} {k : Core} (a : CoreIs n s t k) (hk : ∃ me' sl', k = { s.core n with me := me', slab := sl' } ∧ MeKeep (s.core n).me me' ∧ sl'.bad = [] ∧ sl'.banks = (s.core n).slab.banks) : MatStep n s t := by
  obtain ⟨⟨cs, e⟩, a2, d, a3⟩ := a
  obtain ⟨me', sl', rfl, h1, h2, h3⟩ := hk
  exact ⟨⟨cs, s.draws, by rw [e]⟩, a2, me', sl', d, a3, h1, h2, h3⟩
theorem MatStep.modMe {n : Nat} {s : State} (h : (s.core n).slab.bad = []) (f : MatrixEngine → MatrixEngine) (hf : MeKeep (s.core n).me (f (s.core n).me)) : MatStep n s (s.modMe n f) :=
  MatStep.of_is ((CoreIs.refl n s).me f) ⟨_, _, rfl, hf, h, rfl⟩
theorem MatStep.count {n : Nat} {s : State} (h : (s.core n).slab.bad = []) (code m : Nat) : MatStep n s (s.count n code m) :=
  MatStep.of_is ((CoreIs.refl n s).count code m) ⟨_, _, rfl, MeKeep.refl _, h, rfl⟩

theorem matstep_reads {n : Nat} {s : State} (h : (s.core n).slab.bad = []) (ix : List Nat) : ∃ t bs, s.readSlabs n ix = (t, some bs) ∧ MatStep n s t := by
  obtain ⟨u, hu, e⟩ := readSlabs_clean n ix (CoreIs.refl n s) h []
  exact ⟨u, _, e, MatStep.of_is hu ⟨_, _, rfl, MeKeep.refl _, h, rfl⟩⟩

theorem write_bad (b : Slab) (u o : Nat) (bs : List Byte) (h : b.bad = []) : (b.write u o bs).1.bad = [] := by
  have ht : ∀ cw, b.touch cw = (b, true) := by intro cw; unfold Slab.touch; rw [h]; rfl
  have hf : ∀ cs : List Nat, (cs.foldl (fun (p : Slab × Bool) i => let q := p.1.touch (8 * u + i); (q.1, p.2 && q.2)) (b, true)) = (b, true) := by
    intro cs
    induction cs with
    | nil => rfl
    | cons x xs ih => rw [List.foldl_cons]; dsimp only; rw [ht]; exact ih
  unfold Slab.write
  dsimp only
  rw [hf]
  dsimp only
  rw [if_pos rfl]
  dsimp only
  rw [h]
  generalize (List.range 8).filter (fun i => decide (64 * i < o + bs.length) && decide (o < 64 * i + 64)) = cs
  induction cs with
  | nil => rfl
  | cons x xs ih => exact ih

theorem matstep_put {n : Nat} {s : State} (h : (s.core n).slab.bad = []) (hb : ∀ i, tblGet .on (s.core n).slab.banks i = .on) (rec_ : Nat) (os : List (Nat × List Byte)) : MatStep n s (s.putSlabs n rec_ os) := by
  have hi := putSlabs_on n rec_ os (CoreIs.refl n s) hb
  refine MatStep.of_is hi ⟨_, _, rfl, MeKeep.refl _, ?_, ?_⟩
  · generalize (s.core n).slab = b at h
    induction os generalizing b with
    | nil => exact h
    | cons o os ih => exact ih (putSlabs_on n rec_ os (CoreIs.refl n s) hb) _ (write_bad _ _ _ _ h)
  · generalize (s.core n).slab = b
    induction os generalizing b with
    | nil => rfl
    | cons o os ih => exact (ih (putSlabs_on n rec_ os (CoreIs.refl n s) hb) _).trans (write_banks _ _ _ _).1

end Sys2Proof.Claims
end

