-- ==== Sys2Proof/Laws/OfMoves.lean ====
section
/-!
SUPPORT. Lemmas about moves and their transport, for the proofs of the statements: what their operations do, step by step.
-/

namespace Sys2Proof.Claims

open Machine

theorem pump_divides (fuel : Nat) : ∀ (room : Nat) (r : MvRec), room ≤ fuel → r.tw = 0 → r.node = 0xFFFF → r.rejected = false → r.pos ≤ r.len →
    ∃ qs, r.pump fuel room = { r with reqs := r.reqs ++ qs, pos := r.pos + (qs.map MvReq.len).sum, nextReq := r.nextReq + qs.length } ∧
      Divides (r.src + r.pos) (r.dst + r.pos) (r.len - r.pos) r.nextReq qs ∧ qs.length ≤ room ∧
      (r.pos + (qs.map MvReq.len).sum = r.len ∨ qs.length = room) := by
  induction fuel with
  | zero => intro room r h1 h2 h3 h4 h5; exact ⟨[], by simp [MvRec.pump], trivial, Nat.zero_le _, .inr (by simp; omega)⟩
  | succ fuel ih =>
    intro room r h1 h2 h3 h4 h5
    unfold MvRec.pump
    dsimp only
    have ho : r.open_ = decide (r.pos < r.len) := by
      unfold MvRec.open_ MvRec.total; rw [h2, h3, h4]; simp
    rw [ho]
    by_cases hl : r.pos < r.len
    · by_cases hr : 0 < room
      · rw [if_pos (by simp [hl, hr])]
        have hq : r.nextOf = { id := r.nextReq, src := r.src + r.pos, dst := r.dst + r.pos, len := min (r.len - r.pos) (min (512 - (r.src + r.pos) % 512) (512 - (r.dst + r.pos) % 512)) } := by
          unfold MvRec.nextOf; rw [h2]; rfl
        obtain ⟨m, hm⟩ : ∃ m, min (r.len - r.pos) (min (512 - (r.src + r.pos) % 512) (512 - (r.dst + r.pos) % 512)) = m := ⟨_, rfl⟩
        have hml : m ≤ r.len - r.pos := by omega
        rw [hq, hm]
        obtain ⟨qs, e1, e2, e3, e4⟩ := ih (room - 1) { r with reqs := r.reqs ++ [{ id := r.nextReq, src := r.src + r.pos, dst := r.dst + r.pos, len := m }], pos := r.pos + m, nextReq := r.nextReq + 1 } (by omega) h2 h3 h4 (by show r.pos + m ≤ r.len; omega)
        refine ⟨{ id := r.nextReq, src := r.src + r.pos, dst := r.dst + r.pos, len := m } :: qs, ?_, ⟨by omega, by rw [hm], ?_⟩, by simp only [List.length_cons]; omega, ?_⟩
        · rw [e1]; simp [Nat.add_assoc, Nat.add_comm 1]
        · rw [hm]
          have e2' : Divides (r.src + (r.pos + m)) (r.dst + (r.pos + m)) (r.len - (r.pos + m)) (r.nextReq + 1) qs := e2
          rw [Nat.add_assoc, Nat.add_assoc, Nat.sub_sub]; exact e2'
        · rcases e4 with e | e
          · left; rw [List.map_cons, List.sum_cons, ← Nat.add_assoc]; exact e
          · right; simp only [List.length_cons]; omega
      · rw [if_neg (by simp [hr])]
        exact ⟨[], by simp, trivial, Nat.zero_le _, .inr (by simp; omega)⟩
    · rw [if_neg (by simp [hl])]
      exact ⟨[], by simp, trivial, Nat.zero_le _, .inl (by simp; omega)⟩

theorem pump_shut (fuel room : Nat) (r : MvRec) (h : r.open_ = false) : r.pump fuel room = r := by
  cases fuel with
  | zero => rfl
  | succ n => unfold MvRec.pump; rw [h]; rfl

/-- Records that cannot issue leave the accumulator as it is, but for the records. -/
theorem pump_fold (m : MoveEngine) (xs : List MvRec) (h : ∀ x ∈ xs, x.open_ = false) (a : PumpAcc) : xs.foldl (PumpAcc.step m) a = { a with recs := a.recs ++ xs } := by
  induction xs generalizing a with
  | nil => simp
  | cons x xs ih =>
    rw [List.foldl_cons, ih (fun y hy => h y (List.mem_cons_of_mem _ hy))]
    unfold PumpAcc.step
    simp [pump_shut _ _ _ (h x List.mem_cons_self)]

theorem pump_run {s : State} {core e c : Nat} (h1 : (s.core core).ctx = some c) (h2 : (s.ctx c).killing = false) (h3 : (s.ctx c).suspendReq = none) (h4 : (s.ctx c).state = .placed) :
    s.pumpMoves core e = (let m := (s.core core).mv e; let r := m.recs.foldl (PumpAcc.step m) { inflight := m.inflight }
      s.modCore core (fun k => (((k.setMv e { m with recs := r.recs }).count (0x14 + (e - 2)) r.fresh).count (0x16 + (e - 2)) r.units).count 0x1B r.hosts)) := by
  unfold State.pumpMoves
  simp only [h1]
  rw [if_neg (by rw [h2, h3, h4]; simp)]

theorem setMv_mv (k : Core) (e : Nat) (m : MoveEngine) : (k.setMv e m).mv e = m := by
  unfold Core.setMv Core.mv
  by_cases h : e = 3
  · rw [if_pos h, if_pos h]
  · rw [if_neg h, if_neg h]

theorem setMv_setMv (k : Core) (e : Nat) (m n : MoveEngine) : (k.setMv e m).setMv e n = k.setMv e n := by
  unfold Core.setMv
  by_cases h : e = 3
  · rw [if_pos h, if_pos h, if_pos h]
  · rw [if_neg h, if_neg h, if_neg h]

theorem setMv_self (k : Core) (e : Nat) : k.setMv e (k.mv e) = k := by
  unfold Core.setMv Core.mv
  by_cases h : e = 3
  · rw [if_pos h, if_pos h]
  · rw [if_neg h, if_neg h]

theorem setMv_dbg (k : Core) (e : Nat) (m : MoveEngine) (d : CoreDebug) : ({ k with dbg := d } : Core).setMv e m = { k.setMv e m with dbg := d } := by
  unfold Core.setMv; split <;> rfl

theorem setMv_keep {k j : Core} (e : Nat) (f : MoveEngine → MoveEngine) (h : CoreKeep k j) : CoreKeep (k.setMv e (f (k.mv e))) (j.setMv e (f (j.mv e))) := by
  obtain ⟨_, _, _, _, _, _, rfl⟩ := h
  unfold Core.setMv Core.mv
  split
  · exact ⟨_, _, _, _, _, _, rfl⟩
  · exact ⟨_, _, _, _, _, _, rfl⟩

theorem setMv_parts (k : Core) (e : Nat) (m : MoveEngine) : (k.setMv e m).ctx = k.ctx ∧ (k.setMv e m).queues = k.queues ∧ (k.setMv e m).dbg = k.dbg ∧ (k.setMv e m).slab = k.slab := by
  unfold Core.setMv; split <;> exact ⟨rfl, rfl, rfl, rfl⟩

theorem keep_mv {k j : Core} (e : Nat) (h : CoreKeep k j) : j.mv e = k.mv e := by
  obtain ⟨_, _, _, _, _, _, rfl⟩ := h; rfl

theorem core_count_eq (k : Core) (code n : Nat) : ∃ d, k.count code n = { k with dbg := { k.dbg with counters := d } } := by
  unfold Core.count; dsimp only; split
  · exact ⟨_, rfl⟩
  · exact ⟨_, rfl⟩

theorem CoreIs.weak {n : Nat} {s t : State} {k j : Core} (a : CoreIs n s t j) (h : ∃ d, j = { k with dbg := { k.dbg with counters := d } }) : CoreIs n s t k := by
  obtain ⟨d, rfl⟩ := h
  obtain ⟨h1, h2, d2, h3⟩ := a
  exact ⟨h1, h2, d2, h3⟩

/-- A pump in which no record can issue changes only event counters. -/
theorem pump_idle (s : State) (core e : Nat) (h : ∀ x ∈ ((s.core core).mv e).recs, x.open_ = false) :
    CoreIs core s (s.pumpMoves core e) (s.core core) := by
  unfold State.pumpMoves
  extract_lets stop m r
  split
  · exact CoreIs.refl _ _
  · have hr : r.recs = ((s.core core).mv e).recs := by
      show (m.recs.foldl (PumpAcc.step m) { inflight := m.inflight }).recs = _
      rw [pump_fold _ _ h]; rfl
    obtain ⟨a, ha⟩ : ∃ a, r.fresh = a := ⟨_, rfl⟩
    obtain ⟨b, hb⟩ : ∃ b, r.units = b := ⟨_, rfl⟩
    obtain ⟨c, hc⟩ : ∃ c, r.hosts = c := ⟨_, rfl⟩
    rw [hr, ha, hb, hc]
    refine CoreIs.weak (CoreIs.mod core s _) ?_
    dsimp only
    obtain ⟨d1, h1⟩ := core_count_eq ((s.core core).setMv e { m with recs := ((s.core core).mv e).recs }) (0x14 + (e - 2)) a
    have hk : (s.core core).setMv e { m with recs := ((s.core core).mv e).recs } = s.core core := setMv_self _ _
    rw [h1, hk]
    obtain ⟨d2, h2⟩ := core_count_eq { s.core core with dbg := { (s.core core).dbg with counters := d1 } } (0x16 + (e - 2)) b
    rw [h2]
    obtain ⟨d3, h3⟩ := core_count_eq { s.core core with dbg := { (s.core core).dbg with counters := d2 } } 0x1B c
    exact ⟨d3, h3⟩

theorem opcMove {s : State} {core e c : Nat} {ws : List W64} (h : RecIssues s core e 0x40 c ws) : e = 2 ∨ e = 3 := by
  have h4 := h.2.1
  have hm := h.2.2.2.2.2.2.2.2.2.1
  have ho := h.2.2.2.2.2.2.2.2.1
  unfold malformed headMalformed at hm
  dsimp only at hm
  rw [ho] at hm
  have : opcOk 0x40 e = true := by
    rcases hb : opcOk 0x40 e with _ | _
    · rw [hb] at hm; simp at hm
    · rfl
  unfold opcOk at this
  simp at this
  omega

theorem satAdd_min (m x y : Nat) : satAdd m x y = min m (x + y) := rfl

/-- Requests of one record changed: only the engine's records. -/
theorem modReq_eq (s : State) (core e id req : Nat) (f : MvReq → MvReq) :
    s.modReq core e id req f = s.modCore core (fun k => k.setMv e { k.mv e with recs := reqsOf (k.mv e).recs id (fun qs => qs.map (fun q => if q.id = req then f q else q)) }) := by
  unfold State.modReq State.modRec reqsOf; rfl

theorem memReadN_add (m : Mem) (a x y : Nat) : memReadN m a (x + y) = memReadN m a x ++ memReadN m (a + x) y := by
  induction x generalizing a with
  | zero => simp [memReadN]
  | succ x ih =>
    rw [show x + 1 + y = (x + y) + 1 by omega]
    show memRead m a :: memReadN m (a + 1) (x + y) = memRead m a :: memReadN m (a + 1) x ++ _
    rw [ih, List.cons_append, show a + 1 + x = a + (x + 1) by omega]

theorem memReadN_len (m : Mem) (a n : Nat) : (memReadN m a n).length = n := by
  induction n generalizing a with
  | zero => rfl
  | succ n ih => show (memRead m a :: memReadN m (a + 1) n).length = _; rw [List.length_cons, ih]

theorem readFar_clean (s : State) (a n : Nat) (hn : 0 < n) (ht : a + n ≤ farTop) (hb : s.far.bad = []) : s.readFar a n = (s, [(0, memReadN s.far.mem a n)], false) := by
  have go : ∀ m, m ≤ (a + n - 1) / 64 - a / 64 + 1 →
      (((List.range m).map (fun i => (a / 64 + i) * 64)).foldl (fun (p : State × Pieces × Bool) b =>
        let lo := max a b
        let hi := min (a + n) (b + 64)
        if b ≥ farTop then (p.1, joinPiece p.2.1 (lo - a) (List.replicate (hi - lo) 0), p.2.2)
        else
          let q := p.1.touchBlock (farBlock s.far.localUnits b)
          if q.2 then (q.1, joinPiece p.2.1 (lo - a) (memReadN q.1.far.mem lo (hi - lo)), p.2.2) else (q.1, p.2.1, true)) (s, [], false))
      = (s, if m = 0 then [] else [(0, memReadN s.far.mem a (min (a + n) ((a / 64 + m) * 64) - a))], false) := by
    intro m
    induction m with
    | zero => intro _; rfl
    | succ m ih =>
      intro hm
      rw [List.range_succ, List.map_append, List.foldl_append, ih (by omega)]
      simp only [List.map_cons, List.map_nil, List.foldl_cons, List.foldl_nil]
      have h1 : (a / 64 + m) * 64 < a + n := by omega
      rw [if_neg (show ¬ (a / 64 + m) * 64 ≥ farTop by omega)]
      rw [touchBlock_clean hb]
      dsimp only
      rw [if_pos rfl, if_neg (Nat.succ_ne_zero m)]
      by_cases h0 : m = 0
      · subst h0
        rw [if_pos rfl]
        show (s, [(_, memReadN s.far.mem _ _)], false) = _
        rw [show max a ((a / 64 + 0) * 64) = a by omega, Nat.sub_self, show (a / 64 + 0) * 64 + 64 = (a / 64 + (0 + 1)) * 64 by omega]
      · rw [if_neg h0]
        have e1 : max a ((a / 64 + m) * 64) = (a / 64 + m) * 64 := by omega
        have e2 : min (a + n) ((a / 64 + m) * 64) = (a / 64 + m) * 64 := by omega
        rw [e1, e2]
        show (s, (if 0 + (memReadN s.far.mem a ((a / 64 + m) * 64 - a)).length = _ then _ else _), false) = _
        rw [memReadN_len, if_pos (by omega)]
        have e3 : min (a + n) ((a / 64 + (m + 1)) * 64) - a = ((a / 64 + m) * 64 - a) + (min (a + n) ((a / 64 + m) * 64 + 64) - (a / 64 + m) * 64) := by omega
        rw [e3, memReadN_add, show a + ((a / 64 + m) * 64 - a) = (a / 64 + m) * 64 by omega]
  unfold State.readFar
  have := go _ (Nat.le_refl _)
  unfold blocksOf
  rw [if_neg (by omega)]
  refine this.trans ?_
  rw [if_neg (Nat.succ_ne_zero _), show min (a + n) ((a / 64 + ((a + n - 1) / 64 - a / 64 + 1)) * 64) - a = n by omega]

theorem farClass {a : Nat} (h : a < farTop) : addrClass a = .far := by unfold addrClass; rw [if_pos h]

theorem sourceGot {s : State} {q : MvReq} {bs : List Byte} (h : SourceReads s q bs) :
    bs.length = q.len ∧ ∃ t, s.readSource q.src q.len = .got t [(0, bs)] false ∧ t = { s with cores := t.cores } ∧ ∀ n, t.core n = s.core n := by
  obtain ⟨hl, h | h⟩ := h
  · obtain ⟨h1, h2, rfl⟩ := h
    refine ⟨memReadN_len _ _ _, s, ?_, rfl, fun _ => rfl⟩
    unfold State.readSource
    rw [farClass (by omega), readFar_clean s q.src q.len hl h1 h2]
  · obtain ⟨n, off, h1, h2, h3, h4, rfl⟩ := h
    refine ⟨memReadN_len _ _ _, s.modSlab n (fun _ => (s.core n).slab), ?_, rfl, fun m => ?_⟩
    · unfold State.readSource
      rw [h1]
      dsimp only
      rw [h3]
      dsimp only
      rw [slab_read_clean _ _ h4]
      dsimp only
      rw [memReadN_drop, memReadN_take, show 512 * (off / 512) + off % 512 = off by omega, show min q.len (512 - off % 512) = q.len by omega]
    · by_cases hm : m = n
      · subst hm; unfold State.modSlab; rw [State.core_modCore_self]
      · unfold State.modSlab; rw [State.core_modCore_ne hm]

theorem slab_write_clean (b : Slab) (u o : Nat) (bs : List Byte) (h : b.bad = []) :
    ∃ rw_, b.write u o bs = ({ b with mem := memWriteN b.mem (512 * u + o) bs, rewrites := rw_ }, true) := by
  have hb := write_bad b u o bs h
  have ht : ∀ cw, b.touch cw = (b, true) := by intro cw; unfold Slab.touch; rw [h]; rfl
  have hf : ∀ cs : List Nat, (cs.foldl (fun (p : Slab × Bool) i => let q := p.1.touch (8 * u + i); (q.1, p.2 && q.2)) (b, true)) = (b, true) := by
    intro cs
    induction cs with
    | nil => rfl
    | cons x xs ih => rw [List.foldl_cons]; dsimp only; rw [ht]; exact ih
  unfold Slab.write at hb ⊢
  dsimp only at hb ⊢
  rw [hf] at hb ⊢
  dsimp only at hb ⊢
  rw [if_pos rfl] at hb ⊢
  dsimp only at hb ⊢
  rw [hb]
  cases b
  cases h
  exact ⟨_, rfl⟩

/-- A masked write of a slab none of whose codewords is in error: its bytes are written. -/
theorem slab_mask_clean (b : Slab) (u : Nat) (ps : List (Nat × List Byte)) (h : b.bad = []) :
    ∃ rw_, b.writeMask u ps = ({ b with mem := ps.foldl (fun m p => memWriteN m (512 * u + p.1) p.2) b.mem, rewrites := rw_ }, true) := by
  have ht : ∀ cw, b.touch cw = (b, true) := by intro cw; unfold Slab.touch; rw [h]; rfl
  have hf : ∀ cs : List Nat, (cs.foldl (fun (p : Slab × Bool) i => let q := p.1.touch (8 * u + i); (q.1, p.2 && q.2)) (b, true)) = (b, true) := by
    intro cs
    induction cs with
    | nil => rfl
    | cons x xs ih => rw [List.foldl_cons]; dsimp only; rw [ht]; exact ih
  have hd : ∀ cs : List Nat, cs.foldl (fun t i => tblDrop (8 * u + i) t) b.bad = b.bad := by
    intro cs
    rw [h]
    induction cs with
    | nil => rfl
    | cons x xs ih => exact ih
  unfold Slab.writeMask
  dsimp only
  rw [hf]
  dsimp only
  rw [if_pos rfl, hd]
  exact ⟨_, rfl⟩

/-- What a write of one run of bytes into one slab leaves. -/
theorem slabPieces_one (s : State) (n u o : Nat) (bs : List Byte) (h : (s.core n).slab.bad = []) :
    ∃ t rw_ d, s.slabPieces n u o [(0, bs)] = (t, true) ∧ t = { s with cores := t.cores } ∧ (∀ m, m ≠ n → t.core m = s.core m) ∧
      t.core n = { s.core n with dbg := d, slab := { (s.core n).slab with mem := memWriteN (s.core n).slab.mem (512 * u + o) bs, rewrites := rw_ } } := by
  obtain ⟨rw_, hw⟩ := slab_mask_clean (s.core n).slab u [(o, bs)] h
  unfold State.slabPieces
  simp only [List.map_cons, List.map_nil, Nat.add_zero, hw, List.foldl_cons, List.foldl_nil]
  obtain ⟨d, hd⟩ := core_count_eq { s.core n with slab := { (s.core n).slab with mem := memWriteN (s.core n).slab.mem (512 * u + o) bs, rewrites := rw_ } } 0x23
    (boolN ([((0 : Nat), bs)].any fun p => !(decide ((o + p.1) % 64 = 0) && decide (p.2.length % 64 = 0))))
  exact ⟨_, rw_, _, rfl, rfl, fun m hm => State.core_modCore_ne hm _ _, (State.core_modCore_self _ _ _).trans hd⟩

/-- Between: slab memory of one core, far memory and event counters may have changed. -/
def MvSame (home : Nat) (s v : State) : Prop :=
  v = { s with far := { s.far with mem := v.far.mem }, cores := v.cores } ∧ (∀ n, n ≠ home → v.core n = s.core n) ∧
  ∃ d, v.core home = { s.core home with dbg := d, slab := (v.core home).slab }

theorem MvSame.all {home : Nat} {s v : State} (h : MvSame home s v) (n : Nat) : ∃ d, v.core n = { s.core n with dbg := d, slab := if n = home then (v.core n).slab else (s.core n).slab } := by
  by_cases hn : n = home
  · subst hn; rw [if_pos rfl]; exact h.2.2
  · rw [if_neg hn, h.2.1 n hn]; exact ⟨_, rfl⟩

theorem MvSame.mv {home : Nat} {s v : State} (h : MvSame home s v) (n e : Nat) : (v.core n).mv e = (s.core n).mv e := by
  obtain ⟨d, hd⟩ := h.all n; rw [hd]; rfl
theorem MvSame.ctx {home : Nat} {s v : State} (h : MvSame home s v) (n : Nat) : (v.core n).ctx = (s.core n).ctx := by
  obtain ⟨d, hd⟩ := h.all n; rw [hd]

theorem move_of {core e home : Nat} {s v t : State} {recs : List MvRec} (h : MvSame home s v)
    (hi : CoreIs core v t ((v.core core).setMv e { (s.core core).mv e with recs := recs })) : MoveBecomes core e home s t recs := by
  obtain ⟨⟨cs, h1⟩, h2, d, h3⟩ := hi
  refine ⟨?_, fun n hn hh => (h2 n hn).trans (h.2.1 n hh), fun n => ?_⟩
  · rw [h1]; show ({ v with cores := _ } : State) = _; rw [h.1]
  · obtain ⟨d', hd⟩ := h.all n
    by_cases hn : n = core
    · subst hn
      refine ⟨(t.core n).dbg, ?_⟩
      rw [if_pos rfl]
      have hs : (t.core n).slab = (v.core n).slab := by rw [h3]; exact (setMv_parts _ _ _).2.2.2
      have : (if n = home then (t.core n).slab else (s.core n).slab) = (v.core n).slab := by
        rw [hs]; by_cases hh : n = home
        · rw [if_pos hh]
        · rw [if_neg hh, h.2.1 n hh]
      rw [this, h3, hd]
      unfold Core.setMv
      split <;> rfl
    · rw [if_neg hn, h2 n hn]
      exact ⟨d', hd⟩

theorem kth_mem {m : MoveEngine} {k : Nat} {r : MvRec} {q : MvReq} (h : m.kth k = some (r, q)) : r ∈ m.recs ∧ q ∈ r.reqs := by
  unfold MoveEngine.kth at h
  have := List.mem_of_getElem? h
  simp only [List.mem_flatMap, List.mem_map, Prod.mk.injEq] at this
  obtain ⟨r', hr, q', hq, rfl, rfl⟩ := this
  exact ⟨hr, hq⟩

theorem open_reqs (r : MvRec) (qs : List MvReq) : ({ r with reqs := qs } : MvRec).open_ = r.open_ := rfl

theorem shut_of {recs : List MvRec} (h : ∀ x ∈ recs, x.open_ = false) (id req dst : Nat) : ∀ x ∈ doneOf recs id req dst, x.open_ = false := by
  intro x hx
  unfold doneOf at hx
  obtain ⟨y, hy, rfl⟩ := List.mem_map.1 hx
  split
  · exact h y hy
  · exact h y hy

/-- Completion notes in the record where its request wrote. -/
theorem doneOf_eq {recs : List MvRec} {r : MvRec} {req : Nat} {p : MvReq} (hx : ∀ x ∈ recs, x.id = r.id → x = r) (hp : r.reqs.find? (fun q => q.id == req) = some p) :
    recs.map (fun x => if x.id = r.id then
      ({ x with reqs := x.reqs.filter (fun q => q.id != req), last := ((x.reqs.find? (fun q => q.id == req)).map MvReq.dst).getD x.last } : MvRec) else x) = doneOf recs r.id req p.dst := by
  unfold doneOf
  refine List.map_congr_left (fun x hxm => ?_)
  by_cases h : x.id = r.id
  · rw [if_pos h, if_pos h, hx x hxm h, hp]; rfl
  · rw [if_neg h, if_neg h]

/-- A request of a record that has more to do is done. -/
theorem complete_more (v : State) (core e c req : Nat) (r : MvRec) (p : MvReq) (hc : (v.core core).ctx = some c) (hr : r ∈ ((v.core core).mv e).recs)
    (hx : ∀ x ∈ ((v.core core).mv e).recs, x.open_ = false ∧ (x.id = r.id → x = r)) (hf : r.reqs.find? (fun q => q.id == req) = some p) (hp : ∃ p ∈ r.reqs, p.id ≠ req) :
    CoreIs core v (v.completeReq core e r.id req) ((v.core core).setMv e { (v.core core).mv e with recs := doneOf ((v.core core).mv e).recs r.id req p.dst }) := by
  have hd := doneOf_eq (fun x hxm => (hx x hxm).2) hf
  unfold State.completeReq
  obtain ⟨w, hw⟩ : ∃ w, v.modRec core e r.id (fun r => { r with reqs := r.reqs.filter (fun q => q.id != req), last := ((r.reqs.find? (fun q => q.id == req)).map MvReq.dst).getD r.last }) = w := ⟨_, rfl⟩
  rw [hw]
  have hwe : w = v.modCore core (fun k => k.setMv e { k.mv e with recs := doneOf ((v.core core).mv e).recs r.id req p.dst }) := by
    rw [← hw, ← hd]; rfl
  have hi : CoreIs core v w ((v.core core).setMv e { (v.core core).mv e with recs := doneOf ((v.core core).mv e).recs r.id req p.dst }) := by
    rw [hwe]; exact CoreIs.mod core v _
  have hwm : (w.core core).mv e = { (v.core core).mv e with recs := doneOf ((v.core core).mv e).recs r.id req p.dst } := by
    rw [hwe, State.core_modCore_self, setMv_mv]
  have hwc : (w.core core).ctx = some c := by rw [hwe, State.core_modCore_self, (setMv_parts _ _ _).1]; exact hc
  unfold State.moveStep
  rw [hwc]
  dsimp only
  have hfind : ((w.core core).mv e).rec_ r.id = some { r with reqs := r.reqs.filter (fun q => q.id != req), last := p.dst } := by
    rw [hwm]
    unfold MoveEngine.rec_ doneOf
    dsimp only
    have : ∀ xs : List MvRec, r ∈ xs → (∀ x ∈ xs, x.id = r.id → x = r) → (xs.map (fun x => if x.id = r.id then { x with reqs := x.reqs.filter (fun p => p.id != req), last := p.dst } else x)).find? (fun x => x.id == r.id) =
        some { r with reqs := r.reqs.filter (fun q => q.id != req), last := p.dst } := by
      intro xs
      induction xs with
      | nil => intro h; cases h
      | cons x xs ih =>
        intro h1 h2
        rw [List.map_cons, List.find?_cons]
        by_cases hxi : x.id = r.id
        · rw [if_pos hxi]
          have := h2 x List.mem_cons_self hxi
          subst this
          simp
        · rw [if_neg hxi]
          have : (x.id == r.id) = false := by simpa using hxi
          rw [this]
          refine ih ?_ (fun y hy => h2 y (List.mem_cons_of_mem _ hy))
          rcases List.mem_cons.1 h1 with h | h
          · exact absurd (by rw [h]) hxi
          · exact h
    exact this _ hr (fun x hxm => (hx x hxm).2)
  rw [hfind]
  dsimp only
  have hnf : ({ r with reqs := r.reqs.filter (fun q => q.id != req), last := p.dst } : MvRec).finished = false := by
    unfold MvRec.finished
    have : (r.reqs.filter (fun q => q.id != req)).isEmpty = false := by
      obtain ⟨p, hp1, hp2⟩ := hp
      have : p ∈ r.reqs.filter (fun q => q.id != req) := List.mem_filter.2 ⟨hp1, by simpa using hp2⟩
      rcases hh : r.reqs.filter (fun q => q.id != req) with _ | _
      · rw [hh] at this; cases this
      · rw [hh]; rfl
    simp only [this]
    simp
  rw [hnf, if_neg (by simp)]
  have hp2 := pump_idle w core e (by rw [hwm]; exact shut_of (fun x hxm => (hx x hxm).1) _ _ _)
  exact CoreIs.trans (f := fun k => k) (fun _ d => ⟨d, rfl⟩) hi hp2

theorem farPieces_one (s : State) (a : Nat) (bs : List Byte) (ha : a < farTop) (hb : s.far.bad = []) (ht : s.links.twin.mset = none) (hw : Memory.wf s.far.mem = true) :
    ∃ m, s.farPieces a [(0, bs)] = ({ s with far := { s.far with mem := m } }, true) ∧ memReadN m a bs.length = bs ∧
      ∀ c, c < a ∨ a + bs.length ≤ c → memRead m c = memRead s.far.mem c := by
  obtain ⟨m, h1, h2, h3⟩ := farWrite_clean hb ht hw a bs
  refine ⟨m, ?_, ?_, ?_⟩
  · unfold State.farPieces
    simp only [List.foldl_cons, List.foldl_nil, Nat.add_zero]
    rw [if_neg (by omega), h1]; rfl
  · refine memReadN_ext (fun i hi => ?_)
    rw [h3, if_pos (by omega), Nat.add_sub_cancel_left]
  · intro c hc
    rw [h3, if_neg (by omega)]

theorem landing_find (b : Slab) (pre post : List Landing) (l : Landing) (h1 : b.landing = pre ++ l :: post) (h2 : ∀ x ∈ pre, b.bank x.slab = .waking) (h3 : b.bank l.slab = .on) :
    b.landing.find? (fun l => b.bank l.slab != BankState.waking) = some l := by
  rw [h1, List.find?_append, List.find?_eq_none.2 (fun x hx => by rw [h2 x hx]; simp), List.find?_cons]
  rw [h3]; rfl

end Sys2Proof.Claims
end

