-- ==== Sys2Proof/Laws/OfForeman.lean ====
section
/-!
SUPPORT. Lemmas about the Foreman's requests, objects and event records, for the proofs of the statements: what their operations do, step by step.
-/

namespace Sys2Proof.Claims

open Machine

theorem asked_run {s : State} {ch code : Nat} {m : MailMsg} {rest : List MailMsg} (h : Asked s ch code m rest) (hl : (listed ch).contains code = true) (body : ReqRef → MailMsg → State → State) :
    onRequest s ch code body = .next (body (refOf ch m) m (taken s ch rest)) := by
  obtain ⟨h1, h2, h3, h4⟩ := h
  unfold onRequest
  rw [h1]
  dsimp only
  rw [if_neg (by rw [contains_true h2]; simp; omega), h4, hl, if_neg (by simp), if_pos rfl]
  rfl

theorem foreman_run {s : State} {code : Nat} {m : MailMsg} {rest : List MailMsg} {argOk : MailMsg → State → Bool} {service : MailMsg → Bool} (h : Asked s 1 code m rest) (hl : (listed 1).contains code = true) (body : ReqRef → MailMsg → State → State)
    (h1 : s.pci.ready = true ∨ code = 0x16) (h2 : s.fman.tables = true ∨ code = 0x01) (h3 : argOk m (taken s 1 rest) = true) (h4 : service m = false ∨ (s.ctx 0).state = .ready) :
    foremanReq s code argOk service body = .next (body (refOf 1 m) m (taken s 1 rest)) := by
  unfold foremanReq
  rw [asked_run h hl]
  have e1 : (!(taken s 1 rest).pci.ready && code != 0x16) = false := by
    show (!s.pci.ready && code != 0x16) = false
    rcases h1 with h | h
    · rw [h]; rfl
    · rw [h]; simp
  have e2 : (!(taken s 1 rest).fman.tables && code != 0x01) = false := by
    show (!s.fman.tables && code != 0x01) = false
    rcases h2 with h | h
    · rw [h]; rfl
    · rw [h]; simp
  have e4 : (service m && ((taken s 1 rest).ctx 0).state != .ready) = false := by
    show (service m && (s.ctx 0).state != .ready) = false
    rcases h4 with h | h
    · rw [h]; rfl
    · rw [h]; simp
  rw [if_neg (by rw [e1]; simp), if_neg (by rw [e2]; simp), if_neg (by rw [h3]; simp), if_neg (by rw [e4]; simp)]

theorem arg_ctx {m : MailMsg} (h : m.arg 1 < 1024) : argCtx m = true := by unfold argCtx; simpa using h

theorem lives_true {x : Ctx} (h : Lives x) : x.state.lives = true := by
  unfold CtxState.lives
  rcases h with h | h | h <;> rw [h] <;> rfl
theorem lives_false {x : Ctx} (h : ¬ Lives x) : x.state.lives = false := by
  unfold Lives at h
  unfold CtxState.lives
  cases hx : x.state <;> simp_all

theorem unnamed {w : Window} (h : w.valid = false ∨ w.obj = 0) : w.named = false := by
  unfold Window.named; rcases h with h | h <;> rw [h] <;> simp

theorem windowIn_fold (ws : Tbl Window) (h : ∀ w ∈ ws, w.2.named = false) (s : State) : ws.foldl (fun t w => t.windowIn w.2) s = s := by
  induction ws with
  | nil => rfl
  | cons w ws ih =>
    rw [List.foldl_cons]
    have : s.windowIn w.2 = s := by unfold State.windowIn; rw [h w List.mem_cons_self]; rfl
    rw [this]; exact ih (fun x hx => h x (List.mem_cons_of_mem _ hx))

theorem fread_clean {s : State} {a n : Nat} (hb : s.far.bad = []) (h : a + n ≤ farTop) : s.fread a n = (s, some (memReadN s.far.mem a n)) := by
  unfold State.fread; rw [if_pos h]; exact farRead_clean hb a n

theorem tail_rings (s : State) (ring kind ctx : Nat) (gang : Option Nat) (w1 w2 w3 : Nat) : ∃ r, s.tail ring kind ctx gang w1 w2 w3 = { s with rings := r } := ⟨_, rfl⟩

theorem foldl_rings {α : Type} (f : State → α → State) (hf : ∀ s x, ∃ r, f s x = { s with rings := r }) (xs : List α) (s : State) : ∃ r, xs.foldl f s = { s with rings := r } := by
  induction xs generalizing s with
  | nil => exact ⟨s.rings, rfl⟩
  | cons x xs ih =>
    obtain ⟨r, hr⟩ := hf s x
    obtain ⟨r', hr'⟩ := ih (f s x)
    exact ⟨r', by rw [List.foldl_cons, hr', hr]⟩

theorem tailSwitch_rings (s : State) (c code : Nat) : ∃ r, s.tailSwitch c code = { s with rings := r } := by
  unfold State.tailSwitch
  dsimp only
  obtain ⟨r, hr⟩ := foldl_rings (fun (t : State) n => (List.range 5).foldl (fun t u => t.tail (ringOf n u) 7 c none code 0 0) t) (fun s n => foldl_rings _ (fun s u => tail_rings _ _ _ _ _ _ _ _) _ s) (s.held c) s
  obtain ⟨r', hr'⟩ := foldl_rings (fun (t : State) u => t.tail (hubRing u) 7 c none code 0 0) (fun s u => tail_rings _ _ _ _ _ _ _ _) (List.range 8) ((s.held c).foldl (fun (t : State) n => (List.range 5).foldl (fun t u => t.tail (ringOf n u) 7 c none code 0 0) t) s)
  exact ⟨r', by rw [hr', hr]⟩

/-- Changes of each queue of some cores: only those queues, whatever the order. -/
theorem fold_queues (f : Queue → Queue) (hf : ∀ q, f (f q) = f q) (ns : List Nat) (s : State) :
    ∃ cs, (ns.foldl (fun (t : State) n => (List.range 4).foldl (fun t e => t.modQueue n e f) t) s) = { s with cores := cs } ∧
      ∀ n e, (({ s with cores := cs } : State).queue n e) = if n ∈ ns ∧ e < 4 then f (s.queue n e) else s.queue n e := by
  have step : ∀ (t : State) (n e m i : Nat), (t.modQueue n e f).queue m i = if m = n ∧ i = e then f (t.queue m i) else t.queue m i := by
    intro t n e m i
    by_cases h : m = n ∧ i = e
    · obtain ⟨rfl, rfl⟩ := h
      rw [if_pos ⟨rfl, rfl⟩]; unfold State.modQueue; exact State.queue_setQueue_self _ _ _ _
    · rw [if_neg h]
      unfold State.modQueue State.setQueue
      by_cases hm : m = n
      · subst hm
        have hi : i ≠ e := fun he => h ⟨rfl, he⟩
        unfold State.queue
        rw [State.core_setCore_self, Core.queue_setQueue_ne hi]
      · unfold State.queue; rw [State.core_setCore_ne hm]
  have inner : ∀ (k : Nat) (t : State) (n : Nat), ∃ cs, ((List.range k).foldl (fun (t : State) e => t.modQueue n e f) t) = { t with cores := cs } ∧
      ∀ m e, (({ t with cores := cs } : State).queue m e) = if m = n ∧ e < k then f (t.queue m e) else t.queue m e := by
    intro k
    induction k with
    | zero => intro t n; exact ⟨t.cores, rfl, fun m e => by rw [if_neg (by omega)]⟩
    | succ k ih =>
      intro t n
      obtain ⟨cs, h1, h2⟩ := ih t n
      refine ⟨_, by rw [List.range_succ, List.foldl_append, h1]; rfl, fun m e => ?_⟩
      have := step ({ t with cores := cs } : State) n k m e
      refine this.trans ?_
      rw [h2]
      by_cases hm : m = n
      · by_cases he : e = k
        · rw [if_pos ⟨hm, he⟩, if_neg (by omega), if_pos ⟨hm, by omega⟩]
        · rw [if_neg (fun h => he h.2)]
          by_cases hk : e < k
          · rw [if_pos ⟨hm, hk⟩, if_pos ⟨hm, by omega⟩]
          · rw [if_neg (fun h => hk h.2), if_neg (by omega)]
      · rw [if_neg (fun h => hm h.1), if_neg (fun h => hm h.1), if_neg (fun h => hm h.1)]
  induction ns generalizing s with
  | nil => exact ⟨s.cores, rfl, fun n e => by rw [if_neg (by simp)]⟩
  | cons a ns ih =>
    obtain ⟨cs, h1, h2⟩ := inner 4 s a
    obtain ⟨cs', h3, h4⟩ := ih ({ s with cores := cs } : State)
    refine ⟨cs', by rw [List.foldl_cons, h1, h3], fun n e => ?_⟩
    refine (h4 n e).trans ?_
    rw [h2]
    by_cases he : e < 4
    · by_cases hn : n ∈ ns
      · rw [if_pos ⟨hn, he⟩]
        by_cases ha : n = a
        · rw [if_pos ⟨ha, he⟩, if_pos ⟨by simp [ha], he⟩, hf]
        · rw [if_neg (fun h => ha h.1), if_pos ⟨by simp [hn], he⟩]
      · rw [if_neg (fun h => hn h.1)]
        by_cases ha : n = a
        · rw [if_pos ⟨ha, he⟩, if_pos ⟨by simp [ha], he⟩]
        · rw [if_neg (fun h => ha h.1), if_neg (by simp [hn, ha])]
    · rw [if_neg (fun h => he h.2), if_neg (fun h => he h.2), if_neg (fun h => he h.2)]

theorem put_clean {s : State} (h : FarClean s) (a : Nat) (bs : List Byte) :
    ∃ m, s.farWrite a bs = ({ s with far := { s.far with mem := m } }, true) ∧ FarClean ({ s with far := { s.far with mem := m } }) ∧
      ∀ c, memRead m c = if a ≤ c ∧ c < a + bs.length then bs.getD (c - a) 0 else memRead s.far.mem c := by
  obtain ⟨m, h1, h2, h3⟩ := farWrite_clean h.1 h.2.1 h.2.2 a bs
  exact ⟨m, h1, ⟨h.1, h.2.1, h2⟩, h3⟩

theorem num_at {s : State} {a n v : Nat} (h : ∀ c, a ≤ c → c < a + n → memRead s.far.mem c = (leBytes n v).getD (c - a) 0) : farNum s a n = v % 256 ^ n := by
  unfold farNum
  have : memReadN s.far.mem a (leBytes n v).length = leBytes n v := memReadN_ext (fun i hi => by
    rw [leBytes_length] at hi
    rw [h (a + i) (by omega) (by omega), Nat.add_sub_cancel_left])
  rw [leBytes_length] at this
  rw [this, ofLe_leBytes]

theorem num_same {s t : State} {a n : Nat} (h : ∀ c, a ≤ c → c < a + n → memRead t.far.mem c = memRead s.far.mem c) : farNum t a n = farNum s a n := by
  unfold farNum
  congr 1
  have : memReadN t.far.mem a (memReadN s.far.mem a n).length = memReadN s.far.mem a n := memReadN_ext (fun i hi => by
    rw [memReadN_len] at hi
    rw [h (a + i) (by omega) (by omega)]
    have hg : ∀ (n : Nat) (m : Mem) (a i : Nat), i < n → (memReadN m a n).getD i 0 = memRead m (a + i) := by
      intro n
      induction n with
      | zero => intro m a i h; omega
      | succ n ih =>
        intro m a i h
        cases i with
        | zero => rfl
        | succ i => show (memReadN m (a + 1) n).getD i 0 = _; rw [ih _ _ _ (by omega), show a + 1 + i = a + (i + 1) by omega]
    rw [hg _ _ _ _ hi])
  rw [memReadN_len] at this
  exact this

theorem num_lt (s : State) (a n : Nat) : farNum s a n < 256 ^ n := by
  unfold farNum
  have := ofLe_lt (memReadN s.far.mem a n)
  rwa [memReadN_len] at this

/-! ### Places -/

theorem gaps_sound (objs : List ObjRange) (hi : Nat) : ∀ lo, objs.Pairwise (fun o p => o.base + o.size ≤ p.base) → ∀ g ∈ objGaps lo hi objs,
    lo ≤ g.1 ∧ g.2 ≤ hi ∧ (∀ o ∈ objs, g.2 ≤ o.base ∨ o.base + o.size ≤ g.1) ∧ (g.1 = lo ∨ ∃ o ∈ objs, g.1 = o.base + o.size) := by
  induction objs with
  | nil =>
    intro lo _ g hg
    unfold objGaps at hg
    split at hg
    · rw [List.mem_singleton] at hg; subst hg; exact ⟨Nat.le_refl _, Nat.le_refl _, fun o h => (by cases h), .inl rfl⟩
    · cases hg
  | cons o t ih =>
    intro lo hp g hg
    rw [List.pairwise_cons] at hp
    unfold objGaps at hg
    split at hg
    · rename_i h1
      obtain ⟨a, b, c, d⟩ := ih lo hp.2 g hg
      refine ⟨a, b, fun p hpm => ?_, d.imp id (fun ⟨p, h1, h2⟩ => ⟨p, List.mem_cons_of_mem _ h1, h2⟩)⟩
      rcases List.mem_cons.1 hpm with rfl | h
      · right; omega
      · exact c p h
    · split at hg
      · rename_i h1 h2
        split at hg
        · rw [List.mem_singleton] at hg; subst hg
          refine ⟨Nat.le_refl _, Nat.le_refl _, fun p hpm => ?_, .inl rfl⟩
          rcases List.mem_cons.1 hpm with rfl | h
          · left; exact h2
          · left; have := hp.1 p h; show hi ≤ p.base; omega
        · cases hg
      · rename_i h1 h2
        rcases List.mem_append.1 hg with h | h
        · split at h
          · rw [List.mem_singleton] at h; subst h
            refine ⟨Nat.le_refl _, by show o.base ≤ hi; omega, fun p hpm => ?_, .inl rfl⟩
            rcases List.mem_cons.1 hpm with rfl | h
            · left; exact Nat.le_refl _
            · left; have := hp.1 p h; show o.base ≤ p.base; omega
          · cases h
        · obtain ⟨a, b, c, d⟩ := ih _ hp.2 g h
          refine ⟨by omega, b, fun p hpm => ?_, ?_⟩
          · rcases List.mem_cons.1 hpm with rfl | h
            · right; exact a
            · exact c p h
          · rcases d with d | ⟨p, h1, h2⟩
            · right; exact ⟨o, List.mem_cons_self, d⟩
            · right; exact ⟨p, List.mem_cons_of_mem _ h1, h2⟩

theorem gaps_complete (objs : List ObjRange) (hi b n : Nat) (hn : 0 < n) (hb : b + n ≤ hi) : ∀ lo, lo ≤ b → (∀ o ∈ objs, Apart b n o.base o.size) →
    ∃ g ∈ objGaps lo hi objs, g.1 + n ≤ g.2 := by
  induction objs with
  | nil => intro lo h _; unfold objGaps; rw [if_pos (by omega)]; exact ⟨(lo, hi), List.mem_singleton.2 rfl, by show lo + n ≤ hi; omega⟩
  | cons o t ih =>
    intro lo h ha
    have hao := ha o List.mem_cons_self
    have hat : ∀ p ∈ t, Apart b n p.base p.size := fun p hp => ha p (List.mem_cons_of_mem _ hp)
    unfold Apart at hao
    unfold objGaps
    split
    · exact ih lo h hat
    · split
      · rw [if_pos (by omega)]; exact ⟨(lo, hi), List.mem_singleton.2 rfl, by show lo + n ≤ hi; omega⟩
      · rcases hao with hao | hao
        · exact ⟨(lo, o.base), List.mem_append.2 (.inl (by rw [if_pos (by omega)]; exact List.mem_singleton.2 rfl)), by show lo + n ≤ o.base; omega⟩
        · obtain ⟨g, hg, hgn⟩ := ih (o.base + o.size) hao hat
          exact ⟨g, List.mem_append.2 (.inr hg), hgn⟩

theorem placeAt_sound (n : Nat) (gs : List (Nat × Nat)) : ∀ k, k < (gs.map (gapPlaces n)).sum → ∃ g ∈ gs, ∃ j, placeAt n k gs = some (g.1 + 65536 * j) ∧ g.1 + 65536 * j + n ≤ g.2 := by
  induction gs with
  | nil => intro k h; simp at h
  | cons g gs ih =>
    intro k h
    rw [List.map_cons, List.sum_cons] at h
    unfold placeAt
    split
    · rename_i hk
      refine ⟨g, List.mem_cons_self, k, rfl, ?_⟩
      unfold gapPlaces at hk
      split at hk
      · have := Nat.div_mul_le_self (g.2 - g.1 - n) 65536; omega
      · omega
    · obtain ⟨g', h1, j, h2, h3⟩ := ih (k - gapPlaces n g) (by omega)
      exact ⟨g', List.mem_cons_of_mem _ h1, j, h2, h3⟩

theorem sum_pos_of {n : Nat} {gs : List (Nat × Nat)} (h : ∃ g ∈ gs, g.1 + n ≤ g.2) : 0 < (gs.map (gapPlaces n)).sum := by
  obtain ⟨g, hg, hn⟩ := h
  have : 0 < gapPlaces n g := by unfold gapPlaces; rw [if_pos hn]; omega
  induction gs with
  | nil => cases hg
  | cons x xs ih =>
    rw [List.map_cons, List.sum_cons]
    rcases List.mem_cons.1 hg with rfl | h
    · omega
    · have := ih h; omega

theorem foldl_sum (xs : List Nat) (a : Nat) : xs.foldl (· + ·) a = a + xs.sum := by
  induction xs generalizing a with
  | nil => simp
  | cons x xs ih => rw [List.foldl_cons, ih, List.sum_cons]; omega

theorem insert_mem (o p : ObjRange) (xs : List ObjRange) : p ∈ insertObj o xs ↔ p ∈ xs ∨ p = o := by
  induction xs with
  | nil => simp [insertObj]
  | cons x xs ih =>
    unfold insertObj
    split
    · rw [List.mem_cons, List.mem_cons, or_comm]
    · rw [List.mem_cons, ih, List.mem_cons, or_assoc]

theorem objWrite_clean {s : State} (h : FarClean s) {id off n : Nat} (v : Nat) (ho : DescOpen s id) (hn : 0 < n) (hl : off + n ≤ 32) :
    ∃ m, s.objWrite id off n v = { s with far := { s.far with mem := m } } ∧ FarClean ({ s with far := { s.far with mem := m } }) ∧
      ∀ c, memRead m c = if s.fman.objTable + 32 * id + off ≤ c ∧ c < s.fman.objTable + 32 * id + off + n then (leBytes n v).getD (c - (s.fman.objTable + 32 * id + off)) 0 else memRead s.far.mem c := by
  obtain ⟨m, h1, h2, h3⟩ := put_clean h (s.fman.objAddr id + off) (leBytes n v)
  rw [leBytes_length] at h3
  refine ⟨m, ?_, h2, h3⟩
  unfold State.objWrite
  dsimp only
  rw [if_pos (show (s.ctx 0).granted .w (s.fman.objAddr id + off) n = true from ho .w off n (.inr rfl) hn hl), h1]

theorem objExists_of {s : State} {id : Nat} (h : ∃ o ∈ s.fman.objects, o.id = id) : s.objExists id = true := by
  obtain ⟨o, ho, hi⟩ := h
  unfold State.objExists; rw [List.any_eq_true]; exact ⟨o, ho, by simpa using hi⟩
theorem objExists_not {s : State} {id : Nat} (h : ∀ o ∈ s.fman.objects, o.id ≠ id) : s.objExists id = false := by
  unfold State.objExists; rw [List.any_eq_false]; intro o ho; simpa using h o ho

theorem objField_clean {s : State} (h : FarClean s) {id off n : Nat} (ho : DescOpen s id) (hn : 0 < n) (hl : off + n ≤ 32) (hf : s.fman.objTable + 32 * id + off + n ≤ farTop) : s.objField id off n = (s, some (farNum s (s.fman.objTable + 32 * id + off) n)) := by
  unfold State.objField
  dsimp only
  rw [if_pos (show (s.ctx 0).granted .r (s.fman.objAddr id + off) n = true from ho .r off n (.inl rfl) hn hl)]
  have : s.fman.objAddr id + off + n ≤ farTop := hf
  rw [fread_clean h.1 this]
  rfl

theorem num_one {s : State} {a v : Nat} (h : memRead s.far.mem a = (leBytes 1 v).getD 0 0) : farNum s a 1 = v % 256 :=
  (num_at (n := 1) (v := v) (fun c ha hb => by have : c = a := by omega
                                               rw [this, Nat.sub_self]; exact h))

theorem bump_eq (s : State) (c : Nat) : s.bump c = ctxWith s c (s.ctx c) := rfl

theorem ofLe_append (xs ys : List Byte) : ofLe (xs ++ ys) = ofLe xs + 256 ^ xs.length * ofLe ys := by
  have h1 := ofLe_take (xs ++ ys) xs.length
  have h2 := ofLe_drop (xs ++ ys) xs.length
  rw [List.take_left] at h1
  rw [List.drop_left] at h2
  rw [h1, h2, Nat.mod_add_div]

theorem addRef_clean {s : State} (h : FarClean s) {id : Nat} (ho : DescOpen s id) (hf : s.fman.objTable + 32 * id + 32 ≤ farTop) :
    ∃ m, s.addRef id = { s with far := { s.far with mem := m } } ∧ FarClean ({ s with far := { s.far with mem := m } }) ∧
      (∀ i, devCount ({ s with far := { s.far with mem := m } }) i = if i = id then (devCount s i + 1) % 2 ^ 32 else devCount s i) ∧
      (∀ c, (c < s.fman.objTable + 32 * id + 0x14 ∨ s.fman.objTable + 32 * id + 0x18 ≤ c) → memRead m c = memRead s.far.mem c) := by
  obtain ⟨m, w, c, f⟩ := objWrite_clean h (off := 0x14) (n := 4) ((devCount s id + 1) % 2 ^ 32) ho (by omega) (by omega)
  refine ⟨m, ?_, c, fun i => ?_, fun x hx => by rw [f, if_neg (by omega)]⟩
  · unfold State.addRef
    rw [objField_clean h ho (by omega) (by omega) (by omega)]
    exact w
  · by_cases hi : i = id
    · subst hi
      rw [if_pos rfl]
      refine (num_at (s := ({ s with far := { s.far with mem := m } } : State)) (n := 4) (v := (devCount s i + 1) % 2 ^ 32) (fun x ha hb => ?_)).trans (Nat.mod_eq_of_lt (by omega))
      show memRead m x = _
      rw [f, if_pos ⟨ha, hb⟩]
    · rw [if_neg hi]
      refine num_same (t := ({ s with far := { s.far with mem := m } } : State)) (fun x ha hb => ?_)
      show memRead m x = _
      dsimp only at ha hb
      rw [f, if_neg (by omega)]

theorem addRefs (ids : List Nat) : ∀ (s : State), FarClean s → (∀ i ∈ ids, DescOpen s i) → (∀ i ∈ ids, s.fman.objTable + 32 * i + 32 ≤ farTop) →
    ∃ m, ids.foldl (fun s i => s.addRef i) s = { s with far := { s.far with mem := m } } ∧
      (∀ i, devCount ({ s with far := { s.far with mem := m } }) i = (devCount s i + ids.count i) % 2 ^ 32) ∧
      (∀ c, (∀ i ∈ ids, c < s.fman.objTable + 32 * i + 0x14 ∨ s.fman.objTable + 32 * i + 0x18 ≤ c) → memRead m c = memRead s.far.mem c) := by
  induction ids with
  | nil =>
    intro s _ _ _
    refine ⟨s.far.mem, rfl, fun i => ?_, fun c _ => rfl⟩
    have := num_lt s (s.fman.objTable + 32 * i + 0x14) 4
    show devCount s i = _
    rw [List.count_nil, Nat.add_zero, Nat.mod_eq_of_lt]
    exact this
  | cons a ids ih =>
    intro s hc ho hf
    obtain ⟨m, w, c, d, f⟩ := addRef_clean hc (ho a List.mem_cons_self) (hf a List.mem_cons_self)
    obtain ⟨m', w', d', f'⟩ := ih ({ s with far := { s.far with mem := m } } : State) c (fun i hi => ho i (List.mem_cons_of_mem _ hi)) (fun i hi => hf i (List.mem_cons_of_mem _ hi))
    refine ⟨m', by rw [List.foldl_cons, w, w'], fun i => ?_, fun x hx => ?_⟩
    · refine (d' i).trans ?_
      rw [d, List.count_cons]
      by_cases hi : i = a
      · subst hi; rw [if_pos rfl, if_pos (by simp)]; omega
      · rw [if_neg hi, if_neg (by simpa using Ne.symm hi), Nat.add_zero]
    · refine (f' x (fun i hi => hx i (List.mem_cons_of_mem _ hi))).trans (f x (hx a List.mem_cons_self))

end Sys2Proof.Claims
end

