-- ==== Sys2Proof/Laws/OfKills.lean ====
section
/-!
SUPPORT. Lemmas about kills and suspensions, for the proofs of the statements: what their operations do, step by step.
-/

namespace Sys2Proof.Claims

open Machine

/-- A change of each of some cores. -/
theorem fold_cores (f : Core → Core) (ns : List Nat) (s : State) :
    ∃ cs, (ns.foldl (fun (t : State) n => t.modCore n f) s) = { s with cores := cs } ∧
      (∀ n, n ∉ ns → ({ s with cores := cs } : State).core n = s.core n) ∧ (ns.Nodup → ∀ n ∈ ns, ({ s with cores := cs } : State).core n = f (s.core n)) := by
  induction ns generalizing s with
  | nil => exact ⟨s.cores, rfl, fun _ _ => rfl, fun _ n h => by cases h⟩
  | cons a ns ih =>
    obtain ⟨cs, h1, h2, h3⟩ := ih (s.modCore a f)
    refine ⟨cs, by rw [List.foldl_cons, h1]; rfl, fun n hn => ?_, fun hd n hn => ?_⟩
    · rw [List.mem_cons, not_or] at hn
      exact (h2 n hn.2).trans (State.core_modCore_ne hn.1 _ _)
    · rw [List.nodup_cons] at hd
      rcases List.mem_cons.1 hn with rfl | h
      · exact (h2 n hd.1).trans (State.core_modCore_self _ _ _)
      · refine (h3 hd.2 n h).trans ?_
        rw [State.core_modCore_ne (fun e : n = a => hd.1 (e ▸ h))]

/-- Posting bytes to the host changes host memory and event counters. -/
def HostOnly (s t : State) : Prop := ∃ m d, t = { s with host := m, dbg := d }
theorem HostOnly.refl (s : State) : HostOnly s s := ⟨_, _, rfl⟩
theorem HostOnly.foldl {α : Type} (f : State → α → State) (hf : ∀ t x, HostOnly t (f t x)) (xs : List α) (s : State) : HostOnly s (xs.foldl f s) := by
  induction xs generalizing s with
  | nil => exact HostOnly.refl s
  | cons x xs ih =>
    obtain ⟨m, d, h⟩ := hf s x
    obtain ⟨m', d', h'⟩ := ih (f s x)
    exact ⟨m', d', by rw [List.foldl_cons, h', h]⟩
theorem HostOnly.write (s : State) (a : Nat) (bs : List Byte) : HostOnly s (s.hostWrite a bs) := ⟨_, _, rfl⟩
theorem HostOnly.trans {s t u : State} (a : HostOnly s t) (b : HostOnly t u) : HostOnly s u := by
  obtain ⟨m, d, rfl⟩ := a
  obtain ⟨m', d', rfl⟩ := b
  exact ⟨m', d', rfl⟩

theorem memReadN_write {s : State} (a : Nat) (bs : List Byte) {m : Mem} (h : ∀ c, memRead m c = if a ≤ c ∧ c < a + bs.length then bs.getD (c - a) 0 else memRead s.far.mem c) : memReadN m a bs.length = bs :=
  memReadN_ext (fun i hi => by rw [h, if_pos (by omega), Nat.add_sub_cancel_left])

theorem held_same {s t : State} {c : Nat} (h1 : (t.ctx c).bench = (s.ctx c).bench) (h2 : ∀ n, (t.core n).ctx = (s.core n).ctx) : t.held c = s.held c := by
  unfold State.held; rw [h1]; simp only [h2]

theorem endClaims_none {s : State} {c : Nat} (h : ∀ m ∈ s.links.src, m.ctx ≠ c) : s.endClaims c = s := by
  unfold State.endClaims
  have h1 : s.links.src.filter (fun m => m.ctx == c) = [] := List.filter_eq_nil_iff.2 (fun m hm => by simpa using h m hm)
  have h2 : s.links.src.filter (fun m => m.ctx != c) = s.links.src := List.filter_eq_self.2 (fun m hm => by simpa using h m hm)
  dsimp only
  rw [h1, List.foldl_nil]
  unfold State.modLinks
  dsimp only
  rw [h2]

theorem windowOut_fold (ws : Tbl Window) (h : ∀ w ∈ ws, w.2.named = false) (s : State) : ws.foldl (fun t w => t.windowOut w.2) s = s := by
  induction ws with
  | nil => rfl
  | cons w ws ih =>
    rw [List.foldl_cons]
    have : s.windowOut w.2 = s := by unfold State.windowOut; rw [h w List.mem_cons_self]; rfl
    rw [this]; exact ih (fun x hx => h x (List.mem_cons_of_mem _ hx))

/-- Changes of the debug part of some cores. -/
theorem fold_dbg (g : State → Core → Core) (hg : ∀ t k, ∃ d, g t k = { k with dbg := d }) (ns : List Nat) (s : State) :
    ∃ cs, (ns.foldl (fun (t : State) n => t.modCore n (g t)) s) = { s with cores := cs } ∧
      (∀ n, n ∉ ns → ({ s with cores := cs } : State).core n = s.core n) ∧ (∀ n, ∃ d, ({ s with cores := cs } : State).core n = { s.core n with dbg := d }) := by
  induction ns generalizing s with
  | nil => exact ⟨s.cores, rfl, fun _ _ => rfl, fun n => ⟨_, rfl⟩⟩
  | cons a ns ih =>
    obtain ⟨cs, h1, h2, h3⟩ := ih (s.modCore a (g s))
    refine ⟨cs, by rw [List.foldl_cons, h1]; rfl, fun n hn => ?_, fun n => ?_⟩
    · rw [List.mem_cons, not_or] at hn
      exact (h2 n hn.2).trans (State.core_modCore_ne hn.1 _ _)
    · obtain ⟨d, hd⟩ := h3 n
      by_cases hn : n = a
      · subst hn
        rw [State.core_modCore_self] at hd
        obtain ⟨d', hd'⟩ := hg s (s.core n)
        rw [hd'] at hd
        exact ⟨d, hd⟩
      · rw [State.core_modCore_ne hn] at hd; exact ⟨d, hd⟩

theorem traceRec_dbg (k : Core) (now c e kind data : Nat) : ∃ d, k.traceRec now c e kind data = { k with dbg := d } := by
  unfold Core.traceRec
  dsimp only
  split
  · split
    · obtain ⟨d, h⟩ := core_count_eq { k with dbg := _ } _ _
      exact ⟨_, h⟩
    · obtain ⟨d, h⟩ := core_count_eq { k with dbg := _ } _ _
      exact ⟨_, h⟩
  · exact ⟨_, rfl⟩

theorem traceSwitch_dbg (s : State) (c out : Nat) : ∃ cs, s.traceSwitch c out = { s with cores := cs } ∧
      (∀ n, n ∉ s.held c → ({ s with cores := cs } : State).core n = s.core n) ∧ (∀ n, ∃ d, ({ s with cores := cs } : State).core n = { s.core n with dbg := d }) := by
  unfold State.traceSwitch
  refine fold_dbg (fun t k => (List.range 4).foldl (fun k e => k.traceRec t.now c e 7 out) k) (fun t k => ?_) _ _
  have : ∀ (es : List Nat) (k : Core), ∃ d, es.foldl (fun k e => k.traceRec t.now c e 7 out) k = { k with dbg := d } := by
    intro es
    induction es with
    | nil => intro k; exact ⟨_, rfl⟩
    | cons e es ih =>
      intro k
      obtain ⟨d, h⟩ := traceRec_dbg k t.now c e 7 out
      obtain ⟨d', h'⟩ := ih (k.traceRec t.now c e 7 out)
      exact ⟨d', by rw [List.foldl_cons, h', h]⟩
  exact this _ _

theorem pm_length (f : FaultRec) (n : Nat) : (pmBytes f n).length = 4096 := by
  have h : ∀ ws : List W64, (ws.flatMap (fun w => leBytes 8 w.toNat)).length = 8 * ws.length := flat_len
  unfold pmBytes
  simp only [List.length_append, leBytes_length, h, List.length_replicate, List.length_take]
  omega

theorem vector_fman (s : State) (v : Nat) : (s.vector v).fman = s.fman ∧ (s.vector v).ctxs = s.ctxs := by
  unfold State.vector
  split <;> exact ⟨rfl, rfl⟩

theorem flat_const {α : Type} (n : Nat) (f : α → List Byte) (h : ∀ x, (f x).length = n) (xs : List α) : (xs.flatMap f).length = n * xs.length := by
  induction xs with
  | nil => rfl
  | cons x xs ih => rw [List.flatMap_cons, List.length_append, h, ih, List.length_cons]; rw [Nat.mul_add]; omega

theorem gsave_length (k : Core) (salt : Nat) : (gsaveBytes k salt).length = 360448 := by
  have h4 : ∀ (g : Nat → Nat) (xs : List Nat), (xs.flatMap (fun j => leBytes 4 (g j))).length = 4 * xs.length := fun g => flat_const 4 _ (fun _ => leBytes_length _ _)
  have h8 : ∀ (g : Nat → Nat) (xs : List Nat), (xs.flatMap (fun j => leBytes 8 (g j))).length = 8 * xs.length := fun g => flat_const 8 _ (fun _ => leBytes_length _ _)
  unfold gsaveBytes
  dsimp only
  simp only [List.length_append, List.length_map, List.length_range, h4]
  rw [flat_const 16384 _ (fun i => by rw [h4, List.length_range]), flat_const 512 _ (fun i => by rw [h8, List.length_range]), flat_const 32 _ (fun i => by rw [h4, List.length_range]), List.length_range]

theorem sync_length (s : State) (c : Nat) : (s.syncBytes c).length = 65536 := by
  unfold State.syncBytes
  dsimp only
  have h4 : ∀ (xs : List Nat), (xs.flatMap (fun w => leBytes 4 w)).length = 4 * xs.length := fun xs => flat_const 4 _ (fun _ => leBytes_length _ _) xs
  simp only [List.length_append, List.length_replicate]
  rw [flat_const 4 _ (fun i => leBytes_length _ _), flat_const 16 _ (fun i => by simp only [List.length_append, leBytes_length]), flat_const 1280 _ (fun i => by unfold bitmapOf; simp only [List.length_append, leBytes_length]), h4, List.length_take, List.length_range, List.length_range]
  omega

theorem memReadN_of {m : Mem} {a n : Nat} {bs : List Byte} (hl : bs.length = n) (h : ∀ j, j < n → memRead m (a + j) = bs.getD j 0) : memReadN m a n = bs := by
  subst hl; exact memReadN_ext h

theorem put_many (c w : Nat) (fb : Core → Nat → List Byte) (hw : ∀ k i, (fb k i).length = w) (g : Nat) (ns : List Nat) : ∀ (k : Nat) (s : State), FarClean s → (s.ctx c).gsave = g →
    ∃ m, (((List.range' k ns.length).zip ns).foldl (fun t p => t.farPut ((t.ctx c).gsave + w * p.1) (fb (t.core p.2) p.1)) s) = ({ s with far := { s.far with mem := m } } : State) ∧
      FarClean ({ s with far := { s.far with mem := m } }) ∧
      (∀ i, i < ns.length → ∀ j, j < w → memRead m (g + w * (k + i) + j) = (fb (s.core (ns.getD i 0)) (k + i)).getD j 0) ∧
      (∀ a, a < g + w * k ∨ g + w * (k + ns.length) ≤ a → memRead m a = memRead s.far.mem a) := by
  induction ns with
  | nil => intro k s hcl hg; exact ⟨s.far.mem, rfl, hcl, fun i hi => absurd hi (Nat.not_lt_zero i), fun a _ => rfl⟩
  | cons n ns ih =>
    intro k s hcl hg
    rw [List.length_cons, List.range'_succ, List.zip_cons_cons, List.foldl_cons]
    unfold State.farPut
    obtain ⟨m1, e1, c1, r1⟩ := put_clean hcl (g + w * k) (fb (s.core n) k)
    rw [hw] at r1
    dsimp only
    rw [hg, e1]
    obtain ⟨s1, hs1⟩ : ∃ s1 : State, ({ s with far := { s.far with mem := m1 } } : State) = s1 := ⟨_, rfl⟩
    rw [hs1] at c1
    obtain ⟨m, e2, c2, r2, f2⟩ := ih (k + 1) s1 c1 (by rw [← hs1]; exact hg)
    unfold State.farPut at e2
    dsimp only
    rw [hs1, e2]
    have hfar : ({ s1 with far := { s1.far with mem := m } } : State) = { s with far := { s.far with mem := m } } := by rw [← hs1]
    rw [hfar] at c2 ⊢
    have hm1 : s1.far.mem = m1 := by rw [← hs1]
    rw [hm1] at f2
    have hc1 : ∀ n, s1.core n = s.core n := fun n => by rw [← hs1]; rfl
    refine ⟨m, rfl, c2, fun i hi j hj => ?_, fun a ha => ?_⟩
    · cases i with
      | zero =>
        rw [Nat.add_zero, List.getD_cons_zero, f2 (g + w * k + j) (.inl (by rw [Nat.mul_add]; omega)), r1, if_pos (by omega), Nat.add_sub_cancel_left]
      | succ i =>
        have := r2 i (by omega) j hj
        rw [hc1] at this
        rw [show k + (i + 1) = k + 1 + i by omega, List.getD_cons_succ]
        exact this
    · have h1 : w * (k + 1) = w * k + w := Nat.mul_succ _ _
      have h2 : w * (k + (ns.length + 1)) = w * (k + 1 + ns.length) := by rw [show k + (ns.length + 1) = k + 1 + ns.length by omega]
      have h3 : w * (k + 1) ≤ w * (k + 1 + ns.length) := Nat.mul_le_mul_left _ (by omega)
      rw [h2] at ha
      rw [f2 a (by omega), r1, if_neg (by omega)]

theorem fold_id {α : Type} (f : State → α → State) (xs : List α) (s : State) (h : ∀ x ∈ xs, f s x = s) : xs.foldl f s = s := by
  induction xs with
  | nil => rfl
  | cons x xs ih => rw [List.foldl_cons, h x List.mem_cons_self]; exact ih (fun y hy => h y (List.mem_cons_of_mem _ hy))

theorem cacheOut_none {s : State} {c n : Nat} (h : ∀ l ∈ (s.core n).fc.lines, l.2.ctx ≠ c) : s.cacheOut c n = s := by
  unfold State.cacheOut
  have : (s.core n).fc.lines.filter (fun l => l.2.ctx == c) = [] := List.filter_eq_nil_iff.2 (fun m hm => by simpa using h m hm)
  dsimp only
  rw [this, List.foldl_nil, List.foldl_nil]

end Sys2Proof.Claims
end

