-- ==== Sys2Proof/Laws/OfPlaces.lean ====
section
/-!
SUPPORT. Lemmas about placement, switch-out and resumption, for the proofs of the statements: what their operations do, step by step.
-/

namespace Sys2Proof.Claims

open Machine

theorem freed_leave {k j : Core} (h1 : j.slab.mem = k.slab.mem) (h2 : j.tally.slots = []) (h3 : j.tally.tokens = []) (h4 : j.tally.watches = []) : Freed k j.leave := by
  have hq : ∀ (qs : Tbl Queue) (e : Nat), (tblGet ({} : Queue) (qs.map (fun p => (p.1, p.2.leave))) e).flight = [] ∧ (tblGet ({} : Queue) (qs.map (fun p => (p.1, p.2.leave))) e).onchip = [] ∧
      (tblGet ({} : Queue) (qs.map (fun p => (p.1, p.2.leave))) e).block = .none ∧ (tblGet ({} : Queue) (qs.map (fun p => (p.1, p.2.leave))) e).inForce.enable = false := by
    intro qs e
    induction qs with
    | nil => exact ⟨rfl, rfl, rfl, rfl⟩
    | cons p qs ih =>
      unfold tblGet at ih ⊢
      simp only [List.map_cons, tblFind]
      split
      · exact ⟨rfl, rfl, rfl, rfl⟩
      · exact ih
  exact ⟨rfl, rfl, rfl, rfl, rfl, rfl, rfl, rfl, rfl, rfl, rfl, rfl, h2, h3, h4, rfl, h1, rfl, fun e => hq _ e⟩

/-- Writes of `l` bytes each at a stride of `w`. -/
theorem puts (b w l : Nat) (fb : Nat → List Byte) (hl : ∀ i, (fb i).length = l) (hlw : l ≤ w) (s : State) (xs : List Nat) (f : State → Nat × Nat → State)
    (hf : ∀ t p, (∃ m, t = ({ s with far := { s.far with mem := m } } : State)) → (t.farWrite (b + w * p.1) (fb p.2)).2 = true → f t p = (t.farWrite (b + w * p.1) (fb p.2)).1) :
    ∀ (k : Nat) (m0 : Mem), FarClean ({ s with far := { s.far with mem := m0 } } : State) →
    ∃ m, ((List.range' k xs.length).zip xs).foldl f ({ s with far := { s.far with mem := m0 } } : State) = ({ s with far := { s.far with mem := m } } : State) ∧
      FarClean ({ s with far := { s.far with mem := m } }) ∧
      (∀ i, i < xs.length → ∀ j, j < l → memRead m (b + w * (k + i) + j) = (fb (xs.getD i 0)).getD j 0) ∧
      (∀ a, (∀ i, i < xs.length → a < b + w * (k + i) ∨ b + w * (k + i) + l ≤ a) → memRead m a = memRead m0 a) := by
  induction xs with
  | nil => intro k m0 hcl; exact ⟨m0, rfl, hcl, fun i hi => absurd hi (Nat.not_lt_zero i), fun a _ => rfl⟩
  | cons x xs ih =>
    intro k m0 hcl
    rw [List.length_cons, List.range'_succ, List.zip_cons_cons, List.foldl_cons]
    obtain ⟨m1, e1, c1, r1⟩ := put_clean hcl (b + w * k) (fb x)
    rw [hl] at r1
    rw [hf _ (k, x) ⟨m0, rfl⟩ (by dsimp only; rw [e1])]
    dsimp only
    rw [e1]
    obtain ⟨m, e2, c2, r2, f2⟩ := ih (k + 1) m1 c1
    dsimp only
    rw [e2]
    have hm : ∀ i, w * (k + 1 + i) = w * k + w + w * i := fun i => by rw [Nat.mul_add, Nat.mul_add, Nat.mul_one]
    have hm' : ∀ i, w * (k + (i + 1)) = w * k + w + w * i := fun i => by rw [show k + (i + 1) = k + 1 + i by omega, hm]
    refine ⟨m, rfl, c2, fun i hi j hj => ?_, fun a ha => ?_⟩
    · cases i with
      | zero =>
        rw [Nat.add_zero, List.getD_cons_zero, f2 (b + w * k + j) (fun i _ => .inl (by rw [hm]; omega)), r1, if_pos (by omega), Nat.add_sub_cancel_left]
      | succ i =>
        have := r2 i (by omega) j hj
        rw [show k + (i + 1) = k + 1 + i by omega, List.getD_cons_succ]
        exact this
    · rw [f2 a (fun i hi => ?_), r1, if_neg ?_]
      · have := ha 0 (by simp); rw [Nat.add_zero] at this; omega
      · have := ha (i + 1) (by simpa using hi)
        rw [hm'] at this; rw [hm]; exact this

theorem qids_get (ns : List Nat) : ∀ (i e : Nat), i < ns.length → e < 4 → (ns.flatMap (fun n => (List.range 4).map (fun e => 4 * n + e))).getD (4 * i + e) 0 = 4 * ns.getD i 0 + e := by
  induction ns with
  | nil => intro i e hi; exact absurd hi (Nat.not_lt_zero i)
  | cons n ns ih =>
    intro i e hi he
    rw [List.flatMap_cons]
    cases i with
    | zero =>
      rw [List.getD_eq_getElem?_getD, List.getElem?_append_left (by simp; omega)]
      have : e = 0 ∨ e = 1 ∨ e = 2 ∨ e = 3 := by omega
      rcases this with rfl | rfl | rfl | rfl <;> rfl
    | succ i =>
      rw [List.getD_eq_getElem?_getD, List.getElem?_append_right (by simp; omega), List.getD_cons_succ, ← List.getD_eq_getElem?_getD]
      have := ih i e (by simpa using hi) he
      rw [← this]
      congr 1
      simp
      omega

theorem qids_length (ns : List Nat) : (ns.flatMap (fun n => (List.range 4).map (fun e => 4 * n + e))).length = 4 * ns.length := by
  induction ns with
  | nil => rfl
  | cons n ns ih => rw [List.flatMap_cons, List.length_append, ih, List.length_cons]; simp; omega

theorem quiescent_placed {s : State} {c : Nat} (h : s.quiescent c = true) : (s.ctx c).state = .placed ∧ (s.ctx c).fault = none := by
  unfold State.quiescent at h
  simp only [Bool.and_eq_true] at h
  obtain ⟨⟨⟨⟨⟨⟨⟨h1, h2⟩, -⟩, -⟩, -⟩, -⟩, -⟩, -⟩ := h
  exact ⟨by simpa using h1, by simpa using h2⟩

theorem fold_at (g : Nat → Nat → Core → Core) (ns : List Nat) : ∀ (k : Nat) (s : State),
    ∃ cs, ((List.range' k ns.length).zip ns).foldl (fun (t : State) p => t.modCore p.2 (g p.1 p.2)) s = { s with cores := cs } ∧
      (∀ n, n ∉ ns → ({ s with cores := cs } : State).core n = s.core n) ∧
      (ns.Nodup → ∀ i, i < ns.length → ({ s with cores := cs } : State).core (ns.getD i 0) = g (k + i) (ns.getD i 0) (s.core (ns.getD i 0))) := by
  induction ns with
  | nil => intro k s; exact ⟨s.cores, rfl, fun _ _ => rfl, fun _ i h => absurd h (Nat.not_lt_zero i)⟩
  | cons a ns ih =>
    intro k s
    rw [List.length_cons, List.range'_succ, List.zip_cons_cons, List.foldl_cons]
    obtain ⟨cs, h1, h2, h3⟩ := ih (k + 1) (s.modCore a (g k a))
    refine ⟨cs, by dsimp only; rw [h1]; rfl, fun n hn => ?_, fun hd i hi => ?_⟩
    · rw [List.mem_cons, not_or] at hn
      exact (h2 n hn.2).trans (State.core_modCore_ne hn.1 _ _)
    · rw [List.nodup_cons] at hd
      cases i with
      | zero => exact (h2 a hd.1).trans (State.core_modCore_self _ _ _)
      | succ i =>
        have hi' : i < ns.length := by simpa using hi
        have := h3 hd.2 i hi'
        rw [List.getD_cons_succ, show k + (i + 1) = k + 1 + i by omega]
        refine this.trans ?_
        have hm : ns.getD i 0 ∈ ns := by rw [List.getD_eq_getElem?_getD, List.getElem?_eq_getElem hi']; exact List.getElem_mem hi'
        rw [State.core_modCore_ne (fun e : ns.getD i 0 = a => hd.1 (e ▸ hm))]

theorem load_four (n : Nat) (b : Tbl Nat) (d0 d1 d2 d3 : List Nat) (s : State) :
    ∃ cs, [(4 * n, d0), (4 * n + 1, d1), (4 * n + 2, d2), (4 * n + 3, d3)].foldl (fun (t : State) q => t.modQueue (q.1 / 4) (q.1 % 4) (fun x => x.load q.2 (tblFind q.1 b))) s = { s with cores := cs } ∧
      (∀ m, m ≠ n → ({ s with cores := cs } : State).core m = s.core m) ∧
      (({ s with cores := cs } : State).core n = { s.core n with queues := (({ s with cores := cs } : State).core n).queues }) ∧
      (∀ e, e < 4 → (({ s with cores := cs } : State).core n).queue e = ((s.core n).queue e).load ([d0, d1, d2, d3].getD e []) (tblFind (4 * n + e) b)) := by
  refine ⟨_, rfl, fun m hm => ?_, ?_, fun e he => ?_⟩
  all_goals
    simp only [List.foldl_cons, List.foldl_nil]
    rw [show 4 * n / 4 = n by omega, show 4 * n % 4 = 0 by omega, show (4 * n + 1) / 4 = n by omega, show (4 * n + 1) % 4 = 1 by omega, show (4 * n + 2) / 4 = n by omega, show (4 * n + 2) % 4 = 2 by omega,
      show (4 * n + 3) / 4 = n by omega, show (4 * n + 3) % 4 = 3 by omega]
    unfold State.modQueue State.setQueue State.queue
  · have : ∀ (t : State) k, (t.setCore n k).core m = t.core m := fun t k => tblGet_tblSet_ne _ hm _ _
    show (State.setCore _ _ _).core m = _
    simp only [this]
  · have : ∀ (t : State) k, (t.setCore n k).core n = k := fun t k => tblGet_tblSet_self _ _ _ _
    have hq : ∀ (k j : Core), (∃ q, j = { k with queues := q }) → j = { k with queues := j.queues } := by rintro k j ⟨q, rfl⟩; rfl
    refine hq _ _ ?_
    show ∃ q, (State.setCore _ _ _).core n = _
    simp only [this]
    exact ⟨_, rfl⟩
  · have : ∀ (t : State) k, (t.setCore n k).core n = k := fun t k => tblGet_tblSet_self _ _ _ _
    show ((State.setCore _ _ _).core n).queue e = _
    simp only [this]
    unfold Core.setQueue Core.queue
    have : e = 0 ∨ e = 1 ∨ e = 2 ∨ e = 3 := by omega
    rcases this with rfl | rfl | rfl | rfl <;> simp [tblGet_tblSet_self, tblGet_tblSet_ne]

theorem load_all (b : Tbl Nat) (ns : List Nat) : ∀ (ds : List (List Nat)) (s : State), ds.length = 4 * ns.length →
    ∃ cs, ((ns.flatMap (fun n => (List.range 4).map (fun e => 4 * n + e))).zip ds).foldl (fun (t : State) q => t.modQueue (q.1 / 4) (q.1 % 4) (fun x => x.load q.2 (tblFind q.1 b))) s = { s with cores := cs } ∧
      (∀ n, n ∉ ns → ({ s with cores := cs } : State).core n = s.core n) ∧
      (ns.Nodup → ∀ i, i < ns.length → ({ s with cores := cs } : State).core (ns.getD i 0) = { s.core (ns.getD i 0) with queues := (({ s with cores := cs } : State).core (ns.getD i 0)).queues } ∧
        ∀ e, e < 4 → (({ s with cores := cs } : State).core (ns.getD i 0)).queue e = ((s.core (ns.getD i 0)).queue e).load (ds.getD (4 * i + e) []) (tblFind (4 * ns.getD i 0 + e) b)) := by
  induction ns with
  | nil => intro ds s _; exact ⟨s.cores, rfl, fun _ _ => rfl, fun _ i h => absurd h (Nat.not_lt_zero i)⟩
  | cons a ns ih =>
    intro ds s hl
    match ds, hl with
    | d0 :: d1 :: d2 :: d3 :: ds, hl =>
    obtain ⟨c1, e1, n1, k1, q1⟩ := load_four a b d0 d1 d2 d3 s
    obtain ⟨cs, e2, n2, m2⟩ := ih ds ({ s with cores := c1 } : State) (by simp at hl; omega)
    refine ⟨cs, ?_, fun n hn => ?_, fun hd i hi => ?_⟩
    · rw [List.flatMap_cons]
      show ((4 * a, d0) :: (4 * a + 1, d1) :: (4 * a + 2, d2) :: (4 * a + 3, d3) :: (ns.flatMap (fun n => (List.range 4).map (fun e => 4 * n + e))).zip ds).foldl _ s = _
      rw [show ∀ ys : List (Nat × List Nat), (4 * a, d0) :: (4 * a + 1, d1) :: (4 * a + 2, d2) :: (4 * a + 3, d3) :: ys = [(4 * a, d0), (4 * a + 1, d1), (4 * a + 2, d2), (4 * a + 3, d3)] ++ ys from fun _ => rfl,
        List.foldl_append, e1, e2]
    · rw [List.mem_cons, not_or] at hn
      exact (n2 n hn.2).trans (n1 n hn.1)
    · rw [List.nodup_cons] at hd
      cases i with
      | zero =>
        rw [List.getD_cons_zero]
        have h0 := n2 a hd.1
        have h0' : ({ s with cores := cs } : State).core a = ({ s with cores := c1 } : State).core a := h0
        rw [h0']
        refine ⟨k1, fun e he => ?_⟩
        rw [q1 e he]
        have : e = 0 ∨ e = 1 ∨ e = 2 ∨ e = 3 := by omega
        rcases this with rfl | rfl | rfl | rfl <;> rfl
      | succ i =>
        have hi' : i < ns.length := by simpa using hi
        obtain ⟨h3, h4⟩ := m2 hd.2 i hi'
        have hm : ns.getD i 0 ∈ ns := by rw [List.getD_eq_getElem?_getD, List.getElem?_eq_getElem hi']; exact List.getElem_mem hi'
        have hne : ns.getD i 0 ≠ a := fun e => hd.1 (e ▸ hm)
        rw [n1 _ hne] at h3 h4
        rw [List.getD_cons_succ]
        refine ⟨h3, fun e he => ?_⟩
        rw [show 4 * (i + 1) + e = 4 * i + e + 1 + 1 + 1 + 1 by omega, List.getD_cons_succ, List.getD_cons_succ, List.getD_cons_succ, List.getD_cons_succ]
        exact h4 e he

/-- A change of every entry of a table. -/
theorem tblGet_map {α : Type} (d : α) (f : Nat → α → α) (hf : ∀ k, f k d = d) (t : Tbl α) (k : Nat) : tblGet d (t.map (fun p => (p.1, f p.1 p.2))) k = f k (tblGet d t k) := by
  unfold tblGet
  induction t with
  | nil => exact (hf k).symm
  | cons p t ih =>
    rw [List.map_cons]
    unfold tblFind
    by_cases h : p.1 = k
    · rw [if_pos h, if_pos h, h]; rfl
    · rw [if_neg h, if_neg h]; exact ih

theorem shared_nil (r : Tbl Nat) : routersShared ({} : Ctx).plan_.routers r = false := rfl

theorem readImage_clean {s : State} {a : Nat} (h : FarClean s) (h1 : a + leAt (memReadN s.far.mem a 128) 8 4 ≤ farTop) (h2 : 128 < leAt (memReadN s.far.mem a 128) 8 4) :
    s.readImage a = (s, imageOf s a, false) := by
  unfold State.readImage
  rw [show min 128 (farTop - a) = 128 by omega, fread_clean h.1 (by omega)]
  dsimp only
  rw [if_neg (by rw [memReadN_length]; omega), fread_clean h.1 h1]
  rfl

theorem attempt_one {s : State} {c now : Nat} (h1 : 1 ∈ (s.advanceTo now).pci.running) (h2 : (s.advanceTo now).fman.tables = true) (h3 : (s.advanceTo now).candidates = [c]) :
    exec (.placementAttempt now) s = .next (((s.advanceTo now).tryPlace c).1.markYielding
      (if ((s.advanceTo now).tryPlace c).2 != 0 && !permanent ((s.advanceTo now).tryPlace c).2 then some (c, ((s.advanceTo now).tryPlace c).2) else none)) := by
  show execPlacementAttempt now s = _
  unfold execPlacementAttempt
  dsimp only
  rw [if_pos ⟨by simpa using h1, h2⟩]
  unfold State.placeAll
  dsimp only
  rw [h3]
  rfl

theorem ctx_map (s : State) (f : Nat → Ctx → Ctx) (hf : ∀ k, f k {} = {}) (d : Nat) : ({ s with ctxs := s.ctxs.map (fun p => (p.1, f p.1 p.2)) } : State).ctx d = f d (s.ctx d) := by
  unfold State.ctx
  exact tblGet_map ({} : Ctx) f hf s.ctxs d

theorem vector_only (s : State) (v : Nat) : (s.vector v).ctxs = s.ctxs ∧ (s.vector v).cores = s.cores ∧ (s.vector v) = { s with pci := (s.vector v).pci, host := (s.vector v).host, dbg := (s.vector v).dbg } := by
  unfold State.vector
  split <;> exact ⟨rfl, rfl, rfl⟩

theorem vector_same {s t : State} (v : Nat) (h1 : s.pci = t.pci) (h2 : s.host = t.host) (h3 : s.dbg = t.dbg) : (s.vector v).pci = (t.vector v).pci ∧ (s.vector v).host = (t.vector v).host ∧ (s.vector v).dbg = (t.vector v).dbg := by
  have e : s = { s with pci := t.pci, host := t.host, dbg := t.dbg } := by cases s; cases t; dsimp only at h1 h2 h3; subst h1 h2 h3; rfl
  rw [e]
  by_cases h : bitOf (t.pci.msixWord v 3) 0 = true
  · unfold State.vector; dsimp only; rw [if_pos h, if_pos h]; exact ⟨rfl, rfl, rfl⟩
  · unfold State.vector; dsimp only; rw [if_neg h, if_neg h]; exact ⟨rfl, rfl, rfl⟩

theorem loadGsave_keep (k : Core) (bs : List Byte) : (k.loadGsave bs) = { k with ge := (k.loadGsave bs).ge, me := (k.loadGsave bs).me } ∧
    (k.loadGsave bs).ge = { k.ge with slots := (k.loadGsave bs).ge.slots } ∧ ∀ j, ((k.loadGsave bs).gang j).wait = (k.gang j).wait := by
  have h : ∀ (xs : List Nat) (f : Core → Nat → Gang), (∀ k i, (f k i).wait = (k.gang i).wait) → ∀ k : Core,
      xs.foldl (fun k i => k.setGang i (f k i)) k = { k with ge := { k.ge with slots := (xs.foldl (fun k i => k.setGang i (f k i)) k).ge.slots } } ∧
      ∀ j, ((xs.foldl (fun k i => k.setGang i (f k i)) k).gang j).wait = (k.gang j).wait := by
    intro xs f hf
    induction xs with
    | nil => intro k; exact ⟨rfl, fun _ => rfl⟩
    | cons x xs ih =>
      intro k
      obtain ⟨h1, h2⟩ := ih (k.setGang x (f k x))
      rw [List.foldl_cons]
      refine ⟨h1, fun j => ?_⟩
      rw [h2]
      by_cases hj : j = x
      · subst hj
        have : (k.setGang j (f k j)).gang j = f k j := tblGet_tblSet_self _ _ _ _
        rw [this, hf]
      · have : (k.setGang x (f k x)).gang j = k.gang j := tblGet_tblSet_ne _ hj _ _
        rw [this]
  unfold Core.loadGsave
  dsimp only
  obtain ⟨h1, h2⟩ := h (List.range 16) (fun k i => { k.gang i with
    v := tblOfWords (words4 ((bs.drop (0x4000 * i)).take 0x4000)), s := tblOfWords ((chunks 8 64 ((bs.drop (0x40000 + 0x200 * i)).take 0x200)).map ofLe)
    p := tblOfWords ((words4 ((bs.drop (0x42000 + 0x20 * i)).take 0x20)).set 0 0) }) (fun _ _ => rfl) k
  obtain ⟨k', hk'⟩ : ∃ k', (List.range 16).foldl (fun (k : Core) i => k.setGang i ((fun (k : Core) i => { k.gang i with
    v := tblOfWords (words4 ((bs.drop (0x4000 * i)).take 0x4000)), s := tblOfWords ((chunks 8 64 ((bs.drop (0x40000 + 0x200 * i)).take 0x200)).map ofLe)
    p := tblOfWords ((words4 ((bs.drop (0x42000 + 0x20 * i)).take 0x20)).set 0 0) }) k i)) k = k' := ⟨_, rfl⟩
  rw [hk'] at h1 h2
  simp only at hk'
  rw [hk']
  refine ⟨?_, ?_, fun j => ?_⟩
  · rw [h1]
  · rw [h1]
  · exact h2 j

/-- What comes back from a synchronisation save area: tallies, barrier units and tokens. -/
def SyncOnly (s t : State) : Prop := t = { s with cores := t.cores, hub := t.hub } ∧ ∀ n, ∃ a, t.core n = { s.core n with tally := a }

theorem SyncOnly.refl (s : State) : SyncOnly s s := ⟨rfl, fun _ => ⟨_, rfl⟩⟩
theorem SyncOnly.trans {s t u : State} (h : SyncOnly s t) (g : SyncOnly t u) : SyncOnly s u := by
  refine ⟨by rw [g.1, h.1], fun n => ?_⟩
  obtain ⟨a, ha⟩ := h.2 n
  obtain ⟨b, hb⟩ := g.2 n
  exact ⟨b, by rw [hb, ha]⟩
theorem SyncOnly.foldl {α : Type} (f : State → α → State) (hf : ∀ t x, SyncOnly t (f t x)) (xs : List α) (s : State) : SyncOnly s (xs.foldl f s) := by
  induction xs generalizing s with
  | nil => exact SyncOnly.refl s
  | cons x xs ih => exact (hf s x).trans (ih (f s x))
theorem SyncOnly.modCore (s : State) (n : Nat) (f : Core → Core) (hf : ∀ k, ∃ a, f k = { k with tally := a }) : SyncOnly s (s.modCore n f) := by
  refine ⟨rfl, fun m => ?_⟩
  by_cases h : m = n
  · subst h
    obtain ⟨a, ha⟩ := hf (s.core m)
    exact ⟨a, by rw [State.core_modCore_self, ha]⟩
  · exact ⟨_, State.core_modCore_ne h _ _⟩

theorem loadSync_only (s : State) (c : Nat) (bs : List Byte) : SyncOnly s (s.loadSync c bs) := by
  unfold State.loadSync
  extract_lets x s1 s2
  have a : SyncOnly s s1 := SyncOnly.foldl _ (fun t p => by
    unfold State.setTally
    split
    · exact ⟨rfl, fun _ => ⟨_, rfl⟩⟩
    · exact SyncOnly.modCore _ _ _ (fun k => ⟨_, rfl⟩)) _ _
  have hu : ∀ (t : State) u b, SyncOnly t (t.setUnit u b) := fun t u b => ⟨rfl, fun _ => ⟨_, rfl⟩⟩
  have b : SyncOnly s1 s2 := SyncOnly.foldl _ (fun t p => hu _ _ _) _ _
  exact (a.trans b).trans (SyncOnly.foldl _ (fun t p => SyncOnly.modCore _ _ _ (fun k => ⟨_, rfl⟩)) _ _)

theorem fold_rel (R : Nat → Core → Core → Prop) (f : State → Nat → State) (ns : List Nat) (hnd : ns.Nodup) (s : State)
    (h : ∀ n ∈ ns, ∀ cs, ({ s with cores := cs } : State).core n = s.core n → ∃ k, f { s with cores := cs } n = ({ s with cores := cs } : State).setCore n k ∧ R n (s.core n) k) :
    ∃ cs, ns.foldl f s = { s with cores := cs } ∧ (∀ n, n ∉ ns → ({ s with cores := cs } : State).core n = s.core n) ∧ ∀ n ∈ ns, R n (s.core n) (({ s with cores := cs } : State).core n) := by
  have key : ∀ (ns : List Nat), ns.Nodup → ∀ cs0, (∀ n ∈ ns, ({ s with cores := cs0 } : State).core n = s.core n) →
      (∀ n ∈ ns, ∀ cs, ({ s with cores := cs } : State).core n = s.core n → ∃ k, f { s with cores := cs } n = ({ s with cores := cs } : State).setCore n k ∧ R n (s.core n) k) →
      ∃ cs, ns.foldl f { s with cores := cs0 } = { s with cores := cs } ∧ (∀ n, n ∉ ns → ({ s with cores := cs } : State).core n = ({ s with cores := cs0 } : State).core n) ∧ ∀ n ∈ ns, R n (s.core n) (({ s with cores := cs } : State).core n) := by
    intro ns
    induction ns with
    | nil => intro _ cs0 _ _; exact ⟨cs0, rfl, fun _ _ => rfl, fun n h => absurd h List.not_mem_nil⟩
    | cons a ns ih =>
      intro hnd cs0 h0 hf
      rw [List.nodup_cons] at hnd
      obtain ⟨k, e1, r1⟩ := hf a List.mem_cons_self cs0 (h0 a List.mem_cons_self)
      have hne : ∀ n ∈ ns, n ≠ a := fun n hn e => hnd.1 (e ▸ hn)
      obtain ⟨cs, e2, n2, m2⟩ := ih hnd.2 (tblSet a k cs0) (fun n hn => (tblGet_tblSet_ne _ (hne n hn) _ _).trans (h0 n (List.mem_cons_of_mem _ hn))) (fun n hn => hf n (List.mem_cons_of_mem _ hn))
      refine ⟨cs, ?_, fun n hn => ?_, fun n hn => ?_⟩
      · rw [List.foldl_cons, e1]; exact e2
      · rw [List.mem_cons, not_or] at hn
        exact (n2 n hn.2).trans (tblGet_tblSet_ne _ hn.1 _ _)
      · rcases List.mem_cons.1 hn with rfl | hn
        · have : ({ s with cores := cs } : State).core n = k := (n2 n hnd.1).trans (tblGet_tblSet_self _ _ _ _)
          rw [this]; exact r1
        · exact m2 n hn
  exact key ns hnd s.cores (fun _ _ => rfl) h

theorem restore_fold (c g : Nat) (F : FarMem) (hb : F.bad = []) (ps : List (Nat × Nat)) (hp : ∀ p ∈ ps, g + 360448 * p.1 + 360448 ≤ farTop) : ∀ s : State, s.far = F →
    ps.foldl (fun a p => restoreCore c (g + 360448 * p.1) 360448 p.2 a) (s, true) = (ps.foldl (fun t p => t.modCore p.2 (fun k => k.loadGsave (memReadN F.mem (g + 360448 * p.1) 360448))) s, true) := by
  induction ps with
  | nil => intro s _; rfl
  | cons p ps ih =>
    intro s hs
    rw [List.foldl_cons, List.foldl_cons]
    have : restoreCore c (g + 360448 * p.1) 360448 p.2 (s, true) = (s.modCore p.2 (fun k => k.loadGsave (memReadN F.mem (g + 360448 * p.1) 360448)), true) := by
      unfold restoreCore
      dsimp only
      rw [fread_clean (by rw [hs]; exact hb) (hp p List.mem_cons_self), hs]
      rfl
    rw [this]
    exact ih (fun q hq => hp q (List.mem_cons_of_mem _ hq)) _ hs

/-- What a core's resume leaves: its queues take their tails and begin their times afresh. -/
def Resumed (b : Tbl Nat) (now n : Nat) (k j : Core) : Prop :=
  j = { k with ge := { k.ge with rejected := none }, queues := j.queues } ∧
  ∀ e, e < 4 → j.queue e = { k.queue e with blockStart := now, tokSince := (k.queue e).tokSince.map (fun _ => now), ordSince := (k.queue e).ordSince.map (fun _ => now)
                                            tail := match tblFind (4 * n + e) b with | some v => min v ((k.queue e).size - 1) | none => (k.queue e).tail }

theorem queue_self (t : State) (n e : Nat) (q : Queue) : (t.setQueue n e q).queue n e = q := by
  unfold State.queue State.setQueue
  rw [show (t.setCore n ((t.core n).setQueue e q)).core n = (t.core n).setQueue e q from tblGet_tblSet_self _ _ _ _]
  exact tblGet_tblSet_self _ _ _ _

theorem progress_none {s : State} {n e : Nat} (h : (s.queue n e).block = .none) : s.progress n e = s := by
  unfold State.progress
  dsimp only
  rw [h]

theorem resumeQueue_none (t : State) (c n e : Nat) (h : (t.queue n e).block = .none) :
    t.resumeQueue c n e = t.setQueue n e { t.queue n e with blockStart := t.ctxNow c, tokSince := (t.queue n e).tokSince.map (fun _ => t.ctxNow c), ordSince := (t.queue n e).ordSince.map (fun _ => t.ctxNow c)
                                                            tail := match tblFind (4 * n + e) (t.ctx c).bells with | some v => min v ((t.queue n e).size - 1) | none => (t.queue n e).tail } := by
  have h1 : t.resumeQueue c n e = (t.setQueue n e { t.queue n e with block := .none, blockStart := t.ctxNow c, tokSince := (t.queue n e).tokSince.map (fun _ => t.ctxNow c), ordSince := (t.queue n e).ordSince.map (fun _ => t.ctxNow c)
                                                                     tail := match tblFind (4 * n + e) (t.ctx c).bells with | some v => min v ((t.queue n e).size - 1) | none => (t.queue n e).tail }).progress n e := by
    unfold State.resumeQueue
    dsimp only
    rw [h]
    rfl
  rw [h1, progress_none (by rw [queue_self])]
  congr 1
  rw [← h]

theorem resume_core (s : State) (c n : Nat) (cs : Tbl Core) (h1 : ∀ g, (({ s with cores := cs } : State).gang n g).wait = .none) (h2 : (({ s with cores := cs } : State).core n).ge.launches = [])
    (h3 : ∀ e, (({ s with cores := cs } : State).queue n e).block = .none ∧ (({ s with cores := cs } : State).queue n e).flight = []) :
    ∃ k, (let t := ({ s with cores := cs } : State)
      let t := t.modCore n (fun k => { k with ge := { k.ge with rejected := none, launches := k.ge.launches.map (fun l => { l with start := t.ctxNow c }) } })
      let t := (List.range 16).foldl (fun t i => t.resumeGang c n i) t
      let t := t.modCore n (fun k => { k with queues := k.queues.map (fun q => (q.1, { q.2 with flight := q.2.flight.map (fun f => if f.opc = 0x20 then { f with start := t.ctxNow c } else f) })) })
      (List.range 4).foldl (fun t e => t.resumeQueue c n e) t) = ({ s with cores := cs } : State).setCore n k ∧ Resumed (s.ctx c).bells (s.ctxNow c) n (({ s with cores := cs } : State).core n) k := by
  obtain ⟨t, ht⟩ : ∃ t : State, ({ s with cores := cs } : State) = t := ⟨_, rfl⟩
  rw [ht] at h1 h2 h3 ⊢
  have hx : ∀ d, t.ctx d = s.ctx d := fun d => by rw [← ht]; rfl
  have hn : t.ctxNow c = s.ctxNow c := by rw [← ht]; rfl
  obtain ⟨k, hk⟩ : ∃ k, t.core n = k := ⟨_, rfl⟩
  have hset : ∀ (a b : Core), (t.setCore n a).setCore n b = t.setCore n b := fun a b => by unfold State.setCore; dsimp only; rw [tblSet_tblSet_self]
  have hget : ∀ a, (t.setCore n a).core n = a := fun a => tblGet_tblSet_self _ _ _ _
  have hmod : ∀ a f, (t.setCore n a).modCore n f = t.setCore n (f a) := fun a f => by unfold State.modCore; rw [hget, hset]
  dsimp only
  obtain ⟨t1, ht1⟩ : ∃ t1, t.modCore n (fun k => { k with ge := { k.ge with rejected := none, launches := k.ge.launches.map (fun l => { l with start := t.ctxNow c }) } }) = t1 := ⟨_, rfl⟩
  have e1 : t1 = t.setCore n { k with ge := { k.ge with rejected := none } } := by
    rw [← ht1]
    unfold State.modCore
    dsimp only
    rw [hk] at h2 ⊢
    rw [h2, List.map_nil, ← h2]
    -- k.ge.launches = [] by rw [← hk]; exact h2]
  rw [ht1, e1]
  rw [fold_id _ (List.range 16) _ (fun g _ => by
    have hw : ((t.setCore n { k with ge := { k.ge with rejected := none } }).gang n g).wait = .none := by
      unfold State.gang; rw [hget]; have := h1 g; unfold State.gang at this; rw [hk] at this; exact this
    unfold State.resumeGang
    dsimp only
    rw [hw])]
  rw [hmod]
  obtain ⟨k2, hk2⟩ : ∃ k2 : Core, ({ k with ge := { k.ge with rejected := none }, queues := k.queues.map (fun q => (q.1, { q.2 with flight := q.2.flight.map (fun f => if f.opc = 0x20 then { f with start := (t.setCore n { k with ge := { k.ge with rejected := none } }).ctxNow c } else f) })) } : Core) = k2 := ⟨_, rfl⟩
  rw [show ({ ({ k with ge := { k.ge with rejected := none } } : Core) with queues := ({ k with ge := { k.ge with rejected := none } } : Core).queues.map (fun q => (q.1, { q.2 with flight := q.2.flight.map (fun f => if f.opc = 0x20 then { f with start := (t.setCore n { k with ge := { k.ge with rejected := none } }).ctxNow c } else f) })) } : Core) = k2 from hk2]
  have q2 : ∀ e, k2.queue e = k.queue e := fun e => by
    rw [← hk2]
    have := tblGet_map ({} : Queue) (fun _ q => { q with flight := q.flight.map (fun f => if f.opc = 0x20 then { f with start := (t.setCore n { k with ge := { k.ge with rejected := none } }).ctxNow c } else f) }) (fun _ => rfl) k.queues e
    refine this.trans ?_
    have hf : (k.queue e).flight = [] := by rw [← hk]; exact (h3 e).2
    show ({ k.queue e with flight := (k.queue e).flight.map _ } : Queue) = k.queue e
    rw [hf, List.map_nil, ← hf]
  have b2 : ∀ e, (k2.queue e).block = .none := fun e => by rw [q2, ← hk]; exact (h3 e).1
  obtain ⟨upd, hupd⟩ : ∃ upd : Nat → Queue → Queue, ∀ e q, upd e q = { q with blockStart := s.ctxNow c, tokSince := q.tokSince.map (fun _ => s.ctxNow c), ordSince := q.ordSince.map (fun _ => s.ctxNow c), tail := match tblFind (4 * n + e) (s.ctx c).bells with | some v => min v (q.size - 1) | none => q.tail } := ⟨_, fun _ _ => rfl⟩
  have step : ∀ (a : Core) e, (a.queue e).block = .none → (t.setCore n a).resumeQueue c n e = t.setCore n (a.setQueue e (upd e (a.queue e))) := fun a e hb => by
    have hqa : (t.setCore n a).queue n e = a.queue e := by unfold State.queue; rw [hget]
    rw [resumeQueue_none _ _ _ _ (by rw [hqa]; exact hb), hqa, hupd]
    unfold State.setQueue
    rw [hset, hget, show (t.setCore n a).ctxNow c = s.ctxNow c from hn, show (t.setCore n a).ctx c = s.ctx c from hx c]
  have hqe : ∀ (a : Core) e q, (a.setQueue e q).queue e = q := fun a e q => tblGet_tblSet_self _ _ _ _
  have hqn : ∀ (a : Core) e d q, d ≠ e → (a.setQueue e q).queue d = a.queue d := fun a e d q h => tblGet_tblSet_ne _ h _ _
  rw [show List.range 4 = [0, 1, 2, 3] from rfl]
  rw [List.foldl_cons, List.foldl_cons, List.foldl_cons, List.foldl_cons, List.foldl_nil]
  rw [step _ 0 (b2 0)]
  rw [step _ 1 (by rw [hqn _ _ _ _ (by simp)]; exact b2 1), hqn _ _ 1 _ (by simp)]
  rw [step _ 2 (by rw [hqn _ _ _ _ (by simp), hqn _ _ _ _ (by simp)]; exact b2 2), hqn _ _ 2 _ (by simp), hqn _ _ 2 _ (by simp)]
  rw [step _ 3 (by rw [hqn _ _ _ _ (by simp), hqn _ _ _ _ (by simp), hqn _ _ _ _ (by simp)]; exact b2 3), hqn _ _ 3 _ (by simp), hqn _ _ 3 _ (by simp), hqn _ _ 3 _ (by simp)]
  refine ⟨_, rfl, ?_, fun e he => ?_⟩
  · have hq : ∀ j : Core, (∃ q, j = { k with ge := { k.ge with rejected := none }, queues := q }) → j = { k with ge := { k.ge with rejected := none }, queues := j.queues } := by rintro j ⟨q, rfl⟩; rfl
    rw [hk]
    refine hq _ ?_
    rw [← hk2]
    exact ⟨_, rfl⟩
  · rw [hk, ← q2, ← hupd]
    have : e = 0 ∨ e = 1 ∨ e = 2 ∨ e = 3 := by omega
    rcases this with rfl | rfl | rfl | rfl
    · rw [hqn _ _ _ _ (by simp), hqn _ _ _ _ (by simp), hqn _ _ _ _ (by simp), hqe]
    · rw [hqn _ _ _ _ (by simp), hqn _ _ _ _ (by simp), hqe]
    · rw [hqn _ _ _ _ (by simp), hqe]
    · rw [hqe]

theorem moves_idle (t : State) (c n e : Nat) (h : ((t.core n).mv e).recs = []) : CoreIs n t ((t.resumeMoves c n e).pumpMoves n e) (t.core n) := by
  have : t.resumeMoves c n e = t := by unfold State.resumeMoves; dsimp only; rw [h, List.foldl_nil]
  rw [this]
  exact pump_idle t n e (fun x hx => by rw [h] at hx; exact absurd hx List.not_mem_nil)

/-- The pump of the cores whose move engines hold no record changes only event counters. -/
theorem pump_all (c : Nat) (ns : List Nat) : ∀ (s : State), (∀ n ∈ ns, (s.core n).mv0.recs = [] ∧ (s.core n).mv1.recs = []) →
    ∃ cs, ns.foldl (fun (t : State) n => [2, 3].foldl (fun t e => (t.resumeMoves c n e).pumpMoves n e) t) s = { s with cores := cs } ∧
      (∀ n, n ∉ ns → ({ s with cores := cs } : State).core n = s.core n) ∧ ∀ n, ∃ d, ({ s with cores := cs } : State).core n = { s.core n with dbg := d } := by
  induction ns with
  | nil => intro s _; exact ⟨s.cores, rfl, fun _ _ => rfl, fun _ => ⟨_, rfl⟩⟩
  | cons a ns ih =>
    intro s h
    rw [List.foldl_cons, List.foldl_cons, List.foldl_cons, List.foldl_nil]
    obtain ⟨⟨c1, e1⟩, n1, d1, m1⟩ := moves_idle s c a 2 (h a List.mem_cons_self).1
    obtain ⟨s1, hs1⟩ : ∃ s1, (s.resumeMoves c a 2).pumpMoves a 2 = s1 := ⟨_, rfl⟩
    rw [hs1] at e1 n1 m1 ⊢
    obtain ⟨⟨c2, e2⟩, n2, d2, m2⟩ := moves_idle s1 c a 3 (by rw [m1]; exact (h a List.mem_cons_self).2)
    obtain ⟨s2, hs2⟩ : ∃ s2, (s1.resumeMoves c a 3).pumpMoves a 3 = s2 := ⟨_, rfl⟩
    rw [hs2] at e2 n2 m2 ⊢
    have key : ∀ n, ∃ d, s2.core n = { s.core n with dbg := d } := fun n => by
      by_cases hn : n = a
      · subst hn; exact ⟨_, by rw [m2, m1]⟩
      · exact ⟨_, (n2 n hn).trans (n1 n hn)⟩
    obtain ⟨cs, g, gn, gm⟩ := ih s2 (fun n hn => by
      obtain ⟨d, hd⟩ := key n
      rw [hd]; exact h n (List.mem_cons_of_mem _ hn))
    have e3 : ∀ x, ({ s2 with cores := x } : State) = { s with cores := x } := fun x => by rw [e2, e1]
    rw [e3] at g gn gm
    refine ⟨cs, g, fun n hn => ?_, fun n => ?_⟩
    · rw [List.mem_cons, not_or] at hn
      exact (gn n hn.2).trans ((n2 n hn.1).trans (n1 n hn.1))
    · obtain ⟨d, hd⟩ := gm n
      obtain ⟨d', hd'⟩ := key n
      exact ⟨d, by rw [hd, hd']⟩

end Sys2Proof.Claims
end

