-- ==== Sys2Proof/Laws/OfHost.lean ====
section
/-!
SUPPORT. Lemmas about the host's registers and accesses, for the proofs of the statements: what their operations do, step by step.
-/

namespace Sys2Proof.Claims

open Machine

theorem reg4 (s : State) {o v : Nat} (h1 : o % 4 = 0) (h2 : o + 4 ≤ 0x4000000) (hv : v < 2 ^ 32) : exec (.registerWrite o 4 v) s = .next (s.writeWord o v) := by
  show execRegisterWrite o 4 v s = _
  unfold execRegisterWrite
  rw [if_neg (by unfold bar0Ok; simp; omega)]
  show Host.Outcome.next (s.writeWord (o + 4 * 0) (v / 2 ^ (32 * 0))) = _
  rw [Nat.add_zero, Nat.pow_zero, Nat.div_one]

theorem rung_iff (s : State) (core bit : Nat) : (s.pci.running.contains core = true ∧ s.pci.rings core bit = true) ↔ Rung s core bit := by
  unfold Rung HostPort.rings
  rw [Bool.and_eq_true, List.contains_iff_mem]

theorem modBump (t : State) (c : Nat) (f : Ctx → Ctx) (d : Nat) : ((t.modCtx c f).bump c).ctx d = if d = c then { f (t.ctx c) with seq := ((f (t.ctx c)).seq + 2) % 2 ^ 32 } else t.ctx d := by
  unfold State.bump
  by_cases h : d = c
  · rw [if_pos h, h, State.ctx_modCtx_self, State.ctx_modCtx_self]
  · rw [if_neg h, State.ctx_modCtx_ne h, State.ctx_modCtx_ne h]

/-- A change of each context of a table whose entries satisfy a test. -/
theorem fold_ctxs (g : State → Nat → State) (q : Ctx → Bool) (f : Ctx → Ctx) (hg : ∀ t c d, (g t c).ctx d = if d = c then f (t.ctx c) else t.ctx d) (hx : ∀ t c, ∃ x, g t c = { t with ctxs := x })
    (hq : ∀ y : Ctx, f {} = {} ∨ q {} = false) (ps : List (Nat × Ctx)) : ∀ (s : State), (ps.map Prod.fst).Nodup →
    ∃ x, ps.foldl (fun t p => if q p.2 then g t p.1 else t) s = { s with ctxs := x } ∧
      ∀ d, (({ s with ctxs := x } : State).ctx d) = match tblFind d ps with | some y => if q y then f (s.ctx d) else s.ctx d | none => s.ctx d := by
  induction ps with
  | nil => intro s _; exact ⟨s.ctxs, rfl, fun _ => rfl⟩
  | cons p ps ih =>
    intro s hnd
    rw [List.map_cons, List.nodup_cons] at hnd
    rw [List.foldl_cons]
    obtain ⟨x1, e1⟩ : ∃ x, (if q p.2 then g s p.1 else s) = ({ s with ctxs := x } : State) := by
      split
      · exact hx s p.1
      · exact ⟨s.ctxs, rfl⟩
    obtain ⟨x, e2, h2⟩ := ih (if q p.2 then g s p.1 else s) hnd.2
    refine ⟨x, by rw [e2, e1], fun d => ?_⟩
    have h3 := h2 d
    have h4 : ({ (if q p.2 then g s p.1 else s) with ctxs := x } : State).ctx d = ({ s with ctxs := x } : State).ctx d := rfl
    rw [h4] at h3
    rw [h3]
    by_cases hd : p.1 = d
    · subst hd
      have hn : tblFind p.1 ps = none := by
        have : ∀ (l : List (Nat × Ctx)), p.1 ∉ l.map Prod.fst → tblFind p.1 l = none := by
          intro l
          induction l with
          | nil => intro _; rfl
          | cons y l ih =>
            intro hm
            rw [List.map_cons, List.mem_cons, not_or] at hm
            unfold tblFind
            rw [if_neg (fun e => hm.1 e.symm)]; exact ih hm.2
        exact this ps hnd.1
      have hc : tblFind p.1 (p :: ps) = some p.2 := by unfold tblFind; rw [if_pos rfl]
      simp only [hn, hc]
      by_cases hq2 : q p.2 = true
      · simp only [if_pos hq2]; rw [hg, if_pos rfl]
      · simp only [if_neg hq2]
    · have hc : tblFind d (p :: ps) = tblFind d ps := by conv => lhs; unfold tblFind
                                                         exact if_neg hd
      have : (if q p.2 then g s p.1 else s).ctx d = s.ctx d := by
        split
        · rw [hg, if_neg (fun e => hd e.symm)]
        · rfl
      rw [this, hc]

theorem tblSet_map {α β : Type} (g : α → β) (k : Nat) (v : α) : ∀ (t : Tbl α), Rising t → ∀ w, tblFind k t = some w → g v = g w →
    (tblSet k v t).map (fun p => (p.1, g p.2)) = t.map (fun p => (p.1, g p.2)) := by
  intro t
  induction t with
  | nil => intro _ w h; cases h
  | cons p t ih =>
    intro hr w hf hg
    unfold Rising at hr
    rw [List.map_cons, List.pairwise_cons] at hr
    unfold tblFind at hf
    unfold tblSet
    by_cases h : p.1 = k
    · rw [if_pos h] at hf
      rw [if_neg (by omega), if_pos h.symm, List.map_cons, List.map_cons]
      obtain rfl := Option.some.inj hf
      rw [hg, h]
    · rw [if_neg h] at hf
      have hlt : p.1 < k := by
        have hm : ∀ (l : Tbl α), tblFind k l = some w → k ∈ l.map Prod.fst := by
          intro l
          induction l with
          | nil => intro h; cases h
          | cons q l ih =>
            intro h
            unfold tblFind at h
            rw [List.map_cons, List.mem_cons]
            by_cases hq : q.1 = k
            · exact .inl hq.symm
            · rw [if_neg hq] at h; exact .inr (ih h)
        exact hr.1 k (hm t hf)
      rw [if_neg (by omega), if_neg (by omega), List.map_cons, List.map_cons, ih hr.2 w hf hg]

theorem find_of_mem {α : Type} {k : Nat} : ∀ (t : Tbl α), k ∈ t.map Prod.fst → ∃ w, tblFind k t = some w := by
  intro t
  induction t with
  | nil => intro h; cases h
  | cons p t ih =>
    intro h
    unfold tblFind
    by_cases hp : p.1 = k
    · exact ⟨p.2, by rw [if_pos hp]⟩
    · rw [if_neg hp]
      rw [List.map_cons, List.mem_cons] at h
      exact ih (h.resolve_left (fun e => hp e.symm))

theorem rising_of_map {α β : Type} (g : α → β) {t u : Tbl α} (h : u.map (fun p => (p.1, g p.2)) = t.map (fun p => (p.1, g p.2))) : u.map Prod.fst = t.map Prod.fst := by
  have := congrArg (List.map Prod.fst) h
  simpa [List.map_map, Function.comp_def] using this

/-- Holding every context leaves the contexts' states as they are. -/
theorem hold_states (ps : List (Nat × Ctx)) : ∀ (s : State), Rising s.ctxs → (∀ p ∈ ps, p.1 ∈ s.ctxs.map Prod.fst) →
    (ps.foldl (fun (t : State) p => if p.2.state.lives then (t.modCtx p.1 (fun x => { x with hold := true })).bump p.1 else t) s).ctxs.map (fun p => (p.1, p.2.state)) = s.ctxs.map (fun p => (p.1, p.2.state)) := by
  induction ps with
  | nil => intro s _ _; rfl
  | cons p ps ih =>
    intro s hr hm
    rw [List.foldl_cons]
    have step : (if p.2.state.lives then (s.modCtx p.1 (fun x => { x with hold := true })).bump p.1 else s).ctxs.map (fun p => (p.1, p.2.state)) = s.ctxs.map (fun p => (p.1, p.2.state)) := by
      split
      · have hc : ((s.modCtx p.1 (fun x => { x with hold := true })).bump p.1).ctxs = tblSet p.1 { s.ctx p.1 with hold := true, seq := ((s.ctx p.1).seq + 2) % 2 ^ 32 } s.ctxs := by
          unfold State.bump State.modCtx State.setCtx State.ctx
          dsimp only
          rw [tblGet_tblSet_self, tblSet_tblSet_self]
        rw [hc]
        obtain ⟨w, hw⟩ := find_of_mem s.ctxs (hm p List.mem_cons_self)
        refine tblSet_map (fun x => x.state) p.1 _ s.ctxs hr w hw ?_
        show (s.ctx p.1).state = w.state
        unfold State.ctx tblGet
        rw [hw]; rfl
      · rfl
    have hk := rising_of_map (fun x : Ctx => x.state) step
    rw [ih _ (by unfold Rising; rw [hk]; exact hr) (fun q hq => by rw [hk]; exact hm q (List.mem_cons_of_mem _ hq)), step]

end Sys2Proof.Claims
end

