-- ==== Sys2Proof/Laws/OfGovernor.lean ====
section
/-!
SUPPORT. Lemmas about the Governor, for the proofs of the statements: what their operations do, step by step.
-/

namespace Sys2Proof.Claims

open Machine

theorem level_setDie (g : Governor) (d : Nat) (x : GovDie) (e : Nat) (h : e ≠ d) : (g.setDie d x).level e = g.level e := by
  unfold Governor.level Governor.tripLevel Governor.die Governor.setDie
  dsimp only
  rw [tblGet_tblSet_ne _ h]

theorem die_setDie (g : Governor) (d : Nat) (x : GovDie) : (g.setDie d x).die d = x := tblGet_tblSet_self _ _ _ _
theorem die_setDie_ne (g : Governor) {d e : Nat} (x : GovDie) (h : e ≠ d) : (g.setDie d x).die e = g.die e := tblGet_tblSet_ne _ h _ _

theorem tbl_range6 {α : Type} (d : α) (h : Nat → α) {f : Nat} (hf : f < 6) : tblGet d ((List.range 6).map (fun f => (f, h f))) f = h f := by
  have : f = 0 ∨ f = 1 ∨ f = 2 ∨ f = 3 ∨ f = 4 ∨ f = 5 := by omega
  rcases this with rfl | rfl | rfl | rfl | rfl | rfl <;> rfl

/-- What the outputs change. -/
theorem outputs_shape (s : State) : ∃ fs p v, s.outputs = ({ s with gov := { s.gov with fans := fs, pump := p, valve := v } } : State) ∧
    (∀ f, f < 6 → (tblGet ({} : GovFan) fs f) = { s.gov.fan f with duty := (tblGet ({} : GovFan) fs f).duty }) ∧
    (∀ f g, f < 6 → g < 6 → bitOf s.site.acts.fanMask f = true → s.site.cls ≠ 2 → (s.gov.fan g).fault = true → (s.gov.fan f).fault = false → (tblGet ({} : GovFan) fs f).duty = 100) ∧
    (s.site.cls = 1 → s.gov.flowFault = true → p = (if s.site.acts.pumpEn then 100 else 0) ∧ v = (if s.site.acts.valveEn then 100 else 0)) := by
  refine ⟨_, _, _, rfl, fun f hf => ?_, fun f g hf hg h1 h2 h3 h4 => ?_, fun h1 h2 => ?_⟩
  · rw [tbl_range6 _ _ hf]
  · rw [tbl_range6 _ _ hf]
    dsimp only
    rw [h1, show (s.site.cls == 2) = false by simpa using h2, if_neg (by simp), h4]
    have : (List.range 6).any (fun f => (s.gov.fan f).fault) = true := List.any_eq_true.2 ⟨g, List.mem_range.2 hg, h3⟩
    rw [this]; rfl
  · dsimp only
    rw [h1, h2]
    exact ⟨rfl, rfl⟩

theorem fold4 (f : Governor → Nat → Governor) (g : Governor) : (List.range 4).foldl f g = f (f (f (f g 0) 1) 2) 3 := rfl

theorem setDies (h : GovDie → GovDie) (g : Governor) : ((List.range 4).foldl (fun (g : Governor) d => g.setDie d (h (g.die d))) g) = { g with dies := ((List.range 4).foldl (fun (g : Governor) d => g.setDie d (h (g.die d))) g).dies } ∧
    ∀ d, ((List.range 4).foldl (fun (g : Governor) d => g.setDie d (h (g.die d))) g).die d = if d < 4 then h (g.die d) else g.die d := by
  rw [fold4]
  refine ⟨rfl, fun d => ?_⟩
  by_cases h3 : d = 3
  · subst h3
    rw [die_setDie, die_setDie_ne _ _ (by omega), die_setDie_ne _ _ (by omega), die_setDie_ne _ _ (by omega), if_pos (by omega)]
  rw [die_setDie_ne _ _ h3]
  by_cases h2 : d = 2
  · subst h2
    rw [die_setDie, die_setDie_ne _ _ (by omega), die_setDie_ne _ _ (by omega), if_pos (by omega)]
  rw [die_setDie_ne _ _ h2]
  by_cases h1 : d = 1
  · subst h1
    rw [die_setDie, die_setDie_ne _ _ (by omega), if_pos (by omega)]
  rw [die_setDie_ne _ _ h1]
  by_cases h0 : d = 0
  · subst h0
    rw [die_setDie, if_pos (by omega)]
  rw [die_setDie_ne _ _ h0, if_neg (by omega)]

/-- What an event record may change. -/
theorem event_shape (s : State) (k d : Nat) : s.event k d = { s with pci := (s.event k d).pci, host := (s.event k d).host, dbg := (s.event k d).dbg } := by
  unfold State.event
  dsimp only
  have hv : ∀ (t : State), (∃ a b c, t = { s with pci := a, host := b, dbg := c }) → t.vector (1032 + k) = { s with pci := (t.vector (1032 + k)).pci, host := (t.vector (1032 + k)).host, dbg := (t.vector (1032 + k)).dbg } := by
    rintro t ⟨a, b, c, rfl⟩
    exact (vector_only _ _).2.2
  apply hv
  split
  · exact ⟨_, _, _, rfl⟩
  · exact ⟨_, _, _, rfl⟩

theorem thermal_shape (s : State) (r d v : Nat) : ∃ sd, s.thermal r d v = { s with gov := { s.gov with said := sd }, pci := (s.thermal r d v).pci, host := (s.thermal r d v).host, dbg := (s.thermal r d v).dbg } := by
  have key : ∀ b : Bool, ∃ sd, (if b then (s.modGov (fun g => { g with said := tblSet r s.now g.said })).event 2 (r % 16 + 2 ^ 4 * (d % 8) + 2 ^ 16 * (v % 65536) + 2 ^ 32 * (s.now / 1000000 % 2 ^ 32)) else s) =
      { s with
        gov := { s.gov with said := sd }
        pci := (if b then (s.modGov (fun g => { g with said := tblSet r s.now g.said })).event 2 (r % 16 + 2 ^ 4 * (d % 8) + 2 ^ 16 * (v % 65536) + 2 ^ 32 * (s.now / 1000000 % 2 ^ 32)) else s).pci
        host := (if b then (s.modGov (fun g => { g with said := tblSet r s.now g.said })).event 2 (r % 16 + 2 ^ 4 * (d % 8) + 2 ^ 16 * (v % 65536) + 2 ^ 32 * (s.now / 1000000 % 2 ^ 32)) else s).host
        dbg := (if b then (s.modGov (fun g => { g with said := tblSet r s.now g.said })).event 2 (r % 16 + 2 ^ 4 * (d % 8) + 2 ^ 16 * (v % 65536) + 2 ^ 32 * (s.now / 1000000 % 2 ^ 32)) else s).dbg } := by
    intro b
    cases b
    · exact ⟨s.gov.said, rfl⟩
    · exact ⟨_, event_shape (s.modGov (fun g => { g with said := tblSet r s.now g.said })) _ _⟩
  exact key _

theorem publish_shape (u : State) : ∃ f : Forecast, u.publish = ({ u with gov := { u.gov with forecast := f } } : State) ∧ f.seq = (u.gov.forecast.seq + 2) % 2 ^ 32 ∧ f.t0 = u.half / 2000000 % 2 ^ 32 ∧
    f.pNow = roundReg 65535 ((u.gov.pIn : Rat) / 4) ∧ f.entries.length = 32 ∧ (u.placed.isEmpty = true → ∀ e ∈ f.entries, e = f.pNow) := by
  refine ⟨u.publish.gov.forecast, ?_, ?_, ?_, ?_, ?_, fun emp e he => ?_⟩
  · unfold State.publish State.modGov
    dsimp only
  · unfold State.publish State.modGov
    dsimp only
  · unfold State.publish State.modGov
    dsimp only
  · unfold State.publish State.modGov
    dsimp only
  · unfold State.publish State.modGov
    dsimp only
    rw [List.length_map, List.length_range]
  · unfold State.publish State.modGov at he ⊢
    dsimp only at he ⊢
    obtain ⟨k, hk, h⟩ := List.mem_map.1 he
    rw [if_pos emp] at h
    exact h.symm

theorem setDiesI (h : Nat → GovDie → GovDie) (g : Governor) : (∃ ds, (List.range 4).foldl (fun (g : Governor) d => g.setDie d (h d (g.die d))) g = { g with dies := ds }) ∧
    ∀ d, ((List.range 4).foldl (fun (g : Governor) d => g.setDie d (h d (g.die d))) g).die d = if d < 4 then h d (g.die d) else g.die d := by
  rw [fold4]
  refine ⟨⟨_, rfl⟩, fun d => ?_⟩
  by_cases h3 : d = 3
  · subst h3
    rw [die_setDie, die_setDie_ne _ _ (by omega), die_setDie_ne _ _ (by omega), die_setDie_ne _ _ (by omega), if_pos (by omega)]
  rw [die_setDie_ne _ _ h3]
  by_cases h2 : d = 2
  · subst h2
    rw [die_setDie, die_setDie_ne _ _ (by omega), die_setDie_ne _ _ (by omega), if_pos (by omega)]
  rw [die_setDie_ne _ _ h2]
  by_cases h1 : d = 1
  · subst h1
    rw [die_setDie, die_setDie_ne _ _ (by omega), if_pos (by omega)]
  rw [die_setDie_ne _ _ h1]
  by_cases h0 : d = 0
  · subst h0
    rw [die_setDie, if_pos (by omega)]
  rw [die_setDie_ne _ _ h0, if_neg (by omega)]

/-- What the later parts of a control period leave of the Governor. -/
structure GK (g h : Governor) : Prop where
  a1 : h.pIn = g.pIn
  a2 : h.vBus = g.vBus
  a3 : h.vIn = g.vIn
  a4 : h.iIn = g.iIn
  a5 : h.eBuf = g.eBuf
  a6 : h.hubTj = g.hubTj
  a7 : ∀ d, (h.die d).pMeas = (g.die d).pMeas ∧ (h.die d).tjMeas = (g.die d).tjMeas
  a8 : h.sustW = g.sustW ∧ h.excW = g.excW
  a9 : h.commit = g.commit
  a10 : h.trips = g.trips
  a11 : h.periodAt = g.periodAt ∧ h.running = g.running
  a12 : h.sense = g.sense
  a13 : h.inputLimit = g.inputLimit
  a14 : (0 ≤ h.effort ∧ h.effort ≤ 1) ∨ h.effort = g.effort

theorem GK.refl (g : Governor) : GK g g := ⟨rfl, rfl, rfl, rfl, rfl, rfl, fun _ => ⟨rfl, rfl⟩, ⟨rfl, rfl⟩, rfl, rfl, ⟨rfl, rfl⟩, rfl, rfl, .inr rfl⟩
theorem GK.trans {g h k : Governor} (a : GK g h) (b : GK h k) : GK g k :=
  ⟨b.a1.trans a.a1, b.a2.trans a.a2, b.a3.trans a.a3, b.a4.trans a.a4, b.a5.trans a.a5, b.a6.trans a.a6, fun d => ⟨(b.a7 d).1.trans (a.a7 d).1, (b.a7 d).2.trans (a.a7 d).2⟩,
   ⟨b.a8.1.trans a.a8.1, b.a8.2.trans a.a8.2⟩, b.a9.trans a.a9, b.a10.trans a.a10, ⟨b.a11.1.trans a.a11.1, b.a11.2.trans a.a11.2⟩, b.a12.trans a.a12, b.a13.trans a.a13,
   by rcases b.a14 with h | h
      · exact .inl h
      · rw [h]; exact a.a14⟩

/-- The Governor's part of a step. -/
def SK (s t : State) : Prop := GK s.gov t.gov ∧ t = { s with gov := t.gov, pci := t.pci, host := t.host, dbg := t.dbg }
theorem SK.refl (s : State) : SK s s := ⟨GK.refl _, rfl⟩
theorem SK.trans {s t u : State} (a : SK s t) (b : SK t u) : SK s u := ⟨a.1.trans b.1, by rw [b.2, a.2]⟩
theorem SK.gov (s : State) (f : Governor → Governor) (h : GK s.gov (f s.gov)) : SK s (s.modGov f) := ⟨h, rfl⟩

theorem thermal_SK (s : State) (r d v : Nat) : SK s (s.thermal r d v) := by
  obtain ⟨sd, e⟩ := thermal_shape s r d v
  rw [e]
  exact ⟨⟨rfl, rfl, rfl, rfl, rfl, rfl, fun _ => ⟨rfl, rfl⟩, ⟨rfl, rfl⟩, rfl, rfl, ⟨rfl, rfl⟩, rfl, rfl, .inr rfl⟩, rfl⟩

theorem dies_GK (g : Governor) (h : Nat → GovDie → GovDie) (hh : ∀ d x, (h d x).pMeas = x.pMeas ∧ (h d x).tjMeas = x.tjMeas) : GK g ((List.range 4).foldl (fun (g : Governor) d => g.setDie d (h d (g.die d))) g) := by
  obtain ⟨⟨ds, e⟩, m⟩ := setDiesI h g
  refine ⟨by rw [e], by rw [e], by rw [e], by rw [e], by rw [e], by rw [e], fun d => ?_, by rw [e]; exact ⟨rfl, rfl⟩, by rw [e], by rw [e], by rw [e]; exact ⟨rfl, rfl⟩, by rw [e], by rw [e], .inr (by rw [e])⟩
  rw [m]
  split
  · exact hh d _
  · exact ⟨rfl, rfl⟩

theorem clamp01 (x : Rat) : 0 ≤ clampRat 0 1 x ∧ clampRat 0 1 x ≤ 1 := by
  unfold clampRat
  have h01 : (0 : Rat) ≤ 1 := by decide
  constructor
  · rw [Rat.max_def]; split
    · assumption
    · exact Rat.le_refl
  · rw [Rat.max_def]; split
    · rw [Rat.min_def]; split
      · exact Rat.le_refl
      · rename_i h; exact (Rat.le_total).resolve_left h
    · exact h01

theorem setDie_GK (g : Governor) (d : Nat) (y : GovDie) (h1 : y.pMeas = (g.die d).pMeas) (h2 : y.tjMeas = (g.die d).tjMeas) : GK g (g.setDie d y) := by
  refine ⟨rfl, rfl, rfl, rfl, rfl, rfl, fun e => ?_, ⟨rfl, rfl⟩, rfl, rfl, ⟨rfl, rfl⟩, rfl, rfl, .inr rfl⟩
  by_cases he : e = d
  · subst he; rw [die_setDie]; exact ⟨h1, h2⟩
  · rw [die_setDie_ne _ _ he]; exact ⟨rfl, rfl⟩

theorem diesF_GK (f : Governor → Nat → Governor) (h : ∀ g d, ∃ y : GovDie, f g d = g.setDie d y ∧ y.pMeas = (g.die d).pMeas ∧ y.tjMeas = (g.die d).tjMeas) (g : Governor) : GK g ((List.range 4).foldl f g) := by
  have hs : ∀ g d, GK g (f g d) := fun g d => by
    obtain ⟨y, e, h1, h2⟩ := h g d
    rw [e]; exact setDie_GK g d y h1 h2
  rw [fold4]
  exact (((hs _ _).trans (hs _ _)).trans (hs _ _)).trans (hs _ _)

theorem predict_GK (g : Governor) (p : Plant) (pin : Rat) : GK g (g.predict p pin) := by
  unfold Governor.predict
  extract_lets ul pf ref g'
  have a : GK g g' := ⟨rfl, rfl, rfl, rfl, rfl, rfl, fun _ => ⟨rfl, rfl⟩, ⟨rfl, rfl⟩, rfl, rfl, ⟨rfl, rfl⟩, rfl, rfl, .inr rfl⟩
  clear_value g' ref ul
  refine a.trans (diesF_GK _ (fun g d => ?_) g')
  exact ⟨_, rfl, rfl, rfl⟩

/-- A step that also puts the effort in its range. -/
def SE (s t : State) : Prop := SK s t ∧ 0 ≤ t.gov.effort ∧ t.gov.effort ≤ 1
theorem SE.after {s t u : State} (a : SK s t) (b : SE t u) : SE s u := ⟨a.trans b.1, b.2⟩
theorem SE.before {s t u : State} (a : SE s t) (b : SK t u) : SE s u := ⟨a.1.trans b, by
  rcases b.1.a14 with h | h
  · exact h
  · rw [h]; exact a.2⟩

theorem eff01 (c : Prop) [Decidable c] (x : Rat) : 0 ≤ (if c then (1 : Rat) else clampRat 0 1 x) ∧ (if c then (1 : Rat) else clampRat 0 1 x) ≤ 1 := by
  by_cases h : c
  · rw [if_pos h]; exact ⟨by decide, Rat.le_refl⟩
  · rw [if_neg h]; exact clamp01 _

theorem law_shape (s : State) (t : Nat) : ∃ ff i u : Rat, (0 ≤ u ∧ u ≤ 1) ∧ s.law t = s.modGov (fun g => { g with uff := ff, trim := i, effort := u }) := by
  unfold State.law
  extract_lets p ahead pin target ff e i raw lim i' u
  clear_value i' e ff
  exact ⟨ff, i', u, eff01 _ _, rfl⟩

theorem law_SE (s : State) (t : Nat) : SE s (s.law t) := by
  obtain ⟨ff, i, u, hu, e⟩ := law_shape s t
  rw [e]
  exact ⟨⟨⟨rfl, rfl, rfl, rfl, rfl, rfl, fun _ => ⟨rfl, rfl⟩, ⟨rfl, rfl⟩, rfl, rfl, ⟨rfl, rfl⟩, rfl, rfl, .inl hu⟩, rfl⟩, hu⟩

theorem outputs_SK (s : State) : SK s s.outputs := by
  obtain ⟨fs, p, v, e, -⟩ := outputs_shape s
  rw [e]
  exact ⟨⟨rfl, rfl, rfl, rfl, rfl, rfl, fun _ => ⟨rfl, rfl⟩, ⟨rfl, rfl⟩, rfl, rfl, ⟨rfl, rfl⟩, rfl, rfl, .inr rfl⟩, rfl⟩

def thA (s : State) : State := s.modGov (fun g => (List.range 4).foldl (fun (g : Governor) d =>
    let y := g.die d
    let w := (((y.pMeas - 4 * Config.dieBaseW), roundReg 65535 (4 * s.unscaled d s.half)) :: y.window).take 100
    g.setDie d { y with window := w, scale := reconcile y.scale w }) g)
def thB (t : Nat) (s : State) : State := s.modGov (fun g => (List.range 4).foldl (fun (g : Governor) d =>
    g.setDie d { g.die d with pPlan := roundReg 65535 (4 * s.planned d t) }) g)
def thC (x : Samples) (s : State) : State := s.modGov (fun g => g.predict s.site.plant ((x.vIn * x.iIn : Nat) / 10000))
def thD (s : State) : State :=
  let offs := (List.range 4).map (fun d => (s.gov.die d).off)
  s.modGov (fun g => { g with
    badRun := if offs.any (fun o => decide (8 < o)) then g.badRun + 1 else 0
    goodRun := if offs.all (fun o => decide (o < 4)) then g.goodRun + 1 else 0 })
theorem think_eq (s : State) (x : Samples) : s.think x = ((thD (thC x (thB s.half (thA s)))).law s.half).outputs := rfl
theorem thA_SK (s : State) : SK s (thA s) := by
  refine SK.gov _ _ (diesF_GK _ (fun g d => ?_) _)
  obtain ⟨w, hw⟩ : ∃ w, ((((g.die d).pMeas - 4 * Config.dieBaseW), roundReg 65535 (4 * s.unscaled d s.half)) :: (g.die d).window).take 100 = w := ⟨_, rfl⟩
  dsimp only
  rw [hw]
  exact ⟨_, rfl, rfl, rfl⟩
theorem thB_SK (t : Nat) (s : State) : SK s (thB t s) := by
  refine SK.gov _ _ (diesF_GK _ (fun g d => ?_) _)
  obtain ⟨w, hw⟩ : ∃ w, roundReg 65535 (4 * s.planned d t) = w := ⟨_, rfl⟩
  dsimp only
  rw [hw]
  exact ⟨_, rfl, rfl, rfl⟩
theorem thC_SK (x : Samples) (s : State) : SK s (thC x s) := SK.gov _ _ (predict_GK _ _ _)
theorem thD_SK (s : State) : SK s (thD s) := by
  unfold thD
  exact ⟨⟨rfl, rfl, rfl, rfl, rfl, rfl, fun _ => ⟨rfl, rfl⟩, ⟨rfl, rfl⟩, rfl, rfl, ⟨rfl, rfl⟩, rfl, rfl, .inr rfl⟩, rfl⟩

theorem think_SE (s : State) (x : Samples) : SE s (s.think x) := by
  rw [think_eq]
  exact (SE.after ((((thA_SK s).trans (thB_SK _ _)).trans (thC_SK x _)).trans (thD_SK _)) (law_SE _ _)).before (outputs_SK _)

theorem stretch_SK (s : State) (load : Rat) : SK s (s.stretch load) := by
  unfold State.stretch
  extract_lets r s1 ws up fin s2
  have a1 : SK s s1 := ⟨⟨rfl, rfl, rfl, rfl, rfl, rfl, fun _ => ⟨rfl, rfl⟩, ⟨rfl, rfl⟩, rfl, rfl, ⟨rfl, rfl⟩, rfl, rfl, .inr rfl⟩, rfl⟩
  have a2 : SK s1 s2 := by
    refine SK.gov _ _ (diesF_GK _ (fun g d => ?_) _)
    exact ⟨_, rfl, rfl, rfl⟩
  clear_value s2 up
  split
  · exact a1.trans a2
  · exact (a1.trans a2).trans (thermal_SK _ _ _ _)

theorem sampleSlow_SK (s : State) (x : Samples) : SK s (s.sampleSlow x) := by
  unfold State.sampleSlow
  extract_lets a now bad first s1
  have a1 : SK s s1 := ⟨⟨rfl, rfl, rfl, rfl, rfl, rfl, fun _ => ⟨rfl, rfl⟩, ⟨rfl, rfl⟩, rfl, rfl, ⟨rfl, rfl⟩, rfl, rfl, .inr rfl⟩, rfl⟩
  clear_value s1
  split
  · exact a1.trans (thermal_SK _ _ _ _)
  · exact a1

/-- The input limit's part. -/
theorem inputLimit_shape (s : State) : ∃ w : State, SK ({ s with gov := { s.gov with inputLimit := decide (s.gov.vIn < 5160) } } : State) w ∧ s.inputLimit = w := by
  refine ⟨_, ?_, rfl⟩
  unfold State.inputLimit
  dsimp only
  split
  · exact thermal_SK _ _ _ _
  · exact SK.refl _

theorem sampleFast_shape (s : State) (x : Samples) : Sampled x (s.sampleFast x).gov ∧ (∃ g, s.sampleFast x = ({ s with gov := g } : State) ∧ g.sustW = s.gov.sustW ∧ g.excW = s.gov.excW ∧ g.commit = s.gov.commit ∧ g.trips = s.gov.trips ∧
    g.periodAt = s.gov.periodAt ∧ g.running = s.gov.running ∧ g.sense = s.gov.sense) := by
  unfold State.sampleFast
  obtain ⟨⟨ds, e⟩, m⟩ := setDiesI (fun d y => { y with pMeas := x.rail.getD d 0 % 65536, tjMeas := x.tj.getD d 0 % 4096, minNow := y.stretchMin }) { s.gov with
      pIn := roundReg 65535 ((x.vIn * x.iIn : Nat) / 2500), vBus := x.vBus % 65536, vIn := x.vIn % 65536, iIn := x.iIn % 65536
      eBuf := roundReg 65535 (((x.vBus * x.vBus - 4200 * 4200) * 87 : Nat) / 100000), hubTj := x.hubTj % 4096 }
  obtain ⟨G, hG⟩ : ∃ G, (List.range 4).foldl (fun (g : Governor) d => g.setDie d ((fun (d : Nat) (y : GovDie) => { y with pMeas := x.rail.getD d 0 % 65536, tjMeas := x.tj.getD d 0 % 4096, minNow := y.stretchMin }) d (g.die d))) { s.gov with
      pIn := roundReg 65535 ((x.vIn * x.iIn : Nat) / 2500), vBus := x.vBus % 65536, vIn := x.vIn % 65536, iIn := x.iIn % 65536
      eBuf := roundReg 65535 (((x.vBus * x.vBus - 4200 * 4200) * 87 : Nat) / 100000), hubTj := x.hubTj % 4096 } = G := ⟨_, rfl⟩
  have hg : s.modGov (fun g =>
    let g := { g with
      pIn := roundReg 65535 ((x.vIn * x.iIn : Nat) / 2500), vBus := x.vBus % 65536, vIn := x.vIn % 65536, iIn := x.iIn % 65536
      eBuf := roundReg 65535 (((x.vBus * x.vBus - 4200 * 4200) * 87 : Nat) / 100000), hubTj := x.hubTj % 4096 }
    (List.range 4).foldl (fun (g : Governor) d => g.setDie d { g.die d with
      pMeas := x.rail.getD d 0 % 65536, tjMeas := x.tj.getD d 0 % 4096, minNow := (g.die d).stretchMin }) g) = ({ s with gov := G } : State) := by rw [← hG]; rfl
  rw [hG] at e m
  rw [hg]
  refine ⟨⟨by rw [e], by rw [e], by rw [e], by rw [e], by rw [e], by rw [e], fun d hd => ?_⟩, G, rfl, by rw [e], by rw [e], by rw [e], by rw [e], by rw [e], by rw [e], by rw [e]⟩
  show (G.die d).pMeas = _ ∧ (G.die d).tjMeas = _
  rw [m, if_pos hd]
  exact ⟨rfl, rfl⟩

theorem Sampled.keep {x : Samples} {g h : Governor} (a : Sampled x g) (b : GK g h) : Sampled x h :=
  ⟨b.a1.trans a.1, b.a2.trans a.2.1, b.a3.trans a.2.2.1, b.a4.trans a.2.2.2.1, b.a5.trans a.2.2.2.2.1, b.a6.trans a.2.2.2.2.2.1,
   fun d hd => ⟨(b.a7 d).1.trans (a.2.2.2.2.2.2 d hd).1, (b.a7 d).2.trans (a.2.2.2.2.2.2 d hd).2⟩⟩

/-- The ceilings in force after `ceilings`. -/
theorem ceilings_shape (s : State) : ∃ g, SK ({ s with gov := g } : State) s.ceilings ∧ g = { s.gov with commit := none, sustW := g.sustW, excW := g.excW } ∧
    (∀ c, s.gov.commit = some c → g.sustW = c.1 ∧ g.excW = c.2) ∧ (s.gov.commit = none → g.sustW = s.gov.sustW ∧ g.excW = s.gov.excW) := by
  unfold State.ceilings
  cases h : s.gov.commit with
  | none =>
    refine ⟨s.gov, SK.refl _, ?_, fun c hc => ?_, fun _ => ⟨rfl, rfl⟩⟩
    · rw [← h]
    · cases hc
  | some c =>
    refine ⟨{ s.gov with commit := none, sustW := c.1, excW := c.2 }, thermal_SK _ _ _ _, rfl, fun e he => ?_, fun he => ?_⟩
    · cases he; exact ⟨rfl, rfl⟩
    · cases he

end Sys2Proof.Claims
end

