-- ==== Sys2Proof/Laws/OfTrust.lean ====
section
/-!
SUPPORT. Lemmas about firmware, owner keys, attestation and SMBus, for the proofs of the statements: what their operations do, step by step.
-/

namespace Sys2Proof.Claims

open Machine

theorem slot_set {i : Nat} (hi : i ≤ 1) (t : Trust) (x : FwSlot) : (t.setSlot i x).slot i = x ∧ (t.setSlot i x).slot (1 - i) = t.slot (1 - i) := by
  have : i = 0 ∨ i = 1 := by omega
  rcases this with rfl | rfl <;> exact ⟨rfl, rfl⟩

theorem slotBytes_one (t : Trust) (i k : Nat) : t.slotBytes i k 1 = [(tblFind k (t.slot i).bytes).getD (Config.factoryFlash i k)] := rfl

theorem find_fold {α : Type} (v : Nat → α) (ks : List Nat) (f : Nat → Nat) (t : Tbl α) (k : Nat) (hf : ∀ a ∈ ks, ∀ b ∈ ks, f a = f b → a = b) :
    (∀ a ∈ ks, f a = k → tblFind k (ks.foldl (fun b a => tblSet (f a) (v a) b) t) = some (v a)) ∧
    ((∀ a ∈ ks, f a ≠ k) → tblFind k (ks.foldl (fun b a => tblSet (f a) (v a) b) t) = tblFind k t) := by
  induction ks generalizing t with
  | nil => exact ⟨fun a h => (by cases h), fun _ => rfl⟩
  | cons a as ih =>
    have hf' : ∀ x ∈ as, ∀ y ∈ as, f x = f y → x = y := fun x hx y hy => hf x (List.mem_cons_of_mem _ hx) y (List.mem_cons_of_mem _ hy)
    obtain ⟨i1, i2⟩ := ih (tblSet (f a) (v a) t) hf'
    refine ⟨fun b hb e => ?_, fun h => ?_⟩
    · rw [List.foldl_cons]
      by_cases hm : b ∈ as
      · exact i1 b hm e
      · rcases List.mem_cons.1 hb with rfl | h
        · by_cases hx : ∃ c ∈ as, f c = k
          · obtain ⟨c, hc, hk⟩ := hx
            have := hf b List.mem_cons_self c (List.mem_cons_of_mem _ hc) (e.trans hk.symm)
            subst this; exact absurd hc hm
          · rw [i2 (fun c hc hk => hx ⟨c, hc, hk⟩), ← e, tblFind_tblSet_self]
        · exact absurd h hm
    · rw [List.foldl_cons, i2 (fun b hb => h b (List.mem_cons_of_mem _ hb)), tblFind_tblSet_ne (fun e => h a List.mem_cons_self e.symm)]

theorem not_running (P : Prop) (h : P) : P := h

theorem get_read (m : Mem) (a n k : Nat) (h : k < n) : (memReadN m a n)[k]? = some (memRead m (a + k)) := by
  induction n generalizing a k with
  | zero => omega
  | succ n ih =>
    cases k with
    | zero => rfl
    | succ k => show (memReadN m (a + 1) n)[k]? = _; rw [ih _ _ (by omega)]; congr 2; omega

theorem zip_range_fold {β : Type} (f : β → Nat × Byte → β) (n : Nat) (m : Mem) (z : β) :
    ((List.range n).zip (memReadN m 0 n)).foldl f z = (List.range n).foldl (fun b a => f b (a, memRead m a)) z := by
  have : (List.range n).zip (memReadN m 0 n) = (List.range n).map (fun a => (a, memRead m a)) := by
    apply List.ext_getElem?
    intro k
    by_cases hk : k < n
    · rw [show ((List.range n).zip (memReadN m 0 n))[k]? = some (k, memRead m (0 + k)) from List.getElem?_zip_eq_some.2 ⟨List.getElem?_range hk, get_read m 0 n k hk⟩, List.getElem?_map, List.getElem?_range hk]
      simp
    · rw [List.getElem?_eq_none (by simp; omega), List.getElem?_eq_none (by simp; omega)]
  rw [this, List.foldl_map]

/-- The outcome of a request of the Gatekeeper. -/
theorem req_run {s : State} {ch code : Nat} {m : MailMsg} {rest : List MailMsg} (h : Asked s ch code m rest) (hl : (listed ch).contains code = true) (body : ReqRef → MailMsg → State → State) (c : Out)
    (e : c = onRequest s ch code body) : c = .next (body (refOf ch m) m (taken s ch rest)) := e.trans (asked_run h hl body)

theorem slotBytes_length (t : Trust) (i o n : Nat) : (t.slotBytes i o n).length = n := by unfold Trust.slotBytes; simp

theorem le_iff (bs : List Byte) (o n x : Nat) (h : o + n ≤ bs.length) (hx : x < 256 ^ n) : leAt bs o n = x ↔ (bs.drop o).take n = leBytes n x := by
  unfold leAt
  have hl : ((bs.drop o).take n).length = n := by simp; omega
  constructor
  · intro e
    rw [← e]
    conv => lhs; rw [← leBytes_ofLe ((bs.drop o).take n), hl]
  · intro e
    rw [e, ofLe_leBytes, Nat.mod_eq_of_lt hx]

theorem check_valid (t : Trust) (i : Nat) : (ValidPackage t i → t.check i = .valid (leAt (t.slotBytes i 0 0x220) 8 4) (leAt (t.slotBytes i 0 0x220) 0x0C 4) (leAt (t.slotBytes i 0 0x220) 0x10 4)) ∧
    (¬ ValidPackage t i → t.check i = .badSig ∨ (t.check i = .badRollback ∧ leAt (t.slotBytes i 0 0x220) 0x0C 4 < t.rollback)) := by
  unfold ValidPackage Trust.check
  have hl := slotBytes_length t i 0 0x220
  generalize t.slotBytes i 0 0x220 = h at *
  have e1 : leAt h 0 4 = 0x57464755 ↔ h.take 4 = [0x55, 0x47, 0x46, 0x57] := by
    rw [le_iff h 0 4 _ (by omega) (by decide), List.drop_zero, show leBytes 4 0x57464755 = [0x55, 0x47, 0x46, 0x57] by decide]
  have e2 : leAt h 6 2 = steppingLe ↔ (h.drop 6).take 2 = [0x41, 0x31] := by
    rw [le_iff h 6 2 _ (by omega) (by decide), show leBytes 2 steppingLe = [0x41, 0x31] by decide]
  dsimp only
  rw [← e1, ← e2]
  constructor
  · rintro ⟨a1, a2, a3, a4, a5, a6, a7, a8, a9, a10⟩
    rw [if_neg (by
      rintro (q | q | q | q | q | q | q | q)
      · exact q a1
      · exact q a2
      · exact q a3
      · omega
      · omega
      · exact q a7
      · omega
      · rcases a8 with h | h
        · exact q.1 h
        · exact q.2 h), a9, if_neg (by simp), if_neg (by omega)]
  · intro hn
    split
    · exact .inl rfl
    rename_i q
    split
    · exact .inl rfl
    rename_i q2
    split
    · rename_i q3; exact .inr ⟨rfl, q3⟩
    rename_i q3
    exfalso
    apply hn
    simp only [not_or, Decidable.not_not] at q
    obtain ⟨a1, a2, a3, a4, a5, a6, a7, a8⟩ := q
    refine ⟨a1, a2, a3, by omega, by omega, by omega, a6, ?_, by simpa using q2, by omega⟩
    by_cases hk : Config.sha512 (List.take 512 (List.drop 0x20 h)) = Config.romKey 0
    · exact .inl hk
    · exact .inr (Decidable.byContradiction fun hk2 => a8 ⟨hk, hk2⟩)

theorem form_iff (b : List Byte) (op : Nat) (hb : b.length = 0x460) (hop : op = 1 ∨ op = 2) : ownerFormOk b op = true ↔ OwnerForm b op := by
  unfold ownerFormOk OwnerForm
  have e1 : leAt b 0 4 = 0x4B4E574F ↔ b.take 4 = [0x4F, 0x57, 0x4E, 0x4B] := by
    rw [le_iff b 0 4 _ (by omega) (by decide), List.drop_zero, show leBytes 4 0x4B4E574F = [0x4F, 0x57, 0x4E, 0x4B] by decide]
  rw [← e1]
  simp only [Bool.and_eq_true, Bool.or_eq_true, beq_iff_eq, decide_eq_true_eq]
  constructor
  · rintro ⟨⟨⟨⟨⟨⟨a1, a2⟩, a3⟩, a4⟩, a5⟩, a6⟩, a7⟩
    exact ⟨a1, a2, a3, a4, a5, a6, fun h => by rcases a7 with h1 | h1; omega; exact h1⟩
  · rintro ⟨a1, a2, a3, a4, a5, a6, a7⟩
    exact ⟨⟨⟨⟨⟨⟨a1, a2⟩, a3⟩, a4⟩, a5⟩, a6⟩, by rcases hop with h | h; exact .inl h; exact .inr (a7 h)⟩

theorem signed_iff (t : Trust) (b : List Byte) (k : Nat) : t.ownerSigned b k = true ↔ OwnerSigned t b k := by
  unfold Trust.ownerSigned OwnerSigned
  dsimp only
  rw [Bool.and_eq_true, List.any_eq_true]
  constructor
  · rintro ⟨⟨j, hj, h⟩, h2⟩
    simp only [Bool.and_eq_true, beq_iff_eq, bne_iff_ne] at h
    exact ⟨⟨j, List.mem_range.1 hj, h.1.1, h.1.2, h.2⟩, h2⟩
  · rintro ⟨⟨j, hj, h1, h2, h3⟩, h4⟩
    refine ⟨⟨j, List.mem_range.2 hj, ?_⟩, h4⟩
    simp only [Bool.and_eq_true, beq_iff_eq, bne_iff_ne]
    exact ⟨⟨h1, h2⟩, h3⟩

theorem actives (own : Nat → OwnerSlot) (k : Nat) (hk : k < 4) (ha : (own k).state = .active) :
    ((List.range 4).filter (fun j => (own j).state == .active)).length ≤ 1 ↔ ¬ ∃ j, j < 4 ∧ j ≠ k ∧ (own j).state = .active := by
  have hm : k ∈ (List.range 4).filter (fun j => (own j).state == .active) := by rw [List.mem_filter]; exact ⟨List.mem_range.2 hk, by rw [ha]; rfl⟩
  constructor
  · rintro h ⟨j, hj, hne, hs⟩
    have hj2 : j ∈ (List.range 4).filter (fun j => (own j).state == .active) := by rw [List.mem_filter]; exact ⟨List.mem_range.2 hj, by rw [hs]; rfl⟩
    match hl : (List.range 4).filter (fun j => (own j).state == .active) with
    | [] => rw [hl] at hm; cases hm
    | [a] => rw [hl] at hm hj2; simp at hm hj2; omega
    | a :: b :: t => rw [hl] at h; simp at h
  · intro h
    match hl : (List.range 4).filter (fun j => (own j).state == .active) with
    | [] => simp
    | [a] => simp
    | a :: b :: t =>
      exfalso
      have hnd : ((List.range 4).filter (fun j => (own j).state == .active)).Nodup := List.Nodup.sublist List.filter_sublist List.nodup_range
      rw [hl] at hnd
      have hab : a ≠ b := by intro e; subst e; simp at hnd
      have ma : a ∈ (List.range 4).filter (fun j => (own j).state == .active) := by rw [hl]; simp
      have mb : b ∈ (List.range 4).filter (fun j => (own j).state == .active) := by rw [hl]; simp
      rw [List.mem_filter, List.mem_range] at ma mb
      by_cases e : a = k
      · exact h ⟨b, mb.1, fun x => hab (e.trans x.symm), by simpa using mb.2⟩
      · exact h ⟨a, ma.1, e, by simpa using ma.2⟩

theorem read_mid {m : Mem} (h : Memory.wf m = true) (bs p x q : List Byte) (o : Nat) (e : bs = p ++ (x ++ q)) (hp : p.length = o) : Holds (memWriteN m 0 bs) o x := by
  subst e
  unfold Holds
  refine memReadN_of rfl (fun j hj => ?_)
  rw [memRead_memWriteN h, if_pos (by simp; omega), ← hp, show p.length + j - 0 = p.length + j by omega, List.getD_eq_getElem?_getD, List.getElem?_append_right (by omega), Nat.add_sub_cancel_left, List.getElem?_append_left hj, List.getD_eq_getElem?_getD]

theorem serial_length : Config.serial.length = 12 := by unfold Config.serial; rw [List.length_map, List.length_range]
theorem zeros_length (n : Nat) : (zeros n).length = n := by unfold zeros; simp
theorem digest_length (bs : List Byte) : (digest64 bs).length = 64 := by unfold digest64; simp
theorem ite_length {c : Prop} [Decidable c] (a b : List Byte) (n : Nat) (h1 : a.length = n) (h2 : b.length = n) : (if c then a else b).length = n := by split <;> assumption
theorem le1 (n : Nat) : leBytes 1 n = [BitVec.ofNat 8 n] := rfl

theorem hold_at {m : Mem} (h : Memory.wf m = true) (bs x : List Byte) (o : Nat) (e : (bs.drop o).take x.length = x) (hl : o + x.length ≤ bs.length) : Holds (memWriteN m 0 bs) o x := by
  refine read_mid h bs (bs.take o) x ((bs.drop o).drop x.length) o ?_ (by simp; omega)
  conv => lhs; rw [← List.take_append_drop o bs, ← List.take_append_drop x.length (bs.drop o), e]

/-- A slice of a concatenation: skip the first part, or take within it. -/
theorem cat_skip (p q : List Byte) (o n : Nat) (h : p.length ≤ o) : ((p ++ q).drop o).take n = (q.drop (o - p.length)).take n := by
  rw [List.drop_append, List.drop_eq_nil_of_le h, List.nil_append]

theorem cat_here (p q : List Byte) (n : Nat) (h : n = p.length) : ((p ++ q).drop 0).take n = p := by
  rw [List.drop_zero, h, List.take_left]

theorem cat_two (a b q : List Byte) (n : Nat) (h : n = a.length + b.length) : ((a ++ (b ++ q)).drop 0).take n = a ++ b := by
  rw [List.drop_zero, ← List.append_assoc, h, ← List.length_append, List.take_left]

structure Pieces (s : State) (nonce bs : List Byte) : Prop where
  eq : bs = leBytes 4 0x52545441 ++ (leBytes 2 1 ++ (leBytes 2 steppingLe ++ (Config.serial ++ (leBytes 1 s.site.source ++ (leBytes 1 (if s.site.source = 2 then 0xFF else s.site.keySlot) ++
    (leBytes 1 (if s.trust.running = 3 then 0xFF else s.trust.running) ++ (zeros 1 ++ (leBytes 4 s.trust.version ++ (leBytes 4 s.trust.rollback ++ (leBytes 8 s.now ++ (zeros 24 ++ (nonce ++
    ((if s.trust.running = 3 then zeros 64 else digest64 (s.trust.slotBytes s.trust.running 0 (s.trust.slot s.trust.running).length)) ++
    ((if s.site.source = 2 then zeros 64 else digest64 s.site.image) ++ ((List.range 64).map (fun i => dressDigest.getD i 0) ++ (digest64 markBlock))))))))))))))))

theorem body_pieces (s : State) (nonce : List Byte) : Pieces s nonce (s.attestBody nonce) := by
  constructor
  unfold State.attestBody
  dsimp only
  simp only [List.append_assoc]

theorem getMem (t : Trust) (x : Nat) (b : Mem) : (t.setBuf x b).buf x = b := by
  unfold Trust.setBuf Trust.buf; split <;> rfl

end Sys2Proof.Claims
end

