-- ==== Sys2Proof/Laws/OfResets.lean ====
section
/-!
SUPPORT. Lemmas about site images, resets and power-up, for the proofs of the statements: what their operations do, step by step.
-/

namespace Sys2Proof.Claims

open Machine

/-- What an event may change of the host's port. -/
theorem vector_pci (s : State) (v : Nat) : ∃ b, (s.vector v).pci = { s.pci with pba := b } := by
  unfold State.vector
  split
  · exact ⟨_, rfl⟩
  · exact ⟨_, rfl⟩

theorem event_pci (s : State) (k d : Nat) : ∃ q b, (s.event k d).pci = { s.pci with evq := q, pba := b } := by
  unfold State.event
  dsimp only
  have hv : ∀ (t : State), (∃ q b, t.pci = { s.pci with evq := q, pba := b }) → ∃ q b, (t.vector (1032 + k)).pci = { s.pci with evq := q, pba := b } := by
    rintro t ⟨q, b, e⟩
    obtain ⟨b2, e2⟩ := vector_pci t (1032 + k)
    exact ⟨q, b2, by rw [e2, e]⟩
  apply hv
  split
  · exact ⟨_, _, rfl⟩
  · exact ⟨_, _, rfl⟩

/-- An event: its records, its vector, and nothing else. -/
theorem event_only (s : State) (k d : Nat) : ∃ q b h g, s.event k d = { s with pci := { s.pci with evq := q, pba := b }, host := h, dbg := g } := by
  obtain ⟨q, b, e⟩ := event_pci s k d
  refine ⟨q, b, (s.event k d).host, (s.event k d).dbg, ?_⟩
  rw [← e]
  exact event_shape s k d

/-- A port's state changes, with an event or without. -/
theorem portState_shape (s : State) (p : Nat) (st : PortState) : ∃ ps q b h g, s.portState p st = { s with links := { s.links with ports := ps }, pci := { s.pci with evq := q, pba := b }, host := h, dbg := g } ∧
    ∀ r, (tblGet {} ps r : Port) = if r = p then { s.port p with state := st } else s.port r := by
  unfold State.portState
  dsimp only
  by_cases he : (s.port p).state = st
  · rw [if_pos he]
    refine ⟨s.links.ports, _, _, _, _, rfl, fun r => ?_⟩
    by_cases hr : r = p
    · subst hr; rw [if_pos rfl, ← he]; rfl
    · rw [if_neg hr]; rfl
  · rw [if_neg he]
    obtain ⟨q, b, h, g, e⟩ := event_only (s.setPort p { s.port p with state := st }) 3 (p + 2 ^ 5 * st.code + 2 ^ 16 * (s.port p).peerNode)
    rw [e]
    refine ⟨tblSet p { s.port p with state := st } s.links.ports, q, b, h, g, rfl, fun r => ?_⟩
    by_cases hr : r = p
    · subst hr; rw [if_pos rfl, tblGet_tblSet_self]
    · rw [if_neg hr, tblGet_tblSet_ne _ hr]; rfl

theorem enablePorts_shape (s : State) (mask : Nat) : ∃ ps q b h g, s.enablePorts mask = { s with links := { s.links with ports := ps }, pci := { s.pci with evq := q, pba := b }, host := h, dbg := g } ∧
    ∀ r, (tblGet {} ps r : Port) = if r < 17 then { s.port r with enable := bitOf mask r, state := if bitOf mask r then .training else .disabled } else s.port r := by
  unfold State.enablePorts
  have go : ∀ (l : List Nat) (s : State), l.Nodup → ∃ ps q b h g, l.foldl (fun t p =>
      let on := bitOf mask p
      (t.setPort p { t.port p with enable := on }).portState p (if on then .training else .disabled)) s = { s with links := { s.links with ports := ps }, pci := { s.pci with evq := q, pba := b }, host := h, dbg := g } ∧
      ∀ r, (tblGet {} ps r : Port) = if r ∈ l then { s.port r with enable := bitOf mask r, state := if bitOf mask r then .training else .disabled } else s.port r := by
    intro l
    induction l with
    | nil => exact fun s _ => ⟨s.links.ports, _, _, _, _, rfl, fun r => rfl⟩
    | cons a l ih =>
      intro s hn
      rw [List.nodup_cons] at hn
      rw [List.foldl_cons]
      dsimp only
      obtain ⟨ps1, q1, b1, h1, g1, e1, m1⟩ := portState_shape (s.setPort a { s.port a with enable := bitOf mask a }) a (if bitOf mask a then .training else .disabled)
      rw [e1]
      obtain ⟨ps, q, b, h, g, e, m⟩ := ih ({ s with links := { s.links with ports := ps1 }, pci := { s.pci with evq := q1, pba := b1 }, host := h1, dbg := g1 }) hn.2
      refine ⟨ps, q, b, h, g, e, fun r => ?_⟩
      rw [m r]
      have hm : ∀ r, (tblGet {} ps1 r : Port) = if r = a then { s.port r with enable := bitOf mask r, state := if bitOf mask r then .training else .disabled } else s.port r := by
        intro r
        rw [m1 r]
        by_cases hr : r = a
        · subst hr
          rw [if_pos rfl, if_pos rfl]
          show ({ (tblGet {} (tblSet r _ s.links.ports) r : Port) with state := _ } : Port) = _
          rw [tblGet_tblSet_self]
        · rw [if_neg hr, if_neg hr]
          show (tblGet {} (tblSet a _ s.links.ports) r : Port) = _
          rw [tblGet_tblSet_ne _ hr]; rfl
      have hp : ({ s with links := { s.links with ports := ps1 }, pci := { s.pci with evq := q1, pba := b1 }, host := h1, dbg := g1 } : State).port r = tblGet {} ps1 r := rfl
      rw [hp, hm r]
      by_cases hr : r = a
      · subst hr
        rw [if_neg hn.1, if_pos rfl, if_pos List.mem_cons_self]
      · rw [if_neg hr]
        by_cases hl : r ∈ l
        · rw [if_pos hl, if_pos (List.mem_cons_of_mem _ hl)]
        · rw [if_neg hl, if_neg (by rw [List.mem_cons]; rintro (h | h); exact hr h; exact hl h)]
  obtain ⟨ps, q, b, h, g, e, m⟩ := go (List.range 17) s List.nodup_range
  exact ⟨ps, q, b, h, g, e, fun r => by rw [m r]; simp only [List.mem_range]⟩

theorem fail_iff (t : Trust) (img : List Byte) : siteFail t img = 0 ↔ ValidCopy t img := by
  unfold siteFail ValidCopy
  dsimp only
  generalize leAt img 8 4 = len
  generalize tblGet ({} : OwnerSlot) t.owners (leAt img 6 1) = slot
  constructor
  · intro h
    split at h
    · cases h
    rename_i q1
    split at h
    · cases h
    rename_i q2
    simp only [not_or, Decidable.not_not] at q1 q2
    split at h
    · rename_i key rs e
      split at h
      · cases h
      rename_i q3
      split at h
      · cases h
      rename_i q4
      split at h
      · rename_i q5
        simp only [not_or, Decidable.not_not] at q3 q4
        exact ⟨q1.1, q1.2, q2.1, q2.2.1, by omega, by omega, q2.2.2.2.2.1, by omega, key, rs, e, q3, q4.1, q4.2, q5⟩
      · cases h
    · cases h
  · rintro ⟨a1, a2, a3, a4, a5, a6, a7, a8, key, rs, e, b1, b2, b3, b4⟩
    rw [if_neg (by omega), if_neg (by omega), e]
    show (if key.length ≠ 512 then 6 else if slot.state ≠ .active ∨ slot.hash ≠ Config.sha512 key then 4 else if Config.sigOk key (img.take (len - 512)) ((img.drop (len - 512)).take 512) = true then 0 else 5) = 0
    rw [if_neg (by omega), if_neg (by rintro (h | h); exact h b2; exact h b3), if_pos b4]

theorem fwUpdate_shape (s : State) : ∃ f, s.fwUpdate = { s with pci := { s.pci with fw := f } } := by
  unfold State.fwUpdate
  split
  · exact ⟨_, rfl⟩
  · exact ⟨s.pci.fw, rfl⟩

theorem applySite_shape (s : State) (v : SiteVals) : ∃ u, s.applySite v = State.removalWaits u ∧ u.site = { v.site with locked := true } ∧ u.waitUs = v.waitUs ∧
    u.far = { s.far with localUnits := v.localUnits, defaultLocal := v.defaultLocal } ∧ u.links.node = v.node ∧
    u.links.twin = { s.links.twin with slot := v.twinSlot, enable := v.twinEn, pair := if v.twinEn then .searching else .disabled } ∧
    u.gov = { s.gov with stagedSust := v.site.sustW, stagedExc := v.site.excW, sustW := v.site.sustW, excW := v.site.excW, excLeft := v.site.excMs } ∧
    (∀ p, p < 17 → u.port p = { s.port p with enable := bitOf v.haulEn p, state := if bitOf v.haulEn p then .training else .disabled }) ∧
    u.pci.running = (if s.trust.running = 3 then s.pci.running else [0, 1, 2, 3]) ∧
    u = { s with site := u.site, waitUs := u.waitUs, far := u.far, links := { s.links with node := u.links.node, ports := u.links.ports, twin := u.links.twin }, gov := u.gov, pci := u.pci, host := u.host, dbg := u.dbg } := by
  unfold State.applySite
  dsimp only
  obtain ⟨w, hw⟩ : ∃ w : State, ({ s with
    site := { v.site with locked := true }
    waitUs := v.waitUs
    far := { s.far with localUnits := v.localUnits, defaultLocal := v.defaultLocal }
    links := { s.links with node := v.node, twin := { s.links.twin with slot := v.twinSlot, enable := v.twinEn, pair := if v.twinEn then .searching else .disabled } }
    gov := { s.gov with stagedSust := v.site.sustW, stagedExc := v.site.excW, sustW := v.site.sustW, excW := v.site.excW, excLeft := v.site.excMs }
    pci := { s.pci with running := if s.trust.running = 3 then s.pci.running else [0, 1, 2, 3] } } : State) = w := ⟨_, rfl⟩
  have hw' : ∀ P : State → Prop, P w → P _ := fun P h => hw ▸ h
  rw [hw]
  obtain ⟨ps, q, b, h, g, e, m⟩ := enablePorts_shape w v.haulEn
  obtain ⟨f, ef⟩ := fwUpdate_shape (w.enablePorts v.haulEn)
  refine ⟨(w.enablePorts v.haulEn).fwUpdate, rfl, ?_⟩
  rw [ef, e]
  have hp : ∀ p, w.port p = s.port p := fun p => by rw [← hw]; rfl
  refine ⟨by rw [← hw], by rw [← hw], by rw [← hw], by rw [← hw], by rw [← hw], by rw [← hw], fun p hp17 => ?_, by rw [← hw], by rw [← hw]⟩
  show (tblGet {} ps p : Port) = _
  rw [m p, if_pos hp17, hp]

theorem clamp_val (x : Option Nat) (d lo hi : Nat) : (siteClamp x d lo hi).1 = max lo (min hi (x.getD d)) := rfl

theorem legal_val (x : Option Nat) (d : Nat) (ok : Nat → Bool) : (siteLegal x d ok).1 = match x with | some y => if ok y = true then y else d | none => d := by
  unfold siteLegal
  cases x with
  | none => rfl
  | some y => dsimp only; split <;> rfl

theorem sited (base : Site) (rs : Tbl (List Byte)) (u : State) (pins : Nat) (hb : u.site.slotPins = pins)
    (h1 : u.site = { (siteValues base pins rs).site with locked := true }) (h2 : u.waitUs = (siteValues base pins rs).waitUs) (h3 : u.far.localUnits = (siteValues base pins rs).localUnits)
    (h4 : u.far.defaultLocal = (siteValues base pins rs).defaultLocal) (h5 : u.links.node = (siteValues base pins rs).node) (h6 : u.links.twin.slot = (siteValues base pins rs).twinSlot)
    (h7 : u.links.twin.enable = (siteValues base pins rs).twinEn) : Sited rs u := by
  have c0 : (siteLegal (siteField rs 0x10 0 1) 0 (fun x => decide (x ≤ 2))).1 = match siteField rs 0x10 0 1 with | some c => if c ≤ 2 then c else 0 | none => 0 := by
    rw [legal_val]; cases siteField rs 0x10 0 1 <;> simp
  have e1 : u.site.cls = (siteLegal (siteField rs 0x10 0 1) 0 (fun x => decide (x ≤ 2))).1 := by rw [h1]; rfl
  have en : u.links.node = match siteField rs 0x20 0 2 with | some n => if n = 0xFFFF then u.site.slotPins % 64 else n | none => u.site.slotPins % 64 := by
    rw [h5, hb]
    show (siteLegal (siteField rs 0x20 0 2) (pins % 64) (fun x => x != 0xFFFF)).1 = _
    rw [legal_val]
    cases siteField rs 0x20 0 2 with
    | none => rfl
    | some n => dsimp only; by_cases h : n = 0xFFFF <;> simp [h]
  have eu : u.far.localUnits = min 31 ((siteField rs 0x26 0 1).getD 4) := by
    rw [h3]; show (siteClamp (siteField rs 0x26 0 1) 4 0 31).1 = _; rw [clamp_val, Nat.zero_max]
  have esl : u.links.twin.slot = (siteField rs 0x21 0 2).getD 0 := by rw [h6]; rfl
  have one : ∀ x : Option Nat, ((siteClamp x 0 0 1).1 == 1) = decide (1 ≤ x.getD 0) := by
    intro x; rw [clamp_val, Bool.eq_iff_iff]; simp
    all_goals omega
  have esu : u.site.sustW = (siteClamp (siteField rs 0x11 0 2) (classMax u.site.cls) 600 (classMax u.site.cls)).1 := by rw [h1]; rfl
  have eex : u.site.excW = (if (u.site.cls == 2) = true then siteClamp (siteField rs 0x11 2 2) 1900 u.site.sustW 1900 else siteClamp (siteField rs 0x11 2 2) 0 0 0).1 := by rw [h1]; rfl
  have ems : u.site.excMs = (if (u.site.cls == 2) = true ∧ u.site.excW ≠ u.site.sustW then siteClamp (siteField rs 0x11 4 2) 250 0 250 else siteClamp (siteField rs 0x11 4 2) 0 0 0).1 := by rw [h1]; rfl
  have key : ∀ c, u.site.cls = c → u.site.cls = c ∧ u.site.sustW = max 600 (min (if c = 0 then 1100 else 1600) ((siteField rs 0x11 0 2).getD (if c = 0 then 1100 else 1600))) ∧
      u.site.excW = (if c = 2 then max u.site.sustW (min 1900 ((siteField rs 0x11 2 2).getD 1900)) else 0) ∧ u.site.excMs = (if c = 2 ∧ u.site.excW ≠ u.site.sustW then min 250 ((siteField rs 0x11 4 2).getD 250) else 0) := by
    rintro c rfl
    refine ⟨rfl, esu, ?_, ?_⟩
    · rw [eex]
      by_cases h : u.site.cls = 2
      · rw [if_pos (by rw [h]; rfl), if_pos h]; rfl
      · rw [if_neg (by simpa using h), if_neg h, clamp_val, Nat.zero_min, Nat.max_self]
    · rw [ems]
      by_cases h : u.site.cls = 2 ∧ u.site.excW ≠ u.site.sustW
      · rw [if_pos ⟨by rw [h.1]; rfl, h.2⟩, if_pos h, clamp_val, Nat.zero_max]
      · rw [if_neg (by rintro ⟨a, b⟩; exact h ⟨by simpa using a, b⟩), if_neg h, clamp_val, Nat.zero_min, Nat.max_self]
  have k2 := key _ (e1.trans c0)
  unfold Sited
  dsimp only
  refine ⟨k2.1, k2.2.1, k2.2.2.1, k2.2.2.2, by rw [h1]; rfl, by rw [h1]; rfl, by rw [h1]; rfl, ?_, en, esl, ?_, ?_, eu, ?_⟩
  · rw [h1]
    show (siteLegal ((siteField rs 0x24 0 1).map (fun x => x % 128)) 0x5A (fun x => decide (8 ≤ x) && decide (x < 0x78))).1 = _
    rw [legal_val]
    cases siteField rs 0x24 0 1 with
    | none => rfl
    | some a => simp only [Option.map_some, Bool.and_eq_true, decide_eq_true_eq]
  · rw [h7]
    show ((siteClamp (siteField rs 0x21 2 1) 0 0 1).1 == 1 && (siteField rs 0x21 0 2).getD 0 != (siteValues base pins rs).node && (siteField rs 0x21 0 2).getD 0 != 0xFFFF) = _
    rw [one, esl, h5]
  · rw [h2]
    show (match siteField rs 0x25 0 4 with | some 0 => (2000000, 1) | w => siteClamp w 2000000 1 10000000).1 = _
    cases siteField rs 0x25 0 4 with
    | none => rfl
    | some w =>
      cases w with
      | zero => rfl
      | succ w => show max 1 (min 10000000 (w + 1)) = min 10000000 (w + 1); omega
  · rw [h4]
    show ((siteClamp (siteField rs 0x26 1 1) 0 0 1).1 == 1 && (siteClamp (siteField rs 0x26 0 1) 4 0 31).1 != 0) = _
    rw [one, eu, clamp_val, Nat.zero_max]

theorem bitOf_tb (x p : Nat) : bitOf x p = x.testBit p := by
  rw [Nat.testBit_eq_decide_div_mod_eq]; rfl

theorem choice_of (a b : List Byte) (fa fb : Nat) : (fa = 0 → (fb = 0 → leAt b 0x0C 4 ≤ leAt a 0x0C 4) → siteChoice a b fa fb = 0) ∧
    (fb = 0 → (fa = 0 → leAt a 0x0C 4 < leAt b 0x0C 4) → siteChoice a b fa fb = 1) ∧ (fa ≠ 0 → fb ≠ 0 → siteChoice a b fa fb = 2) := by
  unfold siteChoice
  refine ⟨fun h1 h2 => ?_, fun h1 h2 => ?_, fun h1 h2 => ?_⟩
  · by_cases hb : fb = 0
    · rw [if_pos ⟨h1, hb⟩, if_neg (by have := h2 hb; omega)]
    · rw [if_neg (by omega), if_pos h1]
  · by_cases ha : fa = 0
    · rw [if_pos ⟨ha, h1⟩, if_pos (by have := h2 ha; omega)]
    · rw [if_neg (by omega), if_neg ha, if_pos h1]
  · rw [if_neg (by omega), if_neg h1, if_neg h2]

theorem mem_keys_tblSet {α : Type} {k : Nat} {v : α} {t : Tbl α} {a : Nat} (h : a ∈ (tblSet k v t).map Prod.fst) : a = k ∨ a ∈ t.map Prod.fst := by
  induction t with
  | nil => left; simpa [tblSet] using h
  | cons p t ih =>
    obtain ⟨j, w⟩ := p
    unfold tblSet at h
    split at h
    · simp only [List.map_cons, List.mem_cons] at h ⊢; omega
    split at h
    · simp only [List.map_cons, List.mem_cons] at h ⊢; rcases h with h | h <;> simp [h]
    · simp only [List.map_cons, List.mem_cons] at h ⊢
      rcases h with h | h
      · simp [h]
      · rcases ih h with h | h <;> simp [h]

theorem rising_tblSet {α : Type} (k : Nat) (v : α) {t : Tbl α} (h : Rising t) : Rising (tblSet k v t) := by
  induction t with
  | nil => unfold tblSet Rising; simp
  | cons p t ih =>
    obtain ⟨j, w⟩ := p
    unfold Rising at h
    rw [List.map_cons, List.pairwise_cons] at h
    unfold tblSet
    split
    · rename_i hk
      unfold Rising
      rw [List.map_cons, List.pairwise_cons, List.map_cons, List.pairwise_cons]
      refine ⟨fun a ha => ?_, h⟩
      rcases List.mem_cons.1 ha with rfl | ha
      · exact hk
      · have := h.1 a ha; show k < a; dsimp only at this; omega
    split
    · rename_i hk; subst hk
      unfold Rising; rw [List.map_cons, List.pairwise_cons]; exact h
    · unfold Rising
      rw [List.map_cons, List.pairwise_cons]
      refine ⟨fun a ha => ?_, ih h.2⟩
      rcases mem_keys_tblSet ha with rfl | ha
      · show j < a; omega
      · exact h.1 a ha

theorem find_rising {α : Type} {t : Tbl α} (h : Rising t) {p : Nat × α} (hp : p ∈ t) : tblFind p.1 t = some p.2 := by
  induction t with
  | nil => cases hp
  | cons q t ih =>
    obtain ⟨j, w⟩ := q
    unfold Rising at h
    rw [List.map_cons, List.pairwise_cons] at h
    rcases List.mem_cons.1 hp with rfl | hp
    · unfold tblFind; rw [if_pos rfl]
    · unfold tblFind
      have : j < p.1 := h.1 p.1 (List.mem_map_of_mem hp)
      rw [if_neg (by omega)]
      exact ih h.2 hp

theorem find_mem {α : Type} {t : Tbl α} {k : Nat} {v : α} (h : tblFind k t = some v) : (k, v) ∈ t := by
  induction t with
  | nil => cases h
  | cons q t ih =>
    obtain ⟨j, w⟩ := q
    unfold tblFind at h
    split at h
    · rename_i e; cases h; subst e; exact List.mem_cons_self
    · exact List.mem_cons_of_mem _ (ih h)

/-- What a kill looks at. -/
def pj (x : Ctx) : CtxState × Bool × Bool := (x.state, x.killing, x.toFree)

theorem reply_ctxs (s : State) (r : ReqRef) (st : Nat) (as : List Nat) : (s.reply r st as).ctxs = s.ctxs := by
  unfold State.reply
  split
  · rfl
  dsimp only
  split
  · exact (vector_only _ _).1
  · rfl

theorem replies_ctxs (ps : List PendWin) (st : Nat) (s : State) : (ps.foldl (fun t p => t.reply p.req st []) s).ctxs = s.ctxs := by
  induction ps generalizing s with
  | nil => rfl
  | cons p ps ih => rw [List.foldl_cons, ih, reply_ctxs]

theorem bump_on (v : State) (c : Nat) (z : Ctx) (t : Tbl Ctx) (h : v.ctxs = tblSet c z t) : (v.bump c).ctxs = tblSet c { z with seq := (z.seq + 2) % 2 ^ 32 } t := by
  show tblSet c { v.ctx c with seq := ((v.ctx c).seq + 2) % 2 ^ 32 } v.ctxs = _
  have hx : v.ctx c = z := by unfold State.ctx; rw [h, tblGet_tblSet_self]
  rw [hx, h, tblSet_tblSet_self]

theorem killWith_ctxs (s : State) (c : Nat) (f : FaultRec) (hf : ¬ f.core < 1280) (hs : (s.ctx c).state ≠ .free ∧ (s.ctx c).state ≠ .dead) :
    ∃ y, (s.killWith c f).ctxs = tblSet c y s.ctxs ∧ pj y = (.killing, true, (s.ctx c).toFree) := by
  unfold State.killWith
  have h1 : ∃ y, s.raise c f = s.setCtx c y ∧ pj y = pj (s.ctx c) := by
    unfold State.raise
    dsimp only
    rw [if_neg (by rintro (h | h); exact hs.1 h; exact hs.2 h), if_neg hf]
    refine ⟨_, rfl, ?_⟩
    cases (s.ctx c).fault with
    | none => rfl
    | some g => dsimp only; split <;> rfl
  obtain ⟨y, e, hy⟩ := h1
  rw [e]
  unfold State.killStep1
  dsimp only
  obtain ⟨r, hr⟩ := tailSwitch_rings (s.setCtx c y) c 3
  rw [hr]
  obtain ⟨cs, g1, -⟩ := fold_queues (fun q => { q with halt := false, halted := false, brkEn := false, stepArm := false }) (fun _ => rfl) (({ s.setCtx c y with rings := r } : State).held c) ({ s.setCtx c y with rings := r } : State)
  rw [g1]
  obtain ⟨w, hw⟩ : ∃ w : State, ({ s.setCtx c y with rings := r, cores := cs } : State) = w := ⟨_, rfl⟩
  have hwc : w.ctxs = tblSet c y s.ctxs := by rw [← hw]; rfl
  have hwx : w.ctx c = y := by unfold State.ctx; rw [hwc, tblGet_tblSet_self]
  rw [hw]
  obtain ⟨z, hz⟩ : ∃ z : Ctx, ({ w.ctx c with placedNs := (w.ctx c).placedTotal w.now, state := .killing, killing := true, yielding := false, pendWins := [], cause := match (w.ctx c).fault with | some f => f.cause.code | none => 0 } : Ctx) = z := ⟨_, rfl⟩
  have hzp : pj z = (.killing, true, (s.ctx c).toFree) := by
    rw [← hz, hwx]
    show ((CtxState.killing, true, y.toFree) : CtxState × Bool × Bool) = _
    have : y.toFree = (s.ctx c).toFree := congrArg (fun x => x.2.2) hy
    rw [this]
  refine ⟨{ z with seq := (z.seq + 2) % 2 ^ 32 }, ?_, hzp⟩
  refine bump_on _ c z _ ?_
  rw [State.modLinks_ctxs, replies_ctxs]
  show tblSet c _ w.ctxs = _
  rw [hwc, tblSet_tblSet_self, ← hz]
  all_goals rfl

/-- What the kill of all contexts makes of one. -/
def doomed (c : Nat) (x : Ctx) : CtxState × Bool × Bool :=
  if x.state = .free ∨ x.state = .dead then pj x else if c = 0 then (.free, false, false) else (.killing, true, true)

theorem endHost_ctxs (ns : List Nat) (t : State) : (ns.foldl (fun t n => t.modCore n Core.endHost) t).ctxs = t.ctxs := by
  induction ns generalizing t with
  | nil => rfl
  | cons n ns ih => rw [List.foldl_cons, ih]; rfl

theorem windows_none (ws : Tbl Window) (h : ∀ w ∈ ws, w.2.named = false) (t : State) : ws.foldl (fun (t : State) w => t.windowOut w.2) t = t := by
  induction ws generalizing t with
  | nil => rfl
  | cons w ws ih =>
    rw [List.foldl_cons, show t.windowOut w.2 = t by unfold State.windowOut; rw [h w List.mem_cons_self]; rfl]
    exact ih (fun w hw => h w (List.mem_cons_of_mem _ hw)) t

def killOne (t : State) (p : Nat × Ctx) : State :=
    let x := p.2
    if x.state = .free ∨ x.state = .dead then t
    else if p.1 = 0 then ((x.windows.foldl (fun t w => t.windowOut w.2) t).freeCtx 0)
    else
      let t := t.modCtx p.1 (fun y => { y with toFree := true })
      let t := if x.killing then t else t.killWith p.1 { cause := .killRequest }
      (t.held p.1).foldl (fun t n => t.modCore n Core.endHost) t

theorem killOne_ctxs (t : State) (p : Nat × Ctx) (hp : pj (t.ctx p.1) = pj p.2) (hk : p.2.killing = true ↔ p.2.state = .killing) (hw : p.1 = 0 → ∀ w ∈ p.2.windows, w.2.named = false) :
    ((p.2.state = .free ∨ p.2.state = .dead) ∧ (killOne t p).ctxs = t.ctxs) ∨ ∃ y, (killOne t p).ctxs = tblSet p.1 y t.ctxs ∧ pj y = doomed p.1 p.2 := by
  unfold killOne doomed
  dsimp only
  by_cases h : p.2.state = .free ∨ p.2.state = .dead
  · left; rw [if_pos h]; exact ⟨h, rfl⟩
  right
  rw [if_neg h, if_neg h]
  by_cases h0 : p.1 = 0
  · rw [if_pos h0, if_pos h0, windows_none _ (hw h0)]
    unfold State.freeCtx
    dsimp only
    rw [h0]
    exact ⟨{ seq := ((t.ctx 0).seq + 2) % 2 ^ 32, dbDrop := (t.ctx 0).dbDrop }, bump_on _ 0 { seq := (t.ctx 0).seq, dbDrop := (t.ctx 0).dbDrop } t.ctxs rfl, rfl⟩
  · rw [if_neg h0, if_neg h0, endHost_ctxs]
    have hm : (t.modCtx p.1 (fun y => { y with toFree := true })).ctxs = tblSet p.1 { t.ctx p.1 with toFree := true } t.ctxs := rfl
    have hx : (t.modCtx p.1 (fun y => { y with toFree := true })).ctx p.1 = { t.ctx p.1 with toFree := true } := by unfold State.ctx; rw [hm, tblGet_tblSet_self]; rfl
    have s1 : (t.ctx p.1).state = p.2.state := congrArg Prod.fst hp
    have s2 : (t.ctx p.1).killing = p.2.killing := congrArg (fun x => x.2.1) hp
    cases hkk : p.2.killing with
    | true =>
      rw [if_pos rfl]
      refine ⟨_, hm, ?_⟩
      show ((t.ctx p.1).state, (t.ctx p.1).killing, true) = _
      rw [s1, s2, hkk, hk.1 hkk]
    | false =>
      rw [if_neg (by simp)]
      obtain ⟨y, e, hy⟩ := killWith_ctxs (t.modCtx p.1 (fun y => { y with toFree := true })) p.1 { cause := .killRequest } (by decide) (by
        rw [hx]; show (t.ctx p.1).state ≠ _ ∧ (t.ctx p.1).state ≠ _; rw [s1]; exact ⟨fun q => h (.inl q), fun q => h (.inr q)⟩)
      refine ⟨y, ?_, ?_⟩
      · rw [e, hm, tblSet_tblSet_self]
      · rw [hy, hx]

theorem kill_fold (l : Tbl Ctx) : ∀ (t : State), Rising l → Rising t.ctxs → (∀ p ∈ l, pj (t.ctx p.1) = pj p.2) → (∀ p ∈ l, p.2.killing = true ↔ p.2.state = .killing) →
    (∀ p ∈ l, p.1 = 0 → ∀ w ∈ p.2.windows, w.2.named = false) →
    Rising (l.foldl killOne t).ctxs ∧ (∀ p ∈ l, pj ((l.foldl killOne t).ctx p.1) = doomed p.1 p.2) ∧ ∀ d, d ∉ l.map Prod.fst → pj ((l.foldl killOne t).ctx d) = pj (t.ctx d) := by
  induction l with
  | nil => exact fun t _ h _ _ _ => ⟨h, fun p hp => (by cases hp), fun d _ => rfl⟩
  | cons p l ih =>
    intro t hl ht hp hk hw
    unfold Rising at hl
    rw [List.map_cons, List.pairwise_cons] at hl
    rw [List.foldl_cons]
    have one := killOne_ctxs t p (hp p List.mem_cons_self) (hk p List.mem_cons_self) (hw p List.mem_cons_self)
    have r1 : Rising (killOne t p).ctxs := by
      rcases one with ⟨-, e⟩ | ⟨y, e, -⟩
      · rw [e]; exact ht
      · rw [e]; exact rising_tblSet _ _ ht
    have r2 : pj ((killOne t p).ctx p.1) = doomed p.1 p.2 := by
      rcases one with ⟨h, e⟩ | ⟨y, e, hy⟩
      · unfold State.ctx; rw [e]; unfold doomed; rw [if_pos h]; exact hp p List.mem_cons_self
      · unfold State.ctx; rw [e, tblGet_tblSet_self]; exact hy
    have r3 : ∀ d, d ≠ p.1 → (killOne t p).ctx d = t.ctx d := by
      intro d hd
      rcases one with ⟨-, e⟩ | ⟨y, e, -⟩
      · unfold State.ctx; rw [e]
      · unfold State.ctx; rw [e, tblGet_tblSet_ne _ hd]
    have hne : ∀ q ∈ l, q.1 ≠ p.1 := fun q hq => by have := hl.1 q.1 (List.mem_map_of_mem hq); omega
    obtain ⟨i1, i2, i3⟩ := ih (killOne t p) hl.2 r1 (fun q hq => by rw [r3 _ (hne q hq)]; exact hp q (List.mem_cons_of_mem _ hq)) (fun q hq => hk q (List.mem_cons_of_mem _ hq)) (fun q hq => hw q (List.mem_cons_of_mem _ hq))
    refine ⟨i1, fun q hq => ?_, fun d hd => ?_⟩
    · rcases List.mem_cons.1 hq with rfl | hq
      · rw [i3 _ (fun h => ?_), r2]
        obtain ⟨z, hz, e⟩ := List.mem_map.1 h
        exact hne z hz e
      · exact i2 q hq
    · rw [List.map_cons, List.mem_cons, not_or] at hd
      rw [i3 d hd.2, r3 d hd.1]

theorem functionReset_empty (s : State) (h : s.ctxs = []) (k : ResetKind) : s.functionReset k = { s with pci := { s.pci with err := {}, origin := 0, msix := [], pba := [], evq := {}, dbPend := 0, dbMask := [(1, 3), (2, 8), (3, 4)], completion := none, chans := s.pci.chans.map (fun c => (c.1, { c.2 with inbound := c.2.inbound.filter (fun m => m.sender != 0), replies := tblDrop 0 c.2.replies, args := [] })) }, fman := { nextOrder := s.fman.nextOrder }, trust := { s.trust with update := none }, links := { s.links with twin := { s.links.twin with restore := s.links.twin.restore.map (fun r => { r with req := if r.req.sender = 0 then { r.req with sender := 6 } else r.req }) } }, resets := { s.resets with last := k } } := by
  have hd : ({ s with ctxs := [] } : State) = s := by rw [← h]
  rw [← hd]
  rfl

theorem check_slot (t u : Trust) (i : Nat) (h1 : ∀ o n, u.slotBytes i o n = t.slotBytes i o n) (h2 : u.rollback = t.rollback) : u.check i = t.check i := by
  unfold Trust.check; simp only [h1, h2]

theorem slotBytes_eq (t u : Trust) (i : Nat) (h : (u.slot i).bytes = (t.slot i).bytes) (o n : Nat) : u.slotBytes i o n = t.slotBytes i o n := by
  unfold Trust.slotBytes; rw [h]

theorem found_keep (x : FwSlot) (c : FwCheck) : (x.found c).bytes = x.bytes := by cases c <;> rfl

/-- The boot ROM's choice. -/
theorem booted (s t : State) (u : Trust) (h1 : u.a.bytes = s.trust.a.bytes) (h2 : u.b.bytes = s.trust.b.bytes) (h3 : u.owners = s.trust.owners) (h4 : u.rollback = s.trust.rollback) (ht : t.trust = u.boot) : Booted s t := by
  have hby : ∀ i, (u.slot i).bytes = (s.trust.slot i).bytes := by intro i; unfold Trust.slot; split <;> assumption
  have hc : ∀ i, u.check i = s.trust.check i := fun i => check_slot _ _ i (slotBytes_eq _ _ i (hby i)) h4
  obtain ⟨A, eA⟩ : ∃ A, u.a.found (u.check 0) = A := ⟨_, rfl⟩
  obtain ⟨B, eB⟩ : ∃ B, u.b.found (u.check 1) = B := ⟨_, rfl⟩
  have hb : u.boot = { u with a := A, b := B, running := if A.valid && (!B.valid || decide (A.version ≥ B.version)) then 0 else if B.valid then 1 else 3, version := if (if A.valid && (!B.valid || decide (A.version ≥ B.version)) then 0 else if B.valid then 1 else 3) = 0 then A.version else if (if A.valid && (!B.valid || decide (A.version ≥ B.version)) then 0 else if B.valid then 1 else 3) = 1 then B.version else 0, fallback := false, restarted := false, update := none } := by
    unfold Trust.boot
    have e1 : (u.setSlot 0 (u.a.found (u.check 0))).setSlot 1 (u.b.found (u.check 1)) = { u with a := A, b := B } := by rw [eA, eB]; rfl
    dsimp only
    rw [e1]
  have sA : ∀ i, i ≤ 1 → (t.trust.slot i) = (u.slot i).found (s.trust.check i) := by
    intro i hi
    have : i = 0 ∨ i = 1 := by omega
    rw [ht, hb]
    rcases this with rfl | rfl
    · show A = _; rw [← eA, hc]; rfl
    · show B = _; rw [← eB, hc]; rfl
  refine ⟨fun i hi => ?_, ?_, ?_, by rw [ht, hb], by rw [ht, hb], by rw [ht, hb]; exact h3, by rw [ht, hb]; exact h4⟩
  · rw [sA i hi]
    obtain ⟨c1, c2⟩ := check_valid s.trust i
    obtain ⟨v, ev⟩ : ∃ v, leAt (s.trust.slotBytes i 0 0x220) 8 4 = v := ⟨_, rfl⟩
    obtain ⟨r, er⟩ : ∃ r, leAt (s.trust.slotBytes i 0 0x220) 0x0C 4 = r := ⟨_, rfl⟩
    rw [ev, er] at c1 ⊢
    by_cases hv : ValidPackage s.trust i
    · rw [c1 hv]
      exact ⟨⟨fun _ => hv, fun _ => rfl⟩, hby i, fun _ => ⟨rfl, rfl⟩, fun h => absurd hv h⟩
    · rcases c2 hv with e | ⟨e, -⟩ <;> rw [e]
      · exact ⟨⟨fun h => (by cases h), fun h => absurd h hv⟩, hby i, fun h => absurd h hv, fun _ => rfl⟩
      · exact ⟨⟨fun h => (by cases h), fun h => absurd h hv⟩, hby i, fun h => absurd h hv, fun _ => rfl⟩
  · rw [ht, hb]
    show (if (A.valid && (!B.valid || decide (A.version ≥ B.version))) = true then 0 else if B.valid = true then 1 else 3) = (if A.valid = true ∧ (B.valid = true → B.version ≤ A.version) then 0 else if B.valid = true then 1 else 3)
    cases hA : A.valid <;> cases hB : B.valid <;> simp
  · rw [ht, hb]
    obtain ⟨P, hP⟩ : ∃ P, (if (A.valid && (!B.valid || decide (A.version ≥ B.version))) = true then 0 else if B.valid = true then 1 else 3) = P := ⟨_, rfl⟩
    have hP3 : P = 0 ∨ P = 1 ∨ P = 3 := by rw [← hP]; split; exact .inl rfl; split; exact .inr (.inl rfl); exact .inr (.inr rfl)
    rw [hP]
    show (if P = 0 then A.version else if P = 1 then B.version else 0) = if P = 3 then 0 else (if P = 0 then A else B).version
    rcases hP3 with h | h | h <;> rw [h] <;> rfl

def warmMid (s : State) : State :=
  let t := s.trust
  { s with
    dies := [], cores := s.cores.map (fun k => (k.1, k.2.warm)), net := {}, hub := {}, ctxs := [], fman := {}
    links := s.links.warm, far := s.far.warm, gov := s.gov.warm s.site, dbg := s.dbg.warm
    trust := { t with hostBuf := [], smbusBuf := [], seek := 0, smbusOut := [] }
    pci := { s.pci with fw := .starting, speed := 0, width := 0, flit := false, chans := [], ready := false, dbStray := 0 }
    resets := { s.resets with warmCount := satAdd 255 s.resets.warmCount 1, remove := .none, cancelled := false } }

theorem warm_mid (s f : State) (hf : s.functionReset .warm = f) (hc : f.ctxs = []) : s.warmReset =
    (if (warmMid f).bootRom.trust.running = 3 then (warmMid f).bootRom else (warmMid f).bootRom.modPci (fun p => { p with running := [0, 1, 2, 3] })).fwUpdate.removalWaits := by
  unfold State.warmReset
  rw [hf]
  dsimp only
  rw [hc]
  rfl

theorem find_map_list {α : Type} (h : Nat → α) (l : List Nat) (k : Nat) (hk : k ∈ l) : tblFind k (l.map (fun c => (c, h c))) = some (h k) := by
  induction l with
  | nil => cases hk
  | cons a l ih =>
    rw [List.map_cons]
    unfold tblFind
    by_cases ha : a = k
    · rw [if_pos ha, ha]
    · rw [if_neg ha]
      exact ih (by rcases List.mem_cons.1 hk with h | h; exact absurd h.symm ha; exact h)

theorem tblGet_map_range {α : Type} {d : α} {h : Nat → α} {n k : Nat} (hk : k < n) : tblGet d ((List.range n).map (fun c => (c, h c))) k = h k := by
  unfold tblGet; rw [find_map_list h _ k (List.mem_range.2 hk)]; rfl

def skewAt (b : Int) (s : State) (d : Nat) : Int := b + (Config.freeSkew (s.draws + 1 + d) % 11 : Nat)

theorem skew_fold (b : Int) (s : State) (l : List Nat) : ∀ (t : Tbl Die), l.Nodup → ∀ d,
    (tblGet {} (l.foldl (fun t d =>
        let x := tblGet ({} : Die) t d
        if x.released then tblSet d { x with skew := b + (Config.freeSkew (s.draws + 1 + d) % 11 : Nat) } t else t) t) d : Die) =
      if d ∈ l ∧ (tblGet {} t d : Die).released = true then { (tblGet {} t d : Die) with skew := skewAt b s d } else tblGet {} t d := by
  induction l with
  | nil => intro t _ d; rw [if_neg (by rintro ⟨h, -⟩; cases h)]; rfl
  | cons a l ih =>
    intro t hn d
    rw [List.nodup_cons] at hn
    rw [List.foldl_cons, ih _ hn.2 d]
    dsimp only
    by_cases hr : (tblGet ({} : Die) t a).released = true
    · rw [if_pos hr]
      by_cases hda : d = a
      · subst hda
        rw [if_neg (fun h => hn.1 h.1), if_pos ⟨List.mem_cons_self, hr⟩, tblGet_tblSet_self]; rfl
      · rw [tblGet_tblSet_ne _ hda]
        by_cases hl : d ∈ l
        · simp [hl]
        · rw [if_neg (fun h => hl h.1), if_neg (fun h => by rcases List.mem_cons.1 h.1 with h | h; exact hda h; exact hl h)]
    · rw [if_neg hr]
      by_cases hda : d = a
      · subst hda
        rw [if_neg (fun h => hr h.2), if_neg (fun h => hr h.2)]
      · by_cases hl : d ∈ l
        · simp [hl]
        · rw [if_neg (fun h => hl h.1), if_neg (fun h => by rcases List.mem_cons.1 h.1 with h | h; exact hda h; exact hl h)]

end Sys2Proof.Claims
end

