-- ==== Sys2Proof/Laws/OfRemoval.lean ====
section
/-!
SUPPORT. Lemmas about removal and the far memory controllers, for the proofs of the statements: what their operations do, step by step.
-/

namespace Sys2Proof.Claims

open Machine

theorem modPort_shape (s : State) (p : Nat) (f : Port → Port) : ∃ d, s.modPort p f = { s with links := { s.links with ports := tblSet p (f (s.port p)) s.links.ports }, dbg := d } := by
  unfold State.modPort
  dsimp only
  split
  · exact ⟨s.dbg, rfl⟩
  · exact ⟨_, rfl⟩

theorem sendFrame_shape (s : State) (n : Nat) (b : FrameBody) : ∃ ps d, s.sendFrame n b = { s with links := { s.links with ports := ps }, dbg := d } := by
  unfold State.sendFrame
  split
  · exact ⟨s.links.ports, s.dbg, rfl⟩
  · obtain ⟨d, e⟩ := modPort_shape s _ _
    rw [e]; exact ⟨_, d, rfl⟩

theorem sendTwin_shape (s : State) (b : FrameBody) : ∃ ps d, s.sendTwin b = { s with links := { s.links with ports := ps }, dbg := d } := by
  unfold State.sendTwin
  obtain ⟨d, e⟩ := modPort_shape s twinPort _
  rw [e]; exact ⟨_, d, rfl⟩

theorem nodup_of_rising {α : Type} {t : Tbl α} (h : Rising t) : (t.map Prod.fst).Nodup := List.Pairwise.imp (fun h => Nat.ne_of_lt h) h

theorem holdAll_shape (s : State) (hr : Rising s.ctxs) : ∃ x, s.holdAll = { s with ctxs := x } ∧ (∀ d, ({ s with ctxs := x } : State).ctx d = if (s.ctx d).state.lives = true then { s.ctx d with hold := true, seq := ((s.ctx d).seq + 2) % 2 ^ 32 } else s.ctx d) ∧
    x.map (fun p => (p.1, p.2.state)) = s.ctxs.map (fun p => (p.1, p.2.state)) := by
  obtain ⟨x, e, hx⟩ := fold_ctxs (fun t c => (t.modCtx c (fun x => { x with hold := true })).bump c) (fun x => x.state.lives) (fun x => { x with hold := true, seq := (x.seq + 2) % 2 ^ 32 })
      (fun t c d => modBump t c _ d) (fun t c => ⟨_, rfl⟩) (fun _ => .inr rfl) s.ctxs s (nodup_of_rising hr)
  refine ⟨x, e, fun d => ?_, ?_⟩
  · rw [hx]
    have hc : s.ctx d = (tblFind d s.ctxs).getD {} := rfl
    cases hf : tblFind d s.ctxs with
    | none => rw [hf] at hc; dsimp only; rw [hc]; rfl
    | some y => rw [hf] at hc; dsimp only; rw [hc]; rfl
  · have hst := hold_states s.ctxs s hr (fun p hp => List.mem_map_of_mem hp)
    have e2 : s.ctxs.foldl (fun (t : State) p => if p.2.state.lives then (t.modCtx p.1 (fun x => { x with hold := true })).bump p.1 else t) s = { s with ctxs := x } := e
    rw [e2] at hst
    exact hst

theorem fold_same {α : Type} (g : State → α → State) (l : List α) (h : ∀ p ∈ l, ∀ t, g t p = t) (s : State) : l.foldl g s = s := by
  induction l generalizing s with
  | nil => rfl
  | cons p l ih => rw [List.foldl_cons, h p List.mem_cons_self]; exact ih (fun q hq => h q (List.mem_cons_of_mem _ hq)) s

theorem count_states {t u : Tbl Ctx} (h : u.map (fun p => (p.1, p.2.state)) = t.map (fun p => (p.1, p.2.state))) :
    (u.filter (fun p => p.2.state == .placed || p.2.state == .suspended || p.2.state == .killing)).length = (t.filter (fun p => p.2.state == .placed || p.2.state == .suspended || p.2.state == .killing)).length := by
  have key : ∀ l : Tbl Ctx, (l.filter (fun p => p.2.state == .placed || p.2.state == .suspended || p.2.state == .killing)).length = ((l.map (fun p => (p.1, p.2.state))).filter (fun (p : Nat × CtxState) => p.2 == .placed || p.2 == .suspended || p.2 == .killing)).length := by
    intro l
    rw [List.filter_map, List.length_map]; rfl
  rw [key, key, h]

theorem departs (v : State) (hr : Rising v.ctxs) (hs : ∀ p ∈ v.ctxs, p.2.state ≠ .suspended) : Departs v (.next v.depart) := by
  obtain ⟨v1, hv1⟩ : ∃ v1 : State, ({ v with links := { v.links with twin := { v.links.twin with copy := none, departSent := true } } } : State) = v1 := ⟨_, rfl⟩
  have en : v1.links.twin.enable = v.links.twin.enable := by rw [← hv1]
  have sl : v1.links.twin.slot = v.links.twin.slot := by rw [← hv1]
  obtain ⟨h, hh⟩ : ∃ h, (if v1.links.twin.enable = false then v1 else if (v1.port 16).state = .up then v1.sendTwin (v1.helloBody true) else v1.sendFrame v1.links.twin.slot (v1.helloBody true)) = h := ⟨_, rfl⟩
  suffices H : ∃ w, (Host.Outcome.next v.depart : Out) = .next (removalRecord w 2 false (v.ctxs.filter (fun p => p.2.state == .placed || p.2.state == .suspended || p.2.state == .killing)).length) ∧
      (∀ d, w.ctx d = if (v.ctx d).state = .ready ∨ (v.ctx d).state = .placed then { v.ctx d with hold := true, seq := ((v.ctx d).seq + 2) % 2 ^ 32 } else v.ctx d) ∧
      w = { h with ctxs := w.ctxs, resets := { h.resets with remove := .draining, drainSince := h.now } } by
    subst hh; subst hv1; exact H
  have hsh : ∃ ps d, h = { v1 with links := { v1.links with ports := ps }, dbg := d } := by
    rw [← hh]
    split
    · exact ⟨v1.links.ports, v1.dbg, rfl⟩
    split
    · exact sendTwin_shape _ _
    · exact sendFrame_shape _ _ _
  obtain ⟨ps, d, eh⟩ := hsh
  have hc : h.ctxs = v.ctxs := by rw [eh, ← hv1]
  obtain ⟨k, hk⟩ : ∃ k : State, ({ h with resets := { h.resets with remove := .draining, drainSince := h.now } } : State) = k := ⟨_, rfl⟩
  have kc : k.ctxs = v.ctxs := by rw [← hk]; exact hc
  obtain ⟨x, e1, e2, e3⟩ := holdAll_shape k (by rw [kc]; exact hr)
  have hdep : v.depart = (k.holdAll.ctxs.foldl (fun t p => if p.2.state = .suspended then t.killWith p.1 { cause := .killRequest } else t) k.holdAll).removal .draining false := by
    unfold State.depart
    dsimp only
    have e0 : v.modTwin (fun t => { t with copy := none, departSent := true }) = v1 := hv1
    rw [e0, ← en, ← sl]
    have : (if (!v1.links.twin.enable) = true then v1 else if (v1.port twinPort).state = .up then v1.sendTwin (v1.helloBody true) else v1.sendFrame v1.links.twin.slot (v1.helloBody true)) = h := by
      rw [← hh]
      cases v1.links.twin.enable <;> rfl
    rw [this, hk]
  have hfold : k.holdAll.ctxs.foldl (fun (t : State) p => if p.2.state = .suspended then t.killWith p.1 { cause := .killRequest } else t) k.holdAll = k.holdAll := by
    refine fold_same _ _ (fun p hp t => ?_) _
    rw [if_neg]
    rw [e1] at hp
    have hm : (p.1, p.2.state) ∈ x.map (fun p => (p.1, p.2.state)) := List.mem_map_of_mem (f := fun p : Nat × Ctx => (p.1, p.2.state)) hp
    rw [e3, kc] at hm
    obtain ⟨q, hq, eq⟩ := List.mem_map.1 hm
    have : q.2.state = p.2.state := congrArg Prod.snd eq
    rw [← this]; exact hs q hq
  rw [hfold, e1] at hdep
  refine ⟨{ k with ctxs := x }, ?_, fun d => ?_, ?_⟩
  · rw [hdep]
    unfold State.removal removalRecord
    dsimp only
    have kr : k.resets.remove = .draining := by rw [← hk]
    have hkr : ({ k.resets with remove := .draining, cancelled := k.resets.cancelled || false } : Resets) = k.resets := by
      rw [Bool.or_false]
      cases hkk : k.resets with
      | mk a b c d e f g => rw [hkk] at kr; cases kr; rfl
    rw [hkr]
    have hrem : ({ k with ctxs := x } : State).remainingReg = (v.ctxs.filter (fun p => p.2.state == .placed || p.2.state == .suspended || p.2.state == .killing)).length := by
      unfold State.remainingReg
      rw [show ({ k with ctxs := x } : State).resets.remove = .draining from kr, if_pos rfl]
      unfold State.remaining
      rw [show ({ k with ctxs := x } : State).ctxs = x from rfl, count_states e3, kc]
    have hnow : ({ k with ctxs := x, resets := k.resets } : State) = { k with ctxs := x } := rfl
    rw [hnow, hrem]
    rfl
  · have := e2 d
    rw [this]
    have hkd : k.ctx d = v.ctx d := by unfold State.ctx; rw [kc]
    rw [hkd]
    have hns : (v.ctx d).state ≠ .suspended := by
      unfold State.ctx tblGet
      cases hf : tblFind d v.ctxs with
      | none => decide
      | some y => exact hs _ (find_mem hf)
    have : (v.ctx d).state.lives = true ↔ (v.ctx d).state = .ready ∨ (v.ctx d).state = .placed := by
      unfold CtxState.lives
      revert hns
      cases (v.ctx d).state <;> decide
    by_cases hl : (v.ctx d).state.lives = true
    · rw [if_pos hl, if_pos (this.1 hl)]
    · rw [if_neg hl, if_neg (fun h => hl (this.2 h))]
  · rw [← hk]

theorem manned_iff (s : State) : s.manned = true ↔ 1 ∈ s.pci.running ∧ 2 ∈ s.pci.running ∧ 3 ∈ s.pci.running := by
  unfold State.manned
  rw [List.all_eq_true]
  simp only [List.mem_cons, List.not_mem_nil, or_false, forall_eq_or_imp, forall_eq, List.contains_iff_mem]

theorem event_keeps (s : State) (k d : Nat) : (s.event k d).ctxs = s.ctxs ∧ (s.event k d).links = s.links ∧ (s.event k d).resets = s.resets := by
  obtain ⟨q, b, h, g, e⟩ := event_only s k d
  rw [e]; exact ⟨rfl, rfl, rfl⟩

theorem starts (u : State) : (u.links.twin.pair ≠ .paired ∨ u.links.twin.copy = none →
      u.startRemoval = (removalRecord { u with links := { u.links with twin := { u.links.twin with departing := true } }, resets := { u.resets with drainSince := u.now, remove := .settling } } 1 false 0).depart) ∧
    (u.links.twin.pair = .paired → u.links.twin.copy ≠ none →
      u.startRemoval = removalRecord { u with links := { u.links with twin := { u.links.twin with departing := true } }, resets := { u.resets with drainSince := u.now, remove := .settling } } 1 false 0) := by
  obtain ⟨v, hv⟩ : ∃ v : State, ({ u with links := { u.links with twin := { u.links.twin with departing := true } }, resets := { u.resets with drainSince := u.now, remove := .settling } } : State) = v := ⟨_, rfl⟩
  have e : ({ (u.modTwin (fun t => { t with departing := true })) with resets := { (u.modTwin (fun t => { t with departing := true })).resets with drainSince := (u.modTwin (fun t => { t with departing := true })).now } } : State).removal .settling false = removalRecord v 1 false 0 := by
    rw [← hv]
    unfold State.removal removalRecord
    have : u.resets.cancelled = (u.resets.cancelled || false) := (Bool.or_false _).symm
    dsimp only
    rw [Bool.or_false]
    rfl
  have hs : u.startRemoval = if (removalRecord v 1 false 0).links.twin.pair ≠ .paired ∨ (removalRecord v 1 false 0).links.twin.copy.isNone = true then (removalRecord v 1 false 0).depart else removalRecord v 1 false 0 := by
    unfold State.startRemoval
    dsimp only
    rw [← e]
  have hl : (removalRecord v 1 false 0).links = v.links := (event_keeps _ _ _).2.1
  rw [hl] at hs
  have h1 : v.links.twin.pair = u.links.twin.pair := by rw [← hv]
  have h2 : v.links.twin.copy = u.links.twin.copy := by rw [← hv]
  rw [h1, h2] at hs
  rw [hv]
  refine ⟨fun h => ?_, fun h3 h4 => ?_⟩
  · rw [hs, if_pos]
    rcases h with h | h
    · exact .inl h
    · right; rw [h]; rfl
  · rw [hs, if_neg]
    rintro (h | h)
    · exact h h3
    · exact h4 (by cases hc : u.links.twin.copy with
        | none => rfl
        | some _ => rw [hc] at h; cases h)

theorem remaining_eq (u : State) : u.remaining = (u.ctxs.filter (fun p => p.2.state == .placed || p.2.state == .suspended || p.2.state == .killing)).length := rfl

theorem kill_placed (l : Tbl Ctx) : ∀ (t : State), Rising l → (∀ p ∈ l, pj (t.ctx p.1) = pj p.2) →
    (∀ p ∈ l, let u := l.foldl (fun (t : State) p => if p.2.state = .placed then t.killWith p.1 { cause := .killRequest } else t) t
      if p.2.state = .placed then (u.ctx p.1).state = .killing ∧ (u.ctx p.1).killing = true else pj (u.ctx p.1) = pj p.2) ∧
    ∀ d, d ∉ l.map Prod.fst → pj ((l.foldl (fun (t : State) p => if p.2.state = .placed then t.killWith p.1 { cause := .killRequest } else t) t).ctx d) = pj (t.ctx d) := by
  induction l with
  | nil => exact fun t _ _ => ⟨fun p hp => (by cases hp), fun d _ => rfl⟩
  | cons p l ih =>
    intro t hl hp
    unfold Rising at hl
    rw [List.map_cons, List.pairwise_cons] at hl
    have hne : ∀ q ∈ l, q.1 ≠ p.1 := fun q hq => by have := hl.1 q.1 (List.mem_map_of_mem hq); omega
    obtain ⟨w, hw⟩ : ∃ w, (if p.2.state = .placed then t.killWith p.1 { cause := .killRequest } else t) = w := ⟨_, rfl⟩
    have one : (p.2.state = .placed → (w.ctx p.1).state = .killing ∧ (w.ctx p.1).killing = true) ∧ (p.2.state ≠ .placed → w = t) ∧ ∀ d, d ≠ p.1 → w.ctx d = t.ctx d := by
      rw [← hw]
      by_cases h : p.2.state = .placed
      · rw [if_pos h]
        have hst : (t.ctx p.1).state = .placed := (congrArg Prod.fst (hp p List.mem_cons_self)).trans h
        obtain ⟨y, e, hy⟩ := killWith_ctxs t p.1 { cause := .killRequest } (by decide) (by rw [hst]; exact ⟨by decide, by decide⟩)
        refine ⟨fun _ => ?_, fun hn => absurd h hn, fun d hd => ?_⟩
        · unfold State.ctx; rw [e, tblGet_tblSet_self]
          exact ⟨congrArg Prod.fst hy, congrArg (fun x => x.2.1) hy⟩
        · unfold State.ctx; rw [e, tblGet_tblSet_ne _ hd]
      · rw [if_neg h]; exact ⟨fun hn => absurd hn h, fun _ => rfl, fun _ _ => rfl⟩
    rw [List.foldl_cons, hw]
    obtain ⟨i1, i2⟩ := ih w hl.2 (fun q hq => by rw [one.2.2 _ (hne q hq)]; exact hp q (List.mem_cons_of_mem _ hq))
    have hpn : p.1 ∉ l.map Prod.fst := fun h => by
      obtain ⟨z, hz, e⟩ := List.mem_map.1 h
      exact hne z hz e
    refine ⟨fun q hq => ?_, fun d hd => ?_⟩
    · rcases List.mem_cons.1 hq with rfl | hq
      · have e := i2 _ hpn
        dsimp only
        by_cases h : q.2.state = .placed
        · rw [if_pos h]
          have e1 := congrArg Prod.fst e
          have e2 := congrArg (fun x => x.2.1) e
          exact ⟨e1.trans (one.1 h).1, e2.trans (one.1 h).2⟩
        · rw [if_neg h, e, one.2.1 h]; exact hp q List.mem_cons_self
      · exact i1 q hq
    · rw [List.map_cons, List.mem_cons, not_or] at hd
      rw [i2 d hd.2, one.2.2 d hd.1]

theorem down_fold (l : List Nat) : ∀ (s : State), l.Nodup → ∃ ps q b h g, l.foldl (fun t p => if (t.port p).enable then (t.setPort p (t.port p).discard).portState p .down else t) s =
      { s with links := { s.links with ports := ps }, pci := { s.pci with evq := q, pba := b }, host := h, dbg := g } ∧
    ∀ r, (tblGet {} ps r : Port) = if r ∈ l ∧ (s.port r).enable = true then { (s.port r).discard with state := .down } else s.port r := by
  induction l with
  | nil => exact fun s _ => ⟨s.links.ports, _, _, _, _, rfl, fun r => by rw [if_neg (fun h => by cases h.1)]; rfl⟩
  | cons a l ih =>
    intro s hn
    rw [List.nodup_cons] at hn
    rw [List.foldl_cons]
    obtain ⟨ps1, q1, b1, h1, g1, e1, m1⟩ : ∃ ps q b h g, (if (s.port a).enable then (s.setPort a (s.port a).discard).portState a .down else s) =
        { s with links := { s.links with ports := ps }, pci := { s.pci with evq := q, pba := b }, host := h, dbg := g } ∧
        ∀ r, (tblGet {} ps r : Port) = if r = a ∧ (s.port a).enable = true then { (s.port a).discard with state := .down } else s.port r := by
      by_cases he : (s.port a).enable = true
      · rw [if_pos he]
        obtain ⟨ps, q, b, h, g, e, m⟩ := portState_shape (s.setPort a (s.port a).discard) a .down
        refine ⟨ps, q, b, h, g, e, fun r => ?_⟩
        rw [m r]
        by_cases hr : r = a
        · rw [if_pos hr, if_pos ⟨hr, he⟩]
          show ({ (tblGet {} (tblSet a _ s.links.ports) a : Port) with state := _ } : Port) = _
          rw [tblGet_tblSet_self]
        · rw [if_neg hr, if_neg (fun h => hr h.1)]
          show (tblGet {} (tblSet a _ s.links.ports) r : Port) = _
          rw [tblGet_tblSet_ne _ hr]; rfl
      · rw [if_neg he]
        exact ⟨s.links.ports, _, _, _, _, rfl, fun r => by rw [if_neg (fun h => he h.2)]; rfl⟩
    rw [e1]
    obtain ⟨ps, q, b, h, g, e, m⟩ := ih ({ s with links := { s.links with ports := ps1 }, pci := { s.pci with evq := q1, pba := b1 }, host := h1, dbg := g1 }) hn.2
    refine ⟨ps, q, b, h, g, e, fun r => ?_⟩
    rw [m r]
    have hp : ({ s with links := { s.links with ports := ps1 }, pci := { s.pci with evq := q1, pba := b1 }, host := h1, dbg := g1 } : State).port r = tblGet {} ps1 r := rfl
    rw [hp, m1 r]
    by_cases hr : r = a
    · subst hr
      rw [if_neg (fun h => hn.1 h.1)]
      by_cases he : (s.port r).enable = true
      · rw [if_pos ⟨rfl, he⟩, if_pos ⟨List.mem_cons_self, he⟩]
      · rw [if_neg (fun h => he h.2), if_neg (fun h => he h.2)]
    · have ee : (if r = a ∧ (s.port a).enable = true then ({ (s.port a).discard with state := .down } : Port) else s.port r) = s.port r := if_neg (fun h => hr h.1)
      rw [ee]
      by_cases hl : r ∈ l
      · by_cases he : (s.port r).enable = true
        · rw [if_pos ⟨hl, he⟩, if_pos ⟨List.mem_cons_of_mem _ hl, he⟩]
        · rw [if_neg (fun h => he h.2), if_neg (fun h => he h.2)]
      · rw [if_neg (fun h => hl h.1), if_neg (fun h => by rcases List.mem_cons.1 h.1 with h | h; exact hr h; exact hl h)]

theorem chan_fold (l : List Nat) (f : Nat → Nat) (hot : Bool) : ∀ (s : State), l.Nodup → (∀ a ∈ l, ∀ b ∈ l, f a = f b → a = b) → ∃ x, l.foldl (fun t i => t.setChan (f i) { t.chan (f i) with refreshX2 := hot }) s = { s with far := { s.far with chans := x } } ∧
    ∀ c, (tblGet {} x c : Channel) = if ∃ i ∈ l, f i = c then { s.chan c with refreshX2 := hot } else s.chan c := by
  induction l with
  | nil => exact fun s _ _ => ⟨s.far.chans, rfl, fun c => by rw [if_neg (by rintro ⟨i, h, -⟩; cases h)]; rfl⟩
  | cons a l ih =>
    intro s hn hf
    rw [List.nodup_cons] at hn
    rw [List.foldl_cons]
    obtain ⟨x, ex, m⟩ := ih (s.setChan (f a) { s.chan (f a) with refreshX2 := hot }) hn.2 (fun x hx y hy => hf x (List.mem_cons_of_mem _ hx) y (List.mem_cons_of_mem _ hy))
    refine ⟨x, ex, fun c => ?_⟩
    rw [m c]
    have hc : (s.setChan (f a) { s.chan (f a) with refreshX2 := hot }).chan c = if c = f a then { s.chan c with refreshX2 := hot } else s.chan c := by
      show (tblGet {} (tblSet (f a) _ s.far.chans) c : Channel) = _
      by_cases h : c = f a
      · subst h; rw [if_pos rfl, tblGet_tblSet_self]
      · rw [if_neg h, tblGet_tblSet_ne _ h]; rfl
    rw [hc]
    by_cases h : c = f a
    · subst h
      have r : (if ∃ i ∈ a :: l, f i = f a then { s.chan (f a) with refreshX2 := hot } else s.chan (f a)) = { s.chan (f a) with refreshX2 := hot } := if_pos ⟨a, List.mem_cons_self, rfl⟩
      rw [r]
      split <;> rw [if_pos rfl]
    · rw [if_neg h]
      by_cases hl : ∃ i ∈ l, f i = c
      · obtain ⟨i, hi, e⟩ := hl
        have r : ∃ i ∈ l, f i = c := ⟨i, hi, e⟩
        rw [if_pos r, if_pos ⟨i, List.mem_cons_of_mem _ hi, e⟩]
      · rw [if_neg hl, if_neg]
        rintro ⟨i, hi, e⟩
        rcases List.mem_cons.1 hi with rfl | hi
        · exact h e.symm
        · exact hl ⟨i, hi, e⟩

end Sys2Proof.Claims
end

