-- ==== Sys2Proof/Laws/OfPorts.lean ====
section
/-!
SUPPORT. Lemmas about ports and links, for the proofs of the statements: what their operations do, step by step.
-/

namespace Sys2Proof.Claims

open Machine

theorem portTo_two (s : State) (p : Nat) (x y : Port) : portTo (portTo s p x) p y = portTo s p y := by
  unfold portTo; rw [tblSet_tblSet_self]

theorem portTo_port (s : State) (p : Nat) (x : Port) : (portTo s p x).port p = x := tblGet_tblSet_self _ _ _ _

theorem portState_to (s : State) (p : Nat) (x : Port) (st : PortState) (h : x.state ≠ st) :
    (portTo s p x).portState p st = linkRecord (portTo s p { x with state := st }) p st.code x.peerNode := by
  unfold State.portState
  dsimp only
  rw [portTo_port, if_neg h]
  have : (portTo s p x).setPort p { x with state := st } = portTo s p { x with state := st } := portTo_two s p x _
  rw [this]
  rfl

theorem trained (s : State) (p : Nat) : Trained s p (s.train p) := by
  unfold Trained
  intro x y u
  have key : x.enable = true → s.resets.remove ≠ .safe → s.train p = if p = twinPort ∧ u.links.twin.pair = .paired then u.setPair .linkLost 0 else u := by
    intro he hr
    unfold State.train
    dsimp only
    rw [if_neg (by rintro (h | h) <;> simp_all [x])]
    have hu : (s.setPort p { (s.port p).discard with fails := 0 }).portState p .training = u := by
      show (portTo s p { cleared x with fails := 0 }).portState p .training = _
      by_cases hs : x.state = .training
      · have hu2 : u = portTo s p y := if_pos hs
        have hy : y = { cleared x with fails := 0 } := by
          show ({ cleared x with fails := 0, state := .training } : Port) = _
          rw [← hs]; rfl
        rw [hu2, hy]
        unfold State.portState
        dsimp only
        rw [portTo_port]
        exact if_pos hs
      · have hu2 : u = linkRecord (portTo s p y) p 1 x.peerNode := if_neg hs
        rw [hu2]
        exact portState_to s p _ .training hs
    rw [hu]
  have hl : u.links = (portTo s p y).links := by
    by_cases hs : x.state = .training
    · have hu2 : u = portTo s p y := if_pos hs
      rw [hu2]
    · have hu2 : u = linkRecord (portTo s p y) p 1 x.peerNode := if_neg hs
      rw [hu2]; exact (event_keeps _ _ _).2.1
  have ht : u.links.twin = s.links.twin := by rw [hl]; rfl
  refine ⟨fun h => ?_, fun he hr hp => ?_, fun he hr hp hpr => ?_⟩
  · unfold State.train
    dsimp only
    rw [if_pos]
    rcases h with h | h
    · exact .inl (by rw [show (s.port p).enable = false from h]; rfl)
    · exact .inr h
  · rw [key he hr, if_neg]
    rintro ⟨a, b⟩
    rw [ht] at b
    rcases hp with h | h
    · exact h a
    · exact h b
  · rw [key he hr, if_pos ⟨hp, by rw [ht]; exact hpr⟩]
    unfold State.setPair
    rw [if_neg (by rw [ht, hpr]; decide)]
    rfl

theorem filter_self (l : List Frame) : l.filter (fun g => !(l.any (fun h => h.seq == g.seq))) = [] := by
  rw [List.filter_eq_nil_iff]
  intro a ha
  simp only [Bool.not_eq_true', Bool.not_eq_false, List.any_eq_true]
  exact ⟨a, ha, by simp⟩

theorem modPort_same (s : State) (p : Nat) (f : Port → Port) (h : ∀ g ∈ (f (s.port p)).unacked, g ∈ (s.port p).unacked) : s.modPort p f = portTo s p (f (s.port p)) := by
  unfold State.modPort
  dsimp only
  rw [if_pos]
  · rfl
  · rw [List.filter_eq_nil_iff]
    intro a ha
    simp only [Bool.not_eq_true', Bool.not_eq_false, List.any_eq_true]
    exact ⟨a, h a ha, by simp⟩

theorem foldl_same {α β : Type} (f : β → α → β) (b : β) : ∀ (l : List α), (∀ a ∈ l, f b a = b) → l.foldl f b = b := by
  intro l
  induction l with
  | nil => exact fun _ => rfl
  | cons a l ih => exact fun h => by rw [List.foldl_cons, h a List.mem_cons_self]; exact ih (fun c hc => h c (List.mem_cons_of_mem _ hc))

theorem pumpForward_none (s : State) (h : ∀ q, q < 17 → (s.port q).rx = []) : s.pumpForward = s := by
  unfold State.pumpForward
  refine foldl_same _ s _ (fun q hq => ?_)
  rw [h q (List.mem_range.1 hq)]
  rfl

theorem pump_none (p : Nat) (x : Port) (h : x.waiting = []) : x.pump p = x := by
  unfold Port.pump
  rw [h]
  show ({ x with waiting := [] } : Port) = x
  rw [← h]

theorem rx_portTo (s : State) (p : Nat) (y : Port) (h : ∀ q, q < 17 → (s.port q).rx = []) (hy : y.rx = (s.port p).rx) (hp : p < 17) : ∀ q, q < 17 → ((portTo s p y).port q).rx = [] := by
  intro q hq
  by_cases e : q = p
  · subst e; rw [portTo_port, hy]; exact h q hp
  · have : (portTo s p y).port q = s.port q := tblGet_tblSet_ne _ e _ _
    rw [this]; exact h q hq

theorem hubCount_port (s : State) (u c n q : Nat) : (s.hubCount u c n).port q = s.port q := rfl

theorem give_sends (s : State) (p : Nat) (f : Frame) (hu : (s.port p).state = .up) (hw : (s.port p).waiting = []) (hv : f.vl ≤ 9) : Sends s p f (s.modPort p (fun x => x.give p f)) := by
  have hroom : laneRoom p f.vl = (if f.vl < 4 then 4096 else if f.vl < 8 then 512 else if p ≠ 16 then 0 else if f.vl = 8 then 16384 else 256) := by
    unfold laneRoom
    by_cases a : f.vl < 4
    · rw [if_pos a, if_pos a]
    rw [if_neg a, if_neg a]
    by_cases b : f.vl < 8
    · rw [if_pos b, if_pos b]
    rw [if_neg b, if_neg b]
    by_cases h16 : p ≠ 16
    · rw [if_pos h16, if_pos (show p ≠ twinPort from h16)]
    · rw [if_neg h16, if_neg (show ¬ p ≠ twinPort from h16)]
      by_cases c : f.vl = 8
      · rw [if_pos c, if_pos c]
      · rw [if_neg c, if_neg c, if_pos (by omega)]
  have hg : (s.port p).give p f = if (s.port p).canSend p f = true then { (s.port p).emit f with waiting := [] } else { s.port p with waiting := [f] } := by
    have e : (s.port p).give p f = (let r := if (s.port p).canSend p f = true then (({ s.port p with waiting := [f] } : Port).emit f, ([] : List Frame)) else (({ s.port p with waiting := [f] } : Port), [f])
        { r.1 with waiting := r.2 }) := by
      unfold Port.give Port.pump
      rw [hw]
      rfl
    rw [e]
    by_cases hc : (s.port p).canSend p f = true
    · rw [if_pos hc, if_pos hc]; rfl
    · rw [if_neg hc, if_neg hc]
  refine ⟨fun hl hq hr => ?_, fun hr => ?_⟩
  · have hc : (s.port p).canSend p f = true := by
      unfold Port.canSend
      rw [hu, hroom]
      simp only [beq_self_eq_true, Bool.true_and, Bool.and_eq_true, decide_eq_true_eq]
      exact ⟨hl, hr⟩
    rw [if_pos hc] at hg
    unfold State.modPort
    dsimp only
    rw [hg]
    have hs : (((s.port p).emit f).unacked.filter (fun g => !((s.port p).unacked.any (fun h => h.seq == g.seq)))) = [{ f with seq := (s.port p).txNext }] := by
      show ((s.port p).unacked ++ [{ f with seq := (s.port p).txNext }]).filter _ = _
      rw [List.filter_append, filter_self, List.nil_append, List.filter_cons_of_pos, List.filter_nil]
      rw [Bool.not_eq_true', ← Bool.not_eq_true, List.any_eq_true]
      rintro ⟨g, hg, e⟩
      exact hq g hg (by simpa using e)
    rw [hs, if_neg (by simp)]
    have hp : ({ (s.port p).emit f with waiting := [] } : Port) = (s.port p).emit f := by
      show ({ (s.port p).emit f with waiting := [] } : Port) = { (s.port p).emit f with waiting := (s.port p).waiting }
      rw [hw]
    rw [hp]
    show (((s.setPort p ((s.port p).emit f)).hubCount 6 2 1).hubCount 6 5 (0 + cdiv (bodyBytes f.body) 64)) = _
    rw [Nat.zero_add]
    rfl
  · have hc : ¬ (s.port p).canSend p f = true := by
      unfold Port.canSend
      rw [hroom]
      simp only [Bool.and_eq_true, decide_eq_true_eq]
      omega
    rw [if_neg hc] at hg
    rw [modPort_same _ _ _ (by rw [hg]; exact fun g h => h), hg]

end Sys2Proof.Claims
end

