-- ==== Sys2Proof/Laws/OfClaims.lean ====
section
/-!
SUPPORT. Lemmas about claims and writes from other modules, for the proofs of the statements: what their operations do, step by step.
-/

namespace Sys2Proof.Claims

open Machine

theorem onLane (p : Nat) (f : Frame) : laneRight p f = true ↔ OnLane p f := by
  unfold laneRight OnLane twinPort
  cases f.body <;> simp [bodyLane]

theorem lane_cases {p : Nat} {f : Frame} (h : OnLane p f) (hv : f.vl < 8) : f.vl = f.hops ∨ f.vl = 4 + f.hops := by
  unfold OnLane at h
  cases hb : f.body <;> rw [hb] at h <;> dsimp only at h <;> omega

theorem bad_iff (p : Nat) (f : Frame) : (((!f.good) = true ∨ f.vl > 9 ∨ f.hops > 3 ∨ (!laneRight p f) = true)) ↔ (f.good = false ∨ 9 < f.vl ∨ 3 < f.hops ∨ ¬ OnLane p f) := by
  rw [Bool.not_eq_true', Bool.not_eq_true', ← onLane, Bool.not_eq_true]

theorem route_portTo (s : State) (p n : Nat) (y : Port) (h : y.state = (s.port p).state) : (portTo s p y).routePort n = s.routePort n := by
  have hp : ∀ q, ((portTo s p y).port q).state = (s.port q).state := by
    intro q
    by_cases e : q = p
    · subst e; rw [portTo_port, h]
    · exact congrArg Port.state (tblGet_tblSet_ne _ e _ _)
  unfold State.routePort
  simp only [hp]
  rfl

theorem frame_good {s : State} {p : Nat} {f : Frame} (hp : p < 17) (h : InOrder s p f) (hold : State → Bool) (own : State → State) :
    onFrame s p f hold own = (let x := s.port p
      let kept := s.setPort p ({ x with rxLast := f.seq, rx := x.rx ++ [(s.now, f)] }.tell false 0 0)
      if f.dst ≠ s.links.node ∧ f.vl < 8 then
        if f.hops = 3 ∨ (s.routePort f.dst).isNone then .next ((gotFrame s p f).modPort p (fun x => { x with fwdDrop := satAdd 0xFFFFFFFF x.fwdDrop 1 }))
        else
          let r := (gotFrame s p f).forward f
          if r.2 then .next r.1 else .next kept
      else if hold s then .next kept
      else .next (own (gotFrame s p f))) := by
  obtain ⟨h1, h2, h3, h4, h5, h6⟩ := h
  unfold onFrame
  rw [if_pos hp]
  dsimp only
  rw [if_neg (fun q => q h1), if_neg (fun q => by
    have := (bad_iff p f).1 q
    rw [h2] at this
    rcases this with a | a | a | a
    · cases a
    · omega
    · omega
    · exact a h5), if_neg (fun q => q h6)]
  rfl

theorem frame_me {s : State} {p : Nat} {f : Frame} (h : ForMe s p f) (hold : State → Bool) (own : State → State) (hh : hold s = false) :
    onFrame s p f hold own = .next (own (gotFrame s p f)) := by
  rw [frame_good h.1 h.2.1]
  dsimp only
  rw [if_neg (by
    rintro ⟨a, b⟩
    rcases h.2.2 with c | c
    · exact a c
    · omega), if_neg (by rw [hh]; simp)]

theorem turned (s : State) (p : Nat) (f : Frame) (hold : State → Bool) (own : State → State) (hp : p < 17) : TurnedAway s p f (onFrame s p f hold own) := by
  refine ⟨fun h => ?_, fun h hb => ?_, fun h h1 h2 h3 h4 h5 => ?_, fun h hd hv hr => ?_, fun q h hd hv h3 hr => ?_⟩
  · unfold onFrame
    rw [if_pos hp]
    exact if_pos h
  · unfold onFrame
    rw [if_pos hp]
    dsimp only
    rw [if_neg (fun q => q h), if_pos ((bad_iff p f).2 hb)]
    rfl
  · unfold onFrame
    rw [if_pos hp]
    dsimp only
    rw [if_neg (fun q => q h), if_neg (fun q => by
      have := (bad_iff p f).1 q
      rw [h1] at this
      rcases this with a | a | a | a
      · cases a
      · omega
      · omega
      · exact a h4), if_pos h5]
    rfl
  · rw [frame_good hp h]
    dsimp only
    rw [if_pos ⟨hd, hv⟩, if_pos (by rw [Option.isNone_iff_eq_none]; exact hr), modPort_same _ _ _ (fun g hg => hg)]
    have : ((gotFrame s p f).port p).fwdDrop = (s.port p).fwdDrop := by unfold gotFrame; rw [portTo_port]
    rw [this]; rfl
  · intro z g ready
    have hroom : laneRoom q g.vl = if g.vl < 4 then 4096 else 512 := by
      have : g.vl < 8 := by
        have := h.2.2.2.1
        show f.vl + 1 < 8
        rcases lane_cases h.2.2.2.2.1 hv with a | a <;> omega
      unfold laneRoom
      by_cases a : g.vl < 4
      · rw [if_pos a, if_pos a]
      · rw [if_neg a, if_neg a, if_pos this]
    have hready : (z.waiting.any (fun h => h.vl == g.vl) || !z.canSend q g) = true ↔ ¬ ready := by
      rw [← Decidable.not_iff_not, Decidable.not_not]
      unfold Port.canSend
      rw [hroom]
      simp only [Bool.or_eq_true, Bool.not_eq_true', not_or, Bool.not_eq_true, Bool.not_eq_false, List.any_eq_false, Bool.and_eq_true, decide_eq_true_eq, beq_iff_eq]
      constructor
      · rintro ⟨a, ⟨b, c⟩, d⟩
        exact ⟨b, c, a, d⟩
      · rintro ⟨b, c, a, d⟩
        exact ⟨a, ⟨b, c⟩, d⟩
    have hf : (gotFrame s p f).forward f = if (z.waiting.any (fun h => h.vl == g.vl) || !z.canSend q g) = true then (gotFrame s p f, false) else ((gotFrame s p f).setPort q (z.emit g), true) := by
      unfold State.forward
      have : (gotFrame s p f).routePort f.dst = some q := by
        rw [← hr]
        exact route_portTo s p f.dst _ rfl
      rw [this]
    rw [frame_good hp h]
    dsimp only
    rw [if_pos ⟨hd, hv⟩, if_neg (by rw [hr]; simp; exact h3), hf]
    refine ⟨fun h => ?_, fun h => ?_⟩
    · rw [if_neg (fun q => hready.1 q h), if_pos rfl]
      rfl
    · rw [if_pos (hready.2 h), if_neg (by simp)]
      rfl

theorem genOk_iff (cur new : Nat) : (Taken cur new → genOk cur new = some new) ∧ (¬ Taken cur new → genOk cur new = none) := by
  unfold Taken genOk
  refine ⟨fun h => ?_, fun h => ?_⟩
  · by_cases e : new = cur
    · rw [if_pos e, e]
    · rcases h with h | h
      · exact absurd h e
      · rw [if_neg e, if_pos h]
  · rw [not_or] at h
    rw [if_neg h.1, if_neg h.2]

/-- Only addresses of far memory and of its check bits lie below the top of the check range (R19). -/
theorem addrClass_low (a : Nat) : a < checkTop ↔ addrClass a = .far ∨ addrClass a = .check := by
  have h1 : farTop ≤ checkTop := by decide
  unfold addrClass
  by_cases h : a < farTop
  · rw [if_pos h]; exact ⟨fun _ => .inl rfl, fun _ => by omega⟩
  rw [if_neg h]
  by_cases h2 : a < checkTop
  · rw [if_pos h2]; exact ⟨fun _ => .inr rfl, fun _ => h2⟩
  rw [if_neg h2]
  refine ⟨fun q => absurd q h2, fun q => ?_⟩
  split at q
  · split at q <;> simp at q
  · split at q <;> simp at q

theorem status_form (s : State) (src job base len : Nat) (j : Job) (hj : s.jobEntry job = some j) : ∃ pl sl : Bool,
    s.claimStatus src job base len = (if (!j.permits src) = true ∨ (s.ctx j.ctx).state = .free ∨ (s.ctx j.ctx).state = .killing ∨ (s.ctx j.ctx).state = .dead ∨ (s.ctx j.ctx).killing = true then (1, j.ctx)
    else if len ≠ 0 ∧ (pl && (s.ctx j.ctx).granted .w base len) = false then (1, j.ctx)
    else if (len ≠ 0 ∧ sl = true ∧ (s.ctx j.ctx).state ≠ .placed) ∨ s.links.dst.length ≥ 8192 then (2, j.ctx)
    else (0, j.ctx)) ∧
    (len ≠ 0 → (pl = true ↔ (base + len ≤ checkTop ∨ (∃ core off, addrClass base = .slab core off ∧ core ∈ (s.ctx j.ctx).bench ∧ off + len ≤ 0xD00000)))) ∧
    (sl = true ↔ ∃ core off, addrClass base = .slab core off) := by
  unfold State.claimStatus
  rw [hj]
  refine ⟨_, _, rfl, fun hl => ?_, ?_⟩
  · have low : base + len ≤ checkTop → addrClass base = .far ∨ addrClass base = .check := fun q => (addrClass_low base).1 (by omega)
    cases h : addrClass base with
    | slab c o =>
      simp only [Bool.and_eq_true, decide_eq_true_eq, List.contains_iff_mem]
      constructor
      · exact fun q => .inr ⟨c, o, rfl, q⟩
      · rintro (q | ⟨c', o', q, q2⟩)
        · rw [h] at low; rcases low q with q | q <;> cases q
        · cases q; exact q2
    | far => simp
    | check => simp
    | _ =>
      constructor
      · intro q; simp at q
      · rintro (q | ⟨c', o', q, q2⟩)
        · rw [h] at low; rcases low q with q | q <;> cases q
        · cases q
  · cases addrClass base <;> simp

theorem claim_status (s : State) (src job base len : Nat) (j : Job) (hj : s.jobEntry job = some j) :
    (¬ ClaimLegal s j src base len → (s.claimStatus src job base len).1 = 1) ∧
    (ClaimLegal s j src base len → (8192 ≤ s.links.dst.length ∨ len ≠ 0 ∧ (s.ctx j.ctx).state ≠ .placed ∧ (∃ core off, addrClass base = .slab core off)) → s.claimStatus src job base len = (2, j.ctx)) ∧
    (ClaimLegal s j src base len → ¬ (8192 ≤ s.links.dst.length ∨ len ≠ 0 ∧ (s.ctx j.ctx).state ≠ .placed ∧ (∃ core off, addrClass base = .slab core off)) → s.claimStatus src job base len = (0, j.ctx)) := by
  obtain ⟨pl, sl, e, hp, hs⟩ := status_form s src job base len j hj
  rw [e]
  have legal : ClaimLegal s j src base len → ¬ ((!j.permits src) = true ∨ (s.ctx j.ctx).state = .free ∨ (s.ctx j.ctx).state = .killing ∨ (s.ctx j.ctx).state = .dead ∨ (s.ctx j.ctx).killing = true) ∧
      ¬ (len ≠ 0 ∧ (pl && (s.ctx j.ctx).granted .w base len) = false) := by
    rintro ⟨a1, a2, a3, a4, a5, a6⟩
    refine ⟨?_, ?_⟩
    · rintro (q | q | q | q | q)
      · rw [a1] at q; cases q
      · exact a2 q
      · exact a3 q
      · exact a4 q
      · rw [a5] at q; cases q
    · rintro ⟨q1, q2⟩
      rcases a6 with a6 | a6
      · exact q1 a6
      · rw [(hp q1).2 a6.2, a6.1] at q2; cases q2
  have hiff : ((len ≠ 0 ∧ sl = true ∧ (s.ctx j.ctx).state ≠ .placed) ∨ s.links.dst.length ≥ 8192) ↔ (8192 ≤ s.links.dst.length ∨ len ≠ 0 ∧ (s.ctx j.ctx).state ≠ .placed ∧ (∃ core off, addrClass base = .slab core off)) := by
    rw [hs]
    constructor
    · rintro (⟨a, b, c⟩ | a)
      · exact .inr ⟨a, c, b⟩
      · exact .inl a
    · rintro (a | ⟨a, b, c⟩)
      · exact .inr a
      · exact .inl ⟨a, c, b⟩
  refine ⟨fun h => ?_, fun h hw => ?_, fun h hw => ?_⟩
  · by_cases c1 : (!j.permits src) = true ∨ (s.ctx j.ctx).state = .free ∨ (s.ctx j.ctx).state = .killing ∨ (s.ctx j.ctx).state = .dead ∨ (s.ctx j.ctx).killing = true
    · rw [if_pos c1]
    rw [if_neg c1]
    by_cases c2 : len ≠ 0 ∧ (pl && (s.ctx j.ctx).granted .w base len) = false
    · rw [if_pos c2]
    exfalso
    simp only [not_or, Bool.not_eq_true', Bool.not_eq_false, Bool.not_eq_true] at c1
    refine h ⟨c1.1, c1.2.1, c1.2.2.1, c1.2.2.2.1, c1.2.2.2.2, ?_⟩
    by_cases l0 : len = 0
    · exact .inl l0
    · right
      have : (pl && (s.ctx j.ctx).granted .w base len) = true := by
        rw [← Bool.not_eq_false]; exact fun q => c2 ⟨l0, q⟩
      rw [Bool.and_eq_true] at this
      exact ⟨this.2, (hp l0).1 this.1⟩
  · rw [if_neg (legal h).1, if_neg (legal h).2, if_pos (hiff.2 hw)]
  · rw [if_neg (legal h).1, if_neg (legal h).2, if_neg (fun q => hw (hiff.1 q))]

theorem writeHeld_iff (s : State) (node id idx offset : Nat) : s.writeHeld node id idx offset = true ↔ Waits s node id idx offset := by
  unfold State.writeHeld Waits
  cases h : s.links.dst.find? (fun d => d.src == node && d.id == id) with
  | none => simp
  | some d =>
    dsimp only
    cases h2 : addrClass (d.base + offset) with
    | slab home off =>
      simp only [Bool.and_eq_true, Bool.or_eq_true, Bool.not_eq_true', beq_iff_eq, bne_iff_ne]
      constructor
      · rintro ⟨⟨a, b⟩, c⟩
        exact ⟨d, home, off, rfl, h2, a, b, c⟩
      · rintro ⟨d', home', off', q, q2, a, b, c⟩
        cases q
        rw [h2] at q2
        cases q2
        exact ⟨⟨a, b⟩, c⟩
    | _ =>
      simp only [Bool.false_eq_true, false_iff]
      rintro ⟨d', home', off', q, q2, -⟩
      cases q
      rw [h2] at q2
      cases q2

end Sys2Proof.Claims
end

