-- ==== Sys2Proof/Laws/OfSignals.lean ====
section
/-!
SUPPORT. Lemmas about signals from other modules and the twin, for the proofs of the statements: what their operations do, step by step.
-/

namespace Sys2Proof.Claims

open Machine

theorem setPair_to (s : State) (pr : Pair) (n : Nat) : s.setPair pr n = pairTo s pr n := rfl

theorem vector_links (s : State) (v : Nat) : (s.vector v).links = s.links := by
  unfold State.vector
  split <;> rfl

theorem reply_links (s : State) (r : ReqRef) (st : Nat) (xs : List Nat) : (s.reply r st xs).links = s.links := by
  unfold State.reply
  split
  · rfl
  dsimp only
  split
  · exact vector_links _ _
  · rfl

end Sys2Proof.Claims
end

