-- ==== Sys2Proof/Laws/OfBanksman.lean ====
section
/-!
SUPPORT. Lemmas about the Banksman's requests, mirrors and settles, for the proofs of the statements: what their operations do, step by step.
-/

namespace Sys2Proof.Claims

open Machine

theorem tblGet_fold_set {α : Type} (d : α) (g : Nat → α) : ∀ (l : List Nat) (t : Tbl α) (k : Nat), tblGet d (l.foldl (fun t i => tblSet i (g i) t) t) k = if k ∈ l then g k else tblGet d t k := by
  intro l
  induction l with
  | nil => intro t k; rw [if_neg (by simp)]; rfl
  | cons a l ih =>
    intro t k
    rw [List.foldl_cons, ih]
    by_cases h : k ∈ l
    · rw [if_pos h, if_pos (List.mem_cons_of_mem _ h)]
    · rw [if_neg h, tblGet_tblSet]
      by_cases e : k = a
      · subst e; rw [if_pos rfl, if_pos List.mem_cons_self]
      · rw [if_neg e, if_neg (by simp [h, e])]

theorem trained_shape (s : State) (p : Nat) : ∃ ps pr q b h g, s.train p =
      { s with links := { s.links with ports := ps, twin := { s.links.twin with pair := pr } }, pci := { s.pci with evq := q, pba := b }, host := h, dbg := g } ∧
    ∀ r, (tblGet {} ps r : Port) = if r = p ∧ (s.port p).enable = true ∧ s.resets.remove ≠ .safe then { cleared (s.port r) with fails := 0, state := .training } else s.port r := by
  by_cases h : (s.port p).enable = false ∨ s.resets.remove = .safe
  · refine ⟨s.links.ports, s.links.twin.pair, s.pci.evq, s.pci.pba, s.host, s.dbg, (trained s p).1 h, fun r => ?_⟩
    rw [if_neg]
    · rfl
    · rintro ⟨-, a, b⟩
      rcases h with h | h
      · rw [h] at a; cases a
      · exact b h
  · rw [not_or, Bool.not_eq_false] at h
    have base : ∃ q b hh g, (if (s.port p).state = .training then portTo s p { cleared (s.port p) with fails := 0, state := .training } else linkRecord (portTo s p { cleared (s.port p) with fails := 0, state := .training }) p 1 (s.port p).peerNode) =
        { s with links := { s.links with ports := tblSet p { cleared (s.port p) with fails := 0, state := .training } s.links.ports }, pci := { s.pci with evq := q, pba := b }, host := hh, dbg := g } := by
      by_cases hs : (s.port p).state = .training
      · exact ⟨s.pci.evq, s.pci.pba, s.host, s.dbg, if_pos hs⟩
      · obtain ⟨q, b, hh, g, e⟩ := event_only (portTo s p { cleared (s.port p) with fails := 0, state := .training }) 3 (p + 2 ^ 5 * 1 + 2 ^ 16 * (s.port p).peerNode)
        refine ⟨q, b, hh, g, ?_⟩
        rw [if_neg hs]
        exact e
    obtain ⟨q, b, hh, g, e⟩ := base
    have hget : ∀ r, (tblGet {} (tblSet p { cleared (s.port p) with fails := 0, state := .training } s.links.ports) r : Port) = if r = p ∧ (s.port p).enable = true ∧ s.resets.remove ≠ .safe then { cleared (s.port r) with fails := 0, state := .training } else s.port r := by
      intro r
      by_cases hr : r = p
      · subst hr
        rw [if_pos ⟨rfl, h.1, h.2⟩, tblGet_tblSet_self]
      · rw [if_neg (fun q => hr q.1), tblGet_tblSet_ne _ hr]; rfl
    by_cases hp : p = 16 ∧ s.links.twin.pair = .paired
    · have := (trained s p).2.2 h.1 h.2 hp.1 hp.2
      rw [this]
      dsimp only
      rw [e]
      obtain ⟨q2, b2, h2, g2, e2⟩ := event_only ({ s with links := { s.links with ports := tblSet p { cleared (s.port p) with fails := 0, state := .training } s.links.ports, twin := { s.links.twin with pair := .linkLost } }, pci := { s.pci with evq := q, pba := b }, host := hh, dbg := g } : State) 4 4
      exact ⟨_, .linkLost, q2, b2, h2, g2, e2, hget⟩
    · have := (trained s p).2.1 h.1 h.2 (by
        by_cases a : p = 16
        · exact .inr (fun c => hp ⟨a, c⟩)
        · exact .inl a)
      rw [this]
      exact ⟨_, s.links.twin.pair, q, b, hh, g, e, hget⟩

theorem train_fold (mask : Nat) : ∀ (l : List Nat) (s : State), l.Nodup → ∃ ps pr q b h g, l.foldl (fun t p => if bitOf mask p then t.train p else t) s =
      { s with links := { s.links with ports := ps, twin := { s.links.twin with pair := pr } }, pci := { s.pci with evq := q, pba := b }, host := h, dbg := g } ∧
    ∀ r, (tblGet {} ps r : Port) = if r ∈ l ∧ bitOf mask r = true ∧ (s.port r).enable = true ∧ s.resets.remove ≠ .safe then { cleared (s.port r) with fails := 0, state := .training } else s.port r := by
  intro l
  induction l with
  | nil => exact fun s _ => ⟨s.links.ports, s.links.twin.pair, s.pci.evq, s.pci.pba, s.host, s.dbg, rfl, fun r => by rw [if_neg (fun h => by cases h.1)]; rfl⟩
  | cons a l ih =>
    intro s hn
    rw [List.nodup_cons] at hn
    rw [List.foldl_cons]
    obtain ⟨ps1, pr1, q1, b1, h1, g1, e1, m1⟩ : ∃ ps pr q b h g, (if bitOf mask a then s.train a else s) =
        { s with links := { s.links with ports := ps, twin := { s.links.twin with pair := pr } }, pci := { s.pci with evq := q, pba := b }, host := h, dbg := g } ∧
        ∀ r, (tblGet {} ps r : Port) = if r = a ∧ bitOf mask a = true ∧ (s.port a).enable = true ∧ s.resets.remove ≠ .safe then { cleared (s.port r) with fails := 0, state := .training } else s.port r := by
      by_cases hb : bitOf mask a = true
      · rw [if_pos hb]
        obtain ⟨ps, pr, q, b, h, g, e, m⟩ := trained_shape s a
        refine ⟨ps, pr, q, b, h, g, e, fun r => ?_⟩
        rw [m r]
        by_cases hx : r = a ∧ (s.port a).enable = true ∧ s.resets.remove ≠ .safe
        · have hy : r = a ∧ bitOf mask a = true ∧ (s.port a).enable = true ∧ s.resets.remove ≠ .safe := ⟨hx.1, hb, hx.2⟩
          rw [if_pos hx, if_pos hy]
        · have hy : ¬ (r = a ∧ bitOf mask a = true ∧ (s.port a).enable = true ∧ s.resets.remove ≠ .safe) := fun q => hx ⟨q.1, q.2.2⟩
          rw [if_neg hx, if_neg hy]
      · rw [if_neg hb]
        exact ⟨s.links.ports, s.links.twin.pair, s.pci.evq, s.pci.pba, s.host, s.dbg, rfl, fun r => by rw [if_neg (fun q => hb q.2.1)]; rfl⟩
    rw [e1]
    obtain ⟨ps, pr, q, b, h, g, e, m⟩ := ih ({ s with links := { s.links with ports := ps1, twin := { s.links.twin with pair := pr1 } }, pci := { s.pci with evq := q1, pba := b1 }, host := h1, dbg := g1 }) hn.2
    refine ⟨ps, pr, q, b, h, g, e, fun r => ?_⟩
    rw [m r]
    have hp : ∀ r, ({ s with links := { s.links with ports := ps1, twin := { s.links.twin with pair := pr1 } }, pci := { s.pci with evq := q1, pba := b1 }, host := h1, dbg := g1 } : State).port r = tblGet {} ps1 r := fun _ => rfl
    rw [hp r, m1 r]
    by_cases hra : r = a
    · subst hra
      rw [if_neg (fun q => hn.1 q.1)]
      by_cases hx : bitOf mask r = true ∧ (s.port r).enable = true ∧ s.resets.remove ≠ .safe
      · rw [if_pos ⟨rfl, hx⟩, if_pos ⟨List.mem_cons_self, hx⟩]
      · rw [if_neg (fun q => hx q.2), if_neg (fun q => hx q.2)]
    · have h0 : (if r = a ∧ bitOf mask a = true ∧ (s.port a).enable = true ∧ s.resets.remove ≠ .safe then ({ cleared (s.port r) with fails := 0, state := .training } : Port) else s.port r) = s.port r := if_neg (fun q => hra q.1)
      rw [h0]
      by_cases hx : r ∈ l ∧ bitOf mask r = true ∧ (s.port r).enable = true ∧ s.resets.remove ≠ .safe
      · have hy : r ∈ a :: l ∧ bitOf mask r = true ∧ (s.port r).enable = true ∧ s.resets.remove ≠ .safe := ⟨List.mem_cons_of_mem _ hx.1, hx.2⟩
        rw [if_pos hx, if_pos hy]
      · have hy : ¬ (r ∈ a :: l ∧ bitOf mask r = true ∧ (s.port r).enable = true ∧ s.resets.remove ≠ .safe) := by
          rintro ⟨q, q2⟩
          rcases List.mem_cons.1 q with q | q
          · exact hra q
          · exact hx ⟨q, q2⟩
        rw [if_neg hx, if_neg hy]

theorem helloAgain_eq (s : State) : s.sayHello = helloAgain s := rfl

def mirrorInto (u : State) (x : ShadowSet) (buf : Bool) (off : Nat) (data : List Byte) (b1 : ShadowBuf) (fresh : Bool) : State :=
  let s := if fresh then u.writeHeader b1 else u
  let w := s.farWrite (b1.addr + 65536 + off) data
  let b := { b1 with got := if b1.got.contains off then b1.got else b1.got ++ [off] }
  let s := w.1.setShadow (x.setBuf buf b)
  if w.2 then s.sendTwin (.mirrorAck off buf false) else s

theorem takeMirror_eq (u : State) (x : ShadowSet) (off : Nat) (buf : Bool) (data : List Byte) (h : u.links.twin.sset = some x) :
    u.takeMirror off buf data = if (u.links.twin.frozen && (x.buf buf).state == 2) = true ∨ 65536 + off + data.length > x.size then u
      else mirrorInto u x buf off data { x.buf buf with state := 1, got := if decide ((x.buf buf).state ≠ 1) then [] else (x.buf buf).got, units := max (if decide ((x.buf buf).state ≠ 1) then 0 else (x.buf buf).units) (off / 65536 + 1) } (decide ((x.buf buf).state ≠ 1)) := by
  unfold State.takeMirror
  dsimp only
  rw [h]
  rfl

end Sys2Proof.Claims
end

