-- ==== Sys2Proof/Laws/OfDebug.lean ====
section
/-!
SUPPORT. Lemmas about the debug units, for the proofs of the statements: what their operations do, step by step.
-/

namespace Sys2Proof.Claims

open Machine

theorem traceDrop_eq (k : Core) (n : Nat) : k.traceDrop n = dropped k n := rfl

theorem count_dbg (k : Core) (code n : Nat) : ∃ cs, k.count code n = { k with dbg := { k.dbg with counters := cs } } := by
  unfold Core.count
  dsimp only
  split
  · exact ⟨k.dbg.counters, rfl⟩
  · exact ⟨_, rfl⟩

theorem drain_cases (k : Core) : (k.dbg.drain ≠ [] ∨ k.dbg.buf = [] → k.drainHalf = k) ∧
    (k.dbg.drain = [] → k.dbg.buf ≠ [] → ringFull k → k.drainHalf = dropped { k with dbg := { k.dbg with buf := [] } } (k.dbg.buf.length / 2)) ∧
    (k.dbg.drain = [] → k.dbg.buf ≠ [] → ¬ ringFull k → k.drainHalf = { k with dbg := { k.dbg with drain := k.dbg.buf ++ List.replicate (256 - k.dbg.buf.length) 0, buf := [] } }) := by
  unfold Core.drainHalf
  dsimp only
  refine ⟨fun h => if_pos h, fun h1 h2 h3 => ?_, fun h1 h2 h3 => ?_⟩
  · rw [if_neg (by rintro (a | a); exact a h1; exact h2 a), if_pos (show (k.dbg.traceTail + 1) % 2 ^ k.dbg.trace.log2 = k.dbg.traceHead from h3)]
    rfl
  · rw [if_neg (by rintro (a | a); exact a h1; exact h2 a), if_neg (show ¬ (k.dbg.traceTail + 1) % 2 ^ k.dbg.trace.log2 = k.dbg.traceHead from h3)]

theorem new_eq (k : Core) : ({ k with dbg := { k.dbg with trace := { k.dbg.traceStaged with en := k.dbg.traceStaged.en && !(decide (k.dbg.traceStaged.base + 2048 * 2 ^ k.dbg.traceStaged.log2 > farTop)) }, badBase := decide (k.dbg.traceStaged.base + 2048 * 2 ^ k.dbg.traceStaged.log2 > farTop), traceCommit := false, traceHead := 0, traceTail := 0, buf := [], drain := [] } } : Core) = traceNew k := by
  unfold traceNew
  dsimp only
  have : decide (k.dbg.traceStaged.base + 2048 * 2 ^ k.dbg.traceStaged.log2 > farTop) = !decide (k.dbg.traceStaged.base + 2048 * 2 ^ k.dbg.traceStaged.log2 ≤ farTop) := by
    rw [← decide_not]
    exact decide_eq_decide.2 (by omega)
  rw [this, Bool.not_not]

theorem settles (k : Core) : Settles k k.traceSettle := by
  have hs : k.dbg.traceCommit = true → k.dbg.drain = [] → k.traceSettle = (let j := if k.dbg.trace.en then k.drainHalf else k
      if j.dbg.drain ≠ [] then j else traceNew j) := by
    intro h1 h2
    unfold Core.traceSettle
    rw [if_neg (by rw [h1, h2]; simp)]
    dsimp only
    rw [new_eq]
  obtain ⟨d1, d2, d3⟩ := drain_cases k
  refine ⟨fun h => ?_, fun h1 h2 h3 => ?_, fun h1 h2 h3 h4 h5 => ?_, fun h1 h2 h3 h4 h5 => ?_⟩
  · unfold Core.traceSettle
    rw [if_pos]
    rcases h with h | h
    · left; rw [h]; rfl
    · exact .inr h
  · have : (if k.dbg.trace.en = true then k.drainHalf else k) = k := by
      rcases h3 with h | h
      · rw [if_neg (by rw [h]; simp)]
      · rw [d1 (.inr h)]; split <;> rfl
    rw [hs h1 h2, this]
    dsimp only
    rw [if_neg (fun q => q h2)]
  · rw [hs h1 h2, if_pos h3, d3 h2 h4 h5]
    dsimp only
    rw [if_pos]
    intro q
    exact h4 (List.append_eq_nil_iff.1 q).1
  · rw [hs h1 h2, if_pos h3, d2 h2 h4 h5]
    dsimp only
    rw [if_neg]
    obtain ⟨cs, e⟩ := count_dbg ({ ({ k with dbg := { k.dbg with buf := [] } } : Core) with dbg := { ({ k with dbg := { k.dbg with buf := [] } } : Core).dbg with traceLost := min 0xFFFFFFFF (k.dbg.traceLost + k.dbg.buf.length / 2), lost := k.dbg.lost + k.dbg.buf.length / 2 } } : Core) 0x3A (k.dbg.buf.length / 2)
    have : dropped { k with dbg := { k.dbg with buf := [] } } (k.dbg.buf.length / 2) = _ := e
    rw [this]
    exact fun q => q h2

def haltOf (v : Bool) (q : Queue) : Queue := { q with halt := v, halted := v, stepArm := q.stepArm && v }

theorem haltOf_twice (v : Bool) (q : Queue) : haltOf v (haltOf v q) = haltOf v q := by
  unfold haltOf; cases q.stepArm <;> cases v <;> rfl

theorem haltQueue_shape (s : State) (n e : Nat) (v : Bool) : ∃ r x, s.haltQueue n e v = { s.setQueue n e (haltOf v (s.queue n e)) with rings := r, ctxs := x } := by
  unfold State.haltQueue
  dsimp only
  split
  · exact ⟨_, _, rfl⟩
  · split
    · exact ⟨_, _, rfl⟩
    · exact ⟨_, _, rfl⟩

theorem halt_one (s : State) (n e : Nat) (v : Bool) : ∃ cs x r, s.haltQueue n e v = { s with cores := cs, ctxs := x, rings := r } ∧
    ∀ m i, (({ s with cores := cs, ctxs := x, rings := r } : State).queue m i) = if m = n ∧ i = e then haltOf v (s.queue m i) else s.queue m i := by
  obtain ⟨r, x, h⟩ := haltQueue_shape s n e v
  refine ⟨(s.setQueue n e (haltOf v (s.queue n e))).cores, x, r, h, fun m i => ?_⟩
  show (s.setQueue n e (haltOf v (s.queue n e))).queue m i = _
  by_cases hx : m = n ∧ i = e
  · obtain ⟨rfl, rfl⟩ := hx
    rw [if_pos ⟨rfl, rfl⟩]; exact State.queue_setQueue_self _ _ _ _
  · rw [if_neg hx]
    unfold State.setQueue
    by_cases hm : m = n
    · subst hm
      have hi : i ≠ e := fun he => hx ⟨rfl, he⟩
      unfold State.queue
      rw [State.core_setCore_self, Core.queue_setQueue_ne hi]
    · unfold State.queue; rw [State.core_setCore_ne hm]

theorem halt_list (v : Bool) : ∀ (l : List (Nat × Nat)) (s : State), ∃ cs x r, l.foldl (fun t p => t.haltQueue p.1 p.2 v) s = { s with cores := cs, ctxs := x, rings := r } ∧
    ∀ m i, (({ s with cores := cs, ctxs := x, rings := r } : State).queue m i) = if (m, i) ∈ l then haltOf v (s.queue m i) else s.queue m i := by
  intro l
  induction l with
  | nil => exact fun s => ⟨s.cores, s.ctxs, s.rings, rfl, fun m i => by rw [if_neg (by simp)]⟩
  | cons a l ih =>
    intro s
    obtain ⟨c1, x1, r1, e1, m1⟩ := halt_one s a.1 a.2 v
    obtain ⟨cs, x, r, e, m⟩ := ih ({ s with cores := c1, ctxs := x1, rings := r1 } : State)
    refine ⟨cs, x, r, by rw [List.foldl_cons, e1, e], fun k i => ?_⟩
    refine (m k i).trans ?_
    rw [m1 k i]
    by_cases ha : k = a.1 ∧ i = a.2
    · rw [if_pos ha, if_pos (show (k, i) ∈ a :: l by rw [ha.1, ha.2]; exact List.mem_cons_self)]
      split
      · exact haltOf_twice v _
      · rfl
    · rw [if_neg ha]
      have : (k, i) ∈ a :: l ↔ (k, i) ∈ l := by
        rw [List.mem_cons]
        exact ⟨fun h => h.resolve_left (fun q => ha (by rw [← q]; exact ⟨rfl, rfl⟩)), .inr⟩
      by_cases hl : (k, i) ∈ l
      · rw [if_pos hl, if_pos (this.2 hl)]
      · rw [if_neg hl, if_neg (fun q => hl (this.1 q))]

def soundBody (s : State) (p : Nat) (ctl : SoundCtl) : Out :=
  let x := s.port p
  let s := s.setPort p { x with sounding := { x.sounding with inForce := ctl, lanes := [] } }
  if x.state = .disabled then .next s
  else if ctl.en then
    let s := (s.setPort p (s.port p).discard).portState p .sounding
    .next (if p = twinPort ∧ s.links.twin.pair = .paired then s.setPair .linkLost 0 else s)
  else if x.state = .sounding then .next (s.train p)
  else .next s

theorem lane_fold (f : SoundLane → SoundLane) : ∀ (l : List Nat) (x : Port), l.Nodup → ∃ ls, l.foldl (fun y i => y.modLane i f) x = { x with sounding := { x.sounding with lanes := ls } } ∧
    ∀ k, tblGet ({} : SoundLane) ls k = if k ∈ l then f (tblGet ({} : SoundLane) x.sounding.lanes k) else tblGet ({} : SoundLane) x.sounding.lanes k := by
  intro l
  induction l with
  | nil => exact fun x _ => ⟨x.sounding.lanes, rfl, fun k => by rw [if_neg (by simp)]⟩
  | cons a l ih =>
    intro x hn
    rw [List.nodup_cons] at hn
    obtain ⟨ls, e, m⟩ := ih (x.modLane a f) hn.2
    refine ⟨ls, by rw [List.foldl_cons, e]; rfl, fun k => ?_⟩
    rw [m k]
    have hk : tblGet ({} : SoundLane) (x.modLane a f).sounding.lanes k = if k = a then f (tblGet ({} : SoundLane) x.sounding.lanes k) else tblGet ({} : SoundLane) x.sounding.lanes k := by
      show tblGet ({} : SoundLane) (tblSet a (f (tblGet {} x.sounding.lanes a)) x.sounding.lanes) k = _
      by_cases h : k = a
      · subst h; rw [if_pos rfl, tblGet_tblSet_self]
      · rw [if_neg h, tblGet_tblSet_ne _ h]
    rw [hk]
    by_cases ha : k = a
    · subst ha
      rw [if_neg hn.1, if_pos rfl, if_pos List.mem_cons_self]
    · rw [if_neg ha]
      by_cases hl : k ∈ l
      · rw [if_pos hl, if_pos (List.mem_cons_of_mem _ hl)]
      · rw [if_neg hl, if_neg (by rw [List.mem_cons]; rintro (q | q); exact ha q; exact hl q)]

theorem count_hub (d : HubDebug) (u c n : Nat) : ∃ x, d.count u c n = { d with counters := x } := ⟨_, rfl⟩

theorem vector_all (s : State) (v : Nat) : ∃ b h c, s.vector v = { s with pci := { s.pci with pba := b }, host := h, dbg := { s.dbg with counters := c } } := by
  unfold State.vector
  split
  · exact ⟨_, s.host, s.dbg.counters, rfl⟩
  · obtain ⟨c1, e1⟩ := count_hub s.dbg 3 2 1
    obtain ⟨c2, e2⟩ := count_hub { s.dbg with counters := c1 } 3 5 (cdiv (leBytes 4 (s.pci.msixWord v 2)).length 64)
    refine ⟨s.pci.pba, memWriteN s.host (s.pci.msixWord v 0 + 2 ^ 32 * s.pci.msixWord v 1) (leBytes 4 (s.pci.msixWord v 2)), c2, ?_⟩
    unfold State.hostWrite
    rw [e1, e2]

theorem event_all (s : State) (k d : Nat) : ∃ q b h c, s.event k d = { s with pci := { s.pci with evq := q, pba := b }, host := h, dbg := { s.dbg with counters := c } } := by
  unfold State.event
  dsimp only
  split
  · obtain ⟨b, h, c, e⟩ := vector_all (s.modPci (fun p => { p with evq := { p.evq with drop := satAdd 0xFFFFFFFF p.evq.drop 1 } })) (1032 + k)
    exact ⟨_, b, h, c, e⟩
  · obtain ⟨u, hu⟩ : ∃ u, leBytes 4 (k + 2 ^ 31 * boolN (s.pci.evq.written / 2 ^ s.pci.evq.inForce.log2 % 2 == 0)) ++ leBytes 4 (s.pci.evq.written % 2 ^ 32) ++ leBytes 8 d = u := ⟨_, rfl⟩
    rw [hu]
    obtain ⟨c1, e1⟩ := count_hub s.dbg 3 2 1
    obtain ⟨c2, e2⟩ := count_hub { s.dbg with counters := c1 } 3 5 (cdiv u.length 64)
    have hw : s.hostWrite (s.pci.evq.inForce.base + 16 * s.pci.evq.tail) u = { s with host := memWriteN s.host (s.pci.evq.inForce.base + 16 * s.pci.evq.tail) u, dbg := { s.dbg with counters := c2 } } := by
      unfold State.hostWrite
      rw [e1, e2]
    rw [hw]
    obtain ⟨b, h, c, e⟩ := vector_all (State.modPci ({ s with host := memWriteN s.host (s.pci.evq.inForce.base + 16 * s.pci.evq.tail) u, dbg := { s.dbg with counters := c2 } } : State)
      (fun p => { p with evq := { p.evq with tail := (s.pci.evq.tail + 1) % 2 ^ s.pci.evq.inForce.log2, written := s.pci.evq.written + 1 } })) (1032 + k)
    exact ⟨_, b, h, c, e⟩

theorem event_list (l : List (Nat × Nat)) : ∀ s : State, ∃ q b h c, l.foldl (fun t h => t.event h.1 h.2) s = { s with pci := { s.pci with evq := q, pba := b }, host := h, dbg := { s.dbg with counters := c } } := by
  induction l with
  | nil => exact fun s => ⟨s.pci.evq, s.pci.pba, s.host, s.dbg.counters, rfl⟩
  | cons a l ih =>
    intro s
    obtain ⟨q, b, h, c, e⟩ := event_all s a.1 a.2
    obtain ⟨q2, b2, h2, c2, e2⟩ := ih ({ s with pci := { s.pci with evq := q, pba := b }, host := h, dbg := { s.dbg with counters := c } } : State)
    exact ⟨q2, b2, h2, c2, by rw [List.foldl_cons, e, e2]⟩

theorem flush_all (s : State) : ∃ q b h c l, s.flushHeld = { s with pci := { s.pci with evq := q, pba := b }, host := h, dbg := { s.dbg with counters := c, held := l } } := by
  unfold State.flushHeld
  split
  · obtain ⟨q, b, h, c, e⟩ := event_list s.dbg.held ({ s with dbg := { s.dbg with held := [] } } : State)
    exact ⟨q, b, h, c, [], e⟩
  · exact ⟨s.pci.evq, s.pci.pba, s.host, s.dbg.counters, s.dbg.held, rfl⟩

theorem fold_each (g : Nat → Core → Core) : ∀ (l : List Nat) (s : State), l.Nodup → ∃ cs, l.foldl (fun t n => t.modCore n (g n)) s = { s with cores := cs } ∧
    ∀ n, ({ s with cores := cs } : State).core n = if n ∈ l then g n (s.core n) else s.core n := by
  intro l
  induction l with
  | nil => exact fun s _ => ⟨s.cores, rfl, fun n => by rw [if_neg (by simp)]⟩
  | cons a l ih =>
    intro s hn
    rw [List.nodup_cons] at hn
    obtain ⟨cs, e, m⟩ := ih (s.modCore a (g a)) hn.2
    refine ⟨cs, by rw [List.foldl_cons, e]; rfl, fun n => ?_⟩
    refine (m n).trans ?_
    have hk : (s.modCore a (g a)).core n = if n = a then g a (s.core a) else s.core n := by
      unfold State.modCore
      by_cases h : n = a
      · subst h; rw [if_pos rfl, State.core_setCore_self]
      · rw [if_neg h, State.core_setCore_ne h]
    rw [hk]
    by_cases ha : n = a
    · subst ha
      rw [if_neg hn.1, if_pos rfl, if_pos List.mem_cons_self]
    · rw [if_neg ha]
      by_cases hl : n ∈ l
      · rw [if_pos hl, if_pos (List.mem_cons_of_mem _ hl)]
      · rw [if_neg hl, if_neg (by rw [List.mem_cons]; rintro (q | q); exact ha q; exact hl q)]

theorem joins_iff (j d : Nat) : d ∈ bridgeDies j ↔ joins j d := by
  unfold bridgeDies joins
  dsimp only
  split
  · exact List.mem_singleton
  · simp

def testDbg (s : State) (cores : List CoreFail) (bridges : List Nat) : HubDebug :=
  let failed := (List.range 1280).filter (fun n => cores.any (fun x => x.core == n))
  { s.dbg with
    stDone := true, stPass := cores.isEmpty && bridges.isEmpty, stFailed := failed.length
    degraded := (List.range 1280).filter (fun n => failed.contains n || (bridges.flatMap bridgeDies).contains (dieOf n))
    bridgeFail := (List.range 16).foldl (fun a j => a + 2 ^ j * boolN (bridges.contains j)) 0
    held := s.dbg.held ++ selfTestRecords cores bridges failed.length }

def touchedBy (s : State) (cores : List CoreFail) : List Nat :=
  (List.range 1280).filter (fun n => ((List.range 1280).filter (fun n => cores.any (fun x => x.core == n))).contains n || (s.core n).stFail || (s.core n).me.degraded)

theorem selfTest_eq (s : State) (cores : List CoreFail) (bridges : List Nat) (h : (cores.all (fun x => decide (x.core < 1280)) && bridges.all (fun j => decide (j < 16))) = true)
    (h2 : ¬ ((!s.power.rails) = true ∨ s.dbg.stDone = true)) : exec (.selfTestComplete cores bridges) s =
      .next (((({ (touchedBy s cores).foldl (fun t n => t.modCore n (fun k => k.tested (cores.find? (fun x => x.core == n)))) s with dbg := testDbg ((touchedBy s cores).foldl (fun t n => t.modCore n (fun k => k.tested (cores.find? (fun x => x.core == n)))) s) cores bridges } : State).bump 0).flushHeld).fwUpdate) := by
  show execSelfTestComplete cores bridges s = _
  unfold execSelfTestComplete
  rw [if_pos h, if_neg h2]
  unfold touchedBy testDbg
  dsimp only

end Sys2Proof.Claims
end

