-- ==== Sys2Proof/Laws/OfRemote.lean ====
section
/-!
SUPPORT. Lemmas about moves and signals to other modules, for the proofs of the statements: what their operations do, step by step.
-/

namespace Sys2Proof.Claims

open Machine

theorem nodup_le : ∀ (l m : List Nat), l.Nodup → (∀ a ∈ l, a ∈ m) → l.length ≤ m.length := by
  intro l
  induction l with
  | nil => exact fun m _ _ => Nat.zero_le _
  | cons a l ih =>
    intro m hn hs
    rw [List.nodup_cons] at hn
    have ha := hs a List.mem_cons_self
    have := ih (m.erase a) hn.2 (fun b hb => (List.mem_erase_of_ne (by intro h; subst h; exact hn.1 hb)).2 (hs b (List.mem_cons_of_mem _ hb)))
    rw [List.length_erase_of_mem ha] at this
    have hp : 0 < m.length := List.length_pos_of_mem ha
    rw [List.length_cons]
    omega

theorem fresh_free (l : Links) (pick : Nat) (h : l.src.length < 65536) : l.freshClaim pick < 65536 ∧ ∀ x ∈ l.src, x.id ≠ l.freshClaim pick := by
  unfold Links.freshClaim
  cases hf : ((List.range (l.src.length + 1)).map (fun i => (pick + i) % 65536)).find? (fun i => !(l.src.any (fun c => c.id == i))) with
  | some i =>
    refine ⟨?_, fun x hx e => ?_⟩
    · have := List.mem_of_find?_eq_some hf
      rw [List.mem_map] at this
      obtain ⟨j, -, rfl⟩ := this
      exact Nat.mod_lt _ (by decide)
    · have := List.find?_some hf
      rw [Bool.not_eq_true', List.any_eq_false] at this
      have e2 : x.id = i := e
      exact this x hx (by simpa using e2)
  | none =>
    exfalso
    rw [List.find?_eq_none] at hf
    have hlen := nodup_le ((List.range (l.src.length + 1)).map (fun i => (pick + i) % 65536)) (l.src.map SrcClaim.id) (by
        rw [List.nodup_iff_pairwise_ne, List.pairwise_map]
        refine List.Pairwise.imp_of_mem ?_ List.pairwise_lt_range
        intro a b ha hb hlt e
        rw [List.mem_range] at ha hb
        omega) (by
        intro a ha
        have := hf a ha
        rw [Bool.not_eq_true, Bool.not_eq_false', List.any_eq_true] at this
        obtain ⟨x, hx, e⟩ := this
        exact List.mem_map.2 ⟨x, hx, by simpa using e⟩)
    simp only [List.length_map, List.length_range] at hlen
    omega

end Sys2Proof.Claims
end

