-- ==== Sys2Proof/Laws/OfWhole.lean ====
section
/-!
SUPPORT. Lemmas about the whole machine, FP32 results and registers, for the proofs of the statements: what their operations do, step by step.
-/

namespace Sys2Proof.Claims

open Machine

theorem idle_eq (s : State) (h : s.pending = []) : step s = .next s.tickOnce := by
  unfold step
  rw [h]

theorem find_map (f : Nat × Core → Nat × Core) (h : ∀ p, (f p).1 = p.1) (n : Nat) : ∀ (t : Tbl Core),
    tblFind n (t.map f) = (tblFind n t).map (fun v => (f (n, v)).2) := by
  intro t
  induction t with
  | nil => rfl
  | cons p t ih =>
    obtain ⟨k, v⟩ := p
    show tblFind n ((f (k, v)) :: t.map f) = (tblFind n ((k, v) :: t)).map (fun v => (f (n, v)).2)
    have e : f (k, v) = (k, (f (k, v)).2) := Prod.ext (h _) rfl
    rw [e]
    unfold tblFind
    by_cases q : k = n
    · subst q; rw [if_pos rfl, if_pos rfl]; rfl
    · rw [if_neg q, if_neg q]; exact ih

/-- Not a NaN, or the canonical one. -/
def Good32 (x : Nat) : Prop := x = 0x7FC00000 ∨ x % 2 ^ 31 ≤ 0x7F800000

theorem Good32.nan {x : Nat} (h : Good32 x) (n : isNan32 x) : x = 0x7FC00000 := by
  rcases h with h | h
  · exact h
  · unfold isNan32 at n
    omega

theorem good_sign (n : Bool) {m : Nat} (h : m ≤ 0x7F800000) : Good32 (signCode fFP32 n + m) := by
  refine .inr ?_
  cases n with
  | false => show (0 + m) % 2 ^ 31 ≤ _; omega
  | true => show (2 ^ 31 + m) % 2 ^ 31 ≤ _; omega

theorem good_ovf (sat n : Bool) : Good32 (ovfSigned fFP32 sat n) := by
  cases sat <;> cases n <;> exact .inr (by decide)

theorem good_round (rnd : Rnd) (sat : Bool) (x : Machine.Num) : Good32 (roundNum fFP32 rnd sat x).1 := by
  cases x with
  | nan s => exact .inl rfl
  | inf n => exact good_sign n (by decide)
  | fin n m e =>
    unfold roundNum
    dsimp only
    split
    · exact good_ovf _ _
    · next h => exact good_sign n (by have : fFP32.maxCode = 0x7F7FFFFF := rfl; omega)

theorem good_finish (rnd : Rnd) (r : Machine.Num × FFlags) : Good32 (finish32 rnd r).1 := good_round _ _ _

theorem good_within (salt code : Nat) (x : Machine.Num) : Good32 (f32Within1 salt code x).1 := by
  unfold f32Within1
  split
  · dsimp only
    split
    · exact good_sign _ (by decide)
    · exact good_round _ _ _
  · exact good_round _ _ _

theorem good_num {a : Nat} (ha : a < 2 ^ 32) (h : ∀ s, numOf fFP32 a ≠ .nan s) : Good32 a := by
  refine .inr ?_
  by_cases q : a % 2 ^ 31 / 2 ^ 23 = 255
  · by_cases z : a % 2 ^ 31 % 2 ^ 23 = 0
    · omega
    · exfalso
      have e : a % 2 ^ 32 % 2 ^ 31 = a % 2 ^ 31 := by omega
      refine h (decide (fFP32.mbits ≥ 7) && !bitOf (a % 2 ^ 31 % 2 ^ 23) 22) ?_
      unfold numOf
      show (if a % 2 ^ 32 % 2 ^ 31 / 2 ^ 23 = 255 then (if a % 2 ^ 32 % 2 ^ 31 % 2 ^ 23 = 0 then _ else
        Machine.Num.nan (decide (fFP32.mbits ≥ 7) && !bitOf (a % 2 ^ 32 % 2 ^ 31 % 2 ^ 23) 22)) else _) = _
      rw [e]
      rw [if_pos q]
      rw [if_neg z]
  · omega

theorem good_ite {c : Prop} [Decidable c] {x y : Nat × FFlags} (hx : c → Good32 x.1) (hy : ¬c → Good32 y.1) : Good32 (if c then x else y).1 := by
  by_cases h : c
  · rw [if_pos h]; exact hx h
  · rw [if_neg h]; exact hy h

theorem good_minmax (mx : Bool) {a b : Nat} (ha : a < 2 ^ 32) (hb : b < 2 ^ 32) : Good32 (f32MinMax mx a b).1 := by
  unfold f32MinMax
  cases h1 : numOf fFP32 a with
  | nan s =>
    cases h2 : numOf fFP32 b with
    | nan t => exact .inl rfl
    | inf n => exact good_num hb (fun s q => by rw [h2] at q; cases q)
    | fin n m e => exact good_num hb (fun s q => by rw [h2] at q; cases q)
  | inf n =>
    have ga := good_num ha (fun s q => by rw [h1] at q; cases q)
    cases h2 : numOf fFP32 b with
    | nan t => exact ga
    | inf n =>
      have gb := good_num hb (fun s q => by rw [h2] at q; cases q)
      show Good32 (if f32Less a b = mx then b else a)
      split
      · exact gb
      · exact ga
    | fin n m e =>
      have gb := good_num hb (fun s q => by rw [h2] at q; cases q)
      show Good32 (if f32Less a b = mx then b else a)
      split
      · exact gb
      · exact ga
  | fin n m e =>
    have ga := good_num ha (fun s q => by rw [h1] at q; cases q)
    cases h2 : numOf fFP32 b with
    | nan t => exact ga
    | inf n =>
      have gb := good_num hb (fun s q => by rw [h2] at q; cases q)
      show Good32 (if f32Less a b = mx then b else a)
      split
      · exact gb
      · exact ga
    | fin n m e =>
      have gb := good_num hb (fun s q => by rw [h2] at q; cases q)
      show Good32 (if f32Less a b = mx then b else a)
      split
      · exact gb
      · exact ga

theorem good_small {n : Nat} (h : n < 3) : Good32 n := .inr (by omega)
theorem good_inf : Good32 (ovfCode fFP32 false) := .inr (by decide)
theorem good_one : Good32 0x3F800000 := .inr (by decide)

theorem good_ex2 (a : Nat) : Good32 (f32Ex2 a).1 := by
  unfold f32Ex2
  cases h : numOf fFP32 a with
  | nan s => exact .inl rfl
  | inf n =>
    cases n with
    | false => exact good_inf
    | true => exact good_small (n := 0) (by decide)
  | fin n m e =>
    dsimp only
    refine good_ite (fun _ => good_one) fun _ => ?_
    refine good_ite (fun _ => good_ite (fun _ => good_small (Nat.mod_lt _ (by decide))) fun _ => good_inf) fun _ => ?_
    refine good_ite (fun _ => good_round _ _ _) fun _ => ?_
    refine good_ite (fun _ => good_inf) fun h => .inr ?_
    have hm : fFP32.maxCode = 0x7F7FFFFF := rfl
    rw [hm] at h
    generalize within2 _ _ _ = w at h ⊢
    dsimp only
    omega

theorem num_qnan : numOf fFP32 0x7FC00000 = .nan false := by decide

theorem good_abs {a : Nat} (ha : a < 2 ^ 32) : Good32 (f32Abs a) := by
  unfold f32Abs
  cases h : numOf fFP32 a with
  | nan s => exact .inl rfl
  | inf n =>
    rcases good_num ha (fun s q => by rw [h] at q; cases q) with q | q
    · rw [q, num_qnan] at h; cases h
    · exact .inr (by show a % 2 ^ 31 % 2 ^ 31 ≤ _; omega)
  | fin n m e =>
    rcases good_num ha (fun s q => by rw [h] at q; cases q) with q | q
    · rw [q, num_qnan] at h; cases h
    · exact .inr (by show a % 2 ^ 31 % 2 ^ 31 ≤ _; omega)

theorem good_neg {a : Nat} (ha : a < 2 ^ 32) : Good32 (f32Neg a) := by
  unfold f32Neg
  cases h : numOf fFP32 a with
  | nan s => exact .inl rfl
  | inf n =>
    rcases good_num ha (fun s q => by rw [h] at q; cases q) with q | q
    · rw [q, num_qnan] at h; cases h
    · exact .inr (by show (a + 2 ^ 31) % 2 ^ 32 % 2 ^ 31 ≤ _; omega)
  | fin n m e =>
    rcases good_num ha (fun s q => by rw [h] at q; cases q) with q | q
    · rw [q, num_qnan] at h; cases h
    · exact .inr (by show (a + 2 ^ 31) % 2 ^ 32 % 2 ^ 31 ≤ _; omega)

theorem good_inf' (n : Bool) : Good32 (signCode fFP32 n + ovfCode fFP32 false) := good_sign n (by decide)

theorem good_rcp (a : Nat) : Good32 (f32Rcp a).1 := by
  unfold f32Rcp
  cases h : numOf fFP32 a with
  | nan s => exact .inl rfl
  | inf n => exact good_sign n (m := 0) (Nat.zero_le _)
  | fin n m e =>
    refine good_ite (fun _ => good_inf' n) fun _ => ?_
    cases pow2Exp m e with
    | none => exact good_within _ _ _
    | some k =>
      dsimp only
      exact good_ite (fun _ => good_within _ _ _) (fun _ => good_round _ _ _)

theorem good_rsq (a : Nat) : Good32 (f32Rsq a).1 := by
  unfold f32Rsq
  cases h : numOf fFP32 a with
  | nan s => exact .inl rfl
  | inf n =>
    cases n with
    | false => exact good_small (n := 0) (by decide)
    | true => exact .inl rfl
  | fin n m e =>
    refine good_ite (fun _ => good_inf' n) fun _ => ?_
    refine good_ite (fun _ => .inl rfl) fun _ => ?_
    cases pow2Exp m e with
    | none => exact good_within _ _ _
    | some k => exact good_ite (fun _ => good_round _ _ _) (fun _ => good_within _ _ _)

/-- Binary digits of a sum of powers. -/
def bitSum (f : Nat → Bool) (n : Nat) : Nat := (List.range n).foldl (fun a i => a + 2 ^ i * boolN (f i)) 0

theorem bitSum_succ (f : Nat → Bool) (n : Nat) : bitSum f (n + 1) = bitSum f n + 2 ^ n * boolN (f n) := by
  unfold bitSum
  rw [List.range_succ, List.foldl_append]
  rfl

theorem bitSum_lt (f : Nat → Bool) (n : Nat) : bitSum f n < 2 ^ n := by
  induction n with
  | zero => exact Nat.one_pos
  | succ n ih =>
    rw [bitSum_succ, Nat.pow_succ]
    cases f n
    · show bitSum f n + 2 ^ n * 0 < _; omega
    · show bitSum f n + 2 ^ n * 1 < _; omega

theorem bitSum_bit (f : Nat → Bool) (n b : Nat) (h : b < n) : (bitSum f n).testBit b = f b := by
  induction n with
  | zero => omega
  | succ n ih =>
    rw [bitSum_succ, Nat.add_comm]
    by_cases q : b = n
    · subst q
      cases hf : f b
      · show (2 ^ b * 0 + _).testBit b = false
        rw [Nat.mul_zero, Nat.zero_add]
        exact Nat.testBit_lt_two_pow (bitSum_lt f b)
      · show (2 ^ b * 1 + _).testBit b = true
        rw [Nat.testBit_two_pow_mul_add _ (bitSum_lt f b), if_neg (by omega), Nat.sub_self]
        rfl
    · rw [Nat.testBit_two_pow_mul_add _ (bitSum_lt f n), if_pos (by omega)]
      exact ih (by omega)

theorem bitOf_test (x b : Nat) : bitOf x b = x.testBit b := by
  rw [Nat.testBit_eq_decide_div_mod_eq]
  rfl

theorem readCore (s : State) (n o : Nat) (hn : n < 1280) (ho : o < 0x4000) : s.readWord (coreWindow n + o) = s.coreWord n o := by
  have hw : coreWindow n + o = 0x1000000 + 0x4000 * n + o := rfl
  unfold State.readWord
  -- every window of the map below the cores' ends at or under `coreWindow n` (R380)
  iterate 12 rw [if_neg (by omega)]
  rw [if_pos (by omega)]
  have h1 : (coreWindow n + o - 0x1000000) / 0x4000 = n := by omega
  have h2 : (coreWindow n + o) % 0x4000 = o := by omega
  rw [h1, h2]

theorem writeCoreWindow (s : State) (n o v : Nat) (hn : n < 1280) (ho : o < 0x4000) :
    s.writeWord (coreWindow n + o) v = s.writeCore n o (v % 2 ^ 32) := by
  have hw : coreWindow n + o = 0x1000000 + 0x4000 * n + o := rfl
  unfold State.writeWord
  dsimp only
  repeat (first | rw [if_pos (by omega)] | rw [if_neg (by omega)])
  rw [show (coreWindow n + o - 0x1000000) / 0x4000 = n by omega, show (coreWindow n + o) % 0x4000 = o by omega]

theorem reg4' (s : State) {o : Nat} (v : Nat) (h1 : o % 4 = 0) (h2 : o + 4 ≤ 0x4000000) : exec (.registerWrite o 4 v) s = .next (s.writeWord o v) := by
  show execRegisterWrite o 4 v s = _
  unfold execRegisterWrite
  rw [if_neg (by unfold bar0Ok; simp; omega)]
  show Host.Outcome.next (s.writeWord (o + 4 * 0) (v / 2 ^ (32 * 0))) = _
  rw [Nat.add_zero, Nat.pow_zero, Nat.div_one]

theorem reg8' (s : State) {o : Nat} (v : Nat) (h1 : o % 8 = 0) (h2 : o + 8 ≤ 0x4000000) :
    exec (.registerWrite o 8 v) s = .next ((s.writeWord o v).writeWord (o + 4) (v / 2 ^ 32)) := by
  show execRegisterWrite o 8 v s = _
  unfold execRegisterWrite
  rw [if_neg (by unfold bar0Ok; simp; omega)]
  rw [show List.range (8 / 4) = [0, 1] from rfl, List.foldl_cons, List.foldl_cons, List.foldl_nil, Nat.mul_zero, Nat.mul_one, Nat.mul_one, Nat.pow_zero, Nat.div_one, Nat.add_zero]

theorem resetCore (n : Nat) : State.reset.core n = {} := rfl

theorem resetSlab (n o : Nat) (hn : n < 1280) (ho : o < 0x20) : State.reset.readWord (coreWindow n + (0xC00 + o)) = ({} : Slab).word o := by
  rw [readCore _ n _ hn (by omega)]
  unfold State.coreWord
  dsimp only
  repeat (first | rw [if_pos (by omega)] | rw [if_neg (by omega)])
  rw [Nat.add_sub_cancel_left]
  rfl

theorem readQueue (s : State) (n e o : Nat) (hn : n < 1280) (he : e < 4) (ho : o < 64) :
    s.readWord (coreWindow n + 0x1000 + 64 * e + o) = (s.core n).queueWord e o := by
  rw [show coreWindow n + 0x1000 + 64 * e + o = coreWindow n + (0x1000 + 64 * e + o) by omega, readCore s n _ hn (by omega)]
  unfold State.coreWord
  dsimp only
  repeat (first | rw [if_pos (by omega)] | rw [if_neg (by omega)])
  rw [show (0x1000 + 64 * e + o - 0x1000) / 64 = e by omega, show (0x1000 + 64 * e + o) % 64 = o by omega]

theorem setQueue_same (s : State) (n e : Nat) (q : Queue) : ((s.setQueue n e q).core n).queue e = q := by
  have h : (s.setQueue n e q).core n = { s.core n with queues := tblSet e q (s.core n).queues } := tblGet_tblSet_self _ _ _ _
  rw [h]
  exact tblGet_tblSet_self _ _ _ _

theorem bit_nat (v k : Nat) : boolN (bitOf v k) = v / 2 ^ k % 2 := by
  unfold bitOf boolN
  rcases Nat.mod_two_eq_zero_or_one (v / 2 ^ k) with h | h <;> rw [h] <;> rfl

theorem resetFc (n : Nat) (hn : n < 1280) : State.reset.readWord (coreWindow n + 0xE00) = ({} : FarCache).word 0 := by
  rw [readCore _ n _ hn (by omega)]
  unfold State.coreWord
  dsimp only
  repeat (first | rw [if_pos (by omega)] | rw [if_neg (by omega)])
  rfl

theorem resetDbg (n o : Nat) (hn : n < 1280) (ho : o < 0x400) : State.reset.readWord (coreWindow n + (0x3000 + o)) = ({} : CoreDebug).word o := by
  rw [readCore _ n _ hn (by omega)]
  unfold State.coreWord
  dsimp only
  repeat (first | rw [if_pos (by omega)] | rw [if_neg (by omega)])
  rw [Nat.add_sub_cancel_left]
  rfl

theorem resetQueue (n e o : Nat) (hn : n < 1280) (he : e < 4) (ho : o < 64) : State.reset.readWord (coreWindow n + 0x1000 + 64 * e + o) =
    ({} : Core).queueWord e o := by
  rw [readQueue State.reset n e o hn he ho, resetCore]

theorem resetProfile (n i w : Nat) (hn : n < 1280) (hi : i < 16) (hw : w < 8) :
    State.reset.readWord (coreWindow n + (0x800 + 32 * i + 4 * w)) = ({} : Profile).word w := by
  rw [readCore _ n _ hn (by omega)]
  unfold State.coreWord
  dsimp only
  repeat (first | rw [if_pos (by omega)] | rw [if_neg (by omega)])
  rw [show (0x800 + 32 * i + 4 * w) % 32 / 4 = w by omega, resetCore]
  rfl

theorem half0 (i : Nat) : half64 0 i = 0 := by
  unfold half64 lo32 hi32
  split <;> rfl

end Sys2Proof.Claims
end

