-- ==== Sys2Proof/Laws/PerInstr.lean ====
section
/-!
SUPPORT. The family WellFormedShape, one lemma per constructor: the fields of a well-formed gang instruction fit the bits
that its format gives them and keep clear of the codes that the format rejects (03_sett R70, R71, R73, R75, R77, R83, R87,
R89, R91); every other command is well-formed whatever its operands.
-/

namespace Sys2Proof.Laws.WellFormedShape

/-- The fields of format V (R70, R71, R73, R75). -/
def VFits (f : VForm) : Prop :=
  f.qp < 8 ∧ f.d < 128 ∧ f.a < 128 ∧ f.b < 128 ∧ f.c < 128 ∧ f.ty < 13 ∧ f.rnd < 3 ∧ f.opx < 2 ^ 11

/-- The fields of format M (R83, R84). -/
def MFits (f : MForm) : Prop :=
  f.x < 128 ∧ f.a < 128 ∧ f.b < 128 ∧ f.c < 128 ∧ f.fa < 12 ∧ f.fb < 12 ∧ f.ms < 2 ∧ f.ns < 3 ∧ f.ks < 4 ∧ f.cvp < 16

/-- The fields of format T (R87). -/
def TFits (f : TForm) : Prop := f.src < 75 ∧ f.tid < 4096 ∧ f.tmo < 2 ^ 24

/-- The fields of format F (R89). -/
def FFits (f : FForm) : Prop := f.d < 8 ∧ f.a < 75 ∧ f.b < 75 ∧ f.sc < 3 ∧ f.fk < 3 ∧ f.tmo < 2 ^ 24

/-- The fields of format A (R91). -/
def AFits (f : AForm) : Prop := f.d < 64 ∧ f.a < 75 ∧ f.aln < 32 ∧ f.pool < 2

/-- What the fields of an instruction keep to, by its format (R74). -/
def Fits : Instr → Prop
  | .br _ p _ _ _ => p < 8
  | .loopInsn _ sreg _ _ => sreg < 64
  | .exit _ qp qn => qp < 8 ∧ (qp = 0 → qn = false)
  | .addScalar _ f | .subScalar _ f | .mulScalar _ f | .mulhiScalar _ f | .andScalar _ f | .orScalar _ f | .xorScalar _ f
  | .shlScalar _ f | .shrScalar _ f | .sarScalar _ f | .minScalar _ f | .maxScalar _ f | .movScalar _ f | .caddr _ f _
  | .addVector _ f | .subVector _ f | .mulVector _ f | .mulhiVector _ f | .andVector _ f | .orVector _ f | .xorVector _ f
  | .shlVector _ f | .shrVector _ f | .sarVector _ f | .minVector _ f | .maxVector _ f | .movVector _ f | .sel _ f
  | .popc _ f | .clz _ f | .fadd _ f | .fsub _ f | .fmul _ f | .fdiv _ f | .fmin _ f | .fmax _ f | .ffma _ f | .fabs _ f
  | .fneg _ f | .frcp _ f | .frsq _ f | .fex2 _ f | .flg2 _ f | .fsqrt _ f | .cvt _ f | .pack _ f | .bperm _ f | .shfl _ f
  | .red _ f | .setp _ f | .plog _ f | .pbal _ f | .pset _ f | .scmp _ f | .sld _ f | .sst _ f | .ld _ f | .st _ f
  | .atom _ f => VFits f
  | .mma _ f | .mmaz _ f | .gangMdrain _ f | .mclr _ f => MFits f
  | .tsig _ f | .twait _ f | .tread _ f => TFits f
  | .fenceInsn _ f | .fsig _ f | .fwait _ f => FFits f
  | .alloc _ f | .free _ f => AFits f
  | _ => True

/-- The statement of the family. -/
def Statement (i : Instr) : Prop := i.wf = true → Fits i

theorem of_wf {i : Instr} (h : i.wf = true) : i.loadErr = none := Option.isNone_iff_eq_none.1 h

theorem or_none {α : Type} {a b : Option α} (h : (a <|> b) = none) : a = none ∧ b = none := by
  cases a with
  | none => exact ⟨rfl, h⟩
  | some x => cases h

theorem if_none {α : Type} {p : Prop} [Decidable p] {e : α} (h : (if p then none else some e) = none) : p := by
  by_cases q : p
  · exact q
  · rw [if_neg q] at h; cases h

theorem if_some {α : Type} {p : Prop} [Decidable p] {e : α} {r : Option α} (h : (if p then some e else r) = none) : ¬ p ∧ r = none := by
  by_cases q : p
  · rw [if_pos q] at h; cases h
  · rw [if_neg q] at h; exact ⟨q, h⟩

theorem predErr_fits {a : Bool} {qp : Nat} {qn : Bool} (h : predErr a qp qn = none) : qp < 8 ∧ (qp = 0 → qn = false) := by
  obtain ⟨h1, h⟩ := if_some h
  obtain ⟨-, h⟩ := if_some h
  obtain ⟨h2, -⟩ := if_some h
  exact ⟨by omega, fun q => by cases qn; rfl; exact absurd ⟨q, rfl⟩ h2⟩

theorem regErr_scalar {dest lane : Bool} {x : Nat} (h : regErr .scalar dest lane x = none) : x < 75 := by
  have := (if_some (show (if x ≥ 75 then some LoadErr.operand else _) = none from h)).1
  omega

theorem regErr_scalar_dest {x : Nat} (h : regErr .scalar true false x = none) : x < 64 := by
  have h0 := (if_some (show (if x ≥ 75 then some LoadErr.operand else _) = none from h)).2
  have h1 := (if_some h0).1
  simpa using h1

theorem regErr_fits {k : OpKind} {dest lane : Bool} {x : Nat} (h : regErr k dest lane x = none) : x < 128 := by
  cases k with
  | absent => have := if_none (show (if x = 0 then none else some LoadErr.reserved) = none from h); omega
  | vector => exact if_none (show (if x < 128 then none else some LoadErr.operand) = none from h)
  | predicate => have := if_none (show (if x < 8 then none else some LoadErr.operand) = none from h); omega
  | scalar => have := regErr_scalar h; omega

theorem regErr_predicate {dest lane : Bool} {x : Nat} (h : regErr .predicate dest lane x = none) : x < 8 :=
  if_none (show (if x < 8 then none else some LoadErr.operand) = none from h)

theorem srcErr_fits {sp : VSpec} {k : OpKind} {imm sb : Bool} {x : Nat} (h : srcErr sp k imm sb x = none) : x < 128 := by
  unfold srcErr at h
  by_cases hi : imm = true
  · rw [if_pos hi] at h
    obtain ⟨-, h⟩ := if_some h
    obtain ⟨h, -⟩ := if_some h
    omega
  · rw [if_neg hi] at h
    exact regErr_fits (if_some h).2

theorem groupErr_fits {n r : Nat} (h : groupErr n r = none) : r < 128 := by
  have := (if_some h).1
  omega

/-- The types of an opcode are types of R73. -/
theorem type_lt {ts : List Nat} (hs : ∀ t ∈ ts, t < 13) {t : Nat} (h : ts.contains t = true) : t < 13 :=
  hs t (by simpa using h)

theorem vErr_fits {sp : VSpec} {f : VForm} (hs : ∀ t ∈ sp.types, t < 13) (h : vErr sp f = none) : VFits f := by
  unfold vErr at h
  obtain ⟨hp, h⟩ := or_none h
  obtain ⟨ht, h⟩ := or_none h
  obtain ⟨hr, h⟩ := or_none h
  obtain ⟨-, h⟩ := or_none h
  obtain ⟨ho, h⟩ := or_none h
  obtain ⟨hd, h⟩ := or_none h
  obtain ⟨ha, h⟩ := or_none h
  obtain ⟨hb, h⟩ := or_none h
  obtain ⟨hc, -⟩ := or_none h
  refine ⟨(predErr_fits hp).1, regErr_fits hd, regErr_fits ha, srcErr_fits hb, srcErr_fits hc, type_lt hs (if_none ht), ?_, (if_none ho).1⟩
  by_cases q : f.rnd = 0 ∨ (f.rnd = 1 ∧ sp.rnd1 = true)
  · omega
  · rw [if_neg q] at hr
    have := (if_none hr).1
    omega

theorem slabErr_fits {f : VForm} (h : slabInsnErr f = none) : VFits f := by
  unfold slabInsnErr at h
  obtain ⟨hp, h⟩ := or_none h
  obtain ⟨-, h⟩ := or_none h
  obtain ⟨hr, h⟩ := or_none h
  obtain ⟨hd, ha⟩ := or_none h
  obtain ⟨hr, -⟩ := if_some hr
  obtain ⟨hd, -⟩ := if_some hd
  have := regErr_fits ha
  exact ⟨(predErr_fits hp).1, by omega, this, by omega, by omega, by omega, by omega, by omega⟩

theorem addrErr_fits {f : VForm} (h : addrErr f = none) : f.a < 128 := by
  unfold addrErr at h
  dsimp only at h
  split at h
  · have := (if_some h).1; omega
  · exact regErr_fits (if_some h).2

theorem offErr_fits {f : VForm} (h : offErr f = none) : f.c < 128 := by
  unfold offErr at h
  obtain ⟨-, h⟩ := if_some h
  obtain ⟨-, h⟩ := if_some h
  split at h
  · exact if_none h
  · have := if_none h; omega

theorem plainErr_fits {f : VForm} {t : Bool} (h : plainErr f t = none) : f.qp < 8 ∧ f.a < 128 ∧ (t = true → f.ty = 0) ∧ f.rnd = 0 ∧ f.opx < 2 ^ 10 := by
  unfold plainErr at h
  obtain ⟨hp, h⟩ := or_none h
  obtain ⟨ht, h⟩ := or_none h
  obtain ⟨hr, h⟩ := or_none h
  obtain ⟨ho, h⟩ := or_none h
  obtain ⟨-, ha⟩ := or_none h
  have ht := (if_some ht).1
  have hr := (if_some hr).1
  have ho := (if_some ho).1
  refine ⟨(predErr_fits hp).1, addrErr_fits ha, fun q => ?_, by omega, by omega⟩
  rw [q] at ht
  simpa using ht

theorem ldErr_fits {f : VForm} (h : ldErr f = none) : VFits f := by
  unfold ldErr at h
  obtain ⟨hp, h⟩ := or_none h
  obtain ⟨-, h⟩ := or_none h
  obtain ⟨hr, h⟩ := or_none h
  obtain ⟨hc, hd⟩ := or_none h
  obtain ⟨h1, h2, h3, h4, h5⟩ := plainErr_fits hp
  have hr := (if_some hr).1
  have h3 := h3 rfl
  exact ⟨h1, groupErr_fits hd, h2, by omega, offErr_fits hc, by omega, by omega, by omega⟩

theorem stErr_fits {f : VForm} (h : stErr f = none) : VFits f := by
  unfold stErr at h
  obtain ⟨hp, h⟩ := or_none h
  obtain ⟨hr, h⟩ := or_none h
  obtain ⟨hc, hb⟩ := or_none h
  obtain ⟨h1, h2, h3, h4, h5⟩ := plainErr_fits hp
  have hr := (if_some hr).1
  have h3 := h3 rfl
  refine ⟨h1, by omega, h2, ?_, offErr_fits hc, by omega, by omega, by omega⟩
  split at hb
  · split at hb
    · cases hb
    · have := (if_some hb).1; omega
  · split at hb
    · exact regErr_fits (if_some hb).2
    · exact groupErr_fits hb

theorem atomErr_fits {f : VForm} (h : atomErr f = none) : VFits f := by
  unfold atomErr at h
  obtain ⟨hp, h⟩ := or_none h
  obtain ⟨-, h⟩ := or_none h
  obtain ⟨ht, h⟩ := or_none h
  obtain ⟨-, h⟩ := or_none h
  obtain ⟨hd, h⟩ := or_none h
  obtain ⟨hb, h⟩ := or_none h
  obtain ⟨hc, -⟩ := or_none h
  obtain ⟨h1, h2, -, h4, h5⟩ := plainErr_fits hp
  exact ⟨h1, groupErr_fits hd, h2, srcErr_fits hb, srcErr_fits hc, type_lt (by decide) (if_none ht).1, by omega, by omega⟩

theorem shapeErr_fits {f : MForm} (h : shapeErr f = none) : f.ms < 2 ∧ f.ns < 3 ∧ f.ks < 4 := by
  unfold shapeErr at h
  obtain ⟨h1, h⟩ := if_some h
  obtain ⟨h2, -⟩ := if_some h
  omega

theorem accErr_fits {x m n : Nat} (h : accErr x m n = none) : x < 128 := by
  have := (if_some h).1
  omega

/-- A group of at least one byte starts at a register of the file (R85). -/
theorem rangeErr_fits {r n : Nat} (hn : 0 < n) (h : rangeErr r n = none) : r < 128 := by
  have h := if_none h
  have : 1 ≤ regsOf n := by unfold regsOf cdiv; omega
  omega

theorem fmtBits_ge {c : Nat} (h : c < 12) : 4 ≤ fmtBits c := by
  revert h c; decide

/-- An operand of a product or drain holds at least one byte. -/
theorem bytes_pos {a b c : Nat} (ha : 16 ≤ a) (hb : 16 ≤ b) (hc : 4 ≤ c) : 0 < a * b * c / 8 := by
  have h1 : 16 * 16 ≤ a * b := Nat.mul_le_mul ha hb
  have h2 : 16 * 16 * 4 ≤ a * b * c := Nat.mul_le_mul h1 hc
  omega

theorem mfM_ge (f : MForm) : 16 ≤ mfM f := by unfold mfM; omega
theorem mfN_ge (f : MForm) : 16 ≤ mfN f := by unfold mfN; have := Nat.two_pow_pos f.ns; omega
theorem mfK_ge (f : MForm) : 16 ≤ mfK f := by unfold mfK; have := Nat.two_pow_pos f.ks; omega

theorem scale_regs {a b : Nat} (ha : 16 ≤ a) (hb : 16 ≤ b) : 0 < a * b / 32 := by
  have h1 : 16 * 16 ≤ a * b := Nat.mul_le_mul ha hb
  omega

theorem mmaErr_fits {f : MForm} (h : mmaErr f = none) : MFits f := by
  unfold mmaErr at h
  obtain ⟨hs, h⟩ := or_none h
  obtain ⟨hp, h⟩ := or_none h
  obtain ⟨hr, h⟩ := or_none h
  obtain ⟨ha, h⟩ := or_none h
  obtain ⟨hb, h⟩ := or_none h
  obtain ⟨hc, hx⟩ := or_none h
  obtain ⟨h1, h2, h3⟩ := shapeErr_fits hs
  have hp := if_none hp
  unfold pairOk at hp
  simp only [Bool.and_eq_true, decide_eq_true_eq] at hp
  obtain ⟨⟨⟨⟨⟨p1, p2⟩, -⟩, -⟩, -⟩, -⟩ := hp
  have hr := (if_some hr).1
  refine ⟨accErr_fits hx, rangeErr_fits (bytes_pos (mfM_ge f) (mfK_ge f) (fmtBits_ge p1)) ha,
    rangeErr_fits (bytes_pos (mfK_ge f) (mfN_ge f) (fmtBits_ge p2)) hb, ?_, p1, p2, h1, h2, h3, by omega⟩
  by_cases q : fmtMx f.fa = true
  · rw [if_pos q] at hc
    have hc := if_none hc
    have h5 : 1 ≤ regsOf (mfM f * mfK f / 32) := by have := scale_regs (mfM_ge f) (mfK_ge f); unfold regsOf cdiv; omega
    omega
  · have : f.c = 0 := by
      by_cases hc0 : f.c = 0
      · exact hc0
      · exact absurd (.inr ⟨by simpa using q, hc0⟩) hr
    omega

theorem mdrainErr_fits {f : MForm} (h : mdrainErr f = none) : MFits f := by
  unfold mdrainErr at h
  obtain ⟨hs, h⟩ := or_none h
  obtain ⟨hfa, h⟩ := or_none h
  obtain ⟨-, h⟩ := or_none h
  obtain ⟨hr, h⟩ := or_none h
  obtain ⟨hx, h⟩ := or_none h
  obtain ⟨hc, ha⟩ := or_none h
  obtain ⟨h1, h2, h3⟩ := shapeErr_fits hs
  have hfa := if_none hfa
  have hr := (if_some hr).1
  refine ⟨rangeErr_fits (bytes_pos (mfM_ge f) (mfN_ge f) (fmtBits_ge hfa)) hx, accErr_fits ha, by omega, ?_, hfa, by omega, h1, h2, h3, by omega⟩
  by_cases q : fmtMx f.fa = true
  · rw [if_pos q] at hc
    exact rangeErr_fits (scale_regs (mfM_ge f) (mfN_ge f)) (or_none hc).1
  · have : f.c = 0 := by
      by_cases hc0 : f.c = 0
      · exact hc0
      · exact absurd (.inr (.inr (.inr (.inr ⟨by simpa using q, hc0⟩)))) hr
    omega

theorem mclrErr_fits {f : MForm} (h : mclrErr f = none) : MFits f := by
  unfold mclrErr at h
  obtain ⟨hs, h⟩ := or_none h
  obtain ⟨hr, hx⟩ := or_none h
  obtain ⟨h1, h2, h3⟩ := shapeErr_fits hs
  have hr := (if_some hr).1
  exact ⟨accErr_fits hx, by omega, by omega, by omega, by omega, by omega, h1, h2, h3, by omega⟩

theorem tErr_fits {r : Bool} {f : TForm} (h : tErr r f = none) : TFits f := by
  obtain ⟨h1, h⟩ := if_some h
  refine ⟨?_, by omega, by omega⟩
  by_cases q : f.ib = true
  · rw [if_pos q] at h
    cases r with
    | true => cases h
    | false => have := (if_some (show (if f.src ≠ 0 then some LoadErr.reserved else none) = none from h)).1; omega
  · rw [if_neg q] at h
    exact regErr_scalar h

theorem fenceErr_fits {f : FForm} (h : fenceErr f = none) : FFits f := by
  have := (if_some h).1
  exact ⟨by omega, by omega, by omega, by omega, by omega, by omega⟩

theorem fobjErr_fits {w : Bool} {f : FForm} (h : fobjErr w f = none) : FFits f := by
  unfold fobjErr at h
  obtain ⟨hr, h⟩ := or_none h
  obtain ⟨hd, h⟩ := or_none h
  obtain ⟨ha, hb⟩ := or_none h
  have hr := (if_some hr).1
  refine ⟨regErr_predicate hd, regErr_scalar ha, ?_, by omega, by omega, by omega⟩
  split at hb
  · have := (if_some hb).1; omega
  · exact regErr_scalar hb

theorem allocErr_fits {f : AForm} (h : allocErr f = none) : AFits f := by
  unfold allocErr at h
  obtain ⟨hr, h⟩ := or_none h
  obtain ⟨hd, ha⟩ := or_none h
  have hr := (if_some hr).1
  refine ⟨regErr_scalar_dest hd, ?_, by omega, by omega⟩
  split at ha
  · have := (if_some ha).1; omega
  · exact regErr_scalar ha

theorem freeErr_fits {f : AForm} (h : freeErr f = none) : AFits f := by
  unfold freeErr at h
  obtain ⟨hr, ha⟩ := or_none h
  have hr := (if_some hr).1
  exact ⟨by omega, regErr_scalar ha, by omega, by omega⟩

theorem brErr_fits {p : Nat} (h : brErr p = none) : p < 8 := if_none h
theorem loopErr_fits {r : Nat} (h : loopErr r = none) : r < 64 := if_none h

theorem specS_tyWide_fits {f : VForm} : vErr (specS tyWide) f = none → VFits f := vErr_fits (by decide)
theorem specS_tyInts_fits {f : VForm} : vErr (specS tyInts) f = none → VFits f := vErr_fits (by decide)
theorem specMovS_fits {f : VForm} : vErr specMovS f = none → VFits f := vErr_fits (by decide)
theorem specCaddr_fits {f : VForm} : vErr specCaddr f = none → VFits f := vErr_fits (by decide)
theorem specV_tyWide_fits {f : VForm} : vErr (specV tyWide) f = none → VFits f := vErr_fits (by decide)
theorem specV_0_1_fits {f : VForm} : vErr (specV [0, 1]) f = none → VFits f := vErr_fits (by decide)
theorem specV_tyInts_fits {f : VForm} : vErr (specV tyInts) f = none → VFits f := vErr_fits (by decide)
theorem specMovV_fits {f : VForm} : vErr specMovV f = none → VFits f := vErr_fits (by decide)
theorem specSel_fits {f : VForm} : vErr specSel f = none → VFits f := vErr_fits (by decide)
theorem specUn_fits {f : VForm} : vErr specUn f = none → VFits f := vErr_fits (by decide)
theorem specF2_true_fits {f : VForm} : vErr (specF2 true) f = none → VFits f := vErr_fits (by decide)
theorem specF2_false_fits {f : VForm} : vErr (specF2 false) f = none → VFits f := vErr_fits (by decide)
theorem specF3_fits {f : VForm} : vErr specF3 f = none → VFits f := vErr_fits (by decide)
theorem specF1_false_fits {f : VForm} : vErr (specF1 false) f = none → VFits f := vErr_fits (by decide)
theorem specF1_true_fits {f : VForm} : vErr (specF1 true) f = none → VFits f := vErr_fits (by decide)
theorem specCvt_fits {f : VForm} : vErr specCvt f = none → VFits f := vErr_fits (by decide)
theorem specPack_fits {f : VForm} : vErr specPack f = none → VFits f := vErr_fits (by decide)
theorem specBperm_fits {f : VForm} : vErr specBperm f = none → VFits f := vErr_fits (by decide)
theorem specShfl_fits {f : VForm} : vErr specShfl f = none → VFits f := vErr_fits (by decide)
theorem specRed_fits {f : VForm} : vErr specRed f = none → VFits f := vErr_fits (by decide)
theorem specSetp_fits {f : VForm} : vErr specSetp f = none → VFits f := vErr_fits (by decide)
theorem specPlog_fits {f : VForm} : vErr specPlog f = none → VFits f := vErr_fits (by decide)
theorem specPbal_fits {f : VForm} : vErr specPbal f = none → VFits f := vErr_fits (by decide)
theorem specPset_fits {f : VForm} : vErr specPset f = none → VFits f := vErr_fits (by decide)
theorem specScmp_fits {f : VForm} : vErr specScmp f = none → VFits f := vErr_fits (by decide)

/-! ### The lemmas of the family, in the order of the table -/

theorem registerWrite : ∀ (offset : Nat) (size : Nat) (value : Nat), Statement (.registerWrite offset size value) :=
  fun _ _ _ _ => trivial
theorem nopInsn : ∀ (g : GangAt), Statement (.nopInsn g) :=
  fun _ _ => trivial
theorem br : ∀ (g : GangAt) (p : Nat) (pn : Bool) (tgt : Addr) (join : Addr), Statement (.br g p pn tgt join) :=
  fun _ _ _ _ _ h => brErr_fits (of_wf h)
theorem bra : ∀ (g : GangAt) (tgt : Addr), Statement (.bra g tgt) :=
  fun _ _ _ => trivial
theorem loopInsn : ∀ (g : GangAt) (sreg : Nat) (last : Addr) (after : Addr), Statement (.loopInsn g sreg last after) :=
  fun _ _ _ _ h => loopErr_fits (of_wf h)
theorem exit : ∀ (g : GangAt) (qp : Nat) (qn : Bool), Statement (.exit g qp qn) :=
  fun _ _ _ h => predErr_fits (of_wf h)
theorem addScalar : ∀ (g : GangAt) (f : VForm), Statement (.addScalar g f) :=
  fun _ _ h => specS_tyWide_fits (of_wf h)
theorem subScalar : ∀ (g : GangAt) (f : VForm), Statement (.subScalar g f) :=
  fun _ _ h => specS_tyWide_fits (of_wf h)
theorem mulScalar : ∀ (g : GangAt) (f : VForm), Statement (.mulScalar g f) :=
  fun _ _ h => specS_tyWide_fits (of_wf h)
theorem mulhiScalar : ∀ (g : GangAt) (f : VForm), Statement (.mulhiScalar g f) :=
  fun _ _ h => specS_tyWide_fits (of_wf h)
theorem andScalar : ∀ (g : GangAt) (f : VForm), Statement (.andScalar g f) :=
  fun _ _ h => specS_tyInts_fits (of_wf h)
theorem orScalar : ∀ (g : GangAt) (f : VForm), Statement (.orScalar g f) :=
  fun _ _ h => specS_tyInts_fits (of_wf h)
theorem xorScalar : ∀ (g : GangAt) (f : VForm), Statement (.xorScalar g f) :=
  fun _ _ h => specS_tyInts_fits (of_wf h)
theorem shlScalar : ∀ (g : GangAt) (f : VForm), Statement (.shlScalar g f) :=
  fun _ _ h => specS_tyInts_fits (of_wf h)
theorem shrScalar : ∀ (g : GangAt) (f : VForm), Statement (.shrScalar g f) :=
  fun _ _ h => specS_tyInts_fits (of_wf h)
theorem sarScalar : ∀ (g : GangAt) (f : VForm), Statement (.sarScalar g f) :=
  fun _ _ h => specS_tyInts_fits (of_wf h)
theorem minScalar : ∀ (g : GangAt) (f : VForm), Statement (.minScalar g f) :=
  fun _ _ h => specS_tyInts_fits (of_wf h)
theorem maxScalar : ∀ (g : GangAt) (f : VForm), Statement (.maxScalar g f) :=
  fun _ _ h => specS_tyInts_fits (of_wf h)
theorem movScalar : ∀ (g : GangAt) (f : VForm), Statement (.movScalar g f) :=
  fun _ _ h => specMovS_fits (of_wf h)
theorem caddr : ∀ (g : GangAt) (f : VForm) (constBase : Addr), Statement (.caddr g f constBase) :=
  fun _ _ _ h => specCaddr_fits (of_wf h)
theorem addVector : ∀ (g : GangAt) (f : VForm), Statement (.addVector g f) :=
  fun _ _ h => specV_tyWide_fits (of_wf h)
theorem subVector : ∀ (g : GangAt) (f : VForm), Statement (.subVector g f) :=
  fun _ _ h => specV_tyWide_fits (of_wf h)
theorem mulVector : ∀ (g : GangAt) (f : VForm), Statement (.mulVector g f) :=
  fun _ _ h => specV_0_1_fits (of_wf h)
theorem mulhiVector : ∀ (g : GangAt) (f : VForm), Statement (.mulhiVector g f) :=
  fun _ _ h => specV_0_1_fits (of_wf h)
theorem andVector : ∀ (g : GangAt) (f : VForm), Statement (.andVector g f) :=
  fun _ _ h => specV_tyInts_fits (of_wf h)
theorem orVector : ∀ (g : GangAt) (f : VForm), Statement (.orVector g f) :=
  fun _ _ h => specV_tyInts_fits (of_wf h)
theorem xorVector : ∀ (g : GangAt) (f : VForm), Statement (.xorVector g f) :=
  fun _ _ h => specV_tyInts_fits (of_wf h)
theorem shlVector : ∀ (g : GangAt) (f : VForm), Statement (.shlVector g f) :=
  fun _ _ h => specV_tyInts_fits (of_wf h)
theorem shrVector : ∀ (g : GangAt) (f : VForm), Statement (.shrVector g f) :=
  fun _ _ h => specV_tyInts_fits (of_wf h)
theorem sarVector : ∀ (g : GangAt) (f : VForm), Statement (.sarVector g f) :=
  fun _ _ h => specV_tyInts_fits (of_wf h)
theorem minVector : ∀ (g : GangAt) (f : VForm), Statement (.minVector g f) :=
  fun _ _ h => specV_tyInts_fits (of_wf h)
theorem maxVector : ∀ (g : GangAt) (f : VForm), Statement (.maxVector g f) :=
  fun _ _ h => specV_tyInts_fits (of_wf h)
theorem movVector : ∀ (g : GangAt) (f : VForm), Statement (.movVector g f) :=
  fun _ _ h => specMovV_fits (of_wf h)
theorem sel : ∀ (g : GangAt) (f : VForm), Statement (.sel g f) :=
  fun _ _ h => specSel_fits (of_wf h)
theorem popc : ∀ (g : GangAt) (f : VForm), Statement (.popc g f) :=
  fun _ _ h => specUn_fits (of_wf h)
theorem clz : ∀ (g : GangAt) (f : VForm), Statement (.clz g f) :=
  fun _ _ h => specUn_fits (of_wf h)
theorem fadd : ∀ (g : GangAt) (f : VForm), Statement (.fadd g f) :=
  fun _ _ h => specF2_true_fits (of_wf h)
theorem fsub : ∀ (g : GangAt) (f : VForm), Statement (.fsub g f) :=
  fun _ _ h => specF2_true_fits (of_wf h)
theorem fmul : ∀ (g : GangAt) (f : VForm), Statement (.fmul g f) :=
  fun _ _ h => specF2_true_fits (of_wf h)
theorem ffma : ∀ (g : GangAt) (f : VForm), Statement (.ffma g f) :=
  fun _ _ h => specF3_fits (of_wf h)
theorem fmin : ∀ (g : GangAt) (f : VForm), Statement (.fmin g f) :=
  fun _ _ h => specF2_false_fits (of_wf h)
theorem fmax : ∀ (g : GangAt) (f : VForm), Statement (.fmax g f) :=
  fun _ _ h => specF2_false_fits (of_wf h)
theorem fabs : ∀ (g : GangAt) (f : VForm), Statement (.fabs g f) :=
  fun _ _ h => specF1_false_fits (of_wf h)
theorem fneg : ∀ (g : GangAt) (f : VForm), Statement (.fneg g f) :=
  fun _ _ h => specF1_false_fits (of_wf h)
theorem frcp : ∀ (g : GangAt) (f : VForm), Statement (.frcp g f) :=
  fun _ _ h => specF1_false_fits (of_wf h)
theorem fsqrt : ∀ (g : GangAt) (f : VForm), Statement (.fsqrt g f) :=
  fun _ _ h => specF1_true_fits (of_wf h)
theorem frsq : ∀ (g : GangAt) (f : VForm), Statement (.frsq g f) :=
  fun _ _ h => specF1_false_fits (of_wf h)
theorem fex2 : ∀ (g : GangAt) (f : VForm), Statement (.fex2 g f) :=
  fun _ _ h => specF1_false_fits (of_wf h)
theorem flg2 : ∀ (g : GangAt) (f : VForm), Statement (.flg2 g f) :=
  fun _ _ h => specF1_false_fits (of_wf h)
theorem fdiv : ∀ (g : GangAt) (f : VForm), Statement (.fdiv g f) :=
  fun _ _ h => specF2_true_fits (of_wf h)
theorem cvt : ∀ (g : GangAt) (f : VForm), Statement (.cvt g f) :=
  fun _ _ h => specCvt_fits (of_wf h)
theorem pack : ∀ (g : GangAt) (f : VForm), Statement (.pack g f) :=
  fun _ _ h => specPack_fits (of_wf h)
theorem bperm : ∀ (g : GangAt) (f : VForm), Statement (.bperm g f) :=
  fun _ _ h => specBperm_fits (of_wf h)
theorem shfl : ∀ (g : GangAt) (f : VForm), Statement (.shfl g f) :=
  fun _ _ h => specShfl_fits (of_wf h)
theorem red : ∀ (g : GangAt) (f : VForm), Statement (.red g f) :=
  fun _ _ h => specRed_fits (of_wf h)
theorem setp : ∀ (g : GangAt) (f : VForm), Statement (.setp g f) :=
  fun _ _ h => specSetp_fits (of_wf h)
theorem plog : ∀ (g : GangAt) (f : VForm), Statement (.plog g f) :=
  fun _ _ h => specPlog_fits (of_wf h)
theorem pbal : ∀ (g : GangAt) (f : VForm), Statement (.pbal g f) :=
  fun _ _ h => specPbal_fits (of_wf h)
theorem pset : ∀ (g : GangAt) (f : VForm), Statement (.pset g f) :=
  fun _ _ h => specPset_fits (of_wf h)
theorem scmp : ∀ (g : GangAt) (f : VForm), Statement (.scmp g f) :=
  fun _ _ h => specScmp_fits (of_wf h)
theorem sld : ∀ (g : GangAt) (f : VForm), Statement (.sld g f) :=
  fun _ _ h => slabErr_fits (of_wf h)
theorem sst : ∀ (g : GangAt) (f : VForm), Statement (.sst g f) :=
  fun _ _ h => slabErr_fits (of_wf h)
theorem ld : ∀ (g : GangAt) (f : VForm), Statement (.ld g f) :=
  fun _ _ h => ldErr_fits (of_wf h)
theorem st : ∀ (g : GangAt) (f : VForm), Statement (.st g f) :=
  fun _ _ h => stErr_fits (of_wf h)
theorem atom : ∀ (g : GangAt) (f : VForm), Statement (.atom g f) :=
  fun _ _ h => atomErr_fits (of_wf h)
theorem atomComplete : ∀ (k : Nat), Statement (.atomComplete k) :=
  fun _ _ => trivial
theorem mma : ∀ (g : GangAt) (f : MForm), Statement (.mma g f) :=
  fun _ _ h => mmaErr_fits (of_wf h)
theorem mmaz : ∀ (g : GangAt) (f : MForm), Statement (.mmaz g f) :=
  fun _ _ h => mmaErr_fits (of_wf h)
theorem gangMdrain : ∀ (g : GangAt) (f : MForm), Statement (.gangMdrain g f) :=
  fun _ _ h => mdrainErr_fits (of_wf h)
theorem mclr : ∀ (g : GangAt) (f : MForm), Statement (.mclr g f) :=
  fun _ _ h => mclrErr_fits (of_wf h)
theorem gangMatrixAccept : ∀ (core : Nat) (now : Nat), Statement (.gangMatrixAccept core now) :=
  fun _ _ _ => trivial
theorem tsig : ∀ (g : GangAt) (f : TForm), Statement (.tsig g f) :=
  fun _ _ h => tErr_fits (of_wf h)
theorem twait : ∀ (g : GangAt) (f : TForm), Statement (.twait g f) :=
  fun _ _ h => tErr_fits (of_wf h)
theorem tread : ∀ (g : GangAt) (f : TForm), Statement (.tread g f) :=
  fun _ _ h => tErr_fits (of_wf h)
theorem fenceInsn : ∀ (g : GangAt) (f : FForm), Statement (.fenceInsn g f) :=
  fun _ _ h => fenceErr_fits (of_wf h)
theorem fsig : ∀ (g : GangAt) (f : FForm), Statement (.fsig g f) :=
  fun _ _ h => fobjErr_fits (of_wf h)
theorem fwait : ∀ (g : GangAt) (f : FForm), Statement (.fwait g f) :=
  fun _ _ h => fobjErr_fits (of_wf h)
theorem fwaitPoll : ∀ (core : Nat) (slot : Nat), Statement (.fwaitPoll core slot) :=
  fun _ _ _ => trivial
theorem fenceObjectReply : ∀ (k : Nat), Statement (.fenceObjectReply k) :=
  fun _ _ => trivial
theorem farCacheReleaseDone : ∀ (core : Nat), Statement (.farCacheReleaseDone core) :=
  fun _ _ => trivial
theorem alloc : ∀ (g : GangAt) (f : AForm), Statement (.alloc g f) :=
  fun _ _ h => allocErr_fits (of_wf h)
theorem allocReply : ∀ (k : Nat), Statement (.allocReply k) :=
  fun _ _ => trivial
theorem free : ∀ (g : GangAt) (f : AForm), Statement (.free g f) :=
  fun _ _ h => freeErr_fits (of_wf h)
theorem codeFetch : ∀ (core : Nat) (slot : Nat), Statement (.codeFetch core slot) :=
  fun _ _ _ => trivial
theorem farCacheFill : ∀ (core : Nat) (k : Nat) (hostOk : Bool) (hostData : List Byte), Statement (.farCacheFill core k hostOk hostData) :=
  fun _ _ _ _ _ => trivial
theorem writebackAccept : ∀ (core : Nat) (k : Nat), Statement (.writebackAccept core k) :=
  fun _ _ _ => trivial
theorem gangStart : ∀ (core : Nat), Statement (.gangStart core) :=
  fun _ _ => trivial
theorem launchRetire : ∀ (core : Nat) (id : Nat), Statement (.launchRetire core id) :=
  fun _ _ _ => trivial
theorem launchTimeout : ∀ (core : Nat) (id : Nat) (now : Nat), Statement (.launchTimeout core id now) :=
  fun _ _ _ _ => trivial
theorem qdb : ∀ (ctx : Nat) (qid : Nat) (tail : Nat), Statement (.qdb ctx qid tail) :=
  fun _ _ _ _ => trivial
theorem ringFetch : ∀ (core : Nat) (eng : Nat) (hostOk : Bool) (hostData : List Byte), Statement (.ringFetch core eng hostOk hostData) :=
  fun _ _ _ _ _ => trivial
theorem nopRec : ∀ (core : Nat) (eng : Nat), Statement (.nopRec core eng) :=
  fun _ _ _ => trivial
theorem waitRec : ∀ (core : Nat) (eng : Nat), Statement (.waitRec core eng) :=
  fun _ _ _ => trivial
theorem signalRec : ∀ (core : Nat) (eng : Nat), Statement (.signalRec core eng) :=
  fun _ _ _ => trivial
theorem barrierRec : ∀ (core : Nat) (eng : Nat), Statement (.barrierRec core eng) :=
  fun _ _ _ => trivial
theorem rebaseRec : ∀ (core : Nat) (eng : Nat), Statement (.rebaseRec core eng) :=
  fun _ _ _ => trivial
theorem loopRec : ∀ (core : Nat) (eng : Nat), Statement (.loopRec core eng) :=
  fun _ _ _ => trivial
theorem loopCountRead : ∀ (core : Nat) (eng : Nat), Statement (.loopCountRead core eng) :=
  fun _ _ _ => trivial
theorem phaseRec : ∀ (core : Nat) (eng : Nat), Statement (.phaseRec core eng) :=
  fun _ _ _ => trivial
theorem phaseMark : ∀ (die : Nat) (now : Nat), Statement (.phaseMark die now) :=
  fun _ _ _ => trivial
theorem powerRec : ∀ (core : Nat) (eng : Nat), Statement (.powerRec core eng) :=
  fun _ _ _ => trivial
theorem bankOff : ∀ (core : Nat) (bank : Nat), Statement (.bankOff core bank) :=
  fun _ _ _ => trivial
theorem bankOn : ∀ (core : Nat) (bank : Nat), Statement (.bankOn core bank) :=
  fun _ _ _ => trivial
theorem clearFlags : ∀ (core : Nat) (eng : Nat), Statement (.clearFlags core eng) :=
  fun _ _ _ => trivial
theorem fenceRec : ∀ (core : Nat) (eng : Nat), Statement (.fenceRec core eng) :=
  fun _ _ _ => trivial
theorem launchRec : ∀ (core : Nat) (eng : Nat), Statement (.launchRec core eng) :=
  fun _ _ _ => trivial
theorem matmul : ∀ (core : Nat) (eng : Nat), Statement (.matmul core eng) :=
  fun _ _ _ => trivial
theorem chuteStarve : ∀ (core : Nat), Statement (.chuteStarve core) :=
  fun _ _ => trivial
theorem matmulRetire : ∀ (core : Nat), Statement (.matmulRetire core) :=
  fun _ _ => trivial
theorem mdrain : ∀ (core : Nat) (eng : Nat), Statement (.mdrain core eng) :=
  fun _ _ _ => trivial
theorem mclear : ∀ (core : Nat) (eng : Nat), Statement (.mclear core eng) :=
  fun _ _ _ => trivial
theorem gangWindow : ∀ (core : Nat) (eng : Nat), Statement (.gangWindow core eng) :=
  fun _ _ _ => trivial
theorem gangWindowClose : ∀ (core : Nat) (now : Nat), Statement (.gangWindowClose core now) :=
  fun _ _ _ => trivial
theorem move : ∀ (core : Nat) (eng : Nat), Statement (.move core eng) :=
  fun _ _ _ => trivial
theorem moveRequestComplete : ∀ (core : Nat) (eng : Nat) (k : Nat), Statement (.moveRequestComplete core eng k) :=
  fun _ _ _ _ => trivial
theorem fallbackSlab : ∀ (core : Nat) (eng : Nat) (k : Nat), Statement (.fallbackSlab core eng k) :=
  fun _ _ _ _ => trivial
theorem creditReturn : ∀ (core : Nat) (eng : Nat), Statement (.creditReturn core eng) :=
  fun _ _ _ => trivial
theorem landingWrite : ∀ (core : Nat) (slot : Bool), Statement (.landingWrite core slot) :=
  fun _ _ _ => trivial
theorem unplannedGrant : ∀ (core : Nat) (rdFree : Nat) (wrFree : Bool) (busy : W32), Statement (.unplannedGrant core rdFree wrFree busy) :=
  fun _ _ _ _ _ => trivial
theorem eccRewrite : ∀ (core : Nat) (wrFree : Bool), Statement (.eccRewrite core wrFree) :=
  fun _ _ _ => trivial
theorem remoteSlabAccess : ∀ (k : Nat), Statement (.remoteSlabAccess k) :=
  fun _ _ => trivial
theorem hostPageCheck : ∀ (core : Nat) (unit : Nat) (id : Nat) (page : Nat) (ok : Bool) (data : List Byte), Statement (.hostPageCheck core unit id page ok data) :=
  fun _ _ _ _ _ _ _ => trivial
theorem contextSuspend : ∀ (ctx : Nat) (now : Nat), Statement (.contextSuspend ctx now) :=
  fun _ _ _ => trivial
theorem tokenArrival : ∀ (k : Nat), Statement (.tokenArrival k) :=
  fun _ _ => trivial
theorem tallyOperation : ∀ (k : Nat), Statement (.tallyOperation k) :=
  fun _ _ => trivial
theorem watch : ∀ (k : Nat), Statement (.watch k) :=
  fun _ _ => trivial
theorem watchRetry : ∀ (k : Nat), Statement (.watchRetry k) :=
  fun _ _ => trivial
theorem wake : ∀ (k : Nat), Statement (.wake k) :=
  fun _ _ => trivial
theorem syncTimeout : ∀ (core : Nat) (unit : Nat) (now : Nat), Statement (.syncTimeout core unit now) :=
  fun _ _ _ _ => trivial
theorem barrierArrival : ∀ (k : Nat), Statement (.barrierArrival k) :=
  fun _ _ => trivial
theorem barrierRelease : ∀ (k : Nat), Statement (.barrierRelease k) :=
  fun _ _ => trivial
theorem queueCommit : ∀ (core : Nat) (eng : Nat), Statement (.queueCommit core eng) :=
  fun _ _ _ => trivial
theorem queueCommitEffect : ∀ (core : Nat) (eng : Nat), Statement (.queueCommitEffect core eng) :=
  fun _ _ _ => trivial
theorem halt : ∀ (core : Nat) (eng : Nat) (value : Bool), Statement (.halt core eng value) :=
  fun _ _ _ _ => trivial
theorem stepOne : ∀ (core : Nat) (eng : Nat), Statement (.stepOne core eng) :=
  fun _ _ _ => trivial
theorem brkEn : ∀ (core : Nat) (eng : Nat) (value : Bool), Statement (.brkEn core eng value) :=
  fun _ _ _ _ => trivial
theorem cvtCommit : ∀ (core : Nat) (mask : Nat), Statement (.cvtCommit core mask) :=
  fun _ _ _ => trivial
theorem placementAttempt : ∀ (now : Nat), Statement (.placementAttempt now) :=
  fun _ _ => trivial
theorem switchOut : ∀ (ctx : Nat), Statement (.switchOut ctx) :=
  fun _ _ => trivial
theorem windowApply : ∀ (ctx : Nat), Statement (.windowApply ctx) :=
  fun _ _ => trivial
theorem contextKill : ∀ (ctx : Nat), Statement (.contextKill ctx) :=
  fun _ _ => trivial
theorem killDrainDone : ∀ (ctx : Nat), Statement (.killDrainDone ctx) :=
  fun _ _ => trivial
theorem refBatchRetire : ∀ (ctx : Nat) (k : Nat), Statement (.refBatchRetire ctx k) :=
  fun _ _ _ => trivial
theorem setTables : Statement (.setTables) :=
  fun _ => trivial
theorem ctxStart : Statement (.ctxStart) :=
  fun _ => trivial
theorem ctxHold : Statement (.ctxHold) :=
  fun _ => trivial
theorem ctxResume : Statement (.ctxResume) :=
  fun _ => trivial
theorem ctxKill : Statement (.ctxKill) :=
  fun _ => trivial
theorem ctxDestroy : Statement (.ctxDestroy) :=
  fun _ => trivial
theorem setWindow : Statement (.setWindow) :=
  fun _ => trivial
theorem ctxAck : Statement (.ctxAck) :=
  fun _ => trivial
theorem objCreate : Statement (.objCreate) :=
  fun _ => trivial
theorem objHostZero : Statement (.objHostZero) :=
  fun _ => trivial
theorem refBatch : Statement (.refBatch) :=
  fun _ => trivial
theorem bar2Read : ∀ (offset : Nat) (size : Nat), Statement (.bar2Read offset size) :=
  fun _ _ _ => trivial
theorem bar2Write : ∀ (offset : Nat) (data : List Byte), Statement (.bar2Write offset data) :=
  fun _ _ _ => trivial
theorem functionReset : Statement (.functionReset) :=
  fun _ => trivial
theorem perstAssert : Statement (.perstAssert) :=
  fun _ => trivial
theorem perstDeassert : ∀ (now : Nat), Statement (.perstDeassert now) :=
  fun _ _ => trivial
theorem evqCommit : Statement (.evqCommit) :=
  fun _ => trivial
theorem mailboxSend : ∀ (channel : Nat) (sender : Nat) (header : Nat), Statement (.mailboxSend channel sender header) :=
  fun _ _ _ _ => trivial
theorem rpop : ∀ (channel : Nat), Statement (.rpop channel) :=
  fun _ _ => trivial
theorem dbClr : ∀ (mask : W32) (sets : W32), Statement (.dbClr mask sets) :=
  fun _ _ _ => trivial
theorem place : ∀ (now : Nat), Statement (.place now) :=
  fun _ _ => trivial
theorem driverDown : Statement (.driverDown) :=
  fun _ => trivial
theorem sense : Statement (.sense) :=
  fun _ => trivial
theorem links : Statement (.links) :=
  fun _ => trivial
theorem dbStray : ∀ (core : Nat) (bit : Nat), Statement (.dbStray core bit) :=
  fun _ _ _ => trivial
theorem trainingAttempt : ∀ (port : Nat) (ok : Bool) (peerNode : Nat) (peerPort : Nat) (peerSerial : List Byte), Statement (.trainingAttempt port ok peerNode peerPort peerSerial) :=
  fun _ _ _ _ _ _ => trivial
theorem trainingRetry : ∀ (port : Nat), Statement (.trainingRetry port) :=
  fun _ _ => trivial
theorem portLeaveUp : ∀ (port : Nat) (cause : LeaveCause), Statement (.portLeaveUp port cause) :=
  fun _ _ _ => trivial
theorem codewordUncorrectable : ∀ (port : Nat), Statement (.codewordUncorrectable port) :=
  fun _ _ => trivial
theorem link : ∀ (port : Nat) (h : LinkFrame), Statement (.link port h) :=
  fun _ _ _ => trivial
theorem retryTimeout : ∀ (port : Nat), Statement (.retryTimeout port) :=
  fun _ _ => trivial
theorem forwardTimeout : ∀ (port : Nat) (k : Nat), Statement (.forwardTimeout port k) :=
  fun _ _ _ => trivial
theorem claim : ∀ (port : Nat) (f : Frame), Statement (.claim port f) :=
  fun _ _ _ => trivial
theorem claimAck : ∀ (port : Nat) (f : Frame), Statement (.claimAck port f) :=
  fun _ _ _ => trivial
theorem claimRetry : ∀ (id : Nat), Statement (.claimRetry id) :=
  fun _ _ => trivial
theorem writeFrame : ∀ (port : Nat) (f : Frame), Statement (.writeFrame port f) :=
  fun _ _ _ => trivial
theorem commitAck : ∀ (port : Nat) (f : Frame), Statement (.commitAck port f) :=
  fun _ _ _ => trivial
theorem claimEnd : ∀ (port : Nat) (f : Frame), Statement (.claimEnd port f) :=
  fun _ _ _ => trivial
theorem signalFrame : ∀ (port : Nat) (f : Frame), Statement (.signalFrame port f) :=
  fun _ _ _ => trivial
theorem signalAck : ∀ (port : Nat) (f : Frame), Statement (.signalAck port f) :=
  fun _ _ _ => trivial
theorem resendTimeout : ∀ (signals : Bool) (id : Nat), Statement (.resendTimeout signals id) :=
  fun _ _ _ => trivial
theorem hello : ∀ (port : Nat) (f : Frame), Statement (.hello port f) :=
  fun _ _ _ => trivial
theorem heartbeat : ∀ (port : Nat) (f : Frame) (now : Nat), Statement (.heartbeat port f now) :=
  fun _ _ _ _ => trivial
theorem heartbeatTimer : ∀ (now : Nat), Statement (.heartbeatTimer now) :=
  fun _ _ => trivial
theorem partnerLost : ∀ (now : Nat), Statement (.partnerLost now) :=
  fun _ _ => trivial
theorem epochPoll : Statement (.epochPoll) :=
  fun _ => trivial
theorem mirrorWrite : ∀ (port : Nat) (f : Frame), Statement (.mirrorWrite port f) :=
  fun _ _ _ => trivial
theorem mirrorAck : ∀ (port : Nat) (f : Frame), Statement (.mirrorAck port f) :=
  fun _ _ _ => trivial
theorem settle : ∀ (port : Nat) (f : Frame), Statement (.settle port f) :=
  fun _ _ _ => trivial
theorem settleAck : ∀ (port : Nat) (f : Frame), Statement (.settleAck port f) :=
  fun _ _ _ => trivial
theorem restoreReq : ∀ (port : Nat) (f : Frame), Statement (.restoreReq port f) :=
  fun _ _ _ => trivial
theorem routeLoad : Statement (.routeLoad) :=
  fun _ => trivial
theorem jobSet : Statement (.jobSet) :=
  fun _ => trivial
theorem jobClear : Statement (.jobClear) :=
  fun _ => trivial
theorem mirrorSet : Statement (.mirrorSet) :=
  fun _ => trivial
theorem mirrorClear : Statement (.mirrorClear) :=
  fun _ => trivial
theorem shadowSet : Statement (.shadowSet) :=
  fun _ => trivial
theorem restore : Statement (.restore) :=
  fun _ => trivial
theorem retrain : Statement (.retrain) :=
  fun _ => trivial
theorem portRetrain : ∀ (port : Nat), Statement (.portRetrain port) :=
  fun _ _ => trivial
theorem removeReq : ∀ (now : Nat), Statement (.removeReq now) :=
  fun _ _ => trivial
theorem removalSettleTimeout : ∀ (now : Nat), Statement (.removalSettleTimeout now) :=
  fun _ _ => trivial
theorem removalDrainTimeout : ∀ (now : Nat), Statement (.removalDrainTimeout now) :=
  fun _ _ => trivial
theorem removalSafe : ∀ (now : Nat), Statement (.removalSafe now) :=
  fun _ _ => trivial
theorem removeCancel : ∀ (now : Nat), Statement (.removeCancel now) :=
  fun _ _ => trivial
theorem controlPeriod : ∀ (now : Nat) (x : Samples), Statement (.controlPeriod now x) :=
  fun _ _ _ => trivial
theorem fanFault : ∀ (fan : Nat) (now : Nat), Statement (.fanFault fan now) :=
  fun _ _ _ => trivial
theorem flowFault : ∀ (now : Nat), Statement (.flowFault now) :=
  fun _ _ => trivial
theorem modelMismatch : ∀ (now : Nat), Statement (.modelMismatch now) :=
  fun _ _ => trivial
theorem modelMismatchClear : Statement (.modelMismatchClear) :=
  fun _ => trivial
theorem forecastPublish : ∀ (now : Nat), Statement (.forecastPublish now) :=
  fun _ _ => trivial
theorem ceilingCommit : Statement (.ceilingCommit) :=
  fun _ => trivial
theorem tripHot : ∀ (die : Nat) (eighths : Nat) (now : Nat), Statement (.tripHot die eighths now) :=
  fun _ _ _ _ => trivial
theorem tripHotRelease : ∀ (die : Nat) (eighths : Nat) (now : Nat), Statement (.tripHotRelease die eighths now) :=
  fun _ _ _ _ => trivial
theorem busTrip : ∀ (cv : Nat) (now : Nat), Statement (.busTrip cv now) :=
  fun _ _ _ => trivial
theorem busTripRelease : ∀ (cv : Nat), Statement (.busTripRelease cv) :=
  fun _ _ => trivial
theorem shutdown : ∀ (bus : Bool) (die : Nat) (reading : Nat), Statement (.shutdown bus die reading) :=
  fun _ _ _ _ => trivial
theorem breach : ∀ (cv : Nat), Statement (.breach cv) :=
  fun _ _ => trivial
theorem inputOvervoltage : ∀ (cv : Nat), Statement (.inputOvervoltage cv) :=
  fun _ _ => trivial
theorem inputRestart : ∀ (cv : Nat), Statement (.inputRestart cv) :=
  fun _ _ => trivial
theorem inputLoss : ∀ (cv : Nat), Statement (.inputLoss cv) :=
  fun _ _ => trivial
theorem auxPowerLoss : Statement (.auxPowerLoss) :=
  fun _ => trivial
theorem getStatus : Statement (.getStatus) :=
  fun _ => trivial
theorem getForecast : Statement (.getForecast) :=
  fun _ => trivial
theorem coldReset : ∀ (slotPins : Nat), Statement (.coldReset slotPins) :=
  fun _ _ => trivial
theorem siteImageApply : ∀ (copyA : List Byte) (copyB : List Byte) (readsB : Bool), Statement (.siteImageApply copyA copyB readsB) :=
  fun _ _ _ _ => trivial
theorem fallback : Statement (.fallback) :=
  fun _ => trivial
theorem gatekeeperOnly : ∀ (now : Nat), Statement (.gatekeeperOnly now) :=
  fun _ _ => trivial
theorem busPrechargeDone : Statement (.busPrechargeDone) :=
  fun _ => trivial
theorem dieResetRelease : ∀ (die : Nat), Statement (.dieResetRelease die) :=
  fun _ _ => trivial
theorem farMemoryReady : Statement (.farMemoryReady) :=
  fun _ => trivial
theorem warmReset : ∀ (key : Nat) (warm : Bool), Statement (.warmReset key warm) :=
  fun _ _ _ => trivial
theorem timeBaseCorrection : Statement (.timeBaseCorrection) :=
  fun _ => trivial
theorem scrub : ∀ (channel : Nat) (block : Nat), Statement (.scrub channel block) :=
  fun _ _ _ => trivial
theorem refreshRatePoll : ∀ (controller : Nat) (hot : Bool), Statement (.refreshRatePoll controller hot) :=
  fun _ _ _ => trivial
theorem wckRetune : ∀ (channel : Nat) (running : Bool), Statement (.wckRetune channel running) :=
  fun _ _ _ => trivial
theorem fwBegin : Statement (.fwBegin) :=
  fun _ => trivial
theorem fwData : Statement (.fwData) :=
  fun _ => trivial
theorem fwEnd : Statement (.fwEnd) :=
  fun _ => trivial
theorem fwCommit : Statement (.fwCommit) :=
  fun _ => trivial
theorem ownerProgram : Statement (.ownerProgram) :=
  fun _ => trivial
theorem ownerRevoke : Statement (.ownerRevoke) :=
  fun _ => trivial
theorem attest : Statement (.attest) :=
  fun _ => trivial
theorem getCert : Statement (.getCert) :=
  fun _ => trivial
theorem getMark : Statement (.getMark) :=
  fun _ => trivial
theorem getTrust : Statement (.getTrust) :=
  fun _ => trivial
theorem mbSend : ∀ (pecOk : Bool) (channel : Nat) (words : List W32), Statement (.mbSend pecOk channel words) :=
  fun _ _ _ _ => trivial
theorem mbRecv : ∀ (pecOk : Bool) (channel : Nat), Statement (.mbRecv pecOk channel) :=
  fun _ _ _ => trivial
theorem bufSeek : ∀ (pecOk : Bool) (offset : Nat), Statement (.bufSeek pecOk offset) :=
  fun _ _ _ => trivial
theorem bufRead : ∀ (pecOk : Bool), Statement (.bufRead pecOk) :=
  fun _ _ => trivial
theorem bufWrite : ∀ (pecOk : Bool) (data : List Byte), Statement (.bufWrite pecOk data) :=
  fun _ _ _ => trivial
theorem status : ∀ (pecOk : Bool), Statement (.status pecOk) :=
  fun _ _ => trivial
theorem selfTestComplete : ∀ (cores : List CoreFail) (bridges : List Nat), Statement (.selfTestComplete cores bridges) :=
  fun _ _ _ => trivial
theorem clear : ∀ (core : Nat), Statement (.clear core) :=
  fun _ _ => trivial
theorem traceDrain : ∀ (core : Nat), Statement (.traceDrain core) :=
  fun _ _ => trivial
theorem traceChunkDone : ∀ (core : Nat), Statement (.traceChunkDone core) :=
  fun _ _ => trivial
theorem traceCommit : ∀ (core : Nat), Statement (.traceCommit core) :=
  fun _ _ => trivial
theorem ctxHalt : ∀ (ctx : Nat) (value : Bool), Statement (.ctxHalt ctx value) :=
  fun _ _ _ => trivial
theorem soundingCommit : ∀ (port : Nat), Statement (.soundingCommit port) :=
  fun _ _ => trivial
theorem inject : ∀ (port : Nat), Statement (.inject port) :=
  fun _ _ => trivial
theorem start : ∀ (bridge : Nat), Statement (.start bridge) :=
  fun _ _ => trivial
theorem bridgeSoundingEnd : ∀ (bridge : Nat), Statement (.bridgeSoundingEnd bridge) :=
  fun _ _ => trivial
theorem completionTimeout : ∀ (core : Nat) (unit : Nat) (id : Nat) (page : Nat), Statement (.completionTimeout core unit id page) :=
  fun _ _ _ _ _ => trivial
theorem lock : ∀ (bridge : Bool) (port : Nat) (lane : Nat), Statement (.lock bridge port lane) :=
  fun _ _ _ _ => trivial
theorem lost : ∀ (port : Nat) (lane : Nat), Statement (.lost port lane) :=
  fun _ _ _ => trivial
theorem counterRecordWrite : ∀ (core : Nat), Statement (.counterRecordWrite core) :=
  fun _ _ => trivial
theorem inputApplied : ∀ (cv : Nat), Statement (.inputApplied cv) :=
  fun _ _ => trivial
theorem linkTrained : ∀ (speed : Nat) (width : Nat) (flit : Bool), Statement (.linkTrained speed width flit) :=
  fun _ _ _ _ => trivial
theorem remoteSldReply : ∀ (k : Nat), Statement (.remoteSldReply k) :=
  fun _ _ => trivial
theorem treadReply : ∀ (k : Nat), Statement (.treadReply k) :=
  fun _ _ => trivial
theorem epochRecord : ∀ (core : Nat), Statement (.epochRecord core) :=
  fun _ _ => trivial

end Sys2Proof.Laws.WellFormedShape
end

