-- ==== Sys2Proof/Tests/Slice0.lean ====
section
/-!
SUPPORT. Tests: ill-formed instructions that the loader's checks refuse; for every statement with hypotheses a concrete state
and operands that meet them (theorems met_…, by the name of the statement in the namespace Claims); and single commands
whose results are worked out by hand from the rule that each test names.
-/

namespace Sys2Proof.Tests

open Machine Claims

/-! ### Small states -/

/-- A resident gang at address 0x100: s1 = 5, s2 = 7, s4 = 0x1040, s5 the address of slab 0 of core 0, s6 of core 1, p1 = 3. -/
def gang0 : Gang :=
  { live := true, mask := 0xFFFFFFFF, pc := 0x100, s := [(1, 5), (2, 7), (4, 0x1040), (5, 0x100000000000), (6, 0x100001000000)], p := [(1, 3)] }
/-- Its instruction is followed by the one at 0x108. -/
def at0 : GangAt := ⟨0, 0, 0x108⟩
/-- Rights to the first mebibyte of far memory and to the slabs of cores 0 and 1. -/
def windows0 : Tbl Window :=
  [(0, { base := 0, bound := 16, r := true, w := true, valid := true }), (1, { base := 0x10000000, bound := 0x10000200, r := true, w := true, valid := true })]
/-- A placed context on cores 0 and 1; tally 1 has its home in core 0, tally 2 in the hub, tally 3 too. -/
def ctx0 : Ctx :=
  { state := .placed, bench := [0, 1], windows := windows0, tmap := [(1, ⟨false, 0, 4⟩), (2, ⟨true, 0, 6⟩), (3, ⟨true, 0, 7⟩)], units := [(0, 9)] }
/-- Core 0 is held by context 1 and has the gang in slot 0. -/
def core0 (x : Gang) : Core := { ctx := some 1, ge := { slots := [(0, x)], ibuf := [0x100] } }
def stateOf (k : Core) : State := { cores := [(0, k)], ctxs := [(1, ctx0)], dies := [(0, { released := true })] }
def gangState (x : Gang) : State := stateOf (core0 x)
def base0 : State := gangState gang0

/-! ### Well-formed instructions: one ill-formed term for each check of the loader (03_sett R70 to R91, R98) -/

theorem test_wf_accepts : (Instr.addScalar at0 { d := 3, a := 1, b := 2 }).wf = true ∧ (Instr.registerWrite 0 4 0).wf = true := by decide
theorem test_wf_pred : (Instr.addVector at0 { qn := true }).wf = false ∧ (Instr.addScalar at0 { qp := 1 }).wf = false := by decide
theorem test_wf_type : (Instr.fadd at0 { ty := 0 }).wf = false ∧ (Instr.mulVector at0 { ty := 2 }).wf = false := by decide
theorem test_wf_round : (Instr.fadd at0 { ty := 4, rnd := 2 }).wf = false ∧ (Instr.fmin at0 { ty := 4, rnd := 1 }).wf = false := by decide
theorem test_wf_reserved : (Instr.fadd at0 { ty := 4, sat := true }).wf = false ∧ (Instr.addVector at0 { opx := 1 }).wf = false := by decide
theorem test_wf_operand : (Instr.addScalar at0 { a := 75 }).wf = false ∧ (Instr.plog at0 { a := 8 }).wf = false := by decide
theorem test_wf_special : (Instr.addScalar at0 { d := 64 }).wf = false ∧ (Instr.addScalar at0 { b := 64 }).wf = false := by decide
theorem test_wf_align : (Instr.addVector at0 { ty := 2, d := 1 }).wf = false ∧ (Instr.sld at0 { d := 2 }).wf = false := by decide
theorem test_wf_imm : (Instr.popc at0 { ib := true }).wf = false ∧ (Instr.sld at0 { ib := true }).wf = false := by decide
theorem test_wf_memory : (Instr.ld at0 { opx := 5, a := 0 }).wf = false ∧ (Instr.st at0 { d := 1 }).wf = false ∧ (Instr.atom at0 { opx := 8 + 2 }).wf = false := by decide
theorem test_wf_matrix : (Instr.mma at0 { fa := 0, fb := 2 }).wf = false ∧ (Instr.mma at0 { x := 1 }).wf = false ∧ (Instr.mclr at0 { ns := 3 }).wf = false := by decide
theorem test_wf_sync : (Instr.tsig at0 { tid := 4096 }).wf = false ∧ (Instr.fenceInsn at0 { sc := 3 }).wf = false ∧ (Instr.alloc at0 { pool := 2 }).wf = false ∧ (Instr.free at0 { aln := 1 }).wf = false := by decide
theorem test_wf_control : (Instr.br at0 8 false 0 0).wf = false ∧ (Instr.loopInsn at0 64 0 0).wf = false ∧ (Instr.exit at0 0 true).wf = false := by decide

/-! ### Gang instructions: states that meet the hypotheses of their statements -/

theorem met_ScalarInt : ∀ r ∈ scalarRows, Issues base0 at0 (r.instr at0 { d := 3, a := 1, b := 2 }) (vUse r.spec { d := 3, a := 1, b := 2 }) 1 ∨
    Issues base0 at0 (r.instr at0 { d := 3, b := 2 }) (vUse r.spec { d := 3, b := 2 }) 1 := by unfold scalarRows Issues; decide
theorem met_CaddrRuns : Issues base0 at0 (.caddr at0 { d := 3, b := 2, ty := 2 } 0x4000) (vUse specCaddr { d := 3, b := 2, ty := 2 }) 1 := by unfold Issues; decide
theorem met_VectorInt : ∀ r ∈ vectorRows, Issues base0 at0 (r.instr at0 { d := 3, b := 2 }) (vUse r.spec { d := 3, b := 2 }) 1 := by unfold vectorRows Issues; decide
theorem met_LaneRuns : ∀ r ∈ laneRows, ∃ f, Issues base0 at0 (r.instr at0 f) (vUse r.spec f) 1 := by
  intro r hr
  simp only [laneRows, List.mem_cons, List.not_mem_nil, or_false] at hr
  rcases hr with rfl | rfl | rfl | rfl | rfl
  · exact ⟨{ d := 3, a := 1, b := 2, opx := 1 }, by unfold Issues; decide⟩
  · exact ⟨{ d := 3, a := 1 }, by unfold Issues; decide⟩
  · exact ⟨{ d := 3, a := 1 }, by unfold Issues; decide⟩
  · exact ⟨{ d := 3, a := 1, b := 2, ty := 11 }, by unfold Issues; decide⟩
  · exact ⟨{ d := 3, a := 1, b := 2, c := 4 }, by unfold Issues; decide⟩
theorem met_ShflRuns : Issues base0 at0 (.shfl at0 { d := 3, a := 1, b := 2, opx := 3 }) (vUse specShfl { d := 3, a := 1, b := 2, opx := 3 }) 1 := by unfold Issues; decide
theorem met_RedRuns : Issues base0 at0 (.red at0 { d := 3, a := 1, opx := 4 }) (vUse specRed { d := 3, a := 1, opx := 4 }) 1 := by unfold Issues; decide
theorem met_FloatRuns : ∀ r ∈ floatRows, ∃ f, Issues base0 at0 (r.instr at0 f) (vUse r.spec f) 1 := by
  intro r hr
  refine ⟨{ d := 3, a := 1, ty := 4 }, ?_⟩
  revert r
  unfold floatRows Issues
  decide
theorem met_CvtRuns : Issues base0 at0 (.cvt at0 { d := 3, a := 1, ty := 7, opx := 4, rnd := 2 }) (vUse specCvt { d := 3, a := 1, ty := 7, opx := 4, rnd := 2 }) 1 := by unfold Issues; decide
theorem met_SetpRuns : Issues base0 at0 (.setp at0 { d := 2, a := 1, b := 2, opx := 5 }) (vUse specSetp { d := 2, a := 1, b := 2, opx := 5 }) 1 := by unfold Issues; decide
theorem met_PlogRuns : Issues base0 at0 (.plog at0 { d := 2, a := 1, b := 1, opx := 5 }) (vUse specPlog { d := 2, a := 1, b := 1, opx := 5 }) 1 := by unfold Issues; decide
theorem met_PbalRuns : Issues base0 at0 (.pbal at0 { d := 2, a := 1 }) (vUse specPbal { d := 2, a := 1 }) 1 := by unfold Issues; decide
theorem met_PsetRuns : Issues base0 at0 (.pset at0 { d := 0, b := 1 }) (vUse specPset { d := 0, b := 1 }) 1 := by unfold Issues; decide
theorem met_ScmpRuns : Issues base0 at0 (.scmp at0 { d := 2, a := 1, b := 2, opx := 5 }) (vUse specScmp { d := 2, a := 1, b := 2, opx := 5 }) 1 := by unfold Issues; decide
theorem met_NanIsCanonical : (0x7FC00000 : Nat) ∈ fpResults .nearest 0x7F800000 0xFF800000 0 ∧ isNan32 0x7FC00000 := by unfold isNan32; decide
theorem met_NopInsnRuns : Issues base0 at0 (.nopInsn at0) {} 1 := by unfold Issues; decide
theorem met_BraRuns : Issues base0 at0 (.bra at0 0x200) {} 1 := by unfold Issues; decide
/-- p1 holds lanes 0 and 1, p0 all, p2 none: the three outcomes of BR. -/
theorem met_BrRuns : Issues base0 at0 (.br at0 1 false 0x200 0x300) {} 1 ∧ gang0.mask &&& gang0.getP 0 = gang0.mask ∧ gang0.mask &&& gang0.getP 2 = 0 ∧
    (gang0.mask &&& gang0.getP 1 ≠ gang0.mask ∧ gang0.mask &&& gang0.getP 1 ≠ 0 ∧ (branchStack gang0 (gang0.mask &&& gang0.getP 1) 0x200 0x300).length ≤ 32) := by unfold Issues; decide
theorem met_LoopInsnRuns : Issues base0 at0 (.loopInsn at0 1 0x140 0x148) { sr := [1] } 1 ∧ ((gang0.getS 1).setWidth 32).toNat ≠ 0 ∧ gang0.lstack.length < 4 ∧
    Issues base0 at0 (.loopInsn at0 9 0x140 0x148) { sr := [9] } 1 ∧ ((gang0.getS 9).setWidth 32).toNat = 0 := by unfold Issues; decide
theorem met_ExitRuns : Issues base0 at0 (.exit at0 1 false) {} 1 ∧ gang0.mask &&& ~~~(gang0.execLanes 1 false) ≠ 0 ∧ gang0.mask &&& ~~~(gang0.execLanes 0 false) = 0 := by unfold Issues; decide
theorem met_IllegalFaults : ∀ r ∈ scalarRows ++ vectorRows, base0.gangReady at0 (vUse r.spec { rnd := 3 }) = some 1 ∧ (r.instr at0 { rnd := 3 }).loadErr ≠ none ∧ (base0.ctx 1).fault = none := by
  unfold scalarRows vectorRows; decide

/-- A context with X rights, a gang whose instruction is not in the buffer, and a launch of two gangs. -/
def startState : State :=
  { cores := [(0, { ctx := some 1, ge := { slots := [(0, gang0)], launches := [{ id := 0, entry := 0x100, args := [9], count := 2, started := 1, live := 1, start := 0, tmo := 1 }] }
                    queues := [(0, { flight := [{ id := 0, slot := 0, opc := 0x20, words := [], start := 0 }] })] })]
    ctxs := [(1, { ctx0 with windows := [(0, { base := 0, bound := 16, r := true, x := true, valid := true })] })], dies := [(0, { released := true })], half := 4000000 }
theorem met_CodeFetchRuns : startState.live 0 = some 1 ∧ (startState.gang 0 0).live = true ∧ (startState.core 0).ge.stopped = false ∧
    (startState.gang 0 0).pc.toNat ∉ (startState.core 0).ge.ibuf ∧ (startState.ctx 1).farOk .x (startState.gang 0 0).pc.toNat 1 = true ∧ startState.far.bad = [] := by decide
theorem met_GangStartRuns : startState.live 0 = some 1 ∧ ((startState.core 0).ge.launches.find? (fun l => decide (l.started < l.count))).isSome = true ∧
    (startState.gang 0 1).live = false ∧ (∀ i, i < 1 → (startState.gang 0 i).live = true) := by decide
def doneLaunch : Launch := { id := 0, entry := 0x100, args := [9], count := 1, started := 1, live := 0, start := 0, tmo := 1 }
def doneState : State := startState.modCore 0 (fun k => { k with ge := { launches := [doneLaunch] } })
theorem met_LaunchRetireRuns : doneState.live 0 = some 1 ∧ doneLaunch ∈ (doneState.core 0).ge.launches ∧ doneLaunch.started = doneLaunch.count ∧ doneLaunch.live = 0 ∧ doneLaunch.out = 0 ∧
    ((doneState.queue 0 0).flight.find? (fun f => f.id == 0)).isSome = true ∧ (doneState.core 0).crecFull 0 = false := by decide
theorem met_LaunchTimeoutRuns : (startState.advanceTo 0).live 0 = some 1 ∧ ((startState.advanceTo 0).ctx 1).fault = none ∧
    ((startState.advanceTo 0).core 0).ge.launches.find? (fun l => l.id == 0) = some { id := 0, entry := 0x100, args := [9], count := 2, started := 1, live := 1, start := 0, tmo := 1 } ∧
    (startState.advanceTo 0).ctxNow 1 ≥ 0 + 1000 * min 1 10000000 := by decide

/-! ### Slab accesses -/

theorem met_SldIssues : Issues base0 at0 (.sld at0 { d := 4, a := 5 }) { vw := destRegs 4 16, sr := [5] } 1 ∧
    addrClass (slabAddr (base0.gangEnv 0 0) gang0 { d := 4, a := 5 }) = .slab 0 0 ∧ (base0.ctx 1).bench.contains 0 = true ∧
    (base0.ctx 1).granted .r (slabAddr (base0.gangEnv 0 0) gang0 { d := 4, a := 5 }) 512 = true ∧ (base0.core 0).slab.bank 0 = .on ∧ (base0.core 0).slab.unplanned.length < 32 := by unfold Issues; decide
theorem met_SstIssues : Issues base0 at0 (.sst at0 { d := 4, a := 6 }) { vr := destRegs 4 16, sr := [6] } 1 ∧
    addrClass (slabAddr (base0.gangEnv 0 0) gang0 { d := 4, a := 6 }) = .slab 1 0 ∧ (base0.ctx 1).bench.contains 1 = true ∧
    (base0.ctx 1).granted .w (slabAddr (base0.gangEnv 0 0) gang0 { d := 4, a := 6 }) 512 = true := by unfold Issues; decide
/-- Accesses that wait at the slab port: a read and a write of slab 0. -/
def ask0 (write : Bool) : Unpl :=
  { write := write, slab := 0, data := if write then List.replicate 512 1 else [], ctx := 1, who := ⟨0, 0⟩, uid := 0, insn := ⟨0, 0, 0x100, 0⟩, load := 0, dreg := 4, since := 0 }
def portState (write : Bool) : State := stateOf { core0 gang0 with slab := { unplanned := [ask0 write], rewrites := [3] } }
theorem met_GrantReadRuns : ((portState false).core 0).slab.unplanned = [ask0 false] ∧ ((portState false).core 0).slab.bank 0 = .on ∧ (0 : W32).getLsbD 0 = false ∧ 0 < (portState false).freeReads 0 ∧
    0 ∉ (((portState false).core 0).slab.portIn ((portState false).cycleOf 0)).banks ∧ (∀ i, i < 8 → tblFind (8 * 0 + i) ((portState false).core 0).slab.bad = none) ∧ ((portState false).ctx 1).killing = false ∧
    ((portState false).gang 0 0).live = true ∧ ((portState false).gang 0 0).uid = 0 ∧ ((portState false).gang 0 0).wait = .none := by decide
theorem met_GrantWriteRuns : ((portState true).core 0).slab.unplanned = [ask0 true] ∧ (ask0 true).write = true ∧ ((portState true).core 0).slab.bank 0 ≠ .waking ∧ (portState true).freeWrite 0 = true ∧
    (ask0 true).data.length = 512 ∧ Memory.wf ((portState true).core 0).slab.mem = true ∧ ((portState true).gang 0 0).live = true ∧ ((portState true).gang 0 0).uid = 0 := by decide +kernel
theorem met_EccRewriteRuns : ((portState true).core 0).slab.rewrites = [3] ∧ ((portState true).core 0).slab.bank (3 / 8) ≠ .waking ∧ (portState true).freeWrite 0 = true := by decide
/-- Planned reads own both read slots of cycle 0, and a landing slot the write slot. -/
def ownedState : State := stateOf { core0 gang0 with portTable := [(0, 2 + 2 ^ 8 * 2 + 2 ^ 16 * 4)], slab := { unplanned := [ask0 false] } }
theorem met_GrantHeldRuns : ownedState.freeReads 0 = 0 ∧ ownedState.freeWrite 0 = false := by decide
def remoteState : State :=
  { base0 with net := { slabs := [{ home := 1, req := ask0 false }], slabReplies := [{ who := ⟨0, 0⟩, ctx := 1, uid := 0, load := 0, dreg := 4, data := List.replicate 512 1 }] } }
theorem met_RemoteSlabAccessRuns : remoteState.net.slabs[0]? = some { home := 1, req := ask0 false } ∧ (remoteState.ctx 1).killing = false ∧
    (remoteState.core 1).slab.bank 0 = .on ∧ (remoteState.core 1).slab.unplanned.length < 32 := by decide
theorem met_RemoteSldReplyRuns : remoteState.net.slabReplies[0]? = some { who := ⟨0, 0⟩, ctx := 1, uid := 0, load := 0, dreg := 4, data := List.replicate 512 1 } ∧
    (remoteState.ctx 1).killing = false ∧ (remoteState.gang 0 0).live = true ∧ (remoteState.gang 0 0).uid = 0 ∧ (List.replicate 512 (1 : Byte)).length = 512 := by decide +kernel

/-! ### Far memory accesses -/

/-- A 4-byte access of lane 0 at s4. -/
def memForm : VForm := { d := 4, a := 4, opx := 2 + 16 + 64 }
def lane0 : Gang := { gang0 with mask := 1 }
def farState (fc : FarCache) : State := stateOf { core0 lane0 with fc := fc }
/-- Line 0x20 of context 1 with every byte valid, in the first way of its set. -/
def line20 : FcLine := { line := 0x20, ctx := 1, data := [(0x40, 7)], valid := BitVec.allOnes 128 }
def hitCache : FarCache := { lines := [(8 * fcSet 0x20, line20)] }
theorem met_OneLine : OneLine (farState hitCache) at0 memForm 1 0x20 .r ∧ OneLine (farState hitCache) at0 { memForm with d := 0, b := 4 } 1 0x20 .w := by unfold OneLine; decide
theorem met_LdHitRuns : Issues (farState hitCache) at0 (.ld at0 memForm) (ldUse memForm) 1 true ∧ hitCache.place 1 0x20 = some (8 * fcSet 0x20) ∧
    (∀ l ∈ lanesOf (lane0.execLanes 0 false), ∀ j, j < 4 → (hitCache.at (8 * fcSet 0x20)).valid.getLsbD (laneAddr ((farState hitCache).gangEnv 0 0) lane0 memForm l % 128 + j) = true) ∧
    (∀ i, i < 8 → tblFind (8 * (8 * fcSet 0x20) + i) hitCache.bad = none) := by unfold Issues; decide
theorem met_LdMissRuns : Issues (farState {}) at0 (.ld at0 memForm) (ldUse memForm) 1 true ∧ OneLine (farState {}) at0 memForm 1 0x20 .r ∧ ({} : FarCache).place 1 0x20 = none ∧ opxNa memForm = true := by
  unfold Issues OneLine; decide
theorem met_StRuns : Issues (farState hitCache) at0 (.st at0 { memForm with d := 0, b := 4 }) (stUse { memForm with d := 0, b := 4 }) 1 true ∧
    Issues (farState {}) at0 (.st at0 { memForm with d := 0, b := 4 }) (stUse { memForm with d := 0, b := 4 }) 1 true ∧
    (∀ l ∈ lanesOf (lane0.execLanes 0 false), ∀ m ∈ lanesOf (lane0.execLanes 0 false), ¬ l ≠ m) ∧ ({} : FarCache).wbs.length < 16 := by unfold Issues; decide
theorem met_MergeReads : Memory.wf line20.data = true ∧ line20.dirty.getLsbD 5 = false ∧ [((5 : Nat), (9 : Byte))] = [] ++ (5, 9) :: [] := by decide
/-- An atomic addition on 4 bytes at s4. -/
def atomForm : VForm := { d := 4, a := 4, b := 2, bs := true, opx := 2 + 16 }
theorem met_AtomRuns : Issues (farState {}) at0 (.atom at0 atomForm) (atomUse atomForm) 1 ∧ lanesOf (lane0.execLanes 0 false) ≠ [] ∧
    (∀ l ∈ lanesOf (lane0.execLanes 0 false), laneAddr ((farState {}).gangEnv 0 0) lane0 atomForm l = 0x1040) ∧ ((farState {}).ctx 1).farOk .r 0x1040 4 = true ∧
    ((farState {}).ctx 1).farOk .w 0x1040 4 = true ∧ ((farState {}).core 0).fc.place 1 (0x1040 / 128) = none ∧ 0x1040 % 2 ^ opxSz atomForm = 0 := by unfold Issues; decide
def atomMsg : AtomMsg := { ctx := 1, core := 0, slot := 0, uid := 0, insn := ⟨0, 0, 0x100, 1⟩, load := 0, form := atomForm, addr := 0x1040, lanes := [(0, 7, 0), (3, 1, 0)] }
def atomState : State := { farState {} with net := { atoms := [atomMsg] }, far := { mem := [(0x1040, 5)] } }
theorem met_AtomCompleteRuns : atomState.net.atoms[0]? = some atomMsg ∧ (atomState.core 0).fc.wbs = [] ∧ (atomState.core 0).fc.misses = [] ∧ atomState.net.atoms = [atomMsg] ∧ atomState.far.bad = [] ∧ Memory.wf atomState.far.mem = true ∧ (atomState.ctx 1).killing = false ∧
    (atomState.gang 0 0).live = true ∧ (atomState.gang 0 0).uid = 0 ∧ atomState.links.twin.mset = none ∧ (atomMsg.lanes.map Prod.fst).Nodup ∧ (∀ l ∈ atomMsg.lanes, l.1 < 32) ∧ opxSz atomForm ≤ 3 := by decide
def fillCache : FarCache := { lines := [(8 * fcSet 0x20, { line := 0x20, ctx := 1, pending := true })], misses := [{ line := 0x20, ctx := 1, parts := [] }]
                              wbs := [{ id := 0, line := 0x33, ctx := 1, slot := none, bytes := [(1, 7)] }] }
theorem met_FarCacheFillRuns : ((farState fillCache).core 0).fc.misses[0]? = some { line := 0x20, ctx := 1, parts := [] } ∧ (∀ w ∈ fillCache.wbs, some w.id ≠ ({ line := 0x20, ctx := 1, parts := [] } : FcMiss).after ∧ w.line ≠ 0x20) ∧ (∀ j ∈ fillCache.misses, j.line ≠ 0x20 ∨ 0 ≤ j.seq) ∧ (farState fillCache).net.atoms = [] ∧
    128 * 0x20 < hostBase ∧ ((farState fillCache).ctx 1).killing = false ∧ fillCache.place 1 0x20 = some (8 * fcSet 0x20) := by decide
theorem met_WritebackAcceptRuns : ((farState fillCache).core 0).fc.wbs[0]? = some { id := 0, line := 0x33, ctx := 1, slot := none, bytes := [(1, 7)] } ∧
    (farState fillCache).far.bad = [] ∧ Memory.wf (farState fillCache).far.mem = true ∧ ([((1 : Nat), (7 : Byte))].map Prod.fst).Nodup ∧ fillCache.bad = [] ∧
    (∀ o ∈ fillCache.wbs, o.line ≠ 0x33 ∨ 0 ≤ o.id) ∧ (∀ j ∈ fillCache.misses, j.line ≠ 0x33 ∨ 0 ≤ j.seq) ∧ (farState fillCache).net.atoms = [] := by decide

/-! ### Tallies, tokens, fences, barriers, the allocator -/

theorem met_TsigRuns : Issues base0 at0 (.tsig at0 { src := 1, tid := 2 }) (tUse { src := 1, tid := 2 }) 1 ∧ (base0.ctx 1).home 2 = some ⟨true, 0, 6⟩ := by unfold Issues; decide
theorem met_TwaitHereRuns : Issues base0 at0 (.twait at0 { src := 1, tid := 1 }) (tUse { src := 1, tid := 1 }) 1 ∧ (base0.ctx 1).home 1 = some ⟨false, 0, 4⟩ ∧
    HomeHere ⟨false, 0, 4⟩ 0 ∧ base0.opsPending ⟨0, 0⟩ ⟨false, 0, 4⟩ = false := by unfold Issues HomeHere; decide
theorem met_TwaitAwayRuns : Issues base0 at0 (.twait at0 { src := 1, tid := 2 }) (tUse { src := 1, tid := 2 }) 1 ∧ (base0.ctx 1).home 2 = some ⟨true, 0, 6⟩ ∧
    ¬ HomeHere ⟨true, 0, 6⟩ 0 := by unfold Issues HomeHere; decide
theorem met_TreadRuns : Issues base0 at0 (.tread at0 { src := 3, tid := 1 }) { sw := [3] } 1 ∧ Issues base0 at0 (.tread at0 { src := 3, tid := 2 }) { sw := [3] } 1 ∧
    base0.opsPending ⟨0, 0⟩ ⟨true, 0, 6⟩ = false := by unfold Issues; decide
def readMsg : ReadMsg := { who := ⟨0, 0⟩, ctx := 1, home := ⟨true, 0, 6⟩, vid := 2, uid := 0, dreg := 3 }
theorem met_TreadReplyRuns : FirstTo ReadMsg.who ReadMsg.home 0 readMsg ({ base0 with net := { reads := [readMsg] } } : State).net.reads ∧
    (base0.ctx 1).killing = false ∧ (base0.gang 0 0).live = true ∧ (base0.gang 0 0).uid = readMsg.uid := by unfold FirstTo; decide
/-- An operation on a tally, on its way from the gang in slot 0. -/
def tallyMsg (h : Home) (a : TallyAct) : TallyMsg := { ctx := 1, vid := 2, home := h, src := ⟨0, 0⟩, act := a }
def tallyState (h : Home) (a : TallyAct) : State :=
  { base0 with net := { tally := [tallyMsg h a] }, hub := { tallies := [(6, { value := 3, ctx := 1, valid := true }), (7, { value := 2, ctx := 1, valid := true })] } }
theorem met_HubAddRuns : FirstTo TallyMsg.src TallyMsg.home 0 (tallyMsg ⟨true, 0, 6⟩ (.add 4)) (tallyState ⟨true, 0, 6⟩ (.add 4)).net.tally ∧ LocalOrCurrent (tallyState ⟨true, 0, 6⟩ (.add 4)) (tallyMsg ⟨true, 0, 6⟩ (.add 4)) ∧ ((tallyState ⟨true, 0, 6⟩ (.add 4)).tallyAt ⟨true, 0, 6⟩).sat = false ∧
    ((tallyState ⟨true, 0, 6⟩ (.add 4)).ctx 1).killing = false ∧ ((tallyState ⟨true, 0, 6⟩ (.add 4)).tallyAt ⟨true, 0, 6⟩).value + 4 < 0xFFFFFFFF := by unfold FirstTo LocalOrCurrent; decide
theorem met_HubSaturates : FirstTo TallyMsg.src TallyMsg.home 0 (tallyMsg ⟨true, 0, 6⟩ (.add 0xFFFFFFFC)) (tallyState ⟨true, 0, 6⟩ (.add 0xFFFFFFFC)).net.tally ∧ LocalOrCurrent (tallyState ⟨true, 0, 6⟩ (.add 0xFFFFFFFC)) (tallyMsg ⟨true, 0, 6⟩ (.add 0xFFFFFFFC)) ∧ ((tallyState ⟨true, 0, 6⟩ (.add 0xFFFFFFFC)).tallyAt ⟨true, 0, 6⟩).sat = false ∧
    0xFFFFFFFF ≤ ((tallyState ⟨true, 0, 6⟩ (.add 0xFFFFFFFC)).tallyAt ⟨true, 0, 6⟩).value + 0xFFFFFFFC ∧ (base0.ctx 1).state = .placed ∧ (base0.ctx 1).fault = none := by unfold FirstTo LocalOrCurrent; decide
/-- REBASE by queue 1 of core 0. -/
def rebaseMsg : TallyMsg := { tallyMsg ⟨true, 0, 6⟩ (.rebase 3 ⟨true, 0, 7⟩ 9 0) with src := ⟨0, 17⟩ }
def rebaseState : State := { tallyState ⟨true, 0, 6⟩ (.add 0) with net := { tally := [rebaseMsg] } }
theorem met_HubRebaseRuns : FirstTo TallyMsg.src TallyMsg.home 0 rebaseMsg rebaseState.net.tally ∧ (7 : Nat) ≠ 6 ∧ rebaseMsg.retires = none ∧ rebaseState.net.reads = [] ∧
    (rebaseState.ctx 1).killing = false ∧ 16 ≤ rebaseMsg.src.unit ∧ rebaseMsg.src.unit < 20 := by unfold FirstTo; decide
theorem met_CoreAddRuns : FirstTo TallyMsg.src TallyMsg.home 0 (tallyMsg ⟨false, 0, 4⟩ (.add 4)) (tallyState ⟨false, 0, 4⟩ (.add 4)).net.tally ∧ LocalOrCurrent (tallyState ⟨false, 0, 4⟩ (.add 4)) (tallyMsg ⟨false, 0, 4⟩ (.add 4)) ∧ ((tallyState ⟨false, 0, 4⟩ (.add 4)).tallyAt ⟨false, 0, 4⟩).sat = false ∧
    ((tallyState ⟨false, 0, 4⟩ (.add 4)).tallyAt ⟨false, 0, 4⟩).value + 4 < 0xFFFFFFFF := by unfold FirstTo LocalOrCurrent; decide
def watch0 (v : Nat) : Watch := { ctx := 1, who := ⟨0, 0⟩, idx := 0, serial := 0, home := ⟨true, 0, 6⟩, threshold := v }
/-- Watches at the hub for a value that tally 6 has reached, and for one that it has not. -/
def watchState (v : Nat) : State := { tallyState ⟨false, 0, 4⟩ (.add 0) with net := { watches := [watch0 v], refused := [watch0 v] } }
theorem met_WatchRuns : (watchState 3).net.watches[0]? = some (watch0 3) ∧ (watchState 3).opsPending ⟨0, 0⟩ ⟨true, 0, 6⟩ = false ∧ 3 ≤ ((watchState 3).tallyAt ⟨true, 0, 6⟩).value ∧
    ((watchState 4).tallyAt ⟨true, 0, 6⟩).value < 4 ∧ ((watchState 4).watchesAt ⟨true, 0, 6⟩).length < 8192 ∧ ((watchState 3).tallyAt ⟨true, 0, 6⟩).sat = false := by decide
/-- A tally that has saturated satisfies no wait, whatever the threshold (R310). -/
theorem test_sat_satisfies_none : ({ value := 0xFFFFFFFF, sat := true } : TallySlot).reached 0 = false ∧ ({ value := 5 } : TallySlot).reached 5 = true := by decide
/-- Sixty-four watches fill the room of a core's block. -/
theorem met_WatchRuns_full : ∃ s : State, s.net.watches[0]? = some { watch0 3 with home := ⟨false, 0, 4⟩ } ∧ s.opsPending ⟨0, 0⟩ ⟨false, 0, 4⟩ = false ∧ (s.ctx 1).killing = false ∧
    (s.tallyAt ⟨false, 0, 4⟩).value < 3 ∧ 64 ≤ (s.watchesAt ⟨false, 0, 4⟩).length :=
  ⟨{ stateOf { core0 gang0 with tally := { watches := List.replicate 64 (watch0 3) } } with net := { watches := [{ watch0 3 with home := ⟨false, 0, 4⟩ }] } }, by decide⟩
theorem met_WatchRetryRuns : (watchState 3).net.refused[0]? = some (watch0 3) := by decide
def wakeState : State :=
  { stateOf { core0 { gang0 with wait := .tally 2 5 0 0 0 } with
      queues := [(1, { block := .wait { vid := 2, home := ⟨true, 0, 6⟩, threshold := 5 }, flight := [{ id := 0, slot := 0, opc := 1, words := [], start := 0 }] })] } with
    net := { wakes := [{ who := ⟨0, 0⟩, idx := 0, serial := 0, ctx := 1 }, { who := ⟨0, 17⟩, idx := 0, serial := 0, ctx := 1 }] } }
theorem met_WakeGangRuns : wakeState.net.wakes[0]? = some { who := ⟨0, 0⟩, idx := 0, serial := 0, ctx := 1 } ∧ (wakeState.ctx 1).killing = false ∧
    (wakeState.gang 0 0).wait = .tally 2 5 0 0 0 ∧ (wakeState.gang 0 0).live = true := by decide
theorem met_WakeWaitRuns : wakeState.net.wakes[1]? = some { who := ⟨0, 17⟩, idx := 0, serial := 0, ctx := 1 } ∧ (wakeState.core 0).ctx = some 1 ∧
    (wakeState.queue 0 1).block = .wait { vid := 2, home := ⟨true, 0, 6⟩, threshold := 5 } ∧ (wakeState.queue 0 1).blockId = 0 ∧
    ((wakeState.queue 0 1).flight.find? (fun f => f.id == 0)).isSome = true ∧ (wakeState.core 0).crecFull 1 = false := by decide
/-- Watches of that gang and of that queue leave their home with a lower threshold. -/
theorem met_LowerWaitRuns : (wakeState.gang 0 0).wait = .tally 2 5 0 0 0 ∧ (wakeState.queue 0 1).block = .wait { vid := 2, home := ⟨true, 0, 6⟩, threshold := 5 } ∧ (wakeState.queue 0 1).blockId = 0 := by decide
def tokenState (n : Nat) : State :=
  { stateOf { core0 gang0 with tally := { tokens := [(5, n)] } } with net := { tokens := [{ ctx := 1, core := 0, cls := 5, qid := 0, slot := 0 }] } }
theorem met_TokenArrivalRuns : (tokenState 32766).net.tokens[0]? = some { ctx := 1, core := 0, cls := 5, qid := 0, slot := 0 } ∧ ((tokenState 32766).ctx 1).killing = false ∧
    tblGet 0 ((tokenState 32766).core 0).tally.tokens 5 < 32767 ∧ 32767 ≤ tblGet 0 ((tokenState 32767).core 0).tally.tokens 5 ∧
    ((tokenState 32767).ctx 1).state = .placed ∧ ((tokenState 32767).ctx 1).fault = none := by decide

theorem met_FenceInsnRuns : Issues base0 at0 (.fenceInsn at0 { sc := 1, fk := 1 }) {} 1 ∧ Issues base0 at0 (.fenceInsn at0 { sc := 2, fk := 2 }) {} 1 ∧
    Issues base0 at0 (.fenceInsn at0 { sc := 0 }) {} 1 ∧ gang0.loads = [] ∧ gang0.stores = 0 ∧ (base0.core 0).fc.bad = [] := by unfold Issues; decide
theorem met_AcquireDrops : (8 * fcSet 0x20, { line20 with valid := 1, dirty := 1 }) ∈ (({ lines := [(8 * fcSet 0x20, { line20 with dirty := 1 })] } : FarCache).acquire 1).lines := by decide
/-- One dirty line of the context in its place, and room for its write-back. -/
theorem met_ReleaseSends : let fc : FarCache := { lines := [(8 * fcSet 0x20, { line20 with dirty := 1 })] }
    fc.bad = [] ∧ fc.releases = [] ∧ (∀ p l, (p, l) ∈ fc.lines → fc.place l.ctx l.line = some p) ∧ Rising fc.lines ∧
    fc.wbs.length + (fc.lines.filter (fun l => l.2.ctx == 1 && l.2.dirty != 0)).length ≤ 16 := by
  refine ⟨rfl, rfl, fun p l h => ?_, by unfold Rising; decide, by decide⟩
  rw [List.mem_singleton] at h
  cases h
  decide
/-- The object at s4, aligned to 16 bytes. -/
def fenceForm (sc : Nat) : FForm := { a := 4, b := 1, sc := sc }
theorem met_FsigRuns : Issues base0 at0 (.fsig at0 (fenceForm 0)) (fUse (fenceForm 0)) 1 ∧ Issues base0 at0 (.fsig at0 (fenceForm 2)) (fUse (fenceForm 2)) 1 ∧
    (base0.ctx 1).farOk .r 0x1040 16 = true ∧ (base0.ctx 1).farOk .w 0x1040 16 = true ∧ gang0.scalarOp (base0.gangEnv 0 0) 0 4 % 2 ^ 64 = 0x1040 ∧ 0x1040 % 16 = 0 ∧ gang0.loads = [] ∧ gang0.stores = 0 ∧ (base0.core 0).fc.bad = [] := by unfold Issues; decide
theorem met_FwaitRuns : Issues base0 at0 (.fwait at0 { fenceForm 1 with d := 2 }) (fUse { fenceForm 1 with d := 2 }) 1 ∧ (base0.ctx 1).farOk .r 0x1040 16 = true := by unfold Issues; decide
theorem met_FwaitPollRuns : (gangState { gang0 with wait := .fwait 2 0x1040 5 1 0 0 false }).live 0 = some 1 ∧
    ((gangState { gang0 with wait := .fwait 2 0x1040 5 1 0 0 false }).gang 0 0).wait = .fwait 2 0x1040 5 1 0 0 false := by decide
/-- The object's value word is `v`, and its status `st`. -/
def objectState (w : GangWait) (mx : Option Nat) (mem : Mem) : State :=
  { gangState { gang0 with wait := w } with net := { fobj := [{ ctx := 1, who := ⟨0, 0⟩, addr := 0x1040, max := mx }] }, far := { mem := mem } }
theorem met_FsigReplyRuns : let s := objectState (.fsig 0x1040 9 0 true) (some 9) [(0x1040, 5)]
    s.net.fobj[0]? = some { ctx := 1, who := ⟨0, 0⟩, addr := 0x1040, max := some 9 } ∧ (s.ctx 1).killing = false ∧ s.far.bad = [] ∧ Memory.wf s.far.mem = true ∧
    s.links.twin.mset = none ∧ (s.gang 0 0).wait = .fsig 0x1040 9 0 true := by decide
/-- Reached, abandoned, and neither. -/
theorem met_FwaitReplyRuns : let s := fun mem => objectState (.fwait 2 0x1040 5 1 0 0 true) none mem
    let v := fun (s : State) => ofLe (memReadN s.far.mem 0x1040 8)
    let st := fun (s : State) => ofLe (memReadN s.far.mem 0x1048 8)
    (s []).net.fobj[0]? = some { ctx := 1, who := ⟨0, 0⟩, addr := 0x1040, max := none } ∧ ((s []).gang 0 0).wait = .fwait 2 0x1040 5 1 0 0 true ∧
    5 ≤ v (s [(0x1040, 5)]) ∧ (v (s [(0x1048, 2)]) < 5 ∧ st (s [(0x1048, 2)]) % 4 = 2) ∧ v (s []) < 5 ∧ st (s []) % 4 ≠ 2 := by decide
def releaseState : State := stateOf { core0 { gang0 with wait := .fence 1 false } with fc := { releases := [{ unit := 0, ctx := 1, todo := [], wait := [] }] } }
theorem met_ReleaseDoneRuns : releaseState.live 0 = some 1 ∧
    (releaseState.core 0).fc.releases.find? (releaseState.core 0).fc.released = some { unit := 0, ctx := 1, todo := [], wait := [] } ∧
    (releaseState.gang 0 0).wait = .fence 1 false := by decide
/-- A barrier unit of the queues 0 and 4, with arrivals. -/
def barState (qid : Nat) (a0 a1 : List Nat) : State :=
  { base0 with net := { arrivals := [{ ctx := 1, unit := 9, qid := qid, gen := 0 }], releases := [{ ctx := 1, unit := 9, qid := 0, gen := 0 }] }
               hub := { units := [(9, { ctx := 1, valid := true, parts := [0, 4], arr0 := a0, arr1 := a1, owed := [0, 4] })] } }
theorem met_BarrierArrivalRuns : (barState 0 [] []).net.arrivals[0]? = some { ctx := 1, unit := 9, qid := 0, gen := 0 } ∧ ((barState 0 [] []).ctx 1).killing = false ∧
    ((0 : Nat) ∉ ((barState 0 [] []).unit 9).arr0 ∧ ∃ p ∈ ((barState 0 [] []).unit 9).parts, p ∉ ((barState 0 [] []).unit 9).arr0 ++ [0]) ∧
    (4 ∉ ((barState 4 [0] []).unit 9).arr0 ∧ ((barState 4 [0] []).unit 9).filled = false ∧ ((barState 4 [0] []).unit 9).parts ≠ [] ∧
      ∀ p ∈ ((barState 4 [0] []).unit 9).parts, p ∈ ((barState 4 [0] []).unit 9).arr0 ++ [4]) ∧
    (0 ∈ ((barState 0 [0] []).unit 9).arr0 ∧ 0 ∉ ((barState 0 [0] []).unit 9).arr1) ∧ (0 ∈ ((barState 0 [0] [0]).unit 9).arr0 ∧ 0 ∈ ((barState 0 [0] [0]).unit 9).arr1) := by decide
theorem met_BarrierReleaseRuns : let s := (barState 0 [] []).setQueue 0 0 { block := .barrier [] (some 9) true, flight := [{ id := 0, slot := 0, opc := 3, words := [], start := 0 }] }
    s.net.releases[0]? = some { ctx := 1, unit := 9, qid := 0, gen := 0 } ∧ (s.core 0).ctx = some 1 ∧ (s.queue 0 0).block = .barrier [] (some 9) true ∧
    ((s.queue 0 0).flight.find? (fun f => f.id == (s.queue 0 0).blockId)).isSome = true ∧ (s.core 0).crecFull 0 = false ∧ (s.unit 9).owed.erase 0 ≠ [] := by decide
theorem met_AllocRuns : Issues base0 at0 (.alloc at0 { d := 3, a := 1 }) (aUse { d := 3, a := 1 }) 1 ∧ (serviceArg base0 at0 { d := 3, a := 1 }).toNat ≠ 0 ∧
    Issues base0 at0 (.alloc at0 { d := 3, ib := true }) (aUse { d := 3, ib := true }) 1 ∧ (serviceArg base0 at0 { d := 3, ib := true }).toNat = 0 := by unfold Issues; decide
theorem met_AllocReplyRuns : let s : State := { base0 with net := { services := [{ ctx := 1, core := 0, slot := 0, uid := 0, dreg := 3, size := 64, aln := 6, pool := 0 }] } }
    s.net.services = { ctx := 1, core := 0, slot := 0, uid := 0, dreg := 3, size := 64, aln := 6, pool := 0 } :: [] ∧ (s.ctx 1).killing = false ∧ (s.gang 0 0).live = true ∧ (s.gang 0 0).uid = 0 := by decide
/-- s4 names the start of a block, s2 no block, s9 the address 0. -/
theorem met_FreeRuns : let s := base0.setCtx 1 { ctx0 with blocks := [{ heap := 0, addr := 0x1040, size := 64 }] }
    Issues s at0 (.free at0 { a := 4 }) { aUse { a := 4 } with sw := [] } 1 ∧ (serviceArg s at0 { a := 4 }).toNat = 0x1040 ∧ (∃ b ∈ (s.ctx 1).blocks, b.addr = 0x1040) ∧
    (serviceArg s at0 { a := 2 }).toNat ≠ 0 ∧ (∀ b ∈ (s.ctx 1).blocks, b.addr ≠ (serviceArg s at0 { a := 2 }).toNat) ∧ (serviceArg s at0 { a := 9 }).toNat = 0 := by unfold Issues; decide
theorem met_SyncTimeoutRuns : let u := ({ gangState { gang0 with wait := .tally 2 5 0 1 0 } with half := 4000 } : State).advanceTo 0
    u.live 0 = some 1 ∧ (u.ctx 1).fault = none ∧ (u.gang 0 0).wait = .tally 2 5 0 1 0 ∧ 0 + 1000 * min 1 10000000 ≤ u.ctxNow 1 := by decide

/-! ### Queue records -/

/-- The records in a queue of core 0, by slot, the first of them next. -/
def recState (e : Nat) (slots : List (Nat × List W64)) (tail : Nat) : State :=
  stateOf { core0 gang0 with queues := [(e, { inForce := { enable := true }, onchip := slots, tail := tail })] }

/-- The conditions of `RecIssues` in a form that can be evaluated. -/
theorem issues_of (s : State) (core e opc c : Nat) (raw : List W64)
    (h : (core < 1280 ∧ e < 4 ∧ s.live core = some c ∧ (s.queue core e).inForce.enable = true ∧ (s.queue core e).block = .none ∧ (s.queue core e).halt = false ∧
      headMalformed e (((s.queue core e).slotWords (s.queue core e).next).getD [0]) = false) ∧ ((s.queue core e).nextWords = some raw ∧ recOpc (effWords s.waitUs raw) = opc ∧ malformed s c core e (effWords s.waitUs raw) = false) ∧
      ((s.queue core e).inForce.fenced = false ∧ (s.core core).ge.launches = [] ∧ (s.queue core e).crecBase = 0 ∧ (s.queue core e).flight = []) ∧
      (e = 1 → s.windowClear core = true) ∧
      (opc = 5 → loopStrays (s.queue core e) (wbits (effWords s.waitUs raw) 1 5 0) = false ∧ (s.queue core e).bodyOn (wbits (effWords s.waitUs raw) 1 5 0) = true ∧
        bodyWhole (s.queue core e) 64 (((s.queue core e).next + 1) % (s.queue core e).size) (wbits (effWords s.waitUs raw) 1 5 0) = true) ∧
      (s.core core).tokensOk (recConsumes (effWords s.waitUs raw)) = true ∧ s.nodeRefused c (effWords s.waitUs raw) = false ∧ (s.queue core e).brkEn = false) :
    RecIssues s core e opc c (effWords s.waitUs raw) := by
  obtain ⟨⟨a1, a2, a3, a4, a5, a6, a7⟩, ⟨b1, b2, b3⟩, ⟨c1, c2, c3, c4⟩, w, d, f, g, h⟩ := h
  refine ⟨a1, a2, a3, a4, a5, .inl a6, a7, ⟨raw, b1, rfl⟩, b2, b3, .inl c1, ?_, .inl c3, fun _ => c4, w, d, fun _ => f, g, .inl h⟩
  intro _ l hl
  rw [c2] at hl
  cases hl

theorem met_NopRecRuns : RecIssues (recState 2 [(0, [0, 0, 0, 0])] 1) 0 2 0 1 (effWords 2000000 [0, 0, 0, 0]) := issues_of _ 0 2 0 1 [0, 0, 0, 0] (by decide)
/-- WAIT on tally 1 (this core) and on tally 2 (the hub) for the value 5. -/
theorem met_WaitRecRuns : RecIssues (recState 1 [(0, [1, 0x500000001, 0, 0])] 1) 0 1 1 1 (effWords 2000000 [1, 0x500000001, 0, 0]) ∧
    RecIssues (recState 1 [(0, [1, 0x500000002, 0, 0])] 1) 0 1 1 1 (effWords 2000000 [1, 0x500000002, 0, 0]) ∧
    (base0.ctx 1).home (wbits (effWords 2000000 [1, 0x500000001, 0, 0]) 1 11 0) = some ⟨false, 0, 4⟩ ∧ wbits (effWords 2000000 [1, 0x500000001, 0, 0]) 1 63 32 = 5 ∧
    (base0.tallyAt ⟨false, 0, 4⟩).value = 0 :=
  ⟨issues_of _ 0 1 1 1 [1, 0x500000001, 0, 0] (by decide), issues_of _ 0 1 1 1 [1, 0x500000002, 0, 0] (by decide), by decide⟩
/-- SIGNAL of 4 to tally 2 with no release, of 0, and with a release of the gang engine's queue at scope MODULE. -/
theorem met_SignalRecRuns : RecIssues (recState 1 [(0, [2, 0x4FFFF0002, 0, 0])] 1) 0 1 2 1 (effWords 2000000 [2, 0x4FFFF0002, 0, 0]) ∧
    RecIssues (recState 1 [(0, [2, 0xFFFF0002, 0, 0])] 1) 0 1 2 1 (effWords 2000000 [2, 0xFFFF0002, 0, 0]) ∧ wbits (effWords 2000000 [2, 0x4FFFF0002, 0, 0]) 1 31 16 = 0xFFFF ∧
    wbits (effWords 2000000 [2, 0x4FFFF0002, 0, 0]) 1 63 32 = 4 ∧ wbits (effWords 2000000 [2, 0xFFFF0002, 0, 0]) 1 63 32 = 0 :=
  ⟨issues_of _ 0 1 2 1 [2, 0x4FFFF0002, 0, 0] (by decide), issues_of _ 0 1 2 1 [2, 0xFFFF0002, 0, 0] (by decide), by decide⟩
theorem met_SignalReleaseRuns : RecIssues (recState 0 [(0, [2, 0x4FFFF0002, 2, 0])] 1) 0 0 2 1 (effWords 2000000 [2, 0x4FFFF0002, 2, 0]) ∧
    2 ≤ wbits (effWords 2000000 [2, 0x4FFFF0002, 2, 0]) 2 1 0 := ⟨issues_of _ 0 0 2 1 [2, 0x4FFFF0002, 2, 0] (by decide), by decide⟩
/-- REBASE of tallies 2 and 3 by 1. -/
theorem met_RebaseRecRuns : RecIssues (recState 1 [(0, [4, 0x100003002, 0, 0])] 1) 0 1 4 1 (effWords 2000000 [4, 0x100003002, 0, 0]) ∧
    (base0.ctx 1).home 2 = some ⟨true, 0, 6⟩ ∧ (base0.ctx 1).home 3 = some ⟨true, 0, 7⟩ := ⟨issues_of _ 0 1 4 1 [4, 0x100003002, 0, 0] (by decide), by decide⟩
/-- LOOP over one NOP: a count of 3, a count of 0, a count in memory at 0x1040, a count in tally 2. -/
theorem met_LoopRecRuns : RecIssues (recState 1 [(0, [5, 0x300000001, 0, 0]), (1, [0, 0, 0, 0])] 2) 0 1 5 1 (effWords 2000000 [5, 0x300000001, 0, 0]) ∧
    RecIssues (recState 1 [(0, [5, 1, 0, 0]), (1, [0, 0, 0, 0])] 2) 0 1 5 1 (effWords 2000000 [5, 1, 0, 0]) ∧ wbits (effWords 2000000 [5, 0x300000001, 0, 0]) 1 7 6 = 0 ∧
    wbits (effWords 2000000 [5, 0x300000001, 0, 0]) 1 63 32 = 3 ∧ wbits (effWords 2000000 [5, 1, 0, 0]) 1 63 32 = 0 :=
  ⟨issues_of _ 0 1 5 1 [5, 0x300000001, 0, 0] (by decide), issues_of _ 0 1 5 1 [5, 1, 0, 0] (by decide), by decide⟩
theorem met_LoopReadRuns : RecIssues (recState 1 [(0, [5, 0x41, 0x1040, 0]), (1, [0, 0, 0, 0])] 2) 0 1 5 1 (effWords 2000000 [5, 0x41, 0x1040, 0]) ∧
    RecIssues (recState 1 [(0, [5, 0x281, 0, 0]), (1, [0, 0, 0, 0])] 2) 0 1 5 1 (effWords 2000000 [5, 0x281, 0, 0]) ∧ wbits (effWords 2000000 [5, 0x41, 0x1040, 0]) 1 7 6 = 1 ∧
    wbits (effWords 2000000 [5, 0x41, 0x1040, 0]) 2 47 0 % 4 = 0 ∧ (base0.ctx 1).farOk .r (wbits (effWords 2000000 [5, 0x41, 0x1040, 0]) 2 47 0) 4 = true :=
  ⟨issues_of _ 0 1 5 1 [5, 0x41, 0x1040, 0] (by decide), issues_of _ 0 1 5 1 [5, 0x281, 0, 0] (by decide), by decide⟩
theorem met_LoopCountReadRuns : let s := (recState 1 [(1, [0, 0, 0, 0])] 2).modQueue 0 1 (fun q => { q with next := 1, block := .loopRead false, flight := [{ id := 0, slot := 0, opc := 5, words := [5, 0x41, 0x1040, 0], start := 0 }] })
    s.live 0 = some 1 ∧ s.far.bad = [] ∧ (s.queue 0 1).block = .loopRead false ∧ ((s.queue 0 1).flight.find? (fun f => f.id == (s.queue 0 1).blockId)).isSome = true ∧ (s.core 0).crecFull 1 = false := by decide
/-- Queue 1 of core 0 leads die 0 in the second state. -/
theorem met_PhaseRecRuns : RecIssues (recState 1 [(0, [6, 3, 0, 0])] 1) 0 1 6 1 (effWords 2000000 [6, 3, 0, 0]) ∧ (base0.ctx 1).isLead 0 1 = false ∧
    RecIssues ((recState 1 [(0, [6, 3, 0, 0])] 1).setCtx 1 { ctx0 with lead := [(0, 1)] }) 0 1 6 1 (effWords 2000000 [6, 3, 0, 0]) ∧
    ({ ctx0 with lead := [(0, 1)] } : Ctx).isLead 0 1 = true ∧ (tblGet ({} : Die) base0.dies (dieOf 0)).line = none :=
  ⟨issues_of _ 0 1 6 1 [6, 3, 0, 0] (by decide), by decide, issues_of _ 0 1 6 1 [6, 3, 0, 0] (by decide), by decide⟩
theorem met_ClearFlagsRuns : ∀ e, e < 4 → RecIssues (recState e [(0, [8, 0, 0, 0])] 1) 0 e 8 1 (effWords 2000000 [8, 0, 0, 0]) := by
  intro e he
  exact issues_of _ 0 e 8 1 [8, 0, 0, 0] (by revert e; decide)
/-- FENCE: acquire at scope MODULE by the gang engine's queue; by another queue; with a fence-object operation of either kind. -/
theorem met_FenceRecRuns : RecIssues (recState 0 [(0, [9, 5, 0, 0])] 1) 0 0 9 1 (effWords 2000000 [9, 5, 0, 0]) ∧ RecIssues (recState 2 [(0, [9, 5, 0, 0])] 1) 0 2 9 1 (effWords 2000000 [9, 5, 0, 0]) ∧
    wbits (effWords 2000000 [9, 5, 0, 0]) 1 5 4 = 0 ∧ wbits (effWords 2000000 [9, 5, 0, 0]) 1 3 2 = 1 ∧ wbits (effWords 2000000 [9, 5, 0, 0]) 1 1 0 ≠ 0 :=
  ⟨issues_of _ 0 0 9 1 [9, 5, 0, 0] (by decide), issues_of _ 0 2 9 1 [9, 5, 0, 0] (by decide), by decide⟩
theorem met_FenceObjectRuns : RecIssues (recState 0 [(0, [9, 0x15, 0x1040, 7])] 1) 0 0 9 1 (effWords 2000000 [9, 0x15, 0x1040, 7]) ∧
    wbits (effWords 2000000 [9, 0x15, 0x1040, 7]) 1 5 4 = 1 ∧ (base0.ctx 1).fenceObjOk true 0x1040 = true ∧ wbits (effWords 2000000 [9, 0x15, 0x1040, 7]) 2 47 0 = 0x1040 ∧
    wbits (effWords 2000000 [9, 0x15, 0x1040, 7]) 1 3 2 = 1 := ⟨issues_of _ 0 0 9 1 [9, 0x15, 0x1040, 7] (by decide), by decide⟩
/-- LAUNCH of two gangs at 0x100, and of none. -/
theorem met_LaunchRecRuns : RecIssues (recState 0 [(0, [0x20, 0x2000000000100, 0, 0])] 1) 0 0 0x20 1 (effWords 2000000 [0x20, 0x2000000000100, 0, 0]) ∧
    RecIssues (recState 0 [(0, [0x20, 0x100, 0, 0])] 1) 0 0 0x20 1 (effWords 2000000 [0x20, 0x100, 0, 0]) ∧ wbits (effWords 2000000 [0x20, 0x2000000000100, 0, 0]) 1 52 48 = 2 ∧
    wbits (effWords 2000000 [0x20, 0x100, 0, 0]) 1 52 48 = 0 :=
  ⟨issues_of _ 0 0 0x20 1 [0x20, 0x2000000000100, 0, 0] (by decide), issues_of _ 0 0 0x20 1 [0x20, 0x100, 0, 0] (by decide), by decide⟩
theorem met_QdbRuns : 0 / 4 ∈ (base0.ctx 1).bench ∧ (base0.ctx 1).killing = false ∧ (base0.ctx 1).state = .placed ∧ ({ ctx0 with state := .ready } : Ctx).state = .ready ∧ 8 / 4 ∉ (base0.ctx 1).bench := by decide
def fetchState (ring : Nat) : State := (recState 1 [] 3).modQueue 0 1 (fun q => { q with inForce := { enable := true, base := ring } })
/-- A ring in far memory, and one in host memory. -/
theorem met_RingFetchRuns : (fetchState 0x2000).live 0 = some 1 ∧ ((fetchState 0x2000).queue 0 1).fetch ≠ ((fetchState 0x2000).queue 0 1).tail ∧ ((fetchState 0x2000).queue 0 1).onchip.length < 64 ∧
    ((fetchState 0x2000).ctx 1).suspendReq = none ∧ addrClass 0x2000 = .far ∧ ((fetchState 0x2000).ctx 1).farOk .r 0x2000 512 = true ∧ addrClass 0x800000000000 = .host ∧
    ({ ctx0 with windows := [(0, { base := 0x80000000, bound := 0x80000001, r := true, valid := true })] } : Ctx).granted .r 0x800000000000 512 = true := by decide
theorem met_QueueCommitRuns : ((recState 1 [(0, [0, 0, 0, 0])] 1).queue 0 1).onchip ≠ [] ∧
    (let q := ((recState 1 [] 0).modQueue 0 1 (fun q => { q with commit := .foreman 3 5 })).queue 0 1; q.onchip = [] ∧ q.flight = [] ∧ q.commit = .foreman 3 5) ∧
    (let q := ((recState 1 [] 0).modQueue 0 1 (fun q => { q with commit := .software })).queue 0 1; q.onchip = [] ∧ q.flight = [] ∧ q.commit = .software) := by decide
theorem met_StepControlRuns : ((recState 1 [] 0).queue 0 1).halted = false ∧ (((recState 1 [] 0).modQueue 0 1 (fun q => { q with halted := true })).queue 0 1).halted = true := by decide
/-- BARRIER with no tally and no unit; at unit 0 of the plan, which is hub unit 9 of the queues 0 and 1 of core 0; on tally 2. -/
def barRec (w : W64) : State := { recState 1 [(0, [3, w, 0, 0])] 1 with hub := { units := [(9, { ctx := 1, valid := true, parts := [0, 1] })] } }
theorem met_BarrierRecRuns : RecIssues (barRec 0) 0 1 3 1 (effWords 2000000 [3, 0, 0, 0]) ∧ RecIssues (barRec 0x40000000) 0 1 3 1 (effWords 2000000 [3, 0x40000000, 0, 0]) ∧
    wbits (effWords 2000000 [3, 0x40000000, 0, 0]) 1 30 30 = 1 ∧ wbits (effWords 2000000 [3, 0x40000000, 0, 0]) 1 12 12 = 0 ∧ wbits (effWords 2000000 [3, 0x40000000, 0, 0]) 1 25 25 = 0 ∧
    tblFind (wbits (effWords 2000000 [3, 0x40000000, 0, 0]) 1 29 26) (base0.ctx 1).units = some 9 :=
  ⟨issues_of _ 0 1 3 1 [3, 0, 0, 0] (by decide), issues_of _ 0 1 3 1 [3, 0x40000000, 0, 0] (by decide), by decide⟩
theorem met_BarrierTallyRuns : RecIssues (barRec 0x500001002) 0 1 3 1 (effWords 2000000 [3, 0x500001002, 0, 0]) ∧ wbits (effWords 2000000 [3, 0x500001002, 0, 0]) 1 12 12 = 1 ∧
    wbits (effWords 2000000 [3, 0x500001002, 0, 0]) 1 25 25 = 0 ∧ (base0.ctx 1).home (wbits (effWords 2000000 [3, 0x500001002, 0, 0]) 1 11 0) = some ⟨true, 0, 6⟩ ∧ ¬ HomeHere ⟨true, 0, 6⟩ 0 :=
  ⟨issues_of _ 0 1 3 1 [3, 0x500001002, 0, 0] (by decide), by unfold HomeHere; decide⟩
/-- POWER of bank 2: off, and on. -/
theorem met_PowerRecRuns : RecIssues (recState 1 [(0, [7, 4, 0, 0])] 1) 0 1 7 1 (effWords 2000000 [7, 4, 0, 0]) ∧ RecIssues (recState 1 [(0, [7, 0x100000004, 0, 0])] 1) 0 1 7 1 (effWords 2000000 [7, 0x100000004, 0, 0]) ∧
    wbits (effWords 2000000 [7, 4, 0, 0]) 1 31 0 = 2 ^ 2 ∧ wbits (effWords 2000000 [7, 4, 0, 0]) 1 32 32 = 0 ∧ wbits (effWords 2000000 [7, 0x100000004, 0, 0]) 1 32 32 = 1 ∧
    (base0.core 0).slab.bank 2 = .on ∧ ({ banks := [(2, .off)] } : Slab).bank 2 = .off :=
  ⟨issues_of _ 0 1 7 1 [7, 4, 0, 0] (by decide), issues_of _ 0 1 7 1 [7, 0x100000004, 0, 0] (by decide), by decide⟩
def bankSlab (x : BankState) (on : Bool) : Slab := { banks := [(2, x)], powerWaits := [{ eng := 1, rec_ := 0, bank := 2, on := on }] }
theorem met_BankOffRuns : (bankSlab .draining false).bank 2 = .draining ∧ (bankSlab .draining false).inflightWrites 2 = 0 ∧
    (bankSlab .draining false).powerWaits.filter (fun x => x.bank == 2) = [{ eng := 1, rec_ := 0, bank := 2, on := false }] := by decide
theorem met_BankOnRuns : (bankSlab .waking true).bank 2 = .waking ∧ (bankSlab .waking true).powerWaits.filter (fun x => x.bank == 2) = [{ eng := 1, rec_ := 0, bank := 2, on := true }] := by decide
/-- A mark that has held die 0's line for 1 µs. -/
def markState : State := { base0 with dies := [(0, { released := true, line := some (1, 0x8000, 0) })], half := 2000 }
theorem met_PhaseMarkRuns : (tblGet ({} : Die) (markState.advanceTo 0).dies 0).line = some (1, 0x8000, 0) ∧ 0 + 1000 ≤ (markState.advanceTo 0).now ∧ ((markState.advanceTo 0).ctx 1).state = .placed := by decide
def crecWrite : CRecWrite := { eng := 1, slot := 0, end_ := false, ctx := 1, addr := 0x2000, words := [1, 2, 3, 4, 5, 6, 7, 8] }
theorem met_CounterRecordWriteRuns : let s := stateOf { core0 gang0 with dbg := { writes := [crecWrite] } }
    (s.core 0).dbg.writes = crecWrite :: [] ∧ crecWrite.words.length = 8 ∧ (s.ctx 1).farOk .w crecWrite.addr 64 = true ∧ (s.ctx 1).killing = false ∧ s.far.bad = [] ∧
    Memory.wf s.far.mem = true ∧ s.links.twin.mset = none ∧ (∀ e, e < 4 → (s.queue 0 e).toRetire = []) := by decide

/-! ### The matrix engine -/

/-- A gang matrix instruction of 16 rows, 16 columns and a depth of 32 that waits in the array's queue. -/
def matGang (op : Nat) (f : MForm) : GangMat := { slot := 0, op := op, form := f }
/-- It waits at a window that is open from cycle 100 to cycle 1000 and grants every block. -/
def winState (op : Nat) (f : MForm) (w : GangWin) : State :=
  { stateOf { core0 { gang0 with wait := .window, resume := 0x108 } with me := { gangQueue := [matGang op f], win := w }, queues := [(1, { flight := [{ id := 0, slot := 0, opc := 0x33, words := [], start := 0 }] })] } with
    dies := [(0, { released := true, cycles := 200 })] }
def openWin : GangWin := { open_ := true, close := 1000, grant := BitVec.allOnes 64, rec_ := 0 }

theorem met_GangMatrixIssues : ∀ r ∈ matRows, ∃ b, Issues base0 at0 (r.1 at0 { b := b }) { vr := (matUse r.2 { b := b }).1, vw := (matUse r.2 { b := b }).2 } 1 := by
  intro r hr
  simp only [matRows, List.mem_cons, List.not_mem_nil, or_false] at hr
  rcases hr with rfl | rfl | rfl | rfl
  · exact ⟨16, by unfold Issues; decide⟩
  · exact ⟨16, by unfold Issues; decide⟩
  · exact ⟨0, by unfold Issues; decide⟩
  · exact ⟨0, by unfold Issues; decide⟩
theorem met_MatAccepts : ∀ op, op < 4 → MatAccepts ((winState op { b := 16 } openWin).advanceTo 0) 0 1 (matGang op { b := 16 }) [] := by
  unfold MatAccepts; decide
theorem met_MatWaits : ((winState 0 {} {}).advanceTo 0).live 0 = some 1 ∧ (((winState 0 {} {}).advanceTo 0).core 0).me.gangQueue = matGang 0 {} :: [] ∧
    (((winState 0 {} {}).advanceTo 0).core 0).me.win.open_ = false ∧ (let u := (winState 0 {} { openWin with close := 201 }).advanceTo 0;
      (u.core 0).me.win.close < u.cycleOf 0 + (matCycles false 0 {}).1) := by decide
theorem met_GangProductRuns : ∀ op, op ≤ 1 → MatAccepts ((winState op { b := 16 } openWin).advanceTo 0) 0 1 (matGang op { b := 16 }) [] ∧
    ((winState op { b := 16 } openWin).advanceTo 0).loose 0 = false ∧ accCol 0 + mfN {} ≤ 64 ∧ (((winState op { b := 16 } openWin).advanceTo 0).core 0).me.parity = none := by unfold MatAccepts; decide
/-- A window with a cell of column 40 in error. -/
def parityState (op : Nat) : State := (winState op { b := 16 } openWin).modMe 0 (fun me => { me with parity := some 40 })
theorem met_GangParityStops : ∀ op, op ≤ 1 → let u := (parityState op).advanceTo 0
    MatAccepts u 0 1 (matGang op { b := 16 }) [] ∧ (u.core 0).me.parity = some 40 ∧ (u.ctx 1).fault = none := by unfold MatAccepts; decide
theorem met_GangDrainRuns : MatAccepts ((winState 2 { x := 16 } openWin).advanceTo 0) 0 1 (matGang 2 { x := 16 }) [] := by unfold MatAccepts; decide
theorem met_GangClearRuns : MatAccepts ((winState 3 { x := 2 } openWin).advanceTo 0) 0 1 (matGang 3 { x := 2 }) [] ∧ accCol 2 + mfN {} ≤ 64 ∧ accRow 2 + mfM {} ≤ 128 := by unfold MatAccepts; decide
/-- MCLEAR of 16 rows and 16 columns from entry 0 of bank 1. -/
theorem met_MclearRuns : let w : List W64 := [0x32, 0x101001, 0, 0]
    RecIssues (recState 1 [(0, w)] 1) 0 1 0x32 1 (effWords 2000000 w) ∧ ((recState 1 [(0, w)] 1).queue 0 1).flight = [] ∧
    wbits (effWords 2000000 w) 1 28 23 + wbits (effWords 2000000 w) 1 22 16 ≤ 64 ∧ wbits (effWords 2000000 w) 1 7 1 + wbits (effWords 2000000 w) 1 15 8 ≤ 128 ∧ wbits (effWords 2000000 w) 1 15 8 = 16 :=
  ⟨issues_of _ 0 1 0x32 1 [0x32, 0x101001, 0, 0] (by decide), by decide⟩
/-- GANG_WINDOW of 1000 cycles, and of none. -/
theorem met_GangWindowRuns : RecIssues (recState 1 [(0, [0x33, 1000, 1, 0])] 1) 0 1 0x33 1 (effWords 2000000 [0x33, 1000, 1, 0]) ∧
    RecIssues (recState 1 [(0, [0x33, 0, 1, 0])] 1) 0 1 0x33 1 (effWords 2000000 [0x33, 0, 1, 0]) ∧ (recState 1 [(0, [0x33, 0, 1, 0])] 1).windowClear 0 = true ∧
    (recState 1 [(0, [0x33, 1000, 1, 0])] 1).windowClear 0 = true ∧ wbits (effWords 2000000 [0x33, 1000, 1, 0]) 1 23 0 = 1000 ∧ wbits (effWords 2000000 [0x33, 0, 1, 0]) 1 23 0 = 0 :=
  ⟨issues_of _ 0 1 0x33 1 [0x33, 1000, 1, 0] (by decide), issues_of _ 0 1 0x33 1 [0x33, 0, 1, 0] (by decide), by decide⟩
theorem met_GangWindowCloseRuns : let u := (winState 0 {} { openWin with close := 200 }).advanceTo 0
    u.live 0 = some 1 ∧ (u.core 0).me.win.open_ = true ∧ (u.core 0).me.win.close ≤ u.cycleOf 0 ∧
    (u.queue 0 1).flight.find? (fun f => f.id == (u.core 0).me.win.rec_) = some { id := 0, slot := 0, opc := 0x33, words := [], start := 0 } ∧ (u.core 0).crecFull 1 = false := by decide
/-- MATMUL of 16 rows, 64 columns and depth 32: A from slab 0, B from slab 10, output from slab 100. -/
def matmulWords : List W64 := [0x30, BitVec.ofNat 64 (16 + 2 ^ 13 * 64 + 2 ^ 26 * 32 + 2 ^ 50 * 16), BitVec.ofNat 64 (4 + 16 * 4 + 256 * 4 + 2 ^ 31 * 10 + 2 ^ 46 * 100), 0]
theorem met_MatmulRuns : let s := recState 1 [(0, matmulWords)] 1
    let j := matJob (effWords 2000000 matmulWords)
    RecIssues s 0 1 0x30 1 (effWords 2000000 matmulWords) ∧ (∀ r ∈ (s.core 0).me.run, r.lastIn < s.cycleOf 0) ∧ (∀ i ∈ j.units.flatMap j.unitReads, (s.core 0).slab.bank i ≠ .waking) ∧ j.units.length = 1 ∧
    s.matFault 1 0 (j.units.flatMap j.unitReads ++ (j.units.filter j.drains).flatMap (fun u => biasSlabOf (s.core 0).me j.prof u.g)) (j.units.flatMap j.unitWrites) = none ∧
    (s.core 0).slab = {} ∧ (s.core 0).me.run = [] := ⟨issues_of _ 0 1 0x30 1 matmulWords (by decide), by decide⟩
/-- A record in progress whose last cycle has passed, at cycle 200. -/
def run0 : MatRun := { rec_ := 0, words := effWords 2000000 matmulWords, lastIn := 300, due := 150 }
def fold0 : Flight := { id := 0, slot := 0, opc := 0x30, words := [], start := 0 }
/-- The array of core 0 with one record and its events. -/
def meState (r : MatRun) (es : List MeEvent) (b : Slab) : State :=
  { stateOf { core0 gang0 with me := { run := [r], events := es }, queues := [(1, { flight := [fold0] })], slab := b } with dies := [(0, { released := true, cycles := 200 })] }
def runState : State := meState run0 [⟨220, 0, .compute 0⟩] {}
theorem met_ChuteStarveRuns : runState.live 0 = some 1 ∧ (runState.core 0).me.run.getLast? = some run0 ∧ runState.cycleOf 0 ≤ run0.lastIn := by decide
theorem met_MatmulRetireRuns : let s := meState run0 [] {}
    s.live 0 = some 1 ∧ (s.core 0).me.run = run0 :: [] ∧ run0.due ≤ s.cycleOf 0 ∧ run0.dead = false ∧ (s.core 0).me.events = [] ∧
    (s.queue 0 1).flight.find? (fun f => f.id == run0.rec_) = some fold0 ∧ (s.core 0).crecFull 1 = false := by decide
/-- What the array does in a cycle: each kind of event, on slabs that are readable, in error, off, draining and waking. -/
theorem met_ArrayDoes : ∀ a ∈ [MeAct.read 0 0 0 10, .compute 0, .drain 0, .write 0 0 100], ∀ b ∈ [({} : Slab), { bad := [(82, true)] }, { banks := [(10, .off), (4, .draining)] }, { banks := [(10, .waking), (4, .waking)] }],
    ArrayDoes (meState run0 [⟨200, 0, a⟩, ⟨201, 0, a⟩] b) 0 1 ⟨200, 0, a⟩ [⟨201, 0, a⟩] run0 := by unfold ArrayDoes; decide
theorem met_ArrayIdle : ∀ x ∈ (runState.core 0).me.events, runState.cycleOf 0 < x.at_ := by decide
theorem met_ArrayReads : ({} : Slab).bank 10 = .on ∧ (∀ i, i < 8 → tblFind (8 * 10 + i) ({} : Slab).bad = none) := by decide
theorem met_ArrayReadFaults : ({ bad := [(82, true)] } : Slab).bank 10 = .on ∧ tblFind (8 * 10 + 2) ({ bad := [(82, true)] } : Slab).bad = some true ∧ ({ banks := [(10, .off)] } : Slab).bank 10 = .off ∧
    (let s := meState run0 [⟨200, 0, .read 0 0 0 10⟩] {}; (s.ctx 1).fault = none ∧ (s.core 0).ctx = some 1 ∧ (s.queue 0 1).flight.find? (fun f => f.id == run0.rec_) = some fold0) := by decide
theorem met_ArrayComputes : (meState run0 [⟨200, 0, .compute 0⟩] {}).loose 0 = false ∧ ((matJob run0.words).unitAt 0).w ≤ 64 ∧ ((matJob run0.words).unitAt 0).m = 16 ∧
    ((meState run0 [⟨200, 0, .compute 0⟩] {}).core 0).me.parity = none := by decide
theorem met_ArrayParityStops : let s := (meState run0 [⟨200, 0, .compute 0⟩] {}).modMe 0 (fun me => { me with parity := some 40 })
    ArrayDoes s 0 1 ⟨200, 0, .compute 0⟩ [] run0 ∧ (s.core 0).me.parity = some 40 ∧ (s.ctx 1).fault = none ∧
    (s.queue 0 1).flight.find? (fun f => f.id == run0.rec_) = some fold0 := by unfold ArrayDoes; decide
/-- A parity error in column 40 marks it and kills the context (R127). -/
theorem test_parity : let t := ((meState run0 [⟨200, 0, .compute 0⟩] {}).modMe 0 (fun me => { me with parity := some 40 })).pumpMe 0
    (t.core 0).me.badCol = 40 ∧ (t.core 0).me.degraded = true ∧ ((t.ctx 1).fault.map FaultRec.cause) = some .uncorrEcc := by decide
theorem met_ArrayDrains : let s := meState run0 [⟨200, 0, .drain 0⟩] {}
    let d := run0.drainJob 0
    (∀ x ∈ biasSlabOf (s.core 0).me d.prof d.g, (s.core 0).slab.bank x = .on ∧ ∀ y, y < 8 → tblFind (8 * x + y) (s.core 0).slab.bad = none) ∧
    s.matFault 1 0 (biasSlabOf (s.core 0).me d.prof d.g) [] = none := by decide
theorem met_ArrayWrites : ({ run0 with outs := [((0, 0), [7])] } : MatRun).outs.find? (fun o => o.1 == (0, 0)) = some ((0, 0), [7]) ∧ ({} : Slab).bank 100 = .on ∧
    ({ banks := [(4, .draining)] } : Slab).bank 100 = .draining ∧ ({ banks := [(4, .waking)] } : Slab).bank 100 = .waking := by decide
theorem met_ArrayWriteDropped : let s := meState { run0 with outs := [((0, 0), [7])] } [⟨200, 0, .write 0 0 100⟩] { banks := [(4, .draining)] }
    ArrayDoes s 0 1 ⟨200, 0, .write 0 0 100⟩ [] { run0 with outs := [((0, 0), [7])] } ∧ (s.core 0).slab.bank 100 = .draining ∧ (s.ctx 1).fault = none ∧ (s.core 0).ctx = some 1 := by unfold ArrayDoes; decide
theorem met_ArrayHolds : ∀ a ∈ [MeAct.read 0 0 0 10, .write 0 0 100], let s := meState run0 [⟨190, 0, a⟩] { banks := [(10, .waking), (4, .waking)] }
    ArrayDoes s 0 1 ⟨190, 0, a⟩ [] run0 ∧ (s.core 0).slab.bank 10 = .waking ∧ (s.core 0).slab.bank 100 = .waking := by unfold ArrayDoes; decide
theorem met_MatmulTimes : ({} : MatrixEngine).degraded = false ∧ (∀ r ∈ ({} : MatrixEngine).run, ∀ d ∈ r.drains, d.1 + d.2.2 ≤ 200 ∧ r.bank ≠ 0) ∧
    (let j := matJob (effWords 2000000 matmulWords); (j.start {} 0 200 (effWords 2000000 matmulWords)).2.length = 17) := by decide
/-- MDRAIN of 16 rows and 16 columns with profile 0 to slab 100, in format 0. -/
def mdrainWords : List W64 := [0x31, BitVec.ofNat 64 (256 * 16 + 2 ^ 16 * 16 + 2 ^ 37 * 100), 0, 0]
theorem met_MdrainRuns : let s := recState 1 [(0, mdrainWords)] 1
    let b := wbits (effWords 2000000 mdrainWords) 1
    RecIssues s 0 1 0x31 1 (effWords 2000000 mdrainWords) ∧ (s.queue 0 1).flight = [] ∧ s.windowClear 0 = true ∧ (s.core 0).slab = {} ∧
    s.matFault 1 0 (biasSlabOf (s.core 0).me (b 32 29) 0) ((List.range (unitStride (b 36 33) (b 15 8))).map (fun i => b 51 37 + i)) = none ∧ b 15 8 = 16 ∧ b 22 16 = 16 ∧ b 51 37 = 100 :=
  ⟨issues_of _ 0 1 0x31 1 mdrainWords (by decide), by decide⟩

/-! ### Moves -/

/-- MOVE of 1536 bytes from 0x2000 to slab 0, adding 3 to tally 2; and of none. -/
def moveWords (len : Nat) : List W64 := [0x40, 0xFFFF000000002000, 0x100000000000, BitVec.ofNat 64 (len + 2 ^ 25 + 2 ^ 26 * 2 + 2 ^ 38 * 3)]
theorem met_MoveRuns : ∀ len ∈ [0, 1536], let s := recState 2 [(0, moveWords len)] 1
    let ws := effWords 2000000 (moveWords len)
    RecIssues s 0 2 0x40 1 ws ∧ wbits ws 1 63 48 = 0xFFFF ∧ wbits ws 2 49 48 = 0 ∧ ((s.core 0).mv 2).recs = [] ∧ (s.queue 0 2).flight = [] ∧ wbits ws 3 24 0 = len ∧
    (s.ctx 1).rangeOk .r (wbits ws 1 47 0) (wbits ws 3 24 0) = true ∧ (s.ctx 1).rangeOk .w (wbits ws 2 47 0) (wbits ws 3 24 0) = true ∧ (s.ctx 1).suspendReq = none := by
  intro len h
  refine ⟨issues_of _ 0 2 0x40 1 (moveWords len) (by revert len; decide), ?_⟩
  revert len; decide
/-- A record of queue 2 of core 0 with two requests, the first of `len` bytes. -/
def req0 (src dst : Nat) : MvReq := { id := 0, src := src, dst := dst, len := 4 }
def mvRec0 (src dst : Nat) : MvRec := { id := 0, src := src, dst := dst, node := 0xFFFF, len := 8, pos := 8, nextReq := 2, reqs := [req0 src dst, { id := 1, src := src + 4, dst := dst + 4, len := 4 }] }
def mvState (src dst : Nat) : State := stateOf { core0 gang0 with mv0 := { recs := [mvRec0 src dst] }, queues := [(2, { flight := [{ id := 0, slot := 0, opc := 0x40, words := moveWords 8, start := 0 }] })] }
def slabAddr0 (core : Nat) : Nat := 0x100000000000 + core * 2 ^ 24
def reading0 (src dst : Nat) : Prop := ∃ bs, Reading (mvState src dst) 0 2 1 0 (mvRec0 src dst) (req0 src dst) .free bs
theorem kth0 (src dst : Nat) : (((mvState src dst).core 0).mv 2).kth 0 = some (mvRec0 src dst, req0 src dst) := rfl
theorem unread0 (src dst : Nat) (hb : (((mvState src dst).core 0).mv 2).behind 0 (mvRec0 src dst) (req0 src dst) = false) : Unread (mvState src dst) 0 2 1 0 (mvRec0 src dst) (req0 src dst) := by
  refine ⟨by decide, .inl rfl, rfl, kth0 src dst, rfl, rfl, rfl, hb, fun x hx _ => ?_, fun p hp h => ?_⟩
  · simpa [mvState, stateOf, State.core, Core.mv, tblGet, tblFind] using hx
  · rcases List.mem_cons.1 hp with rfl | hp
    · rfl
    · rw [List.mem_singleton.1 hp] at h; cases h
theorem reads_far (dst : Nat) (hb : (((mvState 0x2000 dst).core 0).mv 2).behind 0 (mvRec0 0x2000 dst) (req0 0x2000 dst) = false)
    (hs : (mvState 0x2000 dst).slotFor 1 0 2 (mvRec0 0x2000 dst) (req0 0x2000 dst) = .free) : reading0 0x2000 dst := by
  refine ⟨_, unread0 _ _ hb, ⟨hs, .inl rfl⟩, ⟨Nat.succ_pos 3, .inl ⟨(by decide : 0x2000 + 4 ≤ farTop), rfl, rfl⟩⟩, fun x hx => ?_, ⟨_, List.mem_cons_of_mem _ (List.mem_cons_self ..), Nat.one_ne_zero⟩⟩
  have : x = mvRec0 0x2000 dst := by simpa [mvState, stateOf, State.core, Core.mv, tblGet, tblFind] using hx
  subst this
  rfl
/-- Slab to slab on one die, in a cycle whose port table and flow table carry the request: read slot A belongs to MV0's flow 0, which is `v`. -/
def flowState (v : Nat) : State := (mvState (slabAddr0 0) (slabAddr0 1)).modCore 0 (fun k => { k with portTable := [(0, 2)], flows := [(0, v)] })
/-- To far memory; to a slab of the same die as a packet, and to a landing slot; to the host. From far memory and from a slab. -/
theorem met_MoveRequestCompleteRuns : reading0 0x2000 0x3000 ∧ reading0 0x2000 (slabAddr0 1) ∧ reading0 0x2000 0x800000000000 ∧ 0x3000 + 4 ≤ farTop ∧
    addrClass (slabAddr0 1) = .slab 1 0 ∧ sameDie 0x2000 1 = false ∧ sameDie (slabAddr0 0) 1 = true ∧ addrClass 0x800000000000 = .host ∧
    (mvState 0x2000 0x3000).far = {} ∧ ((mvState 0x2000 0x3000).core 1).slab = {} ∧ Memory.wf [] = true :=
  ⟨reads_far _ (by decide) (by decide), reads_far _ (by decide) (by decide), reads_far _ (by decide) (by decide), by decide⟩

/-- The request of `flowState` with a scheduled flow to core 1; with a paced one to far memory that has one credit. -/
def farFlow (sent : List (Nat × List Nat)) : State :=
  (mvState (slabAddr0 0) 0x3000).modCore 0 (fun k => { k with portTable := [(0, 2)], flows := [(0, 2)], mv0 := { recs := [mvRec0 (slabAddr0 0) 0x3000], sent := sent } })
theorem met_SlotPlannedRuns : SlotFits (flowState 4) 0 2 1 (mvRec0 (slabAddr0 0) (slabAddr0 1)) (req0 (slabAddr0 0) (slabAddr0 1)) 0 4 ∧ addrClass (slabAddr0 1) = .slab 1 0 ∧ dieOf 1 = dieOf 0 ∧
    bitOf 4 1 = false ∧ bitsOf 4 12 2 = 1 := by unfold SlotFits; decide
theorem met_SlotPacedRuns : ∀ sent ∈ [[], [(0, [])]], SlotFits (farFlow sent) 0 2 1 (mvRec0 (slabAddr0 0) 0x3000) (req0 (slabAddr0 0) 0x3000) 0 2 ∧ (req0 (slabAddr0 0) 0x3000).home 0xFFFF = none ∧ bitOf 2 1 = true := by
  unfold SlotFits; decide
theorem met_SlotFreeRuns : (∀ n off, addrClass (req0 0x2000 0x3000).src ≠ .slab n off) ∧ ((mvState 0x2000 0x3000).ctx 1).killing = false ∧ ({ ctx0 with killing := true } : Ctx).killing = true := by
  refine ⟨fun n off h => ?_, by decide⟩
  rw [show addrClass (req0 0x2000 0x3000).src = .far by decide] at h
  cases h
theorem met_TakeSlotRuns : (slabAddr0 0) / 512 % 32 ∉ ((mvState (slabAddr0 0) (slabAddr0 1)).core 0 |>.slab.portIn 0).banks := by decide
/-- The slot comes in another cycle; no flow fits; another planned read has the bank; the flow has no credit. -/
theorem met_MoveSlotRuns : let q := req0 (slabAddr0 0) (slabAddr0 1)
    let r := mvRec0 (slabAddr0 0) (slabAddr0 1)
    Unread (mvState (slabAddr0 0) (slabAddr0 1)) 0 2 1 0 r q ∧ ((flowState 4).modCore 0 (fun k => { k with portTable := [(1, 2)] })).slotFor 1 0 2 r q = .wait ∧
    (mvState (slabAddr0 0) (slabAddr0 1)).slotFor 1 0 2 r q = .noFlow ∧ ((flowState 4).modCore 0 (fun k => { k with slab := { port := { banks := [0] } } })).slotFor 1 0 2 r q = .held ∧
    (farFlow [(0, [])]).slotFor 1 0 2 (mvRec0 (slabAddr0 0) 0x3000) (req0 (slabAddr0 0) 0x3000) = .empty 0 :=
  ⟨unread0 _ _ (by decide), by decide, by decide, by decide, by decide⟩
theorem met_SignalFrom : addrClass (slabAddr0 1) = .slab 1 0 ∧ addrClass 0x800000005000 = .host ∧ addrClass 0x2000 = .far := by decide
theorem met_BeatHops : ∀ out, out < 4 → (({ col := 3, row := 5, inp := 5 } : Beat).hop out).isSome = true := by
  intro out _
  unfold Beat.hop
  dsimp only
  by_cases h : out % 2 = 0
  · rw [if_pos h, if_pos h]; cases Config.northLow == (out == 0) <;> rfl
  · rw [if_neg h, if_neg h]; cases Config.eastHigh == (out == 3) <;> rfl
/-- FALLBACK_SLAB and CREDIT_RETURN: the first request of the record goes to slab 0 of core 1. -/
theorem met_FallbackSlabRuns : let s := mvState 0x2000 (slabAddr0 1)
    (s.core 0).ctx = some 1 ∧ ((s.core 0).mv 2).kth 0 = some (mvRec0 0x2000 (slabAddr0 1), req0 0x2000 (slabAddr0 1)) ∧ addrClass (req0 0x2000 (slabAddr0 1)).dst = .slab 1 0 ∧
    (req0 0x2000 (slabAddr0 1)).data = none ∧ (req0 0x2000 (slabAddr0 1)).fallback = false ∧ (mvRec0 0x2000 (slabAddr0 1)).node = 0xFFFF := by decide
/-- A slab in the landing buffer of core 1, behind one whose bank wakes; it belongs to the first request of the record. -/
def land0 (x b : Nat) : Landing := { slab := x, off := 0, parts := [(0, [1, 2, 3, b])], ctx := 1, origin := .move 0 2 0 0 }
def landState : State := (mvState 0x2000 (slabAddr0 1)).setCore 1 { portTable := [(0, 2 ^ 16 * 4)], slab := { landing := [land0 7 0, land0 0 4], banks := [(7, .waking)] } }
theorem met_LandingWriteRuns : (landState.core 1).slab.landing = [land0 7 0] ++ land0 0 4 :: [] ∧ (∀ x ∈ [land0 7 0], (landState.core 1).slab.bank x.slab = .waking) ∧
    (landState.core 1).slab.bank (land0 0 4).slab = .on ∧ land0 0 4 ∉ [land0 7 0] ∧ (land0 0 4).parts = [(0, [1, 2, 3, 4])] ∧ (land0 0 4).origin = .move 0 2 0 0 ∧
    (landState.core 1).slab.bad = [] ∧ Memory.wf (landState.core 1).slab.mem = true ∧ (landState.core 0).ctx = some 1 ∧
    mvRec0 0x2000 (slabAddr0 1) ∈ ((landState.core 0).mv 2).recs ∧ (∃ p ∈ (mvRec0 0x2000 (slabAddr0 1)).reqs, p.id ≠ 0) ∧
    (∀ x ∈ ((landState.core 0).mv 2).recs, x.open_ = false ∧ (x.id = 0 → x = mvRec0 0x2000 (slabAddr0 1))) ∧ bitsOf (tblGet 0 (landState.core 1).portTable (landState.cycleOf 1 % 4096)) 18 16 = 4 ∧
    (mvRec0 0x2000 (slabAddr0 1)).reqs.find? (fun q => q.id == 0) = some (req0 0x2000 (slabAddr0 1)) ∧ bitsOf (tblGet 0 ({} : Core).portTable 0) 18 16 ≠ 4 := by decide
/-- A store to one host page; a move to the host with one page, all of its bytes read. -/
def store0 : HostStore := { id := 0, slot := 0, uid := 0, load := 3, ctx := 1, pages := [5] }
def hostRec : MvRec := { id := 0, src := 0x2000, dst := 0x800000005000, node := 0xFFFF, len := 4, pos := 4, reqs := [{ id := 0, src := 0x2000, dst := 0x800000005000, len := 4, data := some [1, 2, 3, 4] }], pages := [5] }
def pageState : State := stateOf { core0 { gang0 with stores := 1 } with fc := { hostStores := [store0] }, mv0 := { recs := [hostRec] } }
theorem met_HostPageRuns : ((pageState.core 0).fc.hostStores.find? (fun x => x.id == store0.id) = some store0 ∧ store0.pages = [5] ∧
      (pageState.gang 0 store0.slot).live = true ∧ (pageState.gang 0 store0.slot).uid = store0.uid ∧ (pageState.gang 0 store0.slot).wait = .none ∧ (∀ p ∈ (pageState.gang 0 store0.slot).todo, p.load ≠ store0.load)) ∧
    (pageState.core 0).ctx = some 1 ∧ ((pageState.core 0).mv 2).recs.find? (fun x => x.id == hostRec.id) = some hostRec ∧ hostRec.node = 0xFFFF ∧ hostBase ≤ hostRec.dst ∧ 5 ∈ hostRec.pages ∧
    (∀ q ∈ hostRec.reqs, (pageState.ctx 1).pageOf q = 5 → q.data.isSome = true) ∧ hostRec.pos = hostRec.total ∧ (pageState.ctx 1).suspendReq = none ∧ ({ hostRec with pages := [5, 6] } : MvRec).pages.erase 5 ≠ [] ∧
    (∀ x ∈ ((pageState.core 0).mv 2).recs, x.open_ = false ∧ (x.id = hostRec.id → x = hostRec)) := by decide

/-! ### Requests of the Foreman -/

/-- A request of the HOST. -/
def ask (code : Nat) (args : List Nat) : MailMsg := { words := BitVec.ofNat 32 (code + 256 * args.length) :: args.map (BitVec.ofNat 32), sender := 0, seq := 0 }
/-- Far memory of context 0: the first 4 GiB. -/
def ctxF : Ctx := { state := .ready, windows := [(0, { base := 0, bound := 0x10000, r := true, w := true, valid := true })] }
/-- The tables at 0x100000 and 0x200000, and an object of 64 KiB at 0x10000. -/
def fman0 : Foreman := { tables := true, ctxTable := 0x100000, objTable := 0x200000, entries := 16, objects := [{ id := 3, base := 0x10000, size := 0x10000 }] }
/-- Every control core runs, a request waits in channel `ch`, and context 1 is `x`. -/
def asked (ch : Nat) (m : MailMsg) (x : Ctx) (mem : Mem := []) : State :=
  { stateOf { ctx := some 1 } with ctxs := [(0, ctxF), (1, x)], pci := { running := [0, 1, 2, 3], ready := true, chans := [(ch, { inbound := [m] })] }, fman := fman0, far := { mem := mem } }

/-- Context 0's window lets the Foreman at every descriptor below 4 GiB. -/
theorem desc_open (s : State) (id : Nat) (hx : s.ctx 0 = ctxF) (hb : s.fman.objTable + 32 * id + 32 ≤ 2 ^ 32) : DescOpen s id := by
  intro right o n hr hn ho
  rw [hx]
  unfold Ctx.granted
  rw [Bool.or_eq_true, List.all_eq_true]
  refine .inr fun i hi => ?_
  rw [List.mem_range] at hi
  have h : (s.fman.objTable + 32 * id + o) / 65536 + i < 0x10000 := by omega
  rcases hr with rfl | rfl <;> simp [Ctx.grants, ctxF, Window.grants, h]

theorem met_SetTablesRuns : let m := ask 1 [0x100000, 0, 0x200000, 0, 16]
    let s := { asked 1 m {} with fman := {} }
    Asked s 1 0x01 m [] ∧ s.pci.ready = true ∧ m.arg2 1 % 512 = 0 ∧ m.arg2 3 % 32 = 0 ∧ 1 ≤ m.arg 5 ∧ m.arg 5 ≤ 65536 ∧ m.arg2 1 + 512 * 1024 ≤ farTop ∧ m.arg2 3 + 32 * m.arg 5 ≤ farTop ∧
    (∀ p ∈ s.ctxs, (p.1 ≠ 0 → p.2.state = .free) ∧ (p.1 = 0 → ∀ w ∈ p.2.windows, w.2.valid = false ∨ w.2.obj = 0)) ∧ s.fman.objects = [] ∧ (asked 1 m {}).fman.objects ≠ [] ∧ FarClean (asked 1 m {}) := by unfold Asked FarClean; decide
/-- The descriptor of context 2, its plan at 0x300000 with a bench of core 0. -/
def descMem : Mem :=
  [(0x100400, 2), (0x100412, 0x30), (0x10041A, 0x40), (0x100422, 0x50), (0x10042A, 0x60), (0x300000, 0x43), (0x300001, 0x55), (0x300002, 0x54), (0x300003, 0x50), (0x300028, 1), (0x30002A, 1), (0x30002C, 1)]
theorem met_CtxStartRuns : let m := ask 0x10 [2]
    let s := asked 1 m ctx0 descMem
    let ds := memReadN descMem 0x100400 512
    let hd := memReadN descMem (leAt ds 0x10 8) 128
    Asked s 1 0x10 m [] ∧ Serves s ∧ m.arg 1 = 2 ∧ s.far.bad = [] ∧ (s.ctx 2).state = .free ∧ (s.ctx 0).farOk .r (s.fman.ctxTable + 512 * 2) 512 = true ∧
    leAt ds 0x10 8 = 0x300000 ∧ (if benchOk (leAt hd 0x28 8) then benchOf (leAt hd 0x28 8) else []) = [0] ∧
    (∀ x : Ctx, x.save = leAt ds 0x18 8 → x.gsave = leAt ds 0x20 8 → x.pm = leAt ds 0x28 8 → s.descBad 2 ds x hd 1 = false) ∧
    (∀ w ∈ (List.range 16).map (fun i => (i, windowOf ((ds.drop (0x80 + 16 * i)).take 16))), s.windowBad [0] w.2 = false ∧ (w.2.valid = false ∨ w.2.obj = 0)) := by
  refine ⟨by unfold Asked; decide, by unfold Serves; decide, by decide, by decide, by decide, by decide, by decide +kernel, by decide +kernel, ?_, by decide +kernel⟩
  intro x h1 h2 h3
  simp only [State.descBad, h1, h2, h3, if_neg (show (2 : Nat) ≠ 0 by decide)]
  decide +kernel
theorem met_CtxHoldAckDestroyRuns : (let s := asked 1 (ask 0x11 [1, 1]) ctx0; Asked s 1 0x11 (ask 0x11 [1, 1]) [] ∧ Serves s ∧ Lives (s.ctx 1) ∧ (ask 0x11 [1, 1]).arg 2 ≤ 1 ∧ (ask 0x11 [1, 1]).arg 1 = 1) ∧
    (let s := asked 1 (ask 0x11 [1, 1]) {}; Asked s 1 0x11 (ask 0x11 [1, 1]) [] ∧ Serves s ∧ ¬ Lives (s.ctx 1)) ∧
    (let s := asked 1 (ask 0x16 [1, 2]) ctx0; Asked s 1 0x16 (ask 0x16 [1, 2]) [] ∧ s.fman.tables = true ∧ (s.ctx 0).state = .ready) ∧
    (let s := asked 1 (ask 0x14 [1]) { state := .dead }; Asked s 1 0x14 (ask 0x14 [1]) [] ∧ Serves s ∧ (s.ctx 1).state = .dead) ∧
    (let s := asked 1 (ask 0x14 [1]) ctx0; Asked s 1 0x14 (ask 0x14 [1]) [] ∧ Serves s ∧ (s.ctx 1).state ≠ .dead) := by unfold Asked Serves Lives; decide
theorem met_CtxKillRuns : let s := asked 1 (ask 0x13 [1]) ctx0
    Asked s 1 0x13 (ask 0x13 [1]) [] ∧ Serves s ∧ (ask 0x13 [1]).arg 1 = 1 ∧ Lives (s.ctx 1) ∧ (s.ctx 1).fault = none ∧ (s.ctx 1).killing = false ∧ (s.ctx 1).pendWins = [] := by unfold Asked Serves Lives; decide
/-- Window 2 becomes the second mebibyte, with the right to read; of a placed, and of a ready context. -/
def setWin : MailMsg := ask 0x15 [1, 2, 16, 32, 0, 0x9]
theorem met_SetWindowRuns : ∀ st ∈ [CtxState.placed, CtxState.suspended, CtxState.ready], let s := asked 1 setWin { ctx0 with state := st }
    Asked s 1 0x15 setWin [] ∧ Serves s ∧ setWin.arg 1 = 1 ∧ setWin.arg 2 = 2 ∧ s.windowBad (s.ctx 1).bench (windowOf ([3, 4, 5, 6].flatMap (fun i => leBytes 4 (setWin.arg i)))) = false ∧
    (windowOf ([3, 4, 5, 6].flatMap (fun i => leBytes 4 (setWin.arg i)))).named = false ∧ (tblGet ({} : Window) (s.ctx 1).windows 2).named = false ∧ bitOf (s.ctx 1).events 5 = false := by unfold Asked Serves; decide +kernel
/-- A window over the slabs of core 5, which is not of the bench. -/
def badWin : MailMsg := ask 0x15 [1, 2, 0x10000500, 0x10000510, 0, 9]
theorem met_SetWindowRefused : let s := asked 1 badWin ctx0
    Asked s 1 0x15 badWin [] ∧ Serves s ∧ badWin.arg 1 = 1 ∧ badWin.arg 2 < 16 ∧ Lives (s.ctx 1) ∧
    s.windowBad (s.ctx 1).bench (windowOf ([3, 4, 5, 6].flatMap (fun i => leBytes 4 (badWin.arg i)))) = true := by unfold Asked Serves Lives; decide +kernel

/-! ### Objects, reference batches, event records -/

/-- OBJ_CREATE of object 4, 64 KiB, kind 1, in pool 0. -/
def objMsg (id : Nat) (size : Nat × Nat) : MailMsg := ask 0x20 [id, 1, size.1, size.2, 0, 1]
theorem met_ObjCreateRuns : let s := asked 1 (objMsg 4 (0x10000, 0)) ctx0
    let m := objMsg 4 (0x10000, 0)
    Asked s 1 0x20 m [] ∧ Serves s ∧ FarClean s ∧ m.arg 1 ≠ 0 ∧ m.arg 1 < s.fman.entries ∧ m.arg 2 = 1 ∧ m.arg2 3 ≠ 0 ∧ m.arg2 3 % 65536 = 0 ∧ m.arg 5 ≤ 5 ∧ m.arg 6 < 1024 ∧
    (∀ o ∈ s.fman.objects, o.id ≠ m.arg 1 ∧ o.base % 65536 = 0 ∧ o.size % 65536 = 0) ∧ s.fman.objects.Pairwise (fun o p => o.base + o.size ≤ p.base) ∧ (s.poolRange (m.arg 5) (m.arg 6)).1 % 65536 = 0 ∧
    (s.poolRange (m.arg 5) (m.arg 6)).1 ≤ 0x20000 ∧ 0x20000 + m.arg2 3 ≤ (s.poolRange (m.arg 5) (m.arg 6)).2 ∧ (s.poolRange (m.arg 5) (m.arg 6)).2 < 2 ^ 64 ∧
    (∀ o ∈ s.fman.objects, Apart 0x20000 (m.arg2 3) o.base o.size) ∧ DescOpen s 4 :=
  ⟨by unfold Asked; decide, by unfold Serves; decide, by unfold FarClean; decide, by decide, by decide, by decide, by decide, by decide, by decide, by decide, by decide, by decide, by decide, by decide, by decide,
    by decide, by unfold Apart; decide, desc_open _ _ rfl (by decide)⟩
/-- Object 3 exists; no place holds 2^48 bytes. -/
theorem met_ObjCreateRefused : (let m := objMsg 3 (0x10000, 0); let s := asked 1 m ctx0
      Asked s 1 0x20 m [] ∧ Serves s ∧ m.arg 1 = 3 ∧ m.arg 1 < s.fman.entries ∧ m.arg 2 = 1 ∧ m.arg2 3 ≠ 0 ∧ m.arg2 3 % 65536 = 0 ∧ m.arg 5 ≤ 5 ∧ m.arg 6 < 1024 ∧ (∃ o ∈ s.fman.objects, o.id = m.arg 1)) ∧
    (let m := objMsg 4 (0, 0x10000); let s := asked 1 m ctx0
      Asked s 1 0x20 m [] ∧ Serves s ∧ m.arg 1 = 4 ∧ m.arg 1 < s.fman.entries ∧ m.arg 2 = 1 ∧ m.arg2 3 ≠ 0 ∧ m.arg2 3 % 65536 = 0 ∧ m.arg 5 ≤ 5 ∧ m.arg 6 < 1024 ∧ (∀ o ∈ s.fman.objects, o.id ≠ m.arg 1) ∧
      (s.poolRange (m.arg 5) (m.arg 6)).2 < (s.poolRange (m.arg 5) (m.arg 6)).1 + m.arg2 3) := by unfold Asked Serves; decide
/-- The descriptor of object 3 at 0x200060: references at 0x200074, kind at 0x20007A, host flag at 0x20007B. -/
def objMem (refs host : Nat) : Mem := (if refs = 0 then [] else [(0x200074, BitVec.ofNat 8 refs)]) ++ [(0x20007A, 1)] ++ (if host = 0 then [] else [(0x20007B, 1)])
theorem met_ObjHostZeroRuns : ∀ n ∈ [0, 2], let m := ask 0x21 [3]
    let s := asked 1 m ctx0 (objMem n 0)
    Asked s 1 0x21 m [] ∧ Serves s ∧ FarClean s ∧ m.arg 1 = 3 ∧ m.arg 1 < s.fman.entries ∧ (∃ o ∈ s.fman.objects, o.id = m.arg 1) ∧ s.fman.objTable + 32 * m.arg 1 + 32 ≤ farTop ∧ devCount s 3 = n := by
  unfold Asked Serves FarClean; decide
/-- The objects of these states have descriptors that context 0's window holds; with no window, none of them. -/
theorem met_DescOpen : (∀ n i, DescOpen (asked n (ask 0 []) ctx0 []) i ∨ 16 ≤ i) ∧ ({} : Ctx).granted .w 0x200000 4 = false ∧ ({} : Ctx).granted .r 0x200000 4 = false := by
  refine ⟨fun n i => ?_, by decide⟩
  by_cases h : i < 16
  · refine .inl (desc_open _ _ rfl ?_)
    show 0x200000 + 32 * i + 32 ≤ 2 ^ 32
    omega
  · exact .inr (by omega)
def evState (on : Bool) (head : Nat) : State := { pci := { evq := { inForce := { base := 0x1000, enable := on }, head := head, tail := 3 } } }
theorem met_EventRuns : ((evState true 0).pci.evq.inForce.enable = true ∧ ((evState true 0).pci.evq.tail + 1) % 2 ^ (evState true 0).pci.evq.inForce.log2 ≠ (evState true 0).pci.evq.head ∧
      Memory.wf (evState true 0).host = true ∧ bitOf ((evState true 0).pci.msixWord (1032 + 1) 3) 0 = true) ∧
    (evState false 0).pci.evq.inForce.enable = false ∧ ((evState true 4).pci.evq.tail + 1) % 2 ^ (evState true 4).pci.evq.inForce.log2 = (evState true 4).pci.evq.head := by decide
/-- Two batch entries at 0x300000: object 3 twice, for queue 1 of core 0 until slot 4. -/
def batchMsg : MailMsg := ask 0x22 [1, 1, 4, 0x300000, 0, 2]
theorem met_RefBatchRuns : let s := asked 1 batchMsg ctx0 (objMem 1 0 ++ [(0x300000, 3), (0x300004, 3)])
    Asked s 1 0x22 batchMsg [] ∧ Serves s ∧ FarClean s ∧ batchMsg.arg 1 = 1 ∧ batchMsg.arg 2 / 4 ∈ (s.ctx 1).bench ∧ batchMsg.arg 6 = 2 ∧ (s.ctx 0).farOk .r (batchMsg.arg2 4) (4 * batchMsg.arg 6) = true ∧
    (s.ctx 1).state = .placed ∧ (s.ctx 1).batches.length < 1024 ∧ words4 (memReadN s.far.mem (batchMsg.arg2 4) (4 * batchMsg.arg 6)) = [3, 3] ∧
    (∀ i ∈ words4 (memReadN s.far.mem (batchMsg.arg2 4) (4 * batchMsg.arg 6)), i ≠ 0 ∧ (∃ o ∈ s.fman.objects, o.id = i) ∧ s.fman.objTable + 32 * i + 32 ≤ farTop) := by
  unfold Asked Serves FarClean; decide
/-- A batch that names object 3 until HEAD has passed slot 5; HEAD has passed `n`. -/
def batch0 : Batch := { qid := 1, until_ := 5, ids := [3] }
def batchState (n refs host : Nat) : State := asked 0 (ask 0 []) { ctx0 with batches := [batch0], passed := [(1, n)] } (objMem refs host)
theorem met_RefBatchRetireRuns : (∀ n ∈ [(4, 2, 0), (5, 2, 0), (5, 1, 1)], let s := batchState n.1 n.2.1 n.2.2; (s.ctx 1).batches[0]? = some batch0 ∧ FarClean s ∧ s.fman.tables = true ∧ batch0.ids = [3] ∧
      tblGet 0 (s.ctx 1).passed batch0.qid = n.1 ∧ s.fman.objTable + 32 * 3 + 32 ≤ farTop) ∧
    1 < devCount (batchState 5 2 0) 3 ∧ (devCount (batchState 5 1 1) 3 ≤ 1 ∧ farNum (batchState 5 1 1) (0x200000 + 32 * 3 + 0x1A) 1 ≠ 0 ∧ farNum (batchState 5 1 1) (0x200000 + 32 * 3 + 0x1B) 1 % 2 = 1) := by
  unfold FarClean; decide

/-! ### Contexts -/

/-- A placed context that holds core 0 and has nothing to do. -/
def quietState (x : Ctx) : State := { asked 0 (ask 0 []) x with cores := [(0, { ctx := some 1 })] }
def pend0 : PendWin := { idx := 2, win := { base := 16, bound := 32, r := true, valid := true }, req := { channel := 1, sender := 0, header := 0x615 } }
theorem met_WindowApplyRuns : base0.quiescent 1 = false ∧ (let s := quietState { ctx0 with bench := [0], pendWins := [pend0], save := 0x300000, qdt := 0x400000 }
    s.quiescent 1 = true ∧ (s.ctx 1).pendWins = [pend0] ∧ s.windowBad (s.ctx 1).bench pend0.win = false ∧ pend0.win.named = false ∧ (tblGet ({} : Window) (s.ctx 1).windows pend0.idx).named = false ∧ bitOf (s.ctx 1).events 5 = false ∧
      LeavesClean 1 (({ s with ctxs := tblSet 1 { s.ctx 1 with pendWins := [], windows := tblSet 2 pend0.win (s.ctx 1).windows, events := 32, seq := 4 } s.ctxs } : State).vector 1)) := by
  unfold LeavesClean CachesClear FarClean Apart; decide +kernel
def fault0 : FaultRec := { cause := .windowFault }
theorem met_ContextKillRuns : let s := base0.setCtx 1 { ctx0 with fault := some fault0 }
    (s.ctx 1).fault = some fault0 ∧ (s.ctx 1).killing = false ∧ Lives (s.ctx 1) ∧ (s.ctx 1).pendWins = [] := by unfold Lives; decide
/-- A context that is being killed, an access of it to slab 0 outstanding; and one without. -/
def killedState : State := { quietState { ctx0 with bench := [0], windows := [], killing := true, state := .killing, fault := some fault0 } with fman := { tables := true } }
theorem met_KillDrainDoneRuns : (let s := { killedState with net := { slabs := [{ home := 1, req := ask0 false }] } }; (s.ctx 1).killing = true ∧ s.memBusy 1 = true) ∧
    (let s := killedState; let x := s.ctx 1; x.killing = true ∧ s.memBusy 1 = false ∧ x.fault = some fault0 ∧ x.toFree = false ∧ x.batches = [] ∧ (∀ w ∈ x.windows, w.2.named = false) ∧
      s.fman.objects = [] ∧ s.fman.forget = false ∧ (∀ m ∈ s.links.src, m.ctx ≠ 1) ∧ x.bench.Nodup ∧ FarClean s ∧ bitOf x.events 3 = false) := by unfold FarClean; decide
theorem met_ContextSuspendRuns : let u := (quietState { ctx0 with bench := [0], suspendReq := some 0x5000, save := 0x300000, gsave := 0x400000 }).advanceTo 0
    let x := u.ctx 1
    x.suspendReq = some 0x5000 ∧ x.state = .placed ∧ x.fault = none ∧ u.netBusy 1 = false ∧ u.memBusy 1 = false ∧ u.sideBusy 1 = false ∧ CachesClear u 1 ∧ FarClean u ∧ x.bench.Nodup ∧
    Apart x.save 65536 x.gsave (360448 * (u.held 1).length) ∧ bitOf x.events 2 = false ∧ u.held 1 = [0] ∧ u.hub.watches = [] ∧ (u.core 0).tally.watches = [] := by unfold CachesClear FarClean Apart; decide
theorem met_SwitchOutRuns : base0.quiescent 1 = false ∧ ((quietState { ctx0 with bench := [0] }).ctx 1).hold = false ∧ ((quietState { ctx0 with bench := [0] }).ctx 1).yielding = false ∧ ((quietState { ctx0 with bench := [0] }).ctx 1).pendWins = [] ∧
    (let s := quietState { ctx0 with bench := [0], hold := true, save := 0x300000, qdt := 0x400000, preserve := true }; let x := s.ctx 1
      s.quiescent 1 = true ∧ x.hold = true ∧ x.pendWins = [] ∧ LeavesClean 1 s) := by unfold LeavesClean CachesClear FarClean Apart; decide
theorem met_CtxResumeRuns : let m := ask 0x12 [1]
    let s := { asked 1 m { ctx0 with bench := [0], state := .suspended, save := 0x300000, gsave := 0x400000 } with cores := [(0, { ctx := some 1 })] }
    Asked s 1 0x12 m [] ∧ Serves s ∧ m.arg 1 = 1 ∧ (s.ctx 1).state = .suspended ∧ s.far.bad = [] ∧ (s.ctx 1).bench.Nodup ∧ (s.ctx 1).save + 65536 ≤ farTop ∧ (s.ctx 1).gsave + 360448 * (s.held 1).length ≤ farTop ∧
    s.held 1 = [0] ∧ (s.core 0).ge = {} ∧ (s.core 0).mv0 = {} ∧ (s.core 0).mv1 = {} ∧ (s.core 0).queues = [] := by unfold Asked Serves; decide

/-! ### Placement -/

/-- A plan image for core 0, its tables all zero: the header, the eight sections that R289 requires, and their bytes. -/
def planPre : List Byte := [67, 85, 84, 80, 4, 0, 65, 49, 112, 134, 0, 0, 8, 0, 1, 0, 0, 0, 0, 0, 0, 0, 0, 0]
def planRest : List Byte :=
  [1, 0, 1, 0, 1, 0, 0, 0, 0, 0, 0, 0, 0, 0, 1, 0, 0, 128, 0, 0, 0, 0, 0, 0, 0, 0, 0, 0, 0, 0, 0, 0, 0, 0, 64, 0, 0, 0, 0, 0]
   ++ (zeros 48 ++ ([2, 0, 0, 0, 0, 1, 0, 0, 0, 64, 0, 0, 0, 0, 0, 0, 3, 0, 0, 0, 0, 65, 0, 0, 128, 0, 0, 0, 0, 0, 0, 0, 4, 0, 0, 0, 128, 65, 0, 0, 0, 2, 0, 0, 0, 0, 0, 0, 5, 0, 0, 0, 128, 67, 0, 0, 16, 0, 0, 0, 0, 0, 0, 0]
   ++ [6, 0, 0, 0, 144, 67, 0, 0, 0, 64, 0, 0, 0, 0, 0, 0, 7, 0, 0, 0, 144, 131, 0, 0, 0, 1, 0, 0, 0, 0, 0, 0, 9, 0, 0, 0, 144, 132, 0, 0, 32, 0, 0, 0, 0, 0, 0, 0, 10, 0, 0, 0, 176, 132, 0, 0, 192, 1, 0, 0, 0, 0, 0, 0]))
@[irreducible] def planImg : List Byte := planPre ++ (dressDigest.take 16 ++ (planRest ++ zeros 34160))
theorem digest_take : (dressDigest.take 16).length = 16 := by simp [dressDigest, Config.sha512]
theorem planImg_length : planImg.length = 34416 := by
  unfold planImg
  rw [List.length_append, List.length_append, List.length_append, digest_take, show planPre.length = 24 from rfl, show planRest.length = 216 from by decide +kernel, zeros, List.length_replicate]
theorem planImg_zeros (o n : Nat) (h1 : 256 ≤ o) (h2 : o + n ≤ 34416) : (planImg.drop o).take n = zeros n := by
  have e : planImg = (planPre ++ (dressDigest.take 16 ++ planRest)) ++ zeros 34160 := by unfold planImg; simp only [List.append_assoc]
  have hl : (planPre ++ (dressDigest.take 16 ++ planRest)).length = 256 := by
    rw [List.length_append, List.length_append, digest_take, show planPre.length = 24 from rfl, show planRest.length = 216 from by decide +kernel]
  rw [e, List.drop_append, List.drop_eq_nil_of_le (by omega), hl, List.nil_append, zeros, List.drop_replicate, List.take_replicate, zeros]
  congr 1
  omega
theorem words4_zeros (n : Nat) : words4 (zeros (4 * n)) = List.replicate n 0 := by
  induction n with
  | zero => rfl
  | succ n ih =>
    show words4 (0 :: 0 :: 0 :: 0 :: zeros (4 * n)) = _
    rw [words4, ih]; rfl
/-- The module with the image at 0x300000 and context 1 to be placed; core 0 is free, or held by context 2. -/
def placeState (held : Bool) : State :=
  { ctxs := [(0, ctxF), (1, { state := .ready, plan := 0x300000 })], pci := { running := [1] }, fman := fman0, site := { sustW := 1100 }
    cores := if held then [(0, { ctx := some 2 })] else [], far := { mem := memWriteN [] 0x300000 planImg } }
/-- The plan that the image spells. -/
def plan0 : Plan :=
  { bench := [0], dieMask := 1, lead := [(0, 0)], qdt := 0x400000, ports := [List.replicate 4096 0], flows := [List.replicate 32 0], converters := [List.replicate 128 0], presets := [(0, 0)]
    tallies := List.replicate 4096 0, tokens := [List.replicate 64 0], phases := [{ dieW := [0, 0, 0, 0], durUs := 0, leadUs := 0, excMj := 0, recoverUs := 0 }], budget := List.replicate 112 0 }
def planSections : List Section :=
  [⟨2, 256, 16384, true⟩, ⟨3, 16640, 128, true⟩, ⟨4, 16768, 512, true⟩, ⟨5, 17280, 16, true⟩, ⟨6, 17296, 16384, true⟩, ⟨7, 33680, 256, true⟩, ⟨9, 33936, 32, true⟩, ⟨10, 33968, 448, true⟩]
theorem plan_fits : (planOf planImg).2 = true ∧ (planOf planImg).1.bench = [0] ∧ (planOf planImg).1.qdt = 0x400000 ∧ placeCode (placeState false) (planOf planImg).1 = 0 ∧ placeCode (placeState true) (planOf planImg).1 = 0x0811 := by
  have h1 : leAt planImg 0x0C 2 = 8 := by decide +kernel
  have h2 : leAt planImg 0x08 4 = 34416 := by decide +kernel
  have h3 : leAt planImg 0x28 8 = 1 + 2 ^ 16 + 2 ^ 32 := by decide +kernel
  have h4 : sectionsOf planImg 8 = planSections := by decide +kernel
  have s2 : sectionBytes planImg planSections 2 = zeros 16384 := planImg_zeros 256 16384 (by decide) (by decide)
  have s3 : sectionBytes planImg planSections 3 = zeros 128 := planImg_zeros 16640 128 (by decide) (by decide)
  have s4 : sectionBytes planImg planSections 4 = zeros 512 := planImg_zeros 16768 512 (by decide) (by decide)
  have s5 : sectionBytes planImg planSections 5 = zeros 16 := planImg_zeros 17280 16 (by decide) (by decide)
  have s6 : sectionBytes planImg planSections 6 = zeros 16384 := planImg_zeros 17296 16384 (by decide) (by decide)
  have s7 : sectionBytes planImg planSections 7 = zeros 256 := planImg_zeros 33680 256 (by decide) (by decide)
  have s9 : sectionBytes planImg planSections 9 = zeros 32 := planImg_zeros 33936 32 (by decide) (by decide)
  have s10 : sectionBytes planImg planSections 10 = zeros 448 := planImg_zeros 33968 448 (by decide) (by decide)
  have h5 : words4 (zeros 16384) = List.replicate 4096 0 := words4_zeros 4096
  simp only [planOf, h1, h2, h3, h4, s2, s3, s4, s5, s6, s7, s9, s10, h5]
  rw [if_neg (by decide +kernel)]
  decide +kernel
theorem plan_far (held : Bool) : FarClean (placeState held) := ⟨rfl, rfl, memWriteN_wf rfl _ _⟩
theorem plan_read (held : Bool) : memReadN (placeState held).far.mem 0x300000 34416 = planImg := by
  have h := memReadN_memWriteN (m := []) rfl 0x300000 planImg
  rw [planImg_length] at h
  exact h
theorem plan_head (held : Bool) : leAt (memReadN (placeState held).far.mem 0x300000 128) 8 4 = 34416 := by
  have h := memReadN_take (placeState held).far.mem 0x300000 34416 128
  rw [plan_read] at h
  rw [show memReadN (placeState held).far.mem 0x300000 128 = planImg.take 128 from h.symm]
  decide +kernel
theorem plan_image (held : Bool) : imageOf (placeState held) 0x300000 = planImg := by
  unfold imageOf; rw [plan_head, plan_read]
theorem plan_code (held : Bool) : imageCode (placeState held) 0x300000 planImg (planOf planImg) = 0 := by
  have h1 : ¬ (headWrong planImg 0 4 0x50545543 || headWrong planImg 0x0E 2 1 || headWrong planImg 4 2 4 || headWrong planImg 6 2 steppingLe) = true := by decide +kernel
  have h2 : (planImg.drop 0x18).take 16 = dressDigest.take 16 := by
    unfold planImg
    rw [List.drop_left' (by decide), List.take_left' (by simp [dressDigest, Config.sha512])]
  have h3 : leAt planImg 8 4 = 34416 := by decide +kernel
  unfold imageCode
  rw [if_neg h1, if_neg (fun h => h.2 h2), plan_fits.1, h3]
  cases held <;> decide
theorem met_PlacementRuns : (placeState false).advanceTo 0 = placeState false ∧ (placeState false).ctx 1 = { state := .ready, plan := 0x300000 } ∧ imageOf (placeState false) 0x300000 = planImg ∧
    (1 ∈ (placeState false).pci.running ∧ (placeState false).fman.tables = true ∧ (placeState false).candidates = [1] ∧ FarClean (placeState false) ∧ leAt (memReadN (placeState false).far.mem 0x300000 128) 8 4 = 34416 ∧ 0x300000 + 34416 ≤ farTop) ∧
    imageCode (placeState false) 0x300000 planImg (planOf planImg) = 0 ∧ placeCode (placeState false) (planOf planImg).1 = 0 ∧ (planOf planImg).1.bench.Nodup ∧
    ∃ ds, (placeState false).readQdt (planOf planImg).1 = (placeState false, some ds) ∧ ds.length = 4 * (planOf planImg).1.bench.length := by
  obtain ⟨h1, h2, h3, h4, -⟩ := plan_fits
  refine ⟨rfl, rfl, plan_image _, ⟨by decide, rfl, rfl, plan_far _, plan_head _, by decide⟩, plan_code _, h4, by rw [h2]; decide, ?_⟩
  unfold State.readQdt
  dsimp only
  rw [h2, h3, fread_clean rfl (by decide)]
  exact ⟨_, rfl, rfl⟩
/-- With core 0 held the plan waits (F_CORES); without an image in memory it is refused for good (F_FORM). -/
theorem met_PlacementRefused : ((placeState true).candidates = [1] ∧ imageOf (placeState true) 0x300000 = planImg ∧ imageCode (placeState true) 0x300000 planImg (planOf planImg) = 0 ∧ placeCode (placeState true) (planOf planImg).1 = 0x0811 ∧ permanent 0x0811 = false ∧
      FarClean (placeState true) ∧ bitOf ((placeState true).ctx 1).events 4 = false) ∧
    (let s := { placeState false with far := { mem := [(0x300008, 0x81)] } }; s.candidates = [1] ∧ leAt (memReadN s.far.mem 0x300000 128) 8 4 = 129 ∧ imageCode s 0x300000 (imageOf s 0x300000) (planOf (imageOf s 0x300000)) = 0x0801 ∧ permanent 0x0801 = true ∧ FarClean s) :=
  ⟨⟨rfl, plan_image _, plan_code _, plan_fits.2.2.2.2, rfl, plan_far _, rfl⟩, rfl, by decide +kernel, by decide +kernel, rfl, rfl, rfl, rfl⟩

/-! ### The host's registers, mailboxes and doorbells -/

theorem met_RegisterWriteForms : 0x105000 % 8 = 0 ∧ 0x105000 + 8 ≤ 0x4000000 ∧ (0x105002 % 4 ≠ 0) ∧ (2 ≠ 4 ∧ 2 ≠ 8) ∧ 0x4000000 < 0x3FFFFFC + 8 := by decide
def bar2State (ready : Bool) (bad : Tbl Bool) : State := { pci := { ready := ready }, far := { bad := bad } }
theorem met_Bar2ReadRuns : (bar2State false []).pci.ready = false ∧ (bar2State true []).pci.ready = true ∧ (bar2State true []).far.bad = [] ∧ 0xC000000000 < 0 * 2 ^ 30 + 0xBFFFFFFFFC + 8 ∧
    0 * 2 ^ 30 + 0x1000 + 8 ≤ 0xC000000000 ∧ ((bar2State true [(farBlock 4 0x1000, true)]).farRead 0x1000 8).2 = none := by decide
theorem met_Bar2WriteRuns : (bar2State true []).pci.ready = true ∧ (0x1000 + ([1, 2, 3, 4] : List Byte).length ≤ 0xC000000000) ∧ FarClean (bar2State true []) := by unfold FarClean; decide
theorem met_EvqCommitRuns : let q : EventQueue := { staged := { base := 0x1000, enable := true } }
    ({ pci := { evq := q }, dbg := { held := [(7, 2)] } } : State).pci.evq.staged.enable = true ∧ ({} : State).pci.evq.staged.enable = false ∧ ({} : State).dbg.held = [] := by decide
/-- A channel of the Governor with `n` messages that wait; the Foreman alone does not run. -/
def mailState (n : Nat) : State := { pci := { running := [0, 2, 3], chans := [(3, { inbound := List.replicate n (ask 0x40 []) })] } }
theorem met_MailboxSendRuns : ((mailState 15).pci.chan 3).inbound.length < 16 ∧ 16 ≤ ((mailState 16).pci.chan 3).inbound.length ∧ 3 ∈ (mailState 15).pci.running ∧ 1 ∉ (mailState 15).pci.running ∧
    0x140 % 256 < 0x80 ∧ ¬ (0x80 < 0x80) ∧ (0x40 ≤ 0x43 ∧ 0x43 < 0x60) := by decide
theorem met_BellsRung : ∀ p ∈ [(1, 0), (1, 1), (3, 2), (2, 3)], Rung { pci := { running := [0, 1, 2, 3], dbPend := 15 } } p.1 p.2 := by unfold Rung; decide
theorem met_DoorbellsRun : (let u := ({ pci := { running := [1], dbPend := 1 } } : State).advanceTo 0; Rung u 1 0 ∧ u.fman.tables = false) ∧
    (let u := ({ pci := { running := [1], dbPend := 1 }, fman := { tables := true } } : State).advanceTo 0; Rung u 1 0 ∧ u.fman.tables = true) ∧
    (let s := ({ base0 with pci := { running := [1], dbPend := 2 } } : State); Rung s 1 1 ∧ Rising s.ctxs) ∧
    Rung { pci := { running := [2], dbPend := 0x100, dbMask := [(2, 0x100)] } } 2 8 ∧ ¬ Rung {} 1 0 ∧ ¬ Rung {} 1 1 ∧ ¬ Rung {} 3 2 ∧ ¬ Rung {} 2 3 := by unfold Rung Rising; decide
def bootState (running : List Nat) : State := { half := 2000000000, pci := { running := running }, dbg := { stDone := true } }
theorem met_StagesRun : (let u := (bootState [0, 1, 2, 3]).advanceTo 0; u.pci.perst = true ∧ (∀ k, k < 4 → k ∈ u.pci.running) ∧ u.dbg.stDone = true ∧ u.pci.fw = .starting) ∧
    (let u := (bootState [0]).advanceTo 0; u.pci.perst = true ∧ ¬ (∀ k, k < 4 → k ∈ u.pci.running)) ∧
    (let u := ({ bootState [0] with pci := { running := [0], perst := false } } : State).advanceTo 0; u.pci.perst = false ∧ u.pci.fw = .starting ∧ u.pci.perstSince + 1000000000 ≤ u.now ∧
      0 ∈ u.pci.running ∧ 1 ∉ u.pci.running ∧ 2 ∉ u.pci.running ∧ 3 ∉ u.pci.running) ∧
    (let s : State := { pci := { perst := false }, site := { locked := true } }; s.pci.perst = false ∧ s.site.locked = true ∧ s.resets.remove ≠ .safe) := by decide

/-! ### The Governor -/

def govState (g : Governor) : State := { half := 6000000000, pci := { running := [0, 1, 2, 3] }, power := { standby := true, rails := true }, gov := g }
theorem met_ThermalRuns : 3 ∈ (govState {}).pci.running ∧ (govState {}).power.rails = true ∧ (∀ t, tblFind 3 (govState {}).gov.said = some t → t + 100000000 ≤ (govState {}).now) ∧
    3 ∉ ({} : State).pci.running ∧ (∃ t, tblFind 3 (govState { said := [(3, 2950000000)] }).gov.said = some t ∧ (govState { said := [(3, 2950000000)] }).now < t + 100000000) :=
  ⟨by decide, by decide, fun t h => (by cases h), by decide, 2950000000, by decide⟩
/-- A period is due: never one before, or the last one 1 ms ago; and one that is not. -/
theorem met_ControlPeriodRuns : (∃ t, ((govState { periodAt := some 2999500000 }).advanceTo 0).gov.periodAt = some t ∧ ((govState { periodAt := some 2999500000 }).advanceTo 0).now < t + 1000000) ∧
    (∀ t, ((govState { periodAt := some 2999000000 }).advanceTo 0).gov.periodAt = some t → t + 1000000 ≤ ((govState { periodAt := some 2999000000 }).advanceTo 0).now) ∧
    3 ∈ ((govState {}).advanceTo 0).pci.running ∧ (∀ t, ((govState {}).advanceTo 0).gov.periodAt = some t → t + 1000000 ≤ ((govState {}).advanceTo 0).now) := by
  refine ⟨⟨2999500000, by decide⟩, fun t h => ?_, by decide, fun t h => by cases h⟩
  have : some 2999000000 = some t := h
  cases this; decide
def fanGov (since : Nat) : Governor := { fans := [(2, { low := some since })], flowLow := some since }
theorem met_FanFaultRuns : ((govState {}).advanceTo 0 |>.gov.fan 2).low = none ∧ (let u := (govState (fanGov 1000000000)).advanceTo 0
    (u.gov.fan 2).low = some 1000000000 ∧ 1000000000 + 2000000000 ≤ u.now ∧ (u.gov.fan 2).fault = false ∧ 3 ∈ u.pci.running) := by decide
theorem met_FlowFaultRuns : ((govState {}).advanceTo 0).gov.flowLow = none ∧ (let u := (govState (fanGov 2000000000)).advanceTo 0
    u.gov.flowLow = some 2000000000 ∧ 2000000000 + 1000000000 ≤ u.now ∧ u.gov.flowFault = false ∧ 3 ∈ u.pci.running) := by decide
theorem met_MismatchRuns : ((govState { badRun := 199 }).advanceTo 0).gov.badRun < 200 ∧ 200 ≤ ((govState { badRun := 200 }).advanceTo 0).gov.badRun ∧ 3 ∈ ((govState {}).advanceTo 0).pci.running ∧
    (govState { mismatch := true, goodRun := 10000 }).gov.mismatch = true ∧ 10000 ≤ (govState { mismatch := true, goodRun := 10000 }).gov.goodRun ∧ (govState {}).gov.mismatch = false := by decide
theorem met_ForecastRuns : (∃ t, ((govState { pubAt := some 2995000000 }).advanceTo 0).gov.pubAt = some t ∧ ((govState { pubAt := some 2995000000 }).advanceTo 0).now < t + 10000000) ∧
    (∀ t, ((govState {}).advanceTo 0).gov.pubAt = some t → t + 10000000 ≤ ((govState {}).advanceTo 0).now) ∧ (∀ p ∈ ((govState {}).advanceTo 0).ctxs, p.2.state ≠ .placed) :=
  ⟨⟨2995000000, by decide⟩, fun t h => (by cases h), by decide⟩
def asked3 (m : MailMsg) : State := { pci := { running := [3], chans := [(3, { inbound := [m] })] } }
theorem met_CeilingRequestsRun : Asked (asked3 (ask 0x40 [])) 3 0x40 (ask 0x40 []) [] ∧ (∀ i, i ≤ 2 → Asked (asked3 (ask 0x41 [i])) 3 0x41 (ask 0x41 [i]) [] ∧ (ask 0x41 [i]).arg 1 = i) := by unfold Asked; decide
def hotGov : Governor := { tripHub := true, tripBus := true, dies := [(1, { trip := true })] }
theorem met_TripHotRuns : (let u := (govState {}).advanceTo 0; (u.gov.die 1).trip = false ∧ u.gov.tripHub = false ∧ u.power.rails = true) ∧ ((govState hotGov).advanceTo 0).gov.tripHub = true ∧
    ((govState hotGov).advanceTo 0 |>.gov.die 1).trip = true ∧ (({} : State).advanceTo 0).power.rails = false := by decide
theorem met_TripReleasesRun : (let u := (govState hotGov).advanceTo 0; (u.gov.die 1).trip = true ∧ u.gov.tripHub = true ∧ u.gov.tripBus = true) ∧
    (let u := (govState {}).advanceTo 0; (u.gov.die 1).trip = false ∧ u.gov.tripBus = false ∧ u.power.rails = true) ∧ (govState hotGov).gov.tripBus = true := by decide
theorem met_ShutdownRuns : (govState {}).power.latched = false ∧ (govState {}).power.rails = true ∧ ¬ (if true then 3800 < 3800 else 3800 < 920) ∧ ¬ (if false then 3800 < 920 else 920 < 920) ∧
    ({} : State).power.rails = false := by decide
theorem met_InputRuns : (govState {}).power.standby = true ∧ (govState {}).power.latched = false ∧ (govState {}).resets.remove ≠ .safe ∧ ({} : State).power.standby = false := by decide

/-! ### The Gatekeeper -/

def asked0 (m : MailMsg) (t : Trust) : State := { pci := { running := [0], chans := [(0, { inbound := [m] })] }, trust := t }
theorem met_FwBeginRuns : ∀ i, i ≤ 2 → Asked (asked0 (ask 0x10 [i]) { running := 0 }) 0 0x10 (ask 0x10 [i]) [] ∧ (ask 0x10 [i]).arg 1 = i ∧ (asked0 (ask 0x10 [i]) { running := 0 }).trust.running = 0 ∧
    (asked0 (ask 0x10 [i]) { running := 0 }).trust.update = none ∧ (asked0 (ask 0x10 [i]) { running := 0, update := some 1 }).trust.update ≠ none := by unfold Asked; decide
theorem met_FwDataRuns : let m := ask 0x11 [64, 32]
    Asked (asked0 m { update := some 1 }) 0 0x11 m [] ∧ (asked0 m { update := some 1 }).trust.update = some 1 ∧ m.arg 2 ≠ 0 ∧ m.arg 2 ≤ 4096 ∧ m.arg 1 + m.arg 2 ≤ 16777216 ∧ (asked0 m {}).trust.update = none := by unfold Asked; decide
/-- A package of 2,048 bytes with ROLLBACK 1: its header but for the key. -/
def packageHead : Tbl Byte := (List.range 32).zip [0x55, 0x47, 0x46, 0x57, 1, 0, 0x41, 0x31, 9, 0, 0, 0, 1, 0, 0, 0, 0, 8, 0, 0, 0, 0, 0, 0, 0, 0, 0, 0, 0, 0, 0, 0]
def packageTrust : Trust := { update := some 1, b := { bytes := packageHead }, a := { bytes := [(0, 0)] }, rollback := 1 }
/-- Where the ROM's key and the signature fit, the package in slot B is valid; slot A's is not, whatever they are. -/
theorem met_FwEndRuns : (let m := ask 0x12 []; Asked (asked0 m packageTrust) 0 0x12 m [] ∧ (asked0 m packageTrust).trust.update = some 1 ∧ (asked0 m {}).trust.update = none) ∧ ¬ ValidPackage packageTrust 0 ∧
    (Config.sha512 (((packageTrust.slotBytes 1 0 0x220).drop 0x20).take 512) = Config.romKey 0 →
      Config.sigOk (((packageTrust.slotBytes 1 0 0x220).drop 0x20).take 512) (packageTrust.slotBytes 1 0 1536) (packageTrust.slotBytes 1 1536 512) = true → ValidPackage packageTrust 1) := by
  refine ⟨by unfold Asked; decide, fun h => ?_, fun hk hs => ?_⟩
  · exact absurd h.1 (by decide +kernel)
  · have hl : leAt (packageTrust.slotBytes 1 0 0x220) 0x10 4 = 2048 := by decide +kernel
    refine ⟨by decide +kernel, by decide +kernel, by decide +kernel, by decide +kernel, by decide +kernel, by decide +kernel, by decide +kernel, .inl hk, ?_, by decide +kernel⟩
    simp only [hl]
    exact hs
theorem met_FwCommitRuns : let m := ask 0x13 []
    Asked (asked0 m { running := 0, a := { valid := true, rollback := 3 }, rollback := 1 }) 0 0x13 m [] ∧ (if (0 : Nat) = 3 then 0 else (({ running := 0, a := { valid := true, rollback := 3 }, rollback := 1 } : Trust).slot 0).rollback) = 3 ∧
    Asked (asked0 m {}) 0 0x13 m [] ∧ ({} : Trust).running = 3 := by unfold Asked; decide

/-- Owner statements for slot 2 with this module's serial, in the HOST's trust buffer: operation 1 programs, 2 revokes. -/
def ownerBuf (op : Byte) : Mem :=
  [(0, 0x4F), (1, 0x57), (2, 0x4E), (3, 0x4B), (4, op), (5, 2)] ++ (List.range 12).map (fun i => (8 + i, Config.markByte i))
theorem owner_form (op : Byte) (hop : op = 1 ∨ op = 2) : OwnerForm (memReadN (ownerBuf op) 0 0x460) op.toNat ∧ leAt (memReadN (ownerBuf op) 0 0x460) 5 1 = 2 := by
  rcases hop with rfl | rfl
  · exact ⟨⟨by decide +kernel, by decide +kernel, by decide +kernel, by decide +kernel, rfl, by decide +kernel, fun h => absurd h (by decide)⟩, by decide +kernel⟩
  · exact ⟨⟨by decide +kernel, by decide +kernel, by decide +kernel, by decide +kernel, rfl, by decide +kernel, fun _ => by decide +kernel⟩, by decide +kernel⟩
def owners0 (st : OwnerState) : Tbl OwnerSlot := [(0, { state := .active, hash := Config.sha512 (zeros 512) }), (2, { state := st })]
/-- Slot 0 holds the hash of the signer of `ownerBuf`; where the signature verifies the statement is signed. -/
theorem owner_signed (st : OwnerState) (op : Byte) (hop : op = 1 ∨ op = 2) (h : Config.sigOk (zeros 512) ((memReadN (ownerBuf op) 0 0x460).take 0x60) (((memReadN (ownerBuf op) 0 0x460).drop 0x60).take 512) = true) :
    OwnerSigned { owners := owners0 st } (memReadN (ownerBuf op) 0 0x460) 2 := by
  have hk : ((memReadN (ownerBuf op) 0 0x460).drop 0x260).take 512 = zeros 512 := by rcases hop with rfl | rfl <;> decide +kernel
  exact ⟨⟨0, by decide, by decide, rfl, by rw [hk]; rfl⟩, by rw [hk]; exact h⟩
theorem met_OwnerProgramRuns : let m := ask 0x20 []
    Asked (asked0 m { owners := owners0 .empty, hostBuf := ownerBuf 1 }) 0 0x20 m [] ∧ OwnerForm (memReadN (ownerBuf 1) 0 0x460) 1 ∧ (tblGet ({} : OwnerSlot) (owners0 .empty) 2).state = .empty ∧
    (tblGet ({} : OwnerSlot) (owners0 .active) 2).state ≠ .empty ∧ ¬ OwnerForm (memReadN [] 0 0x460) 1 ∧ (∀ j, j < 4 → (tblGet ({} : OwnerSlot) [] j).state = .empty) :=
  ⟨⟨rfl, by decide, by decide, rfl⟩, (owner_form 1 (.inl rfl)).1, by decide +kernel, by decide +kernel, fun h => absurd h.1 (by decide +kernel), by decide⟩
theorem met_OwnerRevokeRuns : let m := ask 0x21 []
    Asked (asked0 m { owners := owners0 .active, hostBuf := ownerBuf 2 }) 0 0x21 m [] ∧ OwnerForm (memReadN (ownerBuf 2) 0 0x460) 2 ∧ (tblGet ({} : OwnerSlot) (owners0 .active) 2).state = .active ∧
    (∃ j, j < 4 ∧ j ≠ 2 ∧ (tblGet ({} : OwnerSlot) (owners0 .active) j).state = .active) ∧ (tblGet ({} : OwnerSlot) (owners0 .revoked) 2).state ≠ .active ∧ ¬ OwnerForm (memReadN [] 0 0x460) 2 :=
  ⟨⟨rfl, by decide, by decide, rfl⟩, (owner_form 2 (.inr rfl)).1, by decide +kernel, ⟨0, by decide, by decide, rfl⟩, by decide +kernel, fun h => absurd h.1 (by decide +kernel)⟩
theorem met_AttestRuns : Asked (asked0 (ask 0x40 []) { hostBuf := [(3, 7)] }) 0 0x40 (ask 0x40 []) [] ∧ Memory.wf (({ hostBuf := [(3, 7)] } : Trust).buf (ask 0x40 []).sender) = true := by unfold Asked; decide
theorem met_GetRuns : (∀ i, i ≤ 3 → Asked (asked0 (ask 0x41 [i]) {}) 0 0x41 (ask 0x41 [i]) [] ∧ (ask 0x41 [i]).arg 1 = i) ∧ Asked (asked0 (ask 0x42 []) {}) 0 0x42 (ask 0x42 []) [] ∧ Asked (asked0 (ask 0x43 []) {}) 0 0x43 (ask 0x43 []) [] ∧
    Memory.wf (({} : Trust).buf 0) = true := by unfold Asked; decide
theorem met_FallbackRuns : ({} : Trust).running = 3 ∧ (let t : Trust := { running := 0, b := { valid := true } }; t.running ≤ 1 ∧ (t.slot (1 - t.running)).valid = true ∧ t.restarted = false) ∧
    ({} : State).pci.evq.inForce.enable = false ∧ (let t : Trust := { running := 1 }; t.running ≤ 1 ∧ (t.slot (1 - t.running)).valid = false) := by decide
theorem met_SmbusRefuses : ({} : State).power.standby = false ∧ 0 ∉ ({} : State).pci.running := by decide
theorem met_SmbusRuns : let s : State := { power := { standby := true }, pci := { running := [0], chans := [(2, { replies := [(1, [ask 0 []])] })] } }
    s.power.standby = true ∧ 0 ∈ s.pci.running ∧ tblGet [] (s.pci.chan 0).replies 1 = [] ∧ tblGet [] (s.pci.chan 2).replies 1 = ask 0 [] :: [] := by decide

/-! ### The site image, resets and power-up -/

/-- The smallest copy: its head with SEQUENCE `q` and key slot 0, the owner's key, and a signature. -/
def siteCopy (q : Byte) : List Byte := [0x53, 0x49, 0x54, 0x45, 1, 0, 0, 0, 0x24, 4, 0, 0, q, 0, 0, 0] ++ zeros 16 ++ [1, 0, 0, 2] ++ zeros 512 ++ zeros 512
theorem site_copy (t : Trust) (q : Byte) (hq : q = 1 ∨ q = 2) (ho : t.owners = owners0 .empty)
    (h : Config.sigOk (zeros 512) ((siteCopy q).take 548) (((siteCopy q).drop 548).take 512) = true) : ValidCopy t (siteCopy q) := by
  rcases hq with rfl | rfl
  · refine ⟨by decide +kernel, by decide +kernel, by decide +kernel, by decide +kernel, by decide +kernel, by decide +kernel, by decide +kernel, by decide +kernel, zeros 512, [], by decide +kernel, by decide +kernel, ?_, ?_, h⟩
    · rw [ho]; rfl
    · rw [ho]; rfl
  · refine ⟨by decide +kernel, by decide +kernel, by decide +kernel, by decide +kernel, by decide +kernel, by decide +kernel, by decide +kernel, by decide +kernel, zeros 512, [], by decide +kernel, by decide +kernel, ?_, ?_, h⟩
    · rw [ho]; rfl
    · rw [ho]; rfl
/-- Where their signatures verify, two copies are valid and the second has the larger SEQUENCE; an empty copy is not. -/
theorem met_SiteApplyRuns : (let s : State := { pci := { running := [0] }, trust := { owners := owners0 .empty } }; s.site.locked = false ∧ 0 ∈ s.pci.running) ∧ leAt (siteCopy 1) 0x0C 4 < leAt (siteCopy 2) 0x0C 4 ∧
    ¬ ValidCopy {} [] ∧ 0 ∉ ({} : State).pci.running := ⟨by decide, by decide +kernel, fun h => absurd h.1 (by decide), by decide⟩
/-- A placed context begins to be killed, a dead one is FREE (14_host R397). -/
theorem test_function_reset : (match exec .functionReset (base0.setCtx 2 { state := .dead }) with | .next t => (t.ctx 1).killing && (t.ctx 1).toFree && (t.ctx 2).state == .free | _ => false) = true := by decide
theorem met_FunctionResetEmpty : ({} : State).ctxs = [] := rfl
theorem met_PerstAssertRuns : ({} : State).pci.perst = true ∧ ({ pci := { perst := false } } : State).pci.perst = false := by decide
theorem met_WarmResetRuns : 0 ≠ 0x5752 ∧ (let s : State := { cores := [(0, { stFail := true })] }; s.ctxs = [] ∧ s.resets.removeReq = false) ∧ base0.ctxs ≠ [] := by decide

/-! ### Power-up, the time base, removal, far memory controllers -/

def upState : State := { power := { standby := true, inputCv := 5400, stage := true } }
theorem met_PowerUpRuns : (upState.power.standby = true ∧ upState.power.stage = true ∧ upState.power.rails = false ∧ upState.power.latched = false ∧ upState.resets.remove ≠ .safe) ∧ ({} : State).power.standby = false ∧
    ((govState {}).power.rails = true ∧ (tblGet {} (govState {}).dies 2 : Die).released = false) ∧ (tblGet {} base0.dies 0 : Die).released = true ∧
    (let s := { govState {} with pci := { perst := false, running := [1] } }; s.power.rails = true ∧ s.pci.perst = false ∧ 1 ∈ s.pci.running ∧ s.pci.ready = false ∧ (∀ c ∈ s.far.chans, c.2.trained = false)) ∧
    (∃ c ∈ ({ far := { chans := [(3, { trained := true })] } } : State).far.chans, c.2.trained = true) := by decide
theorem met_TimeBaseRuns : ({} : State).half < ({} : State).corrected + 2000 ∧ (let s : State := { half := 2000, dies := [(0, { released := true })] }; s.corrected + 2000 ≤ s.half ∧ (tblGet {} s.dies 0 : Die).released = true) := by decide
/-- A module with its control cores running, in removal state `r` since time 0. -/
def removeState (r : RemoveState) (t : Twin) (x : CtxState) : State :=
  { half := 20000000000, pci := { running := [0, 1, 2, 3] }, resets := { remove := r }, links := { twin := t }, ctxs := [(1, { state := x })] }
def copy0 : MirrorCopy := { epoch := 3, buf := true, units := 1, todo := [], sent := [512], whole := true, covers := 1 }
theorem met_RemoveReqRuns : (let w := (removeState .none {} .placed).advanceTo 0; 1 ∈ w.pci.running ∧ 2 ∈ w.pci.running ∧ 3 ∈ w.pci.running ∧ w.resets.remove = .none ∧ w.links.twin.copy = none ∧ Rising w.ctxs ∧ (∀ p ∈ w.ctxs, p.2.state ≠ .suspended)) ∧
    (let w := (removeState .none { pair := .paired, copy := some copy0 } .placed).advanceTo 0; w.resets.remove = .none ∧ w.links.twin.pair = .paired ∧ w.links.twin.copy ≠ none) ∧
    ((removeState .draining {} .placed).advanceTo 0).resets.remove ≠ .none := by unfold Rising; decide
theorem met_RemovalStepsRun : (let u := (removeState .settling {} .placed).advanceTo 0; u.resets.remove = .settling ∧ u.resets.drainSince + 2000000000 ≤ u.now ∧ Rising u.ctxs ∧ (∀ p ∈ u.ctxs, p.2.state ≠ .suspended)) ∧
    (let u := (removeState .draining {} .placed).advanceTo 0; u.resets.remove = .draining ∧ u.resets.drainSince + 10000000000 ≤ u.now ∧ Rising u.ctxs ∧
      (u.ctxs.filter (fun p => p.2.state == .placed || p.2.state == .suspended || p.2.state == .killing)).length ≠ 0) ∧
    (let u := (removeState .draining {} .ready).advanceTo 0; u.resets.remove = .draining ∧ (u.ctxs.filter (fun p => p.2.state == .placed || p.2.state == .suspended || p.2.state == .killing)).length = 0) ∧
    ((removeState .none {} .ready).advanceTo 0).resets.remove ≠ .settling := by unfold Rising; decide
theorem met_RemoveCancelRuns : ((removeState .none {} .ready).advanceTo 0).resets.remove ≠ .settling ∧ ((removeState .settling {} .ready).advanceTo 0).resets.remove = .settling := by decide
theorem met_FarControllersRun : ∀ ue, let s : State := { far := { chans := [(3, { trained := true })], bad := [(2 ^ 27 * 3 + 5, ue)] } }
    (s.chan 3).trained = true ∧ tblFind (2 ^ 27 * 3 + 5) s.far.bad = some ue ∧ tblFind (2 ^ 27 * 3 + 6) s.far.bad = none ∧ (s.chan 4).trained = false := by decide

/-! ### Ports and frames -/

/-- Ports 2 and 16 are UP; node 9 is behind port 2. -/
def up0 : Port := { enable := true, state := .up }
def links0 (t : Twin) : Links := { node := 7, ports := [(2, up0), (16, up0)], routes := [(9, 0x402)], twin := t }
def linkState (t : Twin) : State := { half := 40000000, pci := { running := [0, 1, 2, 3] }, links := links0 t }
def portState2 (x : Port) : State := { half := 40000000, pci := { running := [0, 1, 2, 3] }, links := { links0 {} with ports := [(2, x), (16, x)] } }
/-- A frame of node 9 for this module on lane `vl`, with the SEQ that is due. -/
def frameOn (vl : Nat) (b : FrameBody) : Frame := { vl := vl, seq := 0, hops := 0, dst := 7, src := 9, good := true, body := b }
theorem forMe (s : State) (p vl : Nat) (b : FrameBody) (h : p < 17 ∧ (s.port p).state = .up ∧ vl ≤ 9 ∧ (s.port p).rxLast = 4095 ∧ s.links.node = 7) (hl : OnLane p (frameOn vl b)) : ForMe s p (frameOn vl b) :=
  ⟨h.1, ⟨h.2.1, rfl, h.2.2.1, Nat.zero_le 3, hl, by rw [h.2.2.2.1]; rfl⟩, .inl h.2.2.2.2.symm⟩

theorem met_Trained : (let s := linkState { pair := .paired }; (s.port 16).enable = true ∧ s.resets.remove ≠ .safe ∧ s.links.twin.pair = .paired) ∧ (({} : State).port 2).enable = false := by decide
theorem met_TrainingRuns : (∀ n ∈ [1, 2], let s := portState2 { enable := true, state := .training, fails := n }; (s.port 2).enable = true ∧ (s.port 2).state = .training ∧ 2 ∈ s.pci.running ∧ (s.port 2).fails = n) ∧
    ((linkState {}).port 2).state ≠ .training := by decide
theorem met_RetrainRuns : ((portState2 { state := .down }).port 2).state = .down ∧ ((linkState {}).port 2).state ≠ .down ∧ ((portState2 { up0 with rounds := 16 }).port 2).state = .up ∧ 16 ≤ ((portState2 { up0 with rounds := 16 }).port 2).rounds ∧
    ((linkState {}).port 2).rounds < 16 := by decide
def held0 : Frame := { frameOn 0 (.claimEnd 5) with dst := 12 }
theorem met_PortTimesRun : ((linkState {}).port 2).state = .up ∧ ((linkState {}).port 3).state ≠ .up ∧ ((portState2 { up0 with unacked := [held0] }).port 2).unacked ≠ [] ∧ ((linkState {}).port 2).rx[0]? = none ∧
    (∀ t ∈ [0, 19999999], let s := portState2 { up0 with rx := [(t, held0)] }; (s.port 2).rx[0]? = some (t, held0) ∧ (t = 0 → t + 1000000 < s.now) ∧ (t = 19999999 → s.now ≤ t + 1000000)) := by decide
theorem met_LinkRuns : ((linkState {}).port 2).state = .up ∧ ((linkState {}).port 2).waiting = [] ∧ (∀ q, q < 17 → ((linkState {}).port q).rx = []) ∧ (∃ f ∈ ((portState2 { up0 with unacked := [held0] }).port 2).unacked, f.seq = 0) := by decide
theorem met_Sends : ((linkState {}).port 2).unacked.length < 1024 ∧ (∀ g ∈ ((linkState {}).port 2).unacked, g.seq ≠ ((linkState {}).port 2).txNext) ∧ tblGet 0 ((linkState {}).port 2).spent 0 + frameUnits held0 ≤ 4096 ∧
    4096 < tblGet 0 ((portState2 { up0 with spent := [(0, 4096)] }).port 2).spent 0 + frameUnits held0 := by decide
theorem met_FrameSent : (linkState {}).routePort 9 = some 2 ∧ (linkState {}).routePort 12 = none ∧ ((linkState {}).port 2).state = .up ∧ ((linkState {}).port 2).waiting = [] ∧ ((linkState {}).port 16).state = .up := by decide
/-- A port that sounds with two lanes, lane 1 locked since 5 ns. -/
def soundPort (loop : Nat) : Port := { enable := true, state := .sounding, sounding := { inForce := { lanes := 3, loop := loop, en := true }, lanes := [(1, { since := some 5 })] } }
theorem met_LockLostRun : (let x := (portState2 (soundPort 0)).port 2; x.state = .sounding ∧ 1 < (if 2 = 16 then 8 else 4) ∧ bitOf x.sounding.inForce.lanes 1 = true ∧ x.sounding.inForce.pattern < 8 ∧
      (tblGet ({} : SoundLane) x.sounding.lanes 1).since = some 5 ∧ (tblGet ({} : SoundLane) x.sounding.lanes 0).since = none) ∧ ((linkState {}).port 2).state ≠ .sounding ∧ (({} : State).bridge 3).busy = false ∧
    (({ dbg := { bridges := [(3, { busy := true })] } } : State).bridge 3).busy = true := by decide
/-- Turned away: a port that is not UP, a bad frame, an early one; forwarded: without a route, to an UP port, held for want of credit. -/
theorem met_TurnedAway : let s := linkState {}
    (s.port 3).state ≠ .up ∧ (s.port 2).state = .up ∧ { held0 with good := false }.good = false ∧ OnLane 2 held0 ∧ { held0 with seq := 2 }.seq ≠ ((s.port 2).rxLast + 1) % 4096 ∧ InOrder s 2 held0 ∧ held0.dst ≠ s.links.node ∧
    held0.vl < 8 ∧ s.routePort 12 = none ∧ held0.hops ≠ 3 ∧ InOrder s 16 { held0 with dst := 9 } ∧ s.routePort 9 = some 2 ∧ ((gotFrame s 16 held0).port 2).state = .up := by
  refine ⟨by decide, by decide, by decide, rfl, by decide, ⟨by decide, rfl, by decide, by decide, rfl, by decide⟩, by decide, by decide, by decide, by decide, ⟨by decide, rfl, by decide, by decide, rfl, by decide⟩, by decide, by decide⟩

/-! ### Claims -/

def job0 : Job := { job := 30, ctx := 1, valid := true, permit := [(1, 2)] }
/-- A job of context 1 that permits node 9, with the claims `ds` of other modules and `ss` of this one. -/
def claimState (ds : List DstClaim) (ss : List SrcClaim) : State :=
  { base0 with half := 40000000, pci := { running := [0, 1, 2, 3] }, links := { links0 {} with jobs := [(0, job0)], dst := ds, src := ss } }
def dst0 : DstClaim := { src := 9, id := 5, gen := 0, ctx := 1, base := 0x2000, len := 1024, sigEn := true, sigTid := 2, sigInc := 1, next := 1, open_ := [0] }
def claim0 (job base : Nat) : Frame := frameOn 0 (.claim job 5 0 base 512 2 true 1)
theorem met_ClaimRuns : ForMe (claimState [] []) 2 (claim0 30 0x2000) ∧ (claimState [] []).links.dst.find? (fun d => d.src == 9 && d.id == 5) = none ∧ (claimState [dst0] []).links.dst.find? (fun d => d.src == 9 && d.id == 5) = some dst0 ∧
    Taken dst0.gen 1 ∧ ¬ Taken dst0.gen 2 ∧ (claimState [] []).jobEntry 31 = none ∧ (claimState [] []).jobEntry 30 = some job0 ∧ ClaimLegal (claimState [] []) job0 9 0x2000 512 ∧ ¬ ClaimLegal (claimState [] []) job0 8 0x2000 512 ∧
    (claimState [] []).links.dst.length < 8192 ∧ ((claimState [] []).ctx 1).state = .placed ∧ (((claimState [] []).setCtx 1 { ctx0 with state := .ready }).ctx 1).state ≠ .placed ∧ addrClass (slabAddr0 1) = .slab 1 0 := by
  refine ⟨forMe _ _ _ _ (by decide) rfl, by decide, by decide, .inr rfl, by unfold Taken; decide, by decide, by decide, ⟨by decide, by decide, by decide, by decide, by decide, .inr ⟨by decide, .inl (by decide)⟩⟩, fun h => ?_, by decide, by decide, by decide, by decide⟩
  exact absurd h.1 (by decide)
theorem met_ClaimFinalRuns : dst0.sigEn = true ∧ dst0.dead = false ∧ { dst0 with dead := true }.dead = true := by decide
def src0 : SrcClaim := { id := 5, core := 0, eng := 2, rec_ := 0, ctx := 1, node := 9, job := 30, base := 0x2000, len := 1024, sigEn := false, sigTid := 0, sigInc := 0, progress := 0 }
theorem met_ClaimAckRuns : ForMe (claimState [] [src0]) 2 (frameOn 4 (.claimAck 5 0)) ∧ (claimState [] [src0]).links.src.find? (fun c => c.id == 5 && c.node == 9 && !c.answered) = some src0 ∧
    (claimState [] [{ src0 with answered := true }]).links.src.find? (fun c => c.id == 5 && c.node == 9 && !c.answered) = none := ⟨forMe _ _ _ _ (by decide) rfl, by decide⟩
theorem met_ClaimRetryRuns : (claimState [] []).links.src.find? (fun c => c.id == 5) = none ∧ (claimState [] [src0]).links.src.find? (fun c => c.id == 5) = some src0 ∧ src0.waitSince = none ∧ 0 + 10000 ≤ (claimState [] []).now ∧
    (claimState [] []).now < 19999999 + 10000 := by decide
theorem met_ClaimEndRuns : ForMe (claimState [dst0] []) 2 (frameOn 0 (.claimEnd 5)) := forMe _ _ _ _ (by decide) rfl
/-- A WRITE of 4 bytes at index `i`: the next one is 1; to far memory, to a slab of a placed context, to one whose context is away. -/
def write0 (i gen : Nat) : Frame := frameOn 0 (.write 512 i 5 gen [1, 2, 3, 4])
theorem met_WriteRuns : ForMe (claimState [dst0] []) 2 (write0 1 0) ∧ (claimState [] []).links.dst.find? (fun d => d.src == 9 && d.id == 5) = none ∧ (claimState [dst0] []).links.dst.find? (fun d => d.src == 9 && d.id == 5) = some dst0 ∧
    ¬ Waits (claimState [dst0] []) 9 5 1 512 ∧ Taken dst0.gen 0 ∧ ¬ Taken dst0.gen 3 ∧ dst0.next < 2 ∧ (0 < dst0.next ∧ 0 ∈ dst0.open_) ∧ (0 < dst0.next ∧ 0 ∉ { dst0 with open_ := [] }.open_) ∧ dst0.dead = false ∧
    { dst0 with dead := true }.dead = true ∧ addrClass (dst0.base + 512) = .far ∧ addrClass ({ dst0 with base := farTop }.base + 512) = .check ∧ addrClass ({ dst0 with base := slabAddr0 1 }.base + 512) = .slab 1 512 ∧ ((claimState [dst0] []).core 1).slab.bank (512 / 512) = .on ∧
    (let d := { dst0 with base := slabAddr0 1 }; Waits ((claimState [d] []).setCtx 1 { ctx0 with state := .ready }) 9 5 1 512) := by
  refine ⟨forMe _ _ _ _ (by decide) rfl, by decide, by decide, ?_, .inl rfl, by unfold Taken; decide, by decide, by decide, by decide, by decide, by decide, by decide, by decide, by decide, by decide,
    ⟨_, 1, 512, rfl, by decide, rfl, rfl, .inl (by decide)⟩⟩
  intro ⟨d, home, off, h1, h2, _⟩
  have hd : some dst0 = some d := h1
  cases hd
  exact absurd h2 (by rw [show addrClass (dst0.base + 512) = .far from by decide]; exact fun h => by cases h)
theorem met_CommitAckRuns : ForMe (claimState [] [src0]) 2 (frameOn 4 (.commitAck 5 0 true)) ∧ (claimState [] []).links.src.find? (fun c => c.id == 5 && c.node == 9) = none ∧ (claimState [] [src0]).links.src.find? (fun c => c.id == 5 && c.node == 9) = some src0 ∧
    (((claimState [] [src0]).core 0).mv 2).rec_ 0 = none ∧ (((mvState 0x2000 0x3000).core 0).mv 2).rec_ 0 = some (mvRec0 0x2000 0x3000) ∧ ((mvState 0x2000 0x3000).ctx 1).killing = false ∧ ((mvState 0x2000 0x3000).core 0).ctx = some 1 :=
  ⟨forMe _ _ _ _ (by decide) rfl, by decide⟩
theorem met_CommitRemoteRuns : (claimState [] []).links.dst.find? (fun d => d.src == 9 && d.id == 5) = none ∧ (claimState [dst0] []).links.dst.find? (fun d => d.src == 9 && d.id == 5) = some dst0 ∧ dst0.len ≤ dst0.committed + 1024 ∧ dst0.final = false := by decide

/-! ### Signals between modules -/

/-- Context 1 as it is; away with a save area; without one. -/
theorem met_RemoteAddRuns : (base0.ctx 1).home 9 = none ∧ ((base0.ctx 1).home 2 = some ⟨true, 0, 6⟩ ∧ (base0.ctx 1).killing = false ∧ (base0.ctx 1).state = .placed) ∧
    (let x := (base0.setCtx 1 { ctx0 with state := .ready, preserve := true, switches := 1, save := 0x300000 }).ctx 1; x.home 2 = some ⟨true, 0, 6⟩ ∧ x.killing = false ∧ x.state ≠ .placed ∧ x.state = .ready ∧ x.preserve = true ∧ 0 < x.switches) ∧
    ofLe (memReadN base0.far.mem (0x300000 + 4 * 2) 4) + 1 < 0xFFFFFFFF ∧ 0xFFFFFFFF ≤ ofLe (memReadN base0.far.mem (0x300000 + 4 * 2) 4) + 0xFFFFFFFF ∧ base0.far.bad = [] ∧
    (({ base0 with far := { bad := [(farBlock 4 0x300008, true)] } } : State).farRead 0x300008 4).2 = none := by decide
theorem met_SignalFrameRuns : ForMe (claimState [] []) 2 (frameOn 0 (.signal 30 2 4 1 0)) ∧ Taken ({} : SigIn).gen 0 ∧ ¬ Taken ({} : SigIn).gen 2 ∧ (∀ p ∈ [(1, 1), (0, 0), (64512, 64512), (2, 2)], (p.1 + 65536 - ({} : SigIn).last) % 65536 = p.2) ∧
    (claimState [] []).jobEntry 30 = some job0 ∧ job0.permits 9 = true ∧ (claimState [] []).jobEntry 31 = none := ⟨forMe _ _ _ _ (by decide) rfl, .inl rfl, by unfold Taken; decide, by decide, by decide, by decide, by decide⟩
def sig0 : SrcSignal := { sigId := 1, core := 0, eng := 1, rec_ := 0, ctx := 1, job := 30, tid := 2, count := 4 }
def sigState (ws : List SrcSignal) : State := { base0 with half := 40000000, links := { links0 {} with sigOut := [(9, { waiting := ws })] } }
theorem met_SignalAckRuns : ForMe (sigState [sig0]) 2 (frameOn 4 (.signalAck 1)) ∧ (tblGet ({} : SigStream) (sigState []).links.sigOut 9).waiting.find? (fun m => m.sigId == 1) = none ∧
    (tblGet ({} : SigStream) (sigState [sig0]).links.sigOut 9).waiting.find? (fun m => m.sigId == 1) = some sig0 ∧ ((sigState [sig0]).core sig0.core).ctx = some sig0.ctx ∧ ((sigState [sig0]).ctx sig0.ctx).killing = false ∧ (({} : State).core 0).ctx ≠ some 1 :=
  ⟨forMe _ _ _ _ (by decide) rfl, by decide⟩
theorem met_ResendRuns : (tblGet ({} : SigStream) (sigState []).links.sigOut 9).waiting = [] ∧ ((tblGet ({} : SigStream) (sigState [sig0]).links.sigOut 9).waiting ≠ [] ∧ 0 + 2000000 ≤ (sigState [sig0]).now) ∧
    (claimState [] []).links.src.find? (fun c => c.id == 5) = none ∧ (claimState [] [src0]).links.src.find? (fun c => c.id == 5) = some src0 ∧ { src0 with answered := true }.answered = true ∧
    ¬ (src0.waitSince ≠ none ∨ src0.answered = true ∧ src0.writes = [] ∨ (claimState [] []).now < src0.progress + 2000000) := by decide

/-! ### Pairing, the Banksman's requests, mirrors and shadows -/

def paired (t : Twin) : Twin := { t with enable := true, slot := 9, pair := .paired }
def restore0 : Restore := { epoch := 3, mark := 8, req := { channel := 2, sender := 0, header := 0x313 } }
theorem met_FreezeRuns : (linkState {}).links.twin.restore = none ∧ (linkState { restore := some restore0 }).links.twin.restore = some restore0 := by decide
theorem met_HelloRuns : ForMe (linkState (paired {})) 16 (frameOn 9 (.hello [] 9 0 7 2 0 0 0)) ∧ (linkState {}).links.twin.pair = .disabled ∧ (linkState (paired {})).links.twin.pair ≠ .disabled ∧ (9 = (linkState (paired {})).links.twin.slot) ∧
    7 = (linkState {}).links.node ∧ bitOf 2 1 = true ∧ bitOf 0 1 = false := ⟨forMe _ _ _ _ (by decide) (.inl ⟨rfl, rfl⟩), by decide⟩
theorem met_HeartbeatRuns : ForMe ((linkState (paired {})).advanceTo 0) 2 (frameOn 0 (.heartbeat 3 0)) ∧ (frameOn 0 (.heartbeat 3 0)).src = ((linkState (paired {})).advanceTo 0).links.twin.slot ∧
    (let w := (linkState (paired {})).advanceTo 0; w.links.twin.enable = true ∧ 2 ∈ w.pci.running ∧ w.links.twin.pair = .paired ∧ w.links.twin.heard + 10000000 ≤ w.now) ∧ ((linkState {}).advanceTo 0).links.twin.enable = false ∧
    ((linkState {}).advanceTo 0).links.twin.pair ≠ .paired ∧ (frameOn 0 (.heartbeat 3 0)).src ≠ ((linkState {}).advanceTo 0).links.twin.slot := ⟨forMe _ _ _ _ (by decide) (.inr rfl), by decide⟩
/-- A request in channel 2. -/
def asked2 (m : MailMsg) (t : Twin) (x : Ctx) : State :=
  { linkState t with pci := { running := [0, 1, 2, 3], chans := [(2, { inbound := [m] })] }, ctxs := [(0, ctxF), (1, x)], far := { mem := [(0x300002, 1), (0x30000A, 1)] } }
theorem met_RouteLoadRuns : (let m := ask 1 [0x300000, 0, 9, 2]; Asked (asked2 m {} {}) 2 0x01 m [] ∧ m.arg 3 + m.arg 4 ≤ 65536 ∧ ((asked2 m {} {}).ctx 0).farOk .r (m.arg2 1) (4 * m.arg 4) = true) ∧
    (let m := ask 1 [0x300000, 0, 65535, 2]; Asked (asked2 m {} {}) 2 0x01 m [] ∧ ¬ (m.arg 3 + m.arg 4 ≤ 65536)) ∧
    (let m := ask 1 [0x300000, 0, 9, 2]; let s := { asked2 m {} {} with far := { bad := [(farBlock 4 0x300000, true)] } }; ((taken s 2 []).farRead (m.arg2 1) 8).2 = none ∧ (asked2 m {} {}).far.bad = []) := by unfold Asked; decide
theorem met_JobsRun : (∀ i ∈ [15, 16], let m := ask 2 [i, 30, 1, 0x300000, 0]; Asked (asked2 m {} {}) 2 0x02 m [] ∧ m.arg 1 = i ∧ m.arg 3 = 1 ∧ ((asked2 m {} {}).ctx 0).farOk .r (m.arg2 4) 8192 = true ∧
      (∀ j ∈ (asked2 m {} {}).links.jobs, j.2.valid = false)) ∧ (let m := ask 2 [15, 30, 1, 0, 1]; ((asked2 m {} {}).ctx 0).farOk .r (m.arg2 4) 8192 = false) ∧
    (∃ j ∈ (claimState [] []).links.jobs, j.1 ≠ 15 ∧ j.2.valid = true ∧ j.2.ctx = 1) ∧ (∀ i ∈ [15, 16], let m := ask 3 [i]; Asked (asked2 m {} {}) 2 0x03 m [] ∧ m.arg 1 = i) := by unfold Asked; decide
theorem met_RetrainRequestRuns : let m := ask 0x14 [4]; Asked (asked2 m {} {}) 2 0x14 m [] ∧ bitOf (m.arg 1) 2 = true ∧ ((asked2 m {} {}).port 2).enable = true := by unfold Asked; decide
/-- A mirror set of context 1 with one range of 64 KiB at 0x10000. -/
def mset0 (n : Nat) : MirrorSet := { ctx := 1, tid := 2, fence := 0x8000, mark := 1, ranges := [(0x10000, 65536 * n)] }
/-- MIRROR_SET with the list at 0x300000: one range, 64 KiB at 0x10000. -/
def msetMsg (n : Nat) : MailMsg := ask 0x10 [1, 2, 0x8000, 0, 1, 0, 0x300000, 0, n]
theorem met_MirrorSetRuns : (let s := asked2 (msetMsg 1) {} { ctx0 with preserve := true }; let m := msetMsg 1
      Asked s 2 0x10 m [] ∧ (m.arg 1 ≤ 1023 ∧ m.arg 2 ≤ 4095 ∧ 0 < m.arg 9 ∧ m.arg 9 ≤ 64 ∧ (s.ctx 0).farOk .r (m.arg2 7) (16 * m.arg 9) = true) ∧ (s.ctx (m.arg 1)).preserve = true ∧ s.rangesOk (m.arg 1) (namedSet m (memReadN s.far.mem (m.arg2 7) 16)).ranges = true ∧
      s.links.twin.mset = none ∧ namedSet m (memReadN s.far.mem (m.arg2 7) 16) = mset0 1 ∧ s.far.bad = []) ∧ (msetMsg 0).arg 9 = 0 ∧ (ctx0.preserve = false) ∧ (({} : State).rangesOk 1 [(1, 1)] = false) ∧
    ((linkState { mset := some (mset0 1) }).links.twin.mset = some (mset0 1) ∧ (mset0 2).ranges.map Prod.snd ≠ (mset0 1).ranges.map Prod.snd) ∧
    (let s := asked2 (ask 0x11 []) { copy := some copy0 } {}; Asked s 2 0x11 (ask 0x11 []) [] ∧ s.links.twin.copy ≠ none) ∧ (let s := asked2 (ask 0x11 []) {} {}; Asked s 2 0x11 (ask 0x11 []) [] ∧ s.links.twin.copy = none) := by
  unfold Asked; decide
theorem met_ShadowSetRuns : (let m := ask 0x12 [0x40000, 0, 0x80000, 0, 0x20000, 0]; Asked (asked2 m {} {}) 2 0x12 m [] ∧ 65536 ≤ m.arg2 5 ∧ ((asked2 m {} {}).ctx 0).farOk .w (m.arg2 1) (m.arg2 5) = true ∧
      ((asked2 m {} {}).ctx 0).farOk .w (m.arg2 3) (m.arg2 5) = true) ∧ (let m := ask 0x12 [0x40000, 0, 0, 1, 0x20000, 0]; Asked (asked2 m {} {}) 2 0x12 m [] ∧ ((asked2 m {} {}).ctx 0).farOk .w (m.arg2 3) (m.arg2 5) = false) ∧
    (let m := ask 0x12 [0x40000, 0, 0x80000, 0, 65535, 0]; Asked (asked2 m {} {}) 2 0x12 m [] ∧ m.arg2 5 < 65536) := by unfold Asked; decide
theorem met_RestoreRuns : let m := ask 0x13 [3, 8, 0];
    (let s := asked2 m {} {}; Asked s 2 0x13 m [] ∧ s.links.twin.mset = none) ∧ (let s := asked2 m { mset := some (mset0 1) } {}; Asked s 2 0x13 m [] ∧ s.links.twin.mset = some (mset0 1) ∧ s.links.twin.pair ≠ .paired) ∧
    (let s := asked2 m (paired { mset := some (mset0 1) }) ctx0; s.links.twin.mset = some (mset0 1) ∧ (s.ctx (mset0 1).ctx).state = .placed) ∧
    (let s := asked2 m (paired { mset := some (mset0 1), copy := some copy0 }) {}; Asked s 2 0x13 m [] ∧ s.links.twin.pair = .paired ∧ (s.ctx (mset0 1).ctx).state ≠ .placed ∧ s.links.twin.copy ≠ none) ∧
    (let s := asked2 m (paired { mset := some (mset0 1) }) {}; Asked s 2 0x13 m [] ∧ s.links.twin.mset = some (mset0 1) ∧ s.links.twin.pair = .paired ∧ (s.ctx (mset0 1).ctx).state ≠ .placed ∧ s.links.twin.restore = none ∧ s.links.twin.copy = none) := by
  unfold Asked; decide
/-- The running copy with nothing sent: its last unit is acknowledged, or unit 4 is next. -/
def copyAt (todo sent : List Nat) (settle : Bool) : MirrorCopy := { copy0 with todo := todo, sent := sent, settleSent := settle }
theorem met_CopyGoesOn : (linkState {}).links.twin.copy = none ∧ (∀ todo ∈ [[], [4]], let t := (linkState (paired { copy := some (copyAt todo [] false) })).links.twin; t.copy = some (copyAt todo [] false) ∧ t.pair = .paired ∧
    (copyAt todo [] false).sent = [] ∧ (copyAt todo [] false).settleSent = false ∧ (copyAt todo [] false).todo = todo) ∧ (copyAt [] [512] false).sent ≠ [] ∧ (linkState { copy := some copy0 }).links.twin.pair ≠ .paired := by decide
theorem met_CopyStarts : (linkState {}).links.twin.mset = none ∧ (let t := (linkState { mset := some (mset0 1) }).links.twin; t.mset = some (mset0 1) ∧ t.pair ≠ .paired) ∧
    (let t := (linkState (paired { mset := some (mset0 1), partner := { sset := true }, closed := 3, owed := true, heldB := some 1 })).links.twin;
      t.mset = some (mset0 1) ∧ t.pair = .paired ∧ t.partner.sset = true ∧ t.departing = false ∧ t.copy = none ∧ t.restore = none ∧ t.closed ≠ 0 ∧ t.owed = true ∧ 3 ≤ t.closed) := by decide
/-- A fence object at 0x8000 whose count is `n` and whose state is `st`. -/
def pollState (n st : Byte) (bad : Tbl Bool) : State :=
  { linkState { mset := some (mset0 1) } with far := { mem := (if n = 0 then [] else [(0x8000, n)]) ++ (if st = 0 then [] else [(0x8008, st)]), bad := bad } }
theorem met_EpochPollRuns : (linkState {}).links.twin.mset = none ∧ (let s := pollState 1 0 []; s.links.twin.mset = some (mset0 1) ∧ 2 ∈ s.pci.running ∧ (mset0 1).fence + 16 ≤ farTop) ∧ farTop < { mset0 1 with fence := farTop }.fence + 16 ∧
    ((pollState 1 0 [(farBlock 4 0x8000, true)]).farRead 0x8000 16).2 = none ∧ (∃ bs, ((pollState 0 0 []).farRead 0x8000 16).2 = some bs ∧ ofLe (bs.take 8) < (mset0 1).mark) ∧
    (∃ bs, ((pollState 1 2 []).farRead 0x8000 16).2 = some bs ∧ ofLe (bs.drop 8) % 4 = 2) ∧ (∃ bs, ((pollState 1 0 []).farRead 0x8000 16).2 = some bs ∧ (mset0 1).mark ≤ ofLe (bs.take 8) ∧ ofLe (bs.drop 8) % 4 ≠ 2) := by
  refine ⟨by decide, by decide, by decide, by decide, ⟨_, rfl, by decide⟩, ⟨_, rfl, by decide⟩, ⟨_, rfl, by decide⟩⟩
/-- Shadow buffers of 192 KiB; A is `a`. -/
def sset0 (a : ShadowBuf) : ShadowSet := { size := 0x30000, a := a, b := { addr := 0x80000 } }
def settled0 : ShadowBuf := { addr := 0x40000, epoch := 3, state := 2, units := 1, got := pieces 0 }
theorem met_MirrorWriteRuns : ForMe (linkState (paired { sset := some (sset0 { addr := 0x40000 }) })) 16 (frameOn 8 (.mirrorWrite 512 false false [1, 2])) ∧ (linkState {}).links.twin.sset = none ∧
    (linkState { sset := some (sset0 {}) }).links.twin.sset = some (sset0 {}) ∧ 65536 + 512 + ([1, 2] : List Byte).length ≤ (sset0 {}).size ∧ (sset0 {}).size < 65536 + 0x20000 + 1 ∧ (linkState {}).links.twin.frozen = false ∧
    ((linkState { frozen := true, sset := some (sset0 settled0) }).links.twin.frozen = true ∧ settled0.state = 2) := ⟨forMe _ _ _ _ (by decide) ⟨rfl, rfl⟩, by decide⟩
theorem met_MirrorLiveRuns : ForMe (linkState (paired { mset := some (mset0 1), restore := some restore0 })) 16 (frameOn 8 (.mirrorWrite 512 false true [1, 2])) ∧ (linkState {}).links.twin.restore = none ∧
    (let t := (linkState (paired { mset := some (mset0 1), restore := some restore0 })).links.twin; t.restore = some restore0 ∧ t.mset = some (mset0 1)) ∧ mirrorAddr (mset0 1).ranges 512 = some 0x10200 ∧ mirrorAddr (mset0 1).ranges 65536 = none :=
  ⟨forMe _ _ _ _ (by decide) ⟨rfl, rfl⟩, by decide⟩
def push0 (sent : List Nat) (settle : Bool) : MirrorPush := { epoch := 3, buf := false, units := 1, todo := [], sent := sent, settleSent := settle }
theorem met_MirrorAckRuns : ForMe (linkState (paired {})) 16 (frameOn 9 (.mirrorAck 512 true false)) ∧ (linkState {}).links.twin.copy = none ∧ (linkState {}).links.twin.push = none ∧
    ((linkState (paired { copy := some copy0 })).links.twin.copy = some copy0 ∧ copy0.buf = true ∧ 512 ∈ copy0.sent) ∧ ((linkState (paired { push := some (push0 [512] false) })).links.twin.push = some (push0 [512] false) ∧ (push0 [512] false).buf = false ∧ 512 ∈ (push0 [512] false).sent) :=
  ⟨forMe _ _ _ _ (by decide) ⟨rfl, rfl⟩, by decide⟩
theorem met_SettleRuns : ForMe (linkState (paired {})) 16 (frameOn 9 (.settle 3 false false false 1)) ∧ (linkState {}).links.twin.sset = none ∧ (linkState { sset := some (sset0 settled0) }).links.twin.sset = some (sset0 settled0) ∧
    (settled0.state = 2 ∧ settled0.epoch = 3 ∧ settled0.got.length = 128 * 1) ∧ ({} : ShadowBuf).got.length ≠ 128 * 1 := ⟨forMe _ _ _ _ (by decide) ⟨rfl, rfl⟩, by decide +kernel⟩
theorem met_SettleLiveRuns : ForMe (linkState (paired {})) 16 (frameOn 9 (.settle 3 true false false 1)) ∧ (linkState {}).links.twin.restore = none ∧ restore0.epoch = 3 ∧
    (let t := (linkState (paired { mset := some (mset0 1), restore := some { restore0 with got := pieces 0 } })).links.twin; t.restore = some { restore0 with got := pieces 0 } ∧ t.mset = some (mset0 1) ∧ 1 = (mset0 1).units ∧ (pieces 0).length = 128 * 1) ∧
    restore0.got.length ≠ 128 * 1 := ⟨forMe _ _ _ _ (by decide) ⟨rfl, rfl⟩, by decide +kernel⟩
theorem met_SettleAckRuns : ForMe (linkState (paired {})) 16 (frameOn 9 (.settleAck 3 false true)) ∧ (linkState {}).links.twin.mset = none ∧ (let t := (linkState (paired { mset := some (mset0 1), copy := some (copyAt [] [] true) })).links.twin
    t.mset = some (mset0 1) ∧ t.copy = some (copyAt [] [] true) ∧ (copyAt [] [] true).epoch = 3 ∧ (copyAt [] [] true).settleSent = true) := ⟨forMe _ _ _ _ (by decide) ⟨rfl, rfl⟩, by decide⟩
theorem met_SettleAckLiveRuns : ForMe (linkState (paired {})) 16 (frameOn 9 (.settleAck 3 true false)) ∧ ((linkState { push := some (push0 [] true) }).links.twin.push = some (push0 [] true) ∧ (push0 [] true).epoch = 3 ∧ (push0 [] true).settleSent = true) ∧
    (push0 [] false).settleSent = false ∧ (let t := (linkState { restore := some restore0 }).links.twin; t.push = none ∧ t.restore = some restore0 ∧ restore0.epoch = 3) ∧ (linkState {}).links.twin.restore = none := ⟨forMe _ _ _ _ (by decide) ⟨rfl, rfl⟩, by decide⟩
theorem met_RestoreReqRuns : ForMe (linkState (paired {})) 16 (frameOn 9 (.restoreReq 3)) ∧ (linkState {}).links.twin.sset = none ∧ (linkState { sset := some (sset0 settled0) }).links.twin.sset = some (sset0 settled0) ∧
    ((sset0 settled0).a.state = 2 ∧ (sset0 settled0).a.epoch = 3) ∧ ¬ ((sset0 {}).a.state = 2) ∧ ({ sset0 {} with b := settled0 }.b.state = 2) := ⟨forMe _ _ _ _ (by decide) ⟨rfl, rfl⟩, by decide⟩

/-! ### Counters, trace, sounding, self-test -/

def traceState (d : CoreDebug) : State := { cores := [(0, { dbg := d })] }
def onTrace : TraceCtl := { base := 0x100000, en := true }
theorem met_TraceRuns : ((traceState {}).core 0).dbg.buf.length < 256 ∧ ((traceState {}).core 0).dbg.drain = [] ∧ (let d := ((traceState { buf := List.replicate 256 0 }).core 0).dbg; 256 ≤ d.buf.length ∧ d.drain = []) ∧
    ¬ ringFull ((traceState {}).core 0) ∧ ringFull ((traceState { traceHead := 1 }).core 0) ∧ ((traceState { drain := [1] }).core 0).dbg.drain ≠ [] ∧
    (let d := ((traceState { trace := onTrace, buf := [1, 2] }).core 0).dbg; d.trace.en = true ∧ d.buf ≠ [] ∧ d.buf.length < 256) ∧ ((traceState {}).core 0).dbg.trace.en = false := by unfold ringFull; decide +kernel
theorem met_CtxHaltRuns : (base0.ctx 1).state = .placed ∧ (({} : State).ctx 1).state ≠ .placed ∧ (0 ∈ (base0.ctx 1).bench ∧ (base0.core 0).ctx = some 1) := by decide
theorem met_SoundingRuns : (({} : State).port 2).state = .disabled ∧ ((linkState {}).port 2).state ≠ .disabled ∧ ((linkState {}).port 2).sounding.staged.en = false ∧ ((portState2 (soundPort 0)).port 2).state = .sounding ∧
    (let x := (portState2 { up0 with sounding := { staged := { en := true } } }).port 2; x.state ≠ .disabled ∧ x.sounding.staged.en = true) ∧ (linkState (paired {})).links.twin.pair = .paired := by decide
theorem met_InjectRuns : ((linkState {}).port 2).state ≠ .sounding ∧ (let x := (portState2 (soundPort 1)).port 2; x.state = .sounding ∧ x.sounding.inForce.loop = 1) := by decide
theorem met_BridgeRuns : ¬ (∀ p ∈ base0.ctxs, p.2.state ≠ .placed ∧ p.2.state ≠ .suspended) ∧ (∀ p ∈ ({} : State).ctxs, p.2.state ≠ .placed ∧ p.2.state ≠ .suspended) ∧ (({} : State).bridge 3).busy = false ∧
    (({ dbg := { bridges := [(3, { busy := true })] } } : State).bridge 3).busy = true := by decide
theorem met_SelfTestRuns : let xs : List CoreFail := [⟨7, 1, 20⟩]
    ((∀ x ∈ xs, x.core < 1280) ∧ (∀ j ∈ [3], j < 16)) ∧ ¬ (∀ j ∈ [16], j < 16) ∧ (govState {}).power.rails = true ∧ (govState {}).dbg.stDone = false ∧ ({} : State).power.rails = false ∧
    xs.find? (fun x => x.core == 7) = some ⟨7, 1, 20⟩ ∧ xs.find? (fun x => x.core == 8) = none ∧ (({ cores := [(8, { stFail := true })] } : State).core 8).stFail = true := by decide

/-! ### SIGNAL and MOVE to another module, transposed moves -/

/-- The records of queue `e` of core 0 in a module whose node 9 is permitted to the job of context 1. -/
def farRec (e : Nat) (w : List W64) : State := { recState e [(0, w)] 1 with links := { links0 {} with jobs := [(0, job0)] } }
theorem met_RemoteSignalRuns : (∀ w ∈ [(0x400090002 : W64), 0x90002], RecIssues (farRec 1 [2, w, 0, 0]) 0 1 2 1 (effWords 2000000 [2, w, 0, 0])) ∧ wbits (effWords 2000000 [2, 0x400090002, 0, 0]) 1 31 16 = 9 ∧
    wbits (effWords 2000000 [2, 0x400090002, 0, 0]) 1 63 32 = 4 ∧ wbits (effWords 2000000 [2, 0x90002, 0, 0]) 1 63 32 = 0 ∧ ((farRec 1 [2, 0x90002, 0, 0]).queue 0 1).flight = [] := by
  refine ⟨fun w hw => ?_, by decide⟩
  simp only [List.mem_cons, List.not_mem_nil, or_false] at hw
  rcases hw with rfl | rfl
  · exact issues_of _ 0 1 2 1 [2, 0x400090002, 0, 0] (by decide)
  · exact issues_of _ 0 1 2 1 [2, 0x90002, 0, 0] (by decide)
/-- MOVE of `len` bytes from 0x2000 to 0x4000 of node 9, without a signal. -/
def awayWords (len : Nat) : List W64 := [0x40, 0x0009000000002000, 0x4000, BitVec.ofNat 64 len]
theorem met_RemoteMoveRuns : ∀ len ∈ [0, 1536], let s := farRec 2 (awayWords len)
    let ws := effWords 2000000 (awayWords len)
    RecIssues s 0 2 0x40 1 ws ∧ wbits ws 1 63 48 = 9 ∧ wbits ws 2 49 48 = 0 ∧ ((s.core 0).mv 2).recs = [] ∧ (s.ctx 1).rangeOk .r (wbits ws 1 47 0) (wbits ws 3 24 0) = true ∧ s.links.src.length < 65536 ∧ wbits ws 3 24 0 = len ∧
    (wbits ws 3 25 25 == 1) = false := by
  intro len h
  refine ⟨issues_of _ 0 2 0x40 1 (awayWords len) (by revert len; decide), ?_⟩
  revert len; decide
/-- A record to node 9 under claim 5, with two requests; the first is read or not. -/
def awayRec (d : Option (List Byte)) : MvRec := { mvRec0 0x2000 0x4000 with node := 9, claim := some 5, claimOk := true, reqs := [{ req0 0x2000 0x4000 with data := d }, { id := 1, src := 0x2004, dst := 0x4004, len := 4 }] }
def awayState (d : Option (List Byte)) : State := { stateOf { core0 gang0 with mv0 := { recs := [awayRec d] } } with links := { links0 {} with src := [src0] } }
theorem met_RemoteRequestRuns : (let s := awayState none; (s.core 0).ctx = some 1 ∧ ((s.core 0).mv 2).kth 1 = some (awayRec none, { id := 1, src := 0x2004, dst := 0x4004, len := 4 }) ∧ (∃ p ∈ (awayRec none).reqs, p.id < 1 ∧ p.data = none)) ∧
    (let s := awayState (some []); ((s.core 0).mv 2).kth 1 = some (awayRec (some []), { id := 1, src := 0x2004, dst := 0x4004, len := 4 }) ∧ (∀ p ∈ (awayRec (some [])).reqs, p.id < 1 → p.data ≠ none) ∧ (awayRec (some [])).claim = some 5 ∧
      s.links.src.find? (fun c => c.id == 5) = some src0) ∧ SourceReads (awayState none) { id := 1, src := 0x2004, dst := 0x4004, len := 4 } (memReadN [] 0x2004 4) ∧
    Slotted (awayState none) 0 2 1 (awayRec none) { id := 1, src := 0x2004, dst := 0x4004, len := 4 } .free :=
  ⟨by decide, by decide, ⟨by decide, .inl ⟨by decide, rfl, rfl⟩⟩, ⟨by decide, .inl rfl⟩⟩
/-- A transposed MOVE of 4 rows of 2 elements of 4 half bytes from 0x2000, 64 bytes apart, to slab 0. -/
def transWords : List W64 := [0x140, 0xFFFF000000002000, BitVec.ofNat 64 (0x100000000000 + 2 ^ 48), 0, BitVec.ofNat 64 (4 + 2 ^ 13 * 2 + 2 ^ 26 * 64), 0, 0, 0]
def transState : State := recState 2 [(0, transWords.take 4), (1, transWords.drop 4)] 2
def transRec (d : Option (List Byte)) : MvRec := { mvRec0 0x2000 (slabAddr0 0) with tw := 1, rows := 4, cols := 2, stride := 64, reqs := [{ req0 0x2000 (slabAddr0 0) with data := d }] }
def transMv (d : Option (List Byte)) : State := stateOf { core0 gang0 with mv0 := { recs := [transRec d] } }
theorem met_TransposedMoveRuns : (let ws := effWords 2000000 transWords; let r := moveRec (transState.queue 0 2).serial ws
      RecIssues transState 0 2 0x40 1 ws ∧ wbits ws 1 63 48 = 0xFFFF ∧ wbits ws 2 49 48 = 1 ∧ ((transState.core 0).mv 2).recs = [] ∧ r.rows = 4 ∧ (∀ i, i < r.rows → (transState.ctx 1).rangeOk .r (r.src + i * r.stride) r.rowBytes = true) ∧
      (transState.ctx 1).rangeOk .w r.dst r.len = true ∧ r.dst < hostBase ∧ r.len = 16) ∧
    (∀ d ∈ [none, some [1, 2, 3, 4]], let s := transMv d; (s.core 0).ctx = some 1 ∧ ((s.core 0).mv 2).kth 0 = some (transRec d, (transRec d).reqs.headD (req0 0 0)) ∧ (transRec d).tw ≠ 0 ∧ (transRec d).node = 0xFFFF ∧
      ((transRec d).reqs.headD (req0 0 0)).data = d) ∧ SourceReads (transMv none) (req0 0x2000 (slabAddr0 0)) (memReadN [] 0x2000 4) :=
  ⟨⟨issues_of _ 0 2 0x40 1 transWords (by decide), by decide⟩, by decide, by decide, .inl ⟨by decide, rfl, rfl⟩⟩

/-! ### The whole machine -/

theorem met_FrontRuns : ({ pending := [.evqCommit, .links] } : State).pending = .evqCommit :: [.links] ∧ State.reset.pending = [] := by decide
/-- The queue empties by one command, and a command on the reset state answers a next state. -/
theorem met_QueueShrinks : ∃ t, step { pending := [.evqCommit, .links] } = .next t ∧ t.pending = [.links] := ⟨_, rfl, rfl⟩
theorem met_MemoryKept : (∃ t, step State.reset = .next t) ∧ Memory.wf State.reset.far.mem = true ∧ Memory.wf State.reset.host = true := ⟨⟨_, rfl⟩, by decide⟩
theorem met_OtpAdvances : (∃ t, step { trust := { owners := owners0 .revoked } } = .next t) ∧ (keySlot { trust := { owners := owners0 .revoked } } 0).state = .active ∧
    (∀ k, (keySlot { trust := { owners := owners0 .empty } } k).state ≠ .empty → (keySlot { trust := { owners := owners0 .empty } } k).hash.length = 64) := by
  refine ⟨⟨_, rfl⟩, by decide, fun k h => ?_⟩
  match k, h with
  | 0, _ => exact List.length_map _
  | 1, h => exact absurd rfl h
  | 2, h => exact absurd rfl h
  | k + 3, h => exact absurd rfl h
theorem met_FarChannels : 0 < (31 - 4) * 24 * 2 ^ 30 ∧ (31 - 4) * 24 * 2 ^ 30 + 3 * (4 * 6 * 2 ^ 30) ≤ 744 * 2 ^ 30 - 1 ∧ 744 * 2 ^ 30 - 1 < (31 - 4) * 24 * 2 ^ 30 + (3 + 1) * (4 * 6 * 2 ^ 30) := by decide
theorem met_SlabPowerRegisters : (tblGet .on (({ cores := [(0, { slab := { banks := [(2, .off)] } })] } : State).core 0).slab.banks 2) = .off ∧ (tblGet .on (({} : State).core 0).slab.banks 2) = .on := by decide
theorem met_AbsentUnitsStop : ¬(1280 < 1280 ∧ (0 : Nat) < 16) ∧ ¬(0 < 1280 ∧ (16 : Nat) < 16) ∧ ¬((0 : Nat) < 1280 ∧ 4 < 4) ∧ 17 ≤ 17 := by decide

/-! ### Statements whose hypotheses only bound their operands -/

theorem met_CreditReturnRuns : 1279 < 1280 ∧ ((3 : Nat) = 2 ∨ (3 : Nat) = 3) := by decide
theorem met_BridgesAre : (0 : Nat) < 4 ∧ (3 : Nat) < 4 ∧ (0 + 3) % 2 = 1 ∧ (0 + 2) % 2 = 0 := by decide
theorem met_PhysRowIs : 1279 < 1280 ∧ 1279 % 320 / 16 = 19 := by decide
theorem met_CvtCommitRuns : 1279 < 1280 ∧ bitOf 0x8000 15 = true ∧ bitOf 0x8000 0 = false := by decide
theorem met_ReplyRuns : (({ channel := 1, sender := 5, header := 0x110 } : ReqRef).sender ≤ 5) ∧ (List.replicate 15 0).length ≤ 15 ∧ 15 < 16 := by decide
theorem met_RpopDbClrRuns : 3 < 4 := by decide
theorem met_RegisterWriteModule : 0xFFFFFFFF < 2 ^ 32 ∧ (0xFFFFC < 0x100000 ∧ 0xFFFFC % 4 = 0) ∧ (1 ≤ 15 ∧ 15 < 16) := by decide
theorem met_RegisterWriteUnits : 1279 < 1280 ∧ bitOf 0x80000000 31 = true ∧ bitOf 1 0 = true := by decide
theorem met_QueueRegistersReadBack : ∀ o ∈ [0, 4, 8, 0xC], ∃ t, exec (.registerWrite (coreWindow 0 + 0x1000 + 64 * 3 + o) 4 0xFFFFFFFF) {} = .next t ∧ ({} : State).readWord (coreWindow 0 + 0x1000 + 64 * 3 + 4) < 2 ^ 16 := by
  intro o ho
  simp only [List.mem_cons, List.not_mem_nil, or_false] at ho
  rcases ho with rfl | rfl | rfl | rfl <;> exact ⟨_, rfl, by decide⟩
theorem met_PortLaneRegisters : let x := tblGet ({} : LaneCfg) ({} : State).site.lanes 16; x.txPol < 2 ^ 8 ∧ x.rxPol < 2 ^ 8 ∧ x.txOrder < 2 ^ 24 ∧ x.rxOrder < 2 ^ 24 := by decide
theorem met_FarPlacesApart : 744 * 2 ^ 30 - 1 < 744 * 2 ^ 30 ∧ (744 * 2 ^ 30 - 512) % 512 = 0 ∧ 0 / 4096 = 4095 / 4096 := by decide
theorem met_IdleTicks : State.reset.pending = [] ∧ (tblGet ({} : Die) State.reset.dies (dieOf 1279)).released = false ∧ (∀ n, (State.reset.core n).me.events = []) := ⟨by decide, by decide, fun _ => rfl⟩

/-! ### Single commands: results worked out by hand from the rules -/

/-- What holds of the state that a command answers. -/
def after (i : Instr) (s : State) (p : State → Bool) : Bool := match exec i s with | .next t => p t | _ => false

/-- 5 + 7; 5 - 7 in 32 bits, zero-extended; unsigned saturation at 0; a shift by 33 is a shift by 1 (03_sett R92). -/
theorem test_add : after (.addScalar at0 { d := 3, a := 1, b := 2 }) base0 (fun t => (t.gang 0 0).getS 3 == 12 && (t.gang 0 0).pc == 0x108) = true := by decide
theorem test_sub_wraps : after (.subScalar at0 { d := 3, a := 1, b := 2 }) base0 (fun t => (t.gang 0 0).getS 3 == 0xFFFFFFFE) = true := by decide
theorem test_sub_saturates : after (.subScalar at0 { d := 3, a := 1, b := 2, sat := true, ty := 1 }) base0 (fun t => (t.gang 0 0).getS 3 == 0xFFFFFFFE) = true ∧
    after (.subScalar at0 { d := 3, a := 1, b := 2, sat := true }) base0 (fun t => (t.gang 0 0).getS 3 == 0) = true := by decide
theorem test_shl : after (.shlScalar at0 { d := 3, a := 1, ib := true, ext := 33 }) base0 (fun t => (t.gang 0 0).getS 3 == 10) = true := by decide
/-- 1 + 1 = 2; 1 / 3 to nearest, and towards zero; 2^24 + 1 is a tie that goes to the even neighbour; the largest number doubled overflows to infinity. -/
theorem test_fp : (f32Add .nearest 0x3F800000 0x3F800000).1 = 0x40000000 ∧ (f32Div .nearest 0x3F800000 0x40400000).1 = 0x3EAAAAAB ∧ (f32Add .nearest 0x4B800000 0x3F800000).1 = 0x4B800000 ∧
    (f32Add .nearest 0x7F7FFFFF 0x7F7FFFFF).1 = 0x7F800000 := by decide +kernel
/-- Page 97 of the interleaved region is the second page of channel 1 (08_far R219). -/
theorem test_far_place : farPlace 4 (97 * 4096 + 5) = (1, 4101) := by decide
/-- The example of R117: H 128, M 144 and two column groups take 49 cycles more than sigma, which is 416, suggests; the last unit then drains at once. -/
theorem test_fold_gap : foldTimes 0 0 32 false (foldUnits 144 128 128) = (416 - 1 + 49, 416 - 1 + 49 + 37 + 16 + 10) := by decide
/-- A loop of count 0 whose END an outer loop shares: the outer loop goes back to its first instruction, one iteration on (02_gangs R41; 03_sett R78). -/
theorem test_loop_zero_inner : after (.loopInsn at0 9 0x140 0x148) (gangState { gang0 with lstack := [{ first := 0x110, last := 0x140, after := 0x148, count := 2, iter := 0 }] })
    (fun t => (t.gang 0 0).pc == 0x110 && (t.gang 0 0).lstack.map (fun l => l.iter) == [1]) = true := by decide
/-- SIGNAL of 4 to tally 2 leaves for the hub's slot 6; the tally holds 4 once the message has arrived (09_queues R264; 11_tallies R306). -/
theorem test_signal : after (.signalRec 0 1) (recState 1 [(0, [2, 0x4FFFF0002, 0, 0])] 1) (fun t => t.net.tally.map (fun m => (m.vid, m.home, m.act)) == [(2, ⟨true, 0, 6⟩, .add 4)]) = true := by decide
/-- A NOP record retires: HEAD moves to slot 1 (09_queues R256). -/
theorem test_nop_head : after (.nopRec 0 2) (recState 2 [(0, [0, 0, 0, 0])] 1) (fun t => (t.queue 0 2).head == 1 && (t.queue 0 2).flight == []) = true := by decide
/-- QCTL keeps LOG2 12 at most and at least 6 (09_queues R284). -/
theorem test_queue_log2 : after (.registerWrite 0x1001008 4 0x3F) {} (fun t => (t.queue 0 0).staged == { log2 := 12, fenced := true, enable := true }) = true ∧
    after (.registerWrite 0x1001008 4 1) {} (fun t => (t.queue 0 0).staged == { log2 := 6 }) = true := by decide
/-- A message of the host to a core that does not run is answered E_ABSENT, 14, in bits 15 to 12 or above of the first word, with the request's code (14_host R391). -/
theorem test_absent : after (.mailboxSend 1 0 0x110) {} (fun t => match tblGet [] (t.pci.chan 1).replies 0 with | [m] => (m.words.headD 0).toNat % 256 == 0x10 | _ => false) = true := by decide

end Sys2Proof.Tests
end

/-!
The power registers of slab memory, SLAB_PWR and SLAB_PWR_BUSY (06_slab R172, R173): what their bits say of the banks, what they
hold right after reset, and that writes leave the state as it is.
-/

namespace Sys2Proof.SlabPower

open Machine Claims

/-! ### What a read of the registers answers -/

/-- The slab registers stand at offsets 0x0C00 to 0x0C1F of a core's window. -/
theorem readWord_slab (s : State) {n o : Nat} (hn : n < 1280) (ho : o < 0x20) :
    s.readWord (coreWindow n + (0xC00 + o)) = (s.core n).slab.word o := by
  rw [readCore s n _ hn (by omega)]
  unfold State.coreWord
  dsimp only
  iterate 12 rw [if_neg (by omega)]
  rw [if_pos (by omega), Nat.add_sub_cancel_left]

/-- Bit `b` of SLAB_PWR (R172). -/
theorem bitOf_slabPwr (m : Slab) {b : Nat} (hb : b < 32) :
    bitOf (m.word 0) b = (tblGet .on m.banks b == .on) :=
  (bitOf_test _ b).trans (bitSum_bit (fun i => tblGet .on m.banks i == .on) 32 b hb)

/-- Bit `b` of SLAB_PWR_BUSY (R173). -/
theorem bitOf_slabPwrBusy (m : Slab) {b : Nat} (hb : b < 32) :
    bitOf (m.word 4) b = (tblGet .on m.banks b == .draining || tblGet .on m.banks b == .waking) :=
  (bitOf_test _ b).trans
    (bitSum_bit (fun i => tblGet .on m.banks i == .draining || tblGet .on m.banks i == .waking) 32 b hb)

theorem slabPwr_says_on (s : State) {n b : Nat} (hn : n < 1280) (hb : b < 32) :
    bitOf (s.readWord (coreWindow n + 0xC00)) b = true ↔ tblGet .on (s.core n).slab.banks b = .on := by
  rw [readWord_slab s (o := 0) hn (by decide), bitOf_slabPwr _ hb, beq_iff_eq]

theorem slabPwrBusy_says_transit (s : State) {n b : Nat} (hn : n < 1280) (hb : b < 32) :
    bitOf (s.readWord (coreWindow n + 0xC04)) b = true ↔
      tblGet .on (s.core n).slab.banks b = .draining ∨ tblGet .on (s.core n).slab.banks b = .waking := by
  rw [readWord_slab s (o := 4) hn (by decide), bitOf_slabPwrBusy _ hb, Bool.or_eq_true, beq_iff_eq, beq_iff_eq]

theorem bank_off_of_both_clear (s : State) {n b : Nat} (hn : n < 1280) (hb : b < 32)
    (hpwr : bitOf (s.readWord (coreWindow n + 0xC00)) b = false)
    (hbusy : bitOf (s.readWord (coreWindow n + 0xC04)) b = false) :
    tblGet .on (s.core n).slab.banks b = .off := by
  have hOn := mt (slabPwr_says_on s hn hb).2 (Bool.eq_false_iff.1 hpwr)
  have hTransit := mt (slabPwrBusy_says_transit s hn hb).2 (Bool.eq_false_iff.1 hbusy)
  cases h : tblGet .on (s.core n).slab.banks b with
  | on => exact absurd h hOn
  | off => rfl
  | draining => exact absurd (.inl h) hTransit
  | waking => exact absurd (.inr h) hTransit

theorem reset_slabPwr {n : Nat} (hn : n < 1280) : State.reset.readWord (coreWindow n + 0xC00) = 0xFFFFFFFF :=
  (resetSlab n 0 hn (by decide)).trans (by decide)

theorem reset_slabPwrBusy {n : Nat} (hn : n < 1280) : State.reset.readWord (coreWindow n + 0xC04) = 0 :=
  (resetSlab n 4 hn (by decide)).trans (by decide)

/-! ### What a write of the registers does -/

/-- Of the slab registers only SLAB_ECC_ADDR, at 0x0C10, has a field that a write can change. -/
theorem writeWord_slab_readOnly (s : State) {n o : Nat} (v : Nat) (hn : n < 1280) (ho : o < 0x20) (hEcc : o ≠ 0x10) :
    s.writeWord (coreWindow n + (0xC00 + o)) v = s := by
  rw [writeCoreWindow s n _ v hn (by omega)]
  unfold State.writeCore
  iterate 8 rw [if_neg (by omega)]

theorem registerWrite_slab_readOnly (s : State) {n o : Nat} (v : Nat) (hn : n < 1280) (hAligned : o % 4 = 0) (ho : o < 0x20)
    (hEcc : o ≠ 0x10) : exec (.registerWrite (coreWindow n + (0xC00 + o)) 4 v) s = .next s := by
  have hWindow : coreWindow n = 0x1000000 + 0x4000 * n := rfl
  rw [reg4' s v (by omega) (by omega), writeWord_slab_readOnly s v hn ho hEcc]

/-- A write of 8 bytes at SLAB_PWR is a write of SLAB_PWR and then of SLAB_PWR_BUSY. -/
theorem registerWrite_slabPwr_pair (s : State) {n : Nat} (v : Nat) (hn : n < 1280) :
    exec (.registerWrite (coreWindow n + 0xC00) 8 v) s = .next s := by
  have hWindow : coreWindow n = 0x1000000 + 0x4000 * n := rfl
  rw [reg8' s v (by omega) (by omega), writeWord_slab_readOnly s (o := 0) v hn (by decide) (by decide), Nat.add_assoc,
    writeWord_slab_readOnly s (o := 4) _ hn (by decide) (by decide)]

/-- Settles O56: a read of either register is a sum of one power of two per bank in the states it names, and no write reaches a
field of the slab memory. -/
theorem slabPowerRegistersRead : Obligations.SlabPowerRegistersRead := by
  intro s n b v hn hb bank
  exact ⟨slabPwr_says_on s hn hb, slabPwrBusy_says_transit s hn hb, bank_off_of_both_clear s hn hb, reset_slabPwr hn,
    reset_slabPwrBusy hn, registerWrite_slab_readOnly s (o := 0) v hn (by decide) (by decide) (by decide),
    registerWrite_slab_readOnly s (o := 4) v hn (by decide) (by decide) (by decide), registerWrite_slabPwr_pair s v hn⟩

end Sys2Proof.SlabPower

/-!
The far memory address map (08_far R218, R219): the channel and the offset of every address, and that no two addresses share a
place. The map moves whole pages, so it is read page by page: `pageChannel` and `pageFrame` say where a page stands, and
`pageAt` takes the two back to the page.
-/

namespace Sys2Proof.FarMap

open Machine Claims

/-! ### The map on pages -/

/-- Pages of 4 KiB in the interleaved region. -/
def mixedPages (l : Nat) : Nat := (31 - l) * (24 * 2 ^ 18)

/-- Pages of 4 KiB in the local region of one die. -/
def localPages (l : Nat) : Nat := l * (6 * 2 ^ 18)

/-- Page frames of each channel that the interleaved region takes; the local region takes those above. -/
def mixedFrames (l : Nat) : Nat := (31 - l) * 2 ^ 16

/-- The channel that holds page `p`. -/
def pageChannel (l p : Nat) : Nat :=
  if p < mixedPages l then p % 96
  else 24 * ((p - mixedPages l) / localPages l) + (p - mixedPages l) % localPages l % 24

/-- The page frame of its channel in which page `p` stands. -/
def pageFrame (l p : Nat) : Nat :=
  if p < mixedPages l then p / 96 else mixedFrames l + (p - mixedPages l) % localPages l / 24

/-- The page that stands in page frame `f` of channel `c`. -/
def pageAt (l c f : Nat) : Nat :=
  if f < mixedFrames l then 96 * f + c
  else mixedPages l + (localPages l * (c / 24) + (24 * (f - mixedFrames l) + c % 24))

section PagesOfARegion
variable {l p : Nat}

theorem pageChannel_mixed (h : p < mixedPages l) : pageChannel l p = p % 96 := if_pos h

theorem pageFrame_mixed (h : p < mixedPages l) : pageFrame l p = p / 96 := if_pos h

theorem pageChannel_local (h : ¬ p < mixedPages l) :
    pageChannel l p = 24 * ((p - mixedPages l) / localPages l) + (p - mixedPages l) % localPages l % 24 := if_neg h

theorem pageFrame_local (h : ¬ p < mixedPages l) :
    pageFrame l p = mixedFrames l + (p - mixedPages l) % localPages l / 24 := if_neg h

end PagesOfARegion

theorem mixedPages_eq (l : Nat) : mixedPages l = 96 * mixedFrames l := by unfold mixedPages mixedFrames; omega

/-- No page is lost: the place of a page leads back to it, whatever LOCAL_UNITS is. -/
theorem pageAt_place (l p : Nat) : pageAt l (pageChannel l p) (pageFrame l p) = p := by
  unfold pageAt
  by_cases h : p < mixedPages l
  · rw [pageChannel_mixed h, pageFrame_mixed h, if_pos (Nat.div_lt_of_lt_mul (mixedPages_eq l ▸ h))]
    exact Nat.div_add_mod p 96
  · rw [pageChannel_local h, pageFrame_local h]
    have hPage := Nat.div_add_mod (p - mixedPages l) (localPages l)
    generalize (p - mixedPages l) / localPages l = d at *
    generalize (p - mixedPages l) % localPages l = q at *
    have hDie : (24 * d + q % 24) / 24 = d := by omega
    rw [if_neg (by omega), hDie]
    omega

section PagesOfFarMemory
variable {l p : Nat} (hl : l ≤ 31) (hp : p < 744 * 2 ^ 18)
include hl

/-- The local regions of the four dies end where far memory ends (R218). -/
theorem pages_total : mixedPages l + localPages l * 4 = 744 * 2 ^ 18 := by
  unfold mixedPages localPages; omega

/-- The frames of the two regions fill the 7.75 GiB of a channel (R218). -/
theorem frames_total : 24 * mixedFrames l + localPages l = 24 * (31 * 2 ^ 16) := by
  unfold mixedFrames localPages; omega

include hp

theorem pageChannel_lt : pageChannel l p < 96 := by
  by_cases h : p < mixedPages l
  · rw [pageChannel_mixed h]
    exact Nat.mod_lt p (by decide)
  · have hTotal := pages_total hl
    have hDie : (p - mixedPages l) / localPages l < 4 := Nat.div_lt_of_lt_mul (by omega)
    rw [pageChannel_local h]
    omega

theorem pageFrame_lt : pageFrame l p < 31 * 2 ^ 16 := by
  have hFrames := frames_total hl
  by_cases h : p < mixedPages l
  · have hMixed := mixedPages_eq l
    rw [pageFrame_mixed h]
    omega
  · have hTotal := pages_total hl
    have hPage : (p - mixedPages l) % localPages l < localPages l := Nat.mod_lt _ (by omega)
    rw [pageFrame_local h]
    omega

end PagesOfFarMemory

/-! ### The map on addresses -/

theorem mixedBytes (l : Nat) : (31 - l) * 24 * 2 ^ 30 = 4096 * mixedPages l := by unfold mixedPages; omega

theorem localBytes (l : Nat) : l * 6 * 2 ^ 30 = 4096 * localPages l := by unfold localPages; omega

theorem mixedOffset (l : Nat) : (31 - l) * 256 * 2 ^ 20 = mixedFrames l * 4096 := by unfold mixedFrames; omega

/-- An address keeps its place within its page (R219): the map is the map on pages. -/
theorem farPlace_eq (l a : Nat) :
    farPlace l a = (pageChannel l (a / 4096), pageFrame l (a / 4096) * 4096 + a % 4096) := by
  unfold farPlace
  dsimp only
  rw [mixedBytes l, localBytes l, mixedOffset l]
  by_cases h : a / 4096 < mixedPages l
  · rw [pageChannel_mixed h, pageFrame_mixed h, if_pos (by omega)]
  · have hBase : (a - 4096 * mixedPages l) / 4096 = a / 4096 - mixedPages l := by rw [Nat.sub_mul_div]
    have hDie : (a - 4096 * mixedPages l) / (4096 * localPages l) = (a / 4096 - mixedPages l) / localPages l := by
      rw [← Nat.div_div_eq_div_mul, hBase]
    have hPage : (a - 4096 * mixedPages l - (a / 4096 - mixedPages l) / localPages l * (4096 * localPages l)) / 4096
        = (a / 4096 - mixedPages l) % localPages l := by
      rw [Nat.mul_left_comm, Nat.sub_mul_div, hBase, Nat.mod_eq_sub_div_mul]
    rw [pageChannel_local h, pageFrame_local h, if_neg (by omega), hDie, hPage, Nat.add_mul]

theorem farPlace_bounds {l a : Nat} (hl : l ≤ 31) (ha : a < 744 * 2 ^ 30) :
    (farPlace l a).1 < 96 ∧ (farPlace l a).2 < 31 * 256 * 2 ^ 20 := by
  have hPage : a / 4096 < 744 * 2 ^ 18 := by omega
  have hFrame := pageFrame_lt hl hPage
  rw [farPlace_eq]
  exact ⟨pageChannel_lt hl hPage, by dsimp only; omega⟩

/-- A page lies whole in one channel, at consecutive offsets. -/
theorem farPlace_of_same_page (l : Nat) {a b : Nat} (h : a / 4096 = b / 4096) :
    (farPlace l a).1 = (farPlace l b).1 ∧ (farPlace l a).2 + b = (farPlace l b).2 + a := by
  rw [farPlace_eq l a, farPlace_eq l b, h]
  exact ⟨rfl, by dsimp only; omega⟩

/-- An aligned line, request or block lies in one page. -/
theorem aligned_same_page {a n k : Nat} (hn : n = 64 ∨ n = 128 ∨ n = 512) (ha : a % n = 0) (hk : k < n) :
    (a + k) / 4096 = a / 4096 := by
  rcases hn with rfl | rfl | rfl <;> omega

/-- No two addresses share a place: equal places have one page and one place within it. -/
theorem farPlace_injective (l : Nat) : Function.Injective (farPlace l) := by
  intro a b h
  rw [farPlace_eq l a, farPlace_eq l b, Prod.mk.injEq] at h
  obtain ⟨hChannel, hOffset⟩ := h
  have hFrame : pageFrame l (a / 4096) = pageFrame l (b / 4096) := by omega
  have hPage : a / 4096 = b / 4096 := by
    rw [← pageAt_place l (a / 4096), hChannel, hFrame, pageAt_place]
  omega

/-! ### The rule of R219, address by address -/

/-- The local regions begin at the end of the interleaved region, and far memory ends with them (R218). -/
theorem regions_total {l : Nat} (hl : l ≤ 31) : (31 - l) * 24 * 2 ^ 30 + l * 6 * 2 ^ 30 * 4 = 744 * 2 ^ 30 := by omega

theorem farPlace_interleaved {l a : Nat} (h : a < (31 - l) * 24 * 2 ^ 30) :
    farPlace l a = (a / 2 ^ 12 % 96, a / 2 ^ 12 / 96 * 4096 + a % 4096) := if_pos h

/-- In the local region of die `d` the division of R219 answers `d`. -/
theorem farPlace_local {l a d : Nat} (hLow : (31 - l) * 24 * 2 ^ 30 + d * (l * 6 * 2 ^ 30) ≤ a)
    (hHigh : a < (31 - l) * 24 * 2 ^ 30 + (d + 1) * (l * 6 * 2 ^ 30)) :
    let q := (a - (31 - l) * 24 * 2 ^ 30 - d * (l * 6 * 2 ^ 30)) / 2 ^ 12
    farPlace l a = (24 * d + q % 24, (31 - l) * 256 * 2 ^ 20 + q / 24 * 4096 + a % 4096) := by
  have hDie : (a - (31 - l) * 24 * 2 ^ 30) / (l * 6 * 2 ^ 30) = d := Nat.div_eq_of_lt_le (by omega) (by omega)
  intro q
  unfold farPlace
  dsimp only
  rw [if_neg (by omega), hDie] <;> rfl

/-- Four intervals of one size in a row hold every number from the first one's start to the last one's end. -/
theorem in_some_interval {start size a : Nat} (ha : a < start + size * 4) :
    a < start ∨ ∃ d, d < 4 ∧ start + d * size ≤ a ∧ a < start + (d + 1) * size := by
  by_cases h : a < start
  · exact .inl h
  · have hBelow := Nat.div_mul_le_self (a - start) size
    have hAbove := Nat.lt_div_mul_add (a := a - start) (b := size) (by omega)
    exact .inr ⟨(a - start) / size, Nat.div_lt_of_lt_mul (by omega), by omega, by rw [Nat.add_mul]; omega⟩

theorem farChannels : FarChannels := by
  intro l a hl ha
  exact ⟨farPlace_interleaved, fun _ _ => farPlace_local, in_some_interval (Nat.lt_of_lt_of_eq ha (regions_total hl).symm)⟩

theorem farPlacesApart : FarPlacesApart := by
  intro l a b hl ha _
  exact ⟨farPlace_bounds hl ha, farPlace_of_same_page l,
    fun _ _ hn hAligned hk => (farPlace_of_same_page l (aligned_same_page hn hAligned hk)).1, fun h => farPlace_injective l h⟩

/-- Settles O55: the map moves whole pages, and from a page's place the page can be found again. -/
theorem farMemoryAddressMap : Obligations.FarMemoryAddressMap := ⟨farChannels, farPlacesApart⟩

end Sys2Proof.FarMap

/-!
The owner keys in the OTP (17_site_trust R480, R481, R486): `exec_keep` says that no command moves a slot backwards, and the tick
of an empty queue keeps the same, so a step does. What a slot may become is `OwnerSlot.advancesTo`.
-/

namespace Sys2Proof.OwnerKeys

open Machine Claims

/-- A step does what `Keep` allows to the state with the rest of the queue. -/
theorem step_keep {s t : State} (h : step s = .next t) : Keep { s with pending := s.pending.tail } t := by
  unfold step at h
  split at h
  next hEmpty =>
    obtain rfl := Host.Outcome.next.inj h
    have hTail : { s with pending := s.pending.tail } = s := by rw [hEmpty, List.tail_nil, ← hEmpty]
    rw [hTail]
    exact State.advance_keep s 5
  next c rest hQueue =>
    rw [hQueue]
    exact exec_keep c _ t h

theorem slotRank_le_of_advancesTo {x y : OwnerSlot} (h : x.advancesTo y) : slotRank x.state ≤ slotRank y.state := by
  rcases h with rfl | hEmpty | ⟨hActive, hRevoked, -⟩
  · exact Nat.le_refl _
  · rw [hEmpty]
    exact Nat.zero_le _
  · rw [hActive, hRevoked]
    decide

theorem hash_eq_of_advancesTo {x y : OwnerSlot} (h : x.advancesTo y) (hWritten : x.state ≠ .empty) : y.hash = x.hash := by
  rcases h with rfl | hEmpty | ⟨-, -, hHash⟩
  · rfl
  · exact absurd hEmpty hWritten
  · exact hHash

/-- Settles O54: every command and the tick of an empty queue keep the OTP (`OtpKeep`), and a slot that advances gains in rank and
keeps a hash once it has one. -/
theorem ownerKeysOnlyAdvance : Obligations.OwnerKeysOnlyAdvance := by
  intro s t hStep
  obtain ⟨hRollback, hSlot, hFour, hActive, hHash⟩ := (step_keep hStep).otp
  exact ⟨fun k => slotRank_le_of_advancesTo (hSlot k), fun k => hash_eq_of_advancesTo (hSlot k), hFour, hActive, hHash, hRollback⟩

end Sys2Proof.OwnerKeys
